-- ==== Sys2Proof/Word.lean ====
section
/-! DEFINITION. Words, bytes and the bit fields the spec numbers from the least significant bit (00_scope,
Conventions; R7: little-endian). -/

namespace Sys2Proof

/-- One byte. -/
abbrev Byte := BitVec 8

/-- A 32-bit word: a register of BAR0, an FP32 bit pattern, an INT32 element. -/
abbrev Word := BitVec 32

/-- Field of `n` bits of the number `w`, its lowest bit at position `lo`. -/
def fieldAt (w lo n : Nat) : Nat := w / 2 ^ lo % 2 ^ n

/-- Bit `i` of the number `w`. -/
def bitAt (w i : Nat) : Bool := w / 2 ^ i % 2 == 1

/-- 1 for true, 0 for false: a one-bit field of a register. -/
def boolBit (b : Bool) : Nat := if b then 1 else 0

/-- `n` shifted up to bit position `lo`. -/
def atBit (n lo : Nat) : Nat := n * 2 ^ lo

/-- Quotient rounded up. -/
def ceilDiv (a b : Nat) : Nat := (a + b - 1) / b

end Sys2Proof
end

