-- ==== Sys2Proof/Kinds.lean ====
section
/-! DEFINITION. The small types that operands of commands are made of: unit numbers as the spec numbers them (R15),
and closed lists of alternatives. -/

namespace Sys2Proof

/-- Region n, 0 to 11 (R15). -/
abbrev Region := Fin 12
/-- Tensor block local to its region, 0 to 3 (R48). -/
abbrev Blk := Fin 4
/-- Compute stack, 0 to 23 (R15). -/
abbrev Stack := Fin 24
/-- DRAM die of a stack: 0 to 15 data dies, 16 and 17 check dies (R15). -/
abbrev Die := Fin 18
/-- Bank cell of a die, 0 to 63 (R15). -/
abbrev BankCell := Fin 64
/-- Dispatch slot of a stack sequencer, 0 to 3 (R144). -/
abbrev SlotNo := Fin 4
/-- Domain, 0 to 11 (R26). -/
abbrev Domain := Fin 12
/-- Request entry, 0 to 4,095 (R215). -/
abbrev ReqNo := Fin 4096
/-- Customer, 0 to 1,023 (R351). -/
abbrev CustNo := Fin 1024
/-- Stream queue of a region, 0 to 31 (R254). -/
abbrev QueueNo := Fin 32
/-- Span port, 0 to 11 (R278). -/
abbrev PortNo := Fin 12
/-- Host work ring, 0 to 63 (R372). -/
abbrev RingNo := Fin 64
/-- Tensor die, 0 to 5 (R15). -/
abbrev TDie := Fin 6
/-- Target of the event concentrator: 0 to 255 MSI-X vectors, 256 the management block (R385). -/
abbrev TargetNo := Fin 257
/-- Router of the fabric: 0 to 11 regions, 12 and 13 the I/O dies (R297 Table 6). -/
abbrev Router := Fin 14

/-- Who made an access to a stack: the SOURCE codes of `MEM_UE_LOG` (R324 Table 8), and the copy of a row repair, to which
Table 8 gives none (R319; log 106). -/
inductive MemSource where
  | bau | tensor | host | normaliser | scrub | imageCopy | rowRepair
  deriving DecidableEq, Repr

/-- The unit that makes an access: the host, a tensor block's operation, the copy engine of a region, the BAUs of a
stack, its normalisers (R324 Table 8, R444). -/
inductive Accessor where
  | host
  | block (r : Region) (b : Blk)
  | copyEngine (r : Region)
  | bau (st : Stack)
  | normaliser (st : Stack)
  deriving DecidableEq, Repr

/-- Stack cache hints (R168). -/
inductive Hint where
  | stream | keep | last
  deriving DecidableEq, Repr

/-- The two tensor PLLs of a tensor die (R398). -/
inductive Pll where
  | a | b
  deriving DecidableEq, Repr

/-- Message classes of the fabric (R269). -/
inductive FabClass where
  | ctrl | rsp | req
  deriving DecidableEq, Repr

/-- A protected link (R272, R273). -/
inductive Link where
  | fabric (router : Router) (dir : Fin 6)
  | bond (st : Stack)
  | span (p : PortNo)
  | twin
  deriving DecidableEq, Repr

/-- The replay of a flit on a link, and whether the flit failed again (R273). `channel`: of a fabric or tree link (R268);
the other links have one. -/
structure FlitReplay where
  link : Link
  channel : Fin 25
  failed : Bool
  deriving DecidableEq, Repr

/-- What the training of a span port ends with (R279): the identity and port the partner sent, or no partner. -/
inductive TrainEnd where
  | reached (partnerId : BitVec 6) (partnerPort : BitVec 4)
  | none
  deriving DecidableEq, Repr

/-- What a receiver sends back on a channel of a span port (R280, R281): credits for bytes of its receive buffer, or the
acknowledgement of the oldest message's last flit. -/
inductive SpanReply where
  | credit (n : Nat)
  | ack
  deriving DecidableEq, Repr

/-- A reply that comes back on a channel of a port. -/
structure SpanBack where
  port : PortNo
  channel : Byte
  reply : SpanReply
  deriving DecidableEq, Repr

/-- A SPAN_SEND operation: its block, and what has come back from the partner, if anything. -/
structure SpanSend where
  blk : Blk
  got : Option SpanBack
  deriving DecidableEq, Repr

/-- The next step of a span tree's round (R284): the domain, and bytes of new credit for channel 255 of a port, if any. -/
structure TreeTurn where
  dom : Domain
  credit : Option (PortNo × Nat)
  deriving DecidableEq, Repr

/-- Who writes an event concentrator register (R393, R394). -/
inductive Agent where
  | host | mgmt
  deriving DecidableEq, Repr

/-- What a device sends of itself at an attach (R288, R491): its role, true B, and the digest of its twin section. -/
structure TwinHello where
  role : Bool
  digest : List Byte
  deriving DecidableEq, Repr

/-- A cause of an attach attempt that fails (R288). -/
inductive AttachFail where
  | train | mismatch
  deriving DecidableEq, Repr

/-- The causes that R361 groups: hot reset, link disable, link-down. -/
inductive LinkReset where
  | hotReset | linkDisable | linkDown
  deriving DecidableEq, Repr

/-- What the firmware that the ROM reads is: what the flash answers (R434, R463). -/
inductive FlashAnswer where
  | image (bytes : List Byte)
  | noAnswer
  deriving DecidableEq, Repr

/-- The wake-admission queue a grant comes from (R409). -/
inductive WakeQueue where
  | region | stack
  deriving DecidableEq, Repr

/-- The memory BARs of the function (R363 Table 3). -/
inductive Bar where
  | bar0 | bar2 | bar4
  deriving DecidableEq, Repr

/-- The capabilities of the function (R356 Table 1). -/
inductive Capability where
  | pciExpress | powerManagement | msix | advancedErrorReporting | dataObjectExchange | dataLinkFeature
  | physicalLayer16 | physicalLayer32 | physicalLayer64 | laneMargining
  deriving DecidableEq, Repr

/-- What a configuration read asks for (R356, R363): the manual names these items, not their places in configuration
space (log 104). -/
inductive ConfigItem where
  | vendorId | deviceId | classCode | functions
  | bar (b : Bar)
  | capabilities
  | busMaster | msixEnable | functionMask | powerState
  | maxPayload | maxReadRequest
  | linkSpeed | linkWidth
  | doeError
  deriving DecidableEq, Repr

/-- What a configuration read gives: a number, a BAR with its address, type and size, or the list of capabilities. -/
inductive ConfigValue where
  | num (n : Nat)
  | bar (addr : BitVec 64) (wide prefetchable : Bool) (size : Nat)
  | capabilities (l : List Capability)
  deriving DecidableEq, Repr

/-- A configuration request to the function (R356, R358, R363, R435): a read of an item, a write of the command bits that
this manual uses, of a BAR, or of the payload and read request sizes in bytes. -/
inductive ConfigReq where
  | read (item : ConfigItem)
  | write (busMaster msixEnable functionMask d3hot : Bool)
  | writeBar (b : Bar) (addr : BitVec 64)
  | writeSizes (payload readRequest : Nat)
  deriving DecidableEq, Repr

/-- Widths that the host link can train to (R356, R360). -/
inductive LinkWidth where
  | x16 | x8 | x4 | x2 | x1
  deriving DecidableEq, Repr

/-- What the training of the host link ends with (R356, R360): the rate that the host and the lanes reach, 0 to 5 for 2.5, 5,
8, 16, 32 and 64 GT/s, and the width. -/
structure LinkTrained where
  rate : Fin 6
  width : LinkWidth
  deriving DecidableEq, Repr

/-- What the boot ROM finds (R434): the answer of the flash, and how the host link trains. -/
structure RomFinds where
  flash : FlashAnswer
  link : LinkTrained
  deriving DecidableEq, Repr

/-- The SPDM transports (R468): the DOE mailbox, and MCTP at an address of the SMBus (R488). -/
inductive SpdmPort where
  | doe
  | mctp (addr : BitVec 7)
  deriving DecidableEq, Repr

/-- SPDM requests that the responder knows (R468), and every other code. NEGOTIATE_ALGORITHMS offers signature and hash
algorithms and measurement specifications as bits. -/
inductive SpdmBody where
  | getVersion
  | getCapabilities
  | negotiateAlgorithms (asym hash : Word) (measSpec : Byte)
  | getDigests
  | getCertificate (slot : BitVec 4) (offset length : BitVec 16)
  | challenge (slot : BitVec 4) (nonce : List Byte)
  | getMeasurements (index : BitVec 8) (signed : Bool) (nonce : List Byte)
  | other (code : BitVec 8)
  deriving DecidableEq, Repr

/-- An SPDM request: its version byte and what it asks (R468). -/
structure SpdmReq where
  version : Byte
  body : SpdmBody
  deriving DecidableEq, Repr

/-- One request's part of a twin record (R293 Table 2): the number of the entry (log 64), the 64 bytes of the request
entry as sixteen words, and its result record as sixteen words. -/
structure TwinPart where
  entry  : Nat
  req    : List Word
  result : List Word
  deriving DecidableEq, Repr

/-- One item of the mirror stream (R291 to R293). -/
inductive TwinItem where
  /-- A mirrored write: the bytes go to the same device address of the shadow area. -/
  | write (addr : BitVec 48) (bytes : List Byte)
  /-- A record: SEQ, STEP, DOMAIN, KIND (false: STEP, true: COMMAND) and its per-request parts. -/
  | record (seq : BitVec 32) (step : BitVec 16) (domain : BitVec 4) (command : Bool) (parts : List TwinPart)
  /-- The end of a full copy, acknowledged as a record is (R450 step 4). -/
  | copyEnd
  deriving DecidableEq, Repr

/-- One area of the twin's list of outgoing mirror areas (R288 step 3): view, stacks, first band, bands. -/
structure MirrorArea where
  bankView  : Bool
  onStacks  : BitVec 24
  bandFirst : Nat
  bandCount : Nat
  deriving DecidableEq, Repr

/-- The levels on the strap lands (R485 Table 6). -/
structure Straps where
  pwrClass   : BitVec 2
  twinRole   : Bool
  bootSrc    : BitVec 2
  winSize    : BitVec 3
  spanId     : BitVec 6
  pcieMaxGen : BitVec 2
  safeBoot   : Bool
  deriving DecidableEq, Repr

end Sys2Proof
end

