-- ==== Sys2Proof/Syntax.lean ====
section
/-! DEFINITION. The commands: one constructor for each row of spec/opcode_table.json, in the table's order. A command is
one indivisible step (95_what_each_step_holds). The table gives its rows no bits and no operands: each constructor
names the units the step concerns and carries what comes from outside the block (log 4). -/

namespace Sys2Proof

/-- The commands of the block. -/
inductive Instr where
  -- Macro-operations, executed by the engine of block `b` of region `r` (03_macro_ops)
  | matmul (r : Region) (b : Blk)
  | matmulAcc (r : Region) (b : Blk)
  | elem (r : Region) (b : Blk)
  | reduce (r : Region) (b : Blk)
  | rowstat (r : Region) (b : Blk)
  | move (r : Region) (b : Blk)
  | layout (r : Region) (b : Blk)
  | gather (r : Region) (b : Blk)
  | scatter (r : Region) (b : Blk)
  | scatterAcc (r : Region) (b : Blk)
  | stackSeq (r : Region) (b : Blk)
  | stackScan (r : Region) (b : Blk)
  | treeReduce (r : Region) (b : Blk)
  | spanSend (r : Region) (op : SpanSend)
  | spanRecv (r : Region) (b : Blk)
  | waitFlag (r : Region) (b : Blk)
  | setFlag (r : Region) (b : Blk)
  | stepEnd (r : Region) (b : Blk)
  | bwdScores (r : Region) (b : Blk)
  | bwdRowdot (r : Region) (b : Blk)
  | bwdDscore (r : Region) (b : Blk)
  -- Block sequencer (03_macro_ops); `pos`: place among the operations in flight, oldest first
  | opIssue (r : Region) (b : Blk)
  | opComplete (r : Region) (b : Blk) (pos : Fin 32)
  | remoteFlagSet (r : Region)
  | imageLoadDone (r : Region) (b : Blk)
  -- Stack sequences (05_compute_stacks, 06_attention)
  | stackDispatch (st : Stack)
  | loada (st : Stack) (slot : SlotNo)
  | wxv (st : Stack) (d : Fin 16) (c : BankCell)
  | attnDecode (st : Stack) (d : Fin 16) (c : BankCell)
  | normalise (st : Stack) (slot : SlotNo)
  | emit (st : Stack) (d : Fin 16) (c : BankCell)
  | store (st : Stack) (d : Fin 16) (c : BankCell)
  | yield (st : Stack) (d : Fin 16) (c : BankCell)
  | refslot (st : Stack) (d : Fin 16) (c : BankCell)
  | seqEnd (st : Stack) (d : Fin 16) (c : BankCell)
  | sequenceEnd (st : Stack) (slot : SlotNo)
  | attnRecordMerge (st : Stack) (slot : SlotNo)
  -- Bank cells and timing rules (05_compute_stacks); `cycle`: the BAU cycle of the turn
  | streamActivation (st : Stack) (d : Fin 16) (c : BankCell) (cycle : Nat)
  | yieldPoint (st : Stack) (d : Fin 16) (c : BankCell)
  | bankAccess (who : Accessor) (hint : Hint) (addr : BitVec 48) (len : Nat) (wdata : Option (List Byte))
  | refreshDue (st : Stack) (d : Die) (c : BankCell)
  | refreshDone (st : Stack) (d : Die) (c : BankCell)
  | stackRuleWrite (st : Stack) (v : Word)
  | dieApplyRule (st : Stack) (d : Fin 16)
  | modeTimeout (st : Stack)
  | dropKeep (st : Stack)
  -- Vector scan (07_retrieval)
  | scanRegionMerge (r : Region)
  | scanListArrival (r : Region)
  | scanMergeTimeout (r : Region)
  -- Memory integrity (12_memory_integrity); `row` of a stripe in its bank, `chunk` its 32-byte place in the row
  | reconstruction (st : Stack) (bank : Fin 128) (row : Fin 20480) (chunk : Fin 64)
  | deltaGrant (st : Stack)
  | deltaApply (st : Stack) (check : Fin 2)
  | stripeLockGrant (st : Stack) (bank : Fin 128) (row : Fin 20480) (chunk : Fin 64)
  | narrowWrite (who : Accessor) (addr : BitVec 48) (bytes : List Byte)
  | fullStripeWrite (who : Accessor) (addr : BitVec 48) (bytes : List Byte)
  | stripeRepair (st : Stack) (bank : Fin 128) (row : Fin 20480) (chunk : Fin 64) (twin : Option (List Byte))
  | scrubVisit (st : Stack)
  | rowRepair (st : Stack) (d : Die) (bank : Fin 128) (row : Fin 20480)
  | flipArm (st : Stack) (v : Word)
  | remapLogRead (st : Stack)
  | pageRetireLogRead (st : Stack)
  | fillComplete
  | fillTimeout
  -- Serving engine (08_serving)
  | submit (i : ReqNo)
  | cancel (i : ReqNo)
  | park (i : ReqNo)
  | resume (i : ReqNo)
  | release (i : ReqNo)
  | compose (dom : Domain)
  | phaseRelease (dom : Domain)
  | tokenDelivery (i : ReqNo)
  | packingDone (i : ReqNo)
  | expansionDone (i : ReqNo)
  | parkTtlExpire (i : ReqNo)
  | custCredit (c : CustNo) (n : Word)
  | serveKick (v : Word)
  -- Bundles, domains and pre-emption (09_domains_preemption)
  | admitBundle
  | retire
  | suspendComplete (dom : Domain)
  | saveComplete (r : Region)
  | suspendedStepContinue (dom : Domain)
  | domPreemptWrite (dom : Domain) (v : Word)
  | domainStall (dom : Domain)
  -- Stream queues (10_stream_queues)
  | queueEntryWrite (r : Region) (q : QueueNo)
  | queueRelease (r : Region) (q : QueueNo)
  | queueMark (r : Region) (q : QueueNo)
  | queueRewind (r : Region) (q : QueueNo)
  | queueStall (r : Region) (q : QueueNo)
  -- Fabric, reduction tree, span and twin links (11_fabric_links)
  | fabricMessage (src dst : Router) (cls : FabClass)
  | linkReplay (r : FlitReplay)
  | treeRoundComplete (dom : Domain) (late : Bool)
  | treeTimeout (dom : Domain)
  | spanTrainResult (p : PortNo) (res : TrainEnd)
  | spanRetrain (p : PortNo)
  | spanMessageArrival (p : PortNo) (channel : Byte) (bytes : List Byte)
  | spanTreeRound (turn : TreeTurn)
  | spanTimeout (r : Region) (b : Blk) (pos : Fin 32)
  | twinAttach
  | twinAttached (hello : TwinHello) (areas : List MirrorArea)
  | twinDetach
  | twinHeartbeatSend
  | twinHbToggle
  | heartbeatTimeout
  | ackTimeout
  | twinRecordApply (item : TwinItem)
  | twinAckReceived
  | twinRepairRead (addr : BitVec 48) (len : Nat)
  | twinPromote (v : Word)
  -- Structure image (13_structure_image)
  | structCommit (v : Word)
  | structCopyDone
  -- Host interface (14_host_interface)
  | hostWindowWrite (off : Nat) (bytes : List Byte)
  | hostWindowRead (off : Nat) (len : Nat)
  | atomicOpRequest (bar : Fin 6) (off : Nat)
  | configRequest (q : ConfigReq)
  | pennantGive (w : Fin 4096) (v : Word)
  | pennantTake (w : Fin 4096) (v : Word)
  | pennantStall (page : Fin 131072)
  | ringEnable (g : RingNo) (v : Word)
  | ringDoorbell (g : RingNo) (v : Word)
  | ringNop (g : RingNo)
  | ringMove (g : RingNo)
  | ringLayout (g : RingNo)
  | ringFill (g : RingNo)
  | ringGiveBack (g : RingNo)
  | ringEntryComplete (g : RingNo)
  -- Event concentrator (15_interrupts)
  | sourceDoorbell (v : Word)
  | eventRaise (src : BitVec 11)
  | eventWithdraw (src : BitVec 11)
  | msixUnmask (vector : Fin 256)
  | ecClaim (who : Agent) (t : TargetNo)
  | ecEoi (who : Agent) (t : TargetNo) (v : Word)
  | ecPendingWrite (who : Agent) (w : Fin 64) (v : Word)
  | ecHoldTake (who : Agent) (v : Word)
  | ecHoldRelease (who : Agent) (v : Word)
  | ecHoldExpire
  | ecModeWrite (v : Word)
  -- Clocks, power and wake admission (16_clocks_power)
  | clkSelWrite (d : TDie) (v : Word)
  | pllLock (d : TDie) (p : Pll)
  | tdieAutoSwitch (d : TDie)
  | floorEnforce (d : TDie)
  | pllIdleStop (d : TDie) (p : Pll)
  | powerCompare (d : TDie) (mean : BitVec 10)
  | regionSleep (r : Region)
  | stackSelfRefresh (st : Stack)
  | wakeGrant (q : WakeQueue)
  | regionAwake (r : Region)
  | stackSrExit (st : Stack)
  | referenceLoss
  | referenceReturn
  -- Temperature (17_thermal); readings in 1/16 °C
  | thermalSample (readings : List (Nat × BitVec 16))
  | graceExpire (d : TDie)
  | coolingStepDown (d : TDie)
  | thermalTrip (sensor : Fin 196)
  | thermalRestart
  -- Power-on, fill and reset (18_startup_reset)
  | vddKeepUp
  | pwrgoodRise (lands : Straps)
  | pwrgoodFall
  | perstAssert
  | perstDeassert
  | hotReset (cause : LinkReset)
  | deviceReset (v : Word)
  | romReady (found : RomFinds)
  -- Firmware and attestation (20_security)
  | fwPush (v : Word)
  | firmwareVerify (fuseFail : Option Nat)
  | bootLinksTrained
  | linkTrainTimeout
  | flashUpdate (v : Word) (flashOk : Bool)
  | spdmRequest (port : SpdmPort) (q : SpdmReq)
  | measRunningRead
  | reportGo
  | reportDone
  | reportTreeReady
  | iodieLost (io : Fin 2)
  -- Lands and test port (21_package_signals)
  | twinPresentInChange (level : Bool)
  | twinHbInEdge (level : Bool)
  | bypass
  | idcode
  | samplePreload (shift : List Bool)
  | extest
  | clamp
  | highz
  -- Register accesses (00_scope): of `len` bytes at an offset of a BAR
  | reg64LowerRead (who : Agent) (bar : Fin 6) (off len : Nat)
  | registerWrite (who : Agent) (bar : Fin 6) (off len : Nat) (v : BitVec 64)
  -- Rows added after the numbered list
  | vddKeepLoss
  | linkHeartbeatArrival
  | attachFailure (why : AttachFail)
  deriving DecidableEq, Repr

end Sys2Proof
end

