-- ==== Sys2Proof/Decode.lean ====
section
/-! DEFINITION. The command that a word of the opcode table spells. The table gives no row any bits (its fields are
empty), so no word spells a command. -/

namespace Sys2Proof

/-- The command whose bits are `w`, `nbits` of them: none, for every word. -/
def decodeTableWord (_nbits _w : Nat) : Option Instr := none

end Sys2Proof
end

