-- ==== Sys2Proof/Config.lean ====
section
/-! DEFINITION. What the manual leaves open: constants without a body, so that no proof can use a value of them. Each
is applied to the place it stands for, or to a number drawn from the counter `Dev.free` of the state. -/

namespace Sys2Proof

/-- A byte whose contents the manual calls undefined or unpredictable: draw `e`, place `k` (R39, R100, R135, R315,
R371; log 7). -/
opaque Config.freeByte : Nat → Nat → Byte

/-- A 32-bit word that the manual calls undefined: draw `e`, place `k` (R135, R412; log 7). -/
opaque Config.freeWord : Nat → Nat → Word

/-- A bit that the manual calls unpredictable: draw `e`, place `k` (R462, R484; log 7). -/
opaque Config.freeBit : Nat → Nat → Bool

/-- Choices of an unspecified order: draw `e`, choice `i` (R55, R90, R103, R275; log 10). -/
opaque Config.order : Nat → Nat → Nat

/-- The result of a function that the manual bounds and does not fix, for a function code and an FP32 input; it is
taken where it lies inside the manual's bound (R43, R182, R189; log 9). -/
opaque Config.approx : Nat → Word → Word

/-- The Vendor ID of the PCI Express function: the identifier assigned to Yuholt, which the manual does not print (R356;
log 104). -/
opaque Config.vendorId : BitVec 16

/-- The version of the on-package ROM (R465 Table 4; log 14). -/
opaque Config.romVersion : Word

/-- The constant of the ROM that measurement entry 0 carries: its byte `i` (R465 Table 4; log 14). -/
opaque Config.romDigest : Nat → Byte

/-- Yuholt's manufacturer identity in the IDCODE (R490; log 14). -/
opaque Config.manufacturer : BitVec 11

/-- Byte `i` of the signature that the identity key makes over a message (R460, R468: no register, test port or firmware reads
the key; log 14). -/
opaque Config.signature : List Byte → Nat → Byte

/-- Byte `i` of the randomizer and the chain values with which leaf `q` of a hash-based key signs a message: key 0 is the
top-level tree, key k + 1 the bottom-level tree under its leaf k (R470; log 14). -/
opaque Config.otsByte (key q : Nat) (msg : List Byte) (i : Nat) : Byte

/-- Byte `i` of the path from leaf `q` of a hash-based key to its root (R470; log 14). -/
opaque Config.pathByte (key q i : Nat) : Byte

/-- Byte `i` of the identifier and root of a hash-based key (R470; log 14). -/
opaque Config.rootByte (key i : Nat) : Byte

/-- Byte `i` of the certificate chain of slot 0 (R468; log 14). -/
opaque Config.certChain : Nat → Byte

/-- Bytes of SPDM capabilities that the manual does not state: byte `i` (R468; log 14). -/
opaque Config.spdmByte : Nat → Byte

/-- The length in bytes of the certificate chain of slot 0 (R468; log 14). -/
opaque Config.certLength : Nat

/-- The place in the chain of slot 0 at which its last certificate, the device identity certificate, begins (R468; log 14). -/
opaque Config.identityStart : Nat

/-- Byte `i` of a report body that none of the contents named by the manual fills (R469; log 23). -/
opaque Config.reportByte : Nat → Byte

end Sys2Proof
end

