-- ==== Sys2Proof/Machine/State.lean ====
section
/-! DEFINITION. The state of the block: every register, memory, queue, mode and pin the spec gives the K24, as plain
data, and the queue of waiting commands. Arrays are sparse tables: keys strictly rising, no entry equal to what an
unlisted key reads as (Machine/Tab.lean). INVENTORY.md, State, names the rule behind each piece. -/

namespace Sys2Proof.Machine
open Sys2Proof

/-- A sparse array: pairs of key and value, keys strictly rising, no value equal to the array's default. -/
abbrev Tab (α : Type) := List (Nat × α)

/-- A memory: a sparse array of bytes. -/
abbrev Mem := List Host.Cell

/-! ### Reasons to stop -/

/-- Faults of the model. -/
inductive Fault where
  /-- Raised by every meaning whose command is ill-formed (Sys2Proof.wellFormed refuses its operands): the spec has no
  such step. Safe: the machine stops. -/
  | illFormed
  deriving DecidableEq, Repr

/-- Refusals of the model. -/
inductive Refusal where
  /-- Raised by an arm of `exec` whose command has no meaning yet. Safe: the machine stops. -/
  | notModelled (mnemonic : String)
  deriving DecidableEq, Repr

/-- What a command answers. -/
abbrev Result (σ : Type) := Host.Outcome σ Fault Refusal

/-! ### Counters, outputs, fuses, pins -/

/-- A statistics counter: COUNT in bits [47:0], SAT in bit [63] (R48 Table 9, R447). -/
structure Counter where
  count : Nat
  sat   : Bool
  deriving DecidableEq, Repr

/-- What the block sends outside, oldest first. -/
inductive Out where
  /-- A completion with data of a read of a BAR; `poisoned`: the EP bit (R315). -/
  | readDone (bar off : Nat) (bytes : List Byte) (poisoned : Bool)
  /-- The answer to a register read by the management block (R389): its bytes, 4 or 8 (R10, R12). -/
  | mgmtRead (off : Nat) (bytes : List Byte)
  /-- A completion with Unsupported Request (R357). -/
  | unsupported (bar off : Nat)
  /-- A configuration completion: Request Retry Status (R435). -/
  | configRetry
  /-- A successful configuration completion (R435). -/
  | configDone
  /-- What a configuration read gives (R356, R363). -/
  | configData (item : ConfigItem) (value : ConfigValue)
  /-- An MSI-X memory write of a vector (R388). -/
  | msix (vector : Nat) (addr : BitVec 64) (data : Word)
  /-- The management block's line (R388). -/
  | mgmtIrq
  /-- A message on a span channel (R280); channel 255 is the span tree (R284). -/
  | span (port channel : Nat) (bytes : List Byte)
  /-- Credits or an acknowledgement for the partner of a span channel (R280, R281). -/
  | spanReply (port channel : Nat) (reply : SpanReply)
  /-- What a span port in training tells its partner: SPAN_ID and port number (R279). -/
  | spanTraining (port id : Nat)
  /-- An item of the mirror stream (R291). -/
  | twin (item : TwinItem)
  /-- An acknowledgement to the twin (R294). -/
  | twinAck
  /-- A heartbeat message (R289). -/
  | twinHeartbeat
  /-- The digest of the twin section and the outgoing mirror list, sent at attach (R288). -/
  | twinHello (hello : TwinHello) (areas : List MirrorArea)
  /-- The answer to a repair read: data, or a refusal (R296). -/
  | twinRepair (bytes : Option (List Byte))
  /-- An SPDM response, or none when the transport does not answer (R468). -/
  | spdm (port : SpdmPort) (bytes : Option (List Byte))
  /-- The parameter table of the flash is read (R464, R489). -/
  | flashParams
  /-- The flash is erased (R464). -/
  | flashErase
  /-- The flash is programmed with these bytes from address 0 (R464). -/
  | flashProgram (bytes : List Byte)
  /-- A bank access is done: the bytes of a read (R165); `poisoned`: the EP bit of the host's completion (R315). -/
  | accessDone (who : Accessor) (addr : Nat) (bytes : Option (List Byte)) (poisoned : Bool)
  /-- A repair read to the twin: device address and length (R296). -/
  | twinRepairRead (addr : BitVec 48) (len : Nat)
  /-- Bits shifted out on TDO, first bit first (R490). -/
  | tdo (bits : List Bool)
  deriving DecidableEq, Repr

/-- The product grades (R1, R2); `b d`: YK24-B whose fused tensor die is `d`. -/
inductive Grade where
  | a | s
  | b (d : TDie)
  deriving DecidableEq, Repr

/-- A permanent remap entry of the fuses (R495). -/
structure FuseRemap where
  die : Nat
  bank : Nat
  row : Nat
  spare : Nat
  retired : Option Nat
  retireOnly : Bool
  deriving DecidableEq, Repr

/-- What the fuses hold (R1, R460, R495). -/
structure Fuses where
  grade   : Grade
  /-- Bit k: ECDSA key slot k is revoked. -/
  eccRevoked : BitVec 4
  lmsRevoked : BitVec 4
  /-- Blown bits of the security version. -/
  svn : Nat
  /-- Blown bits of the report counter. -/
  reportBits : Nat
  /-- Permanent remaps of each stack. -/
  remaps : Tab (List FuseRemap)
  /-- SHA-384 digests of the public keys of the ECDSA and LMS slots (R460 Table 2). -/
  eccSlots : Tab (List Byte)
  lmsSlots : Tab (List Byte)
  deriving DecidableEq, Repr

/-- The levels of the input lands (R485, Table 5 of 21). -/
structure Pins where
  vddKeep : Bool
  pwrgood : Bool
  /-- PERST# asserted (low). -/
  perst : Bool
  /-- The reference clock is present. -/
  refclk : Bool
  twinPresentIn : Bool
  twinHbIn : Bool
  /-- Levels at the strap lands. -/
  lands : Straps
  /-- Temperatures at the sensors, in 1/16 °C (R417). -/
  temps : Tab (BitVec 16)
  deriving DecidableEq, Repr

/-! ### Chip, host interface -/

/-- Chip states (R433 Table 3, R424). -/
inductive ChipState where
  | off | keep | boot | fill | unstructured | ready | fault | thermalOff
  deriving DecidableEq, Repr

/-- Where BOOT stands (R433, R434). -/
inductive BootStage where
  /-- The ROM starts. -/
  | rom
  /-- The ROM waits for a host push. -/
  | waitPush
  /-- Firmware read or pushed; verification runs. -/
  | verify
  /-- Firmware runs; links train. -/
  | train
  deriving DecidableEq, Repr

/-- `CHIP_STATUS` and the start-up (R442). -/
structure Chip where
  state     : ChipState
  stage     : BootStage
  faultCode : Nat
  startErr  : Nat
  lastReset : Nat
  straps    : Straps
  /-- `COUNTER_SAT_LOG`: VALID and OFFSET (R448). -/
  satValid  : Bool
  satOffset : Nat
  /-- The cycle of the keep clock in which `COUNTER_SAT_LOG` took its offset (R448). -/
  satAt : Nat
  /-- I/O dies whose FAULT_N stage asserts by itself (R480). -/
  ioLost    : BitVec 2
  deriving DecidableEq, Repr

/-- A started entry of a host work ring that CONS has not passed. -/
structure RingRun where
  index  : Nat
  event  : Bool
  region : Nat
  /-- It occupies the copy engine of its region until its work is done. -/
  busy   : Bool
  /-- The entry as the device fetched it. -/
  entry  : Nat
  /-- Its work is done. -/
  made   : Bool
  /-- It failed: CONS does not pass it (R378). -/
  failed : Bool
  /-- The page whose pennant it waits on, once counted (R369). -/
  page   : Option Nat
  deriving DecidableEq, Repr

/-- A host work ring (R372 to R378). `state`: 0 OFF, 1 RUNNING, 2 ERROR, 3 STOPPING. -/
structure Ring where
  page   : Nat
  offset : Nat
  log2   : Nat
  en     : Bool
  state  : Nat
  code   : Nat
  errIndex : Nat
  prod   : BitVec 16
  cons   : BitVec 16
  /-- Index of the next entry to start. -/
  start  : BitVec 16
  /-- Started entries that CONS has not passed, in ring order. -/
  fly    : List RingRun
  /-- Entries fetched from `start` on (R376); none: its stripe is unrepaired (R315). -/
  fetched : List (Option Nat)
  deriving DecidableEq, Repr

/-- An entry of the MSI-X table. -/
structure MsixEntry where
  addr : BitVec 64
  data : Word
  mask : Bool
  deriving DecidableEq, Repr

/-- Bytes of a DEVICE page that the host wrote while an engine had them still to write (R371): the block and the operation's
index, or 4,096 and the ring and the entry's index; the first address, the length, and the draw of their values. -/
structure Mixed where
  blk : Nat
  index : Nat
  addr : Nat
  len : Nat
  draw : Nat
  deriving DecidableEq, Repr

/-- The party behind an access that waits (R165, R369): its SOURCE, region and unit. -/
structure Party where
  src : MemSource
  region : Nat
  unit : Nat
  deriving DecidableEq, Repr

/-- The PCI Express function and the window (14_host_interface). -/
structure HostIf where
  linkUp : Bool
  speed  : Nat
  width  : Nat
  flit   : Bool
  busMaster : Bool
  msixEnable : Bool
  functionMask : Bool
  d3hot : Bool
  msix   : Tab MsixEntry
  /-- MSI-X pending bit array. -/
  pba    : Tab Bool
  /-- Pennants: true DEVICE, default HOST. -/
  pennants : Tab Bool
  /-- `PENNANT_LAST_HIT`: VALID and PAGE. -/
  hitValid : Bool
  hitPage : Nat
  /-- `PENNANT_STALL`: STALLED and PAGE. -/
  stalled : Bool
  stallPage : Nat
  /-- Pages that engines wait on, oldest first. -/
  waits  : List Nat
  /-- The waits that `PENNANT_WAITS` has counted for an engine: its page, its party (R369). -/
  counted : List (Nat × Party)
  rings  : Tab Ring
  /-- Requests of the function that wait, in order: the first waits for memory, the others behind it (R368). -/
  held   : List Instr
  /-- What the host has written of DEVICE pages that operations in flight write too (R371). -/
  mixed  : List Mixed
  /-- The ring that each copy engine served last (R377). -/
  ringTurn : Tab Nat
  /-- Device memory that the step in flight of each domain has read or written: first address and length (R375). -/
  stepUse : Tab (List (Nat × Nat))
  /-- What the rings have copied while the step of each domain was in flight: first address, length, draw (R375). -/
  copied : Tab (List (Nat × Nat × Nat))
  /-- BAR assignments, by the number of the BAR (R363). -/
  bars   : Tab (BitVec 64)
  /-- Maximum payload and maximum read request sizes in bytes (R356). -/
  maxPayload : Nat
  maxRead : Nat
  deriving DecidableEq, Repr

/-! ### Event concentrator -/

/-- A message on its way to the concentrator. -/
structure EvMsg where
  src   : Nat
  raise : Bool
  deriving DecidableEq, Repr

/-- Priority and target of a source (R385). -/
structure EvCfg where
  prio   : Nat
  target : Nat
  deriving DecidableEq, Repr

/-- The event concentrator (15_interrupts). -/
structure Conc where
  /-- EC_CTL.MODE: true Parjo compatibility mode. -/
  parjo : Bool
  /-- EC_HOLD: owner of the hold in force. -/
  hold  : Option Agent
  expired : Bool
  word  : Nat
  cfg   : Tab EvCfg
  /-- Masked sources: default true for used sources. -/
  mask  : Tab Bool
  pending : Tab Bool
  /-- Running-priority stack of each target, top first. -/
  running : Tab (List Nat)
  eoiEmpty : Tab Bool
  inbox : List EvMsg
  /-- Changes queued under a hold, one per source (R394). -/
  heldQ : List EvMsg
  deriving DecidableEq, Repr

/-! ### Clocks, power, temperature -/

/-- State of a tensor PLL (R399). -/
inductive PllSt where
  | stopped | locking | locked
  deriving DecidableEq, Repr

/-- Clock and power of one tensor die (R398 to R405). -/
structure TDieSt where
  auto   : Bool
  hwOwn  : Bool
  thermFloor : Nat
  powerFloor : Nat
  aStep  : Nat
  bStep  : Nat
  aSt    : PllSt
  bSt    : PllSt
  /-- 0 PLL A, 1 PLL B, 2 REF. -/
  sel    : Nat
  stage  : Nat
  overPower : Bool
  budget : Nat
  power  : Nat
  /-- Consecutive comparisons below 90 % of the budget. -/
  low    : Nat
  deriving DecidableEq, Repr

/-- Clocks, power states and wake admission (16_clocks_power). -/
structure Clk where
  coast : Bool
  coastSeen : Bool
  fabricReady : Bool
  mgmtReady : Bool
  sleepEn : Bool
  idle : Nat
  regionAwake : BitVec 12
  stackAwake : BitVec 24
  regionQ : List Nat
  stackQ : List Nat
  /-- The request at the head of a queue came to an empty queue: it has not waited (R409, log 5). -/
  regionFresh : Bool
  stackFresh : Bool
  /-- Granted and not yet awake. -/
  regionGranted : List Nat
  stackGranted : List Nat
  regionMax : Nat
  stackMax : Nat
  /-- How many of the last requests of a queue came in this cycle of the keep clock (R409). -/
  regionSame : Nat
  stackSame : Nat
  /-- The cycle of the last grant of a queue; none: no grant (R409). -/
  regionGrantAt : Option Nat
  stackGrantAt : Option Nat
  tdie : Tab TDieSt
  deriving DecidableEq, Repr

/-- A temperature sensor (R426 Table 5). -/
structure Sensor where
  valid : Bool
  warn  : Bool
  hot   : Bool
  temp  : BitVec 16
  deriving DecidableEq, Repr

/-- Thermal states of a die (R421 Table 3). -/
inductive ThState where
  | idle | grace | enforce | cooling
  deriving DecidableEq, Repr

/-- Thermal state machine of a die. -/
structure ThDie where
  stage : Nat
  st    : ThState
  req   : Bool
  maxed : Bool
  /-- Samples since GRACE started, or since the last rise of the stage (R417, R421). -/
  since : Nat
  deriving DecidableEq, Repr

/-- Temperature and throttling (17_thermal). -/
structure Therm where
  dramWarn : Nat
  dramThrottle : Nat
  logicWarn : Nat
  logicThrottle : Nat
  hyst : Nat
  grace : Nat
  sensors : Tab Sensor
  dies : Tab ThDie
  /-- `THERM_LAST_TRIP`: VALID and SENSOR. -/
  tripValid : Bool
  tripSensor : Nat
  deriving DecidableEq, Repr

/-! ### Security -/

/-- An entry of the measurement log (R465 Table 4). -/
structure Meas where
  type   : Nat
  domain : Nat
  bundle : Nat
  info   : Word
  svn    : Nat
  digest : List Byte
  deriving DecidableEq, Repr

/-- Connection state of an SPDM transport (R468): how far the negotiation has come. -/
structure Spdm where
  version : Bool
  caps    : Bool
  algos   : Bool
  deriving DecidableEq, Repr

/-- Firmware authentication and attestation (20_security). `repStatus`: 0 IDLE, 1 BUSY, 2 DONE, 3 EXHAUSTED. -/
structure Sec where
  authErr : Nat
  fwSvn   : Nat
  eccKey  : Nat
  lmsKey  : Nat
  fwValid : Bool
  fwVersion : Word
  fwDigest : List Byte
  pushGo  : Bool
  pushLen : Nat
  /-- Staging buffer, and the length of the image in it. -/
  staging : Mem
  stagingLen : Nat
  flashCode : Nat
  flashPage : Nat
  /-- The update in progress: its first page, and whether the flash programs (R464). -/
  flashRun : Option (Nat × Bool)
  log     : List Meas
  running : List Byte
  overflow : Bool
  select  : Nat
  /-- MEAS_RUNNING words 1 to 11 as latched at the last read of word 0. -/
  latch   : List Byte
  nonce   : Tab Word
  repStatus : Nat
  repData : List Byte
  repBody : List Byte
  /-- Reports made since the firmware started. -/
  reports : Nat
  treeReady : Bool
  /-- A GO held until the tree is ready. -/
  heldGo  : Bool
  /-- The top-level leaf that signs the bottom-level tree of this start, once its counter bit is blown (R470). -/
  topLeaf : Option Nat
  doe     : Spdm
  mctp    : Spdm
  /-- The Error bit of the DOE mailbox (R468). -/
  doeErr  : Bool
  deriving DecidableEq, Repr

/-! ### Structure image -/

/-- A domain of the image (R332). -/
structure DomEnt where
  num     : Nat
  preempt : Bool
  regions : BitVec 12
  deriving DecidableEq, Repr

/-- A memory area of the image (R333 Table 6). -/
structure Area where
  kind : Nat
  mirrored : Bool
  twinRepair : Bool
  outMirror : Bool
  records : Bool
  domain : Nat
  bankView : Bool
  mstep : Nat
  region : Nat
  level : Nat
  onStacks : BitVec 24
  first : Nat
  count : Nat
  deriving DecidableEq, Repr

/-- A span tree record of the image (R345 Table 9). -/
structure SpanTree where
  domain : Nat
  root : Bool
  parent : Nat
  children : BitVec 12
  deriving DecidableEq, Repr

/-- The structure in force: what the accepted image defines (13_structure_image). -/
structure Structure where
  domains : List DomEnt
  areas : List Area
  /-- Pairs of source and destination region routed Y-first (R344). -/
  yFirst : List (Nat × Nat)
  trees : List SpanTree
  /-- The TWIN body, when the section is present (R350). -/
  twinBody : Option (List Byte)
  customers : Nat
  parkTotal : Nat
  deriving DecidableEq, Repr

/-- The structure-image attempt and what it applied. `state`: 0 NONE, 1 COPYING, 2 VALIDATING, 3 APPLYING,
4 REJECTED, 5 ACCEPTED (R329 Tables 1, 2). -/
structure Img where
  page : Nat
  /-- PAGE of the attempt (R326, R329). -/
  run : Nat
  state : Nat
  code : Nat
  section_ : Nat
  offset : Nat
  late : Bool
  /-- The copy in the security block, and where an uncorrectable stripe ended it (R326). -/
  copy : List Byte
  ue   : Option Nat
  /-- The copy waits for one of its reads, and begins again (R165, R306, R408). -/
  waits : Bool
  str  : Structure
  deriving DecidableEq, Repr

/-! ### Regions, queues, tree, fabric, span -/

/-- A result list entry of a scan: score, stack, index (R208). -/
structure Cand where
  score : Word
  stack : Nat
  index : Nat
  gidx  : Nat
  deriving DecidableEq, Repr

/-- A region list sent to a root (R209). -/
structure TagList where
  tag  : Nat
  list : List Cand
  deriving DecidableEq, Repr

/-- A root scan that has formed its own list (R209, R210). -/
structure RootScan where
  blk : Nat
  index : Nat
  word : Nat
  tag : Nat
  k : Nat
  need : Nat
  got : Nat
  list : List Cand
  deriving DecidableEq, Repr

/-- Payloads of fabric messages (R269). -/
inductive Payload where
  | flagSet (flag incr blk index : Nat)
  | scanList (l : TagList) (fromBlk index : Nat)
  | listAccepted (blk index : Nat)
  /-- Space of queue `queue` of the sending region has become free (R263, R269). -/
  | release (queue : Nat)
  | data
  deriving DecidableEq, Repr

/-- A fabric message (R269, R270). -/
structure FabMsg where
  src : Nat
  dst : Nat
  cls : FabClass
  body : Payload
  deriving DecidableEq, Repr

/-- A region controller (19, 07). -/
structure RegionSt where
  faultValid : Bool
  faultCode : Nat
  faultDomain : Nat
  faultOrigin : Nat
  faultUnit : Nat
  faultStep : BitVec 16
  /-- Fabric messages that have arrived and are not yet applied. -/
  arrived : List FabMsg
  /-- Region lists held for a root's scans (R210). -/
  lists : List (Nat × TagList × Nat × Nat)
  /-- Lists of stacks whose part of a scan has ended, and that the region has not merged: block, operation, list (R209). -/
  scanned : List (Nat × Nat × List Cand)
  root : List RootScan
  /-- TREE_REDUCE operations issued and not yet taken by the tree port, block and operation, in issue order; and the
  number taken in this phase (R274). -/
  treeQ : List (Nat × Nat)
  treeTaken : Nat
  deriving DecidableEq, Repr

/-- A contribution to a tree round (R274). -/
structure Contrib where
  region : Nat
  blk : Nat
  index : Nat
  word : Nat
  bytes : List Byte
  deriving DecidableEq, Repr

/-- A round of the reduction tree (R274 to R277). -/
structure Round where
  num : Nat
  parts : List Contrib
  /-- This device's combined vector in FP32, once every region has contributed (R276, R284). -/
  own : Option (List Word)
  /-- The value combined with the children's has gone to the parent (R284). -/
  sent : Bool
  /-- A port that it waited on became uncorrectable: it ends only by R285 (R286). -/
  cut : Bool
  deriving DecidableEq, Repr

/-- A packet of a stream queue (R258). -/
structure Pkt where
  first : BitVec 16
  written : Nat
  closed : Bool
  offered : Bool
  deriving DecidableEq, Repr

/-- An output of a producer on its way into a queue (R255, R256). `src`: the stack dispatch slot key, or none for a
block operation. -/
structure QOut where
  bytes : List Byte
  begun : Bool
  stack : Option Nat
  slot : Nat
  blk : Nat
  index : Nat
  /-- The rest is discarded: the queue was reset (R265). -/
  discard : Bool
  /-- The write of its next entry is held, and no release has reached the producer since (R263). -/
  waits : Bool
  /-- That held write has been counted (R266). -/
  counted : Bool
  deriving DecidableEq, Repr

/-- A stream queue (10_stream_queues). Each pointer is kept in two copies (R265). -/
structure Queue where
  cfg : BitVec 64
  flags : Word
  ptrReset : Bool
  held : Bool
  write : BitVec 16
  write2 : BitVec 16
  release : BitVec 16
  release2 : BitVec 16
  offer : BitVec 16
  offer2 : BitVec 16
  mark : BitVec 16
  mark2 : BitVec 16
  markValid : Bool
  pkts : List Pkt
  outs : List QOut
  /-- Control sets waiting, oldest first (R261). -/
  ctl : List Nat
  /-- Outputs to come, in dispatch order: stack, block, operation (R255). -/
  order : List (Nat × Nat × Nat)
  deriving DecidableEq, Repr

/-- An open channel of a span port (R280). -/
structure Channel where
  num : Nat
  domain : Nat
  /-- SPAN_RECV operations in flight on the channel, block and operation, in issue order (R281). -/
  recvs : List (Nat × Nat)
  /-- Bytes of the partner's receive buffer that the sender holds credits for (R280). -/
  credit : Nat
  /-- SPAN_SEND operations whose message has left and is not acknowledged, block and operation, oldest first (R281). -/
  sends : List (Nat × Nat)
  deriving DecidableEq, Repr

/-- A span port (R278 to R286). `st`: 0 OFF, 1 TRAINING, 2 UP, 3 FAILED. -/
structure Span where
  en : Bool
  st : Nat
  reason : Nat
  partnerId : Nat
  partnerPort : Nat
  wantId : Nat
  wantPort : Nat
  timeout : Nat
  retrain : Bool
  channels : List Channel
  /-- Channel 255, of the span tree (R280, R284). -/
  tree : Channel
  /-- Messages in the receive buffers: channel and bytes, in arrival order. -/
  rx : List (Nat × List Byte)
  deriving DecidableEq, Repr

/-- Tree, fabric and span state. -/
structure Net where
  msgs : List FabMsg
  /-- Consecutive failed replays of the flit that a channel of a link replays (R273). -/
  fails : Tab Nat
  /-- `FABRIC_STATUS`: router and direction of the link that failed. -/
  failed : Option (Nat × Nat)
  /-- Rounds of each domain, oldest first. -/
  rounds : Tab (List Round)
  spans : Tab Span
  deriving DecidableEq, Repr

/-! ### Serving engine, domains -/

/-- Request states (R218 Table 10). -/
inductive ReqState where
  | free | queued | prefill | active | parking | parked | resuming | complete | cancelled | parkExpired
  deriving DecidableEq, Repr

/-- A request entry (R215). -/
structure Req where
  /-- Pending command code, 0 none (R217). -/
  cmd : Nat
  refused : Bool
  refuseCode : Nat
  ringFull : Bool
  needPages : Bool
  needBudget : Bool
  missed : Bool
  maxlen : Bool
  eos : Bool
  cancelLate : Bool
  state : ReqState
  cfg : Word
  promptBase : BitVec 64
  pageList : BitVec 64
  outBase : BitVec 64
  promptLen : Word
  maxLen : Word
  genLen : Word
  promptDone : Word
  limits : Word
  /-- DEADLINE as the domain's last composition took it (R216). -/
  judged : Nat
  outWrite : BitVec 16
  outRead : BitVec 16
  /-- Keep-clock time at which `REQ_ELAPSED` was last set to zero; none: never. -/
  since : Option Nat
  lastStep : BitVec 16
  probeCnt : Nat
  zeroRun : Nat
  draftLen : Nat
  /-- An accepted CANCEL, or PARK, that takes effect at the commit (R237, R235). -/
  cancelAt : Bool
  parkAt : Bool
  /-- Last committed token (R224 Table 13). -/
  lastToken : Word
  /-- Tokens committed and not yet delivered (R221), and whether the twin must acknowledge first (R294). -/
  delivery : List Word
  ackWait : Bool
  /-- Order of submission (R227). -/
  order : Nat
  /-- Granules of the park pool that the request holds, and its groups packed (R235). -/
  granules : List Nat
  /-- Promoted from the shadow (R456). -/
  promoted : Bool
  /-- The pennant wait of the outstanding delivery has been counted (R369). -/
  waited : Bool
  /-- Regions to which its park or resume copy falls, while it is PARKING or RESUMING (R235, R406). -/
  copyOn : List Nat
  deriving DecidableEq, Repr

/-- A customer (R238). -/
structure Cust where
  available : Nat
  reserved : Nat
  sat : Bool
  deriving DecidableEq, Repr

/-- The serving engine (08_serving). -/
structure Serve where
  reqs : Tab Req
  custs : Tab Cust
  grow : Bool
  probeInterval : Nat
  zeroLimit : Nat
  /-- `SERVE_CHANGED`, one bit per entry. -/
  changed : Tab Bool
  /-- Number of SUBMITs accepted. -/
  orders : Nat
  /-- Granules in use, and granules withdrawn by retirement (R321). -/
  granulesUsed : List Nat
  granulesGone : List Nat
  deriving DecidableEq, Repr

/-- A resident bundle: the fields of its descriptor (R240 Table 1). -/
structure Bundle where
  num : Nat
  domain : Nat
  draft : Bool
  rangeHi : List Nat
  mainEntry : Nat
  draftEntry : Nat
  fallbackEntry : Nat
  pageShape : Nat
  chunkMax : Nat
  idsPerGroup : Nat
  costMain : List Nat
  costDraft : List Nat
  costFallback : List Nat
  costChunk : Nat
  stepTarget : Nat
  stepArea : Nat
  saveGran : Nat
  bbBase : Nat
  bbSize : Nat
  /-- For each region record: region, HOME, IMAGE0 to IMAGE3. -/
  regions : List (Nat × Nat × List Nat)
  /-- The bundle's digest (R465). -/
  digest : List Byte
  deriving DecidableEq, Repr

/-- A request placed in a step, with its draft length (R227). -/
structure Placed where
  req : Nat
  len : Nat
  /-- The length is that of a probe (R234). -/
  probe : Bool
  deriving DecidableEq, Repr

/-- A prompt chunk placed in a step (R229). -/
structure ChunkAt where
  req : Nat
  start : Nat
  count : Nat
  last : Bool
  deriving DecidableEq, Repr

/-- A composed step (R222, R227, R230). -/
structure Step where
  num : BitVec 16
  fallback : Bool
  /-- The phase in flight, or to be released next, as the step area's header gives it. -/
  phase : Nat
  lmax : Nat
  placed : List Placed
  chunks : List ChunkAt
  range : Nat
  prio : Nat
  bundle : Nat
  /-- The phase has been released. -/
  released : Bool
  /-- Results are discarded at the commit: a queue of the domain was reset (R265). -/
  discard : Bool
  /-- Customers of the eligible requests that were not placed, one for each (R238). -/
  waiting : List Nat
  deriving DecidableEq, Repr

/-- An operation that has issued and not completed (R71). -/
structure Flight where
  index : Nat
  word  : Nat
  /-- The descriptor table entries that its operands name, as the sequencer read them at issue; 0 where none. -/
  raws  : List Nat
  /-- The engine has executed it; for stack and chip operations, it has also been answered. -/
  done  : Bool
  /-- The engine has started it: dispatched, sent or contributed. -/
  begun : Bool
  /-- Stacks that have not reported the end of the sequence (R95). -/
  waitsOn : List Nat
  /-- A pennant wait has been counted for it (R369). -/
  waited : Bool
  /-- Tile steps that it made before a suspension stopped it (R245 Table 4). -/
  pos : Nat
  deriving DecidableEq, Repr

/-- States of a tensor block that are held, not computed (R48 Table 7). -/
inductive BlkState where
  | idle | loading | running | suspended | halted
  deriving DecidableEq, Repr

/-- A tensor block's sequencer (R71 to R83). -/
structure BlockSt where
  st : BlkState
  haltCode : Nat
  /-- Instruction-memory index of the oldest operation not yet issued. -/
  next : Nat
  /-- Operations of the loaded image. -/
  ops : Nat
  fly : List Flight
  fault : Word
  /-- The wait of the oldest unissued operation: flag and count awaited (R83 Table 15). -/
  wait : Option (Nat × Nat)
  /-- The embedded wait of the oldest unissued operation has been taken. -/
  waitTaken : Bool
  /-- The wait of the oldest unissued WAIT_FLAG has been satisfied. -/
  flagTaken : Bool
  heldScore : Bool
  /-- Last FLAG and WANT shown in BLOCK_WAIT_INFO. -/
  lastWait : Nat × Nat
  /-- The block has reached STEP_END in this phase (R83). -/
  arrived : Bool
  /-- Address of the image that is loading, and the entry point of the release. -/
  image : Nat
  deriving DecidableEq, Repr

/-- A run of SRAM: of a cell's scratchpad, or of a block's buffer. -/
structure Piece where
  cell : Bool
  unit : Nat
  lo : Nat
  len : Nat
  deriving DecidableEq, Repr

/-- Saved state of one region of a suspended step (R248 Table 5): its control and queue records, and where the rest lies. -/
structure SavedRegion where
  region : Nat
  blocks : List (Nat × BlockSt)
  flags  : Tab Nat
  waiters : Tab (List Nat)
  queues : List (Nat × Queue)
  /-- Runs of the block buffers and scratchpads, in the order in which the save slot holds their bytes. -/
  live : List Piece
  /-- The storage of the queues, with its bytes: the queue record. -/
  queueBytes : List (Piece × List Byte)
  /-- What the region controller keeps of scans (R246). -/
  control : RegionSt
  deriving DecidableEq, Repr

/-- A suspended step of a domain (R245 to R251). `fresh`: no step has run above it yet (R250). -/
structure Susp where
  step  : Step
  level : Nat
  fresh : Bool
  /-- Keep-clock time of the pre-emption request. -/
  since : Nat
  /-- The copy of the step area. -/
  area : List Byte
  regions : List SavedRegion
  deriving DecidableEq, Repr

/-- What a domain is doing (R253 Table 7, ACTIVITY). -/
inductive Activity where
  | idle | running | suspending | saving | switching | restoring
  deriving DecidableEq, Repr

/-- A domain (08, 09). -/
structure Dom where
  act : Activity
  step : Option Step
  susp : List Susp
  lastStep : BitVec 16
  nextStep : BitVec 16
  prevFallback : Bool
  /-- `DOM_COMPOSE` as last written. -/
  compose : Word
  stepTime : Nat
  lastCommit : Nat
  /-- A step has committed since the reset. -/
  committed : Bool
  /-- The engine may compose (a boundary, or one of the causes of R223). -/
  wantCompose : Bool
  preemptEn : Bool
  minPrio : Nat
  active : Option Nat
  quantum : Nat
  run : Nat
  suspendTime : Nat
  /-- A region fault has stopped the domain (R23), or DOMAIN_STALL has wedged it (R85). -/
  stopped : Bool
  wedged : Bool
  resident : Tab Bundle
  /-- Mirrored commit in force for the step (R294). -/
  mcommit : Bool
  /-- The condition of R244 is still to be evaluated: a page list could not be read (log 116). -/
  judge : Bool
  /-- The cycle of the keep clock in which the domain stopped, once it has (R444). -/
  stopAt : Nat
  deriving DecidableEq, Repr

/-- A bundle command in progress (R240, R241). -/
structure BundleCmd where
  addr : BitVec 64
  busy : Bool
  op : Nat
  domain : Nat
  bundle : Nat
  code : Nat
  deriving DecidableEq, Repr

/-! ### Twin -/

/-- A shadow request entry (R293). -/
structure Shadow where
  domain : Nat
  step : BitVec 16
  req : List Word
  lastToken : Word
  deriving DecidableEq, Repr

/-- A step record that the twin must acknowledge: SEQ, domain, the time of the commit, the requests whose deliveries are not
complete, and whether it has been acknowledged (R294). -/
structure Ack where
  seq : Nat
  dom : Nat
  since : Nat
  reqs : List Nat
  acked : Bool
  deriving DecidableEq, Repr

/-- What the twin link still has to do in order (R293, R294): bytes to write, or an acknowledgement to send. -/
inductive TwinPost where
  | bytes (addr : Nat) (data : List Byte)
  | ack
  deriving DecidableEq, Repr

/-- A promotion in progress (R453): source and target domain, page of the log, and whether its wait for the page's pennant
has been counted. -/
structure Promotion where
  src : Nat
  dst : Nat
  page : Nat
  waited : Bool
  deriving DecidableEq, Repr

/-- The twin link (R287 to R297, R450 to R456). `st`: 0 SOLO, 1 ATTACHING, 2 ATTACHED. -/
structure Twin where
  hbTimeout : Nat
  st : Nat
  code : Nat
  present : Bool
  mcommit : BitVec 12
  ackTime : Nat
  synced : Bool
  promotable : Bool
  nextSeq : BitVec 32
  /-- Items of the mirror stream not yet acknowledged, oldest first. -/
  stream : List TwinItem
  /-- Bytes of the mirror queue of I/O die 1, and of the writes that wait to enter it (R292). -/
  backlog : Nat
  /-- Steps under mirrored commit whose deliveries are not complete (R294). -/
  acks : List Ack
  shadow : Tab (Option Shadow)
  /-- A link heartbeat, or a TWIN_HB edge, arrived within HB_TIMEOUT (R290). -/
  linkBeat : Bool
  edgeBeat : Bool
  hbLevel : Bool
  /-- Level of the TWIN_HB output, and whether an attach happened since the reset (R289, R413). -/
  hbOut : Bool
  everAttached : Bool
  promoteCode : Nat
  dstDomain : Nat
  srcDomain : Nat
  promoteCount : Nat
  promotePage : Nat
  /-- The promotion in progress, and the next piece of the full copy in progress (R450, R453). -/
  promoting : Option Promotion
  copyAt : Option Nat
  /-- Writes received and their acknowledgements, oldest first, where one waits (R165, R306, R408). -/
  posts : List TwinPost
  deriving DecidableEq, Repr

/-! ### Stacks -/

/-- A stripe of a stack: bank, row, 32-byte chunk in the row. -/
structure Stripe where
  bank : Nat
  row : Nat
  chunk : Nat
  deriving DecidableEq, Repr

/-- An access that reaches a bank (R165). -/
structure Access where
  who : Accessor
  hint : Hint
  addr : Nat
  len : Nat
  wdata : Option (List Byte)
  deriving DecidableEq, Repr

/-- What waits for a bank cell: an access of its own, or a party whose operation is made again once the cell has served
it (R165; log 11). -/
inductive Wait where
  | access (a : Access)
  | party (p : Party)
  deriving DecidableEq, Repr

/-- A requester of a stripe's lock (R306). `party`: a party whose operation is made again once the stripe is free (log 11). -/
inductive LockReq where
  | narrow (who : Accessor) (hint : Hint) (addr : Nat) (bytes : List Byte)
  | full (who : Accessor) (hint : Hint) (addr : Nat) (bytes : List Byte)
  | read (who : Accessor) (hint : Hint) (addr len : Nat)
  | recon
  | scrub
  | party (p : Party)
  deriving DecidableEq, Repr

/-- An entry of the lock table: the stripe, whether a narrow write holds it until its deltas are applied, whether the
oldest requester has taken it and goes on with it, and the requesters in arrival order (R306, R308). -/
structure Lock where
  stripe : Stripe
  held : Bool
  taken : Bool
  waiters : List LockReq
  deriving DecidableEq, Repr

/-- A delta transfer (R304, R305), numbered in the order of sending. `cell`: 64 d + c of the sending cell, 1,024 for the
base die. -/
structure Delta where
  num : Nat
  stripe : Stripe
  die : Nat
  cell : Nat
  bytes : List Byte
  granted : Bool
  doneP : Bool
  doneQ : Bool
  deriving DecidableEq, Repr

/-- A line of the stack cache, most recently used first within its set (R167 to R170). `tag`: device address / 512;
`bad`: a word of it fails parity. -/
structure Line where
  tag : Nat
  prot : Bool
  data : List Byte
  bad : Bool
  deriving DecidableEq, Repr

/-- A dispatch that waits for a slot (R144). -/
structure DispReq where
  region : Nat
  blk : Nat
  index : Nat
  word : Nat
  raws : List Nat
  scan : Bool
  /-- Chunks of the stack, by linear OFFSET, that were written since the dispatch (R177, R186, R212). -/
  raced : List Nat
  deriving DecidableEq, Repr

/-- A dispatch slot in use (R144, R149). -/
structure Slot where
  req : DispReq
  words : List Nat
  dieMask : Nat
  cellMask : Nat
  /-- Broadcast buffer: its explicit bytes, its length, the draw and place of the region it was copied from, and the draw
  of the bytes beyond the copy. -/
  bcast : Mem
  bcastLen : Nat
  bcastEpoch : Nat
  bcastBase : Nat
  bcastFree : Nat
  /-- Merge buffer: the entries written (R149, R150). -/
  merge : Tab (Option Word)
  otype : Bool
  /-- Attention records: the record length R, and the records that have arrived and are not yet merged (R193). -/
  recLen : Nat
  arrivals : List (Nat × List Word)
  /-- Next word of a NORMALISE sequence on the base die (R181). -/
  basePc : Nat
  /-- The output has been handed to the queue (R150). -/
  sent : Bool
  /-- Chunks of the stack, by linear OFFSET, that were written since the dispatch (R177, R186, R212). -/
  raced : List Nat
  deriving DecidableEq, Repr

/-- A scan on a stack (07_retrieval). -/
structure Scan where
  slot : Nat
  dim : Nat
  metric : Nat
  k : Nat
  type : Nat
  base : Nat
  perBank : Nat
  span : Nat
  /-- Address of the filter bit of vector 0 of this stack, in bits from BASE of the filter; none: no filter. -/
  filter : Option (List Byte)
  best : List Cand
  deriving DecidableEq, Repr

/-- Where a bank cell stands (R143, R151, R163). -/
inductive CellPhase where
  /-- Not in a segment, no sequence. -/
  | idle
  /-- At a yield point that has been served: a turn is requested (R165). -/
  | wantTurn
  /-- In a segment, its row activated. -/
  | streaming
  /-- At a yield point that has not been served; `ref`: placed by a REFSLOT. -/
  | atYield (ref : Bool)
  deriving DecidableEq, Repr

/-- What a bank cell works on: nothing, the sequence at the head of its dispatches, its share of a scan (R144, R211). -/
inductive CellWork where
  | none | seq | scan
  deriving DecidableEq, Repr

/-- A bank cell (R135, R163, R165). -/
structure BCell where
  /-- Dispatch slots that selected the cell, in dispatch order. -/
  runs : List Nat
  work : CellWork
  pc : Nat
  phase : CellPhase
  postponed : Nat
  ahead : Bool
  refreshing : Bool
  /-- Refreshes due outside a segment that have not begun (R163). -/
  due : Nat
  /-- What waits at the arrival of the yield point, and what came later (R165). -/
  waiting : List Wait
  late : List Wait
  /-- The stripe whose lock or reconstruction holds the cell at its yield point (R147, R302). -/
  holds : Option Stripe
  /-- The stream row open for the BAU, and the stream rows activated that no word has read yet (R152, R153). -/
  row : Option Nat
  rowsAhead : Nat
  /-- The weight latch: the last chunk of weights; none: undefined (R135; log 107). -/
  latch : Option (List Byte)
  /-- Chunk steps of the STORE in progress. -/
  storePos : Nat
  /-- The entry of the most recent DECODE word: RIDX, when its map entry was valid (R192). -/
  ridx : Option Nat
  /-- Scan progress: vectors of the cell scored, when it scans (R203). -/
  scan : Option Nat
  /-- How many of the dispatches in `runs` go before the scan's next segment (R144, R211). -/
  before : Nat
  deriving DecidableEq, Repr

/-- How far the handling of a bad stripe has come (R302, R313, R315). -/
inductive UeStage where
  /-- A BAU met a parity error: the stripe waits for its reconstruction. -/
  | recon
  /-- The stripe was found uncorrectable: it waits for its repair. -/
  | repair
  /-- No source yielded a good stripe: the access meets Table 6 when it is made again. -/
  | lost
  deriving DecidableEq, Repr

/-- An access that waits for a stripe: who made it. -/
structure UeWait where
  stripe : Stripe
  src    : MemSource
  region : Nat
  unit   : Nat
  stage  : UeStage
  deriving DecidableEq, Repr

/-- A compute stack (05, 07, 12). -/
structure StackSt where
  halt : Nat
  hot : Bool
  sw : Nat
  floor : Nat
  busy : Bool
  target : Nat
  frm : Nat
  pend : Option Nat
  applied : BitVec 16
  /-- A mode change has timed out: dies that have not applied it never do (R160). -/
  timedOut : Bool
  fault : Word
  bypass : Bool
  dropKeep : Bool
  reqs : List DispReq
  slots : Tab (Option Slot)
  /-- Images in the sequence cache, the latest first: address and bytes (R144). -/
  seqCache : List (Nat × List Byte)
  /-- Dispatch slots of scans that wait for their start, oldest first (R202). -/
  scanQ : List Nat
  /-- Activations of each die in the last 20 ns and those that tBAW puts off: BAU cycles (R152). -/
  acts : Tab (List Nat)
  /-- The BAU cycle of the last turn, and for each die the cycle after its last turn used (R153). -/
  bauNow : Nat
  turnAt : Tab Nat
  /-- The row that the row buffer of each bank holds, by die * 128 + bank; none: undefined or closed (R135; log 107). -/
  rowBufs : Tab (Option Nat)
  deltas : List Delta
  deltaPtr : Nat
  /-- Deltas sent so far: the number of the next one. -/
  deltaSeq : Nat
  locks : List Lock
  /-- Requesters that found the lock table full (R306). -/
  lockWait : List (Stripe × LockReq)
  /-- Rows whose repair is not done: die, bank, row; and the one whose 64 stripes are locked (R319). -/
  rowWait : List (Nat × Nat × Nat)
  rowHeld : Option (Nat × Nat × Nat)
  cache : Tab (List Line)
  scan : Option Scan
  scrubEn : Bool
  scrubInterval : Nat
  scrubPos : Nat
  flipArm : Bool
  parityAfter : Bool
  flipDie : Nat
  flipMask : Tab Word
  reconDie : Option Nat
  ueValid : Bool
  ueOverflow : Bool
  ueOutcome : Nat
  ueSource : Nat
  ueAddr : Nat
  remapLog : List (BitVec 64)
  remapLost : Bool
  retireLog : List (BitVec 64)
  retireLost : Bool
  /-- Row of a bank of a die, by (die * 128 + bank) * 20,480 + row: the spare it points at. -/
  remap : Tab (Option Nat)
  /-- Spares retired, by (die * 128 + bank) * 64 + spare. -/
  retired : Tab Bool
  fuseSelect : Nat
  ueWait : List UeWait
  deriving DecidableEq, Repr

/-- A tensor cell (R48). `turnBuf`: the 4,096 bytes of its turn buffer (R46; log 112). -/
structure CellSt where
  lastBank : Nat
  parityHalt : Bool
  turnBuf : Mem
  deriving DecidableEq, Repr

/-- The test port (R490). -/
structure Tap where
  /-- The instruction in the instruction register. -/
  ir : Nat
  /-- The boundary-scan chain over the lands of Tables 4 to 6. -/
  bsr : List Bool
  deriving DecidableEq, Repr

/-! ### The device and the state -/

/-- The device: everything but the queue of commands. -/
structure Dev where
  /-- Draws made from the free values. -/
  free : Nat
  /-- Keep-clock cycles counted (log 5). -/
  now : Nat
  out : List Out
  fuses : Fuses
  pins : Pins
  chip : Chip
  /-- Held lower halves of 64-bit registers, by BAR0 offset (R12). -/
  held : Tab (Option Word)
  /-- Latched upper halves, by BAR0 offset (R10). -/
  latched : Tab (Option Word)
  /-- Every statistics counter, by BAR0 offset (R447). -/
  counters : Tab Counter
  host : HostIf
  ec : Conc
  clk : Clk
  therm : Therm
  sec : Sec
  img : Img
  serve : Serve
  doms : Tab Dom
  bcmd : BundleCmd
  /-- Counting flags, by region * 1,024 + flag (R77), and the blocks that wait on each, in arrival order (R80). -/
  flags : Tab Nat
  waiters : Tab (List Nat)
  queues : Tab Queue
  regions : Tab RegionSt
  blocks : Tab BlockSt
  /-- Instruction memory, by block * 8,192 + entry (R47). -/
  imem : Tab Nat
  /-- Buffer region tables, by cell * 64 + entry (R36). -/
  bufregs : Tab Word
  cells : Tab CellSt
  /-- Scratchpads, by cell * 4 MiB + byte; block buffers, by block * 16 MiB + byte. -/
  scratch : Mem
  bbuf : Mem
  /-- Draw of the undefined contents of a region's SRAM, by region; 0: none (R39). -/
  sramEpoch : Tab Nat
  /-- Words with a flipped bit in storage, by word number: scratchpads, block buffers, instruction memories (R40). -/
  badScratch : List Nat
  badBbuf : List Nat
  badImem : List Nat
  /-- Words whose next read fails parity on its path, by word number, and the replays that it takes until one succeeds:
  scratchpads, block buffers, instruction memories (R22, R40). -/
  pathScratch : Tab Nat
  pathBbuf : Tab Nat
  pathImem : Tab Nat
  /-- Exchange networks with a failing stage, and replays that the next frame share of a network needs (R123). -/
  badXnet : List Nat
  pathXnet : Tab Nat
  /-- Words with a flipped bit in the request table, the customer registers, the pennant table and the concentrator's
  configuration, by BAR0 offset (R445). -/
  badTables : List Nat
  stks : Tab StackSt
  /-- Bank cells, by (stack * 18 + die) * 64 + cell. -/
  bcells : Tab BCell
  /-- Activation buffers, by cell * 32,768 + byte; accumulators, by cell * 2,048 + entry (R135). -/
  abuf : Mem
  accs : Tab Word
  /-- Draw of the undefined BAU state of a stack, by stack (R135). -/
  bauEpoch : Tab Nat
  /-- Parties that a bank cell has served at a yield point or after a refresh and whose access is not yet made: cell key
  and party (R165). -/
  served : List (Nat × Party)
  /-- DRAM, by ((stack * 18 + die) * 128 + bank) * 20,544 * 2,048 + row * 2,048 + byte; rows from 20,480 are spares. -/
  dram : Mem
  /-- Parity bits of chunks that disagree with the stored data, by DRAM place / 32 (R300, R316). -/
  parity : Tab Nat
  /-- Chunks whose next read meets an error on its path that the re-read does not: DRAM place / 32 (R301). -/
  badPath : List Nat
  net : Net
  twin : Twin
  tap : Tap
  deriving DecidableEq, Repr

/-- The state: the device, and the commands that wait, first in first out. -/
structure State where
  pending : List Instr
  dev : Dev
  deriving DecidableEq, Repr

/-! ### Reset values -/

/-- All straps left open (R484: an open land reads 1; log 6). -/
def Straps.open : Straps := ⟨3, true, 3, 7, 63, 3, true⟩

/-- The device right after a power-on reset: BOOT, registers at their reset values (R442; log 6). -/
def Dev.reset : Dev where
  free := 1
  now := 0
  out := []
  fuses := ⟨.a, 0, 0, 0, 0, [], [], []⟩
  pins := ⟨true, true, false, true, false, false, Straps.open, []⟩
  chip := ⟨.boot, .rom, 0, 0, 0, Straps.open, false, 0, 0, 0⟩
  held := []
  latched := []
  counters := []
  host := ⟨false, 0, 0, false, false, false, false, false, [], [], [], false, 0, false, 0, [], [], [], [], [], [], [], [], [], 128, 512⟩
  ec := ⟨false, none, false, 0, [], [], [], [], [], [], []⟩
  clk := ⟨false, false, false, false, true, 0x61A8, 0, 0, [], [], false, false, [], [], 0, 0, 0, 0, none, none, []⟩
  therm := ⟨0x55, 0x5C, 0x5F, 0x67, 5, 10, [], [], false, 0⟩
  sec := ⟨0, 0, 0, 0, false, 0, List.replicate 48 0, false, 0, [], 0, 0, 0, none, [], List.replicate 48 0, false, 0,
    List.replicate 48 0, [], 0, [], [], 0, false, false, none, ⟨false, false, false⟩, ⟨false, false, false⟩, false⟩
  img := ⟨0, 0, 0, 0, 0, 0, false, [], none, false, ⟨[], [], [], [], none, 0, 0⟩⟩
  serve := ⟨[], [], true, 0x20, 4, [], 0, [], []⟩
  doms := []
  bcmd := ⟨0, false, 0, 0, 0, 0⟩
  flags := []
  waiters := []
  queues := []
  regions := []
  blocks := []
  imem := []
  bufregs := []
  cells := []
  scratch := []
  bbuf := []
  sramEpoch := []
  badScratch := []
  badBbuf := []
  badImem := []
  pathScratch := []
  pathBbuf := []
  pathImem := []
  badXnet := []
  pathXnet := []
  badTables := []
  stks := []
  bcells := []
  abuf := []
  bauEpoch := []
  accs := []
  served := []
  dram := []
  parity := []
  badPath := []
  net := ⟨[], [], none, [], []⟩
  twin := ⟨0x14, 0, 0, false, 0, 0, false, false, 0, [], 0, [], [], false, false, false, false, false, 0, 0, 0, 0, 0, none, none, []⟩
  tap := ⟨1, []⟩

/-- The machine right after reset; its queue is empty. -/
def State.reset : State := ⟨[], Dev.reset⟩

end Sys2Proof.Machine
end

