-- ==== Sys2Proof/Machine/Tab.lean ====
section
/-! DEFINITION. Sparse arrays in their one canonical form: keys strictly rising, no entry equal to what an unlisted key
reads as (`dflt`). Memories are sparse arrays of bytes. -/

namespace Sys2Proof.Machine
open Sys2Proof

/-- The value at key `k`; `dflt k` when no entry names it. -/
def Tab.read {α : Type} (dflt : Nat → α) (t : Tab α) (k : Nat) : α :=
  match t with
  | [] => dflt k
  | e :: r => if k < e.1 then dflt k else if k = e.1 then e.2 else Tab.read dflt r k

/-- The array with the value `v` at key `k`. What follows a removed entry begins above `k`, as it does in a rising array, so a
read gives what was written in any array. -/
def Tab.write {α : Type} [DecidableEq α] (dflt : Nat → α) (t : Tab α) (k : Nat) (v : α) : Tab α :=
  match t with
  | [] => if v = dflt k then [] else [(k, v)]
  | e :: r =>
    if k < e.1 then (if v = dflt k then e :: r else (k, v) :: e :: r)
    else if k = e.1 then (if v = dflt k then r.dropWhile (fun x => decide (x.1 ≤ k)) else (k, v) :: r)
    else e :: Tab.write dflt r k v

/-- Every key of the array is above `lo`, and keys rise strictly. -/
def Tab.rising {α : Type} (t : Tab α) (lo : Nat) : Bool :=
  match t with
  | [] => true
  | e :: r => decide (lo ≤ e.1) && Tab.rising r (e.1 + 1)

/-- The canonical form. -/
def Tab.wf {α : Type} [DecidableEq α] (dflt : Nat → α) (t : Tab α) : Bool :=
  Tab.rising t 0 && t.all (fun e => !decide (e.2 = dflt e.1))

/-- The array with the keys `lo` to `hi - 1` at their defaults. -/
def Tab.clear {α : Type} (t : Tab α) (lo hi : Nat) : Tab α :=
  t.takeWhile (fun e => decide (e.1 < lo)) ++
    (t.dropWhile (fun e => decide (e.1 < lo))).dropWhile (fun e => decide (e.1 < hi))

/-- The keys that hold other than the default. -/
def Tab.keys {α : Type} (t : Tab α) : List Nat := t.map (·.1)

/-- `n` values from key `k` on. -/
def Tab.readN {α : Type} (dflt : Nat → α) (t : Tab α) (k : Nat) : Nat → List α
  | 0 => []
  | n + 1 => Tab.read dflt t k :: Tab.readN dflt t (k + 1) n

/-- The values `vs` written from key `k` on. -/
def Tab.writeN {α : Type} [DecidableEq α] (dflt : Nat → α) (t : Tab α) (k : Nat) (vs : List α) : Tab α :=
  match vs with
  | [] => t
  | v :: r => Tab.writeN dflt (Tab.write dflt t k v) (k + 1) r

/-! ### Memories -/

/-- What an unlisted byte of DRAM reads as: the fill writes zeros (R322). -/
def zeroByte (_ : Nat) : Byte := 0

/-- The canonical form of a memory whose unlisted bytes read `dflt`. -/
def Memory.wf (dflt : Nat → Byte) (m : Mem) : Bool := Tab.wf dflt m

/-- Members of a list of positions that are set, lowest first: bits of `w` below `n`. -/
def bitsOf (w n : Nat) : List Nat := (List.range n).filter (fun i => bitAt w i)

/-- Bytes of the number `w`, `n` of them, lowest first (R7). -/
def bytesOf (w n : Nat) : List Byte := (List.range n).map (fun i => BitVec.ofNat 8 (w / 256 ^ i))

/-- The number that bytes spell, lowest first (R7). -/
def ofBytes (bs : List Byte) : Nat :=
  match bs with
  | [] => 0
  | b :: r => b.toNat + 256 * ofBytes r

/-- `n` bytes of the list from place `k`, short where it ends. -/
def slice {α : Type} (bs : List α) (k n : Nat) : List α := (bs.drop k).take n

/-- The number in `n` bytes of the list from place `k`. -/
def fieldOf (bs : List Byte) (k n : Nat) : Nat := ofBytes (slice bs k n)

/-- Insert a number into a rising list. -/
def insertNat (x : Nat) (l : List Nat) : List Nat :=
  match l with
  | [] => [x]
  | y :: r => if x < y then x :: y :: r else if x = y then y :: r else y :: insertNat x r

/-- Replace the element at place `i`. -/
def setAt {α : Type} (l : List α) (i : Nat) (v : α) : List α :=
  match l, i with
  | [], _ => []
  | _ :: r, 0 => v :: r
  | a :: r, i + 1 => a :: setAt r i v

/-- Bitwise exclusive or of two numbers below 2^n. -/
def xorNat (n a b : Nat) : Nat := (BitVec.ofNat n a ^^^ BitVec.ofNat n b).toNat

end Sys2Proof.Machine
end

