-- ==== Sys2Proof/Machine/Sha.lean ====
section
/-! DEFINITION. SHA-256 and SHA-384, which the manual names and does not define (R330, R459, R466): PRESUMED, the
functions of FIPS 180-4 (log 13). -/

namespace Sys2Proof.Machine
open Sys2Proof

/-! The constants of FIPS 180-4: fractional bits of the square and cube roots of the first primes. -/

/-- No number from 2 to `k + 1` divides `p`. -/
def undivided (p k : Nat) : Bool := (List.range k).all (fun i => p % (i + 2) ≠ 0)

/-- The primes below 410, eighty of them: each has no divisor up to 20. -/
def smallPrimes : List Nat := (List.range 410).filter (fun p => 2 ≤ p && undivided p (min (p - 2) 19))

/-- The largest `x` below `x₀ + 2 ^ n` with `x ^ e ≤ v`, from `x₀` on: bit by bit from the highest. -/
def rootFrom (e v : Nat) : Nat → Nat → Nat
  | 0, x => x
  | n + 1, x => rootFrom e v n (if (x + 2 ^ n) ^ e ≤ v then x + 2 ^ n else x)

/-- The first `b` fractional bits of the `e`-th root of `p`. -/
def rootBits (e b p : Nat) : Nat := rootFrom e (p * 2 ^ (e * b)) (b + 5) 0 % 2 ^ b

/-- A member of the SHA-2 family: word bytes, rotation amounts, constants. -/
structure Sha2 where
  w : Nat
  big0 : Nat × Nat × Nat
  big1 : Nat × Nat × Nat
  /-- Two rotations and a shift. -/
  small0 : Nat × Nat × Nat
  small1 : Nat × Nat × Nat
  k : List Nat
  iv : List Nat
  out : Nat

def sha256P : Sha2 where
  w := 4
  big0 := (2, 13, 22)
  big1 := (6, 11, 25)
  small0 := (7, 18, 3)
  small1 := (17, 19, 10)
  k := (smallPrimes.take 64).map (rootBits 3 32)
  iv := (smallPrimes.take 8).map (rootBits 2 32)
  out := 32

def sha384P : Sha2 where
  w := 8
  big0 := (28, 34, 39)
  big1 := (14, 18, 41)
  small0 := (1, 8, 7)
  small1 := (19, 61, 6)
  k := smallPrimes.map (rootBits 3 64)
  iv := ((smallPrimes.drop 8).take 8).map (rootBits 2 64)
  out := 48

/-- The number `v` in `n` bytes, highest first. -/
def bytesBE (v n : Nat) : List Byte := (bytesOf v n).reverse
/-- The number that bytes spell, highest first. -/
def ofBytesBE (bs : List Byte) : Nat := ofBytes bs.reverse

/-- The i-th word of a list of words, zero past its end. -/
def wordOf {n : Nat} (l : List (BitVec n)) (i : Nat) : BitVec n := l.getD i 0

/-- Exclusive or of three rotations. -/
def rot3 {n : Nat} (x : BitVec n) (r : Nat × Nat × Nat) : BitVec n :=
  x.rotateRight r.1 ^^^ x.rotateRight r.2.1 ^^^ x.rotateRight r.2.2
/-- Exclusive or of two rotations and a shift. -/
def rotShift {n : Nat} (x : BitVec n) (r : Nat × Nat × Nat) : BitVec n :=
  x.rotateRight r.1 ^^^ x.rotateRight r.2.1 ^^^ (x >>> r.2.2)

/-- One round: working variables `v`, the next sixteen schedule words `m`. -/
def Sha2.round (p : Sha2) (vm : List (BitVec (8 * p.w)) × List (BitVec (8 * p.w))) (k : Nat) :
    List (BitVec (8 * p.w)) × List (BitVec (8 * p.w)) :=
  let v := vm.1
  let m := vm.2
  let a := wordOf v 0
  let e := wordOf v 4
  let ch := (e &&& wordOf v 5) ^^^ (~~~e &&& wordOf v 6)
  let maj := (a &&& wordOf v 1) ^^^ (a &&& wordOf v 2) ^^^ (wordOf v 1 &&& wordOf v 2)
  let t1 := wordOf v 7 + rot3 e p.big1 + ch + BitVec.ofNat _ k + wordOf m 0
  let t2 := rot3 a p.big0 + maj
  let next := rotShift (wordOf m 14) p.small1 + wordOf m 9 + rotShift (wordOf m 1) p.small0 + wordOf m 0
  ([t1 + t2, a, wordOf v 1, wordOf v 2, wordOf v 3 + t1, e, wordOf v 5, wordOf v 6], m.drop 1 ++ [next])

/-- Sixteen words of a block, each highest byte first. -/
def Sha2.words (p : Sha2) (block : List Byte) : List (BitVec (8 * p.w)) :=
  (List.range 16).map (fun i => BitVec.ofNat _ (ofBytesBE (slice block (p.w * i) p.w)))

/-- The chaining value after one block. -/
def Sha2.compress (p : Sha2) (h : List (BitVec (8 * p.w))) (block : List Byte) : List (BitVec (8 * p.w)) :=
  List.zipWith (· + ·) h (p.k.foldl p.round (h, p.words block)).1

/-- The message with its padding and its length in bits. -/
def Sha2.padded (p : Sha2) (msg : List Byte) : List Byte :=
  let b := 16 * p.w
  let z := (2 * b - 1 - (msg.length + 2 * p.w) % b) % b
  msg ++ [0x80] ++ List.replicate z 0 ++ bytesBE (8 * msg.length) (2 * p.w)

/-- Fold over the blocks of a message; `n` blocks. -/
def Sha2.blocks (p : Sha2) (h : List (BitVec (8 * p.w))) (msg : List Byte) : Nat → List (BitVec (8 * p.w))
  | 0 => h
  | n + 1 => Sha2.blocks p (p.compress h (msg.take (16 * p.w))) (msg.drop (16 * p.w)) n

/-- The digest of a message. -/
def Sha2.digest (p : Sha2) (msg : List Byte) : List Byte :=
  let m := p.padded msg
  let h := p.blocks (p.iv.map (BitVec.ofNat _)) m (m.length / (16 * p.w))
  (h.flatMap (fun x => bytesBE x.toNat p.w)).take p.out

/-- SHA-256. -/
def sha256 (msg : List Byte) : List Byte := sha256P.digest msg
/-- SHA-384. -/
def sha384 (msg : List Byte) : List Byte := sha384P.digest msg

end Sys2Proof.Machine
end

