-- ==== Sys2Proof/Machine/Crypto.lean ====
section
/-! DEFINITION. The two firmware signatures (R459), which the manual names and does not define: PRESUMED, ECDSA on
curve P-384 as FIPS 186 gives it and HSS/LMS as RFC 8554 and SP 800-208 give it (log 13). -/

namespace Sys2Proof.Machine
open Sys2Proof

/-! ### ECDSA on P-384 -/

def p384P : Nat := 2 ^ 384 - 2 ^ 128 - 2 ^ 96 + 2 ^ 32 - 1
def p384B : Nat :=
  0xb3312fa7e23ee7e4988e056be3f82d19181d9c6efe8141120314088f5013875ac656398d8a2ed19d2a85c8edd3ec2aef
def p384N : Nat :=
  0xffffffffffffffffffffffffffffffffffffffffffffffffc7634d81f4372ddf581a0db248b0a77aecec196accc52973
def p384G : Nat × Nat :=
  (0xaa87ca22be8b05378eb1c71ef320ad746e1d3b628ba79b9859f741e082542a385502f25dbf55296c3a545e3872760ab7,
   0x3617de4a96262c6f5d9e98bf9292dc29f8f41dbd289a147ce9da3113b5f0b8c00a60b1ce1d7e819d7a431d7c90ea0e5f)

/-- `b ^ e mod m`, for `e` below 2 ^ n. -/
def powMod (m b e : Nat) : Nat → Nat
  | 0 => 1 % m
  | n + 1 =>
    let h := powMod m b (e / 2) n
    let s := h * h % m
    if e % 2 = 1 then s * b % m else s

/-- The inverse modulo a prime. -/
def invMod (m a : Nat) : Nat := powMod m a (m - 2) 384

/-- The difference modulo `m`. -/
def subMod (m a b : Nat) : Nat := (a + (m - b % m)) % m

/-- A point of the curve; none: the point at infinity. -/
abbrev Point := Option (Nat × Nat)

/-- The point with slope `l` through (x1, y1) and x2. -/
def Point.chord (l x1 y1 x2 : Nat) : Point :=
  let x3 := subMod p384P (l * l) (x1 + x2)
  some (x3, subMod p384P (l * subMod p384P x1 x3) y1)

/-- Addition of points. -/
def Point.add (a b : Point) : Point :=
  match a, b with
  | none, q => q
  | p, none => p
  | some (x1, y1), some (x2, y2) =>
    if x1 = x2 then
      if (y1 + y2) % p384P = 0 then none
      else Point.chord ((3 * x1 * x1 + p384P - 3) * invMod p384P (2 * y1) % p384P) x1 y1 x2
    else Point.chord (subMod p384P y2 y1 * invMod p384P (subMod p384P x2 x1) % p384P) x1 y1 x2

/-- `k` times a point, for `k` below 2 ^ n. -/
def Point.mul (q : Point) (k : Nat) : Nat → Point
  | 0 => none
  | n + 1 =>
    let h := Point.mul q (k / 2) n
    let t := h.add h
    if k % 2 = 1 then t.add q else t

/-- The coordinates lie on the curve. -/
def onCurve (x y : Nat) : Bool :=
  decide (x < p384P) && decide (y < p384P) && decide (y * y % p384P = (x * x * x + (p384P - 3) * x + p384B) % p384P)

/-- The ECDSA signature (r then s) of a digest under a public key (X then Y), all big-endian. -/
def ecdsaOk (pub digest sig : List Byte) : Bool :=
  let x := ofBytesBE (slice pub 0 48)
  let y := ofBytesBE (slice pub 48 48)
  let r := ofBytesBE (slice sig 0 48)
  let t := ofBytesBE (slice sig 48 48)
  let e := ofBytesBE digest
  onCurve x y && decide (0 < r) && decide (r < p384N) && decide (0 < t) && decide (t < p384N) &&
    (let w := invMod p384N t
     match (Point.mul (some p384G) (e * w % p384N) 384).add (Point.mul (some (x, y)) (r * w % p384N) 384) with
     | none => false
     | some (x1, _) => decide (x1 % p384N = r))

/-! ### HSS with one level: LMS_SHA256_M32_H20, LMOTS_SHA256_N32_W8 -/

/-- The chain from value `t` at position `a` to position 255; `n` steps remain. -/
def lmotsChain (pre : List Byte) (t : List Byte) (a : Nat) : Nat → List Byte
  | 0 => t
  | n + 1 => lmotsChain pre (sha256 (pre ++ bytesBE a 1 ++ t)) (a + 1) n

/-- The candidate public key of a one-time signature. -/
def lmotsKey (ident q4 msg sig : List Byte) : List Byte :=
  let c := slice sig 4 32
  let h := sha256 (ident ++ q4 ++ bytesBE 0x8181 2 ++ c ++ msg)
  let sum := h.foldl (fun a b => a + (255 - b.toNat)) 0
  let coef := h ++ bytesBE sum 2
  let z := (List.range 34).flatMap (fun i =>
    let a := (coef.getD i 0).toNat
    lmotsChain (ident ++ q4 ++ bytesBE i 2) (slice sig (36 + 32 * i) 32) a (255 - a))
  sha256 (ident ++ q4 ++ bytesBE 0x8080 2 ++ z)

/-- The root that an authentication path leads to from a node. -/
def lmsClimb (ident : List Byte) (node : Nat) (t : List Byte) (path : List Byte) : Nat → List Byte
  | 0 => t
  | n + 1 =>
    let p := path.take 32
    let pre := ident ++ bytesBE (node / 2) 4 ++ bytesBE 0x8383 2
    let t' := if node % 2 = 1 then sha256 (pre ++ p ++ t) else sha256 (pre ++ t ++ p)
    lmsClimb ident (node / 2) t' (path.drop 32) n

/-- The HSS signature of a message under a 60-byte public key with L = 1. -/
def lmsOk (pub msg sig : List Byte) : Bool :=
  let ident := slice pub 12 16
  let q4 := slice sig 4 4
  let q := ofBytesBE q4
  decide (ofBytesBE (slice pub 0 4) = 1) && decide (ofBytesBE (slice pub 4 4) = 8) &&
  decide (ofBytesBE (slice pub 8 4) = 4) && decide (sig.length = 1776) && decide (ofBytesBE (slice sig 0 4) = 0) &&
  decide (ofBytesBE (slice sig 8 4) = 4) && decide (ofBytesBE (slice sig 1132 4) = 8) && decide (q < 2 ^ 20) &&
  (let kc := lmotsKey ident q4 msg (slice sig 8 1124)
   let leaf := sha256 (ident ++ bytesBE (2 ^ 20 + q) 4 ++ bytesBE 0x8282 2 ++ kc)
   decide (lmsClimb ident (2 ^ 20 + q) leaf (slice sig 1136 640) 20 = slice pub 28 32))

end Sys2Proof.Machine
end

