-- ==== Sys2Proof/Machine/Code.lean ====
section
/-! DEFINITION. The vertical symbol code (R298, R299): symbols in GF(2^8), P and Q, and the decoder of one codeword. -/

namespace Sys2Proof.Machine
open Sys2Proof

/-- Multiplication by the primitive element, field polynomial 0x11D (R298). -/
def gfDouble (x : Byte) : Byte := if x.getLsbD 7 then (x <<< 1) ^^^ 0x1D else x <<< 1

/-- Multiplication by the i-th power of the primitive element. -/
def gfScale (x : Byte) : Nat → Byte
  | 0 => x
  | n + 1 => gfDouble (gfScale x n)

/-- The i-th power of the primitive element. -/
def gfPow (i : Nat) : Byte := gfScale 1 i

/-- Product of two field elements: the second written in bits, lowest first. -/
def gfMulBits (x : Byte) (y : Nat) : Nat → Byte
  | 0 => 0
  | n + 1 => (if y % 2 = 1 then x else 0) ^^^ gfMulBits (gfDouble x) (y / 2) n

/-- Product of two field elements. -/
def gfMul (x y : Byte) : Byte := gfMulBits x y.toNat 8

/-- The element whose i-th power of the primitive element it is: its logarithm, below 255. -/
def gfLog (x : Byte) : Option Nat := (List.range 255).find? (fun i => decide (gfPow i = x))

/-- The inverse of a non-zero element. -/
def gfInv (x : Byte) : Byte :=
  match gfLog x with
  | some i => gfPow ((255 - i) % 255)
  | none => 0

/-- P of sixteen data symbols. -/
def symbolP (ds : List Byte) : Byte := ds.foldl (· ^^^ ·) 0

/-- Q of data symbols, the first of index `i`. -/
def symbolQ (ds : List Byte) (i : Nat) : Byte :=
  match ds with
  | [] => 0
  | x :: r => gfScale x i ^^^ symbolQ r (i + 1)

/-- Data symbols with those of the erased dies set to zero. -/
def erase (ds : List Byte) (es : List Nat) : List Byte := es.foldl (fun l e => setAt l e 0) ds

/-- A codeword from corrected data: P and Q recomputed. -/
def recode (ds : List Byte) : List Byte := ds ++ [symbolP ds, symbolQ ds 0]

/-- The decoder of one codeword (Table 1): eighteen symbols, and the erased dies in increasing order. None:
uncorrectable. -/
def decodeWord (cw : List Byte) (es : List Nat) : Option (List Byte) :=
  let z := erase cw es
  let ds := z.take 16
  let p := z.getD 16 0
  let q := z.getD 17 0
  let s0 := p ^^^ symbolP ds
  let s1 := q ^^^ symbolQ ds 0
  let fix1 := fun (i : Nat) (v : Byte) => setAt ds i v
  match es with
  | [] =>
    if s0 = 0 && s1 = 0 then some cw
    else if s1 = 0 then some (ds ++ [p ^^^ s0, q])
    else if s0 = 0 then some (ds ++ [p, q ^^^ s1])
    else
      match (List.range 16).find? (fun j => decide (gfScale s0 j = s1)) with
      | some j => some (setAt ds j (ds.getD j 0 ^^^ s0) ++ [p, q])
      | none => none
  | [i] =>
    if i = 16 then (if s1 = 0 then some (ds ++ [symbolP ds, q]) else none)
    else if i = 17 then (if s0 = 0 then some (ds ++ [p, symbolQ ds 0]) else none)
    else if s1 = gfScale s0 i then some (fix1 i s0 ++ [p, q]) else none
  | [i, j] =>
    if i = 16 then some (recode ds)
    else if j = 16 then some (recode (fix1 i (gfMul s1 (gfInv (gfPow i)))))
    else if j = 17 then some (recode (fix1 i s0))
    else
      let di := gfMul (s1 ^^^ gfScale s0 j) (gfInv (gfPow i ^^^ gfPow j))
      some (setAt (fix1 i di) j (s0 ^^^ di) ++ [p, q])
  | _ => none

/-- Symbol `o` of each of a stripe's chunks. -/
def column (chunks : List (List Byte)) (o : Nat) : List Byte := chunks.map (fun c => c.getD o 0)

/-- The decoder over the 32 codewords of a stripe: eighteen chunks. None: uncorrectable (R299). -/
def decodeStripe (chunks : List (List Byte)) (es : List Nat) : Option (List (List Byte)) :=
  let cols := (List.range 32).map (fun o => decodeWord (column chunks o) es)
  if cols.all (·.isSome) then
    some ((List.range 18).map (fun i => cols.map (fun c => (c.getD []).getD i 0)))
  else none

/-- The check chunks of sixteen data chunks. -/
def chunkP (chunks : List (List Byte)) : List Byte := (List.range 32).map (fun o => symbolP (column chunks o))
def chunkQ (chunks : List (List Byte)) : List Byte := (List.range 32).map (fun o => symbolQ (column chunks o) 0)

/-- Bytes combined by exclusive or. -/
def xorBytes (a b : List Byte) : List Byte := List.zipWith (· ^^^ ·) a b

/-- The delta that a check die applies for data die `i`: to P as it is, to Q scaled (R304). -/
def scaleChunk (delta : List Byte) (i : Nat) : List Byte := delta.map (fun x => gfScale x i)

end Sys2Proof.Machine
end

