-- ==== Sys2Proof/Machine/Units.lean ====
section
/-! DEFINITION. What each unit holds after a reset, the units that a grade has (R1 to R3), the power class (R404), and
one accessor for each array of units. -/

namespace Sys2Proof.Machine
open Sys2Proof

/-! ### Reset values of units -/

/-- A counter after a full reset (R447). -/
def Counter.zero : Counter := ⟨0, false⟩
/-- A queue that no image entry configures: UNUSED (R341). -/
def Queue.zero : Queue := ⟨0, 0, false, false, 0, 0, 0, 0, 0, 0, 0, 0, false, [], [], [], []⟩
/-- A region controller with no fault recorded (R458). -/
def RegionSt.zero : RegionSt := ⟨false, 0, 0, 0, 0, 0, [], [], [], [], [], 0⟩
/-- A block sequencer after a reset (R83). -/
def BlockSt.zero : BlockSt := ⟨.idle, 0, 0, 0, [], 0, none, false, false, false, (0, 0), false, 0⟩
/-- A tensor cell after a reset (R48). -/
def CellSt.zero : CellSt := ⟨0, false, []⟩
/-- A stack after a reset in a class whose default rule set is `rs` (R156, R172, R324). -/
def StackSt.dflt (rs : Nat) : StackSt where
  halt := 0
  hot := false
  sw := rs
  floor := 0
  busy := false
  target := rs
  frm := rs
  pend := none
  applied := 0xFFFF
  timedOut := false
  fault := 0
  bypass := false
  dropKeep := false
  reqs := []
  slots := []
  seqCache := []
  scanQ := []
  acts := []
  bauNow := 0
  turnAt := []
  rowBufs := []
  deltas := []
  deltaPtr := 1024
  deltaSeq := 0
  locks := []
  lockWait := []
  rowWait := []
  rowHeld := none
  cache := []
  scan := none
  scrubEn := true
  scrubInterval := 0x324A
  scrubPos := 0
  flipArm := false
  parityAfter := false
  flipDie := 0
  flipMask := []
  reconDie := none
  ueValid := false
  ueOverflow := false
  ueOutcome := 0
  ueSource := 0
  ueAddr := 0
  remapLog := []
  remapLost := false
  retireLog := []
  retireLost := false
  remap := []
  retired := []
  fuseSelect := 0
  ueWait := []
/-- A bank cell after a reset (R163). -/
def BCell.zero : BCell := ⟨[], .none, 0, .idle, 0, false, false, 0, [], [], none, none, 0, none, 0, none, none, 0⟩
/-- A domain after a reset (R253). -/
def Dom.zero : Dom where
  act := .idle
  step := none
  susp := []
  lastStep := 0
  nextStep := 0
  prevFallback := false
  compose := 0
  stepTime := 0
  lastCommit := 0
  committed := false
  wantCompose := false
  preemptEn := false
  minPrio := 1
  active := none
  quantum := 8
  run := 0
  suspendTime := 0
  stopped := false
  wedged := false
  resident := []
  mcommit := false
  judge := false
  stopAt := 0
/-- A FREE request entry (R215). -/
def Req.zero : Req where
  cmd := 0
  refused := false
  refuseCode := 0
  ringFull := false
  needPages := false
  needBudget := false
  missed := false
  maxlen := false
  eos := false
  cancelLate := false
  state := .free
  cfg := 0
  promptBase := 0
  pageList := 0
  outBase := 0
  promptLen := 0
  maxLen := 0
  genLen := 0
  promptDone := 0
  limits := 0
  judged := 0
  outWrite := 0
  outRead := 0
  since := none
  lastStep := 0
  probeCnt := 0
  zeroRun := 0
  draftLen := 0
  cancelAt := false
  parkAt := false
  lastToken := 0
  delivery := []
  ackWait := false
  order := 0
  granules := []
  promoted := false
  waited := false
  copyOn := []
/-- A customer at application of an image (R351). -/
def Cust.zero : Cust := ⟨0, 0, false⟩
/-- A ring that is OFF (R372). -/
def Ring.zero : Ring := ⟨0, 0, 0, false, 0, 0, 0, 0, 0, 0, [], []⟩
/-- A tensor die with budget `w` (R416). -/
def TDieSt.dflt (w : Nat) : TDieSt := ⟨true, false, 0, 0, 0, 0, .stopped, .stopped, 0, 0, false, w, 0, 0⟩
/-- A sensor not yet sampled (R426). -/
def Sensor.zero : Sensor := ⟨false, false, false, 0⟩
/-- A die with no thermal request (R421). -/
def ThDie.zero : ThDie := ⟨0, .idle, false, false, 0⟩
/-- Bytes of a receive buffer (R280). -/
def channelBuffer : Nat := 65536

/-- A span port that is OFF (R297). -/
def Span.dflt : Span := ⟨false, 0, 0, 0, 0, 0, 0, 0x0A, false, [], ⟨255, 0, [], channelBuffer, []⟩, []⟩
/-- An MSI-X table entry after a reset: masked, as PCI Express has it (R379; log 16). -/
def MsixEntry.zero : MsixEntry := ⟨0, 0, true⟩

/-! ### Grade and power class -/

/-- Tensor die `t` is present (R2). -/
def Dev.tdiePresent (d : Dev) (t : Nat) : Bool :=
  match d.fuses.grade with
  | .b f => decide (t < 6) && !decide (t = f.val)
  | _ => decide (t < 6)
/-- Region `n` is present (R2). -/
def Dev.regionPresent (d : Dev) (n : Nat) : Bool := d.tdiePresent (n / 2)
/-- Stack `s` is present exactly when its region is (R2). -/
def Dev.stackPresent (d : Dev) (s : Nat) : Bool := d.regionPresent (s / 2)
/-- The span ports are available (R1). -/
def Dev.spanPresent (d : Dev) : Bool :=
  match d.fuses.grade with
  | .s => false
  | _ => true
/-- Backward-pass operations are available (R1). -/
def Dev.bwdPresent (d : Dev) : Bool :=
  match d.fuses.grade with
  | .b _ => false
  | _ => true
/-- `GRADE.CODE` (Table 3). -/
def Dev.gradeCode (d : Dev) : Nat :=
  match d.fuses.grade with
  | .a => 0
  | .s => 1
  | .b _ => 2
/-- Present stacks, in increasing order. -/
def Dev.stacksPresent (d : Dev) : List Nat := (List.range 24).filter d.stackPresent
/-- Present regions, in increasing order. -/
def Dev.regionsPresent (d : Dev) : List Nat := (List.range 12).filter d.regionPresent

/-- Watts of the power class; code 3 acts as 2,400 W (R404, R431). -/
def Dev.classWatts (d : Dev) : Nat :=
  match d.chip.straps.pwrClass.toNat with
  | 0 => 3200
  | 1 => 2800
  | _ => 2400
/-- Default rule set of the power class (R156). -/
def Dev.classRule (d : Dev) : Nat :=
  match d.chip.straps.pwrClass.toNat with
  | 0 => 0
  | 1 => 1
  | _ => 2
/-- Default budget of a present tensor die (R348, R404). -/
def Dev.classBudget (d : Dev) : Nat :=
  match d.fuses.grade with
  | .b _ => min 600 ((d.classWatts - 80) / 5)
  | _ => min 600 ((d.classWatts - 80) / 6)
/-- Pages of the window; codes 5 to 7 act as code 0 (R364). -/
def Dev.windowPages (d : Dev) : Nat :=
  match d.chip.straps.winSize.toNat with
  | 1 => 16384
  | 2 => 32768
  | 3 => 65536
  | 4 => 131072
  | _ => 8192


/-! ### Accessors: one unit read, written, changed -/

/-- The statistics counter at BAR0 offset `k` (R447). -/
def Dev.ctr (d : Dev) (k : Nat) : Counter := Tab.read (fun _ => Counter.zero) d.counters k

/-- Write: the statistics counter at BAR0 offset `k` (R447). -/
def Dev.setCtr (d : Dev) (k : Nat) (x : Counter) : Dev :=
  { d with counters := Tab.write (fun _ => Counter.zero) d.counters k x }

/-- Change: the statistics counter at BAR0 offset `k` (R447). -/
def Dev.modCtr (d : Dev) (k : Nat) (f : Counter → Counter) : Dev := d.setCtr k (f (d.ctr k))

/-- Counting flag, by region * 1,024 + flag (R77). -/
def Dev.flag (d : Dev) (k : Nat) : Nat := Tab.read (fun _ => 0) d.flags k

/-- Write: counting flag, by region * 1,024 + flag (R77). -/
def Dev.setFlag (d : Dev) (k : Nat) (x : Nat) : Dev :=
  { d with flags := Tab.write (fun _ => 0) d.flags k x }

/-- Change: counting flag, by region * 1,024 + flag (R77). -/
def Dev.modFlag (d : Dev) (k : Nat) (f : Nat → Nat) : Dev := d.setFlag k (f (d.flag k))

/-- Blocks that wait on a flag, in arrival order (R80). -/
def Dev.waitq (d : Dev) (k : Nat) : List Nat := Tab.read (fun _ => []) d.waiters k

/-- Write: blocks that wait on a flag, in arrival order (R80). -/
def Dev.setWaitq (d : Dev) (k : Nat) (x : List Nat) : Dev :=
  { d with waiters := Tab.write (fun _ => []) d.waiters k x }

/-- Change: blocks that wait on a flag, in arrival order (R80). -/
def Dev.modWaitq (d : Dev) (k : Nat) (f : List Nat → List Nat) : Dev := d.setWaitq k (f (d.waitq k))

/-- Stream queue, by region * 32 + queue (R254). -/
def Dev.queue (d : Dev) (k : Nat) : Queue := Tab.read (fun _ => Queue.zero) d.queues k

/-- Write: stream queue, by region * 32 + queue (R254). -/
def Dev.setQueue (d : Dev) (k : Nat) (x : Queue) : Dev :=
  { d with queues := Tab.write (fun _ => Queue.zero) d.queues k x }

/-- Change: stream queue, by region * 32 + queue (R254). -/
def Dev.modQueue (d : Dev) (k : Nat) (f : Queue → Queue) : Dev := d.setQueue k (f (d.queue k))

/-- Region controller (R443). -/
def Dev.region (d : Dev) (k : Nat) : RegionSt := Tab.read (fun _ => RegionSt.zero) d.regions k

/-- Write: region controller (R443). -/
def Dev.setRegion (d : Dev) (k : Nat) (x : RegionSt) : Dev :=
  { d with regions := Tab.write (fun _ => RegionSt.zero) d.regions k x }

/-- Change: region controller (R443). -/
def Dev.modRegion (d : Dev) (k : Nat) (f : RegionSt → RegionSt) : Dev := d.setRegion k (f (d.region k))

/-- Tensor block, by region * 4 + block (R71). -/
def Dev.blk (d : Dev) (k : Nat) : BlockSt := Tab.read (fun _ => BlockSt.zero) d.blocks k

/-- Write: tensor block, by region * 4 + block (R71). -/
def Dev.setBlk (d : Dev) (k : Nat) (x : BlockSt) : Dev :=
  { d with blocks := Tab.write (fun _ => BlockSt.zero) d.blocks k x }

/-- Change: tensor block, by region * 4 + block (R71). -/
def Dev.modBlk (d : Dev) (k : Nat) (f : BlockSt → BlockSt) : Dev := d.setBlk k (f (d.blk k))

/-- Instruction-memory entry, by block * 8,192 + entry (R47). -/
def Dev.opword (d : Dev) (k : Nat) : Nat := Tab.read (fun _ => 0) d.imem k

/-- Write: instruction-memory entry, by block * 8,192 + entry (R47). -/
def Dev.setOpword (d : Dev) (k : Nat) (x : Nat) : Dev :=
  { d with imem := Tab.write (fun _ => 0) d.imem k x }

/-- Change: instruction-memory entry, by block * 8,192 + entry (R47). -/
def Dev.modOpword (d : Dev) (k : Nat) (f : Nat → Nat) : Dev := d.setOpword k (f (d.opword k))

/-- Buffer region table entry, by cell * 64 + entry (R36). -/
def Dev.bufreg (d : Dev) (k : Nat) : Word := Tab.read (fun _ => 0) d.bufregs k

/-- Write: buffer region table entry, by cell * 64 + entry (R36). -/
def Dev.setBufreg (d : Dev) (k : Nat) (x : Word) : Dev :=
  { d with bufregs := Tab.write (fun _ => 0) d.bufregs k x }

/-- Change: buffer region table entry, by cell * 64 + entry (R36). -/
def Dev.modBufreg (d : Dev) (k : Nat) (f : Word → Word) : Dev := d.setBufreg k (f (d.bufreg k))

/-- Tensor cell, by block * 8 + cell (R48). -/
def Dev.cell (d : Dev) (k : Nat) : CellSt := Tab.read (fun _ => CellSt.zero) d.cells k

/-- Write: tensor cell, by block * 8 + cell (R48). -/
def Dev.setCell (d : Dev) (k : Nat) (x : CellSt) : Dev :=
  { d with cells := Tab.write (fun _ => CellSt.zero) d.cells k x }

/-- Change: tensor cell, by block * 8 + cell (R48). -/
def Dev.modCell (d : Dev) (k : Nat) (f : CellSt → CellSt) : Dev := d.setCell k (f (d.cell k))

/-- Compute stack (R172). -/
def Dev.stk (d : Dev) (k : Nat) : StackSt := Tab.read (fun _ => StackSt.dflt d.classRule) d.stks k

/-- Write: compute stack (R172). -/
def Dev.setStk (d : Dev) (k : Nat) (x : StackSt) : Dev :=
  { d with stks := Tab.write (fun _ => StackSt.dflt d.classRule) d.stks k x }

/-- Change: compute stack (R172). -/
def Dev.modStk (d : Dev) (k : Nat) (f : StackSt → StackSt) : Dev := d.setStk k (f (d.stk k))

/-- Bank cell, by (stack * 18 + die) * 64 + cell (R135). -/
def Dev.bcell (d : Dev) (k : Nat) : BCell := Tab.read (fun _ => BCell.zero) d.bcells k

/-- Write: bank cell, by (stack * 18 + die) * 64 + cell (R135). -/
def Dev.setBcell (d : Dev) (k : Nat) (x : BCell) : Dev :=
  { d with bcells := Tab.write (fun _ => BCell.zero) d.bcells k x }

/-- Change: bank cell, by (stack * 18 + die) * 64 + cell (R135). -/
def Dev.modBcell (d : Dev) (k : Nat) (f : BCell → BCell) : Dev := d.setBcell k (f (d.bcell k))

/-- Domain (R253). -/
def Dev.dom (d : Dev) (k : Nat) : Dom := Tab.read (fun _ => Dom.zero) d.doms k

/-- Write: domain (R253). -/
def Dev.setDom (d : Dev) (k : Nat) (x : Dom) : Dev :=
  { d with doms := Tab.write (fun _ => Dom.zero) d.doms k x }

/-- Change: domain (R253). -/
def Dev.modDom (d : Dev) (k : Nat) (f : Dom → Dom) : Dev := d.setDom k (f (d.dom k))

/-- Request entry (R215). -/
def Dev.req (d : Dev) (k : Nat) : Req := Tab.read (fun _ => Req.zero) d.serve.reqs k

/-- Write: request entry (R215). -/
def Dev.setReq (d : Dev) (k : Nat) (x : Req) : Dev :=
  { d with serve.reqs := Tab.write (fun _ => Req.zero) d.serve.reqs k x }

/-- Change: request entry (R215). -/
def Dev.modReq (d : Dev) (k : Nat) (f : Req → Req) : Dev := d.setReq k (f (d.req k))

/-- Customer (R238). -/
def Dev.cust (d : Dev) (k : Nat) : Cust := Tab.read (fun _ => Cust.zero) d.serve.custs k

/-- Write: customer (R238). -/
def Dev.setCust (d : Dev) (k : Nat) (x : Cust) : Dev :=
  { d with serve.custs := Tab.write (fun _ => Cust.zero) d.serve.custs k x }

/-- Change: customer (R238). -/
def Dev.modCust (d : Dev) (k : Nat) (f : Cust → Cust) : Dev := d.setCust k (f (d.cust k))

/-- Host work ring (R372). -/
def Dev.ring (d : Dev) (k : Nat) : Ring := Tab.read (fun _ => Ring.zero) d.host.rings k

/-- Write: host work ring (R372). -/
def Dev.setRing (d : Dev) (k : Nat) (x : Ring) : Dev :=
  { d with host.rings := Tab.write (fun _ => Ring.zero) d.host.rings k x }

/-- Change: host work ring (R372). -/
def Dev.modRing (d : Dev) (k : Nat) (f : Ring → Ring) : Dev := d.setRing k (f (d.ring k))

/-- Clock and power of a tensor die (R398, R405). -/
def Dev.tdie (d : Dev) (k : Nat) : TDieSt := Tab.read (fun _ => TDieSt.dflt d.classBudget) d.clk.tdie k

/-- Write: clock and power of a tensor die (R398, R405). -/
def Dev.setTdie (d : Dev) (k : Nat) (x : TDieSt) : Dev :=
  { d with clk.tdie := Tab.write (fun _ => TDieSt.dflt d.classBudget) d.clk.tdie k x }

/-- Change: clock and power of a tensor die (R398, R405). -/
def Dev.modTdie (d : Dev) (k : Nat) (f : TDieSt → TDieSt) : Dev := d.setTdie k (f (d.tdie k))

/-- Temperature sensor (R417). -/
def Dev.sensor (d : Dev) (k : Nat) : Sensor := Tab.read (fun _ => Sensor.zero) d.therm.sensors k

/-- Write: temperature sensor (R417). -/
def Dev.setSensor (d : Dev) (k : Nat) (x : Sensor) : Dev :=
  { d with therm.sensors := Tab.write (fun _ => Sensor.zero) d.therm.sensors k x }

/-- Change: temperature sensor (R417). -/
def Dev.modSensor (d : Dev) (k : Nat) (f : Sensor → Sensor) : Dev := d.setSensor k (f (d.sensor k))

/-- Thermal state of a die (R421). -/
def Dev.thdie (d : Dev) (k : Nat) : ThDie := Tab.read (fun _ => ThDie.zero) d.therm.dies k

/-- Write: thermal state of a die (R421). -/
def Dev.setThdie (d : Dev) (k : Nat) (x : ThDie) : Dev :=
  { d with therm.dies := Tab.write (fun _ => ThDie.zero) d.therm.dies k x }

/-- Change: thermal state of a die (R421). -/
def Dev.modThdie (d : Dev) (k : Nat) (f : ThDie → ThDie) : Dev := d.setThdie k (f (d.thdie k))

/-- Span port (R278). -/
def Dev.span (d : Dev) (k : Nat) : Span := Tab.read (fun _ => Span.dflt) d.net.spans k

/-- Write: span port (R278). -/
def Dev.setSpan (d : Dev) (k : Nat) (x : Span) : Dev :=
  { d with net.spans := Tab.write (fun _ => Span.dflt) d.net.spans k x }

/-- Change: span port (R278). -/
def Dev.modSpan (d : Dev) (k : Nat) (f : Span → Span) : Dev := d.setSpan k (f (d.span k))

/-- Shadow request entry; none: FREE (R293). -/
def Dev.shadow (d : Dev) (k : Nat) : Option Shadow := Tab.read (fun _ => none) d.twin.shadow k

/-- Write: shadow request entry; none: FREE (R293). -/
def Dev.setShadow (d : Dev) (k : Nat) (x : Option Shadow) : Dev :=
  { d with twin.shadow := Tab.write (fun _ => none) d.twin.shadow k x }

/-- Change: shadow request entry; none: FREE (R293). -/
def Dev.modShadow (d : Dev) (k : Nat) (f : Option Shadow → Option Shadow) : Dev := d.setShadow k (f (d.shadow k))

/-- Rounds of the reduction tree of a domain, oldest first (R274). -/
def Dev.rounds (d : Dev) (k : Nat) : List Round := Tab.read (fun _ => []) d.net.rounds k

/-- Write: rounds of the reduction tree of a domain, oldest first (R274). -/
def Dev.setRounds (d : Dev) (k : Nat) (x : List Round) : Dev :=
  { d with net.rounds := Tab.write (fun _ => []) d.net.rounds k x }

/-- Change: rounds of the reduction tree of a domain, oldest first (R274). -/
def Dev.modRounds (d : Dev) (k : Nat) (f : List Round → List Round) : Dev := d.setRounds k (f (d.rounds k))

/-- Held lower half of a 64-bit register (R12). -/
def Dev.heldHalf (d : Dev) (k : Nat) : Option Word := Tab.read (fun _ => none) d.held k

/-- Write: held lower half of a 64-bit register (R12). -/
def Dev.setHeldHalf (d : Dev) (k : Nat) (x : Option Word) : Dev :=
  { d with held := Tab.write (fun _ => none) d.held k x }

/-- Change: held lower half of a 64-bit register (R12). -/
def Dev.modHeldHalf (d : Dev) (k : Nat) (f : Option Word → Option Word) : Dev := d.setHeldHalf k (f (d.heldHalf k))

/-- Latched upper half of a 64-bit register (R10). -/
def Dev.latchedHalf (d : Dev) (k : Nat) : Option Word := Tab.read (fun _ => none) d.latched k

/-- Write: latched upper half of a 64-bit register (R10). -/
def Dev.setLatchedHalf (d : Dev) (k : Nat) (x : Option Word) : Dev :=
  { d with latched := Tab.write (fun _ => none) d.latched k x }

/-- Change: latched upper half of a 64-bit register (R10). -/
def Dev.modLatchedHalf (d : Dev) (k : Nat) (f : Option Word → Option Word) : Dev := d.setLatchedHalf k (f (d.latchedHalf k))

/-- Parity mismatch bits of a stored chunk, by DRAM place / 32 (R300). -/
def Dev.xparity (d : Dev) (k : Nat) : Nat := Tab.read (fun _ => 0) d.parity k

/-- Write: parity mismatch bits of a stored chunk, by DRAM place / 32 (R300). -/
def Dev.setXparity (d : Dev) (k : Nat) (x : Nat) : Dev :=
  { d with parity := Tab.write (fun _ => 0) d.parity k x }

/-- Change: parity mismatch bits of a stored chunk, by DRAM place / 32 (R300). -/
def Dev.modXparity (d : Dev) (k : Nat) (f : Nat → Nat) : Dev := d.setXparity k (f (d.xparity k))

/-- Pennant of a window page: true DEVICE (R369). -/
def Dev.pennant (d : Dev) (k : Nat) : Bool := Tab.read (fun _ => false) d.host.pennants k

/-- The word of the pennant table with the page's pennant fails its replays (R445). -/
def Dev.pennantBad (d : Dev) (k : Nat) : Bool := d.badTables.contains (0x800000 + 4 * (k / 32))

/-- Write: pennant of a window page: true DEVICE (R369). -/
def Dev.setPennant (d : Dev) (k : Nat) (x : Bool) : Dev :=
  { d with host.pennants := Tab.write (fun _ => false) d.host.pennants k x }

/-- Change: pennant of a window page: true DEVICE (R369). -/
def Dev.modPennant (d : Dev) (k : Nat) (f : Bool → Bool) : Dev := d.setPennant k (f (d.pennant k))

/-- MSI-X table entry (R379). -/
def Dev.msixEntry (d : Dev) (k : Nat) : MsixEntry := Tab.read (fun _ => MsixEntry.zero) d.host.msix k

/-- Write: MSI-X table entry (R379). -/
def Dev.setMsixEntry (d : Dev) (k : Nat) (x : MsixEntry) : Dev :=
  { d with host.msix := Tab.write (fun _ => MsixEntry.zero) d.host.msix k x }

/-- Change: MSI-X table entry (R379). -/
def Dev.modMsixEntry (d : Dev) (k : Nat) (f : MsixEntry → MsixEntry) : Dev := d.setMsixEntry k (f (d.msixEntry k))

/-- MSI-X pending bit (R388). -/
def Dev.pbaBit (d : Dev) (k : Nat) : Bool := Tab.read (fun _ => false) d.host.pba k

/-- Write: MSI-X pending bit (R388). -/
def Dev.setPbaBit (d : Dev) (k : Nat) (x : Bool) : Dev :=
  { d with host.pba := Tab.write (fun _ => false) d.host.pba k x }

/-- Change: MSI-X pending bit (R388). -/
def Dev.modPbaBit (d : Dev) (k : Nat) (f : Bool → Bool) : Dev := d.setPbaBit k (f (d.pbaBit k))

end Sys2Proof.Machine
end

