-- ==== Sys2Proof/WellFormed.lean ====
section
/-! DEFINITION. Well-formed commands: the relations that the operands of a row keep. An ill-formed command is no step of
the spec; its meaning faults. -/

namespace Sys2Proof

/-- The bytes lie within one stripe: one line of the linear view, one chunk of the bank view (R128, R130). -/
def oneStripe (a len : Nat) : Bool :=
  decide (0 < len) && (if bitAt a 46 then decide (a % 32 + len ≤ 32) else decide (a % 512 + len ≤ 512))

/-- Lands in the boundary-scan chain: the sideband and strap lands of Tables 4 to 6 of 21 (log 25). -/
def chainLength : Nat := 42

/-- An item of the mirror stream as the twin sends it: writes carry bytes, records whole parts (R292, R293). -/
def TwinItem.wf (x : TwinItem) : Bool :=
  match x with
  | .write _ bytes => decide (0 < bytes.length)
  | .record _ _ _ _ parts => parts.all (fun p => decide (p.entry < 4096) && decide (p.req.length = 16) &&
      decide (p.result.length = 16))
  | .copyEnd => true

/-- SPDM nonces have 32 bytes (R468). -/
def SpdmReq.wf (q : SpdmReq) : Bool :=
  match q.body with
  | .challenge _ n => decide (n.length = 32)
  | .getMeasurements _ signed n => !signed || decide (n.length = 32)
  | _ => true

/-- The command is a step that the spec can mean. The arms name every command whose operands keep a relation; the operands
of the others are free within their types. -/
def wellFormed (i : Instr) : Bool :=
  match i with
  | .bankAccess _ _ addr len wdata => oneStripe addr.toNat len && (match wdata with
    | some b => decide (b.length = len)
    | none => true)
  | .narrowWrite _ addr bytes => oneStripe addr.toNat bytes.length
  | .fullStripeWrite _ addr bytes => decide (bytes.length = 512) && decide (addr.toNat % 512 = 0) && !bitAt addr.toNat 46
  | .stripeRepair _ _ _ _ (some b) => decide (b.length = 512)
  | .flipArm _ v => v.getLsbD 31
  | .twinAttached hello _ => decide (hello.digest.length = 48)
  | .twinRecordApply item => item.wf
  | .twinRepairRead _ len => decide (0 < len) && decide (len ≤ 65536)
  | .hostWindowWrite _ bytes => decide (0 < bytes.length)
  | .hostWindowRead _ len => decide (0 < len)
  | .ecHoldTake _ v => v.getLsbD 8
  | .ecHoldRelease _ v => v.getLsbD 9
  | .thermalSample readings => readings.all (fun r => decide (r.1 < 196))
  | .spdmRequest _ q => q.wf
  | .samplePreload shift => decide (shift.length = chainLength)
  | _ => true

end Sys2Proof
end

