-- ==== Sys2Proof/Machine/Ops.lean ====
section
/-! DEFINITION. Operations that every family shares: running a command's effect, draws of free values, counters (R447),
raises (R383), outputs, chip state (R433), region faults (R23, R24, R444) and chip faults (R438). -/

namespace Sys2Proof.Machine
open Sys2Proof

/-! ### Running an effect -/

/-- The command completes with the effect `f` on the device. -/
def State.always (s : State) (f : Dev → Dev) : Result State := .next { s with dev := f s.dev }

/-- The command completes with the effect `f` when its operands are well-formed; otherwise the machine stops. -/
def State.checked (s : State) (ok : Bool) (f : Dev → Dev) : Result State :=
  if ok then s.always f else .fault .illFormed

/-- The effect `f` where the step's conditions hold; otherwise nothing happens (log 4). -/
def Dev.when (d : Dev) (c : Bool) (f : Dev → Dev) : Dev := if c then f d else d

/-- Requests of the function are performed in order (R368): one that comes while an earlier one waits for memory is held
behind it. The block takes the held requests up again, in order, when its queue is empty (log 49). -/
def Dev.inOrder (d : Dev) (i : Instr) (f : Dev → Dev) : Dev :=
  if d.host.held.isEmpty then f d else { d with host.held := d.host.held ++ [i] }

/-- A request of the function waits: it is held, and the later ones behind it. -/
def Dev.hold (d : Dev) (i : Instr) : Dev := { d with host.held := d.host.held ++ [i] }

/-- The command is a request of the function, with the effect `f` in its turn (R368). -/
def State.hosted (s : State) (i : Instr) (f : Dev → Dev) : Result State := s.always fun d => d.inOrder i f

/-- What an agent asks for: requests of the host keep their order (R368). -/
def Dev.ask (d : Dev) (who : Agent) (i : Instr) (f : Dev → Dev) : Dev :=
  match who with
  | .host => d.inOrder i f
  | .mgmt => f d

/-- The command is a register access of an agent. -/
def State.asked (s : State) (who : Agent) (i : Instr) (f : Dev → Dev) : Result State := s.always fun d => d.ask who i f

/-! ### Free values -/

/-- The device after a draw; the draw's number is `d.free` (log 8). -/
def Dev.drawn (d : Dev) : Dev := { d with free := d.free + 1 }

/-! ### Outputs, raises, counters -/

/-- Send a message outside. -/
def Dev.emit (d : Dev) (o : Out) : Dev := { d with out := d.out ++ [o] }

/-- An item enters the mirror stream and leaves on the link (R291, R292): the stream keeps it until it is acknowledged. -/
def Dev.mirrorSend (d : Dev) (x : TwinItem) : Dev := ({ d with twin.stream := d.twin.stream ++ [x] }).emit (.twin x)

/-- Data bytes of an item of the mirror stream (R292, Table 2 of 11). -/
def itemBytes (x : TwinItem) : Nat :=
  match x with
  | .write _ bytes => bytes.length
  | .record _ _ _ _ parts => 64 + 128 * parts.length
  | .copyEnd => 0

/-- A mirrored write or a record takes its place in the mirror queue of I/O die 1 (R292), which the link drains at each tick
of the keep clock (log 101). -/
def Dev.mirrorQueued (d : Dev) (x : TwinItem) : Dev :=
  { d.mirrorSend x with twin.backlog := d.twin.backlog + itemBytes x }

/-- The mirror queue of 8 MiB is full, and writes wait to enter it: completions wait (R292). -/
def Dev.mirrorFull (d : Dev) : Bool := d.twin.st = 2 && decide (8388608 < d.twin.backlog)

/-- A unit raises a source: a message to the concentrator's internal doorbell (R383). -/
def Dev.raise (d : Dev) (src : Nat) : Dev := { d with ec.inbox := d.ec.inbox ++ [⟨src, true⟩] }

/-- A unit withdraws a level source (R384). -/
def Dev.withdraw (d : Dev) (src : Nat) : Dev := { d with ec.inbox := d.ec.inbox ++ [⟨src, false⟩] }

/-- The greatest COUNT (R447). -/
def countMax : Nat := 2 ^ 48 - 1

/-- A counter after an update that adds `k` (R447). -/
def Counter.add (c : Counter) (k : Nat) : Counter :=
  ⟨min (c.count + k) countMax, c.sat || decide (countMax ≤ c.count + k)⟩

/-- `COUNTER_SAT_LOG` records the first offset after VALID was last clear, of those in one cycle the lowest; source 2 is
raised (R448). -/
def Dev.saturated (d : Dev) (off : Nat) : Dev :=
  (if !d.chip.satValid then { d with chip.satValid := true, chip.satOffset := off, chip.satAt := d.now }
   else if d.chip.satAt = d.now then { d with chip.satOffset := min d.chip.satOffset off }
   else d).raise 2

/-- Add `k` to the statistics counter at BAR0 offset `off` (R447, R448). -/
def Dev.bumpBy (d : Dev) (off k : Nat) : Dev :=
  let c := d.ctr off
  let c' := c.add k
  let d' := d.setCtr off c'
  if c'.sat && !c.sat then d'.saturated off else d'

/-- Add one to the statistics counter at BAR0 offset `off`. -/
def Dev.bump (d : Dev) (off : Nat) : Dev := d.bumpBy off 1

/-! ### Register offsets -/

/-- Registers of region `n` (R366). -/
def regionBase (n : Nat) : Nat := 0x1000000 + n * 0x200000
/-- Registers of block `b` of region `n` (R48). -/
def blockBase (n b : Nat) : Nat := regionBase n + 0x80000 + b * 0x20000
/-- Registers of stack `s` (R172). -/
def stackBase (s : Nat) : Nat := regionBase (s / 2) + 0x100000 + s % 2 * 0x20000
/-- Registers of queue `q` of region `n` (R266). -/
def queueBase (n q : Nat) : Nat := regionBase n + 0x20000 + q * 0x40
/-- Registers of span port `p` (R297). -/
def spanBase (p : Nat) : Nat := 0x3001000 + p * 0x100

/-! ### Structure lookups -/

/-- An image is in force (R329). -/
def Dev.structured (d : Dev) : Bool := decide (d.img.state = 5)

/-- The entry of domain `n` in the structure in force. -/
def Dev.domEnt (d : Dev) (n : Nat) : Option DomEnt := d.img.str.domains.find? (fun e => decide (e.num = n))

/-- The domain that region `r` belongs to (R26). -/
def Dev.domainOf (d : Dev) (r : Nat) : Option Nat :=
  (d.img.str.domains.find? (fun e => e.regions.getLsbD r)).map (·.num)

/-- Regions of domain `n`, in increasing order. -/
def Dev.regionsOf (d : Dev) (n : Nat) : List Nat :=
  match d.domEnt n with
  | some e => (List.range 12).filter (fun r => e.regions.getLsbD r)
  | none => []

/-- Stacks of domain `n` (R27). -/
def Dev.stacksOf (d : Dev) (n : Nat) : List Nat := (d.regionsOf n).flatMap (fun r => [2 * r, 2 * r + 1])

/-- The regions `a` and `b` belong to one domain. -/
def Dev.sameDomain (d : Dev) (a b : Nat) : Bool :=
  match d.domainOf a with
  | some m => decide (d.domainOf b = some m)
  | none => false

/-- The domain of region `r` has been stopped by a region fault, or every domain by a chip fault (R23, R438). -/
def Dev.regionHalted (d : Dev) (r : Nat) : Bool :=
  match d.domainOf r with
  | some n => (d.dom n).stopped || decide (d.chip.state ≠ .ready)
  | none => true

/-- The region issues nothing: its domain is stopped, or DOMAIN_STALL has wedged it (R23, R85, R438). -/
def Dev.regionStopped (d : Dev) (r : Nat) : Bool :=
  d.regionHalted r ||
    (match d.domainOf r with
     | some n => (d.dom n).wedged
     | none => true)

/-- Step in flight of a domain, or the last one (R458). -/
def Dev.stepShown (d : Dev) (n : Nat) : BitVec 16 :=
  match (d.dom n).step with
  | some s => s.num
  | none => (d.dom n).lastStep

/-! ### Faults -/

/-- Offset of `REGION_FAULT_COUNT` (R458). -/
def faultCountAt (r : Nat) : Nat := regionBase r + 8

/-- Region `r` records a fault: the first code stays, later faults are counted (R24, R444). -/
def Dev.recordFault (d : Dev) (r code origin unit : Nat) : Dev :=
  if (d.region r).faultValid then d.bump (faultCountAt r)
  else
    let n := (d.domainOf r).getD 0
    (d.modRegion r (fun x => { x with
      faultValid := true
      faultCode := code
      faultDomain := n
      faultOrigin := origin
      faultUnit := unit
      faultStep := d.stepShown n })).raise (16 + r)

/-- Code DOMAIN_STOPPED (Table 1 of 19). -/
def codeDomainStopped : Nat := 0x4C

/-- Region `o` of a domain records DOMAIN_STOPPED after the fault of region `r` (R444). -/
def Dev.stopRegion (d : Dev) (r o : Nat) : Dev :=
  if o = r || (d.region o).faultValid then d else d.recordFault o codeDomainStopped r 6

/-- A fault of region `r` in the very cycle in which its domain `n` stopped: the region records it in the place of
DOMAIN_STOPPED, and ORIGIN of the others names the lowest of the regions that recorded a fault (R444). -/
def Dev.alsoFaults (d : Dev) (n r code unit : Nat) : Dev :=
  if (d.region r).faultCode ≠ codeDomainStopped then d.bump (faultCountAt r)
  else
    let d1 := d.modRegion r (fun x => { x with faultCode := code, faultOrigin := r, faultUnit := unit })
    (d1.regionsOf n).foldl (fun a o => a.modRegion o (fun x =>
      if x.faultCode = codeDomainStopped then { x with faultOrigin := min x.faultOrigin r } else x)) d1

/-- A region fault (R23, R24, R444): region `r` records `code` with UNIT `unit`, its domain stops, and every other
region of the domain with no fault recorded records DOMAIN_STOPPED (log 87). In a domain already stopped, as every one is
after a chip fault (R438), it is counted, but for one in the cycle of the stop. -/
def Dev.regionFault (d : Dev) (r code unit : Nat) : Dev :=
  match d.domainOf r with
  | none => d.recordFault r code r unit
  | some n =>
    if d.chip.state = .fault then d.bump (faultCountAt r)
    else if (d.dom n).stopped then
      if (d.dom n).stopAt = d.now then d.alsoFaults n r code unit else d.bump (faultCountAt r)
    else
      let d1 := d.recordFault r code r unit
      let d2 := d1.modDom n (fun x => { x with stopped := true, stopAt := d.now })
      (d2.regionsOf n).foldl (fun a o => a.stopRegion r o) d2

/-- A change of chip state raises source 1 (R433). -/
def Dev.enter (d : Dev) (st : ChipState) : Dev :=
  if d.chip.state = st then d else ({ d with chip.state := st }).raise 1

/-- A chip fault (R438): every domain stops, FAULT_CODE records the first, the state becomes FAULT. Only a chip whose
links run has the units that detect one (UNSTRUCTURED, READY). -/
def Dev.chipFault (d : Dev) (code : Nat) : Dev :=
  if d.chip.state = .unstructured || d.chip.state = .ready then
    ({ d with chip.faultCode := code }).enter .fault
  else d

/-- Code CHIP_PARITY (Table 1 of 19). -/
def codeChipParity : Nat := 0x82

/-- A start-up error that sends the chip to FAULT (R434, R436). -/
def Dev.startFault (d : Dev) (err : Nat) : Dev := ({ d with chip.startErr := err }).enter .fault

/-- A block halts (R22): it records its code, drops what it had in flight, and reports to its region (R23, R444). -/
def Dev.blockHalt (d : Dev) (r b code : Nat) (info : Word) : Dev :=
  (d.modBlk (4 * r + b) (fun x => { x with st := .halted, haltCode := code, fault := info })).regionFault r code b

/-- A stack halts (R22, R145): it records its code and reports to its region. -/
def Dev.stackHalt (d : Dev) (s code : Nat) (info : Word) : Dev :=
  (d.modStk s (fun x => { x with halt := code, fault := info })).regionFault (s / 2) code (4 + s % 2)

/-! ### Wake requests (R408, R409) -/

/-- Offset of `WAKE_QUEUED` (R416). -/
def wakeQueuedAt : Nat := 0x200018

/-- Requests of a queue that have waited: the head does not count while nothing held it up. -/
def waitDepth (q : List Nat) (fresh : Bool) : Nat := if fresh then q.length - 1 else q.length

/-- Cycles of the keep clock between two grants of the region queue, 2 µs, and of the stack queue, 1 µs (R409). -/
def regionSpacing : Nat := 50
def stackSpacing : Nat := 25

/-- The spacing of grants holds up a request that comes at `now` (R409). -/
def spaced (last : Option Nat) (now spacing : Nat) : Bool :=
  match last with
  | some t => decide (now < t + spacing)
  | none => false

/-- A request joins a queue: behind the earlier ones, and among the last `same`, which came in the same cycle, in increasing
order (R409). -/
def joinQueue (q : List Nat) (same x : Nat) : List Nat :=
  q.take (q.length - same) ++ insertNat x (q.drop (q.length - same))

/-- A wake request for region `r`: merged when the region is awake, waking or queued; counted when others are ahead of it, or
the spacing of grants holds it up (R409). -/
def Dev.wakeRegion (d : Dev) (r : Nat) : Dev :=
  if d.clk.regionAwake.getLsbD r || d.clk.regionQ.contains r || d.clk.regionGranted.contains r || !d.regionPresent r
  then d
  else if d.clk.regionQ.isEmpty && !spaced d.clk.regionGrantAt d.now regionSpacing then
    { d with clk.regionQ := [r], clk.regionFresh := true, clk.regionSame := 1 }
  else
    let q := joinQueue d.clk.regionQ d.clk.regionSame r
    ({ d with clk.regionQ := q
              clk.regionFresh := d.clk.regionFresh && !d.clk.regionQ.isEmpty
              clk.regionSame := d.clk.regionSame + 1
              clk.regionMax := max d.clk.regionMax (waitDepth q (d.clk.regionFresh && !d.clk.regionQ.isEmpty)) }).bump
      wakeQueuedAt

/-- A wake request for stack `s` (R409). -/
def Dev.wakeStack (d : Dev) (s : Nat) : Dev :=
  if d.clk.stackAwake.getLsbD s || d.clk.stackQ.contains s || d.clk.stackGranted.contains s || !d.stackPresent s
  then d
  else if d.clk.stackQ.isEmpty && !spaced d.clk.stackGrantAt d.now stackSpacing then
    { d with clk.stackQ := [s], clk.stackFresh := true, clk.stackSame := 1 }
  else
    let q := joinQueue d.clk.stackQ d.clk.stackSame s
    ({ d with clk.stackQ := q
              clk.stackFresh := d.clk.stackFresh && !d.clk.stackQ.isEmpty
              clk.stackSame := d.clk.stackSame + 1
              clk.stackMax := max d.clk.stackMax (waitDepth q (d.clk.stackFresh && !d.clk.stackQ.isEmpty)) }).bump
      wakeQueuedAt

/-- Start the selected PLL of the tensor die of a waking unit, when its tensor clock does not run (R399, R409, R422):
at the step of the PLL, or at the floor where the floor is slower. -/
def Dev.startClock (d : Dev) (t : Nat) : Dev :=
  let x := d.tdie t
  let f := max x.thermFloor x.powerFloor
  if x.sel = 0 && x.aSt = .stopped then
    d.setTdie t { x with aSt := .locking, aStep := if x.auto then f else max x.aStep f }
  else if x.sel = 1 && x.bSt = .stopped then
    d.setTdie t { x with bSt := .locking, bStep := if x.auto then f else max x.bStep f }
  else d

/-- The wake of a region with its stacks. -/
def Dev.wakeUnit (d : Dev) (r : Nat) : Dev :=
  (((d.wakeRegion r).wakeStack (2 * r)).wakeStack (2 * r + 1)).startClock (r / 2)

/-- The wake of every region of a domain with its stacks (Table 5 of 16). -/
def Dev.wakeDomain (d : Dev) (n : Nat) : Dev := ((d.regionsOf n).foldl Dev.wakeUnit d)

/-- Region `r` and its stacks are awake. -/
def Dev.unitAwake (d : Dev) (r : Nat) : Bool :=
  d.clk.regionAwake.getLsbD r && d.clk.stackAwake.getLsbD (2 * r) && d.clk.stackAwake.getLsbD (2 * r + 1)

/-- Every region of the domain and every one of their stacks is awake (R410). -/
def Dev.domainAwake (d : Dev) (n : Nat) : Bool := (d.regionsOf n).all d.unitAwake

end Sys2Proof.Machine
end

