-- ==== Sys2Proof/Machine/Events.lean ====
section
/-! DEFINITION. The event concentrator (15_interrupts): sources, lines, messages, CLAIM and EOI, pending words, the hold,
and the modes. -/

namespace Sys2Proof.Machine
open Sys2Proof

/-! ### Reach of the host -/

/-- The host can reach the BARs: the link is up and the function is in D0 (R356). -/
def Dev.hostReach (d : Dev) : Bool := d.host.linkUp && !d.host.d3hot

/-- BAR0 and BAR4 act as their chapters give: from UNSTRUCTURED onward (R435, R437, R438). -/
def Dev.regsLive (d : Dev) : Bool :=
  match d.chip.state with
  | .unstructured | .ready | .fault => true
  | _ => false

/-- The stacks have been filled: not in the FAULT of a start-up whose links or fill failed (R434, R436; log 121). -/
def Dev.filled (d : Dev) : Bool :=
  d.regsLive && !(decide (d.chip.state = .fault) && decide (d.chip.startErr ≠ 0))

/-- A register access of agent `who` reaches the registers. The management block runs unless the reference is lost
(R413: the concentrator is stopped then). -/
def Dev.reaches (d : Dev) (who : Agent) : Bool :=
  match who with
  | .host => d.hostReach && d.regsLive
  | .mgmt => d.regsLive && !d.clk.coast

/-- The answer of a 32-bit register read goes to the agent that read. -/
def Dev.answer (d : Dev) (who : Agent) (off : Nat) (v : Word) : Dev :=
  match who with
  | .host => d.emit (.readDone 0 off (bytesOf v.toNat 4) false)
  | .mgmt => d.emit (.mgmtRead off (bytesOf v.toNat 4))

/-! ### Sources -/

/-- The spurious number (R383). -/
def spurious : Nat := 0x7FF

/-- The source table lists the number (Table 1). -/
def listedSource (n : Nat) : Bool :=
  decide (n ≤ 10) || (decide (16 ≤ n) && decide (n < 88)) || (decide (128 ≤ n) && decide (n < 192)) ||
    (decide (1024 ≤ n) && decide (n < 2047))

/-- A raise of the source is not ignored: it is listed and its unit is present (R383). -/
def Dev.raisable (d : Dev) (n : Nat) : Bool :=
  listedSource n &&
    (if 16 ≤ n && n < 28 then d.regionPresent (n - 16)
     else if 28 ≤ n && n < 40 then d.regionPresent (n - 28)
     else if 40 ≤ n && n < 64 then d.stackPresent (n - 40)
     else if 76 ≤ n && n < 88 then d.spanPresent
     else true)

/-- Level sources (Table 1). -/
def levelSource (n : Nat) : Bool := (decide (3 ≤ n) && decide (n ≤ 5)) || (decide (16 ≤ n) && decide (n < 28))

/-- Default priority and target (Table 1). -/
def evCfgDefault (n : Nat) : EvCfg :=
  if n ≤ 1 then ⟨8, 0⟩
  else if n = 2 then ⟨1, 0⟩
  else if n = 3 then ⟨10, 0⟩
  else if n = 4 then ⟨12, 0⟩
  else if n = 5 then ⟨15, 256⟩
  else if n ≤ 7 then ⟨4, 0⟩
  else if n = 8 then ⟨12, 0⟩
  else if n = 9 then ⟨6, 0⟩
  else if n = 10 then ⟨3, 0⟩
  else if 16 ≤ n && n < 28 then ⟨14, 0⟩
  else if 28 ≤ n && n < 40 then ⟨11, 0⟩
  else if 40 ≤ n && n < 64 then ⟨13, 0⟩
  else if 64 ≤ n && n < 76 then ⟨5, 0⟩
  else if 76 ≤ n && n < 88 then ⟨7, 0⟩
  else if 128 ≤ n && n < 192 then ⟨5, 0⟩
  else ⟨0, 0⟩

/-- The condition of a level source's unit holds (Table 1, R391). -/
def Dev.levelCond (d : Dev) (n : Nat) : Bool :=
  if n = 3 then (List.range 196).any (fun i => (d.sensor i).warn)
  else if n = 4 then (List.range 6).any (fun i => (d.thdie i).req)
  else if n = 5 then d.clk.coast
  else if 16 ≤ n && n < 28 then (d.region (n - 16)).faultValid
  else false

/-! ### The concentrator -/

def Conc.cfgOf (c : Conc) (n : Nat) : EvCfg := Tab.read evCfgDefault c.cfg n
/-- Mask bit of a source: set after a full reset (R385). -/
def Conc.masked (c : Conc) (n : Nat) : Bool := Tab.read listedSource c.mask n
def Conc.isPending (c : Conc) (n : Nat) : Bool := Tab.read (fun _ => false) c.pending n
def Conc.setPending (c : Conc) (n : Nat) (b : Bool) : Conc :=
  { c with pending := Tab.write (fun _ => false) c.pending n b }
/-- Running-priority stack of a target, top first. -/
def Conc.stackOf (c : Conc) (t : Nat) : List Nat := Tab.read (fun _ => []) c.running t
def Conc.setStack (c : Conc) (t : Nat) (l : List Nat) : Conc :=
  { c with running := Tab.write (fun _ => []) c.running t l }
/-- The source's word is held (R394). -/
def Conc.heldSource (c : Conc) (n : Nat) : Bool := c.hold.isSome && decide (n / 32 = c.word)
/-- Pending sources, in increasing order. -/
def Conc.pendingList (c : Conc) : List Nat := c.pending.map (·.1)

/-- A source is eligible for a target (R387); in Parjo mode the priority is ignored (R395). -/
def Conc.eligible (c : Conc) (t n : Nat) : Bool :=
  c.isPending n && !c.masked n && decide ((c.cfgOf n).target = t) && !c.heldSource n &&
    (c.parjo ||
      match c.stackOf t with
      | [] => true
      | p :: _ => decide (p < (c.cfgOf n).prio))

/-- The request line of a target (R387). -/
def Conc.line (c : Conc) (t : Nat) : Bool := c.pendingList.any (c.eligible t)

/-- Targets that some pending source names, in increasing order. -/
def Conc.targets (c : Conc) : List Nat := c.pendingList.foldl (fun l n => insertNat (c.cfgOf n).target l) []

/-- A change of a pending bit by a unit: queued while the word is held, one per source, later ones merged into earlier
ones (R394). -/
def Conc.hardware (c : Conc) (n : Nat) (b : Bool) : Conc :=
  if c.heldSource n then
    if c.heldQ.any (fun m => decide (m.src = n)) then
      { c with heldQ := c.heldQ.map (fun m => if m.src = n then ⟨n, b⟩ else m) }
    else { c with heldQ := c.heldQ ++ [⟨n, b⟩] }
  else c.setPending n b

/-- The eligible source with the highest priority, the lowest number among equals (R389). -/
def Conc.pick (c : Conc) (t : Nat) : Option Nat :=
  c.pendingList.foldl (fun best n =>
    if c.eligible t n then
      match best with
      | none => some n
      | some m => if (c.cfgOf m).prio < (c.cfgOf n).prio then some n else some m
    else best) none

/-- The hold ends; queued changes apply in arrival order (R394). -/
def Conc.unhold (c : Conc) : Conc :=
  c.heldQ.foldl (fun a m => a.setPending m.src m.raise) { c with hold := none, heldQ := [] }

/-! ### Messages -/

/-- The vector's message can be sent now: the vector and the function are unmasked, MSI-X and Bus Master Enable are
set, and the link is up in D0 (R356, R358, R388; log 16). -/
def Dev.vectorOpen (d : Dev) (v : Nat) : Bool :=
  d.host.linkUp && d.host.busMaster && d.host.msixEnable && !d.host.functionMask && !d.host.d3hot &&
    !(d.msixEntry v).mask

/-- The MSI-X write of a vector, or its pending bit (R388). -/
def Dev.sendVector (d : Dev) (v : Nat) : Dev :=
  if d.vectorOpen v then d.emit (.msix v (d.msixEntry v).addr (d.msixEntry v).data)
  else d.setPbaBit v true

/-- A target sends its message (R388). -/
def Dev.message (d : Dev) (t : Nat) : Dev := if t = 256 then d.emit .mgmtIrq else d.sendVector t

/-- Send what the pending bit array holds and can now be sent (R388). -/
def Dev.flushVectors (d : Dev) : Dev :=
  (d.host.pba.map (·.1)).foldl (fun a v =>
    if a.vectorOpen v then (a.setPbaBit v false).sendVector v else a) d

/-- The concentrator becomes `c`; every target whose line rises sends its message, and so does every target of `also`
whose line is asserted (R388). -/
def Dev.ecUpdate (d : Dev) (c : Conc) (also : List Nat) : Dev :=
  let ts := also.foldl (fun l t => insertNat t l) c.targets
  (ts.filter (fun t => c.line t && (also.contains t || !d.ec.line t))).foldl Dev.message { d with ec := c }

/-! ### Commands -/

/-- SOURCE_DOORBELL (R379, R383): a raise as the source's unit would make it. -/
def Dev.sourceDoorbell (d : Dev) (n : Nat) : Dev := if d.raisable n then d.raise n else d

/-- The oldest message of a source leaves the inbox. -/
def dropFirst (l : List EvMsg) (n : Nat) : List EvMsg :=
  match l with
  | [] => []
  | m :: r => if m.src = n then r else m :: dropFirst r n

/-- The oldest message of a source is a raise (`up`) or a withdrawal. -/
def Conc.arrives (c : Conc) (n : Nat) (up : Bool) : Bool :=
  match c.inbox.find? (fun m => decide (m.src = n)) with
  | some m => decide (m.raise = up)
  | none => false

/-- The configuration word of source `n` fails its replays (R445). -/
def Dev.cfgBad (d : Dev) (n : Nat) : Bool := d.badTables.contains (0x101000 + 4 * n)

/-- EVENT_RAISE, EVENT_WITHDRAW: the oldest message of source `n` reaches the concentrator (R383, R384); with a configuration word
that cannot be read, its bit changes and the chip faults (R445). -/
def Dev.deliverEvent (d : Dev) (n : Nat) (up : Bool) : Dev :=
  if d.ec.arrives n up && !d.clk.coast then
    let c := { d.ec with inbox := dropFirst d.ec.inbox n }
    if !d.raisable n then { d with ec := c }
    else if d.cfgBad n then ({ d with ec := c.hardware n up }).chipFault codeChipParity
    else d.ecUpdate (c.hardware n up) []
  else d

/-- Offset of `EC_CLAIM` of a target (R396). -/
def claimAt (t : Nat) : Nat := 0x104000 + 0x10 * t
/-- Offset of `EC_SPURIOUS`. -/
def spuriousAt : Nat := 0x100008

/-- The value CLAIM returns for a source. -/
def claimWord (n prio : Nat) : Word := BitVec.ofNat 32 (atBit prio 16 + n)

/-- The configuration word of a pending source fails its replays (R445). -/
def Dev.pendingBad (d : Dev) : Bool :=
  d.badTables.any (fun o => decide (0x101000 ≤ o) && decide (o < 0x103000) && d.ec.isPending ((o - 0x101000) / 4))

/-- A read of `EC_CLAIM`: what it does and what it returns (R389, R395); it reads the configuration of what is pending (R445). -/
def Dev.claimRead (d : Dev) (who : Agent) (t : Nat) : Dev × Word :=
  if (who = .host && t = 256) || d.ec.parjo then (d, claimWord spurious 0)
  else if d.pendingBad then (d.drawn.chipFault codeChipParity, Config.freeWord d.free 0)
  else
    match d.ec.pick t with
    | none => (d.bump spuriousAt, claimWord spurious 0)
    | some n =>
      let p := (d.ec.cfgOf n).prio
      let c := (d.ec.setPending n false).setStack t (p :: d.ec.stackOf t)
      (d.ecUpdate c [t], claimWord n p)

/-- EC_CLAIM (R389, R395). -/
def Dev.claim (d : Dev) (who : Agent) (t : Nat) : Dev :=
  let r := d.claimRead who t
  r.1.answer who (claimAt t) r.2

/-- EC_EOI with SOURCE `n` (R390, R391, R395). -/
def Dev.eoi (d : Dev) (who : Agent) (t n : Nat) : Dev :=
  if (who = .host && t = 256) || d.ec.parjo || n = spurious then d
  else
    match d.ec.stackOf t with
    | [] => { d with ec.eoiEmpty := Tab.write (fun _ => false) d.ec.eoiEmpty t true }
    | _ :: rest =>
      let c := if levelSource n && d.raisable n && d.levelCond n then d.ec.hardware n true else d.ec
      d.ecUpdate (c.setStack t rest) [t]

/-- A write of a mask or pending word by this agent is ignored: the other agent holds the word (R394). -/
def Conc.blockedFor (c : Conc) (who : Agent) (w : Nat) : Bool :=
  decide (c.word = w) && (match c.hold with
    | some o => decide (o ≠ who)
    | none => false)

/-- Pending bit `n` after a native write of bit `b` (R393). -/
def Dev.writePendingBit (d : Dev) (c : Conc) (n : Nat) (b : Bool) : Conc :=
  if b then (if d.raisable n then c.setPending n true else c) else c.setPending n false

/-- Pending bit `n` after a Parjo write of 1: clears, and a level source is re-sampled (R395). -/
def Dev.clearPendingBit (d : Dev) (c : Conc) (n : Nat) : Conc :=
  let c := c.setPending n false
  if levelSource n && d.raisable n && d.levelCond n then c.hardware n true else c

/-- EC_PENDING_WRITE of word `w` (R393, R395). -/
def Dev.pendingWrite (d : Dev) (who : Agent) (w : Nat) (v : Word) : Dev :=
  if d.ec.blockedFor who w then d
  else if d.ec.parjo then
    let c := (List.range 32).foldl (fun a i => if v.getLsbD i then d.clearPendingBit a (32 * w + i) else a) d.ec
    d.ecUpdate c c.targets
  else
    d.ecUpdate ((List.range 32).foldl (fun a i => d.writePendingBit a (32 * w + i) (v.getLsbD i)) d.ec) []

/-- A write of mask word `w` (R393): bits of sources that the table does not list are ignored. -/
def Dev.maskWrite (d : Dev) (who : Agent) (w : Nat) (v : Word) : Dev :=
  if d.ec.blockedFor who w then d
  else
    d.ecUpdate ((List.range 32).foldl (fun a i =>
      if listedSource (32 * w + i) then
        { a with mask := Tab.write listedSource a.mask (32 * w + i) (v.getLsbD i) }
      else a) d.ec) []

/-- A write of `EC_CFG` of source `n` (R385, Table 3): a TARGET above 256 is ignored. -/
def Dev.cfgWrite (d : Dev) (n : Nat) (v : Word) : Dev :=
  if !listedSource n then d
  else
    let t := fieldAt v.toNat 8 9
    let x : EvCfg := ⟨fieldAt v.toNat 0 4, if 256 < t then (d.ec.cfgOf n).target else t⟩
    d.ecUpdate { d.ec with cfg := Tab.write evCfgDefault d.ec.cfg n x } []

/-- A write of `EC_HOLD` (R394, Table 3): RELEASE by the owner, the W1C of EXPIRED, and TAKE where no hold is in
force, with WORD as written in the same write. -/
def Dev.holdWrite (d : Dev) (who : Agent) (v : Word) : Dev :=
  let c := if v.getLsbD 29 then { d.ec with expired := false } else d.ec
  match c.hold with
  | some o =>
    if v.getLsbD 9 && o = who then d.ecUpdate c.unhold [] else { d with ec := c }
  | none =>
    let c := { c with word := fieldAt v.toNat 0 6 }
    if v.getLsbD 8 then d.ecUpdate { c with hold := some who } [] else { d with ec := c }

/-- EC_HOLD_EXPIRE (R394): the device releases a hold and sets EXPIRED. -/
def Dev.holdExpire (d : Dev) : Dev :=
  if d.ec.hold.isSome then d.ecUpdate { d.ec.unhold with expired := true } [] else d

/-- EC_MODE_WRITE (R386): a change empties every running-priority stack; every asserted target sends a message. -/
def Dev.modeWrite (d : Dev) (parjo : Bool) : Dev :=
  if d.ec.parjo = parjo then d
  else
    let c := { d.ec with parjo := parjo, running := [] }
    d.ecUpdate c c.targets

/-- A write of `EC_RUNNING` (W1C of EOI_EMPTY). -/
def Dev.runningWrite (d : Dev) (t : Nat) (v : Word) : Dev :=
  if v.getLsbD 30 then { d with ec.eoiEmpty := Tab.write (fun _ => false) d.ec.eoiEmpty t false } else d

/-! ### Meanings -/

/-- SOURCE_DOORBELL (R379, R383). -/
def execSourceDoorbell (v : Word) (s : State) : Result State :=
  s.hosted (.sourceDoorbell v) fun d => d.when (d.reaches .host) fun d => d.sourceDoorbell (fieldAt v.toNat 0 11)

/-- EVENT_RAISE (R383). -/
def execEventRaise (src : BitVec 11) (s : State) : Result State :=
  s.always fun d => d.deliverEvent src.toNat true

/-- EVENT_WITHDRAW (R384). -/
def execEventWithdraw (src : BitVec 11) (s : State) : Result State :=
  s.always fun d => d.deliverEvent src.toNat false

/-- MSIX_UNMASK (R388): the host clears a vector's mask; a message that waits for it is sent. -/
def execMsixUnmask (vector : Fin 256) (s : State) : Result State :=
  s.hosted (.msixUnmask vector) fun d => d.when (d.reaches .host) fun d =>
    (d.modMsixEntry vector.val (fun e => { e with mask := false })).flushVectors

/-- EC_CLAIM (R389). -/
def execEcClaim (who : Agent) (t : TargetNo) (s : State) : Result State :=
  s.asked who (.ecClaim who t) fun d => d.when (d.reaches who) fun d => d.claim who t.val

/-- EC_EOI (R390). -/
def execEcEoi (who : Agent) (t : TargetNo) (v : Word) (s : State) : Result State :=
  s.asked who (.ecEoi who t v) fun d => d.when (d.reaches who) fun d => d.eoi who t.val (fieldAt v.toNat 0 11)

/-- EC_PENDING_WRITE (R393). -/
def execEcPendingWrite (who : Agent) (w : Fin 64) (v : Word) (s : State) : Result State :=
  s.asked who (.ecPendingWrite who w v) fun d => d.when (d.reaches who) fun d => d.pendingWrite who w.val v

/-- EC_HOLD_TAKE (R394): a write of `EC_HOLD` with TAKE set. -/
def execEcHoldTake (who : Agent) (v : Word) (s : State) : Result State :=
  s.checked (wellFormed (.ecHoldTake who v)) fun d => d.ask who (.ecHoldTake who v) fun d => d.when (d.reaches who) fun d =>
    d.holdWrite who v

/-- EC_HOLD_RELEASE (R394): a write of `EC_HOLD` with RELEASE set. -/
def execEcHoldRelease (who : Agent) (v : Word) (s : State) : Result State :=
  s.checked (wellFormed (.ecHoldRelease who v)) fun d => d.ask who (.ecHoldRelease who v) fun d => d.when (d.reaches who) fun d =>
    d.holdWrite who v

/-- EC_HOLD_EXPIRE (R394). -/
def execEcHoldExpire (s : State) : Result State := s.always fun d => d.when (!d.clk.coast) Dev.holdExpire

/-- EC_MODE_WRITE (R386). -/
def execEcModeWrite (v : Word) (s : State) : Result State :=
  s.hosted (.ecModeWrite v) fun d => d.when (d.reaches .host) fun d => d.modeWrite (v.getLsbD 0)

end Sys2Proof.Machine
end

