-- ==== Sys2Proof/Machine/Rules.lean ====
section
/-! DEFINITION. Stack timing rules (05_compute_stacks): rule sets, mode changes, and the floors that the power and
thermal controller sets (R155 to R160, R405, R422). -/

namespace Sys2Proof.Machine
open Sys2Proof

/-! ### Rule sets (Table 14) -/

/-- tPIM_CAP of a rule set. -/
def pimCap (rs : Nat) : Nat :=
  match rs with
  | 0 => 30
  | 1 => 26
  | 2 => 22
  | 3 => 15
  | _ => 8
/-- Activations per 20 ns of a rule set. -/
def bawCount (rs : Nat) : Nat :=
  match rs with
  | 0 => 8
  | 1 => 7
  | 2 => 6
  | 3 => 4
  | _ => 2

/-- The set that SW_SET and HW_FLOOR ask for: the stricter (R156). -/
def StackSt.wanted (x : StackSt) : Nat := max x.sw x.floor

/-- The strictest set that governs starts and resumes now (R158, R159). -/
def StackSt.inForce (x : StackSt) : Nat :=
  if x.busy then max (max x.frm x.target) (x.pend.getD 0) else x.target

/-- `STACK_STATUS.STATE` values are not SELF_REFRESH nor HALTED. -/
def StackSt.halted (x : StackSt) : Bool := decide (x.halt ≠ 0)

/-- Offset of `RULE_CHANGES` of stack `s` (R172). -/
def ruleChangesAt (s : Nat) : Nat := stackBase s + 0x60

/-- A mode change to the set `w` begins (R157). -/
def Dev.beginRule (d : Dev) (s w : Nat) : Dev :=
  (d.modStk s (fun x => { x with busy := true, frm := x.target, target := w, applied := 0, pend := none })).bump
    (ruleChangesAt s)

/-- SW_SET or HW_FLOOR of the stack may have changed: a new TARGET starts a mode change, or waits while one is in
progress (R157, R159). -/
def Dev.retarget (d : Dev) (s : Nat) : Dev :=
  let x := d.stk s
  let w := x.wanted
  if x.busy then d.setStk s { x with pend := if w = x.target then none else some w }
  else if w = x.target then d
  else d.beginRule s w

/-- A write of `STACK_RULE.SW_SET`; a reserved code is ignored (Table 19). -/
def Dev.ruleWrite (d : Dev) (s v : Nat) : Dev :=
  if 4 < v then d else (d.modStk s (fun x => { x with sw := v })).retarget s

/-- ACTIVE_STEP: step of the running clock, 7 while REF is selected (Table 9 of 16). -/
def TDieSt.active (x : TDieSt) : Nat := if x.sel = 0 then x.aStep else if x.sel = 1 then x.bStep else 7

/-- Activations per 20 ns look back over this many BAU cycles, by the step of the tensor clock; 7: REF (R152). -/
def windowCycles (step : Nat) : Nat :=
  match step with
  | 0 => 21
  | 1 => 18
  | 2 => 15
  | 3 => 12
  | 4 => 9
  | 5 => 6
  | _ => 1

/-- The rule set that a running stream, or another access, of die `i` obeys (R157). -/
def StackSt.ruleOf (x : StackSt) (i : Nat) : Nat := if x.applied.getLsbD i then x.target else x.frm

/-- Activations of die `i` that cycle `now` still sees, or that are put off beyond it. -/
def Dev.actsOf (d : Dev) (st i now : Nat) : List Nat :=
  (Tab.read (fun _ => []) (d.stk st).acts i).filter (fun a => decide (now < a + windowCycles (d.tdie (st / 4)).active))

/-- Bank cells of a data die that stream now (R151). -/
def Dev.streaming (d : Dev) (s die : Nat) : Nat :=
  ((List.range 64).filter (fun c => decide ((d.bcell ((s * 18 + die) * 64 + c)).phase = .streaming))).length

/-- Activations of die `die` in the 20 ns up to the BAU cycle of the last turn (R157). -/
def Dev.actsNow (d : Dev) (s die : Nat) : Nat :=
  ((d.actsOf s die (d.stk s).bauNow).filter (fun a => decide (a ≤ (d.stk s).bauNow))).length

/-- Die `die` may apply the set (R157): loosening in its turn, die 0 first; tightening once its streaming count and its
activations of the last 20 ns allow. After a time-out no die applies it (R160). -/
def Dev.mayApply (d : Dev) (s die : Nat) : Bool :=
  let x := d.stk s
  x.busy && !x.timedOut && !x.applied.getLsbD die &&
    (if x.target ≤ x.frm then (List.range die).all (fun i => x.applied.getLsbD i)
     else decide (d.streaming s die ≤ pimCap x.target) && decide (d.actsNow s die ≤ bawCount x.target))

/-- Die `die` applies the set; BUSY clears with the last one, and a pending change begins (R157, R159). -/
def Dev.applyRule (d : Dev) (s die : Nat) : Dev :=
  let x := d.stk s
  let a := x.applied ||| BitVec.ofNat 16 (2 ^ die)
  if a = 0xFFFF then
    let d' := d.setStk s { x with applied := a, busy := false, pend := none }
    match x.pend with
    | some w => d'.beginRule s w
    | none => d'
  else d.setStk s { x with applied := a }

/-! ### Floors -/

/-- The floor of a stack: the stricter of the thermal and power floors of its die (R405, R422). -/
def Dev.stackFloor (d : Dev) (s : Nat) : Nat :=
  max (min (d.tdie (s / 4)).thermFloor 4) (min (d.tdie (s / 4)).powerFloor 4)

/-- HW_FLOOR of a stack follows its die's floors. -/
def Dev.refloor (d : Dev) (s : Nat) : Dev :=
  (d.modStk s (fun x => { x with floor := d.stackFloor s })).retarget s

/-- HW_FLOOR of the four stacks of tensor die `t`. -/
def Dev.refloorDie (d : Dev) (t : Nat) : Dev :=
  (((d.refloor (4 * t)).refloor (4 * t + 1)).refloor (4 * t + 2)).refloor (4 * t + 3)

/-! ### Meanings -/

/-- Region and stack registers act in READY only (R437, R438). -/
def Dev.inReady (d : Dev) : Bool := decide (d.chip.state = .ready)

/-- A host write of a register that acts in READY only. -/
def Dev.hostReady (d : Dev) : Bool := d.hostReach && d.inReady

/-- STACK_RULE_WRITE (R156, R157). -/
def execStackRuleWrite (st : Stack) (v : Word) (s : State) : Result State :=
  s.hosted (.stackRuleWrite st v) fun d => d.when (d.hostReady && d.stackPresent st.val) fun d =>
    d.ruleWrite st.val (fieldAt v.toNat 0 3)

/-- DIE_APPLY_RULE (R157). -/
def execDieApplyRule (st : Stack) (die : Fin 16) (s : State) : Result State :=
  s.always fun d => d.when (d.mayApply st.val die.val) fun d => d.applyRule st.val die.val

/-- Code MODE_TIMEOUT (Table 1 of 19). -/
def codeModeTimeout : Nat := 0x40

/-- MODE_TIMEOUT (R160): a region fault of the stack's region, recorded by its controller (R444; log 43). The change stays
where it is until the reset. -/
def execModeTimeout (st : Stack) (s : State) : Result State :=
  s.always fun d => d.when ((d.stk st.val).busy && !(d.stk st.val).timedOut) fun d =>
    (d.modStk st.val (fun x => { x with timedOut := true })).regionFault (st.val / 2) codeModeTimeout 6

end Sys2Proof.Machine
end

