-- ==== Sys2Proof/Machine/Clocks.lean ====
section
/-! DEFINITION. Clocks, power states and wake admission (16_clocks_power). -/

namespace Sys2Proof.Machine
open Sys2Proof

/-! ### Tensor clocks -/

/-- FLOOR of a tensor die: the slower of the thermal and power floors (R403). -/
def TDieSt.floor (x : TDieSt) : Nat := max x.thermFloor x.powerFloor

/-- Step and lock state of a PLL. -/
def TDieSt.step (x : TDieSt) (p : Pll) : Nat :=
  match p with
  | .a => x.aStep
  | .b => x.bStep
def TDieSt.pll (x : TDieSt) (p : Pll) : PllSt :=
  match p with
  | .a => x.aSt
  | .b => x.bSt

/-- A PLL is READY: locked, no faster than FLOOR (R400). -/
def TDieSt.ready (x : TDieSt) (p : Pll) : Bool := decide (x.pll p = .locked) && decide (x.floor ≤ x.step p)

/-- The PLL is selected (Table 9). -/
def TDieSt.selected (x : TDieSt) (p : Pll) : Bool :=
  match p with
  | .a => decide (x.sel = 0)
  | .b => decide (x.sel = 1)

/-- The PLL that a switch by hardware uses: the one not selected; A while REF is selected. -/
def TDieSt.other (x : TDieSt) : Pll := if x.sel = 0 then .b else .a

/-- Code of a PLL in SEL. -/
def pllCode (p : Pll) : Nat :=
  match p with
  | .a => 0
  | .b => 1

/-- The tensor clock of the die runs (TDIE_RUN). -/
def Dev.clockRuns (d : Dev) (t : Nat) : Bool :=
  let x := d.tdie t
  d.tdiePresent t && d.pins.refclk &&
    (if x.sel = 0 then decide (x.aSt = .locked) else if x.sel = 1 then decide (x.bSt = .locked) else true)

/-- Start or reprogram a PLL at a step (R399). -/
def TDieSt.program (x : TDieSt) (p : Pll) (st : Nat) : TDieSt :=
  match p with
  | .a => { x with aStep := st, aSt := .locking }
  | .b => { x with bStep := st, bSt := .locking }

/-- The selected source is stopped. -/
def TDieSt.stopped (x : TDieSt) : Bool :=
  (decide (x.sel = 0) && decide (x.aSt = .stopped)) || (decide (x.sel = 1) && decide (x.bSt = .stopped))

/-- Hardware follows FLOOR: with AUTO it reprograms the PLL not selected to the floor (R401); without AUTO it does so
only when the floor is slower than the selected PLL, with HW_OWN set (R403). A die whose clock is stopped starts at
the floor later (R422); one on REF stays there (R403). -/
def TDieSt.follow (x : TDieSt) : TDieSt :=
  if x.stopped || 2 ≤ x.sel || x.active = x.floor then x
  else if x.auto then x.program x.other x.floor
  else if x.active < x.floor then
    if x.ready x.other then { x with hwOwn := true } else { x.program x.other x.floor with hwOwn := true }
  else x

/-- The floors of die `t` have changed: the die and its stacks follow (R403, R405, R422). -/
def Dev.floorsChanged (d : Dev) (t : Nat) : Dev := (d.modTdie t TDieSt.follow).refloorDie t

/-- Offset of `CLK_SWITCH_REFUSALS` (R416). -/
def switchRefusalsAt : Nat := 0x200020

/-- The source that a SEL code names is READY (R400). -/
def Dev.sourceReady (d : Dev) (x : TDieSt) (sel : Nat) : Bool :=
  if sel = 0 then x.ready .a else if sel = 1 then x.ready .b else decide (sel = 2) && d.pins.refclk

/-- A software write of a STEP field: ignored for a reserved code, while that PLL is selected, while HW_OWN or AUTO is
set; a PLL that already runs at the step keeps running (R402). -/
def TDieSt.writeStep (x : TDieSt) (p : Pll) (st : Nat) : TDieSt :=
  if 5 < st || x.selected p || x.hwOwn || x.auto || (x.step p = st && x.pll p ≠ .stopped) then x else x.program p st

/-- A software write of SEL is refused (R402). -/
def Dev.selRefused (d : Dev) (x : TDieSt) (sel : Nat) : Bool :=
  x.sel ≠ sel && (x.auto || x.hwOwn || !d.sourceReady x sel)

/-- A write of `CLK_TDIE` of die `t`: a refused one is counted and sets nothing else; otherwise the STEP fields, SEL and AUTO
take effect, each judged by the state before the write (R401, R402; log 17). -/
def Dev.clkWrite (d : Dev) (t : Nat) (v : Nat) : Dev :=
  if !d.tdiePresent t then d
  else if d.selRefused (d.tdie t) (fieldAt v 0 2) then (d.bump switchRefusalsAt).raise 6
  else d.modTdie t (fun x =>
    { (x.writeStep .a (fieldAt v 4 3)).writeStep .b (fieldAt v 8 3) with sel := fieldAt v 0 2, auto := bitAt v 31 }.follow)

/-- PLL_LOCK (R399). -/
def Dev.pllLock (d : Dev) (t : Nat) (p : Pll) : Dev :=
  let x := d.tdie t
  if d.pins.refclk && x.pll p = .locking then
    match p with
    | .a => d.setTdie t { x with aSt := .locked }
    | .b => d.setTdie t { x with bSt := .locked }
  else d

/-- TDIE_AUTO_SWITCH (R401): the reprogrammed PLL has locked at the floor, and hardware switches to it; an enforcement that was
in progress ends with the switch (R403). -/
def Dev.autoSwitch (d : Dev) (t : Nat) : Dev :=
  let x := d.tdie t
  if x.auto && x.sel < 2 && !x.stopped && x.active ≠ x.floor && x.step x.other = x.floor && x.ready x.other then
    d.setTdie t { x with sel := pllCode x.other, hwOwn := false }
  else d

/-- FLOOR_ENFORCE (R403): hardware switches to the PLL not selected, and HW_OWN clears. -/
def Dev.floorEnforce (d : Dev) (t : Nat) : Dev :=
  let x := d.tdie t
  if x.hwOwn && x.ready x.other then d.setTdie t { x with sel := pllCode x.other, hwOwn := false } else d

/-- The two regions of die `t` sleep and its four stacks are in self-refresh (Table 3). -/
def Dev.dieAsleep (d : Dev) (t : Nat) : Bool :=
  (List.range 2).all (fun i => !d.clk.regionAwake.getLsbD (2 * t + i)) &&
  (List.range 4).all (fun i => !d.clk.stackAwake.getLsbD (4 * t + i)) &&
  (List.range 2).all (fun i => !d.clk.regionQ.contains (2 * t + i) && !d.clk.regionGranted.contains (2 * t + i)) &&
  (List.range 4).all (fun i => !d.clk.stackQ.contains (4 * t + i) && !d.clk.stackGranted.contains (4 * t + i))

/-- PLL_IDLE_STOP (Table 3): a selected PLL stops with its die asleep; one not selected stops unless hardware is about
to switch to it. -/
def Dev.pllStop (d : Dev) (t : Nat) (p : Pll) : Dev :=
  let x := d.tdie t
  let may := if x.selected p then d.dieAsleep t
    else decide (x.pll p = .locked) && !x.hwOwn && !(x.auto && !x.stopped && x.active ≠ x.floor)
  if may then
    match p with
    | .a => d.setTdie t { x with aSt := .stopped }
    | .b => d.setTdie t { x with bSt := .stopped }
  else d

/-! ### The power loop (R405) -/

/-- Offset of `PWR_STAGE_UPS` of die `t` (R416). -/
def stageUpsAt (t : Nat) : Nat := 0x200048 + 0x10 * t

/-- POWER_COMPARE of die `t` with mean `m` W. -/
def Dev.powerCompare (d : Dev) (t m : Nat) : Dev :=
  let x := { d.tdie t with power := m }
  if x.budget < m then
    if 5 ≤ x.stage then d.setTdie t { x with overPower := true, low := 0 }
    else ((d.setTdie t { x with stage := x.stage + 1, powerFloor := x.stage + 1, low := 0 }).bump
      (stageUpsAt t)).floorsChanged t
  else if 10 * m < 9 * x.budget then
    if x.low + 1 < 10 then d.setTdie t { x with low := x.low + 1 }
    else (d.setTdie t { x with stage := x.stage - 1, powerFloor := x.stage - 1, low := 0 }).floorsChanged t
  else d.setTdie t { x with low := 0 }

/-! ### Sleep, self-refresh, wake -/

/-- REGION of a ring entry (Table 7 of 14). -/
def entryRegion (w : Nat) : Nat := fieldAt w 8 4

/-- A ring has an entry for the copy engine of region `r`: one that CONS has not passed, or one posted to a running ring, which
may be any region's until it is fetched (R376, R406). -/
def Dev.ringBusy (d : Dev) (r : Nat) : Bool :=
  d.host.rings.any (fun e => e.2.fly.any (fun f => decide (f.region = r) && !f.failed) ||
    (decide (e.2.state = 1) && (e.2.fetched.any (fun w => w.any (fun v => decide (entryRegion v = r))) ||
      decide (e.2.fetched.length < (e.2.prod - e.2.start).toNat))))

/-- The copy engine of region `r` has park or expansion work: the copy of a request falls to it (R235, R406). -/
def Dev.parkBusy (d : Dev) (r : Nat) : Bool :=
  d.serve.reqs.any (fun e =>
    (decide (e.2.state = .parking) || decide (e.2.state = .resuming)) && e.2.copyOn.contains r)

/-- Region `r` may fall asleep (R406). -/
def Dev.maySleep (d : Dev) (r : Nat) : Bool :=
  d.clk.sleepEn && d.clk.regionAwake.getLsbD r && !d.clk.regionQ.contains r && !d.ringBusy r && !d.parkBusy r &&
    (match d.domainOf r with
     | some n => (d.dom n).step.isNone && (d.dom n).susp.isEmpty && decide ((d.dom n).act = .idle)
     | none => true)

/-- REGION_SLEEP (R406): the region sleeps and its flags clear. -/
def Dev.sleepRegion (d : Dev) (r : Nat) : Dev :=
  { d with clk.regionAwake := d.clk.regionAwake &&& ~~~(BitVec.ofNat 12 (2 ^ r))
           flags := Tab.clear d.flags (1024 * r) (1024 * r + 1024) }

/-- A stack may enter self-refresh (R407): its region sleeps and is not being woken (R409; log 85), and nothing is in
progress on it. -/
def Dev.maySelfRefresh (d : Dev) (s : Nat) : Bool :=
  !d.clk.regionAwake.getLsbD (s / 2) && !d.clk.regionQ.contains (s / 2) && !d.clk.regionGranted.contains (s / 2) &&
    d.clk.stackAwake.getLsbD s && (d.stk s).locks.isEmpty &&
    (d.stk s).deltas.isEmpty && (d.stk s).slots.isEmpty

/-- STACK_SELF_REFRESH (R407): the stack cache is invalidated. -/
def Dev.selfRefresh (d : Dev) (s : Nat) : Dev :=
  { d.modStk s (fun x => { x with cache := [] }) with
      clk.stackAwake := d.clk.stackAwake &&& ~~~(BitVec.ofNat 24 (2 ^ s)) }

/-- WAKE_GRANT (R409): the oldest request of a queue is granted. -/
def Dev.wakeGrant (d : Dev) (q : WakeQueue) : Dev :=
  match q with
  | .region =>
    match d.clk.regionQ with
    | [] => d
    | r :: rest => { d with
        clk.regionQ := rest
        clk.regionFresh := false
        clk.regionSame := min d.clk.regionSame rest.length
        clk.regionGrantAt := some d.now
        clk.regionGranted := d.clk.regionGranted ++ [r] }
  | .stack =>
    match d.clk.stackQ with
    | [] => d
    | s :: rest => { d with
        clk.stackQ := rest
        clk.stackFresh := false
        clk.stackSame := min d.clk.stackSame rest.length
        clk.stackGrantAt := some d.now
        clk.stackGranted := d.clk.stackGranted ++ [s] }

/-- REGION_AWAKE (R409): a granted region wakes once its tensor die's clock runs. -/
def Dev.regionAwakes (d : Dev) (r : Nat) : Dev :=
  if d.clk.regionGranted.contains r && d.clockRuns (r / 2) then
    { d with clk.regionGranted := d.clk.regionGranted.filter (fun x => decide (x ≠ r))
             clk.regionAwake := d.clk.regionAwake ||| BitVec.ofNat 12 (2 ^ r) }
  else d

/-- STACK_SR_EXIT (R409). -/
def Dev.stackAwakes (d : Dev) (s : Nat) : Dev :=
  if d.clk.stackGranted.contains s && d.clockRuns (s / 4) then
    { d with clk.stackGranted := d.clk.stackGranted.filter (fun x => decide (x ≠ s))
             clk.stackAwake := d.clk.stackAwake ||| BitVec.ofNat 24 (2 ^ s) }
  else d

/-! ### Time -/

/-- Bytes of the mirror queue that the twin link carries away in a cycle of the keep clock: 198.4 GB/s for 40 ns (R287). -/
def mirrorDrain : Nat := 7936

/-- One cycle of the keep clock (log 5): DROP_KEEP bits read zero again, the activations before it are more than 20 ns old
(R152, log 58), and the mirror queue drains (R292, log 101). -/
def Dev.tick (d : Dev) : Dev :=
  let d1 := ((d.stks.filter (fun e => e.2.dropKeep || !e.2.acts.isEmpty)).map (·.1)).foldl
    (fun a s => a.modStk s (fun x => { x with dropKeep := false, acts := [] })) d
  { d1 with now := d1.now + 1, clk.regionSame := 0, clk.stackSame := 0, twin.backlog := d1.twin.backlog - mirrorDrain }

/-! ### Meanings -/

/-- CLK_SEL_WRITE (R402): a write of `CLK_TDIE`. -/
def execClkSelWrite (t : TDie) (v : Word) (s : State) : Result State :=
  s.hosted (.clkSelWrite t v) fun d => d.when (d.reaches .host) fun d => d.clkWrite t.val v.toNat

/-- PLL_LOCK (R399). -/
def execPllLock (t : TDie) (p : Pll) (s : State) : Result State := s.always fun d => d.pllLock t.val p

/-- TDIE_AUTO_SWITCH (R401). -/
def execTdieAutoSwitch (t : TDie) (s : State) : Result State := s.always fun d => d.autoSwitch t.val

/-- FLOOR_ENFORCE (R403). -/
def execFloorEnforce (t : TDie) (s : State) : Result State := s.always fun d => d.floorEnforce t.val

/-- PLL_IDLE_STOP (R399). -/
def execPllIdleStop (t : TDie) (p : Pll) (s : State) : Result State := s.always fun d => d.pllStop t.val p

/-- POWER_COMPARE (R405). -/
def execPowerCompare (t : TDie) (mean : BitVec 10) (s : State) : Result State :=
  s.always fun d => d.when (d.tdiePresent t.val) fun d => d.powerCompare t.val mean.toNat

/-- REGION_SLEEP (R406). -/
def execRegionSleep (r : Region) (s : State) : Result State :=
  s.always fun d => d.when (d.maySleep r.val) fun d => d.sleepRegion r.val

/-- STACK_SELF_REFRESH (R407). -/
def execStackSelfRefresh (st : Stack) (s : State) : Result State :=
  s.always fun d => d.when (d.maySelfRefresh st.val) fun d => d.selfRefresh st.val

/-- WAKE_GRANT (R409). -/
def execWakeGrant (q : WakeQueue) (s : State) : Result State := s.always fun d => d.wakeGrant q

/-- REGION_AWAKE (R409). -/
def execRegionAwake (r : Region) (s : State) : Result State := s.always fun d => d.regionAwakes r.val

/-- STACK_SR_EXIT (R409, R411). -/
def execStackSrExit (st : Stack) (s : State) : Result State := s.always fun d => d.stackAwakes st.val

end Sys2Proof.Machine
end

