-- ==== Sys2Proof/Machine/Thermal.lean ====
section
/-! DEFINITION. Temperature and throttling (17_thermal). Samples are counted: one is 1,000 keep-clock cycles (R417). -/

namespace Sys2Proof.Machine
open Sys2Proof

/-- The sensor belongs to the class DRAM (Table 1). -/
def dramSensor (n : Nat) : Bool := decide (96 ≤ n) && decide (n < 192)

/-- The unit that carries the sensor is present (R417). -/
def Dev.sensorPresent (d : Dev) (n : Nat) : Bool :=
  if n < 96 then d.tdiePresent (n / 16)
  else if n < 192 then d.stackPresent ((n - 96) / 4)
  else decide (n < 196)

/-- Thresholds of a sensor's class, in °C (R418). -/
def Therm.warnOf (x : Therm) (n : Nat) : Nat := if dramSensor n then x.dramWarn else x.logicWarn
def Therm.throttleOf (x : Therm) (n : Nat) : Nat := if dramSensor n then x.dramThrottle else x.logicThrottle

/-- Shutdown threshold of a sensor's class, and the restart level 20 °C below it, in °C (R418, R425): fixed. -/
def shutdownOf (n : Nat) : Nat := if dramSensor n then 105 else 115
def restartOf (n : Nat) : Nat := shutdownOf n - 20

/-- A reading in 1/16 °C is at or above, or at or below, a temperature in °C. -/
def atOrAbove (t : BitVec 16) (c : Int) : Bool := decide (16 * c ≤ t.toInt)
def atOrBelow (t : BitVec 16) (c : Int) : Bool := decide (t.toInt ≤ 16 * c)

/-- A sensor after a sample (R419, Table 5). -/
def Therm.sampled (x : Therm) (n : Nat) (old : Sensor) (t : BitVec 16) : Sensor where
  valid := true
  warn := atOrAbove t (x.warnOf n) || (old.warn && !atOrBelow t ((x.warnOf n : Int) - x.hyst))
  hot := atOrAbove t (x.throttleOf n)
  temp := t

/-- Qualifying sensors of a tensor die (R420): its own, its stacks', and those of the I/O dies. -/
def qualifying (t : Nat) : List Nat :=
  (List.range 16).map (16 * t + ·) ++ (List.range 16).map (96 + 16 * t + ·) ++ [192, 193, 194, 195]

/-- HOT of a die: a qualifying sensor reads at or above THROTTLE of its class (R420). -/
def Dev.dieHot (d : Dev) (t : Nat) : Bool := (qualifying t).any (fun n => (d.sensor n).valid && (d.sensor n).hot)

/-- CLEAR of a die: every qualifying sensor reads at or below THROTTLE - HYST of its class (R420). -/
def Dev.dieClear (d : Dev) (t : Nat) : Bool :=
  (qualifying t).all (fun n => !(d.sensor n).valid ||
    atOrBelow (d.sensor n).temp ((d.therm.throttleOf n : Int) - d.therm.hyst))

/-- Some sensor is in warning, some die requests. -/
def Dev.anyWarn (d : Dev) : Bool := (List.range 196).any (fun n => (d.sensor n).warn)
def Dev.anyReq (d : Dev) : Bool := (List.range 6).any (fun t => (d.thdie t).req)

/-- Offsets of the thermal counters (R426). -/
def thermRequestsAt : Nat := 0x201010
def thermTripsAt : Nat := 0x201018
def thermUpsAt (t : Nat) : Nat := 0x201048 + 0x10 * t

/-- The thermal stage of a die becomes `g`: its floors follow (R422). -/
def Dev.setThermStage (d : Dev) (t g : Nat) : Dev :=
  (d.modTdie t (fun x => { x with thermFloor := g })).floorsChanged t

/-- One sample of a die's state machine (Table 3): the transitions that a sample by itself makes. The end of a grace
time and of a cooling time are GRACE_EXPIRE and COOLING_STEP_DOWN. -/
def Dev.thermStep (d : Dev) (t : Nat) : Dev :=
  let x := d.thdie t
  let y := { x with since := x.since + 1 }
  match x.st with
  | .idle =>
    if d.dieHot t then (d.setThdie t { x with st := .grace, req := true, since := 0 }).bump thermRequestsAt else d
  | .grace =>
    if d.dieClear t then d.setThdie t { y with st := if x.stage = 0 then .idle else .cooling, req := false }
    else d.setThdie t y
  | .enforce =>
    if d.dieClear t then d.setThdie t { y with st := .cooling, req := false }
    else if d.dieHot t && 25 ≤ y.since then
      if 5 ≤ x.stage then d.setThdie t { y with maxed := true }
      else ((d.setThdie t { y with stage := x.stage + 1, since := 0 }).bump (thermUpsAt t)).setThermStage t (x.stage + 1)
    else d.setThdie t y
  | .cooling =>
    if d.dieHot t then (d.setThdie t { y with st := .enforce, req := true }).bump thermRequestsAt
    else d.setThdie t y

/-- HOT of a stack (R162): set above 85 °C, cleared when all four sensors read 82 °C or below. -/
def Dev.stackHot (d : Dev) (s : Nat) : Dev :=
  let l := (List.range 4).map (fun i => d.sensor (96 + 4 * s + i))
  let above := l.any (fun x => x.valid && !atOrBelow x.temp 85)
  let cool := l.all (fun x => !x.valid || atOrBelow x.temp 82)
  if above then d.modStk s (fun x => { x with hot := true })
  else if cool then d.modStk s (fun x => { x with hot := false })
  else d

/-- A level source follows its condition: raised when it begins, withdrawn when it ends (R384). -/
def Dev.follow (d : Dev) (src : Nat) (before after : Bool) : Dev :=
  if after && !before then d.raise src else if before && !after then d.withdraw src else d

/-- THERMAL_SAMPLE (R417, R419, R421, R162) with the readings given; a sensor with no reading keeps its last. -/
def Dev.thermalSample (d : Dev) (readings : List (Nat × BitVec 16)) : Dev :=
  let d1 := readings.foldl (fun a r =>
    if a.sensorPresent r.1 then a.modSensor r.1 (fun x => a.therm.sampled r.1 x r.2) else a) d
  let d2 := d1.follow 3 d.anyWarn d1.anyWarn
  let d3 := (List.range 24).foldl (fun a s => if a.stackPresent s then a.stackHot s else a) d2
  let d4 := (List.range 6).foldl (fun a t => if a.tdiePresent t then a.thermStep t else a) d3
  d4.follow 4 d3.anyReq d4.anyReq

/-- GRACE_EXPIRE (Table 3): in GRACE and not CLEAR, the stage rises and the die is enforced. -/
def Dev.graceExpire (d : Dev) (t : Nat) : Dev :=
  let x := d.thdie t
  if x.st = .grace && !d.dieClear t then
    let g := min (x.stage + 1) 5
    let d1 := d.setThdie t { x with st := .enforce, stage := g, since := 0 }
    ((if x.stage < 5 then d1.bump (thermUpsAt t) else d1)).setThermStage t g
  else d

/-- COOLING_STEP_DOWN (Table 3): CLEAR for the cooling time, the stage falls by one. -/
def Dev.coolingStepDown (d : Dev) (t : Nat) : Dev :=
  let x := d.thdie t
  if x.st = .cooling && d.dieClear t then
    let g := x.stage - 1
    (d.setThdie t { x with stage := g, st := if g = 0 then .idle else .cooling }).setThermStage t g
  else d

/-- The temperatures at the present sensors become the readings: what the comparators go by (R424, R425; log 45). -/
def Dev.setTemps (d : Dev) (readings : List (Nat × BitVec 16)) : Dev :=
  readings.foldl (fun a r =>
    if a.sensorPresent r.1 then { a with pins.temps := Tab.write (fun _ => 0) a.pins.temps r.1 r.2 } else a) d

/-- Temperature at a sensor; 0 °C until one is given (log 45). -/
def Dev.temp (d : Dev) (n : Nat) : BitVec 16 := Tab.read (fun _ => 0) d.pins.temps n

/-- A comparator has tripped: its sensor is at its shutdown threshold or above (R424; log 45). -/
def Dev.tripTemp (d : Dev) (n : Nat) : Dev :=
  if atOrAbove (d.temp n) (shutdownOf n) then d
  else { d with pins.temps := Tab.write (fun _ => 0) d.pins.temps n (BitVec.ofNat 16 (16 * shutdownOf n)) }

/-- Every present sensor is at or below its restart level (R425). -/
def Dev.coolEnough (d : Dev) : Bool :=
  (List.range 196).all (fun n => !d.sensorPresent n || atOrBelow (d.temp n) (restartOf n))

/-- The controller samples: not in OFF nor THERMAL_OFF, where every clock is stopped (R413, R424). -/
def Dev.samples (d : Dev) : Bool := decide (d.chip.state ≠ .off) && decide (d.chip.state ≠ .thermalOff)

/-! ### Meanings -/

/-- THERMAL_SAMPLE (R421); with the controller stopped, the temperatures still move (R425). -/
def execThermalSample (readings : List (Nat × BitVec 16)) (s : State) : Result State :=
  s.checked (wellFormed (.thermalSample readings)) fun d =>
    (d.setTemps readings).when d.samples fun d => d.thermalSample readings

/-- GRACE_EXPIRE (R421). -/
def execGraceExpire (t : TDie) (s : State) : Result State :=
  s.always fun d => d.when (d.samples && d.tdiePresent t.val) fun d => d.graceExpire t.val

/-- COOLING_STEP_DOWN (R421). -/
def execCoolingStepDown (t : TDie) (s : State) : Result State :=
  s.always fun d => d.when (d.samples && d.tdiePresent t.val) fun d => d.coolingStepDown t.val

end Sys2Proof.Machine
end

