-- ==== Sys2Proof/Machine/Memory.lean ====
section
/-! DEFINITION. Device memory: addresses and views (05_compute_stacks), the area map (13_structure_image), chunks,
parity and the code on them (12_memory_integrity), the stack cache, and the two accesses that every unit makes through
the conventional path: load and store. -/

namespace Sys2Proof.Machine
open Sys2Proof

/-! ### Addresses (R129 to R132) -/

/-- A byte of DRAM: stack, data die, bank, row and byte of the row. -/
structure Loc where
  st : Nat
  die : Nat
  bank : Nat
  row : Nat
  byte : Nat
  deriving DecidableEq, Repr

/-- What an address decodes to. -/
inductive Decoded where
  | at (l : Loc)
  | fused
  | none
  deriving DecidableEq, Repr

/-- Size of a stack's address range (R129). -/
def stackSpan : Nat := 0x2000000000
/-- First bank-view address. -/
def bankViewBase : Nat := 0x400000000000

/-- The OFFSET fields in the linear view (Table 3). -/
def linearLoc (st off : Nat) : Loc :=
  ⟨st, fieldAt off 5 4, fieldAt off 15 7, fieldAt off 22 15, fieldAt off 9 6 * 32 + fieldAt off 0 5⟩
/-- The OFFSET fields in the bank view (Table 3). -/
def bankLoc (st off : Nat) : Loc :=
  ⟨st, fieldAt off 33 4, fieldAt off 26 7, fieldAt off 11 15, fieldAt off 0 11⟩

/-- The area covers band `row` of stack `st`: by its own stacks, by its mirrors (R333, R335). -/
def Area.covers (a : Area) (st row : Nat) : Bool :=
  a.onStacks.getLsbD st && decide (a.first ≤ row) && decide (row < a.first + a.count)
def Area.mirrorOf (a : Area) (st : Nat) : Nat := (st + 4 * a.mstep) % 24
def Area.primaryOf (a : Area) (st : Nat) : Nat := (st + 24 - 4 * a.mstep) % 24
def Area.mirrorCovers (a : Area) (st row : Nat) : Bool :=
  a.mirrored && a.covers (a.primaryOf st) row

/-- The area that a row band belongs to. -/
def Dev.areaAt (d : Dev) (st row : Nat) : Option Area :=
  d.img.str.areas.find? (fun a => a.covers st row || a.mirrorCovers st row)

/-- Place of a stack among the present ones (R325). -/
def Dev.stackPlace (d : Dev) (st : Nat) : Nat := (d.stacksPresent.filter (fun s => decide (s < st))).length

/-- The window page that a linear address lies in (R325). -/
def Dev.windowPageAt (d : Dev) (st off : Nat) : Option Nat :=
  let p := off / 0x200000 * d.stacksPresent.length + d.stackPlace st
  if d.stackPresent st && p < d.windowPages then some p else none

/-- Device address of byte `o` of window page `w` (R325). -/
def Dev.windowAddr (d : Dev) (w o : Nat) : Nat :=
  let n := d.stacksPresent.length
  d.stacksPresent.getD (w % n) 0 * stackSpan + w / n * 0x200000 + o

/-- The row band of an address is assigned to its view (R132); before an image only the boot backing decodes (R325). -/
def Dev.assigned (d : Dev) (st row off : Nat) (bankView : Bool) : Bool :=
  if d.structured then
    match d.areaAt st row with
    | some a => decide (a.bankView = bankView)
    | none => false
  else !bankView && (d.windowPageAt st off).isSome

/-- Decoding of a device address (R129 to R132). -/
def Dev.decodeAddr (d : Dev) (a : Nat) : Decoded :=
  let st := fieldAt a 37 5
  let off := fieldAt a 0 37
  let bv := bitAt a 46
  if 2 ^ 47 ≤ a || fieldAt a 42 4 ≠ 0 || 24 ≤ st then .none
  else if !d.stackPresent st then .fused
  else
    let l := if bv then bankLoc st off else linearLoc st off
    if l.row < 20480 && d.assigned st l.row off bv then .at l else .none

/-- Every byte of the range decodes to present memory. The view assigns whole rows, so 32-byte blocks suffice. -/
def Dev.rangeOk (d : Dev) (a len : Nat) : Bool :=
  (List.range ((a % 32 + len + 31) / 32)).all (fun i =>
    match d.decodeAddr (a / 32 * 32 + 32 * i) with
    | .at _ => true
    | _ => false)

/-- The window page of a device address. -/
def Dev.pageOf (d : Dev) (a : Nat) : Option Nat :=
  if bitAt a 46 then none else d.windowPageAt (fieldAt a 37 5) (fieldAt a 0 37)

/-! ### Counters -/

/-- Register offsets of the counters of stack `s` (Table 7 of 12, Table 17 of 05). -/
def pathRetriesAt (s : Nat) : Nat := stackBase s + 0x0F0
def reconstructionsAt (s : Nat) : Nat := stackBase s + 0x0F8
def scrubVisitsAt (s : Nat) : Nat := stackBase s + 0x100
def scrubCorrectedAt (s : Nat) : Nat := stackBase s + 0x108
def ueCountAt (s : Nat) : Nat := stackBase s + 0x110
def narrowRmwAt (s : Nat) : Nat := stackBase s + 0x118
def fieldRemapsAt (s : Nat) : Nat := stackBase s + 0x120
def mirrorRepairsAt (s : Nat) : Nat := stackBase s + 0x128
def twinRepairsAt (s : Nat) : Nat := stackBase s + 0x130
def cacheHitsAt (s : Nat) : Nat := stackBase s + 0x048
def cacheMissesAt (s : Nat) : Nat := stackBase s + 0x050

/-! ### Chunks -/

/-- The stripe of a byte, and its place (R128). -/
def Loc.stripe (l : Loc) : Stripe := ⟨l.bank, l.row, l.byte / 32⟩

/-- The spare that a fused remap gives a row (R495). -/
def Dev.fuseSpare (d : Dev) (st die bank row : Nat) : Option Nat :=
  ((Tab.read (fun _ => []) d.fuses.remaps st).find? (fun e =>
    decide (e.die = die) && decide (e.bank = bank) && decide (e.row = row) && !e.retireOnly)).map (·.spare)

/-- Key of a row in the remap table. -/
def rowKey (die bank row : Nat) : Nat := (die * 128 + bank) * 20480 + row

/-- The spare a row points at: a field remap overrides a fused one (R320). -/
def Dev.spareOf (d : Dev) (st die bank row : Nat) : Option Nat :=
  match Tab.read (fun _ => none) (d.stk st).remap (rowKey die bank row) with
  | some x => some x
  | none => d.fuseSpare st die bank row

/-- The physical row (R127, R319). -/
def Dev.physRow (d : Dev) (st die bank row : Nat) : Nat :=
  match d.spareOf st die bank row with
  | some x => 20480 + x
  | none => row

/-- DRAM place of a chunk, divided by 32. -/
def Dev.chunkKey (d : Dev) (st die : Nat) (p : Stripe) : Nat :=
  (((st * 18 + die) * 128 + p.bank) * 20544 + d.physRow st die p.bank p.row) * 64 + p.chunk

/-- The stored bytes of a chunk, whatever its parity. -/
def Dev.chunk (d : Dev) (st die : Nat) (p : Stripe) : List Byte :=
  Tab.readN zeroByte d.dram (32 * d.chunkKey st die p) 32

/-- Stored parity disagrees with the stored data (R300). -/
def Dev.chunkBad (d : Dev) (st die : Nat) (p : Stripe) : Bool := decide (d.xparity (d.chunkKey st die p) ≠ 0)

/-- Store 32 bytes with the parity mismatch `m`. -/
def Dev.putChunk (d : Dev) (st die : Nat) (p : Stripe) (bytes : List Byte) (m : Nat) : Dev :=
  let k := d.chunkKey st die p
  { d with dram := Tab.writeN zeroByte d.dram (32 * k) bytes
           parity := Tab.write (fun _ => 0) d.parity k m }

/-- The 32-byte flip mask (R323). -/
def Dev.flipBytes (d : Dev) (st : Nat) : List Byte :=
  (List.range 8).flatMap (fun i => bytesOf (Tab.read (fun _ => (0 : Word)) (d.stk st).flipMask i).toNat 4)

/-- Words of a chunk whose even-parity bit the mask makes wrong when the parity was formed before the flip: those in which
it flips an odd number of bits (R300, R323; log 18). -/
def flipParity (mask : List Byte) : Nat :=
  (List.range 4).foldl (fun a i => if (bitsOf (ofBytes (slice mask (8 * i) 8)) 64).length % 2 = 0 then a else a + 2 ^ i) 0

/-- OFFSET of a chunk of data die `die` in the linear view (Table 3). -/
def linearOff (die : Nat) (p : Stripe) : Nat := p.row * 2 ^ 22 + p.bank * 2 ^ 15 + p.chunk * 512 + die * 32

/-- A dispatch whose stack sees a chunk written: what it reads there is free (R177, R186, R212; log 90). -/
def Slot.race (x : Slot) (k : Nat) : Slot := { x with raced := insertNat k x.raced }
def DispReq.race (x : DispReq) (k : Nat) : DispReq := { x with raced := insertNat k x.raced }
/-- A program's write reaches a chunk on a data die: every dispatch of the stack sees it. -/
def Dev.raceChunk (d : Dev) (st die : Nat) (p : Stripe) : Dev :=
  if die < 16 && !((d.stk st).slots.isEmpty && (d.stk st).reqs.isEmpty) then
    d.modStk st (fun x => { x with
      reqs := x.reqs.map (fun q => q.race (linearOff die p))
      slots := x.slots.map (fun e => (e.1, e.2.map (fun s => s.race (linearOff die p)))) })
  else d

/-- A chunk write with the parity mismatch `m`, which the flip mask may catch (R323): on a data die a write of the host, a
tensor or DMA operation or a BAU STORE (`flips`), on a check die a delta application or full-stripe write. -/
def Dev.writeChunkAs (d0 : Dev) (st die : Nat) (p : Stripe) (bytes : List Byte) (flips : Bool) (m : Nat) : Dev :=
  let d := if flips then d0.raceChunk st die p else d0
  let x := d.stk st
  if x.flipArm && x.flipDie = die && (flips || 16 ≤ die) then
    let k := d.flipBytes st
    (d.setStk st { x with flipArm := false }).putChunk st die p (xorBytes bytes k)
      (if x.parityAfter then m else xorNat 4 m (flipParity k))
  else d.putChunk st die p bytes m

/-- A chunk write with good parity. -/
def Dev.writeChunk (d : Dev) (st die : Nat) (p : Stripe) (bytes : List Byte) (flips : Bool) : Dev :=
  d.writeChunkAs st die p bytes flips 0

/-- The eighteen chunks of a stripe, and the dies whose chunk fails parity. -/
def Dev.stripeChunks (d : Dev) (st : Nat) (p : Stripe) : List (List Byte) :=
  (List.range 18).map (fun i => d.chunk st i p)
def Dev.badDies (d : Dev) (st : Nat) (p : Stripe) : List Nat :=
  (List.range 18).filter (fun i => d.chunkBad st i p)

/-- The stripe passes parity and the code without correction (R313). -/
def Dev.stripeClean (d : Dev) (st : Nat) (p : Stripe) : Bool :=
  (d.badDies st p).isEmpty &&
    decide (decodeStripe (d.stripeChunks st p) [] = some (d.stripeChunks st p))

/-- Check die `j` (16 or 17) applies a delta of data die `i` (R304). The check die reads its chunk first (R300): one that
fails parity is read again, and goes on failing until it is reconstructed (R301). -/
def Dev.applyDelta (d : Dev) (st : Nat) (p : Stripe) (i : Nat) (delta : List Byte) (j : Nat) : Dev :=
  let d1 := if d.chunkBad st j p then d.bump (pathRetriesAt st) else d
  d1.writeChunkAs st j p (xorBytes (d.chunk st j p) (if j = 16 then delta else scaleChunk delta i)) true
    (d.xparity (d.chunkKey st j p))

/-- The whole stripe from sixteen data chunks, with its check symbols (R309). -/
def Dev.putStripe (d : Dev) (st : Nat) (p : Stripe) (chunks : List (List Byte)) (flips : Bool) : Dev :=
  let all := chunks ++ [chunkP chunks, chunkQ chunks]
  (List.range 18).foldl (fun a i => a.writeChunk st i p (all.getD i []) flips) d

/-! ### Locks (R306) -/

/-- The requester is a party, whose operation is made again. -/
def LockReq.isParty (q : LockReq) : Bool :=
  match q with
  | .party _ => true
  | _ => false

/-- The entry occupies the table: its lock is held, or has been asked for. A party has no entry while it waits: it takes and
releases its locks within the step that makes its operation (log 11). -/
def Lock.inUse (l : Lock) : Bool := l.held || l.taken || l.waiters.any (fun q => !q.isParty)

/-- A lock entry of the stripe. -/
def StackSt.lockOf (x : StackSt) (p : Stripe) : Option Lock := x.locks.find? (fun l => decide (l.stripe = p))

/-- Replace the lock entry of a stripe; none removes it. -/
def StackSt.setLock (x : StackSt) (p : Stripe) (e : Option Lock) : StackSt :=
  let rest := x.locks.filter (fun l => decide (l.stripe ≠ p))
  match e with
  | some l => { x with locks := rest ++ [l] }
  | none => { x with locks := rest }

/-- Lock entries of the table, and how many of them are occupied (R306). -/
def lockEntries : Nat := 96
def StackSt.occupied (x : StackSt) : Nat := (x.locks.filter Lock.inUse).length

/-- The stripe is locked, or a requester of its lock waits. -/
def Dev.stripeLocked (d : Dev) (st : Nat) (p : Stripe) : Bool :=
  match (d.stk st).lockOf p with
  | some l => l.inUse
  | none => false

/-- No delta of the stripe is outstanding (R305). -/
def StackSt.settled (x : StackSt) (p : Stripe) : Bool := !x.deltas.any (fun e => decide (e.stripe = p))
def Dev.consistent (d : Dev) (st : Nat) (p : Stripe) : Bool := (d.stk st).settled p

/-! ### Repair of a stripe -/

/-- Device address of a stripe in its owning view (`MEM_UE_LOG.ADDR`). -/
def Dev.stripeAddr (d : Dev) (st : Nat) (p : Stripe) : Nat :=
  match d.areaAt st p.row with
  | some a =>
    if a.bankView then bankViewBase + st * stackSpan + p.bank * 2 ^ 26 + p.row * 2 ^ 11 + p.chunk * 32
    else st * stackSpan + p.row * 2 ^ 22 + p.bank * 2 ^ 15 + p.chunk * 512
  | none => st * stackSpan + p.row * 2 ^ 22 + p.bank * 2 ^ 15 + p.chunk * 512

/-- SOURCE codes of `MEM_UE_LOG`; a row repair shows the scrubber's (log 106). -/
def sourceCode (s : MemSource) : Nat :=
  match s with
  | .bau => 0
  | .tensor => 1
  | .host => 2
  | .normaliser => 3
  | .scrub => 4
  | .imageCopy => 5
  | .rowRepair => 4

/-- `MEM_UE_LOG` records an outcome: the first record stays; source 40 + s is raised (R315, Table 8). -/
def Dev.logUe (d : Dev) (st : Nat) (p : Stripe) (outcome : Nat) (src : MemSource) : Dev :=
  (d.modStk st (fun x =>
    if x.ueValid then { x with ueOverflow := true }
    else { x with ueValid := true, ueOutcome := outcome, ueSource := sourceCode src, ueAddr := d.stripeAddr st p })).raise
      (40 + st)

/-- Poison (R316): all eighteen chunks with inverted parity bits. -/
def Dev.poison (d : Dev) (st : Nat) (p : Stripe) : Dev :=
  (List.range 18).foldl (fun a i =>
    { a with parity := Tab.write (fun _ => 0) a.parity (a.chunkKey st i p) 0xF }) d

/-- The stripe is poisoned. -/
def Dev.poisoned (d : Dev) (st : Nat) (p : Stripe) : Bool :=
  (List.range 18).all (fun i => decide (d.xparity (d.chunkKey st i p) = 0xF))

/-- The device lines that a chunk on die `i` of a stripe lies in (R167): the linear stripe, the bank-view line. -/
def lineTags (st : Nat) (p : Stripe) (i : Nat) : List Nat :=
  [(st * stackSpan + p.row * 2 ^ 22 + p.bank * 2 ^ 15 + p.chunk * 512) / 512,
   (bankViewBase + st * stackSpan + i * 2 ^ 33 + p.bank * 2 ^ 26 + p.row * 2 ^ 11 + p.chunk * 32) / 512]

/-- Set of a line in the stack cache (R167; log 19). -/
def cacheSet (tag : Nat) : Nat := tag % 3072
def StackSt.cacheLines (x : StackSt) (set : Nat) : List Line := Tab.read (fun _ => []) x.cache set
def StackSt.setLines (x : StackSt) (set : Nat) (l : List Line) : StackSt :=
  { x with cache := Tab.write (fun _ => []) x.cache set l }

/-- A write beside the cache invalidates the lines it touches (R170). -/
def Dev.invalidate (d : Dev) (st : Nat) (p : Stripe) (i : Nat) : Dev :=
  d.modStk st (fun x => (lineTags st p i).foldl (fun x t =>
    x.setLines (cacheSet t) ((x.cacheLines (cacheSet t)).filter (fun l => decide (l.tag ≠ t)))) x)

/-- Reconstruction that the chunk of die `i` started (R302): the corrected chunks of the failing dies are written back, so
that data and check symbols agree again. None: uncorrectable. -/
def Dev.reconstruct (d : Dev) (st : Nat) (p : Stripe) (i : Nat) : Option Dev :=
  match decodeStripe (d.stripeChunks st p) (d.badDies st p) with
  | none => none
  | some good =>
    some ((((d.badDies st p).foldl (fun a j => (a.putChunk st j p (good.getD j []) 0).invalidate st p j) d).modStk st
      (fun x => { x with reconDie := some i })).bump (reconstructionsAt st))

/-- The stack of the other copy of a stripe in a MIRRORED area (R311, R313). -/
def Dev.otherCopy (d : Dev) (st : Nat) (p : Stripe) : Option Nat :=
  match d.areaAt st p.row with
  | some a => if a.mirrored then some (if a.covers st p.row then a.mirrorOf st else a.primaryOf st) else none
  | none => none

/-- A repair read from the twin may be tried (R312, R313): the area is TWIN_REPAIR, or an outgoing mirror area, and the
twin is attached. -/
def Dev.twinSource (d : Dev) (st : Nat) (p : Stripe) : Bool :=
  decide (d.twin.st = 2) &&
    (match d.areaAt st p.row with
     | some a => a.twinRepair || a.outMirror
     | none => false)

/-- The stripe written from sixteen good chunks, with their check symbols. -/
def Dev.rewriteStripe (d : Dev) (st : Nat) (p : Stripe) (good : List (List Byte)) : Dev :=
  (List.range 18).foldl (fun a i =>
    (a.putChunk st i p ((good ++ [chunkP good, chunkQ good]).getD i []) 0).invalidate st p i) d

/-- Repair from 512 bytes that the twin sent (R296, R313). -/
def Dev.twinRepair (d : Dev) (st : Nat) (p : Stripe) (bytes : List Byte) (src : MemSource) : Dev :=
  ((d.rewriteStripe st p ((List.range 16).map (fun i => slice bytes (32 * i) 32))).bump (twinRepairsAt st)).logUe st p 1 src

/-! ### Row buffers and activations (R135, R152, R153) -/

/-- Key of bank cell `c` of die `i` of stack `st`. -/
def cellKey (st i c : Nat) : Nat := (st * 18 + i) * 64 + c

/-- The BAU cycle of the next activation that is no stream's, after the activations `l`: the first that keeps `n` in `win`
cycles, from cycle `now` on. -/
def nextAct (l : List Nat) (n win now : Nat) : Nat :=
  max (max now (l.getLast?.getD 0)) (if l.length < n then 0 else l.getD (l.length - n) 0 + win)

/-- A host, tensor or base-die access opens a row of a bank: one activation under tBAW, unless the row buffer holds that
row already (R152). It takes place at the BAU cycle of the last turn, or as soon after as tBAW allows (log 58). -/
def Dev.openRow (d : Dev) (st i bank row : Nat) : Dev :=
  let k := i * 128 + bank
  if Tab.read (fun _ => none) (d.stk st).rowBufs k = some row then d
  else
    let x := d.stk st
    let l := d.actsOf st i x.bauNow
    let t := nextAct l (bawCount (x.ruleOf i)) (windowCycles (d.tdie (st / 4)).active) x.bauNow
    d.setStk st { x with
      acts := Tab.write (fun _ => []) x.acts i (l ++ [t])
      rowBufs := Tab.write (fun _ => none) x.rowBufs k (some row) }

/-! ### Who accesses, and what stops an access -/

/-- The unit that makes an access: its SOURCE, its cache hint, whether pennants bind it (Table 6 of 14), and the region
and unit that a fault names (R444). -/
structure Who where
  src : MemSource
  hint : Hint
  engine : Bool
  region : Nat
  unit : Nat
  deriving DecidableEq, Repr

/-- The access of a unit with a hint. -/
def whoOf (a : Accessor) (h : Hint) : Who :=
  match a with
  | .host => ⟨.host, .stream, false, 0, 6⟩
  | .block r b => ⟨.tensor, h, true, r.val, b.val⟩
  | .copyEngine r => ⟨.tensor, .stream, true, r.val, 6⟩
  | .bau st => ⟨.bau, .stream, false, st.val / 2, 4 + st.val % 2⟩
  | .normaliser st => ⟨.normaliser, .stream, false, st.val / 2, 4 + st.val % 2⟩

/-- The party that the access belongs to. -/
def Who.party (w : Who) : Party := ⟨w.src, w.region, w.unit⟩

/-- The flip mask may catch the writes of the unit on a data die: those of the host, of tensor and DMA operations and of
BAU STOREs (R323). -/
def Who.flips (w : Who) : Bool := w.src = .host || w.src = .tensor || w.src = .bau

/-- Why an access does not go on. -/
inductive Stop where
  /-- An address does not decode. -/
  | unmapped
  /-- A pennant is HOST (R369). -/
  | page (p : Nat)
  /-- The stack is in self-refresh (R408). -/
  | asleep (st : Nat)
  /-- The operation waits: for a queue entry that is not yet written (R259), or for the delta channel (R304, R305). -/
  | locked
  /-- The party's access waits for a stripe that is locked or has deltas outstanding, or for room in the lock table
  (R306). -/
  | stripe (st : Nat) (s : Stripe) (p : Party)
  /-- The party's access waits for bank cells that are in a segment, at a yield point or refreshing (R165). -/
  | busy (cells : List Nat) (p : Party)
  /-- A stripe waits for a repair read from the twin (R313). -/
  | repair (st : Nat) (p : Stripe)
  /-- No source repairs the stripe (R315). -/
  | lost (st : Nat) (p : Stripe)
  /-- A word of the pennant table fails its replays (R445). -/
  | table
  /-- A word of SRAM fails three replays (R40): the halt code, the word. -/
  | parity (code word : Nat)
  deriving DecidableEq, Repr

/-- An access: its result, or what stops it. -/
abbrev Acc (α : Type) := Except Stop α

/-- What follows an access: `stop` where it stops, `f` on its result. -/
def Acc.fold {α β : Type} (x : Acc α) (stop : Stop → β) (f : α → β) : β :=
  match x with
  | .error e => stop e
  | .ok a => f a

/-- An access after another: a stop of the first stops both. -/
def Acc.andThen {α β : Type} (x : Acc α) (f : α → Acc β) : Acc β :=
  match x with
  | .error e => .error e
  | .ok a => f a

/-! ### Bank cells in the way of an access (R165) -/

/-- The sequencer of stack `st` acts: the stack is not halted, it and its region are awake, and no region fault has stopped
its domain (R22, R23, R164, R411). What a wedged domain has in flight runs on (R85). -/
def Dev.stackRuns (d : Dev) (st : Nat) : Bool :=
  !(d.stk st).halted && d.clk.stackAwake.getLsbD st && d.clk.regionAwake.getLsbD (st / 2) && !d.regionHalted (st / 2)

/-- The cell is in a segment, which its stack goes on with, or at a yield point that has not been served. -/
def Dev.cellHeld (d : Dev) (ck : Nat) : Bool :=
  d.stackRuns (ck / 1152) && (match (d.bcell ck).phase with
    | .streaming => true
    | .atYield _ => true
    | _ => false)

/-- An access to the cell waits: it refreshes, or it is in a segment or at a yield point (R165). A cell that has only asked
for a turn is in no segment: the turn starts it (R143, R153). -/
def Dev.cellBusy (d : Dev) (ck : Nat) : Bool := (d.bcell ck).refreshing || d.cellHeld ck

/-- The party has still in hand what it waited for: its unit has not stopped (R22, R23). -/
def Dev.works (d : Dev) (p : Party) : Bool :=
  match p.src with
  | .tensor =>
    if p.unit < 4 then !d.regionHalted p.region && (d.blk (4 * p.region + p.unit)).st ≠ .idle &&
      (d.blk (4 * p.region + p.unit)).st ≠ .halted
    else !d.regionHalted p.region
  | .bau | .normaliser => !(d.stk (2 * p.region + (p.unit - 4))).halted
  | _ => true

/-- A requester of the stripe's entry goes before all that wait with it: the lock is free, and the stripe consistent. -/
def StackSt.firstAt (x : StackSt) (l : Lock) (p : Party) : Bool :=
  !l.held && !l.taken && x.settled l.stripe && decide (l.waiters.head? = some (.party p))

/-- The party can make its access now: it waits for no cell, and wherever it has come to its turn it is the first. Two parties
that each wait behind the other do not hold each other (log 11). -/
def Dev.canGo (d : Dev) (p : Party) : Bool :=
  d.bcells.all (fun e => !e.2.waiting.contains (.party p) && !e.2.late.contains (.party p)) &&
  d.stks.all (fun e => e.2.locks.all (fun l => !l.waiters.contains (.party p) || e.2.firstAt l p)) &&
  d.served.all (fun e => decide (e.2 ≠ p) || decide ((d.served.find? (fun f => decide (f.1 = e.1))).map (·.2) = some p))

/-- A later access waits behind the party's. -/
def Dev.goesFirst (d : Dev) (p : Party) : Bool := d.works p && d.canGo p

/-- Parties that the cell has come to serve, in order of arrival, and whose accesses are not yet made. -/
def Dev.servedAt (d : Dev) (ck : Nat) : List Party := (d.served.filter (fun e => decide (e.1 = ck))).map (·.2)

/-- The party's access waits for the cell (R165): it refreshes, is in a segment or at a yield point and has not come to serve
the party; or it serves those that came before. What came at the yield point too late waits for the following one, unless the
cell is held by accesses that all wait elsewhere (log 11). -/
def Dev.holdsUp (d : Dev) (p : Party) (ck : Nat) : Bool :=
  let x := d.bcell ck
  let mine := (d.servedAt ck).contains p
  if d.cellBusy ck then !mine
  else if x.phase = .wantTurn && d.stackRuns (ck / 1152) then
    ((d.servedAt ck).takeWhile (fun q => decide (q ≠ p))).any d.goesFirst ||
      (!mine && x.late.contains (.party p) && (d.servedAt ck).isEmpty)
  else false

/-- The cells of a list that the access must wait for. -/
def Dev.inTheWay (d : Dev) (w : Who) (cks : List Nat) : List Nat := cks.filter (d.holdsUp w.party)

/-- Cells of the dies `is` that own a bank. -/
def bankCells (st bank : Nat) (is : List Nat) : List Nat := is.map (fun i => cellKey st i (bank / 2))

/-- Bank cells that hold the bytes of an access within one line. -/
def Dev.accessCells (d : Dev) (a len : Nat) : List Nat :=
  (List.range ((a % 32 + len + 31) / 32)).foldl (fun l j =>
    match d.decodeAddr (a / 32 * 32 + 32 * j) with
    | .at p => insertNat (cellKey p.st p.die (p.bank / 2)) l
    | _ => l) []

/-- Go on when no cell of the list is in the way: a wait is for all of them together (R166). -/
def Dev.cellsFree (d : Dev) (w : Who) (cks : List Nat) : Acc Unit :=
  if (d.inTheWay w cks).isEmpty then .ok () else .error (.busy (d.inTheWay w cks) w.party)

/-- The cell without the wait of a party. -/
def BCell.forget (x : BCell) (p : Party) : BCell :=
  { x with waiting := x.waiting.filter (fun a => decide (a ≠ .party p)), late := x.late.filter (fun a => decide (a ≠ .party p)) }

/-- The lock table without the waits of a party. -/
def StackSt.forget (x : StackSt) (p : Party) : StackSt :=
  let cut := x.locks.map (fun l => { l with waiters := l.waiters.filter (fun q => decide (q ≠ .party p)) })
  { x with
    locks := cut.filter (fun l => l.held || l.taken || !l.waiters.isEmpty)
    lockWait := x.lockWait.filter (fun e => decide (e.2 ≠ .party p)) }

/-- The party gives up its places at the bank cells. -/
def Dev.leaveCells (d : Dev) (p : Party) : Dev :=
  let cks := (d.bcells.filter (fun e => e.2.waiting.contains (.party p) || e.2.late.contains (.party p))).map (·.1)
  cks.foldl (fun a ck => a.modBcell ck (fun x => x.forget p)) { d with served := d.served.filter (fun e => decide (e.2 ≠ p)) }

/-- The party gives up its places at the stripes. -/
def Dev.leaveStripes (d : Dev) (p : Party) : Dev :=
  let sts := (d.stks.filter (fun e => e.2.lockWait.any (fun q => decide (q.2 = .party p)) ||
    e.2.locks.any (fun l => l.waiters.contains (.party p)))).map (·.1)
  sts.foldl (fun a st => a.modStk st (fun x => x.forget p)) d

/-- The party's access has been made, or given up: nothing remembers its waits. -/
def Dev.unserve (d : Dev) (p : Party) : Dev := (d.leaveCells p).leaveStripes p

/-! ### The lock that an access needs (R306) -/

/-- A requester in a queue for a lock goes before the access of a party that is not yet there. -/
def Dev.goesBefore (d : Dev) (q : LockReq) : Bool :=
  match q with
  | .party p => d.goesFirst p
  | _ => true

/-- The stripe is free for the party's access: no lock is held on it, and nobody waits before it. -/
def Dev.mayAccess (d : Dev) (p : Party) (st : Nat) (s : Stripe) : Bool :=
  match (d.stk st).lockOf s with
  | some l => !l.held && !l.taken && !(l.waiters.takeWhile (fun q => decide (q ≠ .party p))).any d.goesBefore
  | none => true

/-- The party can take the stripe's lock for its operation: the stripe is free and consistent, and the table has room for it
before those that found it full. -/
def Dev.lockable (d : Dev) (p : Party) (st : Nat) (s : Stripe) : Bool :=
  let x := d.stk st
  d.mayAccess p st s && d.consistent st s && decide (x.occupied < lockEntries) &&
    !(x.lockWait.takeWhile (fun e => decide (e ≠ (s, .party p)))).any (fun e => d.goesBefore e.2)

/-! ### Reads from the array (R301, R302, R313) -/

/-- The twin has been asked for this stripe in vain by the unit. -/
def StackSt.gaveUp (x : StackSt) (p : Stripe) : Bool :=
  x.ueWait.any (fun u => decide (u.stripe = p) && decide (u.stage = .lost))

/-- Every chunk of the stripe that fails parity is read again (R301). -/
def Dev.rereads (d : Dev) (st : Nat) (p : Stripe) : Dev := d.bumpBy (pathRetriesAt st) (d.badDies st p).length

/-- The next read of the chunk meets an error on its path: the re-read passes and ends the event (R301). -/
def Dev.retried (d : Dev) (st i : Nat) (p : Stripe) : Dev :=
  let k := d.chunkKey st i p
  if d.badPath.contains k then ({ d with badPath := d.badPath.filter (fun x => decide (x ≠ k)) }).bump (pathRetriesAt st)
  else d

/-- The base die reads all eighteen chunks of a stripe: it opens their rows (R152), and reads again those that fail (R301). -/
def Dev.readStripe (d : Dev) (st : Nat) (p : Stripe) : Dev :=
  ((List.range 18).foldl (fun a i => (a.openRow st i p.bank p.row).retried st i p) d).rereads st p

/-- Repair from the mirror copy, which is read whole (R313 Table 4). -/
def Dev.mirrorRepair (d : Dev) (st : Nat) (p : Stripe) (src : MemSource) : Option Dev :=
  match d.otherCopy st p with
  | none => none
  | some m =>
    if d.stripeClean m p then
      some ((((d.readStripe m p).rewriteStripe st p ((d.stripeChunks m p).take 16)).bump (mirrorRepairsAt st)).logUe st p 0 src)
    else none

/-- The reads behind a verdict that the stripe is uncorrectable: its own chunks, and those of a mirror copy that does not
help (R302, R313). -/
def Dev.judged (d : Dev) (st : Nat) (p : Stripe) : Dev :=
  match d.otherCopy st p with
  | none => d.readStripe st p
  | some m => (d.readStripe st p).readStripe m p

/-- The mirror copy is read over the fabric under R165 on its stack: what makes that read wait (R313 Table 4). -/
def Dev.mirrorReady (d : Dev) (w : Who) (st : Nat) (p : Stripe) : Acc Unit :=
  match d.otherCopy st p with
  | none => .ok ()
  | some m =>
    if !d.clk.stackAwake.getLsbD m then .error (.asleep m)
    else if !d.mayAccess w.party m p || !d.consistent m p then .error (.stripe m p w.party)
    else d.cellsFree w (bankCells m p.bank (List.range 18))

/-- A chunk that fails twice (R302): the stripe is consistent and every other die can be read; it is reconstructed, or
repaired from its mirror (R313). -/
def Dev.mended (d : Dev) (w : Who) (st : Nat) (p : Stripe) (i : Nat) : Acc Dev :=
  if !d.consistent st p then .error (.stripe st p w.party)
  else
    match d.cellsFree w (bankCells st p.bank (List.range 18)) with
    | .error e => .error e
    | .ok _ =>
      match (d.readStripe st p).reconstruct st p i with
      | some d2 => .ok d2
      | none =>
        match d.mirrorReady w st p with
        | .error e => .error e
        | .ok _ =>
          match (d.readStripe st p).mirrorRepair st p w.src with
          | some d2 => .ok d2
          | none => if d.twinSource st p && !(d.stk st).gaveUp p then .error (.repair st p) else .error (.lost st p)

/-- A chunk read from the array (R301, R302, R313), its row opened (R152). -/
def Dev.goodChunk (d : Dev) (w : Who) (st : Nat) (p : Stripe) (i : Nat) : Acc (Dev × List Byte) :=
  let d0 := d.openRow st i p.bank p.row
  if !d.chunkBad st i p then .ok (d0.retried st i p, d.chunk st i p)
  else
    match d0.mended w st p i with
    | .error e => .error e
    | .ok d2 => .ok (d2, d2.chunk st i p)

/-! ### The stack cache (R167 to R171) -/

/-- A scan with a filter runs: its filter store is the protected ways (R205). -/
def StackSt.filtering (x : StackSt) : Bool :=
  match x.scan with
  | some c => c.filter.isSome
  | none => false

/-- The hint in force (R171; KEEP while a filter store is in use, R205). -/
def StackSt.hintFor (x : StackSt) (h : Hint) : Hint :=
  if x.bypass || (x.filtering && decide (h = .keep)) then .stream else h

/-- Ways of a set that hold lines: a filter store takes the 12 protected ones (R205). -/
def StackSt.ways (x : StackSt) : Nat := if x.filtering then 4 else 16

/-- The number of protected lines. -/
def protCount (l : List Line) : Nat := (l.filter (·.prot)).length

/-- The list without the last line that satisfies `q`: the least recently used one. -/
def dropLast (l : List Line) (q : Line → Bool) : List Line :=
  match l.reverse.find? q with
  | some v => l.filter (fun x => decide (x.tag ≠ v.tag))
  | none => l

/-- Allocate a line in a set of `ways` ways, most recently used first (R169). -/
def allocLine (l : List Line) (n : Line) (ways : Nat) : List Line :=
  let l := l.filter (fun x => decide (x.tag ≠ n.tag))
  let room :=
    if n.prot && 12 ≤ protCount l then dropLast l (·.prot)
    else if ways ≤ l.length then dropLast l (fun x => !x.prot)
    else l
  n :: room

/-- The line of an address in the cache. -/
def StackSt.lineOf (x : StackSt) (tag : Nat) : Option Line :=
  (x.cacheLines (cacheSet tag)).find? (fun l => decide (l.tag = tag))

/-- The line of an address that a read may be served from: a parity mismatch discards it (R170). -/
def StackSt.goodLine (x : StackSt) (tag : Nat) : Option Line := (x.lineOf tag).filter (fun l => !l.bad)

/-- The cache without the line. -/
def StackSt.dropLine (x : StackSt) (tag : Nat) : StackSt :=
  x.setLines (cacheSet tag) ((x.cacheLines (cacheSet tag)).filter (fun l => decide (l.tag ≠ tag)))

/-- A read hit (Table 16): KEEP protects the line, LAST discards it; the line becomes the most recently used. DESIGN CHOICE
(log 108): where 12 lines of the set are protected already, the one that KEEP protects takes the place of the least recently
used of them, as an allocation does (R169). -/
def StackSt.hit (x : StackSt) (h : Hint) (n : Line) : StackSt :=
  let l := (x.cacheLines (cacheSet n.tag)).filter (fun y => decide (y.tag ≠ n.tag))
  match x.hintFor h with
  | .stream => x
  | .keep => x.setLines (cacheSet n.tag)
      (if n.prot then n :: l else allocLine l { n with prot := true } x.ways)
  | .last => x.setLines (cacheSet n.tag) l

/-- A write as the cache sees it (Table 16): `data` is the whole line after the write. DESIGN CHOICE (log 108): under STREAM
the line keeps its place in the order of use. -/
def StackSt.writeLine (x : StackSt) (h : Hint) (tag : Nat) (data : List Byte) : StackSt :=
  let l := x.cacheLines (cacheSet tag)
  match x.hintFor h with
  | .stream =>
    x.setLines (cacheSet tag) (l.map (fun y => if y.tag = tag then { y with data := data } else y))
  | .keep => x.setLines (cacheSet tag) (allocLine l ⟨tag, true, data, false⟩ x.ways)
  | .last => x.setLines (cacheSet tag) (allocLine l ⟨tag, false, data, false⟩ x.ways)

/-! ### Loads -/

/-- A 32-byte block at a device address, from the banks (R306: it waits while the stripe is locked, in order of arrival, and a
read that starts a reconstruction needs the lock). -/
def Dev.loadBlock (d : Dev) (w : Who) (a : Nat) : Acc (Dev × List Byte) :=
  match d.decodeAddr a with
  | .at l =>
    if !d.mayAccess w.party l.st l.stripe || (d.chunkBad l.st l.die l.stripe && !d.lockable w.party l.st l.stripe) then
      .error (.stripe l.st l.stripe w.party)
    else d.goodChunk w l.st l.stripe l.die
  | _ => .error .unmapped

/-- `n` consecutive 32-byte blocks from an aligned address. -/
def Dev.loadBlocks (d : Dev) (w : Who) (a : Nat) : Nat → Acc (Dev × List Byte)
  | 0 => .ok (d, [])
  | n + 1 =>
    match d.loadBlock w a with
    | .error e => .error e
    | .ok (d1, b) =>
      match d1.loadBlocks w (a + 32) n with
      | .error e => .error e
      | .ok (d2, bs) => .ok (d2, b ++ bs)

/-- The bytes of a line as they are stored, whatever their parity. -/
def Dev.rawLine (d : Dev) (tag : Nat) : List Byte :=
  (List.range 16).flatMap (fun i =>
    match d.decodeAddr (tag * 512 + 32 * i) with
    | .at l => d.chunk l.st l.die l.stripe
    | _ => List.replicate 32 0)

/-- Blocks read once every cell that holds them can be reached (R165, R166). -/
def Dev.bankLoad (d : Dev) (w : Who) (a n : Nat) : Acc (Dev × List Byte) :=
  match d.cellsFree w (d.accessCells a (32 * n)) with
  | .error e => .error e
  | .ok _ => d.loadBlocks w a n

/-- The stop is a wait on a pennant. -/
def Stop.onPage (e : Stop) : Bool :=
  match e with
  | .page _ => true
  | _ => false

/-- What holds an access to the address up: a pennant, or a word of the pennant table that cannot be read (R445), or a stack in
self-refresh. -/
def Dev.barred (d : Dev) (w : Who) (a : Nat) : Option Stop :=
  match d.decodeAddr a with
  | .at l =>
    match (if w.engine then d.pageOf a else none) with
    | some p =>
      if d.pennantBad p then some .table
      else if !d.pennant p then some (.page p)
      else if d.clk.stackAwake.getLsbD l.st then none else some (.asleep l.st)
    | none => if d.clk.stackAwake.getLsbD l.st then none else some (.asleep l.st)
  | _ => some .unmapped

/-- Bytes within one 512-byte line that the cache does not serve: from the banks, and under KEEP the line is filled and
allocated, protected (Table 16). -/
def Dev.loadMiss (d : Dev) (w : Who) (a len : Nat) : Acc (Dev × List Byte) :=
  let st := fieldAt a 37 5
  let tag := a / 512
  let d1 := d.bump (cacheMissesAt st)
  if (d.stk st).hintFor w.hint = .keep then
    match d1.bankLoad w (tag * 512) 16 with
    | .error e => .error e
    | .ok (d2, bs) =>
      .ok (d2.modStk st (fun x => x.setLines (cacheSet tag)
        (allocLine (x.cacheLines (cacheSet tag)) ⟨tag, true, bs, false⟩ x.ways)), slice bs (a % 512) len)
  else
    match d1.bankLoad w (a / 32 * 32) ((a % 32 + len + 31) / 32) with
    | .error e => .error e
    | .ok (d2, bs) => .ok (d2, slice bs (a % 32) len)

/-- Bytes within one 512-byte line, through the stack cache (R168); a line that fails parity is discarded and refetched, a
miss (R170). DESIGN CHOICE (log 108): the refetched line stays in the cache under KEEP alone, as on any miss; `CACHE_HITS` and
`CACHE_MISSES` count reads, once for each piece of a line. -/
def Dev.linePiece (d : Dev) (w : Who) (a len : Nat) : Acc (Dev × List Byte) :=
  let st := fieldAt a 37 5
  match (d.stk st).lineOf (a / 512) with
  | some n =>
    if n.bad then (d.modStk st (fun x => x.dropLine (a / 512))).loadMiss w a len
    else .ok ((d.modStk st (fun x => x.hit w.hint n)).bump (cacheHitsAt st), slice n.data (a % 512) len)
  | none => d.loadMiss w a len

/-! ### Ring copies into memory that a step uses (R375) -/

/-- The domain whose step in flight makes the access: a macro-operation, a sequence or a normaliser of one of its regions. -/
def Dev.stepOf (d : Dev) (w : Who) : Option Nat :=
  if (w.src = .tensor && w.unit < 4) || w.src = .bau || w.src = .normaliser then
    (d.domainOf w.region).filter (fun n => (d.dom n).step.isSome)
  else none

/-- The step in flight of domain `n` has used a range. -/
def Dev.usesRange (d : Dev) (n a len : Nat) : Dev :=
  let l := Tab.read (fun _ => []) d.host.stepUse n
  if l.contains (a, len) then d else { d with host.stepUse := Tab.write (fun _ => []) d.host.stepUse n ((a, len) :: l) }

/-- The access is one of a step: its range is remembered. -/
def Dev.stepUses (d : Dev) (w : Who) (a len : Nat) : Dev :=
  match d.stepOf w with
  | some n => d.usesRange n a len
  | none => d

/-- Bytes from address `a` on as the step in flight of domain `n` meets them: what a ring has copied meanwhile is unpredictable
(R375; log 105). -/
def Dev.unsettled (d : Dev) (n a : Nat) (bs : List Byte) : List Byte :=
  match Tab.read (fun _ => []) d.host.copied n with
  | [] => bs
  | l => (bs.zip (List.range bs.length)).map (fun p =>
      match l.find? (fun x => decide (x.1 ≤ a + p.2) && decide (a + p.2 < x.1 + x.2.1)) with
      | some x => Config.freeByte x.2.2 (a + p.2)
      | none => p.1)

/-- Bytes that an access reads or writes, as `Dev.unsettled` has them where it is one of a step. -/
def Dev.stepBytes (d : Dev) (w : Who) (a : Nat) (bs : List Byte) : List Byte :=
  match d.stepOf w with
  | some n => d.unsettled n a bs
  | none => bs

/-- Bytes within one 512-byte line, once no pennant and no self-refresh is in the way. -/
def Dev.loadPiece (d : Dev) (w : Who) (a len : Nat) : Acc (Dev × List Byte) :=
  match d.barred w a with
  | some e => .error e
  | none =>
    match d.linePiece w a len with
    | .error e => .error e
    | .ok (d1, bs) => .ok (d1.stepUses w a len, d1.stepBytes w a bs)

/-- A range cut at 512-byte boundaries: pairs of address and length, at most `n` of them. -/
def pieces (a len : Nat) : Nat → List (Nat × Nat)
  | 0 => []
  | n + 1 =>
    if len = 0 then []
    else
      let k := min len (512 - a % 512)
      (a, k) :: pieces (a + k) (len - k) n

/-- The pieces of a range. -/
def piecesOf (a len : Nat) : List (Nat × Nat) := pieces a len (len / 512 + 2)

/-- Load pieces one after another. -/
def Dev.loadPieces (d : Dev) (w : Who) (ps : List (Nat × Nat)) : Acc (Dev × List Byte) :=
  match ps with
  | [] => .ok (d, [])
  | p :: r =>
    match d.loadPiece w p.1 p.2 with
    | .error e => .error e
    | .ok (d1, b) =>
      match d1.loadPieces w r with
      | .error e => .error e
      | .ok (d2, bs) => .ok (d2, b ++ bs)

/-- Load `len` bytes from a device address. -/
def Dev.load (d : Dev) (w : Who) (a len : Nat) : Acc (Dev × List Byte) := d.loadPieces w (piecesOf a len)

/-! ### Stores -/

/-- The bytes of a list replaced from place `k` on. -/
def overlay (old new : List Byte) (k : Nat) : List Byte := old.take k ++ new ++ old.drop (k + new.length)

/-- Bytes cut at chunk boundaries. -/
def chunkCuts (a : Nat) (bytes : List Byte) : Nat → List (Nat × List Byte)
  | 0 => []
  | n + 1 =>
    if bytes.isEmpty then []
    else
      let k := 32 - a % 32
      (a, bytes.take k) :: chunkCuts (a + k) (bytes.drop k) n

/-- Deltas granted and not yet applied that the check-die cell of a bank holds (R305). -/
def StackSt.buffered (x : StackSt) (bank : Nat) : Nat :=
  (x.deltas.filter (fun e => e.granted && decide (e.stripe.bank / 2 = bank / 2))).length

/-- A delta sent now would not be granted at once: others wait for the channel, whose grants go round (R154), or the buffer of
the check-die cell is full (R305). -/
def Dev.channelBusy (d : Dev) (l : Loc) : Bool :=
  (d.stk l.st).deltas.any (fun e => !e.granted) || decide (32 ≤ (d.stk l.st).buffered l.bank)

/-- What a narrow write to chunks waits for: the locks of their stripes (R306), the cells of all of them that are in a segment
together (R166, R308 step 2), the check-die cells that refresh, which hold the deltas (R305), and the delta channel. -/
def Dev.narrowReady (d : Dev) (w : Who) (ls : List Loc) : Acc Unit :=
  match ls.find? (fun l => !d.lockable w.party l.st l.stripe) with
  | some l => .error (.stripe l.st l.stripe w.party)
  | none =>
    match d.cellsFree w (ls.flatMap (fun l => bankCells l.st l.bank [l.die, 16, 17])) with
    | .error e => .error e
    | .ok _ => if ls.any d.channelBusy then .error .locked else .ok ()

/-- A part of a chunk to be written: its place, the old contents of the chunk, and the new bytes. -/
abbrev Cover := Loc × List Byte × List Byte

/-- The old contents of every covered chunk, before any is written (R308 step 2). -/
def Dev.oldChunks (d : Dev) (w : Who) (ps : List (Nat × List Byte)) : Acc (Dev × List Cover) :=
  match ps with
  | [] => .ok (d, [])
  | p :: r =>
    match d.decodeAddr p.1 with
    | .at l =>
      match d.goodChunk w l.st l.stripe l.die with
      | .error e => .error e
      | .ok (d1, old) =>
        match d1.oldChunks w r with
        | .error e => .error e
        | .ok (d2, cs) => .ok (d2, (l, old, p.2) :: cs)
    | _ => .error .unmapped

/-- The chunk after the write, and its delta (R304, R308). -/
def Cover.new (c : Cover) : List Byte := overlay c.2.1 c.2.2 (c.1.byte % 32)
def Cover.delta (c : Cover) : List Byte := xorBytes c.2.1 c.new

/-- A covered chunk written, its delta sent, granted and applied by both check dies before the write completes (R304,
R308): the channel is free, so the delta is granted at once. -/
def Dev.narrowChunk (d : Dev) (flips : Bool) (c : Cover) : Dev :=
  let l := c.1
  let d2 := (d.writeChunk l.st l.die l.stripe c.new flips).modStk l.st (fun x =>
    { x with deltaPtr := 1024, deltaSeq := x.deltaSeq + 1 })
  (d2.applyDelta l.st l.stripe l.die c.delta 16).applyDelta l.st l.stripe l.die c.delta 17

/-- The places of the parts of a write. -/
def Dev.placesOf (d : Dev) (ps : List (Nat × List Byte)) : List Loc :=
  ps.flatMap (fun p => match d.decodeAddr p.1 with
    | .at l => [l]
    | _ => [])

/-- Parts of chunks written by narrow writes: pairs of address and bytes, none across a chunk. -/
def Dev.narrowChunks (d : Dev) (w : Who) (flips : Bool) (ps : List (Nat × List Byte)) : Acc Dev :=
  match d.narrowReady w (d.placesOf ps) with
  | .error e => .error e
  | .ok _ =>
    match d.oldChunks w ps with
    | .error e => .error e
    | .ok (d1, cs) => .ok (cs.foldl (fun a c => a.narrowChunk flips c) d1)

/-- A full-stripe write (R309): it needs the lock, and waits for every covered die's cell (R166); every die opens its row. -/
def Dev.stripeStore (d : Dev) (w : Who) (flips : Bool) (st : Nat) (p : Stripe) (chunks : List (List Byte)) : Acc Dev :=
  if !d.lockable w.party st p then .error (.stripe st p w.party)
  else
    match d.cellsFree w (bankCells st p.bank (List.range 18)) with
    | .error e => .error e
    | .ok _ =>
      .ok (((List.range 18).foldl (fun a i => a.openRow st i p.bank p.row) d).putStripe st p chunks flips)

/-- A write into the banks of bytes within one line: a full-stripe write where it covers a linear stripe (R309);
otherwise narrow writes, one for each stripe that it touches (R308). `flips`: the flip mask may act on it (R323). -/
def Dev.bankStore (d : Dev) (w : Who) (flips : Bool) (a : Nat) (bytes : List Byte) : Acc Dev :=
  match d.decodeAddr a with
  | .at l =>
    if !bitAt a 46 && a % 512 = 0 && bytes.length = 512 then
      d.stripeStore w flips l.st l.stripe ((List.range 16).map (fun i => slice bytes (32 * i) 32))
    else
      let cuts := chunkCuts a bytes 17
      match d.narrowChunks w flips cuts with
      | .error e => .error e
      | .ok d1 => .ok (d1.bumpBy (narrowRmwAt l.st) (if bitAt a 46 then cuts.length else 1))
  | _ => .error .unmapped

/-- The write allocates a line that it covers only in part: the rest is filled from the banks (Table 16). -/
def Dev.needsFill (d : Dev) (w : Who) (a n : Nat) : Bool :=
  let x := d.stk (fieldAt a 37 5)
  x.hintFor w.hint ≠ .stream && (x.goodLine (a / 512)).isNone && decide (n < 512)

/-- The line of a write before it: the one that the cache holds, or the one filled from the banks. -/
def Dev.lineBefore (d : Dev) (w : Who) (a n : Nat) : Acc (Dev × List Byte) :=
  if d.needsFill w a n then d.bankLoad w (a / 512 * 512) 16
  else
    match (d.stk (fieldAt a 37 5)).goodLine (a / 512) with
    | some l => .ok (d, l.data)
    | none => .ok (d, List.replicate 512 0)

/-- The cache follows a write (Table 16): a resident line takes the new bytes, and a line that fails parity is dropped;
`base` is the line before the write. -/
def Dev.cacheStore (d : Dev) (w : Who) (a : Nat) (base bytes : List Byte) : Dev :=
  let tag := a / 512
  d.modStk (fieldAt a 37 5) (fun x =>
    (if (x.goodLine tag).isNone then x.dropLine tag else x).writeLine w.hint tag (overlay base bytes (a % 512)))

/-- A completing write into an outgoing mirror area of a mirrored domain enters the mirror stream while the devices are
attached (R292). -/
def Dev.streamOut (d : Dev) (a : Nat) (bytes : List Byte) : Dev :=
  match d.decodeAddr a with
  | .at l =>
    match d.areaAt l.st l.row with
    | some ar =>
      if ar.outMirror && d.twin.st = 2 then
        d.mirrorQueued (.write (BitVec.ofNat 48 a) bytes)
      else d
    | none => d
  | _ => d

/-- The address of the mirror copy of an address in a mirrored primary (R311). -/
def Dev.mirrorAddr (d : Dev) (a : Nat) : Option Nat :=
  match d.decodeAddr a with
  | .at l =>
    match d.areaAt l.st l.row with
    | some ar =>
      if ar.mirrored && ar.covers l.st l.row then some (a - l.st * stackSpan + ar.mirrorOf l.st * stackSpan) else none
    | none => none
  | _ => none

/-- Chunks that a write of `n` bytes from address `a` changes on a stack are seen by its dispatches (R177, R186, R212). -/
def Dev.raceRange (d : Dev) (a n : Nat) : Dev :=
  (List.range ((a % 32 + n + 31) / 32)).foldl (fun x j =>
    match x.decodeAddr (a / 32 * 32 + 32 * j) with
    | .at l => x.raceChunk l.st l.die l.stripe
    | _ => x) d

/-- The base die that duplicates a write: no pennant binds it, and it carries STREAM (R168, R311). -/
def Who.mirroring (w : Who) : Who := { w with hint := .stream, engine := false }

/-- The base die's duplicate of a write, into the mirror copy of a mirrored primary (R311): its stack must be awake, and its
stripe free. The flip mask does not act on it (R323). -/
def Dev.mirrorStore (d : Dev) (w : Who) (a : Nat) (bytes : List Byte) : Acc Dev :=
  match d.mirrorAddr a with
  | none => .ok d
  | some m =>
    match d.barred w.mirroring m with
    | some e => .error e
    | none =>
      match d.lineBefore w.mirroring m bytes.length with
      | .error e => .error e
      | .ok (d1, base) =>
        match d1.bankStore w.mirroring false m bytes with
        | .error e => .error e
        | .ok d2 => .ok ((d2.cacheStore w.mirroring m base bytes).raceRange m bytes.length)

/-- A write of bytes within one line: banks, cache, mirror copy (R311), mirror stream (R292). -/
def Dev.storePiece (d : Dev) (w : Who) (a : Nat) (bs : List Byte) : Acc Dev :=
  match d.barred w a with
  | some e => .error e
  | none =>
    let bytes := d.stepBytes w a bs
    match d.lineBefore w a bytes.length with
    | .error e => .error e
    | .ok (d0, base) =>
      match d0.bankStore w w.flips a bytes with
      | .error e => .error e
      | .ok d1 =>
        match (d1.cacheStore w a base bytes).mirrorStore w a bytes with
        | .error e => .error e
        | .ok d2 => .ok ((d2.streamOut a bytes).stepUses w a bytes.length)

/-- Store pieces one after another: each takes its share of the bytes. -/
def Dev.storePieces (d : Dev) (w : Who) (ps : List (Nat × Nat)) (bytes : List Byte) : Acc Dev :=
  match ps with
  | [] => .ok d
  | p :: r =>
    match d.storePiece w p.1 (bytes.take p.2) with
    | .error e => .error e
    | .ok d1 => d1.storePieces w r (bytes.drop p.2)

/-- Store bytes from a device address on. -/
def Dev.store (d : Dev) (w : Who) (a : Nat) (bytes : List Byte) : Acc Dev :=
  d.storePieces w (piecesOf a bytes.length) bytes

/-! ### What a stopped access leaves -/

/-- Offset of `PENNANT_WAITS` (R382). -/
def pennantWaitsAt : Nat := 0x1010

/-- An engine waits on a page's pennant: counted once (R369). -/
def Dev.pennantWait (d : Dev) (p : Nat) (counted : Bool) : Dev :=
  let d1 := { d with host.waits := if d.host.waits.contains p then d.host.waits else d.host.waits ++ [p] }
  if counted then d1 else d1.bump pennantWaitsAt

/-- An engine that has no operation of its own to mark waits on a page's pennant: its wait is counted once (R369). -/
def Dev.engineWait (d : Dev) (p : Nat) (q : Party) (counted : Bool) : Dev :=
  if counted || d.host.counted.contains (p, q) then d.pennantWait p true
  else { d with host.counted := d.host.counted ++ [(p, q)] }.pennantWait p false

/-- Offset of `ACCESS_YIELD_WAITS` (Table 17 of 05). -/
def accessWaitsAt (s : Nat) : Nat := stackBase s + 0x040

/-- What arrives at a busy cell: it is served at the yield point when it came before it (R165). -/
def BCell.await (x : BCell) (a : Wait) : BCell :=
  match x.phase with
  | .atYield _ => { x with late := x.late ++ [a] }
  | _ => { x with waiting := x.waiting ++ [a] }

/-- The party behind a wait. -/
def Wait.behind (a : Wait) : Party :=
  match a with
  | .access x => (whoOf x.who x.hint).party
  | .party p => p

/-- The access waits for a cell already, or one has come to serve it. -/
def Dev.awaits (d : Dev) (a : Wait) : Bool :=
  d.bcells.any (fun e => e.2.waiting.contains a || e.2.late.contains a) || d.served.any (fun e => decide (e.2 = a.behind))

/-- Something waits for busy cells: `ACCESS_YIELD_WAITS` counts the access once, when one of them is in a segment or at a yield
point (R165, R172). -/
def Dev.awaitCells (d : Dev) (cks : List Nat) (a : Wait) : Dev :=
  let new := cks.filter (fun ck => !((d.bcell ck).waiting.contains a || (d.bcell ck).late.contains a))
  let d1 := new.foldl (fun x ck => x.modBcell ck (fun y => y.await a)) d
  match cks.find? d.cellHeld with
  | some ck => if d.awaits a then d1 else d1.bump (accessWaitsAt (ck / 1152))
  | none => d1

/-- A party waits for a stripe, behind those that came before it; it waits for the table's room where the table is full
(R306). -/
def StackSt.queueParty (x : StackSt) (s : Stripe) (p : Party) : StackSt :=
  match x.lockOf s with
  | some l => if l.waiters.contains (.party p) then x else x.setLock s (some { l with waiters := l.waiters ++ [.party p] })
  | none =>
    if !x.settled s then x.setLock s (some ⟨s, false, false, [.party p]⟩)
    else if x.lockWait.contains (s, .party p) then x
    else { x with lockWait := x.lockWait ++ [(s, .party p)] }

/-- Record that an access waits for a stripe. -/
def Dev.ueWaits (d : Dev) (st : Nat) (u : UeWait) : Dev :=
  d.modStk st (fun x =>
    if x.ueWait.any (fun v => decide (v.stripe = u.stripe) && decide (v.src = u.src) && decide (v.region = u.region) &&
      decide (v.unit = u.unit)) then x
    else { x with ueWait := x.ueWait ++ [u] })

/-- A stripe waits for the twin: the engine keeps its lock, and the repair read goes out with the first wait (R296, R313). -/
def Dev.askTwin (d : Dev) (st : Nat) (u : UeWait) : Dev :=
  let asked := (d.stk st).ueWait.any (fun v => decide (v.stripe = u.stripe) && decide (v.stage = .repair))
  let d1 := d.ueWaits st { u with stage := .repair }
  if asked then d1
  else
    ((d1.judged st u.stripe).modStk st (fun x =>
      match x.lockOf u.stripe with
      | some l => if l.inUse then x else x.setLock u.stripe (some { l with held := true })
      | none => { x with locks := x.locks ++ [⟨u.stripe, true, false, []⟩] })).emit
        (.twinRepairRead (BitVec.ofNat 48 (d.stripeAddr st u.stripe)) 512)

/-- Forget the waits for a stripe; a row repair remembers that nothing helped its chunk until it is done. -/
def Dev.ueForget (d : Dev) (st : Nat) (p : Stripe) : Dev :=
  d.modStk st (fun x => { x with ueWait := x.ueWait.filter (fun u =>
    decide (u.stripe ≠ p) || (decide (u.src = .rowRepair) && decide (u.stage = .lost))) })

/-- Code MEM_UE (Table 1 of 19). -/
def codeMemUe : Nat := 0x42

/-- An access of a domain meets a stripe that nothing repairs (R315 Table 6): MEM_UE in the accessing region, and the
stripe is poisoned. -/
def Dev.ueFault (d : Dev) (w : Who) (st : Nat) (p : Stripe) : Dev :=
  ((((d.ueForget st p).poison st p).bump (ueCountAt st)).logUe st p 2 w.src).regionFault w.region codeMemUe w.unit

/-- What a stopped access of an operation, a sequence or an engine leaves (R165, R301, R306, R313, R315, R369, R408).
`counted`: its pennant wait has been counted. A party that waits for anything but cells gives up its places at them, so that
they go on (log 11). -/
def Dev.stopped (d : Dev) (w : Who) (counted : Bool) (e : Stop) : Dev :=
  match e with
  | .unmapped => d
  | .locked => d.unserve w.party
  | .stripe st s p => (d.leaveCells p).modStk st (fun x => x.queueParty s p)
  | .busy cks p => d.awaitCells cks (.party p)
  | .page p => (d.unserve w.party).engineWait p w.party counted
  | .table => (d.unserve w.party).chipFault codeChipParity
  | .asleep st => ((d.unserve w.party).wakeStack st).startClock (st / 4)
  | .repair st p => (d.unserve w.party).askTwin st ⟨p, w.src, w.region, w.unit, .repair⟩
  | .lost st p => ((d.unserve w.party).judged st p).ueFault w st p
  | .parity _ _ => d

end Sys2Proof.Machine
end

