-- ==== Sys2Proof/Machine/Integrity.lean ====
section
/-! DEFINITION. Memory integrity (12_memory_integrity): the lock table, narrow and full-stripe writes as steps of their
own, deltas, reconstruction, repair, scrubbing, row repair, the flip mask and the two logs. -/

namespace Sys2Proof.Machine
open Sys2Proof

/-! ### The lock table -/

/-- The lock is released: it goes to the waiters of the stripe, or the entry becomes free (R306). -/
def Dev.unlock (d : Dev) (st : Nat) (p : Stripe) : Dev :=
  d.modStk st (fun x =>
    match x.lockOf p with
    | some l => x.setLock p (if l.waiters.isEmpty then none else some { l with held := false, taken := false })
    | none => x)

/-- A source of an unrepaired stripe other than an operation: the host's narrow write is discarded (R315). -/
def Dev.hostLost (d : Dev) (st : Nat) (p : Stripe) : Dev :=
  ((((d.judged st p).ueForget st p).poison st p).bump (ueCountAt st)).logUe st p 4 .host

/-- What a stopped access of the unit leaves: the host's follows Table 6, the others their fault. -/
def Dev.stoppedFor (d : Dev) (a : Accessor) (h : Hint) (e : Stop) : Dev :=
  match a, e with
  | .host, .lost st p => d.hostLost st p
  | _, e => d.stopped (whoOf a h) false e

/-- What a host read of a stripe that nothing repairs answers: a completion with the EP bit, its data undefined (R315). -/
def Dev.hostReadLost (d : Dev) (st : Nat) (p : Stripe) (addr len : Nat) : Dev :=
  ((d.hostLost st p).drawn).emit (.accessDone .host addr (some ((List.range len).map (Config.freeByte d.free))) true)

/-- What a stopped read of the unit leaves. -/
def Dev.readStopped (d : Dev) (a : Accessor) (h : Hint) (addr len : Nat) (e : Stop) : Dev :=
  match a, e with
  | .host, .lost st p => d.hostReadLost st p addr len
  | _, e => d.stoppedFor a h e

/-- A delta enters the delta channel of the stack (R304): from cell 64 d + c, or 1,024 for the base die. -/
def StackSt.sendDelta (x : StackSt) (p : Stripe) (die cell : Nat) (bytes : List Byte) : StackSt :=
  { x with deltas := x.deltas ++ [⟨x.deltaSeq, p, die, cell, bytes, false, false, false⟩], deltaSeq := x.deltaSeq + 1 }

/-- A covered chunk written, its delta sent (R308 step 4). -/
def Dev.sendCover (d : Dev) (flips : Bool) (c : Cover) : Dev :=
  (d.writeChunk c.1.st c.1.die c.1.stripe c.new flips).modStk c.1.st (fun x =>
    x.sendDelta c.1.stripe c.1.die 1024 c.delta)

/-- The chunks of a narrow write (R308 steps 2 to 4): once the cells of all of them can be reached (R165, R166), every old
chunk is read; then each is written and its delta sent. -/
def Dev.narrowSteps (d : Dev) (w : Who) (ps : List (Nat × List Byte)) : Acc Dev :=
  match d.cellsFree w ((d.placesOf ps).flatMap (fun l => bankCells l.st l.bank [l.die])) with
  | .error e => .error e
  | .ok _ =>
    match d.oldChunks w ps with
    | .error e => .error e
    | .ok (d1, cs) => .ok (cs.foldl (fun a c => a.sendCover w.flips c) d1)

/-- What follows a write of the primary whose line was `base`: the cache, the copy in the mirror (R311), and the mirror
stream (R292). The write completes with all of them. -/
def Dev.afterWrite (d : Dev) (w : Who) (a : Nat) (base bytes : List Byte) : Acc Dev :=
  match (d.cacheStore w a base bytes).mirrorStore w a bytes with
  | .error e => .error e
  | .ok d2 => .ok (d2.streamOut a bytes)

/-- The scrubber of a stack as a unit that accesses memory, and the symbol-code engine that reconstructs for a BAU. -/
def scrubWho (st : Nat) : Who := ⟨.scrub, .stream, false, st / 2, 4 + st % 2⟩
def reconWho (st : Nat) : Who := ⟨.bau, .stream, false, st / 2, 4 + st % 2⟩
/-- The engine that copies a failing row (R319). -/
def rowWho (st : Nat) : Who := ⟨.rowRepair, .stream, false, st / 2, 4 + st % 2⟩

/-- A stripe that the scrubber finds uncorrectable (R313 to R315): its mirror, else the twin; else it is poisoned. -/
def Dev.scrubLost (d : Dev) (st : Nat) (p : Stripe) : Acc Dev :=
  match d.mirrorReady (scrubWho st) st p with
  | .error e => .error e
  | .ok _ =>
    match d.mirrorRepair st p .scrub with
    | some d2 => .ok d2
    | none =>
      if d.twinSource st p && !(d.stk st).gaveUp p then .error (.repair st p)
      else .ok ((((d.ueForget st p).poison st p).bump (ueCountAt st)).logUe st p 3 .scrub)

/-- A visit of the scrubber (R318): all 18 chunks are read under R165; the chunks that the decoder corrects are written; an
uncorrectable stripe follows R313 to R316, and a poisoned one, whose chunks are read twice like any other, is left. -/
def Dev.scrubStripe (d : Dev) (st : Nat) (p : Stripe) : Acc Dev :=
  match d.cellsFree (scrubWho st) (bankCells st p.bank (List.range 18)) with
  | .error e => .error e
  | .ok _ =>
    let bad := d.badDies st p
    let d1 := (d.readStripe st p).bump (scrubVisitsAt st)
    if d1.poisoned st p then .ok d1
    else
      match decodeStripe (d1.stripeChunks st p) bad with
      | some good =>
        let fix := (List.range 18).filter (fun i => bad.contains i || decide (good.getD i [] ≠ d1.chunk st i p))
        if fix.isEmpty then .ok d1
        else .ok ((fix.foldl (fun a i => (a.putChunk st i p (good.getD i []) 0).invalidate st p i) d1).bump
          (scrubCorrectedAt st))
      | none => d1.scrubLost st p

/-- The number of a copy engine that runs a ring entry, among the units. -/
def ringUnit : Nat := 7

/-- The waits for a stripe that no source repairs (R315 Table 6): operations and sequences fault, the scrubber poisons,
and host reads, ring entries, the image copy and a row repair meet the stripe when they are made again. -/
def Dev.loseWait (d : Dev) (st : Nat) (u : UeWait) : Dev :=
  match u.src with
  | .scrub => (((d.ueForget st u.stripe).poison st u.stripe).bump (ueCountAt st)).logUe st u.stripe 3 .scrub
  | .host | .imageCopy | .rowRepair =>
    d.modStk st (fun x => { x with ueWait := x.ueWait.map (fun v => if v = u then { v with stage := .lost } else v) })
  | .tensor =>
    if u.unit = ringUnit then
      d.modStk st (fun x => { x with ueWait := x.ueWait.map (fun v => if v = u then { v with stage := .lost } else v) })
    else d.ueFault ⟨.tensor, .stream, false, u.region, u.unit⟩ st u.stripe
  | src => d.ueFault ⟨src, .stream, false, u.region, u.unit⟩ st u.stripe

/-- The waits of a stripe. -/
def StackSt.waitsOf (x : StackSt) (p : Stripe) : List UeWait := x.ueWait.filter (fun u => decide (u.stripe = p))

/-- The stripe of an uncorrectable verdict (R313): its mirror, else the twin, else it is lost to its waits. -/
def Dev.verdict (d : Dev) (st : Nat) (p : Stripe) : Acc Dev :=
  let src := match (d.stk st).waitsOf p with
    | u :: _ => u.src
    | [] => .bau
  match d.mirrorReady (reconWho st) st p with
  | .error e => .error e
  | .ok _ =>
    match d.mirrorRepair st p src with
    | some d1 => .ok (d1.ueForget st p)
    | none =>
      if d.twinSource st p then .error (.repair st p)
      else .ok (((d.stk st).waitsOf p).foldl (fun a u => a.loseWait st u) d)

/-- Reconstruction of a stripe (R302): the chunks are read under R165; `MEM_STATUS` records the lowest die that fails
parity (log 39). Where another access has mended the stripe, those that waited for it go on. -/
def Dev.reconStripe (d : Dev) (st : Nat) (p : Stripe) : Acc Dev :=
  match d.badDies st p with
  | [] => .ok (d.ueForget st p)
  | i :: _ =>
    match d.cellsFree (reconWho st) (bankCells st p.bank (List.range 18)) with
    | .error e => .error e
    | .ok _ =>
      match (d.readStripe st p).reconstruct st p i with
      | some d2 => .ok (d2.ueForget st p)
      | none => (d.readStripe st p).verdict st p

/-- The holder's work on its stripe (R306), or what makes it wait with the lock in hand. -/
def Dev.lockWork (d : Dev) (st : Nat) (p : Stripe) (q : LockReq) : Acc Dev :=
  match q with
  | .narrow a h addr bytes =>
    match d.lineBefore (whoOf a h) addr bytes.length with
    | .error e => .error e
    | .ok (d0, base) =>
      match d0.narrowSteps (whoOf a h) (chunkCuts addr bytes 17) with
      | .error e => .error e
      | .ok d1 => (d1.bump (narrowRmwAt st)).afterWrite (whoOf a h) addr base bytes
  | .full a h addr bytes =>
    match d.cellsFree (whoOf a h) (bankCells st p.bank (List.range 18)) with
    | .error e => .error e
    | .ok _ =>
      (((List.range 18).foldl (fun x i => x.openRow st i p.bank p.row) d).putStripe st p
        ((List.range 16).map (fun i => slice bytes (32 * i) 32)) (whoOf a h).flips).afterWrite (whoOf a h) addr [] bytes
  | .read a h addr len =>
    match d.loadPiece (whoOf a h) addr len with
    | .error e => .error e
    | .ok (d1, bs) => .ok (d1.emit (.accessDone a addr (some bs) false))
  | .recon => d.reconStripe st p
  | .scrub => d.scrubStripe st p
  | .party _ => .ok d

/-- What the holder leaves that cannot go on: the host, an operation, the scrubber, a reconstruction. -/
def Dev.lockStopped (d : Dev) (st : Nat) (q : LockReq) (e : Stop) : Dev :=
  match q with
  | .narrow a h _ _ | .full a h _ _ => d.stoppedFor a h e
  | .read a h addr len => d.readStopped a h addr len e
  | .recon => d.stopped (reconWho st) false e
  | .scrub => d.stopped (scrubWho st) false e
  | .party _ => d

/-- The party of a requester. -/
def LockReq.behind (q : LockReq) (st : Nat) : Party :=
  match q with
  | .narrow a h _ _ | .full a h _ _ | .read a h _ _ => (whoOf a h).party
  | .recon => (reconWho st).party
  | .scrub => (scrubWho st).party
  | .party p => p

/-- The requester has to wait and goes on holding its place: for cells, a stripe elsewhere, a stack that wakes, or the twin
(R165, R306, R313). -/
def Stop.waits (e : Stop) : Bool :=
  match e with
  | .lost _ _ | .unmapped | .table | .parity _ _ => false
  | _ => true

/-- The requester `q` of the stripe's entry `l` does its work (R306). A narrow write keeps the lock until its deltas are
applied; every other holder releases it; one that must wait goes on holding the lock. A read of the holder is not held by its
own lock. -/
def Dev.serveLock (d : Dev) (st : Nat) (p : Stripe) (l : Lock) (q : LockReq) : Dev :=
  let rest := l.waiters.erase q
  match (d.modStk st (fun x => x.setLock p none)).lockWork st p q with
  | .error e =>
    if e.waits then
      (d.modStk st (fun x => x.setLock p (some { l with taken := true, waiters := q :: rest }))).lockStopped st q e
    else ((d.modStk st (fun x => x.setLock p (some { l with held := true, waiters := rest }))).lockStopped st q e).unlock st p
  | .ok d1 =>
    let d2 := (d1.unserve (q.behind st)).modStk st (fun x => x.setLock p (some ⟨p, true, false, rest⟩))
    match q with
    | .narrow _ _ _ _ => if d2.consistent st p then d2.unlock st p else d2
    | _ => d2.unlock st p

/-- The requester whose turn it is: the holder that goes on, else the oldest one; a party that cannot make its access now does
not hold the others. -/
def Dev.nextHolder (d : Dev) (l : Lock) : Option LockReq :=
  if l.taken then l.waiters.head?
  else (l.waiters.dropWhile (fun q => q.isParty && !d.goesBefore q)).head?

/-- The lock of a free, consistent stripe goes to the requester whose turn it is (R306); a party takes it with its access. -/
def Dev.serveStripe (d : Dev) (st : Nat) (p : Stripe) : Dev :=
  match (d.stk st).lockOf p with
  | some l =>
    match d.nextHolder l with
    | some (.party _) => d
    | some q => if l.held || !d.consistent st p then d else d.serveLock st p l q
    | none => d
  | none => d

/-- A request for a stripe's lock: behind those that wait; into the table's queue when it is full, or others wait there; served
at once when the stripe is free and consistent (R306). -/
def Dev.requestLock (d : Dev) (st : Nat) (p : Stripe) (q : LockReq) : Dev :=
  match (d.stk st).lockOf p with
  | some l => (d.modStk st (fun x => x.setLock p (some { l with waiters := l.waiters ++ [q] }))).serveStripe st p
  | none =>
    if lockEntries ≤ (d.stk st).occupied || !(d.stk st).lockWait.isEmpty then
      d.modStk st (fun x => { x with lockWait := x.lockWait ++ [(p, q)] })
    else (d.modStk st (fun x => x.setLock p (some ⟨p, false, false, [q]⟩))).serveStripe st p

/-- The oldest requester that found the table full takes an entry while it has room; a party takes its entry with its access,
and does not hold the others while it cannot make it. -/
def Dev.admitLocks (d : Dev) (st : Nat) : Dev :=
  match (d.stk st).lockWait.dropWhile (fun e => e.2.isParty && !d.goesBefore e.2) with
  | [] => d
  | (p, q) :: _ =>
    if q.isParty || lockEntries ≤ (d.stk st).occupied then d
    else
      (d.modStk st (fun x =>
        let y := { x with lockWait := x.lockWait.erase (p, q) }
        match y.lockOf p with
        | some l => y.setLock p (some { l with waiters := l.waiters ++ [q] })
        | none => y.setLock p (some ⟨p, false, false, [q]⟩))).serveStripe st p

/-- STRIPE_LOCK_GRANT (R306). -/
def Dev.grantLock (d : Dev) (st : Nat) (p : Stripe) : Dev := (d.serveStripe st p).admitLocks st

/-! ### Deltas (R304, R305, R154) -/

/-- The next requester of the delta channel: increasing 64 d + c, beginning after the one granted last. -/
def StackSt.nextDelta (x : StackSt) : Option Delta :=
  let may := x.deltas.filter (fun e => !e.granted && decide (x.buffered e.stripe.bank < 32))
  may.foldl (fun best e =>
    match best with
    | none => some e
    | some b =>
      if (e.cell + 1025 - x.deltaPtr - 1) % 1025 < (b.cell + 1025 - x.deltaPtr - 1) % 1025 then some e else some b) none

/-- DELTA_GRANT. -/
def Dev.deltaGrant (d : Dev) (st : Nat) : Dev :=
  match (d.stk st).nextDelta with
  | none => d
  | some e => d.modStk st (fun x =>
      { x with deltas := x.deltas.erase e ++ [{ e with granted := true }], deltaPtr := e.cell })

/-- The delta that check die 16 + `j` applies next: the oldest granted one that it has not applied and whose check-die cell
does not refresh, which holds the deltas of that cell alone (R305). -/
def Dev.dueDelta (d : Dev) (st j : Nat) : Option Delta :=
  (d.stk st).deltas.find? (fun e => e.granted && !(if j = 0 then e.doneP else e.doneQ) &&
    !(d.bcell (cellKey st (16 + j) (e.stripe.bank / 2))).refreshing)

/-- A delta after check die 16 + `j` has applied it. -/
def Delta.done (e : Delta) (j : Nat) : Delta := if j = 0 then { e with doneP := true } else { e with doneQ := true }

/-- A held lock whose deltas are all applied is released (R308 step 5). -/
def Dev.settle (d : Dev) (st : Nat) (p : Stripe) : Dev :=
  match (d.stk st).lockOf p with
  | some l => if l.held && d.consistent st p then (d.unlock st p).admitLocks st else d
  | none => d

/-- DELTA_APPLY by check die 16 + `j` (R304, R305). -/
def Dev.deltaApply (d : Dev) (st j : Nat) : Dev :=
  match d.dueDelta st j with
  | none => d
  | some e =>
    let d1 := d.applyDelta st e.stripe e.die e.bytes (16 + j)
    let e' := e.done j
    let d2 := d1.modStk st (fun x =>
      { x with deltas := if e'.doneP && e'.doneQ then x.deltas.filter (fun y => decide (y.num ≠ e.num))
                         else x.deltas.map (fun y => if y.num = e.num then e' else y) })
    d2.settle st e.stripe

/-! ### Bank accesses (R165, R168) -/

/-- A waiting access is made: a read through the cache, a write under its stripe's lock. -/
def Dev.performAccess (d : Dev) (a : Access) : Dev :=
  match d.decodeAddr a.addr with
  | .at l =>
    match a.wdata with
    | none =>
      match d.loadPiece (whoOf a.who a.hint) a.addr a.len with
      | .ok (d1, bs) =>
        (d1.unserve (whoOf a.who a.hint).party).emit (.accessDone a.who a.addr (some bs) false)
      | .error (.stripe st s q) =>
        if st = l.st && s = l.stripe then d.requestLock st s (.read a.who a.hint a.addr a.len)
        else d.stoppedFor a.who a.hint (.stripe st s q)
      | .error (.busy cks _) => d.awaitCells cks (.access a)
      | .error e => d.readStopped a.who a.hint a.addr a.len e
    | some bytes =>
      match d.barred (whoOf a.who a.hint) a.addr with
      | some e => d.stoppedFor a.who a.hint e
      | none =>
        if !bitAt a.addr 46 && a.addr % 512 = 0 && bytes.length = 512 then
          d.requestLock l.st l.stripe (.full a.who a.hint a.addr bytes)
        else d.requestLock l.st l.stripe (.narrow a.who a.hint a.addr bytes)
  | _ => d

/-! ### Rows (R319 to R321) -/

/-- Spares of a bank that no remap uses and that are not retired (R319). -/
def Dev.spareFree (d : Dev) (st die bank k : Nat) : Bool :=
  let x := d.stk st
  let fuses := (Tab.read (fun _ => []) d.fuses.remaps st).filter (fun e => decide (e.die = die) && decide (e.bank = bank))
  !Tab.read (fun _ => false) x.retired ((die * 128 + bank) * 64 + k) &&
  !x.remap.any (fun e => decide (e.1 / 20480 = die * 128 + bank) && decide (e.2 = some k)) &&
  !fuses.any (fun e => (!e.retireOnly && decide (e.spare = k)) || decide (e.retired = some k))

/-- Fresh spares of a bank, lowest first (log 20). -/
def Dev.spares (d : Dev) (st die bank : Nat) : List Nat := (List.range 64).filter (d.spareFree st die bank)

/-- An entry in the `REMAP_LOG` format (Table 8). -/
def remapWord (die bank row spare : Nat) (retired : Option Nat) : BitVec 64 :=
  BitVec.ofNat 64 (2 ^ 63 + (match retired with
    | some r => 2 ^ 39 + r * 2 ^ 33
    | none => 0) + spare * 2 ^ 27 + row * 2 ^ 12 + bank * 2 ^ 5 + die)

/-- Append to the 64-entry remap log. -/
def StackSt.logRemap (x : StackSt) (w : BitVec 64) : StackSt :=
  if x.remapLog.length < 64 then { x with remapLog := x.remapLog ++ [w] } else { x with remapLost := true }

/-- Append to the 16-entry retirement log. -/
def StackSt.logRetire (x : StackSt) (w : BitVec 64) : StackSt :=
  if x.retireLog.length < 16 then { x with retireLog := x.retireLog ++ [w] } else { x with retireLost := true }

/-- Point a row at a spare; the spare it leaves is retired (R320). -/
def Dev.pointRow (d : Dev) (st die bank row spare : Nat) : Dev :=
  let old := d.spareOf st die bank row
  d.modStk st (fun x => { x with
    remap := Tab.write (fun _ => none) x.remap (rowKey die bank row) (some spare)
    retired := match old with
      | some o => Tab.write (fun _ => false) x.retired ((die * 128 + bank) * 64 + o) true
      | none => x.retired })

/-- A chunk of a failing row before it is copied into the spare (R319 step 2): one that fails is reconstructed, or
repaired from its mirror or from the twin (R302, R313); one that nothing repairs is copied with its parity as it stands
(log 91). -/
def Dev.rescue (d : Dev) (st die : Nat) (p : Stripe) : Acc Dev :=
  match d.goodChunk (rowWho st) st p die with
  | .ok (d1, _) => .ok d1
  | .error (.lost _ _) => .ok (d.judged st p)
  | .error e => .error e

/-- The chunks of a failing row, one after another. -/
def Dev.rescueRow (d : Dev) (st die : Nat) (ps : List Stripe) : Acc Dev :=
  match ps with
  | [] => .ok d
  | p :: r =>
    match d.rescue st die p with
    | .error e => .error e
    | .ok d1 => d1.rescueRow st die r

/-- The first granule of the park pool in an area (R340; log 21): areas in order, stacks rising, bands rising. -/
def areaGranules (a : Area) : Nat := ((List.range 24).filter (fun s => a.onStacks.getLsbD s)).length * a.count * 32

/-- Park pool areas in area order. -/
def Dev.parkAreas (d : Dev) : List Area := d.img.str.areas.filter (fun a => decide (a.kind = 3))

/-- The granule that holds byte `o` of band `row` of stack `st` (R340; log 21). -/
def granuleIn (as : List Area) (st row o : Nat) (base : Nat) : Option Nat :=
  match as with
  | [] => none
  | a :: r =>
    if a.covers st row then
      let k := ((List.range 24).filter (fun s => a.onStacks.getLsbD s && decide (s < st))).length
      some (base + (k * a.count + (row - a.first)) * 32 + o / 131072)
    else granuleIn r st row o (base + areaGranules a)

/-- A granule leaves the pool: `PARK_TOTAL` falls by one (R321). -/
def Dev.withdrawGranule (d : Dev) (g : Nat) : Dev :=
  if d.serve.granulesGone.contains g then d else { d with serve.granulesGone := insertNat g d.serve.granulesGone }

/-- The affected range of a row that stays in place (R321): logged, PAGE_RETIRE raised, park granules withdrawn. A row of a
check die, which no address of the bank view names, is logged at data die 0 (log 92). -/
def Dev.retireRange (d : Dev) (st die bank row : Nat) : Dev :=
  let linear := match d.areaAt st row with
    | some a => !a.bankView
    | none => false
  let addr := if linear then st * stackSpan + row * 2 ^ 22 + bank * 2 ^ 15
    else bankViewBase + st * stackSpan + (if die < 16 then die else 0) * 2 ^ 33 + bank * 2 ^ 26 + row * 2 ^ 11
  let d1 := (d.modStk st (fun x =>
    x.logRetire (BitVec.ofNat 64 (2 ^ 63 + (if linear then 2 ^ 48 else 0) + addr)))).raise 9
  match granuleIn d1.parkAreas st row (bank * 2 ^ 15) 0 with
  | some g => d1.withdrawGranule g
  | none => d1

/-- The stripes of a row. -/
def rowStripes (bank row : Nat) : List Stripe := (List.range 64).map (fun c => ⟨bank, row, c⟩)

/-- The row moves to the spare `k`, its chunks with it (R319 steps 2 to 4). -/
def Dev.moveRow (d : Dev) (st die bank row k : Nat) : Dev :=
  let old := d.spareOf st die bank row
  let ps := rowStripes bank row
  let saved := ps.map (fun p => (d.chunk st die p, d.xparity (d.chunkKey st die p)))
  let d1 := (ps.zip saved).foldl (fun a q => a.putChunk st die q.1 q.2.1 q.2.2) (d.pointRow st die bank row k)
  (d1.modStk st (fun x => x.logRemap (remapWord die bank row k old))).bump (fieldRemapsAt st)

/-- The repair locks the 64 stripes of its row (R319 step 1). -/
def StackSt.lockRow (x : StackSt) (q : Nat × Nat × Nat) : StackSt :=
  (rowStripes q.2.1 q.2.2).foldl (fun y p =>
    y.setLock p (some (match y.lockOf p with
      | some l => { l with held := true }
      | none => ⟨p, true, false, []⟩))) { x with rowHeld := some q }

/-- The repair of a row is over: its stripes are free (R319 step 4), and what their chunks met is forgotten. -/
def Dev.freeRow (d : Dev) (st : Nat) (q : Nat × Nat × Nat) : Dev :=
  let d1 := d.modStk st (fun x => { x with
    rowHeld := none
    rowWait := x.rowWait.erase q
    ueWait := x.ueWait.filter (fun u => decide (u.src ≠ .rowRepair)) })
  ((rowStripes q.2.1 q.2.2).foldl (fun a p => a.unlock st p) (d1.unserve (rowWho st).party)).admitLocks st

/-- The 64 stripes of a row can be locked together: 64 entries are free, and each stripe is free and consistent (R319). -/
def Dev.rowLockable (d : Dev) (st bank row : Nat) : Bool :=
  (d.stk st).rowHeld.isNone && decide ((d.stk st).occupied ≤ 32) &&
    (rowStripes bank row).all (fun p => !d.stripeLocked st p && d.consistent st p)

/-- The copy of a row whose stripes are locked, into the spare `k` (R319 steps 2 to 4), or what makes it wait with the locks in
hand: the cells that it reads, or the twin. -/
def Dev.copyRow (d : Dev) (st die bank row k : Nat) : Acc Dev :=
  match d.cellsFree (rowWho st) (bankCells st bank [die]) with
  | .error e => .error e
  | .ok _ =>
    match d.rescueRow st die (rowStripes bank row) with
    | .error e => .error e
    | .ok d1 => .ok (d1.moveRow st die bank row k)

/-- The repair of a row whose stripes are locked (R319 to R321). -/
def Dev.rowWork (d : Dev) (st : Nat) (q : Nat × Nat × Nat) : Dev :=
  match d.spares st q.1 q.2.1 with
  | [] => (d.retireRange st q.1 q.2.1 q.2.2).freeRow st q
  | k :: _ =>
    match d.copyRow st q.1 q.2.1 q.2.2 k with
    | .ok d1 => d1.freeRow st q
    | .error e => d.stopped (rowWho st) false e

/-- The repair of a row goes on: with the locks in hand, or when they can be taken (R319). -/
def Dev.rowRepair (d : Dev) (st : Nat) (q : Nat × Nat × Nat) : Dev :=
  if (d.stk st).rowHeld = some q then d.rowWork st q
  else if d.rowLockable st q.2.1 q.2.2 then (d.modStk st (fun x => x.lockRow q)).rowWork st q
  else d

/-- The rows that wait for their repair, one after another. -/
def Dev.tryRows (d : Dev) (st : Nat) (l : List (Nat × Nat × Nat)) : Dev := l.foldl (fun a q => a.rowRepair st q) d

/-- ROW_REPAIR (R319): the row waits for its repair until the engine can make it. -/
def Dev.askRow (d : Dev) (st die bank row : Nat) : Dev :=
  let q := (die, bank, row)
  let d1 := d.modStk st (fun x => if x.rowWait.contains q then x else { x with rowWait := x.rowWait ++ [q] })
  d1.rowRepair st q

/-- A read of `REMAP_LOG`: the oldest entry and OVERFLOW, both cleared by the read (Table 8). -/
def StackSt.remapRead (x : StackSt) : BitVec 64 × StackSt :=
  let o : BitVec 64 := if x.remapLost then 0x4000000000000000 else 0
  match x.remapLog with
  | [] => (o, { x with remapLost := false })
  | w :: r => (w ||| o, { x with remapLog := r, remapLost := false })

/-- A read of `PAGE_RETIRE_LOG`. -/
def StackSt.retireRead (x : StackSt) : BitVec 64 × StackSt :=
  let o : BitVec 64 := if x.retireLost then 0x4000000000000000 else 0
  match x.retireLog with
  | [] => (o, { x with retireLost := false })
  | w :: r => (w ||| o, { x with retireLog := r, retireLost := false })

/-! ### Registers -/

/-- A write of `FLIP_CTL` (R323): DIE is ignored while armed or above 17; ARM sets by a 1. -/
def StackSt.flipWrite (x : StackSt) (v : Nat) : StackSt :=
  { x with
    parityAfter := bitAt v 8
    flipDie := if x.flipArm || 17 < fieldAt v 0 5 then x.flipDie else fieldAt v 0 5
    flipArm := x.flipArm || bitAt v 31 }

/-- A write of `FLIP_MASK` n, ignored while armed. -/
def StackSt.maskWrite (x : StackSt) (n : Nat) (v : Word) : StackSt :=
  if x.flipArm then x else { x with flipMask := Tab.write (fun _ => 0) x.flipMask n v }

/-- A write of `SCRUB_CTL` (Table 8). -/
def StackSt.scrubWrite (x : StackSt) (v : Nat) : StackSt :=
  { x with
    scrubEn := bitAt v 31
    scrubInterval := if fieldAt v 0 24 < 25 then x.scrubInterval else fieldAt v 0 24 }

/-! ### Meanings -/

/-- RECONSTRUCTION (R302): the stripe's lock is taken, and the failing chunk is written back; a stripe that a waiting access
found bad and another has mended since is given back at once. -/
def execReconstruction (st : Stack) (bank : Fin 128) (row : Fin 20480) (chunk : Fin 64) (s : State) : Result State :=
  s.always fun d => d.when (!(d.badDies st.val ⟨bank.val, row.val, chunk.val⟩).isEmpty ||
      !((d.stk st.val).waitsOf ⟨bank.val, row.val, chunk.val⟩).isEmpty) fun d =>
    d.requestLock st.val ⟨bank.val, row.val, chunk.val⟩ .recon

/-- DELTA_GRANT (R304, R154). -/
def execDeltaGrant (st : Stack) (s : State) : Result State := s.always fun d => d.deltaGrant st.val

/-- DELTA_APPLY (R305). -/
def execDeltaApply (st : Stack) (check : Fin 2) (s : State) : Result State :=
  s.always fun d => d.deltaApply st.val check.val

/-- STRIPE_LOCK_GRANT (R306): the stripe's oldest waiter, then the requesters that found the table full, then the rows that
wait for the locks of their stripes (R319). -/
def Dev.lockGrant (d : Dev) (st : Nat) (p : Stripe) : Dev :=
  let d1 := d.grantLock st p
  d1.tryRows st (d1.stk st).rowWait
/-- STRIPE_LOCK_GRANT (R306). -/
def execStripeLockGrant (st : Stack) (bank : Fin 128) (row : Fin 20480) (chunk : Fin 64) (s : State) : Result State :=
  s.always fun d => d.lockGrant st.val ⟨bank.val, row.val, chunk.val⟩

/-- NARROW_WRITE (R308). -/
def execNarrowWrite (who : Accessor) (addr : BitVec 48) (bytes : List Byte) (s : State) : Result State :=
  s.checked (wellFormed (.narrowWrite who addr bytes)) fun d =>
    match d.decodeAddr addr.toNat with
    | .at l =>
      match d.barred (whoOf who .stream) addr.toNat with
      | some e => d.stoppedFor who .stream e
      | none => d.requestLock l.st l.stripe (.narrow who .stream addr.toNat bytes)
    | _ => d

/-- FULL_STRIPE_WRITE (R309). -/
def execFullStripeWrite (who : Accessor) (addr : BitVec 48) (bytes : List Byte) (s : State) : Result State :=
  s.checked (wellFormed (.fullStripeWrite who addr bytes)) fun d =>
    match d.decodeAddr addr.toNat with
    | .at l =>
      match d.barred (whoOf who .stream) addr.toNat with
      | some e => d.stoppedFor who .stream e
      | none => d.requestLock l.st l.stripe (.full who .stream addr.toNat bytes)
    | _ => d

/-- The stripe is uncorrectable as it stands (R299). -/
def Dev.uncorrectable (d : Dev) (st : Nat) (p : Stripe) : Bool :=
  (decodeStripe (d.stripeChunks st p) (d.badDies st p)).isNone

/-- The repair of a stripe (R313): from the mirror; else from what the twin sent; else the stripe is lost to its waits. -/
def Dev.repaired (d : Dev) (st : Nat) (p : Stripe) (twin : Option (List Byte)) : Dev :=
  let ws := (d.stk st).waitsOf p
  let src := match ws with
    | u :: _ => u.src
    | [] => .bau
  if !d.uncorrectable st p then d.ueForget st p
  else
    match d.mirrorRepair st p src with
    | some d1 => d1.ueForget st p
    | none =>
      match twin with
      | some bytes => if d.twinSource st p then (d.twinRepair st p bytes src).ueForget st p
          else ws.foldl (fun a u => a.loseWait st u) d
      | none => ws.foldl (fun a u => a.loseWait st u) d

/-- The engine releases the stripe that it repaired, unless the repair of its row holds it (R319). -/
def Dev.unlockRepaired (d : Dev) (st : Nat) (p : Stripe) : Dev :=
  if (d.stk st).rowHeld.any (fun q => decide (q.2 = (p.bank, p.row))) then d else d.unlock st p

/-- STRIPE_REPAIR (R313): the copy is read and the full stripe written once every cell that they need can be reached; then
the engine releases the lock that it kept. -/
def Dev.stripeRepair (d : Dev) (st : Nat) (p : Stripe) (twin : Option (List Byte)) : Dev :=
  if !d.consistent st p then d
  else
    match Acc.andThen (d.mirrorReady (reconWho st) st p)
        (fun _ => d.cellsFree (reconWho st) (bankCells st p.bank (List.range 18))) with
    | .error e => d.stopped (reconWho st) false e
    | .ok _ => (((d.unserve (reconWho st).party).repaired st p twin).unlockRepaired st p).admitLocks st

/-- STRIPE_REPAIR (R313). -/
def execStripeRepair (st : Stack) (bank : Fin 128) (row : Fin 20480) (chunk : Fin 64) (twin : Option (List Byte))
    (s : State) : Result State :=
  s.checked (wellFormed (.stripeRepair st bank row chunk twin)) fun d => d.stripeRepair st.val ⟨bank.val, row.val, chunk.val⟩ twin

/-- SCRUB_VISIT (R317, R318): the stripe at SCRUB_POS, and the position moves on. -/
def Dev.scrubVisit (d : Dev) (st : Nat) : Dev :=
  let i := (d.stk st).scrubPos
  let p : Stripe := ⟨i / 64 % 128, i / 8192, i % 64⟩
  (d.modStk st (fun x => { x with scrubPos := (i + 1) % 167772160 })).requestLock st p .scrub

/-- SCRUB_VISIT: while enabled, outside self-refresh and after the fill. -/
def execScrubVisit (st : Stack) (s : State) : Result State :=
  s.always fun d => d.when (d.filled && d.stackPresent st.val && (d.stk st.val).scrubEn &&
    d.clk.stackAwake.getLsbD st.val) fun d => d.scrubVisit st.val

/-- ROW_REPAIR (R319): the row of the die has failed its read-back. -/
def execRowRepair (st : Stack) (die : Die) (bank : Fin 128) (row : Fin 20480) (s : State) : Result State :=
  s.always fun d => d.when (d.stackPresent st.val && d.filled) fun d => d.askRow st.val die.val bank.val row.val

/-- FLIP_ARM (R323): a write of `FLIP_CTL` with ARM set. -/
def execFlipArm (st : Stack) (v : Word) (s : State) : Result State :=
  s.checked (wellFormed (.flipArm st v)) fun d => d.inOrder (.flipArm st v) fun d =>
    d.when (d.hostReady && d.stackPresent st.val) fun d =>
    d.modStk st.val (fun x => x.flipWrite v.toNat)

/-- Offsets of the two logs (Table 7). -/
def remapLogAt (s : Nat) : Nat := stackBase s + 0x0D8
def retireLogAt (s : Nat) : Nat := stackBase s + 0x0E0

/-- REMAP_LOG_READ (R321). -/
def execRemapLogRead (st : Stack) (s : State) : Result State :=
  s.hosted (.remapLogRead st) fun d => d.when (d.reaches .host && d.stackPresent st.val) fun d =>
    let q := (d.stk st.val).remapRead
    (d.setStk st.val q.2).emit (.readDone 0 (remapLogAt st.val) (bytesOf q.1.toNat 8) false)

/-- PAGE_RETIRE_LOG_READ (R321). -/
def execPageRetireLogRead (st : Stack) (s : State) : Result State :=
  s.hosted (.pageRetireLogRead st) fun d => d.when (d.reaches .host && d.stackPresent st.val) fun d =>
    let q := (d.stk st.val).retireRead
    (d.setStk st.val q.2).emit (.readDone 0 (retireLogAt st.val) (bytesOf q.1.toNat 8) false)

end Sys2Proof.Machine
end

