-- ==== Sys2Proof/Machine/Security.lean ====
section
/-! DEFINITION. Firmware authentication and attestation (20_security): the image and its verification, the flash, the
measurement log, SPDM and the report. -/

namespace Sys2Proof.Machine
open Sys2Proof

/-! ### The firmware image (Table 1) -/

/-- Largest image: 8 MiB (R459). -/
def fwMax : Nat := 0x800000

/-- Reserved bytes of the header, and reserved bits beside its fields, are zero. -/
def fwReservedOk (h : List Byte) : Bool :=
  decide (fieldOf h 0x006 2 = 0) && decide (fieldAt (fieldOf h 0x00C 4) 6 2 = 0) &&
  decide (fieldOf h 0x00C 4 / 512 = 0) && decide (fieldOf h 0x014 4 / 16 = 0) && decide (fieldOf h 0x018 4 / 256 = 0) &&
  decide (fieldOf h 0x01C 4 = 0) && (slice h 0x0BC 0x44).all (fun b => decide (b = 0)) &&
  (slice h 0x850 0x7B0).all (fun b => decide (b = 0))

/-- The firmware digest: SHA-384 of header bytes 0x000 to 0x0FF and the body (R459). -/
def fwDigestOf (img : List Byte) : List Byte :=
  sha384 (slice img 0 0x100 ++ slice img 0x1000 (fieldOf img 0x010 4))

/-- Digest that a key slot holds (R460). -/
def Dev.eccSlot (d : Dev) (k : Nat) : List Byte := Tab.read (fun _ => List.replicate 48 0) d.fuses.eccSlots k
def Dev.lmsSlot (d : Dev) (k : Nat) : List Byte := Tab.read (fun _ => List.replicate 48 0) d.fuses.lmsSlots k

/-- Key slots that an image uses. -/
def fwEccKey (img : List Byte) : Nat := fieldAt (fieldOf img 0x014 4) 0 2
def fwLmsKey (img : List Byte) : Nat := fieldAt (fieldOf img 0x014 4) 2 2
def fwSvn (img : List Byte) : Nat := fieldAt (fieldOf img 0x00C 4) 0 6

/-- The first failing check of Table 3 on an image of which `len` bytes were read or pushed: AUTH_ERR, 0 for none. -/
def Dev.fwCheck (d : Dev) (img : List Byte) (len : Nat) : Nat :=
  let body := fieldOf img 0x010 4
  let e := fwEccKey img
  let l := fwLmsKey img
  let dg := fwDigestOf img
  if fieldOf img 0 4 ≠ 0x4D57464B || fieldOf img 4 2 ≠ 0x0100 || !fwReservedOk img then 1
  else if body % 16 ≠ 0 || body < 16 || fwMax - 4096 < body || len < 4096 + body || fwMax < len then 2
  else if sha384 (slice img 0x020 96) ≠ d.eccSlot e || d.fuses.eccRevoked.getLsbD e then 3
  else if sha384 (slice img 0x080 60) ≠ d.lmsSlot l || d.fuses.lmsRevoked.getLsbD l then 4
  else if fwSvn img < d.fuses.svn then 5
  else if bitAt (fieldOf img 0x018 4) e || bitAt (fieldOf img 0x018 4) (4 + l) then 8
  else if !ecdsaOk (slice img 0x020 96) dg (slice img 0x100 96) then 6
  else if !lmsOk (slice img 0x080 60) dg (slice img 0x160 1776) then 7
  else 0

/-! ### Fuses (R462) -/

/-- One fuse bit to blow. -/
inductive FuseBit where
  | ecc (k : Nat)
  | lms (k : Nat)
  | svn
  deriving DecidableEq, Repr

/-- The bits that a verified image blows, in order: revocations not yet blown, then the security version. -/
def Dev.fuseWork (d : Dev) (img : List Byte) : List FuseBit :=
  let r := fieldOf img 0x018 4
  ((List.range 4).filter (fun k => bitAt r k && !d.fuses.eccRevoked.getLsbD k)).map .ecc ++
  ((List.range 4).filter (fun k => bitAt r (4 + k) && !d.fuses.lmsRevoked.getLsbD k)).map .lms ++
  (if bitAt (fieldOf img 0x00C 4) 8 then List.replicate (fwSvn img - d.fuses.svn) .svn else [])

/-- Blow one bit. -/
def Dev.blow (d : Dev) (b : FuseBit) : Dev :=
  match b with
  | .ecc k => { d with fuses.eccRevoked := d.fuses.eccRevoked ||| BitVec.ofNat 4 (2 ^ k) }
  | .lms k => { d with fuses.lmsRevoked := d.fuses.lmsRevoked ||| BitVec.ofNat 4 (2 ^ k) }
  | .svn => { d with fuses.svn := d.fuses.svn + 1 }

/-! ### The measurement log (R465, R466) -/

/-- The 64 bytes of an entry (Table 4). -/
def Meas.bytes (m : Meas) : List Byte :=
  [BitVec.ofNat 8 m.type, BitVec.ofNat 8 m.domain, BitVec.ofNat 8 m.bundle, 0] ++ bytesOf m.info.toNat 4 ++
    [BitVec.ofNat 8 m.svn] ++ List.replicate 7 0 ++ m.digest

/-- Append an entry: stored below 4,096, and always covered by the running digest (R466). -/
def Sec.append (x : Sec) (m : Meas) : Sec :=
  let x := { x with running := sha384 (x.running ++ m.bytes) }
  if x.log.length < 4096 then { x with log := x.log ++ [m] } else { x with overflow := true }

/-- The log restarts (R466). -/
def Sec.restartLog (x : Sec) : Sec :=
  { x with log := [], running := List.replicate 48 0, overflow := false, latch := List.replicate 48 0 }

/-- Entries 0 and 1: ROM and firmware (R465). -/
def Sec.bootEntries (x : Sec) : Sec :=
  (x.append ⟨1, 0, 0, Config.romVersion, 0, (List.range 48).map Config.romDigest⟩).append
    ⟨2, 0, 0, x.fwVersion, x.fwSvn, x.fwDigest⟩

/-! ### Verification at boot (R461, R462) -/

/-- A verification that fails: the chip stays in BOOT with BOOT_AUTH (R434, R461). -/
def Dev.authFail (d : Dev) (err : Nat) : Dev := { d with sec.authErr := err, chip.startErr := 1 }

/-- The links train, and the tensor PLLs of the present dies start; while the reference is lost they wait for it (R399, R412,
R433). -/
def Dev.startTraining (d : Dev) : Dev :=
  ((List.range 6).filter (fun t => d.tdiePresent t && !d.clk.coast)).foldl Dev.startClock { d with chip.stage := .train }

/-- The verified firmware starts: the log's first entries, and the links train (R433, R465). -/
def Dev.fwStart (d : Dev) (img : List Byte) : Dev :=
  { d.startTraining with
    sec := ({ d.sec with
      authErr := 0
      fwSvn := fwSvn img
      eccKey := fwEccKey img
      lmsKey := fwLmsKey img
      fwValid := true
      fwVersion := BitVec.ofNat 32 (fieldOf img 0x008 4)
      fwDigest := fwDigestOf img
      reports := 0
      treeReady := false
      heldGo := false
      topLeaf := none }.restartLog).bootEntries }

/-- The image that was read or pushed. -/
def Dev.staged (d : Dev) : List Byte := Tab.readN zeroByte d.sec.staging 0 (max d.sec.stagingLen 4096)

/-- The ROM takes its firmware from the host (R432, Table 6 of 21). -/
def Dev.hostBoot (d : Dev) : Bool := d.chip.straps.safeBoot || decide (d.chip.straps.bootSrc = 1)

/-- The failing check of the image in the staging buffer; a push whose LENGTH no image has fails with LENGTH (R463). -/
def Dev.stagedCheck (d : Dev) : Nat :=
  if d.hostBoot && (d.sec.stagingLen < 4112 || fwMax < d.sec.stagingLen) then 2 else d.fwCheck d.staged d.sec.stagingLen

/-- FIRMWARE_VERIFY: the checks in order, the fuses, the start. `fail`: the number of bits blown when one fails. -/
def Dev.fwVerify (d : Dev) (fail : Option Nat) : Dev :=
  let img := d.staged
  let err := d.stagedCheck
  if err ≠ 0 then d.authFail err
  else
    let work := d.fuseWork img
    match fail with
    | some k =>
      if k < work.length then ((work.take k).foldl Dev.blow d).authFail 9 else (work.foldl Dev.blow d).fwStart img
    | none => (work.foldl Dev.blow d).fwStart img

/-- FIRMWARE_VERIFY (R461). -/
def execFirmwareVerify (fuseFail : Option Nat) (s : State) : Result State :=
  s.always fun d => d.when (decide (d.chip.state = .boot) && decide (d.chip.stage = .verify) &&
    decide (d.chip.startErr = 0)) fun d => d.fwVerify fuseFail

/-- The host reaches the security registers: from BOOT onward (R435). -/
def Dev.secReach (d : Dev) : Bool :=
  d.hostReach && (match d.chip.state with
    | .boot | .fill | .unstructured | .ready | .fault => true
    | _ => false)

/-- Bytes that LENGTH of `FW_PUSH` gives. -/
def pushBytes (n : Nat) : Nat := if n = 0 then fwMax else n

/-- A write of `FW_PUSH` (R463, Table 7): GO in the wait for a push starts the verification of LENGTH bytes; one that comes
before the ROM waits is taken then (log 122). -/
def Dev.fwPush (d : Dev) (v : Nat) : Dev :=
  let n := fieldAt v 0 24
  let d1 := if d.sec.pushGo then d else { d with sec.pushLen := n }
  if bitAt v 31 && !d.sec.pushGo then
    let d2 := { d1 with sec.pushGo := true }
    if d.chip.state = .boot && d.chip.stage = .waitPush && d.chip.startErr = 0 then
      { d2 with chip.stage := .verify, sec.stagingLen := pushBytes n }
    else d2
  else d1

/-- FW_PUSH (R463). -/
def execFwPush (v : Word) (s : State) : Result State :=
  s.hosted (.fwPush v) fun d => d.when d.secReach fun d => d.fwPush v.toNat

/-! ### Updating the flash (R464) -/

/-- The management block reads window bytes, whatever their pennants (Table 6 of 14). -/
def mgmtWho : Who := ⟨.host, .stream, false, 0, 12⟩

/-- Window bytes from page `p`, as far as the window goes, in page order. -/
def Dev.windowLoad (d : Dev) (w : Who) (o len : Nat) : Nat → Acc (Dev × List Byte)
  | 0 => .ok (d, [])
  | n + 1 =>
    if len = 0 then .ok (d, [])
    else
      let k := min len (0x200000 - o % 0x200000)
      match d.load w (d.windowAddr (o / 0x200000) (o % 0x200000)) k with
      | .error e => .error e
      | .ok (d1, bs) =>
        match d1.windowLoad w (o + k) (len - k) n with
        | .error e => .error e
        | .ok (d2, cs) => .ok (d2, bs ++ cs)

/-- `len` bytes of the window from byte `o`. -/
def Dev.windowRead (d : Dev) (w : Who) (o len : Nat) : Acc (Dev × List Byte) :=
  d.windowLoad w o len (len / 0x200000 + 2)

/-- The update with an image read: checks, then the flash's parameters are read, and it is erased and programmed; its answer is
`ok` (R464, R489). -/
def Dev.flashWith (d : Dev) (img : List Byte) (ok : Bool) : Dev :=
  let err := d.fwCheck img img.length
  if err ≠ 0 then { d with sec.flashCode := 2, sec.authErr := err }
  else
    { (((d.emit .flashParams).emit .flashErase).emit (.flashProgram (img.take (4096 + fieldOf img 0x010 4)))) with
      sec.flashCode := if ok then 0 else 3 }

/-- The bytes of an image at a page of the window: its header, then as much as the header declares, within the window; no
access reaches a stack before its fill, and the window then reads zero (R436; log 121). -/
def Dev.flashRead (d : Dev) (page : Nat) : Acc (Dev × List Byte) :=
  if !d.filled then .ok (d, List.replicate 4096 0)
  else Acc.andThen (d.windowRead mgmtWho (page * 0x200000) 4096) fun p =>
    p.1.windowRead mgmtWho (page * 0x200000)
      (min (4096 + fieldOf p.2 0x010 4) (min ((d.windowPages - page) * 0x200000) fwMax))

/-- The update after its read `r`: what waits is read again, and an image with a stripe that nothing repairs is not read to its
length (log 122). -/
def Dev.flashEnd (d : Dev) (r : Acc (Dev × List Byte)) (ok : Bool) : Dev :=
  match r with
  | .error (.lost st p) =>
    { (d.unserve mgmtWho.party).hostLost st p with sec.flashRun := none, sec.flashCode := 2, sec.authErr := 2 }
  | .error e => d.stopped mgmtWho false e
  | .ok (d1, img) => { (d1.unserve mgmtWho.party).flashWith img ok with sec.flashRun := none }

/-- The update in progress goes on, while the firmware has its clocks and the window. -/
def Dev.flashOn (d : Dev) : Dev :=
  match d.sec.flashRun with
  | some (page, ok) => if d.clk.coast || !d.regsLive then d else d.flashEnd (d.flashRead page) ok
  | none => d

/-- A write of `FLASH_UPDATE` (R464): the image is the header and as many bytes as it declares, within the window. GO during an
update is ignored. -/
def Dev.flashUpdate (d : Dev) (v : Nat) (ok : Bool) : Dev :=
  let page := fieldAt v 0 17
  let d1 := { d with sec.flashPage := page }
  if !bitAt v 31 || !d.sec.fwValid || !d.regsLive || d.sec.flashRun.isSome then d1
  else if d.chip.straps.safeBoot then { d1 with sec.flashCode := 1 }
  else if d.windowPages ≤ page then { d1 with sec.flashCode := 2, sec.authErr := 2 }
  else ({ d1 with sec.flashRun := some (page, ok) }).flashOn

/-- FLASH_UPDATE (R464). -/
def execFlashUpdate (v : Word) (flashOk : Bool) (s : State) : Result State :=
  s.hosted (.flashUpdate v flashOk) fun d => d.when d.secReach fun d => d.flashUpdate v.toNat flashOk

/-! ### SPDM (R468) -/

/-- The certificate chain of slot 0. -/
def certChainBytes : List Byte := (List.range Config.certLength).map Config.certChain

/-- A signature of the device identity key over a message: 96 bytes. -/
def identitySign (msg : List Byte) : List Byte := (List.range 96).map (Config.signature msg)

/-- An SPDM error response. -/
def spdmError (code data : Byte) : List Byte := [0x12, 0x7F, code, data]

/-- The value of a measurement index (Table 5). -/
def Dev.measurement (d : Dev) (i : Nat) : List Byte :=
  match i with
  | 1 => (List.range 48).map Config.romDigest
  | 2 => d.sec.fwDigest
  | 3 => ((d.sec.log.find? (fun m => decide (m.type = 3))).map (·.digest)).getD (List.replicate 48 0)
  | _ => d.sec.running

/-- A measurement block: index, DMTF specification, size, digest. -/
def Dev.measBlock (d : Dev) (i : Nat) : List Byte :=
  [BitVec.ofNat 8 i, 1, 51, 0, BitVec.ofNat 8 (if i = 1 then 0 else 1), 48, 0] ++ d.measurement i

/-- The record of a measurement request: none for 0, all for 255, one for 1 to 4. -/
def measRecord (i : Nat) : Option (List Nat) :=
  if i = 0 then some []
  else if i = 255 then some [1, 2, 3, 4]
  else if i ≤ 4 then some [i]
  else none

/-- Connection state of a transport. -/
def Sec.conn (x : Sec) (p : SpdmPort) : Spdm :=
  match p with
  | .doe => x.doe
  | .mctp _ => x.mctp
def Sec.setConn (x : Sec) (p : SpdmPort) (c : Spdm) : Sec :=
  match p with
  | .doe => { x with doe := c }
  | .mctp _ => { x with mctp := c }

/-- The responder's nonce: a draw (log 8). -/
def spdmNonce (e : Nat) : List Byte := (List.range 32).map (Config.freeByte e)

/-- What the responder supports of the algorithms that a request offers (R468): ECDSA P-384, SHA-384, the DMTF measurement
specification (PRESUMED bits of DSP0274 1.2; log 22). -/
def spdmAsym (w : Word) : Word := w &&& 0x80
def spdmHash (w : Word) : Word := w &&& 2
def spdmMeas (b : Byte) : Byte := b &&& 1

/-- ALGORITHMS: what is selected of an offer; SHA-384 measures where the specification is selected. -/
def spdmAlgorithms (asym hash : Word) (meas : Byte) : List Byte :=
  [0x12, 0x63, 0, 0, 36, 0, spdmMeas meas, 0] ++ bytesOf (if spdmMeas meas = 0 then 0 else 4) 4 ++
    bytesOf (spdmAsym asym).toNat 4 ++ bytesOf (spdmHash hash).toNat 4 ++ List.replicate 16 0

/-- The response to a request of version 1.2, and the connection state after it (PRESUMED formats of DSP0274 1.2; log 22). -/
def Dev.spdmAnswer (d : Dev) (c : Spdm) (q : SpdmBody) : Spdm × List Byte :=
  let unexpected := (c, spdmError 0x04 0)
  match q with
  | .getVersion => (⟨true, false, false⟩, [0x10, 0x04, 0, 0, 0, 1, 0x00, 0x12])
  | .getCapabilities =>
    if c.version then (⟨true, true, false⟩, [0x12, 0x61, 0, 0, 0, Config.spdmByte 0, 0, 0, 0x16, 0, 0, 0] ++
      (List.range 8).map (fun i => Config.spdmByte (i + 1)))
    else unexpected
  | .negotiateAlgorithms asym hash meas =>
    if !c.caps then unexpected
    else if spdmAsym asym = 0 || spdmHash hash = 0 then (c, spdmError 0x01 0)
    else (⟨true, true, true⟩, spdmAlgorithms asym hash meas)
  | .getDigests => if c.algos then (c, [0x12, 0x01, 0, 1] ++ sha384 certChainBytes) else unexpected
  | .getCertificate slot off len =>
    if !c.algos then unexpected
    else if slot ≠ 0 || Config.certLength ≤ off.toNat then (c, spdmError 0x01 0)
    else
      let part := slice certChainBytes off.toNat len.toNat
      (c, [0x12, 0x02, 0, 0] ++ bytesOf part.length 2 ++ bytesOf (Config.certLength - off.toNat - part.length) 2 ++ part)
  | .challenge slot nonce =>
    if !c.algos then unexpected
    else if slot ≠ 0 then (c, spdmError 0x01 0)
    else
      let m := [0x12, 0x03, 0, 1] ++ sha384 certChainBytes ++ spdmNonce d.free ++
        sha384 ((List.range 4).flatMap (fun i => d.measBlock (i + 1))) ++ [0, 0]
      (c, m ++ identitySign (nonce ++ m))
  | .getMeasurements index signed nonce =>
    if !c.algos then unexpected
    else
      match measRecord index.toNat with
      | none => (c, spdmError 0x01 0)
      | some l =>
        let rec_ := l.flatMap d.measBlock
        let m := [0x12, 0x60, if index = 0 then 4 else 0, 0, BitVec.ofNat 8 l.length] ++ bytesOf rec_.length 3 ++ rec_ ++
          spdmNonce d.free ++ [0, 0]
        (c, if signed then m ++ identitySign (nonce ++ m) else m)
  | .other code => (c, spdmError 0x07 code)

/-- A request of any version: GET_VERSION comes with 1.0, and every other with the one version that is supported (R468). -/
def Dev.spdmVersioned (d : Dev) (c : Spdm) (q : SpdmReq) : Spdm × List Byte :=
  if q.version = (match q.body with
      | .getVersion => 0x10
      | _ => 0x12) then d.spdmAnswer c q.body
  else (c, spdmError 0x41 0)

/-- The address of the device on the SMBus (R468, R488). -/
def Dev.smbusAddr (d : Dev) : BitVec 7 := if d.chip.straps.twinRole then 0x4B else 0x4A

/-- The transport brings the request to the device: the host link is up, or the address is the device's (R488). -/
def Dev.spdmReaches (d : Dev) (p : SpdmPort) : Bool :=
  match p with
  | .doe => d.host.linkUp
  | .mctp a => decide (a = d.smbusAddr)

/-- SPDM_REQUEST (R468): before the firmware runs and in THERMAL_OFF the transport does not answer, and the DOE mailbox shows
its Error bit. -/
def Dev.spdm (d : Dev) (p : SpdmPort) (q : SpdmReq) : Dev :=
  if !d.sec.fwValid || d.chip.state = .thermalOff then
    ({ d with sec.doeErr := d.sec.doeErr || decide (p = SpdmPort.doe) }).emit (.spdm p none)
  else if !d.spdmReaches p then d.emit (.spdm p none)
  else
    let r := d.spdmVersioned (d.sec.conn p) q
    ({ d.drawn with sec := d.sec.setConn p r.1 }).emit (.spdm p (some r.2))

/-- SPDM_REQUEST (R468). -/
def execSpdmRequest (port : SpdmPort) (q : SpdmReq) (s : State) : Result State :=
  s.checked (wellFormed (.spdmRequest port q)) fun d => d.spdm port q

/-! ### Measurement registers and the report -/

/-- Offset of `MEAS_RUNNING` word 0. -/
def measRunningAt : Nat := 0x300080

/-- MEAS_RUNNING_READ (R467): word 0 is returned, and words 1 to 11 are latched. -/
def execMeasRunningRead (s : State) : Result State :=
  s.hosted .measRunningRead fun d => d.when d.secReach fun d =>
    ({ d with sec.latch := d.sec.running }).emit (.readDone 0 measRunningAt (slice d.sec.running 0 4) false)

/-- `CHIP_STATUS.STATE` code (Table 5 of 18). -/
def chipCode (c : ChipState) : Nat :=
  match c with
  | .off => 0
  | .keep => 1
  | .boot => 2
  | .fill => 3
  | .unstructured => 4
  | .ready => 5
  | .fault => 6
  | .thermalOff => 7

/-- The SHA-384 of the identity certificate, the last of the chain (R468, R469). -/
def identityDigest : List Byte := sha384 (certChainBytes.drop Config.identityStart)

/-- The 256-byte body of a report (R469; log 23). -/
def Dev.reportBody (d : Dev) : List Byte :=
  let b := (List.range 8).flatMap (fun i => bytesOf (Tab.read (fun _ => (0 : Word)) d.sec.nonce i).toNat 4) ++
    bytesOf d.sec.fwVersion.toNat 4 ++ bytesOf d.sec.fwSvn 4 ++ bytesOf (chipCode d.chip.state) 4 ++
    bytesOf d.sec.log.length 4 ++ d.sec.running ++ identityDigest
  b ++ (List.range (256 - b.length)).map Config.reportByte

/-- The signing begins: the first report after a start blows the next bit of the report counter, whose leaf signs the bottom
tree; 1,024 reports made, or every bit blown, is exhaustion (R470; log 23). -/
def Dev.reportStart (d : Dev) : Dev :=
  if 1024 ≤ d.sec.reports || 1024 ≤ d.fuses.reportBits then { d with sec.repBody := [] }
  else if d.sec.topLeaf.isNone then
    { d with fuses.reportBits := d.fuses.reportBits + 1, sec.topLeaf := some d.fuses.reportBits }
  else d

/-- A 32-bit number, most significant byte first. -/
def be32 (n : Nat) : List Byte := (bytesOf n 4).reverse

/-- Type codes of LMOTS_SHA256_N32_W8 and LMS_SHA256_M32_H10 (R469; PRESUMED values of RFC 8554, log 13). -/
def otsType : Nat := 4
def lmsType : Nat := 6

/-- An LMS signature of leaf `q` of a key (PRESUMED layout of RFC 8554, log 13): the leaf, the one-time signature, the path. -/
def lmsSignature (key q : Nat) (msg : List Byte) : List Byte :=
  be32 q ++ be32 otsType ++ (List.range 1120).map (Config.otsByte key q msg) ++ be32 lmsType ++
    (List.range 320).map (Config.pathByte key q)

/-- The public key of a tree: types, identifier, root. -/
def lmsPublic (key : Nat) : List Byte := be32 lmsType ++ be32 otsType ++ (List.range 48).map (Config.rootByte key)

/-- The HSS signature with L = 2 (R469): the top tree's leaf `top` signs the bottom tree's key, whose leaf `q` signs the
message. -/
def hssSignature (top q : Nat) (msg : List Byte) : List Byte :=
  be32 1 ++ lmsSignature 0 top (lmsPublic (top + 1)) ++ lmsPublic (top + 1) ++ lmsSignature (top + 1) q msg

/-- REPORT_GO (R469, R470): ignored while BUSY; held until the tree is ready. -/
def Dev.reportGo (d : Dev) : Dev :=
  if d.sec.repStatus = 1 || !d.sec.fwValid then d
  else
    let d1 := { d with sec.repStatus := 1, sec.repData := [], sec.repBody := d.reportBody }
    if d.sec.treeReady then d1.reportStart else { d1 with sec.heldGo := true }

/-- REPORT_GO (R469). -/
def execReportGo (s : State) : Result State := s.hosted .reportGo fun d => d.when d.secReach Dev.reportGo

/-- REPORT_TREE_READY (R470): a held GO proceeds. -/
def execReportTreeReady (s : State) : Result State :=
  s.always fun d => d.when (d.sec.fwValid && !d.sec.treeReady) fun d =>
    let d1 := { d with sec.treeReady := true, sec.heldGo := false }
    if d.sec.heldGo then d1.reportStart else d1

/-- REPORT_DONE (R470): the body and its 2,964-byte signature, or EXHAUSTED. -/
def Dev.reportDone (d : Dev) : Dev :=
  if d.sec.repBody.isEmpty then { d with sec.repStatus := 3, sec.repData := [] }
  else
    { d with sec.repStatus := 2
             sec.reports := d.sec.reports + 1
             sec.repData := d.sec.repBody ++ hssSignature (d.sec.topLeaf.getD 0) d.sec.reports d.sec.repBody }

/-- REPORT_DONE (R470). -/
def execReportDone (s : State) : Result State :=
  s.always fun d => d.when (decide (d.sec.repStatus = 1) && d.sec.treeReady) Dev.reportDone

end Sys2Proof.Machine
end

