-- ==== Sys2Proof/Machine/Startup.lean ====
section
/-! DEFINITION. Power-on, boot, fill and resets (18_startup_reset), the loss and return of the reference (R412 to R414),
the thermal shutdown (R424, R425), configuration requests (R356, R435), and the loss of an I/O die (R445). -/

namespace Sys2Proof.Machine
open Sys2Proof

/-! ### Full resets (R439, R440 Table 4) -/

/-- Offset of `CLK_COASTS`. -/
def clkCoastsAt : Nat := 0x200028

/-- The device with everything at its reset value but what no reset touches: fuses, lands, straps as latched, the test
port, and what has been sent. -/
def Dev.blank (d : Dev) : Dev :=
  { Dev.reset with
    free := d.free
    now := d.now
    out := d.out
    fuses := d.fuses
    pins := d.pins
    chip := { Dev.reset.chip with state := d.chip.state, straps := d.chip.straps }
    twin := { Dev.reset.twin with present := d.pins.twinPresentIn, hbLevel := d.pins.twinHbIn }
    tap := d.tap }

/-- The records that a full reset and a thermal restart keep (Table 4): THERM_LAST_TRIP, THERM_TRIPS, CLK_COASTS,
COAST_SEEN. -/
def Dev.keepRecords (d old : Dev) : Dev :=
  ({ d with therm.tripValid := old.therm.tripValid, therm.tripSensor := old.therm.tripSensor, clk.coastSeen := old.clk.coastSeen }.setCtr thermTripsAt
    (old.ctr thermTripsAt)).setCtr clkCoastsAt (old.ctr clkCoastsAt)

/-- A full reset: everything reset, the records kept, and the cause in LAST_RESET. -/
def Dev.fullReset (d : Dev) (cause : Nat) : Dev := { (d.blank.keepRecords d) with chip.lastReset := cause }

/-- The host link and configuration space that `DEVICE_RESET` keeps (Table 4). -/
def Dev.keepLink (d old : Dev) : Dev :=
  { d with host := { d.host with
      linkUp := old.host.linkUp
      speed := old.host.speed
      width := old.host.width
      flit := old.host.flit
      busMaster := old.host.busMaster
      msixEnable := old.host.msixEnable
      functionMask := old.host.functionMask
      d3hot := old.host.d3hot
      msix := old.host.msix
      bars := old.host.bars
      maxPayload := old.host.maxPayload
      maxRead := old.host.maxRead } }

/-- The power side of a die at the reference return: its floors and budget are kept, its sticky bit is cleared (R440). -/
def TDieSt.keepPower (x old : TDieSt) : TDieSt :=
  { x with thermFloor := old.thermFloor, powerFloor := old.powerFloor, stage := old.stage, power := old.power,
           low := old.low, budget := old.budget }

/-- A tensor die at the reference return: floors, power and thermal state kept, the sticky bits cleared (R414, R440). -/
def Dev.keepDie (d old : Dev) (t : Nat) : Dev :=
  ((d.modTdie t (fun x => x.keepPower (old.tdie t))).setThdie t { old.thdie t with maxed := false }).refloorDie t

/-- The ROM is at work, and nothing has stopped it. -/
def Dev.romWorks (d : Dev) : Bool := decide (d.chip.state = .boot) && decide (d.chip.startErr = 0)

/-- The security block at the reference return: running firmware is kept, and its log restarts with the digest held; a ROM at
work goes on; a stopped one starts anew (R414, R440; log 120). -/
def Dev.keptSec (d : Dev) : Sec :=
  if d.sec.fwValid then
    ({ d.sec with
      nonce := []
      repStatus := 0
      repData := []
      repBody := []
      heldGo := false
      topLeaf := none
      select := 0
      flashCode := 0
      flashPage := 0
      flashRun := none }).restartLog.bootEntries
  else if d.romWorks then d.sec
  else Dev.reset.sec

/-- The privileged units that a reference return keeps (R413, R414): the power and thermal controller, whose level sources are
raised again (R419, R421), the management block, and the twin heartbeat. -/
def Dev.keepPrivileged (d old : Dev) : Dev :=
  let d1 := { d with
    therm := old.therm
    clk.mgmtReady := old.clk.mgmtReady
    twin.hbOut := old.twin.hbOut
    twin.everAttached := old.twin.everAttached
    sec := old.keptSec }
  let d2 := (List.range 6).foldl (fun a t => a.keepDie old t) d1
  (d2.follow 3 false d2.anyWarn).follow 4 false d2.anyReq

/-- KEEP to BOOT: PWRGOOD high, PERST# deasserted, the reference present (Table 3). -/
def Dev.tryBoot (d : Dev) : Dev :=
  if d.chip.state = .keep && d.pins.pwrgood && !d.pins.perst && d.pins.refclk then
    ({ d with chip.stage := .rom }).enter .boot
  else d

/-! ### Power -/

/-- VDD_KEEP_UP (R433): OFF to KEEP once the reference is present; the twin's lands are read from now on (R287, R482). -/
def Dev.vddKeepUp (d : Dev) : Dev :=
  if d.chip.state ≠ .off then d
  else
    let d1 := { d with pins.vddKeep := true, twin.present := d.pins.twinPresentIn, twin.hbLevel := d.pins.twinHbIn }
    if d.pins.refclk then (d1.enter .keep).tryBoot else d1

/-- VDD_KEEP_LOSS (R429, R426): everything is lost, the keep-domain records and the test port's state too (R479, R490). -/
def Dev.vddKeepLoss (d : Dev) : Dev :=
  { ({ d with pins.vddKeep := false }).blank with chip.state := .off, tap := Dev.reset.tap }

/-- PWRGOOD_RISE (R428, R430, R481): the straps are latched. -/
def Dev.pwrgoodRise (d : Dev) (lands : Straps) : Dev :=
  if d.pins.pwrgood then d
  else ({ d with pins.pwrgood := true, pins.lands := lands, chip.straps := lands }).tryBoot

/-- PWRGOOD_FALL (R429): KEEP, memory lost; in OFF and THERMAL_OFF nothing further (R481). -/
def Dev.pwrgoodFall (d : Dev) : Dev :=
  let d1 := { d with pins.pwrgood := false }
  match d.chip.state with
  | .off | .thermalOff => d1
  | _ =>
    let d2 := { d1.blank with therm.tripValid := d.therm.tripValid, therm.tripSensor := d.therm.tripSensor }.setCtr thermTripsAt (d.ctr thermTripsAt)
    d2.enter .keep

/-! ### PERST#, hot reset, DEVICE_RESET -/

/-- PERST_ASSERT (R439, R441): a full reset, held in KEEP; a lost reference stays lost (log 120). -/
def Dev.perstAssert (d : Dev) : Dev :=
  let d1 := { d with pins.perst := true }
  match d.chip.state with
  | .off | .thermalOff | .keep => d1
  | _ => ({ d1.fullReset 2 with clk.coast := d.clk.coast }).enter .keep

/-- A start-up error holds BOOT (R434). -/
def Dev.bootStopped (d : Dev) : Bool := decide (d.chip.state = .boot) && decide (d.chip.startErr ≠ 0)

/-- The host link and configuration space alone are reset (R361). -/
def Dev.linkReset (d : Dev) : Dev :=
  { d with host := { d.host with busMaster := false, msixEnable := false, functionMask := false, d3hot := false,
                                 msix := [], pba := [], held := [], bars := [], maxPayload := 128, maxRead := 512 } }

/-- HOT_RESET (R361). -/
def Dev.hotReset (d : Dev) : Dev :=
  if d.clk.coast then d
  else if d.regsLive || d.bootStopped then ((d.fullReset 3).enter .keep).tryBoot
  else if d.chip.state = .boot || d.chip.state = .fill then d.linkReset
  else d

/-- `DEVICE_RESET` with the key (R439, R441, R442). -/
def Dev.deviceReset (d : Dev) (v : Nat) : Dev :=
  if v = 0xD1CE && (d.regsLive || d.bootStopped) then
    ({ ((d.fullReset 4).keepLink d) with chip.stage := .rom }).enter .boot
  else d

/-! ### The reference (R412 to R414) -/

/-- The tensor PLLs stop. -/
def Dev.stopPlls (d : Dev) : Dev :=
  (List.range 6).foldl (fun a t => a.modTdie t (fun x => { x with aSt := .stopped, bSt := .stopped })) d

/-- REFERENCE_LOSS (R412, R413): the stacks refresh themselves, the links and clocks stop, the privileged units coast,
and CLK_COAST is asserted at the management block's line. The other units stop; what their registers hold is undefined,
and nothing reads it before the full reset of the return (log 82). -/
def Dev.referenceLoss (d : Dev) : Dev :=
  let d1 := { d with pins.refclk := false }
  match d.chip.state with
  | .off | .thermalOff => d1
  | _ =>
    let d2 := d1.stopPlls
    ({ d2.blank with
        chip := d.chip
        counters := d.counters
        therm := d.therm
        sec := d.sec
        dram := d.dram
        parity := d.parity
        clk := { d2.clk with coast := true, coastSeen := true, fabricReady := false, stackAwake := 0,
                             regionQ := [], stackQ := [], regionGranted := [], stackGranted := [] }
        twin := { d2.blank.twin with code := if d.twin.st = 2 then 3 else d.twin.code, hbOut := d.twin.hbOut,
                                     everAttached := d.twin.everAttached } }).emit .mgmtIrq


/-! ### Thermal shutdown (R424, R425) -/

/-- THERMAL_TRIP: everything outside the keep domain is lost. -/
def Dev.thermalTrip (d : Dev) (n : Nat) : Dev :=
  match d.chip.state with
  | .off => d
  | .thermalOff => d.tripTemp n
  | _ =>
    let d1 := ((d.tripTemp n).blank.keepRecords d).bump thermTripsAt
    { d1 with chip.state := .thermalOff, therm.tripValid := true, therm.tripSensor := n, ec.inbox := [] }

/-- THERMAL_RESTART (R425, R481): with every sensor at or below its restart level, as from power-on, with the straps sampled. -/
def Dev.thermalRestart (d : Dev) : Dev :=
  if d.chip.state = .thermalOff && d.pins.pwrgood && d.coolEnough then
    ({ ((d.fullReset 1)) with chip.straps := d.pins.lands }.enter .keep).tryBoot
  else d

/-! ### Boot (R434, R433) -/

/-- Lanes of a width. -/
def laneCount (w : LinkWidth) : Nat :=
  match w with
  | .x16 => 16
  | .x8 => 8
  | .x4 => 4
  | .x2 => 2
  | .x1 => 1

/-- The highest rate that PCIE_MAX_GEN allows, as the code of SPEED (R359 Table 2). -/
def topSpeed (x : Straps) : Nat :=
  match x.pcieMaxGen.toNat with
  | 0 => 6
  | 1 => 5
  | _ => 4

/-- The host link trains: to the rate that it reaches, up to the one that PCIE_MAX_GEN allows, and to the width at which the
training can complete (R356, R359, R360). -/
def Dev.trainLink (d : Dev) (l : LinkTrained) : Dev :=
  let sp := min (l.rate.val + 1) (topSpeed d.chip.straps)
  { d with host := { d.host with linkUp := true, speed := sp, width := laneCount l.width, flit := decide (sp = 6) } }

/-- How a link trains that no operand describes (log 24). -/
def Dev.freeTraining (d : Dev) : LinkTrained :=
  ⟨Fin.ofNat 6 (Config.order d.free 0),
   match Config.order d.free 1 % 5 with
   | 0 => .x16
   | 1 => .x8
   | 2 => .x4
   | 3 => .x2
   | _ => .x1⟩

/-- The boot after a reference return: at the PLLs and the links where the firmware ran, else where the ROM stood (R440). -/
def Dev.bootsOn (d old : Dev) : Dev :=
  if old.sec.fwValid then d.startTraining
  else { d with chip.stage := if old.romWorks then old.chip.stage else .rom }

/-- The host link trains again, unless the ROM is still to bring it up (R440, R487; log 24). -/
def Dev.linkAgain (d : Dev) : Dev := if d.chip.stage = .rom then d else d.drawn.trainLink d.freeTraining

/-- The full reset of a reference return (R414): the privileged units keep their state, `CLK_COASTS` adds one. In KEEP after a
PERST#, the cause stays (log 120). -/
def Dev.returnReset (d : Dev) : Dev :=
  ((d.fullReset (if d.chip.state = .keep && d.chip.lastReset = 2 then 2 else 5)).keepPrivileged d).bump clkCoastsAt

/-- REFERENCE_RETURN (R414): a full reset that keeps the privileged units, and the boot goes on; KEEP stays KEEP. -/
def Dev.referenceReturn (d : Dev) : Dev :=
  let d1 := { d with pins.refclk := true }
  if d.clk.coast then
    if d.chip.state = .keep || d.pins.perst || !d.pins.pwrgood then (d1.returnReset.enter .keep).tryBoot
    else ((d1.returnReset.bootsOn d).enter .boot).linkAgain
  else if d.chip.state = .off && d.pins.vddKeep then (d1.enter .keep).tryBoot
  else d1.tryBoot

/-- ROM_READY (R434): the flash is read, or the ROM waits for a push, unless one is given (log 122); a host link that is down trains. -/
def Dev.romReady (d : Dev) (f : FlashAnswer) (l : LinkTrained) : Dev :=
  let d1 := { (if d.host.linkUp then d else d.trainLink l) with clk.mgmtReady := true }
  if d.hostBoot then
    if d.sec.pushGo then { d1 with sec.stagingLen := pushBytes d.sec.pushLen, chip.stage := .verify }
    else { d1 with chip.stage := .waitPush }
  else if d.chip.straps.bootSrc ≠ 0 then { d1 with chip.startErr := 2 }
  else
    match f with
    | .noAnswer => { d1 with chip.startErr := 2 }
    | .image bytes =>
      if fwMax < bytes.length then { d1 with chip.startErr := 2 }
      else { d1 with sec.staging := Tab.writeN zeroByte [] 0 bytes, sec.stagingLen := bytes.length, chip.stage := .verify }

/-- BOOT_LINKS_TRAINED (R433): FILL. -/
def Dev.linksTrained (d : Dev) : Dev := ({ d with clk.fabricReady := true }).enter .fill

/-- FILL_COMPLETE (R322, R436, R406): every row holds zeros; the regions sleep and the stacks refresh themselves. -/
def Dev.fillComplete (d : Dev) : Dev :=
  ({ d with dram := [], parity := [], clk.regionAwake := 0, clk.stackAwake := 0 }).enter .unstructured

/-! ### Configuration requests (R356, R358, R435) -/

/-- The function answers configuration requests successfully: a host push or a stopped boot, and from UNSTRUCTURED on. -/
def Dev.configOk (d : Dev) : Bool := d.regsLive || d.hostBoot || decide (d.chip.startErr ≠ 0)

/-- The number of a BAR. -/
def barNumber (b : Bar) : Nat :=
  match b with
  | .bar0 => 0
  | .bar2 => 2
  | .bar4 => 4

/-- The size of a BAR (R363 Table 3): 64 MiB, the window, 16 MiB. -/
def Dev.barSize (d : Dev) (b : Bar) : Nat :=
  match b with
  | .bar0 => 0x4000000
  | .bar2 => d.windowPages * 0x200000
  | .bar4 => 0x1000000

/-- A BAR holds an address that is a multiple of its size (log 104). -/
def Dev.barAddr (d : Dev) (b : Bar) (a : BitVec 64) : BitVec 64 := BitVec.ofNat 64 (a.toNat / d.barSize b * d.barSize b)

/-- Maximum payload sizes and maximum read request sizes that the function supports (R356 Table 1). -/
def payloadSizes : List Nat := [128, 256, 512]
def readSizes : List Nat := [128, 256, 512, 1024, 2048, 4096]

/-- The capabilities of the function, in the order of Table 1 (R356). -/
def capabilities : List Capability :=
  [.pciExpress, .powerManagement, .msix, .advancedErrorReporting, .dataObjectExchange, .dataLinkFeature,
   .physicalLayer16, .physicalLayer32, .physicalLayer64, .laneMargining]

/-- What a configuration read gives (R356 Table 1, R363 Table 3). -/
def Dev.configValue (d : Dev) (item : ConfigItem) : ConfigValue :=
  match item with
  | .vendorId => .num Config.vendorId.toNat
  | .deviceId => .num 0x0C24
  | .classCode => .num 0x120000
  | .functions => .num 1
  | .bar b => .bar (Tab.read (fun _ => 0) d.host.bars (barNumber b)) true (decide (b = .bar2)) (d.barSize b)
  | .capabilities => .capabilities capabilities
  | .busMaster => .num (boolBit d.host.busMaster)
  | .msixEnable => .num (boolBit d.host.msixEnable)
  | .functionMask => .num (boolBit d.host.functionMask)
  | .powerState => .num (if d.host.d3hot then 3 else 0)
  | .maxPayload => .num d.host.maxPayload
  | .maxReadRequest => .num d.host.maxRead
  | .linkSpeed => .num d.host.speed
  | .linkWidth => .num d.host.width
  | .doeError => .num (boolBit d.sec.doeErr)

/-- CONFIG_REQUEST. -/
def Dev.configRequest (d : Dev) (q : ConfigReq) : Dev :=
  if !d.host.linkUp then d
  else if !d.configOk then d.emit .configRetry
  else
    match q with
    | .read item => d.emit (.configData item (d.configValue item))
    | .writeBar b a => ({ d with host.bars := Tab.write (fun _ => 0) d.host.bars (barNumber b) (d.barAddr b a) }).emit .configDone
    | .writeSizes p r =>
      ({ d with host.maxPayload := if payloadSizes.contains p then p else d.host.maxPayload
                host.maxRead := if readSizes.contains r then r else d.host.maxRead }).emit .configDone
    | .write bm me fm d3 =>
      (({ d with host := { d.host with busMaster := bm, msixEnable := me, functionMask := fm, d3hot := d3 } }).emit
        .configDone).flushVectors

/-! ### Meanings -/

/-- VDD_KEEP_UP (R433). -/
def execVddKeepUp (s : State) : Result State := s.always Dev.vddKeepUp

/-- VDD_KEEP_LOSS (R429). -/
def execVddKeepLoss (s : State) : Result State := s.always fun d => d.when d.pins.vddKeep Dev.vddKeepLoss

/-- PWRGOOD_RISE (R430). -/
def execPwrgoodRise (lands : Straps) (s : State) : Result State :=
  s.always fun d => d.when d.pins.vddKeep fun d => d.pwrgoodRise lands

/-- PWRGOOD_FALL (R429). -/
def execPwrgoodFall (s : State) : Result State := s.always fun d => d.when d.pins.pwrgood Dev.pwrgoodFall

/-- PERST_ASSERT (R439). -/
def execPerstAssert (s : State) : Result State := s.always fun d => d.when (!d.pins.perst) Dev.perstAssert

/-- PERST_DEASSERT (R433). -/
def execPerstDeassert (s : State) : Result State :=
  s.always fun d => d.when d.pins.perst fun d => ({ d with pins.perst := false }).tryBoot

/-- HOT_RESET (R361): its causes act alike. -/
def execHotReset (_ : LinkReset) (s : State) : Result State := s.always Dev.hotReset

/-- DEVICE_RESET (R439, R442). -/
def execDeviceReset (v : Word) (s : State) : Result State :=
  s.hosted (.deviceReset v) fun d => d.when d.hostReach fun d => d.deviceReset v.toNat

/-- REFERENCE_LOSS (R412). -/
def execReferenceLoss (s : State) : Result State := s.always fun d => d.when d.pins.refclk Dev.referenceLoss

/-- REFERENCE_RETURN (R414). -/
def execReferenceReturn (s : State) : Result State := s.always fun d => d.when (!d.pins.refclk) Dev.referenceReturn

/-- THERMAL_TRIP (R424). -/
def execThermalTrip (sensor : Fin 196) (s : State) : Result State :=
  s.always fun d => d.when (d.sensorPresent sensor.val) fun d => d.thermalTrip sensor.val

/-- THERMAL_RESTART (R425). -/
def execThermalRestart (s : State) : Result State := s.always Dev.thermalRestart

/-- ROM_READY (R434). -/
def execRomReady (found : RomFinds) (s : State) : Result State :=
  s.always fun d => d.when (decide (d.chip.state = .boot) && decide (d.chip.stage = .rom) &&
    decide (d.chip.startErr = 0) && !d.clk.coast) fun d => d.romReady found.flash found.link

/-- The links train (R433); while the reference is lost, nothing does (R412). -/
def Dev.training (d : Dev) : Bool :=
  decide (d.chip.state = .boot) && decide (d.chip.stage = .train) && !d.clk.coast

/-- The stacks are being filled (R436). -/
def Dev.filling (d : Dev) : Bool := decide (d.chip.state = .fill) && !d.clk.coast

/-- BOOT_LINKS_TRAINED (R433). -/
def execBootLinksTrained (s : State) : Result State := s.always fun d => d.when d.training Dev.linksTrained

/-- LINK_TRAIN_TIMEOUT (R434): start-up error LINK_TRAIN, FAULT. -/
def execLinkTrainTimeout (s : State) : Result State := s.always fun d => d.when d.training fun d => d.startFault 3

/-- FILL_COMPLETE (R436). -/
def execFillComplete (s : State) : Result State :=
  s.always fun d => d.when d.filling Dev.fillComplete

/-- FILL_TIMEOUT (R436): start-up error FILL_TIMEOUT, FAULT. -/
def execFillTimeout (s : State) : Result State :=
  s.always fun d => d.when d.filling fun d => d.startFault 4

/-- CONFIG_REQUEST (R435). -/
def execConfigRequest (q : ConfigReq) (s : State) : Result State := s.always fun d => d.configRequest q

/-- Code IODIE_LOST (Table 1 of 19). -/
def codeIodieLost : Nat := 0x81

/-- IODIE_LOST (R445, R480): a chip fault; the other die's FAULT_N stage asserts too. -/
def execIodieLost (io : Fin 2) (s : State) : Result State :=
  s.always fun d => d.when d.regsLive fun d =>
    ({ d with chip.ioLost := d.chip.ioLost ||| BitVec.ofNat 2 (2 ^ io.val) }).chipFault codeIodieLost

end Sys2Proof.Machine
end

