-- ==== Sys2Proof/Machine/Package.lean ====
section
/-! DEFINITION. Lands and the test port (21_package_signals): what the sideband outputs show, and the boundary-scan
instructions. -/

namespace Sys2Proof.Machine
open Sys2Proof

/-! ### Outputs (Table 4) -/

/-- The outputs rest by the chip state (R478). -/
def Dev.restingState (d : Dev) : Bool :=
  match d.chip.state with
  | .off | .keep | .thermalOff | .fault => true
  | _ => false

/-- Every output rests (R478), the privileged exceptions apart. -/
def Dev.resting (d : Dev) : Bool := !d.pins.vddKeep || d.clk.coast || d.restingState

/-- ALERT_N asserted: a warning, a throttle request, or coasting; it rests with the chip state alone. -/
def Dev.alert (d : Dev) : Bool := !d.restingState && (d.anyWarn || d.anyReq || d.clk.coast)
/-- THERMTRIP_N asserted (R424). -/
def Dev.thermtrip (d : Dev) : Bool := d.pins.vddKeep && decide (d.chip.state = .thermalOff)
/-- FAULT_N asserted by either die (R480). -/
def Dev.faultLine (d : Dev) : Bool := decide (d.chip.state = .fault) || d.bootStopped || decide (d.chip.ioLost ≠ 0)
/-- The READY output. -/
def Dev.readyLine (d : Dev) : Bool := decide (d.chip.state = .ready) && !d.clk.coast
/-- TWIN_PRESENT: from READY until a reset, and while the heartbeat coasts. -/
def Dev.presentLine (d : Dev) : Bool := decide (d.chip.state = .ready)
/-- TWIN_HB is driven: while attached, and while coasting after an attach (R289); it rests with the chip state. -/
def Dev.hbDriven (d : Dev) : Bool :=
  decide (d.chip.state = .ready) && (decide (d.twin.st = 2) || (d.clk.coast && d.twin.everAttached))

/-- The ROM reads the flash: the one time between commands at which the SPI lands are driven (R434, R489; log 25). -/
def Dev.spiDriven (d : Dev) : Bool :=
  d.romWorks && decide (d.chip.stage = .rom) && !d.hostBoot && decide (d.chip.straps.bootSrc = 0) && !d.clk.coast

/-- Levels of SPI_CLK, SPI_CS_N and SPI_IO0 to SPI_IO3: at rest the board resistors', when driven free (R478, R489). -/
def Dev.spiLevels (d : Dev) : List Bool :=
  if d.spiDriven then (List.range 6).map (fun i => Config.freeBit d.free (8 + i)) else [false, true, true, true, true, true]

/-- Levels of the lands that the boundary-scan chain covers: the outputs of Table 4, SMB_DAT and TDO at rest among them (log
25). An open-drain or resting output shows its board resistor. -/
def Dev.outLevels (d : Dev) : List Bool :=
  [!d.alert, !d.thermtrip, !d.faultLine, d.readyLine, d.presentLine, d.hbDriven && d.twin.hbOut, true] ++ d.spiLevels ++ [true]

/-- Levels of the strap lands (Table 6). -/
def Straps.bits (x : Straps) : List Bool :=
  (List.range 2).map x.pwrClass.getLsbD ++ [x.twinRole] ++ (List.range 2).map x.bootSrc.getLsbD ++
    (List.range 3).map x.winSize.getLsbD ++ (List.range 6).map x.spanId.getLsbD ++
    (List.range 2).map x.pcieMaxGen.getLsbD ++ [x.safeBoot]

/-- Levels of the inputs of Table 5 and of the straps: SMB_CLK idles high; TCK, TMS, TDI and the two lands of the reference are
free, and TRST_N is high while the port works (log 25). -/
def Dev.inLevels (d : Dev) : List Bool :=
  [!d.pins.perst, d.pins.pwrgood, true, d.pins.twinPresentIn, d.pins.twinHbIn] ++
    (List.range 3).map (Config.freeBit d.free) ++ [true, Config.freeBit d.free 3, Config.freeBit d.free 4] ++
    Straps.bits d.pins.lands

/-! ### Transmitters of the serial lanes (R487) -/

/-- What a transmitter does. -/
inductive TxState where
  | highZ
  | idle
  | drives
  deriving DecidableEq, Repr

/-- The host-link transmitters: high-impedance without power, in OFF, KEEP and THERMAL_OFF, under PERST#, and from a reference
loss until the link trains again; in FAULT and through `DEVICE_RESET` they drive. Before a link trains otherwise, they idle
(log 25). -/
def Dev.hostTx (d : Dev) : TxState :=
  if !d.pins.vddKeep || !d.pins.pwrgood || d.pins.perst || d.clk.coast ||
      (match d.chip.state with
       | .off | .keep | .thermalOff => true
       | _ => false) || (decide (d.chip.lastReset = 5) && !d.host.linkUp) then .highZ
  else if d.host.linkUp then .drives
  else .idle

/-- The transmitters of a span port: at rest with the outputs, and for good on YK24-S; idle without an enabled record. -/
def Dev.spanTx (d : Dev) (p : Nat) : TxState :=
  if d.resting || !d.spanPresent then .highZ else if (d.span p).en then .drives else .idle

/-- The transmitters of the twin link: at rest with the outputs; idle while the twin reads as absent. -/
def Dev.twinTx (d : Dev) : TxState :=
  if d.resting then .highZ else if d.twin.present then .drives else .idle

/-! ### Test instructions (R490) -/

/-- Codes of the model for the instruction register: IEEE 1149.1 leaves all but BYPASS to the part (log 25). -/
def tapBypass : Nat := 0
def tapIdcode : Nat := 1
def tapSample : Nat := 2
def tapExtest : Nat := 3
def tapClamp : Nat := 4
def tapHighz : Nat := 5

/-- The instruction in effect: EXTEST, CLAMP and HIGHZ act as BYPASS unless PERST# is asserted. -/
def Dev.tapActs (d : Dev) : Nat := if 3 ≤ d.tap.ir && !d.pins.perst then tapBypass else d.tap.ir

/-- Levels that the sideband outputs take under the instruction in effect: the preloaded chain under EXTEST and CLAMP,
the board resistors under HIGHZ. -/
def Dev.landOutputs (d : Dev) : List Bool :=
  if d.tapActs = tapExtest || d.tapActs = tapClamp then (d.tap.bsr ++ List.replicate 14 false).take 14
  else if d.tapActs = tapHighz then
    [true, true, true, false, false, false, true, false, true, true, true, true, true, true]
  else d.outLevels

/-- The IDCODE. -/
def idcodeWord : Word :=
  BitVec.ofNat 32 (1 * 2 ^ 28 + 0xC240 * 2 ^ 12 + Config.manufacturer.toNat * 2 + 1)

/-- Load the instruction register. -/
def Dev.tapLoad (d : Dev) (i : Nat) : Dev := { d with tap.ir := i }

/-- The test port is powered: its logic runs from VDD_KEEP (R479). -/
def Dev.tapOn (d : Dev) : Bool := d.pins.vddKeep

/-! ### Meanings -/

/-- BYPASS (R490). -/
def execBypass (s : State) : Result State := s.always fun d => d.when d.tapOn fun d => d.tapLoad tapBypass

/-- IDCODE (R490): the identification is shifted out, bit 0 first. -/
def execIdcode (s : State) : Result State :=
  s.always fun d => d.when d.tapOn fun d =>
    (d.tapLoad tapIdcode).emit (.tdo ((List.range 32).map idcodeWord.getLsbD))

/-- SAMPLE/PRELOAD (R490): the levels of the lands are shifted out while the chain is loaded. -/
def execSamplePreload (shift : List Bool) (s : State) : Result State :=
  s.checked (wellFormed (.samplePreload shift)) fun d => d.when d.tapOn fun d =>
    { (d.tapLoad tapSample).emit (.tdo ((d.tapLoad tapSample).landOutputs ++ d.inLevels)) with tap.bsr := shift, free := d.free + 1 }

/-- EXTEST (R490). -/
def execExtest (s : State) : Result State := s.always fun d => d.when d.tapOn fun d => d.tapLoad tapExtest

/-- CLAMP (R490). -/
def execClamp (s : State) : Result State := s.always fun d => d.when d.tapOn fun d => d.tapLoad tapClamp

/-- HIGHZ (R490). -/
def execHighz (s : State) : Result State := s.always fun d => d.when d.tapOn fun d => d.tapLoad tapHighz

end Sys2Proof.Machine
end

