-- ==== Sys2Proof/Machine/Float.lean ====
section
/-! DEFINITION. Numbers (02_tensor_cells, Number formats): exact values, their decoding from each type, rounding to
nearest with ties to even, flushing after rounding (R42), and conversion to each result type (R49 to R53). -/

namespace Sys2Proof.Machine
open Sys2Proof

/-- A value: NaN, an infinity, or the exact number ±m·2^e (m = 0: a signed zero). -/
inductive FpVal where
  | nan
  | inf (neg : Bool)
  | fin (neg : Bool) (m : Nat) (e : Int)
  deriving DecidableEq, Repr

/-- +0. -/
def FpVal.zero : FpVal := .fin false 0 0
/-- The integer `i`. -/
def FpVal.ofInt (i : Int) : FpVal := .fin (decide (i < 0)) i.natAbs 0
/-- A signed number times 2^e. -/
def FpVal.signed (i : Int) (e : Int) : FpVal := .fin (decide (i < 0)) i.natAbs e

/-- `m` shifted up by an exponent that is not negative. -/
def shiftUp (m : Nat) (e : Int) : Nat := m * 2 ^ e.toNat

/-- The signed integer of a finite value in units of 2^e0, for e0 not above its exponent. -/
def FpVal.units (neg : Bool) (m : Nat) (e e0 : Int) : Int :=
  if neg then -(shiftUp m (e - e0) : Int) else (shiftUp m (e - e0) : Int)

/-- The negated value. -/
def FpVal.neg (a : FpVal) : FpVal :=
  match a with
  | .nan => .nan
  | .inf s => .inf (!s)
  | .fin s m e => .fin (!s) m e

/-- The absolute value. -/
def FpVal.abs (a : FpVal) : FpVal :=
  match a with
  | .nan => .nan
  | .inf _ => .inf false
  | .fin _ m e => .fin false m e

/-- The exact sum; infinities of opposite signs give NaN. -/
def FpVal.add (a b : FpVal) : FpVal :=
  match a, b with
  | .nan, _ => .nan
  | _, .nan => .nan
  | .inf s, .inf t => if s = t then .inf s else .nan
  | .inf s, .fin .. => .inf s
  | .fin .., .inf t => .inf t
  | .fin s m e, .fin t n f =>
    if m = 0 && n = 0 then .fin (s && t) 0 0
    else
      let g := min e f
      FpVal.signed (FpVal.units s m e g + FpVal.units t n f g) g

/-- The exact difference. -/
def FpVal.sub (a b : FpVal) : FpVal := a.add b.neg

/-- The exact product; an infinity times zero gives NaN. -/
def FpVal.mul (a b : FpVal) : FpVal :=
  match a, b with
  | .nan, _ => .nan
  | _, .nan => .nan
  | .inf s, .inf t => .inf (s != t)
  | .inf s, .fin t n _ => if n = 0 then .nan else .inf (s != t)
  | .fin s m _, .inf t => if m = 0 then .nan else .inf (s != t)
  | .fin s m e, .fin t n f => .fin (s != t) (m * n) (e + f)

/-- The value is NaN. -/
def FpVal.isNan (a : FpVal) : Bool :=
  match a with
  | .nan => true
  | _ => false

/-- The value is a zero. -/
def FpVal.isZero (a : FpVal) : Bool :=
  match a with
  | .fin _ m _ => decide (m = 0)
  | _ => false

/-- The sign of a value. -/
def FpVal.isNeg (a : FpVal) : Bool :=
  match a with
  | .nan => false
  | .inf s => s
  | .fin s _ _ => s

/-- `a < b` as numbers; false where either is NaN. -/
def FpVal.lt (a b : FpVal) : Bool :=
  match a, b with
  | .nan, _ => false
  | _, .nan => false
  | .inf s, .inf t => s && !t
  | .inf s, .fin .. => s
  | .fin .., .inf t => !t
  | .fin s m e, .fin t n f =>
    let g := min e f
    decide (FpVal.units s m e g < FpVal.units t n f g)

/-- `a ≤ b` as numbers. -/
def FpVal.le (a b : FpVal) : Bool := !a.isNan && !b.isNan && !b.lt a

/-- MAX of Table 3: NaN if either is NaN; +0 for zeros of both signs. -/
def FpVal.larger (a b : FpVal) : FpVal :=
  if a.isNan || b.isNan then .nan
  else if a.lt b then b
  else if b.lt a then a
  else if a.isZero then .fin (a.isNeg && b.isNeg) 0 0 else a

/-- MIN of Table 3: NaN if either is NaN; −0 for zeros of both signs. -/
def FpVal.smaller (a b : FpVal) : FpVal :=
  if a.isNan || b.isNan then .nan
  else if a.lt b then a
  else if b.lt a then b
  else if a.isZero then .fin (a.isNeg || b.isNeg) 0 0 else a

/-! ### Rounding -/

/-- `m / 2^k` rounded to nearest, ties to even. -/
def shiftRne (m k : Nat) : Nat :=
  if k = 0 then m
  else
    let q := m / 2 ^ k
    let r := m % 2 ^ k
    let h := 2 ^ (k - 1)
    if h < r || (r = h && q % 2 = 1) then q + 1 else q

/-- The number of quanta 2^l in m·2^e, rounded to nearest, ties to even. -/
def quanta (m : Nat) (e l : Int) : Nat := if l ≤ e then shiftUp m (e - l) else shiftRne m (l - e).toNat

/-- ⌊log₂⌋ of m·2^e. -/
def floorLog (m : Nat) (e : Int) : Int := e + (Nat.log2 m : Int)

/-- Magnitude code of m·2^e in a format with `mb` fraction bits and bias `bias`, with subnormals and without an upper
limit. -/
def magCode (mb : Nat) (bias : Int) (m : Nat) (e : Int) : Nat :=
  if m = 0 then 0
  else
    let x := max (floorLog m e) (1 - bias)
    quanta m e (x - mb) + (x + bias - 1).toNat * 2 ^ mb

/-- m·2^e rounds, at `mb` fraction bits and without a lower limit, below 2^−126 (R42). -/
def underflows (mb : Nat) (m : Nat) (e : Int) : Bool :=
  let x := floorLog m e
  decide (x < -127) || (decide (x = -127) && decide (quanta m e (x - mb) < 2 ^ (mb + 1)))

/-- The value that a magnitude code stands for. -/
def ofMag (mb : Nat) (bias : Int) (neg : Bool) (c : Nat) : FpVal :=
  let x := c / 2 ^ mb
  if x = 0 then .fin neg (c % 2 ^ mb) (1 - bias - mb) else .fin neg (2 ^ mb + c % 2 ^ mb) ((x : Int) - bias - mb)

/-! ### FP32 -/

/-- The canonical NaN (R42). -/
def nan32 : Word := 0x7FC00000

/-- FP32 of a value: rounded to nearest even, flushed below 2^−126, infinite above the largest finite value. -/
def FpVal.toF32 (a : FpVal) : Word :=
  match a with
  | .nan => nan32
  | .inf s => if s then 0xFF800000 else 0x7F800000
  | .fin s m e =>
    let sg := if s then 0x80000000 else 0
    if m = 0 || underflows 23 m e then BitVec.ofNat 32 sg
    else BitVec.ofNat 32 (sg + min (magCode 23 127 m e) 0x7F800000)

/-- The value of an FP32 word; subnormals are read as zeros (R42). -/
def ofF32 (w : Word) : FpVal :=
  let n := w.toNat
  let s := bitAt n 31
  let c := n % 2 ^ 31
  if c < 0x800000 then .fin s 0 0
  else if c = 0x7F800000 then .inf s
  else if 0x7F800000 < c then .nan
  else ofMag 23 127 s c

/-- A value rounded to FP32. -/
def FpVal.r32 (a : FpVal) : FpVal := ofF32 a.toF32

/-! ### Types (Table 12) -/

/-- Bits of an element of a type. -/
def typeBits (t : Nat) : Nat :=
  match t with
  | 0x00 | 0x07 => 32
  | 0x01 | 0x02 => 16
  | 0x06 | 0x0C => 4
  | 0x0A | 0x0B => 6
  | _ => 8

/-- MX types. -/
def isMx (t : Nat) : Bool := decide (8 ≤ t) && decide (t ≤ 12)
/-- Integer matrix types. -/
def isIntType (t : Nat) : Bool := decide (t = 5) || decide (t = 6)

/-- The two's complement integer in `n` bits. -/
def signedOf (n w : Nat) : Int := if w < 2 ^ (n - 1) then (w : Int) else (w : Int) - (2 : Int) ^ n

/-- The value of an element of type `t` with bits `w`, without its scale. -/
def decodeElem (t w : Nat) : FpVal :=
  match t with
  | 0x00 => ofF32 (BitVec.ofNat 32 w)
  | 0x01 => ofF32 (BitVec.ofNat 32 (w % 2 ^ 16 * 2 ^ 16))
  | 0x02 =>
    let c := w % 2 ^ 15
    let s := bitAt w 15
    if c = 0x7C00 then .inf s else if 0x7C00 < c then .nan else ofMag 10 15 s c
  | 0x03 | 0x08 =>
    let c := w % 2 ^ 7
    if c = 0x7F then .nan else ofMag 3 7 (bitAt w 7) c
  | 0x04 | 0x09 =>
    let c := w % 2 ^ 7
    let s := bitAt w 7
    if c = 0x7C then .inf s else if 0x7C < c then .nan else ofMag 2 15 s c
  | 0x05 => FpVal.ofInt (signedOf 8 (w % 256))
  | 0x06 => FpVal.ofInt (signedOf 4 (w % 16))
  | 0x07 => FpVal.ofInt (signedOf 32 (w % 2 ^ 32))
  | 0x0A => ofMag 2 3 (bitAt w 5) (w % 32)
  | 0x0B => ofMag 3 1 (bitAt w 5) (w % 32)
  | 0x0C => ofMag 1 1 (bitAt w 3) (w % 8)
  | _ => .nan

/-- The value of an E8M0 scale byte. -/
def scaleOf (b : Nat) : FpVal := if b % 256 = 0xFF then .nan else .fin false 1 ((b % 256 : Nat) - 127)

/-- A NaN of a 16-bit or 8-bit type: its sign, and its fraction where several are NaN, are left open (log 26). -/
def nanOf (t : Nat) : Nat :=
  let f := (Config.freeWord 0 t).toNat
  match t with
  | 0x01 => f % 2 * 2 ^ 15 + 0x7F80 + max 1 (f / 2 % 2 ^ 7)
  | 0x02 => f % 2 * 2 ^ 15 + 0x7C00 + max 1 (f / 2 % 2 ^ 10)
  | 0x03 => f % 2 * 2 ^ 7 + 0x7F
  | _ => f % 2 * 2 ^ 7 + 0x7C + max 1 (f / 2 % 4)

/-- The largest finite magnitude code, the sign bit, fraction bits and bias of a result type or MX element type. -/
def maxCode (t : Nat) : Nat :=
  match t with
  | 0x01 => 0x7F7F
  | 0x02 => 0x7BFF
  | 0x03 | 0x08 => 0x7E
  | 0x04 | 0x09 => 0x7B
  | 0x0A | 0x0B => 0x1F
  | _ => 0x7
def signBit (t : Nat) : Nat := 2 ^ (typeBits t - 1)
def fracBits (t : Nat) : Nat :=
  match t with
  | 0x01 => 7
  | 0x02 => 10
  | 0x03 | 0x08 | 0x0B => 3
  | 0x04 | 0x09 | 0x0A => 2
  | _ => 1
def biasOf (t : Nat) : Int :=
  match t with
  | 0x01 => 127
  | 0x02 | 0x04 | 0x09 => 15
  | 0x03 | 0x08 => 7
  | 0x0A => 3
  | _ => 1

/-- What an overflow or an infinity gives (the table of R52). -/
def overflowCode (t : Nat) (sat : Bool) (neg : Bool) : Nat :=
  let sg := if neg then signBit t else 0
  match t with
  | 0x01 => sg + 0x7F80
  | 0x02 => if sat then sg + 0x7BFF else sg + 0x7C00
  | 0x03 => if sat then sg + 0x7E else nanOf 3
  | _ => if sat then sg + 0x7B else sg + 0x7C

/-- The integer nearest to ±m·2^e, ties to even. -/
def nearestInt (neg : Bool) (m : Nat) (e : Int) : Int :=
  if neg then -(quanta m e 0 : Int) else (quanta m e 0 : Int)

/-- Conversion of an FP32 value to a result type (R52); the bits of the element. -/
def FpVal.toType (a : FpVal) (t : Nat) (sat : Bool) : Nat :=
  match t with
  | 0x00 => a.toF32.toNat
  | 0x05 =>
    match a with
    | .nan => 0
    | .inf s => if s then 0x80 else 0x7F
    | .fin s m e => ((max (-128) (min 127 (nearestInt s m e))) % 256).toNat
  | _ =>
    match a with
    | .nan => nanOf t
    | .inf s => overflowCode t sat s
    | .fin s m e =>
      let sg := if s then signBit t else 0
      if t = 1 && m ≠ 0 && underflows 7 m e then sg
      else
        let c := magCode (fracBits t) (biasOf t) m e
        if maxCode t < c then overflowCode t sat s else sg + c

/-- An FP32 result written in a type: one rounding to FP32, then the conversion (R41, R52). -/
def FpVal.store (a : FpVal) (t : Nat) (sat : Bool) : Nat := a.r32.toType t sat

/-- Exponent of the largest finite value of an MX element type (R53 step 2). -/
def mxExp (t : Nat) : Int :=
  match t with
  | 0x08 => 8
  | 0x09 => 15
  | 0x0A => 4
  | _ => 2

/-- The scale byte of a block with largest magnitude m·2^e (R53). -/
def mxScale (t : Nat) (m : Nat) (e : Int) : Nat :=
  if m = 0 then 0 else (max 0 (floorLog m e - mxExp t + 127)).toNat

/-- One element of a block: divided by the scale, rounded, saturated (R53 step 3). -/
def mxElem (t scale : Nat) (a : FpVal) : Nat :=
  match a with
  | .nan => 0
  | .inf s => (if s then signBit t else 0) + maxCode t
  | .fin s m e =>
    (if s then signBit t else 0) + min (maxCode t) (magCode (fracBits t) (biasOf t) m (e - ((scale : Int) - 127)))

/-- The largest magnitude of a block; an infinity counts as the FP32 maximum (R53 step 1). -/
def mxLargest (l : List FpVal) : FpVal :=
  l.foldl (fun a x =>
    match x with
    | .inf _ => a.larger (ofF32 0x7F7FFFFF)
    | x => a.larger x.abs) FpVal.zero

/-- A block of FP32 values in an MX type: the scale byte and the elements (R53). -/
def mxBlock (t : Nat) (l : List FpVal) : Nat × List Nat :=
  if l.any FpVal.isNan then (0xFF, l.map (fun _ => 0))
  else
    match mxLargest l with
    | .fin _ m e =>
      let sc := mxScale t m e
      (sc, l.map (mxElem t sc))
    | _ => (0xFF, l.map (fun _ => 0))

/-! ### FP32 arithmetic and sums -/

/-- FP32 sum, difference, product, fused multiply-add: one rounding each. -/
def add32 (a b : FpVal) : FpVal := (a.add b).r32
def sub32 (a b : FpVal) : FpVal := (a.sub b).r32
def mul32 (a b : FpVal) : FpVal := (a.mul b).r32
def fma32 (a b c : FpVal) : FpVal := ((a.mul b).add c).r32

/-- The exact sum of a list. -/
def sumExact (l : List FpVal) : FpVal := l.foldl FpVal.add FpVal.zero

/-- One product of a group, and the group sum that enters the accumulator with one rounding (R51). -/
def groupSum (ps : List (FpVal × FpVal)) : FpVal :=
  match ps with
  | [] => FpVal.zero
  | p :: r => r.foldl (fun a q => a.add (q.1.mul q.2)) (p.1.mul p.2)

/-- Pick the element at place `k` of a list out of it. -/
def pick {α : Type} (l : List α) (k : Nat) : Option (α × List α) :=
  match l, k with
  | [], _ => none
  | a :: r, 0 => some (a, r)
  | a :: r, k + 1 => (pick r k).map (fun q => (q.1, a :: q.2))

/-- A sum in an order that the manual does not fix: two addends, chosen freely, are replaced by their FP32 sum until one
is left (R55, R90, R103, R275; log 10). `e`, `i`: the draw and its first choice. -/
def looseSum (e i : Nat) (l : List FpVal) : Nat → FpVal
  | 0 => l.headD FpVal.zero
  | n + 1 =>
    match pick l (Config.order e (2 * i) % l.length) with
    | none => FpVal.zero
    | some (a, r) =>
      match pick r (Config.order e (2 * i + 1) % r.length) with
      | none => a
      | some (b, r') => looseSum e (i + 1) (add32 a b :: r') n

/-- The sum of a row in an unspecified order, rounded to FP32. -/
def rowSum (e i : Nat) (l : List FpVal) : FpVal := (looseSum e i l l.length).r32

end Sys2Proof.Machine
end

