-- ==== Sys2Proof/Machine/Ports.lean ====
section
/-! DEFINITION. The fields of a stream queue (Tables 3 and 4 of 10), the port of a BLOCK queue (R256), and reads of
entries that are not yet written (R259). -/

namespace Sys2Proof.Machine
open Sys2Proof

def Queue.kind (q : Queue) : Nat := fieldAt q.cfg.toNat 56 2
def Queue.prodRegion (q : Queue) : Nat := fieldAt q.cfg.toNat 52 4
def Queue.prodBlock (q : Queue) : Nat := fieldAt q.cfg.toNat 50 2
def Queue.consumer (q : Queue) : Nat := fieldAt q.cfg.toNat 48 2
def Queue.pkt (q : Queue) : Nat := fieldAt q.cfg.toNat 42 6 + 1
def Queue.thresh (q : Queue) : Nat := fieldAt q.cfg.toNat 36 6 + 1
def Queue.esize (q : Queue) : Nat := (fieldAt q.cfg.toNat 29 7 + 1) * 32
def Queue.cap (q : Queue) : Nat := fieldAt q.cfg.toNat 17 12 + 1
/-- First byte of the storage in the consumer's block buffer, and of the port in the producer's. -/
def Queue.base (q : Queue) : Nat := fieldAt q.cfg.toNat 0 12 * 4096
def Queue.control (q : Queue) : Nat := fieldAt q.flags.toNat 16 10
def Queue.ready (q : Queue) : Nat := fieldAt q.flags.toNat 0 10

/-- Byte of the storage at which entry `e` starts (R254). -/
def Queue.entryAt (q : Queue) (e : Nat) : Nat := q.base + e % q.cap * q.esize

/-- The keys of all queues, region by region. -/
def queueKeys : List Nat := List.range 384

/-- The BLOCK queue into whose port byte `a` of block `k`'s buffer leads (R256). -/
def Dev.portAt (d : Dev) (k a : Nat) : Option Nat :=
  queueKeys.find? (fun i =>
    let q := d.queue i
    decide (q.kind = 2) && decide (4 * q.prodRegion + q.prodBlock = k) && decide (q.base ≤ a) &&
      decide (a < q.base + q.cap * q.esize))

/-- Entries of an offered packet that are not yet written, but for those whose place in the ring still holds an entry that
has not been released: a read of that place is one of the older entry. -/
def Queue.unwritten (q : Queue) : List Nat :=
  q.pkts.flatMap (fun p =>
    if p.offered && !p.closed then
      ((List.range (q.pkt - p.written)).map (fun i => (p.first.toNat + p.written + i) % 65536)).filter (fun e =>
        decide ((BitVec.ofNat 16 e - q.release).toNat < q.cap))
    else [])

/-- A read of bytes `a` to `a + n − 1` of block `k`'s buffer meets an entry that it must wait for (R259). -/
def Dev.readWaits (d : Dev) (k a n : Nat) : Bool :=
  (List.range 32).any (fun j =>
    let q := d.queue (k / 4 * 32 + j)
    q.kind != 0 && q.consumer == k % 4 &&
      q.unwritten.any (fun e => decide (q.entryAt e < a + n) && decide (a < q.entryAt e + q.esize)))

/-- Bytes of a read with those of a port replaced by zeros (R256). -/
def Dev.hidePort (d : Dev) (k a : Nat) (bs : List Byte) : List Byte :=
  match bs with
  | [] => []
  | b :: r => (if (d.portAt k a).isSome then 0 else b) :: d.hidePort k (a + 1) r

end Sys2Proof.Machine
end

