-- ==== Sys2Proof/Machine/Operands.lean ====
section
/-! DEFINITION. Operands of macro-operations: the fields of an operation word (03_macro_ops, Encoding), the descriptor
table, layouts and their address functions (04_layouts), strides (R97), and the reading and writing of elements in
scratchpads, block buffers and device memory. -/

namespace Sys2Proof.Machine
open Sys2Proof

/-! ### The operation word (Table 1 of 03) -/

/-- An operation word: 256 bits. -/
abbrev OpWord := Nat

def OpWord.opcode (w : OpWord) : Nat := fieldAt w 0 8
def OpWord.mask (w : OpWord) : Nat := fieldAt w 8 8
def OpWord.typeS0 (w : OpWord) : Nat := fieldAt w 16 5
def OpWord.typeS1 (w : OpWord) : Nat := fieldAt w 21 5
def OpWord.typeD (w : OpWord) : Nat := fieldAt w 26 5
def OpWord.layS0 (w : OpWord) : Nat := fieldAt w 32 3
def OpWord.layS1 (w : OpWord) : Nat := fieldAt w 35 3
def OpWord.layD (w : OpWord) : Nat := fieldAt w 38 3
def OpWord.hint (w : OpWord) : Nat := fieldAt w 41 2
def OpWord.idxPol (w : OpWord) : Nat := fieldAt w 43 2
def OpWord.waitNum (w : OpWord) : Nat := fieldAt w 45 10
def OpWord.waitEn (w : OpWord) : Bool := bitAt w 55
def OpWord.setNum (w : OpWord) : Nat := fieldAt w 56 10
def OpWord.setEn (w : OpWord) : Bool := bitAt w 66
/-- Operand descriptor `i`: SRC0 to SRC3, DST0, DST1. -/
def OpWord.opnd (w : OpWord) (i : Nat) : Nat := fieldAt w (67 + 10 * i) 10
def OpWord.fence (w : OpWord) : Bool := bitAt w 127

/-- TILE body (Table 3). -/
def OpWord.tileM (w : OpWord) : Nat := fieldAt w 128 12 + 1
def OpWord.tileN (w : OpWord) : Nat := fieldAt w 140 12 + 1
def OpWord.tileK (w : OpWord) : Nat := fieldAt w 152 16 + 1
/-- Byte offset of source 0, 1, 2 (`i` 0 to 2) and destination 0 (`i` = 3). -/
def OpWord.tileOff (w : OpWord) (i : Nat) : Nat := 64 * fieldAt w (168 + 16 * i) 16
def OpWord.tileSat (w : OpWord) : Bool := bitAt w 232

/-- STRIDED body: stride `j` in elements (R63). -/
def OpWord.stride (w : OpWord) (j : Nat) : Int := signedOf 32 (fieldAt w (128 + 32 * j) 32)

/-- CONTROL bodies (Table 4). -/
def OpWord.flag (w : OpWord) : Nat := fieldAt w 128 10
def OpWord.count (w : OpWord) : Nat := fieldAt w 138 16
def OpWord.peek (w : OpWord) : Bool := bitAt w 154
def OpWord.region (w : OpWord) : Nat := fieldAt w 156 4
def OpWord.stackMask (w : OpWord) : Nat := fieldAt w 128 2
def OpWord.queue (w : OpWord) : Nat := fieldAt w 133 5
def OpWord.diag (w : OpWord) : Bool := bitAt w 138
def OpWord.diagStack (w : OpWord) : Nat := fieldAt w 139 5
def OpWord.arg (w : OpWord) : Nat := fieldAt w 160 32
def OpWord.scanK (w : OpWord) : Nat := fieldAt w 160 10 + 1
def OpWord.metric (w : OpWord) : Nat := fieldAt w 170 2
def OpWord.scanDim (w : OpWord) : Nat := 32 * (fieldAt w 172 7 + 1)
def OpWord.rootEn (w : OpWord) : Bool := bitAt w 179
def OpWord.root (w : OpWord) : Nat := fieldAt w 180 4
def OpWord.nlist (w : OpWord) : Nat := fieldAt w 184 4 + 1
def OpWord.tag (w : OpWord) : Nat := fieldAt w 188 8
def OpWord.treeBytes (w : OpWord) : Nat := fieldAt w 128 17
def OpWord.treeOp (w : OpWord) : Nat := fieldAt w 145 2
def OpWord.port (w : OpWord) : Nat := fieldAt w 128 4
def OpWord.channel (w : OpWord) : Nat := fieldAt w 132 8
def OpWord.spanBytes (w : OpWord) : Nat := fieldAt w 144 32

/-- Body forms (Table 7). -/
def isTileOp (o : Nat) : Bool := o == 0x01 || o == 0x02 || o == 0x38 || o == 0x39 || o == 0x3A
def isStridedOp (o : Nat) : Bool :=
  o == 0x08 || o == 0x09 || o == 0x0A || o == 0x10 || o == 0x11 || o == 0x18 || o == 0x19 || o == 0x1A
def isIndexedOp (o : Nat) : Bool := o == 0x18 || o == 0x19 || o == 0x1A
/-- Opcodes of Table 7. -/
def isOpcode (o : Nat) : Bool :=
  isTileOp o || isStridedOp o || o == 0x20 || o == 0x21 || o == 0x28 || o == 0x29 || o == 0x2A || o == 0x30 ||
    o == 0x31 || o == 0x32

/-! ### The descriptor table (R61) -/

/-- Undefined contents of a region's SRAM at place `k` (R39, log 3). -/
def sramUnlisted (ep : Tab Nat) (span : Nat) (k : Nat) : Byte :=
  let e := Tab.read (fun _ => 0) ep (k / span)
  if e = 0 then 0 else Config.freeByte e k

/-- Sizes: a scratchpad, a block buffer. -/
def cellBytes : Nat := 4194304
def bbufBytes : Nat := 16777216

/-- What unlisted bytes of the scratchpads and of the block buffers read as. -/
def Dev.scratchDflt (d : Dev) : Nat → Byte := sramUnlisted d.sramEpoch (32 * cellBytes)
def Dev.bbufDflt (d : Dev) : Nat → Byte := sramUnlisted d.sramEpoch (4 * bbufBytes)

/-- Bytes of block `k`'s buffer. -/
def Dev.bbufRead (d : Dev) (k a n : Nat) : List Byte := Tab.readN d.bbufDflt d.bbuf (k * bbufBytes + a) n
/-- Bytes of cell `g`'s scratchpad. -/
def Dev.cellRead (d : Dev) (g a n : Nat) : List Byte := Tab.readN d.scratchDflt d.scratch (g * cellBytes + a) n

/-- Words that a write of `n` bytes at place `k` covers whole are good again (R40). -/
def cleanWords (bad : List Nat) (k n : Nat) : List Nat :=
  bad.filter (fun w => !(decide (k ≤ 4 * w) && decide (4 * w + 4 ≤ k + n)))

/-- Write bytes into block `k`'s buffer. -/
def Dev.bbufWrite (d : Dev) (k a : Nat) (bytes : List Byte) : Dev :=
  { d with bbuf := Tab.writeN d.bbufDflt d.bbuf (k * bbufBytes + a) bytes
           badBbuf := cleanWords d.badBbuf (k * bbufBytes + a) bytes.length }
/-- Write bytes into cell `g`'s scratchpad. -/
def Dev.cellWrite (d : Dev) (g a : Nat) (bytes : List Byte) : Dev :=
  { d with scratch := Tab.writeN d.scratchDflt d.scratch (g * cellBytes + a) bytes
           badScratch := cleanWords d.badScratch (g * cellBytes + a) bytes.length }

/-- Entry `e` of the descriptor table of block `k`: 32 bytes of the block buffer. -/
def Dev.descEntry (d : Dev) (k e : Nat) : Nat := ofBytes (d.bbufRead k (32 * e) 32)

/-- A geometry record (Table 6). -/
structure Geo where
  strideOp : Nat
  e0 : Nat
  e1 : Nat
  e2 : Nat
  e3 : Nat
  sat : Bool
  func : Nat
  mode : Nat
  transpose : Bool
  rows : Nat
  /-- OFF_S0, OFF_S1, OFF_S2, OFF_D0. -/
  offs : List Nat
  /-- A reserved field is not zero. -/
  bad : Bool
  deriving DecidableEq, Repr

/-- The geometry record in a table entry. -/
def geoOf (x : Nat) : Geo where
  strideOp := fieldAt x 2 2
  e0 := fieldAt x 16 16 + 1
  e1 := fieldAt x 32 16 + 1
  e2 := fieldAt x 48 16 + 1
  e3 := fieldAt x 64 16 + 1
  sat := bitAt x 80
  func := fieldAt x 81 6
  mode := fieldAt x 87 2
  transpose := bitAt x 89
  rows := fieldAt x 96 32
  offs := (List.range 4).map (fun j => fieldAt x (128 + 32 * j) 32)
  bad := fieldAt x 4 12 != 0 || fieldAt x 90 6 != 0

/-- The number of rows of all matrices, of elements. -/
def Geo.rowsAll (g : Geo) : Nat := g.e1 * g.e2 * g.e3
def Geo.elems (g : Geo) : Nat := g.e0 * g.rowsAll

/-- What an operand descriptor names. -/
inductive Res where
  | none
  | br (n : Nat)
  /-- An address descriptor: in the block buffer or in device memory; a reserved field is not zero. -/
  | addr (buf : Bool) (base size : Nat) (bad : Bool)
  | geo (g : Geo)
  /-- A table entry of kind 0 or 3. -/
  | invalid
  deriving DecidableEq, Repr

/-- An address descriptor (Table 5). -/
def addrOf (x : Nat) : Res :=
  .addr (bitAt x 2) (fieldAt x 64 48) (fieldAt x 128 40)
    (fieldAt x 3 61 != 0 || fieldAt x 112 16 != 0 || fieldAt x 168 88 != 0)

/-- What an operand descriptor names, when the table entry is `x` (Table 2, R61). -/
def resolveRaw (desc x : Nat) : Res :=
  if desc = 0x3FF then .none
  else if bitAt desc 9 then
    match fieldAt x 0 2 with
    | 1 => addrOf x
    | 2 => .geo (geoOf x)
    | _ => .invalid
  else .br (fieldAt desc 0 6)

/-- The table entries that the operands of an operation of block `k` name. -/
def Dev.rawsOf (d : Dev) (k : Nat) (w : OpWord) : List Nat :=
  (List.range 6).map (fun i =>
    let o := w.opnd i
    if o != 0x3FF && bitAt o 9 then d.descEntry k (fieldAt o 0 9) else 0)

/-! ### Buffer regions (R36, Table 11 of 02) -/

/-- VALID, base and size in bytes of a buffer region of cell `g`. -/
def Dev.bufregValid (d : Dev) (g n : Nat) : Bool := (d.bufreg (64 * g + n)).getLsbD 31
def Dev.bufregBase (d : Dev) (g n : Nat) : Nat := fieldAt (d.bufreg (64 * g + n)).toNat 0 10 * 4096
def Dev.bufregSize (d : Dev) (g n : Nat) : Nat := (fieldAt (d.bufreg (64 * g + n)).toNat 20 10 + 1) * 4096
def Dev.bufregLive (d : Dev) (g n : Nat) : Bool := (d.bufreg (64 * g + n)).getLsbD 30

/-- Cells that CELL_MASK selects in block `k`, by their global numbers, lowest first. -/
def cellsOf (k mask : Nat) : List Nat := (bitsOf mask 8).map (fun c => 8 * k + c)

/-- The lowest selected cell; 0 where none is. -/
def firstCell (k mask : Nat) : Nat := (cellsOf k mask).headD 0

/-! ### Layouts (Table 1, R106 to R113) -/

/-- Panel units (Table 2): elements and bytes of a unit; none for a type outside the table. -/
def panelUnit (t : Nat) : Option (Nat × Nat) :=
  match t with
  | 0x01 | 0x02 => some (1, 2)
  | 0x03 | 0x04 | 0x05 | 0x08 | 0x09 => some (2, 2)
  | 0x06 => some (2, 1)
  | 0x0A | 0x0B => some (4, 3)
  | 0x0C => some (4, 2)
  | _ => none

/-- K rounded up: to 32 for MX types, to the unit otherwise (R33, R106). -/
def roundK (t k : Nat) : Nat :=
  let ks := ((panelUnit t).getD (1, 4)).1
  if isMx t then ceilDiv k 32 * 32 else ceilDiv k ks * ks

/-- Panel size Sₚ (R108). -/
def panelSize (t k : Nat) : Nat :=
  let u := (panelUnit t).getD (1, 4)
  64 * (roundK t k / u.1) * u.2

/-- Bytes of a row of a BANK_VIEW operand: P (R113). -/
def bankPitch (t e0 : Nat) : Nat := ceilDiv (ceilDiv (e0 * typeBits t) 8) 32 * 32

/-- Footprint in bytes of an E₁ × E₀ matrix (R107 to R113). -/
def footprint (lay t e0 e1 : Nat) : Nat :=
  match lay with
  | 1 => ceilDiv e1 64 * panelSize t e0
  | 2 => ceilDiv e0 64 * panelSize t e1
  | 3 => ceilDiv e1 64 * ceilDiv e0 64 * 4096 * (typeBits t / 8)
  | 4 => e1 * bankPitch t e0
  | 5 => ceilDiv e1 64 * 64 * e0
  | _ => ceilDiv (e1 * e0 * typeBits t) 8

/-- Bit of unit element: row or column `x` of its panel, position `k` along K (R108, R109). -/
def panelBit (t klen x k : Nat) : Nat :=
  let u := (panelUnit t).getD (1, 4)
  (x / 64 * panelSize t klen + (k / u.1 * 64 + x % 64) * u.2) * 8 + k % u.1 * typeBits t

/-- Bit at which element (row `r`, column `c`) of an E₁ × E₀ matrix starts (R107 to R113). -/
def elemBit (lay t e0 e1 r c : Nat) : Nat :=
  match lay with
  | 1 => panelBit t e0 r c
  | 2 => panelBit t e1 c r
  | 3 => ((r / 64 * ceilDiv e0 64 + c / 64) * 4096 + r % 64 * 64 + c % 64) * typeBits t
  | 4 => r * bankPitch t e0 * 8 + c * typeBits t
  | 5 => (r / 64 * 64 * e0 + c * 64 + r % 64) * 8
  | _ => (r * e0 + c) * typeBits t

/-- Bit of element `n` (R97) of a dense operand: its matrix, then its place in the matrix. -/
def denseBit (lay t e0 e1 n : Nat) : Nat :=
  n / (e0 * e1) * footprint lay t e0 e1 * 8 + elemBit lay t e0 e1 (n / e0 % e1) (n % e0)

/-- Bit of element `n` of the strided operand, signed (R97). -/
def stridedBit (w : OpWord) (g : Geo) (t n : Nat) : Int :=
  let i0 := n % g.e0
  let i1 := n / g.e0 % g.e1
  let i2 := n / (g.e0 * g.e1) % g.e2
  let i3 := n / (g.e0 * g.e1 * g.e2)
  ((i0 : Int) * w.stride 0 + (i1 : Int) * w.stride 1 + (i2 : Int) * w.stride 2 + (i3 : Int) * w.stride 3) * typeBits t

/-! ### Turn buffers (R46) -/

/-- Bytes that cell `g` exchanges with the block buffer pass its turn buffer in shares of 4,096 bytes (R46). DESIGN CHOICE (log
112): a share stands from byte 0 of the turn buffer on, and what it does not reach stays. -/
def turnBuffer (m : Mem) (bs : List Byte) : Mem :=
  let n := bs.length / 4096 * 4096
  Tab.writeN zeroByte (Tab.writeN zeroByte m 0 ((bs.take n).drop (n - 4096))) 0 (bs.drop n)

/-- Cell `g` exchanges bytes with the block buffer. -/
def Dev.exchange (d : Dev) (g : Nat) (bs : List Byte) : Dev :=
  if bs.isEmpty then d else d.modCell g (fun y => { y with turnBuf := turnBuffer y.turnBuf bs })

/-! ### Elements in memory -/

/-- One element of an operand: its bit counted from the operand's base, and its width in bits. -/
abbrev Elt := Nat × Nat

/-- Where an operand lies. -/
inductive View where
  | cell (g base : Nat)
  | buf (k base : Nat)
  | dev (base : Nat)
  deriving DecidableEq, Repr

/-- The view of a resolved operand for cell `g` of block `k`. -/
def Dev.viewOf (d : Dev) (x : Res) (k g : Nat) : View :=
  match x with
  | .br n => .cell g (d.bufregBase g n)
  | .addr true base _ _ => .buf k base
  | .addr false base _ _ => .dev base
  | _ => .buf k 0

/-- Insert the bytes lo to hi − 1 into rising, disjoint runs (first byte, end), joining those that touch. -/
def addRun (rs : List (Nat × Nat)) (lo hi : Nat) : List (Nat × Nat) :=
  match rs with
  | [] => [(lo, hi)]
  | (a, b) :: r =>
    if hi < a then (lo, hi) :: (a, b) :: r
    else if b < lo then (a, b) :: addRun r lo hi
    else addRun r (min a lo) (max b hi)

/-- The bytes that elements touch, as rising runs. -/
def runsOf (es : List Elt) : List (Nat × Nat) :=
  es.foldl (fun rs e => addRun rs (e.1 / 8) ((e.1 + e.2 + 7) / 8)) []

/-- A copy of bytes, keyed by the byte's place from the operand's base. -/
abbrev Local := Mem

/-- Code and word of the first word of a run whose stored parity is bad (R40). -/
def badWord (bad : List Nat) (k n : Nat) : Option Nat :=
  bad.find? (fun w => decide (k < 4 * w + 4) && decide (4 * w < k + n))

/-- Codes of the parity halts (Table 1 of 19). -/
def codeScratchParity : Nat := 0x10
def codeBbufParity : Nat := 0x11
def codeImemParity : Nat := 0x12
def codeXnetParity : Nat := 0x13

/-- Offsets of the counters of block `k` and of cell `g` (Tables 6, 8 of 02, Table 13 of 03). -/
def blockAt (k : Nat) : Nat := blockBase (k / 4) (k % 4)
def blockReplaysAt (k : Nat) : Nat := blockAt k + 0x008
def indexZeroedAt (k : Nat) : Nat := blockAt k + 0x018
def opsCompletedAt (k : Nat) : Nat := blockAt k + 0x020
def cellAt (g : Nat) : Nat := blockAt (g / 8) + 0x4000 + g % 8 * 0x2000
def cellReplaysAt (g : Nat) : Nat := cellAt g + 0x008

/-- Replays of a word before its unit halts: that many have failed (R22). -/
def replayLimit : Nat := 3

/-- Words of a run whose read meets an error on its path, and the replays that each takes. -/
def pathReplays (path : Tab Nat) (k n : Nat) : List (Nat × Nat) :=
  path.filter (fun e => decide (k < 4 * e.1 + 4) && decide (4 * e.1 < k + n))

/-- The errors on the paths of a run are over. -/
def cleanPath (path : Tab Nat) (k n : Nat) : Tab Nat :=
  path.filter (fun e => !(decide (k < 4 * e.1 + 4) && decide (4 * e.1 < k + n)))

/-- Bank of a cell's scratchpad that holds word `x` (R34, Table 10 of 02). -/
def wordBank (x : Nat) : Nat := x * 4 / 128 % 32

/-- A scratchpad word is replayed `n` times: the cell counts them, and its bank is the last one (Tables 9, 10 of 02). -/
def Dev.cellReplayed (d : Dev) (x n : Nat) : Dev :=
  let g := x / (cellBytes / 4)
  (d.bumpBy (cellReplaysAt g) n).modCell g (fun y => { y with lastBank := wordBank x })

/-- `n` bytes of the scratchpads from byte `k` are read (R22, R40): the replays are counted, and a word that fails three of
them, as one with a flipped bit in storage does, stops the read. -/
def Dev.scratchWords (d : Dev) (k n : Nat) : Acc Dev :=
  match badWord d.badScratch k n, (pathReplays d.pathScratch k n).find? (fun e => decide (replayLimit < e.2)) with
  | some x, _ => .error (.parity codeScratchParity x)
  | none, some e => .error (.parity codeScratchParity e.1)
  | none, none =>
    .ok ((pathReplays d.pathScratch k n).foldl (fun a e => a.cellReplayed e.1 e.2)
      { d with pathScratch := cleanPath d.pathScratch k n })

/-- `n` bytes of the block buffers from byte `k` are read (R22, R40). -/
def Dev.bbufWords (d : Dev) (k n : Nat) : Acc Dev :=
  match badWord d.badBbuf k n, (pathReplays d.pathBbuf k n).find? (fun e => decide (replayLimit < e.2)) with
  | some x, _ => .error (.parity codeBbufParity x)
  | none, some e => .error (.parity codeBbufParity e.1)
  | none, none =>
    .ok ((pathReplays d.pathBbuf k n).foldl (fun a e => a.bumpBy (blockReplaysAt (e.1 / (bbufBytes / 4))) e.2)
      { d with pathBbuf := cleanPath d.pathBbuf k n })

/-- Read one run of bytes of a view; a read of a queue entry that is not yet written waits (R259). -/
def Dev.readRun (d : Dev) (w : Who) (v : View) (lo n : Nat) : Acc (Dev × List Byte) :=
  match v with
  | .cell g base =>
    match d.scratchWords (g * cellBytes + base + lo) n with
    | .error e => .error e
    | .ok d1 => .ok (d1, d.cellRead g (base + lo) n)
  | .buf k base =>
    if d.readWaits k (base + lo) n then .error .locked
    else
      match d.bbufWords (k * bbufBytes + base + lo) n with
      | .error e => .error e
      | .ok d1 => .ok (d1, d.hidePort k (base + lo) (d.bbufRead k (base + lo) n))
  | .dev base => d.load w (base + lo) n

/-- Read runs of a view into a local copy. -/
def Dev.readRuns (d : Dev) (w : Who) (v : View) (m : Local) (rs : List (Nat × Nat)) : Acc (Dev × Local) :=
  match rs with
  | [] => .ok (d, m)
  | (a, b) :: r =>
    match d.readRun w v a (b - a) with
    | .error e => .error e
    | .ok (d1, bs) => d1.readRuns w v (Tab.writeN zeroByte m a bs) r

/-- Read elements of a view. -/
def Dev.fetch (d : Dev) (w : Who) (v : View) (es : List Elt) : Acc (Dev × Local) := d.readRuns w v [] (runsOf es)

/-- The number in the bits of an element of a local copy. -/
def Local.bits (m : Local) (e : Elt) : Nat :=
  fieldAt (ofBytes (Tab.readN zeroByte m (e.1 / 8) ((e.1 % 8 + e.2 + 7) / 8))) (e.1 % 8) e.2

/-- The number with `n` bits from place `lo` replaced by `v`. -/
def putBits (x lo n v : Nat) : Nat := x - fieldAt x lo n * 2 ^ lo + v % 2 ^ n * 2 ^ lo

/-- The local copy with an element written. -/
def Local.put (m : Local) (e : Elt) (v : Nat) : Local :=
  let n := (e.1 % 8 + e.2 + 7) / 8
  let old := ofBytes (Tab.readN zeroByte m (e.1 / 8) n)
  Tab.writeN zeroByte m (e.1 / 8) (bytesOf (putBits old (e.1 % 8) e.2 v) n)

/-- Bytes that block `k` is about to write from address `a` on, where the host has written of a DEVICE page while the
operation was in flight: what both write is unpredictable (R371). -/
def Dev.mixedBytes (d : Dev) (k a : Nat) (bytes : List Byte) : List Byte :=
  if d.host.mixed.isEmpty then bytes
  else
    (bytes.zip (List.range bytes.length)).map (fun p =>
      match d.host.mixed.find? (fun x => decide (x.blk = k) && (d.blk k).fly.any (fun f => decide (f.index = x.index)) &&
          decide (x.addr ≤ a + p.2) && decide (a + p.2 < x.addr + x.len)) with
      | some x => Config.freeByte x.draw (2 ^ 48 + a + p.2)
      | none => p.1)

/-- Write one run of bytes of a view. -/
def Dev.writeRun (d : Dev) (w : Who) (v : View) (lo : Nat) (bytes : List Byte) : Acc Dev :=
  match v with
  | .cell g base => .ok (d.cellWrite g (base + lo) bytes)
  | .buf k base => .ok (d.bbufWrite k (base + lo) bytes)
  | .dev base =>
    d.store w (base + lo) (if w.unit < 4 then d.mixedBytes (4 * w.region + w.unit) (base + lo) bytes else bytes)

/-- Write runs of a local copy into a view, one after another. -/
def Dev.writeEach (d : Dev) (w : Who) (v : View) (m : Local) (rs : List (Nat × Nat)) : Acc Dev :=
  match rs with
  | [] => .ok d
  | (a, b) :: r =>
    match d.writeRun w v a (Tab.readN zeroByte m a (b - a)) with
    | .error e => .error e
    | .ok d1 => d1.writeEach w v m r

/-- Addresses of the chunks that runs from `base` cover whole, by their distance from `base`'s chunk. -/
def wholeChunks (base : Nat) (rs : List (Nat × Nat)) : List Nat :=
  rs.flatMap (fun r =>
    let lo := ceilDiv (base + r.1) 32
    (List.range ((base + r.2) / 32 - lo)).map (fun j => 32 * (lo + j)))

/-- Bank-view addresses of chunks of data die 0 whose whole stripe the runs cover (R176, R309). -/
def wholeStripes (base : Nat) (rs : List (Nat × Nat)) : List Nat :=
  if bitAt base 46 then
    let cs := wholeChunks base rs
    if cs.any (fun a => decide (fieldAt a 33 4 = 15)) then
      cs.filter (fun a => decide (fieldAt a 33 4 = 0) &&
        (List.range 16).all (fun i => cs.contains (a + i * 2 ^ 33)))
    else []
  else []

/-- What follows the full-stripe write of chunks in the bank view: the cache line of each, and the mirror stream (R292). -/
def Dev.afterChunks (d : Dev) (w : Who) (ps : List (Nat × List Byte)) : Acc Dev :=
  match ps with
  | [] => .ok d
  | p :: r =>
    match d.lineBefore w p.1 32 with
    | .error e => .error e
    | .ok (d1, base) => ((d1.cacheStore w p.1 base p.2).streamOut p.1 p.2).afterChunks w r

/-- Addresses of the sixteen chunks of a stripe of the bank view, by the address of the one on die 0, with their bytes. -/
def stripeParts (a : Nat) (chunks : List (List Byte)) : List (Nat × List Byte) :=
  ((List.range 16).zip chunks).map (fun q => (a + q.1 * 2 ^ 33, q.2))

/-- What follows the write of a chunk of a mirror copy: a line that the cache holds takes it, and the stack's dispatches see
it. -/
def Dev.mirrorLine (d : Dev) (w : Who) (a : Nat) (bytes : List Byte) : Dev :=
  let base := match (d.stk (fieldAt a 37 5)).goodLine (a / 512) with
    | some l => l.data
    | none => []
  (d.cacheStore w.mirroring a base bytes).raceRange a bytes.length

/-- The base die's duplicate of a full-stripe write, itself a full-stripe write (R309, R311). -/
def Dev.mirrorStripe (d : Dev) (w : Who) (a : Nat) (chunks : List (List Byte)) : Acc Dev :=
  match d.mirrorAddr a with
  | none => .ok d
  | some m =>
    match d.barred w.mirroring m, d.decodeAddr m with
    | some e, _ => .error e
    | none, .at l =>
      match d.stripeStore w.mirroring false l.st l.stripe chunks with
      | .error e => .error e
      | .ok d1 => .ok ((stripeParts m chunks).foldl (fun x p => x.mirrorLine w p.1 p.2) d1)
    | none, _ => .error .unmapped

/-- Stripes that one operation writes whole through the bank view, each by the address of its chunk on die 0 and its sixteen
chunks: the base die forms their check symbols directly (R176, R309), and duplicates them (R311). -/
def Dev.writeStripes (d : Dev) (w : Who) (ss : List (Nat × List (List Byte))) : Acc Dev :=
  match ss with
  | [] => .ok d
  | (a, data) :: r =>
    let chunks := (stripeParts a data).map (fun p => d.stepBytes w p.1 p.2)
    match d.barred w a, d.decodeAddr a with
    | some e, _ => .error e
    | none, .at l =>
      match d.stripeStore w w.flips l.st l.stripe chunks with
      | .error e => .error e
      | .ok d1 =>
        match ((stripeParts a chunks).foldl (fun x p => x.stepUses w p.1 32) d1).afterChunks w (stripeParts a chunks) with
        | .error e => .error e
        | .ok d2 =>
          match d2.mirrorStripe w a chunks with
          | .error e => .error e
          | .ok d3 => d3.writeStripes w r
    | none, _ => .error .unmapped

/-- The run without the chunk at distance `k`. -/
def cutRun (k : Nat) (r : Nat × Nat) : List (Nat × Nat) :=
  if r.1 ≤ k && k + 32 ≤ r.2 then
    (if r.1 < k then [(r.1, k)] else []) ++ (if k + 32 < r.2 then [(k + 32, r.2)] else [])
  else [r]

/-- Write runs of a local copy into a view: whole stripes of the bank view first, then the rest. -/
def Dev.writeRuns (d : Dev) (w : Who) (v : View) (m : Local) (rs : List (Nat × Nat)) : Acc Dev :=
  match v with
  | .dev base =>
    let as := wholeStripes base rs
    match d.writeStripes w (as.map (fun a =>
        (a, (List.range 16).map (fun i => Tab.readN zeroByte m (a + i * 2 ^ 33 - base) 32)))) with
    | .error e => .error e
    | .ok d1 =>
      let cs := as.flatMap (fun a => (List.range 16).map (fun i => a + i * 2 ^ 33 - base))
      d1.writeEach w v m (cs.foldl (fun l k => l.flatMap (cutRun k)) rs)
  | v => d.writeEach w v m rs

/-- Bytes that the elements cover only in part: they are read first, so that their other bits stay. -/
def partBytes (es : List Elt) : List Elt :=
  es.filter (fun e => decide (e.1 % 8 ≠ 0) || decide ((e.1 + e.2) % 8 ≠ 0))

/-- A value to be written: an element and its bits. Later ones replace earlier ones (R98). -/
abbrev Put := Elt × Nat

/-- Absolute byte of a byte of a view: space, unit and address, when two views can meet. -/
def View.key (v : View) (byte : Nat) : Nat × Nat :=
  match v with
  | .cell g base => (0, g * cellBytes + base + byte)
  | .buf k base => (1, k * bbufBytes + base + byte)
  | .dev base => (2, base + byte)

/-- The undefined value of a byte of a view, of draw `e` (R100). -/
def View.freeByte (v : View) (e byte : Nat) : Byte := Config.freeByte e ((v.key byte).1 * 2 ^ 48 + (v.key byte).2)

/-- Write elements into a view; `free`: bytes that get undefined values, of draw `e` (R100). -/
def Dev.putElems (d : Dev) (w : Who) (v : View) (ps : List Put) (free : List Nat) (e : Nat) : Acc Dev :=
  let es := ps.map (·.1)
  match d.fetch w v (partBytes es) with
  | .error x => .error x
  | .ok (d1, old) =>
    let m := ps.foldl (fun a p => Local.put a p.1 p.2) old
    let m := free.foldl (fun a k => Tab.write zeroByte a k (v.freeByte e k)) m
    d1.writeRuns w v m (runsOf es)

/-! ### Overlap of a destination with a source (R100) -/

/-- An indexed element: n, and the element. -/
abbrev Idx := Nat × Elt

/-- The bytes of an element. -/
def Elt.bytes (e : Elt) : List Nat := (List.range ((e.1 + e.2 + 7) / 8 - e.1 / 8)).map (· + e.1 / 8)

/-- A byte of a view lies in an element of another. -/
def meets (v : View) (byte : Nat) (sv : View) (s : Elt) : Bool :=
  decide ((v.key byte).1 = (sv.key 0).1) && decide ((sv.key (s.1 / 8)).2 ≤ (v.key byte).2) &&
    decide ((v.key byte).2 < (sv.key ((s.1 + s.2 + 7) / 8)).2)

/-- Space and unit of an element, and its first bit there. -/
def View.bit (v : View) (e : Elt) : Nat × Nat := ((v.key 0).1, (v.key (e.1 / 8)).2 * 8 + e.1 % 8)

/-- Source elements that a destination element overlaps, bit by bit: two elements that only share a byte do not. -/
def overlapped (v : View) (e : Elt) (sv : View) (src : List Idx) : List Idx :=
  let a := v.bit e
  src.filter (fun s =>
    let b := sv.bit s.2
    decide (a.1 = b.1) && decide (b.2 < a.2 + e.2) && decide (a.2 < b.2 + s.2.2))

/-- A destination element that overlaps the source lies at the address of the source element with its own n (R100); other
elements of the source may lie there too, as one that a stride of zero repeats does (R98). -/
def inPlace (v : View) (x : Idx) (sv : View) (src : List Idx) : Bool :=
  (overlapped v x.2 sv src).isEmpty ||
    src.any (fun s => decide (s.1 = x.1) && decide (sv.bit s.2 = v.bit x.2))

/-- Bytes of the destination, its elements and its padding, that overlap the source when the overlap is not in place: their
values are unpredictable (R100). `loose`: no overlap is in place (R122). -/
def clashBytes (loose : Bool) (v : View) (dst : List Idx) (pads : List Elt) (sv : View) (src : List Idx) : List Nat :=
  if !loose && dst.all (fun x => inPlace v x sv src) && pads.all (fun e => (overlapped v e sv src).isEmpty) then []
  else (dst.map (·.2) ++ pads).flatMap (fun e => (Elt.bytes e).filter (fun b => src.any (fun s => meets v b sv s.2)))

/-- Bytes from the base of a view on, with those at the places `free` undefined, of draw `e` (R100). -/
def View.freed (v : View) (free : List Nat) (e : Nat) (bs : List Byte) : List Byte :=
  (bs.zip (List.range bs.length)).map (fun p => if free.contains p.2 then v.freeByte e p.2 else p.1)

/-- `n` elements of `t` bytes from the base of a view on. -/
def denseElts (n t : Nat) : List Idx := (List.range n).map (fun j => (j, (8 * t * j, 8 * t)))

/-- What rising runs leave of the bits `lo` to `hi` − 1. -/
def gapsOf (lo hi : Nat) (rs : List (Nat × Nat)) : List Elt :=
  match rs with
  | [] => if lo < hi then [(lo, hi - lo)] else []
  | (a, b) :: r => (if lo < a then [(lo, a - lo)] else []) ++ gapsOf b hi r

/-- The bits `lo` to `hi` − 1 that belong to no element of a list: the padding around them (R114). -/
def paddingOf (lo hi : Nat) (es : List Elt) : List Elt := gapsOf lo hi (es.foldl (fun rs e => addRun rs e.1 (e.1 + e.2)) [])

end Sys2Proof.Machine
end

