-- ==== Sys2Proof/Machine/Flags.lean ====
section
/-! DEFINITION. Counting flags (03_macro_ops, R77 to R82): increments, waits in arrival order, CONTROL flags of stream
queues (R261). -/

namespace Sys2Proof.Machine
open Sys2Proof

/-- Key of flag `f` of region `r`. -/
def flagKey (r f : Nat) : Nat := r * 1024 + f

/-- The word of the oldest operation of block `k` that has not issued. Past entry 8,191 issue goes on at entry 0: the manual
names no end of the instruction memory (DESIGN CHOICE, log 100). -/
def Dev.nextWord (d : Dev) (k : Nat) : OpWord := d.opword (k * 8192 + (d.blk k).next % 8192)

/-- The wait that block `k` holds is that of a WAIT_FLAG operation, not an embedded one. -/
def Dev.ownWait (d : Dev) (k : Nat) : Bool :=
  let w := d.nextWord k
  w.opcode == 0x30 && ((d.blk k).waitTaken || !w.waitEn)

/-- The wait of block `k` on flag `f` with count `want` is satisfied (R79): it consumes unless PEEK. -/
def Dev.grantWait (d : Dev) (f k want : Nat) : Dev :=
  let own := d.ownWait k
  let peek := own && (d.nextWord k).peek
  let d1 := if peek then d else d.modFlag f (fun c => c - want)
  d1.modBlk k (fun b =>
    if own then { b with wait := none, flagTaken := true } else { b with wait := none, waitTaken := true })

/-- Serve the waits of flag `f` in order of arrival, until one is not satisfied (R80). -/
def Dev.serveWaits (d : Dev) (f : Nat) (ks : List Nat) : Dev :=
  match ks with
  | [] => d.setWaitq f []
  | k :: r =>
    match (d.blk k).wait with
    | none => d.serveWaits f r
    | some x => if x.2 ≤ d.flag f then (d.grantWait f k x.2).serveWaits f r else d.setWaitq f (k :: r)

/-- Block `k` waits until flag `f` of its region reaches `want` (R79, R80). A wait with COUNT 0 takes its place behind the
earlier waits of the flag, like any other (DESIGN CHOICE, log 96). -/
def Dev.startWait (d : Dev) (k f want : Nat) : Dev :=
  let key := flagKey (k / 4) f
  let d1 := d.modBlk k (fun b => { b with wait := some (f, want), lastWait := (f, want) })
  d1.serveWaits key (d1.waitq key ++ [k])

/-- The queues of region `r` whose CONTROL flag is `f` (R261). -/
def Dev.controlled (d : Dev) (r f : Nat) : Option Nat :=
  (List.range 32).find? (fun j =>
    let q := d.queue (r * 32 + j)
    q.kind != 0 && q.control == f)

/-- An increment of flag `f` of region `r`; none: it would pass 65,535 (R81). A CONTROL flag passes the increment to its
queue, and its count stays zero. -/
def Dev.flagAdd (d : Dev) (r f incr : Nat) : Option Dev :=
  match d.controlled r f with
  | some j => some (d.modQueue (r * 32 + j) (fun q => { q with ctl := q.ctl ++ [incr] }))
  | none =>
    let key := flagKey r f
    if 65535 < d.flag key + incr then none
    else
      let d1 := d.setFlag key (d.flag key + incr)
      some (d1.serveWaits key (d1.waitq key))

/-- Set every flag of region `r` to zero; no wait remains (R77). -/
def Dev.zeroFlags (d : Dev) (r : Nat) : Dev :=
  { d with flags := Tab.clear d.flags (flagKey r 0) (flagKey (r + 1) 0)
           waiters := Tab.clear d.waiters (flagKey r 0) (flagKey (r + 1) 0) }

/-- `FLAG_VALUE` (Table 12). -/
def Dev.flagWord (d : Dev) (r f : Nat) : Word :=
  BitVec.ofNat 32 ((if (d.waitq (flagKey r f)).isEmpty then 0 else 2 ^ 31) + d.flag (flagKey r f))

end Sys2Proof.Machine
end

