-- ==== Sys2Proof/Machine/Functions.lean ====
section
/-! DEFINITION. The vector functions (Tables 3 and 4 of 02_tensor_cells). A function with an error figure may give any
FP32 value within it: the free value `Config.approx` where it lies inside the bound, the nearest value elsewhere
(log 9). The exact results are evaluated in fixed point with 128 fraction bits, far inside every bound. -/

namespace Sys2Proof.Machine
open Sys2Proof

/-! ### Fixed point -/

/-- One, with 128 fraction bits. -/
def fxOne : Int := 2 ^ 128
/-- Product of two fixed-point numbers. -/
def fxMul (a b : Int) : Int := a * b / fxOne
/-- Quotient of two fixed-point numbers. -/
def fxDiv (a b : Int) : Int := a * fxOne / b
/-- A finite value in fixed point, rounded down in magnitude. -/
def FpVal.toFx (a : FpVal) : Int :=
  match a with
  | .fin s m e =>
    let v : Int := if 0 ≤ e + 128 then (shiftUp m (e + 128) : Int) else ((m / 2 ^ (-(e + 128)).toNat : Nat) : Int)
    if s then -v else v
  | _ => 0
/-- The value of a fixed-point number. -/
def ofFx (v : Int) : FpVal := FpVal.signed v (-128)

/-- Σ r^k/k! from term `t` at `k` on. -/
def expTerms (r t : Int) (k : Nat) : Nat → Int
  | 0 => 0
  | n + 1 => t + expTerms r (fxMul t r / ((k : Int) + 1)) (k + 1) n
/-- e^r for a fixed-point |r| ≤ 1. -/
def fxExp (r : Int) : Int := expTerms r fxOne 0 48

/-- Σ ±z^(2k+1)/(2k+1): arc tangents, hyperbolic (`alt` false) or circular. -/
def atanTerms (alt : Bool) (z2 t : Int) (k : Nat) : Nat → Int
  | 0 => 0
  | n + 1 => t / (2 * (k : Int) + 1) + atanTerms alt z2 (if alt then -(fxMul t z2) else fxMul t z2) (k + 1) n
def fxAtanh (z : Int) : Int := atanTerms false (fxMul z z) z 0 64
def fxAtan (z : Int) : Int := atanTerms true (fxMul z z) z 0 64
/-- ln 2 = 2 artanh 1/3. -/
def fxLn2 : Int := 2 * fxAtanh (fxOne / 3)
/-- π = 16 arctan 1/5 − 4 arctan 1/239. -/
def fxPi : Int := 16 * fxAtan (fxOne / 5) - 4 * fxAtan (fxOne / 239)

/-- ⌊√n⌋, from bit `i` down. -/
def isqrtFrom (n r : Nat) : Nat → Nat
  | 0 => r
  | i + 1 => isqrtFrom n (if (r + 2 ^ i) * (r + 2 ^ i) ≤ n then r + 2 ^ i else r) i
def isqrt (n : Nat) : Nat := isqrtFrom n 0 (Nat.log2 n / 2 + 1)
/-- Square root of a fixed-point number. -/
def fxSqrt (a : Int) : Int := (isqrt (a.toNat * 2 ^ 128) : Nat)

/-- Σ of the series of the error function: t_{k+1} = t_k · 2z²/(2k+3). -/
def erfTerms (z2 t : Int) (k : Nat) : Nat → Int
  | 0 => 0
  | n + 1 => t + erfTerms z2 (fxMul t (2 * z2) / (2 * (k : Int) + 3)) (k + 1) n
/-- e^(−a) for a fixed-point a ≥ 0. -/
def fxExpNeg (a : Int) : Int :=
  if 128 * fxOne < a then 0
  else
    let k := a / fxLn2
    fxExp (-(a - k * fxLn2)) / (2 : Int) ^ k.toNat
/-- erf z for 0 ≤ z < 8. -/
def fxErf (z : Int) : Int :=
  fxMul (fxDiv (2 * fxOne) (fxSqrt fxPi)) (fxMul (fxExpNeg (fxMul z z)) (erfTerms (fxMul z z) z 0 260))

/-! ### Exact results -/

/-- e^x (base2 false) or 2^x for a finite x. -/
def realExp (base2 : Bool) (x : FpVal) : FpVal :=
  match x with
  | .fin s m e =>
    if m = 0 then .fin false 1 0
    else if 12 ≤ floorLog m e then (if s then FpVal.zero else .inf false)
    else
      let v := x.toFx
      let k := if base2 then v / fxOne else v / fxLn2
      let r := if base2 then fxMul (v - k * fxOne) fxLn2 else v - k * fxLn2
      .fin false (fxExp r).toNat (k - 128)
  | _ => .nan

/-- ln of m·2^e, m > 0. -/
def realLog (m : Nat) (e : Int) : FpVal :=
  let l := floorLog m e
  let v := (FpVal.fin false m (e - l)).toFx
  let (v, l) := if 3 * fxOne < 2 * v then (v / 2, l + 1) else (v, l)
  ofFx (2 * fxAtanh (fxDiv (v - fxOne) (v + fxOne)) + l * fxLn2)

/-- 1/x for x = ±m·2^e. -/
def realRecip (s : Bool) (m : Nat) (e : Int) : FpVal := .fin s (2 ^ 256 / m) (-e - 256)
/-- √ of m·2^e. -/
def realSqrt (m : Nat) (e : Int) : FpVal :=
  if e % 2 = 0 then .fin false (isqrt (m * 2 ^ 256)) (e / 2 - 128)
  else .fin false (isqrt (2 * m * 2 ^ 256)) ((e - 1) / 2 - 128)
/-- 1/√ of m·2^e. -/
def realRsqrt (m : Nat) (e : Int) : FpVal :=
  match realSqrt m e with
  | .fin _ n f => realRecip false n f
  | y => y

/-- 1/(1 + e^−x) in fixed point. -/
def fxSigmoid (v : Int) : Int :=
  let e := fxExpNeg v.natAbs
  if v < 0 then fxDiv e (fxOne + e) else fxDiv fxOne (fxOne + e)
/-- tanh in fixed point. -/
def fxTanh (v : Int) : Int :=
  let e := fxExpNeg (2 * v.natAbs)
  let t := fxDiv (fxOne - e) (fxOne + e)
  if v < 0 then -t else t
/-- Φ in fixed point. -/
def fxPhi (v : Int) : Int :=
  if 10 * fxOne < v then fxOne
  else if v < -(10 * fxOne) then 0
  else
    let f := fxErf (fxDiv v.natAbs (fxSqrt (2 * fxOne)))
    if v < 0 then (fxOne - f) / 2 else (fxOne + f) / 2
/-- The argument of the hyperbolic tangent in GELU's approximation: √(2/π)(x + 0.044715x³). -/
def fxGeluArg (v : Int) : Int :=
  fxMul (fxSqrt (fxDiv (2 * fxOne) fxPi)) (v + fxMul (fxMul v v) v * 44715 / 1000000)

/-- A function of a fixed-point argument, for |x| < 2^12; its limits beyond. -/
def realOf (x : FpVal) (f : Int → FpVal) (lo hi : FpVal) : FpVal :=
  match x with
  | .fin s m e => if m = 0 then f 0 else if 12 ≤ floorLog m e then (if s then lo else hi) else f x.toFx
  | _ => .nan

/-! ### Bounded results -/

/-- `n` ulp of FP32 at the value m·2^e (R43). -/
def ulps (n : Nat) (m : Nat) (e : Int) : FpVal := .fin false n (max (floorLog m e) (-126) - 23)

/-- |c − y| is at most `n` ulp of y, or at most `abs` (R43). -/
def within (n : Nat) (abs : FpVal) (c y : FpVal) : Bool :=
  match y with
  | .fin _ m e =>
    let d := (c.sub y).abs
    d.le abs || (!decide (m = 0) && d.le (ulps n m e))
  | _ => false

/-- The result of a function with exact result `y`: a result that rounds out of the FP32 range is fixed; otherwise the
free value within the bound, or the nearest value (log 9). -/
def bounded (code : Nat) (x : Word) (n : Nat) (abs : FpVal) (y : FpVal) : FpVal :=
  match y.r32 with
  | .fin s m e =>
    if m = 0 && !y.isZero && abs.isZero then .fin s m e
    else
      let c := ofF32 (Config.approx code x)
      if within n abs c y then c else .fin s m e
  | z => z

/-- 2^−k. -/
def pow2Neg (k : Nat) : FpVal := .fin false 1 (-(k : Int))

/-- EXP and EXP2 (Tables 3 and 4). -/
def expFn (base2 : Bool) (a : FpVal) : FpVal :=
  match a with
  | .nan => .nan
  | .inf s => if s then FpVal.zero else .inf false
  | a =>
    let y := realExp base2 a
    if y.isZero then FpVal.zero else bounded (if base2 then 0x11 else 0x10) a.toF32 (if base2 then 1 else 2) FpVal.zero y

/-- RECIP. -/
def recipFn (a : FpVal) : FpVal :=
  match a with
  | .nan => .nan
  | .inf s => .fin s 0 0
  | .fin s m e => if m = 0 then .inf s else bounded 0x13 a.toF32 1 FpVal.zero (realRecip s m e)

/-- LOG. -/
def logFn (a : FpVal) : FpVal :=
  match a with
  | .nan => .nan
  | .inf s => if s then .nan else .inf false
  | .fin s m e =>
    if m = 0 then .inf true else if s then .nan else bounded 0x12 a.toF32 2 (pow2Neg 22) (realLog m e)

/-- RSQRT. -/
def rsqrtFn (a : FpVal) : FpVal :=
  match a with
  | .nan => .nan
  | .inf s => if s then .nan else FpVal.zero
  | .fin s m e =>
    if m = 0 then .inf false else if s then .nan else bounded 0x14 a.toF32 1 FpVal.zero (realRsqrt m e)

/-- SQRT. -/
def sqrtFn (a : FpVal) : FpVal :=
  match a with
  | .nan => .nan
  | .inf s => if s then .nan else .inf false
  | .fin s m e =>
    if m = 0 then .fin s 0 0 else if s then .nan else bounded 0x15 a.toF32 1 FpVal.zero (realSqrt m e)

/-- TANH. -/
def tanhFn (a : FpVal) : FpVal :=
  match a with
  | .nan => .nan
  | .inf s => .fin s 1 0
  | a => bounded 0x16 a.toF32 2 (pow2Neg 22) (realOf a (fun v => ofFx (fxTanh v)) (.fin true 1 0) (.fin false 1 0))

/-- SIGMOID. -/
def sigmoidFn (a : FpVal) : FpVal :=
  match a with
  | .nan => .nan
  | .inf s => if s then FpVal.zero else .fin false 1 0
  | a => bounded 0x17 a.toF32 3 (pow2Neg 23) (realOf a (fun v => ofFx (fxSigmoid v)) FpVal.zero (.fin false 1 0))

/-- x · sigmoid x, exactly. -/
def realSilu (a : FpVal) : FpVal := realOf a (fun v => (ofFx (fxSigmoid v)).mul a) FpVal.zero a

/-- SILU, GELU_ERF, GELU_TANH: +∞ at +∞, −0 at −∞. -/
def gateFn (code : Nat) (a : FpVal) : FpVal :=
  match a with
  | .nan => .nan
  | .inf s => if s then .fin true 0 0 else .inf false
  | a =>
    let y := match code with
      | 0x18 => realSilu a
      | 0x19 => realOf a (fun v => (ofFx (fxPhi v)).mul a) FpVal.zero a
      | _ => realOf a (fun v => (ofFx ((fxOne + fxTanh (fxGeluArg v)) / 2)).mul a) FpVal.zero a
    bounded code a.toF32 4 (pow2Neg 22) y

/-- SILU_MUL: 5 ulp, or 2^−22·|b|. With an infinite `b`, SILU(a) counts by its sign, and is zero for a zero alone (R42). -/
def siluMulFn (a b : FpVal) : FpVal :=
  match a, b with
  | .nan, _ => .nan
  | _, .nan => .nan
  | .inf s, b => ((if s then FpVal.fin true 0 0 else .inf false).mul b).r32
  | .fin s m _, .inf t => if m = 0 then .nan else .inf (s != t)
  | a, b => bounded (0x1B + 256 * b.toF32.toNat) a.toF32 5 ((pow2Neg 22).mul b.abs) ((realSilu a).mul b)

/-- The function codes that Table 3 defines. -/
def vecFnDefined (f : Nat) : Bool := decide (f ≤ 0x08) || (decide (0x10 ≤ f) && decide (f ≤ 0x1B)) ||
  (decide (0x20 ≤ f) && decide (f ≤ 0x22))

/-- Sources that a function uses (Table 3). -/
def vecFnSources (f : Nat) : Nat :=
  match f with
  | 0x01 | 0x02 | 0x03 | 0x05 | 0x06 | 0x1B | 0x21 => 2
  | 0x04 => 3
  | _ => 1

/-- The FP32 result of a function (Table 3); CONVERT and COPY give their input, QUANT one FP32 product. -/
def vecFn (f : Nat) (a b c : FpVal) : FpVal :=
  match f with
  | 0x01 => add32 a b
  | 0x02 => sub32 a b
  | 0x03 => mul32 a b
  | 0x04 => fma32 a b c
  | 0x05 => a.larger b
  | 0x06 => a.smaller b
  | 0x07 => a.abs
  | 0x08 => a.neg
  | 0x10 => expFn false a
  | 0x11 => expFn true a
  | 0x12 => logFn a
  | 0x13 => recipFn a
  | 0x14 => rsqrtFn a
  | 0x15 => sqrtFn a
  | 0x16 => tanhFn a
  | 0x17 => sigmoidFn a
  | 0x18 | 0x19 | 0x1A => gateFn f a
  | 0x1B => siluMulFn a b
  | 0x21 => mul32 a b
  | _ => a

end Sys2Proof.Machine
end

