-- ==== Sys2Proof/Machine/Checks.lean ====
section
/-! DEFINITION. The checks of an operation before it issues (R75), in the manual's order of codes; within a code the
operands first. -/

namespace Sys2Proof.Machine
open Sys2Proof

/-! ### Codes (Table 1 of 19) -/

def codeIllegalOp : Nat := 0x01
def codeIllegalType : Nat := 0x02
def codeIllegalFunc : Nat := 0x03
def codeIllegalField : Nat := 0x04
def codeOperandKind : Nat := 0x05
def codeDescInvalid : Nat := 0x06
def codeFused : Nat := 0x07
def codeBufregInvalid : Nat := 0x08
def codeBufregBound : Nat := 0x09
def codeAddrBound : Nat := 0x0A
def codeDomainBound : Nat := 0x0B
def codeFlagDomain : Nat := 0x0C
def codeFlagOverflow : Nat := 0x0D
def codeIndexRange : Nat := 0x0E
def codeImageInvalid : Nat := 0x0F

/-! ### Operand use (Table 8) -/

/-- What an operand position accepts. -/
structure Use where
  none : Bool
  br   : Bool
  ad   : Bool
  bb   : Bool
  geo  : Bool
  deriving DecidableEq, Repr

def useNone : Use := ⟨true, false, false, false, false⟩
def useBr : Use := ⟨false, true, false, false, false⟩
def useBrOpt : Use := ⟨true, true, false, false, false⟩
def useAny : Use := ⟨false, true, true, true, false⟩
def useBb : Use := ⟨false, false, false, true, false⟩
def useAd : Use := ⟨false, false, true, false, false⟩
def useAdOpt : Use := ⟨true, false, true, false, false⟩
def useGeo : Use := ⟨false, false, false, false, true⟩

/-- Operand use of an opcode: SRC0 to SRC3, DST0, DST1. -/
def useOf (o : Nat) : List Use :=
  match o with
  | 0x01 | 0x02 => [useBr, useBr, useBrOpt, useBrOpt, useBr, useNone]
  | 0x08 => [useBr, useBrOpt, useBrOpt, useGeo, useBr, useBrOpt]
  | 0x09 => [useBr, useNone, useNone, useGeo, useBr, useNone]
  | 0x0A => [useBr, useNone, useNone, useGeo, useBr, useBr]
  | 0x10 | 0x11 => [useAny, useNone, useNone, useGeo, useAny, useNone]
  | 0x18 | 0x19 | 0x1A => [useAny, useBb, useNone, useGeo, useAny, useNone]
  | 0x20 => [useAd, useBrOpt, useNone, useNone, useNone, useNone]
  | 0x21 => [useAd, useBr, useAdOpt, useNone, useBr, useNone]
  | 0x28 => [useBr, useNone, useNone, useNone, useBr, useNone]
  | 0x29 => [useAny, useNone, useNone, useNone, useNone, useNone]
  | 0x2A => [useNone, useNone, useNone, useNone, useAny, useNone]
  | 0x38 | 0x3A => [useBr, useBr, useBr, useNone, useBr, useNone]
  | 0x39 => [useBr, useBr, useNone, useNone, useBr, useNone]
  | _ => [useNone, useNone, useNone, useNone, useNone, useNone]

/-- The use of position `i`. -/
def useAt (o i : Nat) : Use := (useOf o).getD i useNone

/-! ### The operation under check -/

/-- An operation of block `k` with its operands resolved. -/
structure Op where
  k : Nat
  w : OpWord
  res : List Res
  deriving DecidableEq, Repr

/-- The operation in word `w`, resolved for block `k`. -/
def opWith (k : Nat) (w : OpWord) (raws : List Nat) : Op :=
  ⟨k, w, (List.range 6).map (fun i => resolveRaw (w.opnd i) (raws.getD i 0))⟩

/-- The operation in word `w` as the sequencer reads it now. -/
def Dev.opOf (d : Dev) (k : Nat) (w : OpWord) : Op := opWith k w (d.rawsOf k w)

/-- An operation in flight, as it was read at issue (R61). -/
def Flight.op (f : Flight) (k : Nat) : Op := opWith k f.word f.raws

def Op.code (c : Op) : Nat := c.w.opcode
/-- Operand `i`. -/
def Op.at (c : Op) (i : Nat) : Res := c.res.getD i .none
/-- The operation gives operand `i`. -/
def Op.gives (c : Op) (i : Nat) : Bool := !decide (c.at i = .none)
/-- The geometry record that SRC3 names. -/
def Op.geo (c : Op) : Option Geo :=
  match c.at 3 with
  | .geo g => some g
  | _ => none
/-- The function of an ELEM. -/
def Op.func (c : Op) : Nat := (c.geo.map (·.func)).getD 0
/-- Sources that the operation uses: an ELEM ignores those beyond its function's (R89). -/
def Op.uses (c : Op) (i : Nat) : Bool :=
  c.gives i && (c.code != 0x08 || 3 ≤ i || decide (i < vecFnSources c.func))
/-- The region of the block. -/
def Op.region (c : Op) : Nat := c.k / 4

/-- The type of operand `i` (R59, Table 8, R112). DESIGN CHOICE (log 94): for ELEM's source c the rule refers to Table 8, which
gives none; TYPE_S1 is taken. -/
def Op.type (c : Op) (i : Nat) : Nat :=
  match i with
  | 0 => c.w.typeS0
  | 1 => c.w.typeS1
  | 2 =>
    match c.code with
    | 0x01 | 0x02 => 5
    | 0x38 | 0x3A => 0
    | _ => c.w.typeS1
  | 3 => 5
  | 4 => c.w.typeD
  | _ => if c.code = 0x08 then 5 else 0

/-- The layout of operand `i` (R105, R112). -/
def Op.lay (c : Op) (i : Nat) : Nat :=
  match i with
  | 0 => c.w.layS0
  | 1 => c.w.layS1
  | 2 =>
    match c.code with
    | 0x01 | 0x02 => 5
    | 0x38 | 0x3A => 0
    | _ => c.w.layS1
  | 3 => if isTileOp c.code then 5 else 0
  | 4 => c.w.layD
  | _ => 0

/-! ### Types -/

/-- Types permitted as "any" (Table 12): BF16, FP16, FP8, INT8. -/
def anyType (t : Nat) : Bool := decide (1 ≤ t) && decide (t ≤ 5)
def vecType (t : Nat) : Bool := decide (t ≤ 5)
def matTypeA (t : Nat) : Bool := anyType t || isMx t
def matTypeB (t : Nat) : Bool := matTypeA t || decide (t = 6)
def knownType (t : Nat) : Bool := decide (t ≤ 0x0C)
def wideType (t : Nat) : Bool := decide (t = 0) || decide (t = 1)

/-- The layout does not accept the type (R106, R111, R112). -/
def layoutRefuses (lay t : Nat) : Bool :=
  match lay with
  | 1 | 2 => (panelUnit t).isNone
  | 3 => !(decide (t ≤ 5) || decide (t = 7))
  | 5 => decide (t ≠ 5)
  | _ => false

/-- The pairs of Table 4 of 04. -/
def layoutPair (s t : Nat) : Bool :=
  let rows := fun x : Nat => decide (x = 0) || decide (x = 4)
  let flat := fun x : Nat => rows x || decide (x = 3)
  decide (s ≤ 5) && decide (t ≤ 5) &&
    (decide (s = t) || (flat s && flat t) || (flat s && (decide (t = 1) || decide (t = 2))) ||
      ((decide (s = 1) || decide (s = 2)) && flat t) || (rows s && decide (t = 5)) || (decide (s = 5) && rows t))

/-- The opcode accepts the layout code of LAY_S0, LAY_S1, LAY_D (R115, Table 10 of 06). -/
def Op.layOk (c : Op) (i : Nat) : Bool :=
  let s0 := c.w.layS0
  let s1 := c.w.layS1
  let ld := c.w.layD
  match i, c.code with
  | 0, 0x01 | 0, 0x02 | 0, 0x38 => decide (s0 = 1)
  | 1, 0x01 | 1, 0x02 | 1, 0x38 => decide (s1 = 2)
  | 4, 0x01 | 4, 0x02 | 4, 0x38 | 4, 0x3A => decide (ld = 3)
  | 0, 0x08 => decide (s0 ≤ 3) || decide (s0 = 5)
  | 1, 0x08 | 1, 0x39 => decide (s1 = s0)
  | 4, 0x08 | 4, 0x10 => decide (ld = s0)
  | 0, 0x10 => decide (s0 ≤ 5)
  | 0, 0x11 => decide (s0 ≤ 5)
  | 4, 0x11 => layoutPair s0 ld
  | 0, 0x18 => decide (s0 = 0) || decide (s0 = 4)
  | 4, 0x19 | 4, 0x1A => decide (ld = 0) || decide (ld = 4)
  | 0, 0x21 => decide (s0 = 4)
  | 0, 0x39 => decide (s0 = 0) || decide (s0 = 3)
  | 0, 0x3A => decide (s0 = 3)
  | 1, 0x3A => decide (s1 = 3)
  | 0, _ => decide (s0 = 0)
  | 1, _ => decide (s1 = 0)
  | _, _ => decide (ld = 0)

/-- The layout that the checks of a type use for operand `i` is accepted (R75, R106). -/
def Op.layStands (c : Op) (i : Nat) : Bool :=
  match i with
  | 0 => c.layOk 0
  | 1 => c.layOk 1
  | 2 => decide (c.code ≠ 0x08) || c.layOk 1
  | 4 => c.layOk 4
  | _ => true

/-- The type of operand `i` is not permitted in its position. -/
def Op.typeRefused (c : Op) (i : Nat) : Bool :=
  let t0 := c.w.typeS0
  let t1 := c.w.typeS1
  let td := c.w.typeD
  match i, c.code with
  | 0, 0x01 | 0, 0x02 => !matTypeA t0
  | 1, 0x01 | 1, 0x02 => !matTypeB t1
  | 0, 0x38 => !anyType t0
  | 1, 0x38 => !(anyType t1 || decide (t1 = 6))
  | 4, 0x01 => !vecType td
  | 4, 0x02 => decide (td ≠ 0)
  | 4, 0x38 | 4, 0x3A => !wideType td
  | 0, 0x39 | 0, 0x3A => !wideType t0
  | 1, 0x39 | 1, 0x3A => !wideType t1
  | 4, 0x39 => decide (td ≠ 0)
  | 0, 0x08 => !vecType t0
  | 1, 0x08 => (c.uses 1 || c.uses 2) && !vecType t1
  | 4, 0x08 =>
    if c.func = 0x22 then !isMx td
    else if vecFnDefined c.func then !vecType td else !(vecType td || isMx td)
  | 0, 0x09 | 0, 0x0A => !vecType t0
  | 4, 0x09 => !vecType td
  | 4, 0x0A => decide (td ≠ 0)
  | 0, 0x10 | 0, 0x11 | 0, 0x18 | 0, 0x19 => !knownType t0
  | 4, 0x10 | 4, 0x11 | 4, 0x18 | 4, 0x19 => decide (td ≠ t0)
  | 0, 0x1A => !vecType t0
  | 1, 0x18 | 1, 0x19 | 1, 0x1A => decide (t1 ≠ 7)
  | 4, 0x1A => !wideType td
  | 0, 0x21 => !(decide (t0 = 1) || decide (t0 = 3) || decide (t0 = 4) || decide (t0 = 5))
  | 1, 0x21 => decide (t1 ≠ 1)
  | 4, 0x21 => decide (td ≠ 0)
  | 0, 0x28 => !wideType t0
  | 4, 0x28 => !wideType td
  | _, _ => false

/-- ILLEGAL_TYPE for operand `i`: the type itself, or the type in its layout. -/
def Op.typeBad (c : Op) (i : Nat) : Bool :=
  c.typeRefused i ||
    (c.uses i && c.layStands i && knownType (c.type i) && layoutRefuses (c.lay i) (c.type i))

/-- ILLEGAL_TYPE that concerns no single operand: an integer source with a floating-point one (R50), a LAYOUT with
B_PANEL on one side and another type (R118). DESIGN CHOICE (log 95): the pair of R118 records OPERAND 7, which no rule
says. -/
def Op.typeMixed (c : Op) : Bool :=
  match c.code with
  | 0x01 | 0x02 | 0x38 => isIntType c.w.typeS0 != isIntType c.w.typeS1
  | 0x11 => c.layOk 4 && decide (c.w.layS0 ≠ c.w.layD) && (decide (c.w.layS0 = 2) || decide (c.w.layD = 2)) &&
      !(decide (c.w.typeS0 = 1) || decide (c.w.typeS0 = 2))
  | _ => false

/-! ### Fields -/

/-- The operand that STRIDE_OP names (Table 6). -/
def Geo.named (g : Geo) : Nat := if g.strideOp = 3 then 4 else g.strideOp

/-- The operand that the strides address; none in a LAYOUT that ignores them (R63, R119). -/
def Op.strided (c : Op) (g : Geo) : Option Nat :=
  if c.code = 0x11 then
    if c.w.layS0 = 0 || c.w.layS0 = 4 then some 0
    else if c.w.layD = 0 || c.w.layD = 4 then some 4 else none
  else some g.named

/-- Multiples that strides over a type must keep (R65). -/
def strideStep (t : Nat) : Nat := if typeBits t = 4 then 2 else if typeBits t = 6 then 4 else 1

/-- A stride is no multiple that its type allows; STRIDE0 of a LAYOUT is 1 by R119 (log 27). -/
def Op.strideOdd (c : Op) (t : Nat) : Bool :=
  (List.range 4).any (fun j => !(c.code = 0x11 && j = 0) && c.w.stride j % (strideStep t : Int) != 0)

/-- A geometry record that breaks R63, R65, R101, R116, R119 or R124. DEDUCED (log 50): R116 holds of every STRIDED operation,
so that an ELEM or MOVE whose operands are all panels or tiles halts, though Table 3 accepts those codes. -/
def Op.geoBad (c : Op) (g : Geo) : Bool :=
  g.bad || (c.code = 0x0A && 2 ≤ g.mode) || (g.transpose && c.code != 0x10) ||
  (match c.strided g with
   | none => false
   | some i =>
     !c.gives i || !(c.lay i = 0 || c.lay i = 4) || (knownType (c.type i) && c.strideOdd (c.type i)) ||
       (c.code = 0x11 && (g.named != i || c.w.stride 0 != 1 || decide (c.w.stride 1 < g.e0) ||
         (c.lay i = 4 && c.w.stride 1 * typeBits (c.type i) % 256 != 0)))) ||
  (isIndexedOp c.code && (g.e2 != 1 || g.e3 != 1 || g.named != (if c.code = 0x18 then 0 else 4))) ||
  (c.code = 0x10 && g.transpose &&
    (!(typeBits c.w.typeS0 = 8 || typeBits c.w.typeS0 = 16 || typeBits c.w.typeS0 = 32) || isMx c.w.typeS0 ||
      c.w.layS0 != 0 || c.w.layD != 0 || g.named != 0))

/-- Element size for the rule of offsets (R65). -/
def elemBytes (t : Nat) : Nat := max 1 (typeBits t / 8)

/-- OFF of operand `i` in a geometry record; DST1 has none (R91). -/
def Geo.off (g : Geo) (i : Nat) : Nat :=
  match i with
  | 0 | 1 | 2 => g.offs.getD i 0
  | 4 => g.offs.getD 3 0
  | _ => 0

/-- The device-memory operand breaks the view rule of R113: `lo`, `hi` bound its bytes. -/
def viewBad (lay lo hi : Nat) : Bool :=
  bitAt lo 46 != bitAt (hi - 1) 46 || (if bitAt lo 46 then !(lay = 0 || lay = 4) else lay = 4)

/-- Reserved bits of the bodies (R65): the body bits that carry fields, as a mask over [255:128]. -/
def bodyFields (o : Nat) : Nat :=
  let f := fun hi lo : Nat => (2 ^ (hi - lo + 1) - 1) * 2 ^ (lo - 128)
  match o with
  | 0x01 | 0x02 | 0x39 | 0x3A => f 232 128
  | 0x38 => f 248 128
  | 0x30 => f 154 128
  | 0x31 => f 154 128 + f 159 156
  | 0x20 => f 129 128 + f 143 133 + f 191 160
  | 0x21 => f 129 128 + f 143 133 + f 195 160
  | 0x28 => f 146 128
  | 0x29 | 0x2A => f 139 128 + f 175 144
  | 0x32 => 0
  | _ => f 255 128

/-- Bits of `w` outside `m`. -/
def outside (w m n : Nat) : Bool := (List.range n).any (fun i => bitAt w i && !bitAt m i)

/-- Some operand is a buffer region. -/
def Op.namesBr (c : Op) : Bool :=
  c.res.any (fun x => match x with
    | .br _ => true
    | _ => false)

/-- The channel of a span operation is open on its port (R282). -/
def Dev.openChannel (d : Dev) (c : Op) : Option Channel :=
  if c.w.port < 12 && c.w.channel != 255 then
    (d.span c.w.port).channels.find? (fun x => decide (x.num = c.w.channel)) else none

/-- Fields of the bodies that concern no operand (R65, R67, R201, R275, R282). -/
def Dev.bodyBad (d : Dev) (c : Op) : Bool :=
  let w := c.w
  bitAt w 31 || w.hint = 3 || w.idxPol = 3 || outside (w / 2 ^ 128) (bodyFields c.code) 128 ||
  (if c.code = 0x30 || c.code = 0x31 || c.code = 0x32 then w.mask != 0 else c.namesBr != (w.mask != 0)) ||
  (match c.code with
   | 0x31 => w.count = 0 || 11 < w.region
   | 0x28 => w.treeOp = 3 || w.treeBytes = 0 || 65536 < w.treeBytes ||
       (wideType w.typeS0 && w.treeBytes % elemBytes w.typeS0 != 0)
   | 0x29 | 0x2A => 12 ≤ w.port || (d.spanPresent && (d.openChannel c).isNone)
   | 0x20 => if w.diag then 23 < w.diagStack else w.stackMask = 0
   | 0x21 => (if w.diag then 23 < w.diagStack else w.stackMask = 0) || 2 ≤ w.metric || w.scanDim = 32 ||
       (w.rootEn && 11 < w.root) || (!w.rootEn && w.nlist != 1)
   | _ => false)

/-! ### Stacks of a dispatch (Table 4 of 03) -/

/-- Stacks that a STACK_SEQ or STACK_SCAN names. -/
def Op.stacksNamed (c : Op) : List Nat :=
  if c.w.diag then [c.w.diagStack]
  else (bitsOf c.w.stackMask 2).map (fun i => 2 * c.region + i)

/-- Bytes of a vector of a scan, and vectors of a bank (R199, R200). -/
def Op.vecBytes (c : Op) : Nat := c.w.scanDim * (typeBits c.w.typeS0 / 8)
/-- SPAN of a scan whose banks hold `v` vectors (R205). -/
def scanSpan (v : Nat) : Nat := ceilDiv (2048 * v) 256 * 256

/-! ### Ranges (R75) -/

/-- Lowest byte and end of what strides reach from byte `off` (R97, R99): extents and strides in elements. -/
def strideRange (off : Nat) (exts : List Nat) (strides : List Int) (bits : Nat) : Int × Int :=
  let lo := (exts.zip strides).foldl (fun a x => a + min 0 (((x.1 : Int) - 1) * x.2)) 0
  let hi := (exts.zip strides).foldl (fun a x => a + max 0 (((x.1 : Int) - 1) * x.2)) 0
  (((off : Int) * 8 + lo * bits) / 8, ((off : Int) * 8 + hi * bits + bits + 7) / 8)

/-- Bytes from the base of a dense operand to the end of what the operation touches of `n` matrices: a destination in panels
or tiles, or of a LAYOUT, with its padding, which is written (R113, R114); otherwise up to the last element, because padding
is never read. -/
def Op.extent (c : Op) (i lay t e0 e1 n : Nat) : Nat :=
  if n * e0 * e1 = 0 then 0
  else if 4 ≤ i && (c.code = 0x11 || (lay != 0 && lay != 4)) then footprint lay t e0 e1 * n
  else footprint lay t e0 e1 * (n - 1) + (elemBit lay t e0 e1 (e1 - 1) (e0 - 1) + typeBits t + 7) / 8

/-- The bytes of operand `i` of a STRIDED operation. DESIGN CHOICE (log 99): an indexed operand with ROWS zero touches no byte;
its empty range still has its place, which must lie in the region or within SIZE. -/
def Op.geoRange (c : Op) (g : Geo) (i : Nat) : Int × Int :=
  let t := c.type i
  let off := g.off i
  let st := (List.range 4).map c.w.stride
  if i = 1 && isIndexedOp c.code then (off, off + 4 * g.e1)
  else if c.strided g = some i then
    if isIndexedOp c.code then
      if g.rows = 0 then (off, off) else strideRange off [g.e0, g.rows] st (typeBits t)
    else
      let row := if (c.code = 0x09 || c.code = 0x0A) && i = 4 then 1 else g.e0
      let q := strideRange off [row, g.e1, g.e2, g.e3] st (typeBits t)
      if c.code = 0x11 && i = 4 && c.lay 4 = 4 then (q.1, q.2 + (-(ceilDiv (g.e0 * typeBits t) 8 : Int)) % 32) else q
  else
    match c.code, i with
    | 0x09, 4 | 0x0A, 4 | 0x0A, 5 => (off, off + ceilDiv (g.rowsAll * typeBits t) 8)
    | 0x08, 5 => (off, off + ceilDiv g.e0 32 * g.rowsAll)
    | _, _ => (off, off + c.extent i (c.lay i) t g.e0 g.e1 (g.e2 * g.e3))

/-- The bytes that operand `i` can touch, from its base; none for an operand that touches none. -/
def Op.range (c : Op) (i : Nat) : Option (Int × Int) :=
  let w := c.w
  let dense := fun (off n : Nat) => some ((off : Int), (off : Int) + n)
  if !c.uses i then none
  else
    match c.code, i with
    | 0x01, 0 | 0x02, 0 | 0x38, 0 => dense (w.tileOff 0) (c.extent 0 1 w.typeS0 w.tileK w.tileM 1)
    | 0x01, 1 | 0x02, 1 | 0x38, 1 => dense (w.tileOff 1) (c.extent 1 2 w.typeS1 w.tileN w.tileK 1)
    | 0x01, 2 | 0x02, 2 => dense (w.tileOff 2) (c.extent 2 5 5 (ceilDiv w.tileK 32) w.tileM 1)
    | 0x01, 3 | 0x02, 3 => dense 0 (c.extent 3 5 5 (ceilDiv w.tileK 32) w.tileN 1)
    | 0x38, 2 => dense (w.tileOff 2) (16 * w.tileM)
    | 0x01, 4 | 0x02, 4 | 0x38, 4 | 0x3A, 4 => dense (w.tileOff 3) (footprint 3 w.typeD w.tileN w.tileM)
    | 0x39, 0 | 0x3A, 0 => dense (w.tileOff 0) (c.extent 0 w.layS0 w.typeS0 w.tileN w.tileM 1)
    | 0x39, 1 | 0x3A, 1 => dense (w.tileOff 1) (c.extent 1 w.layS1 w.typeS1 w.tileN w.tileM 1)
    | 0x39, 4 => dense (w.tileOff 3) (4 * w.tileM)
    | 0x3A, 2 => dense (w.tileOff 2) (4 * w.tileM)
    | 0x20, 0 =>
      match c.at 0 with
      | .addr _ _ size _ => dense 0 size
      | _ => none
    | 0x20, 1 => some (0, 1)
    | 0x21, 1 => dense 0 (2 * w.scanDim)
    | 0x21, 4 => dense 0 (16 * w.scanK)
    | 0x28, 0 => dense 0 w.treeBytes
    | 0x28, 4 => dense 0 (w.treeBytes / elemBytes w.typeS0 * elemBytes w.typeD)
    | 0x29, 0 => dense 0 w.spanBytes
    | 0x2A, 4 => dense 0 w.spanBytes
    | _, _ =>
      match c.geo with
      | some g => if i = 3 then none else some (c.geoRange g i)
      | none => none

/-- The whole range of a device-memory operand's address descriptor, BASE to BASE + SIZE (R76, R113). -/
def Op.descRange (c : Op) (i : Nat) : Option (Nat × Nat) :=
  match c.at i with
  | .addr false base size _ => if c.uses i && size != 0 then some (base, base + size) else none
  | _ => none

/-- The step from die to die of R176: −2³³ bytes, as a stride in elements of 4 bytes. -/
def dieStep : Int := -2147483648

/-- Operand `i` is the strided bank-view destination that R176 gives a MOVE: elements of 4 bytes. -/
def Op.quadOut (c : Op) (g : Geo) (i : Nat) : Bool :=
  match c.at i with
  | .addr false base _ _ =>
    c.code = 0x10 && i = 4 && bitAt base 46 && c.w.layD = 4 && c.strided g = some 4 && typeBits c.w.typeD = 32
  | _ => false

/-- Bytes by which an operand reaches below BASE: only R176's destination may, by its step from die to die and by no other
stride (DEDUCED, log 28). -/
def Op.under (c : Op) (i : Nat) : Nat :=
  match c.geo with
  | some g =>
    if c.quadOut g i then
      (-(strideRange 0 [g.e0, g.e1, g.e2, g.e3]
        ((List.range 4).map (fun j => if c.w.stride j = dieStep then dieStep else 0)) 32).1).toNat
    else 0
  | none => 0

/-- Absolute bytes of a device-memory operand: lowest and end, when it touches any within SIZE. -/
def Op.devRange (c : Op) (i : Nat) : Option (Nat × Nat) :=
  match c.at i, c.range i with
  | .addr false base size _, some (lo, hi) =>
    if -(c.under i : Int) ≤ lo && lo < hi && hi ≤ size then some (((base : Int) + lo).toNat, ((base : Int) + hi).toNat) else none
  | _, _ => none

/-- The range touches the address range of a fused stack (R76). -/
def Dev.touchesFused (d : Dev) (a b : Nat) : Bool :=
  (List.range 24).any (fun s => !d.stackPresent s &&
    ((a < (s + 1) * stackSpan && s * stackSpan < b) ||
      (a < bankViewBase + (s + 1) * stackSpan && bankViewBase + s * stackSpan < b)))

/-- The elements of R176's destination decode, each on its own, because the range between two cells or dies passes rows that
no bank has (DEDUCED, log 28). -/
def Dev.elemsDecode (d : Dev) (c : Op) (g : Geo) (base : Nat) : Bool :=
  (List.range g.elems).all (fun j =>
    let a := (base : Int) + ((g.off 4 : Int) * 8 + stridedBit c.w g 0 j) / 8
    decide ((bankViewBase : Int) ≤ a) && d.rangeOk a.toNat 4)

/-- The device range of operand `i`, from its lowest to its highest byte, decodes to present memory (R75, R99, R131). -/
def Dev.devDecodes (d : Dev) (c : Op) (i a b : Nat) : Bool :=
  match c.at i, c.geo with
  | .addr _ base _ _, some g => if c.quadOut g i then d.elemsDecode c g base else d.rangeOk a (b - a)
  | _, _ => d.rangeOk a (b - a)

/-- The store of a STACK_SCAN breaks R199 or R200: view, STACK, die and bank fields, SIZE. -/
def Op.storeBad (c : Op) : Bool :=
  match c.at 0 with
  | .addr _ base size _ =>
    !bitAt base 46 || fieldAt base 37 5 != 0 || fieldAt base 26 11 != 0 || size = 0 || size % c.vecBytes != 0
  | _ => false

/-- Vectors in each bank of a STACK_SCAN's store: V (R200). -/
def Op.vectors (c : Op) : Nat :=
  match c.at 0 with
  | .addr _ _ size _ => size / c.vecBytes
  | _ => 0

/-- First byte and end of the filter bits of stack `s`, from the filter's BASE (R205). -/
def Op.filterRange (c : Op) (s : Nat) : Nat × Nat :=
  (s * scanSpan c.vectors / 8, ceilDiv (s * scanSpan c.vectors + 2048 * c.vectors) 8)

/-! ### The lists of checks -/

/-- ILLEGAL_FIELD for operand `i`. DESIGN CHOICE (log 95): what breaks R116, R119 or R124 is recorded at SRC3, the geometry
record, not at the operand that STRIDE_OP names. -/
def Op.fieldBad (c : Op) (i : Nat) : Bool :=
  (match c.at i with
   | .br _ => fieldAt (c.w.opnd i) 6 3 != 0
   | .addr _ base _ bad => bad || base % 32 != 0
   | .geo g => i = 3 && c.geoBad g
   | _ => false) ||
  ((i = 0 || i = 1 || i = 4) && !c.layOk i) ||
  (c.code = 0x08 && c.func = 0x22 && c.geo.isSome && ((i = 0 && c.w.layS0 != 0) || (i = 4 && c.w.layD != 0))) ||
  (c.uses i && c.lay i = 4 && c.code != 0x08 && (match c.at i with
    | .br _ => true
    | .addr true _ _ _ => true
    | _ => false)) ||
  (match c.geo with
   | some g => c.uses i && i != 3 && i != 5 && knownType (c.type i) && g.off i % elemBytes (c.type i) != 0
   | none => false) ||
  (match c.descRange i with
   | some (a, b) => viewBad (c.lay i) a b
   | none => false) ||
  (c.code = 0x21 && i = 0 && c.storeBad) ||
  (c.code = 0x21 && i = 2 && c.gives 2 && 150994944 < 2048 * c.vectors)

/-- OPERAND_KIND for operand `i` (R67, R88, R89, R53). -/
def Op.kindBad (c : Op) (i : Nat) : Bool :=
  let u := useAt c.code i
  (match c.at i with
   | .none => !u.none
   | .br _ => !u.br
   | .addr true _ _ _ => !u.bb
   | .addr false _ _ _ => !u.ad
   | .geo _ => !u.geo
   | .invalid => false) ||
  ((c.code = 0x01 || c.code = 0x02) && ((i = 2 && isMx c.w.typeS0 != c.gives 2) || (i = 3 && isMx c.w.typeS1 != c.gives 3))) ||
  (c.code = 0x08 && vecFnDefined c.func &&
    ((i < 3 && i < vecFnSources c.func && !c.gives i) || (i = 5 && (c.func = 0x22) != c.gives 5)))

/-- DESC_INVALID for operand `i` (R61). -/
def Op.descBad (c : Op) (i : Nat) : Bool :=
  let u := useAt c.code i
  match c.at i with
  | .invalid => true
  | .geo _ => !u.geo && (u.ad || u.bb)
  | .addr .. => u.geo
  | _ => false

/-- FUSED for operand `i` and for no operand (R76). -/
def Dev.fusedBad (d : Dev) (c : Op) (i : Nat) : Bool :=
  match i with
  | 7 =>
    ((c.code = 0x29 || c.code = 0x2A) && !d.spanPresent) || (0x38 ≤ c.code && !d.bwdPresent) ||
      ((c.code = 0x20 || c.code = 0x21) && c.w.diag && c.w.diagStack < 24 && !d.stackPresent c.w.diagStack)
  | i =>
    if c.code = 0x21 && i = 0 then false
    else
      match c.descRange i with
      | some (a, b) => d.touchesFused a b
      | none => false

/-- DOMAIN_BOUND (R76, R201, R282). -/
def Dev.domainBad (d : Dev) (c : Op) : Bool :=
  ((c.code = 0x20 || c.code = 0x21) && c.w.diag && !d.sameDomain c.region (c.w.diagStack / 2)) ||
  (c.code = 0x21 && c.w.rootEn && !d.sameDomain c.region c.w.root) ||
  ((c.code = 0x29 || c.code = 0x2A) && (match d.openChannel c with
    | some x => d.domainOf c.region != some x.domain
    | none => false))

/-- BUFREG_BOUND for operand `i` (R38). -/
def Dev.bufBad (d : Dev) (c : Op) (i : Nat) : Bool :=
  match c.at i, c.range i with
  | .br n, some (lo, hi) =>
    (cellsOf c.k c.w.mask).any (fun g => !d.bufregValid g n || lo < 0 ||
      (c.code != 0x20 && decide ((d.bufregSize g n : Int) < hi)))
  | _, _ => false

/-- ADDR_BOUND for operand `i` (R75, R200, R205). -/
def Dev.addrBad (d : Dev) (c : Op) (i : Nat) : Bool :=
  match c.code, i, c.at i with
  | 0x21, 0, .addr _ base size _ => c.stacksNamed.any (fun s =>
      (List.range 2048).any (fun b => !d.rangeOk (base + s * stackSpan + b * 2 ^ 26) size))
  | 0x21, 2, .addr _ base size _ => c.stacksNamed.any (fun s =>
      let f := c.filterRange s
      size < f.2 || !d.rangeOk (base + f.1) (f.2 - f.1))
  | _, _, .addr true base size _ =>
    match c.range i with
    | some (lo, hi) => lo < 0 || (size : Int) < hi || (bbufBytes : Int) < base + hi
    | none => false
  | _, _, .addr false _ size _ =>
    match c.range i with
    | some (lo, hi) => lo < -(c.under i : Int) || (size : Int) < hi || (match c.devRange i with
        | some (a, b) => !d.devDecodes c i a b
        | none => false)
    | none => false
  | _, _, _ => false

/-- The QUEUE of a STACK_SEQ is not of kind STACK (R257). -/
def Dev.queueBad (d : Dev) (c : Op) : Bool :=
  c.code = 0x20 && (d.queue (c.region * 32 + c.w.queue)).kind != 1

/-- The operand positions in the order of `BLOCK_FAULT_INFO.OPERAND`. -/
def positions : List Nat := [0, 1, 2, 3, 4, 5]

/-- The first operand position at which a check fails, else 7 when the check of no operand fails. -/
def firstBad (p : Nat → Bool) (q : Bool) : Option Nat :=
  match positions.find? p with
  | some i => some i
  | none => if q then some 7 else none

/-- The checks of R75 in order: a code, and the operand at which it fails. DESIGN CHOICE (log 95): ILLEGAL_FUNC, whose FUNC
stands in the geometry record, concerns no operand. -/
def Dev.checkList (d : Dev) (c : Op) : List (Nat × Option Nat) :=
  [ (codeDescInvalid, firstBad c.descBad false),
    (codeIllegalType, firstBad c.typeBad c.typeMixed),
    (codeIllegalFunc, firstBad (fun _ => false) (c.code = 0x08 && c.geo.isSome && !vecFnDefined c.func)),
    (codeIllegalField, firstBad c.fieldBad (d.bodyBad c)),
    (codeOperandKind, firstBad c.kindBad (d.queueBad c)),
    (codeFused, firstBad (d.fusedBad c) (d.fusedBad c 7)),
    (codeDomainBound, firstBad (fun _ => false) (d.domainBad c)),
    (codeFlagDomain, firstBad (fun _ => false)
      (c.code = 0x31 && c.w.peek && !d.sameDomain c.region c.w.region)) ]

/-- The bounds, taken together: the first operand that breaks one (R75). -/
def Dev.boundFail (d : Dev) (c : Op) : Option (Nat × Nat) :=
  match positions.find? (fun i => d.bufBad c i || d.addrBad c i) with
  | some i => some (if d.bufBad c i then codeBufregBound else codeAddrBound, i)
  | none => none

/-- The first failure of a list of checks. -/
def firstFail (l : List (Nat × Option Nat)) : Option (Nat × Nat) :=
  match l with
  | [] => none
  | (code, some i) :: _ => some (code, i)
  | (_, none) :: r => firstFail r

/-- The first check of R75 that the operation in word `w` of block `k` fails: its code and operand. -/
def Dev.checkOp (d : Dev) (k : Nat) (w : OpWord) : Option (Nat × Nat) :=
  if !isOpcode w.opcode then some (codeIllegalOp, 7)
  else
    let c := d.opOf k w
    match firstFail (d.checkList c) with
    | some x => some x
    | none => d.boundFail c

end Sys2Proof.Machine
end

