-- ==== Sys2Proof/Machine/Sequencer.lean ====
section
/-! DEFINITION. The block sequencer (03_macro_ops): issue, the scoreboard, engine room, completion, the image load, and
the operations that the sequencer itself carries out: WAIT_FLAG, SET_FLAG, and remote sets. -/

namespace Sys2Proof.Machine
open Sys2Proof

/-! ### Faults of a block -/

/-- `BLOCK_FAULT_INFO` (Table 14). -/
def faultInfo (index opnd opcode : Nat) : Word :=
  BitVec.ofNat 32 (2 ^ 31 + index % 8192 * 2 ^ 16 + opnd * 2 ^ 8 + opcode)

/-- Block `k` halts at operation `index`. -/
def Dev.opHalt (d : Dev) (k code index opnd opcode : Nat) : Dev :=
  d.blockHalt (k / 4) (k % 4) code (faultInfo index opnd opcode)

/-- A word fails three replays (R40): they are counted where the word lies, and the block halts. -/
def Dev.parityHalt (d : Dev) (k code word index opcode : Nat) : Dev :=
  let d1 :=
    if code = codeScratchParity then
      (d.cellReplayed word replayLimit).modCell (word / (cellBytes / 4)) (fun x => { x with parityHalt := true })
    else d.bumpBy (blockReplaysAt k) replayLimit
  d1.opHalt k code index 7 opcode

/-! ### Operations in flight -/

/-- Change the operation in flight with instruction-memory index `i` of block `k`. -/
def Dev.modFlight (d : Dev) (k i : Nat) (f : Flight → Flight) : Dev :=
  d.modBlk k (fun b => { b with fly := b.fly.map (fun x => if x.index = i then f x else x) })

/-- The engine has done its part of the operation. -/
def Dev.finish (d : Dev) (k i : Nat) : Dev := d.modFlight k i (fun x => { x with begun := true, done := true })

/-- The block goes on with what it has in flight: it is not halted nor suspended. -/
def BlockSt.acts (b : BlockSt) : Bool := decide (b.st = .running)

/-- Engines of an opcode (Table 7): 0 matrix array, 1 vector unit, 2 DMA, 3 exchange network, 4 stack dispatch, 5 tree
port, 6 span port, 7 sequencer. -/
def enginesOf (o : Nat) : List Nat :=
  match o with
  | 0x01 | 0x02 => [0]
  | 0x38 => [0, 1]
  | 0x08 | 0x09 | 0x0A | 0x39 | 0x3A => [1]
  | 0x10 | 0x18 | 0x19 | 0x1A => [2]
  | 0x11 => [3]
  | 0x20 | 0x21 => [4]
  | 0x28 => [5]
  | 0x29 | 0x2A => [6]
  | _ => [7]

/-- Two masks select a common cell. -/
def shareCell (a b : Nat) : Bool := (List.range 8).any (fun c => bitAt a c && bitAt b c)

/-- An operation in flight stands before another on an engine: the same engine, and for cell engines a common cell
(R71). -/
def before (a b : OpWord) : Bool :=
  (enginesOf a.opcode).any (fun e => (enginesOf b.opcode).contains e && (2 ≤ e || shareCell a.mask b.mask))

/-- The engine is past the operation, so that its next one may begin: a stack dispatch, tree port or span port that has sent
it on; any other engine that has executed it (R71, Table 11). -/
def Flight.passed (x : Flight) : Bool :=
  x.done || (x.begun && (enginesOf (OpWord.opcode x.word)).any (fun e => decide (4 ≤ e)))

/-- The oldest operation in flight with opcode `o` that its engine has not begun and that nothing stands before. -/
def readyFrom (earlier : List Flight) (l : List Flight) (o : Nat) : Option Flight :=
  match l with
  | [] => none
  | f :: r =>
    if OpWord.opcode f.word = o && !f.begun && earlier.all (fun x => x.passed || !before x.word f.word) then some f
    else readyFrom (earlier ++ [f]) r o

/-- The operation that the engine of block `k` executes next, when its opcode is `o`. -/
def Dev.ready (d : Dev) (k o : Nat) : Option Flight :=
  if (d.blk k).acts then readyFrom [] (d.blk k).fly o else none

/-! ### The scoreboard (R73) -/

/-- Buffer regions that an operation reads. -/
def Op.reads (c : Op) : List Nat :=
  (if c.code = 0x02 || c.code = 0x1A then [0, 1, 2, 3, 4] else [0, 1, 2, 3]).filterMap (fun i => match c.at i with
    | .br n => some n
    | _ => none)

/-- Buffer regions that an operation writes. -/
def Op.writes (c : Op) : List Nat :=
  [4, 5].filterMap (fun i => match c.at i with
    | .br n => some n
    | _ => none)

/-- An earlier operation in flight forbids the issue of a later one. -/
def Op.blocks (a b : Op) : Bool :=
  shareCell a.w.mask b.w.mask &&
    (a.writes.any (fun n => b.reads.contains n || b.writes.contains n) || a.reads.any b.writes.contains)

/-- The scoreboard holds the operation. -/
def Dev.scoreHeld (d : Dev) (k : Nat) (w : OpWord) : Bool :=
  (d.blk k).fly.any (fun f => (f.op k).blocks (d.opOf k w))

/-! ### Engine room (Table 11) -/

/-- Operations in flight on engine `e` that `p` counts. -/
def countOn (l : List Flight) (e : Nat) (p : OpWord → Bool) : Nat :=
  (l.filter (fun f => (enginesOf (OpWord.opcode f.word)).contains e && p f.word)).length

/-- Engine `e` has room for an operation. -/
def roomOn (c : Op) (l : List Flight) (e : Nat) : Bool :=
  match e with
  | 0 | 1 => (bitsOf c.w.mask 8).all (fun x => countOn l e (fun w => bitAt w.mask x) < 2)
  | 2 => countOn l 2 (fun _ => true) < 16
  | 3 => countOn l 3 (fun _ => true) < 1
  | 4 => c.stacksNamed.all (fun s => countOn l 4 (fun w => (Op.stacksNamed ⟨c.k, w, []⟩).contains s) < 4)
  | 5 | 6 => countOn l e (fun _ => true) < 2
  | _ => true

/-- Every engine of the operation has room, and fewer than 32 operations are in flight. -/
def Dev.room (d : Dev) (c : Op) : Bool :=
  (d.blk c.k).fly.length < 32 && (enginesOf c.code).all (roomOn c (d.blk c.k).fly)

/-! ### Issue (R71) -/

/-- Entries of the descriptor table that an operation names. -/
def OpWord.entries (w : OpWord) : List Nat :=
  (List.range 6).filterMap (fun i => let o := w.opnd i; if o != 0x3FF && bitAt o 9 then some (fieldAt o 0 9) else none)

/-- Read the descriptors of an operation from the block buffer. -/
def Dev.fetchDescs (d : Dev) (k : Nat) (es : List Nat) : Acc Dev :=
  match es with
  | [] => .ok d
  | e :: r =>
    match d.bbufWords (k * bbufBytes + 32 * e) 32 with
    | .error x => .error x
    | .ok d1 => d1.fetchDescs k r

/-- The fetch of entry `index` of the instruction memory and of the descriptors that the operation names (R22, R40): replays
are counted, and a word that fails three of them stops it. -/
def Dev.fetchOp (d : Dev) (k index : Nat) (w : OpWord) : Acc Dev :=
  let at_ := fun (x : Nat) => decide (x / 8 = k * 8192 + index)
  match d.badImem.find? at_, d.pathImem.find? (fun e => at_ e.1 && decide (replayLimit < e.2)) with
  | some x, _ => .error (.parity codeImemParity x)
  | none, some e => .error (.parity codeImemParity e.1)
  | none, none =>
    let n := (d.pathImem.filter (fun e => at_ e.1)).foldl (fun a e => a + e.2) 0
    (if n = 0 then d
     else { d with pathImem := d.pathImem.filter (fun e => !at_ e.1) }.bumpBy (blockReplaysAt k) n).fetchDescs k w.entries

/-- The operation enters the list of those in flight. -/
def Dev.enterFlight (d : Dev) (k : Nat) (w : OpWord) (done : Bool) : Dev :=
  d.modBlk k (fun b => { b with
    fly := b.fly ++ [⟨b.next, w, d.rawsOf k w, done, done, [], false, 0⟩]
    next := b.next + 1
    wait := none
    waitTaken := false
    flagTaken := false
    heldScore := false })

/-- Change channel `n` of a span port. -/
def Span.modChannel (x : Span) (n : Nat) (f : Channel → Channel) : Span :=
  { x with
    channels := x.channels.map (fun c => if c.num = n then f c else c)
    tree := if n = 255 then f x.tree else x.tree }

/-- Credits for what a message has above the receive buffer go to the sender, through a port that is UP (R281; log 102). -/
def Dev.sendRoom (d : Dev) (p channel len : Nat) : Dev :=
  if channelBuffer < len ∧ (d.span p).st = 2 then d.emit (.spanReply p channel (.credit (len - channelBuffer))) else d

/-- An operation that just issued takes its place at a shared port: a TREE_REDUCE at its region's tree port (R274), a
SPAN_RECV at its channel, where one longer than the receive buffer sends the credits that its message needs (R281). -/
def Dev.joinPort (d : Dev) (k : Nat) (w : OpWord) (i : Nat) : Dev :=
  match w.opcode with
  | 0x28 => d.modRegion (k / 4) (fun x => { x with treeQ := x.treeQ ++ [(k, i)] })
  | 0x2A =>
    (d.modSpan w.port (fun x => x.modChannel w.channel (fun c => { c with recvs := c.recvs ++ [(k, i)] }))).sendRoom w.port
      w.channel w.spanBytes
  | _ => d

/-- The operation's waits are satisfied: first the embedded one, then a WAIT_FLAG's own. -/
def BlockSt.waitsDone (b : BlockSt) (w : OpWord) : Bool :=
  (!w.waitEn || b.waitTaken) && (w.opcode != 0x30 || b.flagTaken)

/-- Start the wait of the oldest unissued operation that has not begun: the embedded one, then a WAIT_FLAG's own. -/
def Dev.beginWait (d : Dev) (k : Nat) (w : OpWord) : Dev :=
  let b := d.blk k
  if b.wait.isSome then d
  else if w.waitEn && !b.waitTaken then d.startWait k w.waitNum 1
  else if w.opcode = 0x30 && !b.flagTaken then d.startWait k w.flag w.count
  else d

/-- FENCE and STEP_END wait until nothing is in flight (R71, R83). -/
def BlockSt.fenced (b : BlockSt) (w : OpWord) : Bool := (w.fence || w.opcode = 0x32) && !b.fly.isEmpty

/-- Conditions 3 to 5 of R71, and the entry into flight. -/
def Dev.issueReady (d : Dev) (k : Nat) (w : OpWord) : Dev :=
  let d1 := (d.beginWait k w).beginWait k w
  if !(d1.blk k).waitsDone w then d1
  else if d1.scoreHeld k w then d1.modBlk k (fun b => { b with heldScore := true })
  else if d1.room (d1.opOf k w) then (d1.enterFlight k w (w.opcode = 0x30)).joinPort k w (d1.blk k).next
  else d1.modBlk k (fun b => { b with heldScore := false })

/-- Issue of the oldest unissued operation of block `k` (R71, R75). -/
def Dev.issue (d : Dev) (k : Nat) : Dev :=
  let i := (d.blk k).next
  let w := d.nextWord k
  match d.fetchOp k i w with
  | .error (.parity code x) => d.parityHalt k code x i w.opcode
  | .error _ => d
  | .ok d1 =>
    match d1.checkOp k w with
    | some (code, o) => d1.opHalt k code i o w.opcode
    | none => if (d1.blk k).fenced w then d1 else d1.issueReady k w

/-- The domain of region `r` runs its step: it is not suspending (R245). -/
def Dev.domainRuns (d : Dev) (r : Nat) : Bool :=
  match d.domainOf r with
  | some n => decide ((d.dom n).act = .running)
  | none => false

/-- STEP_END has issued: no later operation issues in this step (R83). -/
def BlockSt.ending (b : BlockSt) : Bool := b.fly.any (fun f => OpWord.opcode f.word == 0x32)

/-- The block issues: it runs and has not come to STEP_END, and its domain has not stopped and is not being pre-empted. -/
def Dev.issues (d : Dev) (k : Nat) : Bool :=
  (d.blk k).acts && !(d.blk k).ending && !d.regionStopped (k / 4) && d.domainRuns (k / 4)

/-! ### Completion (R72) -/

/-- The operation in flight at place `pos` completes: it leaves, it is counted, and its flag is incremented (R72, R79,
R81). While the mirror queue is full, completions wait (R292). -/
def Dev.complete (d : Dev) (k pos : Nat) : Dev :=
  match (d.blk k).fly[pos]? with
  | none => d
  | some f =>
    if !f.done || d.mirrorFull then d
    else
      let w : OpWord := f.word
      let d1 := (d.modBlk k (fun b => { b with fly := b.fly.filter (fun x => decide (x.index ≠ f.index)) })).bump
        (opsCompletedAt k)
      if w.setEn then
        match d1.flagAdd (k / 4) w.setNum 1 with
        | some d2 => d2
        | none => d.opHalt k codeFlagOverflow f.index 7 w.opcode
      else d1

/-! ### Sets (R79) -/

/-- Send a fabric message (R269). -/
def Dev.sendFabric (d : Dev) (src dst : Nat) (cls : FabClass) (body : Payload) : Dev :=
  { d with net.msgs := d.net.msgs ++ [⟨src, dst, cls, body⟩] }

/-- SET_FLAG: once it is the oldest in flight, the increment is applied, or sent to the other region (R79, R82). -/
def Dev.setFlagOp (d : Dev) (k : Nat) : Dev :=
  match (d.blk k).fly with
  | f :: _ =>
    let w : OpWord := f.word
    if w.opcode != 0x31 || f.begun then d
    else if w.peek && w.region != k / 4 then
      (d.sendFabric (k / 4) w.region .ctrl (.flagSet w.flag w.count (k % 4) f.index)).modFlight k f.index
        (fun x => { x with begun := true })
    else
      match d.flagAdd (k / 4) w.flag w.count with
      | some d1 => d1.finish k f.index
      | none => d.opHalt k codeFlagOverflow f.index 7 w.opcode
  | [] => d

/-- The oldest arrived message of a region that `p` selects, and the rest. -/
def takeMsg (l : List FabMsg) (p : FabMsg → Bool) : Option (FabMsg × List FabMsg) :=
  match l with
  | [] => none
  | m :: r => if p m then some (m, r) else (takeMsg r p).map (fun q => (q.1, m :: q.2))

/-- The message carries a flag set. -/
def FabMsg.isSet (m : FabMsg) : Bool :=
  match m.body with
  | .flagSet .. => true
  | _ => false

/-- REMOTE_FLAG_SET: the oldest set that arrived in region `r` is applied there; the sender's SET_FLAG is then done
(R72, R82). -/
def Dev.remoteSet (d : Dev) (r : Nat) : Dev :=
  match takeMsg (d.region r).arrived FabMsg.isSet with
  | none => d
  | some (m, rest) =>
    let d1 := d.modRegion r (fun x => { x with arrived := rest })
    match m.body with
    | .flagSet f incr b i =>
      match d1.flagAdd r f incr with
      | some d2 => d2.finish (4 * m.src + b) i
      | none => d1.opHalt (4 * m.src + b) codeFlagOverflow i 7 0x31
    | _ => d1

/-! ### The image load (R68, R69) -/

/-- Bytes of an image with `ops` operations and `descs` descriptors (Table 10). -/
def imageBytes (ops descs : Nat) : Nat := 64 + 2048 + 32 * descs + 32 * ops

/-- The entries of one cell break R37: a region past the scratchpad, or two that overlap. -/
def bufregsBad (es : List Nat) : Bool :=
  let v := (es.filter (fun e => bitAt e 31)).map (fun e => (fieldAt e 0 10, fieldAt e 0 10 + fieldAt e 20 10 + 1))
  v.any (fun x => 1024 < x.2) ||
    (List.range v.length).any (fun i => (List.range i).any (fun j =>
      match v[i]?, v[j]? with
      | some a, some b => decide (a.1 < b.2) && decide (b.1 < a.2)
      | _, _ => false))

/-- The buffer region tables of an image, cell by cell: 32-bit entries (Table 11 of 02). -/
def imageBufregs (img : List Byte) (c : Nat) : List Nat :=
  (List.range 64).map (fun e => fieldOf img (64 + 256 * c + 4 * e) 4)

/-- Write a list of words into a table from key `k` on. -/
def Dev.putBufregs (d : Dev) (g : Nat) (es : List Nat) : Dev :=
  (es.zip (List.range 64)).foldl (fun a x => a.setBufreg (64 * g + x.2) (BitVec.ofNat 32 x.1 &&& 0xFFF003FF)) d

/-- The instruction memory of a block is emptied. -/
def Dev.clearImem (d : Dev) (k : Nat) : Dev :=
  { d with
    imem := Tab.clear d.imem (k * 8192) ((k + 1) * 8192)
    badImem := d.badImem.filter (fun x => !decide (x / 65536 = k)) }

/-- The whole image is in place (R68): tables, descriptors and operations; entries beyond the count are zero (R69). -/
def Dev.placeImage (d : Dev) (k ops descs : Nat) (img : List Byte) : Dev :=
  let d1 := (List.range 8).foldl (fun a c => a.putBufregs (8 * k + c) (imageBufregs img c)) d
  let d2 := d1.bbufWrite k 0 (slice img 2112 (32 * descs))
  let d4 := (List.range ops).foldl (fun a i => a.setOpword (k * 8192 + i) (fieldOf img (2112 + 32 * descs + 32 * i) 32))
    (d2.clearImem k)
  d4.modBlk k (fun b => { b with st := .idle, ops := ops, next := 0 })

/-- Fault information of an image that concerns no operation (log 15). -/
def imageFault : Word := faultInfo 0 7 0

/-- IMAGE_LOAD_DONE: the header and the buffer regions are checked, and the image is in place (R37, R68, R69; log 15). DESIGN
CHOICE: an image whose address does not decode to memory halts the block with IMAGE_INVALID (log 98), and a rejected image
leaves the buffer region tables that the cells had (log 111). -/
def Dev.imageDone (d : Dev) (k : Nat) : Dev :=
  let who := whoOf (.copyEngine ⟨k / 4 % 12, Nat.mod_lt _ (by decide)⟩) .stream
  let a := (d.blk k).image
  let halt := fun (code : Nat) => d.blockHalt (k / 4) (k % 4) code imageFault
  match d.load who a 2112 with
  | .error .unmapped => halt codeImageInvalid
  | .error e => d.stopped who false e
  | .ok (d1, head) =>
    let ops := fieldOf head 0 4
    let descs := fieldOf head 4 4
    if ops = 0 || 8192 < ops || 511 < descs then halt codeImageInvalid
    else if (List.range 8).any (fun c => bufregsBad (imageBufregs head c)) then halt codeBufregInvalid
    else
      match d1.load who (a + 2112) (imageBytes ops descs - 2112) with
      | .error .unmapped => halt codeImageInvalid
      | .error e => d.stopped who false e
      | .ok (d2, rest) => (d2.unserve who.party).placeImage k ops descs (head ++ rest)

/-! ### Meanings -/

/-- Number of block `b` of region `r` among all blocks. -/
def blkNo (r : Region) (b : Blk) : Nat := 4 * r.val + b.val

/-- OP_ISSUE (R71, R75). -/
def execOpIssue (r : Region) (b : Blk) (s : State) : Result State :=
  s.always fun d => d.when (d.issues (blkNo r b)) fun d => d.issue (blkNo r b)

/-- OP_COMPLETE (R72). -/
def execOpComplete (r : Region) (b : Blk) (pos : Fin 32) (s : State) : Result State :=
  s.always fun d => d.when (d.blk (blkNo r b)).acts fun d => d.complete (blkNo r b) pos.val

/-- WAIT_FLAG (R79): the wait of the oldest unissued operation, which issues once it is satisfied. -/
def execWaitFlag (r : Region) (b : Blk) (s : State) : Result State :=
  s.always fun d => d.when (d.issues (blkNo r b) && (d.nextWord (blkNo r b)).opcode == 0x30) fun d => d.issue (blkNo r b)

/-- SET_FLAG (R79). -/
def execSetFlag (r : Region) (b : Blk) (s : State) : Result State :=
  s.always fun d => d.when (d.blk (blkNo r b)).acts fun d => d.setFlagOp (blkNo r b)

/-- REMOTE_FLAG_SET (R82). -/
def execRemoteFlagSet (r : Region) (s : State) : Result State := s.always fun d => d.remoteSet r.val

/-- IMAGE_LOAD_DONE (R68). -/
def execImageLoadDone (r : Region) (b : Blk) (s : State) : Result State :=
  s.always fun d => d.when ((d.blk (blkNo r b)).st = .loading) fun d => d.imageDone (blkNo r b)

end Sys2Proof.Machine
end

