-- ==== Sys2Proof/Machine/Words.lean ====
section
/-! DEFINITION. Stack sequences (05_compute_stacks, 06_attention): the fields of sequence words, a dispatch's broadcast
buffer and page map, and the checks of a sequence before it starts (R145). -/

namespace Sys2Proof.Machine
open Sys2Proof

/-! ### Words (Tables 9 to 11 of 05, Table 7 of 06) -/

/-- A sequence word of 128 bits. -/
abbrev SeqWord := Nat

def SeqWord.op (w : SeqWord) : Nat := fieldAt w 0 4
def SeqWord.useArg (w : SeqWord) : Bool := bitAt w 4
def SeqWord.count (w : SeqWord) : Nat := fieldAt w 8 16

/-- The word with COUNT replaced where USE_ARG is set (R140). -/
def SeqWord.withArg (w : SeqWord) (arg : Nat) : SeqWord := if w.useArg then putBits w 8 16 arg else w

/-- LOADA. -/
def SeqWord.loadAoff (w : SeqWord) : Nat := fieldAt w 24 10
def SeqWord.loadBoff (w : SeqWord) : Nat := fieldAt w 34 11
/-- WXV. -/
def SeqWord.wBank (w : SeqWord) : Nat := fieldAt w 24 1
def SeqWord.wAddr (w : SeqWord) : Nat := fieldAt w 25 21
def SeqWord.wLen (w : SeqWord) : Nat := fieldAt w 46 10 + 1
def SeqWord.wPitch (w : SeqWord) : Nat := fieldAt w 56 11
def SeqWord.wType (w : SeqWord) : Nat := fieldAt w 67 5
def SeqWord.wAoff (w : SeqWord) : Nat := fieldAt w 73 10
def SeqWord.wAcc (w : SeqWord) : Nat := fieldAt w 83 11
def SeqWord.wBatch (w : SeqWord) : Nat := fieldAt w 94 8 + 1
def SeqWord.wAstr (w : SeqWord) : Nat := fieldAt w 102 10
def SeqWord.wZero (w : SeqWord) : Bool := bitAt w 112
/-- EMIT. -/
def SeqWord.eAcc (w : SeqWord) : Nat := fieldAt w 24 11
def SeqWord.eMode (w : SeqWord) : Nat := fieldAt w 35 2
def SeqWord.eType (w : SeqWord) : Bool := bitAt w 37
def SeqWord.eBase (w : SeqWord) : Nat := fieldAt w 38 14
def SeqWord.ePitch (w : SeqWord) : Nat := fieldAt w 52 14
/-- STORE. -/
def SeqWord.sAcc (w : SeqWord) : Nat := fieldAt w 24 11
def SeqWord.sBank (w : SeqWord) : Nat := fieldAt w 35 1
def SeqWord.sAddr (w : SeqWord) : Nat := fieldAt w 36 21
def SeqWord.sType (w : SeqWord) : Nat := fieldAt w 57 5
/-- ATTN. -/
def SeqWord.aKind (w : SeqWord) : Nat := fieldAt w 24 2
def SeqWord.aInit (w : SeqWord) : Bool := bitAt w 26
def SeqWord.mapOff (w : SeqWord) : Nat := 32 * fieldAt w 28 11
def SeqWord.aStart (w : SeqWord) : Nat := fieldAt w 39 5
def SeqWord.heads (w : SeqWord) : Nat := fieldAt w 44 4 + 1
def SeqWord.dcode (w : SeqWord) : Nat := fieldAt w 48 2
def SeqWord.kvFp8 (w : SeqWord) : Bool := bitAt w 50
def SeqWord.aAoff (w : SeqWord) : Nat := fieldAt w 51 10
def SeqWord.aAcc (w : SeqWord) : Nat := fieldAt w 61 11
def SeqWord.causal (w : SeqWord) : Bool := bitAt w 72
def SeqWord.sparse (w : SeqWord) : Bool := bitAt w 73
def SeqWord.window (w : SeqWord) : Nat := fieldAt w 74 13 + 1
def SeqWord.glob (w : SeqWord) : Nat := fieldAt w 87 7

/-- Head width D, key-value type code, bytes of an element, positions of a share (Tables 1, 2 of 06). -/
def SeqWord.headWidth (w : SeqWord) : Nat := 64 * 2 ^ w.dcode
def SeqWord.kvType (w : SeqWord) : Nat := if w.kvFp8 then 3 else 1
def SeqWord.kvBytes (w : SeqWord) : Nat := if w.kvFp8 then 1 else 2
def SeqWord.share (w : SeqWord) : Nat := 2048 / (w.headWidth * w.kvBytes)
/-- Length of an attention record: D + 2. -/
def SeqWord.recLen (w : SeqWord) : Nat := w.headWidth + 2

/-- Weights in one data chunk of WXV. -/
def SeqWord.perChunk (w : SeqWord) : Nat := 256 / typeBits w.wType
/-- Scale chunks and data chunks of a weight row (R138). -/
def SeqWord.scales (w : SeqWord) : Nat := if isMx w.wType then ceilDiv w.wLen 17 else 0
def SeqWord.dataChunks (w : SeqWord) : Nat := w.wLen - w.scales
/-- Elements of a weight row: K. -/
def SeqWord.rowLen (w : SeqWord) : Nat := w.dataChunks * w.perChunk

/-- Accumulators that fill one chunk of a STORE, and its chunk steps (R147). -/
def SeqWord.perStore (w : SeqWord) : Nat := 256 / typeBits w.sType
def SeqWord.storeSteps (w : SeqWord) : Nat := ceilDiv w.count w.perStore

/-! ### The broadcast buffer and the page map -/

/-- Unlisted bytes of a broadcast buffer: copied undefined bytes of the region, and bytes that no copy filled (log 7). -/
def Slot.bcastDflt (x : Slot) (k : Nat) : Byte :=
  if k < x.bcastLen then (if x.bcastEpoch = 0 then 0 else Config.freeByte x.bcastEpoch (x.bcastBase + k))
  else Config.freeByte x.bcastFree k

/-- Bytes of the broadcast buffer. -/
def Slot.bytes (x : Slot) (k n : Nat) : List Byte := Tab.readN x.bcastDflt x.bcast k n
/-- A number in the broadcast buffer. -/
def Slot.num (x : Slot) (k n : Nat) : Nat := ofBytes (x.bytes k n)

/-- The dispatch runs on the base die's normalisers alone (R181). -/
def Slot.onBase (x : Slot) : Bool := x.dieMask = 0 && x.cellMask = 0

/-- Selected cells of a dispatch: data die and bank cell, in increasing order. -/
def Slot.chosen (x : Slot) : List (Nat × Nat) :=
  (bitsOf x.dieMask 16).flatMap (fun i => (bitsOf x.cellMask 64).map (fun c => (i, c)))

/-- Byte of the page-map entry of a cell of stack `st` (R188). -/
def mapEntry (w : SeqWord) (st i c : Nat) : Nat := w.mapOff + 16 * (1024 * (st % 2) + 64 * i + c)

/-- A page-map entry (Table 8 of 06), when it is valid. -/
structure PageEntry where
  srow : Nat
  par  : Nat
  qh0  : Nat
  pos0 : Nat
  npos : Nat
  ridx : Nat
  qpos : Nat
  deriving DecidableEq, Repr

/-- The entry that a DECODE word gives a cell. -/
def Slot.entry (x : Slot) (w : SeqWord) (st i c : Nat) : Option PageEntry :=
  let k := mapEntry w st i c
  let h := x.num k 4
  if bitAt h 15 then
    some ⟨fieldAt h 0 14, fieldAt h 14 1, fieldAt h 16 8, x.num (k + 4) 4, x.num (k + 8) 2, x.num (k + 10) 2, x.num (k + 12) 4⟩
  else none

/-! ### Score blocks (Table 4 of 06) -/

/-- A score-block descriptor. -/
structure Score where
  score : Nat
  stats : Nat
  m : Nat
  n : Nat
  q0 : Nat
  k0 : Nat
  gc : Nat
  causal : Bool
  sparse : Bool
  otype : Nat
  win : Nat
  glob : Nat
  /-- A reserved field is not zero. -/
  bad : Bool
  deriving DecidableEq, Repr

/-- Descriptor `i` of a NORMALISE word. -/
def Slot.score (x : Slot) (w : SeqWord) (i : Nat) : Score :=
  let k := w.mapOff + 64 * i
  let f := x.num (k + 0x10) 4
  let g := x.num (k + 0x1C) 4
  { score := x.num k 6
    stats := x.num (k + 8) 6
    m := fieldAt f 0 9 + 1
    n := fieldAt f 16 15 + 1
    q0 := x.num (k + 0x14) 4
    k0 := x.num (k + 0x18) 4
    gc := fieldAt g 0 7
    causal := bitAt g 7
    sparse := bitAt g 8
    otype := if bitAt g 9 then 3 else 1
    win := fieldAt g 10 13 + 1
    glob := fieldAt g 23 7
    bad := x.num (k + 6) 2 != 0 || x.num (k + 14) 2 != 0 || fieldAt f 9 7 != 0 || bitAt f 31 || fieldAt g 30 2 != 0 ||
      x.num (k + 0x20) 32 != 0 }

/-- A range lies in present linear-view memory of stack `st`. -/
def Dev.linearOn (d : Dev) (st a n : Nat) : Bool :=
  a / stackSpan == st && (a + n - 1) / stackSpan == st && d.rangeOk a n

/-- A descriptor breaks R178 or R179, or leaves the linear memory of its stack (R181). -/
def Dev.scoreBad (d : Dev) (st : Nat) (x : Score) : Bool :=
  x.bad || 512 < x.m || 32768 < x.n || x.score % 16384 != 0 || x.stats % 32 != 0 || 64 < x.gc || 64 < x.glob ||
  x.q0 < x.k0 || (if x.sparse then x.gc != min x.glob x.k0 || 8192 < x.win else x.gc != 0 || x.glob != 0) ||
  !d.linearOn st x.score (footprint 3 0 x.n x.m) || !d.linearOn st x.stats (16 * x.m)

/-! ### The checks of a sequence (R145) -/

def codeSeqInvalid : Nat := 0x20
def codeSeqSegment : Nat := 0x21
def codeSeqBound : Nat := 0x22
def codeSeqAcc : Nat := 0x23

/-- Bits of the word that Tables 9 to 11 of 05 and Table 7 of 06 leave reserved are zero. -/
def SeqWord.reservedOk (w : SeqWord) : Bool :=
  let zero := fun (lo n : Nat) => fieldAt w lo n == 0
  zero 5 3 &&
  (match w.op with
   | 0x1 => zero 45 83
   | 0x2 => zero 72 1 && zero 113 15
   | 0x3 => if w.aKind = 1 then zero 26 2 && zero 39 89 else zero 27 1 && zero 94 34
   | 0x5 => zero 66 62
   | 0x6 => zero 62 66
   | _ => zero 8 120)

/-- The most recent DECODE word before word `i`. -/
def lastDecode (ws : List SeqWord) (i : Nat) : Option SeqWord :=
  (ws.take i).reverse.find? (fun w => w.op = 0x3 && w.aKind = 0)

/-- A field outside its list or range, or an EMIT that breaks R192 (SEQ_INVALID). `none`: the dispatch is one of the base
die's normalisers, which holds NORMALISE words and a final END (R181). -/
def SeqWord.invalid (w : SeqWord) (ws : List SeqWord) (i : Nat) (none : Bool) : Bool :=
  !w.reservedOk ||
  (match w.op with
   | 0x1 => w.count = 0 || none
   | 0x2 =>
     w.count = 0 || none || w.wPitch < w.wLen || !([1, 3, 4, 5, 6, 12].contains w.wType) ||
       (isMx w.wType && w.wLen % 17 = 1)
   | 0x3 =>
     if w.aKind = 1 then w.count = 0 || 256 < w.count || !none
     else none || 1 < w.aKind || w.dcode = 3 || w.count = 0 || w.share < w.aStart + w.count || 64 < w.glob
   | 0x5 =>
     w.count = 0 || none || 1 < w.eMode ||
       (w.eMode = 1 &&
         (match lastDecode ws i with
          | some x => w.eBase != 0 || w.ePitch != x.recLen || w.eType || w.count % x.recLen != 0
          | _ => true))
   | 0x6 => w.count = 0 || none || !([0, 1, 3, 4].contains w.sType)
   | 0x7 | 0x8 => none
   | 0xF => none && decide (i + 1 < ws.length)
   | _ => true)

/-- Rows of a bank that `n` chunks from chunk `a` lie in. -/
def rowsOf (a n : Nat) : List Nat := (List.range ((a + n - 1) / 64 - a / 64 + 1)).map (· + a / 64)

/-- A row of stack `st` lies in the bank view (R132). -/
def Dev.bankRow (d : Dev) (st row : Nat) : Bool := row < 20480 && d.assigned st row 0 true

/-- A cell's page-map entry lies past the broadcast buffer, or names rows outside the bank view or activations past the
ABUF. -/
def Dev.entryBound (d : Dev) (st : Nat) (x : Slot) (w : SeqWord) (p : Nat × Nat) : Bool :=
  65536 < mapEntry w st p.1 p.2 + 16 ||
  (match x.entry w st p.1 p.2 with
   | some e => !d.bankRow st (2 * e.srow) || !d.bankRow st (2 * e.srow + 1) ||
       32768 < 32 * w.aAoff + (e.qh0 + w.heads) * w.headWidth * 2
   | none => false)

/-- SEQ_BOUND for one word: a WXV also keeps B × ASTR within what AOFF leaves of the ABUF (R195). -/
def Dev.seqBound (d : Dev) (st : Nat) (x : Slot) (w : SeqWord) : Bool :=
  match w.op with
  | 0x1 => 1024 < w.loadAoff + w.count || 2048 < w.loadBoff + w.count
  | 0x2 =>
    (List.range w.count).any (fun i => (rowsOf (w.wAddr + i * w.wPitch) w.wLen).any (fun r => !d.bankRow st r)) ||
      32768 < 32 * (w.wAoff + (w.wBatch - 1) * w.wAstr) + 2 * w.rowLen || 32768 < 32 * (w.wAoff + w.wBatch * w.wAstr)
  | 0x3 =>
    if w.aKind = 1 then
      65536 < w.mapOff + 64 * w.count || (List.range w.count).any (fun i => d.scoreBad st (x.score w i))
    else x.chosen.any (d.entryBound st x w)
  | 0x6 => (rowsOf w.sAddr w.storeSteps).any (fun r => !d.bankRow st r)
  | _ => false

/-- The result indices of a cell's EMIT leave the merge buffer, or do not fall on a record (R192). -/
def Slot.emitAcc (x : Slot) (st : Nat) (ws : List SeqWord) (i : Nat) (w : SeqWord) (p : Nat × Nat) : Bool :=
  if w.eMode = 1 then
    match lastDecode ws i with
    | some y =>
      (match x.entry y st p.1 p.2 with
       | some e => e.ridx % y.recLen != 0 || 16384 < e.ridx + w.count
       | none => false)
    | none => true
  else 16384 < w.eBase + (64 * p.1 + p.2) * w.ePitch + w.count

/-- SEQ_ACC for word `i`. -/
def Slot.seqAcc (x : Slot) (st : Nat) (ws : List SeqWord) (i : Nat) (w : SeqWord) : Bool :=
  match w.op with
  | 0x2 => 2048 < w.wAcc + w.count * w.wBatch
  | 0x3 => w.aKind = 0 && 2048 < w.aAcc + w.heads * w.recLen
  | 0x5 => 2048 < w.eAcc + w.count || x.chosen.any (x.emitAcc st ws i w)
  | 0x6 => 2048 < w.sAcc + w.count
  | _ => false

/-- Nominal length of a word in BAU cycles (Table 12 of 05, R190). -/
def SeqWord.nominal (w : SeqWord) : Nat :=
  match w.op with
  | 0x1 => ceilDiv w.count 8
  | 0x2 => w.count * (w.dataChunks * w.wBatch + w.scales)
  | 0x3 =>
    if w.aKind = 1 then 0
    else w.heads * (2 * (w.headWidth * w.kvBytes / 32) * w.count + ceilDiv w.count 16 * (1 + w.headWidth / 16))
  | 0x5 => 16 * ceilDiv (4 * w.count) 256
  | 0x6 => w.storeSteps + (if w.count % w.perStore = 0 then 0 else 1)
  | _ => 0

/-- A yield point (R143). -/
def SeqWord.yields (w : SeqWord) : Bool := w.op = 0x7 || w.op = 0x8 || w.op = 0xF

/-- The first failing word in the order of the words, each by the order of Table 13, with the segment length last:
its code and index. `len`: nominal length of the segment so far. -/
def Dev.seqFail (d : Dev) (st : Nat) (x : Slot) (ws : List SeqWord) (i len : Nat) : List SeqWord → Option (Nat × Nat)
  | [] => none
  | w :: r =>
    let n := len + w.nominal
    if w.invalid ws i x.onBase || (r.isEmpty && w.op != 0xF) then some (codeSeqInvalid, i)
    else if d.seqBound st x w then some (codeSeqBound, i)
    else if x.seqAcc st ws i w then some (codeSeqAcc, i)
    else if 2048 < n then some (codeSeqSegment, i)
    else d.seqFail st x ws (i + 1) (if w.yields then 0 else n) r

/-- The die concerned, where a word fails in what one cell takes from its page map or sends as its results: the first such
cell's. -/
def Dev.faultDie (d : Dev) (st : Nat) (x : Slot) (ws : List SeqWord) (f : Nat × Nat) : Option Nat :=
  match (ws[f.2]? : Option SeqWord) with
  | none => none
  | some w =>
    if f.1 = codeSeqBound && w.op = 0x3 && w.aKind = 0 then (x.chosen.find? (d.entryBound st x w)).map (·.1)
    else if f.1 = codeSeqAcc && w.op = 0x5 && w.eAcc + w.count ≤ 2048 then (x.chosen.find? (x.emitAcc st ws f.2 w)).map (·.1)
    else none

/-- `STACK_FAULT_INFO` (Table 21). -/
def seqFault (slot word : Nat) (die : Option Nat) : Word :=
  BitVec.ofNat 32 (2 ^ 31 + (match die with
    | some i => 2 ^ 28 + i * 2 ^ 24
    | none => 0) + slot * 2 ^ 16 + word % 2048)

end Sys2Proof.Machine
end

