-- ==== Sys2Proof/Machine/Stacks.lean ====
section
/-! DEFINITION. What the words of a stack sequence do (05_compute_stacks, 06_attention): bank cells and their arithmetic,
the partial-result merger, the normalisers, and the end of a sequence. -/

namespace Sys2Proof.Machine
open Sys2Proof

/-! ### Bank cells (R135, R151) -/

/-- Undefined BAU state: bytes of activation buffers, accumulators (R135; log 7). -/
def abufUnlisted (ep : Tab Nat) (k : Nat) : Byte := Config.freeByte (Tab.read (fun _ => 0) ep (k / 32768 / 1152)) k
def accUnlisted (ep : Tab Nat) (k : Nat) : Word := Config.freeWord (Tab.read (fun _ => 0) ep (k / 2048 / 1152)) k
def Dev.abufDflt (d : Dev) : Nat → Byte := abufUnlisted d.bauEpoch
def Dev.accDflt (d : Dev) : Nat → Word := accUnlisted d.bauEpoch

/-- The chunk in the weight latch, and the bytes in the row buffer of a bank of a die: undefined until the first chunk is latched
and while no row is open (R135; log 107). -/
def Dev.weightLatch (d : Dev) (ck : Nat) : List Byte :=
  (d.bcell ck).latch.getD ((List.range 32).map (fun k =>
    Config.freeByte (Tab.read (fun _ => 0) d.bauEpoch (ck / 1152)) (2 ^ 40 + 32 * ck + k)))
def Dev.rowBuffer (d : Dev) (st i bank : Nat) : List Byte :=
  match Tab.read (fun _ => none) (d.stk st).rowBufs (i * 128 + bank) with
  | some row => (List.range 64).flatMap (fun c => d.chunk st i ⟨bank, row, c⟩)
  | none => (List.range 2048).map (fun k =>
      Config.freeByte (Tab.read (fun _ => 0) d.bauEpoch st) (2 ^ 41 + ((st * 18 + i) * 128 + bank) * 2048 + k))

/-- Accumulator `i` of the cell with key `ck`. -/
def Dev.acc (d : Dev) (ck i : Nat) : FpVal := ofF32 (Tab.read d.accDflt d.accs (ck * 2048 + i))
def Dev.setAcc (d : Dev) (ck i : Nat) (v : FpVal) : Dev := { d with accs := Tab.write d.accDflt d.accs (ck * 2048 + i) v.toF32 }
/-- Write values to accumulators from `i` on. -/
def Dev.setAccs (d : Dev) (ck i : Nat) (vs : List FpVal) : Dev :=
  { d with accs := Tab.writeN d.accDflt d.accs (ck * 2048 + i) (vs.map FpVal.toF32) }

/-- Element `i` of the BF16 values at byte `o` of a cell's activation buffer. -/
def Dev.activation (d : Dev) (ck o i : Nat) : FpVal :=
  decodeElem 1 (ofBytes (Tab.readN d.abufDflt d.abuf (ck * 32768 + o + 2 * i) 2))
/-- Write bytes into a cell's activation buffer. -/
def Dev.abufWrite (d : Dev) (ck o : Nat) (bytes : List Byte) : Dev :=
  { d with abuf := Tab.writeN d.abufDflt d.abuf (ck * 32768 + o) bytes }

/-- The slot `n` of stack `st`, when it is in use. -/
def Dev.slotOf (d : Dev) (st n : Nat) : Option Slot := Tab.read (fun _ => none) (d.stk st).slots n
def Dev.setSlot (d : Dev) (st n : Nat) (x : Option Slot) : Dev :=
  d.modStk st (fun s => { s with slots := Tab.write (fun _ => none) s.slots n x })

/-- The cell is in a segment, which the turn of its start or resume began (R143, R153, R163, R165). -/
def BCell.inSegment (x : BCell) : Bool := x.phase = .streaming

/-- The cell goes on with its words: it is in a segment and does not refresh, and its stack is not halted (R22). -/
def Dev.cellActs (d : Dev) (st : Nat) (x : BCell) : Bool := !x.refreshing && x.inSegment && !(d.stk st).halted

/-- The word that the cell executes next, with its slot. -/
def Dev.nextSeq (d : Dev) (st i c : Nat) : Option (Slot × SeqWord) :=
  let x := d.bcell (cellKey st i c)
  if x.work = .seq && d.cellActs st x then
    match x.runs with
    | n :: _ =>
      match d.slotOf st n with
      | some s => (s.words[x.pc]?).map (fun w => (s, w))
      | none => none
    | [] => none
  else none

/-- The next word of the cell when it has the code `o`. -/
def Dev.wordFor (d : Dev) (st i c o : Nat) : Option (Slot × SeqWord) := (d.nextSeq st i c).filter (fun q => q.2.op = o)

/-- The cell moves to its next word. -/
def Dev.advance (d : Dev) (st i c : Nat) : Dev :=
  d.modBcell (cellKey st i c) (fun x => { x with pc := x.pc + 1, storePos := 0 })

/-! ### Bank reads (R300 to R302) -/

/-- Chunk `n` of bank `b`. -/
def bankStripe (b n : Nat) : Stripe := ⟨b, n / 64, n % 64⟩

/-! ### Stream rows (R152, R153, R190) -/

/-- The stream row of a row of a bank: rows 2j and 2j + 1 (R152). -/
def streamRow (bank row : Nat) : Nat := bank * 10240 + row / 2
/-- Stream rows of `n` chunks of a bank from chunk `a`. -/
def chunkRows (bank a n : Nat) : List Nat := (rowsOf a n).map (streamRow bank)

/-- The activations that rows read in this order take when `row` is open: a row that is open already takes none. -/
def openings (row : Option Nat) (l : List Nat) : List Nat :=
  match l with
  | [] => []
  | r :: t => if row = some r then openings row t else r :: openings (some r) t

/-- Slot `t` of the share is visible to the query (R188). -/
def slotVisible (w : SeqWord) (e : PageEntry) (t : Nat) : Bool :=
  let p := e.pos0 + t
  t < e.npos && (!w.causal || p ≤ e.qpos) && (!w.sparse || e.qpos < p + w.window || p < w.glob)

/-- Visible slots of the tiles of a word, tile by tile. -/
def tilesOf (w : SeqWord) (e : PageEntry) : List (List Nat) :=
  (List.range (ceilDiv w.count 16)).map (fun k =>
    ((List.range (min 16 (w.count - 16 * k))).map (fun j => w.aStart + 16 * k + j)).filter (slotVisible w e))

/-- Stream rows that the word reads in cell `c` of die `i`, from chunk step `pos` on where it is a STORE. -/
def Slot.wordRows (s : Slot) (w : SeqWord) (st i c pos : Nat) : List Nat :=
  match w.op with
  | 0x2 => (List.range w.count).flatMap (fun r => chunkRows (2 * c + w.wBank) (w.wAddr + r * w.wPitch) w.wLen)
  | 0x3 =>
    match s.entry w st i c with
    | some e => if (tilesOf w e).any (fun t => !t.isEmpty) then [streamRow (2 * c + e.par) (2 * e.srow)] else []
    | none => []
  | 0x6 => chunkRows (2 * c + w.sBank) (w.sAddr + pos) (w.storeSteps - pos)
  | _ => []

/-- The activations of a word: a DECODE word that reads any slot makes one of its own (R190). -/
def Slot.wordOpens (s : Slot) (w : SeqWord) (st i c pos : Nat) (row : Option Nat) : List Nat :=
  openings (if w.op = 0x3 then none else row) (s.wordRows w st i c pos)

/-- The activations of the words up to the next yield point. -/
def Slot.segmentOpens (s : Slot) (st i c pos : Nat) (row : Option Nat) (ws : List SeqWord) : List Nat :=
  match ws with
  | [] => []
  | w :: r =>
    if w.yields then []
    else
      let o := s.wordOpens w st i c pos row
      o ++ s.segmentOpens st i c 0 (o.getLast?.or row) r

/-- The cell has read the stream rows `l`, the last of which stays open. -/
def BCell.read (x : BCell) (l : List Nat) : BCell :=
  { x with row := l.getLast?.or x.row, rowsAhead := x.rowsAhead - l.length }

/-- The cell leaves its segment: no stream row is open any more. -/
def BCell.leave (x : BCell) (ref : Bool) : BCell := { x with phase := .atYield ref, row := none, rowsAhead := 0 }

/-- The first of the chunks that fails parity. -/
def Dev.firstBad (d : Dev) (st i b : Nat) (ns : List Nat) : Option Stripe :=
  (ns.find? (fun n => d.chunkBad st i (bankStripe b n))).map (bankStripe b)

/-- A BAU meets a parity error: the cell is at a yield point until the stripe is reconstructed (R147, R302). -/
def Dev.bauWaits (d : Dev) (st i c : Nat) (p : Stripe) : Dev :=
  (d.modBcell (cellKey st i c) (fun x => { x.leave false with holds := some p })).ueWaits st
    ⟨p, .bau, st / 2, 4 + st % 2, .recon⟩

/-- Device address of a chunk of a bank, in the view that its row has. -/
def Dev.chunkAddr (d : Dev) (st i b n : Nat) : Nat :=
  let a := d.stripeAddr st (bankStripe b n)
  if bitAt a 46 then a + i * 2 ^ 33 else a + 32 * i

/-- The chunks of a bank that a word has read: an error on the path of one ends with its re-read (R301), and the step has used
them (R375). -/
def Dev.retriedAll (d : Dev) (st i b : Nat) (ns : List Nat) : Dev :=
  ns.foldl (fun a n => (a.retried st i (bankStripe b n)).stepUses (reconWho st) (a.chunkAddr st i b n) 32) d

/-- A chunk of a bank as a step reads it (R375). -/
def Dev.seenChunk (d : Dev) (st i b n : Nat) : List Byte :=
  d.stepBytes (reconWho st) (d.chunkAddr st i b n) (d.chunk st i (bankStripe b n))

/-- A chunk of data die `i` was written since the dispatch (R177, R186, R212). -/
def Slot.racedAt (s : Slot) (i : Nat) (p : Stripe) : Bool := s.raced.contains (linearOff i p)

/-- Bytes of a bank as the BAU reads them, from byte `o` of its data. -/
def Dev.bankBytes (d : Dev) (st i b o n : Nat) : List Byte :=
  slice ((List.range ((o + n - 1) / 32 - o / 32 + 1)).flatMap (fun k => d.seenChunk st i b (o / 32 + k))) (o % 32) n

/-- Element `j` of type `t` in bytes. -/
def elemOf (t : Nat) (bs : List Byte) (j : Nat) : FpVal :=
  let n := typeBits t
  decodeElem t (fieldAt (ofBytes (slice bs (j * n / 8) 4)) (j * n % 8) n)

/-! ### WXV (R137, R141) -/

/-- A product as a BAU forms it: exact, flushed to zero below 2^−126. -/
def bauProduct (a b : FpVal) : FpVal :=
  match a.mul b with
  | .fin s m e => if m ≠ 0 && floorLog m e < -126 then .fin s 0 0 else .fin s m e
  | x => x

/-- A row added to an accumulator, element by element. -/
def bauDot (init : FpVal) (ps : List (FpVal × FpVal)) : FpVal := ps.foldl (fun a p => add32 a (bauProduct p.1 p.2)) init

/-- Stored chunk of data chunk `m` of a row: MXFP4 rows hold a scale chunk after each 16 (R138). -/
def SeqWord.stored (w : SeqWord) (m : Nat) : Nat := if isMx w.wType then m + m / 16 else m
/-- Stored chunk of the scales of the group of data chunk `m`. -/
def SeqWord.scaleChunk (w : SeqWord) (m : Nat) : Nat := min (m / 16 * 17 + 16) (w.wLen - 1)

/-- The weights of a row whose stored bytes are `bs`. -/
def SeqWord.weights (w : SeqWord) (bs : List Byte) : List FpVal :=
  (List.range w.rowLen).map (fun k =>
    let m := k / w.perChunk
    let x := elemOf w.wType (slice bs (32 * w.stored m) 32) (k % w.perChunk)
    if isMx w.wType then
      x.mul (scaleOf (fieldOf bs (32 * w.scaleChunk m + (k - m / 16 * 1024) / 32) 1))
    else x)

/-- The rows `i` on, `n` of them: each row for every sequence of the batch. -/
def Dev.wxvRows (d : Dev) (st i c : Nat) (w : SeqWord) (r : Nat) : Nat → Dev
  | 0 => d
  | n + 1 =>
    let ck := cellKey st i c
    let ws := w.weights (d.bankBytes st i (2 * c + w.wBank) (32 * (w.wAddr + r * w.wPitch)) (32 * w.wLen))
    let vals := (List.range w.wBatch).map (fun q =>
      let o := 32 * (w.wAoff + q * w.wAstr)
      let a := w.wAcc + r * w.wBatch + q
      bauDot (if w.wZero then FpVal.zero else d.acc ck a) (ws.zip ((List.range w.rowLen).map (d.activation ck o))))
    (d.setAccs ck (w.wAcc + r * w.wBatch) vals).wxvRows st i c w (r + 1) n

/-- The chunk that the weight latch holds after the word: the last data chunk of its last row (R135, R141). -/
def Dev.lastWeights (d : Dev) (st i c : Nat) (w : SeqWord) : List Byte :=
  d.chunk st i (bankStripe (2 * c + w.wBank) (w.wAddr + (w.count - 1) * w.wPitch + w.stored (w.dataChunks - 1)))

/-- WXV of one cell, once its stream rows are open; a chunk that fails parity holds it. -/
def Dev.wxv (d : Dev) (st i c : Nat) : Dev :=
  match d.wordFor st i c 0x2 with
  | none => d
  | some (s, w) =>
    let ck := cellKey st i c
    let x := d.bcell ck
    let rows := s.wordOpens w st i c 0 x.row
    let chunks := (List.range w.count).flatMap (fun r => (List.range w.wLen).map (fun k => w.wAddr + r * w.wPitch + k))
    if x.rowsAhead < rows.length then d
    else
      match d.firstBad st i (2 * c + w.wBank) chunks with
      | some p => d.bauWaits st i c p
      | none =>
        let d1 := (d.wxvRows st i c w 0 w.count).retriedAll st i (2 * c + w.wBank) chunks
        (d1.modBcell ck (fun y => { y.read rows with latch := some (d.lastWeights st i c w) })).advance st i c

/-! ### LOADA (R142) -/

/-- A selected cell of slot `n` stands at a LOADA word. -/
def Dev.atLoada (d : Dev) (st n : Nat) (p : Nat × Nat) : Bool :=
  decide ((d.bcell (cellKey st p.1 p.2)).runs.head? = some n) && (d.wordFor st p.1 p.2 0x1).isSome

/-- LOADA: the selected cells that stand at the earliest LOADA word, all at once. A cell that tPIM_CAP keeps from starting
comes to the word later (R142, R151; log 86). -/
def Dev.loada (d : Dev) (st n : Nat) : Dev :=
  match d.slotOf st n with
  | none => d
  | some s =>
    let pcOf := fun (p : Nat × Nat) => (d.bcell (cellKey st p.1 p.2)).pc
    match s.chosen.filter (d.atLoada st n) with
    | [] => d
    | p0 :: rest =>
      let pc := rest.foldl (fun m p => min m (pcOf p)) (pcOf p0)
      match (s.words[pc]? : Option SeqWord) with
      | none => d
      | some w =>
        let bs := s.bytes (32 * w.loadBoff) (32 * w.count)
        ((p0 :: rest).filter (fun p => decide (pcOf p = pc))).foldl
          (fun a p => (a.abufWrite (cellKey st p.1 p.2) (32 * w.loadAoff) bs).advance st p.1 p.2) d

/-! ### EMIT and the merger (R142, R149, R150, R192, R193) -/

/-- A value added into an entry of the merge buffer: one FP32 rounding. -/
def Slot.sumInto (x : Slot) (i : Nat) (v : FpVal) : Slot :=
  let old := ofF32 ((Tab.read (fun _ => none) x.merge i).getD 0)
  { x with merge := Tab.write (fun _ => none) x.merge i (some (add32 old v).toF32) }

/-- EMIT of one cell. -/
def Dev.emitWord (d : Dev) (st i c : Nat) : Dev :=
  match d.wordFor st i c 0x5 with
  | none => d
  | some (s, w) =>
    let ck := cellKey st i c
    let n := ((d.bcell ck).runs.head?).getD 0
    let vals := (List.range w.count).map (fun j => d.acc ck (w.eAcc + j))
    let s' :=
      if w.eMode = 1 then
        match (d.bcell ck).ridx with
        | none => s
        | some r =>
          { s with
            recLen := w.ePitch
            arrivals := s.arrivals ++ (List.range (w.count / w.ePitch)).map (fun k =>
              (r + k * w.ePitch, (slice vals (k * w.ePitch) w.ePitch).map FpVal.toF32)) }
      else
        let base := w.eBase + (64 * i + c) * w.ePitch
        { (vals.zip (List.range w.count)).foldl (fun a v => a.sumInto (base + v.2) v.1) s with otype := w.eType }
    (d.setSlot st n (some s')).advance st i c

/-- The merge of an attention record into its buffer record (R193). -/
def mergeRecord (old new : List FpVal) : List FpVal :=
  let r := new.length
  let m0 := old.getD (r - 2) .nan
  let m1 := new.getD (r - 2) .nan
  let mn := m0.larger m1
  if mn = .inf true then old
  else
    let a := expFn true (sub32 m0 mn)
    let b := expFn true (sub32 m1 mn)
    (List.range r).map (fun k =>
      if k = r - 2 then mn else fma32 (new.getD k .nan) b (mul32 (old.getD k .nan) a))

/-- ATTN_RECORD_MERGE: the oldest record that has arrived; a halted stack merges no more (R22). -/
def Dev.recordMerge (d : Dev) (st n : Nat) : Dev :=
  match (if (d.stk st).halted then none else d.slotOf st n) with
  | none => d
  | some s =>
    match s.arrivals with
    | [] => d
    | (i, ws) :: rest =>
      let old := (List.range ws.length).map (fun k => Tab.read (fun _ => none) s.merge (i + k))
      let out :=
        if old.all (·.isNone) then ws
        else (mergeRecord (old.map (fun v => ofF32 (v.getD 0))) (ws.map ofF32)).map FpVal.toF32
      d.setSlot st n (some { s with
        arrivals := rest
        merge := Tab.writeN (fun _ => none) s.merge i (out.map some) })

/-- What the merger sends at the end (R150, R193): entries from the lowest written to the highest; an entry that no value
reached is zero, or the maximum −∞ of an empty record. -/
def Slot.output (x : Slot) : List Byte :=
  match x.merge with
  | [] => []
  | e :: r =>
    let hi := (r.getLast?.map (·.1)).getD e.1
    (List.range (hi + 1 - e.1)).flatMap (fun j =>
      let i := e.1 + j
      let v := match Tab.read (fun _ => none) x.merge i with
        | some w => ofF32 w
        | none => if x.recLen ≠ 0 && i % x.recLen = x.recLen - 2 then .inf true else FpVal.zero
      if x.otype then bytesOf (v.toType 1 true) 2 else bytesOf v.toF32.toNat 4)

/-! ### ATTN DECODE (R188, R189) -/

/-- A record while a word works on it: o, m, l. -/
structure AttnRec where
  o : List FpVal
  m : FpVal
  l : FpVal

/-- One tile for one query head: `ks` and `vs` are the visible slots' keys and values, in slot order. -/
def attnTile (q : List FpVal) (ks vs : List (List FpVal)) (r : AttnRec) : AttnRec :=
  let s := ks.map (fun k => (q.zip k).foldl (fun a p => add32 a (p.1.mul p.2)) FpVal.zero)
  let mn := s.foldl FpVal.larger r.m
  let a := if r.m = .inf true then FpVal.zero else expFn true (sub32 r.m mn)
  let p := s.map (fun x => decodeElem 1 ((expFn true (sub32 x mn)).toType 1 false))
  { m := mn
    l := p.foldl add32 (mul32 r.l a)
    o := (r.o.zip (List.range r.o.length)).map (fun x =>
      (p.zip vs).foldl (fun acc y => add32 acc (y.1.mul (y.2.getD x.2 .nan))) (mul32 x.1 a)) }

/-- Bytes of the key (`row` 0) or value (`row` 1) of slot `t` in the bank of its share (R175). -/
def kvPlace (w : SeqWord) (e : PageEntry) (row t : Nat) : Nat := (2 * e.srow + row) * 2048 + t * w.headWidth * w.kvBytes

/-- Chunks of the key or value of a slot. -/
def kvChunks (w : SeqWord) (e : PageEntry) (row t : Nat) : List Nat :=
  (List.range (w.headWidth * w.kvBytes / 32)).map (fun k => kvPlace w e row t / 32 + k)

/-- The slot was written after the dispatch: what the ATTN sees there is unpredictable (R177). -/
def Slot.kvRaced (s : Slot) (i c : Nat) (w : SeqWord) (e : PageEntry) (t : Nat) : Bool :=
  [0, 1].any (fun row => (kvChunks w e row t).any (fun n => s.racedAt i (bankStripe (2 * c + e.par) n)))

/-- The key or value of a slot; free where the slot was written after the dispatch (R177; log 90). -/
def Dev.kvVector (d : Dev) (s : Slot) (st i c : Nat) (w : SeqWord) (e : PageEntry) (row t : Nat) : List FpVal :=
  let bs := if s.kvRaced i c w e t then
      (List.range (w.headWidth * w.kvBytes)).map (fun k => Config.freeByte d.free (kvPlace w e row t + k))
    else d.bankBytes st i (2 * c + e.par) (kvPlace w e row t) (w.headWidth * w.kvBytes)
  (List.range w.headWidth).map (elemOf w.kvType bs)

/-- The records of all heads after the word. -/
def Dev.attnHead (d : Dev) (s : Slot) (st i c : Nat) (w : SeqWord) (e : PageEntry) (g : Nat) : List FpVal :=
  let ck := cellKey st i c
  let a := w.aAcc + g * w.recLen
  let q := (List.range w.headWidth).map (d.activation ck (32 * w.aAoff + (e.qh0 + g) * w.headWidth * 2))
  let r0 : AttnRec :=
    if w.aInit then ⟨List.replicate w.headWidth FpVal.zero, .inf true, FpVal.zero⟩
    else ⟨(List.range w.headWidth).map (fun k => d.acc ck (a + k)), d.acc ck (a + w.headWidth), d.acc ck (a + w.headWidth + 1)⟩
  let r := ((tilesOf w e).filter (fun t => !t.isEmpty)).foldl (fun r t =>
    attnTile q (t.map (d.kvVector s st i c w e 0)) (t.map (d.kvVector s st i c w e 1)) r) r0
  r.o ++ [r.m, r.l]

/-- Offsets of the counters of R198 and R214. -/
def tilesSkippedAt (s : Nat) : Nat := stackBase s + 0x068
def normSkippedAt (s : Nat) : Nat := stackBase s + 0x070
def scanVectorsAt (s : Nat) : Nat := stackBase s + 0x078
def scanFilteredAt (s : Nat) : Nat := stackBase s + 0x080
def scanNanAt (s : Nat) : Nat := stackBase s + 0x088
def scanInterleavesAt (s : Nat) : Nat := stackBase s + 0x090

/-- ATTN DECODE of one cell: no effect without a valid entry; a word that reads any slot has made its own stream activation
(R190). -/
def Dev.attnDecode (d : Dev) (st i c : Nat) : Dev :=
  match d.wordFor st i c 0x3 with
  | none => d
  | some (s, w) =>
    if w.aKind ≠ 0 then d
    else
      let ck := cellKey st i c
      match s.entry w st i c with
      | none => (d.modBcell ck (fun x => { x with ridx := none })).advance st i c
      | some e =>
        let ts := tilesOf w e
        let rows := s.wordOpens w st i c 0 (d.bcell ck).row
        if (d.bcell ck).rowsAhead < rows.length then d
        else
          let chunks := ts.flatten.flatMap (fun t => [0, 1].flatMap (fun row => kvChunks w e row t))
          match d.firstBad st i (2 * c + e.par) chunks with
          | some p => d.bauWaits st i c p
          | none =>
            let vals := (List.range w.heads).flatMap (d.attnHead s st i c w e)
            let d1 := (d.setAccs ck w.aAcc vals).retriedAll st i (2 * c + e.par) chunks
            let d2 := if s.raced.isEmpty then d1 else d1.drawn
            ((d2.modBcell ck (fun x => { x.read rows with ridx := some e.ridx })).bumpBy (tilesSkippedAt st)
              (ts.filter (·.isEmpty)).length).advance st i c

/-! ### STORE (R147, R148) -/

/-- The bytes of chunk step `k` of a STORE, short in the last step of a part. -/
def Dev.storeBytes (d : Dev) (ck : Nat) (w : SeqWord) (k : Nat) : List Byte :=
  (List.range (min w.perStore (w.count - k * w.perStore))).flatMap (fun j =>
    bytesOf ((d.acc ck (w.sAcc + k * w.perStore + j)).toType w.sType true) (typeBits w.sType / 8))

/-- The cell waits at a yield point inside a STORE, for a stripe's lock or for its delta's grant (R147, R306). -/
def Dev.storeWaits (d : Dev) (ck : Nat) (p : Option Stripe) : Dev :=
  d.modBcell ck (fun x => { x.leave false with holds := p })

/-- Device address of a chunk of a bank-view row. -/
def bankAddr (st i b n : Nat) : Nat := bankViewBase + st * stackSpan + i * 2 ^ 33 + b * 2 ^ 26 + n * 32

/-- One chunk step: it waits for the stripe's lock and for the grant of its previous delta; the delta of the new chunk is
sent, lines of the stack cache that it touches are invalidated, and a mirrored write enters the stream (R170, R292). -/
def Dev.storeStep (d : Dev) (st i c : Nat) : Dev :=
  match d.wordFor st i c 0x6 with
  | none => d
  | some (_, w) =>
    let ck := cellKey st i c
    let x := d.bcell ck
    let k := x.storePos
    let b := 2 * c + w.sBank
    let p := bankStripe b (w.sAddr + k)
    let rows := openings x.row [streamRow b p.row]
    if x.rowsAhead < rows.length then d
    else if (d.stk st).deltas.any (fun e => decide (e.cell = 64 * i + c) && !e.granted) then d.storeWaits ck none
    else if d.stripeLocked st p then d.storeWaits ck (some p)
    else if d.chunkBad st i p then d.bauWaits st i c p
    else
      let old := d.chunk st i p
      let part := d.storeBytes ck w k
      let new := overlay old part 0
      let d1 := (((d.retried st i p).writeChunk st i p new true).invalidate st p i).modStk st (fun y =>
        y.sendDelta p i (64 * i + c) (xorBytes old new))
      let d2 := (d1.streamOut (bankAddr st i b (w.sAddr + k)) part).modBcell ck (fun y => y.read rows)
      if k + 1 < w.storeSteps then d2.modBcell ck (fun y => { y with storePos := k + 1 }) else d2.advance st i c

/-! ### Yield points in a sequence (R143) -/

/-- YIELD, REFSLOT: the segment reaches a yield point. -/
def Dev.yieldWord (d : Dev) (st i c o : Nat) : Dev :=
  match d.wordFor st i c o with
  | none => d
  | some _ => (d.advance st i c).modBcell (cellKey st i c) (fun x => x.leave (o = 0x8))

/-- END: the cell has done its part of the dispatch and is at a yield point. -/
def Dev.endWord (d : Dev) (st i c : Nat) : Dev :=
  match d.wordFor st i c 0xF with
  | none => d
  | some _ => d.modBcell (cellKey st i c) (fun x =>
      { x.leave false with runs := x.runs.tail, work := .none, pc := 0, storePos := 0, ridx := none, before := x.before - 1 })

/-! ### The end of a sequence (R95, R146, R255) -/

/-- The stack has ended its part of an operation: the operation is done when every stack has (R95). `scan`: the region
still merges the lists. -/
def Dev.stackReports (d : Dev) (k index st : Nat) (scan : Bool) : Dev :=
  d.modFlight k index (fun f =>
    let ws := f.waitsOn.filter (fun s => decide (s ≠ st))
    { f with waitsOn := ws, done := f.done || (ws.isEmpty && !scan) })

/-- The dispatch of slot `n` is over: the slot is free, and its output's place in the queue's order is given up. What a
halted stack had in flight does not complete (R22). -/
def Dev.slotDone (d : Dev) (st n : Nat) (s : Slot) : Dev :=
  if (d.stk st).halted then d
  else
  let k := 4 * s.req.region + s.req.blk
  let q := 32 * s.req.region + (OpWord.queue s.req.word)
  (((d.setSlot st n none).modQueue q (fun x =>
    { x with order := x.order.filter (fun t => decide (t ≠ (st, k, s.req.index))) })).stackReports k s.req.index st
      s.req.scan)

/-- The domain of region `r` saves a step: what its sequences send to queues goes to the save slot as it comes (R246). -/
def Dev.draining (d : Dev) (r : Nat) : Bool :=
  match d.domainOf r with
  | some n => decide ((d.dom n).act = .saving)
  | none => false

/-- An output that a stack has sent, drained into the save slot: its slot is free (R246). -/
def QOut.drained (o : QOut) : QOut := if o.stack.isSome then { o with stack := none, blk := 65535 } else o

/-- The outputs that wait for queue `q` are drained into the save slot, and the dispatches that sent them are over. -/
def Dev.drainQueue (d : Dev) (q : Nat) : Dev :=
  (d.queue q).outs.foldl (fun a o =>
    match o.stack with
    | some st =>
      match a.slotOf st o.slot with
      | some s => a.slotDone st o.slot s
      | none => a
    | none => a) (d.modQueue q (fun x => { x with outs := x.outs.map QOut.drained }))

/-- Every selected cell has executed END, and every record is merged; on the base die, every word is done. -/
def Dev.sequenceOver (d : Dev) (st n : Nat) (s : Slot) : Bool :=
  !s.req.scan && s.arrivals.isEmpty &&
    (if s.onBase then decide (s.basePc + 1 = s.words.length)
     else s.chosen.all (fun p => !(d.bcell (cellKey st p.1 p.2)).runs.contains n))

/-- The normalisers of stack `st` as a unit that accesses memory. -/
def normWho (st : Nat) : Who := ⟨.normaliser, .stream, false, st / 2, 4 + st % 2⟩

/-- The ranges that the NORMALISE words of a sequence name: the score blocks and their statistics (R186). -/
def Slot.normRanges (s : Slot) : List (Nat × Nat) :=
  s.words.flatMap (fun (w : SeqWord) => if w.op = 0x3 then
    (List.range w.count).flatMap (fun i => [((s.score w i).score, footprint 3 0 (s.score w i).n (s.score w i).m),
      ((s.score w i).stats, 16 * (s.score w i).m)]) else [])

/-- Addresses of the chunks of those ranges that were written while the sequence ran. -/
def Slot.raceAddrs (s : Slot) (st : Nat) : List Nat :=
  (s.raced.map (· + st * stackSpan)).filter (fun a => s.normRanges.any (fun r => decide (r.1 < a + 32) && decide (a < r.1 + r.2)))

/-- The results of the writes made into a block while a NORMALISE ran over it are unpredictable (R186; log 90). -/
def Dev.scramble (d : Dev) (st : Nat) (l : List Nat) : Acc Dev :=
  match l with
  | [] => .ok d
  | a :: r =>
    match d.store (normWho st) a ((List.range 32).map (fun k => Config.freeByte d.free (a + k))) with
    | .error e => .error e
    | .ok d1 => d1.scramble st r

/-- SEQUENCE_END: the merger hands its output to the queue when its turn in dispatch order has come; a sequence that
sends nothing ends at once. -/
def Dev.sequenceEnd (d : Dev) (st n : Nat) : Dev :=
  match d.slotOf st n with
  | none => d
  | some s =>
    if !d.sequenceOver st n s || s.sent || (d.stk st).halted then d
    else if s.output.isEmpty then
      match (if s.onBase then d.scramble st (s.raceAddrs st) else .ok d) with
      | .error e => d.stopped (normWho st) false e
      | .ok d1 => ((d1.unserve (normWho st).party).drawn).slotDone st n s
    else
      let k := 4 * s.req.region + s.req.blk
      let q := 32 * s.req.region + (OpWord.queue s.req.word)
      if (d.queue q).order.head? = some (st, k, s.req.index) then
        let d1 := (d.setSlot st n (some { s with sent := true })).modQueue q (fun x =>
          { x with outs := x.outs ++ [⟨s.output, false, some st, n, k, s.req.index, false, false, false⟩] })
        if d.draining s.req.region then d1.drainQueue q else d1
      else d

/-! ### NORMALISE (R179 to R185) -/

/-- Column `j` is visible to row `r` (R179). -/
def Score.visible (x : Score) (r j : Nat) : Bool :=
  let q := x.q0 + r
  let p := if j < x.gc then j else x.k0 + j - x.gc
  (!x.causal || p ≤ q) && (!x.sparse || q < p + x.win || p < x.glob)

/-- Visible columns of row `r`. -/
def Score.columns (x : Score) (r : Nat) : List Nat := (List.range x.n).filter (x.visible r)

/-- Rows of panel `p`. -/
def Score.rows (x : Score) (p : Nat) : List Nat := (List.range (min 64 (x.m - 64 * p))).map (· + 64 * p)

/-- Tile (`p`, `u`) has a visible element (R180). -/
def Score.tileLive (x : Score) (p u : Nat) : Bool := (x.rows p).any (fun r => (x.columns r).any (fun j => j / 64 = u))

/-- All tiles, by panel and place in the panel. -/
def Score.tiles (x : Score) : List (Nat × Nat) :=
  (List.range (ceilDiv x.m 64)).flatMap (fun p => (List.range (ceilDiv x.n 64)).map (fun u => (p, u)))

/-- Bytes from a linear address as the sequence sees them: those of chunks written since its dispatch are free (R186). -/
def Slot.seen (s : Slot) (e a : Nat) (bs : List Byte) : List Byte :=
  if s.raced.isEmpty then bs
  else (bs.zip (List.range bs.length)).map (fun p =>
    if s.raced.contains ((a + p.2) / 32 * 32 % stackSpan) then Config.freeByte e (a + p.2) else p.1)

/-- Load the tiles that are not fully masked: a copy by byte of the block. -/
def Dev.loadTiles (d : Dev) (w : Who) (s : Slot) (x : Score) (m : Local) (ts : List (Nat × Nat)) : Acc (Dev × Local) :=
  match ts with
  | [] => .ok (d, m)
  | t :: r =>
    let o := (t.1 * ceilDiv x.n 64 + t.2) * 16384
    match d.load w (x.score + o) 16384 with
    | .error e => .error e
    | .ok (d1, bs) => d1.loadTiles w s x (Tab.writeN zeroByte m o (s.seen d.free (x.score + o) bs)) r

/-- A row's maximum, sum and values (R182). -/
structure NormRow where
  m : FpVal
  l : FpVal
  vals : List (Nat × FpVal)

/-- The score of element (r, j). -/
def Score.value (x : Score) (m : Local) (r j : Nat) : FpVal :=
  ofF32 (BitVec.ofNat 32 (m.bits (elemBit 3 0 x.n x.m r j, 32)))

/-- The row's statistics, and the exponentials of its visible columns. -/
def Score.row (x : Score) (m : Local) (r : Nat) : NormRow :=
  let vs := (x.columns r).map (fun j => (j, x.value m r j))
  let mx := vs.foldl (fun a v => a.larger v.2) (.inf true)
  let es := vs.map (fun v => (v.1, expFn false (sub32 v.2 mx)))
  ⟨mx, es.foldl (fun a v => add32 a v.2) FpVal.zero, es⟩

/-- One past the last visible column: HI. -/
def Score.hi (x : Score) (r : Nat) : Nat := ((x.columns r).getLast?.map (· + 1)).getD 0
/-- GV, LO (Table 5): a row whose window holds no column has a free LO at or beyond HI (log 7). -/
def Score.gv (x : Score) : Nat := if x.sparse then min x.n x.glob else 0
def Score.lo (x : Score) (e r : Nat) : Nat :=
  if x.sparse then
    match (x.columns r).find? (fun j => x.gc ≤ j && x.q0 + r < x.k0 + j - x.gc + x.win) with
    | some j => j
    | none => x.hi r + (Config.freeWord e r).toNat % (65536 - x.hi r)
  else 0

/-- The bits written to element (r, j). -/
def Score.outBits (x : Score) (n : NormRow) (j : Nat) : Nat :=
  match n.vals.find? (fun v => decide (v.1 = j)) with
  | some v => (mul32 v.2 (recipFn n.l)).toType x.otype true
  | none => 0

/-- Store parts of a block, each at a byte offset. -/
def Dev.storeParts (d : Dev) (w : Who) (base : Nat) (ps : List (Nat × List Byte)) : Acc Dev :=
  match ps with
  | [] => .ok d
  | p :: r =>
    match d.store w (base + p.1) p.2 with
    | .error e => .error e
    | .ok d1 => d1.storeParts w base r

/-- Columns written in panel `p`: the largest HI of its rows, up to the next multiple of the unit. -/
def Score.limit (x : Score) (p : Nat) : Nat := roundK x.otype ((x.rows p).foldl (fun a r => max a (x.hi r)) 0)

/-- The bytes of panel `p` of the probabilities: an A_PANEL from the panel's base, its padding rows zero (R183). -/
def Score.panel (x : Score) (m : Local) (p : Nat) : List Byte :=
  let u := (panelUnit x.otype).getD (1, 2)
  let rows := (x.rows p).map (x.row m)
  (List.range (x.limit p / u.1)).flatMap (fun g => (List.range 64).flatMap (fun r =>
    (List.range u.1).flatMap (fun k =>
      match rows[r]? with
      | some n => bytesOf (x.outBits n (g * u.1 + k)) (typeBits x.otype / 8)
      | none => List.replicate (typeBits x.otype / 8) 0)))

/-- The statistics record of row `r`. -/
def Score.record (x : Score) (m : Local) (e r : Nat) : List Byte :=
  let n := x.row m r
  bytesOf n.m.toF32.toNat 4 ++ bytesOf n.l.toF32.toNat 4 ++ bytesOf (x.lo e r) 2 ++ bytesOf (x.hi r) 2 ++
    bytesOf x.gv 2 ++ [0, 0]

/-- One score block. -/
def Dev.normBlock (d : Dev) (st : Nat) (w : Who) (s : Slot) (x : Score) : Acc Dev :=
  match d.loadTiles w s x [] (x.tiles.filter (fun t => x.tileLive t.1 t.2)) with
  | .error e => .error e
  | .ok (d1, m) =>
    let ps := (List.range (ceilDiv x.m 64)).map (fun p => (p * panelSize x.otype x.n, x.panel m p))
    match d1.storeParts w x.score ps with
    | .error e => .error e
    | .ok d2 =>
      match d2.store w x.stats ((List.range x.m).flatMap (x.record m d.free)) with
      | .error e => .error e
      | .ok d3 => .ok (d3.drawn.bumpBy (normSkippedAt st) (x.tiles.filter (fun t => !x.tileLive t.1 t.2)).length)

/-- The blocks of a word, one after another. -/
def Dev.normBlocks (d : Dev) (st : Nat) (w : Who) (s : Slot) (xs : List Score) : Acc Dev :=
  match xs with
  | [] => .ok d
  | x :: r =>
    match d.normBlock st w s x with
    | .error e => .error e
    | .ok d1 => d1.normBlocks st w s r

/-- NORMALISE: the next word of the base die's sequence in slot `n`. -/
def Dev.normalise (d : Dev) (st n : Nat) : Dev :=
  match d.slotOf st n with
  | none => d
  | some s =>
    match ((if d.stackRuns st && s.onBase then s.words[s.basePc]? else none : Option SeqWord)) with
    | none => d
    | some w =>
      if w.op ≠ 0x3 then d
      else
        match d.normBlocks st (normWho st) s ((List.range w.count).map (s.score w)) with
        | .error e => d.stopped (normWho st) false e
        | .ok d1 => (d1.unserve (normWho st).party).setSlot st n (some { s with basePc := s.basePc + 1 })

/-! ### Meanings -/

/-- LOADA (R142). -/
def execLoada (st : Stack) (slot : SlotNo) (s : State) : Result State := s.always fun d => d.loada st.val slot.val

/-- WXV (R141). -/
def execWxv (st : Stack) (i : Fin 16) (c : BankCell) (s : State) : Result State := s.always fun d => d.wxv st.val i.val c.val

/-- ATTN_DECODE (R189). -/
def execAttnDecode (st : Stack) (i : Fin 16) (c : BankCell) (s : State) : Result State :=
  s.always fun d => d.attnDecode st.val i.val c.val

/-- NORMALISE (R182). -/
def execNormalise (st : Stack) (slot : SlotNo) (s : State) : Result State := s.always fun d => d.normalise st.val slot.val

/-- EMIT (R142). -/
def execEmit (st : Stack) (i : Fin 16) (c : BankCell) (s : State) : Result State :=
  s.always fun d => d.emitWord st.val i.val c.val

/-- STORE (R147): one chunk step. -/
def execStore (st : Stack) (i : Fin 16) (c : BankCell) (s : State) : Result State :=
  s.always fun d => d.storeStep st.val i.val c.val

/-- YIELD (R163). -/
def execYield (st : Stack) (i : Fin 16) (c : BankCell) (s : State) : Result State :=
  s.always fun d => d.yieldWord st.val i.val c.val 0x7

/-- REFSLOT (R163). -/
def execRefslot (st : Stack) (i : Fin 16) (c : BankCell) (s : State) : Result State :=
  s.always fun d => d.yieldWord st.val i.val c.val 0x8

/-- END (R146). -/
def execSeqEnd (st : Stack) (i : Fin 16) (c : BankCell) (s : State) : Result State :=
  s.always fun d => d.endWord st.val i.val c.val

/-- SEQUENCE_END (R146). -/
def execSequenceEnd (st : Stack) (slot : SlotNo) (s : State) : Result State :=
  s.always fun d => d.sequenceEnd st.val slot.val

/-- ATTN_RECORD_MERGE (R193). -/
def execAttnRecordMerge (st : Stack) (slot : SlotNo) (s : State) : Result State :=
  s.always fun d => d.recordMerge st.val slot.val

end Sys2Proof.Machine
end

