-- ==== Sys2Proof/Machine/Scans.lean ====
section
/-! DEFINITION. Vector scans (07_retrieval): candidates and their order, the scoring of a segment, the end of a stack's
share, and the merges of regions and roots. -/

namespace Sys2Proof.Machine
open Sys2Proof

/-! ### Candidates (R207, R208) -/

/-- The better score comes first, then the lower stack, then the lower index (R207). -/
def candBefore (metric : Nat) (a b : Cand) : Bool :=
  let x := ofF32 a.score
  let y := ofF32 b.score
  let better := fun (p q : FpVal) => if metric = 0 then q.lt p else p.lt q
  if better x y then true
  else if better y x then false
  else a.stack < b.stack || (a.stack == b.stack && a.index < b.index)

/-- A candidate placed into a list in order. -/
def insertCand (metric : Nat) (a : Cand) (l : List Cand) : List Cand :=
  match l with
  | [] => [a]
  | b :: r => if candBefore metric a b then a :: b :: r else b :: insertCand metric a r

/-- The best `k` of two lists. -/
def mergeCands (metric k : Nat) (a b : List Cand) : List Cand :=
  (b.foldl (fun l c => insertCand metric c l) a).take k

/-- A result entry (Table 2). -/
def Cand.bytes (c : Cand) : List Byte :=
  bytesOf c.score.toNat 4 ++ bytesOf c.gidx 4 ++ bytesOf c.index 4 ++ bytesOf c.stack 4

/-- The empty entry (R208). -/
def emptyEntry (metric : Nat) : List Byte :=
  bytesOf (if metric = 0 then 0xFF800000 else 0x7F800000) 4 ++ bytesOf 0xFFFFFFFF 4 ++ bytesOf 0xFFFFFFFF 4 ++
    bytesOf 0x1F 4

/-- `k` entries, best first. -/
def listBytes (metric k : Nat) (l : List Cand) : List Byte :=
  (l.take k).flatMap Cand.bytes ++ (List.replicate (k - l.length) (emptyEntry metric)).flatten

/-- GIDX (Table 2). -/
def gidxOf (stack span index : Nat) : Nat :=
  if stack * span + index < 2 ^ 31 then stack * span + index else 0xFFFFFFFF

/-! ### Scores (R203, R204) -/

/-- Bytes and chunks of a vector. -/
def Scan.vecBytes (x : Scan) : Nat := x.dim * (typeBits x.type / 8)
/-- Vectors of a segment: S. -/
def Scan.segment (x : Scan) : Nat := 2048 / (x.vecBytes / 32 + 1)

/-- The score of a vector for a query. -/
def scanScore (metric : Nat) (xs qs : List FpVal) : FpVal :=
  if metric = 0 then bauDot FpVal.zero (xs.zip qs)
  else (xs.zip qs).foldl (fun a p => let e := sub32 p.1 p.2; fma32 e e a) FpVal.zero

/-- Bank and place in the bank of the `n`-th vector that bank cell `c` scans. -/
def Scan.place (x : Scan) (c n : Nat) : Nat × Nat := (2 * c + n / x.perBank, n % x.perBank)

/-- Vectors of the next segment: at most S, from one bank. -/
def Scan.next (x : Scan) (n : Nat) : List Nat :=
  (List.range (min x.segment (x.perBank - n % x.perBank))).map (· + n)

/-- Chunks of a bank that a vector takes. -/
def Scan.chunks (x : Scan) (j : Nat) : List Nat :=
  (List.range (x.vecBytes / 32)).map (fun i => (x.base + j * x.vecBytes) / 32 + i)

/-- Filter bit of the vector with stack index `i` (R205). -/
def Scan.eligible (x : Scan) (i : Nat) : Bool :=
  match x.filter with
  | some bs => bitAt (bs.getD (i / 8) 0).toNat (i % 8)
  | none => true

/-- A score that the cell emits for certain: no θ is held, or the score is not worse than θ (R207). -/
def Scan.emits (x : Scan) (s : FpVal) : Bool :=
  if x.best.length < x.k then true
  else
    match x.best.getLast? with
    | some t => if x.metric = 0 then !s.lt (ofF32 t.score) else !(ofF32 t.score).lt s
    | none => true

/-- The scan takes one more vector: `i` its stack index, `s` its score. A filtered vector that is worse than θ is counted
when the cell still held an older θ, which the manual leaves to the broadcasts' timing (log 7). DESIGN CHOICE (log 114): a
vector with a NaN score counts in `SCAN_NAN_SCORES` alone, whatever its filter bit. -/
def Dev.scanTake (d : Dev) (st i : Nat) (s : FpVal) : Dev :=
  match (d.stk st).scan with
  | none => d
  | some x =>
    let d1 := d.bump (scanVectorsAt st)
    if s.isNan then d1.bump (scanNanAt st)
    else if !x.eligible i then
      (if x.emits s || Config.freeBit d.free i then d1.bump (scanFilteredAt st) else d1)
    else
      let c : Cand := ⟨s.toF32, st, i, gidxOf st x.span i⟩
      d1.modStk st (fun y => { y with scan := some { x with best := mergeCands x.metric x.k x.best [c] } })

/-- The score of place `p` in bank cell `c`; free where the vector was written after the dispatch (R212; log 90). -/
def Dev.vectorScore (d : Dev) (s : Slot) (st i c : Nat) (x : Scan) (p : Nat × Nat) : FpVal :=
  if (x.chunks p.2).any (fun n => s.racedAt i (bankStripe p.1 n)) then
    ofF32 (Config.freeWord d.free ((128 * i + p.1) * x.perBank + p.2))
  else
    let bs := d.bankBytes st i p.1 (x.base + p.2 * x.vecBytes) x.vecBytes
    scanScore x.metric ((List.range x.dim).map (elemOf x.type bs)) ((List.range x.dim).map (d.activation (cellKey st i c) 0))

/-- Vectors of a segment, one after another. -/
def Dev.scanVectors (d : Dev) (sl : Slot) (st i c : Nat) (x : Scan) (ns : List Nat) : Dev :=
  match ns with
  | [] => d
  | n :: r =>
    let p := x.place c n
    let s := d.vectorScore sl st i c x p
    (d.scanTake st ((128 * i + p.1) * x.perBank + p.2) s).scanVectors sl st i c x r

/-- Every cell of the stack has scanned its share. -/
def Dev.scanOver (d : Dev) (st : Nat) : Bool :=
  (List.range 1024).all (fun m => (d.bcell (cellKey st (m / 64) (m % 64))).scan.isNone)

/-- The scan of the stack has ended: its list goes to the issuing block's region, and the slot is free (R209). -/
def Dev.scanEnd (d : Dev) (st : Nat) (x : Scan) : Dev :=
  match d.slotOf st x.slot with
  | none => d
  | some s =>
    let best := match (d.stk st).scan with
      | some y => y.best
      | none => []
    let d1 := d.modStk st (fun y => { y with scan := none })
    let d2 := d1.modRegion s.req.region (fun r =>
      { r with scanned := r.scanned ++ [(4 * s.req.region + s.req.blk, s.req.index, best)] })
    d2.slotDone st x.slot s

/-- The activations of the next segment of a scan in cell `c`: `n` vectors are scored (R152, R203). -/
def Scan.segmentOpens (x : Scan) (c n : Nat) (row : Option Nat) : List Nat :=
  openings row ((x.next n).flatMap (fun m =>
    chunkRows (x.place c m).1 ((x.base + (x.place c m).2 * x.vecBytes) / 32) (x.vecBytes / 32)))

/-- A scanning cell has come to the end of its segment, whose stream rows are all open: the segment is scored, and the cell
is at a yield point that acts as a REFSLOT. -/
def Dev.scanSegment (d : Dev) (st i c : Nat) : Dev :=
  let ck := cellKey st i c
  match (d.stk st).scan, (d.bcell ck).scan with
  | some x, some n =>
    let ns := x.next n
    match (if (d.bcell ck).rowsAhead < (x.segmentOpens c n (d.bcell ck).row).length then none
           else d.slotOf st x.slot : Option Slot) with
    | none => d
    | some s =>
      match ns.findSome? (fun m => d.firstBad st i (x.place c m).1 (x.chunks (x.place c m).2)) with
      | some p => d.bauWaits st i c p
      | none =>
        let d0 := ns.foldl (fun a m => a.retriedAll st i (x.place c m).1 (x.chunks (x.place c m).2)) d
        let d1 := (d0.scanVectors s st i c x ns).drawn
        let m := n + ns.length
        let d2 := d1.modBcell ck (fun y =>
          { y.leave true with scan := if m < 2 * x.perBank then some m else none })
        if d2.scanOver st then d2.scanEnd st x else d2
  | _, _ => d

/-- The query goes into a cell's activation buffer (R202, R211). -/
def Dev.loadQuery (d : Dev) (st ck : Nat) : Dev :=
  match (d.stk st).scan with
  | some x =>
    match d.slotOf st x.slot with
    | some s => d.abufWrite ck 0 (s.bytes 0 (2 * x.dim))
    | none => d
  | none => d

/-! ### Merges (R209, R210) -/

/-- Write a list to DST0 of every selected cell. Where DST0 overlaps the query, or any other source, the bytes are undefined
(R100). -/
def Dev.writeList (d : Dev) (k : Nat) (w : OpWord) (raws : List Nat) (l : List Cand) : Dev :=
  let c := opWith k w raws
  match c.at 4, c.at 1 with
  | .br n, .br q =>
    let query := View.cell (firstCell k w.mask) (d.bufregBase (firstCell k w.mask) q)
    ((cellsOf k w.mask).foldl (fun a g =>
      let v := View.cell g (a.bufregBase g n)
      a.cellWrite g (a.bufregBase g n) (v.freed
        (clashBytes false v (denseElts w.scanK 16) [] query (denseElts w.scanDim 2)) d.free (listBytes w.metric w.scanK l)))
      d).drawn
  | _, _ => d

/-- Tags for which region `r` holds lists or a scan. -/
def RegionSt.tags (x : RegionSt) : List Nat :=
  x.lists.foldl (fun a l => insertNat l.2.1.tag a) (x.root.foldl (fun a s => insertNat s.tag a) [])

/-- The tag of a list has a place in the region: it holds fewer than 4, or that one already (R210). -/
def RegionSt.hasPlace (x : RegionSt) (tag : Nat) : Bool := x.tags.contains tag || decide (x.tags.length < 4)

/-- An operation whose stacks have all ended and whose lists the region has not merged; a root's own list waits for a place of
its tag like any other (R210). -/
def Dev.mergeReady (d : Dev) (r : Nat) : Option (Nat × Flight) :=
  (List.range 4).findSome? (fun b =>
    let k := 4 * r + b
    ((d.blk k).fly.find? (fun f => OpWord.opcode f.word = 0x21 && f.begun && !f.done && f.waitsOn.isEmpty &&
      (!OpWord.rootEn f.word || OpWord.root f.word != r || (d.region r).hasPlace (OpWord.tag f.word)) &&
      (d.region r).scanned.any (fun x => x.1 == k && x.2.1 == f.index))).map (fun f => (k, f)))

/-- A root scan takes the held lists of its tag, in arrival order, until it has them all. -/
def RegionSt.absorb (x : RegionSt) (s : RootScan) (fuel : Nat) : RegionSt × RootScan :=
  match fuel with
  | 0 => (x, s)
  | n + 1 =>
    if s.need ≤ s.got then (x, s)
    else
      match x.lists.find? (fun l => decide (l.2.1.tag = s.tag)) with
      | none => (x, s)
      | some l =>
        ({ x with lists := x.lists.erase l }).absorb
          { s with got := s.got + 1, list := mergeCands (OpWord.metric s.word) s.k s.list (l.2.1.list.take s.k) } n

/-- A root scan advances: it merges what has come, and completes with the last list; until then it keeps its place before later
scans of its tag (R210). -/
def Dev.rootAdvance (d : Dev) (r : Nat) (s : RootScan) : Dev :=
  let x := d.region r
  let (x1, s1) := ({ x with root := x.root.erase s }).absorb s 16
  if s1.need ≤ s1.got then
    let d1 := d.setRegion r x1
    let raws := (((d.blk s1.blk).fly.find? (fun f => decide (f.index = s1.index))).map (·.raws)).getD []
    (d1.writeList s1.blk s1.word raws s1.list).finish s1.blk s1.index
  else d.setRegion r { x1 with root := x.root.map (fun y => if y = s then s1 else y) }

/-- SCAN_REGION_MERGE; while the step is saved, the region controller keeps the lists (R246). -/
def Dev.regionMerge (d : Dev) (r : Nat) : Dev :=
  match (if d.draining r then none else d.mergeReady r : Option (Nat × Flight)) with
  | none => d
  | some (k, f) =>
    let w : OpWord := f.word
    let mine := (d.region r).scanned.filter (fun x => x.1 == k && x.2.1 == f.index)
    let l := mine.foldl (fun a x => mergeCands w.metric w.scanK a x.2.2) []
    let d1 := (d.modRegion r (fun x => { x with scanned := x.scanned.filter (fun y => !(y.1 == k && y.2.1 == f.index)) })).writeList
      k w f.raws l
    if !w.rootEn then d1.finish k f.index
    else if w.root = r then
      let s : RootScan := ⟨k, f.index, w, w.tag, w.scanK, w.nlist, 1, l⟩
      (d1.modRegion r (fun x => { x with root := x.root ++ [s] })).rootAdvance r s
    else d1.sendFabric r w.root .ctrl (.scanList ⟨w.tag, l⟩ (k % 4) f.index)

/-- The list that the region accepts next: the oldest of a sender, when its tag has a place. A list without one holds its
sender `from`, not the others (R210). -/
def RegionSt.nextList (x : RegionSt) (held : List Nat) (ms : List FabMsg) : Option (FabMsg × TagList × Nat × Nat) :=
  match ms with
  | [] => none
  | m :: r =>
    match m.body with
    | .scanList l b i =>
      if held.contains m.src then x.nextList held r
      else if x.hasPlace l.tag then some (m, l, b, i)
      else x.nextList (m.src :: held) r
    | _ => x.nextList held r

/-- SCAN_LIST_ARRIVAL: a list that arrived is accepted when its tag has a place (R210), and merged by the root's scan of its
tag; while the step is saved, the region controller keeps it (R246). -/
def Dev.listArrives (d : Dev) (r : Nat) : Dev :=
  let x := d.region r
  match (if d.draining r then none else x.nextList [] x.arrived : Option (FabMsg × TagList × Nat × Nat)) with
  | none => d
  | some (m, l, b, i) =>
    let d1 := (d.setRegion r { x with arrived := x.arrived.erase m, lists := x.lists ++ [(m.src, l, b, i)] }).sendFabric
      r m.src .rsp (.listAccepted b i)
    match x.root.find? (fun s => decide (s.tag = l.tag)) with
    | some s => d1.rootAdvance r s
    | none => d1

/-! ### Meanings -/

/-- SCAN_REGION_MERGE (R209). -/
def execScanRegionMerge (r : Region) (s : State) : Result State := s.always fun d => d.regionMerge r.val

/-- SCAN_LIST_ARRIVAL (R209, R210). -/
def execScanListArrival (r : Region) (s : State) : Result State := s.always fun d => d.listArrives r.val

/-- Code SCAN_MERGE_TIMEOUT (Table 1 of 19). -/
def codeScanMergeTimeout : Nat := 0x44

/-- SCAN_MERGE_TIMEOUT (R210): a region fault of the root. -/
def execScanMergeTimeout (r : Region) (s : State) : Result State :=
  s.always fun d => d.when (!(d.region r.val).root.isEmpty) fun d => d.regionFault r.val codeScanMergeTimeout 6

end Sys2Proof.Machine
end

