-- ==== Sys2Proof/Machine/StackRun.lean ====
section
/-! DEFINITION. The stack sequencer (05_compute_stacks): dispatch of sequences and scans, turns and stream activations,
refresh, yield points, bank accesses, and the protection of the stack cache. -/

namespace Sys2Proof.Machine
open Sys2Proof

/-! ### STACK_SEQ and STACK_SCAN reach the stacks (R144, R202) -/

/-- The engine hands the operation to each stack that it names. -/
def Dev.sendDispatch (d : Dev) (k o : Nat) : Dev :=
  match d.ready k o with
  | none => d
  | some f =>
    let c := f.op k
    let ss := c.stacksNamed
    let q : DispReq := ⟨k / 4, k % 4, f.index, f.word, f.raws, o == 0x21, []⟩
    let d1 := ss.foldl (fun a st => a.modStk st (fun x => { x with reqs := x.reqs ++ [q] })) d
    let d2 := if o = 0x20 then d1.modQueue (32 * (k / 4) + c.w.queue) (fun x =>
        { x with order := x.order ++ ss.map (fun st => (st, k, f.index)) }) else d1
    d2.modFlight k f.index (fun x => { x with begun := true, waitsOn := ss })

/-! ### The broadcast buffer (R144 step 3) -/

/-- A slot for a request, its broadcast buffer copied from SRC1: up to `n` bytes, or the whole region. -/
def Dev.newSlot (d : Dev) (q : DispReq) (n : Nat) : Acc (Dev × Slot) :=
  let k := 4 * q.region + q.blk
  let c := opWith k q.word q.raws
  let empty : Slot := ⟨q, [], 0, 0, [], 0, 0, 0, d.free, [], false, 0, [], 0, false, q.raced⟩
  match c.at 1, cellsOf k c.w.mask with
  | .br b, g :: _ =>
    let lo := g * cellBytes + d.bufregBase g b
    let len := min n (d.bufregSize g b)
    match d.scratchWords lo len with
    | .error e => .error e
    | .ok d1 =>
      .ok (d1, { empty with
        bcast := (d.scratch.filter (fun e => decide (lo ≤ e.1) && decide (e.1 < lo + len))).map (fun e => (e.1 - lo, e.2))
        bcastLen := len
        bcastEpoch := Tab.read (fun _ => 0) d.sramEpoch (g / 32)
        bcastBase := lo })
  | _, _ => .ok (d, empty)

/-! ### The sequence cache (R144 step 2) -/

/-- The latest images of a list whose bytes fit 128 KiB together. -/
def keepImages (l : List (Nat × List Byte)) (room : Nat) : List (Nat × List Byte) :=
  match l with
  | [] => []
  | x :: r => if x.2.length ≤ room then x :: keepImages r (room - x.2.length) else []

/-- The image at address `a`: from the sequence cache while it is still there, which the manual does not say (log 7);
otherwise from memory: the header, and the words when WORDS and SIZE allow. -/
def Dev.sequenceImage (d : Dev) (st a size : Nat) : Acc (Dev × List Byte) :=
  let w : Who := ⟨.bau, .stream, false, st / 2, 4 + st % 2⟩
  match (d.stk st).seqCache.find? (fun x => decide (x.1 = a) && Config.freeBit d.free a) with
  | some x => .ok (d, x.2)
  | none =>
    if size < 64 then .ok (d, [])
    else
      match d.load w a 64 with
      | .error e => .error e
      | .ok (d1, head) =>
        let n := fieldOf head 0 2
        if n = 0 || 2048 < n || size < 64 + 16 * n then .ok (d1, head)
        else
          match d1.load w (a + 64) (16 * n) with
          | .error e => .error e
          | .ok (d2, body) =>
            .ok (d2.modStk st (fun x => { x with
              seqCache := keepImages ((a, head ++ body) :: x.seqCache.filter (fun y => decide (y.1 ≠ a))) 131072 }),
              head ++ body)

/-- A failure of the header (Table 13). DESIGN CHOICE (log 93): bytes 0x04 to 0x07, which Table 8 does not name, count as
reserved and must be zero. -/
def headerFail (bs : List Byte) (size : Nat) : Option Nat :=
  if bs.length < 64 then some codeSeqBound
  else
    let n := fieldOf bs 0 2
    if n = 0 || 2048 < n || fieldOf bs 4 4 != 0 || fieldOf bs 0x10 48 != 0 then some codeSeqInvalid
    else if size < 64 + 16 * n then some codeSeqBound
    else none

/-! ### Dispatch (R144, R145) -/

/-- The lowest free dispatch slot. -/
def Dev.freeSlot (d : Dev) (st : Nat) : Option Nat := (List.range 4).find? (fun n => (d.slotOf st n).isNone)

/-- The cell has nothing to do: it may begin a dispatch or its share of a scan at once. -/
def BCell.unused (x : BCell) : Bool := x.work = .none && x.phase = .idle

/-- The cell begins the sequence at the head of its dispatches. -/
def BCell.begin (x : BCell) : BCell := { x with work := .seq, pc := 0, storePos := 0, ridx := none, phase := .wantTurn }

/-- The cell takes a place in the order of its dispatches; a free one begins at once. -/
def BCell.enqueue (x : BCell) (n : Nat) : BCell :=
  let y := { x with runs := x.runs ++ [n] }
  if x.unused then y.begin else y

/-- The queue of a dispatch has no free entry (R263). -/
def Queue.full (x : Queue) : Bool := decide (x.cap ≤ (x.write - x.release).toNat)

/-- STACK_SEQ on the stack, into slot `n`. DESIGN CHOICE (log 109): a header that fails a check of Table 13 shows WORD 0 in
`STACK_FAULT_INFO`. -/
def Dev.startSequence (d : Dev) (st n : Nat) (q : DispReq) (rest : List DispReq) : Dev :=
  let k := 4 * q.region + q.blk
  let qi := 32 * q.region + (OpWord.queue q.word)
  if (d.queue qi).full && !d.draining q.region then d.modQueue qi (fun x => { x with held := true })
  else
    let d0 := d.modStk st (fun x => { x with reqs := rest })
    match (opWith k q.word q.raws).at 0 with
    | .addr _ a size _ =>
      match d.sequenceImage st a size with
      | .error e => d.stopped (reconWho st) false e
      | .ok (d1, bs) =>
        match (d1.unserve (reconWho st).party).newSlot q 65536 with
        | .error (.parity code x) => d0.parityHalt k code x q.index 0x20
        | .error _ => d
        | .ok (d1', s0) =>
          let d2 := d1'.drawn.modStk st (fun x => { x with reqs := rest })
          let s : Slot := { s0 with
            words := (List.range ((bs.length - 64) / 16)).map (fun i =>
              SeqWord.withArg (fieldOf bs (64 + 16 * i) 16) (OpWord.arg q.word % 65536))
            dieMask := fieldOf bs 2 2
            cellMask := fieldOf bs 8 8 }
          match headerFail bs size with
          | some code => d2.stackHalt st code (seqFault n 0 none)
          | none =>
            match d2.seqFail st s s.words 0 0 s.words with
            | some f => d2.stackHalt st f.1 (seqFault n f.2 (d2.faultDie st s s.words f))
            | none =>
              s.chosen.foldl (fun a p => a.modBcell (cellKey st p.1 p.2) (fun x => x.enqueue n)) (d2.setSlot st n (some s))
    | _ => d0

/-- STACK_SCAN takes slot `n` and waits for its start (R202): the slot holds the query, its first 2 DIM bytes of SRC1. -/
def Dev.queueScan (d : Dev) (st n : Nat) (q : DispReq) (rest : List DispReq) : Dev :=
  let k := 4 * q.region + q.blk
  match d.newSlot q (2 * OpWord.scanDim q.word) with
  | .error (.parity code x) => (d.modStk st (fun x => { x with reqs := rest })).parityHalt k code x q.index 0x21
  | .error _ => d
  | .ok (d1, s) =>
    (d1.drawn.setSlot st n (some { s with dieMask := 0xFFFF, cellMask := 2 ^ 64 - 1 })).modStk st (fun x =>
      { x with reqs := rest, scanQ := x.scanQ ++ [n] })

/-- The DMA engine of the block that issued a scan, which copies the filter (R205). -/
def filterWho (k : Nat) : Who := ⟨.tensor, .stream, true, k / 4, k % 4⟩

/-- The filter segment of a stack (R205); none: no filter. -/
def Dev.filterSegment (d : Dev) (st : Nat) (c : Op) : Acc (Dev × Option (List Byte)) :=
  match c.at 2 with
  | .addr _ a _ _ =>
    let f := c.filterRange st
    match d.load (filterWho c.k) (a + f.1) (f.2 - f.1) with
    | .error e => .error e
    | .ok (d1, bs) => .ok (d1, some bs)
  | _ => .ok (d, none)

/-- A cell begins its share of a scan; one that runs a sequence comes to it after the dispatches that came before it (R144,
R211). -/
def Dev.scanCell (d : Dev) (st ck : Nat) : Dev :=
  if (d.bcell ck).unused then
    (d.loadQuery st ck).modBcell ck (fun x => { x with scan := some 0, work := .scan, phase := .wantTurn })
  else d.modBcell ck (fun x => { x with scan := some 0, before := x.runs.length })

/-- The lines of a set that a filter store leaves: it takes the 12 protected ways, so the protected lines go, and of the
others the least recently used beyond 4 (R205). -/
def filterLeaves (l : List Line) : List Line := (l.filter (fun x => !x.prot)).take 4

/-- The scan that has waited longest starts: filter, query, cells (R202, R205). -/
def Dev.startScan (d : Dev) (st n : Nat) (rest : List Nat) : Dev :=
  match d.slotOf st n with
  | none => d
  | some s =>
    let c := opWith (4 * s.req.region + s.req.blk) s.req.word s.req.raws
    match c.at 0, d.filterSegment st c with
    | .addr _ a _ _, .ok (d1, f) =>
      let x : Scan := ⟨n, c.w.scanDim, c.w.metric, c.w.scanK, c.w.typeS0, fieldAt a 0 26, c.vectors, scanSpan c.vectors, f, []⟩
      let d2 := (d1.unserve (filterWho c.k).party).modStk st (fun y => { y with
        scan := some x
        scanQ := rest
        cache := if f.isSome then
            y.cache.filterMap (fun e => if (filterLeaves e.2).isEmpty then none else some (e.1, filterLeaves e.2))
          else y.cache })
      (List.range 1024).foldl (fun a m => a.scanCell st (cellKey st (m / 64) (m % 64))) d2
    | _, .error e =>
      (d.stopped (filterWho c.k) s.sent e).setSlot st n (some { s with sent := s.sent || e.onPage })
    | _, _ => d

/-- The oldest request takes the lowest free slot (log 4). -/
def Dev.takeRequest (d : Dev) (st : Nat) : Dev :=
  match (d.stk st).reqs, d.freeSlot st with
  | q :: rest, some n => if q.scan then d.queueScan st n q rest else d.startSequence st n q rest
  | _, _ => d

/-- STACK_DISPATCH: a scan that waits starts when none runs; otherwise the oldest request takes a slot. -/
def Dev.dispatch (d : Dev) (st : Nat) : Dev :=
  if !d.stackRuns st then d
  else
    match (d.stk st).scanQ with
    | n :: rest =>
      if (d.stk st).scan.isSome then d.takeRequest st
      else
        let d1 := d.startScan st n rest
        if (d1.stk st).scan.isSome then d1 else d1.takeRequest st
    | [] => d.takeRequest st

/-! ### Turns (R151 to R153, R158) -/

/-- Offsets of the counters of Table 17. -/
def refreshAtSlotAt (s : Nat) : Nat := stackBase s + 0x020
def refreshAtYieldAt (s : Nat) : Nat := stackBase s + 0x028
def refreshForcedAt (s : Nat) : Nat := stackBase s + 0x030
def refreshPostponedAt (s : Nat) : Nat := stackBase s + 0x038
def bawRefusalsAt (s : Nat) : Nat := stackBase s + 0x058

/-- The activations that the cell still has to make up to its next yield point, from the stream row that it reads now. -/
def Dev.segmentOpens (d : Dev) (st i c : Nat) : List Nat :=
  let x := d.bcell (cellKey st i c)
  match x.work with
  | .seq =>
    match x.runs.head?.bind (d.slotOf st) with
    | some s => s.segmentOpens st i c x.storePos x.row (s.words.drop x.pc)
    | none => []
  | .scan =>
    match (d.stk st).scan, x.scan with
    | some y, some n => y.segmentOpens c n x.row
    | _, _ => []
  | .none => []

/-- Activations of die `i` in the 20 ns before cycle `t`, and those that tBAW has put off to cycle `t` and later (R152). -/
def Dev.recentActs (d : Dev) (st i t : Nat) : List Nat := (d.actsOf st i t).filter (fun a => decide (a < t))
def Dev.laterActs (d : Dev) (st i t : Nat) : List Nat := (d.actsOf st i t).filter (fun a => decide (t ≤ a))

/-- The activations of die `i` once the turn of cycle `t` has made one: it goes first, and what was put off follows (R153). -/
def Dev.actsAfter (d : Dev) (st i t : Nat) : List Nat :=
  let n := bawCount ((d.stk st).ruleOf i)
  let win := windowCycles (d.tdie (st / 4)).active
  (d.laterActs st i t).foldl (fun l a => l ++ [nextAct l n win (max a (t + 1))]) (d.recentActs st i t ++ [t])

/-- The turn of cycle `t` of die `i` is used (R153). -/
def Dev.useTurn (d : Dev) (st i t : Nat) : Dev :=
  d.modStk st (fun x => { x with bauNow := max x.bauNow t, turnAt := Tab.write (fun _ => 0) x.turnAt i (t + 1) })

/-- The activation is made: tBAW counts it, the row buffer of its bank turns to the stream, and the cell streams with one
more row open; what came late to its yield point now waits for the next one (R165), and what it served is behind it. -/
def Dev.activate (d : Dev) (st i c t : Nat) (row : Option Nat) : Dev :=
  let d1 := d.modStk st (fun x => { x with
    acts := Tab.write (fun _ => []) x.acts i (d.actsAfter st i t)
    rowBufs := match row with
      | some r => Tab.write (fun _ => none) x.rowBufs (i * 128 + r / 10240) none
      | none => x.rowBufs })
  let d2 := { d1 with served := d1.served.filter (fun e => decide (e.1 ≠ cellKey st i c)) }
  d2.modBcell (cellKey st i c) (fun x => { x with
    phase := .streaming
    rowsAhead := x.rowsAhead + (if row.isSome then 1 else 0)
    waiting := x.waiting ++ x.late
    late := [] })

/-- The stream activation of a turn that tBAW may refuse; `rs` is the rule set that it obeys. -/
def Dev.tryActivate (d : Dev) (st i c t rs : Nat) (row : Option Nat) : Dev :=
  let d1 := d.useTurn st i t
  if (d.recentActs st i t).length < bawCount rs then d1.activate st i c t row else d1.bump (bawRefusalsAt st)

/-- The cell serves accesses: one that it has come to serve is not yet made (R165). -/
def Dev.serves (d : Dev) (ck : Nat) : Bool := (d.servedAt ck).any d.works

/-- STREAM_ACTIVATION in the turn of cycle `t`, which a die uses once: a start or resume within tPIM_CAP and tBAW, once the cell
has served its accesses, or the next stream row of a running stream within tBAW (R153, R158, R165). -/
def Dev.turn (d : Dev) (st i c t : Nat) : Dev :=
  let x := d.bcell (cellKey st i c)
  let s := d.stk st
  let rows := d.segmentOpens st i c
  if t % 64 ≠ c || x.refreshing || !d.stackRuns st || t < Tab.read (fun _ => 0) s.turnAt i then d
  else
    match x.phase with
    | .wantTurn =>
      if pimCap s.inForce < d.streaming st i + 1 || d.serves (cellKey st i c) then d else d.tryActivate st i c t s.inForce rows.head?
    | .streaming =>
      match rows[x.rowsAhead]? with
      | some r => d.tryActivate st i c t (s.ruleOf i) (some r)
      | none => d
    | _ => d

/-! ### Bank accesses (R165, R168) -/

/-- An access reaches the banks: a hit is served; otherwise it waits for every busy cell that it needs. -/
def Dev.bankAccess (d : Dev) (a : Access) : Dev :=
  match d.barred (whoOf a.who a.hint) a.addr with
  | some e => d.stoppedFor a.who a.hint e
  | none => d.performAccess a

/-- The wait goes on at another cell. -/
def Dev.waitsElsewhere (d : Dev) (ck : Nat) (a : Access) : Bool :=
  ((d.accessCells (a.addr / 512 * 512) 512).filter (fun k => decide (k ≠ ck))).any (fun k =>
    (d.bcell k).waiting.contains (.access a) || (d.bcell k).late.contains (.access a))

/-- The cell has come to serve the party: its access may be made, and the cell does not go on before it is. -/
def Dev.serveParty (d : Dev) (ck : Nat) (p : Party) : Dev :=
  if d.served.contains (ck, p) then d else { d with served := d.served ++ [(ck, p)] }

/-- Serve what waited for the cell, in order of arrival: an access that waits for other cells too is made when the last of
them serves it; another party makes its access again (log 11). -/
def Dev.serveCell (d : Dev) (ck : Nat) (l : List Wait) : Dev :=
  match l with
  | [] => d
  | .party p :: r => (d.serveParty ck p).serveCell ck r
  | .access a :: r =>
    let d1 := d.serveParty ck (whoOf a.who a.hint).party
    (if d.waitsElsewhere ck a then d1 else d1.performAccess a).serveCell ck r

/-! ### Yield points and refresh (R163, R165, R211) -/

/-- The cell is free: it serves all that waits for it. -/
def Dev.freeCell (d : Dev) (ck : Nat) : Dev :=
  let x := d.bcell ck
  (d.setBcell ck { x with work := .none, phase := .idle, waiting := [], late := [] }).serveCell ck (x.waiting ++ x.late)

/-- What the cell does after its yield point: it asks for a turn, for its sequence or its scan, or it is free. The dispatches
that wait at a scan's yield point run, one after another, before the scan's next segment; then the scan reloads its query
(R144, R211; log 110). -/
def Dev.resume (d : Dev) (st ck : Nat) : Dev :=
  let x := d.bcell ck
  match x.work with
  | .seq => d.setBcell ck { x with phase := .wantTurn }
  | .scan =>
    if !x.runs.isEmpty then
      ((if x.scan.isSome then d.bumpBy (scanInterleavesAt st) x.runs.length else d).modBcell ck (fun y =>
        { y with before := y.runs.length })).modBcell ck BCell.begin
    else if x.scan.isSome then d.setBcell ck { x with phase := .wantTurn }
    else d.freeCell ck
  | .none =>
    if x.scan.isSome && (x.before = 0 || x.runs.isEmpty) then (d.loadQuery st ck).modBcell ck (fun y => { y with work := .scan, phase := .wantTurn })
    else if x.runs.isEmpty then d.freeCell ck
    else d.setBcell ck x.begin

/-- The cell has deltas outstanding (R148). -/
def Dev.cellDeltas (d : Dev) (st i c : Nat) : Bool := (d.stk st).deltas.any (fun e => decide (e.cell = 64 * i + c))

/-- The cell begins a refresh, which closes the row buffers of both its banks (R161). -/
def Dev.startRefresh (d : Dev) (st i c : Nat) (x : BCell) : Dev :=
  (d.setBcell (cellKey st i c) { x with refreshing := true }).modStk st (fun y => { y with
    rowBufs := Tab.write (fun _ => none) (Tab.write (fun _ => none) y.rowBufs (i * 128 + 2 * c) none) (i * 128 + 2 * c + 1)
      none })

/-- The stripe still holds the cell at its yield point: it is locked, or waits for its reconstruction (R147, R302). -/
def Dev.stillHeld (d : Dev) (st : Nat) (p : Stripe) : Bool := d.stripeLocked st p || !((d.stk st).waitsOf p).isEmpty

/-- The cell has served its yield point: it resumes, or stays there while a stripe holds it. -/
def Dev.afterYield (d : Dev) (st i c : Nat) (h : Option Stripe) : Dev :=
  let ck := cellKey st i c
  match h with
  | some p =>
    if d.stillHeld st p then d.modBcell ck (fun x => { x with phase := .atYield false, waiting := x.waiting ++ x.late, late := [] })
    else (d.modBcell ck (fun x => { x with holds := none })).resume st ck
  | none => d.resume st ck

/-- A yield point is served (R163, R165): once the cell's own deltas are applied (R148, R307), refreshes that fell due there,
postponed ones, one pulled in at a slot when none was postponed; then the accesses that waited. -/
def Dev.serveYield (d : Dev) (st i c : Nat) (ref : Bool) : Dev :=
  let ck := cellKey st i c
  let x := d.bcell ck
  if d.cellDeltas st i c then d
  else if 0 < x.due then d.startRefresh st i c { x with due := x.due - 1, phase := .atYield ref }
  else if 0 < x.postponed then
    (d.startRefresh st i c { x with postponed := x.postponed - 1, phase := .atYield false }).bump (refreshAtYieldAt st)
  else if ref && !x.ahead then
    (d.startRefresh st i c { x with ahead := true, phase := .atYield false }).bump (refreshAtSlotAt st)
  else ((d.setBcell ck { x with phase := .wantTurn, waiting := [] }).serveCell ck x.waiting).afterYield st i c x.holds

/-- A cell in a stack that has stopped, or that waits for its turn there, serves what waits for it (R165). -/
def Dev.serveStopped (d : Dev) (ck : Nat) : Dev :=
  let x := d.bcell ck
  (d.setBcell ck { x with waiting := [], late := [] }).serveCell ck (x.waiting ++ x.late)

/-- YIELD_POINT. A scanning cell first comes to the end of its segment; a cell whose turn will not come, because its
stack has stopped, serves its accesses. -/
def Dev.yieldPoint (d : Dev) (st i c : Nat) : Dev :=
  let ck := cellKey st i c
  let x := d.bcell ck
  if x.refreshing then d
  else
    match x.phase with
    | .atYield ref => d.serveYield st i c ref
    | .streaming =>
      if !d.stackRuns st then d.serveStopped ck
      else if x.work = .scan then
        let d1 := d.scanSegment st i c
        match (d1.bcell ck).phase with
        | .atYield ref => d1.serveYield st i c ref
        | _ => d1
      else d
    | .wantTurn => if d.stackRuns st then d else d.serveStopped ck
    | .idle => d

/-- REFRESH_DUE (R163). Outside a segment the refresh comes at once: after one in progress, and at a yield point after the
cell's own deltas (R307). -/
def Dev.refreshDue (d : Dev) (st i c : Nat) : Dev :=
  let ck := cellKey st i c
  let x := d.bcell ck
  let begin := if x.refreshing || (x.phase ≠ .idle && d.cellDeltas st i c) then d.setBcell ck { x with due := x.due + 1 }
    else d.startRefresh st i c x
  if x.ahead then d.setBcell ck { x with ahead := false }
  else if !x.inSegment then begin
  else if x.postponed < 4 then (d.setBcell ck { x with postponed := x.postponed + 1 }).bump (refreshPostponedAt st)
  else (if x.refreshing then d.setBcell ck { x with due := x.due + 1 } else d.startRefresh st i c x).bump (refreshForcedAt st)

/-- REFRESH_DONE (R161): the next refresh that is due follows; a cell outside a segment serves what waited for the refresh. -/
def Dev.refreshDone (d : Dev) (st i c : Nat) : Dev :=
  let ck := cellKey st i c
  let x := d.bcell ck
  if !x.refreshing then d
  else if 0 < x.due then d.setBcell ck { x with due := x.due - 1 }
  else if x.phase = .idle || x.phase = .wantTurn then
    (d.setBcell ck { x with refreshing := false, waiting := [] }).serveCell ck x.waiting
  else d.setBcell ck { x with refreshing := false }

/-! ### The stack cache (R169) -/

/-- Every line of the cache of stack `st` loses its protection. -/
def Dev.dropKeep (d : Dev) (st : Nat) : Dev :=
  d.modStk st (fun x => { x with cache := x.cache.map (fun e => (e.1, e.2.map (fun l => { l with prot := false }))) })

/-! ### Meanings -/

/-- STACK_SEQ (R144). -/
def execStackSeq (r : Region) (b : Blk) (s : State) : Result State :=
  s.always fun d => d.sendDispatch (blkNo r b) 0x20

/-- STACK_SCAN (R202). -/
def execStackScan (r : Region) (b : Blk) (s : State) : Result State :=
  s.always fun d => d.sendDispatch (blkNo r b) 0x21

/-- STACK_DISPATCH (R144, R202). -/
def execStackDispatch (st : Stack) (s : State) : Result State := s.always fun d => d.dispatch st.val

/-- STREAM_ACTIVATION (R153). -/
def execStreamActivation (st : Stack) (i : Fin 16) (c : BankCell) (cycle : Nat) (s : State) : Result State :=
  s.always fun d => d.turn st.val i.val c.val cycle

/-- YIELD_POINT (R163, R165). -/
def execYieldPoint (st : Stack) (i : Fin 16) (c : BankCell) (s : State) : Result State :=
  s.always fun d => d.yieldPoint st.val i.val c.val

/-- BANK_ACCESS (R165, R168). -/
def execBankAccess (who : Accessor) (hint : Hint) (addr : BitVec 48) (len : Nat) (wdata : Option (List Byte)) (s : State) :
    Result State :=
  s.checked (wellFormed (.bankAccess who hint addr len wdata)) fun d => d.bankAccess ⟨who, hint, addr.toNat, len, wdata⟩

/-- REFRESH_DUE (R163); in self-refresh the dies refresh themselves (R164). -/
def execRefreshDue (st : Stack) (i : Die) (c : BankCell) (s : State) : Result State :=
  s.always fun d => d.when (d.stackPresent st.val && d.clk.stackAwake.getLsbD st.val) fun d => d.refreshDue st.val i.val c.val

/-- REFRESH_DONE (R161). -/
def execRefreshDone (st : Stack) (i : Die) (c : BankCell) (s : State) : Result State :=
  s.always fun d => d.refreshDone st.val i.val c.val

/-- A write of 1 to DROP_KEEP (R169, Table 22): protection ends, and the bit reads 1 until time passes. -/
def Dev.startDrop (d : Dev) (st : Nat) : Dev := (d.dropKeep st).modStk st (fun x => { x with dropKeep := true })

/-- DROP_KEEP (R169): a write of 1 to `STACK_CACHE_CTL.DROP_KEEP`, which reads 1 until the next tick (log 5). -/
def execDropKeep (st : Stack) (s : State) : Result State :=
  s.hosted (.dropKeep st) fun d => d.when (d.hostReady && d.stackPresent st.val) fun d => d.startDrop st.val

end Sys2Proof.Machine
end

