-- ==== Sys2Proof/Machine/Tensor.lean ====
section
/-! DEFINITION. The macro-operations that the matrix array, the vector unit, the DMA engine and the exchange network carry
out (03_macro_ops, Semantics; 04_layouts; the backward pass of 06_attention). An operation is a plan: the elements it
reads, the elements it writes, and the values in terms of what it read. -/

namespace Sys2Proof.Machine
open Sys2Proof

/-! ### Plans -/

/-- Elements of one operand with their iteration index, in batches that are fetched or written one after another. -/
abbrev Batches := List (List Idx)

/-- What an operation does: operand positions with the elements read and written, bytes set to zero before the elements
of a destination (padding, R113, R114), and the bits of each written element. -/
structure Plan where
  srcs : List (Nat × Batches)
  dsts : List (Nat × Batches)
  pad  : Nat → List Elt
  bitsOut : (Nat → Local) → Nat → Nat → Nat → Nat
  /-- Operands read before the plan: an index list (R100). -/
  also : List (Nat × Batches) := []
  /-- No overlap is in place: the layouts of source and destination differ (R122). -/
  loose : Bool := false
  /-- What this run writes of destination `i`: all of it, or the tile steps before or after a suspension (R245). -/
  keep : Nat → Idx → Bool := fun _ _ => true

/-- All elements of the batches. -/
def Batches.all (b : Batches) : List Idx := b.flatten

/-- The unit that executes operations of block `k`. -/
def whoBlock (k : Nat) (h : Nat) : Who :=
  ⟨.tensor, if h = 1 then .keep else if h = 2 then .last else .stream, true, k / 4, k % 4⟩

/-- Read the batches of an operand. -/
def Dev.fetchBatches (d : Dev) (w : Who) (v : View) (m : Local) (bs : Batches) : Acc (Dev × Local) :=
  match bs with
  | [] => .ok (d, m)
  | b :: r =>
    match d.readRuns w v m (runsOf (b.map (·.2))) with
    | .error e => .error e
    | .ok (d1, m1) => d1.fetchBatches w v m1 r

/-- The operand lies in the scratchpads. -/
def Op.inCells (c : Op) (i : Nat) : Bool :=
  match c.at i with
  | .br _ => true
  | _ => false

/-- Where operand `i` lies for the cell `g`; an operand that reaches below BASE is counted from its lowest byte (R176). -/
def Dev.opView (d : Dev) (c : Op) (i g : Nat) : View :=
  match d.viewOf (c.at i) c.k g with
  | .dev base => .dev (base - c.under i)
  | v => v

/-- Read the sources that lie in the cells (`cells`) or outside them; pairs of operand position and copy. -/
def Dev.fetchSrcs (d : Dev) (w : Who) (c : Op) (g : Nat) (cells : Bool) (l : List (Nat × Batches)) :
    Acc (Dev × List (Nat × Local)) :=
  match l with
  | [] => .ok (d, [])
  | x :: r =>
    if c.inCells x.1 != cells then d.fetchSrcs w c g cells r
    else
      match d.fetchBatches w (d.opView c x.1 g) [] x.2 with
      | .error e => .error e
      | .ok (d1, m) =>
        match d1.fetchSrcs w c g cells r with
        | .error e => .error e
        | .ok (d2, ms) => .ok (d2, (x.1, m) :: ms)

/-- The copy of operand `i`. -/
def localOf (ms : List (Nat × Local)) (i : Nat) : Local :=
  match ms.find? (fun m => decide (m.1 = i)) with
  | some m => m.2
  | none => []

/-- The bytes of puts in increasing order of their index, as a stream (R256). -/
def streamBytes (ps : List Put) : List Byte :=
  let x := ps.foldl (fun (a : Nat × Nat) p => (a.1 + p.2 % 2 ^ p.1.2 * 2 ^ a.2, a.2 + p.1.2)) (0, 0)
  bytesOf x.1 (ceilDiv x.2 8)

/-- The bytes of puts in storage order: a LAYOUT's destination in panels, tiles or padded rows (R116, R256). -/
def storageBytes (ps : List Put) : List Byte :=
  let m := ps.foldl (fun a p => Local.put a p.1 p.2) []
  (runsOf (ps.map (·.1))).flatMap (fun r => Tab.readN zeroByte m r.1 (r.2 - r.1))

/-- The queue into whose port a byte of a view leads. -/
def Dev.viewPort (d : Dev) (v : View) (byte : Nat) : Option Nat :=
  match v with
  | .buf b base => d.portAt b (base + byte)
  | _ => none

/-- The queue into whose port a put leads. -/
def Dev.putPort (d : Dev) (v : View) (p : Put) : Option Nat := d.viewPort v (p.1.1 / 8)

/-- A byte of a view leads into a queue. -/
def Dev.leadsOut (d : Dev) (v : View) (byte : Nat) : Bool := (d.viewPort v byte).isSome

/-- Bytes of an operation enter queue `q`'s list of outputs: all bytes of one operation form one output (R256). -/
def Dev.sendPort (d : Dev) (k index q : Nat) (bs : List Byte) : Dev :=
  d.modQueue q fun x => { x with outs :=
    match x.outs.reverse with
    | o :: r =>
      if o.stack.isNone && o.blk == k && o.index == index && !o.begun then ({ o with bytes := o.bytes ++ bs } :: r).reverse
      else x.outs ++ [⟨bs, false, none, 0, k, index, false, false, false⟩]
    | [] => [⟨bs, false, none, 0, k, index, false, false, false⟩] }

/-- The bytes that an operation streams into a port (R256). -/
def Op.portBytes (c : Op) (ps : List Put) : List Byte :=
  if c.code = 0x11 && c.w.layD != 0 then storageBytes ps else streamBytes ps

/-- Hand the puts that fall into a port to its queue, as one output (R256); the others stay. -/
def Dev.divert (d : Dev) (c : Op) (index : Nat) (v : View) (ps : List Put) : Dev × List Put × Bool :=
  let qs := (ps.filterMap (d.putPort v)).eraseDups
  (qs.foldl (fun a q => a.sendPort c.k index q (c.portBytes (ps.filter (fun p => d.putPort v p == some q)))) d,
   ps.filter (fun p => (d.putPort v p).isNone), !qs.isEmpty)

/-- The puts of one batch of destination `i`. -/
def Plan.puts (p : Plan) (ms : Nat → Local) (i : Nat) (es : List Idx) (first : Bool) : List Put :=
  (if first then ((p.pad i).filter (fun e => p.keep i (0, e))).map (fun e => (e, 0)) else []) ++
    (es.filter (p.keep i)).map (fun x => (x.2, p.bitsOut ms i x.1 x.2.1))

/-- The puts of all batches of destination `i`, in order. -/
def Plan.putsAll (p : Plan) (ms : Nat → Local) (i : Nat) (first : Bool) : Batches → List Put
  | [] => []
  | b :: r => p.puts ms i b first ++ p.putsAll ms i false r

/-- Write the batches of destination `i` of the cell `g`, but for what goes to a port. -/
def Dev.writeBatches (d : Dev) (w : Who) (v : View) (p : Plan) (ms : Nat → Local) (i : Nat)
    (free : List Nat) (e : Nat) (first : Bool) (bs : Batches) : Acc Dev :=
  match bs with
  | [] => .ok d
  | b :: r =>
    match d.putElems w v ((p.puts ms i b first).filter (fun x => (d.putPort v x).isNone)) free e with
    | .error x => .error x
    | .ok d1 => d1.writeBatches w v p ms i free e false r

/-- Bytes of destination `i` that clash with a source other than the destination itself, which a read-modify-write reads
(R100). -/
def Dev.clash (d : Dev) (c : Op) (g : Nat) (p : Plan) (i : Nat) (dst : Batches) : List Nat :=
  ((p.srcs ++ p.also).filter (fun s => decide (s.1 ≠ i))).flatMap (fun s =>
    clashBytes p.loose (d.opView c i g) dst.all (p.pad i) (d.opView c s.1 g) s.2.all)

/-- Write the destinations of the cell `g`; those outside the cells only for the last cell (R93). -/
def Dev.writeDsts (d : Dev) (w : Who) (c : Op) (index g : Nat) (last : Bool) (p : Plan) (ms : Nat → Local) (e : Nat)
    (l : List (Nat × Batches)) : Acc (Dev × Bool) :=
  match l with
  | [] => .ok (d, false)
  | x :: r =>
    if !last && !c.inCells x.1 then d.writeDsts w c index g last p ms e r
    else
      let v := d.opView c x.1 g
      let (d0, _, q) := d.divert c index v (p.putsAll ms x.1 true x.2)
      match d0.writeBatches w v p ms x.1 (d.clash c g p x.1 x.2) e true x.2 with
      | .error y => .error y
      | .ok d1 =>
        match d1.writeDsts w c index g last p ms e r with
        | .error y => .error y
        | .ok (d2, q') => .ok (d2, q || q')

/-- The operation moves bytes between cells and the block buffer or the bond, through the turn buffers (R46). -/
def Op.takesTurns (c : Op) : Bool :=
  [0x10, 0x11, 0x18, 0x19, 0x1A].contains c.code && c.namesBr && (!c.inCells 0 || !c.inCells 4)

/-- The bytes that an operation moves pass the turn buffer of cell `g` (R46). -/
def Dev.passTurn (d : Dev) (c : Op) (g : Nat) (p : Plan) (ms : Nat → Local) : Dev :=
  if c.takesTurns then
    match p.srcs with
    | x :: _ => d.exchange g ((runsOf (x.2.all.map (·.2))).flatMap (fun r => Tab.readN zeroByte (ms x.1) r.1 (r.2 - r.1)))
    | [] => d
  else d

/-- The shares of the cells, lowest first; `outer`: the sources outside the cells, fetched once (R93). -/
def Dev.runCells (d : Dev) (w : Who) (c : Op) (index : Nat) (p : Plan) (outer : List (Nat × Local)) (e : Nat)
    (gs : List Nat) : Acc (Dev × Bool) :=
  match gs with
  | [] => .ok (d, false)
  | g :: r =>
    match d.fetchSrcs w c g true p.srcs with
    | .error x => .error x
    | .ok (d1, ms) =>
      match (d1.passTurn c g p (localOf (outer ++ ms))).writeDsts w c index g r.isEmpty p (localOf (outer ++ ms)) e p.dsts with
      | .error x => .error x
      | .ok (d2, q) =>
        match d2.runCells w c index p outer e r with
        | .error x => .error x
        | .ok (d3, q') => .ok (d3, q || q')

/-- Cells that an operation runs on; one share without a cell where it names none. -/
def Op.cells (c : Op) : List Nat :=
  match cellsOf c.k c.w.mask with
  | [] => [0]
  | l => l

/-! ### Tile steps (R122, R125, R245 Table 4; log 66) -/

/-- An empty geometry, for an operation whose record is missing (its checks refuse it). -/
def Geo.empty : Geo := ⟨0, 1, 1, 1, 1, false, 0, 0, false, 0, [0, 0, 0, 0], false⟩
def Op.geoD (c : Op) : Geo := c.geo.getD Geo.empty

/-- Bytes of a frame of a LAYOUT: 64 lanes of 64 units (R117, Table 4 of 04). -/
def Op.frameBytes (c : Op) : Nat :=
  let rows := fun l : Nat => l = 0 || l = 3 || l = 4
  if c.w.layS0 ≠ c.w.layD && ((rows c.w.layS0 && c.w.layD = 1) || (rows c.w.layD && (c.w.layS0 = 1 || c.w.layS0 = 2))) then
    4096 * ((panelUnit c.w.typeD).getD (1, 4)).2
  else 16384

/-- The 64 × 64 block of element `n` (R125). -/
def Geo.blockAt (g : Geo) (n : Nat) : Nat :=
  let i0 := n % g.e0
  let i1 := n / g.e0 % g.e1
  (n / (g.e0 * g.e1) * ceilDiv g.e1 64 + i1 / 64) * ceilDiv g.e0 64 + i0 / 64

/-- The 64 × 64 tile of C in which element `n` of a product lies (R31). -/
def OpWord.tileAt (w : OpWord) (n : Nat) : Nat :=
  (n / w.tileN / 64) * ceilDiv w.tileN 64 + n % w.tileN / 64

/-- The tile step in which an element of destination `i` is written (R245 Table 4). DESIGN CHOICE (log 66): tiles and frames are
counted in the order of their rows or of their storage. -/
def Op.stepOf (c : Op) (i : Nat) (x : Idx) : Nat :=
  let g := c.geoD
  match c.code with
  | 0x01 | 0x02 | 0x38 => c.w.tileAt x.1
  | 0x08 => if i = 5 then (x.1 / ceilDiv g.e0 32 * g.e0 + x.1 % ceilDiv g.e0 32 * 32) / 4096 else x.1 / 4096
  | 0x09 | 0x0A => (x.1 * g.e0 + g.e0 - 1) / 4096
  | 0x39 => (x.1 * c.w.tileN + c.w.tileN - 1) / 4096
  | 0x3A => x.1 / 4096
  | 0x10 => if g.transpose then g.blockAt x.1 else x.1 * typeBits c.w.typeD / 8 / 4096
  | 0x11 => (x.2.1 / 8 - g.off 4) / c.frameBytes
  | _ => x.1 / g.e0 / 64

/-- The rest of a plan after its first `a` tile steps. -/
def Plan.after (p : Plan) (c : Op) (a : Nat) : Plan :=
  if a = 0 then p else { p with keep := fun i x => decide (a ≤ c.stepOf i x) }

/-- The tile steps `a` to `b` − 1 of a plan. -/
def Plan.between (p : Plan) (c : Op) (a b : Nat) : Plan :=
  { p with keep := fun i x => decide (a ≤ c.stepOf i x) && decide (c.stepOf i x < b) }

/-- Tile steps of a plan. -/
def Plan.steps (p : Plan) (c : Op) : Nat :=
  p.dsts.foldl (fun m y => y.2.all.foldl (fun k x => max k (c.stepOf y.1 x + 1)) m) 0

/-- A plan carried out. The draw `e` gives its free values. -/
def Dev.runPlan (d : Dev) (c : Op) (index : Nat) (p : Plan) (e : Nat) : Acc (Dev × Bool) :=
  let w := whoBlock c.k c.w.hint
  match d.fetchSrcs w c 0 false p.srcs with
  | .error x => .error x
  | .ok (d1, outer) => d1.runCells w c index p outer e c.cells

/-- What an operation that cannot go on leaves (R40, R313, R315, R369, R408). One that met a stripe which nothing repairs
makes no further access: its step never commits (R23, R28). -/
def Dev.opStopped (d : Dev) (k : Nat) (f : Flight) (e : Stop) : Dev :=
  match e with
  | .parity code word => d.parityHalt k code word f.index (OpWord.opcode f.word)
  | .page p => (d.pennantWait p f.waited).modFlight k f.index (fun x => { x with waited := true })
  | .lost st p => (d.stopped (whoBlock k 0) f.waited (.lost st p)).modFlight k f.index (fun x => { x with begun := true })
  | e => d.stopped (whoBlock k 0) f.waited e

/-- The operation's writes are made: it is done, unless an output still has to enter a queue (R256, R263). -/
def Dev.planEnd (d : Dev) (k : Nat) (f : Flight) (r : Acc (Dev × Bool)) : Dev :=
  match r with
  | .error e => d.opStopped k f e
  | .ok (d1, queued) =>
    let d2 := (d1.unserve (whoBlock k 0).party).drawn
    if queued then d2.modFlight k f.index (fun x => { x with begun := true }) else d2.finish k f.index

/-- The engine executes its next operation when its opcode is `o`: all of it, or the tile steps after its suspension. -/
def Dev.execute (d : Dev) (k o : Nat) (plan : Op → Nat → Plan) : Dev :=
  match d.ready k o with
  | none => d
  | some f =>
    let c := f.op k
    d.planEnd k f (d.runPlan c f.index ((plan c d.free).after c f.pos) d.free)

/-! ### Elements of the operands -/

/-- Element `n` of operand `i` of a STRIDED operation (R97). -/
def Op.elemAt (c : Op) (g : Geo) (i n : Nat) : Elt :=
  let t := c.type i
  if c.strided g = some i then (((g.off i + c.under i : Nat) * 8 + stridedBit c.w g t n).toNat, typeBits t)
  else (g.off i * 8 + denseBit (c.lay i) t g.e0 g.e1 n, typeBits t)

/-- All elements of operand `i`, indexed. -/
def Op.elemsAt (c : Op) (g : Geo) (i : Nat) : Batches := [(List.range g.elems).map (fun n => (n, c.elemAt g i n))]

/-- The value of element `n` of operand `i`. -/
def Op.value (c : Op) (g : Geo) (ms : Nat → Local) (i n : Nat) : FpVal :=
  decodeElem (c.type i) ((ms i).bits (c.elemAt g i n))

/-! ### MATMUL (R29 to R33, R50, R51, R88) -/

/-- k-slice of the class of a type (Table 1 of 02). -/
def kSlice (t : Nat) : Nat :=
  match t with
  | 0x01 | 0x02 => 1
  | 0x0A | 0x0B | 0x0C => 4
  | _ => 2

/-- Group size g (R51). -/
def groupSize (a b : Nat) : Nat :=
  if isMx a && isMx b then 32
  else if isMx a then kSlice b
  else if isMx b then kSlice a
  else min (kSlice a) (kSlice b)

/-- K rounded up for a product (R33). -/
def prodK (a b k : Nat) : Nat :=
  if isMx a || isMx b then ceilDiv k 32 * 32 else ceilDiv k (min (kSlice a) (kSlice b)) * min (kSlice a) (kSlice b)

/-- Elements of the tile operands: A (M × K), B (K × N), their scales, and C (M × N). -/
def OpWord.aElt (w : OpWord) (r k : Nat) : Elt :=
  (w.tileOff 0 * 8 + elemBit 1 w.typeS0 w.tileK w.tileM r k, typeBits w.typeS0)
def OpWord.bElt (w : OpWord) (k c : Nat) : Elt :=
  (w.tileOff 1 * 8 + elemBit 2 w.typeS1 w.tileN w.tileK k c, typeBits w.typeS1)
def OpWord.aScale (w : OpWord) (r j : Nat) : Elt :=
  (w.tileOff 2 * 8 + elemBit 5 5 (ceilDiv w.tileK 32) w.tileM r j, 8)
def OpWord.bScale (w : OpWord) (c j : Nat) : Elt := (elemBit 5 5 (ceilDiv w.tileK 32) w.tileN c j, 8)
def OpWord.cElt (w : OpWord) (r c : Nat) : Elt :=
  (w.tileOff 3 * 8 + elemBit 3 w.typeD w.tileN w.tileM r c, typeBits w.typeD)

/-- Pairs of a rows × cols matrix with a running index. -/
def grid (rows cols : Nat) (f : Nat → Nat → Elt) : List Idx :=
  (List.range (rows * cols)).map (fun n => (n, f (n / cols) (n % cols)))

/-- The element of A, B with its scale; zero beyond K (R33). -/
def OpWord.aVal (w : OpWord) (ms : Nat → Local) (r k : Nat) : FpVal :=
  if w.tileK ≤ k then FpVal.zero
  else
    let x := decodeElem w.typeS0 ((ms 0).bits (w.aElt r k))
    if isMx w.typeS0 then x.mul (scaleOf ((ms 2).bits (w.aScale r (k / 32)))) else x
def OpWord.bVal (w : OpWord) (ms : Nat → Local) (k c : Nat) : FpVal :=
  if w.tileK ≤ k then FpVal.zero
  else
    let x := decodeElem w.typeS1 ((ms 1).bits (w.bElt k c))
    if isMx w.typeS1 then x.mul (scaleOf ((ms 3).bits (w.bScale c (k / 32)))) else x

/-- The accumulator of element (r, c) after the operation: one rounding for each group (R51). -/
def OpWord.dot (w : OpWord) (ms : Nat → Local) (init : FpVal) (r c : Nat) : FpVal :=
  let g := groupSize w.typeS0 w.typeS1
  (List.range (prodK w.typeS0 w.typeS1 w.tileK / g + (if prodK w.typeS0 w.typeS1 w.tileK % g = 0 then 0 else 1))).foldl
    (fun acc i => add32 acc (groupSum ((List.range g).map (fun j => (w.aVal ms r (g * i + j), w.bVal ms (g * i + j) c)))))
    init

/-- The padding of the ACC_TILE destination, which is written as zeros (R114). -/
def OpWord.tilePad (w : OpWord) : List Elt :=
  paddingOf (w.tileOff 3 * 8) ((w.tileOff 3 + footprint 3 w.typeD w.tileN w.tileM) * 8)
    ((grid w.tileM w.tileN w.cElt).map (·.2))

/-- Sources of a product: A, B, and the scales of MX sources. -/
def OpWord.prodSrcs (w : OpWord) : List (Nat × Batches) :=
  [(0, [grid w.tileM w.tileK w.aElt]), (1, [grid w.tileK w.tileN w.bElt])] ++
  (if isMx w.typeS0 then [(2, [grid w.tileM (ceilDiv w.tileK 32) w.aScale])] else []) ++
  (if isMx w.typeS1 then [(3, [grid w.tileN (ceilDiv w.tileK 32) w.bScale])] else [])

/-- MATMUL: C = A·B, converted under R52. -/
def matmulPlan (c : Op) (_ : Nat) : Plan where
  srcs := c.w.prodSrcs
  dsts := [(4, [grid c.w.tileM c.w.tileN c.w.cElt])]
  pad := fun _ => c.w.tilePad
  bitsOut := fun ms _ n _ => (c.w.dot ms FpVal.zero (n / c.w.tileN) (n % c.w.tileN)).toType c.w.typeD c.w.tileSat

/-- MATMUL_ACC: C = C + A·B in FP32. -/
def matmulAccPlan (c : Op) (_ : Nat) : Plan where
  srcs := c.w.prodSrcs ++ [(4, [grid c.w.tileM c.w.tileN c.w.cElt])]
  dsts := [(4, [grid c.w.tileM c.w.tileN c.w.cElt])]
  pad := fun _ => c.w.tilePad
  bitsOut := fun ms _ n _ =>
    let r := n / c.w.tileN
    let q := n % c.w.tileN
    (c.w.dot ms (ofF32 (BitVec.ofNat 32 ((ms 4).bits (c.w.cElt r q)))) r q).toF32.toNat

/-! ### ELEM (R43, R53, R89) -/

/-- Elements of the block of element `n` along dimension 0 (R53). -/
def Geo.blockOf (g : Geo) (n : Nat) : List Nat :=
  let i0 := n % g.e0
  let lo := i0 / 32 * 32
  (List.range (min 32 (g.e0 - lo))).map (fun j => n - i0 + lo + j)

/-- The MX block of element `n`: scale byte and elements. -/
def Op.mxOf (c : Op) (g : Geo) (ms : Nat → Local) (n : Nat) : Nat × List Nat :=
  mxBlock c.w.typeD ((g.blockOf n).map (c.value g ms 0))

/-- Scale byte `m` of DST1: row `m / J`, block `m % J` (R53). -/
def Geo.scaleElts (g : Geo) : List Idx := (List.range (ceilDiv g.e0 32 * g.rowsAll)).map (fun m => (m, (8 * m, 8)))

/-- ELEM: FUNC on every element of the iteration space. -/
def elemPlan (c : Op) (_ : Nat) : Plan :=
  let g := c.geoD
  let j := ceilDiv g.e0 32
  { srcs := (List.range (vecFnSources g.func)).map (fun i => (i, c.elemsAt g i))
    dsts := (4, c.elemsAt g 4) :: (if g.func = 0x22 then [(5, [g.scaleElts])] else [])
    pad := fun _ => []
    bitsOut := fun ms i n _ =>
      if g.func = 0x22 then
        if i = 5 then (c.mxOf g ms (n / j * g.e0 + n % j * 32)).1 else (c.mxOf g ms n).2.getD (n % g.e0 % 32) 0
      else (vecFn g.func (c.value g ms 0 n) (c.value g ms 1 n) (c.value g ms 2 n)).toType c.w.typeD g.sat }

/-! ### REDUCE and ROWSTAT (R90, R91) -/

/-- The result of row `j`: in the order of dimensions 1 to 3. -/
def Op.rowElt (c : Op) (g : Geo) (j : Nat) : Elt :=
  let t := c.w.typeD
  if c.strided g = some 4 then ((((g.off 4 : Int) * 8 + stridedBit c.w g t (j * g.e0))).toNat, typeBits t)
  else (g.off 4 * 8 + j * typeBits t, typeBits t)

/-- The values of row `j` of SRC0. -/
def Op.rowVals (c : Op) (g : Geo) (ms : Nat → Local) (j : Nat) : List FpVal :=
  (List.range g.e0).map (fun i => c.value g ms 0 (j * g.e0 + i))

/-- The largest and smallest of a row. -/
def rowMax (l : List FpVal) : FpVal := l.foldl FpVal.larger (.inf true)
def rowMin (l : List FpVal) : FpVal := l.foldl FpVal.smaller (.inf false)

/-- A quotient by a natural number, rounded once to FP32. -/
def divNat (a : FpVal) (n : Nat) : FpVal :=
  match a with
  | .fin s m e => (FpVal.fin s (m * 2 ^ 64 / n * 2 + (if m * 2 ^ 64 % n = 0 then 0 else 1)) (e - 65)).r32
  | x => x

/-- REDUCE of one row (R90): the order of a sum is not specified. -/
def reduceRow (mode e i : Nat) (l : List FpVal) : FpVal :=
  match mode with
  | 0 => rowSum e i l
  | 1 => rowMax l
  | 2 => rowMin l
  | _ => rowSum e i (l.map (fun x => x.mul x))

/-- REDUCE. DESIGN CHOICE (log 113): the result of row j has the element index n = j for R100, as its place among the results;
R97 would give it n = j · E₀ where it is strided. -/
def reducePlan (c : Op) (e : Nat) : Plan :=
  let g := c.geoD
  { srcs := [(0, c.elemsAt g 0)]
    dsts := [(4, [(List.range g.rowsAll).map (fun j => (j, c.rowElt g j))])]
    pad := fun _ => []
    bitsOut := fun ms _ j _ => (reduceRow g.mode e (j * g.e0) (c.rowVals g ms j)).toType c.w.typeD g.sat }

/-- The statistics of one row (R91): SOFTMAX (m, Σ e^(x−m)), or MOMENTS (mean, mean of squares). -/
def rowStats (mode e i : Nat) (l : List FpVal) : FpVal × FpVal :=
  if mode = 0 then
    let m := rowMax l
    if l.all (fun x => decide (x = .inf true)) then (.inf true, FpVal.zero)
    else (m, rowSum e i (l.map (fun x => expFn false (sub32 x m))))
  else
    (divNat (rowSum e i l) l.length, divNat (rowSum e (i + l.length) (l.map (fun x => x.mul x))) l.length)

/-- ROWSTAT: FP32 statistics to DST0 and, from offset 0, to DST1. -/
def rowstatPlan (c : Op) (e : Nat) : Plan :=
  let g := c.geoD
  { srcs := [(0, c.elemsAt g 0)]
    dsts := [(4, [(List.range g.rowsAll).map (fun j => (j, c.rowElt g j))]),
             (5, [(List.range g.rowsAll).map (fun j => (j, (32 * j, 32)))])]
    pad := fun _ => []
    bitsOut := fun ms i j _ =>
      let x := rowStats g.mode e (2 * j * g.e0) (c.rowVals g ms j)
      (if i = 5 then x.2 else x.1).toF32.toNat }

/-! ### MOVE and LAYOUT (R92, R118, R119, R124) -/

/-- The place that element `n` takes in the destination under TRANSPOSE (R124). -/
def Geo.transposed (g : Geo) (n : Nat) : Nat :=
  let i0 := n % g.e0
  let i1 := n / g.e0 % g.e1
  i1 + g.e1 * (i0 + g.e0 * (n / (g.e0 * g.e1)))

/-- Destination element `n` of a MOVE. -/
def Op.moveElt (c : Op) (g : Geo) (n : Nat) : Elt :=
  if g.transpose then (g.off 4 * 8 + g.transposed n * typeBits c.w.typeD, typeBits c.w.typeD) else c.elemAt g 4 n

/-- MOVE: bits, without conversion. -/
def movePlan (c : Op) (_ : Nat) : Plan :=
  let g := c.geoD
  { srcs := [(0, c.elemsAt g 0)]
    dsts := [(4, [(List.range g.elems).map (fun n => (n, c.moveElt g n))])]
    pad := fun _ => []
    bitsOut := fun ms _ n _ => (ms 0).bits (c.elemAt g 0 n) }

/-- Zeros that a LAYOUT writes around its elements (R113, R114, R119). -/
def Op.layoutPad (c : Op) (g : Geo) : List Elt :=
  let t := c.w.typeD
  match c.w.layD with
  | 0 => []
  | 4 =>
    let bits := g.e0 * typeBits t
    if bits % 256 = 0 then []
    else (List.range g.rowsAll).map (fun j => ((c.elemAt g 4 (j * g.e0)).1 + bits, 256 - bits % 256))
  | l => paddingOf (g.off 4 * 8) ((g.off 4 + footprint l t g.e0 g.e1 * (g.e2 * g.e3)) * 8)
      ((List.range g.elems).map (c.elemAt g 4))

/-- LAYOUT: the same elements in another arrangement. -/
def layoutPlan (c : Op) (_ : Nat) : Plan :=
  let g := c.geoD
  { srcs := [(0, c.elemsAt g 0)]
    dsts := [(4, c.elemsAt g 4)]
    pad := fun _ => c.layoutPad g
    bitsOut := fun ms _ n _ => (ms 0).bits (c.elemAt g 0 n)
    loose := c.w.layS0 != c.w.layD }

/-! ### GATHER, SCATTER, SCATTER_ACC (R101 to R104) -/

/-- The index list: INT32 entries in the block buffer. -/
def Geo.indexElts (g : Geo) : List Elt := (List.range g.e1).map (fun p => (g.off 1 * 8 + 32 * p, 32))

/-- What an index leads to (R104): a row, or no row and whether the policy faults. -/
def indexRow (rows pol : Nat) (x : Int) : Option Nat :=
  if 0 ≤ x && x < rows then some x.toNat
  else if pol = 1 && rows != 0 then some (if x < 0 then 0 else rows - 1)
  else none

/-- Element `i0` of table row `x` (R101). -/
def Op.tableElt (c : Op) (g : Geo) (x i0 : Nat) : Elt :=
  let i := if c.code = 0x18 then 0 else 4
  let t := c.type i
  (((g.off i : Int) * 8 + ((x : Int) * c.w.stride 1 + (i0 : Int) * c.w.stride 0) * typeBits t).toNat, typeBits t)

/-- Positions 64·v to 64·v + 63 of the list (R102). -/
def Geo.window (g : Geo) (v : Nat) : List Nat := (List.range (min 64 (g.e1 - 64 * v))).map (· + 64 * v)

/-- Windows before the first one with a position that FAULT stops at; all of them when there is none. -/
def openWindows (g : Geo) (pol : Nat) (rowsAt : List (Option Nat)) : Nat :=
  if pol = 2 then
    match rowsAt.findIdx? (·.isNone) with
    | some p => p / 64
    | none => ceilDiv g.e1 64
  else ceilDiv g.e1 64

/-- Positions of a window that name a row. -/
def Geo.rowsIn (g : Geo) (rowsAt : List (Option Nat)) (v : Nat) : List (Nat × Nat) :=
  (g.window v).filterMap (fun p => (rowsAt.getD p none).map (fun x => (p, x)))

/-- The elements of GATHER's table that a window reads: each distinct row once. -/
def Op.windowReads (c : Op) (g : Geo) (rowsAt : List (Option Nat)) (v : Nat) : List Idx :=
  (g.rowsIn rowsAt v).flatMap (fun q => (List.range g.e0).map (fun i => (q.1 * g.e0 + i, c.tableElt g q.2 i)))

/-- Positions of a window that name a row last in it, with the row, in increasing n: what R102 writes once. -/
def Geo.lastRows (g : Geo) (rowsAt : List (Option Nat)) (v : Nat) : List (Nat × Nat) :=
  (g.rowsIn rowsAt v).foldl (fun l q => l.filter (fun y => decide (y.2 ≠ q.2)) ++ [q]) []

/-- The elements of the table that a window writes: each distinct row once, with the highest n that names it. -/
def Op.windowWrites (c : Op) (g : Geo) (rowsAt : List (Option Nat)) (v : Nat) : List Idx :=
  (g.lastRows rowsAt v).flatMap (fun q => (List.range g.e0).map (fun i => (q.1 * g.e0 + i, c.tableElt g q.2 i)))

/-- The index list as a source that overlaps a destination (R100): its entry `p` stands with n = p. -/
def Geo.indexList (g : Geo) : List (Nat × Batches) := [(1, [(List.range g.e1).zip g.indexElts])]

/-- The elements of the listed rows of the dense operand `i` in a window. -/
def Op.windowRows (c : Op) (g : Geo) (i : Nat) (ps : List Nat) : List Idx :=
  ps.flatMap (fun p => (List.range g.e0).map (fun j => (p * g.e0 + j, c.elemAt g i (p * g.e0 + j))))

/-- GATHER over the first `nw` windows. -/
def gatherPlan (c : Op) (g : Geo) (rowsAt : List (Option Nat)) (nw : Nat) : Plan where
  srcs := [(0, (List.range nw).map (c.windowReads g rowsAt))]
  dsts := [(4, (List.range nw).map (fun v => c.windowRows g 4 (g.window v)))]
  pad := fun _ => []
  bitsOut := fun ms _ n _ =>
    match rowsAt.getD (n / g.e0) none with
    | some x => (ms 0).bits (c.tableElt g x (n % g.e0))
    | none => 0
  also := g.indexList

/-- SCATTER over the first `nw` windows: in increasing n, so that the highest wins. -/
def scatterPlan (c : Op) (g : Geo) (rowsAt : List (Option Nat)) (nw : Nat) : Plan where
  srcs := [(0, (List.range nw).map (fun v => c.windowRows g 0 ((g.rowsIn rowsAt v).map (·.1))))]
  dsts := [(4, (List.range nw).map (c.windowWrites g rowsAt))]
  pad := fun _ => []
  bitsOut := fun ms _ n _ => (ms 0).bits (c.elemAt g 0 n)
  also := g.indexList

/-- The value of table element (x, i) after the contributions of window `v` to row `x` (R103): `old` and every contribution
are added in FP32, in an order that is free for each element, and the sum is converted once. -/
def Op.accValue (c : Op) (g : Geo) (rowsAt : List (Option Nat)) (e : Nat) (ms : Nat → Local) (v x i old : Nat) : Nat :=
  let add := ((g.rowsIn rowsAt v).filter (fun q => decide (q.2 = x))).map (fun q =>
    decodeElem c.w.typeS0 ((ms 0).bits (c.elemAt g 0 (q.1 * g.e0 + i))))
  (rowSum e (128 * ((v * g.rows + x) * g.e0 + i)) (decodeElem c.w.typeD old :: add)).toType c.w.typeD g.sat

/-- What stands in the table's place `t` after the first `v` windows: each window that writes the place makes one
read-modify-write, that of the highest n (R98, R102). `from_`: the windows before it were done before a suspension (R245);
`port`: the place leads into a queue and reads as it did (R256). -/
def Op.accAt (c : Op) (g : Geo) (rowsAt : List (Option Nat)) (e from_ : Nat) (ms : Nat → Local) (port : Bool) (t : Elt) :
    Nat → Nat
  | 0 => (ms 4).bits t
  | v + 1 =>
    let old := if port then (ms 4).bits t else c.accAt g rowsAt e from_ ms port t v
    match (if v < from_ then [] else (c.windowWrites g rowsAt v).reverse).find? (fun y => decide (y.2 = t)) with
    | some y => c.accValue g rowsAt e ms v ((rowsAt.getD (y.1 / g.e0) none).getD 0) (y.1 % g.e0) old
    | none => old

/-- SCATTER_ACC over the first `nw` windows (R102, R103). `port`: the bytes of the table that lead into a queue. -/
def scatterAccPlan (c : Op) (g : Geo) (rowsAt : List (Option Nat)) (nw e from_ : Nat) (port : Nat → Bool) : Plan where
  srcs := [(0, (List.range nw).map (fun v => c.windowRows g 0 ((g.rowsIn rowsAt v).map (·.1)))),
           (4, (List.range nw).map (c.windowWrites g rowsAt))]
  dsts := [(4, (List.range nw).map (c.windowWrites g rowsAt))]
  pad := fun _ => []
  bitsOut := fun ms _ n b => c.accAt g rowsAt e from_ ms (port (b / 8)) (b, typeBits c.w.typeD) (n / g.e0 / 64 + 1)
  also := g.indexList

/-- The rows that the index list names, position by position. -/
def Dev.indexRows (d : Dev) (c : Op) (g : Geo) : Acc (Dev × List (Option Nat)) :=
  match d.fetch (whoBlock c.k c.w.hint) (d.viewOf (c.at 1) c.k 0) (g.indexElts) with
  | .error e => .error e
  | .ok (d1, m) => .ok (d1, (g.indexElts).map (fun e => indexRow g.rows c.w.idxPol (signedOf 32 (m.bits e))))

/-- The plan of an indexed operation over the first `nw` windows, from tile step `a` on. -/
def Dev.indexedPlan (d : Dev) (c : Op) (rowsAt : List (Option Nat)) (nw a : Nat) : Plan :=
  match c.code with
  | 0x18 => gatherPlan c c.geoD rowsAt nw
  | 0x19 => scatterPlan c c.geoD rowsAt nw
  | _ => scatterAccPlan c c.geoD rowsAt nw d.free a (d.leadsOut (d.opView c 4 0))

/-- An indexed operation: windows up to the first that FAULT stops at; dropped entries are counted (R104). -/
def Dev.executeIndexed (d : Dev) (k o : Nat) : Dev :=
  match d.ready k o with
  | none => d
  | some f =>
    let c := f.op k
    let g := c.geoD
    match d.indexRows c g with
    | .error e => d.opStopped k f e
    | .ok (d0, rowsAt) =>
      let nw := openWindows g c.w.idxPol rowsAt
      match d0.runPlan c f.index ((d.indexedPlan c rowsAt nw f.pos).after c f.pos) d.free with
      | .error e => d.opStopped k f e
      | .ok (d1, q) =>
        if nw < ceilDiv g.e1 64 then d1.opHalt k codeIndexRange f.index 1 o
        else
          d1.planEnd k f (.ok (d1.bumpBy (indexZeroedAt k) (rowsAt.filter (·.isNone)).length, q))

/-! ### Backward pass (R196) -/

/-- The row-statistics record of row `r` (Table 5 of 06): field at byte `o`, `n` bits. -/
def OpWord.statElt (w : OpWord) (r o n : Nat) : Elt := (w.tileOff 2 * 8 + 128 * r + 8 * o, n)
/-- C0 of BWD_SCORES. -/
def OpWord.c0 (w : OpWord) : Nat := fieldAt w 233 16

/-- BWD_SCORES: e^(s − M)·(1/L) where column C0 + c is visible to the row, else 0 (R185, R196). -/
def bwdScoresPlan (c : Op) (_ : Nat) : Plan :=
  let w := c.w
  { srcs := w.prodSrcs ++ [(2, [(List.range w.tileM).map (fun r => (r, w.statElt r 0 128))])]
    dsts := [(4, [grid w.tileM w.tileN w.cElt])]
    pad := fun _ => w.tilePad
    bitsOut := fun ms _ n _ =>
      let r := n / w.tileN
      let j := w.c0 + n % w.tileN
      let rec_ := fun o k => (ms 2).bits (w.statElt r o k)
      let l := ofF32 (BitVec.ofNat 32 (rec_ 4 32))
      if l.isZero || !(j < rec_ 10 16 && (j < rec_ 12 16 || rec_ 8 16 ≤ j)) then 0
      else
        let s := w.dot ms FpVal.zero r (n % w.tileN)
        (mul32 (expFn false (sub32 s (ofF32 (BitVec.ofNat 32 (rec_ 0 32))))) (recipFn l)).toType w.typeD w.tileSat }

/-- Element (r, c) of tile operand `i` (0, 1) in its layout. -/
def OpWord.matElt (w : OpWord) (i r c : Nat) : Elt :=
  let t := if i = 0 then w.typeS0 else w.typeS1
  let l := if i = 0 then w.layS0 else w.layS1
  (w.tileOff i * 8 + elemBit l t w.tileN w.tileM r c, typeBits t)
def OpWord.matVal (w : OpWord) (ms : Nat → Local) (i r c : Nat) : FpVal :=
  decodeElem (if i = 0 then w.typeS0 else w.typeS1) ((ms i).bits (w.matElt i r c))

/-- BWD_ROWDOT: D_r = Σ_c dO·O, added in an order that the manual does not fix (log 10). -/
def bwdRowdotPlan (c : Op) (e : Nat) : Plan :=
  let w := c.w
  { srcs := [(0, [grid w.tileM w.tileN (w.matElt 0)]), (1, [grid w.tileM w.tileN (w.matElt 1)])]
    dsts := [(4, [(List.range w.tileM).map (fun r => (r, (w.tileOff 3 * 8 + 32 * r, 32)))])]
    pad := fun _ => []
    bitsOut := fun ms _ r _ =>
      (rowSum e (r * w.tileN) ((List.range w.tileN).map (fun j => (w.matVal ms 0 r j).mul (w.matVal ms 1 r j)))).toF32.toNat }

/-- BWD_DSCORE: dS = P·(dP − D). -/
def bwdDscorePlan (c : Op) (_ : Nat) : Plan :=
  let w := c.w
  { srcs := [(0, [grid w.tileM w.tileN (w.matElt 0)]), (1, [grid w.tileM w.tileN (w.matElt 1)]),
             (2, [(List.range w.tileM).map (fun r => (r, (w.tileOff 2 * 8 + 32 * r, 32)))])]
    dsts := [(4, [grid w.tileM w.tileN w.cElt])]
    pad := fun _ => w.tilePad
    bitsOut := fun ms _ n _ =>
      let r := n / w.tileN
      let j := n % w.tileN
      let dd := ofF32 (BitVec.ofNat 32 ((ms 2).bits (w.tileOff 2 * 8 + 32 * r, 32)))
      (mul32 (w.matVal ms 0 r j) (sub32 (w.matVal ms 1 r j) dd)).toType w.typeD w.tileSat }

/-! ### Parity of the exchange network (R123) -/

/-- Replays that the next frame share of block `k`'s network needs (R123): more than three where a stage fails. -/
def Dev.xnetReplays (d : Dev) (k : Nat) : Nat :=
  if d.badXnet.contains k then replayLimit + 1 else Tab.read (fun _ => 0) d.pathXnet k

/-- The replays of a frame share are counted; the error is over. -/
def Dev.replayXnet (d : Dev) (k : Nat) : Dev :=
  if d.xnetReplays k = 0 then d
  else ({ d with pathXnet := Tab.write (fun _ => 0) d.pathXnet k 0 }).bumpBy (blockReplaysAt k)
    (min replayLimit (d.xnetReplays k))

/-! ### Suspension at a tile step (R96, R245) -/

/-- The plan of an operation that a suspension can stop in its middle, but for an indexed one. -/
def planOf (c : Op) (e : Nat) : Option Plan :=
  match c.code with
  | 0x01 => some (matmulPlan c e)
  | 0x02 => some (matmulAccPlan c e)
  | 0x08 => some (elemPlan c e)
  | 0x09 => some (reducePlan c e)
  | 0x0A => some (rowstatPlan c e)
  | 0x10 => some (movePlan c e)
  | 0x11 => some (layoutPlan c e)
  | 0x38 => some (bwdScoresPlan c e)
  | 0x39 => some (bwdRowdotPlan c e)
  | 0x3A => some (bwdDscorePlan c e)
  | _ => none

/-- The plan of an operation in flight, with the device after the read of its index list; none: it cannot go on now. -/
def Dev.flightPlan (d : Dev) (c : Op) (a : Nat) : Option (Dev × Plan) :=
  if isIndexedOp c.code then
    match d.indexRows c c.geoD with
    | .error _ => none
    | .ok (d0, rowsAt) => some (d0, d.indexedPlan c rowsAt (openWindows c.geoD c.w.idxPol rowsAt) a)
  else (planOf c d.free).map (fun p => (d, p))

/-- How far the engine has come with an operation when a suspension stops it: any tile step from the one it stands at, as the
manual does not fix the time (log 66). -/
def Dev.stopAt (d : Dev) (a n : Nat) : Nat := a + Config.order d.free 0 % (n - a + 1)

/-- A suspension stops the operation that the engine of opcode `o` executes at a tile step: what it wrote until then is
written, and the rest waits for the continuation (R245). One that waits, or that feeds a queue, has not begun (log 66). -/
def Dev.partWay (d : Dev) (k o : Nat) : Dev :=
  match d.ready k o with
  | none => d
  | some f =>
    let c := f.op k
    match (if o = 0x11 && d.xnetReplays k ≠ 0 then none else d.flightPlan c f.pos : Option (Dev × Plan)) with
    | none => d
    | some (d0, p) =>
      let t := d.stopAt f.pos (p.steps c)
      match d0.runPlan c f.index (p.between c f.pos t) d.free with
      | .ok (d1, false) => d1.drawn.modFlight k f.index (fun x => { x with pos := t })
      | _ => d

/-- Opcodes whose operations stop at a tile step. -/
def tileStepped : List Nat := [0x01, 0x02, 0x08, 0x09, 0x0A, 0x10, 0x11, 0x18, 0x19, 0x1A, 0x38, 0x39, 0x3A]

/-- The engines of block `k` stop at their tile steps. -/
def Dev.partWays (d : Dev) (k : Nat) : Dev := tileStepped.foldl (fun a o => a.partWay k o) d

/-! ### Meanings -/

/-- MATMUL (R88). -/
def execMatmul (r : Region) (b : Blk) (s : State) : Result State :=
  s.always fun d => d.execute (blkNo r b) 0x01 matmulPlan

/-- MATMUL_ACC (R88). -/
def execMatmulAcc (r : Region) (b : Blk) (s : State) : Result State :=
  s.always fun d => d.execute (blkNo r b) 0x02 matmulAccPlan

/-- ELEM (R89). -/
def execElem (r : Region) (b : Blk) (s : State) : Result State :=
  s.always fun d => d.execute (blkNo r b) 0x08 elemPlan

/-- REDUCE (R90). -/
def execReduce (r : Region) (b : Blk) (s : State) : Result State :=
  s.always fun d => d.execute (blkNo r b) 0x09 reducePlan

/-- ROWSTAT (R91). -/
def execRowstat (r : Region) (b : Blk) (s : State) : Result State :=
  s.always fun d => d.execute (blkNo r b) 0x0A rowstatPlan

/-- MOVE (R92). -/
def execMove (r : Region) (b : Blk) (s : State) : Result State :=
  s.always fun d => d.execute (blkNo r b) 0x10 movePlan

/-- LAYOUT: a frame share that fails parity is replayed, and one that fails three replays halts the block (R123). -/
def Dev.layout (d : Dev) (k : Nat) : Dev :=
  match d.ready k 0x11 with
  | none => d
  | some f =>
    if replayLimit < d.xnetReplays k then (d.replayXnet k).opHalt k codeXnetParity f.index 7 0x11
    else (d.replayXnet k).execute k 0x11 layoutPlan

/-- LAYOUT (R118). -/
def execLayout (r : Region) (b : Blk) (s : State) : Result State := s.always fun d => d.layout (blkNo r b)

/-- GATHER (R101). -/
def execGather (r : Region) (b : Blk) (s : State) : Result State :=
  s.always fun d => d.executeIndexed (blkNo r b) 0x18

/-- SCATTER (R102). -/
def execScatter (r : Region) (b : Blk) (s : State) : Result State :=
  s.always fun d => d.executeIndexed (blkNo r b) 0x19

/-- SCATTER_ACC (R103). -/
def execScatterAcc (r : Region) (b : Blk) (s : State) : Result State :=
  s.always fun d => d.executeIndexed (blkNo r b) 0x1A

/-- BWD_SCORES (R196). -/
def execBwdScores (r : Region) (b : Blk) (s : State) : Result State :=
  s.always fun d => d.execute (blkNo r b) 0x38 bwdScoresPlan

/-- BWD_ROWDOT (R196). -/
def execBwdRowdot (r : Region) (b : Blk) (s : State) : Result State :=
  s.always fun d => d.execute (blkNo r b) 0x39 bwdRowdotPlan

/-- BWD_DSCORE (R196). -/
def execBwdDscore (r : Region) (b : Blk) (s : State) : Result State :=
  s.always fun d => d.execute (blkNo r b) 0x3A bwdDscorePlan

end Sys2Proof.Machine
end

