-- ==== Sys2Proof/Machine/Queues.lean ====
section
/-! DEFINITION. Stream queues (10_stream_queues): entries, packets and offers, control sets, back-pressure, and the
pointer check. -/

namespace Sys2Proof.Machine
open Sys2Proof

def codeQueueCtl : Nat := 0x45
def codeQueueStall : Nat := 0x46

/-- Offsets of the counters of queue `j` of region `r` (Table 2). -/
def queueHoldsAt (r j : Nat) : Nat := queueBase r j + 0x18
def ptrResetsAt (r j : Nat) : Nat := queueBase r j + 0x20

/-! ### Emptying and the pointer check (R260, R265) -/

/-- The queue with all pointers zero and no mark. -/
def Queue.emptied (x : Queue) : Queue :=
  { x with write := 0, write2 := 0, release := 0, release2 := 0, offer := 0, offer2 := 0, mark := 0, mark2 := 0,
           markValid := false, pkts := [], ctl := [] }

/-- The two copies of every pointer agree. -/
def Queue.matched (x : Queue) : Bool :=
  x.write = x.write2 && x.release = x.release2 && x.offer = x.offer2 && x.mark = x.mark2

/-- The step with its results discarded at its commit. -/
def Step.discarded (s : Step) : Step := { s with discard := true }

/-- The domain's step in flight loses its results: the one that it suspends or restores, or the one that runs (R265). -/
def Dom.discard (x : Dom) : Dom :=
  let moving := x.act = .suspending || x.act = .saving || x.act = .restoring
  { x with step := x.step.map Step.discarded
           susp := match x.susp with
             | u :: rest => (if moving then { u with step := u.step.discarded } else u) :: rest
             | [] => [] }

/-- The results of the domain's step in flight are discarded at its commit. -/
def Dev.discardStep (d : Dev) (r : Nat) : Dev :=
  match d.domainOf r with
  | some n => d.modDom n Dom.discard
  | none => d

/-- A pointer mismatch: the queue is emptied, outputs in progress, a held one too, are discarded to their end, and QUEUE_PTR
is reported. -/
def Dev.pointerReset (d : Dev) (r j : Nat) : Dev :=
  let d1 := d.modQueue (32 * r + j) (fun x => { x.emptied with
    ptrReset := true
    held := false
    outs := x.outs.map (fun o => if o.begun || o.counted then { o with discard := true } else o) })
  ((d1.bump (ptrResetsAt r j)).raise (28 + r)).discardStep r

/-- An update of the pointers: the effect `f` when the copies agree. -/
def Dev.checkedQueue (d : Dev) (r j : Nat) (f : Dev → Dev) : Dev :=
  if (d.queue (32 * r + j)).matched then f d else d.pointerReset r j

/-- The pointers of every queue of region `r` are compared. -/
def Dev.queuesChecked (d : Dev) (r : Nat) : Dev := (List.range 32).foldl (fun a j => a.checkedQueue r j id) d

/-! ### Packets and offers (R258) -/

/-- A packet meets the offer condition. -/
def Queue.offerable (x : Queue) (p : Pkt) : Bool := x.thresh ≤ p.written || p.closed

/-- The queue with both copies of OFFER at the first entry of the first packet that is not both offered and closed. -/
def Queue.reoffer (x : Queue) : Queue :=
  let o := match x.pkts.find? (fun p => !(p.offered && p.closed)) with
    | some p => p.first
    | none => x.write
  { x with offer := o, offer2 := o }

/-- READY of the queue is incremented; an overflow is a region fault (R262). -/
def Dev.readyOne (d : Dev) (r j : Nat) : Dev :=
  match d.flagAdd r (d.queue (32 * r + j)).ready 1 with
  | some d1 => d1
  | none => d.regionFault r codeFlagOverflow 6

/-- READY is incremented `n` times. -/
def Dev.readyMany (d : Dev) (r j : Nat) : Nat → Dev
  | 0 => d
  | n + 1 => (d.readyOne r j).readyMany r j n

/-- The packets with those that meet the condition offered, from entry `from_` (as a distance from RELEASE) on. -/
def Queue.offerAll (x : Queue) : Queue :=
  { x with pkts := x.pkts.map (fun p => if x.offerable p then { p with offered := true } else p) }

/-- Offers that a change of the packets brings. -/
def Queue.newOffers (x : Queue) : Nat := (x.pkts.filter (fun p => !p.offered && x.offerable p)).length

/-- Packets that meet the condition are offered, in entry order. -/
def Dev.offerPackets (d : Dev) (r j : Nat) : Dev :=
  let x := d.queue (32 * r + j)
  (d.setQueue (32 * r + j) x.offerAll.reoffer).readyMany r j x.newOffers

/-- The packets after one more entry is written; `last`: the producer's output ends with it. -/
def Queue.addEntry (x : Queue) (last : Bool) : List Pkt :=
  let close := fun (p : Pkt) => { p with closed := p.closed || last || decide (x.pkt ≤ p.written) }
  match x.pkts.reverse with
  | p :: r =>
    if p.closed then x.pkts ++ [close ⟨x.write, 1, false, false⟩]
    else (close { p with written := p.written + 1 } :: r).reverse
  | [] => [close ⟨x.write, 1, false, false⟩]

/-! ### Entries (R254 to R256, R263) -/

/-- Bytes of operation `index` of block `k` still have to enter a queue. -/
def Dev.outputsLeft (d : Dev) (k index : Nat) : Bool :=
  queueKeys.any (fun i => (d.queue i).outs.any (fun o => o.stack.isNone && o.blk == k && o.index == index))

/-- The output at the head of the queue has entered: its dispatch or its operation is done. -/
def Dev.outputDone (d : Dev) (r j : Nat) (o : QOut) : Dev :=
  let d1 := d.modQueue (32 * r + j) (fun x => { x with outs := x.outs.tail })
  match o.stack with
  | some st =>
    match d1.slotOf st o.slot with
    | some s => d1.slotDone st o.slot s
    | none => d1
  | none => if d1.outputsLeft o.blk o.index then d1 else d1.finish o.blk o.index

/-- One entry of the head output is written, and its packet may be offered. -/
def Dev.putEntry (d : Dev) (r j : Nat) (o : QOut) : Dev :=
  let q := 32 * r + j
  let x := d.queue q
  let part := o.bytes.take x.esize
  let rest := o.bytes.drop x.esize
  let bytes := part ++ List.replicate (x.esize - part.length) 0
  let d1 := d.bbufWrite (4 * r + x.consumer) (x.entryAt x.write.toNat) bytes
  let d2 := d1.setQueue q { x with
    pkts := x.addEntry rest.isEmpty
    write := x.write + 1
    write2 := x.write + 1
    held := false
    outs := { o with bytes := rest, begun := true, waits := false, counted := false } :: x.outs.tail }
  let d3 := d2.offerPackets r j
  if rest.isEmpty then d3.outputDone r j o else d3

/-- The producer lies in another region than the queue's region `r`: a release reaches it as a message (R263, R269). -/
def Queue.distant (x : Queue) (r : Nat) : Bool := x.kind = 2 && x.prodRegion != r

/-- QUEUE_ENTRY_WRITE: the next entry of the head output is written, or held while the queue is full, and until the release
has reached its producer, which counts once (R266); a discarded output is accepted to its end. -/
def Dev.entryWrite (d : Dev) (r j : Nat) : Dev :=
  let x := d.queue (32 * r + j)
  match x.outs with
  | [] => d
  | o :: rest =>
    if o.discard then d.outputDone r j o
    else d.checkedQueue r j fun d =>
      if x.full || (o.waits && x.distant r) then
        let d1 := d.setQueue (32 * r + j) { x with held := true, outs := { o with waits := true, counted := true } :: rest }
        if o.counted then d1 else d1.bump (queueHoldsAt r j)
      else d.putEntry r j o

/-! ### Control sets (R261, R262) -/

/-- OP of a control set: 1 RELEASE, 2 MARK, 3 REWIND; every other code is reserved. -/
def ctlOp (v : Nat) : Nat := fieldAt v 13 3
def ctlCount (v : Nat) : Nat := fieldAt v 0 13

/-- A control set breaks Table 1 or the state of the queue. -/
def Queue.ctlBad (x : Queue) (v : Nat) : Bool :=
  match ctlOp v with
  | 1 => ctlCount v = 0 || 4096 < ctlCount v || decide ((x.write - x.release).toNat < ctlCount v)
  | 2 => ctlCount v != 0
  | 3 => ctlCount v != 0 || !x.markValid
  | _ => true

/-- A closed packet whose last entry lies among the first `n` entries from RELEASE. A part of it may be free already. -/
def Queue.gone (x : Queue) (n : Nat) (p : Pkt) : Bool :=
  p.closed && decide ((p.first + BitVec.ofNat 16 p.written - x.release).toNat ≤ n)

/-- The packet begins at MARK or later; the entries held are fewer than half of the 2^16 numbers. -/
def Queue.fromMark (x : Queue) (p : Pkt) : Bool := decide ((p.first - x.mark).toNat < 32768)

/-- RELEASE by `n`. -/
def Queue.released (x : Queue) (n : Nat) : Queue :=
  { x with
    release := x.release + BitVec.ofNat 16 n
    release2 := x.release + BitVec.ofNat 16 n
    markValid := x.markValid && !decide ((x.mark - x.release).toNat < n)
    held := false
    pkts := x.pkts.filter (fun p => !x.gone n p) }

/-- The release reaches the producer: what it holds goes on (R263). -/
def Queue.freed (x : Queue) : Queue := { x with outs := x.outs.map (fun o => { o with waits := false }) }

/-- A release takes effect; a producer in another region hears of it by a CTRL message (R263, R269). -/
def Dev.release (d : Dev) (r j n : Nat) : Dev :=
  let d1 := d.modQueue (32 * r + j) (fun x => x.released n)
  if (d.queue (32 * r + j)).distant r then
    d1.sendFabric r (d.queue (32 * r + j)).prodRegion .ctrl (.release j)
  else d1.modQueue (32 * r + j) Queue.freed

/-- The packets from MARK on, to be offered anew. -/
def Queue.rewound (x : Queue) : Queue :=
  { x with
    offer := x.mark
    offer2 := x.mark
    pkts := x.pkts.map (fun p => if x.fromMark p then { p with offered := false } else p) }

/-- The effect of a valid control set. -/
def Dev.control (d : Dev) (r j v : Nat) : Dev :=
  let q := 32 * r + j
  match ctlOp v with
  | 1 => d.release r j (ctlCount v)
  | 2 => d.modQueue q (fun x => { x with mark := x.offer, mark2 := x.offer, markValid := true })
  | _ => (d.modQueue q Queue.rewound).offerPackets r j

/-- The oldest control set of the queue, when it has the code `o` or a reserved one. -/
def Dev.controlStep (d : Dev) (r j o : Nat) : Dev :=
  let q := 32 * r + j
  match (d.queue q).ctl with
  | [] => d
  | v :: rest =>
    if ctlOp v = o || ctlOp v = 0 || 3 < ctlOp v then
      let d1 := d.modQueue q (fun x => { x with ctl := rest })
      d1.checkedQueue r j fun d =>
        if (d.queue q).ctlBad v then d.regionFault r codeQueueCtl 6 else d.control r j v
    else d

/-! ### Meanings -/

/-- QUEUE_ENTRY_WRITE (R256, R258, R263). -/
def execQueueEntryWrite (r : Region) (q : QueueNo) (s : State) : Result State :=
  s.always fun d => d.entryWrite r.val q.val

/-- QUEUE_RELEASE (R261). -/
def execQueueRelease (r : Region) (q : QueueNo) (s : State) : Result State :=
  s.always fun d => d.controlStep r.val q.val 1

/-- QUEUE_MARK (R261). -/
def execQueueMark (r : Region) (q : QueueNo) (s : State) : Result State :=
  s.always fun d => d.controlStep r.val q.val 2

/-- QUEUE_REWIND (R261). -/
def execQueueRewind (r : Region) (q : QueueNo) (s : State) : Result State :=
  s.always fun d => d.controlStep r.val q.val 3

/-- The domain of region `r` runs its step: it is neither suspended nor switching (R264). -/
def Dev.stepRuns (d : Dev) (r : Nat) : Bool :=
  match d.domainOf r with
  | some n => (d.dom n).act = .running && !(d.dom n).stopped
  | none => false

/-- QUEUE_STALL (R264): a region fault of the consumer's region. -/
def execQueueStall (r : Region) (q : QueueNo) (s : State) : Result State :=
  s.always fun d => d.when ((d.queue (32 * r.val + q.val)).held && d.stepRuns r.val) fun d =>
    d.regionFault r.val codeQueueStall 6

end Sys2Proof.Machine
end

