-- ==== Sys2Proof/Machine/Links.lean ====
section
/-! DEFINITION. The fabric, the reduction tree and the span ports (11_fabric_links). -/

namespace Sys2Proof.Machine
open Sys2Proof

/-! ### The fabric (R269, R270) -/

/-- The message is of the class and between the routers. -/
def FabMsg.on (m : FabMsg) (src dst : Nat) (cls : FabClass) : Bool :=
  decide (m.src = src) && decide (m.dst = dst) && decide (m.cls = cls)

/-- The oldest message of a class between two routers arrives: sets and lists wait at the region, the answer to a list
ends the sender's scan, and a release lets a held producer go on. -/
def Dev.messageArrives (d : Dev) (src dst : Nat) (cls : FabClass) : Dev :=
  match takeMsg d.net.msgs (fun m => m.on src dst cls) with
  | none => d
  | some (m, rest) =>
    let d1 := { d with net.msgs := rest }
    match m.body with
    | .listAccepted b i => d1.finish (4 * dst + b) i
    | .release j => d1.modQueue (32 * src + j) Queue.freed
    | .data => d1
    | _ => d1.modRegion dst (fun x => { x with arrived := x.arrived ++ [m] })

/-! ### The reduction tree (R274 to R277) -/

def codeTreeMismatch : Nat := 0x47
def codeTreeTimeout : Nat := 0x48
def codeSpanMismatch : Nat := 0x49
def codeSpanTimeout : Nat := 0x4A

/-- Offset of `TREE_ROUNDS`. -/
def treeRoundsAt : Nat := 0x3000018

/-- What every contribution to a round must share: BYTES, OP, TYPE_S0, TYPE_D. -/
def OpWord.treeSig (w : OpWord) : List Nat := [w.treeBytes, w.treeOp, w.typeS0, w.typeD]

/-- The span tree of domain `n` (R284). -/
def Dev.spanTree (d : Dev) (n : Nat) : Option SpanTree := d.img.str.trees.find? (fun t => decide (t.domain = n))

/-- The round takes a contribution. -/
def Round.take (x : Round) (p : Contrib) : Round := { x with parts := x.parts ++ [p] }

/-- The rounds of a domain with a contribution to round `i` in its place. -/
def roundsWith (rs : List Round) (i : Nat) (p : Contrib) : List Round :=
  if rs.any (fun x => decide (x.num = i)) then rs.map (fun x => if x.num = i then x.take p else x)
  else rs ++ [⟨i, [p], none, false, false⟩]

/-- The tree port of block `k`'s region reads the contribution of `f`: at most two rounds of a domain are in flight, and
the contributions of a round agree. -/
def Dev.contribute (d : Dev) (k n : Nat) (f : Flight) : Dev :=
  let r := k / 4
  let w : OpWord := f.word
  let i := (d.region r).treeTaken
  let rs := d.rounds n
  match rs.find? (fun x => decide (x.num = i)), (f.op k).at 0, cellsOf k w.mask with
  | old, .br b, g :: _ =>
    if old.isNone && 2 ≤ rs.length then d
    else if (old.getD ⟨i, [], none, false, false⟩).parts.any (fun p => OpWord.treeSig p.word != w.treeSig) then
      d.regionFault r codeTreeMismatch 6
    else
      match d.readRun (whoBlock k w.hint) (.cell g (d.bufregBase g b)) 0 w.treeBytes with
      | .error e => d.opStopped k f e
      | .ok (d1, bs) =>
        ((d1.setRounds n (roundsWith rs i ⟨r, k, f.index, w, bs⟩)).modRegion r (fun x =>
          { x with treeQ := x.treeQ.tail, treeTaken := x.treeTaken + 1 })).modFlight k f.index
            (fun x => { x with begun := true })
  | _, _, _ => d

/-- TREE_REDUCE: the operation at the head of its region's tree port contributes. -/
def Dev.treeReduce (d : Dev) (k : Nat) : Dev :=
  match d.ready k 0x28, d.domainOf (k / 4), (d.region (k / 4)).treeQ with
  | some f, some n, q :: _ => if q = (k, f.index) then d.contribute k n f else d
  | _, _, _ => d

/-- Elements of a contribution, widened to FP32. -/
def Contrib.values (p : Contrib) : List FpVal :=
  let t := OpWord.typeS0 p.word
  (List.range (p.bytes.length / elemBytes t)).map (fun j => decodeElem t (fieldOf p.bytes (j * elemBytes t) (elemBytes t)))

/-- Values combined under OP: 0 SUM, in an unspecified order, 1 MAX, 2 MIN (R275). -/
def treeCombine (op e i : Nat) (l : List FpVal) : FpVal :=
  match op with
  | 0 => rowSum e i l
  | 1 => rowMax l
  | _ => rowMin l

/-- Vectors combined element by element, `n` elements. -/
def combineAll (op e n : Nat) (vs : List (List FpVal)) : List Word :=
  (List.range n).map (fun j => (treeCombine op e (j * vs.length) (vs.map (fun v => v.getD j FpVal.zero))).toF32)

/-- OP of a round. -/
def Round.op (x : Round) : Nat :=
  match x.parts with
  | p :: _ => OpWord.treeOp p.word
  | [] => 0

/-- The results of a contributor: TYPE_D with SAT, to DST0 of every selected cell; its operation is done (R275). What overlaps
the contribution and is not in place is undefined (R100). -/
def Dev.treeResult (d : Dev) (vals : List Word) (p : Contrib) : Dev :=
  let w : OpWord := p.word
  let bs := vals.flatMap (fun v => bytesOf ((ofF32 v).toType w.typeD true) (elemBytes w.typeD))
  let c := opWith p.blk w []
  match c.at 4, c.at 0 with
  | .br n, .br q =>
    let src := View.cell (firstCell p.blk w.mask) (d.bufregBase (firstCell p.blk w.mask) q)
    (((cellsOf p.blk w.mask).foldl (fun a g =>
      let v := View.cell g (a.bufregBase g n)
      a.cellWrite g (a.bufregBase g n) (v.freed
        (clashBytes false v (denseElts vals.length (elemBytes w.typeD)) [] src (denseElts vals.length (elemBytes w.typeS0)))
        d.free bs)) d).drawn).finish p.blk p.index
  | _, _ => d

/-- The round ends: its results are written and it is counted. -/
def Dev.roundEnds (d : Dev) (n : Nat) (x : Round) (vals : List Word) : Dev :=
  (x.parts.foldl (fun a p => a.treeResult vals p) (d.modRounds n (fun l => l.filter (fun y => decide (y.num ≠ x.num))))).bump
    treeRoundsAt

/-- Every region of the domain has contributed, and the round has not been combined. -/
def Dev.roundFull (d : Dev) (n : Nat) (x : Round) : Bool :=
  x.own.isNone && (d.regionsOf n).all (fun r => x.parts.any (fun p => decide (p.region = r)))

/-- Offset of `TREE_LATE`. -/
def treeLateAt : Nat := 0x3000010

/-- Child ports of a span tree. -/
def SpanTree.kids (t : SpanTree) : List Nat := (List.range 12).filter (fun p => t.children.getLsbD p)

/-- The channel of the span tree. -/
def treeChannel : Nat := 255

/-- Room for vectors of `n` FP32 values from the partners of ports (R281, R284; log 118). -/
def Dev.treeRoom (d : Dev) (ps : List Nat) (n : Nat) : Dev := ps.foldl (fun a p => a.sendRoom p treeChannel (4 * n)) d

/-- TREE_ROUND_COMPLETE: the oldest full round of the domain is combined; under a span tree it goes on there. `late`: the
round needed more than one replay on a tree link, and `TREE_LATE` counts it (R276). -/
def Dev.treeComplete (d : Dev) (n : Nat) (late : Bool) : Dev :=
  match (d.rounds n).find? (d.roundFull n) with
  | none => d
  | some x =>
    let vs := x.parts.map Contrib.values
    let vals := combineAll x.op d.free ((vs.head?.map List.length).getD 0) vs
    let d1 := if late then d.drawn.bump treeLateAt else d.drawn
    match d.spanTree n with
    | some t =>
      (d1.modRounds n (fun l => l.map (fun y => if y.num = x.num then { y with own := some vals } else y))).treeRoom t.kids
        vals.length
    | none => d1.roundEnds n x vals

/-- TREE_TIMEOUT (R277): a round has not completed; the region of its first contribution records the fault (log 29). -/
def Dev.treeTimeout (d : Dev) (n : Nat) : Dev :=
  match d.rounds n with
  | x :: _ => if (d.spanTree n).isSome then d
      else d.regionFault ((x.parts.head?.map (·.region)).getD 0) codeTreeTimeout 6
  | [] => d

/-! ### Span ports (R278 to R286) -/

/-- Offsets of the counters of span port `p`. -/
def spanReplaysAt (p : Nat) : Nat := spanBase p + 0x08
def spanTxAt (p : Nat) : Nat := spanBase p + 0x10
def spanRxAt (p : Nat) : Nat := spanBase p + 0x18

/-- A state of port `p`, with its reason; a change raises source 76 + p (Table 1 of 15). -/
def Dev.spanEnter (d : Dev) (p st reason : Nat) : Dev :=
  let d1 := d.modSpan p (fun x => { x with st := st, reason := reason })
  if (d.span p).st = st then d1 else d1.raise (76 + p)

/-- A message leaves through port `p`. -/
def Dev.spanOut (d : Dev) (p channel : Nat) (bytes : List Byte) : Dev :=
  (d.emit (.span p channel bytes)).bumpBy (spanTxAt p) bytes.length

/-- Channel `n` of a port; one that is not open holds no credits. -/
def Span.channel (x : Span) (n : Nat) : Channel :=
  if n = treeChannel then x.tree else (x.channels.find? (fun c => decide (c.num = n))).getD ⟨n, 0, [], 0, []⟩

/-- SPAN_SEND: the data of SRC0 leaves through a port that is UP while the channel holds credits for all of it (R280 to
R282; log 102). The operation goes on until the partner has acknowledged the message. -/
def Dev.spanData (d : Dev) (k : Nat) (f : Flight) : Dev :=
  let c := f.op k
  let x := d.span c.w.port
  if x.st ≠ 2 || (x.channel c.w.channel).credit < c.w.spanBytes then d
  else
    match d.readRun (whoBlock k c.w.hint) (d.viewOf (c.at 0) k (firstCell k c.w.mask)) 0 c.w.spanBytes with
    | .error e => d.opStopped k f e
    | .ok (d1, bs) =>
      (((d1.unserve (whoBlock k 0).party).spanOut c.w.port c.w.channel bs).modSpan c.w.port (fun y =>
        y.modChannel c.w.channel (fun h =>
          { h with credit := h.credit - c.w.spanBytes, sends := h.sends ++ [(k, f.index)] }))).modFlight k f.index
            (fun y => { y with begun := true })

/-- A port that is UP receives what the partner sends back on a channel (R280, R281; log 102): credits, or the
acknowledgement of the channel's oldest message, whose SPAN_SEND is done. -/
def Dev.spanBack (d : Dev) (b : SpanBack) : Dev :=
  let p := b.port.val
  let h := (d.span p).channel b.channel.toNat
  let d1 (f : Channel → Channel) : Dev := d.modSpan p (fun x => x.modChannel b.channel.toNat f)
  if (d.span p).st ≠ 2 then d
  else
    match b.reply, h.sends with
    | .credit n, _ => d1 (fun c => { c with credit := c.credit + n })
    | .ack, (k, i) :: rest => (d1 (fun c => { c with sends := rest })).finish k i
    | .ack, [] => d

/-- SPAN_SEND, after what has come back from the partner (R280, R281). -/
def Dev.spanSend (d : Dev) (k : Nat) (got : Option SpanBack) : Dev :=
  let d1 := match got with
    | some b => d.spanBack b
    | none => d
  match d1.ready k 0x29 with
  | none => d1
  | some f => d1.spanData k f

/-- The oldest message of a channel in a receive buffer, and the rest. -/
def takeRx (l : List (Nat × List Byte)) (channel : Nat) : Option (List Byte × List (Nat × List Byte)) :=
  match l with
  | [] => none
  | m :: r => if m.1 = channel then some (m.2, r) else (takeRx r channel).map (fun q => (q.1, m :: q.2))

/-- The bytes of a message as puts of one byte each. -/
def bytePuts (bs : List Byte) : List Put := (bs.zip (List.range bs.length)).map (fun x => ((8 * x.2, 8), x.1.toNat))

/-- Write a message to DST0: to every selected cell, or once (R93, R281). -/
def Dev.receiveInto (d : Dev) (c : Op) (index : Nat) (bs : List Byte) : Acc (Dev × Bool) :=
  match c.at 4 with
  | .br n => .ok ((cellsOf c.k c.w.mask).foldl (fun a g => a.cellWrite g (a.bufregBase g n) bs) d, false)
  | _ =>
    let v := d.opView c 4 0
    let (d1, ps, q) := d.divert c index v (bytePuts bs)
    match d1.putElems (whoBlock c.k c.w.hint) v ps [] 0 with
    | .error e => .error e
    | .ok d2 => .ok (d2, q)

/-- The receive buffer and the channel's order after a SPAN_RECV. -/
def Span.received (x : Span) (channel : Nat) (rest : List (Nat × List Byte)) : Span :=
  { x with rx := rest }.modChannel channel (fun c => { c with recvs := c.recvs.tail })

/-- SPAN_RECV: the oldest message of the channel is written, and its credits go back to the sender (R280, R281). -/
def Dev.spanRecv (d : Dev) (k : Nat) : Dev :=
  match d.ready k 0x2A with
  | none => d
  | some f =>
    let c := f.op k
    let p := c.w.port
    let x := d.span p
    let mine := x.channels.any (fun h => h.num == c.w.channel && h.recvs.head? == some (k, f.index))
    match takeRx x.rx c.w.channel with
    | none => d
    | some (bs, rest) =>
      if x.st ≠ 2 || !mine then d
      else if bs.length ≠ c.w.spanBytes then d.regionFault (k / 4) codeSpanMismatch 6
      else
        d.planEnd k f (((d.setSpan p (x.received c.w.channel rest)).emit
          (.spanReply p c.w.channel (.credit (min bs.length channelBuffer)))).receiveInto c f.index bs)

/-- Bytes that wait in the receive buffer of a channel. -/
def Span.waiting (x : Span) (channel : Nat) : Nat :=
  ((x.rx.filter (fun m => decide (m.1 = channel))).map (fun m => m.2.length)).sum

/-- Messages of a channel that wait in the receive buffer. -/
def Span.held (x : Span) (channel : Nat) : Nat := (x.rx.filter (fun m => decide (m.1 = channel))).length

/-- A span tree names the port (R284). -/
def SpanTree.on (t : SpanTree) (p : Nat) : Bool := t.children.getLsbD p || (!t.root && t.parent == p)

/-- A tree record names the port: channel 255 is open on it (R346). -/
def Dev.treePort (d : Dev) (p : Nat) : Bool := d.img.str.trees.any (fun t => t.on p)

/-- The tree's round waits for a message of port `p`: of a child, or of the parent once its value has gone up. -/
def SpanTree.awaits (t : SpanTree) (x : Round) (p : Nat) : Bool :=
  x.own.isSome && !x.cut && (if x.sent then !t.root && t.parent == p else t.children.getLsbD p)

/-- Rounds of span trees that wait for a message of port `p`, with the bytes of their vectors. -/
def Dev.awaited (d : Dev) (p : Nat) : List Nat :=
  d.img.str.trees.flatMap (fun t =>
    ((d.rounds t.domain).filter (fun x => t.awaits x p)).map (fun x => 4 * (x.own.getD []).length))

/-- The receive buffer takes a message: 64 KiB, and a longer message while its SPAN_RECV, or on channel 255 the round that
waits for it, is in flight (R280, R281; log 118). -/
def Dev.spanTakes (d : Dev) (p channel len : Nat) : Bool :=
  let x := d.span p
  if channel = treeChannel then
    d.treePort p && (decide (x.waiting channel + len ≤ channelBuffer) || decide (x.held channel < (d.awaited p).length))
  else
    match x.channels.find? (fun c => decide (c.num = channel)) with
    | none => false
    | some c => decide (x.waiting channel + len ≤ channelBuffer) || decide (x.held channel < c.recvs.length)

/-- SPAN_MESSAGE_ARRIVAL: the message is in the receive buffer, and its last flit is acknowledged (R281). -/
def Dev.spanArrival (d : Dev) (p channel : Nat) (bytes : List Byte) : Dev :=
  let x := d.span p
  if x.st = 2 && d.spanTakes p channel bytes.length then
    ((d.setSpan p { x with rx := x.rx ++ [(channel, bytes)] }).bumpBy (spanRxAt p) bytes.length).emit
      (.spanReply p channel .ack)
  else d

/-- A port that comes UP sends the credits that receives in flight and waiting rounds need above its buffers (R281). -/
def Dev.roomOf (d : Dev) (p : Nat) : Dev :=
  let d1 := (d.span p).channels.foldl (fun a c => c.recvs.foldl (fun b y =>
    match (b.blk y.1).fly.find? (fun f => decide (f.index = y.2)) with
    | some f => b.sendRoom p c.num (OpWord.spanBytes f.word)
    | none => b) a) d
  (d1.awaited p).foldl (fun a len => a.sendRoom p treeChannel len) d1

/-- SPAN_TRAIN_RESULT of a port in training (R279). -/
def Dev.trainResult (d : Dev) (p : Nat) (res : TrainEnd) : Dev :=
  let x := d.span p
  if x.st ≠ 1 then d
  else
    match res with
    | .none => (d.spanEnter p 3 1).modSpan p (fun y => { y with retrain := false })
    | .reached i q =>
      let ok := i.toNat = x.wantId && q.toNat = x.wantPort
      ((d.spanEnter p (if ok then 2 else 3) (if ok then 0 else 2)).modSpan p (fun y =>
        { y with retrain := false, partnerId := i.toNat, partnerPort := q.toNat })).roomOf p

/-- A port trains: it sends its SPAN_ID, as sampled from the strap, and its number (R279). -/
def Dev.spanTrains (d : Dev) (p : Nat) : Dev := (d.spanEnter p 1 0).emit (.spanTraining p d.chip.straps.spanId.toNat)

/-- A port with empty buffers and full credits (R286). -/
def Span.emptied (x : Span) : Span :=
  { x with
    rx := []
    channels := x.channels.map (fun c => { c with credit := channelBuffer, sends := [] })
    tree := { x.tree with credit := channelBuffer } }

/-- SPAN_RETRAIN: a FAILED port that the image enables trains again, with empty buffers (R279, R286). -/
def Dev.spanRetrain (d : Dev) (p : Nat) : Dev :=
  let x := d.span p
  if x.st = 3 && x.en then (d.spanTrains p).modSpan p (fun y => { y.emptied with retrain := true }) else d

/-- The SPAN_SEND or SPAN_RECV operation uses port `p`. -/
def Flight.onPort (f : Flight) (p : Nat) : Bool :=
  (OpWord.opcode f.word == 0x29 || OpWord.opcode f.word == 0x2A) && OpWord.port f.word == p

/-- What waits on port `p` is cut off from it, and ends only by R285 (R286): the operations in flight on it leave its
channels, and a span tree's rounds that this device has combined go no further (log 118). -/
def Dev.cutPort (d : Dev) (p : Nat) : Dev :=
  let d1 := (List.range 48).foldl (fun a k => a.modBlk k (fun b => { b with
    fly := b.fly.map (fun f => if f.onPort p && !f.done then { f with begun := true } else f) })) d
  let d2 := d1.modSpan p (fun y => { y with channels := y.channels.map (fun c => { c with recvs := [] }) })
  (d2.img.str.trees.filter (fun t => t.on p)).foldl (fun a t => a.modRounds t.domain (fun l =>
    l.map (fun x => { x with cut := x.cut || x.own.isSome }))) d2

/-- Port `p` becomes uncorrectable (R286): its messages are discarded, and what waits on it is cut off. -/
def Dev.spanFails (d : Dev) (p : Nat) : Dev :=
  if (d.span p).st = 2 || (d.span p).st = 1 then
    ((d.spanEnter p 3 3).modSpan p (fun y => { y.emptied with retrain := false })).cutPort p
  else d

/-! ### The span tree (R284) -/

/-- The values of a partial: FP32 words; words that the message does not hold are not stated (log 7). -/
def partialWords (e n : Nat) (bs : List Byte) : List Word :=
  (List.range n).map (fun j => if 4 * j + 4 ≤ bs.length then BitVec.ofNat 32 (fieldOf bs (4 * j) 4) else Config.freeWord e j)

/-- The bytes of a vector on the span tree. -/
def wordBytes (l : List Word) : List Byte := l.flatMap (fun w => bytesOf w.toNat 4)

/-- Channel 255 of every port holds credits for a vector (R280; log 118). -/
def Dev.mayFlow (d : Dev) (ps : List Nat) (l : List Word) : Bool :=
  ps.all (fun p => decide ((wordBytes l).length ≤ (d.span p).tree.credit))

/-- Send a vector through ports, with the credits it needs. -/
def Dev.sendWords (d : Dev) (ps : List Nat) (l : List Word) : Dev :=
  ps.foldl (fun a p => (a.spanOut p treeChannel (wordBytes l)).modSpan p (fun x => x.modChannel treeChannel (fun h =>
    { h with credit := h.credit - (wordBytes l).length }))) d

/-- Take the oldest tree message of each port, and give its credits back; none where one has not come. -/
def Dev.takeTree (d : Dev) (ps : List Nat) : Option (Dev × List (List Byte)) :=
  match ps with
  | [] => some (d, [])
  | p :: r =>
    match takeRx (d.span p).rx treeChannel with
    | none => none
    | some (bs, rest) =>
      (((d.modSpan p (fun x => { x with rx := rest })).emit
        (.spanReply p treeChannel (.credit (min bs.length channelBuffer)))).takeTree r).map (fun q => (q.1, bs :: q.2))

/-- The final value goes down to the children, and the round ends; `d` goes on where there are no credits for it. -/
def Dev.treeFinal (d1 d : Dev) (n : Nat) (t : SpanTree) (x : Round) (vals : List Word) : Dev :=
  if d1.mayFlow t.kids vals then (d1.sendWords t.kids vals).roundEnds n x vals else d

/-- The children's partials combine with the device's own; the root ends the round, the others send to the parent. -/
def Dev.treeUp (d : Dev) (n : Nat) (t : SpanTree) (x : Round) (own : List Word) : Dev :=
  match d.takeTree t.kids with
  | none => d
  | some (d1, ms) =>
    let vs := own :: ms.map (partialWords d.free own.length)
    let vals := combineAll x.op d.free own.length (vs.map (fun v => v.map ofF32))
    if t.root then d1.drawn.treeFinal d n t x vals
    else if !d1.mayFlow [t.parent] vals then d
    else ((d1.drawn.sendWords [t.parent] vals).modRounds n (fun l =>
      l.map (fun y => if y.num = x.num then { y with own := some vals, sent := true } else y))).treeRoom [t.parent] vals.length

/-- SPAN_TREE_ROUND: the next step of the domain's oldest round that the device has combined. -/
def Dev.spanRound (d : Dev) (n : Nat) : Dev :=
  match d.spanTree n, d.rounds n with
  | some t, x :: _ =>
    let ports := t.kids ++ (if t.root then [] else [t.parent])
    match x.own with
    | none => d
    | some own =>
      if x.cut || !ports.all (fun p => (d.span p).st == 2) then d
      else if x.sent then
        match d.takeTree [t.parent] with
        | some (d1, bs :: _) => d1.drawn.treeFinal d n t x (partialWords d.free own.length bs)
        | _ => d
      else d.treeUp n t x own
  | _, _ => d

/-- SPAN_TREE_ROUND, after the credits for channel 255 that have come back through a port that is UP (R280, R284). -/
def Dev.treeTurn (d : Dev) (t : TreeTurn) : Dev :=
  match t.credit with
  | some (p, n) => (d.spanBack ⟨p, 255, .credit n⟩).spanRound t.dom.val
  | none => d.spanRound t.dom.val

/-- The operation at place `pos` of block `k` is under the span timeout (R285). -/
def Dev.spanTimed (d : Dev) (k pos : Nat) : Bool :=
  match (d.blk k).fly[pos]? with
  | some f =>
    let o := OpWord.opcode f.word
    !f.done && (o == 0x29 || o == 0x2A || (o == 0x28 && (match d.domainOf (k / 4) with
      | some n => (d.spanTree n).isSome
      | none => false)))
  | none => false

/-! ### Meanings -/

/-- FABRIC_MESSAGE (R269, R270): the links stop with the reference (R413). -/
def execFabricMessage (src dst : Router) (cls : FabClass) (s : State) : Result State :=
  s.always fun d => d.when (!d.clk.coast) fun d => d.messageArrives src.val dst.val cls

/-- TREE_REDUCE (R274, R275). -/
def execTreeReduce (r : Region) (b : Blk) (s : State) : Result State := s.always fun d => d.treeReduce (blkNo r b)

/-- TREE_ROUND_COMPLETE (R275, R276). -/
def execTreeRoundComplete (n : Domain) (late : Bool) (s : State) : Result State :=
  s.always fun d => d.treeComplete n.val late

/-- TREE_TIMEOUT (R277). -/
def execTreeTimeout (n : Domain) (s : State) : Result State := s.always fun d => d.treeTimeout n.val

/-- SPAN_SEND (R281, R282). -/
def execSpanSend (r : Region) (op : SpanSend) (s : State) : Result State :=
  s.always fun d => d.spanSend (blkNo r op.blk) op.got

/-- SPAN_RECV (R281). -/
def execSpanRecv (r : Region) (b : Blk) (s : State) : Result State := s.always fun d => d.spanRecv (blkNo r b)

/-- SPAN_TRAIN_RESULT (R279). -/
def execSpanTrainResult (p : PortNo) (res : TrainEnd) (s : State) : Result State :=
  s.always fun d => d.trainResult p.val res

/-- SPAN_RETRAIN (R279): a write of 1 to `SPAN_CTL.RETRAIN`. -/
def execSpanRetrain (p : PortNo) (s : State) : Result State :=
  s.hosted (.spanRetrain p) fun d => d.when (d.hostReady && d.spanPresent) fun d => d.spanRetrain p.val

/-- SPAN_MESSAGE_ARRIVAL (R280, R281). -/
def execSpanMessageArrival (p : PortNo) (channel : Byte) (bytes : List Byte) (s : State) : Result State :=
  s.always fun d => d.spanArrival p.val channel.toNat bytes

/-- SPAN_TREE_ROUND (R284). -/
def execSpanTreeRound (turn : TreeTurn) (s : State) : Result State := s.always fun d => d.treeTurn turn

/-- SPAN_TIMEOUT (R285): a region fault of the operation's region. -/
def execSpanTimeout (r : Region) (b : Blk) (pos : Fin 32) (s : State) : Result State :=
  s.always fun d => d.when (d.spanTimed (blkNo r b) pos.val) fun d => d.regionFault r.val codeSpanTimeout 6

end Sys2Proof.Machine
end

