-- ==== Sys2Proof/Machine/Serve.lean ====
section
/-! DEFINITION. The request table, its commands, delivery, parking and the customers (08_serving), and the records that
accepted commands put on the mirror stream (R293). -/

namespace Sys2Proof.Machine
open Sys2Proof

/-! ### Fields of an entry (Tables 1 to 7) -/

def Req.draftMax (x : Req) : Nat := fieldAt x.cfg.toNat 28 4
def Req.domain (x : Req) : Nat := fieldAt x.cfg.toNat 24 4
def Req.bundle (x : Req) : Nat := fieldAt x.cfg.toNat 16 8
def Req.prio (x : Req) : Nat := fieldAt x.cfg.toNat 10 3
def Req.customer (x : Req) : Nat := fieldAt x.cfg.toNat 0 10
def Req.prompt (x : Req) : Nat := fieldAt x.promptBase.toNat 0 48
def Req.pages (x : Req) : Nat := fieldAt x.pageList.toNat 0 48
def Req.outAddr (x : Req) : Nat := fieldAt x.outBase.toNat 0 48
def Req.outLog (x : Req) : Nat := fieldAt x.outBase.toNat 48 4
def Req.ttl (x : Req) : Nat := fieldAt x.limits.toNat 16 16
def Req.deadline (x : Req) : Nat := fieldAt x.limits.toNat 0 16
/-- pos(r): prompt and generated tokens (R227). -/
def Req.pos (x : Req) : Nat := x.promptLen.toNat + x.genLen.toNat
/-- Free slots of the output ring (R221). -/
def Req.ringFree (x : Req) : Nat := 2 ^ x.outLog - (x.outWrite - x.outRead).toNat
/-- `REQ_ELAPSED` at keep-clock time `now` (R232). -/
def Req.elapsed (x : Req) (now : Nat) : Nat :=
  match x.since with
  | some t => min (now - t) 0xFFFFFFFF
  | none => 0

/-- Codes of the states (Table 10). -/
def stateCode (s : ReqState) : Nat :=
  match s with
  | .free => 0
  | .queued => 1
  | .prefill => 2
  | .active => 3
  | .parking => 4
  | .parked => 5
  | .resuming => 6
  | .complete => 7
  | .cancelled => 8
  | .parkExpired => 9

/-- The state has ended (R216, R219). -/
def ReqState.ended (s : ReqState) : Bool := s = .complete || s = .cancelled || s = .parkExpired

/-- `REQ_CTL` (Table 2). -/
def Req.ctl (x : Req) : Word :=
  BitVec.ofNat 32 (atBit (boolBit (x.cmd != 0)) 27 + atBit (boolBit x.refused) 26 + atBit x.refuseCode 22 +
    atBit (boolBit x.ringFull) 14 + atBit (boolBit x.needPages) 13 + atBit (boolBit x.needBudget) 12 +
    atBit (boolBit x.missed) 11 + atBit (boolBit x.maxlen) 10 + atBit (boolBit x.eos) 9 +
    atBit (boolBit x.cancelLate) 8 + stateCode x.state)

/-- `REQ_SPEC` (Table 7). -/
def Req.spec (x : Req) : Word :=
  BitVec.ofNat 32 (atBit x.lastStep.toNat 16 + atBit x.probeCnt 8 + atBit x.zeroRun 4 + x.draftLen)

/-- The sixteen words of an entry, as a read gives them (Table 1). -/
def Dev.reqWords (d : Dev) (i : Nat) : List Word :=
  let x := d.req i
  let half := fun (v : BitVec 64) (k : Nat) => BitVec.ofNat 32 (fieldAt v.toNat (32 * k) 32)
  [x.ctl, x.cfg, half x.promptBase 0, half x.promptBase 1, half x.pageList 0, half x.pageList 1, half x.outBase 0,
    half x.outBase 1, x.promptLen, x.maxLen, x.genLen, x.promptDone, x.limits,
    BitVec.ofNat 32 (atBit x.outWrite.toNat 16 + x.outRead.toNat), BitVec.ofNat 32 (x.elapsed d.now), x.spec]

/-! ### Changes of an entry (R219) -/

/-- The entry's bit in `SERVE_CHANGED`, and the domain's serving event. -/
def Dev.changed (d : Dev) (i : Nat) : Dev :=
  let d1 := { d with serve.changed := Tab.write (fun _ => false) d.serve.changed i true }
  if (d.req i).domain < 12 then d1.raise (64 + (d.req i).domain) else d1

/-- The state of an entry becomes `st`; an entry that is FREE or PARKED no longer counts as promoted (R456). -/
def Dev.setState (d : Dev) (i : Nat) (st : ReqState) : Dev :=
  (d.modReq i (fun x => { x with state := st, promoted := x.promoted && st != .free && st != .parked })).changed i

/-- The domain composes again when it is idle (R223). -/
def Dev.kick (d : Dev) (n : Nat) : Dev := if n < 12 then d.modDom n (fun x => { x with wantCompose := true }) else d

/-- The step holds the request. -/
def Step.holds (s : Step) (i : Nat) : Bool :=
  s.placed.any (fun p => decide (p.req = i)) || s.chunks.any (fun c => decide (c.req = i))

/-- The request is in a step in flight, or in a suspended one (R237, R252). -/
def Dev.inStep (d : Dev) (i : Nat) : Bool :=
  let x := d.dom (d.req i).domain
  (match x.step with
   | some s => s.holds i
   | none => false) || x.susp.any (fun u => u.step.holds i)

/-! ### Customers (R231, R238) -/

/-- Offsets of the registers of customer `c`. -/
def custAt (c : Nat) : Nat := 0x440000 + 64 * c
def custWaitAt (c : Nat) : Nat := custAt c + 0x10
def custPreemptAt (c : Nat) : Nat := custAt c + 0x18
def custTokensAt (c : Nat) : Nat := custAt c + 0x20
def custFallbackAt (c : Nat) : Nat := custAt c + 0x28
def custMissAt (c : Nat) : Nat := custAt c + 0x30

/-- A credit of `n`: AVAILABLE holds at its greatest value, and SAT sets (R231, R448). -/
def Dev.credit (d : Dev) (c n : Nat) : Dev :=
  let x := d.cust c
  let sum := x.available + n
  let d1 := d.setCust c { x with available := min sum 0xFFFFFFFF, sat := x.sat || decide (0xFFFFFFFF < sum) }
  if 0xFFFFFFFF < sum && !x.sat then d1.saturated (custAt c) else d1

/-- Reserve `n` tokens of a customer; release a reservation. -/
def Dev.reserve (d : Dev) (c n : Nat) : Dev :=
  d.modCust c (fun x => { x with available := x.available - n, reserved := x.reserved + n })
def Dev.unreserve (d : Dev) (c n : Nat) : Dev :=
  (d.modCust c (fun x => { x with reserved := x.reserved - n })).credit c n

/-! ### Twin records (R292, R293) -/

/-- The domain has an outgoing mirror area. -/
def Dev.mirrored (d : Dev) (n : Nat) : Bool := d.img.str.areas.any (fun a => a.outMirror && decide (a.domain = n))

/-- A record enters the mirror stream while the devices are attached. -/
def Dev.record (d : Dev) (step : BitVec 16) (n : Nat) (command : Bool) (parts : List TwinPart) : Dev :=
  if d.twin.st = 2 && d.mirrored n then
    { d.mirrorQueued (.record d.twin.nextSeq step (BitVec.ofNat 4 n) command parts) with
        twin.nextSeq := d.twin.nextSeq + 1 }
  else d

/-- The record of an accepted command of request `i`. -/
def Dev.commandRecord (d : Dev) (i : Nat) : Dev :=
  let n := (d.req i).domain
  d.record (d.stepShown n) n true [⟨i, d.reqWords i, List.replicate 16 0⟩]

/-! ### Pages of a request (R174, R175, R220) -/

/-- The bundle that a request names, when it is resident. -/
def Dev.bundleOf (d : Dev) (n b : Nat) : Option Bundle :=
  ((d.dom n).resident.find? (fun e => decide (e.1 = b))).map (·.2)

/-- D × e of a page shape, and positions per page (Table 2 of 06). -/
def shapeBytes (s : Nat) : Nat := 64 * 2 ^ (s % 4) * (if bitAt s 2 then 1 else 2)
def shapePositions (s : Nat) : Nat := 64 * (2048 / shapeBytes s)

/-- The serving engine's slices read and write the bundle's areas; a fault names the domain's lowest region. -/
def Dev.sliceWho (d : Dev) (n : Nat) : Who := ⟨.tensor, .stream, false, (d.regionsOf n).headD 0, 6⟩

/-- The first identifier of group `g` of a page list is filled; a group beyond present memory is not. -/
def Dev.groupFilled (d : Dev) (w : Who) (list ids g : Nat) : Acc (Dev × Bool) :=
  match d.load w (list + 4 * ids * g) 4 with
  | .error .unmapped => .ok (d, false)
  | .error e => .error e
  | .ok (d1, bs) => .ok (d1, decide (ofBytes bs ≠ 0xFFFFFFFF))

/-- The number of filled groups from group `g` on, at most `fuel` of them. -/
def Dev.filledFrom (d : Dev) (w : Who) (list ids g : Nat) : Nat → Acc (Dev × Nat)
  | 0 => .ok (d, 0)
  | fuel + 1 =>
    match d.groupFilled w list ids g with
    | .error e => .error e
    | .ok (d1, false) => .ok (d1, 0)
    | .ok (d1, true) =>
      match d1.filledFrom w list ids (g + 1) fuel with
      | .error e => .error e
      | .ok (d2, k) => .ok (d2, k + 1)

/-- Filled groups of a request, of the first `groups`. -/
def Dev.filledGroups (d : Dev) (x : Req) (b : Bundle) (groups : Nat) : Acc (Dev × Nat) :=
  Acc.andThen (d.filledFrom (d.sliceWho x.domain) x.pages b.idsPerGroup 0 groups) fun p =>
    .ok (p.1.unserve (d.sliceWho x.domain).party, p.2)

/-! ### The park pool (R235, R321) -/

/-- Granules that a page takes. -/
def granulesPer (shape : Nat) : Nat := if bitAt shape 2 then 2 else 1

/-- Free granules, lowest first. -/
def Dev.freeGranules (d : Dev) : List Nat :=
  (List.range d.img.str.parkTotal).filter (fun g => !d.serve.granulesUsed.contains g && !d.serve.granulesGone.contains g)

/-- The granules of a request return to the pool. -/
def Dev.dropGranules (d : Dev) (i : Nat) : Dev :=
  let gs := (d.req i).granules
  ({ d with serve.granulesUsed := d.serve.granulesUsed.filter (fun g => !gs.contains g) }).modReq i
    (fun x => { x with granules := [] })

/-- The address of granule `g`: areas in order, stacks rising, bands rising (R340; log 21). -/
def granuleAddr (as : List Area) (g : Nat) : Option Nat :=
  match as with
  | [] => none
  | a :: r =>
    if g < areaGranules a then
      let st := ((List.range 24).filter (fun s => a.onStacks.getLsbD s)).getD (g / (32 * a.count)) 0
      some (st * stackSpan + (a.first + g / 32 % a.count) * 2 ^ 22 + g % 32 * 131072)
    else granuleAddr r (g - areaGranules a)

/-- A run of 2,048 bytes of a page: share `h`, its key row or its value row (R175). -/
def pageRun (id h : Nat) (value : Bool) : Nat :=
  bankViewBase + fieldAt id 19 5 * stackSpan + h % 16 * 2 ^ 33 + (2 * (4 * fieldAt id 1 4 + h / 16) + fieldAt id 0 1) * 2 ^ 26 +
    (2 * fieldAt id 5 14 + boolBit value) * 2 ^ 11

/-- The runs of a page in the order in which the park pool keeps them: shares rising, keys before values (log 30). -/
def pageRuns (id : Nat) : List Nat := (List.range 64).flatMap (fun h => [pageRun id h false, pageRun id h true])

/-- The copy engine of the region that holds a page. -/
def copyWho (id : Nat) : Who := ⟨.tensor, .stream, true, fieldAt id 19 5 / 2, 6⟩

/-- The bytes at addresses, 2,048 each; what does not decode is not stated (log 7). -/
def Dev.loadRuns (d : Dev) (w : Who) (as : List Nat) : Acc (Dev × List Byte) :=
  match as with
  | [] => .ok (d.unserve w.party, [])
  | a :: r =>
    match d.load w a 2048 with
    | .error .unmapped =>
      match d.loadRuns w r with
      | .error e => .error e
      | .ok (d2, cs) => .ok (d2, (List.range 2048).map (Config.freeByte d.free) ++ cs)
    | .error e => .error e
    | .ok (d1, bs) =>
      match d1.loadRuns w r with
      | .error e => .error e
      | .ok (d2, cs) => .ok (d2, bs ++ cs)

/-- Bytes cut into `k` parts of `n`. -/
def cutInto (n : Nat) (bs : List Byte) : Nat → List (List Byte)
  | 0 => []
  | k + 1 => bs.take n :: cutInto n (bs.drop n) k

/-- The stripes of a page whose runs hold these bytes: for each quarter of its shares, its keys and its values, the 64
stripes of a row (R175, R176). -/
def pageStripes (id : Nat) (bs : List Byte) : List (Nat × List (List Byte)) :=
  let runs := (cutInto 2048 bs 128).map (fun r => cutInto 32 r 64)
  (List.range 8).flatMap (fun k => (List.range 64).map (fun c =>
    (pageRun id (16 * (k / 2)) (decide (k % 2 = 1)) + 32 * c,
     (List.range 16).map (fun i => (runs.getD (2 * (16 * (k / 2) + i) + k % 2) []).getD c []))))

/-- The address decodes to present memory. -/
def Dev.decodes (d : Dev) (a : Nat) : Bool :=
  match d.decodeAddr a with
  | .at _ => true
  | _ => false

/-- A page written as whole stripes (R235); what does not decode is not written (log 7). -/
def Dev.storePage (d : Dev) (w : Who) (id : Nat) (bs : List Byte) : Acc Dev :=
  Acc.andThen (d.writeStripes w ((pageStripes id bs).filter (fun s => d.decodes s.1))) fun d1 => .ok (d1.unserve w.party)

/-- BF16 bytes rounded to FP8_E4M3 with SAT set, and FP8_E4M3 bytes widened to BF16 (R52, R235). -/
def packBytes (bs : List Byte) : List Byte :=
  (List.range (bs.length / 2)).map (fun j => BitVec.ofNat 8 ((decodeElem 1 (fieldOf bs (2 * j) 2)).toType 3 true))
def widenBytes (bs : List Byte) : List Byte :=
  bs.flatMap (fun b => bytesOf ((decodeElem 3 b.toNat).toType 1 true) 2)

/-- The identifiers of the first `groups` groups of a page list, in order. -/
def Dev.pageIds (d : Dev) (x : Req) (b : Bundle) (groups : Nat) : Acc (Dev × List Nat) :=
  match d.load (d.sliceWho x.domain) x.pages (4 * b.idsPerGroup * groups) with
  | .error e => .error e
  | .ok (d1, bs) => .ok (d1.unserve (d.sliceWho x.domain).party,
      (List.range (b.idsPerGroup * groups)).map (fun j => fieldOf bs (4 * j) 4))

/-- The copy engine of the region that holds the granule at an address. -/
def granuleWho (a : Nat) : Who := copyWho (fieldAt a 37 5 * 2 ^ 19)

/-- Store a packed page into its granules, 128 KiB each. -/
def Dev.storeGranules (d : Dev) (gs : List Nat) (bs : List Byte) : Acc Dev :=
  match gs with
  | [] => .ok d
  | g :: r =>
    match granuleAddr d.parkAreas g with
    | none => d.storeGranules r (bs.drop 131072)
    | some a =>
      match d.store (granuleWho a) a (bs.take 131072) with
      | .error e => .error e
      | .ok d1 => (d1.unserve (granuleWho a).party).storeGranules r (bs.drop 131072)

/-- The bytes of granules. -/
def Dev.loadGranules (d : Dev) (gs : List Nat) : Acc (Dev × List Byte) :=
  match gs with
  | [] => .ok (d, [])
  | g :: r =>
    match granuleAddr d.parkAreas g with
    | none => d.loadGranules r
    | some a =>
      match d.load (granuleWho a) a 131072 with
      | .error e => .error e
      | .ok (d1, bs) =>
        match (d1.unserve (granuleWho a).party).loadGranules r with
        | .error e => .error e
        | .ok (d2, cs) => .ok (d2, bs ++ cs)

/-- One page packed into the first of the granules. -/
def Dev.packPage (d : Dev) (shape id : Nat) (gs : List Nat) : Acc Dev :=
  Acc.andThen (d.loadRuns (copyWho id) (pageRuns id)) fun p =>
    p.1.storeGranules gs (if bitAt shape 2 then p.2 else packBytes p.2)

/-- One page expanded from its granules. -/
def Dev.expandPage (d : Dev) (shape id : Nat) (gs : List Nat) : Acc Dev :=
  Acc.andThen (d.loadGranules gs) fun p =>
    p.1.storePage (copyWho id) id (if bitAt shape 2 then p.2 else widenBytes p.2)

/-- Pages packed into their granules, or expanded from them, one after another. -/
def Dev.copyPages (d : Dev) (expand : Bool) (shape : Nat) (ps : List (Nat × List Nat)) : Acc Dev :=
  match ps with
  | [] => .ok d
  | (id, gs) :: r =>
    Acc.andThen (if expand then d.expandPage shape id gs else d.packPage shape id gs) fun d1 =>
      d1.copyPages expand shape r

/-- Each page with its granules. -/
def pagePlaces (per : Nat) (ids gs : List Nat) : List (Nat × List Nat) :=
  (List.range ids.length).map (fun j => (ids.getD j 0, (gs.drop (per * j)).take per))

/-- Groups of a request whose pages a copy takes: those that its granules hold, and under RESUME those of its committed
positions. -/
def Req.copiedGroups (x : Req) (b : Bundle) (expand : Bool) : Nat :=
  let held := x.granules.length / (max 1 (b.idsPerGroup * granulesPer b.pageShape))
  if expand then min held (ceilDiv x.pos (shapePositions b.pageShape)) else held

/-- The copy of a request in PARKING or RESUMING (R235); `chosen`: the pages that it takes, by place. -/
def Dev.copyRequest (d : Dev) (x : Req) (b : Bundle) (chosen : Nat → Bool) : Acc Dev :=
  let expand := decide (x.state = .resuming)
  Acc.andThen (d.pageIds x b (x.copiedGroups b expand)) fun p =>
    let ps := pagePlaces (granulesPer b.pageShape) p.2 x.granules
    p.1.copyPages expand b.pageShape (((List.range ps.length).filter chosen).map (fun j => ps.getD j (0, [])))

/-- A CANCEL stops the copy of a request in PARKING or RESUMING at the next page: which pages have been copied is not
stated (R236; log 103). -/
def Dev.partCopied (d : Dev) (i : Nat) : Dev :=
  let x := d.req i
  if x.state = .parking || x.state = .resuming then
    match d.bundleOf x.domain x.bundle with
    | none => d
    | some b =>
      match d.drawn.copyRequest x b (Config.freeBit d.free) with
      | .ok d1 => d1
      | .error _ => d.drawn
  else d

/-! ### Held requests (R226, R229) -/

/-- A request that may be placed: its bundle, the first position of its first unfilled group, as far as it matters, and
the conditions that hold it. -/
structure Elig where
  i : Nat
  x : Req
  b : Bundle
  chunk : Bool
  covered : Nat
  budget : Bool
  ring : Bool
  pages : Bool
  deriving DecidableEq, Repr

/-- Tokens of the next chunk (R229). -/
def Req.chunkLen (x : Req) : Nat := min 512 (x.promptLen.toNat - x.promptDone.toNat)
/-- The next chunk ends the prompt. -/
def Req.chunkLast (x : Req) : Bool := decide (x.promptDone.toNat + x.chunkLen = x.promptLen.toNat)
/-- Chunk-ready by state (R226). -/
def Req.chunkReady (x : Req) : Bool :=
  (x.state = .queued || x.state = .prefill) && decide (x.promptDone.toNat < x.promptLen.toNat)

/-- No condition of R226 holds the request. -/
def Elig.free (e : Elig) : Bool := !e.budget && !e.ring && !e.pages && e.x.delivery.isEmpty

/-- The request as composition sees it; none: it cannot be placed at all. -/
def Dev.eligible (d : Dev) (i : Nat) : Acc (Dev × Option Elig) :=
  let x := d.req i
  match d.bundleOf x.domain x.bundle with
  | none => .ok (d, none)
  | some b =>
    if (x.state = .active || x.chunkReady) && !d.inStep i then
      let p := shapePositions b.pageShape
      let hi := if x.chunkReady then x.promptDone.toNat + x.chunkLen - 1 else x.pos - 1
      match d.filledGroups x b ((hi + 9) / p + 1) with
      | .error e => .error e
      | .ok (d1, k) =>
        let pays := !x.chunkReady || x.chunkLast
        .ok (d1, some ⟨i, x, b, x.chunkReady, k * p, pays && (d.cust x.customer).available == 0,
          pays && x.ringFree == 0, decide (k * p ≤ hi)⟩)
    else .ok (d, none)

/-- The requests of a list as composition sees them. -/
def Dev.eligibles (d : Dev) (is : List Nat) : Acc (Dev × List Elig) :=
  match is with
  | [] => .ok (d, [])
  | i :: r =>
    match d.eligible i with
    | .error e => .error e
    | .ok (d1, e) =>
      match d1.eligibles r with
      | .error x => .error x
      | .ok (d2, l) => .ok (d2, e.toList ++ l)

/-- Entries of domain `n` that are not FREE, in increasing order. -/
def Dev.reqsOf (d : Dev) (n : Nat) : List Nat :=
  (d.serve.reqs.filter (fun e => decide (e.2.state ≠ .free) && decide (e.2.domain = n))).map (·.1)

/-! ### Pre-emption (R244) -/

/-- The engine pre-empts the step in flight: the blocks stop issuing. -/
def Dev.preempt (d : Dev) (n : Nat) : Dev :=
  d.modDom n (fun x => { x with
    act := .suspending
    susp := match x.step with
      | some s => ⟨s, s.prio, true, d.now, [], []⟩ :: x.susp
      | none => x.susp })

/-- The domain's step in flight may be pre-empted: pre-emption is enabled, the step runs, and nothing has stopped the domain
(R244, R252, R438). -/
def Dev.mayPreempt (d : Dev) (n : Nat) : Bool :=
  let x := d.dom n
  x.preemptEn && x.act = .running && !x.stopped && !x.wedged && d.chip.state = .ready

/-- The condition of R244, evaluated when it can become true; it is evaluated again in each cycle while a page list cannot be
read (log 116). -/
def Dev.tryPreempt (d : Dev) (n : Nat) : Dev :=
  let x := d.dom n
  match x.step with
  | none => d
  | some s =>
    if !d.mayPreempt n then d
    else
      match d.eligibles (d.reqsOf n) with
      | .error e => (d.stopped (d.sliceWho n) false e).modDom n (fun y => { y with judge := true })
      | .ok (d1, l) =>
        let d2 := d1.modDom n (fun y => { y with judge := false })
        if l.any (fun e => e.free && s.prio < e.x.prio && x.minPrio ≤ e.x.prio) then d2.preempt n else d2

/-- Conditions whose evaluation met a wait are evaluated again. -/
def Dev.judgeAgain (d : Dev) : Dev :=
  ((d.doms.filter (fun e => e.2.judge)).map (·.1)).foldl (fun a n =>
    (a.modDom n (fun y => { y with judge := false })).tryPreempt n) d

/-- A change that may let the idle domain compose, or pre-empt its step. -/
def Dev.prompt (d : Dev) (n : Nat) : Dev := (d.kick n).tryPreempt n

/-! ### Commands (R217, R218) -/

/-- A command is refused. -/
def Dev.refuse (d : Dev) (i code : Nat) : Dev :=
  (d.modReq i (fun x => { x with refused := true, refuseCode := code })).changed i

/-- The pending command has been taken. -/
def Dev.taken (d : Dev) (i : Nat) : Dev := d.modReq i (fun x => { x with cmd := 0 })

/-- An address of Table 9: aligned, and `len` bytes of present memory. -/
def Dev.addrOk (d : Dev) (a len : Nat) : Bool := a % 4 = 0 && d.rangeOk a len

/-- The first failing check of SUBMIT (Table 9); 0: none. DESIGN CHOICE (log 115): BAD_ADDRESS judges the whole prompt, the whole
output ring and the first identifier of the page list. -/
def Dev.submitCode (d : Dev) (x : Req) : Nat :=
  if x.state ≠ .free then 2
  else if d.img.str.customers ≤ x.customer then 3
  else if (d.domEnt x.domain).isNone then 4
  else if (d.bundleOf x.domain x.bundle).isNone then 5
  else if x.promptLen = 0 || x.maxLen.toNat ≤ x.promptLen.toNat || 8 < x.draftMax then 6
  else if x.outLog < 4 || !d.addrOk x.prompt (4 * x.promptLen.toNat) || !d.addrOk x.pages 4 ||
      !d.addrOk x.outAddr (4 * 2 ^ x.outLog) then 7
  else 0

/-- The entry as an accepted SUBMIT leaves it (R218). -/
def Req.submitted (x : Req) (now order : Nat) : Req :=
  { x with genLen := 0, promptDone := 0, zeroRun := 0, probeCnt := 0, since := some now, draftLen := x.draftMax,
           outWrite := x.outRead, order := order, cancelAt := false, parkAt := false, lastToken := 0 }

/-- After an accepted command: its record, and composition or pre-emption. -/
def Dev.accepted (d : Dev) (i : Nat) : Dev := (d.commandRecord i).prompt (d.req i).domain

/-- SUBMIT. -/
def Dev.submit (d : Dev) (i : Nat) : Dev :=
  let d1 := d.taken i
  match d.submitCode (d.req i) with
  | 0 =>
    let d2 := { d1.modReq i (fun x => x.submitted d.now d.serve.orders) with serve.orders := d.serve.orders + 1 }
    (d2.setState i .queued).accepted i
  | code => d1.refuse i code

/-- CANCEL (Table 16). -/
def Dev.cancel (d : Dev) (i : Nat) : Dev :=
  let d1 := d.taken i
  match (d.req i).state with
  | .free => d1.refuse i 2
  | .complete => ((d1.modReq i (fun x => { x with cancelLate := true })).changed i).accepted i
  | .cancelled | .parkExpired => d1.accepted i
  | _ =>
    if d.inStep i || (d.req i).ackWait then (d1.modReq i (fun x => { x with cancelAt := true })).accepted i
    else ((((d1.partCopied i).dropGranules i).modReq i (fun x => { x with parkAt := false })).setState i .cancelled).accepted i

/-- Groups that a request of at most `REQ_MAX_LEN` positions can have. -/
def Req.groupsMax (x : Req) (b : Bundle) : Nat := ceilDiv x.maxLen.toNat (shapePositions b.pageShape)

/-- The regions to which the copy of a request falls: those whose stacks hold the pages that it takes (R235). -/
def Dev.copyRegions (d : Dev) (x : Req) (b : Bundle) : Acc (Dev × List Nat) :=
  Acc.andThen (d.pageIds x b (x.copiedGroups b (decide (x.state = .resuming)))) fun p =>
    .ok (p.1, ((p.2.map (fun id => fieldAt id 19 5 / 2)).filter d.regionPresent).eraseDups)

/-- The copy of request `i` falls to the regions `rs`, which wake with their stacks (R235, Table 5 of 16). -/
def Dev.copyFalls (d : Dev) (i : Nat) (rs : List Nat) : Dev :=
  rs.foldl Dev.wakeUnit (d.modReq i (fun x => { x with copyOn := rs }))

/-- A park or resume copy begins: the regions that hold the pages wake. While its page list cannot be read, the copy counts as
one of every region of the domain (log 117). -/
def Dev.parkStarts (d : Dev) (i : Nat) (st : ReqState) : Dev :=
  let d1 := d.setState i st
  let x := d1.req i
  match (d.bundleOf x.domain x.bundle).map (d1.copyRegions x) with
  | some (.ok p) => p.1.copyFalls i p.2
  | _ => d1.modReq i (fun y => { y with copyOn := d.regionsOf x.domain })

/-- PARK (R235): granules are reserved for the filled groups; those of a PARK that has not yet taken effect return first. -/
def Dev.park (d : Dev) (i : Nat) : Dev :=
  let x := d.req i
  let d1 := d.taken i
  if x.state ≠ .active then d1.refuse i 2
  else
    match d.bundleOf x.domain x.bundle with
    | none => d1.refuse i 2
    | some b =>
      match d1.filledGroups x b (x.groupsMax b) with
      | .error e => d.stopped (d.sliceWho x.domain) false e
      | .ok (d2, k) =>
        let need := k * b.idsPerGroup * granulesPer b.pageShape
        let d0 := d2.dropGranules i
        if d0.freeGranules.length < need then d2.refuse i 8
        else
          let gs := d0.freeGranules.take need
          let d3 := { d0 with serve.granulesUsed := gs.foldl (fun l g => insertNat g l) d0.serve.granulesUsed }.modReq i
            (fun y => { y with granules := gs })
          if d.inStep i || x.ackWait then (d3.modReq i (fun y => { y with parkAt := true })).accepted i
          else (d3.parkStarts i .parking).accepted i

/-- RESUME (R235): the page list covers the committed positions. -/
def Dev.resumeReq (d : Dev) (i : Nat) : Dev :=
  let x := d.req i
  let d1 := d.taken i
  if x.state ≠ .parked then d1.refuse i 2
  else
    match d.bundleOf x.domain x.bundle with
    | none => d1.refuse i 2
    | some b =>
      let p := shapePositions b.pageShape
      match d1.filledGroups x b (ceilDiv x.pos p) with
      | .error e => d.stopped (d.sliceWho x.domain) false e
      | .ok (d2, k) => if k * p < x.pos then d2.refuse i 9 else (d2.parkStarts i .resuming).accepted i

/-- RELEASE: the entry is FREE and all its flags clear (Table 8). -/
def Dev.releaseReq (d : Dev) (i : Nat) : Dev :=
  let d1 := d.taken i
  if !(d.req i).state.ended then d1.refuse i 2
  else
    ((d1.modReq i (fun x => { x with
      refused := false, ringFull := false, needPages := false, needBudget := false, missed := false, maxlen := false,
      eos := false, cancelLate := false })).setState i .free).accepted i

/-! ### Delivery (R221, R233) -/

/-- The engine that delivers tokens. -/
def deliverWho : Who := ⟨.host, .stream, true, 0, 13⟩

/-- Write tokens into an output ring from index `k` on. -/
def Dev.putTokens (d : Dev) (x : Req) (k : BitVec 16) (ts : List Word) : Acc Dev :=
  match ts with
  | [] => .ok (d.unserve deliverWho.party)
  | t :: r =>
    match d.store deliverWho (x.outAddr + 4 * (k.toNat % 2 ^ x.outLog)) (bytesOf t.toNat 4) with
    | .error e => .error e
    | .ok d1 => d1.putTokens x (k + 1) r

/-- A PARK that waited for the commit takes effect after the delivery (R235). -/
def Dev.parkDue (d : Dev) (i : Nat) : Dev :=
  let x := d.req i
  if !x.parkAt then d
  else
    let d1 := d.modReq i (fun y => { y with parkAt := false })
    if x.state = .active then d1.parkStarts i .parking else d1.dropGranules i

/-- A CANCEL, or a PARK, that waited for the delivery takes effect (R235, R294). -/
def Dev.commandDue (d : Dev) (i : Nat) : Dev :=
  if (d.req i).cancelAt && !d.inStep i then
    ((d.dropGranules i).modReq i (fun y => { y with cancelAt := false, parkAt := false })).setState i .cancelled
  else d.parkDue i

/-- Steps under mirrored commit that are acknowledged and whose deliveries are complete: their wait is over, and
`TWIN_ACK_TIME` records the last (R294). -/
def Dev.settleAcks (d : Dev) : Dev :=
  let settled := fun (a : Ack) => a.acked && a.reqs.isEmpty
  match d.twin.acks.find? settled with
  | none => d
  | some a => { d with twin.acks := d.twin.acks.filter (fun x => !settled x), twin.ackTime := d.now - a.since }

/-- The step no longer waits for the delivery to request `i`. -/
def Ack.served (a : Ack) (i : Nat) : Ack := { a with reqs := a.reqs.filter (fun j => decide (j ≠ i)) }

/-- The delivery to request `i` is complete: it holds no step's boundary any more (R294). -/
def Dev.ackServed (d : Dev) (i : Nat) : Dev :=
  ({ d with twin.acks := d.twin.acks.map (Ack.served · i) }).settleAcks

/-- The delivery is complete: OUT_WRITE, the deadline of the last composition (R216), the counters. -/
def Dev.delivered (d : Dev) (i : Nat) : Dev :=
  let x := d.req i
  let n := x.delivery.length
  let miss := x.judged ≠ 0 && 25 * x.judged < x.elapsed d.now
  let d1 := (d.modReq i (fun y => { y with
    outWrite := y.outWrite + BitVec.ofNat 16 n, delivery := [], waited := false, missed := y.missed || miss, since := some d.now })).bumpBy
      (custTokensAt x.customer) n
  let d2 := if miss then d1.bump (custMissAt x.customer) else d1
  (((d2.changed i).ackServed i).commandDue i).prompt x.domain

/-- TOKEN_DELIVERY; it waits for the twin's acknowledgement (R294) and for a pennant (R369). -/
def Dev.deliver (d : Dev) (i : Nat) : Dev :=
  let x := d.req i
  if x.delivery.isEmpty || x.ackWait then d
  else
    match d.putTokens x x.outWrite x.delivery with
    | .ok d1 => d1.delivered i
    | .error (.page p) => (d.pennantWait p x.waited).modReq i (fun y => { y with waited := true })
    | .error .unmapped => d.delivered i
    | .error (.lost st p) => (d.hostLost st p).delivered i
    | .error e => d.stopped deliverWho false e

/-! ### Copies of the park pool (R235) -/

/-- The state-movement engine of region `r` serves a bundle switch, a save or a restore, which come first (R20). -/
def Dev.stateMoves (d : Dev) (r : Nat) : Bool :=
  match d.domainOf r with
  | some n => [Activity.switching, .saving, .restoring].contains (d.dom n).act
  | none => false

/-- The copy of request `i` with the effect `f` at its end: the regions to which it falls must be awake, and their
state-movement engines free of saves and restores (R20, R235, R408). -/
def Dev.copyWith (d : Dev) (i : Nat) (f : Dev → Dev) : Dev :=
  let x := d.req i
  match d.bundleOf x.domain x.bundle with
  | none => d
  | some b =>
    match d.copyRegions x b with
    | .error e => d.stopped (d.sliceWho x.domain) false e
    | .ok (d1, rs) =>
      if !rs.all d1.unitAwake then d1.copyFalls i rs
      else if rs.any d1.stateMoves then d
      else
        match d1.copyRequest x b (fun _ => true) with
        | .error e => d.stopped (d.sliceWho x.domain) false e
        | .ok d2 => f (d2.modReq i (fun y => { y with since := some d.now, copyOn := [] }))

/-- PACKING_DONE: the pages of the filled groups have been packed. -/
def Dev.packed (d : Dev) (i : Nat) : Dev := d.copyWith i (fun d2 => d2.drawn.setState i .parked)

/-- EXPANSION_DONE: the pages have been expanded, and the granules are free. -/
def Dev.expanded (d : Dev) (i : Nat) : Dev :=
  d.copyWith i (fun d2 => ((d2.dropGranules i).setState i .active).prompt (d.req i).domain)

/-- PARK_TTL_EXPIRE, once `REQ_ELAPSED` has reached 25,000 times PARK_TTL. -/
def Dev.parkExpire (d : Dev) (i : Nat) : Dev :=
  if (d.req i).state = .parked && (d.req i).ttl ≠ 0 && 25000 * (d.req i).ttl ≤ (d.req i).elapsed d.now then
    (d.dropGranules i).setState i .parkExpired
  else d

/-! ### Meanings -/

/-- The serving engine acts: in READY, with the reference present; a chip fault stops it with every domain (R437, R438). -/
def Dev.engineRuns (d : Dev) : Bool := decide (d.chip.state = .ready) && !d.clk.coast

/-- The entry's pending command has the code. -/
def Dev.commanded (d : Dev) (i code : Nat) : Bool := d.engineRuns && decide ((d.req i).cmd = code)

/-- A word of entry `i` of the request table, or of its customer's registers, fails its replays (R445). -/
def Dev.reqBad (d : Dev) (i : Nat) : Bool :=
  d.badTables.any (fun o => o / 64 == 0x10000 + i || o / 64 == 0x11000 + (d.req i).customer)

/-- The engine reads entry `i` and its customer, and goes on with `f` when their parity is right (R445). -/
def Dev.readReq (d : Dev) (i : Nat) (f : Dev → Dev) : Dev := if d.reqBad i then d.chipFault codeChipParity else f d

/-- SUBMIT (R218). -/
def execSubmit (i : ReqNo) (s : State) : Result State :=
  s.always fun d => d.when (d.commanded i.val 1) fun d => d.readReq i.val fun d => d.submit i.val

/-- CANCEL (R237). -/
def execCancel (i : ReqNo) (s : State) : Result State :=
  s.always fun d => d.when (d.commanded i.val 2) fun d => d.readReq i.val fun d => d.cancel i.val

/-- PARK (R235). -/
def execPark (i : ReqNo) (s : State) : Result State :=
  s.always fun d => d.when (d.commanded i.val 3) fun d => d.readReq i.val fun d => d.park i.val

/-- RESUME (R235). -/
def execResume (i : ReqNo) (s : State) : Result State :=
  s.always fun d => d.when (d.commanded i.val 4) fun d => d.readReq i.val fun d => d.resumeReq i.val

/-- RELEASE (Table 8). -/
def execRelease (i : ReqNo) (s : State) : Result State :=
  s.always fun d => d.when (d.commanded i.val 5) fun d => d.readReq i.val fun d => d.releaseReq i.val

/-- TOKEN_DELIVERY (R221). -/
def execTokenDelivery (i : ReqNo) (s : State) : Result State :=
  s.always fun d => d.when d.engineRuns fun d => d.readReq i.val fun d => d.deliver i.val

/-- PACKING_DONE (R235). -/
def execPackingDone (i : ReqNo) (s : State) : Result State :=
  s.always fun d => d.when (d.engineRuns && decide ((d.req i.val).state = .parking)) fun d => d.readReq i.val fun d => d.packed i.val

/-- EXPANSION_DONE (R235). -/
def execExpansionDone (i : ReqNo) (s : State) : Result State :=
  s.always fun d => d.when (d.engineRuns && decide ((d.req i.val).state = .resuming)) fun d => d.readReq i.val fun d => d.expanded i.val

/-- PARK_TTL_EXPIRE (R235). -/
def execParkTtlExpire (i : ReqNo) (s : State) : Result State :=
  s.always fun d => d.when d.engineRuns fun d => d.readReq i.val fun d => d.parkExpire i.val

/-- Every domain is prompted. -/
def Dev.promptAll (d : Dev) : Dev := (List.range 12).foldl Dev.prompt d

/-- A write of `CUST_CREDIT` of a customer of the image (R231). -/
def Dev.custCredit (d : Dev) (c n : Nat) : Dev :=
  if c < d.img.str.customers then (d.credit c n).promptAll else d

/-- A write of `SERVE_KICK` (R223). -/
def Dev.serveKick (d : Dev) (v : Nat) : Dev := (bitsOf v 12).foldl (fun a n => a.kick n) d

/-- CUST_CREDIT (R231). -/
def execCustCredit (c : CustNo) (n : Word) (s : State) : Result State :=
  s.hosted (.custCredit c n) fun d => d.when d.hostReady fun d => d.custCredit c.val n.toNat

/-- SERVE_KICK (R223). -/
def execServeKick (v : Word) (s : State) : Result State :=
  s.hosted (.serveKick v) fun d => d.when d.hostReady fun d => d.serveKick v.toNat

end Sys2Proof.Machine
end

