-- ==== Sys2Proof/Machine/Bundles.lean ====
section
/-! DEFINITION. Bundles (09_domains_preemption): descriptors, admission and retirement, live state, HOME areas and save
slots. -/

namespace Sys2Proof.Machine
open Sys2Proof

/-! ### The descriptor (Table 1) -/

/-- Bits that the descriptor of a domain with `m` regions uses in its word at byte 4 × `o`. -/
def descMask (m o : Nat) : Nat :=
  let full := 0xFFFFFFFF
  if o < 64 then
    match o with
    | 0 => full
    | 1 => 0x000F1FFF
    | 2 | 3 => full
    | 4 => full
    | 5 => 0xFF07FFFF
    | 6 => 0xFFFF
    | 7 => 0
    | 23 => 0xFFFF
    | 25 => 0x01FFFFFF
    | _ => if o ≤ 24 then full else 0
  else if o < 64 + 16 * m then
    match o % 16 with
    | 0 => 0x1F
    | 2 => full
    | 3 => 0xFFFF
    | 4 | 6 | 8 | 10 => full
    | 5 | 7 | 9 | 11 => 0xFFFF
    | _ => 0
  else 0

/-- A reserved bit of the descriptor is set. -/
def descReserved (bs : List Byte) (m : Nat) : Bool :=
  (List.range 256).any (fun o => outside (fieldOf bs (4 * o) 4) (descMask m o) 32)

/-- The fields of a descriptor for the regions `rs`. -/
def descOf (bs : List Byte) (rs : List Nat) : Bundle where
  num := fieldAt (fieldOf bs 4 4) 0 8
  domain := fieldAt (fieldOf bs 4 4) 8 4
  draft := bitAt (fieldOf bs 4 4) 12
  rangeHi := (List.range (fieldAt (fieldOf bs 4 4) 16 4 + 1)).map (fun j => fieldOf bs (8 + 2 * j) 2)
  mainEntry := fieldOf bs 0x10 2
  draftEntry := fieldOf bs 0x12 2
  fallbackEntry := fieldOf bs 0x14 2
  pageShape := fieldOf bs 0x16 1
  chunkMax := fieldOf bs 0x17 1
  idsPerGroup := fieldOf bs 0x18 2
  costMain := (List.range 4).map (fun j => fieldOf bs (0x20 + 4 * j) 4)
  costDraft := (List.range 4).map (fun j => fieldOf bs (0x30 + 4 * j) 4)
  costFallback := (List.range 4).map (fun j => fieldOf bs (0x40 + 4 * j) 4)
  costChunk := fieldOf bs 0x50 4
  stepTarget := fieldOf bs 0x54 4
  stepArea := fieldOf bs 0x58 6
  saveGran := fieldOf bs 0x60 4
  bbBase := fieldAt (fieldOf bs 0x64 4) 0 12
  bbSize := fieldAt (fieldOf bs 0x64 4) 12 13
  regions := (rs.zip (List.range rs.length)).map (fun x =>
    (x.1, fieldOf bs (0x108 + 64 * x.2) 6, (List.range 4).map (fun j => fieldOf bs (0x110 + 64 * x.2 + 8 * j) 6)))
  digest := []

/-- Strictly rising from above `lo`, ending at 256. -/
def rangesOk (l : List Nat) (lo : Nat) : Bool :=
  match l with
  | [] => false
  | [x] => decide (lo < x) && x == 256
  | x :: r => decide (lo < x) && rangesOk r x

/-- A field that breaks Table 2's BAD_FIELD. -/
def descBad (bs : List Byte) (rs : List Nat) : Bool :=
  let b := descOf bs rs
  let n := fieldAt (fieldOf bs 4 4) 16 4
  descReserved bs rs.length || 3 < n || !rangesOk b.rangeHi 0 ||
  (List.range 4).any (fun j => n < j && fieldOf bs (8 + 2 * j) 2 != 0) ||
  8192 ≤ b.mainEntry || 8192 ≤ b.draftEntry || 8192 ≤ b.fallbackEntry || b.pageShape % 4 = 3 ||
  b.chunkMax = 0 || 16 < b.chunkMax || b.bbBase < 4 || 4096 < b.bbBase + b.bbSize ||
  (rs.zip (List.range rs.length)).any (fun x => fieldOf bs (0x100 + 64 * x.2) 4 != x.1 + 16)

/-- A linear-view range of present memory. -/
def Dev.linearOk (d : Dev) (a len : Nat) : Bool := !bitAt a 46 && d.rangeOk a len

/-- STEP_AREA, a HOME or an IMAGE that is not in present memory (BAD_AREA). -/
def Dev.areaBad (d : Dev) (b : Bundle) : Bool :=
  b.stepArea % 0x8000 != 0 || !d.linearOk b.stepArea 0x8000 ||
    b.regions.any (fun r => !d.linearOk r.2.1 (4096 * b.saveGran) || r.2.2.any (fun a => !d.rangeOk a 64))

/-! ### Save slots (R247, R249) -/

/-- The save slot of region `r` at priority level `l`. -/
def Dev.slotArea (d : Dev) (n r l : Nat) : Option Area :=
  d.img.str.areas.find? (fun a => a.kind == 4 && a.domain == n && a.region == r && a.level == l)

/-- Bytes of an area. -/
def areaBytes (a : Area) : Nat := areaGranules a * 131072

/-- Bytes that a slot of region `r` needs for a bundle (R249). -/
def Dev.slotNeed (d : Dev) (r : Nat) (b : Bundle) : Nat :=
  0x100000 + ((List.range 32).map (fun j =>
    let q := d.queue (32 * r + j)
    if q.kind = 0 then 0 else q.cap * q.esize)).sum + 4096 * b.saveGran

/-- Every slot of levels 0 to 6 exists and holds the bundle. -/
def Dev.slotsFit (d : Dev) (n : Nat) (b : Bundle) : Bool :=
  (d.regionsOf n).all (fun r => (List.range 7).all (fun l =>
    match d.slotArea n r l with
    | some a => decide (d.slotNeed r b ≤ areaBytes a)
    | none => false))

/-- Every region of the domain has slots for levels 0 to 6. -/
def Dev.slotsExist (d : Dev) (n : Nat) : Bool :=
  (d.regionsOf n).all (fun r => (List.range 7).all (fun l => (d.slotArea n r l).isSome))

/-! ### Admission (R240, R241) -/

/-- The first failing check of ADMIT into domain `n`, of a descriptor with MAGIC right. -/
def Dev.admitCode (d : Dev) (n : Nat) (bs : List Byte) : Nat :=
  let rs := d.regionsOf n
  let b := descOf bs rs
  if (d.domEnt n).isNone || b.domain != n then 2
  else if (d.bundleOf n b.num).isSome then 3
  else if descBad bs rs then 4
  else if d.areaBad b then 5
  else if (d.dom n).preemptEn && !d.slotsFit n b then 6
  else 0

/-- An instruction image as the measurement reads it: as long as its header says, when the header can be right; else the
header alone (log 31). -/
def Dev.imageText (d : Dev) (w : Who) (a : Nat) : Acc (Dev × List Byte) :=
  match d.load w a 64 with
  | .error e => .error e
  | .ok (d1, h) =>
    let ops := fieldOf h 0 4
    let descs := fieldOf h 4 4
    if ops = 0 || 8192 < ops || 511 < descs || !d.rangeOk a (imageBytes ops descs) then .ok (d1, h)
    else d1.load w a (imageBytes ops descs)

/-- The images of a bundle, one after another. -/
def Dev.imageTexts (d : Dev) (w : Who) (as : List Nat) : Acc (Dev × List Byte) :=
  match as with
  | [] => .ok (d, [])
  | a :: r =>
    match d.imageText w a with
    | .error e => .error e
    | .ok (d1, bs) =>
      match d1.imageTexts w r with
      | .error e => .error e
      | .ok (d2, cs) => .ok (d2, bs ++ cs)

/-- The bundle command ends with a code: BUSY clears, which raises source 10 (R385 Table 1). -/
def Dev.bundleEnd (d : Dev) (code : Nat) : Dev := ({ d with bcmd.busy := false, bcmd.code := code }).raise 10

/-- A resident bundle of a domain written or, with none, removed. -/
def Dev.setResident (d : Dev) (n b : Nat) (x : Option Bundle) : Dev :=
  d.modDom n (fun y => { y with resident :=
    match x with
    | some v => (y.resident.filter (fun e => decide (e.1 < b))) ++ [(b, v)] ++ (y.resident.filter (fun e => decide (b < e.1)))
    | none => y.resident.filter (fun e => decide (e.1 ≠ b)) })

/-- ADMIT: the descriptor is read and judged, and an accepted bundle is measured and resident. -/
def Dev.admitOne (d : Dev) : Dev :=
  let n := d.bcmd.domain
  let w := d.sliceWho n
  let d0 := if (d.domEnt n).isSome then d.wakeDomain n else d
  match d.load w d.bcmd.addr.toNat 1024 with
  | .error .unmapped => d0.bundleEnd 1
  | .error e => d0.stopped w false e
  | .ok (d1', bs) =>
    let d1 := d1'.unserve w.party
    let d2 := if (d.domEnt n).isSome then d1.wakeDomain n else d1
    if fieldOf bs 0 4 ≠ 0x444E424B then d2.bundleEnd 1
    else
      match d.admitCode n bs with
      | 0 =>
        let b := descOf bs (d.regionsOf n)
        match d2.imageTexts w (b.regions.flatMap (fun r => r.2.2)) with
        | .error e => d0.stopped w false e
        | .ok (d3, text) =>
          let dg := sha384 (bs ++ text)
          let d4 := (d3.unserve w.party).setResident n b.num (some { b with digest := dg })
          { d4.bundleEnd 0 with sec := d4.sec.append ⟨4, n, b.num, 0, 0, dg⟩ }
      | code => d2.bundleEnd code

/-- A bundle is in use (IN_USE): active, suspended, or named by a request that has not ended. -/
def Dev.bundleUsed (d : Dev) (n b : Nat) : Bool :=
  (d.dom n).active == some b || (d.dom n).susp.any (fun u => u.step.bundle == b) ||
    (match (d.dom n).step with
     | some s => s.bundle == b
     | none => false) ||
    d.serve.reqs.any (fun e => e.2.state != .free && !e.2.state.ended && e.2.domain == n && e.2.bundle == b)

/-- RETIRE. -/
def Dev.retireOne (d : Dev) : Dev :=
  let n := d.bcmd.domain
  let b := d.bcmd.bundle
  if (d.domEnt n).isNone then d.bundleEnd 2
  else
    match d.bundleOf n b with
    | none => d.bundleEnd 8
    | some x =>
      if d.bundleUsed n b then d.bundleEnd 7
      else
        let d1 := d.setResident n b none
        { d1.bundleEnd 0 with sec := d1.sec.append ⟨5, n, b, 0, 0, x.digest⟩ }

/-! ### Live state (R39, R243) -/

/-- LIVE regions of cell `g`, in increasing order. -/
def Dev.liveCell (d : Dev) (g : Nat) : List Piece :=
  ((List.range 64).filter (fun n => d.bufregValid g n && d.bufregLive g n)).map (fun n =>
    ⟨true, g, d.bufregBase g n, d.bufregSize g n⟩)

/-- The live state of region `r` under a bundle, in the order of its HOME area: for each block its block-buffer range,
then the LIVE regions of its cells (log 32). -/
def Dev.livePieces (d : Dev) (r : Nat) (b : Bundle) : List Piece :=
  (List.range 4).flatMap (fun j =>
    ⟨false, 4 * r + j, 4096 * b.bbBase, 4096 * b.bbSize⟩ ::
      (List.range 8).flatMap (fun c => d.liveCell (8 * (4 * r + j) + c)))

/-- The descriptor tables of region `r`: they come from the images (R248). -/
def descPieces (r : Nat) : List Piece := (List.range 4).map (fun j => ⟨false, 4 * r + j, 0, 16384⟩)

/-- The bytes of a run, whatever their parity. -/
def Dev.pieceBytes (d : Dev) (p : Piece) : List Byte :=
  if p.cell then d.cellRead p.unit p.lo p.len else d.bbufRead p.unit p.lo p.len

/-- The bytes of a run pass the turn buffer of its cell (R46, R47). -/
def Dev.passPiece (d : Dev) (p : Piece) (bs : List Byte) : Dev := if p.cell then d.exchange p.unit bs else d

/-- The bytes of a run, read with their parity checked: replays are counted, and a word that fails three stops the read
(R22, R40). -/
def Dev.readPiece (d : Dev) (p : Piece) : Acc (Dev × List Byte) :=
  Acc.andThen (if p.cell then d.scratchWords (p.unit * cellBytes + p.lo) p.len
    else d.bbufWords (p.unit * bbufBytes + p.lo) p.len) fun d1 => .ok (d1.passPiece p (d.pieceBytes p), d.pieceBytes p)

/-- Runs read one after another. -/
def Dev.readPieces (d : Dev) (ps : List Piece) : Acc (Dev × List (List Byte)) :=
  match ps with
  | [] => .ok (d, [])
  | p :: r =>
    Acc.andThen (d.readPiece p) fun x =>
      Acc.andThen (x.1.readPieces r) fun y => .ok (y.1, x.2 :: y.2)

/-- The block of a run. -/
def Piece.block (p : Piece) : Nat := if p.cell then p.unit / 8 else p.unit

/-- Write bytes into a run. -/
def Dev.putPiece (d : Dev) (p : Piece) (bs : List Byte) : Dev :=
  if p.cell then d.cellWrite p.unit p.lo (bs.take p.len) else d.bbufWrite p.unit p.lo (bs.take p.len)

/-- The SRAM of region `r` holds a fresh draw throughout (R39). -/
def Dev.scrapSram (d : Dev) (r : Nat) : Dev :=
  { d.drawn with
    scratch := Tab.clear d.scratch (32 * r * cellBytes) (32 * (r + 1) * cellBytes)
    bbuf := Tab.clear d.bbuf (4 * r * bbufBytes) (4 * (r + 1) * bbufBytes)
    sramEpoch := Tab.write (fun _ => 0) d.sramEpoch r d.free }

/-- The words with a flipped bit are those of `old`. -/
def Dev.withBadSram (d old : Dev) : Dev := { d with badScratch := old.badScratch, badBbuf := old.badBbuf }

/-- The contents of the SRAM of region `r` outside the runs `keep` become undefined (R39). -/
def Dev.undefine (d : Dev) (r : Nat) (keep : List Piece) : Dev :=
  ((keep.map (fun p => (p, d.pieceBytes p))).foldl (fun a x => a.putPiece x.1 x.2) (d.scrapSram r)).withBadSram d

/-- The copy engine of region `r`. -/
def engineWho (r : Nat) : Who := ⟨.tensor, .stream, true, r, 6⟩

/-- Write runs to a HOME area, as far as it goes. -/
def Dev.saveHome (d : Dev) (r home limit : Nat) (ps : List Piece) : Acc Dev :=
  Acc.andThen (d.readPieces ps) fun x =>
    Acc.andThen (x.1.store (engineWho r) home (x.2.flatten.take limit)) fun d1 => .ok (d1.unserve (engineWho r).party)

/-- Put bytes into runs, one after another. -/
def Dev.putPieces (d : Dev) (ps : List Piece) (bs : List Byte) : Dev :=
  match ps with
  | [] => d
  | p :: r => ((d.passPiece p (bs.take p.len)).putPiece p (bs.take p.len)).putPieces r (bs.drop p.len)

/-- Read runs from a HOME area. -/
def Dev.restoreHome (d : Dev) (r home limit : Nat) (ps : List Piece) : Acc Dev :=
  match d.load (engineWho r) home (min limit ((ps.map (·.len)).sum)) with
  | .error e => .error e
  | .ok (d1, bs) => .ok ((d1.unserve (engineWho r).party).putPieces ps bs)

/-- The outgoing bundle's live state goes to its HOME areas, region by region. -/
def Dev.saveBundle (d : Dev) (b : Bundle) (rs : List (Nat × Nat × List Nat)) : Acc Dev :=
  match rs with
  | [] => .ok d
  | x :: r =>
    match d.saveHome x.1 x.2.1 (4096 * b.saveGran) (d.livePieces x.1 b) with
    | .error e => .error e
    | .ok d1 => d1.saveBundle b r

/-- The incoming bundle's live state comes from its HOME areas; all else in the SRAM but the descriptor tables is
undefined. -/
def Dev.restoreBundle (d : Dev) (b : Bundle) (rs : List (Nat × Nat × List Nat)) : Acc Dev :=
  match rs with
  | [] => .ok d
  | x :: r =>
    let d0 := d.undefine x.1 (descPieces x.1)
    match d0.restoreHome x.1 x.2.1 (4096 * b.saveGran) (d0.livePieces x.1 b) with
    | .error e => .error e
    | .ok d1 => d1.restoreBundle b r

/-- The DMA engines begin to load a bundle's images (R68). -/
def Dev.loadImages (d : Dev) (b : Bundle) : Dev :=
  b.regions.foldl (fun a x => (x.2.2.zip (List.range 4)).foldl (fun a q =>
    a.setBlk (4 * x.1 + q.2) { BlockSt.zero with st := .loading, image := q.1, lastWait := (a.blk (4 * x.1 + q.2)).lastWait })
    a) d

/-- An image of the domain is still loading. -/
def Dev.imagesLoad (d : Dev) (n : Nat) : Bool :=
  (d.regionsOf n).any (fun r => (List.range 4).any (fun j => (d.blk (4 * r + j)).st = .loading))

/-- The weight latches and the row buffers of stack `st` hold what is not stated (R135). -/
def Dev.dropLatches (d : Dev) (st : Nat) : Dev :=
  (((d.bcells.filter (fun e => decide (e.1 / 1152 = st))).map (·.1)).foldl (fun a k =>
    a.modBcell k (fun x => { x with latch := none })) d).modStk st (fun x => { x with rowBufs := [] })

/-- The activation buffers and accumulators of stack `st` hold a fresh draw throughout (R135). -/
def Dev.redrawBau (d : Dev) (st : Nat) : Dev :=
  let lo := st * 1152
  { d with
    free := d.free + 1
    abuf := Tab.clear d.abuf (lo * 32768) ((lo + 1152) * 32768)
    accs := Tab.clear d.accs (lo * 2048) ((lo + 1152) * 2048)
    bauEpoch := Tab.write (fun _ => 0) d.bauEpoch st d.free }

/-- The BAU state of stack `st` holds what is not stated (R135). -/
def Dev.scrapBau (d : Dev) (st : Nat) : Dev := (d.dropLatches st).redrawBau st

/-- What a bundle switch ends on the stacks (R243 step 3): cache protection, and the BAU state. -/
def Dev.resetStack (d : Dev) (st : Nat) : Dev := (d.dropKeep st).scrapBau st

/-- The stacks of a domain lose what a bundle switch ends. -/
def Dev.resetStacks (d : Dev) (n : Nat) : Dev := (d.stacksOf n).foldl Dev.resetStack d

/-- What a stopped save or restore of a domain leaves. -/
def Dev.moveStopped (d : Dev) (r : Nat) (e : Stop) : Dev :=
  match e with
  | .parity code x =>
    let k := if code = codeScratchParity then x / (cellBytes / 4) / 8 else x / (bbufBytes / 4)
    d.parityHalt k code x 0 0
  | e => d.stopped (engineWho r) false e

/-! ### Meanings -/

/-- ADMIT (R240, R241): the bundle command in progress. -/
def execAdmitBundle (s : State) : Result State :=
  s.always fun d => d.when (d.engineRuns && d.bcmd.busy && decide (d.bcmd.op = 1)) Dev.admitOne

/-- RETIRE (R241). -/
def execRetire (s : State) : Result State :=
  s.always fun d => d.when (d.engineRuns && d.bcmd.busy && decide (d.bcmd.op = 2)) Dev.retireOne

/-- Pre-emption may be enabled in the domain (R247, R339): its entry of the image says so. -/
def Dev.preemptible (d : Dev) (n : Nat) : Bool :=
  match d.domEnt n with
  | some e => e.preempt
  | none => false

/-- A write of `DOM_PREEMPT` (R247): EN sets where pre-emption may be enabled, every slot exists and fits every resident
bundle. -/
def Dev.preemptWrite (d : Dev) (n : Nat) (v : Word) : Dev :=
  let fits := d.preemptible n && d.slotsExist n && (d.dom n).resident.all (fun e => d.slotsFit n e.2)
  (d.modDom n (fun x => { x with minPrio := fieldAt v.toNat 2 3, preemptEn := v.getLsbD 0 && fits })).tryPreempt n

/-- DOM_PREEMPT_WRITE (R247, R244). -/
def execDomPreemptWrite (n : Domain) (v : Word) (s : State) : Result State :=
  s.hosted (.domPreemptWrite n v) fun d => d.when d.hostReady fun d => d.preemptWrite n.val v

end Sys2Proof.Machine
end

