-- ==== Sys2Proof/Machine/Steps.lean ====
section
/-! DEFINITION. Steps (08_serving, 09_domains_preemption): the choice of the bundle, composition, the step area, phases,
the commit, suspension and continuation, and the stall of a domain. -/

namespace Sys2Proof.Machine
open Sys2Proof

/-- Insert by an order: before the first element that `x` goes ahead of. -/
def insertBy {α : Type} (lt : α → α → Bool) (x : α) (l : List α) : List α :=
  match l with
  | [] => [x]
  | y :: r => if lt x y then x :: y :: r else y :: insertBy lt x r

/-- Sorted by an order; equals keep their places. -/
def sortBy {α : Type} (lt : α → α → Bool) (l : List α) : List α := l.foldl (fun a x => insertBy lt x a) []

/-! ### The choice of the bundle (R242) -/

/-- The claim of a bundle, and the elapsed time of its oldest eligible request. -/
def claimOf (l : List Elig) (b now : Nat) : Option (Nat × Nat) :=
  (l.filter (fun e => e.b.num == b)).foldl (fun a e =>
    match a with
    | none => some (e.x.prio, e.x.elapsed now)
    | some (p, t) => some (max p e.x.prio, max t (e.x.elapsed now))) none

/-- Bundles with a claim, in increasing order. -/
def claimants (l : List Elig) : List Nat := l.foldl (fun a e => insertNat e.b.num a) []

/-- The bundle that the engine chooses among eligible requests, and whether another bundle holds the same claim (log 88). -/
def Dom.choose (x : Dom) (l : List Elig) (now : Nat) : Option (Nat × Bool) :=
  let cs := (claimants l).filterMap (fun b => (claimOf l b now).map (fun c => (b, c)))
  let top := cs.foldl (fun a c => max a c.2.1) 0
  let best := cs.filter (fun c => c.2.1 == top)
  let others := best.filter (fun c => some c.1 != x.active)
  let pick := others.foldl (fun a c =>
    match a with
    | none => some c
    | some y => if y.2.2 < c.2.2 then some c else some y) none
  match best.find? (fun c => some c.1 == x.active), pick with
  | some a, some c => if x.quantum ≤ x.run then some (c.1, true) else some (a.1, true)
  | some a, none => some (a.1, false)
  | none, some c => some (c.1, decide (1 < best.length))
  | none, none => none

/-! ### Placement (R227, R234) -/

/-- The range of a count (R19, R230). -/
def Bundle.range (b : Bundle) (k : Nat) : Nat := (b.rangeHi.findIdx? (fun h => decide (k ≤ h))).getD 0

/-- The draft length of a request, whether it is a probe, and PROBE_CNT after it (R234). -/
def Elig.specLen (e : Elig) (interval : Nat) : Nat × Bool × Nat :=
  if e.x.draftMax = 0 || !e.b.draft then (0, false, e.x.probeCnt)
  else if 0 < e.x.draftLen then (e.x.draftLen, false, e.x.probeCnt)
  else
    let c := (e.x.probeCnt + 1) % 64
    if c = interval then (1, true, 0) else (0, false, c)

/-- The order of generation requests. -/
def genBefore (now : Nat) (a b : Elig) : Bool :=
  decide (b.x.prio < a.x.prio) ||
    (a.x.prio == b.x.prio && (decide (b.x.elapsed now < a.x.elapsed now) ||
      (a.x.elapsed now == b.x.elapsed now && decide (a.i < b.i))))

/-- The order of chunk-ready requests. -/
def chunkBefore (a b : Elig) : Bool :=
  decide (b.x.prio < a.x.prio) || (a.x.prio == b.x.prio && decide (a.x.order < b.x.order))

/-- Place generation requests in order; `slices` are placed already. -/
def Dev.placeGen (d : Dev) (slices : Nat) (l : List Elig) : Dev × List (Elig × Placed) :=
  match l with
  | [] => (d, [])
  | e :: r =>
    let (s, probe, cnt) := e.specLen d.serve.probeInterval
    let c := e.x.customer
    let bound : Int := min (s : Int) (min ((d.cust c).available - 1) (min ((e.x.maxLen.toNat : Int) - e.x.pos - 1)
      (min ((e.x.ringFree : Int) - 1) (min ((e.covered : Int) - e.x.pos) (256 - (slices : Int) - 1)))))
    if bound < 0 then d.placeGen slices r
    else
      let n := bound.toNat
      let d1 := (d.reserve c (n + 1)).modReq e.i (fun x => { x with probeCnt := cnt })
      let q := d1.placeGen (slices + n + 1) r
      (q.1, (e, ⟨e.i, n, probe⟩) :: q.2)

/-- Slices of a placement. -/
def slicesOf (l : List (Elig × Placed)) : Nat := (l.map (fun p => p.2.len + 1)).sum
/-- The longest draft length placed. -/
def longest (l : List (Elig × Placed)) : Nat := l.foldl (fun a p => max a p.2.len) 0

/-- The predicted cost of a MAIN step without chunks, in keep-clock cycles. -/
def Bundle.predict (b : Bundle) (l : List (Elig × Placed)) : Nat :=
  ((List.range (longest l)).map (fun i =>
    b.costDraft.getD (b.range ((l.filter (fun p => decide (i + 1 ≤ p.2.len))).length)) 0)).sum +
    b.costMain.getD (b.range (slicesOf l)) 0

/-- A placed request would miss its deadline at the predicted cost `t`: e + 3 µs + T > D. -/
def missesAt (now t : Nat) (p : Elig × Placed) : Bool :=
  p.1.x.deadline != 0 && decide (25 * p.1.x.deadline < p.1.x.elapsed now + 75 + t)

/-- Place the requests of a FALLBACK step, each with length 0. -/
def Dev.placeFallback (d : Dev) (l : List Elig) : Dev × List (Elig × Placed) :=
  (l.foldl (fun a e => (a.reserve e.x.customer 1).bump (custFallbackAt e.x.customer)) d,
    l.map (fun e => (e, ⟨e.i, 0, false⟩)))

/-- A LAST chunk finds no budget left: its request is held (R226, R229). -/
def Dev.needsBudget (d : Dev) (i : Nat) : Dev :=
  let d1 := d.modReq i (fun y => { y with needBudget := true })
  if (d.req i).needBudget then d1 else d1.changed i

/-- Place chunks in order; `t` is the predicted cost so far, `n` the chunks placed. -/
def Dev.placeChunks (d : Dev) (b : Bundle) (placed : List (Elig × Placed)) (t n : Nat) (l : List Elig) :
    Dev × List ChunkAt :=
  match l with
  | [] => (d, [])
  | e :: r =>
    if n = b.chunkMax || (slicesOf placed ≠ 0 && b.stepTarget < t + b.costChunk) ||
        placed.any (missesAt d.now (t + b.costChunk)) then (d, [])
    else if !e.free then d.placeChunks b placed t n r
    else if e.x.chunkLast && (d.cust e.x.customer).available = 0 then (d.needsBudget e.i).placeChunks b placed t n r
    else
      let d1 := if e.x.chunkLast then d.reserve e.x.customer 1 else d
      let q := d1.placeChunks b placed (t + b.costChunk) (n + 1) r
      (q.1, ⟨e.i, e.x.promptDone.toNat, e.x.chunkLen, e.x.chunkLast⟩ :: q.2)

/-- The held flags of a request at a composition (R226). -/
def Dev.flagHeld (d : Dev) (e : Elig) : Dev :=
  let x := d.req e.i
  let fresh := (e.budget && !x.needBudget) || (e.ring && !x.ringFull) || (e.pages && !x.needPages)
  let d1 := d.modReq e.i (fun y => { y with needBudget := e.budget, ringFull := e.ring, needPages := e.pages })
  if fresh then d1.changed e.i else d1

/-- A request that this composition does not hold: its flags clear (R226, Table 2). -/
def Dev.clearHeld (d : Dev) (i : Nat) : Dev :=
  d.modReq i (fun y => { y with needBudget := false, ringFull := false, needPages := false })

/-- The held flags of the requests of domain `n` that are in no step: those of the bundle `num` as their conditions are, the
others clear. -/
def Dev.flagAll (d : Dev) (n : Nat) (num : Option Nat) (l : List Elig) : Dev :=
  ((d.reqsOf n).filter (fun i => !d.inStep i)).foldl (fun a i =>
    match l.find? (fun e => e.i == i && some e.b.num == num) with
    | some e => a.flagHeld e
    | none => a.clearHeld i) d

/-- Entry numbers that a step places. -/
def Step.reqs (s : Step) : List Nat := s.placed.map (·.req) ++ s.chunks.map (·.req)

/-- The step that the engine composes for the bundle `b` from the eligible requests `l`, and the device after the
reservations. -/
def Dev.composeStep (d : Dev) (n : Nat) (b : Bundle) (l : List Elig) : Dev × Step :=
  let x := d.dom n
  let mine := l.filter (fun e => e.b.num == b.num)
  let gen := sortBy (genBefore d.now) (mine.filter (fun e => !e.chunk && e.free))
  let m := d.placeGen 0 gen
  let late := m.2.filter (missesAt d.now (b.predict m.2))
  let blank : Step := ⟨x.nextStep + 1, false, 0, 0, [], [], 0, 0, b.num, false, false, []⟩
  let done := fun (e : Dev) (s : Step) => { s with
    prio := (s.reqs.map (fun i => (d.req i).prio)).foldl max 0
    waiting := (l.filter (fun y => y.free && !s.reqs.contains y.i && !(e.req y.i).needBudget)).map (fun y => y.x.customer) }
  if !late.isEmpty && !x.prevFallback then
    let f := d.placeFallback ((late.take 256).map (·.1))
    (f.1, done f.1 { blank with fallback := true, placed := f.2.map (·.2), range := b.range f.2.length })
  else
    let c := m.1.placeChunks b m.2 (b.predict m.2) 0 (sortBy chunkBefore (mine.filter (·.chunk)))
    let k := longest m.2
    (c.1, done c.1 { blank with
      phase := if k = 0 then 0 else 1, lmax := k, placed := m.2.map (·.2), chunks := c.2, range := b.range (slicesOf m.2) })

/-- Slices of a step. -/
def Step.slices (s : Step) : Nat := (s.placed.map (fun p => p.len + 1)).sum

/-- `DOM_COMPOSE` of a step (Table 19). -/
def Step.composeWord (s : Step) : Word :=
  BitVec.ofNat 32 (atBit s.placed.length 20 + atBit s.lmax 16 + atBit s.range 14 + atBit s.chunks.length 9 + s.slices)

/-! ### COMPOSE (R223, R242, R243, R250, R251) -/

/-- Offsets of the counters of domain `n` (Table 6 of 09). -/
def domSuspensionsAt (n : Nat) : Nat := 0x450400 + 0x10 * n
def domSwitchesAt (n : Nat) : Nat := 0x450408 + 0x10 * n

/-- The outgoing live state goes to its HOME unless it already lies in the save slot (R243, R250); the incoming images
begin to load. -/
def Dev.switchTo (d : Dev) (n : Nat) (b : Bundle) (save : Bool) : Acc Dev :=
  let x := d.dom n
  match x.active.bind (d.bundleOf n) with
  | none => .ok (d.loadImages b)
  | some old =>
    match (if save then d.saveBundle old old.regions else .ok d) with
    | .error e => .error e
    | .ok d1 => .ok ((d1.loadImages b).bump (domSwitchesAt n))

/-- A step of a domain with none in flight or suspended has used no memory yet, and no ring has copied into it (R375). -/
def Dev.freshUse (d : Dev) (n : Nat) : Dev :=
  if (d.dom n).step.isSome || !(d.dom n).susp.isEmpty then d
  else { d with
    host.stepUse := Tab.write (fun _ => []) d.host.stepUse n []
    host.copied := Tab.write (fun _ => []) d.host.copied n [] }

/-- The step `s` of bundle `b` is composed. -/
def Dev.adopt (d : Dev) (n : Nat) (b : Bundle) (s : Step) (others : Bool) : Acc Dev :=
  let x := d.dom n
  let same := x.active = some b.num
  let d0 := ((d.freshUse n).wakeDomain n).modDom n (fun y => { y with
    act := if same then .idle else .switching
    step := some s
    susp := y.susp.map (fun u => { u with fresh := false })
    nextStep := s.num
    compose := s.composeWord
    lastCommit := if y.committed then y.lastCommit else d.now
    wantCompose := false
    active := some b.num
    run := if !others then 0 else if same then y.run + 1 else 1 })
  if same then .ok d0
  else
    match d.switchTo n b (!(x.susp.any (fun u => u.fresh))) with
    | .error e => .error e
    | .ok d1 => .ok ((d1.wakeDomain n).setDom n { d0.dom n with act := .switching })

/-- The highest suspended step is to be restored (R251): the active bundle's state is saved, the suspended bundle's images
load, and what a switch of the active bundle ends on the stacks ends (R135, R169), where they differ. -/
def Dev.startRestore (d : Dev) (n : Nat) (u : Susp) : Acc Dev :=
  let x := d.dom n
  let mark := fun (e : Dev) => (e.wakeDomain n).modDom n (fun y =>
    { y with act := .restoring, active := some u.step.bundle, run := 0, wantCompose := false })
  if x.active = some u.step.bundle then .ok (mark d)
  else
    match d.bundleOf n u.step.bundle with
    | none => .ok (mark d)
    | some b =>
      match d.switchTo n b true with
      | .error e => .error e
      | .ok d1 => .ok (mark (d1.resetStacks n))

/-- Nothing can be placed: a suspended step resumes, or the domain is idle (R223, R251). -/
def Dev.nothingPlaced (d : Dev) (n : Nat) : Acc Dev :=
  match (d.dom n).susp with
  | u :: _ => d.startRestore n u
  | [] => .ok (d.modDom n (fun x => { x with wantCompose := false }))

/-- Requests above the highest suspended level (R250). -/
def Dom.above (x : Dom) (p : Nat) : Bool :=
  match x.susp with
  | u :: _ => decide (u.level < p)
  | [] => true

/-- The composition of domain `n` from the requests `all` that are ACTIVE or chunk-ready. -/
def Dev.composeFrom (d : Dev) (n : Nat) (all : List Elig) : Acc Dev :=
  let x := d.dom n
  let l := all.filter (fun e => x.above e.x.prio)
  let pick := x.choose (l.filter (·.free)) d.now
  let num := match pick with
    | some c => some c.1
    | none => x.active
  let d1 := d.flagAll n num all
  match pick with
  | none => d1.nothingPlaced n
  | some (b, others) =>
    match d.bundleOf n b with
    | none => d1.nothingPlaced n
    | some bun =>
      let q := d1.composeStep n bun l
      if q.2.placed.isEmpty && q.2.chunks.isEmpty then d1.nothingPlaced n else q.1.adopt n bun q.2 others

/-- The domain stands at a boundary and may compose: no step in flight, deliveries not held by the twin (R294). -/
def Dev.mayCompose (d : Dev) (n : Nat) : Bool :=
  let x := d.dom n
  x.act = .idle && x.step.isNone && x.wantCompose && !x.stopped && !x.wedged && (d.domEnt n).isSome &&
    d.chip.state = .ready && !d.twin.acks.any (fun a => a.dom == n)

/-- A composition takes the DEADLINE of every request of its domain (R216; log 89). -/
def Dev.takeDeadlines (d : Dev) (n : Nat) : Dev :=
  (d.reqsOf n).foldl (fun a i => a.modReq i (fun x => { x with judged := x.deadline })) d

/-- COMPOSE. -/
def Dev.composeDomain (d : Dev) (n : Nat) : Dev :=
  match (d.takeDeadlines n).eligibles (d.reqsOf n) with
  | .error e => d.stopped (d.sliceWho n) false e
  | .ok (d1, l) =>
    match d1.composeFrom n l with
    | .error e => d.moveStopped ((d.regionsOf n).headD 0) e
    | .ok d2 => d2

/-! ### The step area (Tables 12 to 14) -/

/-- The header, with PHASE. -/
def Step.header (s : Step) : List Byte :=
  bytesOf s.num.toNat 2 ++ [BitVec.ofNat 8 (boolBit s.fallback), BitVec.ofNat 8 s.phase] ++ bytesOf s.slices 2 ++
    [BitVec.ofNat 8 s.chunks.length, BitVec.ofNat 8 s.range] ++ bytesOf s.placed.length 2 ++ List.replicate 54 0

/-- The slice entries of a placed request. -/
def Dev.sliceEntries (d : Dev) (p : Placed) : List Byte :=
  let x := d.req p.req
  (List.range (p.len + 1)).flatMap (fun j =>
    bytesOf (p.req + atBit j 12 + atBit p.len 16) 4 ++ bytesOf (x.pos - 1 + j) 4 ++ bytesOf x.lastToken.toNat 4 ++
      bytesOf x.customer 4 ++ bytesOf x.pages 8 ++ List.replicate 8 0)

/-- A chunk entry. -/
def Dev.chunkEntry (d : Dev) (c : ChunkAt) : List Byte :=
  let x := d.req c.req
  bytesOf (c.req + atBit (boolBit c.last) 12) 4 ++ bytesOf c.start 4 ++ bytesOf c.count 4 ++ List.replicate 4 0 ++
    bytesOf (x.prompt + 4 * c.start) 8 ++ bytesOf x.pages 8

/-- Write the step area before the first phase; before a later one, PHASE alone (R224). -/
def Dev.writeArea (d : Dev) (n : Nat) (b : Bundle) (s : Step) : Acc Dev :=
  let w := d.sliceWho n
  if s.phase = (if s.lmax = 0 then 0 else 1) then
    match d.store w b.stepArea (s.header ++ s.placed.flatMap d.sliceEntries) with
    | .error e => .error e
    | .ok d1 => d1.store w (b.stepArea + 0x2040) (s.chunks.flatMap d.chunkEntry)
  else d.store w (b.stepArea + 3) [BitVec.ofNat 8 s.phase]

/-! ### PHASE_RELEASE (R77, R222, R243, R260, R410) -/

/-- The entry point of the phase. -/
def Step.entry (s : Step) (b : Bundle) : Nat :=
  if s.fallback then b.fallbackEntry else if s.phase = 0 then b.mainEntry else b.draftEntry

/-- A block begins at an entry point. -/
def BlockSt.start (b : BlockSt) (entry : Nat) : BlockSt :=
  { b with st := .running, next := entry, fly := [], wait := none, waitTaken := false, flagTaken := false,
           heldScore := false, arrived := false }

/-- The queues of region `r` empty, with nothing on its way into them; the pointers are compared at this update too
(R265). -/
def Dev.emptyQueues (d : Dev) (r : Nat) : Dev :=
  (List.range 32).foldl (fun a j => a.modQueue (32 * r + j) (fun q => { q.emptied with order := [], outs := [], held := false }))
    (d.queuesChecked r)

/-- Region `r` begins a phase: flags zero, queues empty, a fresh count of tree rounds, the blocks at the entry point,
and the release flag set to the number of blocks. -/
def Dev.startRegion (d : Dev) (entry r : Nat) : Dev :=
  let d1 := (d.zeroFlags r).emptyQueues r
  let d2 := d1.modRegion r (fun x => { x with treeQ := [], treeTaken := 0 })
  ((List.range 4).foldl (fun a j => a.modBlk (4 * r + j) (fun b => b.start entry)) d2).setFlag (flagKey r 0) 4

/-- What precedes the release: after a switch, the live state of the incoming bundle; then the step area. -/
def Dev.prepare (d : Dev) (n : Nat) (b : Bundle) (s : Step) : Acc Dev :=
  if (d.dom n).act = .switching then
    match d.restoreBundle b b.regions with
    | .error e => .error e
    | .ok d1 => (d1.resetStacks n).writeArea n b s
  else d.writeArea n b s

/-- The domain runs, or is about to: no step of it is being suspended, saved or restored. -/
def Activity.releases (a : Activity) : Bool := a = .idle || a = .running || a = .switching

/-- PHASE_RELEASE; then the condition of R244 is evaluated for what came about since the composition. -/
def Dev.releasePhase (d : Dev) (n : Nat) : Dev :=
  let x := d.dom n
  match x.step with
  | none => d
  | some s =>
    match d.bundleOf n s.bundle with
    | none => d
    | some b =>
      if s.released || !x.act.releases || x.stopped || x.wedged || !d.domainAwake n || d.imagesLoad n || d.chip.state ≠ .ready then d
      else
        match d.prepare n b s with
        | .error e => d.moveStopped ((d.regionsOf n).headD 0) e
        | .ok d1 =>
          let d0 := (d1.unserve (d.sliceWho n).party).setRounds n []
          let d2 := (d1.regionsOf n).foldl (fun a r => a.startRegion (s.entry b) r) d0
          (d2.modDom n (fun y => { y with
            act := .running
            step := y.step.map (fun s => { s with released := true }) })).tryPreempt n

/-! ### The commit (R28, R225, R231, R234) -/

/-- A result record (Table 15). -/
structure Record where
  ntok : Nat
  eos : Bool
  tokens : List Word
  deriving DecidableEq, Repr

/-- The record in 64 bytes. -/
def recordOf (bs : List Byte) : Record :=
  let n := fieldAt (fieldOf bs 0 4) 0 4
  ⟨n, bitAt (fieldOf bs 0 4) 4, (List.range n).map (fun t => BitVec.ofNat 32 (fieldOf bs (4 + 4 * t) 4))⟩

/-- The result records at an address, `n` of them. -/
def Dev.records (d : Dev) (w : Who) (a n : Nat) : Acc (Dev × List Record) :=
  match d.load w a (64 * n) with
  | .error e => .error e
  | .ok (d1, bs) => .ok (d1, (List.range n).map (fun j => recordOf (slice bs (64 * j) 64)))

/-- Speculation state after a MAIN step that placed the request with length `l` and delivered `ntok` (R234). -/
def Req.speculate (x : Req) (l ntok zeroLimit : Nat) (grow : Bool) : Req :=
  if l = 0 then x
  else if ntok = 1 then
    if 0 < x.draftLen then
      (if x.zeroRun + 1 = zeroLimit then { x with draftLen := x.draftLen / 2, zeroRun := 0 }
       else { x with zeroRun := (x.zeroRun + 1) % 16 })
    else x
  else
    let y := { x with zeroRun := 0 }
    if x.draftLen = 0 then { y with draftLen := 1 }
    else if ntok = l + 1 && l = x.draftLen && grow && x.draftLen < x.draftMax then { y with draftLen := x.draftLen + 1 }
    else y

/-- A cancelled or discarded result: the reservation returns; a cancel takes effect (R237, R265). -/
def Dev.dropResult (d : Dev) (i reserved : Nat) (num : BitVec 16) : Dev :=
  let x := d.req i
  let d1 := if reserved = 0 then d else d.unreserve x.customer reserved
  if x.cancelAt then
    ((d1.dropGranules i).modReq i (fun y => { y with cancelAt := false, parkAt := false, lastStep := num })).setState i
      .cancelled
  else if x.parkAt then d1.parkDue i else d1

/-- A committed result with tokens: the balance, the lengths, the delivery, and the end of the request. -/
def Dev.giveTokens (d : Dev) (i reserved : Nat) (num : BitVec 16) (r : Record) (hold : Bool) (f : Req → Req) : Dev :=
  let x := d.req i
  let d1 := (d.unreserve x.customer reserved).modCust x.customer (fun c => { c with available := c.available - r.ntok })
  let d2 := d1.modReq i (fun y => f { y with
    genLen := y.genLen + BitVec.ofNat 32 r.ntok
    lastToken := r.tokens.getLastD y.lastToken
    delivery := y.delivery ++ r.tokens
    ackWait := hold
    lastStep := num })
  let y := d2.req i
  if r.eos then (d2.modReq i (fun z => { z with eos := true })).setState i .complete
  else if y.maxLen.toNat ≤ y.pos then (d2.modReq i (fun z => { z with maxlen := true })).setState i .complete
  else if y.state = .active then d2 else d2.setState i .active

/-- The result of a placed request. -/
def Dev.commitPlaced (d : Dev) (s : Step) (hold : Bool) (p : Placed) (r : Record) : Dev :=
  if s.discard || (d.req p.req).cancelAt then d.dropResult p.req (p.len + 1) s.num
  else d.giveTokens p.req (p.len + 1) s.num r hold (fun x =>
    if s.fallback then x else x.speculate p.len r.ntok d.serve.zeroLimit d.serve.grow)

/-- The result of a chunk. -/
def Dev.commitChunk (d : Dev) (s : Step) (hold : Bool) (c : ChunkAt) (r : Record) : Dev :=
  if s.discard || (d.req c.req).cancelAt then d.dropResult c.req (if c.last then 1 else 0) s.num
  else
    let done := fun (x : Req) => { x with promptDone := x.promptDone + BitVec.ofNat 32 c.count, lastStep := s.num }
    if c.last then d.giveTokens c.req 1 s.num r hold done
    else
      let d1 := d.modReq c.req done
      if (d.req c.req).state = .prefill then d1 else d1.setState c.req .prefill

/-- The records have the token counts that Table 15 allows. -/
def recordsOk (s : Step) (rs cs : List Record) : Bool :=
  (s.placed.zip rs).all (fun x => 1 ≤ x.2.ntok && x.2.ntok ≤ x.1.len + 1) &&
    (s.chunks.zip cs).all (fun x => x.2.ntok == (if x.1.last then 1 else 0))

/-- Code SERVE_RESULT (Table 1 of 19). -/
def codeServeResult : Nat := 0x43

/-- The wait of the requests that were eligible and not placed, charged to the customers they had at the composition (R238). -/
def Dev.countWaits (d : Dev) (n : Nat) (s : Step) : Dev :=
  s.waiting.foldl (fun a c => a.bumpBy (custWaitAt c) (d.now - (d.dom n).lastCommit)) d

/-- A result record as the record of the mirror stream carries it: sixteen words. -/
def Record.words (r : Record) : List Word :=
  (BitVec.ofNat 32 (r.ntok + atBit (boolBit r.eos) 4) :: r.tokens) ++ List.replicate (15 - r.tokens.length) 0

/-- The STEP record (R293): a cancelled request sends no token (Table 16). -/
def Dev.stepRecord (d : Dev) (n : Nat) (s : Step) (rs : List (Nat × Record)) : Dev :=
  d.record s.num n false (rs.map (fun x =>
    ⟨x.1, d.reqWords x.1, if (d.req x.1).state = .cancelled || s.discard then List.replicate 16 0 else x.2.words⟩))

/-- Deliveries of the step wait for the twin's acknowledgement: mirrored commit, attached and synced (R294, R451). -/
def Dev.holdsDelivery (d : Dev) (n : Nat) : Bool :=
  d.twin.mcommit.getLsbD n && d.mirrored n && decide (d.twin.st = 2) && d.twin.synced

/-- The commit with its records read. -/
def Dev.commitWith (d : Dev) (n : Nat) (s : Step) (rs cs : List Record) : Dev :=
  let hold := d.holdsDelivery n
  let d1 := (s.placed.zip rs).foldl (fun a x => a.commitPlaced s hold x.1 x.2) (d.countWaits n s)
  let d2 := (s.chunks.zip cs).foldl (fun a x => a.commitChunk s hold x.1 x.2) d1
  let seq := d2.twin.nextSeq
  let d3 := d2.stepRecord n s (((s.placed.map (·.req)).zip rs) ++ ((s.chunks.map (·.req)).zip cs))
  let owed := s.reqs.filter (fun i => !(d3.req i).delivery.isEmpty)
  let d4 := if hold then { d3 with twin.acks := d3.twin.acks ++ [⟨seq.toNat, n, d.now, owed, false⟩] } else d3
  let d5 := (d4.regionsOf n).foldl (fun a r => a.zeroFlags r) d4
  d5.modDom n (fun x => { x with
    act := .idle
    step := none
    lastStep := s.num
    prevFallback := s.fallback
    stepTime := d.now - x.lastCommit
    lastCommit := d.now
    committed := true
    mcommit := hold
    wantCompose := true })

/-- The step commits, unless a result is outside Table 15 (R225). -/
def Dev.commit (d : Dev) (n : Nat) (s : Step) : Acc Dev :=
  match d.bundleOf n s.bundle with
  | none => .ok d
  | some b =>
    let w := d.sliceWho n
    match d.records w (b.stepArea + 0x2400) s.placed.length with
    | .error e => .error e
    | .ok (d1, rs) =>
      match d1.records w (b.stepArea + 0x6400) s.chunks.length with
      | .error e => .error e
      | .ok (d2, cs) =>
        if s.discard || recordsOk s rs cs then .ok ((d2.unserve w.party).commitWith n s rs cs)
        else .ok ((d2.unserve w.party).regionFault ((d.regionsOf n).headD 0) codeServeResult 6)

/-- Every block of the domain has reached STEP_END. -/
def Dev.allArrived (d : Dev) (n : Nat) : Bool :=
  (d.regionsOf n).all (fun r => (List.range 4).all (fun j => (d.blk (4 * r + j)).arrived))

/-- The end of a phase: the next one is to be released, or the step commits (R222); in the chip state FAULT nothing commits
(R22, R24). -/
def Dev.phaseEnd (d : Dev) (n : Nat) : Acc Dev :=
  match (d.dom n).step with
  | none => .ok d
  | some s =>
    if !d.allArrived n || d.chip.state = .fault || (d.dom n).stopped || (d.dom n).wedged || !s.released ||
        (d.dom n).act ≠ .running then .ok d
    else if s.phase = 0 then d.commit n s
    else
      let d1 := (d.regionsOf n).foldl (fun a r => a.zeroFlags r) d
      .ok (d1.modDom n (fun x => { x with step := some { s with phase := if s.phase < s.lmax then s.phase + 1 else 0, released := false } }))

/-- STEP_END: the block has arrived and reads IDLE (R83); its completion is counted and sets its flag (R72). -/
def Dev.stepEnd (d : Dev) (k : Nat) : Dev :=
  match d.ready k 0x32 with
  | none => d
  | some f =>
    let w : OpWord := f.word
    let d1 := (d.modBlk k (fun b => { b with st := .idle, arrived := true, fly := [] })).bump (opsCompletedAt k)
    match (if w.setEn then d1.flagAdd (k / 4) w.setNum 1 else some d1) with
    | none => d.opHalt k codeFlagOverflow f.index 7 w.opcode
    | some d2 =>
      match d.domainOf (k / 4) with
      | none => d2
      | some n =>
        match d2.phaseEnd n with
        | .ok d3 => d3
        | .error e => d.stopped (d.sliceWho n) false e

/-! ### Suspension (R245 to R248, R253) -/

/-- Blocks of the domain. -/
def Dev.blocksOf (d : Dev) (n : Nat) : List Nat := (d.regionsOf n).flatMap (fun r => (List.range 4).map (fun j => 4 * r + j))

/-- An operation that runs to its completion before the block is suspended: a TREE_REDUCE, a SPAN_SEND whose data has begun
to move, and a set on its way to another region (Table 4). -/
def Flight.mustEnd (f : Flight) : Bool :=
  let o := OpWord.opcode f.word
  !f.done && (o == 0x28 || ((o == 0x29 || o == 0x31) && f.begun))

/-- SPAN_RECV operations of the domain that are in flight and have not taken their message: block and operation. -/
def Dev.openRecvs (d : Dev) (n : Nat) : List (Nat × Flight) :=
  (d.blocksOf n).flatMap (fun k =>
    ((d.blk k).fly.filter (fun f => OpWord.opcode f.word == 0x2A && !f.done)).map (fun f => (k, f)))

/-- Those operations leave their channels: they are withdrawn to unissued (Table 4). -/
def Dev.withdrawRecvs (d : Dev) (n : Nat) : Dev :=
  (d.openRecvs n).foldl (fun a x =>
    a.modSpan (OpWord.port x.2.word) (fun s => s.modChannel (OpWord.channel x.2.word) (fun c =>
      { c with recvs := c.recvs.filter (fun y => decide (y ≠ (x.1, x.2.index))) }))) d

/-- They take their places in the channels again, in issue order; one whose port failed under it stays cut off (R286). -/
def Dev.rejoinRecvs (d : Dev) (n : Nat) : Dev :=
  ((d.openRecvs n).filter (fun x => !x.2.begun)).foldl (fun a x =>
    a.modSpan (OpWord.port x.2.word) (fun s => s.modChannel (OpWord.channel x.2.word) (fun c =>
      { c with recvs := c.recvs ++ [(x.1, x.2.index)] }))) d

/-- What waits in the queues of region `r` is drained (R246). -/
def Dev.drainSlots (d : Dev) (r : Nat) : Dev := (List.range 32).foldl (fun a j => a.drainQueue (32 * r + j)) d

/-- The domain goes on: no region fault, stall or chip fault has stopped it (R22, R23, R85, R438). -/
def Dev.domainLives (d : Dev) (n : Nat) : Bool :=
  !(d.dom n).stopped && !(d.dom n).wedged && decide (d.chip.state = .ready)

/-- SUSPEND_COMPLETE: every block has stopped, its engines at their tile steps (R245). -/
def Dev.suspendDone (d : Dev) (n : Nat) : Dev :=
  let x := d.dom n
  match x.susp with
  | [] => d
  | u :: rest =>
    if x.act ≠ .suspending || !d.domainLives n || (d.blocksOf n).any (fun k => (d.blk k).fly.any Flight.mustEnd) then d
    else
      let d1 := (d.blocksOf n).foldl (fun a k =>
        (a.partWays k).modBlk k (fun b => if b.st = .running then { b with st := .suspended } else b)) d
      let d2 := (u.step.reqs.foldl (fun a i => a.bump (custPreemptAt (a.req i).customer)) d1).bump (domSuspensionsAt n)
      let d3 := (d2.withdrawRecvs n).modDom n (fun y => { y with
        act := .saving, suspendTime := d.now - u.since, susp := { u with level := u.step.prio } :: rest })
      (d.regionsOf n).foldl (fun a r => a.drainSlots r) d3

/-- Buffer regions that the operations in flight of block `k` read or write, in each cell they select. -/
def Dev.flightPieces (d : Dev) (k : Nat) : List Piece :=
  (d.blk k).fly.flatMap (fun f =>
    let c := f.op k
    (cellsOf k c.w.mask).flatMap (fun g => (c.reads ++ c.writes).map (fun n => ⟨true, g, d.bufregBase g n, d.bufregSize g n⟩)))

/-- The storage of the queues of region `r`. -/
def Dev.queuePieces (d : Dev) (r : Nat) : List Piece :=
  ((List.range 32).filter (fun j => (d.queue (32 * r + j)).kind ≠ 0)).map (fun j =>
    let q := d.queue (32 * r + j)
    ⟨false, 4 * r + q.consumer, q.base, q.cap * q.esize⟩)

/-- The sequences and scans that the blocks of region `r` have dispatched have ended, and no message of the region is on
the fabric (R246, R248). -/
def Dev.regionQuiet (d : Dev) (r : Nat) : Bool :=
  (List.range 24).all (fun st =>
    (d.stk st).reqs.all (fun q => q.region != r) &&
      (List.range 4).all (fun m => match d.slotOf st m with
        | some s => s.req.region != r || s.sent
        | none => true)) &&
    d.net.msgs.all (fun m => m.src != r && m.dst != r) && !(d.region r).arrived.any FabMsg.isSet

/-- The queue as the queue record keeps it: one value of each pointer, and every waiting output of a stack drained. -/
def Queue.recorded (q : Queue) : Queue :=
  { q with write2 := q.write, release2 := q.release, offer2 := q.offer, mark2 := q.mark, outs := q.outs.map QOut.drained }

/-- The scratchpad part of the save slot: of each cell the LIVE regions, then the other regions that operations in flight read or
write, each once (Table 5). -/
def Dev.padPieces (d : Dev) (r : Nat) (b : Bundle) : List Piece :=
  let live := (d.livePieces r b).filter (·.cell)
  let flight := ((List.range 4).flatMap (fun j => d.flightPieces (4 * r + j))).filter (fun p => !live.contains p)
  (List.range 32).flatMap (fun c => (live ++ flight.eraseDups).filter (fun p => p.unit = 32 * r + c))

/-- The runs of region `r` in the order of the save slot: block buffers, then scratchpads (Table 5). -/
def Dev.slotPieces (d : Dev) (r : Nat) (b : Bundle) : List Piece :=
  (d.livePieces r b).filter (fun p => !p.cell) ++ d.padPieces r b

/-- What is kept of region `r`; `other`: the storage of its queues, with its bytes. -/
def Dev.savedRegion (d : Dev) (r : Nat) (b : Bundle) (other : List (Piece × List Byte)) : SavedRegion where
  region := r
  blocks := (List.range 4).map (fun j => (4 * r + j, d.blk (4 * r + j)))
  flags := d.flags.filter (fun e => decide (e.1 / 1024 = r))
  waiters := d.waiters.filter (fun e => decide (e.1 / 1024 = r))
  queues := (List.range 32).map (fun j => (32 * r + j, (d.queue (32 * r + j)).recorded))
  live := d.slotPieces r b
  queueBytes := other
  control := d.region r

/-- The runs of a save slot from byte `off` on, `len` bytes: over its stacks rising, each with its bands rising (log 33). -/
def slotRuns (sts : List Nat) (first span off len : Nat) : List (Nat × Nat) :=
  match sts with
  | [] => []
  | s :: r =>
    if len = 0 then []
    else if span ≤ off then slotRuns r first span (off - span) len
    else
      let n := min len (span - off)
      (s * stackSpan + first * 2 ^ 22 + off, n) :: slotRuns r first span 0 (len - n)

/-- The runs of an area. -/
def Area.runs (a : Area) (off len : Nat) : List (Nat × Nat) :=
  slotRuns ((List.range 24).filter (fun s => a.onStacks.getLsbD s)) a.first (a.count * 2 ^ 22) off len

/-- Store bytes over runs of memory. -/
def Dev.storeOver (d : Dev) (w : Who) (rs : List (Nat × Nat)) (bs : List Byte) : Acc Dev :=
  match rs with
  | [] => .ok (d.unserve w.party)
  | x :: r => Acc.andThen (d.store w x.1 (bs.take x.2)) fun d1 => d1.storeOver w r (bs.drop x.2)

/-- Load the bytes of runs of memory. -/
def Dev.loadOver (d : Dev) (w : Who) (rs : List (Nat × Nat)) : Acc (Dev × List Byte) :=
  match rs with
  | [] => .ok (d.unserve w.party, [])
  | x :: r =>
    Acc.andThen (d.load w x.1 x.2) fun p =>
      Acc.andThen (p.1.loadOver w r) fun q => .ok (q.1, p.2 ++ q.2)

/-- Bytes of the control record and the queue record of region `r` in its save slot (Table 5, R249). -/
def Dev.recordBytes (d : Dev) (r : Nat) : Nat :=
  0x100000 + ((d.queuePieces r).map (·.len)).sum

/-- The save slot of a region is written: its records, whose encoding the manual does not give (log 33), then the live
state. -/
def Dev.writeSlot (d : Dev) (n r level : Nat) (live : List Byte) : Acc Dev :=
  match d.slotArea n r level with
  | none => .ok d
  | some a =>
    let head := (List.range (d.recordBytes r)).map (Config.freeByte d.free)
    Acc.andThen (d.storeOver (engineWho r) (a.runs 0 (head.length + live.length)) (head ++ live)) fun d1 => .ok d1.drawn

/-- The region after its save: its control state cleared, and its SRAM undefined but for the live runs (R39). -/
def Dev.clearRegion (d : Dev) (r : Nat) (b : Bundle) : Dev :=
  let d1 := ((d.undefine r (descPieces r ++ d.livePieces r b)).zeroFlags r).emptyQueues r
  let d2 := d1.modRegion r (fun x => { x with arrived := [], lists := [], scanned := [], root := [], treeQ := [], treeTaken := 0 })
  (List.range 4).foldl (fun a j => a.modBlk (4 * r + j) (fun x => { x with st := .suspended, fly := [], wait := none })) d2

/-- The save of region `r` (R248): its queues compared (R265), the runs of the slot and the storage of the queues read with their
parity checked, the slot written, the step area copied. -/
def Dev.saveMemory (d : Dev) (n r level : Nat) (b : Bundle) : Acc (Dev × SavedRegion × List Byte) :=
  let d0 := d.queuesChecked r
  Acc.andThen (d0.readPieces (d0.slotPieces r b)) fun live =>
  Acc.andThen (live.1.readPieces (d0.queuePieces r)) fun other =>
  Acc.andThen (other.1.writeSlot n r level live.2.flatten) fun d1 =>
  Acc.andThen (d1.loadOver (d.sliceWho n) [(b.stepArea, 0x8000)]) fun area =>
    .ok (area.1, d0.savedRegion r b ((d0.queuePieces r).zip other.2), area.2)

/-- SAVE_COMPLETE of region `r`; the last region's save ends the suspension (R248). -/
def Dev.saveRegion (d : Dev) (n r : Nat) : Dev :=
  let x := d.dom n
  match x.susp with
  | [] => d
  | u :: _ =>
    match d.bundleOf n u.step.bundle with
    | none => d
    | some b =>
      if x.act ≠ .saving || !d.domainLives n || u.regions.any (fun s => s.region == r) || !d.regionQuiet r then d
      else
        match d.saveMemory n r u.level b with
        | .error e => d.moveStopped r e
        | .ok (d1, s, area) =>
          let allSaved := (d.regionsOf n).all (fun q => q == r || u.regions.any (fun s => s.region == q))
          (d1.clearRegion r b).modDom n (fun y => { y with
            susp := match y.susp with
              | v :: rest => { v with regions := s :: v.regions, area := area } :: rest
              | [] => []
            act := if allSaved then .idle else .saving
            step := if allSaved then none else y.step
            wantCompose := y.wantCompose || allSaved })

/-! ### Continuation (R251) -/

/-- Put a queue of a region back: both copies of each pointer get one value (R265); PTR_RESET, which is sticky, stays as it
is (R266). -/
def Dev.putQueue (d : Dev) (k : Nat) (q : Queue) : Dev := d.setQueue k { q.recorded with ptrReset := (d.queue k).ptrReset }

/-- Put the runs of a region back from its save slot, then the storage of its queues. -/
def Dev.restoreRuns (d : Dev) (n level : Nat) (s : SavedRegion) : Acc Dev :=
  let r := s.region
  let len := (s.live.map (·.len)).sum
  Acc.andThen (match d.slotArea n r level with
    | some a => d.loadOver (engineWho r) (a.runs (d.recordBytes r) len)
    | none => .ok (d.drawn, (List.range len).map (Config.freeByte d.free))) fun p =>
    .ok (s.queueBytes.foldl (fun a x => a.putPiece x.1 x.2) ((p.1.undefine r (descPieces r)).putPieces s.live p.2))

/-- Put the records of a region back: queues, then flags, blocks and the region controller. The blocks stay SUSPENDED. -/
def Dev.restoreRecords (d : Dev) (s : SavedRegion) : Dev :=
  let r := s.region
  let d1 := s.queues.foldl (fun a x => a.putQueue x.1 x.2) d
  let d2 := s.blocks.foldl (fun a x => a.setBlk x.1 x.2) d1
  let d3 := s.flags.foldl (fun a x => a.setFlag x.1 x.2) (d2.zeroFlags r)
  let d4 := s.waiters.foldl (fun a x => a.setWaitq x.1 x.2) d3
  d4.modRegion r (fun x => { x with
    arrived := s.control.arrived, lists := s.control.lists, scanned := s.control.scanned, root := s.control.root,
    treeQ := s.control.treeQ, treeTaken := s.control.treeTaken })

/-- The regions of a suspended step are restored, one after another. -/
def Dev.restoreRegions (d : Dev) (n level : Nat) (ss : List SavedRegion) : Acc Dev :=
  match ss with
  | [] => .ok d
  | s :: r => Acc.andThen (d.restoreRuns n level s) fun d1 => (d1.restoreRecords s).restoreRegions n level r

/-- The scan lists that region `r` has kept are merged and written to their DST0 (R251 step 3). -/
def Dev.mergeKept (d : Dev) (r : Nat) : Nat → Dev
  | 0 => d
  | k + 1 => (d.regionMerge r).mergeKept r k

/-- The blocks of region `r` leave SUSPENDED (R251 step 4). -/
def Dev.wakeBlocks (d : Dev) (r : Nat) : Dev :=
  (List.range 4).foldl (fun a j => a.modBlk (4 * r + j) (fun x => if x.st = .suspended then { x with st := .running } else x)) d

/-- The memory of a suspended step is restored (R251 step 2): its regions and its step area. -/
def Dev.restoreStep (d : Dev) (n : Nat) (u : Susp) : Acc Dev :=
  Acc.andThen (d.restoreRegions n u.level u.regions) fun d1 =>
    match d1.bundleOf n u.step.bundle with
    | some b => d1.storeOver (d.sliceWho n) [(b.stepArea, u.area.length)] u.area
    | none => .ok d1

/-- The step continues: scan lists, blocks, waits of its requests (R251 steps 3 and 4, R253). -/
def Dev.resumeStep (d : Dev) (n : Nat) (u : Susp) : Dev :=
  let d1 := (d.setRounds n []).modDom n (fun y => { y with act := .running, step := some u.step, susp := y.susp.tail })
  let d2 := (d1.regionsOf n).foldl (fun a r => (a.mergeKept r (a.region r).scanned.length).wakeBlocks r) (d1.rejoinRecvs n)
  (u.step.reqs.foldl (fun a i => a.bumpBy (custWaitAt (a.req i).customer) (d.now - u.since)) d2).tryPreempt n

/-- SUSPENDED_STEP_CONTINUE. -/
def Dev.continueStep (d : Dev) (n : Nat) : Dev :=
  let x := d.dom n
  match x.susp with
  | [] => d
  | u :: _ =>
    if x.act ≠ .restoring || !d.domainLives n || !d.domainAwake n || d.imagesLoad n then d
    else
      match d.restoreStep n u with
      | .error e => d.moveStopped ((d.regionsOf n).headD 0) e
      | .ok d1 => d1.resumeStep n u

/-! ### The stall (R84, R85) -/

/-- Code DOMAIN_STALL (Table 1 of 19). -/
def codeDomainStall : Nat := 0x4B

/-- The block reads WAITING with HELD_FLAG set: nothing of it is in flight, and it waits on a flag (R83). -/
def Dev.blockStuck (d : Dev) (k : Nat) : Bool := (d.blk k).acts && (d.blk k).fly.isEmpty && (d.blk k).wait.isSome

/-- An operation that may set a flag is in flight. -/
def Flight.mayset (f : Flight) : Bool :=
  let o := OpWord.opcode f.word
  OpWord.setEn f.word || o == 0x31 || o == 0x20 || o == 0x2A

/-- The condition of R84. -/
def Dev.stalls (d : Dev) (n : Nat) : Bool :=
  (d.dom n).act = .running && d.chip.state ≠ .fault && !(d.dom n).stopped && !(d.dom n).wedged &&
    (d.blocksOf n).all (fun k => d.blockStuck k || (d.blk k).arrived) && (d.blocksOf n).any d.blockStuck &&
    !(d.blocksOf n).any (fun k => (d.blk k).fly.any Flight.mayset)

/-- DOMAIN_STALL: every region records it, with the unit *domain* (R444), and the domain is wedged. -/
def Dev.domainStall (d : Dev) (n : Nat) : Dev :=
  ((d.regionsOf n).foldl (fun a r => a.recordFault r codeDomainStall r 7) d).modDom n (fun x => { x with wedged := true })

/-! ### Meanings -/

/-- STEP_END (R83, R28). -/
def execStepEnd (r : Region) (b : Blk) (s : State) : Result State := s.always fun d => d.stepEnd (blkNo r b)

/-- The composition reads a word of the request table or of the customer registers that fails its replays (R445). -/
def Dev.composeBad (d : Dev) (n : Nat) : Bool :=
  (d.reqsOf n).any d.reqBad

/-- COMPOSE (R227, R242, R445). -/
def execCompose (n : Domain) (s : State) : Result State :=
  s.always fun d => d.when (d.mayCompose n.val && !d.clk.coast) fun d =>
    if d.composeBad n.val then d.chipFault codeChipParity else d.composeDomain n.val

/-- PHASE_RELEASE (R222). -/
def execPhaseRelease (n : Domain) (s : State) : Result State :=
  s.always fun d => d.when (!d.clk.coast) fun d => d.releasePhase n.val

/-- SUSPEND_COMPLETE (R245). -/
def execSuspendComplete (n : Domain) (s : State) : Result State := s.always fun d => d.suspendDone n.val

/-- SAVE_COMPLETE (R248). -/
def execSaveComplete (r : Region) (s : State) : Result State :=
  s.always fun d =>
    match d.domainOf r.val with
    | some n => d.saveRegion n r.val
    | none => d

/-- SUSPENDED_STEP_CONTINUE (R251). -/
def execSuspendedStepContinue (n : Domain) (s : State) : Result State := s.always fun d => d.continueStep n.val

/-- DOMAIN_STALL (R84). -/
def execDomainStall (n : Domain) (s : State) : Result State :=
  s.always fun d => d.when (d.stalls n.val) fun d => d.domainStall n.val

end Sys2Proof.Machine
end

