-- ==== Sys2Proof/Machine/Twin.lean ====
section
/-! DEFINITION. The twin link (11_fabric_links), the shadow and promotion (19_faults_failover), and the replays of every
protected link. -/

namespace Sys2Proof.Machine
open Sys2Proof

/-! ### Offsets -/

def twinReplaysAt : Nat := 0x3800010
def twinRecordsAt : Nat := 0x3800018
def twinDetachesAt : Nat := 0x3800020
def twinPromotionsAt : Nat := 0x3800038
def fabricReplaysAt : Nat := 0x3000008
/-- Offset of `BOND_REPLAYS` of stack `s` (R273). -/
def bondReplaysAt (s : Nat) : Nat := stackBase s + 0x098

/-! ### States of the link (R288, R290) -/

/-- `TWIN_STATUS.STATE` becomes `st`; a change raises source 8 (Table 1 of 15). -/
def Dev.twinEnter (d : Dev) (st : Nat) : Dev :=
  if d.twin.st = st then d else ({ d with twin.st := st }).raise 8

/-- An attempt ends, or is refused, with a code. -/
def Dev.attachFails (d : Dev) (code : Nat) : Dev := ({ d with twin.code := code }).twinEnter 0

/-- Requests whose delivery waits for the twin deliver now: those of domain `n`. -/
def Dev.unhold (d : Dev) (n : Nat) : Dev :=
  (d.reqsOf n).foldl (fun a i => a.modReq i (fun x => { x with ackWait := false })) d

/-- Detach (R290, R295): the stream is discarded, held deliveries go, and the shadow can be promoted when it was
synced. -/
def Dev.detach (d : Dev) (code : Nat) : Dev :=
  if d.twin.st ≠ 2 then d
  else
    let d1 := { d with
      twin.code := code
      twin.promotable := d.twin.synced
      twin.synced := false
      twin.stream := []
      twin.backlog := 0
      twin.acks := []
      twin.copyAt := none
      twin.posts := d.twin.posts.filter (fun x => decide (x ≠ .ack)) }
    ((List.range 12).foldl Dev.unhold d1).bump twinDetachesAt |>.twinEnter 0

/-- `TWIN_SYNC.PROMOTED_LIVE` (R456). -/
def Dev.promotedLive (d : Dev) : Nat := (d.serve.reqs.filter (fun e => e.2.promoted)).length

/-- The bytes whose digest is sent at attach: the TWIN body of the image; none without one (R288, R350). -/
def Dev.twinDigest (d : Dev) : List Byte := sha384 (d.img.str.twinBody.getD [])

/-- The outgoing mirror areas, in area order (R350). -/
def Dev.mirrorAreas (d : Dev) : List MirrorArea :=
  (d.img.str.areas.filter (fun a => a.outMirror)).map (fun a => ⟨a.bankView, a.onStacks, a.first, a.count⟩)

/-- An attempt to attach begins (R288): refused while promoted requests live (R456); otherwise the link trains and the
role, the digest and the list of areas are sent (R491). -/
def Dev.tryAttach (d : Dev) : Dev :=
  if d.twin.st ≠ 0 || !d.twin.present || d.chip.state ≠ .ready || d.clk.coast then d
  else if d.promotedLive ≠ 0 then d.attachFails 6
  else (d.twinEnter 1).emit (.twinHello ⟨d.chip.straps.twinRole, d.twinDigest⟩ d.mirrorAreas)

/-- Every area of the twin's list is a shadow area of this device (R288 step 4). -/
def Dev.shadowsMatch (d : Dev) (areas : List MirrorArea) : Bool :=
  areas.all (fun m => d.img.str.areas.any (fun a => decide (a.kind = 9) && decide (a.bankView = m.bankView) &&
    decide (a.onStacks = m.onStacks) && decide (a.first = m.bandFirst) && decide (a.count = m.bandCount)))

/-! ### The full copy (R450) -/

/-- The accesses of the twin link's engines: their number among the units tells them apart (log 34). -/
def twinWho (unit : Nat) : Who := ⟨.host, .stream, false, 0, unit⟩
/-- The full copy, the received stream, and repair reads. -/
def twinCopyWho : Who := twinWho 8
def postWho : Who := twinWho 9
def repairWho : Who := twinWho 10

/-- What a stopped access of the twin link leaves: it waits, and a stripe that nothing repairs is a host's (log 34). -/
def Dev.twinStopped (d : Dev) (w : Who) (counted : Bool) (e : Stop) : Dev :=
  match e with
  | .lost st p => (d.unserve w.party).hostLost st p
  | e => d.stopped w counted e

/-- Piece `x.2` of the full copy: when it is the next, it is read and enters the stream. It waits as every read does (R165,
R306, R408); what no correction yields is not stated (log 7). -/
def copyPiece (a len : Nat) (x : Dev × Nat) : Dev × Nat :=
  let d := x.1
  let sent (d1 : Dev) (bs : List Byte) : Dev × Nat :=
    ((({ d1 with twin.copyAt := some (x.2 + 1) }).unserve twinCopyWho.party).mirrorSend (.write (BitVec.ofNat 48 a) bs), x.2 + 1)
  if d.twin.copyAt = some x.2 then
    match d.loadPiece twinCopyWho a len with
    | .ok (d1, bs) => sent d1 bs
    | .error (.lost st p) => sent (d.hostLost st p).drawn ((List.range len).map (Config.freeByte d.free))
    | .error e => (d.twinStopped twinCopyWho false e, x.2 + 1)
  else (d, x.2 + 1)

/-- A stripe is read and enters the stream: one line of the linear view, sixteen chunks of the bank view. -/
def copyStripe (bankView : Bool) (st : Nat) (p : Stripe) (x : Dev × Nat) : Dev × Nat :=
  if bankView then
    (List.range 16).foldl (fun y i => copyPiece
      (bankViewBase + st * stackSpan + i * 2 ^ 33 + p.bank * 2 ^ 26 + p.row * 2 ^ 11 + p.chunk * 32) 32 y) x
  else copyPiece (st * stackSpan + p.row * 2 ^ 22 + p.bank * 2 ^ 15 + p.chunk * 512) 512 x

/-- The stripes of a row band of a stack enter the stream. -/
def copyBand (bankView : Bool) (st row : Nat) (x : Dev × Nat) : Dev × Nat :=
  (List.range 128).foldl (fun y bank => (List.range 64).foldl (fun z chunk => copyStripe bankView st ⟨bank, row, chunk⟩ z) y) x

/-- An outgoing mirror area enters the stream. -/
def copyArea (x : Dev × Nat) (r : Area) : Dev × Nat :=
  ((List.range 24).filter (fun s => r.onStacks.getLsbD s)).foldl (fun y s =>
    (List.range r.count).foldl (fun z k => copyBand r.bankView s (r.first + k) z) y) x

/-- The full copy of `n` pieces ends when all of them have been sent: its end enters the stream. -/
def Dev.copyEnds (d : Dev) (n : Nat) : Dev :=
  if d.twin.copyAt = some n then ({ d with twin.copyAt := none }).mirrorSend .copyEnd else d

/-- The full copy in progress goes on from the piece where it waited, while the link runs. -/
def Dev.copyOn (d : Dev) : Dev :=
  if d.twin.copyAt.isNone || d.clk.coast then d
  else
    let x := (d.img.str.areas.filter (fun a => a.outMirror)).foldl copyArea (d, 0)
    x.1.copyEnds x.2

/-- The full copy: a COMMAND record for every request of a mirrored domain that is not FREE, then every outgoing mirror
area, then the end of the copy. -/
def Dev.fullCopy (d : Dev) : Dev :=
  let d1 := (List.range 12).foldl (fun a n => (a.reqsOf n).foldl Dev.commandRecord a) d
  ({ d1 with twin.copyAt := some 0 }).copyOn

/-- The devices are attached (R288 step 5, R450): the shadow table that the twin will fill is empty. -/
def Dev.attached (d : Dev) : Dev :=
  (({ d with
      twin.stream := []
      twin.backlog := 0
      twin.acks := []
      twin.synced := false
      twin.shadow := []
      twin.linkBeat := false
      twin.edgeBeat := false
      twin.everAttached := true }).twinEnter 2).fullCopy

/-- TWIN_ATTACHED: the twin's role, digest and list arrive. Equal roles end the attempt with TRAIN (R491). -/
def Dev.twinAnswers (d : Dev) (hello : TwinHello) (areas : List MirrorArea) : Dev :=
  if d.twin.st ≠ 1 || d.clk.coast then d
  else if hello.role = d.chip.straps.twinRole then d.attachFails 7
  else if hello.digest = d.twinDigest && d.shadowsMatch areas then d.attached
  else d.attachFails 6

/-! ### Presence and heartbeats (R287, R289, R290) -/

/-- A change of the reading of TWIN_PRESENT_IN. -/
def Dev.presence (d : Dev) (level : Bool) : Dev :=
  let d1 := { d with pins.twinPresentIn := level }
  if d.chip.state = .off || d.chip.state = .thermalOff || d.twin.present = level then d1
  else
    let d2 := { d1 with twin.present := level }
    if level then d2.tryAttach
    else if d.twin.st = 2 then d2.detach 1
    else if d.twin.st = 1 then d2.attachFails 1
    else d2

/-- A TWIN_HB_IN edge that counts (R482). -/
def Dev.hbEdge (d : Dev) (level : Bool) : Dev :=
  let d1 := { d with pins.twinHbIn := level }
  if d.twin.hbLevel = level then d1
  else { d1 with twin.hbLevel := level, twin.edgeBeat := d.twin.edgeBeat || decide (d.twin.st = 2) }

/-- HB_TIMEOUT has passed since the attach or the last such time: with a link heartbeat in it, a new one starts; with
edges alone the code is LINK, with neither HEARTBEAT. -/
def Dev.heartbeatTimeout (d : Dev) : Dev :=
  if d.twin.linkBeat then { d with twin.linkBeat := false, twin.edgeBeat := false }
  else d.detach (if d.twin.edgeBeat then 3 else 2)

/-! ### The mirror stream, as its receiver (R292, R293) -/

/-- States by code (Table 10 of 08). -/
def stateOf (c : Nat) : ReqState :=
  match c with
  | 0 => .free
  | 1 => .queued
  | 2 => .prefill
  | 3 => .active
  | 4 => .parking
  | 5 => .parked
  | 6 => .resuming
  | 7 => .complete
  | 8 => .cancelled
  | _ => .parkExpired

/-- STATE of a shadow entry, as recorded. -/
def Shadow.state (x : Shadow) : ReqState := stateOf (fieldAt (x.req.headD 0).toNat 0 4)

/-- Tokens in the result of a part. -/
def partCount (p : TwinPart) : Nat := fieldAt (p.result.headD 0).toNat 0 4

/-- The last committed token that a part shows; where it carries none, the one already recorded, and where none was, it
is not stated (log 7). -/
def Dev.partToken (d : Dev) (p : TwinPart) : Word :=
  if 0 < partCount p then p.result.getD (partCount p) 0
  else match d.shadow p.entry with
    | some x => x.lastToken
    | none => Config.freeWord d.free p.entry

/-- The shadow request table lies in the RECORDS area, 128 bytes for each entry (R350). -/
def Dev.shadowAddr (d : Dev) (i : Nat) : Option Nat :=
  (d.img.str.areas.find? (fun a => a.records)).map (fun a =>
    (bitsOf a.onStacks.toNat 24).headD 0 * stackSpan + a.first * 2 ^ 22 + 128 * i)

/-- The oldest of what was received is applied, or an acknowledgement sent. A write that a stripe loses is discarded. -/
def Dev.postOne (d : Dev) (x : TwinPost) : Acc Dev :=
  match x with
  | .ack => .ok (if d.twin.st = 2 then d.emit .twinAck else d)
  | .bytes a bs =>
    match d.store postWho a bs with
    | .ok d1 => .ok (d1.unserve postWho.party)
    | .error (.lost st p) => .ok (d.twinStopped postWho false (.lost st p))
    | .error .unmapped => .ok d
    | .error e => .error e

/-- What was received is applied in order, up to one that waits (R165, R306, R408). -/
def Dev.postAll (d : Dev) (l : List TwinPost) : Dev :=
  match l with
  | [] => { d with twin.posts := [] }
  | x :: r =>
    match d.postOne x with
    | .ok d1 => d1.postAll r
    | .error e => ({ d with twin.posts := x :: r }).twinStopped postWho false e

/-- What waits is taken up again. -/
def Dev.postOn (d : Dev) : Dev := if d.twin.posts.isEmpty then d else d.postAll d.twin.posts

/-- A received item, after those that wait. -/
def Dev.post (d : Dev) (x : TwinPost) : Dev := ({ d with twin.posts := d.twin.posts ++ [x] }).postOn

/-- The bytes of an entry of the table in memory, whose form is not stated (log 7). -/
def Dev.shadowBytes (d : Dev) (i : Nat) : Dev :=
  match d.shadowAddr i with
  | none => d
  | some a => d.drawn.post (.bytes a ((List.range 128).map (Config.freeByte d.free)))

/-- One request's part of a record is applied. -/
def Dev.applyPart (d : Dev) (step : BitVec 16) (n : Nat) (p : TwinPart) : Dev :=
  let x : Shadow := ⟨n, step, p.req, d.partToken p⟩
  (d.drawn.setShadow p.entry (if x.state = .free then none else some x)).shadowBytes p.entry

/-- A mirrored write lies in a shadow area. -/
def Dev.inShadow (d : Dev) (a : Nat) : Bool :=
  match d.decodeAddr a with
  | .at l => (d.areaAt l.st l.row).any (fun x => decide (x.kind = 9))
  | _ => false

/-- TWIN_RECORD_APPLY: an item of the twin's stream; records and the end of a copy are acknowledged, once they and every
earlier write are applied (R294). -/
def Dev.applyItem (d : Dev) (x : TwinItem) : Dev :=
  match x with
  | .write a bs => if d.inShadow a.toNat then d.post (.bytes a.toNat bs) else d
  | .record _ step n _ parts => (parts.foldl (fun a p => a.applyPart step n.toNat p) d).post .ack
  | .copyEnd => d.post .ack

/-! ### The mirror stream, as its sender (R294, R450) -/

/-- The oldest item that is acknowledged by itself, and what follows it. -/
def nextAcked (l : List TwinItem) : Option (TwinItem × List TwinItem) :=
  match l with
  | [] => none
  | .write _ _ :: r => nextAcked r
  | x :: r => some (x, r)

/-- The step with the record `seq` is acknowledged. -/
def Ack.answered (a : Ack) (seq : Nat) : Ack := { a with acked := a.acked || decide (a.seq = seq) }

/-- A record with number `seq` is acknowledged: the deliveries held for it go, and the step's wait is over with the last of
them (R294, Table 4). -/
def Dev.recordAcked (d : Dev) (seq : Nat) : Dev :=
  let d1 := d.bump twinRecordsAt
  match d1.twin.acks.find? (fun a => decide (a.seq = seq)) with
  | some q => (({ d1 with twin.acks := d1.twin.acks.map (Ack.answered · seq) }).unhold q.dom).settleAcks
  | none => d1

/-- TWIN_ACK_RECEIVED: the oldest record, with every write before it, is acknowledged. -/
def Dev.ackReceived (d : Dev) : Dev :=
  match nextAcked d.twin.stream with
  | some (.record seq _ _ _ _, r) => ({ d with twin.stream := r }).recordAcked seq.toNat
  | some (.copyEnd, r) => { d with twin.stream := r, twin.synced := true }
  | _ => d

/-- TWIN_REPAIR_READ: data, or a refusal where the address does not decode (R296). A stripe that this device cannot
correct is refused too (log 34); a stack in self-refresh wakes first, and a busy cell or a lock is waited for (R165, R306). -/
def Dev.repairRead (d : Dev) (a len : Nat) : Dev :=
  match d.load repairWho a len with
  | .ok (d1, bs) => (d1.unserve repairWho.party).emit (.twinRepair (some bs))
  | .error .unmapped | .error (.repair _ _) => (d.unserve repairWho.party).emit (.twinRepair none)
  | .error (.lost st p) => (d.twinStopped repairWho false (.lost st p)).emit (.twinRepair none)
  | .error e => d.twinStopped repairWho false e

/-! ### Promotion (R453, R454) -/

/-- A log entry (Table 4). -/
def logEntry (shadow new outcome : Nat) (x : Shadow) : List Byte :=
  bytesOf (atBit outcome 28 + atBit new 16 + shadow) 4 ++ bytesOf (x.req.getD 10 0).toNat 4 ++
    bytesOf (fieldAt (x.req.getD 15 0).toNat 16 16) 4 ++ bytesOf (fieldAt (x.req.headD 0).toNat 0 4) 4

/-- Two words as a 64-bit value. -/
def pairWord (lo hi : Word) : BitVec 64 := BitVec.ofNat 64 (lo.toNat + atBit hi.toNat 32)

/-- The entry that a shadow entry becomes in domain `n`: every field as recorded but DOMAIN, `REQ_ELAPSED`,
CMD_PENDING and REFUSED (R454). -/
def Shadow.entry (x : Shadow) (n now order : Nat) : Req :=
  let w := fun (k : Nat) => x.req.getD k 0
  let c := (w 0).toNat
  let sp := (w 15).toNat
  { Req.zero with
    ringFull := bitAt c 14, needPages := bitAt c 13, needBudget := bitAt c 12, missed := bitAt c 11
    maxlen := bitAt c 10, eos := bitAt c 9, cancelLate := bitAt c 8, refuseCode := fieldAt c 22 4
    state := x.state
    cfg := BitVec.ofNat 32 ((w 1).toNat - atBit (fieldAt (w 1).toNat 24 4) 24 + atBit n 24)
    promptBase := pairWord (w 2) (w 3)
    pageList := pairWord (w 4) (w 5)
    outBase := pairWord (w 6) (w 7)
    promptLen := w 8, maxLen := w 9, genLen := w 10, promptDone := w 11, limits := w 12
    judged := fieldAt (w 12).toNat 0 16
    outWrite := BitVec.ofNat 16 (fieldAt (w 13).toNat 16 16)
    outRead := BitVec.ofNat 16 (fieldAt (w 13).toNat 0 16)
    since := some now
    lastStep := BitVec.ofNat 16 (fieldAt sp 16 16)
    probeCnt := fieldAt sp 8 8, zeroRun := fieldAt sp 4 4, draftLen := fieldAt sp 0 4
    lastToken := x.lastToken
    order := order
    promoted := true }

/-- The lowest entry that is FREE. -/
def Dev.freeEntry (d : Dev) : Option Nat := (List.range 4096).find? (fun i => decide ((d.req i).state = .free))

/-- What becomes of a shadow entry: the device, the outcome and the new entry. -/
def Dev.promoteEntry (d : Dev) (n : Nat) (x : Shadow) : Dev × Nat × Nat :=
  match x.state with
  | .queued | .prefill | .active =>
    match d.freeEntry with
    | none => (d, 3, 0)
    | some i =>
      let q := x.entry n d.now d.serve.orders
      if d.img.str.customers ≤ q.customer then (d, 5, 0)
      else if (d.bundleOf n q.bundle).isNone then (d, 4, 0)
      else (((({ d with serve.orders := d.serve.orders + 1 }).setReq i q).changed i).bump twinPromotionsAt, 0, i)
  | .parking | .parked | .resuming => (d, 2, 0)
  | _ => (d, 1, 0)

/-- The accesses of the engine that promotes: pennants bind them. -/
def promoteWho : Who := ⟨.host, .stream, true, 0, 11⟩

/-- The engine writes a log entry into the page. -/
def Dev.writeLog (d : Dev) (page k : Nat) (bs : List Byte) : Acc Dev :=
  match d.store promoteWho (d.windowAddr page (16 * k)) bs with
  | .ok d1 => .ok (d1.unserve promoteWho.party)
  | .error (.lost s p) => .ok (d.twinStopped promoteWho false (.lost s p))
  | .error e => .error e

/-- The number of entries of the promotion log. -/
def Dev.countPromotions (d : Dev) (k : Nat) : Dev := { d with twin.promoteCount := k }

/-- One shadow entry is promoted, recorded in the promotion log, and its slot emptied. -/
def Dev.promoteOne (d : Dev) (n page i : Nat) (x : Shadow) : Acc Dev :=
  let p := d.promoteEntry n x
  let k := p.1.twin.promoteCount
  (p.1.writeLog page k (logEntry i p.2.2 p.2.1 x)).andThen fun d1 =>
    .ok ((d1.setShadow i none).countPromotions (k + 1))

/-- The promotion waits for the write of its log (R165, R306, R369, R408). -/
def Dev.promoteWaits (d : Dev) (q : Promotion) (e : Stop) : Dev :=
  ({ d with twin.promoting := some { q with waited := q.waited || e.onPage } }).twinStopped promoteWho q.waited e

/-- Shadow entries are promoted, in entry order, up to one whose log entry waits; the target domain composes them when all
are. -/
def Dev.promoteAll (d : Dev) (q : Promotion) (es : List (Nat × Option Shadow)) : Dev :=
  match es with
  | [] => ({ d with twin.promoting := none }).prompt q.dst
  | (i, some x) :: r =>
    (d.promoteOne q.dst q.page i x).fold (d.promoteWaits q) fun d1 => d1.promoteAll { q with waited := false } r
  | (_, none) :: r => d.promoteAll q r

/-- The promotion in progress goes on with the entries of its source domain. -/
def Dev.promoteOn (d : Dev) : Dev :=
  match d.twin.promoting with
  | some q => d.promoteAll q (d.twin.shadow.filter (fun e => e.2.any (fun x => decide (x.domain = q.src))))
  | none => d

/-- The refusal of a promotion; 0: none (R453). -/
def Dev.promoteRefusal (d : Dev) : Nat :=
  if d.twin.st ≠ 0 then 1
  else if !d.twin.promotable then 2
  else if (d.domEnt d.twin.dstDomain).isNone then 3
  else if d.windowPages ≤ d.twin.promotePage || !d.pennant d.twin.promotePage then 4
  else 0

/-- TWIN_PROMOTE: the fields, and with GO the promotion, unless one is in progress; it reads the pennant of its page (R445). -/
def Dev.promote (d : Dev) (v : Nat) : Dev :=
  let d1 := { d with twin.dstDomain := fieldAt v 20 4, twin.srcDomain := fieldAt v 16 4 }
  if !bitAt v 31 || d1.twin.promoting.isSome then d1
  else if d1.pennantBad d1.twin.promotePage then d1.chipFault codeChipParity
  else
    match d1.promoteRefusal with
    | 0 => ({ d1 with
        twin.promoteCode := 0
        twin.promoteCount := 0
        twin.promoting := some ⟨d1.twin.srcDomain, d1.twin.dstDomain, d1.twin.promotePage, false⟩ }).promoteOn
    | code => { d1 with twin.promoteCode := code }

/-! ### Replays (R272, R273) -/

/-- The number of a link, and of its channel where it has several (R268), among the counts of consecutive failures. -/
def linkKey (l : Link) (channel : Fin 25) : Nat :=
  match l with
  | .fabric r dir => (r.val * 6 + dir.val) * 25 + channel.val
  | .bond st => 3000 + st.val
  | .span p => 3100 + p.val
  | .twin => 3200

/-- A router has a link in the direction (R267, Table 6 of 11): an I/O die joins three routers of its column, and nodes
of the tree. -/
def fabricLink (router dir : Nat) : Bool :=
  if 12 ≤ router then 4 ≤ dir
  else
    match dir with
    | 0 => decide (4 ≤ router)
    | 1 => decide (router % 4 < 3)
    | 2 => decide (router < 8)
    | 3 => decide (0 < router % 4)
    | 4 => decide (router % 4 = 0) || decide (router % 4 = 3)
    | _ => true

/-- The link carries flits: the twin link from the training of an attach on (R288). -/
def Dev.linkRuns (d : Dev) (l : Link) : Bool :=
  !d.clk.coast && d.regsLive &&
    (match l with
     | .fabric r dir => fabricLink r.val dir.val
     | .bond st => d.stackPresent st.val
     | .span p => d.spanPresent && decide ((d.span p.val).st = 2)
     | .twin => decide (d.twin.st ≠ 0))

/-- The counter of a link's owner (Table 1). -/
def replaysAt (l : Link) : Nat :=
  match l with
  | .fabric _ _ => fabricReplaysAt
  | .bond st => bondReplaysAt st.val
  | .span p => spanReplaysAt p.val
  | .twin => twinReplaysAt

/-- Codes BOND_LINK and FABRIC_LINK (Table 1 of 19). -/
def codeBondLink : Nat := 0x41
def codeFabricLink : Nat := 0x80

/-- The link is uncorrectable (Table 1). -/
def Dev.linkFails (d : Dev) (l : Link) : Dev :=
  match l with
  | .fabric r dir => ({ d with net.failed := d.net.failed.or (some (r.val, dir.val)) }).chipFault codeFabricLink
  | .bond st => d.regionFault (st.val / 2) codeBondLink 6
  | .span p => d.spanFails p.val
  | .twin => if d.twin.st = 1 then d.attachFails 3 else d.detach 3

/-- LINK_REPLAY: a replay of the channel's oldest flit is counted; one that succeeds ends that flit's failures, and the
eighth failed replay in a row ends the link (log 35). -/
def Dev.replay (d : Dev) (l : Link) (channel : Fin 25) (failed : Bool) : Dev :=
  let k := linkKey l channel
  let n := if failed then Tab.read (fun _ => 0) d.net.fails k + 1 else 0
  let d1 := d.bump (replaysAt l)
  if n < 8 then { d1 with net.fails := Tab.write (fun _ => 0) d1.net.fails k n }
  else ({ d1 with net.fails := Tab.write (fun _ => 0) d1.net.fails k 0 }).linkFails l

/-! ### Meanings -/

/-- LINK_REPLAY (R272, R273). -/
def execLinkReplay (r : FlitReplay) (s : State) : Result State :=
  s.always fun d => d.when (d.linkRuns r.link) fun d => d.replay r.link r.channel r.failed

/-- TWIN_ATTACH (R288): a write of 1 to `TWIN_CTL.ATTACH`. -/
def execTwinAttach (s : State) : Result State := s.hosted .twinAttach fun d => d.when d.hostReady Dev.tryAttach

/-- TWIN_ATTACHED (R288, R450, R491). -/
def execTwinAttached (hello : TwinHello) (areas : List MirrorArea) (s : State) : Result State :=
  s.checked (wellFormed (.twinAttached hello areas)) fun d => d.twinAnswers hello areas

/-- TWIN_DETACH (R290): a write of 1 to `TWIN_CTL.DETACH`. -/
def execTwinDetach (s : State) : Result State := s.hosted .twinDetach fun d => d.when d.hostReady fun d => d.detach 5

/-- TWIN_HEARTBEAT_SEND (R289). -/
def execTwinHeartbeatSend (s : State) : Result State :=
  s.always fun d => d.when (decide (d.twin.st = 2) && !d.clk.coast) fun d => d.emit .twinHeartbeat

/-- TWIN_HB_TOGGLE (R289, R413). -/
def execTwinHbToggle (s : State) : Result State :=
  s.always fun d => d.when d.hbDriven fun d => { d with twin.hbOut := !d.twin.hbOut }

/-- HEARTBEAT_TIMEOUT (R290). -/
def execHeartbeatTimeout (s : State) : Result State :=
  s.always fun d => d.when (decide (d.twin.st = 2)) Dev.heartbeatTimeout

/-- The item is a step record. -/
def isStepRecord (x : TwinItem) : Bool :=
  match x with
  | .record _ _ _ command _ => !command
  | _ => false

/-- ACK_TIMEOUT (R290): a step record of the stream is not acknowledged. -/
def execAckTimeout (s : State) : Result State :=
  s.always fun d => d.when (d.twin.stream.any isStepRecord) fun d => d.detach 4

/-- TWIN_RECORD_APPLY (R291 to R293). -/
def execTwinRecordApply (item : TwinItem) (s : State) : Result State :=
  s.checked (wellFormed (.twinRecordApply item)) fun d =>
    d.when (decide (d.twin.st = 2) && !d.clk.coast) fun d => d.applyItem item

/-- TWIN_ACK_RECEIVED (R294, R450). -/
def execTwinAckReceived (s : State) : Result State :=
  s.always fun d => d.when (decide (d.twin.st = 2)) Dev.ackReceived

/-- TWIN_REPAIR_READ (R296). -/
def execTwinRepairRead (addr : BitVec 48) (len : Nat) (s : State) : Result State :=
  s.checked (wellFormed (.twinRepairRead addr len)) fun d =>
    d.when (decide (d.twin.st = 2) && !d.clk.coast) fun d => d.repairRead addr.toNat len

/-- TWIN_PROMOTE (R453). -/
def execTwinPromote (v : Word) (s : State) : Result State :=
  s.hosted (.twinPromote v) fun d => d.when d.hostReady fun d => d.promote v.toNat

/-- LINK_HEARTBEAT_ARRIVAL (R289, R290). -/
def execLinkHeartbeatArrival (s : State) : Result State :=
  s.always fun d => d.when (decide (d.twin.st = 2) && !d.clk.coast) fun d => { d with twin.linkBeat := true }

/-- ATTACH_FAILURE (R288, R491). -/
def execAttachFailure (why : AttachFail) (s : State) : Result State :=
  s.always fun d => d.when (decide (d.twin.st = 1)) fun d =>
    d.attachFails (match why with
      | .train => 7
      | .mismatch => 6)

/-- TWIN_PRESENT_IN_CHANGE (R287, R482). -/
def execTwinPresentInChange (level : Bool) (s : State) : Result State := s.always fun d => d.presence level

/-- TWIN_HB_IN_EDGE (R290, R482). -/
def execTwinHbInEdge (level : Bool) (s : State) : Result State := s.always fun d => d.hbEdge level

end Sys2Proof.Machine
end

