-- ==== Sys2Proof/Machine/Image.lean ====
section
/-! DEFINITION. The structure image (13_structure_image): the copy, validation in the order of R354, and application. -/

namespace Sys2Proof.Machine
open Sys2Proof

/-! ### Checks and where they fail -/

/-- A failure: CODE, SECTION, OFFSET (R354). -/
structure Bad where
  code : Nat
  sect : Nat
  off : Nat
  deriving DecidableEq, Repr

/-- The result of a check. -/
abbrev Chk (α : Type) := Except Bad α

/-- A check: its condition, or a failure. -/
def must (ok : Bool) (b : Bad) : Chk Unit := if ok then .ok () else .error b

/-- Codes of Table 11. -/
def imgMagic : Nat := 0x01
def imgVersion : Nat := 0x02
def imgLength : Nat := 0x03
def imgDigest : Nat := 0x04
def imgFrame : Nat := 0x05
def imgReserved : Nat := 0x06
def imgFused : Nat := 0x07
def imgDomain : Nat := 0x08
def imgArea : Nat := 0x09
def imgOverlap : Nat := 0x0A
def imgMirror : Nat := 0x0B
def imgWindow : Nat := 0x0C
def imgSlot : Nat := 0x0D
def imgQueue : Nat := 0x0E
def imgRoute : Nat := 0x0F
def imgSpan : Nat := 0x10
def imgEvent : Nat := 0x11
def imgPower : Nat := 0x12
def imgThermal : Nat := 0x13
def imgTwin : Nat := 0x14
def imgCustomer : Nat := 0x15
def imgRepair : Nat := 0x16
def imgCopyUe : Nat := 0x17

/-- SECTION of the header and of final checks. -/
def noSection : Nat := 0xFFFF

/-- An entry of a section: its section, its place in the image, its length in bytes, its bits as a number. -/
structure Ent where
  sect : Nat
  pos : Nat
  len : Nat
  w : Nat
  deriving DecidableEq, Repr

/-- A field of an entry. -/
def Ent.f (e : Ent) (lo n : Nat) : Nat := fieldAt e.w lo n

/-- A failure at bit `bit` of the entry. -/
def Ent.bad (e : Ent) (code bit : Nat) : Bad := ⟨code, e.sect, e.pos + bit / 8⟩

/-- The lowest bit that is set outside the named fields (lowest bit and width). -/
def Ent.reserved (e : Ent) (named : List (Nat × Nat)) : Option Nat :=
  (List.range (8 * e.len)).find? (fun i => bitAt e.w i && !named.any (fun f => decide (f.1 ≤ i) && decide (i < f.1 + f.2)))

/-- A check of an entry: the bit it is located at, its condition, its code. -/
structure Rule where
  bit : Nat
  ok : Bool
  code : Nat

/-- Single-field checks, with the reserved bits, in increasing position; then relations in their order (R354). -/
def Ent.check (e : Ent) (named : List (Nat × Nat)) (singles rels : List Rule) : Chk Unit :=
  match e.reserved named, singles.find? (fun r => !r.ok) with
  | some b, some r => .error (if b < r.bit then e.bad imgReserved b else e.bad r.code r.bit)
  | some b, none => .error (e.bad imgReserved b)
  | none, some r => .error (e.bad r.code r.bit)
  | none, none =>
    match rels.find? (fun r => !r.ok) with
    | some r => .error (e.bad r.code r.bit)
    | none => .ok ()

/-! ### Header and framing (R330, R331) -/

/-- The header checks (Table 10, order 1); LENGTH. `room`: bytes from the image's first byte to the end of the window. -/
def checkHeader (img : List Byte) (room : Nat) : Chk Nat :=
  let at_ := fun (k n : Nat) => fieldOf img k n
  let n := at_ 8 4
  let b := fun (code off : Nat) => (⟨code, noSection, off⟩ : Bad)
  do
    must (at_ 0 4 == 0x5254534B) (b imgMagic 0)
    must (at_ 5 1 == 1) (b imgVersion 4)
    must (at_ 6 2 == 0) (b imgReserved (if at_ 6 1 == 0 then 7 else 6))
    must (n % 8 == 0 && 64 ≤ n && n ≤ 2 ^ 24 && n ≤ room) (b imgLength 8)
    must (at_ 0xE 2 == 0) (b imgReserved (if at_ 0xE 1 == 0 then 0xF else 0xE))
    must (decide (slice img 16 48 = sha384 (slice img 64 (n - 64)))) (b imgDigest 16)
    pure n

/-- A section: its place in the image, its TYPE, the length of its body. -/
structure Sect where
  pos : Nat
  type : Nat
  size : Nat
  deriving DecidableEq, Repr

/-- Entry size, least and greatest number of entries of a section type (Table 4). -/
def entrySize (t : Nat) : Nat :=
  match t with
  | 1 => 16 | 2 => 16 | 3 => 32 | 4 => 16 | 5 => 4 | 7 => 4 | 8 => 16 | 9 => 16 | 10 => 8 | 11 => 16
  | _ => 8
def entryMost (t : Nat) : Nat :=
  match t with
  | 1 => 12 | 3 => 4096 | 4 => 384 | 5 => 132 | 7 => 2047 | 11 => 65536
  | _ => 1
/-- Types that occur exactly once. -/
def requiredType (t : Nat) : Bool := t == 1 || t == 3 || t == 10
/-- The type is in Table 4. -/
def knownSection (t : Nat) : Bool := 1 ≤ t && t ≤ 11

/-- The body length that Table 4, or R345, allows: NPORT and NTREE are 0 to 12. -/
def bodyOk (img : List Byte) (pos t size : Nat) : Bool :=
  if t = 6 then
    let ports := fieldAt (fieldOf img (pos + 8) 8) 0 4
    let trees := fieldAt (fieldOf img (pos + 8) 8) 8 4
    decide (8 ≤ size) && decide (ports ≤ 12) && decide (trees ≤ 12) && decide (size = 8 + 40 * ports + 8 * trees)
  else if knownSection t then
    decide (size % entrySize t = 0) && decide (1 ≤ size / entrySize t) && decide (size / entrySize t ≤ entryMost t)
  else true

/-- Sections from byte `pos` on, `k` of them already found (Table 10, order 2). -/
def frame (img : List Byte) (n pos k : Nat) : Nat → Chk (List Sect)
  | 0 => .ok []
  | fuel + 1 =>
    if n ≤ pos then .ok []
    else
      let w := fieldOf img pos 8
      let t := fieldAt w 0 16
      let size := fieldAt w 32 32
      do
        must (knownSection t || bitAt w 16) ⟨imgFrame, k, pos⟩
        must (fieldAt w 17 15 == 0) ⟨imgReserved, k, pos + (if fieldAt w 17 7 == 0 then 3 else 2)⟩
        must (size % 8 == 0 && decide (pos + 8 + size ≤ n) && bodyOk img pos t size) ⟨imgFrame, k, pos + 4⟩
        let r ← frame img n (pos + 8 + size) (k + 1) fuel
        pure (⟨pos, t, size⟩ :: r)

/-- The places of the sections of a type, in image order. -/
def placesOf (ss : List Sect) (t : Nat) : List Nat :=
  (List.range ss.length).filter (fun i => (ss[i]?.map (·.type)) == some t)

/-- The presence that Table 4 asks of a type. -/
def checkPresence (ss : List Sect) (n t : Nat) : Chk Unit :=
  match placesOf ss t with
  | [] => must (!requiredType t) ⟨imgFrame, noSection, n⟩
  | [_] => .ok ()
  | _ :: i :: _ => .error ⟨imgFrame, i, (ss[i]?.map (·.pos)).getD 0⟩

/-- Framing: the sections, their count, their presence. -/
def checkFrames (img : List Byte) (n : Nat) : Chk (List Sect) := do
  let ss ← frame img n 64 0 (n / 8)
  must (decide (ss.length = fieldOf img 0xC 2)) ⟨imgFrame, noSection, 0xC⟩
  (List.range 11).forM (fun i => checkPresence ss n (i + 1))
  pure ss

/-- The entries of a section from byte `pos` on, `size` bytes each. -/
def entsAt (img : List Byte) (k pos size n : Nat) : List Ent :=
  (List.range n).map (fun i => ⟨k, pos + size * i, size, fieldOf img (pos + size * i) size⟩)

/-- The entries of the section of a type; none where it is absent. -/
def entsOf (img : List Byte) (ss : List Sect) (t : Nat) : List Ent :=
  match placesOf ss t with
  | i :: _ =>
    match ss[i]? with
    | some s => entsAt img i (s.pos + 8) (entrySize t) (s.size / entrySize t)
    | none => []
  | [] => []

/-! ### What the checks gather -/

/-- A queue of the image (R341). -/
structure QueueEnt where
  region : Nat
  num : Nat
  cfg : BitVec 64
  flags : Word
  deriving DecidableEq, Repr

/-- A span port record (Table 8). -/
structure PortRec where
  port : Nat
  en : Bool
  id : Nat
  partner : Nat
  /-- Channel and domain of each valid slot. -/
  chans : List (Nat × Nat)
  deriving DecidableEq, Repr

/-- An entry of the EVENTS section. -/
structure EventEnt where
  src : Nat
  cfg : EvCfg
  mask : Bool
  deriving DecidableEq, Repr

/-- An entry of the REPAIRS section. -/
structure Repair where
  st : Nat
  remap : Bool
  die : Nat
  bank : Nat
  row : Nat
  spare : Nat
  retired : Option Nat
  deriving DecidableEq, Repr

/-- A validated image. -/
structure Draft where
  str : Structure
  queues : List QueueEnt
  ports : List PortRec
  events : List EventEnt
  budgets : Option (List Nat)
  /-- The fields of the THERMAL body, in its order. -/
  thermal : Option (List Nat)
  mcommit : Nat
  repairs : List Repair
  deriving DecidableEq, Repr

/-! ### DOMAINS (R332) -/

/-- Bits of a mask that name units for which `p` is false. -/
def anyBit (w n : Nat) (p : Nat → Bool) : Bool := (bitsOf w n).any p

/-- One entry, after the earlier ones. -/
def checkDomain (d : Dev) (ds : List DomEnt) (e : Ent) : Chk DomEnt :=
  let m := e.f 16 12
  do
    e.check [(0, 4), (4, 1), (16, 12)]
      [⟨16, !anyBit m 12 (fun r => !d.regionPresent r), imgFused⟩, ⟨16, m != 0, imgDomain⟩]
      [⟨0, !ds.any (fun x => decide (x.num = e.f 0 4)), imgDomain⟩,
       ⟨16, !anyBit m 12 (fun r => ds.any (fun x => x.regions.getLsbD r)), imgDomain⟩]
    pure ⟨e.f 0 4, bitAt e.w 4, BitVec.ofNat 12 m⟩

/-- The entries in order. -/
def checkDomains (d : Dev) (ds : List DomEnt) (es : List Ent) : Chk (List DomEnt) :=
  match es with
  | [] => .ok ds
  | e :: r => do
    let x ← checkDomain d ds e
    checkDomains d (ds ++ [x]) r

/-- The conditions on all entries together, located in the last one. -/
def checkDomainSet (d : Dev) (ds : List DomEnt) (es : List Ent) : Chk Unit :=
  match es.getLast? with
  | none => .ok ()
  | some e => do
    must (ds.all (fun x => decide (x.num < ds.length))) (e.bad imgDomain 0)
    must (d.regionsPresent.all (fun r => ds.any (fun x => x.regions.getLsbD r))) (e.bad imgDomain 16)

/-- The value names a domain of the image. -/
def namesDomain (ds : List DomEnt) (n : Nat) : Bool := ds.any (fun x => decide (x.num = n))
/-- The domain of a region in the image. -/
def domainIn (ds : List DomEnt) (r : Nat) : Option Nat := (ds.find? (fun x => x.regions.getLsbD r)).map (·.num)

/-! ### AREAS (R333 to R338, R340) -/

/-- The area of an entry. -/
def areaOf (e : Ent) : Area where
  kind := e.f 0 8
  mirrored := bitAt e.w 8
  twinRepair := bitAt e.w 9
  outMirror := bitAt e.w 10
  records := bitAt e.w 11
  domain := e.f 16 4
  bankView := bitAt e.w 20
  mstep := e.f 21 3
  region := e.f 24 4
  level := e.f 28 3
  onStacks := BitVec.ofNat 24 (e.f 32 24)
  first := e.f 64 15
  count := e.f 96 15

/-- Stacks of an area, and of its mirrors. -/
def Area.own (a : Area) : List Nat := (List.range 24).filter (fun s => a.onStacks.getLsbD s)
def Area.mirrors (a : Area) : List Nat := if a.mirrored then a.own.map a.mirrorOf else []
/-- Two band ranges meet. -/
def Area.bandsMeet (a b : Area) : Bool := decide (a.first < b.first + b.count) && decide (b.first < a.first + a.count)
/-- Some band of some stack belongs to both areas. -/
def Area.overlaps (a b : Area) : Bool :=
  a.bandsMeet b && (a.own ++ a.mirrors).any (fun s => (b.own ++ b.mirrors).contains s)
/-- The view that Table 7 gives a kind. -/
def kindView (k : Nat) : Option Bool :=
  match k with
  | 2 => some true
  | 6 => some true
  | 3 => some false
  | 4 => some false
  | 5 => some false
  | 7 => some false
  | 8 => some false
  | _ => none
/-- Kinds on which R335 and R338 forbid mirrors: PARK_POOL, SAVE_SLOT, WINDOW, SHADOW. -/
def unmirroredKind (k : Nat) : Bool := k == 3 || k == 4 || k == 8 || k == 9
/-- Bands of the WINDOW area (R336). -/
def Dev.windowBands (d : Dev) : Nat := ceilDiv (ceilDiv d.windowPages d.stacksPresent.length) 2
/-- Granules of the park pool (R340). -/
def poolGranules (as : List Area) : Nat := ((as.filter (fun a => decide (a.kind = 3))).map areaGranules).sum

/-- The single-field checks of an area. -/
def areaSingles (d : Dev) (ds : List DomEnt) (twin : Bool) (a : Area) : List Rule :=
  let slot := a.kind == 4
  [⟨0, a.kind ≤ 9, imgReserved⟩, ⟨0, a.kind != 9 || twin, imgArea⟩, ⟨9, !a.twinRepair || twin, imgTwin⟩,
   ⟨10, !a.outMirror || twin, imgTwin⟩, ⟨16, a.domain == 15 || namesDomain ds a.domain, imgDomain⟩,
   ⟨24, !slot || a.region ≤ 11, imgArea⟩, ⟨24, !slot || d.regionPresent a.region, imgFused⟩,
   ⟨24, slot || a.region == 0, imgReserved⟩, ⟨28, slot || a.level == 0, imgReserved⟩, ⟨32, a.own.all d.stackPresent, imgFused⟩,
   ⟨96, 1 ≤ a.count && a.count ≤ 20480, imgArea⟩]

/-- The relations of an area, to its own fields and to the earlier areas. -/
def areaRels (d : Dev) (ds : List DomEnt) (as : List Area) (a : Area) : List Rule :=
  let k := a.kind
  [⟨96, a.first + a.count ≤ 20480, imgArea⟩,
   ⟨20, (kindView k).all (fun v => v == a.bankView), imgArea⟩,
   ⟨64, k != 2 || a.first % 2 == 0, imgArea⟩, ⟨96, k != 2 || a.count % 2 == 0, imgArea⟩,
   ⟨16, (k != 3 && k != 9) || a.domain == 15, imgArea⟩,
   ⟨24, k != 4 || domainIn ds a.region == some a.domain, imgArea⟩,
   ⟨28, k != 4 || !as.any (fun b => b.kind == 4 && b.region == a.region && b.level == a.level), imgArea⟩,
   ⟨9, !a.twinRepair || (k != 3 && k != 4 && k != 9), imgArea⟩,
   ⟨11, !a.records || k == 9, imgArea⟩,
   ⟨32, a.mirrors.all d.stackPresent, imgFused⟩,
   ⟨8, !a.mirrored || !unmirroredKind k, imgMirror⟩,
   ⟨21, if a.mirrored then 1 ≤ a.mstep && a.mstep ≤ 5 else a.mstep == 0, imgMirror⟩,
   ⟨0, k != 8 || !as.any (fun b => b.kind == 8), imgWindow⟩,
   ⟨32, k != 8 || a.own == d.stacksPresent, imgWindow⟩,
   ⟨64, k != 8 || a.first == 0, imgWindow⟩,
   ⟨96, k != 8 || a.count == d.windowBands, imgWindow⟩,
   ⟨64, !as.any a.overlaps && a.mirrors.all (fun s => !a.own.contains s), imgOverlap⟩,
   ⟨10, !a.outMirror || !unmirroredKind k, imgArea⟩,
   ⟨16, !a.outMirror || a.domain != 15, imgArea⟩,
   ⟨96, k != 3 || poolGranules (as ++ [a]) ≤ 16777215, imgArea⟩]

/-- The areas in order. -/
def checkAreas (d : Dev) (ds : List DomEnt) (twin : Bool) (as : List Area) (es : List Ent) : Chk (List Area) :=
  match es with
  | [] => .ok as
  | e :: r =>
    let a := areaOf e
    do
      e.check [(0, 12), (16, 15), (32, 24), (64, 15), (96, 15)] (areaSingles d ds twin a) (areaRels d ds as a)
      checkAreas d ds twin (as ++ [a]) r

/-! ### QUEUES (R341, R342) -/

/-- The queue of an entry. -/
def queueEntOf (e : Ent) : QueueEnt := ⟨e.f 0 4, e.f 8 5, BitVec.ofNat 64 (e.f 64 64), BitVec.ofNat 32 (e.f 32 32)⟩
/-- The queue with its registers set. -/
def QueueEnt.queue (x : QueueEnt) : Queue := { Queue.zero with cfg := x.cfg, flags := x.flags }
/-- Bytes of a queue's storage. -/
def Queue.bytes (q : Queue) : Nat := q.cap * q.esize
/-- Two storages meet. -/
def Queue.meets (a b : Queue) : Bool := decide (a.base < b.base + b.bytes) && decide (b.base < a.base + a.bytes)
/-- Block buffers in which a queue takes room: its consumer's, and its producer's port. -/
def QueueEnt.consumerBlk (x : QueueEnt) : Nat := 4 * x.region + x.queue.consumer
def QueueEnt.portBlk (x : QueueEnt) : Option Nat :=
  if x.queue.kind = 2 then some (4 * x.queue.prodRegion + x.queue.prodBlock) else none

/-- The storage of one queue overlaps the storage or the port of another within a block (R342). -/
def QueueEnt.clashes (x y : QueueEnt) : Bool :=
  x.queue.meets y.queue &&
    (x.consumerBlk == y.consumerBlk || y.portBlk == some x.consumerBlk || x.portBlk == some y.consumerBlk)

/-- The flag is a READY or CONTROL flag of a queue of the region. -/
def flagUsed (qs : List QueueEnt) (r f : Nat) : Bool :=
  qs.any (fun y => y.region == r && (y.queue.ready == f || y.queue.control == f))

/-- The queues in order. -/
def checkQueues (d : Dev) (ds : List DomEnt) (qs : List QueueEnt) (es : List Ent) : Chk (List QueueEnt) :=
  match es with
  | [] => .ok qs
  | e :: r =>
    let x := queueEntOf e
    let q := x.queue
    let blk := q.kind == 2
    do
      e.check [(0, 4), (8, 5), (32, 10), (48, 10), (64, 12), (81, 41)]
        [⟨0, x.region ≤ 11, imgQueue⟩, ⟨0, d.regionPresent x.region, imgFused⟩, ⟨32, q.ready != 0, imgQueue⟩,
         ⟨48, q.control != 0, imgQueue⟩, ⟨64, 4 * 4096 ≤ q.base, imgQueue⟩, ⟨81, q.cap != 1, imgQueue⟩,
         ⟨116, !blk || 11 < q.prodRegion || d.regionPresent q.prodRegion, imgFused⟩,
         ⟨120, q.kind == 1 || blk, imgQueue⟩]
        [⟨8, !qs.any (fun y => y.region == x.region && y.num == x.num), imgQueue⟩, ⟨100, q.thresh ≤ q.pkt, imgQueue⟩,
         ⟨64, q.base + q.bytes ≤ 2 ^ 24, imgQueue⟩, ⟨48, q.control != q.ready, imgQueue⟩,
         ⟨32, !flagUsed qs x.region q.ready, imgQueue⟩, ⟨48, !flagUsed qs x.region q.control, imgQueue⟩,
         ⟨116, !blk || (q.prodRegion ≤ 11 && (domainIn ds q.prodRegion).isSome &&
           domainIn ds q.prodRegion == domainIn ds x.region), imgQueue⟩,
         ⟨114, x.portBlk != some x.consumerBlk, imgQueue⟩, ⟨64, !qs.any x.clashes, imgQueue⟩]
      checkQueues d ds (qs ++ [x]) r

/-! ### ROUTES (R344) -/

/-- Pairs already named, and those routed Y-first. -/
def checkRoutes (d : Dev) (named yf : List (Nat × Nat)) (es : List Ent) : Chk (List (Nat × Nat)) :=
  match es with
  | [] => .ok yf
  | e :: r =>
    let p := (e.f 0 4, e.f 4 4)
    do
      e.check [(0, 9)]
        [⟨0, p.1 ≤ 11, imgRoute⟩, ⟨0, d.regionPresent p.1, imgFused⟩, ⟨4, p.2 ≤ 11, imgRoute⟩,
         ⟨4, d.regionPresent p.2, imgFused⟩]
        [⟨4, p.1 != p.2, imgRoute⟩, ⟨4, !named.contains p, imgRoute⟩]
      checkRoutes d (named ++ [p]) (if bitAt e.w 8 then yf ++ [p] else yf) r

/-! ### SPAN (R345, R346) -/

/-- A valid slot of a port record: its place, channel and domain. -/
structure ChanSlot where
  at_ : Nat
  num : Nat
  domain : Nat
  deriving DecidableEq, Repr

/-- Valid slots of a port record. -/
def slotsOf (e : Ent) : List ChanSlot :=
  ((List.range 16).filter (fun c => bitAt e.w (64 + 16 * c + 15))).map (fun c =>
    ⟨64 + 16 * c, e.f (64 + 16 * c) 8, e.f (64 + 16 * c + 8) 4⟩)

/-- Channels that appear among earlier slots. -/
def repeatRules (seen : List Nat) (l : List ChanSlot) : List Rule :=
  match l with
  | [] => []
  | c :: r => ⟨c.at_, !seen.contains c.num, imgSpan⟩ :: repeatRules (c.num :: seen) r

/-- The port records in order. -/
def checkPorts (d : Dev) (ds : List DomEnt) (ps : List PortRec) (es : List Ent) : Chk (List PortRec) :=
  match es with
  | [] => .ok ps
  | e :: r =>
    let l := slotsOf e
    let en := bitAt e.w 4
    let slots := (List.range 16).flatMap (fun c => [(64 + 16 * c, 12), (64 + 16 * c + 15, 1)])
    do
      e.check ([(0, 5), (8, 6), (16, 4)] ++ slots)
        ([⟨0, e.f 0 4 ≤ 11, imgSpan⟩, ⟨4, !en || d.spanPresent, imgFused⟩] ++
          l.flatMap (fun c => [⟨c.at_, c.num != 255, imgSpan⟩, ⟨c.at_ + 8, namesDomain ds c.domain, imgDomain⟩]))
        ([⟨0, !ps.any (fun p => p.port == e.f 0 4), imgSpan⟩] ++ repeatRules [] l ++
          l.map (fun c => ⟨c.at_, en, imgSpan⟩))
      checkPorts d ds (ps ++ [⟨e.f 0 4, en, e.f 8 6, e.f 16 4, l.map (fun c => (c.num, c.domain))⟩]) r

/-- The port is enabled by a record. -/
def portOn (ps : List PortRec) (p : Nat) : Bool := ps.any (fun x => x.port == p && x.en)

/-- The tree records in order. -/
def checkTrees (d : Dev) (ds : List DomEnt) (ps : List PortRec) (ts : List SpanTree) (es : List Ent) :
    Chk (List SpanTree) :=
  match es with
  | [] => .ok ts
  | e :: r =>
    let t : SpanTree := ⟨e.f 0 4, bitAt e.w 4, e.f 8 4, BitVec.ofNat 12 (e.f 16 12)⟩
    do
      e.check [(0, 5), (8, 4), (16, 12)]
        [⟨0, d.spanPresent, imgFused⟩, ⟨0, namesDomain ds t.domain, imgDomain⟩, ⟨16, t.kids.length ≤ 4, imgSpan⟩]
        [⟨0, !ts.any (fun x => x.domain == t.domain), imgSpan⟩, ⟨8, t.root || portOn ps t.parent, imgSpan⟩,
         ⟨8, t.root || !t.kids.contains t.parent, imgSpan⟩, ⟨16, t.kids.all (portOn ps), imgSpan⟩,
         ⟨8, !t.root || t.parent == 0, imgSpan⟩]
      checkTrees d ds ps (ts ++ [t]) r

/-- The whole section: its head, its port records, its tree records. -/
def checkSpan (d : Dev) (img : List Byte) (ss : List Sect) (ds : List DomEnt) : Chk (List PortRec × List SpanTree) :=
  match placesOf ss 6 with
  | i :: _ =>
    let pos := ((ss[i]?.map (·.pos)).getD 0) + 8
    let h : Ent := ⟨i, pos, 8, fieldOf img pos 8⟩
    do
      h.check [(0, 4), (8, 4)] [] []
      let ps ← checkPorts d ds [] (entsAt img i (pos + 8) 40 (h.f 0 4))
      let ts ← checkTrees d ds ps [] (entsAt img i (pos + 8 + 40 * h.f 0 4) 8 (h.f 8 4))
      pure (ps, ts)
  | [] => .ok ([], [])

/-! ### EVENTS, POWER, THERMAL, CUSTOMERS (R347 to R349, R351) -/

/-- The events in order. -/
def checkEvents (xs : List EventEnt) (es : List Ent) : Chk (List EventEnt) :=
  match es with
  | [] => .ok xs
  | e :: r => do
    e.check [(0, 25)]
      [⟨0, listedSource (e.f 0 11), imgEvent⟩, ⟨15, e.f 15 9 ≤ 256, imgEvent⟩]
      [⟨0, !xs.any (fun x => x.src == e.f 0 11), imgEvent⟩]
    checkEvents (xs ++ [⟨e.f 0 11, ⟨e.f 11 4, e.f 15 9⟩, bitAt e.w 24⟩]) r

/-- The budgets; the sum is checked die by die. -/
def checkPower (d : Dev) (es : List Ent) : Chk (Option (List Nat)) :=
  match es with
  | [] => .ok none
  | e :: _ =>
    let b := (List.range 6).map (fun t => e.f (16 * t) 16)
    do
      e.check [(0, 96)]
        ((List.range 6).map (fun t => ⟨16 * t,
          if d.tdiePresent t then 250 ≤ b.getD t 0 && b.getD t 0 ≤ 600 else b.getD t 0 == 0, imgPower⟩))
        ((List.range 6).map (fun t => ⟨16 * t, (b.take (t + 1)).sum + 80 ≤ d.classWatts, imgPower⟩))
      pure (some b)

/-- The thermal limits: DRAM_WARN, DRAM_THROTTLE, LOGIC_WARN, LOGIC_THROTTLE, HYST, GRACE. -/
def checkThermal (es : List Ent) : Chk (Option (List Nat)) :=
  match es with
  | [] => .ok none
  | e :: _ => do
    e.check [(0, 40), (48, 16)]
      [⟨0, 60 ≤ e.f 0 8, imgThermal⟩, ⟨8, e.f 8 8 ≤ 92, imgThermal⟩, ⟨16, 60 ≤ e.f 16 8, imgThermal⟩,
       ⟨24, e.f 24 8 ≤ 103, imgThermal⟩, ⟨32, 2 ≤ e.f 32 8 && e.f 32 8 ≤ 10, imgThermal⟩,
       ⟨48, 1 ≤ e.f 48 16 && e.f 48 16 ≤ 100, imgThermal⟩]
      [⟨8, e.f 0 8 + e.f 32 8 ≤ e.f 8 8, imgThermal⟩, ⟨24, e.f 16 8 + e.f 32 8 ≤ e.f 24 8, imgThermal⟩]
    pure (some [e.f 0 8, e.f 8 8, e.f 16 8, e.f 24 8, e.f 32 8, e.f 48 16])

/-- The customer count. -/
def checkCustomers (es : List Ent) : Chk Nat :=
  match es with
  | [] => .ok 0
  | e :: _ => do
    e.check [(0, 11)] [⟨0, 1 ≤ e.f 0 11 && e.f 0 11 ≤ 1024, imgCustomer⟩] []
    pure (e.f 0 11)

/-- MCOMMIT of the TWIN body. -/
def checkTwinBody (es : List Ent) : Chk Nat :=
  match es with
  | [] => .ok 0
  | e :: _ => do
    e.check [(0, 12)] [] []
    pure (e.f 0 12)

/-! ### REPAIRS (R352, R353) -/

/-- The repair of an entry. -/
def repairOf (e : Ent) : Repair where
  st := e.f 0 5
  remap := e.f 8 2 == 0
  die := e.f 64 5
  bank := e.f 69 7
  row := e.f 76 15
  spare := e.f 91 6
  retired := if bitAt e.w 103 then some (e.f 97 6) else none

/-- The repairs concern one bank. -/
def Repair.same (x y : Repair) : Bool := x.st == y.st && x.die == y.die && x.bank == y.bank
/-- The fuse entries of the bank of a repair. -/
def Dev.fusesOf (d : Dev) (x : Repair) : List FuseRemap :=
  (Tab.read (fun _ => []) d.fuses.remaps x.st).filter (fun e => e.die == x.die && e.bank == x.bank)

/-- The spare is retired, by a fuse or by an earlier entry. -/
def Dev.spareRetired (d : Dev) (xs : List Repair) (x : Repair) (k : Nat) : Bool :=
  (d.fusesOf x).any (fun e => e.retired == some k) || xs.any (fun y => y.same x && y.retired == some k)
/-- The spare is in use, by a fuse remap or by an earlier entry. -/
def Dev.spareInUse (d : Dev) (xs : List Repair) (x : Repair) (k : Nat) : Bool :=
  (d.fusesOf x).any (fun e => !e.retireOnly && e.spare == k) || xs.any (fun y => y.same x && y.remap && y.spare == k)
/-- The fuse remap that a remapped row carries is retired by the entry (R320). -/
def Dev.fuseRowOk (d : Dev) (x : Repair) : Bool :=
  (d.fusesOf x).all (fun e => e.retireOnly || e.row != x.row || x.retired == some e.spare)

/-- The repairs in order. -/
def checkRepairs (d : Dev) (xs : List Repair) (es : List Ent) : Chk (List Repair) :=
  match es with
  | [] => .ok xs
  | e :: r =>
    let x := repairOf e
    do
      e.check [(0, 5), (8, 2), (64, 40), (126, 2)]
        [⟨0, x.st ≤ 23, imgRepair⟩, ⟨0, d.stackPresent x.st, imgFused⟩, ⟨9, e.f 8 2 ≤ 1, imgReserved⟩,
         ⟨64, x.die ≤ 17, imgRepair⟩, ⟨76, x.row < 20480, imgRepair⟩, ⟨126, !bitAt e.w 126, imgRepair⟩,
         ⟨127, bitAt e.w 127, imgRepair⟩]
        [⟨76, x.remap || x.row == 0, imgRepair⟩, ⟨91, x.remap || x.spare == 0, imgRepair⟩,
         ⟨103, x.remap || x.retired.isSome, imgRepair⟩,
         ⟨91, !x.remap || (!d.spareRetired xs x x.spare && !d.spareInUse xs x x.spare), imgRepair⟩,
         ⟨97, x.retired.all (fun k => !xs.any (fun y => y.same x && y.remap && y.spare == k)), imgRepair⟩,
         ⟨76, !x.remap || !xs.any (fun y => y.same x && y.remap && y.row == x.row), imgRepair⟩,
         ⟨76, !x.remap || d.fuseRowOk x, imgRepair⟩]
      checkRepairs d (xs ++ [x]) r

/-! ### Final checks (R336, R339, R350) -/

/-- Total queue capacity of a region (R343). -/
def queueTotal (qs : List QueueEnt) (r : Nat) : Nat :=
  ((qs.filter (fun x => decide (x.region = r))).map (fun x => x.queue.bytes)).sum

/-- Every region of a pre-emptible domain has its save slots, each large enough (R339). -/
def slotsOk (as : List Area) (qs : List QueueEnt) (x : DomEnt) : Bool :=
  ((List.range 12).filter (fun r => x.regions.getLsbD r)).all (fun r => (List.range 7).all (fun p =>
    as.any (fun a => a.kind == 4 && a.region == r && a.level == p &&
      decide (2 ^ 20 + queueTotal qs r ≤ a.own.length * a.count * 2 ^ 22))))

/-- MCOMMIT names mirrored domains; one linear SHADOW area on one stack carries the records (R350). -/
def twinOk (as : List Area) (mcommit : Nat) : Bool :=
  (bitsOf mcommit 12).all (fun n => as.any (fun a => a.outMirror && a.domain == n)) &&
    (match as.filter (fun a => a.kind == 9 && a.records) with
     | [a] => !a.bankView && a.own.length == 1
     | _ => false)

/-- The entry of the first domain, in increasing number, whose save slots fail. -/
def slotFault (as : List Area) (qs : List QueueEnt) (ds : List DomEnt) (es : List Ent) : Option Ent :=
  match ((List.range 12).flatMap (fun n => (ds.zip es).filter (fun p => p.1.num == n))).find? (fun p =>
    p.1.preempt && !slotsOk as qs p.1) with
  | some p => some p.2
  | none => none

/-- The final checks (Table 10, order 4). -/
def checkFinal (n : Nat) (x : Draft) (domEnts twinEnts : List Ent) : Chk Unit := do
  must (x.str.areas.any (fun a => a.kind == 8)) ⟨imgWindow, noSection, n⟩
  match slotFault x.str.areas x.queues x.str.domains domEnts with
  | some e => .error (e.bad imgSlot 4)
  | none => pure ()
  match twinEnts with
  | e :: _ => must (twinOk x.str.areas x.mcommit) (e.bad imgTwin 0)
  | [] => pure ()

/-- Validation in the order of Table 10. -/
def Dev.validate (d : Dev) (img : List Byte) (room : Nat) : Chk Draft := do
  let n ← checkHeader img room
  let ss ← checkFrames img n
  let de := entsOf img ss 1
  let te := entsOf img ss 2
  let ds ← checkDomains d [] de
  checkDomainSet d ds de
  let mc ← checkTwinBody te
  let as ← checkAreas d ds (!te.isEmpty) [] (entsOf img ss 3)
  let qs ← checkQueues d ds [] (entsOf img ss 4)
  let yf ← checkRoutes d [] [] (entsOf img ss 5)
  let sp ← checkSpan d img ss ds
  let ev ← checkEvents [] (entsOf img ss 7)
  let pw ← checkPower d (entsOf img ss 8)
  let th ← checkThermal (entsOf img ss 9)
  let cu ← checkCustomers (entsOf img ss 10)
  let rp ← checkRepairs d [] (entsOf img ss 11)
  let body := te.head?.map (fun e => bytesOf e.w e.len)
  let x : Draft := ⟨⟨ds, as, yf, sp.2, body, cu, poolGranules as⟩, qs, sp.1, ev, pw, th, mc, rp⟩
  checkFinal n x de te
  pure x

/-! ### Application (R328) -/

/-- A repair (R352). -/
def Dev.applyRepair (d : Dev) (x : Repair) : Dev :=
  d.modStk x.st (fun s => { s with
    remap := if x.remap then Tab.write (fun _ => none) s.remap (rowKey x.die x.bank x.row) (some x.spare) else s.remap
    retired := match x.retired with
      | some k => Tab.write (fun _ => false) s.retired ((x.die * 128 + x.bank) * 64 + k) true
      | none => s.retired })

/-- The registers of a queue. -/
def Dev.applyQueue (d : Dev) (x : QueueEnt) : Dev := d.setQueue (32 * x.region + x.num) x.queue

/-- A span port record. -/
def Dev.applyPort (d : Dev) (x : PortRec) : Dev :=
  d.modSpan x.port (fun s => { s with
    en := x.en, wantId := x.id, wantPort := x.partner, channels := x.chans.map (fun c => ⟨c.1, c.2, [], channelBuffer, []⟩) })

/-- Priority, target and mask of the sources; their pending bits are left clear (R347). -/
def Dev.applyEvents (d : Dev) (xs : List EventEnt) : Dev :=
  d.ecUpdate (xs.foldl (fun c x =>
    { c.setPending x.src false with
      cfg := Tab.write evCfgDefault c.cfg x.src x.cfg
      mask := Tab.write listedSource c.mask x.src x.mask }) d.ec) []

/-- The budgets of the tensor dies (R348). -/
def Dev.applyPower (d : Dev) (b : Option (List Nat)) : Dev :=
  (List.range 6).foldl (fun a t => a.modTdie t (fun x => { x with
    budget := match b with
      | some l => l.getD t 0
      | none => if d.tdiePresent t then d.classBudget else 0 })) d

/-- The thermal limits; without a THERMAL section the defaults (R349, R418). -/
def Dev.applyThermal (d : Dev) (b : Option (List Nat)) : Dev :=
  match b with
  | some [dw, dt, lw, lt, h, g] =>
    { d with therm := { d.therm with dramWarn := dw, dramThrottle := dt, logicWarn := lw, logicThrottle := lt,
                                     hyst := h, grace := g } }
  | _ =>
    { d with therm := { d.therm with dramWarn := 85, dramThrottle := 92, logicWarn := 95, logicThrottle := 103,
                                     hyst := 5, grace := 10 } }

/-- Every enabled span port trains at READY, and sends its identity and its number (R279). -/
def Dev.trainPorts (d : Dev) : Dev :=
  (List.range 12).foldl (fun a p => if (a.span p).en then a.spanTrains p else a) d

/-- The image is applied in the order of R328, logged, and the chip enters READY. -/
def Dev.applyImage (d : Dev) (x : Draft) (img : List Byte) : Dev :=
  let d1 := x.repairs.foldl Dev.applyRepair d
  let d2 := { d1 with img.str := x.str }
  let d3 := x.ports.foldl Dev.applyPort (x.queues.foldl Dev.applyQueue d2)
  let d4 := ((d3.applyEvents x.events).applyPower x.budgets).applyThermal x.thermal
  let d5 := { d4 with
    twin.mcommit := BitVec.ofNat 12 x.mcommit
    sec := d4.sec.append ⟨3, 0, 0, BitVec.ofNat 32 (fieldOf img 4 2), 0, slice img 16 48⟩
    img.state := 5 }
  (((d5.raise 0).enter .ready).trainPorts).tryAttach

/-! ### The attempt (R326 to R329) -/

/-- Bytes of the window from the image's first byte on. -/
def Dev.imageRoom (d : Dev) : Nat := (d.windowPages - d.img.run) * 0x200000

/-- The attempt ends in a rejection. -/
def Dev.rejectImage (d : Dev) (b : Bad) : Dev :=
  ({ d with img.state := 4, img.code := b.code, img.section_ := b.sect, img.offset := b.off }).raise 0

/-- The image copy, as a unit that reads. -/
def imageWho : Who := ⟨.imageCopy, .stream, false, 0, 14⟩

/-- A read of the copy that stops at byte `o`: a stripe that nothing repairs is poisoned and recorded, and ends the copy with its
offset; what waits, waits. -/
def Dev.copyStops (d : Dev) (o : Nat) (e : Stop) : Acc (Dev × List Byte × Option Nat) :=
  match e with
  | .lost st p => .ok (((((d.ueForget st p).poison st p).bump (ueCountAt st)).logUe st p 3 .imageCopy), [], some o)
  | e => .error e

/-- The bytes of `n` stripes from byte `o` of the image on: linear stripes of 512 bytes (R325), read through the stack cache
whatever the pennants (R167, R369), with the waits of every read (R165, R306, R408); where a stripe ends the copy, its offset. -/
def Dev.copyFrom (d : Dev) (o : Nat) : Nat → Acc (Dev × List Byte × Option Nat)
  | 0 => .ok (d, [], none)
  | n + 1 =>
    (d.loadPiece imageWho (d.windowAddr (d.img.run + o / 0x200000) (o % 0x200000)) 512).fold (d.copyStops o) fun p =>
      (p.1.copyFrom (o + 512) n).andThen fun q => .ok (q.1, p.2 ++ q.2.1, q.2.2)

/-- Bytes that the copy takes: LENGTH as the header gives it, at least a header, within the window. -/
def Dev.copyLength (d : Dev) (header : List Byte) : Nat := min (max (fieldOf header 8 4) 64) (min (2 ^ 24) d.imageRoom)

/-- The copy of the image as it stands in the window. -/
def Dev.copyImage (d : Dev) : Acc (Dev × List Byte × Option Nat) :=
  (d.copyFrom 0 1).andThen fun p =>
    if p.2.2.isSome then .ok (p.1, [], p.2.2)
    else (d.copyFrom 0 (ceilDiv (d.copyLength p.2.1) 512)).andThen fun q =>
      .ok (q.1, q.2.1.take (d.copyLength p.2.1), q.2.2)

/-- The copy waits for what stops one of its reads, and begins again (log 36). -/
def Dev.imageWaits (d : Dev) (e : Stop) : Dev := ({ d with img.waits := true }).stopped imageWho false e

/-- The copy reads the window, or waits to. -/
def Dev.imageReads (d : Dev) : Dev :=
  d.copyImage.fold d.imageWaits fun p =>
    { p.1.unserve imageWho.party with img.copy := p.2.1, img.ue := p.2.2, img.waits := false }

/-- A copy that waits reads again. -/
def Dev.imageOn (d : Dev) : Dev := if d.img.waits && !d.clk.coast then d.imageReads else d

/-- GO starts an attempt on the PAGE written with it (R326, R329): one outside the window fails before anything is copied. -/
def Dev.startImage (d : Dev) : Dev :=
  let d1 := { d with img.run := d.img.page, img.code := 0, img.section_ := 0, img.offset := 0, img.state := 1 }
  if d.windowPages ≤ d.img.page then d1.rejectImage ⟨imgLength, noSection, 8⟩ else d1.imageReads

/-- A write of `STRUCT_COMMIT` (Table 1). -/
def Dev.structCommit (d : Dev) (v : Nat) : Dev :=
  let d1 := { d with img.page := fieldAt v 0 17 }
  if !bitAt v 31 then d1
  else if d.chip.state = .unstructured && (d.img.state = 0 || d.img.state = 4) then d1.startImage
  else { d1 with img.late := true }

/-- The copy where the host has written during COPYING: each 32-byte chunk that changed is the old or the new one
(R326; log 36). -/
def mixCopies (e : Nat) (old new : List Byte) : List Byte :=
  (List.range old.length).map (fun i => if Config.freeBit e (i / 32) then new.getD i (old.getD i 0) else old.getD i 0)

/-- The copy as it ends: what it has read, and what the host has changed since. -/
def Dev.finalCopy (d : Dev) : Acc (List Byte) :=
  Acc.andThen (d.copyFrom 0 (ceilDiv d.img.copy.length 512)) fun x =>
    let new := x.2.1
    .ok (if new.take d.img.copy.length = d.img.copy then d.img.copy else mixCopies d.free d.img.copy new)

/-- STRUCT_COPY_DONE: COPY_UE, or validation, and rejection or application. A copy whose reads wait is not done. -/
def Dev.copyDone (d0 : Dev) : Dev :=
  let d := d0.imageOn
  if d.img.waits then d
  else
    match d.img.ue with
    | some o => ({ d with img.copy := [], img.ue := none }).rejectImage ⟨imgCopyUe, noSection, o⟩
    | none =>
      match d.finalCopy with
      | .error e => d.stopped imageWho false e
      | .ok img =>
        let d1 := { (d.unserve imageWho.party).drawn with img.copy := [] }
        match d.validate img d.imageRoom with
        | .error b => d1.rejectImage b
        | .ok x => d1.applyImage x img

/-! ### Meanings -/

/-- STRUCT_COMMIT (R326, R329). -/
def execStructCommit (v : Word) (s : State) : Result State :=
  s.hosted (.structCommit v) fun d => d.when (d.reaches .host) fun d => d.structCommit v.toNat

/-- STRUCT_COPY_DONE (R326 to R328, R354). -/
def execStructCopyDone (s : State) : Result State :=
  s.always fun d => d.when (decide (d.img.state = 1) && decide (d.chip.state = .unstructured) && !d.clk.coast) Dev.copyDone

end Sys2Proof.Machine
end

