-- ==== Sys2Proof/Machine/HostPort.lean ====
section
/-! DEFINITION. The host's side of the block (14_host_interface): the window, AtomicOps, pennants, and the host work
rings. -/

namespace Sys2Proof.Machine
open Sys2Proof

/-! ### Offsets -/

def pennantHitsAt : Nat := 0x1008
/-- Offset of `RING_ENTRIES` of ring `g`. -/
def ringEntriesAt (g : Nat) : Nat := 0x2010 + 0x20 * g
/-- Size of a window page. -/
def pageBytes : Nat := 0x200000

/-! ### Rings in memory (R372) -/

/-- Entries of a ring. -/
def Ring.slots (x : Ring) : Nat := 2 ^ x.log2
/-- Bytes of its page that a ring takes: first and length. -/
def Ring.place (x : Ring) : Nat × Nat := (x.offset * 4096, 64 * x.slots)

/-- Bytes of a page that lie in the entries of a running ring: writes of them are not counted (R373). -/
def Dev.ringBytes (d : Dev) (page o n : Nat) : Bool :=
  d.host.rings.any (fun e => e.2.state == 1 && e.2.page == page &&
    decide (e.2.place.1 ≤ o) && decide (o + n ≤ e.2.place.1 + e.2.place.2))

/-! ### Ring entries (Tables 7 and 8) -/

/-- A ring entry. -/
structure RingEntry where
  w : Nat
  deriving DecidableEq, Repr

def RingEntry.op (e : RingEntry) : Nat := fieldAt e.w 0 4
def RingEntry.fence (e : RingEntry) : Bool := bitAt e.w 4
def RingEntry.event (e : RingEntry) : Bool := bitAt e.w 5
def RingEntry.region (e : RingEntry) : Nat := entryRegion e.w
def RingEntry.src (e : RingEntry) : Nat := fieldAt e.w 64 48
def RingEntry.dst (e : RingEntry) : Nat := fieldAt e.w 128 48
def RingEntry.rowBytes (e : RingEntry) : Nat := fieldAt e.w 192 32
def RingEntry.rows (e : RingEntry) : Nat := fieldAt e.w 224 32
def RingEntry.srcPitch (e : RingEntry) : Nat := fieldAt e.w 256 40
def RingEntry.dstPitch (e : RingEntry) : Nat := fieldAt e.w 320 40
/-- GIVE_BACK: first page and page count; FILL: the pattern. -/
def RingEntry.firstPage (e : RingEntry) : Nat := fieldAt e.w 64 17
def RingEntry.pages (e : RingEntry) : Nat := fieldAt e.w 128 18
def RingEntry.pattern (e : RingEntry) : Nat := fieldAt e.w 64 32

/-- Bytes of a destination row as written: LAYOUT pads to 32 (Table 8). -/
def RingEntry.rowOut (e : RingEntry) : Nat := if e.op = 2 then ceilDiv e.rowBytes 32 * 32 else e.rowBytes

/-- Every bit outside the fields of Table 7 is zero, and so are the bits that the operation leaves out of SRC and DST. -/
def RingEntry.plain (e : RingEntry) : Bool :=
  fieldAt e.w 6 2 == 0 && fieldAt e.w 12 52 == 0 && fieldAt e.w 112 16 == 0 && fieldAt e.w 176 16 == 0 &&
    fieldAt e.w 296 24 == 0 && fieldAt e.w 360 152 == 0 &&
    (e.op != 3 || fieldAt e.w 96 16 == 0) && (e.op != 4 || (fieldAt e.w 81 31 == 0 && fieldAt e.w 146 30 == 0))

/-- The entry copies or fills. -/
def RingEntry.copies (e : RingEntry) : Bool := e.op == 1 || e.op == 2 || e.op == 3

/-- The entry is well formed (BAD_ENTRY otherwise). -/
def RingEntry.ok (e : RingEntry) : Bool :=
  decide (e.op ≤ 4) && e.plain && (!e.copies || (e.rowBytes != 0 && e.rows != 0)) &&
    (e.op != 2 || (bitAt e.dst 46 && e.dst % 32 == 0 && e.dstPitch % 32 == 0 && decide (e.rowOut ≤ e.dstPitch))) &&
    (e.op != 3 || (e.rowBytes % 4 == 0 && e.dst % 4 == 0)) && (e.op != 4 || e.pages != 0)

/-- First addresses of source and destination rows. -/
def RingEntry.srcRows (e : RingEntry) : List Nat := (List.range e.rows).map (fun i => e.src + i * e.srcPitch)
def RingEntry.dstRows (e : RingEntry) : List Nat := (List.range e.rows).map (fun i => e.dst + i * e.dstPitch)

/-! ### What the host and an engine both write (R371) -/

/-- A byte of the range lies in an address descriptor that names device memory. -/
def Res.reaches (x : Res) (a n : Nat) : Bool :=
  match x with
  | .addr false base size _ => decide (a < base + size) && decide (base < a + n)
  | _ => false

/-- Operations in flight that have still to write, block and index, with a destination descriptor that reaches a range. -/
def Dev.writers (d : Dev) (a n : Nat) : List (Nat × Nat) :=
  (List.range 48).flatMap (fun k => ((d.blk k).fly.filter (fun f =>
    !f.done && (((f.op k).at 4).reaches a n || ((f.op k).at 5).reaches a n))).map (fun f => (k, f.index)))

/-- The number of ring `g` among those that write. -/
def ringKey (g : Nat) : Nat := 4096 + g

/-- Ring entries that have started and have still to write: ring and index. -/
def Dev.copying (d : Dev) : List (Nat × Nat) :=
  d.host.rings.flatMap (fun g => (g.2.fly.filter (fun f => f.busy && !f.made)).map (fun f => (ringKey g.1, f.index)))

/-- The operation or ring entry of a record is still in flight. -/
def Dev.mixing (d : Dev) (x : Mixed) : Bool :=
  if ringKey 0 ≤ x.blk then (d.ring (x.blk - ringKey 0)).fly.any (fun f => decide (f.index = x.index) && !f.made)
  else (d.blk x.blk).fly.any (fun f => decide (f.index = x.index))

/-- The host writes bytes of a DEVICE page from address `a` on: engines that have still to write are remembered, since each
byte that both write is unpredictable (R371; log 105). -/
def Dev.hostMixes (d : Dev) (a n : Nat) : Dev :=
  let ws := d.writers a n ++ d.copying
  if (d.pageOf a).all (fun p => !d.pennant p) || ws.isEmpty then d
  else { d.drawn with host.mixed := d.host.mixed.filter d.mixing ++ ws.map (fun w => ⟨w.1, w.2, a, n, d.free⟩) }

/-! ### The window (R365, R367, R369) -/

/-- A range of the window cut at pages: page, place in the page, length. -/
def pageCuts (o len : Nat) : Nat → List (Nat × Nat × Nat)
  | 0 => []
  | n + 1 =>
    if len = 0 then []
    else
      let k := min len (pageBytes - o % pageBytes)
      (o / pageBytes, o % pageBytes, k) :: pageCuts (o + k) (len - k) n

/-- The cuts of a range. -/
def cutsOf (o len : Nat) : List (Nat × Nat × Nat) := pageCuts o len (len / pageBytes + 2)

/-- A host access to a DEVICE page is counted and recorded, once for each page; it reads the pennant (R369, R445). -/
def Dev.hitPage (d : Dev) (write : Bool) (c : Nat × Nat × Nat) : Dev :=
  if d.pennantBad c.1 then d.chipFault codeChipParity
  else if d.pennant c.1 && !(write && d.ringBytes c.1 c.2.1 c.2.2) then
    ({ d with host.hitValid := true, host.hitPage := c.1 }).bump pennantHitsAt
  else d

/-- Stacks in self-refresh that the cuts reach: the access wakes them, and waits (Table 5 of 16). -/
def Dev.asleepIn (d : Dev) (cs : List (Nat × Nat × Nat)) : List Nat :=
  (cs.map (fun c => fieldAt (d.windowAddr c.1 0) 37 5)).filter (fun st => !d.clk.stackAwake.getLsbD st)

/-- The stacks wake. -/
def Dev.wakeStacks (d : Dev) (l : List Nat) : Dev := l.foldl (fun a st => (a.wakeStack st).startClock (st / 4)) d

/-- The host's unit. -/
def hostWho : Who := ⟨.host, .stream, false, 0, 6⟩

/-- Store pieces; a narrow write into a stripe that nothing repairs is discarded (R315), the rest lands. -/
def Dev.hostStore (d : Dev) (ps : List (Nat × Nat)) (bytes : List Byte) : Acc Dev :=
  match ps with
  | [] => .ok d
  | p :: r =>
    match (d.hostMixes p.1 p.2).storePiece hostWho p.1 (bytes.take p.2) with
    | .ok d1 => d1.hostStore r (bytes.drop p.2)
    | .error (.lost st q) => (d.hostLost st q).hostStore r (bytes.drop p.2)
    | .error e => .error e

/-- Load pieces; a stripe that nothing repairs gives undefined bytes and the EP bit (R315). -/
def Dev.hostLoad (d : Dev) (ps : List (Nat × Nat)) : Acc (Dev × List Byte × Bool) :=
  match ps with
  | [] => .ok (d, [], false)
  | p :: r =>
    let one : Acc (Dev × List Byte × Bool) :=
      match d.loadPiece hostWho p.1 p.2 with
      | .ok (d1, b) => .ok (d1, b, false)
      | .error (.lost st q) => .ok ((d.hostLost st q).drawn, (List.range p.2).map (Config.freeByte d.free), true)
      | .error e => .error e
    match one with
    | .error e => .error e
    | .ok (d1, b, x) =>
      match d1.hostLoad r with
      | .error e => .error e
      | .ok (d2, bs, y) => .ok (d2, b ++ bs, x || y)

/-- The pieces of the cuts, as device addresses. -/
def Dev.cutPieces (d : Dev) (cs : List (Nat × Nat × Nat)) : List (Nat × Nat) :=
  cs.flatMap (fun c => piecesOf (d.windowAddr c.1 c.2.1) c.2.2)

/-- A request of the host that memory stops: it waits, and later requests behind it (R368). -/
def Dev.hostWaits (d : Dev) (i : Instr) (e : Stop) : Dev :=
  (d.stoppedFor .host .stream e).when e.waits fun d => d.hold i

/-- A write of window bytes. What it waits for leaves the rest as it was. -/
def Dev.windowWrite (d : Dev) (o : Nat) (bytes : List Byte) : Dev :=
  let cs := cutsOf o bytes.length
  match d.asleepIn cs with
  | [] =>
    match (cs.foldl (fun a c => a.hitPage true c) d).hostStore (d.cutPieces cs) bytes with
    | .ok d1 => d1.unserve hostWho.party
    | .error e => d.hostWaits (.hostWindowWrite o bytes) e
  | l => (d.wakeStacks l).hold (.hostWindowWrite o bytes)

/-- A read of window bytes. -/
def Dev.windowReadout (d : Dev) (o len : Nat) : Dev :=
  let cs := cutsOf o len
  match d.asleepIn cs with
  | [] =>
    match (cs.foldl (fun a c => a.hitPage false c) d).hostLoad (d.cutPieces cs) with
    | .ok (d1, bs, ep) => (d1.unserve hostWho.party).emit (.readDone 2 o bs ep)
    | .error e => d.hostWaits (.hostWindowRead o len) e
  | l => (d.wakeStacks l).hold (.hostWindowRead o len)

/-- The staging buffer takes a write: in BOOT, until GO (R463). -/
def Dev.stageWrite (d : Dev) (o : Nat) (bytes : List Byte) : Dev :=
  if d.sec.pushGo || fwMax < o + bytes.length then d
  else { d with sec.staging := Tab.writeN zeroByte d.sec.staging o bytes }

/-- HOST_WINDOW_WRITE, by chip state (R365, R435). -/
def Dev.hostWrite (d : Dev) (o : Nat) (bytes : List Byte) : Dev :=
  match d.chip.state with
  | .boot => d.stageWrite o bytes
  | .unstructured | .ready | .fault =>
    if d.filled && o + bytes.length ≤ d.windowPages * pageBytes then d.windowWrite o bytes else d
  | _ => d

/-- HOST_WINDOW_READ, by chip state: before the fill is complete, reads give zero (R435, R436). -/
def Dev.hostRead (d : Dev) (o len : Nat) : Dev :=
  match d.chip.state with
  | .boot => d.emit (.readDone 2 o (if o + len ≤ fwMax then Tab.readN zeroByte d.sec.staging o len else List.replicate len 0) false)
  | .fill => d.emit (.readDone 2 o (List.replicate len 0) false)
  | .unstructured | .ready | .fault =>
    if !d.filled then d.emit (.readDone 2 o (List.replicate len 0) false)
    else if o + len ≤ d.windowPages * pageBytes then d.windowReadout o len
    else d
  | _ => d

/-! ### Pennants (R369 to R371) -/

/-- The pennants of a word's pages, as far as the window goes, become `x`; engines no longer wait on a DEVICE page. A
word is read to change it (R445). -/
def Dev.setPennants (d : Dev) (ps : List Nat) (x : Bool) : Dev :=
  if ps.any (fun p => decide (p < d.windowPages) && d.pennantBad p) then d.chipFault codeChipParity
  else
    let d1 := ps.foldl (fun a p => if p < d.windowPages then a.setPennant p x else a) d
    { d1 with host.waits := d1.host.waits.filter (fun p => !d1.pennant p)
              host.counted := d1.host.counted.filter (fun q => !d1.pennant q.1) }

/-- Pages that a write of word `w` names. -/
def wordPages (w v : Nat) : List Nat := (bitsOf v 32).map (fun i => 32 * w + i)

/-- `PENNANT_STALL` records the first stall; the event is raised (R371). -/
def Dev.stallPage (d : Dev) (p : Nat) : Dev :=
  (if d.host.stalled then d else { d with host.stalled := true, host.stallPage := p }).raise 7

/-! ### Rings: states (R372, R376 to R378) -/

/-- Ring `g` stops at an error; its event is raised (R378). One that the host is stopping goes on to OFF, and the first error
of a ring stands (log 119). -/
def Dev.ringError (d : Dev) (g code : Nat) (index : Option Nat) : Dev :=
  (d.modRing g (fun x =>
    if x.state = 2 then x
    else { x with state := if x.state = 3 then 3 else 2, code := code, errIndex := index.getD x.errIndex })).raise (128 + g)

/-- Nothing of the ring is in progress: every started entry has completed, or lies behind a failed one and has done its work. -/
def Ring.quiet (x : Ring) : Bool :=
  match x.fly with
  | [] => true
  | f :: r => f.failed && r.all (fun y => y.made || y.failed)

/-- A stopping ring with nothing in progress is OFF. -/
def Ring.settled (x : Ring) : Ring :=
  if x.state = 3 && x.quiet then { x with state := 0, prod := 0, cons := 0, start := 0, fly := [], fetched := [] } else x

/-- The placement of a ring is legal (R372). -/
def Dev.ringOk (d : Dev) (x : Ring) : Bool :=
  decide (x.page < d.windowPages) && decide (4 ≤ x.log2) && decide (x.log2 ≤ 15) &&
    decide (x.place.1 + x.place.2 ≤ pageBytes)

/-- A write of `RING_CTL.EN`. -/
def Dev.ringEnable (d : Dev) (g : Nat) (en : Bool) : Dev :=
  let x := d.ring g
  if en then
    if d.chip.state ≠ .ready || x.state ≠ 0 then d
    else if d.ringOk x then
      d.setRing g { x with en := true, state := 1, code := 0, errIndex := 0, prod := 0, cons := 0, start := 0, fetched := [] }
    else (d.setRing g { x with en := true }).ringError g 2 none
  else
    d.setRing g (Ring.settled { x with en := false, state := if x.state = 0 then 0 else 3, fetched := [] })

/-- Address of the entry with an index. -/
def Dev.entryAddr (d : Dev) (x : Ring) (i : BitVec 16) : Nat :=
  d.windowAddr x.page (x.place.1 + 64 * (i.toNat % x.slots))

/-- The unit that a fetched entry names wakes (Table 5 of 16): the region of its REGION field, with its stacks. -/
def Dev.wakeEntry (d : Dev) (e : RingEntry) : Dev := if d.regionPresent e.region then d.wakeUnit e.region else d

/-- A read of a ring entry, or its source, meets a stripe that nothing repairs: the stripe is poisoned, and no fault is raised
(R378). -/
def Dev.ringLost (d : Dev) (st : Nat) (p : Stripe) : Dev :=
  (((d.ueForget st p).poison st p).bump (ueCountAt st)).logUe st p 3 .tensor

/-- Entry `w` of ring `g` has been fetched. -/
def Dev.fetched (d : Dev) (g : Nat) (w : Option Nat) : Dev := d.modRing g (fun x => { x with fetched := x.fetched ++ [w] })

/-- The posted entries of ring `g` are fetched, up to one that waits (R376; log 119). -/
def Dev.fetchEntries (d : Dev) (g : Nat) : Nat → Dev
  | 0 => d
  | n + 1 =>
    let x := d.ring g
    if x.state ≠ 1 || (x.prod - x.start).toNat ≤ x.fetched.length then d
    else
      (d.load mgmtWho (d.entryAddr x (x.start + BitVec.ofNat 16 x.fetched.length)) 64).fold
        (fun e =>
          match e with
          | .lost st p => (((d.unserve mgmtWho.party).ringLost st p).fetched g none).fetchEntries g n
          | s => d.stopped mgmtWho false s)
        fun q => (((q.1.unserve mgmtWho.party).fetched g (some (ofBytes q.2))).wakeEntry ⟨ofBytes q.2⟩).fetchEntries g n

/-- The entries posted to ring `g` that have not been fetched are fetched. -/
def Dev.fetchRing (d : Dev) (g : Nat) : Dev :=
  let x := d.ring g
  d.fetchEntries g ((x.prod - x.start).toNat - x.fetched.length)

/-- RING_DOORBELL: entries are posted, within the credit (R376). -/
def Dev.ringDoorbell (d : Dev) (g : Nat) (v : BitVec 16) : Dev :=
  let x := d.ring g
  let n := (v - x.prod).toNat
  if x.state ≠ 1 then d
  else if x.slots < n + (x.prod - x.cons).toNat then d.ringError g 1 none
  else (d.setRing g { x with prod := v }).fetchRing g

/-! ### Ring entries: checks and effects (R375, R378) -/

/-- Every byte decodes to present memory (BAD_ADDR otherwise). -/
def Dev.entryAddrOk (d : Dev) (e : RingEntry) : Bool :=
  (!(e.op == 1 || e.op == 2) || e.srcRows.all (fun a => d.rangeOk a e.rowBytes)) &&
    (!e.copies || e.dstRows.all (fun a => d.rangeOk a e.rowOut)) &&
    (e.op != 4 || decide (e.firstPage + e.pages ≤ d.windowPages))

/-- The code of the first failing check, in the order of Table 9; 0: none. -/
def Dev.entryCode (d : Dev) (e : RingEntry) : Nat :=
  if !e.ok then 3 else if !d.entryAddrOk e then 4 else if !d.regionPresent e.region then 5 else 0

/-- Destination bytes that overlap a source row (R100): exact where every such byte lies at its own source address, else
unpredictable. -/
def RingEntry.clash (e : RingEntry) : Nat → Bool :=
  let inSrc := fun (a : Nat) => e.srcRows.any (fun s => decide (s ≤ a) && decide (a < s + e.rowBytes))
  let exact := (e.srcRows.zip e.dstRows).all (fun p =>
    p.1 == p.2 || (List.range e.rowOut).all (fun k => !inSrc (p.2 + k)))
  fun a => !exact && inSrc a

/-- Device memory that the steps in flight have used: what their operations and sequences have read and written, and their
step areas (R375; log 105). -/
def Dev.stepRanges (d : Dev) : List (Nat × Nat) :=
  d.img.str.domains.flatMap (fun e =>
    match (d.dom e.num).step with
    | none => []
    | some s =>
      (match d.bundleOf e.num s.bundle with
       | some b => [(b.stepArea, 0x6800)]
       | none => []) ++ Tab.read (fun _ => []) d.host.stepUse e.num)

/-- Rows that a ring copies are remembered for every step in flight, which may use them yet (R375). -/
def Dev.rowsCopied (d : Dev) (draw : Nat) (rows : List (Nat × Nat)) : Dev :=
  (d.img.str.domains.filter (fun e => (d.dom e.num).step.isSome)).foldl (fun a e =>
    let l := rows.map (fun r => (r.1, r.2, draw)) ++ Tab.read (fun _ => []) a.host.copied e.num
    { a with host.copied := Tab.write (fun _ => []) a.host.copied e.num l }) d

/-- A row as it is written: padded, with the bytes that R100 leaves open, and those that a step in flight has used or the host
has written meanwhile (`used`; R371, R375). -/
def RingEntry.rowData (e : RingEntry) (used : List (Nat × Nat)) (draw a : Nat) (bs : List Byte) : List Byte :=
  let full := bs ++ List.replicate (e.rowOut - bs.length) 0
  (full.zip (List.range full.length)).map (fun p =>
    if e.clash (a + p.2) || used.any (fun r => decide (r.1 ≤ a + p.2) && decide (a + p.2 < r.1 + r.2))
    then Config.freeByte draw (a + p.2) else p.1)

/-- The rows that a copy reads. -/
def Dev.readRows (d : Dev) (w : Who) (e : RingEntry) (as : List Nat) : Acc (Dev × List (List Byte)) :=
  match as with
  | [] => .ok (d, [])
  | a :: r =>
    match d.load w a e.rowBytes with
    | .error x => .error x
    | .ok (d1, bs) =>
      match d1.readRows w e r with
      | .error x => .error x
      | .ok (d2, l) => .ok (d2, bs :: l)

/-- The rows written, as the runs of one operation: stripes that they cover whole go as full-stripe writes (R309). -/
def Dev.writeRows (d : Dev) (w : Who) (ps : List (Nat × List Byte)) : Acc Dev :=
  d.writeRuns w (.dev 0) (ps.foldl (fun m p => Tab.writeN zeroByte m p.1 p.2) [])
    (runsOf (ps.map (fun p => (8 * p.1, 8 * p.2.length))))

/-- The pattern over `n` bytes. -/
def patternBytes (pat n : Nat) : List Byte := (List.range n).map (fun i => BitVec.ofNat 8 (pat / 256 ^ (i % 4)))

/-- The unit of a copy engine that runs a ring entry. -/
def copyEngineWho (r : Nat) : Who := ⟨.tensor, .stream, true, r, ringUnit⟩

/-- The effect of entry `i` of ring `g` on memory: MOVE, LAYOUT, FILL. -/
def Dev.copyEntry (d : Dev) (g i : Nat) (e : RingEntry) : Acc Dev :=
  let w := copyEngineWho e.region
  let used := d.stepRanges ++
    (d.host.mixed.filter (fun x => decide (x.blk = ringKey g) && decide (x.index = i))).map (fun x => (x.addr, x.len))
  let put := fun (d : Dev) (l : List (List Byte)) =>
    Acc.andThen (d.drawn.writeRows w ((e.dstRows.zip l).map (fun p => (p.1, e.rowData used d.free p.1 p.2))))
      fun d1 => .ok ((d1.unserve w.party).rowsCopied d.free (e.dstRows.map (fun a => (a, e.rowOut))))
  if e.op = 3 then put d (e.dstRows.map (fun _ => patternBytes e.pattern e.rowBytes))
  else Acc.andThen (d.readRows w e e.srcRows) fun x => put x.1 x.2

/-! ### Running entries (R377) -/

/-- The copy engine of region `r` runs no ring entry. -/
def Dev.engineFree (d : Dev) (r : Nat) : Bool :=
  !d.host.rings.any (fun g => g.2.fly.any (fun f => f.busy && !f.made && !f.failed && f.region == r))

/-- No switch, pre-emption or parking uses the region's share (R20, R235, R377). -/
def Dev.shareFree (d : Dev) (r : Nat) : Bool := !d.stateMoves r && !d.parkBusy r

/-- The entry must wait for every earlier one: FENCE, and GIVE_BACK (Tables 7 and 8). -/
def RingEntry.last (e : RingEntry) : Bool := e.fence || e.op == 4

/-- The next entry of ring `g`, once it is fetched, while the ring runs and no earlier entry holds it back; none within: its
stripe is unrepaired. -/
def Dev.nextEntry (d : Dev) (g : Nat) : Option (Option RingEntry) :=
  let x := d.ring g
  if d.chip.state = .ready && !d.clk.coast && x.state = 1 then
    match x.fetched with
    | [] => none
    | none :: _ => some none
    | some w :: _ => if (RingEntry.mk w).last && !x.fly.isEmpty then none else some (some ⟨w⟩)
  else none

/-- Ring `g` has work for the copy engine of region `r`. -/
def Dev.ringWork (d : Dev) (g r : Nat) : Bool :=
  match d.nextEntry g with
  | some (some e) => e.copies && e.region == r && d.entryCode e == 0
  | _ => false

/-- Rings that ring `g` comes after at the copy engine of region `r`: round-robin from the ring served last (R377). -/
def Dev.ringsBefore (d : Dev) (r g : Nat) : List Nat :=
  let t := Tab.read (fun _ => 63) d.host.ringTurn r
  (List.range ((g + 63 - t) % 64)).map (fun j => (t + 1 + j) % 64)

/-- The copy engine of region `r` is free and it is ring `g`'s turn. -/
def Dev.engineTurn (d : Dev) (r g : Nat) : Bool := d.engineFree r && (d.ringsBefore r g).all (fun h => !d.ringWork h r)

/-- The entry starts, as the next of its ring. -/
def Dev.entryStarts (d : Dev) (g : Nat) (e : RingEntry) : Dev :=
  (if e.copies then { d with host.ringTurn := Tab.write (fun _ => 63) d.host.ringTurn e.region g } else d).modRing g (fun x =>
    { x with
      start := x.start + 1
      fetched := x.fetched.tail
      fly := x.fly ++ [⟨x.start.toNat, e.event, e.region, e.copies, e.w, !e.copies, false, none⟩] })

/-- Change the started entry with index `i` of ring `g`. -/
def Dev.modRun (d : Dev) (g i : Nat) (f : RingRun → RingRun) : Dev :=
  d.modRing g (fun x => Ring.settled { x with fly := x.fly.map (fun y => if y.index = i then f y else y) })

/-- A started entry waits, for a pennant, a stripe, a cell or a stack, and its engine with it (R377); a source stripe that
nothing repairs is MEM_UE (R378). -/
def Dev.entryStopped (d : Dev) (g : Nat) (f : RingRun) (s : Stop) : Dev :=
  let w := copyEngineWho f.region
  match s with
  | .page p => (d.stopped w (decide (f.page = some p)) s).modRun g f.index (fun y => { y with page := some p })
  | .lost st p =>
    (((d.unserve w.party).ringLost st p).ringError g 6 (some f.index)).modRun g f.index (fun y => { y with failed := true })
  | s => d.stopped w false s

/-- The work of a started entry that copies or fills: its region must be awake, and its share free (R377, R408). -/
def Dev.doEntry (d : Dev) (g : Nat) (f : RingRun) : Dev :=
  if !d.shareFree f.region then d
  else if !d.clk.regionAwake.getLsbD f.region then d.wakeUnit f.region
  else
    match d.copyEntry g f.index ⟨f.entry⟩ with
    | .ok d1 => d1.modRun g f.index (fun y => { y with made := true })
    | .error s => d.entryStopped g f s

/-- The next entry of ring `g` starts when it has the operation `op` (`op` 5: any reserved one) and can: GIVE_BACK has its
effect, and a copy takes its engine and begins. An entry that fails its checks stops the ring. -/
def Dev.startEntry (d : Dev) (g op : Nat) : Dev :=
  let i := (d.ring g).start.toNat
  match d.nextEntry g with
  | none => d
  | some none => if op = 5 then d.ringError g 6 (some i) else d
  | some (some e) =>
    if min e.op 5 ≠ op then d
    else
      match d.entryCode e with
      | 0 =>
        if e.op = 4 then (d.setPennants ((List.range e.pages).map (· + e.firstPage)) false).entryStarts g e
        else if !e.copies then d.entryStarts g e
        else if d.engineTurn e.region g then
          (d.entryStarts g e).doEntry g ⟨i, e.event, e.region, true, e.w, false, false, none⟩
        else d
      | code => d.ringError g code (some i)

/-- The device goes on with ring `g` where an entry of operation `op` is at work or comes next: the oldest that has started and
not done its work, else the next one (R377). Links and engines stand still without the reference. -/
def Dev.runEntry (d : Dev) (g op : Nat) : Dev :=
  if d.clk.coast || d.chip.state ≠ .ready then d
  else
    let d1 := d.fetchRing g
    match (d1.ring g).fly.find? (fun f => !f.made && !f.failed && decide (min (RingEntry.op ⟨f.entry⟩) 5 = op)) with
    | some f => d1.doEntry g f
    | none => d1.startEntry g op

/-- RING_ENTRY_COMPLETE: CONS passes the oldest started entry once its work is done, unless its writes wait to enter the mirror
queue (R292); with none, an entry that cannot run stops the ring (R378). -/
def Dev.completeEntry (d : Dev) (g : Nat) : Dev :=
  match (d.ring g).fly with
  | [] => d.runEntry g 5
  | f :: r =>
    if !f.made || (f.busy && d.mirrorFull) then d
    else
      let d1 := (d.modRing g (fun x => Ring.settled { x with fly := r, cons := x.cons + 1 })).bump (ringEntriesAt g)
      if f.event then d1.raise (128 + g) else d1

/-! ### Meanings -/

/-- HOST_WINDOW_WRITE (R365, R367, R369). -/
def execHostWindowWrite (off : Nat) (bytes : List Byte) (s : State) : Result State :=
  s.checked (wellFormed (.hostWindowWrite off bytes)) fun d => d.inOrder (.hostWindowWrite off bytes) fun d =>
    d.when d.hostReach fun d => d.hostWrite off bytes

/-- HOST_WINDOW_READ (R365, R367, R369). -/
def execHostWindowRead (off len : Nat) (s : State) : Result State :=
  s.checked (wellFormed (.hostWindowRead off len)) fun d => d.inOrder (.hostWindowRead off len) fun d =>
    d.when d.hostReach fun d => d.hostRead off len

/-- ATOMIC_OP_REQUEST (R357): Unsupported Request. -/
def execAtomicOpRequest (bar : Fin 6) (off : Nat) (s : State) : Result State :=
  s.hosted (.atomicOpRequest bar off) fun d => d.when d.host.linkUp fun d => d.emit (.unsupported bar.val off)

/-- PENNANT_GIVE (R370). -/
def execPennantGive (w : Fin 4096) (v : Word) (s : State) : Result State :=
  s.hosted (.pennantGive w v) fun d => d.when (d.reaches .host) fun d => d.setPennants (wordPages w.val v.toNat) true

/-- PENNANT_TAKE (R370, R371). -/
def execPennantTake (w : Fin 4096) (v : Word) (s : State) : Result State :=
  s.hosted (.pennantTake w v) fun d => d.when (d.reaches .host) fun d => d.setPennants (wordPages w.val v.toNat) false

/-- PENNANT_STALL (R371). -/
def execPennantStall (page : Fin 131072) (s : State) : Result State :=
  s.always fun d => d.when (d.host.waits.contains page.val) fun d => d.stallPage page.val

/-- RING_ENABLE (R372, R378): a write of `RING_CTL`. -/
def execRingEnable (g : RingNo) (v : Word) (s : State) : Result State :=
  s.hosted (.ringEnable g v) fun d => d.when (d.reaches .host) fun d => d.ringEnable g.val (v.getLsbD 0)

/-- RING_DOORBELL (R376). -/
def execRingDoorbell (g : RingNo) (v : Word) (s : State) : Result State :=
  s.hosted (.ringDoorbell g v) fun d => d.when d.hostReady fun d => d.ringDoorbell g.val (v.setWidth 16)

/-- RING_NOP (Table 8). -/
def execRingNop (g : RingNo) (s : State) : Result State := s.always fun d => d.runEntry g.val 0

/-- RING_MOVE (Table 8). -/
def execRingMove (g : RingNo) (s : State) : Result State := s.always fun d => d.runEntry g.val 1

/-- RING_LAYOUT (Table 8). -/
def execRingLayout (g : RingNo) (s : State) : Result State := s.always fun d => d.runEntry g.val 2

/-- RING_FILL (Table 8). -/
def execRingFill (g : RingNo) (s : State) : Result State := s.always fun d => d.runEntry g.val 3

/-- RING_GIVE_BACK (Table 8, R370). -/
def execRingGiveBack (g : RingNo) (s : State) : Result State := s.always fun d => d.runEntry g.val 4

/-- RING_ENTRY_COMPLETE (R377, R378). -/
def execRingEntryComplete (g : RingNo) (s : State) : Result State := s.always fun d => d.completeEntry g.val

end Sys2Proof.Machine
end

