-- ==== Sys2Proof/Machine/Cycle.lean ====
section
/-! DEFINITION. What one cycle of the keep clock does: time passes, and what waits for memory with no command of its own is
taken up again (log 5). -/

namespace Sys2Proof.Machine
open Sys2Proof

/-- The rings whose posted entries are not all fetched go on fetching (R376; log 119). -/
def Dev.fetchOn (d : Dev) : Dev :=
  ((d.host.rings.filter (fun e => decide (e.2.fetched.length < (e.2.prod - e.2.start).toNat))).map (·.1)).foldl Dev.fetchRing d

/-- What waits for memory is taken up again: a pre-emption's condition (R244), the copy to the twin, what has come from it, a
promotion (R450 to R453), the structure image (R326), a flash update (R464), the rings (R376). -/
def Dev.resumed (d : Dev) : Dev := d.judgeAgain.copyOn.postOn.promoteOn.imageOn.flashOn.fetchOn

/-- One cycle of the keep clock; while the reference is lost nothing is taken up (R412). -/
def Dev.cycle (d : Dev) : Dev := if d.clk.coast then d.tick else d.tick.resumed

end Sys2Proof.Machine
end

