-- ==== Sys2Proof/Machine/RegRead.lean ====
section
/-! DEFINITION. What a read of a register gives: one register map for each chapter (R9, R366, R379). -/

namespace Sys2Proof.Machine
open Sys2Proof

/-! ### Registers -/

/-- A register: 64 bits wide, or 32, and the value it shows. -/
structure Reg where
  wide  : Bool
  value : Nat
  deriving DecidableEq, Repr

/-- An offset that no chapter defines, and a register of a fused unit: reads zero (R366). -/
def Reg.zero : Reg := ⟨false, 0⟩

/-- Fields placed in a register: value, lowest bit, width. -/
def regWord (fs : List (Nat × Nat × Nat)) : Nat := fs.foldl (fun a f => a + atBit (f.1 % 2 ^ f.2.2) f.2.1) 0

/-- A 32-bit register with these fields. -/
def reg32 (fs : List (Nat × Nat × Nat)) : Reg := ⟨false, regWord fs⟩

/-- One bit of a flag. -/
def bitF (b : Bool) (lo : Nat) : Nat × Nat × Nat := (boolBit b, lo, 1)

/-- A statistics counter (Table 9 of 02). -/
def Counter.word (c : Counter) : Nat := regWord [(c.count, 0, 48), bitF c.sat 63]

/-- The counter at an offset. -/
def Dev.counterReg (d : Dev) (off : Nat) : Reg := ⟨true, (d.ctr off).word⟩

/-- Bits of the numbers below `n` that satisfy `p`. -/
def bitMap (n : Nat) (p : Nat → Bool) : Nat := ((List.range n).map (fun i => atBit (boolBit (p i)) i)).sum

/-! ### Chip, image, grade (18, 13, 00, 19) -/

/-- `CHIP_STATUS` (Table 5 of 18). -/
def Dev.chipStatus (d : Dev) : Nat :=
  let s := d.chip.straps
  regWord [(chipCode d.chip.state, 0, 4), (d.chip.startErr, 4, 4), (d.chip.lastReset, 8, 4), bitF s.twinRole 12,
    (s.spanId.toNat, 13, 6), (s.pwrClass.toNat, 19, 2), (s.bootSrc.toNat, 21, 2), bitF s.safeBoot 23,
    (d.chip.faultCode, 24, 8)]

/-- The image is being copied, validated or applied. -/
def Img.busy (x : Img) : Bool := 1 ≤ x.state && x.state ≤ 3

def Dev.chipReg (d : Dev) (off : Nat) : Reg :=
  match off with
  | 0x00 => ⟨false, d.chipStatus⟩
  | 0x08 => reg32 [(d.img.page, 0, 17), bitF d.img.busy 31]
  | 0x0C => reg32 [(d.gradeCode, 0, 4), (bitMap 12 d.regionPresent, 4, 12), bitF d.spanPresent 16, bitF d.bwdPresent 17]
  | 0x10 => ⟨true, regWord [(d.img.state, 0, 3), bitF d.img.late 8, (d.img.code, 16, 8), (d.img.section_, 24, 16),
      (d.img.offset, 40, 24)]⟩
  | 0x18 => reg32 [(d.chip.satOffset, 0, 26), bitF d.chip.satValid 31]
  | _ => Reg.zero

/-! ### Host interface (Tables 11 and 12 of 14) -/

/-- `RING_INDEX`. -/
def Ring.indexWord (x : Ring) : Nat := regWord [(x.prod.toNat, 0, 16), (x.cons.toNat, 16, 16)]

def Dev.ringReg (d : Dev) (g o : Nat) : Reg :=
  let x := d.ring g
  match o with
  | 0x00 => reg32 [(x.page, 0, 17), (x.offset, 17, 9), (x.log2, 26, 4)]
  | 0x04 => reg32 [bitF x.en 0]
  | 0x08 => reg32 [(x.errIndex, 0, 16), (x.code, 20, 4), (x.state, 30, 2)]
  | 0x0C => ⟨false, x.indexWord⟩
  | 0x10 => d.counterReg (ringEntriesAt g)
  | _ => Reg.zero

/-- `PENNANT_VALUE` word `w`. -/
def Dev.pennantWord (d : Dev) (w : Nat) : Nat := bitMap 32 (fun i => d.pennant (32 * w + i))

def Dev.hostReg (d : Dev) (off : Nat) : Reg :=
  if off = 0x1000 then
    reg32 [(d.host.speed, 0, 4), (d.host.width, 4, 6), bitF d.host.flit 10, (d.chip.straps.pcieMaxGen.toNat, 12, 2),
      (d.chip.straps.winSize.toNat, 16, 3)]
  else if off = 0x1004 then reg32 [(d.host.hitPage, 0, 17), bitF d.host.hitValid 31]
  else if off = pennantHitsAt || off = pennantWaitsAt then d.counterReg off
  else if off = 0x1018 then
    reg32 [(d.host.stallPage, 0, 17), bitF (!d.host.waits.isEmpty) 30, bitF d.host.stalled 31]
  else if 0x2000 ≤ off && off < 0x2800 then d.ringReg ((off - 0x2000) / 0x20) (off % 0x20)
  else Reg.zero

/-- `PENNANT_VALUE`, `PENNANT_GIVE`, `PENNANT_TAKE`: all read the pennants (Table 12). -/
def Dev.pennantReg (d : Dev) (off : Nat) : Reg :=
  if off / 0x10000 = 0x80 || off / 0x10000 = 0x81 || off / 0x10000 = 0x82 then
    (if off % 0x10000 < 0x4000 && off % 4 = 0 then ⟨false, d.pennantWord (off % 0x10000 / 4)⟩ else Reg.zero)
  else Reg.zero

/-! ### Event concentrator (Tables 2 and 3 of 15) -/

/-- Owner of a hold: 0 host, 1 management block. -/
def ownerCode (o : Option Agent) : Nat := if o = some .mgmt then 1 else 0

/-- The word of pending bits `w`. -/
def Dev.pendingWord (d : Dev) (w : Nat) : Nat := bitMap 32 (fun i => d.ec.isPending (32 * w + i))

def Dev.ecReg (d : Dev) (off : Nat) : Reg :=
  let c := d.ec
  if off = 0x100000 then reg32 [bitF c.parjo 0]
  else if off = 0x100004 then
    reg32 [(c.word, 0, 6), bitF c.expired 29, (ownerCode c.hold, 30, 1), bitF c.hold.isSome 31]
  else if off = spuriousAt then d.counterReg off
  else if 0x101000 ≤ off && off < 0x103000 then
    let n := (off - 0x101000) / 4
    if n < 2047 then reg32 [((c.cfgOf n).prio, 0, 4), ((c.cfgOf n).target, 8, 9)] else Reg.zero
  else if 0x103000 ≤ off && off < 0x103100 then
    ⟨false, bitMap 32 (fun i => c.masked (32 * ((off - 0x103000) / 4) + i))⟩
  else if 0x103100 ≤ off && off < 0x103200 then ⟨false, d.pendingWord ((off - 0x103100) / 4)⟩
  else if 0x104000 ≤ off && off < 0x105010 && off % 0x10 = 8 then
    let t := (off - 0x104000) / 0x10
    reg32 [((c.stackOf t).headD 0, 0, 4), ((c.stackOf t).length, 16, 5),
      bitF (Tab.read (fun _ => false) c.eoiEmpty t) 30, bitF (c.line t) 31]
  else Reg.zero

/-! ### Clocks and power (Tables 8 and 9 of 16) -/

/-- The units of the lists, as bits. -/
def unitBits (n : Nat) (l : List Nat) : Nat := bitMap n (fun i => l.contains i)

def Dev.clkDieReg (d : Dev) (t o : Nat) : Reg :=
  let x := d.tdie t
  if !d.tdiePresent t then Reg.zero
  else
    match o with
    | 0 => reg32 [(x.sel, 0, 2), (x.aStep, 4, 3), (x.bStep, 8, 3), bitF (x.ready .a) 16, bitF (x.ready .b) 17,
        (x.active, 24, 3), (x.floor, 27, 3), bitF x.hwOwn 30, bitF x.auto 31]
    | 4 => reg32 [(x.power, 0, 10), (x.budget, 16, 10), bitF x.overPower 28, (x.stage, 29, 3)]
    | 8 => d.counterReg (stageUpsAt t)
    | _ => Reg.zero

def Dev.clkReg (d : Dev) (off : Nat) : Reg :=
  let k := d.clk
  match off with
  | 0x200000 => reg32 [bitF k.mgmtReady 0, bitF k.fabricReady 1, (bitMap 6 d.clockRuns, 12, 6), bitF k.coastSeen 29,
      bitF k.coast 30, bitF d.pins.refclk 31]
  | 0x200004 => reg32 [(k.idle, 0, 24), bitF k.sleepEn 31]
  | 0x200008 => reg32 [(k.regionAwake.toNat, 0, 12), (unitBits 12 (k.regionQ ++ k.regionGranted), 16, 12)]
  | 0x20000C => reg32 [(k.stackAwake.toNat, 0, 24)]
  | 0x200010 => reg32 [(waitDepth k.regionQ k.regionFresh, 0, 8), (waitDepth k.stackQ k.stackFresh, 8, 8),
      (k.regionMax, 16, 8), (k.stackMax, 24, 8)]
  | 0x200018 | 0x200020 | 0x200028 => d.counterReg off
  | _ => if 0x200040 ≤ off && off < 0x2000A0 then d.clkDieReg ((off - 0x200040) / 0x10) (off % 0x10) else Reg.zero

/-! ### Temperature (Tables 4 and 5 of 17) -/

/-- Codes of the thermal states. -/
def thCode (s : ThState) : Nat :=
  match s with
  | .idle => 0
  | .grace => 1
  | .enforce => 2
  | .cooling => 3

/-- GRACE_LEFT: milliseconds left, rounded up; 25 samples are one millisecond (R417). -/
def Dev.graceLeft (d : Dev) (x : ThDie) : Nat := if x.st = .grace then ceilDiv (25 * d.therm.grace - x.since) 25 else 0

def Dev.thermDieReg (d : Dev) (t o : Nat) : Reg :=
  let x := d.thdie t
  if !d.tdiePresent t then Reg.zero
  else
    match o with
    | 0 => reg32 [(d.graceLeft x, 0, 7), bitF x.maxed 25, bitF x.req 26, (thCode x.st, 27, 2), (x.stage, 29, 3)]
    | 8 => d.counterReg (thermUpsAt t)
    | _ => Reg.zero

def Dev.thermReg (d : Dev) (off : Nat) : Reg :=
  let x := d.therm
  match off with
  | 0x201000 => reg32 [(x.dramWarn, 0, 8), (x.dramThrottle, 8, 8), (x.logicWarn, 16, 8), (x.logicThrottle, 24, 8)]
  | 0x201004 => reg32 [(x.hyst, 0, 4), (x.grace, 8, 7)]
  | 0x201008 => reg32 [bitF d.anyWarn 0, (bitMap 6 (fun t => (d.thdie t).req), 8, 6)]
  | 0x20100C => reg32 [(x.tripSensor, 0, 8), bitF x.tripValid 31]
  | 0x201010 | 0x201018 => d.counterReg off
  | _ =>
    if 0x201040 ≤ off && off < 0x2010A0 then d.thermDieReg ((off - 0x201040) / 0x10) (off % 0x10)
    else if 0x201400 ≤ off && off < 0x201710 && off % 4 = 0 then
      let s := d.sensor ((off - 0x201400) / 4)
      reg32 [(s.temp.toNat, 0, 16), bitF s.hot 29, bitF s.warn 30, bitF s.valid 31]
    else Reg.zero

/-! ### Security (Tables 6 and 7 of 20) -/

/-- Word `i` of a list of bytes. -/
def wordIn (bs : List Byte) (i : Nat) : Nat := fieldOf bs (4 * i) 4

def Dev.secReg (d : Dev) (off : Nat) : Reg :=
  let x := d.sec
  let i := off % 0x1000 / 4
  match off with
  | 0x300000 => reg32 [(x.authErr, 0, 4), bitF x.fwValid 9, (x.eccKey, 10, 2), (x.lmsKey, 12, 2), (x.fwSvn, 14, 6),
      (d.fuses.svn, 20, 6)]
  | 0x300004 => reg32 [(x.pushLen, 0, 24), bitF x.pushGo 31]
  | 0x300008 => ⟨false, x.fwVersion.toNat⟩
  | 0x30000C => reg32 [(x.flashPage, 0, 17), (x.flashCode, 28, 3), (if x.flashRun.isSome then 1 else 0, 31, 1)]
  | 0x300018 => reg32 [(x.log.length, 0, 13), bitF x.overflow 31]
  | 0x30001C => reg32 [(x.select, 0, 12)]
  | 0x300080 => ⟨false, wordIn x.running 0⟩
  | 0x300120 => reg32 [(x.repData.length, 0, 12), (x.repStatus, 28, 3), bitF (x.repStatus == 1) 31]
  | _ =>
    if off % 4 ≠ 0 then Reg.zero
    else if 0x300040 ≤ off && off < 0x300080 then
      match x.log[x.select]? with
      | some m => ⟨false, wordIn m.bytes (i - 0x10)⟩
      | none => Reg.zero
    else if 0x300084 ≤ off && off < 0x3000B0 then ⟨false, wordIn x.latch (i - 0x20)⟩
    else if 0x300100 ≤ off && off < 0x300120 then ⟨false, (Tab.read (fun _ => (0 : Word)) x.nonce (i - 0x40)).toNat⟩
    else if 0x301000 ≤ off && off < 0x302000 then ⟨false, wordIn x.repData i⟩
    else Reg.zero

/-! ### Requests, customers, engine, domains, bundles (08, 09) -/

/-- Word `i` of an entry is the lower half of a 64-bit register. -/
def reqWide (i : Nat) : Bool := i == 2 || i == 4 || i == 6

def Dev.reqReg (d : Dev) (n o : Nat) : Reg :=
  let ws := d.reqWords n
  let lo := (ws.getD (o / 4) 0).toNat
  if o % 4 ≠ 0 then Reg.zero
  else if reqWide (o / 4) then ⟨true, lo + atBit (ws.getD (o / 4 + 1) 0).toNat 32⟩
  else if reqWide (o / 4 - 1) then Reg.zero
  else ⟨false, lo⟩

def Dev.custReg (d : Dev) (c o : Nat) : Reg :=
  if d.img.str.customers ≤ c then Reg.zero
  else
    match o with
    | 0x00 => ⟨true, regWord [((d.cust c).available, 0, 32), ((d.cust c).reserved, 32, 16), bitF (d.cust c).sat 63]⟩
    | 0x10 | 0x18 | 0x20 | 0x28 | 0x30 => d.counterReg (custAt c + o)
    | _ => Reg.zero

/-- ACTIVITY codes (Table 7 of 09). -/
def actCode (a : Activity) : Nat :=
  match a with
  | .idle => 0
  | .running => 1
  | .suspending => 2
  | .saving => 3
  | .switching => 4
  | .restoring => 5

/-- SUSPENDED: a step that is still being suspended does not count. -/
def Dom.suspendedBits (x : Dom) : Nat :=
  let l := if x.act = .suspending then x.susp.drop 1 else x.susp
  bitMap 8 (fun p => l.any (fun u => u.level == p))

def Dev.domReg (d : Dev) (n o : Nat) : Reg :=
  let x := d.dom n
  match o with
  | 0x00 => reg32 [(x.lastStep.toNat, 0, 16),
      ((match x.step with
        | some s => if s.fallback then 2 else 1
        | none => 0), 16, 2),
      ((match x.step with
        | some s => s.phase
        | none => 0), 18, 4)]
  | 0x04 => ⟨false, x.compose.toNat⟩
  | 0x08 => reg32 [(x.stepTime, 0, 32)]
  | 0x0C => reg32 [bitF x.preemptEn 0, (x.minPrio, 2, 3), (actCode x.act, 8, 3), (x.suspendedBits, 16, 8)]
  | 0x10 => reg32 [(x.run, 8, 8), (x.quantum, 16, 7), bitF x.active.isSome 23, (x.active.getD 0, 24, 8)]
  | 0x14 => reg32 [(x.suspendTime, 0, 32)]
  | _ => Reg.zero

def Dev.engineReg (d : Dev) (o : Nat) : Reg :=
  let s := d.serve
  match o with
  | 0x000 => reg32 [(s.zeroLimit, 0, 4), (s.probeInterval, 4, 6), bitF s.grow 10]
  | 0x008 => reg32 [(d.freeGranules.length, 0, 24)]
  | 0x00C => reg32 [(d.img.str.parkTotal - d.serve.granulesGone.length, 0, 24)]
  | 0x800 => ⟨true, d.bcmd.addr.toNat % 2 ^ 48⟩
  | 0x80C => reg32 [(d.bcmd.code, 0, 8), bitF d.bcmd.busy 31]
  | _ =>
    if 0x100 ≤ o && o < 0x280 then d.domReg ((o - 0x100) / 0x20) (o % 0x20)
    else if 0x400 ≤ o && o < 0x4C0 && o % 8 = 0 then d.counterReg (0x450000 + o)
    else if 0x900 ≤ o && o < 0xA80 && o % 4 = 0 then
      ⟨false, bitMap 32 (fun i => (d.dom ((o - 0x900) / 0x20)).resident.any (fun e => e.1 == 32 * (o % 0x20 / 4) + i))⟩
    else if 0x1000 ≤ o && o < 0x1200 && o % 4 = 0 then
      ⟨false, bitMap 32 (fun i => Tab.read (fun _ => false) s.changed (32 * ((o - 0x1000) / 4) + i))⟩
    else Reg.zero

/-! ### Regions (19, 03, 10, 02) -/

/-- `QUEUE_STATUS`, `QUEUE_STATE` and the other registers of a queue (Tables 2 to 6 of 10). -/
def Dev.queueReg (d : Dev) (r j o : Nat) : Reg :=
  let q := d.queue (32 * r + j)
  match o with
  | 0x00 => ⟨true, q.cfg.toNat⟩
  | 0x08 => ⟨false, q.flags.toNat⟩
  | 0x0C => reg32 [bitF q.ptrReset 29, bitF q.held 30, bitF q.markValid 31]
  | 0x10 => ⟨true, regWord [(q.mark.toNat, 0, 16), (q.offer.toNat, 16, 16), (q.release.toNat, 32, 16),
      (q.write.toNat, 48, 16)]⟩
  | 0x18 => d.counterReg (queueHoldsAt r j)
  | 0x20 => d.counterReg (ptrResetsAt r j)
  | _ => Reg.zero

/-- STATE of `BLOCK_STATUS`: WAITING while nothing is in flight and the oldest unissued operation waits on a flag. -/
def BlockSt.stateCode (b : BlockSt) : Nat :=
  match b.st with
  | .idle => 0
  | .loading => 1
  | .running => if b.fly.isEmpty && b.wait.isSome then 3 else 2
  | .suspended => 4
  | .halted => 5

/-- PC: index of the oldest operation not yet complete. -/
def BlockSt.pc (b : BlockSt) : Nat :=
  match b.fly with
  | [] => b.next
  | f :: _ => f.index

/-- Registers of block `k` (Table 13 of 03). DESIGN CHOICE (log 97): while HELD_FLAG is clear, WANT and FLAG of `BLOCK_WAIT_INFO`
show the last wait; R83 does not say what they read then. -/
def Dev.blockReg (d : Dev) (k o : Nat) : Reg :=
  let b := d.blk k
  match o with
  | 0x00 => reg32 [(b.stateCode, 0, 3), (b.pc, 8, 13), (if b.st = .halted then b.haltCode else 0, 24, 8)]
  | 0x08 => d.counterReg (blockReplaysAt k)
  | 0x10 => ⟨false, b.fault.toNat⟩
  | 0x18 => d.counterReg (indexZeroedAt k)
  | 0x20 => d.counterReg (opsCompletedAt k)
  | 0x28 => reg32 [(b.lastWait.1, 0, 10), (b.lastWait.2, 10, 16), bitF b.heldScore 30, bitF b.wait.isSome 31]
  | _ => Reg.zero

/-- Engine `e` of cell `c` of a block has an operation in flight (Table 10 of 02). DESIGN CHOICE (log 112): an operation that
is in flight when the block halts stays in the list, so its engines still show it. -/
def BlockSt.cellBusy (b : BlockSt) (c e : Nat) : Bool :=
  b.fly.any (fun f => !f.done && (enginesOf (OpWord.opcode f.word)).contains e && bitAt (OpWord.mask f.word) c)

def Dev.cellReg (d : Dev) (g o : Nat) : Reg :=
  let x := d.cell g
  let b := d.blk (g / 8)
  if o = 0 then
    reg32 [bitF (b.cellBusy (g % 8) 0) 0, bitF (b.cellBusy (g % 8) 1) 1, bitF x.parityHalt 2, (x.lastBank, 8, 5)]
  else if o = 8 then d.counterReg (cellReplaysAt g)
  else if 0x100 ≤ o && o < 0x200 && o % 4 = 0 then ⟨false, (d.bufreg (64 * g + (o - 0x100) / 4)).toNat⟩
  else Reg.zero

/-! ### Stacks (Tables 17 to 22 of 05, Tables 7 and 8 of 12) -/

/-- STATE of `STACK_STATUS`. -/
def Dev.stackState (d : Dev) (s : Nat) : Nat :=
  let x := d.stk s
  if x.halted then 3 else if !d.clk.stackAwake.getLsbD s then 0 else if x.slots.isEmpty then 1 else 2

/-- `SPARES_MIN`: the bank with fewest free spares, the lowest die, then the lowest bank, among equals. -/
def Dev.sparesMin (d : Dev) (s : Nat) : Nat × Nat × Nat :=
  (List.range 2304).foldl (fun m i =>
    let n := (d.spares s (i / 128) (i % 128)).length
    if n < m.2.2 then (i / 128, i % 128, n) else m) (0, 0, (d.spares s 0 0).length)

/-- `FUSE_REMAP_ENTRY` (R495). -/
def FuseRemap.word (f : FuseRemap) : Nat :=
  regWord [(f.die, 0, 5), (f.bank, 5, 7), (if f.retireOnly then 0 else f.row, 12, 15),
    (if f.retireOnly then 0 else f.spare, 27, 6), (f.retired.getD 0, 33, 6), bitF f.retired.isSome 39,
    bitF f.retireOnly 61, (1, 63, 1)]

/-- The fuse entries of a stack. -/
def Dev.fuseList (d : Dev) (s : Nat) : List FuseRemap := Tab.read (fun _ => []) d.fuses.remaps s

/-- Statistics counters among a stack's registers. -/
def stackCounter (o : Nat) : Bool := o % 8 == 0 && ((0x20 ≤ o && o < 0xA0) || (0xF0 ≤ o && o < 0x138))

def Dev.stackReg (d : Dev) (s o : Nat) : Reg :=
  let x := d.stk s
  match o with
  | 0x00 => reg32 [(d.stackState s, 0, 3), (x.slots.length, 11, 3), bitF x.hot 15, (x.inForce, 16, 3), (x.halt, 24, 8)]
  | 0x04 => reg32 [(x.sw, 0, 3), (x.floor, 16, 3), (x.target, 24, 3), bitF x.pend.isSome 30, bitF x.busy 31]
  | 0x08 => reg32 [(x.applied.toNat, 0, 16), (x.frm, 16, 3)]
  | 0x0C => ⟨false, x.fault.toNat⟩
  | 0x10 => reg32 [bitF x.bypass 0, bitF x.dropKeep 1]
  | 0xA0 => reg32 [(x.scrubInterval, 0, 24), bitF x.scrubEn 31]
  | 0xA4 => reg32 [(x.scrubPos, 0, 28)]
  | 0xA8 => reg32 [(x.flipDie, 0, 5), bitF x.parityAfter 8, bitF x.flipArm 31]
  | 0xAC => reg32 [(x.reconDie.getD 0, 0, 5), bitF x.reconDie.isSome 5, ((x.locks.filter (fun l => l.held || l.taken)).length, 24, 8)]
  | 0xD0 => ⟨true, regWord [(x.ueAddr, 0, 48), (x.ueSource, 56, 3), (x.ueOutcome, 59, 3), bitF x.ueOverflow 62,
      bitF x.ueValid 63]⟩
  | 0xD8 => ⟨true, x.remapRead.1.toNat⟩
  | 0xE0 => ⟨true, x.retireRead.1.toNat⟩
  | 0xE8 =>
    let m := d.sparesMin s
    reg32 [(m.2.2, 0, 7), (m.2.1, 12, 7), (m.1, 19, 5)]
  | 0x138 => reg32 [((d.fuseList s).length, 0, 17)]
  | 0x13C => reg32 [(x.fuseSelect, 0, 17)]
  | 0x140 => ⟨true, match (d.fuseList s)[x.fuseSelect]? with
      | some f => f.word
      | none => 0⟩
  | _ =>
    if 0xB0 ≤ o && o < 0xD0 && o % 4 = 0 then ⟨false, (Tab.read (fun _ => (0 : Word)) x.flipMask ((o - 0xB0) / 4)).toNat⟩
    else if stackCounter o then d.counterReg (stackBase s + o)
    else Reg.zero

/-! ### A region's registers -/

/-- A register of region `r` at offset `o` of its 2 MiB. -/
def Dev.regionReg (d : Dev) (r o : Nat) : Reg :=
  let x := d.region r
  if !d.regionPresent r then Reg.zero
  else if o = 0 then
    reg32 [(x.faultUnit, 0, 4), (x.faultOrigin, 8, 4), (x.faultDomain, 12, 4), (x.faultCode, 16, 8), bitF x.faultValid 31]
  else if o = 4 then reg32 [(x.faultStep.toNat, 0, 16)]
  else if o = 8 then d.counterReg (faultCountAt r)
  else if 0x10000 ≤ o && o < 0x11000 && o % 4 = 0 then
    let f := 1024 * r + (o - 0x10000) / 4
    reg32 [(d.flag f, 0, 16), bitF (!(d.waitq f).isEmpty) 31]
  else if 0x20000 ≤ o && o < 0x20800 then d.queueReg r ((o - 0x20000) / 0x40) (o % 0x40)
  else if 0x80000 ≤ o && o < 0x100000 then
    let k := 4 * r + (o - 0x80000) / 0x20000
    let p := o % 0x20000
    if p < 0x4000 then d.blockReg k p
    else if p < 0x14000 then d.cellReg (8 * k + (p - 0x4000) / 0x2000) (p % 0x2000)
    else Reg.zero
  else if 0x100000 ≤ o && o < 0x140000 then d.stackReg (2 * r + (o - 0x100000) / 0x20000) (o % 0x20000)
  else Reg.zero

/-! ### Fabric, span, twin (Tables 5 and 6 of 11, Tables 6 and 7 of 19) -/

def Dev.spanReg (d : Dev) (p o : Nat) : Reg :=
  let x := d.span p
  if !d.spanPresent then Reg.zero
  else
    match o with
    | 0x00 => reg32 [bitF x.retrain 0, (x.timeout, 8, 8)]
    | 0x04 => reg32 [(x.channels.length, 0, 5), (x.partnerPort, 12, 4), (x.partnerId, 16, 6), (x.reason, 28, 2), (x.st, 30, 2)]
    | 0x08 | 0x10 | 0x18 => d.counterReg (spanBase p + o)
    | _ => Reg.zero

def Dev.fabricReg (d : Dev) (off : Nat) : Reg :=
  match off with
  | 0x3000000 => reg32 [((d.net.failed.getD (0, 0)).2, 0, 4), ((d.net.failed.getD (0, 0)).1, 4, 4),
      bitF d.net.failed.isSome 31]
  | 0x3000008 | 0x3000010 | 0x3000018 => d.counterReg off
  | _ => if 0x3001000 ≤ off && off < 0x3001C00 then d.spanReg ((off - 0x3001000) / 0x100) (off % 0x100) else Reg.zero

def Dev.twinReg (d : Dev) (off : Nat) : Reg :=
  let x := d.twin
  match off with
  | 0x3800000 => reg32 [(x.hbTimeout, 8, 8)]
  | 0x3800004 => reg32 [bitF x.present 25, bitF d.chip.straps.twinRole 26, (x.code, 27, 3), (x.st, 30, 2)]
  | 0x3800008 => reg32 [(x.mcommit.toNat, 0, 12)]
  | 0x380000C => reg32 [(x.ackTime, 0, 32)]
  | 0x3800010 | 0x3800018 | 0x3800020 | 0x3800038 => d.counterReg off
  | 0x3800028 => reg32 [(d.promotedLive, 0, 13), bitF x.promotable 30, bitF x.synced 31]
  | 0x380002C => reg32 [(x.promoteCount, 0, 13), (x.srcDomain, 16, 4), (x.dstDomain, 20, 4), (x.promoteCode, 28, 3),
    (if x.promoting.isSome then 1 else 0, 31, 1)]
  | 0x3800030 => reg32 [(x.promotePage, 0, 17)]
  | _ => Reg.zero

/-! ### The map of BAR0 (Table 5 of 14) -/

/-- The register at an offset of BAR0. -/
def Dev.reg (d : Dev) (off : Nat) : Reg :=
  if off < 0x1000 then d.chipReg off
  else if off < 0x100000 then d.hostReg off
  else if off < 0x200000 then d.ecReg off
  else if off < 0x201000 then d.clkReg off
  else if off < 0x300000 then d.thermReg off
  else if off < 0x400000 then d.secReg off
  else if off < 0x440000 then d.reqReg ((off - 0x400000) / 64) (off % 64)
  else if off < 0x450000 then d.custReg ((off - 0x440000) / 64) (off % 64)
  else if off < 0x460000 then d.engineReg (off - 0x450000)
  else if off < 0x1000000 then d.pennantReg off
  else if off < 0x2800000 then d.regionReg ((off - 0x1000000) / 0x200000) (off % 0x200000)
  else if off < 0x3800000 then d.fabricReg off
  else d.twinReg off

/-! ### Reads with an effect -/

/-- Registers that show their value before UNSTRUCTURED: `CHIP_STATUS`, `HOST_LINK` and the security registers (R435). -/
def earlyRead (off : Nat) : Bool := off == 0 || off == 0x1000 || (0x300000 ≤ off && off < 0x400000)

/-- The offset names register `o` of the stack `s`. -/
def stackRegOf (off : Nat) : Option (Nat × Nat) :=
  let p := (off - 0x1000000) % 0x200000
  if 0x1000000 ≤ off && off < 0x2800000 && 0x100000 ≤ p && p < 0x140000 then
    some (2 * ((off - 0x1000000) / 0x200000) + (p - 0x100000) / 0x20000, p % 0x20000)
  else none

/-- What a read of a whole 64-bit register changes: the logs of a stack lose the entry that is read (Table 8 of 12). -/
def Dev.afterRead (d : Dev) (off : Nat) : Dev :=
  match stackRegOf off with
  | some (s, 0xD8) => if d.stackPresent s then d.modStk s (fun x => x.remapRead.2) else d
  | some (s, 0xE0) => if d.stackPresent s then d.modStk s (fun x => x.retireRead.2) else d
  | _ => d

/-- The word behind an offset: `PENNANT_GIVE` and `PENNANT_TAKE` show the pennants (Table 12 of 14). -/
def tableWord (off : Nat) : Nat := if 0x810000 ≤ off && off < 0x830000 then 0x800000 + off % 0x10000 else off

/-- A 32-bit read at an offset: what it does and what it returns (R10, R389, R467). A word that fails its replays is a chip fault
(R445). -/
def Dev.read32 (d : Dev) (who : Agent) (off : Nat) : Dev × Nat :=
  if !d.regsLive && !earlyRead off then (d, 0)
  else if d.badTables.contains (tableWord off) then (d.drawn.chipFault codeChipParity, (Config.freeWord d.free 0).toNat)
  else if 0x104000 ≤ off && off < 0x105010 && off % 0x10 = 0 then
    let r := d.claimRead who ((off - 0x104000) / 0x10)
    (r.1, r.2.toNat)
  else if off = measRunningAt then ({ d with sec.latch := d.sec.running }, (d.reg off).value)
  else if (d.reg off).wide then
    let v := (d.reg off).value
    ((d.afterRead off).setLatchedHalf off (some (BitVec.ofNat 32 (v / 2 ^ 32))), v % 2 ^ 32)
  else if off % 8 = 4 && (d.reg (off - 4)).wide then
    match d.latchedHalf (off - 4) with
    | some w => (d.setLatchedHalf (off - 4) none, w.toNat)
    | none => (d, (d.reg (off - 4)).value / 2 ^ 32)
  else (d, (d.reg off).value)

/-- A 64-bit read: a 64-bit register at once, or two 32-bit registers, the lower offset first. -/
def Dev.read64 (d : Dev) (who : Agent) (off : Nat) : Dev × Nat :=
  if d.regsLive && (d.reg off).wide && !d.badTables.contains off && !d.badTables.contains (off + 4) then
    (d.afterRead off, (d.reg off).value)
  else
    let a := d.read32 who off
    let b := a.1.read32 who (off + 4)
    (b.1, a.2 + atBit b.2 32)

/-! ### BAR4 (R379, R380) -/

/-- A 32-bit word of BAR4. -/
def Dev.bar4Word (d : Dev) (off : Nat) : Nat :=
  if !d.regsLive || off % 4 ≠ 0 then 0
  else if 0x100000 ≤ off && off < 0x101000 then
    let e := d.msixEntry ((off - 0x100000) / 16)
    match off % 16 / 4 with
    | 0 => e.addr.toNat % 2 ^ 32
    | 1 => e.addr.toNat / 2 ^ 32
    | 2 => e.data.toNat
    | _ => boolBit e.mask
  else if 0x101000 ≤ off && off < 0x101020 then bitMap 32 (fun i => d.pbaBit (8 * (off - 0x101000) + i))
  else if 0x200000 ≤ off && off < 0x200100 then d.pendingWord ((off - 0x200000) / 4)
  else if off = 0x200100 then d.chipStatus
  else if 0x200200 ≤ off && off < 0x200300 then (d.ring ((off - 0x200200) / 4)).indexWord
  else 0

/-- The answer to a read of `len` bytes. -/
def Dev.readAnswer (d : Dev) (who : Agent) (bar off len v : Nat) : Dev :=
  match who with
  | .host => d.emit (.readDone bar off (bytesOf v len) false)
  | .mgmt => d.emit (.mgmtRead off (bytesOf v len))

/-- A register read: aligned, of 32 or 64 bits; others return zero without effect (R11). -/
def Dev.readReg (d : Dev) (who : Agent) (bar off len : Nat) : Dev :=
  if bar = 4 then
    let v := if off % len ≠ 0 then 0
      else if len = 4 then d.bar4Word off
      else if len = 8 then d.bar4Word off + atBit (d.bar4Word (off + 4)) 32
      else 0
    d.readAnswer who bar off len v
  else if bar = 0 then
    let r := if off % len ≠ 0 then (d, 0)
      else if len = 4 then d.read32 who off
      else if len = 8 then d.read64 who off
      else (d, 0)
    r.1.readAnswer who bar off len r.2
  else d

/-- The agent reaches the registers to read them: the host from BOOT on (R435). -/
def Dev.readReach (d : Dev) (who : Agent) : Bool :=
  match who with
  | .host => d.secReach
  | .mgmt => d.reaches .mgmt

/-- REG64_LOWER_READ (R10, R11), and every other register read. -/
def execReg64LowerRead (who : Agent) (bar : Fin 6) (off len : Nat) (s : State) : Result State :=
  s.asked who (.reg64LowerRead who bar off len) fun d => d.when (d.readReach who) fun d => d.readReg who bar.val off len

end Sys2Proof.Machine
end

