-- ==== Sys2Proof/Machine/Registers.lean ====
section
/-! DEFINITION. What a write of a register does (00_scope, R9 to R12), over the same operations as the registers' own
commands. -/

namespace Sys2Proof.Machine
open Sys2Proof

/-! ### Chip and host interface -/

def Dev.chipWrite (d : Dev) (off v : Nat) : Dev :=
  match off with
  | 0x04 => d.deviceReset v
  | 0x08 => d.structCommit v
  | 0x10 => if bitAt v 8 then { d with img.late := false } else d
  | 0x18 => if bitAt v 31 then { d with chip.satValid := false } else d
  | _ => d

/-- `RING_CFG`: ignored unless STATE reads OFF (Table 12 of 14). -/
def Dev.ringCfgWrite (d : Dev) (g v : Nat) : Dev :=
  d.modRing g (fun x => if x.state = 0 then { x with page := fieldAt v 0 17, offset := fieldAt v 17 9, log2 := fieldAt v 26 4 } else x)

def Dev.hostRegWrite (d : Dev) (off v : Nat) : Dev :=
  if off = 0x1004 then (if bitAt v 31 then { d with host.hitValid := false } else d)
  else if off = 0x1018 then (if bitAt v 31 then { d with host.stalled := false } else d)
  else if 0x2000 ≤ off && off < 0x2800 then
    let g := (off - 0x2000) / 0x20
    match off % 0x20 with
    | 0 => d.ringCfgWrite g v
    | 4 => d.ringEnable g (bitAt v 0)
    | _ => d
  else d

/-- `PENNANT_GIVE`, `PENNANT_TAKE` (R370). -/
def Dev.pennantWrite (d : Dev) (off v : Nat) : Dev :=
  let w := off % 0x10000 / 4
  if 0x4000 ≤ off % 0x10000 then d
  else if off / 0x10000 = 0x81 then d.setPennants (wordPages w v) true
  else if off / 0x10000 = 0x82 then d.setPennants (wordPages w v) false
  else d

/-! ### Event concentrator -/

def Dev.ecRegWrite (d : Dev) (who : Agent) (off v : Nat) : Dev :=
  let w := BitVec.ofNat 32 v
  if off = 0x100000 then d.modeWrite (bitAt v 0)
  else if off = 0x100004 then d.holdWrite who w
  else if 0x101000 ≤ off && off < 0x103000 then d.cfgWrite ((off - 0x101000) / 4) w
  else if 0x103000 ≤ off && off < 0x103100 then d.maskWrite who ((off - 0x103000) / 4) w
  else if 0x103100 ≤ off && off < 0x103200 then d.pendingWrite who ((off - 0x103100) / 4) w
  else if 0x104000 ≤ off && off < 0x105010 then
    let t := (off - 0x104000) / 0x10
    match off % 0x10 with
    | 4 => d.eoi who t (fieldAt v 0 11)
    | 8 => d.runningWrite t w
    | _ => d
  else d

/-! ### Clocks, power, temperature -/

/-- `PWR_CTL`: an IDLE below 250 is ignored. -/
def Dev.pwrWrite (d : Dev) (v : Nat) : Dev :=
  { d with clk.sleepEn := bitAt v 31
           clk.idle := if fieldAt v 0 24 < 250 then d.clk.idle else fieldAt v 0 24 }

def Dev.clkRegWrite (d : Dev) (off v : Nat) : Dev :=
  if off = 0x200000 then (if bitAt v 29 then { d with clk.coastSeen := false } else d)
  else if off = 0x200004 then d.pwrWrite v
  else if 0x200040 ≤ off && off < 0x2000A0 then
    let t := (off - 0x200040) / 0x10
    match off % 0x10 with
    | 0 => d.clkWrite t v
    | 4 => if bitAt v 28 then d.modTdie t (fun x => { x with overPower := false }) else d
    | _ => d
  else if off = 0x20100C then (if bitAt v 31 then { d with therm.tripValid := false } else d)
  else if 0x201040 ≤ off && off < 0x2010A0 && off % 0x10 = 0 then
    (if bitAt v 25 then d.modThdie ((off - 0x201040) / 0x10) (fun x => { x with maxed := false }) else d)
  else d

/-! ### Security -/

def Dev.secRegWrite (d : Dev) (off v : Nat) : Dev :=
  if off = 0x300004 then d.fwPush v
  else if off = 0x30000C then d.drawn.flashUpdate v (Config.freeBit d.free 0)
  else if off = 0x30001C then { d with sec.select := fieldAt v 0 12 }
  else if 0x300100 ≤ off && off < 0x300120 then
    (if d.sec.repStatus = 1 then d
     else { d with sec.nonce := Tab.write (fun _ => 0) d.sec.nonce ((off - 0x300100) / 4) (BitVec.ofNat 32 v) })
  else if off = 0x300120 then (if bitAt v 31 then d.reportGo else d)
  else d

/-! ### Requests (R215 to R217) -/

/-- In these states every RW field may be written (R216). -/
def ReqState.open_ (s : ReqState) : Bool := s == .free || s.ended

/-- CMD of `REQ_CTL`: a pending command refuses another with BUSY, unless that is CANCEL; unknown codes are refused with
BAD_STATE (R217, Tables 8 and 9). -/
def Dev.cmdWrite (d : Dev) (i c : Nat) : Dev :=
  let p := (d.req i).cmd
  if c = 0 then d
  else if p ≠ 0 && c ≠ 2 then d.refuse i 1
  else if 5 < c then d.refuse i 2
  else d.modReq i (fun x => { x with cmd := c })

/-- Word `k` of an entry with `v` written to it, its RW fields that the state lets change (R216). -/
def Req.written (x : Req) (k v : Nat) : Req :=
  let o := x.state.open_
  match k with
  | 0 => if bitAt v 26 then { x with refused := false } else x
  | 1 =>
    let w := BitVec.ofNat 32 v
    { x with cfg := if o then w &&& 0xFFFF1FFF else (x.cfg &&& 0xFFFFE3FF) ||| (w &&& 0x1C00) }
  | 2 => if o then { x with promptBase := BitVec.ofNat 64 (v % 2 ^ 48) } else x
  | 4 => if o || x.state == .parked then { x with pageList := BitVec.ofNat 64 (v % 2 ^ 48) } else x
  | 6 => if o then { x with outBase := BitVec.ofNat 64 (v % 2 ^ 52) } else x
  | 8 => if o then { x with promptLen := BitVec.ofNat 32 v } else x
  | 9 => if o then { x with maxLen := BitVec.ofNat 32 v } else x
  | 12 => { x with limits := BitVec.ofNat 32 v }
  | 13 => { x with outRead := BitVec.ofNat 16 v }
  | _ => x

/-- A write of word `k` of entry `i`: a command that it carries; a write of PRIORITY, LIMITS or OUT_READ of a request lets
its domain compose or pre-empt (R223, R244). -/
def Dev.reqWrite (d : Dev) (i k v : Nat) : Dev :=
  let d1 := d.modReq i (fun x => x.written k v)
  if k = 0 then d1.cmdWrite i (fieldAt v 28 4)
  else if (k = 1 || k = 12 || k = 13) && (d.req i).state ≠ .free then d1.prompt (d1.req i).domain
  else d1

/-! ### Engine, domains, bundles -/

/-- `SERVE_CTL`: zero in PROBE_INTERVAL or ZERO_LIMIT is ignored. -/
def Dev.serveCtlWrite (d : Dev) (v : Nat) : Dev :=
  { d with
    serve.grow := bitAt v 10
    serve.probeInterval := if fieldAt v 4 6 = 0 then d.serve.probeInterval else fieldAt v 4 6
    serve.zeroLimit := if fieldAt v 0 4 = 0 then d.serve.zeroLimit else fieldAt v 0 4 }

/-- `DOM_BUNDLE`: a QUANTUM of zero is ignored. -/
def Dev.quantumWrite (d : Dev) (n v : Nat) : Dev :=
  if fieldAt v 16 7 = 0 then d else d.modDom n (fun x => { x with quantum := fieldAt v 16 7 })

/-- `BUNDLE_CMD`: ignored while BUSY; operations 1 and 2 begin (R240, R241). -/
def Dev.bundleCmdWrite (d : Dev) (v : Nat) : Dev :=
  let op := fieldAt v 28 4
  if d.bcmd.busy || op = 0 || 2 < op then d
  else { d with bcmd := { d.bcmd with busy := true, op := op, domain := fieldAt v 8 4, bundle := fieldAt v 0 8 } }

/-- `SERVE_CHANGED` word `w`: W1C. -/
def Dev.changedWrite (d : Dev) (w v : Nat) : Dev :=
  (bitsOf v 32).foldl (fun a i =>
    { a with serve.changed := Tab.write (fun _ => false) a.serve.changed (32 * w + i) false }) d

def Dev.engineWrite (d : Dev) (o v : Nat) : Dev :=
  if o = 0 then d.serveCtlWrite v
  else if o = 4 then d.serveKick v
  else if 0x100 ≤ o && o < 0x280 then
    let n := (o - 0x100) / 0x20
    match o % 0x20 with
    | 0x0C => d.preemptWrite n (BitVec.ofNat 32 v)
    | 0x10 => d.quantumWrite n v
    | _ => d
  else if o = 0x800 then { d with bcmd.addr := BitVec.ofNat 64 (v % 2 ^ 48) }
  else if o = 0x808 then d.bundleCmdWrite v
  else if 0x1000 ≤ o && o < 0x1200 then d.changedWrite ((o - 0x1000) / 4) v
  else d

/-! ### Regions and stacks -/

/-- `STACK_CACHE_CTL`: BYPASS, and DROP_KEEP by a 1 (R169, R171). -/
def Dev.cacheCtlWrite (d : Dev) (s v : Nat) : Dev :=
  let d1 := d.modStk s (fun x => { x with bypass := bitAt v 0 })
  if bitAt v 1 then d1.startDrop s else d1

/-- `MEM_UE_LOG`: VALID and OVERFLOW are W1C. -/
def StackSt.ueWrite (x : StackSt) (v : Nat) : StackSt :=
  { x with ueValid := x.ueValid && !bitAt v 63, ueOverflow := x.ueOverflow && !bitAt v 62 }

def Dev.stackWrite (d : Dev) (s o v : Nat) : Dev :=
  match o with
  | 0x04 => d.ruleWrite s (fieldAt v 0 3)
  | 0x10 => d.cacheCtlWrite s v
  | 0xA0 => d.modStk s (fun x => x.scrubWrite v)
  | 0xA8 => d.modStk s (fun x => x.flipWrite v)
  | 0xD0 => d.modStk s (fun x => x.ueWrite v)
  | 0x13C => d.modStk s (fun x => { x with fuseSelect := fieldAt v 0 17 })
  | _ => if 0xB0 ≤ o && o < 0xD0 then d.modStk s (fun x => x.maskWrite ((o - 0xB0) / 4) (BitVec.ofNat 32 v)) else d

def Dev.regionWrite (d : Dev) (off v : Nat) : Dev :=
  let r := (off - 0x1000000) / 0x200000
  let o := off % 0x200000
  if !d.regionPresent r then d
  else
    match stackRegOf off with
    | some (s, p) => d.stackWrite s p v
    | none =>
      if 0x20000 ≤ o && o < 0x20800 && o % 0x40 = 0x0C && bitAt v 29 then
        d.modQueue (32 * r + (o - 0x20000) / 0x40) (fun q => { q with ptrReset := false })
      else d

/-! ### Span and twin -/

/-- `SPAN_CTL`: a TIMEOUT of zero is ignored; RETRAIN by a 1. -/
def Dev.spanWrite (d : Dev) (p v : Nat) : Dev :=
  let d1 := if fieldAt v 8 8 = 0 then d else d.modSpan p (fun x => { x with timeout := fieldAt v 8 8 })
  if bitAt v 0 then d1.spanRetrain p else d1

/-- `TWIN_CTL`: an HB_TIMEOUT below 5 is ignored; ATTACH, then DETACH. -/
def Dev.twinCtlWrite (d : Dev) (v : Nat) : Dev :=
  let d1 := if fieldAt v 8 8 < 5 then d else { d with twin.hbTimeout := fieldAt v 8 8 }
  let d2 := if bitAt v 0 then d1.tryAttach else d1
  if bitAt v 1 then d2.detach 5 else d2

/-- `TWIN_MCOMMIT`: a bit of a domain with no outgoing mirror ignores a 1. -/
def Dev.mcommitWrite (d : Dev) (v : Nat) : Dev :=
  { d with twin.mcommit := BitVec.ofNat 12 (bitMap 12 (fun n => bitAt v n && (d.mirrored n || d.twin.mcommit.getLsbD n))) }

def Dev.linkWrite (d : Dev) (off v : Nat) : Dev :=
  if 0x3001000 ≤ off && off < 0x3001C00 then
    (if d.spanPresent && off % 0x100 = 0 then d.spanWrite ((off - 0x3001000) / 0x100) v else d)
  else
    match off with
    | 0x3800000 => d.twinCtlWrite v
    | 0x3800008 => d.mcommitWrite v
    | 0x380002C => d.promote v
    | 0x3800030 => { d with twin.promotePage := fieldAt v 0 17 }
    | _ => d

/-! ### The map of BAR0 -/

/-- Registers that act in READY only: requests, customers, engine, regions, fabric, span and twin; the fuse remap
registers act from UNSTRUCTURED on (R437, R438). -/
def readyOnly (off : Nat) : Bool :=
  (0x400000 ≤ off && off < 0x800000) ||
    (0x1000000 ≤ off && (match stackRegOf off with
      | some (_, 0x13C) => false
      | _ => true))

/-- A write at this offset acts in the chip state (R435, R437, R438). -/
def Dev.writeActs (d : Dev) (off : Nat) : Bool :=
  if d.regsLive then !readyOnly off || d.inReady
  else off == 4 || (0x300000 ≤ off && off < 0x400000)

/-- A whole register is written: `v` has its width. -/
def Dev.putReg (d : Dev) (who : Agent) (off v : Nat) : Dev :=
  if off < 0x1000 then d.chipWrite off v
  else if off < 0x100000 then d.hostRegWrite off v
  else if off < 0x200000 then d.ecRegWrite who off v
  else if off < 0x300000 then d.clkRegWrite off v
  else if off < 0x400000 then d.secRegWrite off v
  else if off < 0x440000 then d.reqWrite ((off - 0x400000) / 64) (off % 64 / 4) v
  else if off < 0x450000 then (if off % 64 = 8 then d.custCredit ((off - 0x440000) / 64) v else d)
  else if off < 0x460000 then d.engineWrite (off - 0x450000) v
  else if off < 0x1000000 then d.pennantWrite off v
  else if off < 0x2800000 then d.regionWrite off v
  else d.linkWrite off v

/-- The word at an offset has been written: its parity is good (R40). -/
def Dev.cleanTable (d : Dev) (off : Nat) : Dev := { d with badTables := d.badTables.filter (fun o => decide (o ≠ off)) }

/-- A 32-bit write (R12): the lower half of a 64-bit register is held; the upper half writes the whole register, with the
held lower half or the current one. -/
def Dev.write32 (d : Dev) (who : Agent) (off v : Nat) : Dev :=
  if !d.writeActs off then d
  else if (d.reg off).wide then d.setHeldHalf off (some (BitVec.ofNat 32 v))
  else if off % 8 = 4 && (d.reg (off - 4)).wide then
    let lo := match d.heldHalf (off - 4) with
      | some w => w.toNat
      | none => (d.reg (off - 4)).value % 2 ^ 32
    (((d.cleanTable off).cleanTable (off - 4)).setHeldHalf (off - 4) none).putReg who (off - 4) (lo + atBit v 32)
  else (d.cleanTable off).putReg who off v

/-- A 64-bit write: a 64-bit register whole, its held half discarded; or two 32-bit registers, the lower offset first. -/
def Dev.write64 (d : Dev) (who : Agent) (off v : Nat) : Dev :=
  if d.writeActs off && (d.reg off).wide then
    (((d.cleanTable off).cleanTable (off + 4)).setHeldHalf off none).putReg who off v
  else (d.write32 who off (v % 2 ^ 32)).write32 who (off + 4) (v / 2 ^ 32)

/-! ### BAR4 (R379) -/

/-- An entry of the MSI-X table with word `k` written. -/
def MsixEntry.written (e : MsixEntry) (k v : Nat) : MsixEntry :=
  match k with
  | 0 => { e with addr := BitVec.ofNat 64 (e.addr.toNat / 2 ^ 32 * 2 ^ 32 + v) }
  | 1 => { e with addr := BitVec.ofNat 64 (e.addr.toNat % 2 ^ 32 + atBit v 32) }
  | 2 => { e with data := BitVec.ofNat 32 v }
  | _ => { e with mask := bitAt v 0 }

/-- A 32-bit write of BAR4. -/
def Dev.bar4Write (d : Dev) (off v : Nat) : Dev :=
  if !d.regsLive then d
  else if off < 0x40000 then
    (if off % 0x1000 = 0 && d.inReady then d.ringDoorbell (off / 0x1000) (BitVec.ofNat 16 v) else d)
  else if off = 0x40000 then d.sourceDoorbell (fieldAt v 0 11)
  else if 0x100000 ≤ off && off < 0x101000 then
    (d.modMsixEntry ((off - 0x100000) / 16) (fun e => e.written (off % 16 / 4) v)).flushVectors
  else d

/-- A register write of `len` bytes; others than aligned 32-bit and 64-bit ones complete without effect (R11). -/
def Dev.writeReg (d : Dev) (who : Agent) (bar off len v : Nat) : Dev :=
  if (len ≠ 4 && len ≠ 8) || off % len ≠ 0 then d
  else if bar = 0 then (if len = 4 then d.write32 who off (v % 2 ^ 32) else d.write64 who off v)
  else if bar = 4 && who = .host then
    (if len = 4 then d.bar4Write off (v % 2 ^ 32)
     else (d.bar4Write off (v % 2 ^ 32)).bar4Write (off + 4) (v / 2 ^ 32))
  else d

/-- REGISTER_WRITE (R9, R11, R12). -/
def execRegisterWrite (who : Agent) (bar : Fin 6) (off len : Nat) (v : BitVec 64) (s : State) : Result State :=
  s.asked who (.registerWrite who bar off len v) fun d => d.when (d.readReach who) fun d =>
    d.writeReg who bar.val off len v.toNat

end Sys2Proof.Machine
end

