-- ==== Sys2Proof/Machine/Dispatch.lean ====
section
/-! DEFINITION. One arm for each command, each one call of its meaning. -/

namespace Sys2Proof.Machine

/-- The effect of a command on everything but the queue. -/
def exec (i : Instr) (s : State) : Host.Outcome State Fault Refusal :=
  match i with
  | .matmul r b => Sys2Proof.Machine.execMatmul r b s
  | .matmulAcc r b => Sys2Proof.Machine.execMatmulAcc r b s
  | .elem r b => Sys2Proof.Machine.execElem r b s
  | .reduce r b => Sys2Proof.Machine.execReduce r b s
  | .rowstat r b => Sys2Proof.Machine.execRowstat r b s
  | .move r b => Sys2Proof.Machine.execMove r b s
  | .layout r b => Sys2Proof.Machine.execLayout r b s
  | .gather r b => Sys2Proof.Machine.execGather r b s
  | .scatter r b => Sys2Proof.Machine.execScatter r b s
  | .scatterAcc r b => Sys2Proof.Machine.execScatterAcc r b s
  | .stackSeq r b => Sys2Proof.Machine.execStackSeq r b s
  | .stackScan r b => Sys2Proof.Machine.execStackScan r b s
  | .treeReduce r b => Sys2Proof.Machine.execTreeReduce r b s
  | .spanSend r op => Sys2Proof.Machine.execSpanSend r op s
  | .spanRecv r b => Sys2Proof.Machine.execSpanRecv r b s
  | .waitFlag r b => Sys2Proof.Machine.execWaitFlag r b s
  | .setFlag r b => Sys2Proof.Machine.execSetFlag r b s
  | .stepEnd r b => Sys2Proof.Machine.execStepEnd r b s
  | .bwdScores r b => Sys2Proof.Machine.execBwdScores r b s
  | .bwdRowdot r b => Sys2Proof.Machine.execBwdRowdot r b s
  | .bwdDscore r b => Sys2Proof.Machine.execBwdDscore r b s
  | .opIssue r b => Sys2Proof.Machine.execOpIssue r b s
  | .opComplete r b pos => Sys2Proof.Machine.execOpComplete r b pos s
  | .remoteFlagSet r => Sys2Proof.Machine.execRemoteFlagSet r s
  | .imageLoadDone r b => Sys2Proof.Machine.execImageLoadDone r b s
  | .stackDispatch st => Sys2Proof.Machine.execStackDispatch st s
  | .loada st slot => Sys2Proof.Machine.execLoada st slot s
  | .wxv st d c => Sys2Proof.Machine.execWxv st d c s
  | .attnDecode st d c => Sys2Proof.Machine.execAttnDecode st d c s
  | .normalise st slot => Sys2Proof.Machine.execNormalise st slot s
  | .emit st d c => Sys2Proof.Machine.execEmit st d c s
  | .store st d c => Sys2Proof.Machine.execStore st d c s
  | .yield st d c => Sys2Proof.Machine.execYield st d c s
  | .refslot st d c => Sys2Proof.Machine.execRefslot st d c s
  | .seqEnd st d c => Sys2Proof.Machine.execSeqEnd st d c s
  | .sequenceEnd st slot => Sys2Proof.Machine.execSequenceEnd st slot s
  | .attnRecordMerge st slot => Sys2Proof.Machine.execAttnRecordMerge st slot s
  | .streamActivation st d c cycle => Sys2Proof.Machine.execStreamActivation st d c cycle s
  | .yieldPoint st d c => Sys2Proof.Machine.execYieldPoint st d c s
  | .bankAccess who hint addr len wdata => Sys2Proof.Machine.execBankAccess who hint addr len wdata s
  | .refreshDue st d c => Sys2Proof.Machine.execRefreshDue st d c s
  | .refreshDone st d c => Sys2Proof.Machine.execRefreshDone st d c s
  | .stackRuleWrite st v => Sys2Proof.Machine.execStackRuleWrite st v s
  | .dieApplyRule st d => Sys2Proof.Machine.execDieApplyRule st d s
  | .modeTimeout st => Sys2Proof.Machine.execModeTimeout st s
  | .dropKeep st => Sys2Proof.Machine.execDropKeep st s
  | .scanRegionMerge r => Sys2Proof.Machine.execScanRegionMerge r s
  | .scanListArrival r => Sys2Proof.Machine.execScanListArrival r s
  | .scanMergeTimeout r => Sys2Proof.Machine.execScanMergeTimeout r s
  | .reconstruction st bank row chunk => Sys2Proof.Machine.execReconstruction st bank row chunk s
  | .deltaGrant st => Sys2Proof.Machine.execDeltaGrant st s
  | .deltaApply st check => Sys2Proof.Machine.execDeltaApply st check s
  | .stripeLockGrant st bank row chunk => Sys2Proof.Machine.execStripeLockGrant st bank row chunk s
  | .narrowWrite who addr bytes => Sys2Proof.Machine.execNarrowWrite who addr bytes s
  | .fullStripeWrite who addr bytes => Sys2Proof.Machine.execFullStripeWrite who addr bytes s
  | .stripeRepair st bank row chunk twin => Sys2Proof.Machine.execStripeRepair st bank row chunk twin s
  | .scrubVisit st => Sys2Proof.Machine.execScrubVisit st s
  | .rowRepair st d bank row => Sys2Proof.Machine.execRowRepair st d bank row s
  | .flipArm st v => Sys2Proof.Machine.execFlipArm st v s
  | .remapLogRead st => Sys2Proof.Machine.execRemapLogRead st s
  | .pageRetireLogRead st => Sys2Proof.Machine.execPageRetireLogRead st s
  | .fillComplete => Sys2Proof.Machine.execFillComplete s
  | .fillTimeout => Sys2Proof.Machine.execFillTimeout s
  | .submit n => Sys2Proof.Machine.execSubmit n s
  | .cancel n => Sys2Proof.Machine.execCancel n s
  | .park n => Sys2Proof.Machine.execPark n s
  | .resume n => Sys2Proof.Machine.execResume n s
  | .release n => Sys2Proof.Machine.execRelease n s
  | .compose dom => Sys2Proof.Machine.execCompose dom s
  | .phaseRelease dom => Sys2Proof.Machine.execPhaseRelease dom s
  | .tokenDelivery n => Sys2Proof.Machine.execTokenDelivery n s
  | .packingDone n => Sys2Proof.Machine.execPackingDone n s
  | .expansionDone n => Sys2Proof.Machine.execExpansionDone n s
  | .parkTtlExpire n => Sys2Proof.Machine.execParkTtlExpire n s
  | .custCredit c n => Sys2Proof.Machine.execCustCredit c n s
  | .serveKick v => Sys2Proof.Machine.execServeKick v s
  | .admitBundle => Sys2Proof.Machine.execAdmitBundle s
  | .retire => Sys2Proof.Machine.execRetire s
  | .suspendComplete dom => Sys2Proof.Machine.execSuspendComplete dom s
  | .saveComplete r => Sys2Proof.Machine.execSaveComplete r s
  | .suspendedStepContinue dom => Sys2Proof.Machine.execSuspendedStepContinue dom s
  | .domPreemptWrite dom v => Sys2Proof.Machine.execDomPreemptWrite dom v s
  | .domainStall dom => Sys2Proof.Machine.execDomainStall dom s
  | .queueEntryWrite r q => Sys2Proof.Machine.execQueueEntryWrite r q s
  | .queueRelease r q => Sys2Proof.Machine.execQueueRelease r q s
  | .queueMark r q => Sys2Proof.Machine.execQueueMark r q s
  | .queueRewind r q => Sys2Proof.Machine.execQueueRewind r q s
  | .queueStall r q => Sys2Proof.Machine.execQueueStall r q s
  | .fabricMessage src dst cls => Sys2Proof.Machine.execFabricMessage src dst cls s
  | .linkReplay r => Sys2Proof.Machine.execLinkReplay r s
  | .treeRoundComplete dom late => Sys2Proof.Machine.execTreeRoundComplete dom late s
  | .treeTimeout dom => Sys2Proof.Machine.execTreeTimeout dom s
  | .spanTrainResult p res => Sys2Proof.Machine.execSpanTrainResult p res s
  | .spanRetrain p => Sys2Proof.Machine.execSpanRetrain p s
  | .spanMessageArrival p channel bytes => Sys2Proof.Machine.execSpanMessageArrival p channel bytes s
  | .spanTreeRound turn => Sys2Proof.Machine.execSpanTreeRound turn s
  | .spanTimeout r b pos => Sys2Proof.Machine.execSpanTimeout r b pos s
  | .twinAttach => Sys2Proof.Machine.execTwinAttach s
  | .twinAttached hello areas => Sys2Proof.Machine.execTwinAttached hello areas s
  | .twinDetach => Sys2Proof.Machine.execTwinDetach s
  | .twinHeartbeatSend => Sys2Proof.Machine.execTwinHeartbeatSend s
  | .twinHbToggle => Sys2Proof.Machine.execTwinHbToggle s
  | .heartbeatTimeout => Sys2Proof.Machine.execHeartbeatTimeout s
  | .ackTimeout => Sys2Proof.Machine.execAckTimeout s
  | .twinRecordApply item => Sys2Proof.Machine.execTwinRecordApply item s
  | .twinAckReceived => Sys2Proof.Machine.execTwinAckReceived s
  | .twinRepairRead addr len => Sys2Proof.Machine.execTwinRepairRead addr len s
  | .twinPromote v => Sys2Proof.Machine.execTwinPromote v s
  | .structCommit v => Sys2Proof.Machine.execStructCommit v s
  | .structCopyDone => Sys2Proof.Machine.execStructCopyDone s
  | .hostWindowWrite off bytes => Sys2Proof.Machine.execHostWindowWrite off bytes s
  | .hostWindowRead off len => Sys2Proof.Machine.execHostWindowRead off len s
  | .atomicOpRequest bar off => Sys2Proof.Machine.execAtomicOpRequest bar off s
  | .configRequest q => Sys2Proof.Machine.execConfigRequest q s
  | .pennantGive w v => Sys2Proof.Machine.execPennantGive w v s
  | .pennantTake w v => Sys2Proof.Machine.execPennantTake w v s
  | .pennantStall page => Sys2Proof.Machine.execPennantStall page s
  | .ringEnable g v => Sys2Proof.Machine.execRingEnable g v s
  | .ringDoorbell g v => Sys2Proof.Machine.execRingDoorbell g v s
  | .ringNop g => Sys2Proof.Machine.execRingNop g s
  | .ringMove g => Sys2Proof.Machine.execRingMove g s
  | .ringLayout g => Sys2Proof.Machine.execRingLayout g s
  | .ringFill g => Sys2Proof.Machine.execRingFill g s
  | .ringGiveBack g => Sys2Proof.Machine.execRingGiveBack g s
  | .ringEntryComplete g => Sys2Proof.Machine.execRingEntryComplete g s
  | .sourceDoorbell v => Sys2Proof.Machine.execSourceDoorbell v s
  | .eventRaise src => Sys2Proof.Machine.execEventRaise src s
  | .eventWithdraw src => Sys2Proof.Machine.execEventWithdraw src s
  | .msixUnmask vector => Sys2Proof.Machine.execMsixUnmask vector s
  | .ecClaim who t => Sys2Proof.Machine.execEcClaim who t s
  | .ecEoi who t v => Sys2Proof.Machine.execEcEoi who t v s
  | .ecPendingWrite who w v => Sys2Proof.Machine.execEcPendingWrite who w v s
  | .ecHoldTake who v => Sys2Proof.Machine.execEcHoldTake who v s
  | .ecHoldRelease who v => Sys2Proof.Machine.execEcHoldRelease who v s
  | .ecHoldExpire => Sys2Proof.Machine.execEcHoldExpire s
  | .ecModeWrite v => Sys2Proof.Machine.execEcModeWrite v s
  | .clkSelWrite d v => Sys2Proof.Machine.execClkSelWrite d v s
  | .pllLock d p => Sys2Proof.Machine.execPllLock d p s
  | .tdieAutoSwitch d => Sys2Proof.Machine.execTdieAutoSwitch d s
  | .floorEnforce d => Sys2Proof.Machine.execFloorEnforce d s
  | .pllIdleStop d p => Sys2Proof.Machine.execPllIdleStop d p s
  | .powerCompare d mean => Sys2Proof.Machine.execPowerCompare d mean s
  | .regionSleep r => Sys2Proof.Machine.execRegionSleep r s
  | .stackSelfRefresh st => Sys2Proof.Machine.execStackSelfRefresh st s
  | .wakeGrant q => Sys2Proof.Machine.execWakeGrant q s
  | .regionAwake r => Sys2Proof.Machine.execRegionAwake r s
  | .stackSrExit st => Sys2Proof.Machine.execStackSrExit st s
  | .referenceLoss => Sys2Proof.Machine.execReferenceLoss s
  | .referenceReturn => Sys2Proof.Machine.execReferenceReturn s
  | .thermalSample readings => Sys2Proof.Machine.execThermalSample readings s
  | .graceExpire d => Sys2Proof.Machine.execGraceExpire d s
  | .coolingStepDown d => Sys2Proof.Machine.execCoolingStepDown d s
  | .thermalTrip sensor => Sys2Proof.Machine.execThermalTrip sensor s
  | .thermalRestart => Sys2Proof.Machine.execThermalRestart s
  | .vddKeepUp => Sys2Proof.Machine.execVddKeepUp s
  | .pwrgoodRise lands => Sys2Proof.Machine.execPwrgoodRise lands s
  | .pwrgoodFall => Sys2Proof.Machine.execPwrgoodFall s
  | .perstAssert => Sys2Proof.Machine.execPerstAssert s
  | .perstDeassert => Sys2Proof.Machine.execPerstDeassert s
  | .hotReset cause => Sys2Proof.Machine.execHotReset cause s
  | .deviceReset v => Sys2Proof.Machine.execDeviceReset v s
  | .romReady found => Sys2Proof.Machine.execRomReady found s
  | .fwPush v => Sys2Proof.Machine.execFwPush v s
  | .firmwareVerify fuseFail => Sys2Proof.Machine.execFirmwareVerify fuseFail s
  | .bootLinksTrained => Sys2Proof.Machine.execBootLinksTrained s
  | .linkTrainTimeout => Sys2Proof.Machine.execLinkTrainTimeout s
  | .flashUpdate v flashOk => Sys2Proof.Machine.execFlashUpdate v flashOk s
  | .spdmRequest port q => Sys2Proof.Machine.execSpdmRequest port q s
  | .measRunningRead => Sys2Proof.Machine.execMeasRunningRead s
  | .reportGo => Sys2Proof.Machine.execReportGo s
  | .reportDone => Sys2Proof.Machine.execReportDone s
  | .reportTreeReady => Sys2Proof.Machine.execReportTreeReady s
  | .iodieLost io => Sys2Proof.Machine.execIodieLost io s
  | .twinPresentInChange level => Sys2Proof.Machine.execTwinPresentInChange level s
  | .twinHbInEdge level => Sys2Proof.Machine.execTwinHbInEdge level s
  | .bypass => Sys2Proof.Machine.execBypass s
  | .idcode => Sys2Proof.Machine.execIdcode s
  | .samplePreload shift => Sys2Proof.Machine.execSamplePreload shift s
  | .extest => Sys2Proof.Machine.execExtest s
  | .clamp => Sys2Proof.Machine.execClamp s
  | .highz => Sys2Proof.Machine.execHighz s
  | .reg64LowerRead who bar off len => Sys2Proof.Machine.execReg64LowerRead who bar off len s
  | .registerWrite who bar off len v => Sys2Proof.Machine.execRegisterWrite who bar off len v s
  | .vddKeepLoss => Sys2Proof.Machine.execVddKeepLoss s
  | .linkHeartbeatArrival => Sys2Proof.Machine.execLinkHeartbeatArrival s
  | .attachFailure why => Sys2Proof.Machine.execAttachFailure why s

end Sys2Proof.Machine
end

