-- ==== Sys2Proof/Machine/Step.lean ====
section
/-! DEFINITION. One step: the command at the front of the queue; on an empty queue one cycle of the keep clock passes,
and the block takes up the host's requests that wait (R368; log 5, 49). -/

namespace Sys2Proof.Machine

/-- Time passes: one cycle of the keep clock, and the host's requests that wait come up again. -/
def State.idle (s : State) : State := ⟨s.dev.cycle.host.held, { s.dev.cycle with host.held := [] }⟩

/-- The machine takes the command at the front of its queue; with an empty queue time passes. -/
def step (s : State) : Host.Outcome State Fault Refusal :=
  match s.pending with
  | [] => .next s.idle
  | c :: rest => exec c { s with pending := rest }

/-- `s` with the command that a table word spells at the front of its queue. -/
def State.withFetchWord (s : State) (nbits w : Nat) : State :=
  match decodeTableWord nbits w with
  | some c => { s with pending := c :: s.pending }
  | none => s

end Sys2Proof.Machine
end

