-- ==== Sys2Proof/Safety.lean ====
section
/-! DEFINITION. What counts as a safe state: every memory of the block is in its canonical form, and the grade its fuses
give is the one it left the factory with. -/

namespace Sys2Proof
open Machine

/-- The memories are canonical: DRAM, whose unlisted bytes are zeros (R322); scratchpads and block buffers, whose unlisted
bytes the draws of their regions give (R39); activation buffers and accumulators, whose unlisted contents the draws of
their stacks give (R135); and the two arrays of draws. -/
def memsCanonical (dram scratch bbuf : Mem) (sram : Tab Nat) (abuf : Mem) (accs : Tab Word) (bau : Tab Nat) : Bool :=
  Memory.wf zeroByte dram && Memory.wf (sramUnlisted sram (32 * cellBytes)) scratch &&
    Memory.wf (sramUnlisted sram (4 * bbufBytes)) bbuf && Tab.wf (fun _ => 0) sram &&
    Memory.wf (abufUnlisted bau) abuf && Tab.wf (accUnlisted bau) accs && Tab.wf (fun _ => 0) bau

/-- Every memory of the device is canonical. -/
def canonical (d : Dev) : Bool := memsCanonical d.dram d.scratch d.bbuf d.sramEpoch d.abuf d.accs d.bauEpoch

end Sys2Proof
end

