-- ==== Sys2Proof/Certificates/Slice0/Obligations.lean ====
section
/-! DEFINITION. Statements for the provers. A command that completes answers a next state; `Does c s e` says so and gives
all of it: the queue as it was, and the device `e`. Where `e` is a record update of `s.dev`, or one of the named writers
(Units.lean) applied to it, every register, flag and byte of memory that the update does not name is unchanged. -/

open Sys2Proof Sys2Proof.Machine

namespace Sys2Proof.Claims

/-- The command completes at `s`: the device becomes `e`, and the queue stays. -/
def Does (c : Instr) (s : State) (e : Dev) : Prop := exec c s = .next { s with dev := e }

/-- The chip state becomes `st`, and the change raises source 1 (R433). -/
def moved (d : Dev) (st : ChipState) : Dev :=
  { d with chip.state := st, ec.inbox := d.ec.inbox ++ [⟨1, true⟩] }

/-- An agent's request comes in its turn: none of the host's waits before a request of the host (R368). -/
def InTurn (who : Agent) (d : Dev) : Prop := who = .host → d.host.held = []

/-- What every step keeps of a device: its memories are in canonical form. -/
def Inv (s : State) : Prop := canonical s.dev = true

end Sys2Proof.Claims

open Sys2Proof.Claims

/-! ### The machine as a whole -/

/-- A step with the command `c` at the front of the queue is `exec` of `c` on the state with the rest of the queue; with
nothing waiting, one cycle of the keep clock passes, and what waits comes up again: the host's requests in order, and what the
units have begun (the model's choice, log 5, 49); where nothing waits, the cycle changes nothing else. -/
def Obligations.StepRunsFront : Prop :=
  (∀ (c : Instr) (rest : List Instr) (d : Dev), step ⟨c :: rest, d⟩ = exec c ⟨rest, d⟩) ∧
  (∀ d : Dev, step ⟨[], d⟩ = .next ⟨d.cycle.host.held, { d.cycle with host.held := [] }⟩ ∧ d.tick.now = d.now + 1 ∧
    d.cycle = if d.clk.coast = true then d.tick else d.tick.resumed) ∧
  (∀ d : Dev, (∀ e ∈ d.doms, e.2.judge = false) → d.twin.copyAt = none → d.twin.posts = [] → d.twin.promoting = none →
    d.img.waits = false → d.sec.flashRun = none →
    (∀ e ∈ d.host.rings, (e.2.prod - e.2.start).toNat ≤ e.2.fetched.length) → d.resumed = d)

/-- Commands leave the queue first in, first out: a step that answers a next state has taken the front command and no
other, whatever the command does. Requests of the host are performed in order (R368): while an earlier one waits for memory,
a later one, be it a doorbell, a register access or an access of the window, has no effect of its own yet: it is held behind
the ones that wait, and nothing else changes. An access of the management block does not wait for them. (That the held
requests come up on an empty queue is the model's choice, log 49.) -/
def Obligations.QueueFirstInFirstOut : Prop :=
  (∀ (c : Instr) (rest : List Instr) (d : Dev) (t : State), step ⟨c :: rest, d⟩ = .next t → t.pending = rest) ∧
  (∀ (s : State) (i : Instr) (off len : Nat) (st : Stack) (bar : Fin 6) (v : Word) (t : TDie) (w : Fin 4096) (g : RingNo)
    (p : PortNo) (dom : Domain) (c : CustNo) (n : Fin 256) (x : Bool), s.dev.host.held ≠ [] →
    i ∈ [.hostWindowRead off len, .atomicOpRequest bar off, .pennantGive w v, .pennantTake w v, .ringEnable g v,
      .ringDoorbell g v, .sourceDoorbell v, .msixUnmask n, .ecModeWrite v, .clkSelWrite t v, .structCommit v,
      .stackRuleWrite st v, .dropKeep st, .remapLogRead st, .pageRetireLogRead st, .spanRetrain p, .custCredit c v,
      .serveKick v, .domPreemptWrite dom v, .twinAttach, .twinDetach, .twinPromote v, .fwPush v, .flashUpdate v x,
      .measRunningRead, .reportGo, .deviceReset v] →
    wellFormed i = true →
    Does i s { s.dev with host.held := s.dev.host.held ++ [i] }) ∧
  (∀ (s : State) (off : Nat) (bytes : List Byte) (st : Stack) (v : Word), s.dev.host.held ≠ [] →
    (wellFormed (.hostWindowWrite off bytes) = true →
      Does (.hostWindowWrite off bytes) s { s.dev with host.held := s.dev.host.held ++ [.hostWindowWrite off bytes] }) ∧
    (wellFormed (.flipArm st v) = true →
      Does (.flipArm st v) s { s.dev with host.held := s.dev.host.held ++ [.flipArm st v] })) ∧
  (∀ (s : State) (bar : Fin 6) (off len : Nat) (v : BitVec 64) (t : TargetNo) (w : Fin 64) (x : Word),
    s.dev.host.held ≠ [] →
    (∀ i : Instr, i ∈ [.reg64LowerRead .host bar off len, .registerWrite .host bar off len v, .ecClaim .host t,
      .ecEoi .host t x, .ecPendingWrite .host w x] →
      Does i s { s.dev with host.held := s.dev.host.held ++ [i] }) ∧
    Does (.reg64LowerRead .mgmt bar off len) s
      (if s.dev.readReach .mgmt = true then s.dev.readReg .mgmt bar.val off len else s.dev))

/-- A well-formed command completes in every state, and an ill-formed one stops with the fault of that name: no command
stops for any other reason (the fault is the model's own, log 4). -/
def Obligations.WellFormedCompletes : Prop :=
  ∀ (c : Instr) (s : State),
    (wellFormed c = true → ∃ e : Dev, Does c s e) ∧ (wellFormed c = false → exec c s = .fault .illFormed)

/-- Every step keeps the canonical form of every memory: DRAM, scratchpads, block buffers, activation buffers,
accumulators. -/
def Obligations.StepKeepsMemoriesCanonical : Prop :=
  ∀ s t : State, Inv s → step s = .next t → Inv t

/-- The memories are canonical at reset. -/
def Obligations.ResetMemoriesCanonical : Prop := Inv State.reset

/-- No step changes the grade of the part, and so none changes which tensor dies, regions, stacks, span ports and
operations it has; the units of each grade (R1, R2): a YK24-B part lacks the two regions of one tensor die and the four
stacks bonded on it, and a stack is present exactly when its region is. -/
def Obligations.StepKeepsGrade : Prop :=
  (∀ s t : State, step s = .next t →
    t.dev.gradeCode = s.dev.gradeCode ∧ t.dev.spanPresent = s.dev.spanPresent ∧ t.dev.bwdPresent = s.dev.bwdPresent ∧
      (∀ n : Nat, t.dev.tdiePresent n = s.dev.tdiePresent n ∧ t.dev.regionPresent n = s.dev.regionPresent n ∧
        t.dev.stackPresent n = s.dev.stackPresent n)) ∧
  (∀ (d : Dev) (n : Nat), d.stackPresent n = d.regionPresent (n / 2)) ∧
  (∀ d : Dev, d.fuses.grade = .a → d.regionsPresent.length = 12 ∧ d.stacksPresent.length = 24 ∧ d.spanPresent = true ∧
    d.bwdPresent = true) ∧
  (∀ d : Dev, d.fuses.grade = .s → d.regionsPresent.length = 12 ∧ d.stacksPresent.length = 24 ∧ d.spanPresent = false ∧
    d.bwdPresent = true) ∧
  (∀ (d : Dev) (f : TDie), d.fuses.grade = .b f → d.regionsPresent.length = 10 ∧ d.stacksPresent.length = 20 ∧
    d.spanPresent = true ∧ d.bwdPresent = false ∧
    (∀ n : Nat, d.regionPresent n = true ↔ n < 12 ∧ n ≠ 2 * f.val ∧ n ≠ 2 * f.val + 1))

/-! ### Power-on, resets, the reference (18_startup_reset, 16_clocks_power) -/

/-- The keep domain and PWRGOOD (R429, R430, R433): OFF becomes KEEP with VDD_KEEP and the reference, and the twin's lands
are read from then on (R287); the straps are latched at PWRGOOD; KEEP becomes BOOT with PWRGOOD high and PERST# deasserted.
-/
def Obligations.PowerUp : Prop :=
  (∀ s : State, s.dev.chip.state = .off → s.dev.pins.refclk = true → s.dev.pins.pwrgood = false →
    Does .vddKeepUp s (moved { s.dev with
      pins.vddKeep := true, twin.present := s.dev.pins.twinPresentIn, twin.hbLevel := s.dev.pins.twinHbIn } .keep)) ∧
  (∀ s : State, s.dev.chip.state = .off → s.dev.pins.refclk = false →
    Does .vddKeepUp s { s.dev with
      pins.vddKeep := true, twin.present := s.dev.pins.twinPresentIn, twin.hbLevel := s.dev.pins.twinHbIn }) ∧
  (∀ (s : State) (lands : Straps), s.dev.pins.vddKeep = true → s.dev.pins.pwrgood = false → s.dev.chip.state = .keep →
    s.dev.pins.perst = true →
    Does (.pwrgoodRise lands) s { s.dev with pins.pwrgood := true, pins.lands := lands, chip.straps := lands }) ∧
  (∀ (s : State) (lands : Straps), s.dev.pins.vddKeep = true → s.dev.pins.pwrgood = false → s.dev.chip.state = .keep →
    s.dev.pins.perst = false → s.dev.pins.refclk = true →
    Does (.pwrgoodRise lands) s (moved { s.dev with
      pins.pwrgood := true, pins.lands := lands, chip.straps := lands, chip.stage := .rom } .boot)) ∧
  (∀ s : State, s.dev.pins.perst = true → s.dev.chip.state = .keep → s.dev.pins.pwrgood = true →
    s.dev.pins.refclk = true →
    Does .perstDeassert s (moved { s.dev with pins.perst := false, chip.stage := .rom } .boot)) ∧
  (∀ s : State, s.dev.pins.perst = true → s.dev.chip.state ≠ .keep →
    Does .perstDeassert s { s.dev with pins.perst := false })

/-- Boot (R433, R434, R436): the ROM reads the flash or waits for a push, and verifies at once one that was given before it
waits (the model's choice, log 122); a flash that does not answer or an image above 8 MiB stops boot with BOOT_MEDIA; a host
link that is down trains first (that it trains when the ROM is ready is the model's choice, log 24), to the width and rate
that it reaches, at most the one that PCIE_MAX_GEN allows (R356, R360); trained links lead to FILL; a link that does not
train, and a fill that does not end, record their code and send the chip to FAULT; a complete fill leaves zeros in memory,
the regions asleep and the stacks in self-refresh, in UNSTRUCTURED. -/
def Obligations.BootSequence : Prop :=
  (∀ (s : State) (f : FlashAnswer) (l : LinkTrained), s.dev.chip.state = .boot → s.dev.chip.stage = .rom →
    s.dev.chip.startErr = 0 → s.dev.clk.coast = false → s.dev.hostBoot = true →
    (s.dev.host.linkUp = true → s.dev.sec.pushGo = false →
      Does (.romReady ⟨f, l⟩) s { s.dev with clk.mgmtReady := true, chip.stage := .waitPush }) ∧
    (s.dev.host.linkUp = true → s.dev.sec.pushGo = true →
      Does (.romReady ⟨f, l⟩) s { s.dev with
        clk.mgmtReady := true, chip.stage := .verify
        sec.stagingLen := if s.dev.sec.pushLen = 0 then 0x800000 else s.dev.sec.pushLen }) ∧
    (s.dev.host.linkUp = false → s.dev.sec.pushGo = false →
      ∃ sp : Nat, sp = min (l.rate.val + 1) (topSpeed s.dev.chip.straps) ∧
        Does (.romReady ⟨f, l⟩) s { s.dev with
          clk.mgmtReady := true, chip.stage := .waitPush
          host := { s.dev.host with linkUp := true, speed := sp, width := laneCount l.width, flit := decide (sp = 6) } })) ∧
  (∀ (s : State) (l : LinkTrained), s.dev.chip.state = .boot → s.dev.chip.stage = .rom → s.dev.chip.startErr = 0 →
    s.dev.clk.coast = false →
    s.dev.host.linkUp = true → s.dev.hostBoot = false →
    Does (.romReady ⟨.noAnswer, l⟩) s { s.dev with clk.mgmtReady := true, chip.startErr := 2 }) ∧
  (∀ (s : State) (bytes : List Byte) (l : LinkTrained), s.dev.chip.state = .boot → s.dev.chip.stage = .rom →
    s.dev.chip.startErr = 0 →
    s.dev.clk.coast = false →
    s.dev.host.linkUp = true → s.dev.hostBoot = false → 0x800000 < bytes.length →
    Does (.romReady ⟨.image bytes, l⟩) s { s.dev with clk.mgmtReady := true, chip.startErr := 2 }) ∧
  (∀ (s : State) (bytes : List Byte) (l : LinkTrained), s.dev.chip.state = .boot → s.dev.chip.stage = .rom →
    s.dev.chip.startErr = 0 →
    s.dev.clk.coast = false →
    s.dev.host.linkUp = true → s.dev.hostBoot = false → s.dev.chip.straps.bootSrc = 0 → bytes.length ≤ 0x800000 →
    Does (.romReady ⟨.image bytes, l⟩) s { s.dev with
      clk.mgmtReady := true, chip.stage := .verify, sec.staging := Tab.writeN zeroByte [] 0 bytes,
      sec.stagingLen := bytes.length }) ∧
  (∀ s : State, s.dev.chip.state = .boot → s.dev.chip.stage = .train → s.dev.clk.coast = false →
    Does .bootLinksTrained s (moved { s.dev with clk.fabricReady := true } .fill)) ∧
  (∀ s : State, s.dev.chip.state = .boot → s.dev.chip.stage = .train → s.dev.clk.coast = false →
    Does .linkTrainTimeout s (moved { s.dev with chip.startErr := 3 } .fault)) ∧
  (∀ s : State, s.dev.chip.state = .fill → s.dev.clk.coast = false →
    Does .fillTimeout s (moved { s.dev with chip.startErr := 4 } .fault)) ∧
  (∀ s : State, s.dev.chip.state = .fill → s.dev.clk.coast = false →
    Does .fillComplete s (moved { s.dev with
      dram := [], parity := [], clk.regionAwake := 0, clk.stackAwake := 0 } .unstructured))

/-- What a full reset leaves (R439, R440 Table 4): every unit at its reset value; the fuses, the lands, the straps as
latched and the test port as they were; the four records kept; every other counter zero; the cause in LAST_RESET. (What
survives, and the value of a unit for which the spec gives none, are the model's readings, logs 1, 6, 41, 81.) -/
def Obligations.FullResetLeaves : Prop :=
  ∀ (d : Dev) (cause : Nat),
    let e := d.fullReset cause
    e = { Dev.reset with
      free := d.free, now := d.now, out := d.out, fuses := d.fuses, pins := d.pins, tap := d.tap
      chip := { Dev.reset.chip with state := d.chip.state, straps := d.chip.straps, lastReset := cause }
      twin := { Dev.reset.twin with present := d.pins.twinPresentIn, hbLevel := d.pins.twinHbIn }
      therm := { Dev.reset.therm with tripValid := d.therm.tripValid, tripSensor := d.therm.tripSensor }
      clk := { Dev.reset.clk with coastSeen := d.clk.coastSeen }
      counters := e.counters } ∧
    (∀ off : Nat, e.ctr off =
      if off = 0x201018 ∨ off = 0x200028 then d.ctr off else Dev.reset.ctr off)

/-- The causes of a full reset (R361, R439, R440, R442), and the loss of the supplies (R429, R433): PERST#, a hot reset from
UNSTRUCTURED, READY, FAULT or a stopped boot, and the key in `DEVICE_RESET`, which keeps the host link; a hot reset in BOOT
or FILL resets the link alone, and the key there, or another value in `DEVICE_RESET`, does nothing. PERST# acts while the
reference is lost too, and the reference stays lost (the model's choice, log 120). PWRGOOD falling loses memory and
everything outside the keep domain and leads to KEEP; VDD_KEEP falling leads to OFF and loses the test port's state too.
(What a unit that is reset holds where the spec gives no value is the model's choice, log 1.) -/
def Obligations.ResetsAndPowerLoss : Prop :=
  (∀ s : State, s.dev.pins.perst = false → s.dev.chip.state ≠ .off →
    s.dev.chip.state ≠ .thermalOff → s.dev.chip.state ≠ .keep →
    Does .perstAssert s (moved { Dev.fullReset { s.dev with pins.perst := true } 2 with
      clk.coast := s.dev.clk.coast } .keep)) ∧
  (∀ (s : State) (why : LinkReset), s.dev.clk.coast = false → s.dev.regsLive = true → s.dev.pins.pwrgood = true →
    s.dev.pins.perst = false → s.dev.pins.refclk = true →
    Does (.hotReset why) s
      (moved { moved (s.dev.fullReset 3) .keep with chip.stage := .rom } .boot)) ∧
  (∀ (s : State) (why : LinkReset), s.dev.clk.coast = false → s.dev.chip.state = .boot → s.dev.chip.startErr ≠ 0 →
    s.dev.pins.pwrgood = true → s.dev.pins.perst = false → s.dev.pins.refclk = true →
    Does (.hotReset why) s
      (moved { moved (s.dev.fullReset 3) .keep with chip.stage := .rom } .boot)) ∧
  (∀ (s : State) (why : LinkReset), s.dev.clk.coast = false →
    (s.dev.chip.state = .fill ∨ (s.dev.chip.state = .boot ∧ s.dev.chip.startErr = 0)) →
    Does (.hotReset why) s { s.dev with host := { s.dev.host with
      busMaster := false, msixEnable := false, functionMask := false, d3hot := false, msix := [], pba := [], held := []
      bars := [], maxPayload := 128, maxRead := 512 } }) ∧
  (∀ s : State, s.dev.host.held = [] → s.dev.hostReach = true → s.dev.regsLive = true →
    Does (.deviceReset 0xD1CE) s (moved { (s.dev.fullReset 4).keepLink s.dev with chip.stage := .rom } .boot)) ∧
  (∀ s : State, s.dev.host.held = [] → s.dev.hostReach = true → s.dev.chip.state = .boot → s.dev.chip.startErr ≠ 0 →
    Does (.deviceReset 0xD1CE) s { (s.dev.fullReset 4).keepLink s.dev with chip.stage := .rom }) ∧
  (∀ s : State, s.dev.host.held = [] →
    (s.dev.chip.state = .fill ∨ (s.dev.chip.state = .boot ∧ s.dev.chip.startErr = 0)) →
    Does (.deviceReset 0xD1CE) s s.dev) ∧
  (∀ (s : State) (v : Word), s.dev.host.held = [] → v ≠ 0xD1CE → Does (.deviceReset v) s s.dev) ∧
  (∀ s : State, s.dev.pins.vddKeep = true →
    Does .vddKeepLoss s { Dev.blank { s.dev with pins.vddKeep := false } with
      chip.state := .off, tap := ⟨1, []⟩ }) ∧
  (∀ s : State, s.dev.pins.pwrgood = true → s.dev.chip.state ≠ .off → s.dev.chip.state ≠ .thermalOff →
    s.dev.chip.state ≠ .keep →
    Does .pwrgoodFall s (moved
      (Dev.setCtr { Dev.blank { s.dev with pins.pwrgood := false } with
        therm.tripValid := s.dev.therm.tripValid, therm.tripSensor := s.dev.therm.tripSensor }
        0x201018 (s.dev.ctr 0x201018)) .keep)) ∧
  (∀ s : State, s.dev.pins.pwrgood = true → s.dev.chip.state = .thermalOff →
    Does .pwrgoodFall s { s.dev with pins.pwrgood := false }) ∧
  (∀ d : Dev, d.blank.dram = [] ∧ d.blank.counters = [] ∧ d.blank.img = Dev.reset.img ∧ d.blank.pins = d.pins)

/-- The reference (R412, R413, R414): its loss takes the host link down, puts every stack in self-refresh, detaches the twin
with code LINK and is told to the management block; the privileged units and memory keep what they hold, and the other units
stop (that the model holds them at their reset values is its own choice, log 82); its return is a full reset that keeps the
firmware, the readings of the thermal controller and the twin's heartbeat, and boot goes on at the training of the links
where the firmware runs: the host link trains again (at what rate and width is open, log 24), and on every present die whose
PLL A is selected it starts. The thermal shutdown (R424, R425): a trip loses memory, the image and the serving engine and
records the sensor; a restart, with PWRGOOD high and every present sensor at its restart level or below, samples the straps
and starts as from power-on. (What the sensors read between samples is the model's: the last readings, and a tripped one at
its threshold, log 45.) -/
def Obligations.ReferenceAndThermalLoss : Prop :=
  (∀ s : State, s.dev.pins.refclk = true → s.dev.chip.state = .ready →
    ∃ e : Dev, Does .referenceLoss s e ∧ e.pins = { s.dev.pins with refclk := false } ∧ e.clk.coast = true ∧
      e.clk.coastSeen = true ∧ e.clk.stackAwake = 0 ∧ e.host.linkUp = false ∧
      e.out = s.dev.out ++ [.mgmtIrq] ∧ e.twin.st = 0 ∧ (s.dev.twin.st = 2 → e.twin.code = 3) ∧
      e.twin.hbOut = s.dev.twin.hbOut ∧ e.fuses = s.dev.fuses ∧ e.chip = s.dev.chip ∧ e.counters = s.dev.counters ∧
      e.therm = s.dev.therm ∧ e.sec = s.dev.sec ∧ e.dram = s.dev.dram ∧ e.parity = s.dev.parity ∧ e.blocks = [] ∧
      e.doms = [] ∧ e.stks = []) ∧
  (∀ s : State, s.dev.pins.refclk = false → s.dev.clk.coast = true → s.dev.chip.state = .ready →
    s.dev.pins.perst = false → s.dev.pins.pwrgood = true → s.dev.sec.fwValid = true →
    ∃ e : Dev, Does .referenceReturn s e ∧ e.chip.state = .boot ∧ e.chip.stage = .train ∧ e.chip.lastReset = 5 ∧
      e.clk.coast = false ∧ e.host.linkUp = true ∧
      e.sec.fwValid = true ∧ e.sec.fwDigest = s.dev.sec.fwDigest ∧ e.therm.sensors = s.dev.therm.sensors ∧
      e.twin.hbOut = s.dev.twin.hbOut ∧ e.twin.everAttached = s.dev.twin.everAttached ∧ e.dram = [] ∧
      e.img = Dev.reset.img ∧ e.pins = { s.dev.pins with refclk := true } ∧
      (∀ t : Nat, s.dev.tdiePresent t = true → (e.tdie t).sel = 0 ∧ (e.tdie t).aSt = .locking)) ∧
  (∀ s : State, s.dev.pins.refclk = false → s.dev.clk.coast = false → s.dev.chip.state = .unstructured →
    Does .referenceReturn s { s.dev with pins.refclk := true }) ∧
  (∀ (s : State) (n : Fin 196), s.dev.sensorPresent n.val = true → s.dev.chip.state = .ready →
    ∃ e : Dev, Does (.thermalTrip n) s e ∧ e.chip.state = .thermalOff ∧ e.therm.tripValid = true ∧
      e.therm.tripSensor = n.val ∧ e.dram = [] ∧ e.img = Dev.reset.img ∧ e.serve = Dev.reset.serve ∧
      e.pins = { s.dev.pins with temps := e.pins.temps } ∧ e.chip.straps = s.dev.chip.straps ∧
      e.clk.coastSeen = s.dev.clk.coastSeen ∧ e.coolEnough = false) ∧
  (∀ (s : State) (n : Fin 196), s.dev.chip.state = .thermalOff → s.dev.sensorPresent n.val = true →
    ∃ e : Dev, Does (.thermalTrip n) s e ∧ e = { s.dev with pins.temps := e.pins.temps } ∧ e.coolEnough = false ∧
      ∀ k : Nat, k ≠ n.val → e.temp k = s.dev.temp k) ∧
  (∀ d : Dev, d.coolEnough = true ↔ ∀ n : Nat, n < 196 → d.sensorPresent n = true →
    (d.temp n).toInt ≤ 16 * (if 96 ≤ n ∧ n < 192 then 85 else 95)) ∧
  (∀ s : State, s.dev.chip.state = .thermalOff → s.dev.coolEnough = false → Does .thermalRestart s s.dev) ∧
  (∀ s : State, s.dev.chip.state = .thermalOff → s.dev.coolEnough = true → s.dev.pins.pwrgood = true →
    s.dev.pins.perst = true →
    Does .thermalRestart s (moved { s.dev.fullReset 1 with
      chip := { (s.dev.fullReset 1).chip with straps := s.dev.pins.lands } } .keep)) ∧
  (∀ s : State, s.dev.chip.state = .thermalOff → s.dev.pins.pwrgood = false → Does .thermalRestart s s.dev)

/-- Configuration requests (R356, R435): with the link down nothing answers; before the function answers, it is Request
Retry Status; then a read completes with what the item holds (Device ID 0x0C24, class code 0x120000, one function, three
64-bit BARs of which BAR 2 alone is prefetchable, the capabilities of Table 1, R363), a write sets the command, MSI-X and
power fields, a BAR, or the payload and read request sizes to supported values (the items and the masking are the model's,
log 104). An I/O die lost while the chip runs is a chip fault (R438, R445): code 0x81, state FAULT. The test port (R490),
powered from VDD_KEEP: each instruction is loaded, IDCODE shifts its word out bit 0 first, and SAMPLE/PRELOAD shifts the
levels of the 42 lands out while the chain is loaded; EXTEST, CLAMP and HIGHZ act as BYPASS unless PERST# is asserted. The
transmitters (R487): high-impedance while the chip is off, in KEEP or in THERMAL_OFF, those of the host link under PERST#
too; a host link that is up drives in FAULT; on YK24-S the span ports never drive. (The codes 0 to 5, the chain's order and
the idle state of a host link that has not trained are the model's, log 25.) -/
def Obligations.ConfigurationAndTestPort : Prop :=
  (∀ (s : State) (q : ConfigReq), s.dev.host.linkUp = false → Does (.configRequest q) s s.dev) ∧
  (∀ (s : State) (q : ConfigReq), s.dev.host.linkUp = true → s.dev.configOk = false →
    Does (.configRequest q) s { s.dev with out := s.dev.out ++ [.configRetry] }) ∧
  (∀ s : State, s.dev.host.linkUp = true → s.dev.configOk = true →
    ∀ item : ConfigItem,
      Does (.configRequest (.read item)) s { s.dev with out := s.dev.out ++ [.configData item (s.dev.configValue item)] }) ∧
  (∀ d : Dev, d.configValue .deviceId = .num 0x0C24 ∧ d.configValue .classCode = .num 0x120000 ∧
    d.configValue .functions = .num 1 ∧ d.configValue .maxPayload = .num d.host.maxPayload ∧
    d.configValue .maxReadRequest = .num d.host.maxRead ∧ d.configValue .linkSpeed = .num d.host.speed ∧
    d.configValue .linkWidth = .num d.host.width ∧ d.configValue .capabilities = .capabilities capabilities ∧
    capabilities.length = 10 ∧
    (∀ b : Bar, d.configValue (.bar b) =
      .bar (Tab.read (fun _ => 0) d.host.bars (barNumber b)) true (decide (b = .bar2)) (d.barSize b)) ∧
    d.barSize .bar0 = 0x4000000 ∧ d.barSize .bar4 = 0x1000000 ∧ d.barSize .bar2 = d.windowPages * 0x200000) ∧
  (∀ (s : State) (b : Bar) (a : BitVec 64), s.dev.host.linkUp = true → s.dev.configOk = true →
    Does (.configRequest (.writeBar b a)) s { s.dev with
      out := s.dev.out ++ [.configDone]
      host.bars := Tab.write (fun _ => 0) s.dev.host.bars (barNumber b) (s.dev.barAddr b a) }) ∧
  (∀ (s : State) (p r : Nat), s.dev.host.linkUp = true → s.dev.configOk = true →
    (p ∈ [128, 256, 512] → r ∈ [128, 256, 512, 1024, 2048, 4096] →
      Does (.configRequest (.writeSizes p r)) s { s.dev with
        out := s.dev.out ++ [.configDone], host.maxPayload := p, host.maxRead := r }) ∧
    (p ∉ [128, 256, 512] → r ∉ [128, 256, 512, 1024, 2048, 4096] →
      Does (.configRequest (.writeSizes p r)) s { s.dev with out := s.dev.out ++ [.configDone] })) ∧
  (∀ (s : State) (bm me fm d3 : Bool), s.dev.host.linkUp = true → s.dev.configOk = true → s.dev.host.pba = [] →
    Does (.configRequest (.write bm me fm d3)) s { s.dev with
      out := s.dev.out ++ [.configDone]
      host := { s.dev.host with busMaster := bm, msixEnable := me, functionMask := fm, d3hot := d3 } }) ∧
  (∀ (s : State) (io : Fin 2), s.dev.chip.state = .ready →
    Does (.iodieLost io) s (moved { s.dev with
      chip.ioLost := s.dev.chip.ioLost ||| BitVec.ofNat 2 (2 ^ io.val), chip.faultCode := 0x81 } .fault)) ∧
  (∀ s : State, s.dev.pins.vddKeep = true →
    Does .bypass s { s.dev with tap.ir := 0 } ∧ Does .extest s { s.dev with tap.ir := 3 } ∧
    Does .clamp s { s.dev with tap.ir := 4 } ∧ Does .highz s { s.dev with tap.ir := 5 } ∧
    Does .idcode s { s.dev with
      tap.ir := 1, out := s.dev.out ++ [.tdo ((List.range 32).map idcodeWord.getLsbD)] }) ∧
  (∀ (s : State) (shift : List Bool), s.dev.pins.vddKeep = true → wellFormed (.samplePreload shift) = true →
    Does (.samplePreload shift) s { s.dev with
      tap.ir := 2, tap.bsr := shift, free := s.dev.free + 1
      out := s.dev.out ++ [.tdo (Dev.landOutputs { s.dev with tap.ir := 2 } ++ s.dev.inLevels)] }) ∧
  (∀ d : Dev, (d.landOutputs ++ d.inLevels).length = 42 ∧ chainLength = 42) ∧
  (∀ (d : Dev) (p : Nat), d.chip.state = .off ∨ d.chip.state = .keep ∨ d.chip.state = .thermalOff →
    d.hostTx = .highZ ∧ d.spanTx p = .highZ ∧ d.twinTx = .highZ) ∧
  (∀ d : Dev, d.pins.perst = true → d.hostTx = .highZ) ∧
  (∀ (d : Dev) (p : Nat), d.chip.state = .fault → d.spanTx p = .highZ ∧ d.twinTx = .highZ ∧
    (d.pins.vddKeep = true → d.pins.pwrgood = true → d.pins.perst = false → d.clk.coast = false → d.host.linkUp = true →
      d.hostTx = .drives)) ∧
  (∀ (d : Dev) (p : Nat), d.spanPresent = false → d.spanTx p = .highZ) ∧
  (∀ s : State, s.dev.pins.vddKeep = false →
    Does .bypass s s.dev ∧ Does .idcode s s.dev ∧ Does .extest s s.dev ∧ Does .clamp s s.dev ∧ Does .highz s s.dev) ∧
  (∀ d : Dev, d.pins.perst = false → 3 ≤ d.tap.ir → d.tapActs = 0) ∧
  (∀ d : Dev, d.pins.perst = true → d.tapActs = d.tap.ir) ∧
  (idcodeWord.toNat / 2 ^ 28 = 1 ∧ idcodeWord.toNat / 2 ^ 12 % 2 ^ 16 = 0xC240 ∧ idcodeWord.toNat % 2 = 1)
/-! ### Events (15_interrupts) -/

/-- Which sources a raise reaches (R383): those of the source table, and of these not the ones of a fused region, stack or
span port; number 0x7FF names no source. The delivery of a unit's message (R383, R384, R394): the oldest message of the
source leaves; a raise sets the pending bit and a withdrawal clears it where the word is not held, else it is queued; a
raise that is ignored sets nothing; where the source's configuration word cannot be read the bit still changes, and the chip
faults with CHIP_PARITY (R445; log 47). The source doorbell sends such a message. -/
def Obligations.EventDelivery : Prop :=
  (∀ (d : Dev) (n : Nat), listedSource n = false → d.raisable n = false) ∧ listedSource 0x7FF = false ∧
  (∀ (d : Dev) (r : Nat), r < 12 → (d.raisable (16 + r) = true ↔ d.regionPresent r = true) ∧
    (d.raisable (28 + r) = true ↔ d.regionPresent r = true)) ∧
  (∀ (d : Dev) (st : Nat), st < 24 → (d.raisable (40 + st) = true ↔ d.stackPresent st = true)) ∧
  (∀ (d : Dev) (p : Nat), p < 12 → (d.raisable (76 + p) = true ↔ d.spanPresent = true)) ∧
  (∀ d : Dev, d.raisable 0 = true ∧ d.raisable 10 = true ∧ d.raisable 128 = true ∧ d.raisable 1024 = true) ∧
  (∀ (s : State) (src : BitVec 11), s.dev.ec.arrives src.toNat true = true → s.dev.clk.coast = false →
    s.dev.raisable src.toNat = true → s.dev.cfgBad src.toNat = false → s.dev.ec.hold = none →
    Does (.eventRaise src) s (s.dev.ecUpdate { s.dev.ec with
      inbox := dropFirst s.dev.ec.inbox src.toNat
      pending := Tab.write (fun _ => false) s.dev.ec.pending src.toNat true } [])) ∧
  (∀ (s : State) (src : BitVec 11), s.dev.ec.arrives src.toNat false = true → s.dev.clk.coast = false →
    s.dev.raisable src.toNat = true → s.dev.cfgBad src.toNat = false → s.dev.ec.hold = none →
    Does (.eventWithdraw src) s (s.dev.ecUpdate { s.dev.ec with
      inbox := dropFirst s.dev.ec.inbox src.toNat
      pending := Tab.write (fun _ => false) s.dev.ec.pending src.toNat false } [])) ∧
  (∀ (s : State) (src : BitVec 11), s.dev.ec.arrives src.toNat true = true → s.dev.clk.coast = false →
    s.dev.raisable src.toNat = true → s.dev.cfgBad src.toNat = true → s.dev.ec.hold = none → s.dev.chip.state = .ready →
    Does (.eventRaise src) s (moved { s.dev with
      ec := { s.dev.ec with
        inbox := dropFirst s.dev.ec.inbox src.toNat
        pending := Tab.write (fun _ => false) s.dev.ec.pending src.toNat true }
      chip.faultCode := 0x82 } .fault)) ∧
  (∀ (s : State) (src : BitVec 11), s.dev.ec.arrives src.toNat true = true → s.dev.clk.coast = false →
    s.dev.raisable src.toNat = false →
    Does (.eventRaise src) s { s.dev with ec.inbox := dropFirst s.dev.ec.inbox src.toNat }) ∧
  (∀ (s : State) (src : BitVec 11), s.dev.ec.arrives src.toNat true = true → s.dev.clk.coast = false →
    s.dev.raisable src.toNat = true → s.dev.cfgBad src.toNat = false → s.dev.ec.heldSource src.toNat = true →
    (s.dev.ec.heldQ.any (fun m => decide (m.src = src.toNat))) = false →
    Does (.eventRaise src) s (s.dev.ecUpdate { s.dev.ec with
      inbox := dropFirst s.dev.ec.inbox src.toNat, heldQ := s.dev.ec.heldQ ++ [⟨src.toNat, true⟩] } [])) ∧
  (∀ (s : State) (v : Word), s.dev.host.held = [] → s.dev.reaches .host = true →
    s.dev.raisable (fieldAt v.toNat 0 11) = true →
    Does (.sourceDoorbell v) s { s.dev with ec.inbox := s.dev.ec.inbox ++ [⟨fieldAt v.toNat 0 11, true⟩] }) ∧
  (∀ (s : State) (v : Word), s.dev.host.held = [] → s.dev.raisable (fieldAt v.toNat 0 11) = false →
    Does (.sourceDoorbell v) s s.dev)

/-- What a change of the concentrator does beyond itself (R388): messages, and pending bits of the vectors that cannot send
now; nothing else of the device changes. CLAIM (R389, R395): with a source selected it clears its pending bit, pushes its
priority and returns both; with none it counts in `EC_SPURIOUS` and returns 0x7FF; a host read of target 256 and a read in
compatibility mode return 0x7FF and do nothing. Where the configuration word of a pending source cannot be read, CLAIM is a
chip fault with CHIP_PARITY, and what it returns is open (R445; log 47). -/
def Obligations.ClaimsAndMessages : Prop :=
  (∀ (d : Dev) (c : Conc) (also : List Nat),
    let e := d.ecUpdate c also
    e = { d with ec := c, out := e.out, host := { d.host with pba := e.host.pba } }) ∧
  (∀ (d : Dev) (c : Conc) (also : List Nat), (∀ t : Nat, c.line t = false) → d.ecUpdate c also = { d with ec := c }) ∧
  (∀ (d : Dev) (t : Nat), t ≠ 256 → d.vectorOpen t = true →
    d.message t = { d with out := d.out ++ [.msix t (d.msixEntry t).addr (d.msixEntry t).data] }) ∧
  (∀ (d : Dev) (t : Nat), t ≠ 256 → d.vectorOpen t = false →
    d.message t = { d with host.pba := Tab.write (fun _ => false) d.host.pba t true }) ∧
  (∀ d : Dev, d.message 256 = { d with out := d.out ++ [.mgmtIrq] }) ∧
  (∀ (s : State) (who : Agent) (t : TargetNo) (n : Nat), InTurn who s.dev → s.dev.reaches who = true →
    s.dev.ec.parjo = false →
    s.dev.pendingBad = false → ¬(who = .host ∧ t.val = 256) → s.dev.ec.pick t.val = some n →
    Does (.ecClaim who t) s (Dev.answer (s.dev.ecUpdate { s.dev.ec with
        pending := Tab.write (fun _ => false) s.dev.ec.pending n false
        running := Tab.write (fun _ => []) s.dev.ec.running t.val ((s.dev.ec.cfgOf n).prio :: s.dev.ec.stackOf t.val) } [t.val])
      who (0x104000 + 0x10 * t.val) (BitVec.ofNat 32 ((s.dev.ec.cfgOf n).prio * 2 ^ 16 + n)))) ∧
  (∀ (s : State) (who : Agent) (t : TargetNo), InTurn who s.dev → s.dev.reaches who = true → s.dev.ec.parjo = false →
    s.dev.pendingBad = false → ¬(who = .host ∧ t.val = 256) → s.dev.ec.pick t.val = none →
    Does (.ecClaim who t) s ((s.dev.bump 0x100008).answer who (0x104000 + 0x10 * t.val) 0x7FF)) ∧
  (∀ (s : State) (who : Agent) (t : TargetNo), InTurn who s.dev → s.dev.reaches who = true → s.dev.ec.parjo = false →
    s.dev.pendingBad = true → ¬(who = .host ∧ t.val = 256) → s.dev.chip.state = .ready →
    ∃ w : Word, Does (.ecClaim who t) s ((moved { s.dev with free := s.dev.free + 1, chip.faultCode := 0x82 } .fault).answer who
      (0x104000 + 0x10 * t.val) w)) ∧
  (∀ s : State, s.dev.host.held = [] → s.dev.reaches .host = true →
    Does (.ecClaim .host 256) s (s.dev.answer .host 0x105000 0x7FF)) ∧
  (∀ (s : State) (who : Agent) (t : TargetNo), InTurn who s.dev → s.dev.reaches who = true → s.dev.ec.parjo = true →
    Does (.ecClaim who t) s (s.dev.answer who (0x104000 + 0x10 * t.val) 0x7FF))

/-- CLAIM selects the eligible source with the highest priority, and among equal priorities the lowest number (R389). -/
def Obligations.ClaimPicksHighest : Prop :=
  ∀ (c : Conc) (t n : Nat), c.pick t = some n →
    c.eligible t n = true ∧
      ∀ m : Nat, c.eligible t m = true →
        (c.cfgOf m).prio < (c.cfgOf n).prio ∨ ((c.cfgOf m).prio = (c.cfgOf n).prio ∧ n ≤ m)

/-- EOI (R390, R391, R395): it pops the target's stack, an EOI to an empty stack sets EOI_EMPTY, 0x7FF is ignored, and a
level source whose condition holds pends again; the popped entry is not compared with the number written. In compatibility
mode, and from the host for target 256, an EOI does nothing. -/
def Obligations.EoiPops : Prop :=
  (∀ (s : State) (who : Agent) (t : TargetNo) (v : Word) (p : Nat) (rest : List Nat), InTurn who s.dev →
    s.dev.reaches who = true →
    s.dev.ec.parjo = false → ¬(who = .host ∧ t.val = 256) → fieldAt v.toNat 0 11 ≠ 0x7FF →
    (levelSource (fieldAt v.toNat 0 11) = false ∨ s.dev.raisable (fieldAt v.toNat 0 11) = false ∨
      s.dev.levelCond (fieldAt v.toNat 0 11) = false) → s.dev.ec.stackOf t.val = p :: rest →
    Does (.ecEoi who t v) s (s.dev.ecUpdate { s.dev.ec with
      running := Tab.write (fun _ => []) s.dev.ec.running t.val rest } [t.val])) ∧
  (∀ (s : State) (who : Agent) (t : TargetNo) (v : Word) (p : Nat) (rest : List Nat), InTurn who s.dev →
    s.dev.reaches who = true →
    s.dev.ec.parjo = false → ¬(who = .host ∧ t.val = 256) → levelSource (fieldAt v.toNat 0 11) = true →
    s.dev.raisable (fieldAt v.toNat 0 11) = true → s.dev.levelCond (fieldAt v.toNat 0 11) = true →
    s.dev.ec.heldSource (fieldAt v.toNat 0 11) = false → s.dev.ec.stackOf t.val = p :: rest →
    Does (.ecEoi who t v) s (s.dev.ecUpdate { s.dev.ec with
      pending := Tab.write (fun _ => false) s.dev.ec.pending (fieldAt v.toNat 0 11) true
      running := Tab.write (fun _ => []) s.dev.ec.running t.val rest } [t.val])) ∧
  (∀ (s : State) (who : Agent) (t : TargetNo) (v : Word) (p : Nat) (rest : List Nat), InTurn who s.dev →
    s.dev.reaches who = true →
    s.dev.ec.parjo = false → ¬(who = .host ∧ t.val = 256) → levelSource (fieldAt v.toNat 0 11) = true →
    s.dev.raisable (fieldAt v.toNat 0 11) = true → s.dev.levelCond (fieldAt v.toNat 0 11) = true →
    s.dev.ec.heldSource (fieldAt v.toNat 0 11) = true →
    s.dev.ec.heldQ.any (fun m => decide (m.src = fieldAt v.toNat 0 11)) = false → s.dev.ec.stackOf t.val = p :: rest →
    Does (.ecEoi who t v) s (s.dev.ecUpdate { s.dev.ec with
      heldQ := s.dev.ec.heldQ ++ [⟨fieldAt v.toNat 0 11, true⟩]
      running := Tab.write (fun _ => []) s.dev.ec.running t.val rest } [t.val])) ∧
  (∀ (s : State) (who : Agent) (t : TargetNo) (v : Word) (p : Nat) (rest : List Nat), InTurn who s.dev →
    s.dev.reaches who = true →
    s.dev.ec.parjo = false → ¬(who = .host ∧ t.val = 256) → levelSource (fieldAt v.toNat 0 11) = true →
    s.dev.raisable (fieldAt v.toNat 0 11) = true → s.dev.levelCond (fieldAt v.toNat 0 11) = true →
    s.dev.ec.heldSource (fieldAt v.toNat 0 11) = true →
    s.dev.ec.heldQ.any (fun m => decide (m.src = fieldAt v.toNat 0 11)) = true → s.dev.ec.stackOf t.val = p :: rest →
    Does (.ecEoi who t v) s (s.dev.ecUpdate { s.dev.ec with
      heldQ := s.dev.ec.heldQ.map (fun m =>
        if m.src = fieldAt v.toNat 0 11 then ⟨fieldAt v.toNat 0 11, true⟩ else m)
      running := Tab.write (fun _ => []) s.dev.ec.running t.val rest } [t.val])) ∧
  (∀ (s : State) (who : Agent) (t : TargetNo) (v : Word), InTurn who s.dev → s.dev.reaches who = true →
    s.dev.ec.parjo = false →
    ¬(who = .host ∧ t.val = 256) → fieldAt v.toNat 0 11 ≠ 0x7FF → s.dev.ec.stackOf t.val = [] →
    Does (.ecEoi who t v) s { s.dev with ec.eoiEmpty := Tab.write (fun _ => false) s.dev.ec.eoiEmpty t.val true }) ∧
  (∀ (s : State) (who : Agent) (t : TargetNo), InTurn who s.dev → Does (.ecEoi who t 0x7FF) s s.dev) ∧
  (∀ (s : State) (who : Agent) (t : TargetNo) (v : Word), InTurn who s.dev → s.dev.ec.parjo = true →
    Does (.ecEoi who t v) s s.dev) ∧
  (∀ (s : State) (v : Word), s.dev.host.held = [] → Does (.ecEoi .host 256 v) s s.dev)

/-- Pending words, the hold and the mode (R386, R393, R394, R395): in compatibility mode ones clear their bits, but for a
level source whose condition holds. Mask and configuration words (R385, R393): the bits and fields of unlisted sources and a
TARGET above 256 are ignored. Unmasking a vector (R388): its message that waits in the pending bit array is sent, the others
stay. -/
def Obligations.PendingHoldModeMask : Prop :=
  (∀ (s : State) (who : Agent) (w : Fin 64) (v : Word), InTurn who s.dev → s.dev.reaches who = true → s.dev.ec.parjo = false →
    s.dev.ec.blockedFor who w.val = false →
    ∃ c : Conc, Does (.ecPendingWrite who w v) s (s.dev.ecUpdate c []) ∧
      c = { s.dev.ec with pending := c.pending } ∧
      (∀ n : Nat, c.isPending n =
        if n / 32 = w.val then (v.getLsbD (n % 32) && (s.dev.raisable n || s.dev.ec.isPending n))
        else s.dev.ec.isPending n)) ∧
  (∀ (s : State) (who : Agent) (w : Fin 64) (v : Word), InTurn who s.dev → s.dev.reaches who = true →
    s.dev.ec.blockedFor who w.val = true → Does (.ecPendingWrite who w v) s s.dev) ∧
  (∀ (s : State) (who : Agent) (v : Word), InTurn who s.dev → s.dev.reaches who = true → v.getLsbD 8 = true →
    v.getLsbD 29 = false →
    s.dev.ec.hold = none →
    Does (.ecHoldTake who v) s (s.dev.ecUpdate { s.dev.ec with
      word := fieldAt v.toNat 0 6, hold := some who } [])) ∧
  (∀ (s : State) (who : Agent) (v : Word) (o : Agent), InTurn who s.dev → s.dev.reaches who = true → v.getLsbD 8 = true →
    v.getLsbD 9 = false → v.getLsbD 29 = false → s.dev.ec.hold = some o → Does (.ecHoldTake who v) s s.dev) ∧
  (∀ (s : State) (who : Agent) (v : Word), InTurn who s.dev → s.dev.reaches who = true → v.getLsbD 9 = true →
    v.getLsbD 29 = false →
    s.dev.ec.hold = some who → Does (.ecHoldRelease who v) s (s.dev.ecUpdate s.dev.ec.unhold [])) ∧
  (∀ s : State, s.dev.clk.coast = false → s.dev.ec.hold.isSome = true →
    Does .ecHoldExpire s (s.dev.ecUpdate { s.dev.ec.unhold with expired := true } [])) ∧
  (∀ c : Conc, c.heldQ = [] → c.unhold = { c with hold := none, heldQ := [] }) ∧
  (∀ (s : State) (v : Word), s.dev.host.held = [] → s.dev.reaches .host = true → s.dev.ec.parjo ≠ v.getLsbD 0 →
    ∃ c : Conc, c = { s.dev.ec with parjo := v.getLsbD 0, running := [] } ∧
      Does (.ecModeWrite v) s (s.dev.ecUpdate c c.targets)) ∧
  (∀ (s : State) (v : Word), s.dev.host.held = [] → s.dev.ec.parjo = v.getLsbD 0 → Does (.ecModeWrite v) s s.dev) ∧
  (∀ (s : State) (n : Fin 256), s.dev.host.held = [] → s.dev.reaches .host = true → s.dev.host.pba = [] →
    Does (.msixUnmask n) s (s.dev.modMsixEntry n.val (fun e => { e with mask := false }))) ∧
  (∀ (s : State) (n : Fin 256), s.dev.host.held = [] → s.dev.reaches .host = true →
    Tab.wf (fun _ => false) s.dev.host.pba = true → n.val ∈ s.dev.host.pba.map (·.1) →
    (∀ v ∈ s.dev.host.pba.map (·.1), v ≠ n.val → (s.dev.msixEntry v).mask = true) →
    Dev.vectorOpen (s.dev.modMsixEntry n.val (fun e => { e with mask := false })) n.val = true →
    ∃ x : Dev, x = s.dev.modMsixEntry n.val (fun e => { e with mask := false }) ∧
      Does (.msixUnmask n) s { x with
        host.pba := s.dev.host.pba.filter (fun e => decide (e.1 ≠ n.val))
        out := s.dev.out ++ [.msix n.val (x.msixEntry n.val).addr (x.msixEntry n.val).data] }) ∧
  (∀ (s : State) (who : Agent) (w : Fin 64) (v : Word), InTurn who s.dev → s.dev.reaches who = true → s.dev.ec.parjo = true →
    s.dev.ec.blockedFor who w.val = false → s.dev.ec.hold = none →
    ∃ c : Conc, Does (.ecPendingWrite who w v) s (s.dev.ecUpdate c c.targets) ∧
      c = { s.dev.ec with pending := c.pending } ∧
      (∀ n : Nat, c.isPending n =
        if n / 32 = w.val ∧ v.getLsbD (n % 32) = true then levelSource n && s.dev.raisable n && s.dev.levelCond n
        else s.dev.ec.isPending n)) ∧
  (∀ (d : Dev) (who : Agent) (w : Nat) (v : Word), d.ec.blockedFor who w = false →
    ∃ c : Conc, d.maskWrite who w v = d.ecUpdate c [] ∧ c = { d.ec with mask := c.mask } ∧
      (∀ n : Nat, c.masked n =
        if n / 32 = w ∧ listedSource n = true then v.getLsbD (n % 32) else d.ec.masked n)) ∧
  (∀ (d : Dev) (who : Agent) (w : Nat) (v : Word), d.ec.blockedFor who w = true → d.maskWrite who w v = d) ∧
  (∀ (d : Dev) (n : Nat) (v : Word), listedSource n = true →
    ∃ c : Conc, d.cfgWrite n v = d.ecUpdate c [] ∧ c = { d.ec with cfg := c.cfg } ∧
      (∀ m : Nat, m ≠ n → c.cfgOf m = d.ec.cfgOf m) ∧ (c.cfgOf n).prio = fieldAt v.toNat 0 4 ∧
      (c.cfgOf n).target = if fieldAt v.toNat 8 9 ≤ 256 then fieldAt v.toNat 8 9 else (d.ec.cfgOf n).target) ∧
  (∀ (d : Dev) (n : Nat) (v : Word), listedSource n = false → d.cfgWrite n v = d)
/-! ### Clocks, power, wake admission (16_clocks_power) -/

/-- A write of `CLK_TDIE` (R400, R401, R402): a die that is absent ignores it; SEL moves to a source that is READY while
neither AUTO nor HW_OWN is set; a write with any other change of SEL is refused: it is counted, raises source 6 and sets
nothing else; another write sets the STEP fields, SEL and AUTO, each judged by the state before it (the model's reading, log
17). The PLLs (R399, R401, R403): a PLL locks; hardware switches to the PLL at FLOOR, under AUTO or with HW_OWN, which then
clears; it never moves a die off REF; an idle PLL stops. -/
def Obligations.ClocksOfATensorDie : Prop :=
  (∀ (s : State) (t : TDie) (v : Word), s.dev.host.held = [] → s.dev.reaches .host = true → s.dev.tdiePresent t.val = true →
    (s.dev.selRefused (s.dev.tdie t.val) (fieldAt v.toNat 0 2) = true →
      Does (.clkSelWrite t v) s ((s.dev.bump 0x200020).raise 6)) ∧
    (s.dev.selRefused (s.dev.tdie t.val) (fieldAt v.toNat 0 2) = false →
      ∃ x : TDieSt, x = ((s.dev.tdie t.val).writeStep .a (fieldAt v.toNat 4 3)).writeStep .b (fieldAt v.toNat 8 3) ∧
        Does (.clkSelWrite t v) s (s.dev.setTdie t.val
          (TDieSt.follow { x with sel := fieldAt v.toNat 0 2, auto := bitAt v.toNat 31 })))) ∧
  (∀ (s : State) (t : TDie) (v : Word), s.dev.host.held = [] → s.dev.tdiePresent t.val = false →
    Does (.clkSelWrite t v) s s.dev) ∧
  (∀ (d : Dev) (x : TDieSt) (sel : Nat), d.selRefused x sel = true ↔
    x.sel ≠ sel ∧ (x.auto = true ∨ x.hwOwn = true ∨ d.sourceReady x sel = false)) ∧
  (∀ (d : Dev) (x : TDieSt), d.sourceReady x 0 = (decide (x.aSt = .locked) && decide (x.floor ≤ x.aStep)) ∧
    d.sourceReady x 1 = (decide (x.bSt = .locked) && decide (x.floor ≤ x.bStep)) ∧ d.sourceReady x 2 = d.pins.refclk ∧
    d.sourceReady x 3 = false) ∧
  (∀ (x : TDieSt) (p : Pll) (st : Nat), (5 < st ∨ x.selected p = true ∨ x.hwOwn = true ∨ x.auto = true) →
    x.writeStep p st = x) ∧
  (∀ (s : State) (t : TDie), s.dev.pins.refclk = true → (s.dev.tdie t.val).aSt = .locking →
    Does (.pllLock t .a) s (s.dev.setTdie t.val { s.dev.tdie t.val with aSt := .locked })) ∧
  (∀ (s : State) (t : TDie), s.dev.pins.refclk = true → (s.dev.tdie t.val).bSt = .locking →
    Does (.pllLock t .b) s (s.dev.setTdie t.val { s.dev.tdie t.val with bSt := .locked })) ∧
  (∀ (s : State) (t : TDie), (s.dev.tdie t.val).auto = true → (s.dev.tdie t.val).sel = 0 →
    (s.dev.tdie t.val).aSt ≠ .stopped → (s.dev.tdie t.val).aStep ≠ (s.dev.tdie t.val).floor →
    (s.dev.tdie t.val).bStep = (s.dev.tdie t.val).floor → (s.dev.tdie t.val).bSt = .locked →
    Does (.tdieAutoSwitch t) s (s.dev.setTdie t.val { s.dev.tdie t.val with sel := 1, hwOwn := false })) ∧
  (∀ (s : State) (t : TDie), 2 ≤ (s.dev.tdie t.val).sel → Does (.tdieAutoSwitch t) s s.dev) ∧
  (∀ x : TDieSt, 2 ≤ x.sel → x.follow = x) ∧
  (∀ (s : State) (t : TDie), (s.dev.tdie t.val).hwOwn = true →
    (s.dev.tdie t.val).ready (s.dev.tdie t.val).other = true →
    Does (.floorEnforce t) s (s.dev.setTdie t.val { s.dev.tdie t.val with
      sel := pllCode (s.dev.tdie t.val).other, hwOwn := false })) ∧
  (∀ (s : State) (t : TDie), (s.dev.tdie t.val).sel = 0 → s.dev.dieAsleep t.val = true →
    Does (.pllIdleStop t .a) s (s.dev.setTdie t.val { s.dev.tdie t.val with aSt := .stopped })) ∧
  (∀ (s : State) (t : TDie), (s.dev.tdie t.val).sel = 1 → s.dev.dieAsleep t.val = true →
    Does (.pllIdleStop t .b) s (s.dev.setTdie t.val { s.dev.tdie t.val with bSt := .stopped })) ∧
  (∀ (s : State) (t : TDie), (s.dev.tdie t.val).sel = 0 → s.dev.dieAsleep t.val = false →
    Does (.pllIdleStop t .a) s s.dev)

/-- The power loop (R405): a mean above the budget raises the stage and the power floor by one, up to 5, where OVER_POWER
is set; ten means in a row below 90% of the budget lower the stage by one. (That the ten means are consecutive ones is
the model's reading, log 42.) -/
def Obligations.PowerLoop : Prop :=
  (∀ (s : State) (t : TDie) (m : BitVec 10), s.dev.tdiePresent t.val = true → (s.dev.tdie t.val).budget < m.toNat →
    (s.dev.tdie t.val).stage < 5 →
    Does (.powerCompare t m) s (Dev.floorsChanged (Dev.bump (s.dev.setTdie t.val { s.dev.tdie t.val with
      power := m.toNat, stage := (s.dev.tdie t.val).stage + 1, powerFloor := (s.dev.tdie t.val).stage + 1, low := 0 })
      (0x200048 + 0x10 * t.val)) t.val)) ∧
  (∀ (s : State) (t : TDie) (m : BitVec 10), s.dev.tdiePresent t.val = true → (s.dev.tdie t.val).budget < m.toNat →
    5 ≤ (s.dev.tdie t.val).stage →
    Does (.powerCompare t m) s (s.dev.setTdie t.val { s.dev.tdie t.val with
      power := m.toNat, overPower := true, low := 0 })) ∧
  (∀ (s : State) (t : TDie) (m : BitVec 10), s.dev.tdiePresent t.val = true → m.toNat ≤ (s.dev.tdie t.val).budget →
    10 * m.toNat < 9 * (s.dev.tdie t.val).budget → (s.dev.tdie t.val).low < 9 →
    Does (.powerCompare t m) s (s.dev.setTdie t.val { s.dev.tdie t.val with
      power := m.toNat, low := (s.dev.tdie t.val).low + 1 })) ∧
  (∀ (s : State) (t : TDie) (m : BitVec 10), s.dev.tdiePresent t.val = true → m.toNat ≤ (s.dev.tdie t.val).budget →
    10 * m.toNat < 9 * (s.dev.tdie t.val).budget → (s.dev.tdie t.val).low = 9 →
    Does (.powerCompare t m) s (Dev.floorsChanged (s.dev.setTdie t.val { s.dev.tdie t.val with
      power := m.toNat, stage := (s.dev.tdie t.val).stage - 1, powerFloor := (s.dev.tdie t.val).stage - 1, low := 0 })
      t.val)) ∧
  (∀ (s : State) (t : TDie) (m : BitVec 10), s.dev.tdiePresent t.val = true → m.toNat ≤ (s.dev.tdie t.val).budget →
    9 * (s.dev.tdie t.val).budget ≤ 10 * m.toNat →
    Does (.powerCompare t m) s (s.dev.setTdie t.val { s.dev.tdie t.val with power := m.toNat, low := 0 }))

/-- Sleep, self-refresh and wake (R406, R407, R409): a region that sleeps loses its flags; a stack in self-refresh loses its
cache; a wake is granted to the oldest request of its queue, which notes when (the spacing to the next goes by it), and the
unit wakes once its clock runs. -/
def Obligations.SleepAndWake : Prop :=
  (∀ (s : State) (r : Region), s.dev.maySleep r.val = true →
    ∃ e : Dev, Does (.regionSleep r) s e ∧ e = { s.dev with clk := e.clk, flags := e.flags } ∧
      e.clk = { s.dev.clk with regionAwake := e.clk.regionAwake } ∧
      (∀ q : Nat, q < 12 → e.clk.regionAwake.getLsbD q = (s.dev.clk.regionAwake.getLsbD q && decide (q ≠ r.val))) ∧
      (∀ k : Nat,
        Tab.read (fun _ => 0) e.flags k = if k / 1024 = r.val then 0 else Tab.read (fun _ => 0) s.dev.flags k)) ∧
  (∀ (s : State) (st : Stack), s.dev.maySelfRefresh st.val = true →
    ∃ e : Dev, Does (.stackSelfRefresh st) s e ∧
      e = { s.dev.modStk st.val (fun x => { x with cache := [] }) with
        clk := { s.dev.clk with stackAwake := e.clk.stackAwake } } ∧
      (∀ q : Nat, q < 24 → e.clk.stackAwake.getLsbD q = (s.dev.clk.stackAwake.getLsbD q && decide (q ≠ st.val)))) ∧
  (∀ (s : State) (r : Nat) (rest : List Nat), s.dev.clk.regionQ = r :: rest →
    Does (.wakeGrant .region) s { s.dev with
      clk.regionQ := rest, clk.regionFresh := false, clk.regionSame := min s.dev.clk.regionSame rest.length
      clk.regionGrantAt := some s.dev.now, clk.regionGranted := s.dev.clk.regionGranted ++ [r] }) ∧
  (∀ (s : State) (x : Nat) (rest : List Nat), s.dev.clk.stackQ = x :: rest →
    Does (.wakeGrant .stack) s { s.dev with
      clk.stackQ := rest, clk.stackFresh := false, clk.stackSame := min s.dev.clk.stackSame rest.length
      clk.stackGrantAt := some s.dev.now, clk.stackGranted := s.dev.clk.stackGranted ++ [x] }) ∧
  (∀ (s : State) (r : Region), s.dev.clk.regionGranted = [r.val] → s.dev.clockRuns (r.val / 2) = true →
    ∃ e : Dev, Does (.regionAwake r) s e ∧ e.clk.regionGranted = [] ∧
      e = { s.dev with clk := { s.dev.clk with regionGranted := e.clk.regionGranted, regionAwake := e.clk.regionAwake } } ∧
      (∀ q : Nat, q < 12 → e.clk.regionAwake.getLsbD q = (s.dev.clk.regionAwake.getLsbD q || decide (q = r.val)))) ∧
  (∀ (s : State) (st : Stack), s.dev.clk.stackGranted = [st.val] → s.dev.clockRuns (st.val / 4) = true →
    ∃ e : Dev, Does (.stackSrExit st) s e ∧ e.clk.stackGranted = [] ∧
      e = { s.dev with clk := { s.dev.clk with stackGranted := e.clk.stackGranted, stackAwake := e.clk.stackAwake } } ∧
      (∀ q : Nat, q < 24 → e.clk.stackAwake.getLsbD q = (s.dev.clk.stackAwake.getLsbD q || decide (q = st.val)))) ∧
  (∀ (s : State) (r : Region), s.dev.clockRuns (r.val / 2) = false → Does (.regionAwake r) s s.dev)

/-- A rule set of a stack (R156, R157, R159): SW_SET takes a listed code; a stricter or looser set wanted than TARGET
begins a change and is counted; with a change in progress it waits; each die applies it, the last one ends the change.
A tightening die waits until its streams and the activations of its last 20 ns are within the new set's caps. A change that
times out is a region fault with code 0x40, and no die applies it any more (R160, R444; its UNIT 6 is the model's reading). -/
def Obligations.StackRuleSets : Prop :=
  (∀ (s : State) (st : Stack) (v : Word), s.dev.host.held = [] → s.dev.hostReady = true → s.dev.stackPresent st.val = true →
    4 < fieldAt v.toNat 0 3 → Does (.stackRuleWrite st v) s s.dev) ∧
  (∀ (s : State) (st : Stack) (v : Word), s.dev.host.held = [] → s.dev.hostReady = true → s.dev.stackPresent st.val = true →
    fieldAt v.toNat 0 3 ≤ 4 →
    Does (.stackRuleWrite st v) s (Dev.retarget (s.dev.modStk st.val (fun x => { x with sw := fieldAt v.toNat 0 3 })) st.val)) ∧
  (∀ (d : Dev) (st : Nat), (d.stk st).busy = false → max (d.stk st).sw (d.stk st).floor = (d.stk st).target →
    d.retarget st = d) ∧
  (∀ (d : Dev) (st : Nat), (d.stk st).busy = false → max (d.stk st).sw (d.stk st).floor ≠ (d.stk st).target →
    d.retarget st = (d.modStk st (fun x => { x with
      busy := true, frm := x.target, target := max (d.stk st).sw (d.stk st).floor, applied := 0, pend := none })).bump
      (stackBase st + 0x60)) ∧
  (∀ (d : Dev) (st : Nat), (d.stk st).busy = true → d.retarget st = d.setStk st { d.stk st with
    pend := if max (d.stk st).sw (d.stk st).floor = (d.stk st).target then none
      else some (max (d.stk st).sw (d.stk st).floor) }) ∧
  (∀ (s : State) (st : Stack) (i : Fin 16), s.dev.mayApply st.val i.val = true →
    (s.dev.stk st.val).applied ||| BitVec.ofNat 16 (2 ^ i.val) ≠ 0xFFFF →
    Does (.dieApplyRule st i) s (s.dev.modStk st.val (fun x => { x with
      applied := x.applied ||| BitVec.ofNat 16 (2 ^ i.val) }))) ∧
  (∀ (s : State) (st : Stack) (i : Fin 16), s.dev.mayApply st.val i.val = true →
    (s.dev.stk st.val).applied ||| BitVec.ofNat 16 (2 ^ i.val) = 0xFFFF → (s.dev.stk st.val).pend = none →
    Does (.dieApplyRule st i) s (s.dev.modStk st.val (fun x => { x with applied := 0xFFFF, busy := false, pend := none }))) ∧
  (∀ (d : Dev) (st i : Nat), d.mayApply st i = true ↔
    (d.stk st).busy = true ∧ (d.stk st).timedOut = false ∧ (d.stk st).applied.getLsbD i = false ∧
      ((d.stk st).target ≤ (d.stk st).frm → ∀ n : Nat, n < i → (d.stk st).applied.getLsbD n = true) ∧
      ((d.stk st).frm < (d.stk st).target →
        d.streaming st i ≤ pimCap (d.stk st).target ∧ d.actsNow st i ≤ bawCount (d.stk st).target)) ∧
  (∀ (s : State) (st : Stack) (i : Fin 16), s.dev.mayApply st.val i.val = false → Does (.dieApplyRule st i) s s.dev) ∧
  (∀ (s : State) (st : Stack), (s.dev.stk st.val).busy = true → (s.dev.stk st.val).timedOut = false →
    Does (.modeTimeout st) s
      ((s.dev.modStk st.val (fun x => { x with timedOut := true })).regionFault (st.val / 2) 0x40 6)) ∧
  (∀ (s : State) (st : Stack), (s.dev.stk st.val).busy = false → Does (.modeTimeout st) s s.dev)

/-- Throttling (R417, R419, R420, R421 Table 3): a sample sets the sensor's reading, its warning with hysteresis and its hot
bit; the temperatures move while the controller is stopped too (the model's, log 45); in IDLE a hot die enters GRACE with a
request; a grace time that ends with the die not clear raises the stage and enforces it; a cooling time that ends lowers it.
-/
def Obligations.Throttling : Prop :=
  (∀ (x : Therm) (n : Nat) (old : Sensor) (t : BitVec 16),
    (x.sampled n old t).temp = t ∧ (x.sampled n old t).valid = true ∧
    ((x.sampled n old t).hot = true ↔ 16 * (x.throttleOf n : Int) ≤ t.toInt) ∧
    ((x.sampled n old t).warn = true ↔ 16 * (x.warnOf n : Int) ≤ t.toInt ∨
      (old.warn = true ∧ 16 * ((x.warnOf n : Int) - x.hyst) < t.toInt))) ∧
  (∀ (s : State) (n : Fin 196) (t : BitVec 16), s.dev.samples = true → s.dev.sensorPresent n.val = true →
    ∃ e : Dev, Does (.thermalSample [(n.val, t)]) s e ∧
      e.therm.sensors = Tab.write (fun _ => Sensor.zero) s.dev.therm.sensors n.val
        (s.dev.therm.sampled n.val (s.dev.sensor n.val) t) ∧
      e.temp n.val = t ∧
      e = { s.dev with
        therm := e.therm, stks := e.stks, clk := e.clk, ec := e.ec, counters := e.counters, chip := e.chip
        pins := { s.dev.pins with temps := e.pins.temps } }) ∧
  (∀ (s : State) (n : Fin 196) (t : BitVec 16), s.dev.samples = false → s.dev.sensorPresent n.val = true →
    ∃ e : Dev, Does (.thermalSample [(n.val, t)]) s e ∧ e.temp n.val = t ∧
      e = { s.dev with pins := { s.dev.pins with temps := e.pins.temps } }) ∧
  (∀ (d : Dev) (t : Nat), (d.thdie t).st = .idle → d.dieHot t = true →
    d.thermStep t = (d.setThdie t { d.thdie t with st := .grace, req := true, since := 0 }).bump 0x201010) ∧
  (∀ (d : Dev) (t : Nat), (d.thdie t).st = .cooling → d.dieHot t = true →
    d.thermStep t = (d.setThdie t { d.thdie t with
      st := .enforce, req := true, since := (d.thdie t).since + 1 }).bump 0x201010) ∧
  (∀ (s : State) (t : TDie), s.dev.samples = true → s.dev.tdiePresent t.val = true → (s.dev.thdie t.val).st = .grace →
    s.dev.dieClear t.val = false → (s.dev.thdie t.val).stage < 5 →
    Does (.graceExpire t) s (Dev.setThermStage (Dev.bump (s.dev.setThdie t.val { s.dev.thdie t.val with
      st := .enforce, stage := (s.dev.thdie t.val).stage + 1, since := 0 }) (0x201048 + 0x10 * t.val)) t.val
      ((s.dev.thdie t.val).stage + 1))) ∧
  (∀ (s : State) (t : TDie), s.dev.samples = true → s.dev.tdiePresent t.val = true → (s.dev.thdie t.val).st = .cooling →
    s.dev.dieClear t.val = true → 1 < (s.dev.thdie t.val).stage →
    Does (.coolingStepDown t) s (Dev.setThermStage (s.dev.setThdie t.val { s.dev.thdie t.val with
      st := .cooling, stage := (s.dev.thdie t.val).stage - 1 }) t.val ((s.dev.thdie t.val).stage - 1))) ∧
  (∀ (s : State) (t : TDie), (s.dev.thdie t.val).st ≠ .grace → Does (.graceExpire t) s s.dev)

/-! ### Operations that the families share -/

/-- Counters (R447, R448): COUNT in bits 47:0 and the sticky SAT in bit 63; an update by k sets COUNT to the lesser of COUNT
+ k and 2^48 − 1, SAT sets where COUNT reaches it, no counter goes down, and reading changes none; a counter that saturates
raises source 2 and is logged where the log was empty, or, of those in one cycle, with the lowest offset. Faults (R23, R24,
R444): a region's first fault is recorded with source 16 + n and later ones are counted; the domain stops at once (log 87),
and every other region of it with no fault recorded records DOMAIN_STOPPED with the first region as its origin; in a stopped
domain, and after a chip fault, a fault is only counted, but for one of another region in the cycle of the stop, which that
region records in the place of DOMAIN_STOPPED (what a cycle is, is the model's, log 5). A chip fault in READY leads to FAULT
with its code (R438). -/
def Obligations.CountersAndFaults : Prop :=
  (∀ (c : Counter) (k : Nat), c.count ≤ 2 ^ 48 - 1 → (c.add k).count = min (c.count + k) (2 ^ 48 - 1) ∧
    (c.add k).count ≤ 2 ^ 48 - 1 ∧ c.count ≤ (c.add k).count ∧
    ((c.add k).sat = true ↔ c.sat = true ∨ 2 ^ 48 - 1 ≤ c.count + k)) ∧
  (∀ (d : Dev) (off k : Nat),
    let e := d.bumpBy off k
    e = { d with
      counters := Tab.write (fun _ => Counter.zero) d.counters off ((d.ctr off).add k), chip := e.chip, ec := e.ec } ∧
    (((d.ctr off).add k).sat = (d.ctr off).sat → e.chip = d.chip ∧ e.ec = d.ec) ∧
    (((d.ctr off).add k).sat ≠ (d.ctr off).sat →
      e.chip = (if d.chip.satValid = false then { d.chip with satValid := true, satOffset := off, satAt := d.now }
        else if d.chip.satAt = d.now then { d.chip with satOffset := min d.chip.satOffset off } else d.chip) ∧
      e.ec = { d.ec with inbox := d.ec.inbox ++ [⟨2, true⟩] })) ∧
  (∀ c : Counter, c.count ≤ 2 ^ 48 - 1 → c.word = c.count + (if c.sat then 2 ^ 63 else 0)) ∧
  (∀ (d : Dev) (off : Nat), (d.afterRead off).counters = d.counters) ∧
  (∀ (d : Dev) (r code origin unit : Nat), (d.region r).faultValid = true →
    d.recordFault r code origin unit = d.bump (regionBase r + 8)) ∧
  (∀ (d : Dev) (r code origin unit : Nat), (d.region r).faultValid = false →
    d.recordFault r code origin unit = (d.modRegion r (fun x => { x with
      faultValid := true, faultCode := code, faultDomain := (d.domainOf r).getD 0, faultOrigin := origin, faultUnit := unit
      faultStep := d.stepShown ((d.domainOf r).getD 0) })).raise (16 + r)) ∧
  (∀ (d : Dev) (r code unit n : Nat), d.domainOf r = some n →
    (((d.dom n).stopped = true ∧ (d.dom n).stopAt ≠ d.now) ∨ d.chip.state = .fault) →
    d.regionFault r code unit = d.bump (regionBase r + 8)) ∧
  (∀ (d : Dev) (r code unit n : Nat), d.domainOf r = some n → d.chip.state ≠ .fault → (d.dom n).stopped = true →
    (d.dom n).stopAt = d.now →
    ((d.region r).faultCode ≠ 0x4C → d.regionFault r code unit = d.bump (regionBase r + 8)) ∧
    ((d.region r).faultCode = 0x4C → code ≠ 0x4C →
      let e := d.regionFault r code unit
      e = { d with regions := e.regions } ∧
      e.region r = { d.region r with faultCode := code, faultOrigin := r, faultUnit := unit } ∧
      ∀ o : Nat, o ∈ d.regionsOf n → o ≠ r → (d.region o).faultCode = 0x4C →
        e.region o = { d.region o with faultOrigin := min (d.region o).faultOrigin r })) ∧
  (∀ (d : Dev) (r code unit n : Nat), d.domainOf r = some n → (d.dom n).stopped = false →
    d.chip.state ≠ .fault → d.regionsOf n = [r] →
    d.regionFault r code unit = (d.recordFault r code r unit).modDom n (fun x => { x with
      stopped := true, stopAt := d.now })) ∧
  (∀ (d : Dev) (r code unit n : Nat), d.domainOf r = some n → (d.dom n).stopped = false →
    d.chip.state ≠ .fault →
    let e := d.regionFault r code unit
    (e.dom n).stopped = true ∧ ((d.region r).faultValid = false →
      (e.region r).faultValid = true ∧ (e.region r).faultCode = code ∧ (e.region r).faultUnit = unit) ∧
      ∀ o : Nat, o ∈ d.regionsOf n → o ≠ r → (d.region o).faultValid = false →
        (e.region o).faultValid = true ∧ (e.region o).faultCode = 0x4C ∧ (e.region o).faultOrigin = r) ∧
  (∀ (d : Dev) (r code unit : Nat),
    let e := d.regionFault r code unit
    e = { d with regions := e.regions, doms := e.doms, counters := e.counters, chip := e.chip, ec := e.ec } ∧
      e.chip = { d.chip with satValid := e.chip.satValid, satOffset := e.chip.satOffset, satAt := e.chip.satAt }) ∧
  (∀ (d : Dev) (code : Nat), d.chip.state = .ready → d.chipFault code = moved { d with chip.faultCode := code } .fault)

/-- A byte of a memory after a write: the bytes written read back, and every other byte is as it was; a memory in canonical
form stays in it. -/
def Obligations.MemoryReadAfterWrite : Prop :=
  ∀ (dflt : Nat → Byte) (m : Mem) (a : Nat) (bs : List Byte),
    (∀ x : Nat, Tab.read dflt (Tab.writeN dflt m a bs) x =
      if h : a ≤ x ∧ x - a < bs.length then bs[x - a] else Tab.read dflt m x) ∧
    Tab.readN dflt (Tab.writeN dflt m a bs) a bs.length = bs ∧
    (Memory.wf dflt m = true → Memory.wf dflt (Tab.writeN dflt m a bs) = true)

/-! ### Block sequencers and macro-operations (03_macro_ops, 04_layouts) -/

/-- Issue (R71, R73, R75): with the fetch good, the checks passed, no wait, the scoreboard and the engines free, the oldest
operation enters flight; an operation that fails a check halts its block with the code and the fault information; a
fenced operation waits; a block that does not run issues nothing. Completion (R72): an operation that its engine has done
leaves, and is counted; its flag, where it sets one, is incremented; one not done stays. A fetch counts the replays that it
needs (R22, R40), and without them it changes nothing. -/
def Obligations.IssueAndCompletion : Prop :=
  (∀ (s : State) (r : Region) (b : Blk) (k : Nat) (w : OpWord) (d1 : Dev), k = 4 * r.val + b.val → w = s.dev.nextWord k →
    s.dev.issues k = true → s.dev.fetchOp k (s.dev.blk k).next w = .ok d1 →
    (d1.checkOp k w = none → (d1.blk k).fenced w = false → w.waitEn = false → w.opcode ≠ 0x30 → w.opcode ≠ 0x28 →
      w.opcode ≠ 0x2A → d1.scoreHeld k w = false → d1.room (d1.opOf k w) = true →
      Does (.opIssue r b) s (d1.modBlk k (fun x => { x with
        fly := x.fly ++ [⟨x.next, w, d1.rawsOf k w, false, false, [], false, 0⟩], next := x.next + 1
        wait := none, waitTaken := false, flagTaken := false, heldScore := false }))) ∧
    (∀ code o : Nat, d1.checkOp k w = some (code, o) →
      Does (.opIssue r b) s (d1.blockHalt (k / 4) (k % 4) code
        (BitVec.ofNat 32 (2 ^ 31 + (s.dev.blk k).next % 8192 * 2 ^ 16 + o * 2 ^ 8 + w.opcode)))) ∧
    (d1.checkOp k w = none → (d1.blk k).fenced w = true → Does (.opIssue r b) s d1)) ∧
  (∀ (d : Dev) (k i : Nat) (w : OpWord) (d1 : Dev), d.fetchOp k i w = .ok d1 →
    d1 = { d with pathImem := d1.pathImem, pathBbuf := d1.pathBbuf, counters := d1.counters, chip := d1.chip, ec := d1.ec } ∧
    (d.pathImem = [] → d.pathBbuf = [] → d1 = d)) ∧
  (∀ (s : State) (r : Region) (b : Blk), s.dev.issues (4 * r.val + b.val) = false →
    Does (.opIssue r b) s s.dev ∧ Does (.waitFlag r b) s s.dev) ∧
  (∀ (d : Dev) (r b code : Nat) (info : Word),
    d.blockHalt r b code info =
      (d.modBlk (4 * r + b) (fun x => { x with st := .halted, haltCode := code, fault := info })).regionFault r code b) ∧
  (∀ (s : State) (r : Region) (b : Blk) (k : Nat) (f : Flight), k = 4 * r.val + b.val → (s.dev.blk k).st = .running →
    (s.dev.blk k).fly[0]? = some f → f.done = true → s.dev.mirrorFull = false → OpWord.setEn f.word = false →
    Does (.opComplete r b 0) s ((s.dev.modBlk k (fun x => { x with
      fly := x.fly.filter (fun y => decide (y.index ≠ f.index)) })).bump (blockBase (k / 4) (k % 4) + 0x20))) ∧
  (∀ (s : State) (r : Region) (b : Blk) (k : Nat) (f : Flight), k = 4 * r.val + b.val → (s.dev.blk k).st = .running →
    (s.dev.blk k).fly[0]? = some f → f.done = true → s.dev.mirrorFull = false → OpWord.setEn f.word = true →
    ∀ (e e' : Dev), e = ((s.dev.modBlk k (fun x => { x with
        fly := x.fly.filter (fun y => decide (y.index ≠ f.index)) })).bump (blockBase (k / 4) (k % 4) + 0x20)) →
      e.flagAdd (k / 4) (OpWord.setNum f.word) 1 = some e' → Does (.opComplete r b 0) s e') ∧
  (∀ (s : State) (r : Region) (b : Blk) (pos : Fin 32) (f : Flight), (s.dev.blk (4 * r.val + b.val)).fly[pos.val]? = some f →
    f.done = false → Does (.opComplete r b pos) s s.dev)

/-- Flags (R77, R79, R80, R81, R82): an increment adds to the count where it stays at most 65,535; SET_FLAG applies it in
its own region or sends it; a set that arrives is applied there and its sender is done; a wait that the count satisfies
consumes it, and one that it does not waits. An increment serves the waits of its flag in order of arrival, each consuming
its count unless it peeks, up to the first that is not satisfied; a wait that comes while earlier ones wait joins them,
whatever the count. (A wait with COUNT 0 takes its place behind them too, the model's choice, log 96.) -/
def Obligations.FlagOperations : Prop :=
  (∀ (s : State) (r : Region) (b : Blk) (k : Nat) (f : Flight) (rest : List Flight), k = 4 * r.val + b.val →
    (s.dev.blk k).st = .running → (s.dev.blk k).fly = f :: rest → OpWord.opcode f.word = 0x31 → f.begun = false →
    OpWord.peek f.word = false → s.dev.controlled (k / 4) (OpWord.flag f.word) = none →
    s.dev.waitq (flagKey (k / 4) (OpWord.flag f.word)) = [] →
    s.dev.flag (flagKey (k / 4) (OpWord.flag f.word)) + OpWord.count f.word ≤ 65535 →
    ∃ e : Dev, Does (.setFlag r b) s e ∧
      e = ((s.dev.modFlag (flagKey (k / 4) (OpWord.flag f.word)) (fun c => c + OpWord.count f.word)).setWaitq
        (flagKey (k / 4) (OpWord.flag f.word)) []).modBlk k (fun x => { x with
          fly := x.fly.map (fun y => if y.index = f.index then { y with begun := true, done := true } else y) })) ∧
  (∀ (s : State) (r : Region) (b : Blk) (k : Nat) (f : Flight) (rest : List Flight), k = 4 * r.val + b.val →
    (s.dev.blk k).st = .running → (s.dev.blk k).fly = f :: rest → OpWord.opcode f.word = 0x31 → f.begun = false →
    OpWord.peek f.word = true → OpWord.region f.word ≠ k / 4 →
    Does (.setFlag r b) s (Dev.modBlk { s.dev with net.msgs := s.dev.net.msgs ++
        [⟨k / 4, OpWord.region f.word, .ctrl, .flagSet (OpWord.flag f.word) (OpWord.count f.word) (k % 4) f.index⟩] } k
      (fun x => { x with fly := x.fly.map (fun y => if y.index = f.index then { y with begun := true } else y) }))) ∧
  (∀ (s : State) (r : Region) (b : Blk) (k : Nat) (f : Flight) (rest : List Flight), k = 4 * r.val + b.val →
    (s.dev.blk k).st = .running → (s.dev.blk k).fly = f :: rest → OpWord.opcode f.word = 0x31 → f.begun = false →
    OpWord.peek f.word = false → s.dev.controlled (k / 4) (OpWord.flag f.word) = none →
    65535 < s.dev.flag (flagKey (k / 4) (OpWord.flag f.word)) + OpWord.count f.word →
    Does (.setFlag r b) s (s.dev.opHalt k 0x0D f.index 7 0x31)) ∧
  (∀ (s : State) (r : Region) (src flag incr blk index : Nat) (rest : List FabMsg) (e : Dev),
    (s.dev.region r.val).arrived = ⟨src, r.val, .ctrl, .flagSet flag incr blk index⟩ :: rest →
    Dev.flagAdd (s.dev.modRegion r.val (fun x => { x with arrived := rest })) r.val flag incr = some e →
    Does (.remoteFlagSet r) s (e.finish (4 * src + blk) index)) ∧
  (∀ (s : State) (r : Region) (b : Blk) (k : Nat) (w : OpWord), k = 4 * r.val + b.val → w = s.dev.nextWord k →
    s.dev.issues k = true → s.dev.fetchOp k (s.dev.blk k).next w = .ok s.dev → s.dev.checkOp k w = none →
    w.opcode = 0x30 → w.waitEn = false → w.peek = false → (s.dev.blk k).fly = [] → (s.dev.blk k).wait = none →
    (s.dev.blk k).flagTaken = false → s.dev.waitq (flagKey (k / 4) w.flag) = [] →
    w.count ≤ s.dev.flag (flagKey (k / 4) w.flag) →
    ∃ e : Dev, Does (.waitFlag r b) s e ∧ e = { s.dev with flags := e.flags, waiters := e.waiters, blocks := e.blocks } ∧
      (∀ x : Nat, e.flag x = if x = flagKey (k / 4) w.flag then s.dev.flag x - w.count else s.dev.flag x) ∧
      (e.blk k).next = (s.dev.blk k).next + 1 ∧ (e.blk k).wait = none ∧
      (e.blk k).fly = [⟨(s.dev.blk k).next, w, s.dev.rawsOf k w, true, true, [], false, 0⟩]) ∧
  (∀ (s : State) (r : Region) (b : Blk) (k : Nat) (w : OpWord), k = 4 * r.val + b.val → w = s.dev.nextWord k →
    s.dev.issues k = true → s.dev.fetchOp k (s.dev.blk k).next w = .ok s.dev → s.dev.checkOp k w = none →
    w.opcode = 0x30 → w.waitEn = false → (s.dev.blk k).fly = [] → (s.dev.blk k).wait = none →
    (s.dev.blk k).flagTaken = false → s.dev.waitq (flagKey (k / 4) w.flag) = [] →
    s.dev.flag (flagKey (k / 4) w.flag) < w.count →
    ∃ e : Dev, Does (.waitFlag r b) s e ∧ e.flags = s.dev.flags ∧ (e.blk k).fly = [] ∧
      (e.blk k).wait = some (w.flag, w.count) ∧ e.waitq (flagKey (k / 4) w.flag) = [k] ∧
      (e.blk k).next = (s.dev.blk k).next) ∧
  (∀ (s : State) (r : Region) (b : Blk) (k : Nat) (f : Flight) (rest : List Flight), k = 4 * r.val + b.val →
    (s.dev.blk k).st = .running → (s.dev.blk k).fly = f :: rest → OpWord.opcode f.word = 0x31 → f.begun = false →
    OpWord.peek f.word = false → s.dev.controlled (k / 4) (OpWord.flag f.word) = none →
    s.dev.flag (flagKey (k / 4) (OpWord.flag f.word)) + OpWord.count f.word ≤ 65535 →
    Does (.setFlag r b) s (((s.dev.modFlag (flagKey (k / 4) (OpWord.flag f.word)) (fun c => c + OpWord.count f.word)).serveWaits
      (flagKey (k / 4) (OpWord.flag f.word)) (s.dev.waitq (flagKey (k / 4) (OpWord.flag f.word)))).finish k f.index)) ∧
  (∀ (d : Dev) (f k : Nat) (ks : List Nat) (x : Nat × Nat), (d.blk k).wait = some x →
    (d.flag f < x.2 → d.serveWaits f (k :: ks) = d.setWaitq f (k :: ks)) ∧
    (x.2 ≤ d.flag f → d.serveWaits f (k :: ks) = (d.grantWait f k x.2).serveWaits f ks)) ∧
  (∀ (d : Dev) (f : Nat), d.serveWaits f [] = d.setWaitq f []) ∧
  (∀ (d : Dev) (f k want : Nat),
    let e := d.grantWait f k want
    e = { d with flags := e.flags, blocks := e.blocks } ∧ (e.blk k).wait = none ∧
      (e.blk k).flagTaken = ((d.blk k).flagTaken || d.ownWait k) ∧
      (e.blk k).waitTaken = ((d.blk k).waitTaken || !d.ownWait k) ∧
      e.flag f = (if d.ownWait k && (d.nextWord k).peek then d.flag f else d.flag f - want) ∧
      (∀ x : Nat, x ≠ f → e.flag x = d.flag x) ∧ (∀ j : Nat, j ≠ k → e.blk j = d.blk j)) ∧
  (∀ (s : State) (r : Region) (b : Blk) (k j : Nat) (ks : List Nat) (w : OpWord) (x : Nat × Nat), k = 4 * r.val + b.val →
    w = s.dev.nextWord k → s.dev.issues k = true → s.dev.fetchOp k (s.dev.blk k).next w = .ok s.dev →
    s.dev.checkOp k w = none → w.opcode = 0x30 → w.waitEn = false → (s.dev.blk k).fly = [] → (s.dev.blk k).wait = none →
    (s.dev.blk k).flagTaken = false → s.dev.waitq (flagKey (k / 4) w.flag) = j :: ks → j ≠ k → (s.dev.blk j).wait = some x →
    s.dev.flag (flagKey (k / 4) w.flag) < x.2 →
    ∃ e : Dev, Does (.waitFlag r b) s e ∧ e.flags = s.dev.flags ∧ (e.blk k).fly = [] ∧
      (e.blk k).wait = some (w.flag, w.count) ∧ e.waitq (flagKey (k / 4) w.flag) = j :: ks ++ [k] ∧
      (e.blk k).next = (s.dev.blk k).next)

/-- The operations of the matrix array, the vector unit, the DMA engine and the exchange network (R71, R88 to R92, R118,
R196): the engine's next operation, when its opcode is the command's, is carried out: sources fetched, destinations
written, and the operation is done, unless its output still has to enter a queue; one that a suspension stopped goes on at the
tile step that it stood at (R245; the order of the steps is the model's, log 66). A frame of LAYOUT that fails parity is
replayed and counted, and after three failed replays the block halts (R123). With no such operation nothing
happens. -/
def Obligations.PlannedOperations : Prop :=
  (∀ (s : State) (r : Region) (b : Blk) (k : Nat) (o : Nat) (i : Instr) (plan : Op → Nat → Plan), k = 4 * r.val + b.val →
    (i, o, plan) ∈ [(.matmul r b, 0x01, matmulPlan), (.matmulAcc r b, 0x02, matmulAccPlan), (.elem r b, 0x08, elemPlan),
      (.reduce r b, 0x09, reducePlan), (.rowstat r b, 0x0A, rowstatPlan), (.move r b, 0x10, movePlan),
      (.bwdScores r b, 0x38, bwdScoresPlan), (.bwdRowdot r b, 0x39, bwdRowdotPlan), (.bwdDscore r b, 0x3A, bwdDscorePlan)] →
    (∀ (f : Flight) (d1 : Dev), s.dev.ready k o = some f →
      s.dev.runPlan (f.op k) f.index ((plan (f.op k) s.dev.free).after (f.op k) f.pos) s.dev.free = .ok (d1, false) →
      Does i s ((d1.unserve (whoBlock k 0).party).drawn.modBlk k (fun x => { x with
        fly := x.fly.map (fun y => if y.index = f.index then { y with begun := true, done := true } else y) }))) ∧
    (∀ (f : Flight) (d1 : Dev), s.dev.ready k o = some f →
      s.dev.runPlan (f.op k) f.index ((plan (f.op k) s.dev.free).after (f.op k) f.pos) s.dev.free = .ok (d1, true) →
      Does i s ((d1.unserve (whoBlock k 0).party).drawn.modBlk k (fun x => { x with
        fly := x.fly.map (fun y => if y.index = f.index then { y with begun := true } else y) }))) ∧
    (s.dev.ready k o = none → Does i s s.dev)) ∧
  (∀ (s : State) (r : Region) (b : Blk) (k : Nat) (f : Flight) (d0 d1 : Dev) (q : Bool), k = 4 * r.val + b.val →
    s.dev.ready k 0x11 = some f → s.dev.xnetReplays k ≤ 3 → d0 = s.dev.replayXnet k →
    d0.runPlan (f.op k) f.index ((layoutPlan (f.op k) d0.free).after (f.op k) f.pos) d0.free = .ok (d1, q) →
    Does (.layout r b) s ((d1.unserve (whoBlock k 0).party).drawn.modBlk k (fun x => { x with
      fly := x.fly.map (fun y => if y.index = f.index then (if q then { y with begun := true }
        else { y with begun := true, done := true }) else y) }))) ∧
  (∀ (s : State) (r : Region) (b : Blk) (k : Nat) (f : Flight), k = 4 * r.val + b.val → s.dev.ready k 0x11 = some f →
    3 < s.dev.xnetReplays k → Does (.layout r b) s ((s.dev.replayXnet k).opHalt k 0x13 f.index 7 0x11)) ∧
  (∀ (p : Plan) (c : Op), p.after c 0 = p) ∧
  (∀ (d : Dev) (k : Nat), (d.badXnet.contains k = true → 3 < d.xnetReplays k) ∧
    (d.xnetReplays k = 0 → d.replayXnet k = d) ∧
    (d.xnetReplays k ≠ 0 → d.replayXnet k =
      Dev.bumpBy { d with pathXnet := Tab.write (fun _ => 0) d.pathXnet k 0 } (blockBase (k / 4) (k % 4) + 8)
        (min 3 (d.xnetReplays k)))) ∧
  (∀ (d : Dev) (k o : Nat), (d.blk k).st ≠ .running → d.ready k o = none)

/-- Indexed operations (R101, R102, R103, R104): every window up to the first that FAULT stops at is carried out, entries
out of range are counted under ZERO and DROP, and a stop is INDEX_RANGE; the operation is done, unless its output still has
to enter a queue. (That under FAULT all of the positions before the faulting entry's window are written is the model's
reading, log 52; the order of the additions of SCATTER_ACC is open, log 10.) -/
def Obligations.IndexedOperations : Prop :=
  (∀ (s : State) (r : Region) (b : Blk) (k : Nat) (o : Nat) (i : Instr) (f : Flight) (rows : List (Option Nat)) (d0 d1 : Dev)
    (nw : Nat) (q : Bool), k = 4 * r.val + b.val →
    (i, o) ∈ [(.gather r b, 0x18), (.scatter r b, 0x19), (.scatterAcc r b, 0x1A)] → s.dev.ready k o = some f →
    s.dev.indexRows (f.op k) (f.op k).geoD = .ok (d0, rows) → nw = openWindows (f.op k).geoD (f.op k).w.idxPol rows →
    d0.runPlan (f.op k) f.index ((d0.indexedPlan (f.op k) rows nw f.pos).after (f.op k) f.pos) s.dev.free = .ok (d1, q) →
    (ceilDiv (f.op k).geoD.e1 64 ≤ nw → ∃ e : Dev,
      e = (((d1.bumpBy (blockBase (k / 4) (k % 4) + 0x18) (rows.filter (·.isNone)).length).unserve (whoBlock k 0).party).drawn) ∧
      (q = false → Does i s (e.finish k f.index)) ∧
      (q = true → Does i s (e.modFlight k f.index (fun x => { x with begun := true })))) ∧
    (nw < ceilDiv (f.op k).geoD.e1 64 → Does i s (d1.opHalt k 0x0E f.index 1 o))) ∧
  (∀ (d : Dev) (c : Op) (rows : List (Option Nat)) (nw a : Nat),
    (c.code = 0x18 → d.indexedPlan c rows nw a = gatherPlan c c.geoD rows nw) ∧
    (c.code = 0x19 → d.indexedPlan c rows nw a = scatterPlan c c.geoD rows nw) ∧
    (c.code = 0x1A → d.indexedPlan c rows nw a = scatterAccPlan c c.geoD rows nw d.free a (d.leadsOut (d.opView c 4 0)))) ∧
  (∀ (rows : Nat) (x : Int), (0 ≤ x → x < rows → ∀ pol : Nat, indexRow rows pol x = some x.toNat) ∧
    ((x < 0 ∨ rows ≤ x) → indexRow rows 0 x = none ∧ indexRow rows 2 x = none) ∧
    (0 < rows → x < 0 → indexRow rows 1 x = some 0) ∧ (0 < rows → rows ≤ x → indexRow rows 1 x = some (rows - 1)) ∧
    indexRow 0 1 x = none)

/-- The values of the matrix operations (R33, R50, R51, R88): an element of MATMUL is the accumulator of its row and column
begun at zero and converted once; MATMUL_ACC begins at the element of C and stays in FP32; elements of A and B beyond K are
zeros; and a K that fits one group is one rounding. The values of the vector operations (R43, R89, R90, R91): an element of
ELEM is its function of the elements with its index, converted once, and under MXQUANT the code of its block, whose scale
goes to DST1; an element of REDUCE is its row's sum, largest, smallest or sum of squares, and one of ROWSTAT the row's
statistics. Of the backward pass (R196): BWD_SCORES gives a visible position its probability and any other 0, BWD_ROWDOT the
sum of a row's products, BWD_DSCORE the product with the difference. (The order in which a row's sum is formed is open, log
10.) -/
def Obligations.OperationValues : Prop :=
  (∀ (c : Op) (e i n old : Nat) (ms : Nat → Local),
    (matmulPlan c e).bitsOut ms i n old =
      (c.w.dot ms FpVal.zero (n / c.w.tileN) (n % c.w.tileN)).toType c.w.typeD c.w.tileSat) ∧
  (∀ (c : Op) (e i n old : Nat) (ms : Nat → Local),
    (matmulAccPlan c e).bitsOut ms i n old = (c.w.dot ms
      (ofF32 (BitVec.ofNat 32 ((ms 4).bits (c.w.cElt (n / c.w.tileN) (n % c.w.tileN)))))
      (n / c.w.tileN) (n % c.w.tileN)).toF32.toNat) ∧
  (∀ (w : OpWord) (ms : Nat → Local) (r c k : Nat), w.tileK ≤ k →
    w.aVal ms r k = FpVal.zero ∧ w.bVal ms k c = FpVal.zero) ∧
  (∀ (w : OpWord) (ms : Nat → Local) (init : FpVal) (r c : Nat),
    0 < prodK w.typeS0 w.typeS1 w.tileK →
    prodK w.typeS0 w.typeS1 w.tileK ≤ groupSize w.typeS0 w.typeS1 →
    w.dot ms init r c = add32 init (groupSum ((List.range (groupSize w.typeS0 w.typeS1)).map
      (fun j => (w.aVal ms r j, w.bVal ms j c))))) ∧
  (groupSize 0x01 0x01 = 1 ∧ groupSize 0x03 0x03 = 2 ∧ groupSize 0x05 0x06 = 2 ∧ groupSize 0x08 0x0C = 32 ∧
    groupSize 0x01 0x03 = 1 ∧ groupSize 0x0C 0x03 = 2 ∧ groupSize 0x08 0x03 = 2 ∧ groupSize 0x01 0x0C = 1) ∧
  (∀ (c : Op) (e n old : Nat) (ms : Nat → Local),
    (c.geoD.func ≠ 0x22 → (elemPlan c e).bitsOut ms 4 n old =
      (vecFn c.geoD.func (c.value c.geoD ms 0 n) (c.value c.geoD ms 1 n) (c.value c.geoD ms 2 n)).toType c.w.typeD
        c.geoD.sat) ∧
    (c.geoD.func = 0x22 →
      (elemPlan c e).bitsOut ms 4 n old = (c.mxOf c.geoD ms n).2.getD (n % c.geoD.e0 % 32) 0 ∧
      (elemPlan c e).bitsOut ms 5 n old =
        (c.mxOf c.geoD ms (n / ceilDiv c.geoD.e0 32 * c.geoD.e0 + n % ceilDiv c.geoD.e0 32 * 32)).1)) ∧
  (∀ a b c : FpVal, vecFn 0x01 a b c = add32 a b ∧ vecFn 0x02 a b c = sub32 a b ∧ vecFn 0x03 a b c = mul32 a b ∧
    vecFn 0x04 a b c = fma32 a b c ∧ vecFn 0x07 a b c = a.abs ∧ vecFn 0x08 a b c = a.neg ∧
    (a.isNan = true ∨ b.isNan = true → vecFn 0x05 a b c = .nan ∧ vecFn 0x06 a b c = .nan) ∧
    (a.isNan = false → b.isNan = false → a.lt b = true → vecFn 0x05 a b c = b ∧ vecFn 0x06 a b c = a)) ∧
  (∀ (c : Op) (e i j old : Nat) (ms : Nat → Local),
    (reducePlan c e).bitsOut ms i j old =
      (reduceRow c.geoD.mode e (j * c.geoD.e0) (c.rowVals c.geoD ms j)).toType c.w.typeD c.geoD.sat) ∧
  (∀ (e i : Nat) (l : List FpVal), reduceRow 0 e i l = rowSum e i l ∧ reduceRow 1 e i l = l.foldl FpVal.larger (.inf true) ∧
    reduceRow 2 e i l = l.foldl FpVal.smaller (.inf false) ∧ reduceRow 3 e i l = rowSum e i (l.map (fun x => x.mul x))) ∧
  (∀ (e i : Nat) (a b : FpVal), rowSum e i [] = FpVal.zero.r32 ∧ rowSum e i [a] = a.r32 ∧
    (rowSum e i [a, b] = (add32 a b).r32 ∨ rowSum e i [a, b] = (add32 b a).r32)) ∧
  (∀ (c : Op) (e j old : Nat) (ms : Nat → Local),
    (rowstatPlan c e).bitsOut ms 4 j old =
      (rowStats c.geoD.mode e (2 * j * c.geoD.e0) (c.rowVals c.geoD ms j)).1.toF32.toNat ∧
    (rowstatPlan c e).bitsOut ms 5 j old =
      (rowStats c.geoD.mode e (2 * j * c.geoD.e0) (c.rowVals c.geoD ms j)).2.toF32.toNat) ∧
  (∀ (e i : Nat) (l : List FpVal),
    ((∃ x ∈ l, x ≠ .inf true) → rowStats 0 e i l =
      (rowMax l, rowSum e i (l.map (fun x => expFn false (sub32 x (rowMax l)))))) ∧
    ((∀ x ∈ l, x = .inf true) → rowStats 0 e i l = (.inf true, FpVal.zero))) ∧
  (∀ (c : Op) (e i n old r j : Nat) (ms : Nat → Local) (field : Nat → Nat → Nat) (l : FpVal),
    r = n / c.w.tileN → j = c.w.c0 + n % c.w.tileN → (∀ o k : Nat, field o k = (ms 2).bits (c.w.statElt r o k)) →
    l = ofF32 (BitVec.ofNat 32 (field 4 32)) →
    (l.isZero = true ∨ ¬(j < field 10 16 ∧ (j < field 12 16 ∨ field 8 16 ≤ j)) →
      (bwdScoresPlan c e).bitsOut ms i n old = 0) ∧
    (l.isZero = false → j < field 10 16 → (j < field 12 16 ∨ field 8 16 ≤ j) →
      (bwdScoresPlan c e).bitsOut ms i n old =
        (mul32 (expFn false (sub32 (c.w.dot ms FpVal.zero r (n % c.w.tileN)) (ofF32 (BitVec.ofNat 32 (field 0 32)))))
          (recipFn l)).toType c.w.typeD c.w.tileSat)) ∧
  (∀ (c : Op) (e i n old : Nat) (ms : Nat → Local),
    (bwdRowdotPlan c e).bitsOut ms i n old = (rowSum e (n * c.w.tileN) ((List.range c.w.tileN).map (fun j =>
      (c.w.matVal ms 0 n j).mul (c.w.matVal ms 1 n j)))).toF32.toNat ∧
    (bwdDscorePlan c e).bitsOut ms i n old =
      (mul32 (c.w.matVal ms 0 (n / c.w.tileN) (n % c.w.tileN)) (sub32 (c.w.matVal ms 1 (n / c.w.tileN) (n % c.w.tileN))
        (ofF32 (BitVec.ofNat 32 ((ms 2).bits (c.w.tileOff 2 * 8 + 32 * (n / c.w.tileN), 32)))))).toType c.w.typeD
        c.w.tileSat)

/-- Carrying out a plan touches nothing but memory and what an access leaves behind: no block, flag, region, domain,
request, image, clock, fuse, link, pin or test-port state changes (R71). -/
def Obligations.PlansTouchMemoryOnly : Prop :=
  ∀ (d d1 : Dev) (c : Op) (index : Nat) (p : Plan) (e : Nat) (q : Bool), d.runPlan c index p e = .ok (d1, q) →
    d1.blocks = d.blocks ∧ d1.flags = d.flags ∧ d1.waiters = d.waiters ∧ d1.imem = d.imem ∧ d1.regions = d.regions ∧
    d1.doms = d.doms ∧ d1.serve = d.serve ∧ d1.img = d.img ∧ d1.clk = d.clk ∧ d1.fuses = d.fuses ∧ d1.pins = d.pins ∧
    d1.net = d.net ∧ d1.host = d.host ∧ d1.therm = d.therm ∧ d1.sec = d.sec ∧ d1.tap = d.tap ∧ d1.bcmd = d.bcmd ∧
    d1.bufregs = d.bufregs ∧ d1.abuf = d.abuf ∧ d1.accs = d.accs ∧ d1.bcells = d.bcells

/-- The image load (R37, R68, R69): a header whose counts are out of range halts the block with IMAGE_INVALID, buffer
regions that overlap or pass the scratchpad halt it with BUFREG_INVALID, and a good image is put in place whole. (The
places in the header are the model's choice, log 15; that the old tables stay after BUFREG_INVALID, log 111.) -/
def Obligations.ImageLoad : Prop :=
  (∀ (s : State) (r : Region) (b : Blk) (k : Nat) (w : Who) (d1 d2 : Dev) (head rest : List Byte) (ops descs : Nat),
    k = 4 * r.val + b.val → w = whoOf (.copyEngine r) .stream → (s.dev.blk k).st = .loading →
    s.dev.load w (s.dev.blk k).image 2112 = .ok (d1, head) → ops = fieldOf head 0 4 → descs = fieldOf head 4 4 →
    0 < ops → ops ≤ 8192 → descs ≤ 511 →
    (∀ c : Nat, c < 8 → bufregsBad (imageBufregs head c) = false) →
    d1.load w ((s.dev.blk k).image + 2112) (32 * descs + 32 * ops) = .ok (d2, rest) →
    Does (.imageLoadDone r b) s ((d2.unserve w.party).placeImage k ops descs (head ++ rest))) ∧
  (∀ (s : State) (r : Region) (b : Blk) (k : Nat) (w : Who) (d1 : Dev) (head : List Byte),
    k = 4 * r.val + b.val → w = whoOf (.copyEngine r) .stream → (s.dev.blk k).st = .loading →
    s.dev.load w (s.dev.blk k).image 2112 = .ok (d1, head) →
    (fieldOf head 0 4 = 0 ∨ 8192 < fieldOf head 0 4 ∨ 511 < fieldOf head 4 4) →
    Does (.imageLoadDone r b) s (s.dev.blockHalt (k / 4) (k % 4) 0x0F 0x80000700)) ∧
  (∀ (s : State) (r : Region) (b : Blk) (k c : Nat) (w : Who) (d1 : Dev) (head : List Byte),
    k = 4 * r.val + b.val → w = whoOf (.copyEngine r) .stream → (s.dev.blk k).st = .loading →
    s.dev.load w (s.dev.blk k).image 2112 = .ok (d1, head) → 0 < fieldOf head 0 4 → fieldOf head 0 4 ≤ 8192 →
    fieldOf head 4 4 ≤ 511 → c < 8 → bufregsBad (imageBufregs head c) = true →
    Does (.imageLoadDone r b) s (s.dev.blockHalt (k / 4) (k % 4) 0x08 0x80000700)) ∧
  (∀ (d : Dev) (k ops descs : Nat) (img : List Byte),
    let e := d.placeImage k ops descs img
    e = { d with bufregs := e.bufregs, bbuf := e.bbuf, badBbuf := e.badBbuf, imem := e.imem, badImem := e.badImem
                 blocks := e.blocks })

/-! ### Stream queues (10_stream_queues) -/

/-- Entries (R254, R256, R258, R263, R265): the next entry of the head output is written where WRITE points and its packet
may be offered; a full queue holds it and counts the hold once, and a producer of another region that it has held goes on
once the release has reached it as a message; an output that is being discarded is accepted to its
end; a pointer whose copies differ empties the queue. A held queue that stalls is a region fault (R264). -/
def Obligations.QueueEntries : Prop :=
  (∀ (s : State) (r : Region) (q : QueueNo) (x : Queue) (o : QOut) (rest : List QOut),
    x = s.dev.queue (32 * r.val + q.val) → x.outs = o :: rest → o.discard = false → x.matched = true → x.full = false →
    (o.waits = false ∨ x.distant r.val = false) → x.esize < o.bytes.length →
    Does (.queueEntryWrite r q) s (Dev.offerPackets
      ((s.dev.bbufWrite (4 * r.val + x.consumer) (x.entryAt x.write.toNat) (o.bytes.take x.esize)).setQueue
        (32 * r.val + q.val) { x with
          pkts := x.addEntry false, write := x.write + 1, write2 := x.write + 1, held := false
          outs := { o with bytes := o.bytes.drop x.esize, begun := true, waits := false, counted := false } :: rest }) r.val
            q.val)) ∧
  (∀ (s : State) (r : Region) (q : QueueNo) (x : Queue) (o : QOut) (rest : List QOut),
    x = s.dev.queue (32 * r.val + q.val) → x.outs = o :: rest → o.discard = false → x.matched = true →
    (x.full = true ∨ (o.waits = true ∧ x.distant r.val = true)) → o.counted = false →
    Does (.queueEntryWrite r q) s (Dev.bump (s.dev.setQueue (32 * r.val + q.val) { x with
      held := true, outs := { o with waits := true, counted := true } :: rest }) (queueBase r.val q.val + 0x18))) ∧
  (∀ (s : State) (r : Region) (q : QueueNo) (x : Queue) (o : QOut) (rest : List QOut),
    x = s.dev.queue (32 * r.val + q.val) → x.outs = o :: rest → o.discard = false → x.matched = true →
    (x.full = true ∨ (o.waits = true ∧ x.distant r.val = true)) → o.counted = true →
    Does (.queueEntryWrite r q) s (s.dev.setQueue (32 * r.val + q.val) { x with
      held := true, outs := { o with waits := true } :: rest })) ∧
  (∀ (s : State) (r : Region) (q : QueueNo) (x : Queue) (o : QOut) (rest : List QOut),
    x = s.dev.queue (32 * r.val + q.val) → x.outs = o :: rest → o.discard = true → o.stack = none →
    (s.dev.modQueue (32 * r.val + q.val) (fun y => { y with outs := y.outs.tail })).outputsLeft o.blk o.index = false →
    Does (.queueEntryWrite r q) s
      ((s.dev.modQueue (32 * r.val + q.val) (fun y => { y with outs := y.outs.tail })).finish o.blk o.index)) ∧
  (∀ (s : State) (r : Region) (q : QueueNo) (x : Queue) (o : QOut) (rest : List QOut),
    x = s.dev.queue (32 * r.val + q.val) → x.outs = o :: rest → o.discard = false → x.matched = false →
    Does (.queueEntryWrite r q) s (s.dev.pointerReset r.val q.val)) ∧
  (∀ (s : State) (r : Region) (q : QueueNo), (s.dev.queue (32 * r.val + q.val)).held = true → s.dev.stepRuns r.val = true →
    Does (.queueStall r q) s (s.dev.regionFault r.val 0x46 6)) ∧
  (∀ (s : State) (r : Region) (q : QueueNo), (s.dev.queue (32 * r.val + q.val)).outs = [] →
    Does (.queueEntryWrite r q) s s.dev)

/-- Control sets (R261, R262): RELEASE frees its count of entries, and a producer in another region hears of it by a CTRL
message (R263, R269); MARK sets the mark at OFFER, REWIND offers from the mark
on; one that breaks Table 1, a release beyond WRITE and a rewind with no valid mark are the region fault QUEUE_CTL of the
consumer's region, and leave the queue as it was. -/
def Obligations.QueueControl : Prop :=
  (∀ (s : State) (r : Region) (q : QueueNo) (x : Queue) (v : Nat) (rest : List Nat),
    x = s.dev.queue (32 * r.val + q.val) → x.ctl = v :: rest → x.matched = true → ctlOp v = 1 → 0 < ctlCount v →
    ctlCount v ≤ 4096 → ctlCount v ≤ (x.write - x.release).toNat →
    ∃ e : Dev, Does (.queueRelease r q) s e ∧
      (x.distant r.val = false → e = { s.dev with queues := e.queues } ∧
        e.queue (32 * r.val + q.val) = Queue.freed { x.released (ctlCount v) with ctl := rest }) ∧
      (x.distant r.val = true →
        e = { s.dev with
          queues := e.queues
          net.msgs := s.dev.net.msgs ++ [⟨r.val, x.prodRegion, .ctrl, .release q.val⟩] } ∧
        e.queue (32 * r.val + q.val) = { x.released (ctlCount v) with ctl := rest })) ∧
  (∀ (s : State) (r : Region) (q : QueueNo) (x : Queue) (v : Nat) (rest : List Nat),
    x = s.dev.queue (32 * r.val + q.val) → x.ctl = v :: rest → x.matched = true → ctlOp v = 2 → ctlCount v = 0 →
    ∃ e : Dev, Does (.queueMark r q) s e ∧ e = { s.dev with queues := e.queues } ∧
      e.queue (32 * r.val + q.val) = { x with ctl := rest, mark := x.offer, mark2 := x.offer, markValid := true }) ∧
  (∀ (s : State) (r : Region) (q : QueueNo) (x : Queue) (v : Nat) (rest : List Nat),
    x = s.dev.queue (32 * r.val + q.val) → x.ctl = v :: rest → x.matched = true → ctlOp v = 3 → ctlCount v = 0 →
    x.markValid = true →
    ∃ e : Dev, Does (.queueRewind r q) s (e.offerPackets r.val q.val) ∧ e = { s.dev with queues := e.queues } ∧
      e.queue (32 * r.val + q.val) = Queue.rewound { x with ctl := rest }) ∧
  (∀ (s : State) (r : Region) (q : QueueNo) (x : Queue) (v o : Nat) (rest : List Nat) (c : Instr),
    x = s.dev.queue (32 * r.val + q.val) → x.ctl = v :: rest → x.matched = true →
    (c, o) ∈ [(.queueRelease r q, 1), (.queueMark r q, 2), (.queueRewind r q, 3)] →
    (ctlOp v = 0 ∨ 3 < ctlOp v ∨ (ctlOp v = o ∧ ((o = 1 ∧ (ctlCount v = 0 ∨ 4096 < ctlCount v ∨
      (x.write - x.release).toNat < ctlCount v)) ∨ (o = 2 ∧ ctlCount v ≠ 0) ∨
        (o = 3 ∧ (ctlCount v ≠ 0 ∨ x.markValid = false))))) →
    ∃ e : Dev, Does c s (e.regionFault r.val 0x45 6) ∧ e = { s.dev with queues := e.queues } ∧
      e.queue (32 * r.val + q.val) = { x with ctl := rest }) ∧
  (∀ (s : State) (r : Region) (q : QueueNo), (s.dev.queue (32 * r.val + q.val)).ctl = [] →
    Does (.queueRelease r q) s s.dev ∧ Does (.queueMark r q) s s.dev ∧ Does (.queueRewind r q) s s.dev)

/-! ### Fabric, reduction tree, span ports (11_fabric_links) -/

/-- Fabric messages (R269, R270): the oldest message of its class between two routers arrives; sets and lists wait at the
region, the answer to a list ends the sender's operation, a release lets the producer that its queue held go on, and a
message of read or write data, whose bytes its step has moved, leaves. The reduction tree (R274 to R277): the operation at
the head of its region's tree port gives its contribution to its round; one that does not agree with the contributions of
its round is TREE_MISMATCH; a full round is combined and ends, or goes on to the domain's span tree, and TREE_LATE counts
one that came late; a round that does not complete is TREE_TIMEOUT in the region of its first contribution (log 29). (The
order of the additions is open, log 10; the room that a span tree's children are given for a long vector is the model's, log
118.) -/
def Obligations.FabricAndReductionTree : Prop :=
  (∀ (s : State) (src dst : Router) (cls : FabClass) (m : FabMsg) (rest : List FabMsg), s.dev.clk.coast = false →
    takeMsg s.dev.net.msgs (fun m => m.on src.val dst.val cls) = some (m, rest) →
    ((∃ f i b n : Nat, m.body = .flagSet f i b n) ∨ (∃ (l : TagList) (b n : Nat), m.body = .scanList l b n)) →
    Does (.fabricMessage src dst cls) s (Dev.modRegion { s.dev with net.msgs := rest } dst.val
      (fun x => { x with arrived := x.arrived ++ [m] }))) ∧
  (∀ (s : State) (src dst : Router) (cls : FabClass) (m : FabMsg) (rest : List FabMsg) (b i : Nat),
    s.dev.clk.coast = false → takeMsg s.dev.net.msgs (fun m => m.on src.val dst.val cls) = some (m, rest) →
    m.body = .listAccepted b i →
    Does (.fabricMessage src dst cls) s (Dev.finish { s.dev with net.msgs := rest } (4 * dst.val + b) i)) ∧
  (∀ (s : State) (src dst : Router) (cls : FabClass) (m : FabMsg) (rest : List FabMsg), s.dev.clk.coast = false →
    takeMsg s.dev.net.msgs (fun m => m.on src.val dst.val cls) = some (m, rest) →
    (∀ j : Nat, m.body = .release j →
      Does (.fabricMessage src dst cls) s (Dev.modQueue { s.dev with net.msgs := rest } (32 * src.val + j) (fun x =>
        { x with outs := x.outs.map (fun o => { o with waits := false }) }))) ∧
    (m.body = .data → Does (.fabricMessage src dst cls) s { s.dev with net.msgs := rest })) ∧
  (∀ (s : State) (src dst : Router) (cls : FabClass),
    takeMsg s.dev.net.msgs (fun m => m.on src.val dst.val cls) = none → Does (.fabricMessage src dst cls) s s.dev) ∧
  (∀ (l : List FabMsg) (p : FabMsg → Bool) (m : FabMsg) (rest : List FabMsg), takeMsg l p = some (m, rest) →
    ∃ before_ after_ : List FabMsg, l = before_ ++ m :: after_ ∧ rest = before_ ++ after_ ∧ p m = true ∧
      ∀ x ∈ before_, p x = false) ∧
  (∀ (s : State) (r : Region) (b : Blk) (k n br g : Nat) (f : Flight) (d1 : Dev) (bs : List Byte) (q : Nat × Nat)
    (gs : List Nat) (tl : List (Nat × Nat)), k = 4 * r.val + b.val → s.dev.ready k 0x28 = some f →
    s.dev.domainOf r.val = some n → (s.dev.region r.val).treeQ = q :: tl → q = (k, f.index) → s.dev.rounds n = [] →
    (f.op k).at 0 = .br br → cellsOf k (OpWord.mask f.word) = g :: gs →
    s.dev.readRun (whoBlock k (OpWord.hint f.word)) (.cell g (s.dev.bufregBase g br)) 0 (OpWord.treeBytes f.word) =
      .ok (d1, bs) →
    Does (.treeReduce r b) s (((d1.setRounds n
        [⟨(s.dev.region r.val).treeTaken, [⟨r.val, k, f.index, f.word, bs⟩], none, false, false⟩]).modRegion r.val (fun x =>
          { x with treeQ := x.treeQ.tail, treeTaken := x.treeTaken + 1 })).modFlight k f.index
            (fun y => { y with begun := true }))) ∧
  (∀ (s : State) (r : Region) (b : Blk) (k n br g : Nat) (f : Flight) (q : Nat × Nat) (gs : List Nat)
    (tl : List (Nat × Nat)) (x : Round) (p : Contrib), k = 4 * r.val + b.val → s.dev.ready k 0x28 = some f →
    s.dev.domainOf r.val = some n → (s.dev.region r.val).treeQ = q :: tl → q = (k, f.index) → s.dev.rounds n = [x] →
    x.num = (s.dev.region r.val).treeTaken → p ∈ x.parts → OpWord.treeSig p.word ≠ OpWord.treeSig f.word →
    (f.op k).at 0 = .br br → cellsOf k (OpWord.mask f.word) = g :: gs →
    Does (.treeReduce r b) s (s.dev.regionFault r.val 0x47 6)) ∧
  (∀ (s : State) (r : Region) (b : Blk), s.dev.ready (4 * r.val + b.val) 0x28 = none → Does (.treeReduce r b) s s.dev) ∧
  (∀ (s : State) (n : Domain) (late : Bool) (x : Round),
    (s.dev.rounds n.val).find? (s.dev.roundFull n.val) = some x → s.dev.spanTree n.val = none →
    Does (.treeRoundComplete n late) s (Dev.roundEnds
      (if late then s.dev.drawn.bump 0x3000010 else s.dev.drawn) n.val x (combineAll x.op s.dev.free
      (((x.parts.map Contrib.values).head?.map List.length).getD 0) (x.parts.map Contrib.values)))) ∧
  (∀ (s : State) (n : Domain) (late : Bool) (x : Round) (t : SpanTree) (vals : List Word),
    (s.dev.rounds n.val).find? (s.dev.roundFull n.val) = some x → s.dev.spanTree n.val = some t →
    vals = combineAll x.op s.dev.free (((x.parts.map Contrib.values).head?.map List.length).getD 0)
      (x.parts.map Contrib.values) →
    Does (.treeRoundComplete n late) s (((if late then s.dev.drawn.bump 0x3000010 else s.dev.drawn).modRounds n.val
      (fun l => l.map (fun y => if y.num = x.num then { y with own := some vals } else y))).treeRoom t.kids vals.length)) ∧
  (∀ (s : State) (n : Domain) (late : Bool), (s.dev.rounds n.val).find? (s.dev.roundFull n.val) = none →
    Does (.treeRoundComplete n late) s s.dev) ∧
  (∀ (s : State) (n : Domain) (x : Round) (rest : List Round), s.dev.rounds n.val = x :: rest →
    s.dev.spanTree n.val = none →
    Does (.treeTimeout n) s (s.dev.regionFault ((x.parts.head?.map (·.region)).getD 0) 0x48 6)) ∧
  (∀ (s : State) (n : Domain), s.dev.rounds n.val = [] → Does (.treeTimeout n) s s.dev)

/-- Span ports (R278 to R282, R285, R286): training ends in UP with the wanted partner, in FAILED with ID_MISMATCH with
another, and in FAILED with none; a FAILED port that is enabled sends its SPAN_ID and number and trains again, with empty
buffers and full credits; a message leaves through a port that is UP while the channel holds the credits for it, and is
counted in bytes; without them the operation is held; the acknowledgement of its last flit ends a SPAN_SEND; one that the
receive buffer takes waits there and is acknowledged; a SPAN_RECV takes the oldest of its channel and returns the credits,
and one of another length is SPAN_MISMATCH; an operation that the partner never answers is SPAN_TIMEOUT. (Credits are for
whole messages, the model's choice, log 102.) -/
def Obligations.SpanPorts : Prop :=
  (∀ (s : State) (p : PortNo), (s.dev.span p.val).st = 1 →
    Does (.spanTrainResult p .none) s (Dev.modSpan (s.dev.spanEnter p.val 3 1) p.val (fun y => { y with retrain := false }))) ∧
  (∀ (s : State) (p : PortNo) (i : BitVec 6) (q : PortNo), (s.dev.span p.val).st = 1 →
    i.toNat = (s.dev.span p.val).wantId → q.val = (s.dev.span p.val).wantPort →
    Does (.spanTrainResult p (.reached i (BitVec.ofNat 4 q.val))) s (Dev.roomOf (Dev.modSpan (s.dev.spanEnter p.val 2 0) p.val
      (fun y => { y with retrain := false, partnerId := i.toNat, partnerPort := q.val })) p.val)) ∧
  (∀ (d : Dev) (p : Nat), d.roomOf p = { d with out := (d.roomOf p).out }) ∧
  (∀ (s : State) (p : PortNo) (i : BitVec 6) (q : BitVec 4), (s.dev.span p.val).st = 1 →
    (i.toNat ≠ (s.dev.span p.val).wantId ∨ q.toNat ≠ (s.dev.span p.val).wantPort) →
    Does (.spanTrainResult p (.reached i q)) s (Dev.modSpan (s.dev.spanEnter p.val 3 2) p.val
      (fun y => { y with retrain := false, partnerId := i.toNat, partnerPort := q.toNat }))) ∧
  (∀ (s : State) (p : PortNo) (res : TrainEnd), (s.dev.span p.val).st ≠ 1 → Does (.spanTrainResult p res) s s.dev) ∧
  (∀ (s : State) (p : PortNo), s.dev.host.held = [] → s.dev.hostReady = true → s.dev.spanPresent = true →
    (s.dev.span p.val).st = 3 →
    (s.dev.span p.val).en = true →
    Does (.spanRetrain p) s (Dev.modSpan { s.dev.spanEnter p.val 1 0 with
        out := s.dev.out ++ [.spanTraining p.val s.dev.chip.straps.spanId.toNat] } p.val (fun y => { y with
      retrain := true, rx := [], channels := y.channels.map (fun c => { c with credit := 65536, sends := [] })
      tree := { y.tree with credit := 65536 } }))) ∧
  (∀ (s : State) (p : PortNo) (channel : Byte) (bytes : List Byte), (s.dev.span p.val).st = 2 →
    s.dev.spanTakes p.val channel.toNat bytes.length = true →
    Does (.spanMessageArrival p channel bytes) s { Dev.bumpBy (s.dev.modSpan p.val (fun x =>
      { x with rx := x.rx ++ [(channel.toNat, bytes)] })) (0x3001000 + p.val * 0x100 + 0x18) bytes.length with
        out := s.dev.out ++ [.spanReply p.val channel.toNat .ack] }) ∧
  (∀ (s : State) (p : PortNo) (channel : Byte) (bytes : List Byte),
    ((s.dev.span p.val).st ≠ 2 ∨ s.dev.spanTakes p.val channel.toNat bytes.length = false) →
    Does (.spanMessageArrival p channel bytes) s s.dev) ∧
  (∀ (d : Dev) (p n len : Nat) (c : Channel), n ≠ 255 → (d.span p).channels.find? (fun c => decide (c.num = n)) = some c →
    (d.spanTakes p n len = true ↔ (d.span p).waiting n + len ≤ 65536 ∨ (d.span p).held n < c.recvs.length)) ∧
  (∀ (s : State) (r : Region) (b : Blk) (k p c : Nat) (f : Flight), k = 4 * r.val + b.val →
    s.dev.ready k 0x29 = some f → p = OpWord.port f.word → c = OpWord.channel f.word →
    ((s.dev.span p).st ≠ 2 ∨ ((s.dev.span p).channel c).credit < OpWord.spanBytes f.word) →
    Does (.spanSend r ⟨b, .none⟩) s s.dev) ∧
  (∀ (s : State) (r : Region) (b : Blk), s.dev.ready (4 * r.val + b.val) 0x29 = none →
    Does (.spanSend r ⟨b, .none⟩) s s.dev) ∧
  (∀ (s : State) (r : Region) (b : Blk) (x : SpanBack),
    Does (.spanSend r ⟨b, some x⟩) s (Dev.spanSend (s.dev.spanBack x) (4 * r.val + b.val) none)) ∧
  (∀ (d : Dev) (p : PortNo) (c : Byte) (x : SpanReply), (d.span p.val).st ≠ 2 → d.spanBack ⟨p, c, x⟩ = d) ∧
  (∀ (d : Dev) (p : PortNo) (c : Byte) (n : Nat), (d.span p.val).st = 2 →
    d.spanBack ⟨p, c, .credit n⟩ = d.modSpan p.val (fun x => x.modChannel c.toNat (fun h =>
      { h with credit := h.credit + n }))) ∧
  (∀ (d : Dev) (p : PortNo) (c : Byte) (k i : Nat) (rest : List (Nat × Nat)), (d.span p.val).st = 2 →
    ((d.span p.val).channel c.toNat).sends = (k, i) :: rest →
    d.spanBack ⟨p, c, .ack⟩ = (d.modSpan p.val (fun x => x.modChannel c.toNat (fun h => { h with sends := rest }))).finish
      k i) ∧
  (∀ (s : State) (r : Region) (b : Blk) (k : Nat) (f : Flight) (d1 : Dev) (bs : List Byte), k = 4 * r.val + b.val →
    s.dev.ready k 0x29 = some f → (s.dev.span (OpWord.port f.word)).st = 2 →
    OpWord.spanBytes f.word ≤ ((s.dev.span (OpWord.port f.word)).channel (OpWord.channel f.word)).credit →
    s.dev.readRun (whoBlock k (OpWord.hint f.word)) (s.dev.viewOf ((f.op k).at 0) k (firstCell k (OpWord.mask f.word))) 0
      (OpWord.spanBytes f.word) = .ok (d1, bs) →
    Does (.spanSend r ⟨b, .none⟩) s (Dev.modFlight (Dev.modSpan (Dev.bumpBy { d1.unserve (whoBlock k 0).party with
      out := d1.out ++ [.span (OpWord.port f.word) (OpWord.channel f.word) bs] }
      (0x3001000 + OpWord.port f.word * 0x100 + 0x10) bs.length) (OpWord.port f.word) (fun y =>
        y.modChannel (OpWord.channel f.word) (fun h => { h with
          credit := h.credit - OpWord.spanBytes f.word, sends := h.sends ++ [(k, f.index)] }))) k f.index
      (fun y => { y with begun := true }))) ∧
  (∀ (s : State) (r : Region) (b : Blk) (k : Nat) (f : Flight) (bs : List Byte) (rest : List (Nat × List Byte))
    (d1 : Dev) (x : Span) (q : Bool), k = 4 * r.val + b.val → s.dev.ready k 0x2A = some f →
      x = s.dev.span (OpWord.port f.word) →
    x.st = 2 → takeRx x.rx (OpWord.channel f.word) = some (bs, rest) →
    x.channels.any (fun h => h.num == OpWord.channel f.word && h.recvs.head? == some (k, f.index)) = true →
    bs.length = OpWord.spanBytes f.word →
    Dev.receiveInto { s.dev.setSpan (OpWord.port f.word) (x.received (OpWord.channel f.word) rest) with
        out := s.dev.out ++ [.spanReply (OpWord.port f.word) (OpWord.channel f.word) (.credit (min bs.length 65536))] }
      (f.op k) f.index bs = .ok (d1, q) →
    (q = false → Does (.spanRecv r b) s ((d1.unserve (whoBlock k 0).party).drawn.finish k f.index)) ∧
    (q = true → Does (.spanRecv r b) s ((d1.unserve (whoBlock k 0).party).drawn.modFlight k f.index
      (fun y => { y with begun := true })))) ∧
  (∀ (s : State) (r : Region) (b : Blk) (k : Nat) (f : Flight), k = 4 * r.val + b.val → s.dev.ready k 0x2A = some f →
    (takeRx (s.dev.span (OpWord.port f.word)).rx (OpWord.channel f.word) = none ∨ (s.dev.span (OpWord.port f.word)).st ≠ 2 ∨
      (s.dev.span (OpWord.port f.word)).channels.any (fun h =>
        h.num == OpWord.channel f.word && h.recvs.head? == some (k, f.index)) = false) → Does (.spanRecv r b) s s.dev) ∧
  (∀ (s : State) (r : Region) (b : Blk), s.dev.ready (4 * r.val + b.val) 0x2A = none → Does (.spanRecv r b) s s.dev) ∧
  (∀ (s : State) (r : Region) (b : Blk) (k : Nat) (f : Flight) (bs : List Byte) (rest : List (Nat × List Byte)) (x : Span),
    k = 4 * r.val + b.val → s.dev.ready k 0x2A = some f → x = s.dev.span (OpWord.port f.word) →
    x.st = 2 → takeRx x.rx (OpWord.channel f.word) = some (bs, rest) →
    x.channels.any (fun h => h.num == OpWord.channel f.word && h.recvs.head? == some (k, f.index)) = true →
    bs.length ≠ OpWord.spanBytes f.word → Does (.spanRecv r b) s (s.dev.regionFault r.val 0x49 6)) ∧
  (∀ (s : State) (r : Region) (b : Blk) (pos : Fin 32), s.dev.spanTimed (4 * r.val + b.val) pos.val = true →
    Does (.spanTimeout r b pos) s (s.dev.regionFault r.val 0x4A 6)) ∧
  (∀ (d : Dev) (k pos : Nat) (f : Flight), (d.blk k).fly[pos]? = some f → f.done = false →
    (OpWord.opcode f.word = 0x29 ∨ OpWord.opcode f.word = 0x2A) → d.spanTimed k pos = true)

/-- The span tree (R284): at the root the children's partials combine with the device's own, the value goes down and the
round ends; another device sends its combined partial to its parent, and ends the round with the value that comes back. A
vector leaves while channel 255 holds the credits for it (R280), and a round that waited on a port that failed goes no
further (R286; both as the model reads them, log 118; the order of the additions is open, log 10). -/
def Obligations.SpanTreeRounds : Prop :=
  (∀ (s : State) (n : Domain) (t : SpanTree) (x : Round) (rest : List Round) (own : List Word) (d1 : Dev)
    (ms : List (List Byte)), s.dev.spanTree n.val = some t → s.dev.rounds n.val = x :: rest → x.own = some own →
    x.sent = false → x.cut = false → t.root = true → (∀ p ∈ t.kids, (s.dev.span p).st = 2) →
    s.dev.takeTree t.kids = some (d1, ms) →
    Does (.spanTreeRound ⟨n, none⟩) s (d1.drawn.treeFinal s.dev n.val t x (combineAll x.op s.dev.free own.length
      ((own :: ms.map (partialWords s.dev.free own.length)).map (fun v => v.map ofF32))))) ∧
  (∀ (s : State) (n : Domain) (t : SpanTree) (x : Round) (rest : List Round) (own vals : List Word) (d1 : Dev)
    (ms : List (List Byte)), s.dev.spanTree n.val = some t → s.dev.rounds n.val = x :: rest → x.own = some own →
    x.sent = false → x.cut = false → t.root = false → (∀ p ∈ t.kids ++ [t.parent], (s.dev.span p).st = 2) →
    s.dev.takeTree t.kids = some (d1, ms) → vals = combineAll x.op s.dev.free own.length
      ((own :: ms.map (partialWords s.dev.free own.length)).map (fun v => v.map ofF32)) →
    (d1.mayFlow [t.parent] vals = true →
      Does (.spanTreeRound ⟨n, none⟩) s (((d1.drawn.sendWords [t.parent] vals).modRounds n.val (fun l =>
        l.map (fun y => if y.num = x.num then { y with own := some vals, sent := true } else y))).treeRoom [t.parent]
          vals.length)) ∧
    (d1.mayFlow [t.parent] vals = false → Does (.spanTreeRound ⟨n, none⟩) s s.dev)) ∧
  (∀ (s : State) (n : Domain) (t : SpanTree) (x : Round) (rest : List Round) (own : List Word) (d1 : Dev)
    (bs : List Byte) (more : List (List Byte)), s.dev.spanTree n.val = some t → s.dev.rounds n.val = x :: rest →
    x.own = some own → x.sent = true → x.cut = false → t.root = false →
    (∀ p ∈ t.kids ++ [t.parent], (s.dev.span p).st = 2) → s.dev.takeTree [t.parent] = some (d1, bs :: more) →
    Does (.spanTreeRound ⟨n, none⟩) s (d1.drawn.treeFinal s.dev n.val t x (partialWords s.dev.free own.length bs))) ∧
  (∀ (d1 d : Dev) (n : Nat) (t : SpanTree) (x : Round) (vals : List Word),
    (d1.mayFlow t.kids vals = true → d1.treeFinal d n t x vals = (d1.sendWords t.kids vals).roundEnds n x vals) ∧
    (d1.mayFlow t.kids vals = false → d1.treeFinal d n t x vals = d)) ∧
  (∀ (d : Dev) (ps : List Nat) (l : List Word), d.mayFlow ps l = true ↔ ∀ p ∈ ps, 4 * l.length ≤ (d.span p).tree.credit) ∧
  (∀ (s : State) (n : Domain) (x : Round) (rest : List Round), s.dev.rounds n.val = x :: rest → x.cut = true →
    Does (.spanTreeRound ⟨n, none⟩) s s.dev) ∧
  (∀ (s : State) (n : Domain) (p : PortNo) (c : Nat), Does (.spanTreeRound ⟨n, some (p, c)⟩) s
    ((s.dev.spanBack ⟨p, 255, .credit c⟩).spanRound n.val)) ∧
  (∀ (s : State) (n : Domain), s.dev.spanTree n.val = none → Does (.spanTreeRound ⟨n, none⟩) s s.dev)

/-! ### Compute stacks, attention, retrieval (05_compute_stacks, 06_attention, 07_retrieval) -/

/-- LOADA and WXV (R137, R141, R142): when the selected cells stand at the word, LOADA copies the broadcast bytes into
each activation buffer; WXV gives each row of each sequence of its batch one accumulator, begun at zero or at its value,
and changes no other; it waits until the stream rows that it reads are activated (R153), and leaves its last weights in the
latch (R135); a chunk that fails parity holds the cell and changes no accumulator; of one that failed on its path and was read
again (R301) the retry is counted, and the step has used what it read (R375). What the buffers hold before is open (log 7). -/
def Obligations.WeightWords : Prop :=
  (∀ (s : State) (st : Stack) (n : SlotNo) (sl : Slot) (p0 : Nat × Nat) (rest : List (Nat × Nat)) (pc : Nat) (w : SeqWord),
    s.dev.slotOf st.val n.val = some sl → sl.chosen = p0 :: rest → pc = (s.dev.bcell (cellKey st.val p0.1 p0.2)).pc →
    sl.words[pc]? = some w →
    (∀ p ∈ sl.chosen, (s.dev.bcell (cellKey st.val p.1 p.2)).runs.head? = some n.val ∧
      (s.dev.bcell (cellKey st.val p.1 p.2)).pc = pc ∧ (s.dev.wordFor st.val p.1 p.2 0x1).isSome = true) →
    32 * w.loadAoff + 32 * w.count ≤ 32768 →
    ∃ e : Dev, Does (.loada st n) s e ∧ e = { (sl.chosen.foldl (fun a p => a.modBcell (cellKey st.val p.1 p.2) (fun x =>
        { x with pc := x.pc + 1, storePos := 0 })) s.dev) with abuf := e.abuf } ∧
      (∀ p ∈ sl.chosen, Tab.readN e.abufDflt e.abuf (cellKey st.val p.1 p.2 * 32768 + 32 * w.loadAoff) (32 * w.count) =
        sl.bytes (32 * w.loadBoff) (32 * w.count)) ∧
      ∀ x : Nat, (∀ p ∈ sl.chosen, x < cellKey st.val p.1 p.2 * 32768 + 32 * w.loadAoff ∨
        cellKey st.val p.1 p.2 * 32768 + 32 * w.loadAoff + 32 * w.count ≤ x) →
        Tab.read e.abufDflt e.abuf x = Tab.read s.dev.abufDflt s.dev.abuf x) ∧
  (∀ (s : State) (st : Stack) (i : Fin 16) (c : BankCell) (sl : Slot) (w : SeqWord),
    s.dev.wordFor st.val i.val c.val 0x2 = some (sl, w) →
    s.dev.firstBad st.val i.val (2 * c.val + w.wBank) ((List.range w.count).flatMap (fun r =>
      (List.range w.wLen).map (fun k => w.wAddr + r * w.wPitch + k))) = none →
    (sl.wordOpens w st.val i.val c.val 0 (s.dev.bcell (cellKey st.val i.val c.val)).row).length ≤
      (s.dev.bcell (cellKey st.val i.val c.val)).rowsAhead →
    Does (.wxv st i c) s (((s.dev.wxvRows st.val i.val c.val w 0 w.count).retriedAll st.val i.val (2 * c.val + w.wBank)
      ((List.range w.count).flatMap (fun r => (List.range w.wLen).map (fun k => w.wAddr + r * w.wPitch + k)))).modBcell
        (cellKey st.val i.val c.val) (fun x => { x.read (sl.wordOpens w st.val i.val c.val 0 x.row) with
        latch := some (s.dev.lastWeights st.val i.val c.val w), pc := x.pc + 1, storePos := 0 }))) ∧
  (∀ (s : State) (st : Stack) (i : Fin 16) (c : BankCell) (sl : Slot) (w : SeqWord),
    s.dev.wordFor st.val i.val c.val 0x2 = some (sl, w) → (s.dev.bcell (cellKey st.val i.val c.val)).rowsAhead <
      (sl.wordOpens w st.val i.val c.val 0 (s.dev.bcell (cellKey st.val i.val c.val)).row).length →
    Does (.wxv st i c) s s.dev) ∧
  (∀ (s : State) (st : Stack) (i : Fin 16) (c : BankCell) (sl : Slot) (w : SeqWord) (p : Stripe),
    s.dev.wordFor st.val i.val c.val 0x2 = some (sl, w) →
    s.dev.firstBad st.val i.val (2 * c.val + w.wBank) ((List.range w.count).flatMap (fun r =>
      (List.range w.wLen).map (fun k => w.wAddr + r * w.wPitch + k))) = some p →
    (sl.wordOpens w st.val i.val c.val 0 (s.dev.bcell (cellKey st.val i.val c.val)).row).length ≤
      (s.dev.bcell (cellKey st.val i.val c.val)).rowsAhead →
    Does (.wxv st i c) s (s.dev.bauWaits st.val i.val c.val p)) ∧
  (∀ (d : Dev) (st i c n r q : Nat) (w : SeqWord), r < n → q < w.wBatch →
    Tab.read d.accDflt (d.wxvRows st i c w 0 n).accs (cellKey st i c * 2048 + (w.wAcc + r * w.wBatch + q)) =
      (bauDot (if w.wZero then FpVal.zero else d.acc (cellKey st i c) (w.wAcc + r * w.wBatch + q))
        ((w.weights (d.bankBytes st i (2 * c + w.wBank) (32 * (w.wAddr + r * w.wPitch)) (32 * w.wLen))).zip
          ((List.range w.rowLen).map (d.activation (cellKey st i c) (32 * (w.wAoff + q * w.wAstr)))))).toF32) ∧
  (∀ (d : Dev) (st i c n x : Nat) (w : SeqWord),
    (x < cellKey st i c * 2048 + w.wAcc ∨ cellKey st i c * 2048 + (w.wAcc + n * w.wBatch) ≤ x) →
    Tab.read d.accDflt (d.wxvRows st i c w 0 n).accs x = Tab.read d.accDflt d.accs x) ∧
  (∀ (d : Dev) (st i c n : Nat) (w : SeqWord),
    d.wxvRows st i c w 0 n = { d with accs := (d.wxvRows st i c w 0 n).accs }) ∧
  (∀ (d : Dev) (st i b : Nat) (ns : List Nat),
    let e := d.retriedAll st i b ns
    e = { d with
      badPath := e.badPath, counters := e.counters, chip := e.chip, ec := e.ec
      host := { d.host with stepUse := e.host.stepUse } } ∧
    (d.badPath = [] → e.badPath = [] ∧ e.counters = d.counters ∧ e.chip = d.chip ∧ e.ec = d.ec))

/-- EMIT (R142, R149, R150, R192): in MODE 0 each accumulator named is added into its merge entry with one FP32 rounding;
in MODE 1 a cell with a valid entry sends its records to the merger, and one without sends nothing. -/
def Obligations.EmitWords : Prop :=
  (∀ (s : State) (st : Stack) (i : Fin 16) (c : BankCell) (sl : Slot) (w : SeqWord) (n : Nat) (rest : List Nat),
    s.dev.wordFor st.val i.val c.val 0x5 = some (sl, w) → w.eMode ≠ 1 →
    (s.dev.bcell (cellKey st.val i.val c.val)).runs = n :: rest →
    ∃ m : Tab (Option Word),
      Does (.emit st i c) s ((s.dev.setSlot st.val n (some { sl with merge := m, otype := w.eType })).modBcell
        (cellKey st.val i.val c.val) (fun x => { x with pc := x.pc + 1, storePos := 0 })) ∧
      (∀ j : Nat, j < w.count → Tab.read (fun _ => none) m (w.eBase + (64 * i.val + c.val) * w.ePitch + j) =
        some (add32 (ofF32 ((Tab.read (fun _ => none) sl.merge (w.eBase + (64 * i.val + c.val) * w.ePitch + j)).getD 0))
          (s.dev.acc (cellKey st.val i.val c.val) (w.eAcc + j))).toF32) ∧
      (∀ k : Nat, (k < w.eBase + (64 * i.val + c.val) * w.ePitch ∨
        w.eBase + (64 * i.val + c.val) * w.ePitch + w.count ≤ k) →
        Tab.read (fun _ => none) m k = Tab.read (fun _ => none) sl.merge k)) ∧
  (∀ (s : State) (st : Stack) (i : Fin 16) (c : BankCell) (sl : Slot) (w : SeqWord) (n at0 : Nat) (rest : List Nat),
    s.dev.wordFor st.val i.val c.val 0x5 = some (sl, w) → w.eMode = 1 →
    (s.dev.bcell (cellKey st.val i.val c.val)).runs = n :: rest →
    (s.dev.bcell (cellKey st.val i.val c.val)).ridx = some at0 → w.count = w.ePitch → 0 < w.ePitch →
    Does (.emit st i c) s ((s.dev.setSlot st.val n (some { sl with
      recLen := w.ePitch
      arrivals := sl.arrivals ++ [(at0, (List.range w.count).map (fun j =>
        (s.dev.acc (cellKey st.val i.val c.val) (w.eAcc + j)).toF32))] })).modBcell (cellKey st.val i.val c.val) (fun x =>
          { x with pc := x.pc + 1, storePos := 0 }))) ∧
  (∀ (s : State) (st : Stack) (i : Fin 16) (c : BankCell) (sl : Slot) (w : SeqWord) (n : Nat) (rest : List Nat),
    s.dev.wordFor st.val i.val c.val 0x5 = some (sl, w) → w.eMode = 1 →
    (s.dev.bcell (cellKey st.val i.val c.val)).runs = n :: rest →
    (s.dev.bcell (cellKey st.val i.val c.val)).ridx = none →
    Does (.emit st i c) s ((s.dev.setSlot st.val n (some sl)).modBcell (cellKey st.val i.val c.val) (fun x =>
      { x with pc := x.pc + 1, storePos := 0 })))

/-- Attention (R182, R188, R189, R190, R193): a DECODE word with no valid entry passes on and leaves the records; one with an
entry waits for the stream activation that it makes of its own where it reads any slot, and writes the records of its heads
and counts the tiles with no visible slot; such tiles leave a record as it began;
the oldest record that has arrived is merged, and the first of its place is taken as it is; NORMALISE carries its blocks
out one after another. -/
def Obligations.AttentionWords : Prop :=
  (∀ (s : State) (st : Stack) (i : Fin 16) (c : BankCell) (sl : Slot) (w : SeqWord),
    s.dev.wordFor st.val i.val c.val 0x3 = some (sl, w) → w.aKind = 0 → sl.entry w st.val i.val c.val = none →
    Does (.attnDecode st i c) s ((s.dev.modBcell (cellKey st.val i.val c.val) (fun x => { x with ridx := none })).advance
      st.val i.val c.val)) ∧
  (∀ (s : State) (st : Stack) (i : Fin 16) (c : BankCell) (sl : Slot) (w : SeqWord) (x : PageEntry),
    s.dev.wordFor st.val i.val c.val 0x3 = some (sl, w) → w.aKind = 0 → sl.entry w st.val i.val c.val = some x →
    (sl.wordOpens w st.val i.val c.val 0 (s.dev.bcell (cellKey st.val i.val c.val)).row).length ≤
      (s.dev.bcell (cellKey st.val i.val c.val)).rowsAhead → sl.raced = [] →
    (∀ n : Nat, s.dev.chunkBad st.val i.val (bankStripe (2 * c.val + x.par) n) = false) →
    Does (.attnDecode st i c) s (((((s.dev.setAccs (cellKey st.val i.val c.val) w.aAcc
      ((List.range w.heads).flatMap (s.dev.attnHead sl st.val i.val c.val w x))).retriedAll st.val i.val (2 * c.val + x.par)
        ((tilesOf w x).flatten.flatMap (fun t => [0, 1].flatMap (fun row => kvChunks w x row t)))).modBcell
        (cellKey st.val i.val c.val) (fun y => { y.read (sl.wordOpens w st.val i.val c.val 0 y.row) with ridx := some x.ridx })).bumpBy
          (stackBase st.val + 0x068) ((tilesOf w x).filter (·.isEmpty)).length).advance st.val i.val c.val)) ∧
  (∀ (s : State) (st : Stack) (i : Fin 16) (c : BankCell) (sl : Slot) (w : SeqWord) (x : PageEntry),
    s.dev.wordFor st.val i.val c.val 0x3 = some (sl, w) → w.aKind = 0 → sl.entry w st.val i.val c.val = some x →
    (s.dev.bcell (cellKey st.val i.val c.val)).rowsAhead <
      (sl.wordOpens w st.val i.val c.val 0 (s.dev.bcell (cellKey st.val i.val c.val)).row).length →
    Does (.attnDecode st i c) s s.dev) ∧
  (∀ (sl : Slot) (w : SeqWord) (st i c pos : Nat) (row : Option Nat) (x : PageEntry), w.op = 0x3 →
    sl.entry w st i c = some x → sl.wordOpens w st i c pos row =
      if (∀ t ∈ tilesOf w x, t = []) then [] else [(2 * c + x.par) * 10240 + x.srow]) ∧
  (∀ (d : Dev) (sl : Slot) (st i c g : Nat) (w : SeqWord) (x : PageEntry), (∀ t ∈ tilesOf w x, t = []) → w.aInit = true →
    d.attnHead sl st i c w x g = List.replicate w.headWidth FpVal.zero ++ [.inf true, FpVal.zero]) ∧
  (∀ (d : Dev) (sl : Slot) (st i c g : Nat) (w : SeqWord) (x : PageEntry), (∀ t ∈ tilesOf w x, t = []) → w.aInit = false →
    d.attnHead sl st i c w x g =
      (List.range (w.headWidth + 2)).map (fun k => d.acc (cellKey st i c) (w.aAcc + g * w.recLen + k))) ∧
  (∀ (w : SeqWord) (x : PageEntry) (t : List Nat), t ∈ tilesOf w x → t.length ≤ 16 ∧
    ∀ j ∈ t, w.aStart ≤ j ∧ j < w.aStart + w.count ∧ j < x.npos ∧ (w.causal = true → x.pos0 + j ≤ x.qpos)) ∧
  (∀ (s : State) (st : Stack) (n : SlotNo) (sl : Slot) (k : Nat) (ws : List Word) (rest : List (Nat × List Word)),
    (s.dev.stk st.val).halt = 0 → s.dev.slotOf st.val n.val = some sl → sl.arrivals = (k, ws) :: rest →
    (∀ j : Nat, j < ws.length → Tab.read (fun _ => none) sl.merge (k + j) = none) →
    Does (.attnRecordMerge st n) s (s.dev.setSlot st.val n.val (some { sl with
      arrivals := rest, merge := Tab.writeN (fun _ => none) sl.merge k (ws.map some) }))) ∧
  (∀ (s : State) (st : Stack) (n : SlotNo) (sl : Slot) (k : Nat) (ws olds : List Word) (rest : List (Nat × List Word)),
    (s.dev.stk st.val).halt = 0 → s.dev.slotOf st.val n.val = some sl → sl.arrivals = (k, ws) :: rest →
      olds.length = ws.length → ws ≠ [] →
    (∀ j : Nat, j < ws.length → Tab.read (fun _ => none) sl.merge (k + j) = olds[j]?) →
    Does (.attnRecordMerge st n) s (s.dev.setSlot st.val n.val (some { sl with
      arrivals := rest
      merge := Tab.writeN (fun _ => none) sl.merge k
        ((mergeRecord (olds.map ofF32) (ws.map ofF32)).map (fun v => some v.toF32)) }))) ∧
  (∀ old new : List FpVal, old.getD (new.length - 2) .nan = .inf true → new.getD (new.length - 2) .nan = .inf true →
    mergeRecord old new = old) ∧
  (∀ (s : State) (st : Stack) (n : SlotNo) (sl : Slot) (w : SeqWord) (d1 : Dev), s.dev.slotOf st.val n.val = some sl →
    s.dev.stackRuns st.val = true → sl.dieMask = 0 → sl.cellMask = 0 → sl.words[sl.basePc]? = some w → w.op = 0x3 →
    s.dev.normBlocks st.val (normWho st.val) sl ((List.range w.count).map (sl.score w)) = .ok d1 →
    Does (.normalise st n) s ((d1.unserve (normWho st.val).party).setSlot st.val n.val (some { sl with basePc := sl.basePc + 1 })))

/-- STORE, YIELD, REFSLOT, END and the end of a sequence (R22, R143, R146, R147, R148, R150, R304): a chunk step writes its
chunk, sends its delta to the check dies and moves on; it waits while its stream row is not activated, while the delta
before it has no grant, and while the stripe is locked; YIELD, REFSLOT and END come to a yield point; a sequence whose cells
have all ended hands its output to the queue when it stands first in dispatch order, and one that sends nothing frees its
slot; on a halted stack nothing ends. -/
def Obligations.StoreAndYieldWords : Prop :=
  (∀ (s : State) (st : Stack) (i : Fin 16) (c : BankCell) (sl : Slot) (w : SeqWord) (ck k : Nat) (p : Stripe) (d1 : Dev),
    s.dev.wordFor st.val i.val c.val 0x6 = some (sl, w) → ck = cellKey st.val i.val c.val →
    k = (s.dev.bcell ck).storePos → p = bankStripe (2 * c.val + w.sBank) (w.sAddr + k) →
    (openings (s.dev.bcell ck).row [streamRow (2 * c.val + w.sBank) p.row]).length ≤ (s.dev.bcell ck).rowsAhead →
    (∀ x ∈ (s.dev.stk st.val).deltas, x.cell = 64 * i.val + c.val → x.granted = true) →
    s.dev.stripeLocked st.val p = false → s.dev.chunkBad st.val i.val p = false →
    d1 = ((((((s.dev.retried st.val i.val p).writeChunk st.val i.val p
      (overlay (s.dev.chunk st.val i.val p) (s.dev.storeBytes ck w k) 0) true).invalidate st.val p i.val).modStk st.val
        (fun x => { x with
          deltas := x.deltas ++ [⟨x.deltaSeq, p, i.val, 64 * i.val + c.val,
            xorBytes (s.dev.chunk st.val i.val p) (overlay (s.dev.chunk st.val i.val p) (s.dev.storeBytes ck w k) 0),
            false, false, false⟩]
          deltaSeq := x.deltaSeq + 1 })).streamOut (bankAddr st.val i.val (2 * c.val + w.sBank) (w.sAddr + k))
            (s.dev.storeBytes ck w k)).modBcell ck (fun y =>
              y.read (openings (s.dev.bcell ck).row [streamRow (2 * c.val + w.sBank) p.row]))) →
    (k + 1 < w.storeSteps → Does (.store st i c) s (d1.modBcell ck (fun x => { x with storePos := k + 1 }))) ∧
    (w.storeSteps ≤ k + 1 → Does (.store st i c) s (d1.modBcell ck (fun x => { x with pc := x.pc + 1, storePos := 0 })))) ∧
  (∀ (s : State) (st : Stack) (i : Fin 16) (c : BankCell) (sl : Slot) (w : SeqWord) (ck : Nat) (p : Stripe),
    s.dev.wordFor st.val i.val c.val 0x6 = some (sl, w) → ck = cellKey st.val i.val c.val →
    p = bankStripe (2 * c.val + w.sBank) (w.sAddr + (s.dev.bcell ck).storePos) →
    ((s.dev.bcell ck).rowsAhead < (openings (s.dev.bcell ck).row [streamRow (2 * c.val + w.sBank) p.row]).length →
      Does (.store st i c) s s.dev) ∧
    ((openings (s.dev.bcell ck).row [streamRow (2 * c.val + w.sBank) p.row]).length ≤ (s.dev.bcell ck).rowsAhead →
      ((∃ x ∈ (s.dev.stk st.val).deltas, x.cell = 64 * i.val + c.val ∧ x.granted = false) →
        Does (.store st i c) s (s.dev.modBcell ck (fun x => { x.leave false with holds := none }))) ∧
      ((∀ x ∈ (s.dev.stk st.val).deltas, x.cell = 64 * i.val + c.val → x.granted = true) →
        s.dev.stripeLocked st.val p = true →
        Does (.store st i c) s (s.dev.modBcell ck (fun x => { x.leave false with holds := some p }))))) ∧
  (∀ x : BCell, ∀ b : Bool, x.leave b = { x with phase := .atYield b, row := none, rowsAhead := 0 }) ∧
  (∀ (s : State) (st : Stack) (i : Fin 16) (c : BankCell) (q : Slot × SeqWord),
    s.dev.wordFor st.val i.val c.val 0x7 = some q →
    Does (.yield st i c) s ((s.dev.advance st.val i.val c.val).modBcell (cellKey st.val i.val c.val) (fun x => x.leave false))) ∧
  (∀ (s : State) (st : Stack) (i : Fin 16) (c : BankCell) (q : Slot × SeqWord),
    s.dev.wordFor st.val i.val c.val 0x8 = some q →
    Does (.refslot st i c) s ((s.dev.advance st.val i.val c.val).modBcell (cellKey st.val i.val c.val) (fun x => x.leave true))) ∧
  (∀ (s : State) (st : Stack) (i : Fin 16) (c : BankCell) (q : Slot × SeqWord),
    s.dev.wordFor st.val i.val c.val 0xF = some q →
    Does (.seqEnd st i c) s (s.dev.modBcell (cellKey st.val i.val c.val) (fun x =>
      { x.leave false with
        runs := x.runs.tail, work := .none, pc := 0, storePos := 0, ridx := none, before := x.before - 1 }))) ∧
  (∀ (s : State) (st : Stack) (n : SlotNo) (sl : Slot), s.dev.slotOf st.val n.val = some sl →
    s.dev.sequenceOver st.val n.val sl = true → sl.sent = false → (s.dev.stk st.val).halt = 0 → sl.output = [] →
    sl.onBase = false →
    Does (.sequenceEnd st n) s ((s.dev.unserve (normWho st.val).party).drawn.slotDone st.val n.val sl)) ∧
  (∀ (s : State) (st : Stack) (n : SlotNo) (sl : Slot) (d1 : Dev), s.dev.slotOf st.val n.val = some sl →
    s.dev.sequenceOver st.val n.val sl = true → sl.sent = false → (s.dev.stk st.val).halt = 0 → sl.output = [] →
    sl.onBase = true → s.dev.scramble st.val (sl.raceAddrs st.val) = .ok d1 →
    Does (.sequenceEnd st n) s ((d1.unserve (normWho st.val).party).drawn.slotDone st.val n.val sl)) ∧
  (∀ (d : Dev) (st : Nat) (sl : Slot), sl.raced = [] → d.scramble st (sl.raceAddrs st) = .ok d) ∧
  (∀ (s : State) (st : Stack) (n : SlotNo), (s.dev.stk st.val).halt ≠ 0 → Does (.sequenceEnd st n) s s.dev) ∧
  (∀ (s : State) (st : Stack) (n : SlotNo) (sl : Slot) (k q : Nat), s.dev.slotOf st.val n.val = some sl →
    s.dev.sequenceOver st.val n.val sl = true → sl.sent = false → (s.dev.stk st.val).halt = 0 → sl.output ≠ [] →
    s.dev.draining sl.req.region = false →
    k = 4 * sl.req.region + sl.req.blk → q = 32 * sl.req.region + OpWord.queue sl.req.word →
    (s.dev.queue q).order.head? = some (st.val, k, sl.req.index) →
    Does (.sequenceEnd st n) s ((s.dev.setSlot st.val n.val (some { sl with sent := true })).modQueue q (fun x =>
      { x with outs := x.outs ++ [⟨sl.output, false, some st.val, n.val, k, sl.req.index, false, false, false⟩] }))) ∧
  (∀ (s : State) (st : Stack) (i : Fin 16) (c : BankCell) (n : SlotNo),
    s.dev.nextSeq st.val i.val c.val = none → s.dev.slotOf st.val n.val = none →
    Does (.wxv st i c) s s.dev ∧ Does (.attnDecode st i c) s s.dev ∧ Does (.emit st i c) s s.dev ∧
    Does (.store st i c) s s.dev ∧ Does (.yield st i c) s s.dev ∧ Does (.refslot st i c) s s.dev ∧
    Does (.seqEnd st i c) s s.dev ∧ Does (.loada st n) s s.dev ∧ Does (.normalise st n) s s.dev ∧
    Does (.sequenceEnd st n) s s.dev ∧ Does (.attnRecordMerge st n) s s.dev)

/-- Dispatch (R144, R145, R202): STACK_SEQ and STACK_SCAN hand their request to each stack they name; a stack that runs
takes its oldest request into the lowest free slot, checks the sequence, and halts with the code, word and die (where the
failure is one cell's) of its first failure or lets each selected cell come to it in turn; a scan's slot holds its query,
2 DIM bytes; with no slot free the request waits. (The order of the checks and WORD 0 for a failing header are the
model's, logs 54 and 109; the request that waits, log 55; the query's rest, log 56.) -/
def Obligations.StackDispatch : Prop :=
  (∀ (s : State) (r : Region) (b : Blk) (k : Nat) (f : Flight) (d1 : Dev), k = 4 * r.val + b.val →
    s.dev.ready k 0x20 = some f →
    d1 = (f.op k).stacksNamed.foldl (fun a st => a.modStk st (fun x =>
      { x with reqs := x.reqs ++ [⟨k / 4, k % 4, f.index, f.word, f.raws, false, []⟩] })) s.dev →
    Does (.stackSeq r b) s ((d1.modQueue (32 * (k / 4) + (f.op k).w.queue) (fun x =>
      { x with order := x.order ++ (f.op k).stacksNamed.map (fun st => (st, k, f.index)) })).modFlight k f.index (fun x =>
        { x with begun := true, waitsOn := (f.op k).stacksNamed }))) ∧
  (∀ (s : State) (r : Region) (b : Blk) (k : Nat) (f : Flight), k = 4 * r.val + b.val → s.dev.ready k 0x21 = some f →
    Does (.stackScan r b) s (((f.op k).stacksNamed.foldl (fun a st => a.modStk st (fun x =>
      { x with reqs := x.reqs ++ [⟨k / 4, k % 4, f.index, f.word, f.raws, true, []⟩] })) s.dev).modFlight k f.index (fun x =>
        { x with begun := true, waitsOn := (f.op k).stacksNamed }))) ∧
  (∀ (s : State) (r : Region) (b : Blk), s.dev.ready (4 * r.val + b.val) 0x20 = none → Does (.stackSeq r b) s s.dev) ∧
  (∀ (s : State) (r : Region) (b : Blk), s.dev.ready (4 * r.val + b.val) 0x21 = none → Does (.stackScan r b) s s.dev) ∧
  (∀ (s : State) (st : Stack) (q : DispReq) (rest : List DispReq) (n k a size : Nat) (t z : Bool) (d1 d1' d2 : Dev)
    (bs : List Byte) (s0 sl : Slot), s.dev.stackRuns st.val = true → (s.dev.stk st.val).scanQ = [] →
      (s.dev.stk st.val).reqs = q :: rest →
    s.dev.freeSlot st.val = some n → q.scan = false → k = 4 * q.region + q.blk →
    (s.dev.queue (32 * q.region + OpWord.queue q.word)).full = false → (opWith k q.word q.raws).at 0 = .addr t a size z →
    s.dev.sequenceImage st.val a size = .ok (d1, bs) →
    (d1.unserve (reconWho st.val).party).newSlot q 65536 = .ok (d1', s0) → headerFail bs size = none →
    d2 = d1'.drawn.modStk st.val (fun x => { x with reqs := rest }) →
    sl = { s0 with
      words := (List.range ((bs.length - 64) / 16)).map (fun i =>
        SeqWord.withArg (fieldOf bs (64 + 16 * i) 16) (OpWord.arg q.word % 65536))
      dieMask := fieldOf bs 2 2, cellMask := fieldOf bs 8 8 } →
    (d2.seqFail st.val sl sl.words 0 0 sl.words = none → Does (.stackDispatch st) s
      (sl.chosen.foldl (fun x p => x.modBcell (cellKey st.val p.1 p.2) (fun y => y.enqueue n))
        (d2.setSlot st.val n (some sl)))) ∧
    (∀ code i : Nat, d2.seqFail st.val sl sl.words 0 0 sl.words = some (code, i) → Does (.stackDispatch st) s
      (d2.stackHalt st.val code (seqFault n i (d2.faultDie st.val sl sl.words (code, i)))))) ∧
  (∀ n i x : Nat, seqFault n i none = BitVec.ofNat 32 (2 ^ 31 + n * 2 ^ 16 + i % 2048) ∧
    seqFault n i (some x) = BitVec.ofNat 32 (2 ^ 31 + (2 ^ 28 + x * 2 ^ 24) + n * 2 ^ 16 + i % 2048)) ∧
  (∀ (s : State) (st : Stack) (q : DispReq) (rest : List DispReq) (n : Nat) (d1 : Dev) (sl : Slot), s.dev.stackRuns st.val = true →
    (s.dev.stk st.val).scanQ = [] → (s.dev.stk st.val).reqs = q :: rest → s.dev.freeSlot st.val = some n → q.scan = true →
    s.dev.newSlot q (2 * OpWord.scanDim q.word) = .ok (d1, sl) →
    Does (.stackDispatch st) s ((d1.drawn.setSlot st.val n (some { sl with
      dieMask := 0xFFFF, cellMask := 2 ^ 64 - 1 })).modStk st.val (fun x =>
        { x with reqs := rest, scanQ := x.scanQ ++ [n] }))) ∧
  (∀ (s : State) (st : Stack), (s.dev.stackRuns st.val = false ∨
    ((s.dev.stk st.val).scanQ = [] ∧ (s.dev.freeSlot st.val = none ∨ (s.dev.stk st.val).reqs = []))) →
    Does (.stackDispatch st) s s.dev) ∧
  (∀ (d : Dev) (st n : Nat), d.freeSlot st = some n → n < 4 ∧ d.slotOf st n = none ∧
    ∀ m : Nat, m < n → d.slotOf st m ≠ none)

/-- Turns and refresh (R151, R152, R153, R158, R161, R163, R165): a bank cell activates in its own cycle of 64, which a die
uses once: within tPIM_CAP when it starts or resumes and within tBAW always, for the next stream row that its segment reads
where it streams; a turn that tBAW refuses is counted, and one with nothing to open does nothing. The activation counts
under tBAW and turns the row buffer of its bank to the stream. A refresh that falls due in a segment is postponed up to four
times and forced after; outside a segment it comes at once, at a yield point after the cell's own deltas, and after one in
progress; at a yield point refreshes that fell due and postponed ones are made, REFSLOT may pull one in, and then what
waited is served; a cell that has come to serve an access asks for no turn before the access is made. (What "the last 20 ns"
of the activations outside the turns is, is the model's, log 58; a pull-in beside refreshes that fell due there, log 57.) -/
def Obligations.TurnsAndRefresh : Prop :=
  (∀ (s : State) (st : Stack) (i : Fin 16) (c : BankCell) (t : Nat), t % 64 = c.val →
    (s.dev.bcell (cellKey st.val i.val c.val)).refreshing = false → s.dev.stackRuns st.val = true →
    Tab.read (fun _ => 0) (s.dev.stk st.val).turnAt i.val ≤ t →
    (s.dev.bcell (cellKey st.val i.val c.val)).phase = .wantTurn →
    (pimCap (s.dev.stk st.val).inForce < s.dev.streaming st.val i.val + 1 → Does (.streamActivation st i c t) s s.dev) ∧
    (s.dev.streaming st.val i.val + 1 ≤ pimCap (s.dev.stk st.val).inForce →
      (s.dev.serves (cellKey st.val i.val c.val) = true → Does (.streamActivation st i c t) s s.dev) ∧
      (s.dev.serves (cellKey st.val i.val c.val) = false →
        (s.dev.recentActs st.val i.val t).length < bawCount (s.dev.stk st.val).inForce →
        Does (.streamActivation st i c t) s ((s.dev.useTurn st.val i.val t).activate st.val i.val c.val t
          (s.dev.segmentOpens st.val i.val c.val).head?)) ∧
      (s.dev.serves (cellKey st.val i.val c.val) = false →
        bawCount (s.dev.stk st.val).inForce ≤ (s.dev.recentActs st.val i.val t).length →
        Does (.streamActivation st i c t) s ((s.dev.useTurn st.val i.val t).bump (stackBase st.val + 0x058))))) ∧
  (∀ (s : State) (st : Stack) (i : Fin 16) (c : BankCell) (t : Nat) (x : BCell), t % 64 = c.val →
    x = s.dev.bcell (cellKey st.val i.val c.val) → x.refreshing = false → s.dev.stackRuns st.val = true →
    Tab.read (fun _ => 0) (s.dev.stk st.val).turnAt i.val ≤ t → x.phase = .streaming →
    (∀ r : Nat, (s.dev.segmentOpens st.val i.val c.val)[x.rowsAhead]? = some r →
      ((s.dev.recentActs st.val i.val t).length < bawCount ((s.dev.stk st.val).ruleOf i.val) →
        Does (.streamActivation st i c t) s
          ((s.dev.useTurn st.val i.val t).activate st.val i.val c.val t (some r))) ∧
      (bawCount ((s.dev.stk st.val).ruleOf i.val) ≤ (s.dev.recentActs st.val i.val t).length →
        Does (.streamActivation st i c t) s ((s.dev.useTurn st.val i.val t).bump (stackBase st.val + 0x058)))) ∧
    ((s.dev.segmentOpens st.val i.val c.val)[x.rowsAhead]? = none → Does (.streamActivation st i c t) s s.dev)) ∧
  (∀ (s : State) (st : Stack) (i : Fin 16) (c : BankCell) (t : Nat),
    (t % 64 ≠ c.val ∨ s.dev.stackRuns st.val = false ∨ t < Tab.read (fun _ => 0) (s.dev.stk st.val).turnAt i.val) →
    Does (.streamActivation st i c t) s s.dev) ∧
  (∀ (d : Dev) (st i t : Nat), d.useTurn st i t = d.modStk st (fun x => { x with
    bauNow := max x.bauNow t, turnAt := Tab.write (fun _ => 0) x.turnAt i (t + 1) })) ∧
  (∀ (d : Dev) (st i c t r : Nat), d.laterActs st i t = [] →
    d.activate st i c t (some r) = Dev.modBcell { d.modStk st (fun x => { x with
      acts := Tab.write (fun _ => []) x.acts i (d.recentActs st i t ++ [t])
      rowBufs := Tab.write (fun _ => none) x.rowBufs (i * 128 + r / 10240) none }) with
        served := d.served.filter (fun e => decide (e.1 ≠ cellKey st i c)) } (cellKey st i c) (fun x => { x with
        phase := .streaming, rowsAhead := x.rowsAhead + 1, waiting := x.waiting ++ x.late, late := [] }) ∧
    d.activate st i c t none = Dev.modBcell { d.modStk st (fun x => { x with
      acts := Tab.write (fun _ => []) x.acts i (d.recentActs st i t ++ [t]) }) with
        served := d.served.filter (fun e => decide (e.1 ≠ cellKey st i c)) } (cellKey st i c) (fun x => { x with
        phase := .streaming, waiting := x.waiting ++ x.late, late := [] })) ∧
  (∀ (s : State) (st : Stack) (i : Die) (c : BankCell) (ck : Nat) (x : BCell), s.dev.stackPresent st.val = true →
    s.dev.clk.stackAwake.getLsbD st.val = true → ck = cellKey st.val i.val c.val → x = s.dev.bcell ck →
    (x.ahead = true → Does (.refreshDue st i c) s (s.dev.setBcell ck { x with ahead := false })) ∧
    (x.ahead = false → x.phase ≠ .streaming → x.refreshing = false →
      (x.phase = .idle ∨ s.dev.cellDeltas st.val i.val c.val = false) →
      Does (.refreshDue st i c) s (s.dev.startRefresh st.val i.val c.val x)) ∧
    (x.ahead = false → x.phase ≠ .streaming →
      (x.refreshing = true ∨ (x.phase ≠ .idle ∧ s.dev.cellDeltas st.val i.val c.val = true)) →
      Does (.refreshDue st i c) s (s.dev.setBcell ck { x with due := x.due + 1 })) ∧
    (x.ahead = false → x.phase = .streaming → x.postponed < 4 →
      Does (.refreshDue st i c) s ((s.dev.setBcell ck { x with postponed := x.postponed + 1 }).bump
        (stackBase st.val + 0x038))) ∧
    (x.ahead = false → x.phase = .streaming → 4 ≤ x.postponed → x.refreshing = false →
      Does (.refreshDue st i c) s ((s.dev.startRefresh st.val i.val c.val x).bump (stackBase st.val + 0x030)))) ∧
  (∀ (d : Dev) (st i c : Nat) (x : BCell), d.startRefresh st i c x =
    (d.setBcell (cellKey st i c) { x with refreshing := true }).modStk st (fun y => { y with
      rowBufs := Tab.write (fun _ => none) (Tab.write (fun _ => none) y.rowBufs (i * 128 + 2 * c) none)
        (i * 128 + 2 * c + 1) none })) ∧
  (∀ (s : State) (st : Stack) (i : Die) (c : BankCell) (ck : Nat) (x : BCell), ck = cellKey st.val i.val c.val →
    x = s.dev.bcell ck → x.refreshing = true →
    (0 < x.due → Does (.refreshDone st i c) s (s.dev.setBcell ck { x with due := x.due - 1 })) ∧
    (x.due = 0 → ((x.phase ≠ .idle ∧ x.phase ≠ .wantTurn) ∨ x.waiting = []) →
      Does (.refreshDone st i c) s (s.dev.setBcell ck { x with refreshing := false }))) ∧
  (∀ (s : State) (st : Stack) (i : Fin 16) (c : BankCell) (ck : Nat) (x : BCell) (ref : Bool),
    ck = cellKey st.val i.val c.val → x = s.dev.bcell ck → x.refreshing = false → x.phase = .atYield ref →
    s.dev.cellDeltas st.val i.val c.val = false →
    (0 < x.due → Does (.yieldPoint st i c) s
      (s.dev.startRefresh st.val i.val c.val { x with due := x.due - 1, phase := .atYield ref })) ∧
    (x.due = 0 → 0 < x.postponed → Does (.yieldPoint st i c) s ((s.dev.startRefresh st.val i.val c.val { x with
      postponed := x.postponed - 1, phase := .atYield false }).bump (stackBase st.val + 0x028))) ∧
    (x.due = 0 → x.postponed = 0 → ref = true → x.ahead = false → Does (.yieldPoint st i c) s
      ((s.dev.startRefresh st.val i.val c.val { x with ahead := true, phase := .atYield false }).bump
        (stackBase st.val + 0x020))) ∧
    (x.due = 0 → x.postponed = 0 → (ref = false ∨ x.ahead = true) → Does (.yieldPoint st i c) s
      (((s.dev.setBcell ck { x with phase := .wantTurn, waiting := [] }).serveCell ck x.waiting).afterYield st.val i.val c.val
        x.holds))) ∧
  (∀ (s : State) (st : Stack) (i : Fin 16) (c : BankCell) (ck : Nat) (x : BCell) (ref : Bool),
    ck = cellKey st.val i.val c.val → x = s.dev.bcell ck → x.phase = .atYield ref →
    s.dev.cellDeltas st.val i.val c.val = true → Does (.yieldPoint st i c) s s.dev) ∧
  (∀ (s : State) (st : Stack) (i : Fin 16) (c : BankCell),
    (s.dev.bcell (cellKey st.val i.val c.val)).refreshing = true → Does (.yieldPoint st i c) s s.dev)

/-- Accesses of the conventional path (R165, R168, R169): a read that the stack cache answers, or whose cells are free, is
made at once and answered; one that meets a busy cell waits for it and is counted once; one of a locked stripe and a write
ask for the stripe's lock; DROP_KEEP ends the protection of every line. -/
def Obligations.BankAccesses : Prop :=
  (∀ (s : State) (who : Accessor) (hint : Hint) (addr : BitVec 48) (len : Nat) (l : Loc) (w : Who),
    wellFormed (.bankAccess who hint addr len none) = true → w = whoOf who hint →
    s.dev.decodeAddr addr.toNat = .at l → s.dev.barred w addr.toNat = none →
    (∀ (d1 : Dev) (bs : List Byte), s.dev.loadPiece w addr.toNat len = .ok (d1, bs) →
      Does (.bankAccess who hint addr len none) s { d1.unserve w.party with
        out := d1.out ++ [.accessDone who addr.toNat (some bs) false] }) ∧
    (∀ (ck : Nat) (p : Party) (a : Access), a = ⟨who, hint, addr.toNat, len, none⟩ →
      s.dev.loadPiece w addr.toNat len = .error (.busy [ck] p) →
      (s.dev.bcell ck).waiting.contains (.access a) = false → (s.dev.bcell ck).late.contains (.access a) = false →
      (s.dev.cellHeld ck = true → s.dev.awaits (.access a) = false →
        Does (.bankAccess who hint addr len none) s ((s.dev.modBcell ck (fun y => y.await (.access a))).bump
          (stackBase (ck / 1152) + 0x040))) ∧
      ((s.dev.cellHeld ck = false ∨ s.dev.awaits (.access a) = true) →
        Does (.bankAccess who hint addr len none) s (s.dev.modBcell ck (fun y => y.await (.access a))))) ∧
    (∀ q : Party, s.dev.loadPiece w addr.toNat len = .error (.stripe l.st l.stripe q) →
      Does (.bankAccess who hint addr len none) s (s.dev.requestLock l.st l.stripe (.read who hint addr.toNat len)))) ∧
  (∀ (s : State) (who : Accessor) (hint : Hint) (addr : BitVec 48) (bytes : List Byte) (l : Loc),
    wellFormed (.bankAccess who hint addr bytes.length (some bytes)) = true → s.dev.decodeAddr addr.toNat = .at l →
    s.dev.barred (whoOf who hint) addr.toNat = none →
    Does (.bankAccess who hint addr bytes.length (some bytes)) s (s.dev.requestLock l.st l.stripe
      (if bitAt addr.toNat 46 = false ∧ addr.toNat % 512 = 0 ∧ bytes.length = 512 then .full who hint addr.toNat bytes
       else .narrow who hint addr.toNat bytes))) ∧
  (∀ (s : State) (who : Accessor) (hint : Hint) (addr : BitVec 48) (len : Nat) (wdata : Option (List Byte)),
    wellFormed (.bankAccess who hint addr len wdata) = true → s.dev.decodeAddr addr.toNat = .none →
    Does (.bankAccess who hint addr len wdata) s s.dev) ∧
  (∀ (s : State) (st : Stack), s.dev.host.held = [] → s.dev.hostReady = true → s.dev.stackPresent st.val = true →
    Does (.dropKeep st) s ((s.dev.modStk st.val (fun x => { x with
      cache := x.cache.map (fun g => (g.1, g.2.map (fun n => { n with prot := false }))) })).modStk st.val (fun x =>
        { x with dropKeep := true }))) ∧
  (∀ (s : State) (st : Stack), s.dev.host.held = [] → s.dev.hostReady = false ∨ s.dev.stackPresent st.val = false →
    Does (.dropKeep st) s s.dev)

/-- Retrieval (R207, R209, R210): a merge keeps K candidates of its lists, the better of two first; the
region merges the lists of its stacks, writes the result, and completes or sends it to the root as a control message, unless
its step is being saved; a root's own list needs a place of its tag too; a list that arrives with a tag that has a place is
accepted, acknowledged and held, or merged by the root's scan of its tag, which keeps its place and completes with its last
list; a list without a place holds its sender and no other; a root
that still waits when its time is out is a region fault SCAN_MERGE_TIMEOUT. -/
def Obligations.ScanMerges : Prop :=
  (∀ (metric k : Nat) (a b : List Cand), (mergeCands metric k a b).length = min k (a.length + b.length) ∧
    ∀ c ∈ mergeCands metric k a b, c ∈ a ∨ c ∈ b) ∧
  (∀ (metric : Nat) (a b : Cand), mergeCands metric 1 [a] [b] = [if candBefore metric b a then b else a]) ∧
  (∀ (metric k : Nat) (l : List Cand), (listBytes metric k l).length = 16 * k) ∧
  (∀ (s : State) (r : Region) (k : Nat) (f : Flight) (l : List Cand) (d1 : Dev),
    s.dev.draining r.val = false → s.dev.mergeReady r.val = some (k, f) →
    l = ((s.dev.region r.val).scanned.filter (fun x => x.1 == k && x.2.1 == f.index)).foldl (fun a x =>
      mergeCands (OpWord.metric f.word) (OpWord.scanK f.word) a x.2.2) [] →
    d1 = (s.dev.modRegion r.val (fun x => { x with
      scanned := x.scanned.filter (fun y => !(y.1 == k && y.2.1 == f.index)) })).writeList k f.word f.raws l →
    (OpWord.rootEn f.word = false → Does (.scanRegionMerge r) s (d1.finish k f.index)) ∧
    (OpWord.rootEn f.word = true → OpWord.root f.word ≠ r.val → Does (.scanRegionMerge r) s
      (d1.sendFabric r.val (OpWord.root f.word) .ctrl (.scanList ⟨OpWord.tag f.word, l⟩ (k % 4) f.index))) ∧
    (OpWord.rootEn f.word = true → OpWord.root f.word = r.val →
      ∀ x : RootScan, x = ⟨k, f.index, f.word, OpWord.tag f.word, OpWord.scanK f.word, OpWord.nlist f.word, 1, l⟩ →
      Does (.scanRegionMerge r) s ((d1.modRegion r.val (fun y => { y with root := y.root ++ [x] })).rootAdvance r.val x))) ∧
  (∀ (s : State) (r : Region), (s.dev.draining r.val = true ∨ s.dev.mergeReady r.val = none) →
    Does (.scanRegionMerge r) s s.dev) ∧
  (∀ (s : State) (r : Region) (m : FabMsg) (l : TagList) (b i : Nat),
    s.dev.draining r.val = false → (s.dev.region r.val).nextList [] (s.dev.region r.val).arrived = some (m, l, b, i) →
    (s.dev.region r.val).root.find? (fun x => decide (x.tag = l.tag)) = none →
    Does (.scanListArrival r) s ((s.dev.setRegion r.val { s.dev.region r.val with
      arrived := (s.dev.region r.val).arrived.erase m
      lists := (s.dev.region r.val).lists ++ [(m.src, l, b, i)] }).sendFabric r.val m.src .rsp (.listAccepted b i))) ∧
  (∀ (s : State) (r : Region) (m : FabMsg) (l : TagList) (b i : Nat) (x : RootScan),
    s.dev.draining r.val = false → (s.dev.region r.val).nextList [] (s.dev.region r.val).arrived = some (m, l, b, i) →
    (s.dev.region r.val).root.find? (fun y => decide (y.tag = l.tag)) = some x →
    Does (.scanListArrival r) s (((s.dev.setRegion r.val { s.dev.region r.val with
      arrived := (s.dev.region r.val).arrived.erase m
      lists := (s.dev.region r.val).lists ++ [(m.src, l, b, i)] }).sendFabric r.val m.src .rsp
        (.listAccepted b i)).rootAdvance r.val x)) ∧
  (∀ (s : State) (r : Region), (s.dev.draining r.val = true ∨
      (s.dev.region r.val).nextList [] (s.dev.region r.val).arrived = none) → Does (.scanListArrival r) s s.dev) ∧
  (∀ (x : RegionSt) (pre post : List FabMsg) (m : FabMsg) (l : TagList) (b i : Nat), m.body = .scanList l b i →
    (∀ n ∈ pre, n.src = m.src → ∀ (l' : TagList) (b' i' : Nat), n.body ≠ .scanList l' b' i') →
    (x.tags.contains l.tag = true ∨ x.tags.length < 4) → x.nextList [] (pre ++ m :: post) ≠ none) ∧
  (∀ (x : RegionSt) (ms : List FabMsg) (m : FabMsg) (l : TagList) (b i : Nat), x.nextList [] ms = some (m, l, b, i) →
    m.body = .scanList l b i ∧ (x.tags.contains l.tag = true ∨ x.tags.length < 4) ∧
    ∃ pre post : List FabMsg, ms = pre ++ m :: post ∧
      ∀ n ∈ pre, n.src = m.src → ∀ (l' : TagList) (b' i' : Nat), n.body ≠ .scanList l' b' i') ∧
  (∀ (d : Dev) (r : Nat) (s s1 : RootScan) (x1 : RegionSt),
    ({ d.region r with root := (d.region r).root.erase s } : RegionSt).absorb s 16 = (x1, s1) →
    (s1.need ≤ s1.got → d.rootAdvance r s = ((d.setRegion r x1).writeList s1.blk s1.word
      ((((d.blk s1.blk).fly.find? (fun f => decide (f.index = s1.index))).map (·.raws)).getD []) s1.list).finish s1.blk
        s1.index) ∧
    (s1.got < s1.need → d.rootAdvance r s = d.setRegion r { x1 with
      root := (d.region r).root.map (fun y => if y = s then s1 else y) })) ∧
  (∀ (d : Dev) (r k : Nat) (f : Flight), d.mergeReady r = some (k, f) → OpWord.rootEn f.word = true → OpWord.root f.word = r →
    (d.region r).tags.contains (OpWord.tag f.word) = true ∨ (d.region r).tags.length < 4) ∧
  (∀ (x : RegionSt) (s : RootScan) (n : Nat) (l : Nat × TagList × Nat × Nat), s.got < s.need →
    x.lists.find? (fun l => decide (l.2.1.tag = s.tag)) = some l →
    x.absorb s (n + 1) = ({ x with lists := x.lists.erase l }).absorb { s with
      got := s.got + 1
      list := mergeCands (OpWord.metric s.word) s.k s.list (l.2.1.list.take s.k) } n) ∧
  (∀ (s : State) (r : Region), (s.dev.region r.val).root ≠ [] →
    Does (.scanMergeTimeout r) s (s.dev.regionFault r.val 0x44 6)) ∧
  (∀ (s : State) (r : Region), (s.dev.region r.val).root = [] → Does (.scanMergeTimeout r) s s.dev)

/-! ### Memory integrity (12_memory_integrity) -/

/-- Locks and writes (R306, R308, R309): a request for a free, consistent stripe is served at once; one for a locked stripe
waits behind the others, one that finds the table full, or others waiting for it, waits for an entry; a grant gives a
consistent stripe to its oldest waiter; a holder that must wait keeps the lock and its place, a narrow write keeps the lock
until its deltas are applied, every other holder releases it; a full-stripe write leaves the sixteen chunks and their check
symbols; a narrow write reads its old chunks, then writes each and sends its delta. Deltas (R154, R304, R305): the channel
grants the next requester after the one granted last; a check die applies the oldest granted delta that it has not applied
and whose check cell does not refresh: die 16 adds it, die 17 adds its multiple; the delta is gone when both have; a refresh
of the check cell holds its deltas. -/
def Obligations.StripeLocksAndDeltas : Prop :=
  (∀ (s : State) (who : Accessor) (addr : BitVec 48) (bytes : List Byte) (l : Loc),
    wellFormed (.fullStripeWrite who addr bytes) = true → s.dev.decodeAddr addr.toNat = .at l →
    s.dev.barred (whoOf who .stream) addr.toNat = none →
    Does (.fullStripeWrite who addr bytes) s (s.dev.requestLock l.st l.stripe (.full who .stream addr.toNat bytes))) ∧
  (∀ (s : State) (who : Accessor) (addr : BitVec 48) (bytes : List Byte) (l : Loc),
    wellFormed (.narrowWrite who addr bytes) = true → s.dev.decodeAddr addr.toNat = .at l →
    s.dev.barred (whoOf who .stream) addr.toNat = none →
    Does (.narrowWrite who addr bytes) s (s.dev.requestLock l.st l.stripe (.narrow who .stream addr.toNat bytes))) ∧
  (∀ (d : Dev) (st : Nat) (p : Stripe) (q : LockReq),
    (∀ k : Lock, (d.stk st).lockOf p = some k → d.requestLock st p q = (d.modStk st (fun x =>
      x.setLock p (some { k with waiters := k.waiters ++ [q] }))).serveStripe st p) ∧
    ((d.stk st).lockOf p = none → (96 ≤ (d.stk st).occupied ∨ (d.stk st).lockWait ≠ []) →
      d.requestLock st p q = d.modStk st (fun x => { x with lockWait := x.lockWait ++ [(p, q)] })) ∧
    ((d.stk st).lockOf p = none → (d.stk st).occupied < 96 → (d.stk st).lockWait = [] →
      d.requestLock st p q = (d.modStk st (fun x => x.setLock p (some ⟨p, false, false, [q]⟩))).serveStripe st p)) ∧
  (∀ (d : Dev) (st : Nat) (p : Stripe) (k : Lock) (q : LockReq) (rest : List LockReq), (d.stk st).lockOf p = some k →
    k.waiters = q :: rest → q.isParty = false →
    (k.held = false → d.consistent st p = true → d.serveStripe st p = d.serveLock st p k q) ∧
    ((k.held = true ∨ d.consistent st p = false) → d.serveStripe st p = d)) ∧
  (∀ (d : Dev) (st : Nat) (p : Stripe) (q : LockReq) (rest : List (Stripe × LockReq)),
    (d.stk st).lockWait = (p, q) :: rest → q.isParty = false →
    ((d.stk st).occupied < 96 → (d.stk st).lockOf p = none → d.admitLocks st = (d.modStk st (fun x =>
      { x with lockWait := rest }.setLock p (some ⟨p, false, false, [q]⟩))).serveStripe st p) ∧
    (96 ≤ (d.stk st).occupied → d.admitLocks st = d)) ∧
  (∀ (d d0 d1 d2 : Dev) (st : Nat) (p : Stripe) (l : Lock) (q : LockReq),
    d0 = d.modStk st (fun x => x.setLock p none) → d0.lockWork st p q = .ok d1 →
    d2 = (d1.unserve (q.behind st)).modStk st (fun x => x.setLock p (some ⟨p, true, false, l.waiters.erase q⟩)) →
    ((∀ (a : Accessor) (h : Hint) (addr : Nat) (bytes : List Byte), q ≠ .narrow a h addr bytes) →
      d.serveLock st p l q = d2.unlock st p) ∧
    (∀ (a : Accessor) (h : Hint) (addr : Nat) (bytes : List Byte), q = .narrow a h addr bytes →
      (d2.consistent st p = true → d.serveLock st p l q = d2.unlock st p) ∧
      (d2.consistent st p = false → d.serveLock st p l q = d2))) ∧
  (∀ (d d0 : Dev) (st : Nat) (p : Stripe) (l : Lock) (q : LockReq) (e : Stop),
    d0 = d.modStk st (fun x => x.setLock p none) → d0.lockWork st p q = .error e →
    (e.waits = true → d.serveLock st p l q = (d.modStk st (fun x =>
      x.setLock p (some { l with taken := true, waiters := q :: l.waiters.erase q }))).lockStopped st q e) ∧
    (e.waits = false → d.serveLock st p l q = ((d.modStk st (fun x =>
      x.setLock p (some { l with held := true, waiters := l.waiters.erase q }))).lockStopped st q e).unlock st p)) ∧
  (∀ (d : Dev) (st : Nat) (p : Stripe) (a : Accessor) (h : Hint) (addr : Nat) (bytes : List Byte),
    d.cellsFree (whoOf a h) (bankCells st p.bank (List.range 18)) = .ok () →
    d.lockWork st p (.full a h addr bytes) = (((List.range 18).foldl (fun x i =>
      x.openRow st i p.bank p.row) d).putStripe st p ((List.range 16).map (fun i => slice bytes (32 * i) 32))
        (whoOf a h).flips).afterWrite (whoOf a h) addr [] bytes) ∧
  (∀ (d : Dev) (st : Nat) (p : Stripe) (cs : List (List Byte)) (flips : Bool),
    d.putStripe st p cs flips = (List.range 18).foldl (fun a i =>
      a.writeChunk st i p ((cs ++ [chunkP cs, chunkQ cs]).getD i []) flips) d) ∧
  (∀ (d d0 d1 : Dev) (st : Nat) (p : Stripe) (a : Accessor) (h : Hint) (addr : Nat) (bytes base : List Byte),
    d.lineBefore (whoOf a h) addr bytes.length = .ok (d0, base) →
    d0.narrowSteps (whoOf a h) (chunkCuts addr bytes 17) = .ok d1 →
    d.lockWork st p (.narrow a h addr bytes) = (d1.bump (stackBase st + 0x118)).afterWrite (whoOf a h) addr base bytes) ∧
  (∀ (d d1 : Dev) (w : Who) (ps : List (Nat × List Byte)) (cs : List Cover),
    d.cellsFree w ((d.placesOf ps).flatMap (fun l => bankCells l.st l.bank [l.die])) = .ok () →
    d.oldChunks w ps = .ok (d1, cs) → d.narrowSteps w ps = .ok (cs.foldl (fun a c => a.sendCover w.flips c) d1)) ∧
  (∀ (d d1 d2 : Dev) (w : Who) (addr : Nat) (bytes old : List Byte) (r : List (Nat × List Byte)) (l : Loc)
    (cs : List Cover), d.decodeAddr addr = .at l → d.goodChunk w l.st l.stripe l.die = .ok (d1, old) →
    d1.oldChunks w r = .ok (d2, cs) → d.oldChunks w ((addr, bytes) :: r) = .ok (d2, (l, old, bytes) :: cs)) ∧
  (∀ (d : Dev) (flips : Bool) (l : Loc) (old bytes new : List Byte), new = overlay old bytes (l.byte % 32) →
    d.sendCover flips (l, old, bytes) = (d.writeChunk l.st l.die l.stripe new flips).modStk l.st (fun x => { x with
      deltas := x.deltas ++ [⟨x.deltaSeq, l.stripe, l.die, 1024, xorBytes old new, false, false, false⟩]
      deltaSeq := x.deltaSeq + 1 })) ∧
  (∀ (d : Dev) (st : Nat) (p : Stripe) (k : Lock), (d.stk st).lockOf p = some k →
    (k.waiters = [] → d.unlock st p = d.modStk st (fun x =>
      { x with locks := x.locks.filter (fun y => decide (y.stripe ≠ p)) })) ∧
    (k.waiters ≠ [] → d.unlock st p = d.modStk st (fun x => x.setLock p (some { k with held := false, taken := false })))) ∧
  (∀ (s : State) (st : Stack) (bank : Fin 128) (row : Fin 20480) (chunk : Fin 64) (p : Stripe) (k : Lock) (q : LockReq)
    (rest : List LockReq) (e : Dev), p = ⟨bank.val, row.val, chunk.val⟩ → (s.dev.stk st.val).lockOf p = some k →
    k.waiters = q :: rest → q.isParty = false → k.held = false → s.dev.consistent st.val p = true →
    e = (s.dev.serveLock st.val p k q).admitLocks st.val →
    Does (.stripeLockGrant st bank row chunk) s (e.tryRows st.val (e.stk st.val).rowWait)) ∧
  (∀ (s : State) (st : Stack) (bank : Fin 128) (row : Fin 20480) (chunk : Fin 64) (p : Stripe) (k : Lock),
    p = ⟨bank.val, row.val, chunk.val⟩ → (s.dev.stk st.val).lockOf p = some k →
    (k.held = true ∨ s.dev.consistent st.val p = false) → (s.dev.stk st.val).lockWait = [] →
    (s.dev.stk st.val).rowWait = [] → Does (.stripeLockGrant st bank row chunk) s s.dev) ∧
  (∀ (s : State) (st : Stack) (x : Delta), (s.dev.stk st.val).nextDelta = some x →
    Does (.deltaGrant st) s (s.dev.modStk st.val (fun y =>
      { y with deltas := y.deltas.erase x ++ [{ x with granted := true }], deltaPtr := x.cell }))) ∧
  (∀ (s : State) (st : Stack), (s.dev.stk st.val).nextDelta = none → Does (.deltaGrant st) s s.dev) ∧
  (∀ (x : StackSt) (g : Delta), x.nextDelta = some g → g ∈ x.deltas ∧ g.granted = false ∧
    x.buffered g.stripe.bank < 32 ∧
    ∀ y ∈ x.deltas, y.granted = false → x.buffered y.stripe.bank < 32 →
      (g.cell + 1025 - x.deltaPtr - 1) % 1025 ≤ (y.cell + 1025 - x.deltaPtr - 1) % 1025) ∧
  (∀ (s : State) (st : Stack) (x : Delta) (d1 : Dev), s.dev.dueDelta st.val 0 = some x →
    d1 = Dev.writeChunkAs (if s.dev.chunkBad st.val 16 x.stripe then s.dev.bump (stackBase st.val + 0x0F0) else s.dev)
      st.val 16 x.stripe (xorBytes (s.dev.chunk st.val 16 x.stripe) x.bytes) true
        (s.dev.xparity (s.dev.chunkKey st.val 16 x.stripe)) →
    Does (.deltaApply st 0) s ((d1.modStk st.val (fun z => { z with
      deltas := if x.doneQ then z.deltas.filter (fun y => decide (y.num ≠ x.num))
        else z.deltas.map (fun y => if y.num = x.num then { x with doneP := true } else y) })).settle st.val x.stripe)) ∧
  (∀ (s : State) (st : Stack) (x : Delta) (d1 : Dev), s.dev.dueDelta st.val 1 = some x →
    d1 = Dev.writeChunkAs (if s.dev.chunkBad st.val 17 x.stripe then s.dev.bump (stackBase st.val + 0x0F0) else s.dev)
      st.val 17 x.stripe (xorBytes (s.dev.chunk st.val 17 x.stripe) (scaleChunk x.bytes x.die)) true
        (s.dev.xparity (s.dev.chunkKey st.val 17 x.stripe)) →
    Does (.deltaApply st 1) s ((d1.modStk st.val (fun z => { z with
      deltas := if x.doneP then z.deltas.filter (fun y => decide (y.num ≠ x.num))
        else z.deltas.map (fun y => if y.num = x.num then { x with doneQ := true } else y) })).settle st.val x.stripe)) ∧
  (∀ (d : Dev) (st j : Nat) (x : Delta), d.dueDelta st j = some x → x ∈ (d.stk st).deltas ∧ x.granted = true ∧
    (if j = 0 then x.doneP = false else x.doneQ = false) ∧
    (d.bcell ((st * 18 + (16 + j)) * 64 + x.stripe.bank / 2)).refreshing = false) ∧
  (∀ (s : State) (st : Stack) (j : Fin 2), (∀ x ∈ (s.dev.stk st.val).deltas, x.granted = true →
      (s.dev.bcell ((st.val * 18 + (16 + j.val)) * 64 + x.stripe.bank / 2)).refreshing = true) →
    Does (.deltaApply st j) s s.dev)

/-- Repair (R302, R313, R317, R318): reconstruction and the scrubber take the lock of a stripe; reconstruction reads every
die of the stripe and writes the corrected chunks of the failing dies back (log 39); the scrubber reads all eighteen chunks,
writes back those the decoder corrects and counts; once the stripe is consistent and its cells can be reached, a stripe that
no code corrects is repaired from its mirror, else from the twin's bytes, else lost to its waits, and its lock is released,
unless a row repair holds it. -/
def Obligations.StripeRepair : Prop :=
  (∀ (s : State) (st : Stack) (bank : Fin 128) (row : Fin 20480) (chunk : Fin 64) (p : Stripe),
    p = ⟨bank.val, row.val, chunk.val⟩ →
    ((s.dev.badDies st.val p ≠ [] ∨ (s.dev.stk st.val).waitsOf p ≠ []) →
      Does (.reconstruction st bank row chunk) s (s.dev.requestLock st.val p .recon)) ∧
    (s.dev.badDies st.val p = [] → (s.dev.stk st.val).waitsOf p = [] →
      Does (.reconstruction st bank row chunk) s s.dev)) ∧
  (∀ (d : Dev) (st : Nat) (p : Stripe), d.badDies st p = [] → d.lockWork st p .recon = .ok (d.ueForget st p)) ∧
  (∀ (d d1 : Dev) (st i : Nat) (r : List Nat) (p : Stripe), d.badDies st p = i :: r →
    d.cellsFree (reconWho st) (bankCells st p.bank (List.range 18)) = .ok () →
    d1 = Dev.rereads ((List.range 18).foldl (fun a j => (a.openRow st j p.bank p.row).retried st j p) d) st p →
    (∀ good : List (List Byte), decodeStripe (d1.stripeChunks st p) (d1.badDies st p) = some good →
      d.lockWork st p .recon = .ok (((((d1.badDies st p).foldl (fun a j =>
        (a.putChunk st j p (good.getD j []) 0).invalidate st p j) d1).modStk st (fun x =>
          { x with reconDie := some i })).bump (stackBase st + 0x0F8)).ueForget st p)) ∧
    (∀ (u : UeWait) (ws : List UeWait), decodeStripe (d1.stripeChunks st p) (d1.badDies st p) = none →
      (d1.stk st).waitsOf p = u :: ws → d1.mirrorReady (reconWho st) st p = .ok () →
      (∀ d2 : Dev, d1.mirrorRepair st p u.src = some d2 → d.lockWork st p .recon = .ok (d2.ueForget st p)) ∧
      (d1.mirrorRepair st p u.src = none → d1.twinSource st p = true → d.lockWork st p .recon = .error (.repair st p)))) ∧
  (∀ (s : State) (st : Stack) (i : Nat) (p : Stripe), s.dev.regsLive = true →
    (s.dev.chip.state ≠ .fault ∨ s.dev.chip.startErr = 0) → s.dev.stackPresent st.val = true →
    (s.dev.stk st.val).scrubEn = true → s.dev.clk.stackAwake.getLsbD st.val = true → i = (s.dev.stk st.val).scrubPos →
    p = ⟨i / 64 % 128, i / 8192, i % 64⟩ →
    Does (.scrubVisit st) s (Dev.requestLock (s.dev.modStk st.val (fun x =>
      { x with scrubPos := (i + 1) % 167772160 })) st.val p .scrub)) ∧
  (∀ (s : State) (st : Stack), (s.dev.stk st.val).scrubEn = false → Does (.scrubVisit st) s s.dev) ∧
  (∀ (d d1 : Dev) (st : Nat) (p : Stripe) (good : List (List Byte)) (fix : List Nat),
    d.cellsFree (scrubWho st) (bankCells st p.bank (List.range 18)) = .ok () →
    d1 = (Dev.rereads ((List.range 18).foldl (fun a i => (a.openRow st i p.bank p.row).retried st i p) d) st p).bump
      (stackBase st + 0x100) → d1.poisoned st p = false →
    decodeStripe (d1.stripeChunks st p) (d.badDies st p) = some good →
    fix = (List.range 18).filter (fun i => (d.badDies st p).contains i || decide (good.getD i [] ≠ d1.chunk st i p)) →
    (fix = [] → d.lockWork st p .scrub = .ok d1) ∧
    (fix ≠ [] → d.lockWork st p .scrub = .ok ((fix.foldl (fun a i =>
      (a.putChunk st i p (good.getD i []) 0).invalidate st p i) d1).bump (stackBase st + 0x108)))) ∧
  (∀ (s : State) (st : Stack) (bank : Fin 128) (row : Fin 20480) (chunk : Fin 64) (twin : Option (List Byte)) (p : Stripe),
    wellFormed (.stripeRepair st bank row chunk twin) = true → p = ⟨bank.val, row.val, chunk.val⟩ →
    s.dev.consistent st.val p = true → s.dev.mirrorReady (reconWho st.val) st.val p = .ok () →
    s.dev.cellsFree (reconWho st.val) (bankCells st.val p.bank (List.range 18)) = .ok () →
    Does (.stripeRepair st bank row chunk twin) s ((((s.dev.unserve (reconWho st.val).party).repaired st.val p
      twin).unlockRepaired st.val p).admitLocks st.val)) ∧
  (∀ (d : Dev) (st : Nat) (p : Stripe), ((d.stk st).rowHeld = none → d.unlockRepaired st p = d.unlock st p) ∧
    (∀ die : Nat, (d.stk st).rowHeld = some (die, p.bank, p.row) → d.unlockRepaired st p = d)) ∧
  (∀ (s : State) (st : Stack) (bank : Fin 128) (row : Fin 20480) (chunk : Fin 64) (twin : Option (List Byte)),
    wellFormed (.stripeRepair st bank row chunk twin) = true →
    s.dev.consistent st.val ⟨bank.val, row.val, chunk.val⟩ = false → Does (.stripeRepair st bank row chunk twin) s s.dev) ∧
  (∀ (d : Dev) (st : Nat) (p : Stripe) (twin : Option (List Byte)), d.uncorrectable st p = false →
    d.repaired st p twin = d.ueForget st p) ∧
  (∀ (d : Dev) (st : Nat) (p : Stripe) (twin : Option (List Byte)) (u : UeWait) (ws : List UeWait),
    d.uncorrectable st p = true → (d.stk st).waitsOf p = u :: ws →
    (∀ d1 : Dev, d.mirrorRepair st p u.src = some d1 → d.repaired st p twin = d1.ueForget st p) ∧
    (∀ bytes : List Byte, d.mirrorRepair st p u.src = none → twin = some bytes → d.twinSource st p = true →
      d.repaired st p twin = (d.twinRepair st p bytes u.src).ueForget st p) ∧
    (ws = [] → d.mirrorRepair st p u.src = none → twin = none → d.repaired st p twin = d.loseWait st u))

/-- Rows, flips and the logs (R319, R320, R321, R323): a row that fails its read-back waits until the stripes of the row are
free, consistent and 64 lock entries are left; then they are locked, and it goes to a fresh spare, is logged and counted,
waits with its locks for a busy cell, and with no spare its range is retired; then the stripes are free again; FLIP_CTL
keeps DIE while armed and never takes one above 17; a read of a log gives the oldest entry and OVERFLOW, and takes both
away. -/
def Obligations.RowsAndLogs : Prop :=
  (∀ (s : State) (st : Stack) (die : Die) (bank : Fin 128) (row : Fin 20480) (q : Nat × Nat × Nat) (d1 d2 : Dev),
    s.dev.stackPresent st.val = true → s.dev.regsLive = true → (s.dev.chip.state ≠ .fault ∨ s.dev.chip.startErr = 0) →
    q = (die.val, bank.val, row.val) → (s.dev.stk st.val).rowWait.contains q = false →
    (s.dev.stk st.val).rowHeld ≠ some q →
    d1 = s.dev.modStk st.val (fun x => { x with rowWait := x.rowWait ++ [q] }) →
    d2 = d1.modStk st.val (fun x => x.lockRow q) →
    (((s.dev.stk st.val).rowHeld ≠ none ∨ 32 < (s.dev.stk st.val).occupied ∨ ∃ p ∈ rowStripes bank.val row.val,
        d1.stripeLocked st.val p = true ∨ d1.consistent st.val p = false) → Does (.rowRepair st die bank row) s d1) ∧
    ((s.dev.stk st.val).rowHeld = none → (s.dev.stk st.val).occupied ≤ 32 → (∀ p ∈ rowStripes bank.val row.val,
        d1.stripeLocked st.val p = false ∧ d1.consistent st.val p = true) →
      (d2.spares st.val die.val bank.val = [] →
        Does (.rowRepair st die bank row) s ((d2.retireRange st.val die.val bank.val row.val).freeRow st.val q)) ∧
      (∀ (k : Nat) (rest : List Nat), d2.spares st.val die.val bank.val = k :: rest →
        (∀ d3 : Dev, d2.cellsFree (rowWho st.val) (bankCells st.val bank.val [die.val]) = .ok () →
          d2.rescueRow st.val die.val (rowStripes bank.val row.val) = .ok d3 →
          Does (.rowRepair st die bank row) s ((d3.moveRow st.val die.val bank.val row.val k).freeRow st.val q)) ∧
        (∀ (cs : List Nat) (w : Party), d2.cellsFree (rowWho st.val) (bankCells st.val bank.val [die.val]) =
            .error (.busy cs w) →
          Does (.rowRepair st die bank row) s (d2.awaitCells cs (.party w)))))) ∧
  (∀ (x : StackSt) (q : Nat × Nat × Nat), (x.lockRow q).rowHeld = some q ∧
    ∀ p ∈ rowStripes q.2.1 q.2.2, ∃ l : Lock, (x.lockRow q).lockOf p = some l ∧ l.held = true) ∧
  (∀ (d : Dev) (st : Nat) (q : Nat × Nat × Nat), d.freeRow st q = Dev.admitLocks
    ((rowStripes q.2.1 q.2.2).foldl (fun a p => a.unlock st p) (Dev.unserve (d.modStk st (fun x => { x with
      rowHeld := none
      rowWait := x.rowWait.erase q
      ueWait := x.ueWait.filter (fun u => decide (u.src ≠ .rowRepair)) })) (rowWho st).party)) st) ∧
  (∀ (d : Dev) (st die bank row k : Nat), d.moveRow st die bank row k =
    (Dev.modStk (((rowStripes bank row).map (fun p => (p, d.chunk st die p, d.xparity (d.chunkKey st die p)))).foldl
      (fun a q => a.putChunk st die q.1 q.2.1 q.2.2) (d.pointRow st die bank row k)) st (fun x =>
        x.logRemap (remapWord die bank row k (d.spareOf st die bank row)))).bump (stackBase st + 0x120)) ∧
  (∀ (d : Dev) (st die bank k : Nat) (rest : List Nat), d.spares st die bank = k :: rest →
    k < 64 ∧ Tab.read (fun _ => false) (d.stk st).retired ((die * 128 + bank) * 64 + k) = false) ∧
  (∀ (s : State) (st : Stack) (v : Word) (x : StackSt), s.dev.host.held = [] → wellFormed (.flipArm st v) = true →
    s.dev.hostReady = true →
    s.dev.stackPresent st.val = true → x = s.dev.stk st.val →
    Does (.flipArm st v) s (s.dev.setStk st.val { x with
      parityAfter := bitAt v.toNat 8
      flipDie := if x.flipArm || decide (17 < fieldAt v.toNat 0 5) then x.flipDie else fieldAt v.toNat 0 5
      flipArm := x.flipArm || bitAt v.toNat 31 })) ∧
  (∀ (s : State) (st : Stack) (w : BitVec 64) (rest : List (BitVec 64)), s.dev.host.held = [] → s.dev.reaches .host = true →
    s.dev.stackPresent st.val = true → (s.dev.stk st.val).remapLog = w :: rest →
    Does (.remapLogRead st) s ((s.dev.setStk st.val { (s.dev.stk st.val) with remapLog := rest, remapLost := false }).emit
      (.readDone 0 (stackBase st.val + 0x0D8)
        (bytesOf (w ||| (if (s.dev.stk st.val).remapLost then 0x4000000000000000 else 0)).toNat 8) false))) ∧
  (∀ (s : State) (st : Stack) (w : BitVec 64) (rest : List (BitVec 64)), s.dev.host.held = [] → s.dev.reaches .host = true →
    s.dev.stackPresent st.val = true → (s.dev.stk st.val).retireLog = w :: rest →
    Does (.pageRetireLogRead st) s ((s.dev.setStk st.val { (s.dev.stk st.val) with
      retireLog := rest, retireLost := false }).emit (.readDone 0 (stackBase st.val + 0x0E0)
        (bytesOf (w ||| (if (s.dev.stk st.val).retireLost then 0x4000000000000000 else 0)).toNat 8) false))) ∧
  (∀ (s : State) (st : Stack), s.dev.host.held = [] → s.dev.reaches .host = false →
    Does (.remapLogRead st) s s.dev ∧ Does (.pageRetireLogRead st) s s.dev)

/-! ### Serving, bundles and steps (08_serving, 09_domains_preemption) -/

/-- Commands of a request entry (R217, R218, R219, R235, R237): a command is taken and refused with the code of its first
failing check, or takes effect: SUBMIT queues the entry, CANCEL of an entry in no step frees its granules and ends it, and
waits for the commit of one in a step or for its delivery (which pages a copy that it stops has moved is free, R236, log 103),
PARK reserves its granules in place of those of an earlier one, and begins its copy or waits for the commit, RESUME begins
its copy, RELEASE frees an ended entry. An entry whose
command is another keeps still. -/
def Obligations.RequestCommands : Prop :=
  (∀ (s : State) (i : ReqNo), s.dev.commanded i.val 1 = true → s.dev.reqBad i.val = false →
    s.dev.submitCode (s.dev.req i.val) = 0 →
    Does (.submit i) s ((Dev.setState { ((s.dev.modReq i.val (fun x => { x with cmd := 0 })).modReq i.val (fun x =>
      x.submitted s.dev.now s.dev.serve.orders)) with serve.orders := s.dev.serve.orders + 1 } i.val .queued).accepted
        i.val)) ∧
  (∀ (s : State) (i : ReqNo) (code : Nat), s.dev.commanded i.val 1 = true → s.dev.reqBad i.val = false →
    s.dev.submitCode (s.dev.req i.val) = code →
    code ≠ 0 → Does (.submit i) s ((s.dev.modReq i.val (fun x => { x with cmd := 0 })).refuse i.val code)) ∧
  (∀ (d : Dev) (x : Req), x.state ≠ .free → d.submitCode x = 2) ∧
  (∀ (s : State) (i : ReqNo) (d1 : Dev), s.dev.commanded i.val 2 = true → s.dev.reqBad i.val = false →
    d1 = s.dev.modReq i.val (fun x => { x with cmd := 0 }) →
    ((s.dev.req i.val).state = .free → Does (.cancel i) s (d1.refuse i.val 2)) ∧
    ((s.dev.req i.val).state = .complete → Does (.cancel i) s
      (((d1.modReq i.val (fun x => { x with cancelLate := true })).changed i.val).accepted i.val)) ∧
    ((s.dev.req i.val).state = .cancelled ∨ (s.dev.req i.val).state = .parkExpired →
      Does (.cancel i) s (d1.accepted i.val)) ∧
    ((s.dev.req i.val).state ≠ .free → (s.dev.req i.val).state.ended = false → s.dev.inStep i.val = false →
      (s.dev.req i.val).ackWait = false → Does (.cancel i) s
        (((((d1.partCopied i.val).dropGranules i.val).modReq i.val (fun x => { x with parkAt := false })).setState i.val
          .cancelled).accepted i.val)) ∧
    ((s.dev.req i.val).state ≠ .free → (s.dev.req i.val).state.ended = false →
      (s.dev.inStep i.val = true ∨ (s.dev.req i.val).ackWait = true) →
      Does (.cancel i) s ((d1.modReq i.val (fun x => { x with cancelAt := true })).accepted i.val))) ∧
  (∀ (d : Dev) (i : Nat), (d.req i).state ≠ .parking → (d.req i).state ≠ .resuming → d.partCopied i = d) ∧
  (∀ (d d1 : Dev) (i : Nat) (b : Bundle), ((d.req i).state = .parking ∨ (d.req i).state = .resuming) →
    d.bundleOf (d.req i).domain (d.req i).bundle = some b →
    d.drawn.copyRequest (d.req i) b (Config.freeBit d.free) = .ok d1 → d.partCopied i = d1) ∧
  (∀ (s : State) (i : ReqNo), s.dev.reqBad i.val = true →
    (s.dev.commanded i.val 1 = true → Does (.submit i) s (s.dev.chipFault 0x82)) ∧
    (s.dev.commanded i.val 2 = true → Does (.cancel i) s (s.dev.chipFault 0x82)) ∧
    (s.dev.commanded i.val 3 = true → Does (.park i) s (s.dev.chipFault 0x82)) ∧
    (s.dev.commanded i.val 4 = true → Does (.resume i) s (s.dev.chipFault 0x82)) ∧
    (s.dev.commanded i.val 5 = true → Does (.release i) s (s.dev.chipFault 0x82))) ∧
  (∀ (d d1 d2 : Dev) (i : Nat) (x : Req) (b : Bundle) (rs : List Nat),
    d1 = d.setState i .parking → x = d1.req i → d.bundleOf x.domain x.bundle = some b →
    d1.copyRegions x b = .ok (d2, rs) →
    d.parkStarts i .parking = rs.foldl Dev.wakeUnit (d2.modReq i (fun y => { y with copyOn := rs }))) ∧
  (∀ (s : State) (i : ReqNo) (b : Bundle) (d0 d1 d2 d3 : Dev) (k need : Nat), s.dev.commanded i.val 3 = true →
    s.dev.reqBad i.val = false →
    d1 = s.dev.modReq i.val (fun x => { x with cmd := 0 }) → (s.dev.req i.val).state = .active →
    s.dev.bundleOf (s.dev.req i.val).domain (s.dev.req i.val).bundle = some b →
    d1.filledGroups (s.dev.req i.val) b ((s.dev.req i.val).groupsMax b) = .ok (d2, k) →
    need = k * b.idsPerGroup * granulesPer b.pageShape → d0 = d2.dropGranules i.val →
    d3 = Dev.modReq { d0 with
      serve.granulesUsed := ((d0.freeGranules.take need).foldl (fun l g => insertNat g l) d0.serve.granulesUsed) } i.val
        (fun y => { y with granules := d0.freeGranules.take need }) →
    (d0.freeGranules.length < need → Does (.park i) s (d2.refuse i.val 8)) ∧
    (need ≤ d0.freeGranules.length → s.dev.inStep i.val = false → (s.dev.req i.val).ackWait = false →
      Does (.park i) s ((d3.parkStarts i.val .parking).accepted i.val)) ∧
    (need ≤ d0.freeGranules.length → (s.dev.inStep i.val = true ∨ (s.dev.req i.val).ackWait = true) →
      Does (.park i) s ((d3.modReq i.val (fun y => { y with parkAt := true })).accepted i.val))) ∧
  (∀ (s : State) (i : ReqNo), s.dev.commanded i.val 3 = true → s.dev.reqBad i.val = false →
    (s.dev.req i.val).state ≠ .active →
    Does (.park i) s ((s.dev.modReq i.val (fun x => { x with cmd := 0 })).refuse i.val 2)) ∧
  (∀ (s : State) (i : ReqNo) (b : Bundle) (d2 : Dev) (k : Nat), s.dev.commanded i.val 4 = true → s.dev.reqBad i.val = false →
    (s.dev.req i.val).state = .parked →
    s.dev.bundleOf (s.dev.req i.val).domain (s.dev.req i.val).bundle = some b →
    (s.dev.modReq i.val (fun x => { x with cmd := 0 })).filledGroups (s.dev.req i.val) b
      (ceilDiv (s.dev.req i.val).pos (shapePositions b.pageShape)) = .ok (d2, k) →
    (k * shapePositions b.pageShape < (s.dev.req i.val).pos → Does (.resume i) s (d2.refuse i.val 9)) ∧
    ((s.dev.req i.val).pos ≤ k * shapePositions b.pageShape →
      Does (.resume i) s ((d2.parkStarts i.val .resuming).accepted i.val))) ∧
  (∀ (s : State) (i : ReqNo), s.dev.commanded i.val 4 = true → s.dev.reqBad i.val = false →
    (s.dev.req i.val).state ≠ .parked →
    Does (.resume i) s ((s.dev.modReq i.val (fun x => { x with cmd := 0 })).refuse i.val 2)) ∧
  (∀ (s : State) (i : ReqNo), s.dev.commanded i.val 5 = true → s.dev.reqBad i.val = false →
    (s.dev.req i.val).state.ended = true →
    Does (.release i) s ((((s.dev.modReq i.val (fun x => { x with cmd := 0 })).modReq i.val (fun x => { x with
      refused := false, ringFull := false, needPages := false, needBudget := false, missed := false, maxlen := false
      eos := false, cancelLate := false })).setState i.val .free).accepted i.val)) ∧
  (∀ (s : State) (i : ReqNo), s.dev.commanded i.val 5 = true → s.dev.reqBad i.val = false →
    (s.dev.req i.val).state.ended = false →
    Does (.release i) s ((s.dev.modReq i.val (fun x => { x with cmd := 0 })).refuse i.val 2)) ∧
  (∀ (s : State) (i : ReqNo), (s.dev.req i.val).cmd = 0 → Does (.submit i) s s.dev ∧ Does (.cancel i) s s.dev ∧
    Does (.park i) s s.dev ∧ Does (.resume i) s s.dev ∧ Does (.release i) s s.dev)

/-- Delivery, the park pool, customers (R221, R223, R231, R235, R294, R369): tokens go to the output ring, and the delivery
then ends, unless the twin has not acknowledged it or the page's pennant holds it, which is counted once; packing and
expansion move the pages of the filled groups, 16-bit elements through FP8, and change the state; a parked request whose
elapsed time has reached its limit ends; a credit adds up to the greatest value; SERVE_KICK lets
the domains of its bits compose. -/
def Obligations.DeliveryAndCustomers : Prop :=
  (∀ (s : State) (i : ReqNo) (d1 : Dev), s.dev.engineRuns = true → s.dev.reqBad i.val = false →
    (s.dev.req i.val).delivery ≠ [] →
    (s.dev.req i.val).ackWait = false →
    s.dev.putTokens (s.dev.req i.val) (s.dev.req i.val).outWrite (s.dev.req i.val).delivery = .ok d1 →
    Does (.tokenDelivery i) s (d1.delivered i.val)) ∧
  (∀ (s : State) (i : ReqNo), (s.dev.req i.val).ackWait = true → s.dev.reqBad i.val = false →
    Does (.tokenDelivery i) s s.dev) ∧
  (∀ (s : State) (i : ReqNo) (p : Nat) (d1 : Dev), s.dev.engineRuns = true → s.dev.reqBad i.val = false →
    (s.dev.req i.val).delivery ≠ [] →
    (s.dev.req i.val).ackWait = false →
    s.dev.putTokens (s.dev.req i.val) (s.dev.req i.val).outWrite (s.dev.req i.val).delivery = .error (.page p) →
    d1 = { s.dev with host.waits := if s.dev.host.waits.contains p then s.dev.host.waits else s.dev.host.waits ++ [p] } →
    Does (.tokenDelivery i) s ((if (s.dev.req i.val).waited then d1 else d1.bump 0x1010).modReq i.val (fun y =>
      { y with waited := true }))) ∧
  (∀ (s : State) (i : ReqNo) (b : Bundle) (d1 d2 : Dev) (rs : List Nat),
    s.dev.bundleOf (s.dev.req i.val).domain (s.dev.req i.val).bundle = some b → s.dev.engineRuns = true →
    s.dev.reqBad i.val = false →
    s.dev.copyRegions (s.dev.req i.val) b = .ok (d1, rs) →
    ((∀ r ∈ rs, d1.unitAwake r = true ∧ d1.stateMoves r = false) →
      d1.copyRequest (s.dev.req i.val) b (fun _ => true) = .ok d2 →
      ((s.dev.req i.val).state = .parking → Does (.packingDone i) s ((d2.modReq i.val (fun y =>
        { y with since := some s.dev.now, copyOn := [] })).drawn.setState i.val .parked)) ∧
      ((s.dev.req i.val).state = .resuming → Does (.expansionDone i) s ((((d2.modReq i.val (fun y =>
        { y with since := some s.dev.now, copyOn := [] })).dropGranules i.val).setState i.val .active).prompt
          (s.dev.req i.val).domain))) ∧
    ((∀ r ∈ rs, d1.unitAwake r = true) → (∃ r ∈ rs, d1.stateMoves r = true) →
      ((s.dev.req i.val).state = .parking → Does (.packingDone i) s s.dev) ∧
      ((s.dev.req i.val).state = .resuming → Does (.expansionDone i) s s.dev)) ∧
    ((∃ r ∈ rs, d1.unitAwake r = false) → (s.dev.req i.val).state = .parking →
      Does (.packingDone i) s (rs.foldl Dev.wakeUnit (d1.modReq i.val (fun y => { y with copyOn := rs }))))) ∧
  (∀ (d : Dev) (r n : Nat), d.domainOf r = some n → (d.stateMoves r = true ↔ (d.dom n).act = .switching ∨
    (d.dom n).act = .saving ∨ (d.dom n).act = .restoring)) ∧
  (∀ (d d1 : Dev) (x : Req) (b : Bundle) (ids : List Nat) (expand : Bool) (held : Nat) (ps : List (Nat × List Nat)),
    expand = decide (x.state = .resuming) → held = x.granules.length / (max 1 (b.idsPerGroup * granulesPer b.pageShape)) →
    d.pageIds x b (if expand then min held (ceilDiv x.pos (shapePositions b.pageShape)) else held) = .ok (d1, ids) →
    ps = (List.range ids.length).map (fun j =>
      (ids.getD j 0, (x.granules.drop (granulesPer b.pageShape * j)).take (granulesPer b.pageShape))) →
    d.copyRequest x b (fun _ => true) = d1.copyPages expand b.pageShape ps) ∧
  (∀ (d d1 : Dev) (shape id : Nat) (gs : List Nat) (ps : List (Nat × List Nat)),
    (d.packPage shape id gs = .ok d1 → d.copyPages false shape ((id, gs) :: ps) = d1.copyPages false shape ps) ∧
    (d.expandPage shape id gs = .ok d1 → d.copyPages true shape ((id, gs) :: ps) = d1.copyPages true shape ps)) ∧
  (∀ (d d1 : Dev) (shape id : Nat) (gs : List Nat) (bs : List Byte),
    (d.loadRuns (copyWho id) (pageRuns id) = .ok (d1, bs) →
      d.packPage shape id gs = d1.storeGranules gs (if bitAt shape 2 then bs else packBytes bs)) ∧
    (d.loadGranules gs = .ok (d1, bs) →
      d.expandPage shape id gs = d1.storePage (copyWho id) id (if bitAt shape 2 then bs else widenBytes bs))) ∧
  (∀ (s : State) (i : ReqNo), (s.dev.req i.val).state = .active → Does (.packingDone i) s s.dev ∧
    Does (.expansionDone i) s s.dev ∧ (s.dev.reqBad i.val = false → Does (.parkTtlExpire i) s s.dev)) ∧
  (∀ (s : State) (i : ReqNo), s.dev.engineRuns = true → s.dev.reqBad i.val = true →
    Does (.tokenDelivery i) s (s.dev.chipFault 0x82) ∧ Does (.parkTtlExpire i) s (s.dev.chipFault 0x82)) ∧
  (∀ (s : State) (i : ReqNo), s.dev.engineRuns = true → s.dev.reqBad i.val = false → (s.dev.req i.val).state = .parked →
    (s.dev.req i.val).ttl ≠ 0 →
    (25000 * (s.dev.req i.val).ttl ≤ (s.dev.req i.val).elapsed s.dev.now →
      Does (.parkTtlExpire i) s ((s.dev.dropGranules i.val).setState i.val .parkExpired)) ∧
    ((s.dev.req i.val).elapsed s.dev.now < 25000 * (s.dev.req i.val).ttl → Does (.parkTtlExpire i) s s.dev)) ∧
  (∀ (s : State) (c : CustNo) (n : Word), s.dev.host.held = [] → s.dev.hostReady = true → c.val < s.dev.img.str.customers →
    Does (.custCredit c n) s ((s.dev.credit c.val n.toNat).promptAll)) ∧
  (∀ (d : Dev) (c n : Nat), (d.cust c).available + n ≤ 0xFFFFFFFF →
    d.credit c n = d.setCust c { (d.cust c) with available := (d.cust c).available + n }) ∧
  (∀ (d : Dev) (c n : Nat), 0xFFFFFFFF < (d.cust c).available + n → (d.cust c).sat = false →
    d.credit c n = (d.setCust c { (d.cust c) with available := 0xFFFFFFFF, sat := true }).saturated (0x440000 + 64 * c)) ∧
  (∀ (s : State) (v : Word), s.dev.host.held = [] → s.dev.hostReady = true →
    ∃ e : Dev, Does (.serveKick v) s e ∧ e = { s.dev with doms := e.doms } ∧
      ∀ n : Nat, e.dom n = if n < 12 ∧ bitAt v.toNat n = true then { (s.dev.dom n) with wantCompose := true }
        else s.dev.dom n)

/-- Bundles (R240, R241, R247): ADMIT judges the descriptor in the order of Table 2, and measures and keeps a good
bundle; RETIRE takes a bundle away that nothing uses; each ends with its code; EN of DOM_PREEMPT sets only where the
image lets the domain be pre-empted and every save slot exists and fits. (The bytes that are measured are the model's
reading, log 31; that the code is BAD_MAGIC where no descriptor decodes, log 67.) -/
def Obligations.BundleCommands : Prop :=
  (∀ (s : State) (n : Nat) (d1 d2 : Dev) (bs : List Byte), s.dev.engineRuns = true → s.dev.bcmd.busy = true →
    s.dev.bcmd.op = 1 → n = s.dev.bcmd.domain → (s.dev.domEnt n).isSome = true →
    s.dev.load (s.dev.sliceWho n) s.dev.bcmd.addr.toNat 1024 = .ok (d1, bs) →
    d2 = (d1.unserve (s.dev.sliceWho n).party).wakeDomain n →
    (fieldOf bs 0 4 ≠ 0x444E424B → Does .admitBundle s (d2.bundleEnd 1)) ∧
    (fieldOf bs 0 4 = 0x444E424B → s.dev.admitCode n bs = 0 ∨
      Does .admitBundle s (d2.bundleEnd (s.dev.admitCode n bs))) ∧
    (∀ (b : Bundle) (d3 d4 : Dev) (text : List Byte), fieldOf bs 0 4 = 0x444E424B → s.dev.admitCode n bs = 0 →
      b = descOf bs (s.dev.regionsOf n) →
      d2.imageTexts (s.dev.sliceWho n) (b.regions.flatMap (fun r => r.2.2)) = .ok (d3, text) →
      d4 = (d3.unserve (s.dev.sliceWho n).party).setResident n b.num (some { b with digest := sha384 (bs ++ text) }) →
      Does .admitBundle s { (d4.bundleEnd 0) with sec := d4.sec.append ⟨4, n, b.num, 0, 0, sha384 (bs ++ text)⟩ })) ∧
  (∀ (d : Dev) (n : Nat) (bs : List Byte), (d.domEnt n).isNone = true → d.admitCode n bs = 2) ∧
  (∀ (s : State), s.dev.bcmd.busy = false → Does .admitBundle s s.dev ∧ Does .retire s s.dev) ∧
  (∀ (s : State) (n b : Nat), s.dev.engineRuns = true → s.dev.bcmd.busy = true → s.dev.bcmd.op = 2 →
    n = s.dev.bcmd.domain → b = s.dev.bcmd.bundle →
    (s.dev.domEnt n = none → Does .retire s (s.dev.bundleEnd 2)) ∧
    ((s.dev.domEnt n).isSome = true → s.dev.bundleOf n b = none →
      Does .retire s (s.dev.bundleEnd 8)) ∧
    ((s.dev.domEnt n).isSome = true → (s.dev.bundleOf n b).isSome = true → s.dev.bundleUsed n b = true →
      Does .retire s (s.dev.bundleEnd 7)) ∧
    (∀ x : Bundle, (s.dev.domEnt n).isSome = true → s.dev.bundleOf n b = some x → s.dev.bundleUsed n b = false →
      Does .retire s { ((s.dev.modDom n (fun y => { y with
        resident := y.resident.filter (fun e => decide (e.1 ≠ b)) })).bundleEnd 0) with
          sec := s.dev.sec.append ⟨5, n, b, 0, 0, x.digest⟩ })) ∧
  (∀ (d : Dev) (code : Nat), d.bundleEnd code = { d with
    bcmd.busy := false, bcmd.code := code, ec.inbox := d.ec.inbox ++ [⟨10, true⟩] }) ∧
  (∀ (s : State) (n : Domain) (v : Word) (fits : Bool), s.dev.host.held = [] → s.dev.hostReady = true →
    fits = ((s.dev.domEnt n.val).any (fun e => e.preempt) && s.dev.slotsExist n.val &&
      (s.dev.dom n.val).resident.all (fun e => s.dev.slotsFit n.val e.2)) →
    Does (.domPreemptWrite n v) s ((s.dev.modDom n.val (fun x =>
      { x with minPrio := fieldAt v.toNat 2 3, preemptEn := v.getLsbD 0 && fits })).tryPreempt n.val))

/-- Steps (R83, R222, R223, R227, R28): a domain at a boundary composes from its eligible requests and takes their
DEADLINE (log 89), at most 256 slices;
with none placed it is idle; a phase is released when its regions are awake and its images loaded, and its
blocks start at the entry point, pre-emption being judged anew; STEP_END stops a block, and the last one of a draft phase
brings the next phase, but none in the chip state FAULT. -/
def Obligations.StepsOfADomain : Prop :=
  (∀ (s : State) (n : Domain) (d1 d2 : Dev) (l : List Elig), s.dev.mayCompose n.val = true → s.dev.clk.coast = false →
    s.dev.composeBad n.val = false →
    (s.dev.takeDeadlines n.val).eligibles (s.dev.reqsOf n.val) = .ok (d1, l) →
    d1.composeFrom n.val l = .ok d2 → Does (.compose n) s d2) ∧
  (∀ (s : State) (n : Domain), s.dev.mayCompose n.val = true → s.dev.clk.coast = false → s.dev.composeBad n.val = true →
    Does (.compose n) s (moved { s.dev with chip.faultCode := 0x82 } .fault)) ∧
  (∀ (s : State) (n : Domain), s.dev.mayCompose n.val = true → s.dev.clk.coast = false → s.dev.reqsOf n.val = [] →
    (s.dev.dom n.val).susp = [] → Does (.compose n) s (s.dev.modDom n.val (fun x => { x with wantCompose := false }))) ∧
  (∀ (s : State) (n : Domain), s.dev.mayCompose n.val = false → Does (.compose n) s s.dev) ∧
  (∀ (d : Dev) (l : List Elig), slicesOf (d.placeGen 0 l).2 ≤ 256) ∧
  (∀ (s : State) (n : Domain) (x : Step) (b : Bundle) (d1 : Dev), s.dev.clk.coast = false →
    (s.dev.dom n.val).step = some x → s.dev.bundleOf n.val x.bundle = some b → x.released = false →
    ((s.dev.dom n.val).act = .idle ∨ (s.dev.dom n.val).act = .running ∨ (s.dev.dom n.val).act = .switching) →
    (s.dev.dom n.val).stopped = false → (s.dev.dom n.val).wedged = false → s.dev.domainAwake n.val = true →
    s.dev.imagesLoad n.val = false → s.dev.chip.state = .ready → s.dev.prepare n.val b x = .ok d1 →
    Does (.phaseRelease n) s ((Dev.modDom ((d1.regionsOf n.val).foldl (fun a r => a.startRegion (x.entry b) r)
      ((d1.unserve (s.dev.sliceWho n.val).party).setRounds n.val [])) n.val (fun y => { y with
        act := .running, step := y.step.map (fun z => { z with released := true }) })).tryPreempt n.val)) ∧
  (∀ (s : State) (n : Domain), (s.dev.dom n.val).step = none → Does (.phaseRelease n) s s.dev) ∧
  (∀ (s : State) (r : Region) (b : Blk) (k : Nat) (f : Flight), k = 4 * r.val + b.val → s.dev.ready k 0x32 = some f →
    OpWord.setEn f.word = false → s.dev.domainOf r.val = none →
    Does (.stepEnd r b) s ((s.dev.modBlk k (fun x => { x with st := .idle, arrived := true, fly := [] })).bump
      (blockBase (k / 4) (k % 4) + 0x20))) ∧
  (∀ (s : State) (r : Region) (b : Blk) (k n : Nat) (f : Flight) (d1 d2 : Dev), k = 4 * r.val + b.val →
    s.dev.ready k 0x32 = some f → OpWord.setEn f.word = false → s.dev.domainOf r.val = some n →
    d1 = (s.dev.modBlk k (fun x => { x with st := .idle, arrived := true, fly := [] })).bump
      (blockBase (k / 4) (k % 4) + 0x20) → d1.phaseEnd n = .ok d2 → Does (.stepEnd r b) s d2) ∧
  (∀ (d : Dev) (n : Nat) (x : Step), (d.dom n).step = some x → d.allArrived n = false → d.phaseEnd n = .ok d) ∧
  (∀ (d : Dev) (n : Nat) (x : Step), (d.dom n).step = some x → d.chip.state = .fault → d.phaseEnd n = .ok d) ∧
  (∀ (d : Dev) (n : Nat) (x : Step), (d.dom n).step = some x → d.allArrived n = true → (d.dom n).stopped = false →
    d.chip.state ≠ .fault → (d.dom n).wedged = false → x.released = true → (d.dom n).act = .running → x.phase ≠ 0 →
    d.phaseEnd n = .ok (((d.regionsOf n).foldl (fun a r => a.zeroFlags r) d).modDom n (fun y => { y with
      step := some { x with phase := if x.phase < x.lmax then x.phase + 1 else 0, released := false } }))) ∧
  (∀ (s : State) (r : Region) (b : Blk), s.dev.ready (4 * r.val + b.val) 0x32 = none → Does (.stepEnd r b) s s.dev)

/-- Suspension and the stall (R84, R85, R245, R246, R248, R251, R253): when every operation that must end has ended, the
blocks stop, receives that have taken nothing are withdrawn, the wait is recorded and counted, the queues of the regions
are drained, and the domain saves, region by region; a save copies the live state into the slot and the step area, and
the last one ends the step's hold on the domain; the suspended step continues when its regions are awake and its images
loaded, its memory restored, its scan lists merged, its blocks woken and the wait of its requests counted; a domain whose
blocks all wait on flags that nothing can set records DOMAIN_STALL in every region and is wedged. (The tile step at which
an engine stops is free, log 66; the forms of the records and of the slot are the model's, logs 32 and 33; the UNIT, log
43.) -/
def Obligations.SuspensionAndStall : Prop :=
  (∀ (s : State) (n : Domain) (u : Susp) (rest : List Susp) (d1 d2 : Dev), (s.dev.dom n.val).susp = u :: rest →
    (s.dev.dom n.val).act = .suspending → s.dev.domainLives n.val = true →
      (s.dev.blocksOf n.val).any (fun k => (s.dev.blk k).fly.any Flight.mustEnd) = false →
    d1 = (s.dev.blocksOf n.val).foldl (fun a k =>
      (a.partWays k).modBlk k (fun b => if b.st = .running then { b with st := .suspended } else b)) s.dev →
    d2 = (u.step.reqs.foldl (fun a i => a.bump (0x440000 + 64 * (a.req i).customer + 0x18)) d1).bump (0x450400 + 0x10 * n.val) →
    Does (.suspendComplete n) s ((s.dev.regionsOf n.val).foldl (fun a r => a.drainSlots r)
      ((d2.withdrawRecvs n.val).modDom n.val (fun y => { y with
        act := .saving, suspendTime := s.dev.now - u.since, susp := { u with level := u.step.prio } :: rest })))) ∧
  (∀ (s : State) (n : Domain), ((s.dev.dom n.val).act ≠ .suspending ∨ (s.dev.dom n.val).susp = [] ∨
      s.dev.domainLives n.val = false ∨ ∃ k ∈ s.dev.blocksOf n.val, ∃ f ∈ (s.dev.blk k).fly, f.mustEnd = true) →
      Does (.suspendComplete n) s s.dev) ∧
  (∀ (f : Flight), f.mustEnd = true ↔ f.done = false ∧ (OpWord.opcode f.word = 0x28 ∨
    ((OpWord.opcode f.word = 0x29 ∨ OpWord.opcode f.word = 0x31) ∧ f.begun = true))) ∧
  (∀ (d : Dev) (n : Nat), d.domainLives n = true ↔
    (d.dom n).stopped = false ∧ (d.dom n).wedged = false ∧ d.chip.state = .ready) ∧
  (∀ (d d0 d1 : Dev) (k o t : Nat) (f : Flight) (p : Plan), o ≠ 0x11 → d.ready k o = some f →
    d.flightPlan (f.op k) f.pos = some (d0, p) →
    t = f.pos + Config.order d.free 0 % (p.steps (f.op k) - f.pos + 1) → f.pos ≤ p.steps (f.op k) →
    d0.runPlan (f.op k) f.index (p.between (f.op k) f.pos t) d.free = .ok (d1, false) →
    f.pos ≤ t ∧ t ≤ p.steps (f.op k) ∧ d.partWay k o = d1.drawn.modFlight k f.index (fun x => { x with pos := t })) ∧
  (∀ (d : Dev) (k o : Nat), d.ready k o = none → d.partWay k o = d) ∧
  (∀ (d : Dev) (n : Nat), (∀ k ∈ d.blocksOf n, (d.blk k).fly = []) → d.withdrawRecvs n = d) ∧
  (∀ (s : State) (r : Region) (n : Nat) (u : Susp) (rest : List Susp) (b : Bundle) (d1 : Dev) (x : SavedRegion)
    (area : List Byte) (all : Bool), s.dev.domainOf r.val = some n → (s.dev.dom n).susp = u :: rest →
    s.dev.bundleOf n u.step.bundle = some b → (s.dev.dom n).act = .saving → s.dev.domainLives n = true →
    u.regions.any (fun y => y.region == r.val) = false → s.dev.regionQuiet r.val = true →
    s.dev.saveMemory n r.val u.level b = .ok (d1, x, area) →
    all = (s.dev.regionsOf n).all (fun q => q == r.val || u.regions.any (fun y => y.region == q)) →
    Does (.saveComplete r) s ((d1.clearRegion r.val b).modDom n (fun y => { y with
      susp := match y.susp with
        | v :: more => { v with regions := x :: v.regions, area := area } :: more
        | [] => []
      act := if all then .idle else .saving
      step := if all then none else y.step
      wantCompose := y.wantCompose || all }))) ∧
  (∀ (d d0 d1 d2 d3 d4 : Dev) (n r level : Nat) (b : Bundle) (live other : List (List Byte)) (area : List Byte),
    d0 = d.queuesChecked r → d0.readPieces (d0.slotPieces r b) = .ok (d1, live) →
    d1.readPieces (d0.queuePieces r) = .ok (d2, other) → d2.writeSlot n r level live.flatten = .ok d3 →
    d3.loadOver (d.sliceWho n) [(b.stepArea, 0x8000)] = .ok (d4, area) →
    d.saveMemory n r level b = .ok (d4, d0.savedRegion r b ((d0.queuePieces r).zip other), area)) ∧
  (∀ (s : State) (r : Region), (s.dev.domainOf r.val = none ∨ s.dev.regionQuiet r.val = false ∨
      ∃ n : Nat, s.dev.domainOf r.val = some n ∧ s.dev.domainLives n = false) → Does (.saveComplete r) s s.dev) ∧
  (∀ (d : Dev) (r : Nat) (b : Bundle) (p : Piece), p ∈ d.slotPieces r b ↔ (p ∈ d.livePieces r b) ∨
    (∃ (j c n : Nat) (f : Flight), j < 4 ∧ f ∈ (d.blk (4 * r + j)).fly ∧ c ∈ cellsOf (4 * r + j) (f.op (4 * r + j)).w.mask ∧
      n ∈ (f.op (4 * r + j)).reads ++ (f.op (4 * r + j)).writes ∧ c / 32 = r ∧
      p = ⟨true, c, d.bufregBase c n, d.bufregSize c n⟩)) ∧
  (∀ (s : State) (n : Domain) (u : Susp) (rest : List Susp) (d1 d2 : Dev), (s.dev.dom n.val).susp = u :: rest →
    (s.dev.dom n.val).act = .restoring → s.dev.domainLives n.val = true →
    s.dev.domainAwake n.val = true → s.dev.imagesLoad n.val = false → s.dev.restoreStep n.val u = .ok d1 →
    d2 = (d1.setRounds n.val []).modDom n.val (fun y => { y with
      act := .running, step := some u.step, susp := y.susp.tail }) →
    Does (.suspendedStepContinue n) s ((u.step.reqs.foldl (fun a i => a.bumpBy (0x440000 + 64 * (a.req i).customer + 0x10)
      (d1.now - u.since)) ((d2.regionsOf n.val).foldl (fun a r =>
        (a.mergeKept r (a.region r).scanned.length).wakeBlocks r) (d2.rejoinRecvs n.val))).tryPreempt n.val)) ∧
  (∀ (d d1 : Dev) (n : Nat) (u : Susp) (b : Bundle), d.restoreRegions n u.level u.regions = .ok d1 →
    d1.bundleOf n u.step.bundle = some b →
    d.restoreStep n u = d1.storeOver (d.sliceWho n) [(b.stepArea, u.area.length)] u.area) ∧
  (∀ (d d1 : Dev) (n level : Nat) (x : SavedRegion) (xs : List SavedRegion), d.restoreRuns n level x = .ok d1 →
    d.restoreRegions n level (x :: xs) = (d1.restoreRecords x).restoreRegions n level xs) ∧
  (∀ (d : Dev) (r j : Nat), r < 12 → j < 4 → (d.wakeBlocks r).blk (4 * r + j) =
    if (d.blk (4 * r + j)).st = .suspended then { d.blk (4 * r + j) with st := .running } else d.blk (4 * r + j)) ∧
  (∀ (s : State) (n : Domain), ((s.dev.dom n.val).susp = [] ∨ (s.dev.dom n.val).act ≠ .restoring ∨
    s.dev.domainLives n.val = false ∨ s.dev.domainAwake n.val = false ∨ s.dev.imagesLoad n.val = true) →
    Does (.suspendedStepContinue n) s s.dev) ∧
  (∀ (s : State) (n : Domain), s.dev.stalls n.val = true → Does (.domainStall n) s
    (((s.dev.regionsOf n.val).foldl (fun a r => a.recordFault r 0x4B r 7) s.dev).modDom n.val (fun x =>
      { x with wedged := true }))) ∧
  (∀ (d : Dev) (n : Nat), (d.dom n).act = .running → d.chip.state ≠ .fault → (d.dom n).stopped = false →
    (d.dom n).wedged = false → (∀ k ∈ d.blocksOf n, (d.blk k).fly = [] ∧
      ((d.blk k).acts = true ∧ (d.blk k).wait.isSome = true ∨ (d.blk k).arrived = true)) →
    (∃ k ∈ d.blocksOf n, (d.blk k).acts = true ∧ (d.blk k).wait.isSome = true) → d.stalls n = true) ∧
  (∀ (d : Dev) (n k : Nat) (f : Flight), k ∈ d.blocksOf n → f ∈ (d.blk k).fly → f.mayset = true → d.stalls n = false) ∧
  (∀ (s : State) (n : Domain), s.dev.stalls n.val = false → Does (.domainStall n) s s.dev)

/-! ### The twin link, shadows and promotion (11_fabric_links, 19_faults_failover) -/

/-- Attachment (R287, R288, R290, R456, R491): an attempt begins with the twin present in READY, sends the role, the
digest and the list of areas, and is refused while promoted requests live; an answer of the same role ends it with TRAIN,
one that does not match with MISMATCH, and one that matches attaches; detaching discards the stream and the held
deliveries and keeps whether the shadow was synced. (When the digest and the list are sent is the model's reading, log
68.) -/
def Obligations.TwinAttachment : Prop :=
  (∀ (s : State), s.dev.host.held = [] → s.dev.hostReady = true → s.dev.twin.st = 0 → s.dev.twin.present = true →
    s.dev.chip.state = .ready →
    s.dev.clk.coast = false → s.dev.promotedLive = 0 →
    Does .twinAttach s { s.dev with twin.st := 1, ec.inbox := s.dev.ec.inbox ++ [⟨8, true⟩]
                                    out := s.dev.out ++ [.twinHello ⟨s.dev.chip.straps.twinRole, s.dev.twinDigest⟩ s.dev.mirrorAreas] }) ∧
  (∀ (s : State), s.dev.host.held = [] → s.dev.hostReady = true → s.dev.twin.st = 0 → s.dev.twin.present = true →
    s.dev.chip.state = .ready →
    s.dev.clk.coast = false → s.dev.promotedLive ≠ 0 → Does .twinAttach s { s.dev with twin.code := 6 }) ∧
  (∀ (s : State), s.dev.host.held = [] → s.dev.twin.present = false → Does .twinAttach s s.dev) ∧
  (∀ (s : State) (h : TwinHello) (areas : List MirrorArea), wellFormed (.twinAttached h areas) = true →
    s.dev.twin.st = 1 → s.dev.clk.coast = false →
    (h.role = s.dev.chip.straps.twinRole → Does (.twinAttached h areas) s { s.dev with
      twin.code := 7, twin.st := 0, ec.inbox := s.dev.ec.inbox ++ [⟨8, true⟩] }) ∧
    (h.role ≠ s.dev.chip.straps.twinRole → (h.digest ≠ s.dev.twinDigest ∨ s.dev.shadowsMatch areas = false) →
      Does (.twinAttached h areas) s { s.dev with
        twin.code := 6, twin.st := 0, ec.inbox := s.dev.ec.inbox ++ [⟨8, true⟩] })) ∧
  (∀ (s : State) (h : TwinHello) (areas : List MirrorArea), wellFormed (.twinAttached h areas) = true →
    s.dev.twin.st = 1 → s.dev.clk.coast = false → h.role ≠ s.dev.chip.straps.twinRole → h.digest = s.dev.twinDigest →
    s.dev.shadowsMatch areas = true → Does (.twinAttached h areas) s (Dev.fullCopy { s.dev with
      twin.stream := [], twin.backlog := 0, twin.acks := [], twin.synced := false, twin.shadow := [], twin.linkBeat := false
      twin.edgeBeat := false, twin.everAttached := true, twin.st := 2, ec.inbox := s.dev.ec.inbox ++ [⟨8, true⟩] })) ∧
  (∀ (s : State) (h : TwinHello) (areas : List MirrorArea), wellFormed (.twinAttached h areas) = true →
    s.dev.twin.st ≠ 1 → Does (.twinAttached h areas) s s.dev) ∧
  (∀ (s : State) (why : AttachFail), s.dev.twin.st = 1 → Does (.attachFailure why) s { s.dev with
    twin.code := if why = .train then 7 else 6, twin.st := 0, ec.inbox := s.dev.ec.inbox ++ [⟨8, true⟩] }) ∧
  (∀ (d : Dev) (code : Nat), d.twin.st = 2 → ∃ e : Dev, d.detach code = e ∧
    e.twin = { d.twin with
      st := 0, code := code, promotable := d.twin.synced, synced := false, stream := [], backlog := 0, acks := []
      copyAt := none, posts := d.twin.posts.filter (fun x => decide (x ≠ .ack)) } ∧
    e = { d with twin := e.twin, ec := e.ec, chip := e.chip, counters := e.counters, serve := e.serve } ∧
    e.serve = { d.serve with reqs := e.serve.reqs }) ∧
  (∀ (d : Dev) (code : Nat), d.twin.st ≠ 2 → d.detach code = d) ∧
  (∀ (s : State), s.dev.host.held = [] → s.dev.hostReady = true → Does .twinDetach s (s.dev.detach 5)) ∧
  (∀ (s : State) (seq : BitVec 32) (step : BitVec 16) (n : BitVec 4) (parts : List TwinPart),
    .record seq step n false parts ∈ s.dev.twin.stream → Does .ackTimeout s (s.dev.detach 4)) ∧
  (∀ (s : State), (∀ (seq : BitVec 32) (step : BitVec 16) (n : BitVec 4) (parts : List TwinPart),
    .record seq step n false parts ∉ s.dev.twin.stream) → Does .ackTimeout s s.dev) ∧
  (∀ (s : State) (level : Bool), s.dev.twin.present = level →
    Does (.twinPresentInChange level) s { s.dev with pins.twinPresentIn := level }) ∧
  (∀ (s : State), s.dev.regsLive = true → s.dev.twin.present = true → s.dev.twin.st = 2 →
    Does (.twinPresentInChange false) s (Dev.detach { s.dev with pins.twinPresentIn := false, twin.present := false } 1))

/-- Heartbeats and replays (R272, R273, R289, R290, R482): heartbeats are sent while attached; edges and link heartbeats
that arrive are noted; a time with a link heartbeat starts another, one with edges alone ends with LINK, one with neither
with HEARTBEAT; a replay is counted, one that succeeds ends its flit's failures (log 35), which each channel of a fabric
link counts for itself, and the eighth failure in a row on a bond is a region fault; the twin link is a link from the
training of an attach on. -/
def Obligations.HeartbeatsAndReplays : Prop :=
  (∀ (s : State), s.dev.twin.st = 2 → s.dev.clk.coast = false →
    Does .twinHeartbeatSend s { s.dev with out := s.dev.out ++ [.twinHeartbeat] } ∧
    Does .linkHeartbeatArrival s { s.dev with twin.linkBeat := true }) ∧
  (∀ (s : State), s.dev.twin.st ≠ 2 → Does .twinHeartbeatSend s s.dev ∧ Does .linkHeartbeatArrival s s.dev ∧
    Does .heartbeatTimeout s s.dev) ∧
  (∀ (s : State), s.dev.hbDriven = true → Does .twinHbToggle s { s.dev with twin.hbOut := !s.dev.twin.hbOut }) ∧
  (∀ (s : State), s.dev.hbDriven = false → Does .twinHbToggle s s.dev) ∧
  (∀ (s : State) (level : Bool), s.dev.twin.hbLevel ≠ level → Does (.twinHbInEdge level) s { s.dev with
    pins.twinHbIn := level, twin.hbLevel := level, twin.edgeBeat := s.dev.twin.edgeBeat || decide (s.dev.twin.st = 2) }) ∧
  (∀ (s : State), s.dev.twin.st = 2 → s.dev.twin.linkBeat = true →
    Does .heartbeatTimeout s { s.dev with twin.linkBeat := false, twin.edgeBeat := false }) ∧
  (∀ (s : State), s.dev.twin.st = 2 → s.dev.twin.linkBeat = false → s.dev.twin.edgeBeat = true →
    Does .heartbeatTimeout s (s.dev.detach 3)) ∧
  (∀ (s : State), s.dev.twin.st = 2 → s.dev.twin.linkBeat = false → s.dev.twin.edgeBeat = false →
    Does .heartbeatTimeout s (s.dev.detach 2)) ∧
  (∀ (s : State) (l : Link) (c : Fin 25) (k : Nat), k = linkKey l c → s.dev.linkRuns l = true →
    Does (.linkReplay ⟨l, c, false⟩) s { (s.dev.bump (replaysAt l)) with
      net.fails := Tab.write (fun _ => 0) s.dev.net.fails k 0 } ∧
    (Tab.read (fun _ => 0) s.dev.net.fails k < 7 → Does (.linkReplay ⟨l, c, true⟩) s { (s.dev.bump (replaysAt l)) with
      net.fails := Tab.write (fun _ => 0) s.dev.net.fails k (Tab.read (fun _ => 0) s.dev.net.fails k + 1) })) ∧
  (∀ (l m : Link) (b c : Fin 25), linkKey l b = linkKey m c → l = m ∧
    ((∃ (r : Router) (dir : Fin 6), l = .fabric r dir) → b = c)) ∧
  (∀ (d : Dev), d.linkRuns .twin = (!d.clk.coast && d.regsLive && decide (d.twin.st ≠ 0))) ∧
  (∀ (s : State) (st : Stack) (c : Fin 25), s.dev.linkRuns (.bond st) = true →
    Tab.read (fun _ => 0) s.dev.net.fails (linkKey (.bond st) c) = 7 →
    Does (.linkReplay ⟨.bond st, c, true⟩) s (Dev.regionFault { (s.dev.bump (stackBase st.val + 0x098)) with
      net.fails := Tab.write (fun _ => 0) s.dev.net.fails (linkKey (.bond st) c) 0 } (st.val / 2) 0x41 6)) ∧
  (∀ (s : State) (l : Link) (c : Fin 25) (failed : Bool), s.dev.linkRuns l = false →
    Does (.linkReplay ⟨l, c, failed⟩) s s.dev)

/-- The mirror stream and promotion (R292, R293, R294, R296, R453, R454): a record of the twin's stream is applied to the
shadow table, written to its area in memory (its form is free, log 7), and acknowledged; an acknowledgement ends the oldest
record with every write before it, or the copy, and lets the deliveries held for its step go, whose last ends the step's
wait; a repair read answers data, or a refusal where its address does not decode (log 34); TWIN_PROMOTE refuses by the first
condition that fails, and else promotes the entries of its source domain in order, each logged and its slot emptied. -/
def Obligations.MirrorAndPromotion : Prop :=
  (∀ (s : State) (seq : BitVec 32) (step : BitVec 16) (n : BitVec 4) (c : Bool) (parts : List TwinPart),
    wellFormed (.twinRecordApply (.record seq step n c parts)) = true → s.dev.twin.st = 2 → s.dev.clk.coast = false →
    Does (.twinRecordApply (.record seq step n c parts)) s
      ((parts.foldl (fun a p => a.applyPart step n.toNat p) s.dev).post .ack)) ∧
  (∀ (s : State) (a : BitVec 48) (bs : List Byte), wellFormed (.twinRecordApply (.write a bs)) = true →
    s.dev.twin.st = 2 → s.dev.clk.coast = false → s.dev.inShadow a.toNat = true →
    Does (.twinRecordApply (.write a bs)) s (s.dev.post (.bytes a.toNat bs))) ∧
  (∀ (d d0 : Dev) (a : Nat) (bs : List Byte), d.twin.posts = [] → d0 = { d with twin.posts := [.bytes a bs] } →
    (∀ d1 : Dev, d0.store postWho a bs = .ok d1 →
      d.post (.bytes a bs) = { (d1.unserve postWho.party) with twin.posts := [] }) ∧
    (∀ (cks : List Nat) (p : Party), d0.store postWho a bs = .error (.busy cks p) →
      d.post (.bytes a bs) = d0.awaitCells cks (.party p))) ∧
  (∀ (d : Dev), d.twin.posts = [] → d.twin.st = 2 → d.post .ack = d.emit .twinAck) ∧
  (∀ (s : State) (a : BitVec 48) (bs : List Byte), wellFormed (.twinRecordApply (.write a bs)) = true →
    s.dev.inShadow a.toNat = false → Does (.twinRecordApply (.write a bs)) s s.dev) ∧
  (∀ (d : Dev) (step : BitVec 16) (n : Nat) (p : TwinPart), d.shadowAddr p.entry = none →
    Shadow.state ⟨n, step, p.req, d.partToken p⟩ ≠ .free →
    d.applyPart step n p = d.drawn.setShadow p.entry (some ⟨n, step, p.req, d.partToken p⟩)) ∧
  (∀ (d d1 : Dev) (step : BitVec 16) (n a : Nat) (p : TwinPart) (x : Shadow), x = ⟨n, step, p.req, d.partToken p⟩ →
    d1 = d.drawn.setShadow p.entry (if x.state = .free then none else some x) → d1.shadowAddr p.entry = some a →
    d.applyPart step n p = d1.drawn.post (.bytes a ((List.range 128).map (Config.freeByte d1.free)))) ∧
  (∀ (s : State) (a : BitVec 48) (bs : List Byte) (rest : List TwinItem), s.dev.twin.st = 2 →
    s.dev.twin.stream = .write a bs :: .copyEnd :: rest →
    Does .twinAckReceived s { s.dev with twin.stream := rest, twin.synced := true }) ∧
  (∀ (s : State) (seq : BitVec 32) (step : BitVec 16) (n : BitVec 4) (c : Bool) (parts : List TwinPart)
    (rest : List TwinItem), s.dev.twin.st = 2 → s.dev.twin.stream = .record seq step n c parts :: rest →
    (s.dev.twin.acks.find? (fun a => decide (a.seq = seq.toNat)) = none →
      Does .twinAckReceived s (Dev.bump { s.dev with twin.stream := rest } 0x3800018)) ∧
    (∀ (q : Ack) (d1 : Dev), s.dev.twin.acks.find? (fun a => decide (a.seq = seq.toNat)) = some q →
      d1 = Dev.bump { s.dev with twin.stream := rest } 0x3800018 →
      Does .twinAckReceived s ((Dev.unhold { d1 with twin.acks := d1.twin.acks.map (fun a =>
        { a with acked := a.acked || decide (a.seq = seq.toNat) }) } q.dom).settleAcks))) ∧
  (∀ (d : Dev), (∀ a ∈ d.twin.acks, a.acked = false ∨ a.reqs ≠ []) → d.settleAcks = d) ∧
  (∀ (d : Dev) (a : Ack), d.twin.acks = [a] → a.acked = true → a.reqs = [] →
    d.settleAcks = { d with twin.acks := [], twin.ackTime := d.now - a.since }) ∧
  (∀ (s : State), s.dev.twin.st = 2 → s.dev.twin.stream = [] → Does .twinAckReceived s s.dev) ∧
  (∀ (s : State) (addr : BitVec 48) (len : Nat) (d1 : Dev) (bs : List Byte),
    wellFormed (.twinRepairRead addr len) = true → s.dev.twin.st = 2 → s.dev.clk.coast = false →
    s.dev.load ⟨.host, .stream, false, 0, 10⟩ addr.toNat len = .ok (d1, bs) →
    Does (.twinRepairRead addr len) s ((d1.unserve ⟨.host, 0, 10⟩).emit (.twinRepair (some bs)))) ∧
  (∀ (s : State) (addr : BitVec 48) (len : Nat), wellFormed (.twinRepairRead addr len) = true → s.dev.twin.st = 2 →
    s.dev.clk.coast = false → s.dev.load ⟨.host, .stream, false, 0, 10⟩ addr.toNat len = .error .unmapped →
    Does (.twinRepairRead addr len) s ((s.dev.unserve ⟨.host, 0, 10⟩).emit (.twinRepair none))) ∧
  (∀ (s : State) (v : Word) (d1 : Dev), s.dev.host.held = [] → s.dev.hostReady = true →
    d1 = { s.dev with twin.dstDomain := fieldAt v.toNat 20 4, twin.srcDomain := fieldAt v.toNat 16 4 } →
    (bitAt v.toNat 31 = false ∨ s.dev.twin.promoting.isSome = true → Does (.twinPromote v) s d1) ∧
    (bitAt v.toNat 31 = true → s.dev.twin.promoting = none → d1.pennantBad d1.twin.promotePage = true →
      Does (.twinPromote v) s (d1.chipFault 0x82)) ∧
    (bitAt v.toNat 31 = true → s.dev.twin.promoting = none → d1.pennantBad d1.twin.promotePage = false →
      (d1.promoteRefusal ≠ 0 → Does (.twinPromote v) s { d1 with twin.promoteCode := d1.promoteRefusal }) ∧
      (∀ q : Promotion, d1.promoteRefusal = 0 → q = ⟨d1.twin.srcDomain, d1.twin.dstDomain, d1.twin.promotePage, false⟩ →
        Does (.twinPromote v) s (Dev.promoteAll { d1 with
          twin.promoteCode := 0, twin.promoteCount := 0, twin.promoting := some q } q
            (d1.twin.shadow.filter (fun e => e.2.any (fun x => decide (x.domain = q.src)))))))) ∧
  (∀ (d : Dev) (q : Promotion) (i : Nat) (x : Shadow) (r : List (Nat × Option Shadow)),
    d.promoteAll q [] = ({ d with twin.promoting := none }).prompt q.dst ∧
    (∀ d1 : Dev, d.promoteOne q.dst q.page i x = .ok d1 →
      d.promoteAll q ((i, some x) :: r) = d1.promoteAll { q with waited := false } r) ∧
    (∀ (cks : List Nat) (p : Party), d.promoteOne q.dst q.page i x = .error (.busy cks p) →
      d.promoteAll q ((i, some x) :: r) = Dev.awaitCells { d with twin.promoting := some q } cks (.party p))) ∧
  (∀ (d d1 : Dev) (n page i k : Nat) (x : Shadow) (p : Dev × Nat × Nat), p = d.promoteEntry n x →
    k = p.1.twin.promoteCount → p.1.store promoteWho (p.1.windowAddr page (16 * k)) (logEntry i p.2.2 p.2.1 x) = .ok d1 →
    d.promoteOne n page i x = .ok { ((d1.unserve promoteWho.party).setShadow i none) with twin.promoteCount := k + 1 }) ∧
  (∀ (d : Dev), (d.twin.st ≠ 0 → d.promoteRefusal = 1) ∧
    (d.twin.st = 0 → d.twin.promotable = false → d.promoteRefusal = 2) ∧
    (d.twin.st = 0 → d.twin.promotable = true → (d.domEnt d.twin.dstDomain).isNone = true → d.promoteRefusal = 3) ∧
    (d.twin.st = 0 → d.twin.promotable = true → (d.domEnt d.twin.dstDomain).isSome = true →
      d.pennant d.twin.promotePage = false → d.promoteRefusal = 4)) ∧
  (∀ (d : Dev) (n : Nat) (x : Shadow), x.state = .parked ∨ x.state = .parking ∨ x.state = .resuming →
    d.promoteEntry n x = (d, 2, 0)) ∧
  (∀ (x : Shadow) (n now order : Nat), n < 16 → Req.domain (x.entry n now order) = n ∧
    (x.entry n now order).cmd = 0 ∧ (x.entry n now order).refused = false ∧ (x.entry n now order).since = some now)

/-! ### The structure image and the host (13_structure_image, 14_host_interface, 00_scope) -/

/-- The structure image (R326 to R329): STRUCT_COMMIT without GO moves the page alone; with GO out of UNSTRUCTURED, or
while an attempt runs, it sets LATE and leaves the attempt as it is; else, after a rejected attempt too, an attempt on
that page begins, and one whose page is outside the window is rejected; a copy that meets a busy cell waits (log 36); the
end of the copy rejects with COPY_UE, rejects with the first failing check, or applies the image. (That PAGE is written
with an ignored GO is the model's reading, log 46; what a copy holds of pages that the host writes meanwhile is free, log
36.) -/
def Obligations.StructureImage : Prop :=
  (∀ (s : State) (v : Word), s.dev.host.held = [] → s.dev.reaches .host = true → v.getLsbD 31 = false →
    Does (.structCommit v) s { s.dev with img.page := fieldAt v.toNat 0 17 }) ∧
  (∀ (s : State) (v : Word), s.dev.host.held = [] → s.dev.reaches .host = true → v.getLsbD 31 = true →
    (s.dev.chip.state ≠ .unstructured ∨ (s.dev.img.state ≠ 0 ∧ s.dev.img.state ≠ 4)) →
    Does (.structCommit v) s { s.dev with img.page := fieldAt v.toNat 0 17, img.late := true }) ∧
  (∀ (s : State) (v : Word), s.dev.host.held = [] → s.dev.reaches .host = true → v.getLsbD 31 = true →
    s.dev.chip.state = .unstructured →
    (s.dev.img.state = 0 ∨ s.dev.img.state = 4) → s.dev.windowPages ≤ fieldAt v.toNat 0 17 →
    Does (.structCommit v) s { s.dev with
      img := { s.dev.img with
        page := fieldAt v.toNat 0 17, run := fieldAt v.toNat 0 17
        state := 4, code := imgLength, section_ := noSection, offset := 8 }
      ec.inbox := s.dev.ec.inbox ++ [⟨0, true⟩] }) ∧
  (∀ (s : State) (v : Word) (d1 : Dev), s.dev.host.held = [] → s.dev.reaches .host = true →
    v.getLsbD 31 = true → s.dev.chip.state = .unstructured → (s.dev.img.state = 0 ∨ s.dev.img.state = 4) →
    fieldAt v.toNat 0 17 < s.dev.windowPages →
    d1 = { s.dev with
      img := { s.dev.img with
        page := fieldAt v.toNat 0 17, run := fieldAt v.toNat 0 17, code := 0, section_ := 0, offset := 0, state := 1 } } →
    (∀ (d2 : Dev) (bs : List Byte) (u : Option Nat), d1.copyImage = .ok (d2, bs, u) →
      Does (.structCommit v) s { (d2.unserve imageWho.party) with img.copy := bs, img.ue := u, img.waits := false }) ∧
    (∀ (cks : List Nat) (p : Party), d1.copyImage = .error (.busy cks p) →
      Does (.structCommit v) s (Dev.awaitCells { d1 with img.waits := true } cks (.party p)))) ∧
  (∀ (s : State) (cks : List Nat) (p : Party), s.dev.img.state = 1 → s.dev.chip.state = .unstructured →
    s.dev.clk.coast = false → s.dev.img.waits = true → s.dev.copyImage = .error (.busy cks p) →
    Does .structCopyDone s (s.dev.awaitCells cks (.party p))) ∧
  (∀ (s : State) (o : Nat), s.dev.img.state = 1 → s.dev.chip.state = .unstructured → s.dev.clk.coast = false →
    s.dev.img.waits = false → s.dev.img.ue = some o → Does .structCopyDone s { s.dev with
      img := { s.dev.img with copy := [], ue := none, state := 4, code := imgCopyUe, section_ := noSection, offset := o }
      ec.inbox := s.dev.ec.inbox ++ [⟨0, true⟩] }) ∧
  (∀ (s : State) (d1 : Dev) (img : List Byte), s.dev.img.state = 1 → s.dev.chip.state = .unstructured →
    s.dev.clk.coast = false → s.dev.img.waits = false → s.dev.img.ue = none → s.dev.finalCopy = .ok img →
    d1 = s.dev.unserve imageWho.party →
    (∀ b : Bad, s.dev.validate img s.dev.imageRoom = .error b → Does .structCopyDone s { d1 with
      free := d1.free + 1
      img := { d1.img with copy := [], state := 4, code := b.code, section_ := b.sect, offset := b.off }
      ec.inbox := d1.ec.inbox ++ [⟨0, true⟩] }) ∧
    (∀ x : Draft, s.dev.validate img s.dev.imageRoom = .ok x →
      Does .structCopyDone s (Dev.applyImage { d1 with free := d1.free + 1, img.copy := [] } x img))) ∧
  (∀ (s : State), s.dev.img.state ≠ 1 → Does .structCopyDone s s.dev)

/-- The window, the pennants and AtomicOps (R357, R365, R367, R369, R370, R371, R435, R463): in BOOT the window is the
staging buffer; in FILL, and in the FAULT of a start-up whose fill failed (log 121), it reads zero; from UNSTRUCTURED on a
write lands in DRAM and a read returns its bytes, once the stacks it reaches are awake: it wakes those that sleep, and is
held (log 49); beyond the window nothing happens; PENNANT_GIVE and PENNANT_TAKE change the pennants of the pages that their
bits name within the window and no other; a pennant word that fails its parity is a chip fault (log 47); a page that holds
an engine up records the stall and raises its event; an AtomicOp is an Unsupported Request. -/
def Obligations.WindowAndPennants : Prop :=
  (∀ (s : State) (off : Nat) (bytes : List Byte), s.dev.host.held = [] → wellFormed (.hostWindowWrite off bytes) = true →
    s.dev.hostReach = true →
    s.dev.chip.state = .boot → s.dev.sec.pushGo = false → off + bytes.length ≤ 0x800000 →
    Does (.hostWindowWrite off bytes) s { s.dev with
      sec.staging := Tab.writeN zeroByte s.dev.sec.staging off bytes }) ∧
  (∀ (s : State) (off len : Nat), s.dev.host.held = [] → wellFormed (.hostWindowRead off len) = true →
    s.dev.hostReach = true →
    s.dev.chip.state = .fill →
    Does (.hostWindowRead off len) s { s.dev with out := s.dev.out ++ [.readDone 2 off (List.replicate len 0) false] }) ∧
  (∀ (s : State) (off : Nat) (bytes : List Byte) (d1 : Dev), s.dev.host.held = [] →
    wellFormed (.hostWindowWrite off bytes) = true →
    s.dev.hostReach = true → s.dev.filled = true → off + bytes.length ≤ s.dev.windowPages * 0x200000 →
    s.dev.asleepIn (cutsOf off bytes.length) = [] →
    ((cutsOf off bytes.length).foldl (fun a c => a.hitPage true c) s.dev).hostStore
      (s.dev.cutPieces (cutsOf off bytes.length)) bytes = .ok d1 →
    Does (.hostWindowWrite off bytes) s (d1.unserve ⟨.host, 0, 6⟩)) ∧
  (∀ (s : State) (off : Nat) (bytes : List Byte) (d1 : Dev), s.dev.host.held = [] →
    wellFormed (.hostWindowWrite off bytes) = true → s.dev.hostReach = true → s.dev.filled = true →
    off + bytes.length ≤ s.dev.windowPages * 0x200000 → s.dev.asleepIn (cutsOf off bytes.length) ≠ [] →
    d1 = s.dev.wakeStacks (s.dev.asleepIn (cutsOf off bytes.length)) →
    Does (.hostWindowWrite off bytes) s { d1 with host.held := d1.host.held ++ [.hostWindowWrite off bytes] }) ∧
  (∀ (s : State) (off len : Nat) (d1 : Dev) (bs : List Byte) (ep : Bool), s.dev.host.held = [] →
    wellFormed (.hostWindowRead off len) = true →
    s.dev.hostReach = true → s.dev.filled = true → off + len ≤ s.dev.windowPages * 0x200000 →
    s.dev.asleepIn (cutsOf off len) = [] →
    ((cutsOf off len).foldl (fun a c => a.hitPage false c) s.dev).hostLoad (s.dev.cutPieces (cutsOf off len)) =
      .ok (d1, bs, ep) →
    Does (.hostWindowRead off len) s ((d1.unserve ⟨.host, 0, 6⟩).emit (.readDone 2 off bs ep))) ∧
  (∀ (s : State) (off : Nat) (bytes : List Byte), s.dev.host.held = [] → wellFormed (.hostWindowWrite off bytes) = true →
    s.dev.regsLive = true → s.dev.windowPages * 0x200000 < off + bytes.length →
    Does (.hostWindowWrite off bytes) s s.dev) ∧
  (∀ (d : Dev), d.filled = true ↔ (d.chip.state = .unstructured ∨ d.chip.state = .ready ∨
    (d.chip.state = .fault ∧ d.chip.startErr = 0))) ∧
  (∀ (s : State) (off len : Nat) (bytes : List Byte), s.dev.host.held = [] → s.dev.hostReach = true →
    s.dev.chip.state = .fault → s.dev.chip.startErr ≠ 0 →
    (wellFormed (.hostWindowRead off len) = true → Does (.hostWindowRead off len) s { s.dev with
      out := s.dev.out ++ [.readDone 2 off (List.replicate len 0) false] }) ∧
    (wellFormed (.hostWindowWrite off bytes) = true → Does (.hostWindowWrite off bytes) s s.dev)) ∧
  (∀ (d : Dev) (write : Bool) (c : Nat × Nat × Nat), d.pennantBad c.1 = true → d.hitPage write c = d.chipFault 0x82) ∧
  (∀ (d : Dev) (write : Bool) (c : Nat × Nat × Nat), d.pennantBad c.1 = false → d.pennant c.1 = false →
    d.hitPage write c = d) ∧
  (∀ (d : Dev) (c : Nat × Nat × Nat), d.pennantBad c.1 = false → d.pennant c.1 = true →
    d.hitPage false c = Dev.bump { d with host.hitValid := true, host.hitPage := c.1 } 0x1008) ∧
  (∀ (s : State) (w : Fin 4096) (v : Word), s.dev.host.held = [] → s.dev.reaches .host = true →
    (∃ p ∈ wordPages w.val v.toNat, p < s.dev.windowPages ∧ s.dev.pennantBad p = true) →
    Does (.pennantGive w v) s (s.dev.chipFault 0x82) ∧ Does (.pennantTake w v) s (s.dev.chipFault 0x82)) ∧
  (∀ (s : State) (w : Fin 4096) (v : Word), s.dev.host.held = [] → s.dev.reaches .host = true →
    (∀ p ∈ wordPages w.val v.toNat, p < s.dev.windowPages → s.dev.pennantBad p = false) →
    ∃ e : Dev, Does (.pennantGive w v) s e ∧
      e = { s.dev with host := { s.dev.host with
        pennants := e.host.pennants, waits := e.host.waits, counted := e.host.counted } } ∧
      (∀ p : Nat, e.pennant p = (s.dev.pennant p ||
        (decide (p / 32 = w.val) && v.getLsbD (p % 32) && decide (p < s.dev.windowPages)))) ∧
      e.host.waits = s.dev.host.waits.filter (fun p => !e.pennant p) ∧
      e.host.counted = s.dev.host.counted.filter (fun q => !e.pennant q.1)) ∧
  (∀ (s : State) (w : Fin 4096) (v : Word), s.dev.host.held = [] → s.dev.reaches .host = true →
    (∀ p ∈ wordPages w.val v.toNat, p < s.dev.windowPages → s.dev.pennantBad p = false) →
    ∃ e : Dev, Does (.pennantTake w v) s e ∧
      e = { s.dev with host := { s.dev.host with
        pennants := e.host.pennants, waits := e.host.waits, counted := e.host.counted } } ∧
      ∀ p : Nat, e.pennant p = (s.dev.pennant p &&
        !(decide (p / 32 = w.val) && v.getLsbD (p % 32) && decide (p < s.dev.windowPages)))) ∧
  (∀ (s : State) (p : Fin 131072), s.dev.host.waits.contains p.val = true → s.dev.host.stalled = false →
    Does (.pennantStall p) s { s.dev with
      host := { s.dev.host with stalled := true, stallPage := p.val }, ec.inbox := s.dev.ec.inbox ++ [⟨7, true⟩] }) ∧
  (∀ (s : State) (p : Fin 131072), s.dev.host.waits.contains p.val = true → s.dev.host.stalled = true →
    Does (.pennantStall p) s { s.dev with ec.inbox := s.dev.ec.inbox ++ [⟨7, true⟩] }) ∧
  (∀ (s : State) (p : Fin 131072), s.dev.host.waits.contains p.val = false → Does (.pennantStall p) s s.dev) ∧
  (∀ (s : State) (bar : Fin 6) (off : Nat), s.dev.host.held = [] → s.dev.host.linkUp = true →
    Does (.atomicOpRequest bar off) s { s.dev with out := s.dev.out ++ [.unsupported bar.val off] })

/-- The host work rings (R372, R376, R377, R378): EN starts a ring whose place is legal and stops with BAD_CFG one whose
is not; a cleared EN stops it, OFF once it is quiet; a doorbell beyond the ring's credit is OVERRUN, else its entries are
fetched (log 119); the device goes on with the ring's oldest entry of the operation that has not done its work, else
starts the next one once it is fetched: its engine free and its ring's turn, round-robin, and every earlier entry
complete where it asks for that; an entry that fails its checks stops the ring with the code of the first; entries
complete in ring order once their work is done, and raise the ring's event where they ask for it; one that wrote waits
while the mirror queue is full (R292). (When an entry is fetched, and which error stands, are the model's choice, log
119; that waits of the mirror queue end with its drain, log 101.) -/
def Obligations.HostRings : Prop :=
  (∀ (s : State) (g : RingNo) (v : Word), s.dev.host.held = [] → s.dev.reaches .host = true → v.getLsbD 0 = true →
    s.dev.chip.state = .ready → (s.dev.ring g.val).state = 0 →
    (s.dev.ringOk (s.dev.ring g.val) = true → Does (.ringEnable g v) s (s.dev.setRing g.val { s.dev.ring g.val with
      en := true, state := 1, code := 0, errIndex := 0, prod := 0, cons := 0, start := 0, fetched := [] })) ∧
    (s.dev.ringOk (s.dev.ring g.val) = false →
      Does (.ringEnable g v) s ((s.dev.setRing g.val { s.dev.ring g.val with en := true }).ringError g.val 2 none))) ∧
  (∀ (s : State) (g : RingNo) (v : Word), s.dev.host.held = [] → s.dev.reaches .host = true → v.getLsbD 0 = true →
    (s.dev.chip.state ≠ .ready ∨ (s.dev.ring g.val).state ≠ 0) → Does (.ringEnable g v) s s.dev) ∧
  (∀ (s : State) (g : RingNo) (v : Word), s.dev.host.held = [] → s.dev.reaches .host = true → v.getLsbD 0 = false →
    ((s.dev.ring g.val).state = 0 →
      Does (.ringEnable g v) s (s.dev.setRing g.val { s.dev.ring g.val with en := false, state := 0, fetched := [] })) ∧
    ((s.dev.ring g.val).state ≠ 0 → (s.dev.ring g.val).quiet = true →
      Does (.ringEnable g v) s (s.dev.setRing g.val { s.dev.ring g.val with
        en := false, state := 0, prod := 0, cons := 0, start := 0, fly := [], fetched := [] })) ∧
    ((s.dev.ring g.val).state ≠ 0 → (s.dev.ring g.val).quiet = false →
      Does (.ringEnable g v) s (s.dev.setRing g.val { s.dev.ring g.val with en := false, state := 3, fetched := [] }))) ∧
  (∀ (x : Ring), x.quiet = true ↔ x.fly = [] ∨ ∃ (f : RingRun) (r : List RingRun), x.fly = f :: r ∧ f.failed = true ∧
    ∀ y ∈ r, y.made = true ∨ y.failed = true) ∧
  (∀ (s : State) (g : RingNo) (v : Word) (x : Ring), s.dev.host.held = [] → s.dev.hostReady = true →
    x = s.dev.ring g.val → x.state = 1 →
    (2 ^ x.log2 < (v.setWidth 16 - x.prod).toNat + (x.prod - x.cons).toNat →
      Does (.ringDoorbell g v) s (s.dev.ringError g.val 1 none)) ∧
    ((v.setWidth 16 - x.prod).toNat + (x.prod - x.cons).toNat ≤ 2 ^ x.log2 →
      Does (.ringDoorbell g v) s ((s.dev.setRing g.val { x with prod := v.setWidth 16 }).fetchRing g.val))) ∧
  (∀ (s : State) (g : RingNo) (v : Word), s.dev.host.held = [] → (s.dev.ring g.val).state ≠ 1 →
    Does (.ringDoorbell g v) s s.dev) ∧
  (∀ (d : Dev) (g n : Nat) (x : Ring), x = d.ring g →
    ((x.state ≠ 1 ∨ (x.prod - x.start).toNat ≤ x.fetched.length) → d.fetchEntries g (n + 1) = d) ∧
    (∀ (d1 : Dev) (bs : List Byte), x.state = 1 → x.fetched.length < (x.prod - x.start).toNat →
      d.load mgmtWho (d.entryAddr x (x.start + BitVec.ofNat 16 x.fetched.length)) 64 = .ok (d1, bs) →
      d.fetchEntries g (n + 1) = ((Dev.modRing (d1.unserve mgmtWho.party) g (fun y =>
        { y with fetched := y.fetched ++ [some (ofBytes bs)] })).wakeEntry ⟨ofBytes bs⟩).fetchEntries g n)) ∧
  (∀ (d : Dev) (e : RingEntry), d.wakeEntry e = if d.regionPresent e.region then d.wakeUnit e.region else d) ∧
  (∀ (d : Dev) (g : Nat) (c : Nat) (x : Ring) (i : Option Nat), x = d.ring g →
    (x.state = 2 → d.ringError g c i = (d.setRing g x).raise (128 + g)) ∧
    (x.state ≠ 2 → d.ringError g c i = (d.setRing g { x with
      state := if x.state = 3 then 3 else 2, code := c, errIndex := i.getD x.errIndex }).raise (128 + g))) ∧
  (∀ (s : State) (g : RingNo) (i : Instr) (o : Nat) (d1 : Dev),
    (i, o) ∈ [(.ringNop g, 0), (.ringMove g, 1), (.ringLayout g, 2), (.ringFill g, 3), (.ringGiveBack g, 4)] →
    (s.dev.clk.coast = true ∨ s.dev.chip.state ≠ .ready → Does i s s.dev) ∧
    (s.dev.clk.coast = false → s.dev.chip.state = .ready → d1 = s.dev.fetchRing g.val →
      (∀ f : RingRun, (d1.ring g.val).fly.find? (fun x => !x.made && !x.failed &&
          decide (min (RingEntry.op ⟨x.entry⟩) 5 = o)) = some f → Does i s (d1.doEntry g.val f)) ∧
      ((d1.ring g.val).fly.find? (fun x => !x.made && !x.failed &&
          decide (min (RingEntry.op ⟨x.entry⟩) 5 = o)) = none → Does i s (d1.startEntry g.val o)))) ∧
  (∀ (d : Dev) (g w : Nat) (r : List (Option Nat)), d.chip.state = .ready → d.clk.coast = false → (d.ring g).state = 1 →
    (d.ring g).fetched = some w :: r →
    ((RingEntry.mk w).fence = true ∨ (RingEntry.mk w).op = 4 → (d.ring g).fly ≠ [] → d.nextEntry g = none) ∧
    ((RingEntry.mk w).fence = false ∧ (RingEntry.mk w).op ≠ 4 ∨ (d.ring g).fly = [] →
      d.nextEntry g = some (some ⟨w⟩))) ∧
  (∀ (d : Dev) (g o : Nat), d.nextEntry g = none → d.startEntry g o = d) ∧
  (∀ (d : Dev) (g o : Nat) (e : RingEntry), d.nextEntry g = some (some e) →
    (min e.op 5 ≠ o → d.startEntry g o = d) ∧
    (min e.op 5 = o → d.entryCode e ≠ 0 →
      d.startEntry g o = d.ringError g (d.entryCode e) (some (d.ring g).start.toNat)) ∧
    (o = 0 → e.op = 0 → d.entryCode e = 0 → d.startEntry g o = d.entryStarts g e) ∧
    (o = 4 → e.op = 4 → d.entryCode e = 0 → d.startEntry g o =
      (d.setPennants ((List.range e.pages).map (· + e.firstPage)) false).entryStarts g e) ∧
    (e.op = o → (o = 1 ∨ o = 2 ∨ o = 3) → d.entryCode e = 0 →
      (d.engineTurn e.region g = false → d.startEntry g o = d) ∧
      (d.engineTurn e.region g = true → d.startEntry g o = (d.entryStarts g e).doEntry g
        ⟨(d.ring g).start.toNat, e.event, e.region, true, e.w, false, false, none⟩))) ∧
  (∀ (d : Dev) (r g h t : Nat), t = Tab.read (fun _ => 63) d.host.ringTurn r → t < 64 → g < 64 → h < 64 →
    (h ∈ d.ringsBefore r g ↔ (h + 63 - t) % 64 < (g + 63 - t) % 64)) ∧
  (∀ (d : Dev) (r g : Nat), d.engineTurn r g = true ↔
    d.engineFree r = true ∧ ∀ h ∈ d.ringsBefore r g, d.ringWork h r = false) ∧
  (∀ (d : Dev) (g : Nat) (f : RingRun),
    (d.shareFree f.region = false → d.doEntry g f = d) ∧
    (d.shareFree f.region = true → d.clk.regionAwake.getLsbD f.region = false → d.doEntry g f = d.wakeUnit f.region) ∧
    (d.shareFree f.region = true → d.clk.regionAwake.getLsbD f.region = true →
      (∀ d1 : Dev, d.copyEntry g f.index ⟨f.entry⟩ = .ok d1 →
        d.doEntry g f = d1.modRun g f.index (fun y => { y with made := true })) ∧
      (∀ (cks : List Nat) (p : Party), d.copyEntry g f.index ⟨f.entry⟩ = .error (.busy cks p) →
        d.doEntry g f = d.awaitCells cks (.party p)))) ∧
  (∀ (s : State) (g : RingNo) (f : RingRun) (rest : List RingRun) (d1 : Dev), (s.dev.ring g.val).fly = f :: rest →
    d1 = (s.dev.modRing g.val (fun x => Ring.settled { x with fly := rest, cons := x.cons + 1 })).bump
      (0x2010 + 0x20 * g.val) →
    (f.made = true → (f.busy = false ∨ s.dev.mirrorFull = false) →
      Does (.ringEntryComplete g) s (if f.event then d1.raise (128 + g.val) else d1)) ∧
    (f.made = false → Does (.ringEntryComplete g) s s.dev) ∧
    (f.busy = true → s.dev.twin.st = 2 → 8388608 < s.dev.twin.backlog → Does (.ringEntryComplete g) s s.dev)) ∧
  (∀ (s : State) (g : RingNo) (d1 : Dev), (s.dev.ring g.val).fly = [] → d1 = s.dev.fetchRing g.val →
    (d1.ring g.val).fly = [] → s.dev.clk.coast = false → s.dev.chip.state = .ready →
    (d1.nextEntry g.val = none → Does (.ringEntryComplete g) s d1) ∧
    (d1.nextEntry g.val = some none →
      Does (.ringEntryComplete g) s (d1.ringError g.val 6 (some (d1.ring g.val).start.toNat))) ∧
    (∀ e : RingEntry, d1.nextEntry g.val = some (some e) → 5 ≤ e.op →
      Does (.ringEntryComplete g) s (d1.ringError g.val 3 (some (d1.ring g.val).start.toNat))))

/-- Registers (R10, R11; R12): a 32-bit read of the lower half of a 64-bit register latches the upper half, which the next
read of the upper half returns; a 32-bit write of a lower half is held, and a write of the upper half writes the whole
register with the held half, or with the current lower half where none is held; a 64-bit access reads or writes a 64-bit
register at once, a write discarding the held half, or two 32-bit registers, the lower offset first; a 32-bit register is
read and written alone; an access that is not 32 or 64 bits wide and aligned reads zero, or writes nothing. -/
def Obligations.RegisterHalves : Prop :=
  (∀ (s : State) (who : Agent) (off : Nat), InTurn who s.dev → s.dev.readReach who = true → s.dev.regsLive = true →
    off % 4 = 0 →
    s.dev.badTables.contains (tableWord off) = false → (off < 0x104000 ∨ 0x105010 ≤ off) → off ≠ 0x300080 →
    (s.dev.reg off).wide = true →
    Does (.reg64LowerRead who 0 off 4) s (((s.dev.afterRead off).setLatchedHalf off
      (some (BitVec.ofNat 32 ((s.dev.reg off).value / 2 ^ 32)))).readAnswer who 0 off 4 ((s.dev.reg off).value % 2 ^ 32))) ∧
  (∀ (s : State) (who : Agent) (off : Nat) (w : Word), InTurn who s.dev → s.dev.readReach who = true →
    s.dev.regsLive = true → off % 8 = 0 →
    s.dev.badTables.contains (tableWord (off + 4)) = false → (off + 4 < 0x104000 ∨ 0x105010 ≤ off + 4) → off + 4 ≠ 0x300080 →
    (s.dev.reg off).wide = true → (s.dev.reg (off + 4)).wide = false → s.dev.latchedHalf off = some w →
    Does (.reg64LowerRead who 0 (off + 4) 4) s ((s.dev.setLatchedHalf off none).readAnswer who 0 (off + 4) 4 w.toNat)) ∧
  (∀ (s : State) (who : Agent) (off : Nat), InTurn who s.dev → s.dev.readReach who = true → s.dev.regsLive = true →
    off % 8 = 0 →
    s.dev.badTables.contains (tableWord off) = false → (off < 0x104000 ∨ 0x105010 ≤ off) → off ≠ 0x300080 →
    (s.dev.reg off).wide = false →
    Does (.reg64LowerRead who 0 off 4) s (s.dev.readAnswer who 0 off 4 (s.dev.reg off).value)) ∧
  (∀ (s : State) (who : Agent) (off : Nat), InTurn who s.dev → s.dev.readReach who = true → s.dev.regsLive = true →
    off % 8 = 4 →
    s.dev.badTables.contains (tableWord off) = false → (off < 0x104000 ∨ 0x105010 ≤ off) → off ≠ 0x300080 →
    (s.dev.reg off).wide = false →
    ((s.dev.reg (off - 4)).wide = false →
      Does (.reg64LowerRead who 0 off 4) s (s.dev.readAnswer who 0 off 4 (s.dev.reg off).value)) ∧
    ((s.dev.reg (off - 4)).wide = true → s.dev.latchedHalf (off - 4) = none →
      Does (.reg64LowerRead who 0 off 4) s (s.dev.readAnswer who 0 off 4 ((s.dev.reg (off - 4)).value / 2 ^ 32)))) ∧
  (∀ (s : State) (who : Agent) (off : Nat), InTurn who s.dev → s.dev.readReach who = true → s.dev.regsLive = true →
    off % 8 = 0 →
    s.dev.badTables.contains off = false → s.dev.badTables.contains (off + 4) = false → (s.dev.reg off).wide = true →
    Does (.reg64LowerRead who 0 off 8) s ((s.dev.afterRead off).readAnswer who 0 off 8 (s.dev.reg off).value)) ∧
  (∀ (s : State) (who : Agent) (off : Nat), InTurn who s.dev → s.dev.readReach who = true → s.dev.regsLive = true →
    off % 8 = 0 →
    s.dev.badTables.contains (tableWord off) = false → s.dev.badTables.contains (tableWord (off + 4)) = false →
    (off + 4 < 0x104000 ∨ 0x105010 ≤ off) → off ≠ 0x300080 → (s.dev.reg off).wide = false →
    (s.dev.reg (off + 4)).wide = false →
    Does (.reg64LowerRead who 0 off 8) s
      (s.dev.readAnswer who 0 off 8 ((s.dev.reg off).value + (s.dev.reg (off + 4)).value * 2 ^ 32))) ∧
  (∀ (s : State) (who : Agent) (bar : Fin 6) (off len : Nat), InTurn who s.dev → s.dev.readReach who = true →
    (bar = 0 ∨ bar = 4) →
    off % len ≠ 0 → Does (.reg64LowerRead who bar off len) s (s.dev.readAnswer who bar.val off len 0)) ∧
  (∀ (s : State) (who : Agent) (bar : Fin 6) (off len : Nat), InTurn who s.dev → s.dev.readReach who = true →
    (bar = 0 ∨ bar = 4) →
    len ≠ 4 → len ≠ 8 → Does (.reg64LowerRead who bar off len) s (s.dev.readAnswer who bar.val off len 0)) ∧
  (∀ (s : State) (who : Agent) (bar : Fin 6) (off len : Nat), InTurn who s.dev → s.dev.readReach who = false →
    Does (.reg64LowerRead who bar off len) s s.dev) ∧
  (∀ (s : State) (who : Agent) (off : Nat) (v : BitVec 64), InTurn who s.dev → s.dev.readReach who = true → off % 4 = 0 →
    s.dev.writeActs off = true → (s.dev.reg off).wide = true →
    Does (.registerWrite who 0 off 4 v) s (s.dev.setHeldHalf off (some (BitVec.ofNat 32 (v.toNat % 2 ^ 32))))) ∧
  (∀ (s : State) (who : Agent) (off : Nat) (v : BitVec 64) (w : Word), InTurn who s.dev → s.dev.readReach who = true →
    off % 8 = 0 →
    s.dev.writeActs (off + 4) = true → (s.dev.reg off).wide = true → (s.dev.reg (off + 4)).wide = false →
    s.dev.heldHalf off = some w →
    Does (.registerWrite who 0 (off + 4) 4 v) s ((((s.dev.cleanTable (off + 4)).cleanTable off).setHeldHalf off none).putReg who off
      (w.toNat + v.toNat % 2 ^ 32 * 2 ^ 32))) ∧
  (∀ (s : State) (who : Agent) (off : Nat) (v : BitVec 64), InTurn who s.dev → s.dev.readReach who = true → off % 8 = 0 →
    s.dev.writeActs (off + 4) = true → (s.dev.reg off).wide = true → (s.dev.reg (off + 4)).wide = false →
    s.dev.heldHalf off = none →
    Does (.registerWrite who 0 (off + 4) 4 v) s ((((s.dev.cleanTable (off + 4)).cleanTable off).setHeldHalf off none).putReg who off
      ((s.dev.reg off).value % 2 ^ 32 + v.toNat % 2 ^ 32 * 2 ^ 32))) ∧
  (∀ (s : State) (who : Agent) (off : Nat) (v : BitVec 64), InTurn who s.dev → s.dev.readReach who = true → off % 8 = 0 →
    s.dev.writeActs off = true → (s.dev.reg off).wide = true →
    Does (.registerWrite who 0 off 8 v) s ((((s.dev.cleanTable off).cleanTable (off + 4)).setHeldHalf off none).putReg who
      off v.toNat)) ∧
  (∀ (s : State) (who : Agent) (off : Nat) (v : BitVec 64), InTurn who s.dev → s.dev.readReach who = true → off % 8 = 0 →
    s.dev.writeActs off = true → (s.dev.reg off).wide = false →
    Does (.registerWrite who 0 off 4 v) s ((s.dev.cleanTable off).putReg who off (v.toNat % 2 ^ 32))) ∧
  (∀ (s : State) (who : Agent) (off : Nat) (v : BitVec 64), InTurn who s.dev → s.dev.readReach who = true → off % 8 = 4 →
    s.dev.writeActs off = true → (s.dev.reg off).wide = false → (s.dev.reg (off - 4)).wide = false →
    Does (.registerWrite who 0 off 4 v) s ((s.dev.cleanTable off).putReg who off (v.toNat % 2 ^ 32))) ∧
  (∀ (s : State) (who : Agent) (off : Nat) (v : BitVec 64) (e : Dev), InTurn who s.dev → s.dev.readReach who = true →
    off % 8 = 0 →
    s.dev.writeActs off = true → (s.dev.reg off).wide = false →
    e = (s.dev.cleanTable off).putReg who off (v.toNat % 2 ^ 32) → e.writeActs (off + 4) = true →
    (e.reg off).wide = false → (e.reg (off + 4)).wide = false →
    Does (.registerWrite who 0 off 8 v) s ((e.cleanTable (off + 4)).putReg who (off + 4) (v.toNat / 2 ^ 32))) ∧
  (∀ (s : State) (who : Agent) (bar : Fin 6) (off len : Nat) (v : BitVec 64), InTurn who s.dev →
    (off % len ≠ 0 ∨ (len ≠ 4 ∧ len ≠ 8)) →
    Does (.registerWrite who bar off len v) s s.dev) ∧
  (∀ (s : State) (who : Agent) (off : Nat) (v : BitVec 64), InTurn who s.dev → s.dev.writeActs off = false →
    Does (.registerWrite who 0 off 4 v) s s.dev) ∧
  (∀ (d : Dev), (d.reg 0).wide = false ∧ (d.reg 0).value % 16 = chipCode d.chip.state) ∧
  (∀ (d : Dev) (off : Nat), 0x20 ≤ off → off < 0x1000 → d.reg off = ⟨false, 0⟩) ∧
  (∀ (d : Dev) (r o : Nat), r < 12 → o < 0x200000 → d.regionPresent r = false →
    d.reg (0x1000000 + 0x200000 * r + o) = ⟨false, 0⟩) ∧
  (∀ (d : Dev) (r f : Nat), r < 12 → f < 1024 → d.regionPresent r = true →
    d.reg (0x1000000 + 0x200000 * r + 0x10000 + 4 * f) =
      ⟨false, d.flag (1024 * r + f) % 2 ^ 16 + if (d.waitq (1024 * r + f)).isEmpty then 0 else 2 ^ 31⟩) ∧
  (∀ (d : Dev) (r j : Nat), r < 12 → j < 4 → d.regionPresent r = true → d.reg (blockBase r j + 0x20) =
    ⟨true, (d.ctr (blockBase r j + 0x20)).count % 2 ^ 48 + if (d.ctr (blockBase r j + 0x20)).sat then 2 ^ 63 else 0⟩) ∧
  (∀ (d : Dev) (c : Nat), c < 1024 → c < d.img.str.customers → d.reg (0x440000 + 64 * c) =
    ⟨true, (d.cust c).available % 2 ^ 32 + (d.cust c).reserved % 2 ^ 16 * 2 ^ 32 + if (d.cust c).sat then 2 ^ 63 else 0⟩) ∧
  (∀ (d : Dev) (i k : Nat), i < 4096 → k < 16 → k ∉ [2, 3, 4, 5, 6, 7] →
    d.reg (0x400000 + 64 * i + 4 * k) = ⟨false, ((d.reqWords i).getD k 0).toNat⟩) ∧
  (∀ (d : Dev) (i k : Nat), i < 4096 → k ∈ [2, 4, 6] → d.reg (0x400000 + 64 * i + 4 * k) =
    ⟨true, ((d.reqWords i).getD k 0).toNat + ((d.reqWords i).getD (k + 1) 0).toNat * 2 ^ 32⟩) ∧
  (∀ (d : Dev) (n : Nat), n < 2047 → d.reg (0x101000 + 4 * n) =
    ⟨false, (d.ec.cfgOf n).prio % 2 ^ 4 + (d.ec.cfgOf n).target % 2 ^ 9 * 2 ^ 8⟩) ∧
  (∀ (d : Dev) (w i : Nat), w < 4096 → i < 32 →
    (d.reg (0x800000 + 4 * w)).wide = false ∧ (d.reg (0x800000 + 4 * w)).value.testBit i = d.pennant (32 * w + i)) ∧
  (∀ (d : Dev) (who : Agent) (v : Nat), d.putReg who 0 v = d) ∧
  (∀ (d : Dev) (who : Agent) (r f v : Nat), r < 12 → f < 1024 →
    d.putReg who (0x1000000 + 0x200000 * r + 0x10000 + 4 * f) v = d) ∧
  (∀ (d : Dev) (who : Agent) (v : Nat), d.putReg who 0x1004 v =
    if bitAt v 31 then { d with host.hitValid := false } else d) ∧
  (∀ (d : Dev) (who : Agent) (v : Nat), d.putReg who 0x200004 v = { d with
    clk.sleepEn := bitAt v 31, clk.idle := if fieldAt v 0 24 < 250 then d.clk.idle else fieldAt v 0 24 }) ∧
  (∀ (d : Dev) (who : Agent) (v : Nat), d.putReg who 0x450000 v = { d with
    serve.grow := bitAt v 10
    serve.probeInterval := if fieldAt v 4 6 = 0 then d.serve.probeInterval else fieldAt v 4 6
    serve.zeroLimit := if fieldAt v 0 4 = 0 then d.serve.zeroLimit else fieldAt v 0 4 }) ∧
  (∀ (d : Dev) (who : Agent) (c v : Nat), c < 1024 → d.putReg who (0x440000 + 64 * c + 8) v = d.custCredit c v) ∧
  (∀ (d : Dev) (who : Agent) (i v : Nat), i < 4096 → (d.req i).state = .free →
    d.putReg who (0x400000 + 64 * i + 4) v = d.modReq i (fun x => { x with cfg := BitVec.ofNat 32 v &&& 0xFFFF1FFF })) ∧
  (∀ (d : Dev) (who : Agent) (i v : Nat), i < 4096 → (d.req i).state = .active →
    d.putReg who (0x400000 + 64 * i + 4 * 8) v = d.modReq i id) ∧
  (∀ (d : Dev) (who : Agent) (st v : Nat), st < 24 → d.regionPresent (st / 2) = true →
    d.putReg who (stackBase st + 0xA0) v = d.modStk st (fun x => { x with
      scrubEn := bitAt v 31, scrubInterval := if fieldAt v 0 24 < 25 then x.scrubInterval else fieldAt v 0 24 })) ∧
  (∀ (d : Dev) (who : Agent) (v n : Nat), n < 12 → (d.putReg who 0x3800008 v).twin.mcommit.getLsbD n =
    (bitAt v n && (d.mirrored n || d.twin.mcommit.getLsbD n)))

/-! ### Security (20_security) -/

/-- Firmware, flash, SPDM, measurements and the report (R461 to R464, R466 to R470): a push starts a verification in the
wait for one; an image that fails its first check stays with BOOT_AUTH, fuse bits that fail end it with code 9, and a
good one starts; an update of the flash checks and programs; a request on a transport is answered once the firmware runs;
a read of MEAS_RUNNING latches the digest; a report is held until the tree is ready, and ends in its data or in
EXHAUSTED. (The formats of SPDM, of the report's body and of its signature are the model's, logs 22, 23, 13; a GO before
the ROM waits, and an unrepaired stripe under an update, log 122.) -/
def Obligations.SecurityCommands : Prop :=
  (∀ (s : State) (v : Word), s.dev.host.held = [] → s.dev.secReach = true → v.getLsbD 31 = true → s.dev.sec.pushGo = false →
    s.dev.chip.state = .boot → s.dev.chip.stage = .waitPush → s.dev.chip.startErr = 0 →
    Does (.fwPush v) s { s.dev with
      chip.stage := .verify
      sec := { s.dev.sec with
        pushLen := fieldAt v.toNat 0 24, pushGo := true
        stagingLen := if fieldAt v.toNat 0 24 = 0 then 0x800000 else fieldAt v.toNat 0 24 } }) ∧
  (∀ (s : State) (v : Word), s.dev.host.held = [] → s.dev.secReach = true →
    (v.getLsbD 31 = false → s.dev.sec.pushGo = false →
      Does (.fwPush v) s { s.dev with sec.pushLen := fieldAt v.toNat 0 24 }) ∧
    (v.getLsbD 31 = true → s.dev.sec.pushGo = false → (s.dev.chip.state ≠ .boot ∨ s.dev.chip.stage ≠ .waitPush) →
      Does (.fwPush v) s { s.dev with sec := { s.dev.sec with pushLen := fieldAt v.toNat 0 24, pushGo := true } }) ∧
    (s.dev.sec.pushGo = true → Does (.fwPush v) s s.dev)) ∧
  (∀ (d : Dev), (d.hostBoot = true → (d.sec.stagingLen < 4112 ∨ 0x800000 < d.sec.stagingLen) → d.stagedCheck = 2) ∧
    ((d.hostBoot = false ∨ (4112 ≤ d.sec.stagingLen ∧ d.sec.stagingLen ≤ 0x800000)) →
      d.stagedCheck = d.fwCheck d.staged d.sec.stagingLen)) ∧
  (∀ (s : State) (fail : Option Nat) (e : Nat), s.dev.chip.state = .boot → s.dev.chip.stage = .verify →
    s.dev.chip.startErr = 0 → s.dev.stagedCheck = e → e ≠ 0 →
    Does (.firmwareVerify fail) s { s.dev with sec.authErr := e, chip.startErr := 1 }) ∧
  (∀ (s : State), s.dev.chip.state = .boot → s.dev.chip.stage = .verify → s.dev.chip.startErr = 0 →
    s.dev.stagedCheck = 0 →
    Does (.firmwareVerify none) s
      (((s.dev.fuseWork s.dev.staged).foldl Dev.blow s.dev).fwStart s.dev.staged)) ∧
  (∀ (s : State) (k : Nat), s.dev.chip.state = .boot → s.dev.chip.stage = .verify → s.dev.chip.startErr = 0 →
    s.dev.stagedCheck = 0 → k < (s.dev.fuseWork s.dev.staged).length →
    Does (.firmwareVerify (some k)) s
      ((((s.dev.fuseWork s.dev.staged).take k).foldl Dev.blow s.dev).authFail 9)) ∧
  (∀ (s : State) (fail : Option Nat), s.dev.chip.stage ≠ .verify → Does (.firmwareVerify fail) s s.dev) ∧
  (∀ (d : Dev) (img : List Byte) (len : Nat), fieldOf img 0 4 ≠ 0x4D57464B → d.fwCheck img len = 1) ∧
  (∀ (d : Dev) (img : List Byte), (d.fwStart img).chip.stage = .train ∧ (d.fwStart img).sec.fwValid = true ∧
    (d.fwStart img).sec.log.length = 2 ∧ (d.fwStart img).sec.reports = 0 ∧ (d.fwStart img).fuses = d.fuses) ∧
  (∀ (x : Sec) (m : Meas), x.log.length < 4096 → x.append m = { x with
    log := x.log ++ [m], running := sha384 (x.running ++ m.bytes) }) ∧
  (∀ (x : Sec) (m : Meas), 4096 ≤ x.log.length → x.append m = { x with
    running := sha384 (x.running ++ m.bytes), overflow := true }) ∧
  (∀ (s : State) (v : Word) (ok : Bool), s.dev.host.held = [] → s.dev.secReach = true → v.getLsbD 31 = true →
    s.dev.sec.fwValid = true →
    s.dev.regsLive = true → s.dev.sec.flashRun = none → s.dev.chip.straps.safeBoot = true →
    Does (.flashUpdate v ok) s { s.dev with sec.flashPage := fieldAt v.toNat 0 17, sec.flashCode := 1 }) ∧
  (∀ (s : State) (v : Word) (ok : Bool) (d1 : Dev), s.dev.host.held = [] → s.dev.secReach = true → v.getLsbD 31 = true →
    s.dev.sec.fwValid = true → s.dev.regsLive = true → s.dev.sec.flashRun = none → s.dev.chip.straps.safeBoot = false →
    s.dev.clk.coast = false → fieldAt v.toNat 0 17 < s.dev.windowPages →
    d1 = { s.dev with sec := { s.dev.sec with
      flashPage := fieldAt v.toNat 0 17, flashRun := some (fieldAt v.toNat 0 17, ok) } } →
    (∀ (d2 d3 : Dev) (img : List Byte), d1.flashRead (fieldAt v.toNat 0 17) = .ok (d2, img) →
      d3 = { (d2.unserve mgmtWho.party) with sec.flashRun := none } →
      (d2.fwCheck img img.length ≠ 0 → Does (.flashUpdate v ok) s { d3 with
        sec := { d3.sec with flashCode := 2, authErr := d2.fwCheck img img.length } }) ∧
      (d2.fwCheck img img.length = 0 → Does (.flashUpdate v ok) s { d3 with
        sec := { d3.sec with flashCode := if ok then 0 else 3 }
        out := d3.out ++ [.flashParams, .flashErase, .flashProgram (img.take (4096 + fieldOf img 0x010 4))] })) ∧
    (∀ (cks : List Nat) (p : Party), d1.flashRead (fieldAt v.toNat 0 17) = .error (.busy cks p) →
      Does (.flashUpdate v ok) s (d1.awaitCells cks (.party p)))) ∧
  (∀ (s : State) (v : Word) (ok : Bool), s.dev.host.held = [] → s.dev.secReach = true → s.dev.sec.flashRun ≠ none →
    Does (.flashUpdate v ok) s { s.dev with sec.flashPage := fieldAt v.toNat 0 17 }) ∧
  (∀ (s : State) (v : Word) (ok : Bool), s.dev.host.held = [] → s.dev.secReach = true → s.dev.sec.fwValid = false →
    Does (.flashUpdate v ok) s { s.dev with sec.flashPage := fieldAt v.toNat 0 17 }) ∧
  (∀ (s : State) (p : SpdmPort) (q : SpdmReq), wellFormed (.spdmRequest p q) = true → s.dev.sec.fwValid = false →
    Does (.spdmRequest p q) s { s.dev with
      sec.doeErr := s.dev.sec.doeErr || decide (p = SpdmPort.doe), out := s.dev.out ++ [.spdm p none] }) ∧
  (∀ (s : State) (q : SpdmReq) (a : BitVec 7), wellFormed (.spdmRequest (.mctp a) q) = true → s.dev.sec.fwValid = true →
    s.dev.chip.state ≠ .thermalOff →
    (a ≠ (if s.dev.chip.straps.twinRole then 0x4B else 0x4A) →
      Does (.spdmRequest (.mctp a) q) s { s.dev with out := s.dev.out ++ [.spdm (.mctp a) none] }) ∧
    (a = (if s.dev.chip.straps.twinRole then 0x4B else 0x4A) → Does (.spdmRequest (.mctp a) q) s { s.dev with
      free := s.dev.free + 1, sec.mctp := (s.dev.spdmVersioned s.dev.sec.mctp q).1
      out := s.dev.out ++ [.spdm (.mctp a) (some (s.dev.spdmVersioned s.dev.sec.mctp q).2)] })) ∧
  (∀ (s : State) (q : SpdmReq), wellFormed (.spdmRequest .doe q) = true → s.dev.sec.fwValid = true →
    s.dev.chip.state ≠ .thermalOff → s.dev.host.linkUp = true → Does (.spdmRequest .doe q) s { s.dev with
      free := s.dev.free + 1, sec.doe := (s.dev.spdmVersioned s.dev.sec.doe q).1
      out := s.dev.out ++ [.spdm .doe (some (s.dev.spdmVersioned s.dev.sec.doe q).2)] }) ∧
  (∀ (d : Dev) (c : Spdm) (q : SpdmReq),
    ((q.body = .getVersion ∧ q.version = 0x10) ∨ (q.body ≠ .getVersion ∧ q.version = 0x12) →
      d.spdmVersioned c q = d.spdmAnswer c q.body) ∧
    ((q.body = .getVersion ∧ q.version ≠ 0x10) ∨ (q.body ≠ .getVersion ∧ q.version ≠ 0x12) →
      d.spdmVersioned c q = (c, [0x12, 0x7F, 0x41, 0]))) ∧
  (∀ (s : State), s.dev.host.held = [] → s.dev.secReach = true → Does .measRunningRead s { s.dev with
    sec.latch := s.dev.sec.running, out := s.dev.out ++ [.readDone 0 0x300080 (slice s.dev.sec.running 0 4) false] }) ∧
  (∀ (s : State), s.dev.host.held = [] → s.dev.secReach = true → s.dev.sec.fwValid = true → s.dev.sec.repStatus ≠ 1 →
    s.dev.sec.treeReady = false → Does .reportGo s { s.dev with
      sec.repStatus := 1, sec.repData := [], sec.repBody := s.dev.reportBody, sec.heldGo := true }) ∧
  (∀ (s : State), s.dev.host.held = [] → s.dev.secReach = true → s.dev.sec.fwValid = true → s.dev.sec.repStatus ≠ 1 →
    s.dev.sec.treeReady = true →
    (s.dev.sec.reports < 1024 → s.dev.fuses.reportBits < 1024 → s.dev.sec.topLeaf ≠ none → Does .reportGo s { s.dev with
      sec := { s.dev.sec with repStatus := 1, repData := [], repBody := s.dev.reportBody } }) ∧
    (s.dev.sec.reports < 1024 → s.dev.fuses.reportBits < 1024 → s.dev.sec.topLeaf = none → Does .reportGo s { s.dev with
      fuses.reportBits := s.dev.fuses.reportBits + 1
      sec := { s.dev.sec with
        repStatus := 1, repData := [], repBody := s.dev.reportBody, topLeaf := some s.dev.fuses.reportBits } }) ∧
    ((1024 ≤ s.dev.sec.reports ∨ 1024 ≤ s.dev.fuses.reportBits) → Does .reportGo s { s.dev with
      sec := { s.dev.sec with repStatus := 1, repData := [], repBody := [] } })) ∧
  (∀ (s : State), s.dev.host.held = [] → s.dev.sec.repStatus = 1 → Does .reportGo s s.dev) ∧
  (∀ (s : State), s.dev.sec.fwValid = true → s.dev.sec.treeReady = false → s.dev.sec.heldGo = true →
    s.dev.sec.reports < 1024 → s.dev.sec.topLeaf = none → s.dev.fuses.reportBits < 1024 →
    Does .reportTreeReady s { s.dev with
      sec := { s.dev.sec with treeReady := true, heldGo := false, topLeaf := some s.dev.fuses.reportBits }
      fuses.reportBits := s.dev.fuses.reportBits + 1 }) ∧
  (∀ (s : State), s.dev.sec.fwValid = true → s.dev.sec.treeReady = false → s.dev.sec.heldGo = false →
    Does .reportTreeReady s { s.dev with sec.treeReady := true, sec.heldGo := false }) ∧
  (∀ (s : State), s.dev.sec.repStatus = 1 → s.dev.sec.treeReady = true → s.dev.sec.repBody ≠ [] →
    Does .reportDone s { s.dev with sec := { s.dev.sec with
      repStatus := 2, reports := s.dev.sec.reports + 1
      repData := s.dev.sec.repBody ++
        hssSignature (s.dev.sec.topLeaf.getD 0) s.dev.sec.reports s.dev.sec.repBody } }) ∧
  (∀ (top q : Nat) (msg : List Byte), (hssSignature top q msg).length = 2964 ∧
    hssSignature top q msg = be32 1 ++ lmsSignature 0 top (lmsPublic (top + 1)) ++ lmsPublic (top + 1) ++
      lmsSignature (top + 1) q msg) ∧
  (∀ (s : State), s.dev.sec.repStatus = 1 → s.dev.sec.treeReady = true → s.dev.sec.repBody = [] →
    Does .reportDone s { s.dev with sec.repStatus := 3, sec.repData := [] }) ∧
  (∀ (s : State), s.dev.sec.repStatus ≠ 1 → Does .reportDone s s.dev)
end

