-- ==== Sys2Proof/Laws/Tab.lean ====
section
/-! SUPPORT. Sparse arrays: every operation keeps the canonical form, and a read after a write. -/

namespace Sys2Proof.Machine

variable {α : Type}

theorem Tab.rising_mono {t : Tab α} {lo lo' : Nat} (h : Tab.rising t lo = true) (hl : lo' ≤ lo) : Tab.rising t lo' =
    true := by
  cases t with
  | nil => rfl
  | cons e r =>
    simp only [Tab.rising, Bool.and_eq_true, decide_eq_true_eq] at h ⊢
    exact ⟨Nat.le_trans hl h.1, h.2⟩

/-- A key below every listed key reads as the default. -/
theorem Tab.read_below {dflt : Nat → α} {t : Tab α} {lo k : Nat} (h : Tab.rising t lo = true) (hk : k < lo) :
    Tab.read dflt t k = dflt k := by
  cases t with
  | nil => rfl
  | cons e r =>
    simp only [Tab.rising, Bool.and_eq_true, decide_eq_true_eq] at h
    have : k < e.1 := by omega
    simp [Tab.read, this]

/-- Every listed key of a rising array is at or above its bound. -/
theorem Tab.le_of_mem {t : Tab α} {lo : Nat} (h : Tab.rising t lo = true) {e : Nat × α} (he : e ∈ t) : lo ≤ e.1 := by
  induction t generalizing lo with
  | nil => cases he
  | cons a r ih =>
    simp only [Tab.rising, Bool.and_eq_true, decide_eq_true_eq] at h
    rcases List.mem_cons.mp he with rfl | he
    · exact h.1
    · have := ih h.2 he; omega

theorem Tab.filter_rising {t : Tab α} {lo : Nat} (p : Nat × α → Bool) (h : Tab.rising t lo = true) :
    Tab.rising (t.filter p) lo = true := by
  induction t generalizing lo with
  | nil => rfl
  | cons e r ih =>
    simp only [Tab.rising, Bool.and_eq_true, decide_eq_true_eq] at h
    rw [List.filter_cons]
    split
    · simp only [Tab.rising, Bool.and_eq_true, decide_eq_true_eq]; exact ⟨h.1, ih h.2⟩
    · exact Tab.rising_mono (ih h.2) (by omega)

/-- In a rising array clearing keeps the entries outside the range and no other. -/
theorem Tab.clear_eq_filter {t : Tab α} {b lo hi : Nat} (h : Tab.rising t b = true) :
    Tab.clear t lo hi = t.filter (fun e => decide (e.1 < lo) || decide (hi ≤ e.1)) := by
  induction t generalizing b with
  | nil => rfl
  | cons e r ih =>
    simp only [Tab.rising, Bool.and_eq_true, decide_eq_true_eq] at h
    have ih' := ih h.2
    unfold Tab.clear at ih' ⊢
    by_cases h1 : e.1 < lo
    · simp [h1, ih']
    · have h2 : (r.filter (fun x => decide (x.1 < lo) || decide (hi ≤ x.1))) = r.dropWhile (fun x => decide (x.1 < hi))
        := by
        rw [← ih']
        cases r with
        | nil => rfl
        | cons x q =>
          have hx := h.2
          simp only [Tab.rising, Bool.and_eq_true, decide_eq_true_eq] at hx
          have : ¬ x.1 < lo := by omega
          simp [this]
      by_cases h3 : e.1 < hi
      · have : ¬ hi ≤ e.1 := by omega
        simp [h1, h3, this, h2]
      · have h4 : hi ≤ e.1 := by omega
        have h5 : r.dropWhile (fun x => decide (x.1 < hi)) = r := by
          cases r with
          | nil => rfl
          | cons x q =>
            have hx := h.2
            simp only [Tab.rising, Bool.and_eq_true, decide_eq_true_eq] at hx
            have : ¬ x.1 < hi := by omega
            simp [this]
        simp [h1, h3, h4, h2, h5]

/-- Below what is dropped, the rest of an array reads as the default; from there on it reads as before. -/
theorem Tab.read_dropWhile {dflt : Nat → α} {t : Tab α} {n k : Nat} :
    Tab.read dflt (t.dropWhile (fun x => decide (x.1 < n))) k = if n ≤ k then Tab.read dflt t k else dflt k := by
  induction t with
  | nil => simp [Tab.read]
  | cons e r ih =>
    rw [List.dropWhile_cons]
    by_cases h : e.1 < n
    · simp only [h, decide_true, if_true, ih]
      split
      · have h1 : ¬ k < e.1 := by omega
        have h2 : k ≠ e.1 := by omega
        simp [Tab.read, h1, h2]
      · rfl
    · simp only [h, decide_false, Bool.false_eq_true, if_false]
      split
      · rfl
      · have : k < e.1 := by omega
        simp [Tab.read, this]

/-- A cleared key reads as the default, and every other key as before. -/
theorem Tab.read_clear {dflt : Nat → α} {t : Tab α} {lo hi k : Nat} :
    Tab.read dflt (Tab.clear t lo hi) k = if lo ≤ k ∧ k < hi then dflt k else Tab.read dflt t k := by
  induction t with
  | nil => simp [Tab.clear, Tab.read]
  | cons e r ih =>
    unfold Tab.clear at ih ⊢
    by_cases h : e.1 < lo
    · simp only [List.takeWhile_cons, List.dropWhile_cons, h, decide_true, if_true, List.cons_append, Tab.read, ih]
      by_cases hc : lo ≤ k ∧ k < hi
      · have h1 : ¬ k < e.1 := by omega
        have h2 : k ≠ e.1 := by omega
        simp [h1, h2, hc]
      · simp [hc]
    · simp only [List.takeWhile_cons, List.dropWhile_cons, h, decide_false, Bool.false_eq_true, if_false,
        List.nil_append]
      have := Tab.read_dropWhile (dflt := dflt) (t := e :: r) (n := hi) (k := k)
      rw [List.dropWhile_cons] at this
      rw [this]
      by_cases h1 : hi ≤ k
      · have : ¬ k < hi := by omega
        simp [h1, this]
      · by_cases h2 : lo ≤ k
        · have : k < hi := by omega
          simp [h1, h2, this]
        · have : k < e.1 := by omega
          simp [h1, h2, Tab.read, this]

/-- Nothing of a rising array lies below its bound. -/
theorem Tab.dropWhile_self {t : Tab α} {lo k : Nat} (h : Tab.rising t lo = true) (hk : k < lo) :
    t.dropWhile (fun x => decide (x.1 ≤ k)) = t := by
  cases t with
  | nil => rfl
  | cons x q =>
    simp only [Tab.rising, Bool.and_eq_true, decide_eq_true_eq] at h
    have : ¬ x.1 ≤ k := by omega
    simp [this]

variable [DecidableEq α]

theorem Tab.write_rising {dflt : Nat → α} {t : Tab α} {lo k : Nat} {v : α} (h : Tab.rising t lo = true) (hk : lo ≤ k) :
    Tab.rising (Tab.write dflt t k v) lo = true := by
  induction t generalizing lo with
  | nil => unfold Tab.write; split <;> simp [Tab.rising, hk]
  | cons e r ih =>
    have h' := h
    simp only [Tab.rising, Bool.and_eq_true, decide_eq_true_eq] at h
    unfold Tab.write
    split
    · rename_i h1
      split
      · exact h'
      · simp only [Tab.rising, Bool.and_eq_true, decide_eq_true_eq]; exact ⟨hk, by omega, h.2⟩
    · split
      · rename_i h2
        split
        · rw [Tab.dropWhile_self h.2 (by omega)]; exact Tab.rising_mono h.2 (by omega)
        · simp only [Tab.rising, Bool.and_eq_true, decide_eq_true_eq]; subst h2; exact h
      · simp only [Tab.rising, Bool.and_eq_true, decide_eq_true_eq]; exact ⟨h.1, ih h.2 (by omega)⟩

theorem Tab.wf_iff {dflt : Nat → α} {t : Tab α} :
    Tab.wf dflt t = true ↔ Tab.rising t 0 = true ∧ ∀ e ∈ t, e.2 ≠ dflt e.1 := by
  simp [Tab.wf, List.all_eq_true]

theorem Tab.mem_write {dflt : Nat → α} {t : Tab α} {k : Nat} {v : α} {e : Nat × α} (h : e ∈ Tab.write dflt t k v) :
    e ∈ t ∨ (e = (k, v) ∧ v ≠ dflt k) := by
  induction t with
  | nil => unfold Tab.write at h; split at h <;> simp_all
  | cons a r ih =>
    have hd := fun x (hx : x ∈ r.dropWhile (fun x => decide (x.1 ≤ k))) => (List.dropWhile_sublist _).subset hx
    unfold Tab.write at h
    grind

/-- A write keeps the canonical form. -/
theorem Tab.write_wf {dflt : Nat → α} {t : Tab α} {k : Nat} {v : α} (h : Tab.wf dflt t = true) :
    Tab.wf dflt (Tab.write dflt t k v) = true := by
  rw [Tab.wf_iff] at h ⊢
  refine ⟨Tab.write_rising h.1 (Nat.zero_le _), fun e he => ?_⟩
  rcases Tab.mem_write he with h1 | ⟨rfl, h1⟩
  · exact h.2 e h1
  · exact h1

/-- So does a write of several values. -/
theorem Tab.writeN_wf {dflt : Nat → α} {t : Tab α} {k : Nat} {vs : List α} (h : Tab.wf dflt t = true) :
    Tab.wf dflt (Tab.writeN dflt t k vs) = true := by
  induction vs generalizing t k with
  | nil => exact h
  | cons v r ih => exact ih (Tab.write_wf h)

/-- So does clearing a range. -/
theorem Tab.clear_wf {dflt : Nat → α} {t : Tab α} {lo hi : Nat} (h : Tab.wf dflt t = true) :
    Tab.wf dflt (Tab.clear t lo hi) = true := by
  rw [Tab.wf_iff] at h ⊢
  rw [Tab.clear_eq_filter h.1]
  exact ⟨Tab.filter_rising _ h.1, fun e he => h.2 e (List.mem_filter.mp he).1⟩

/-- The canonical form depends on the default at listed keys alone. -/
theorem Tab.wf_congr {f g : Nat → α} {t : Tab α} (h : Tab.wf f t = true) (hg : ∀ e ∈ t, g e.1 = f e.1) :
    Tab.wf g t = true := by
  rw [Tab.wf_iff] at h ⊢
  exact ⟨h.1, fun e he => by rw [hg e he]; exact h.2 e he⟩

/-- A read after a write of the same key gives the value written. -/
theorem Tab.read_write_same {dflt : Nat → α} {t : Tab α} {k : Nat} {v : α} :
    Tab.read dflt (Tab.write dflt t k v) k = v := by
  induction t with
  | nil => unfold Tab.write; split <;> simp_all [Tab.read]
  | cons e r ih =>
    unfold Tab.write
    split
    · rename_i h1
      split
      · rename_i h2; simp [Tab.read, h1, h2]
      · simp [Tab.read]
    · rename_i h1
      split
      · rename_i h2
        split
        · rename_i h3
          simp only [← Nat.lt_succ_iff, Nat.succ_eq_add_one]
          rw [Tab.read_dropWhile, if_neg (by omega), h3]
        · simp [Tab.read]
      · rename_i h2; simp only [Tab.read, h1, h2, if_false]; exact ih

/-- A write leaves every other key alone. -/
theorem Tab.read_write_other {dflt : Nat → α} {t : Tab α} {k j : Nat} {v : α} (hj : j ≠ k) :
    Tab.read dflt (Tab.write dflt t k v) j = Tab.read dflt t j := by
  induction t with
  | nil => unfold Tab.write; split <;> simp [Tab.read, hj]
  | cons e r ih =>
    unfold Tab.write
    split
    · rename_i h1
      split
      · rfl
      · simp only [Tab.read, hj, if_false]
        split
        · have : j < e.1 := by omega
          simp [this]
        · rfl
    · rename_i h1
      split
      · rename_i h2
        split
        · simp only [← Nat.lt_succ_iff, Nat.succ_eq_add_one]
          rw [Tab.read_dropWhile]
          simp only [Tab.read]
          split
          · have h3 : ¬ j < e.1 := by omega
            have h4 : j ≠ e.1 := by omega
            simp [h3, h4]
          · have : j < e.1 := by omega
            simp [this]
        · simp [Tab.read, ← h2, hj]
      · simp only [Tab.read, ih]

/-- A write of several values leaves the keys outside them alone. -/
theorem Tab.read_writeN_other {dflt : Nat → α} {t : Tab α} {k j : Nat} {vs : List α}
    (hj : j < k ∨ k + vs.length ≤ j) : Tab.read dflt (Tab.writeN dflt t k vs) j = Tab.read dflt t j := by
  induction vs generalizing t k with
  | nil => rfl
  | cons v r ih =>
    simp only [List.length_cons] at hj
    rw [Tab.writeN, ih (by omega)]
    exact Tab.read_write_other (by omega)

/-- Values written and read back are the values written. -/
theorem Tab.read_writeN_same {dflt : Nat → α} {t : Tab α} {k : Nat} {vs : List α}
    {i : Nat} (hi : i < vs.length) : Tab.read dflt (Tab.writeN dflt t k vs) (k + i) = vs[i] := by
  induction vs generalizing t k i with
  | nil => exact absurd hi (Nat.not_lt_zero _)
  | cons v r ih =>
    rw [Tab.writeN]
    cases i with
    | zero =>
      rw [Nat.add_zero, Tab.read_writeN_other (by omega)]
      exact Tab.read_write_same
    | succ i =>
      have := ih (t := Tab.write dflt t k v) (k := k + 1) (i := i) (by simpa using hi)
      simpa [Nat.add_assoc, Nat.add_comm 1 i] using this

end Sys2Proof.Machine
end

