-- ==== Sys2Proof/Laws/Kept.lean ====
section
/-! SUPPORT. What every command keeps: the grade that the fuses give (R1, R2), and the canonical form of every memory.
The
files beside this one prove it of every operation, one lemma each. -/

namespace Sys2Proof.Machine
open Sys2Proof

/-- The memories of `e` are canonical where those of `d` are, and `e` has the grade of `d`. -/
structure Kept (d e : Dev) : Prop where
  grade : e.fuses.grade = d.fuses.grade
  mems : canonical d = true → canonical e = true

/-- `Kept`, by the fields it is about: an operation that touches none of them keeps them. -/
theorem kept_iff {d e : Dev} : Kept d e ↔ e.fuses.grade = d.fuses.grade ∧
    (memsCanonical d.dram d.scratch d.bbuf d.sramEpoch d.abuf d.accs d.bauEpoch = true →
      memsCanonical e.dram e.scratch e.bbuf e.sramEpoch e.abuf e.accs e.bauEpoch = true) :=
  ⟨fun h => ⟨h.1, h.2⟩, fun h => ⟨h.1, h.2⟩⟩

theorem Kept.refl (a : Dev) : Kept a a := ⟨rfl, id⟩
theorem Kept.trans {a b c : Dev} (h : Kept a b) (k : Kept b c) : Kept a c := ⟨k.1.trans h.1, fun w => k.2 (h.2 w)⟩

theorem foldl_kept {β : Type} (f : Dev → β → Dev) (l : List β) (d : Dev) (h : ∀ a x, Kept a (f a x)) :
    Kept d (l.foldl f d) := by
  induction l generalizing d with
  | nil => exact Kept.refl d
  | cons x r ih => exact (h d x).trans (ih (f d x))

/-- The same where the steps carry a value beside the device. -/
theorem foldl_kept_fst {α β : Type} (f : Dev × α → β → Dev × α) (l : List β) (x : Dev × α)
    (h : ∀ a y, Kept a.1 (f a y).1) : Kept x.1 (l.foldl f x).1 := by
  induction l generalizing x with
  | nil => exact Kept.refl _
  | cons y r ih => exact (h x y).trans (ih (f x y))

theorem Acc.andThen_ok {α β : Type} {x : Acc α} {f : α → Acc β} {r : β} (h : x.andThen f = .ok r) :
    ∃ a, x = .ok a ∧ f a = .ok r := by
  cases x with
  | error e => cases h
  | ok a => exact ⟨a, rfl, h⟩

/-- An access with a follow-up answers through its stop or through its result. -/
theorem Acc.fold_ok {α β : Type} {x : Acc α} {g : Stop → Acc β} {f : α → Acc β} {r : β} (h : x.fold g f = .ok r) :
    (∃ e, x = .error e ∧ g e = .ok r) ∨ ∃ a, x = .ok a ∧ f a = .ok r := by
  cases x with
  | error e => exact .inl ⟨e, rfl, h⟩
  | ok a => exact .inr ⟨a, rfl, h⟩

theorem Acc.fold_kept {α : Type} {d : Dev} {x : Acc α} {g : Stop → Dev} {f : α → Dev} (hg : ∀ e, Kept d (g e))
    (hf : ∀ a, x = .ok a → Kept d (f a)) : Kept d (x.fold g f) := by
  cases x with
  | error e => exact hg e
  | ok a => exact hf a rfl

theorem State.always_kept {s t : State} {f : Dev → Dev} (hf : Kept s.dev (f s.dev)) (h : s.always f = .next t) :
    Kept s.dev t.dev := by
  unfold State.always at h; cases h; exact hf

theorem State.checked_kept {s t : State} {ok : Bool} {f : Dev → Dev} (hf : Kept s.dev (f s.dev))
    (h : s.checked ok f = .next t) : Kept s.dev t.dev := by
  unfold State.checked at h
  split at h
  · exact State.always_kept hf h
  · cases h

theorem Dev.inOrder_kept (d : Dev) (i : Instr) (f : Dev → Dev) (hf : ∀ a, Kept a (f a)) : Kept d (d.inOrder i f) := by
  unfold Dev.inOrder
  split
  · exact hf d
  · exact ⟨rfl, id⟩

theorem Dev.ask_kept (d : Dev) (who : Agent) (i : Instr) (f : Dev → Dev) (hf : ∀ a, Kept a (f a)) :
    Kept d (d.ask who i f) := by
  unfold Dev.ask
  split
  · exact Dev.inOrder_kept d i f hf
  · exact hf d

theorem State.hosted_kept {s t : State} {i : Instr} {f : Dev → Dev} (hf : ∀ a, Kept a (f a))
    (h : s.hosted i f = .next t) : Kept s.dev t.dev := State.always_kept (Dev.inOrder_kept _ i f hf) h

theorem State.asked_kept {s t : State} {who : Agent} {i : Instr} {f : Dev → Dev} (hf : ∀ a, Kept a (f a))
    (h : s.asked who i f = .next t) : Kept s.dev t.dev := State.always_kept (Dev.ask_kept _ who i f hf) h

/-! ### The operations that write a memory -/

theorem memsCanonical_iff {dram scratch bbuf : Mem} {sram : Tab Nat} {abuf : Mem} {accs : Tab Word} {bau : Tab Nat} :
    memsCanonical dram scratch bbuf sram abuf accs bau = true ↔
      Tab.wf zeroByte dram = true ∧ Tab.wf (sramUnlisted sram (32 * cellBytes)) scratch = true ∧
      Tab.wf (sramUnlisted sram (4 * bbufBytes)) bbuf = true ∧ Tab.wf (fun _ => 0) sram = true ∧
      Tab.wf (abufUnlisted bau) abuf = true ∧ Tab.wf (accUnlisted bau) accs = true ∧ Tab.wf (fun _ => 0) bau = true :=
          by
  simp [memsCanonical, Memory.wf, and_assoc]

theorem Dev.putChunk_kept (d : Dev) (st die : Nat) (p : Stripe) (bytes : List Byte) (m : Nat) :
    Kept d (Dev.putChunk d st die p bytes m) := by
  rw [kept_iff]
  refine ⟨rfl, fun h => ?_⟩
  rw [memsCanonical_iff] at h ⊢
  exact ⟨Tab.writeN_wf h.1, h.2⟩

theorem Dev.bbufWrite_kept (d : Dev) (k a : Nat) (bytes : List Byte) : Kept d (Dev.bbufWrite d k a bytes) := by
  rw [kept_iff]
  refine ⟨rfl, fun h => ?_⟩
  rw [memsCanonical_iff] at h ⊢
  exact ⟨h.1, h.2.1, Tab.writeN_wf h.2.2.1, h.2.2.2⟩

theorem Dev.cellWrite_kept (d : Dev) (g a : Nat) (bytes : List Byte) : Kept d (Dev.cellWrite d g a bytes) := by
  rw [kept_iff]
  refine ⟨rfl, fun h => ?_⟩
  rw [memsCanonical_iff] at h ⊢
  exact ⟨h.1, Tab.writeN_wf h.2.1, h.2.2⟩

theorem Dev.abufWrite_kept (d : Dev) (ck o : Nat) (bytes : List Byte) : Kept d (Dev.abufWrite d ck o bytes) := by
  rw [kept_iff]
  refine ⟨rfl, fun h => ?_⟩
  rw [memsCanonical_iff] at h ⊢
  exact ⟨h.1, h.2.1, h.2.2.1, h.2.2.2.1, Tab.writeN_wf h.2.2.2.2.1, h.2.2.2.2.2⟩

theorem Dev.setAcc_kept (d : Dev) (ck i : Nat) (v : FpVal) : Kept d (Dev.setAcc d ck i v) := by
  rw [kept_iff]
  refine ⟨rfl, fun h => ?_⟩
  rw [memsCanonical_iff] at h ⊢
  exact ⟨h.1, h.2.1, h.2.2.1, h.2.2.2.1, h.2.2.2.2.1, Tab.write_wf h.2.2.2.2.2.1, h.2.2.2.2.2.2⟩

theorem Dev.setAccs_kept (d : Dev) (ck i : Nat) (vs : List FpVal) : Kept d (Dev.setAccs d ck i vs) := by
  rw [kept_iff]
  refine ⟨rfl, fun h => ?_⟩
  rw [memsCanonical_iff] at h ⊢
  exact ⟨h.1, h.2.1, h.2.2.1, h.2.2.2.1, h.2.2.2.2.1, Tab.writeN_wf h.2.2.2.2.2.1, h.2.2.2.2.2.2⟩

/-- A fresh draw for group `r` of an array whose groups are `span` keys: with the group's entries gone, the array is
canonical for the new draws. -/
theorem redraw_wf {α : Type} [DecidableEq α] {g : Nat → Nat → α} {t : Tab α} {ep : Tab Nat} {r v : Nat}
    (q : Nat → Nat) (lo hi : Nat) (hq : ∀ k, k < lo ∨ hi ≤ k → q k ≠ r)
    (h : Tab.wf (fun k => g (Tab.read (fun _ => 0) ep (q k)) k) t = true) :
    Tab.wf (fun k => g (Tab.read (fun _ => 0) (Tab.write (fun _ => 0) ep r v) (q k)) k) (Tab.clear t lo hi) = true := by
  refine Tab.wf_congr (Tab.clear_wf (lo := lo) (hi := hi) h) fun e he => ?_
  rw [Tab.clear_eq_filter (Tab.wf_iff.mp h).1] at he
  have hk := (List.mem_filter.mp he).2
  simp only [Bool.or_eq_true, decide_eq_true_eq] at hk
  simp only [Tab.read_write_other (hq e.1 hk)]

theorem Dev.scrapSram_kept (d : Dev) (r : Nat) : Kept d (Dev.scrapSram d r) := by
  rw [kept_iff]
  refine ⟨rfl, fun h => ?_⟩
  rw [memsCanonical_iff] at h ⊢
  obtain ⟨h1, h2, h3, h4, h5⟩ := h
  refine ⟨h1, ?_, ?_, Tab.write_wf h4, h5⟩
  · refine redraw_wf (g := fun e k => if e = 0 then 0 else Config.freeByte e k) (fun k => k / (32 * cellBytes)) _ _ ?_
      h2
    intro k hk; simp only [cellBytes] at hk ⊢; omega
  · refine redraw_wf (g := fun e k => if e = 0 then 0 else Config.freeByte e k) (fun k => k / (4 * bbufBytes)) _ _ ?_ h3
    intro k hk; simp only [bbufBytes] at hk ⊢; omega

theorem Dev.dropLatches_kept (d : Dev) (st : Nat) : Kept d (Dev.dropLatches d st) := by
  have k : ∀ (e : Dev) (f : StackSt → StackSt), Kept e (e.modStk st f) := fun e f => ⟨rfl, id⟩
  have c : ∀ (e : Dev) (n : Nat) (f : BCell → BCell), Kept e (e.modBcell n f) := fun e n f => ⟨rfl, id⟩
  unfold Dev.dropLatches
  exact (foldl_kept _ _ d fun a n => c a n _).trans (k _ _)

theorem Dev.redrawBau_kept (d : Dev) (st : Nat) : Kept d (Dev.redrawBau d st) := by
  rw [kept_iff]
  refine ⟨rfl, fun h => ?_⟩
  rw [memsCanonical_iff] at h ⊢
  obtain ⟨h1, h2, h3, h4, h5, h6, h7⟩ := h
  refine ⟨h1, h2, h3, h4, ?_, ?_, Tab.write_wf h7⟩
  · refine redraw_wf (g := fun e k => Config.freeByte e k) (fun k => k / 32768 / 1152) _ _ ?_ h5
    intro k hk; omega
  · refine redraw_wf (g := fun e k => Config.freeWord e k) (fun k => k / 2048 / 1152) _ _ ?_ h6
    intro k hk; omega

theorem Dev.scrapBau_kept (d : Dev) (st : Nat) : Kept d (Dev.scrapBau d st) :=
  (Dev.dropLatches_kept d st).trans (Dev.redrawBau_kept _ st)

end Sys2Proof.Machine
end

