-- ==== Sys2Proof/Laws/KeptUnits.lean ====
section
/-! SUPPORT. What every command keeps (Laws/Kept.lean), operation by operation: setters of the units. -/

namespace Sys2Proof.Machine
open Sys2Proof

-- One proof at a time: each proof that waits for another keeps a thread, and a thread its stack.
set_option Elab.async false

theorem Dev.setCtr_kept (d : Dev) (k : Nat) (x : Counter) : Kept d (Dev.setCtr d k x) := by
  unfold Dev.setCtr
  grind -ring -linarith -order only [kept_iff]
theorem Dev.modCtr_kept (d : Dev) (k : Nat) (f : Counter → Counter) : Kept d (Dev.modCtr d k f) := by
  unfold Dev.modCtr
  grind -ring -linarith -order only [kept_iff, Dev.setCtr_kept]
theorem Dev.setFlag_kept (d : Dev) (k : Nat) (x : Nat) : Kept d (Dev.setFlag d k x) := by
  unfold Dev.setFlag
  grind -ring -linarith -order only [kept_iff]
theorem Dev.modFlag_kept (d : Dev) (k : Nat) (f : Nat → Nat) : Kept d (Dev.modFlag d k f) := by
  unfold Dev.modFlag
  grind -ring -linarith -order only [kept_iff, Dev.setFlag_kept]
theorem Dev.setWaitq_kept (d : Dev) (k : Nat) (x : List Nat) : Kept d (Dev.setWaitq d k x) := by
  unfold Dev.setWaitq
  grind -ring -linarith -order only [kept_iff]
theorem Dev.modWaitq_kept (d : Dev) (k : Nat) (f : List Nat → List Nat) : Kept d (Dev.modWaitq d k f) := by
  unfold Dev.modWaitq
  grind -ring -linarith -order only [kept_iff, Dev.setWaitq_kept]
theorem Dev.setQueue_kept (d : Dev) (k : Nat) (x : Queue) : Kept d (Dev.setQueue d k x) := by
  unfold Dev.setQueue
  grind -ring -linarith -order only [kept_iff]
theorem Dev.modQueue_kept (d : Dev) (k : Nat) (f : Queue → Queue) : Kept d (Dev.modQueue d k f) := by
  unfold Dev.modQueue
  grind -ring -linarith -order only [kept_iff, Dev.setQueue_kept]
theorem Dev.setRegion_kept (d : Dev) (k : Nat) (x : RegionSt) : Kept d (Dev.setRegion d k x) := by
  unfold Dev.setRegion
  grind -ring -linarith -order only [kept_iff]
theorem Dev.modRegion_kept (d : Dev) (k : Nat) (f : RegionSt → RegionSt) : Kept d (Dev.modRegion d k f) := by
  unfold Dev.modRegion
  grind -ring -linarith -order only [kept_iff, Dev.setRegion_kept]
theorem Dev.setBlk_kept (d : Dev) (k : Nat) (x : BlockSt) : Kept d (Dev.setBlk d k x) := by
  unfold Dev.setBlk
  grind -ring -linarith -order only [kept_iff]
theorem Dev.modBlk_kept (d : Dev) (k : Nat) (f : BlockSt → BlockSt) : Kept d (Dev.modBlk d k f) := by
  unfold Dev.modBlk
  grind -ring -linarith -order only [kept_iff, Dev.setBlk_kept]
theorem Dev.setOpword_kept (d : Dev) (k : Nat) (x : Nat) : Kept d (Dev.setOpword d k x) := by
  unfold Dev.setOpword
  grind -ring -linarith -order only [kept_iff]
theorem Dev.modOpword_kept (d : Dev) (k : Nat) (f : Nat → Nat) : Kept d (Dev.modOpword d k f) := by
  unfold Dev.modOpword
  grind -ring -linarith -order only [kept_iff, Dev.setOpword_kept]
theorem Dev.setBufreg_kept (d : Dev) (k : Nat) (x : Word) : Kept d (Dev.setBufreg d k x) := by
  unfold Dev.setBufreg
  grind -ring -linarith -order only [kept_iff]
theorem Dev.modBufreg_kept (d : Dev) (k : Nat) (f : Word → Word) : Kept d (Dev.modBufreg d k f) := by
  unfold Dev.modBufreg
  grind -ring -linarith -order only [kept_iff, Dev.setBufreg_kept]
theorem Dev.setCell_kept (d : Dev) (k : Nat) (x : CellSt) : Kept d (Dev.setCell d k x) := by
  unfold Dev.setCell
  grind -ring -linarith -order only [kept_iff]
theorem Dev.modCell_kept (d : Dev) (k : Nat) (f : CellSt → CellSt) : Kept d (Dev.modCell d k f) := by
  unfold Dev.modCell
  grind -ring -linarith -order only [kept_iff, Dev.setCell_kept]
theorem Dev.setStk_kept (d : Dev) (k : Nat) (x : StackSt) : Kept d (Dev.setStk d k x) := by
  unfold Dev.setStk
  grind -ring -linarith -order only [kept_iff]
theorem Dev.modStk_kept (d : Dev) (k : Nat) (f : StackSt → StackSt) : Kept d (Dev.modStk d k f) := by
  unfold Dev.modStk
  grind -ring -linarith -order only [kept_iff, Dev.setStk_kept]
theorem Dev.setBcell_kept (d : Dev) (k : Nat) (x : BCell) : Kept d (Dev.setBcell d k x) := by
  unfold Dev.setBcell
  grind -ring -linarith -order only [kept_iff]
theorem Dev.modBcell_kept (d : Dev) (k : Nat) (f : BCell → BCell) : Kept d (Dev.modBcell d k f) := by
  unfold Dev.modBcell
  grind -ring -linarith -order only [kept_iff, Dev.setBcell_kept]
theorem Dev.setDom_kept (d : Dev) (k : Nat) (x : Dom) : Kept d (Dev.setDom d k x) := by
  unfold Dev.setDom
  grind -ring -linarith -order only [kept_iff]
theorem Dev.modDom_kept (d : Dev) (k : Nat) (f : Dom → Dom) : Kept d (Dev.modDom d k f) := by
  unfold Dev.modDom
  grind -ring -linarith -order only [kept_iff, Dev.setDom_kept]
theorem Dev.setReq_kept (d : Dev) (k : Nat) (x : Req) : Kept d (Dev.setReq d k x) := by
  unfold Dev.setReq
  grind -ring -linarith -order only [kept_iff]
theorem Dev.modReq_kept (d : Dev) (k : Nat) (f : Req → Req) : Kept d (Dev.modReq d k f) := by
  unfold Dev.modReq
  grind -ring -linarith -order only [kept_iff, Dev.setReq_kept]
theorem Dev.setCust_kept (d : Dev) (k : Nat) (x : Cust) : Kept d (Dev.setCust d k x) := by
  unfold Dev.setCust
  grind -ring -linarith -order only [kept_iff]
theorem Dev.modCust_kept (d : Dev) (k : Nat) (f : Cust → Cust) : Kept d (Dev.modCust d k f) := by
  unfold Dev.modCust
  grind -ring -linarith -order only [kept_iff, Dev.setCust_kept]
theorem Dev.setRing_kept (d : Dev) (k : Nat) (x : Ring) : Kept d (Dev.setRing d k x) := by
  unfold Dev.setRing
  grind -ring -linarith -order only [kept_iff]
theorem Dev.modRing_kept (d : Dev) (k : Nat) (f : Ring → Ring) : Kept d (Dev.modRing d k f) := by
  unfold Dev.modRing
  grind -ring -linarith -order only [kept_iff, Dev.setRing_kept]
theorem Dev.setTdie_kept (d : Dev) (k : Nat) (x : TDieSt) : Kept d (Dev.setTdie d k x) := by
  unfold Dev.setTdie
  grind -ring -linarith -order only [kept_iff]
theorem Dev.modTdie_kept (d : Dev) (k : Nat) (f : TDieSt → TDieSt) : Kept d (Dev.modTdie d k f) := by
  unfold Dev.modTdie
  grind -ring -linarith -order only [kept_iff, Dev.setTdie_kept]
theorem Dev.setSensor_kept (d : Dev) (k : Nat) (x : Sensor) : Kept d (Dev.setSensor d k x) := by
  unfold Dev.setSensor
  grind -ring -linarith -order only [kept_iff]
theorem Dev.modSensor_kept (d : Dev) (k : Nat) (f : Sensor → Sensor) : Kept d (Dev.modSensor d k f) := by
  unfold Dev.modSensor
  grind -ring -linarith -order only [kept_iff, Dev.setSensor_kept]
theorem Dev.setThdie_kept (d : Dev) (k : Nat) (x : ThDie) : Kept d (Dev.setThdie d k x) := by
  unfold Dev.setThdie
  grind -ring -linarith -order only [kept_iff]
theorem Dev.modThdie_kept (d : Dev) (k : Nat) (f : ThDie → ThDie) : Kept d (Dev.modThdie d k f) := by
  unfold Dev.modThdie
  grind -ring -linarith -order only [kept_iff, Dev.setThdie_kept]
theorem Dev.setSpan_kept (d : Dev) (k : Nat) (x : Span) : Kept d (Dev.setSpan d k x) := by
  unfold Dev.setSpan
  grind -ring -linarith -order only [kept_iff]
theorem Dev.modSpan_kept (d : Dev) (k : Nat) (f : Span → Span) : Kept d (Dev.modSpan d k f) := by
  unfold Dev.modSpan
  grind -ring -linarith -order only [kept_iff, Dev.setSpan_kept]
theorem Dev.setShadow_kept (d : Dev) (k : Nat) (x : Option Shadow) : Kept d (Dev.setShadow d k x) := by
  unfold Dev.setShadow
  grind -ring -linarith -order only [kept_iff]
theorem Dev.modShadow_kept (d : Dev) (k : Nat) (f : Option Shadow → Option Shadow) : Kept d (Dev.modShadow d k f) :=
    by
  unfold Dev.modShadow
  grind -ring -linarith -order only [kept_iff, Dev.setShadow_kept]
theorem Dev.setRounds_kept (d : Dev) (k : Nat) (x : List Round) : Kept d (Dev.setRounds d k x) := by
  unfold Dev.setRounds
  grind -ring -linarith -order only [kept_iff]
theorem Dev.modRounds_kept (d : Dev) (k : Nat) (f : List Round → List Round) : Kept d (Dev.modRounds d k f) := by
  unfold Dev.modRounds
  grind -ring -linarith -order only [kept_iff, Dev.setRounds_kept]
theorem Dev.setHeldHalf_kept (d : Dev) (k : Nat) (x : Option Word) : Kept d (Dev.setHeldHalf d k x) := by
  unfold Dev.setHeldHalf
  grind -ring -linarith -order only [kept_iff]
theorem Dev.modHeldHalf_kept (d : Dev) (k : Nat) (f : Option Word → Option Word) : Kept d (Dev.modHeldHalf d k f) :=
    by
  unfold Dev.modHeldHalf
  grind -ring -linarith -order only [kept_iff, Dev.setHeldHalf_kept]
theorem Dev.setLatchedHalf_kept (d : Dev) (k : Nat) (x : Option Word) : Kept d (Dev.setLatchedHalf d k x) := by
  unfold Dev.setLatchedHalf
  grind -ring -linarith -order only [kept_iff]
theorem Dev.modLatchedHalf_kept (d : Dev) (k : Nat) (f : Option Word → Option Word) : Kept d (Dev.modLatchedHalf d k
    f) := by
  unfold Dev.modLatchedHalf
  grind -ring -linarith -order only [kept_iff, Dev.setLatchedHalf_kept]
theorem Dev.setXparity_kept (d : Dev) (k : Nat) (x : Nat) : Kept d (Dev.setXparity d k x) := by
  unfold Dev.setXparity
  grind -ring -linarith -order only [kept_iff]
theorem Dev.modXparity_kept (d : Dev) (k : Nat) (f : Nat → Nat) : Kept d (Dev.modXparity d k f) := by
  unfold Dev.modXparity
  grind -ring -linarith -order only [kept_iff, Dev.setXparity_kept]
theorem Dev.setPennant_kept (d : Dev) (k : Nat) (x : Bool) : Kept d (Dev.setPennant d k x) := by
  unfold Dev.setPennant
  grind -ring -linarith -order only [kept_iff]
theorem Dev.modPennant_kept (d : Dev) (k : Nat) (f : Bool → Bool) : Kept d (Dev.modPennant d k f) := by
  unfold Dev.modPennant
  grind -ring -linarith -order only [kept_iff, Dev.setPennant_kept]
theorem Dev.setMsixEntry_kept (d : Dev) (k : Nat) (x : MsixEntry) : Kept d (Dev.setMsixEntry d k x) := by
  unfold Dev.setMsixEntry
  grind -ring -linarith -order only [kept_iff]
theorem Dev.modMsixEntry_kept (d : Dev) (k : Nat) (f : MsixEntry → MsixEntry) : Kept d (Dev.modMsixEntry d k f) :=
    by
  unfold Dev.modMsixEntry
  grind -ring -linarith -order only [kept_iff, Dev.setMsixEntry_kept]
theorem Dev.setPbaBit_kept (d : Dev) (k : Nat) (x : Bool) : Kept d (Dev.setPbaBit d k x) := by
  unfold Dev.setPbaBit
  grind -ring -linarith -order only [kept_iff]
theorem Dev.modPbaBit_kept (d : Dev) (k : Nat) (f : Bool → Bool) : Kept d (Dev.modPbaBit d k f) := by
  unfold Dev.modPbaBit
  grind -ring -linarith -order only [kept_iff, Dev.setPbaBit_kept]

end Sys2Proof.Machine
end

