-- ==== Sys2Proof/Laws/KeptOps.lean ====
section
/-! SUPPORT. What every command keeps (Laws/Kept.lean), operation by operation: shared operations, events, clocks,
thermal control. -/

namespace Sys2Proof.Machine
open Sys2Proof

-- One proof at a time: each proof that waits for another keeps a thread, and a thread its stack.
set_option Elab.async false

theorem Dev.when_kept (d : Dev) (c : Bool) (f : Dev → Dev) (hf : ∀ a, Kept a (f a)) : Kept d (Dev.when d c f) := by
  unfold Dev.when; grind -ring -linarith -order only [kept_iff]
theorem Dev.hold_kept (d : Dev) (i : Instr) : Kept d (Dev.hold d i) := by
  unfold Dev.hold
  grind -ring -linarith -order only [kept_iff]
theorem Dev.drawn_kept (d : Dev) : Kept d (Dev.drawn d) := by
  unfold Dev.drawn
  grind -ring -linarith -order only [kept_iff]
theorem Dev.emit_kept (d : Dev) (o : Out) : Kept d (Dev.emit d o) := by
  unfold Dev.emit
  grind -ring -linarith -order only [kept_iff]
theorem Dev.mirrorSend_kept (d : Dev) (x : TwinItem) : Kept d (Dev.mirrorSend d x) := by
  unfold Dev.mirrorSend
  grind -ring -linarith -order only [kept_iff, Dev.emit_kept]
theorem Dev.mirrorQueued_kept (d : Dev) (x : TwinItem) : Kept d (Dev.mirrorQueued d x) := by
  unfold Dev.mirrorQueued
  grind -ring -linarith -order only [kept_iff, Dev.mirrorSend_kept]
theorem Dev.raise_kept (d : Dev) (src : Nat) : Kept d (Dev.raise d src) := by
  unfold Dev.raise
  grind -ring -linarith -order only [kept_iff]
theorem Dev.withdraw_kept (d : Dev) (src : Nat) : Kept d (Dev.withdraw d src) := by
  unfold Dev.withdraw
  grind -ring -linarith -order only [kept_iff]
theorem Dev.saturated_kept (d : Dev) (off : Nat) : Kept d (Dev.saturated d off) := by
  unfold Dev.saturated
  grind -ring -linarith -order only [kept_iff, Dev.raise_kept]
theorem Dev.bumpBy_kept (d : Dev) (off k : Nat) : Kept d (Dev.bumpBy d off k) := by
  unfold Dev.bumpBy
  grind -ring -linarith -order only [kept_iff, Dev.saturated_kept, Dev.setCtr_kept]
theorem Dev.bump_kept (d : Dev) (off : Nat) : Kept d (Dev.bump d off) := by
  unfold Dev.bump
  grind -ring -linarith -order only [kept_iff, Dev.bumpBy_kept]
theorem Dev.recordFault_kept (d : Dev) (r code origin unit : Nat) : Kept d (Dev.recordFault d r code origin unit) :=
    by
  unfold Dev.recordFault
  grind -ring -linarith -order only [kept_iff, Dev.bump_kept, Dev.modRegion_kept, Dev.raise_kept]
theorem Dev.stopRegion_kept (d : Dev) (r o : Nat) : Kept d (Dev.stopRegion d r o) := by
  unfold Dev.stopRegion
  grind -ring -linarith -order only [kept_iff, Dev.recordFault_kept]
theorem Dev.alsoFaults_kept (d : Dev) (n r code unit : Nat) : Kept d (Dev.alsoFaults d n r code unit) := by
  unfold Dev.alsoFaults
  grind -ring -linarith -order only [foldl_kept, kept_iff, Dev.bump_kept, Dev.modRegion_kept]
theorem Dev.regionFault_kept (d : Dev) (r code unit : Nat) : Kept d (Dev.regionFault d r code unit) := by
  unfold Dev.regionFault
  grind -ring -linarith -order only [foldl_kept, kept_iff, Dev.alsoFaults_kept, Dev.bump_kept, Dev.modDom_kept,
      Dev.recordFault_kept,
    Dev.stopRegion_kept]
theorem Dev.enter_kept (d : Dev) (st : ChipState) : Kept d (Dev.enter d st) := by
  unfold Dev.enter
  grind -ring -linarith -order only [kept_iff, Dev.raise_kept]
theorem Dev.chipFault_kept (d : Dev) (code : Nat) : Kept d (Dev.chipFault d code) := by
  unfold Dev.chipFault
  grind -ring -linarith -order only [kept_iff, Dev.enter_kept]
theorem Dev.startFault_kept (d : Dev) (err : Nat) : Kept d (Dev.startFault d err) := by
  unfold Dev.startFault
  grind -ring -linarith -order only [kept_iff, Dev.enter_kept]
theorem Dev.blockHalt_kept (d : Dev) (r b code : Nat) (info : Word) : Kept d (Dev.blockHalt d r b code info) := by
  unfold Dev.blockHalt
  grind -ring -linarith -order only [kept_iff, Dev.modBlk_kept, Dev.regionFault_kept]
theorem Dev.stackHalt_kept (d : Dev) (s code : Nat) (info : Word) : Kept d (Dev.stackHalt d s code info) := by
  unfold Dev.stackHalt
  grind -ring -linarith -order only [kept_iff, Dev.modStk_kept, Dev.regionFault_kept]
theorem Dev.wakeRegion_kept (d : Dev) (r : Nat) : Kept d (Dev.wakeRegion d r) := by
  unfold Dev.wakeRegion
  grind -ring -linarith -order only [kept_iff, Dev.bump_kept]
theorem Dev.wakeStack_kept (d : Dev) (s : Nat) : Kept d (Dev.wakeStack d s) := by
  unfold Dev.wakeStack
  grind -ring -linarith -order only [kept_iff, Dev.bump_kept]
theorem Dev.startClock_kept (d : Dev) (t : Nat) : Kept d (Dev.startClock d t) := by
  unfold Dev.startClock
  grind -ring -linarith -order only [kept_iff, Dev.setTdie_kept]
theorem Dev.wakeUnit_kept (d : Dev) (r : Nat) : Kept d (Dev.wakeUnit d r) := by
  unfold Dev.wakeUnit
  grind -ring -linarith -order only [kept_iff, Dev.startClock_kept, Dev.wakeRegion_kept, Dev.wakeStack_kept]
theorem Dev.wakeDomain_kept (d : Dev) (n : Nat) : Kept d (Dev.wakeDomain d n) := by
  unfold Dev.wakeDomain
  apply foldl_kept
  intro a x
  grind -ring -linarith -order only [kept_iff, Dev.wakeUnit_kept]
theorem Dev.answer_kept (d : Dev) (who : Agent) (off : Nat) (v : Word) : Kept d (Dev.answer d who off v) := by
  unfold Dev.answer
  grind -ring -linarith -order only [kept_iff, Dev.emit_kept]
theorem Dev.sendVector_kept (d : Dev) (v : Nat) : Kept d (Dev.sendVector d v) := by
  unfold Dev.sendVector
  grind -ring -linarith -order only [kept_iff, Dev.emit_kept, Dev.setPbaBit_kept]
theorem Dev.message_kept (d : Dev) (t : Nat) : Kept d (Dev.message d t) := by
  unfold Dev.message
  grind -ring -linarith -order only [kept_iff, Dev.emit_kept, Dev.sendVector_kept]
theorem Dev.flushVectors_kept (d : Dev) : Kept d (Dev.flushVectors d) := by
  unfold Dev.flushVectors
  apply foldl_kept
  intro a x
  grind -ring -linarith -order only [kept_iff, Dev.sendVector_kept, Dev.setPbaBit_kept]
theorem Dev.ecUpdate_kept (d : Dev) (c : Conc) (also : List Nat) : Kept d (Dev.ecUpdate d c also) := by
  unfold Dev.ecUpdate
  grind -ring -linarith -order only [foldl_kept, kept_iff, Dev.message_kept]
theorem Dev.sourceDoorbell_kept (d : Dev) (n : Nat) : Kept d (Dev.sourceDoorbell d n) := by
  unfold Dev.sourceDoorbell
  grind -ring -linarith -order only [kept_iff, Dev.raise_kept]
theorem Dev.deliverEvent_kept (d : Dev) (n : Nat) (up : Bool) : Kept d (Dev.deliverEvent d n up) := by
  unfold Dev.deliverEvent
  grind -ring -linarith -order only [kept_iff, Dev.chipFault_kept, Dev.ecUpdate_kept]
theorem Dev.claimRead_kept (d : Dev) (who : Agent) (t : Nat) : Kept d (Dev.claimRead d who t).1 := by
  unfold Dev.claimRead
  grind -ring -linarith -order only [kept_iff, Dev.bump_kept, Dev.chipFault_kept, Dev.drawn_kept, Dev.ecUpdate_kept]
theorem Dev.claim_kept (d : Dev) (who : Agent) (t : Nat) : Kept d (Dev.claim d who t) := by
  unfold Dev.claim
  grind -ring -linarith -order only [kept_iff, Dev.answer_kept, Dev.claimRead_kept]
theorem Dev.eoi_kept (d : Dev) (who : Agent) (t n : Nat) : Kept d (Dev.eoi d who t n) := by
  unfold Dev.eoi
  grind -ring -linarith -order only [kept_iff, Dev.ecUpdate_kept]
theorem Dev.pendingWrite_kept (d : Dev) (who : Agent) (w : Nat) (v : Word) : Kept d (Dev.pendingWrite d who w v) :=
    by
  unfold Dev.pendingWrite
  grind -ring -linarith -order only [kept_iff, Dev.ecUpdate_kept]
theorem Dev.maskWrite_kept (d : Dev) (who : Agent) (w : Nat) (v : Word) : Kept d (Dev.maskWrite d who w v) := by
  unfold Dev.maskWrite
  grind -ring -linarith -order only [kept_iff, Dev.ecUpdate_kept]
theorem Dev.cfgWrite_kept (d : Dev) (n : Nat) (v : Word) : Kept d (Dev.cfgWrite d n v) := by
  unfold Dev.cfgWrite
  grind -ring -linarith -order only [kept_iff, Dev.ecUpdate_kept]
theorem Dev.holdWrite_kept (d : Dev) (who : Agent) (v : Word) : Kept d (Dev.holdWrite d who v) := by
  unfold Dev.holdWrite
  grind -ring -linarith -order only [kept_iff, Dev.ecUpdate_kept]
theorem Dev.holdExpire_kept (d : Dev) : Kept d (Dev.holdExpire d) := by
  unfold Dev.holdExpire
  grind -ring -linarith -order only [kept_iff, Dev.ecUpdate_kept]
theorem Dev.modeWrite_kept (d : Dev) (parjo : Bool) : Kept d (Dev.modeWrite d parjo) := by
  unfold Dev.modeWrite
  grind -ring -linarith -order only [kept_iff, Dev.ecUpdate_kept]
theorem Dev.runningWrite_kept (d : Dev) (t : Nat) (v : Word) : Kept d (Dev.runningWrite d t v) := by
  unfold Dev.runningWrite
  grind -ring -linarith -order only [kept_iff]
theorem execSourceDoorbell_kept (v : Word) (s : State) {t_ : State} (h_ : execSourceDoorbell v s = .next t_) : Kept
    s.dev t_.dev := by
  unfold execSourceDoorbell at h_
  refine State.hosted_kept (fun d => ?_) h_
  unfold Dev.when
  grind -ring -linarith -order only [kept_iff, Dev.sourceDoorbell_kept]
theorem execEventRaise_kept (src : BitVec 11) (s : State) {t_ : State} (h_ : execEventRaise src s = .next t_) : Kept
    s.dev t_.dev := by
  unfold execEventRaise at h_
  refine State.always_kept ?_ h_
  grind -ring -linarith -order only [kept_iff, Dev.deliverEvent_kept]
theorem execEventWithdraw_kept (src : BitVec 11) (s : State) {t_ : State} (h_ : execEventWithdraw src s = .next t_)
    : Kept s.dev t_.dev := by
  unfold execEventWithdraw at h_
  refine State.always_kept ?_ h_
  grind -ring -linarith -order only [kept_iff, Dev.deliverEvent_kept]
theorem execMsixUnmask_kept (vector : Fin 256) (s : State) {t_ : State} (h_ : execMsixUnmask vector s = .next t_) :
    Kept s.dev t_.dev := by
  unfold execMsixUnmask at h_
  refine State.hosted_kept (fun d => ?_) h_
  unfold Dev.when
  grind -ring -linarith -order only [kept_iff, Dev.flushVectors_kept, Dev.modMsixEntry_kept]
theorem execEcClaim_kept (who : Agent) (t : TargetNo) (s : State) {t_ : State} (h_ : execEcClaim who t s = .next t_)
    : Kept s.dev t_.dev := by
  unfold execEcClaim at h_
  refine State.asked_kept (fun d => ?_) h_
  unfold Dev.when
  grind -ring -linarith -order only [kept_iff, Dev.claim_kept]
theorem execEcEoi_kept (who : Agent) (t : TargetNo) (v : Word) (s : State) {t_ : State} (h_ : execEcEoi who t v s =
    .next t_) : Kept s.dev t_.dev := by
  unfold execEcEoi at h_
  refine State.asked_kept (fun d => ?_) h_
  unfold Dev.when
  grind -ring -linarith -order only [kept_iff, Dev.eoi_kept]
theorem execEcPendingWrite_kept (who : Agent) (w : Fin 64) (v : Word) (s : State) {t_ : State} (h_ :
    execEcPendingWrite who w v s = .next t_) : Kept s.dev t_.dev := by
  unfold execEcPendingWrite at h_
  refine State.asked_kept (fun d => ?_) h_
  unfold Dev.when
  grind -ring -linarith -order only [kept_iff, Dev.pendingWrite_kept]
theorem execEcHoldTake_kept (who : Agent) (v : Word) (s : State) {t_ : State} (h_ : execEcHoldTake who v s = .next
    t_) : Kept s.dev t_.dev := by
  unfold execEcHoldTake at h_
  refine State.checked_kept ?_ h_
  unfold Dev.when
  grind -ring -linarith -order only [kept_iff, Dev.ask_kept, Dev.holdWrite_kept]
theorem execEcHoldRelease_kept (who : Agent) (v : Word) (s : State) {t_ : State} (h_ : execEcHoldRelease who v s =
    .next t_) : Kept s.dev t_.dev := by
  unfold execEcHoldRelease at h_
  refine State.checked_kept ?_ h_
  unfold Dev.when
  grind -ring -linarith -order only [kept_iff, Dev.ask_kept, Dev.holdWrite_kept]
theorem execEcHoldExpire_kept (s : State) {t_ : State} (h_ : execEcHoldExpire s = .next t_) : Kept s.dev t_.dev :=
    by
  unfold execEcHoldExpire at h_
  refine State.always_kept ?_ h_
  unfold Dev.when
  grind -ring -linarith -order only [kept_iff, Dev.holdExpire_kept]
theorem execEcModeWrite_kept (v : Word) (s : State) {t_ : State} (h_ : execEcModeWrite v s = .next t_) : Kept s.dev
    t_.dev := by
  unfold execEcModeWrite at h_
  refine State.hosted_kept (fun d => ?_) h_
  unfold Dev.when
  grind -ring -linarith -order only [kept_iff, Dev.modeWrite_kept]
theorem Dev.beginRule_kept (d : Dev) (s w : Nat) : Kept d (Dev.beginRule d s w) := by
  unfold Dev.beginRule
  grind -ring -linarith -order only [kept_iff, Dev.bump_kept, Dev.modStk_kept]
theorem Dev.retarget_kept (d : Dev) (s : Nat) : Kept d (Dev.retarget d s) := by
  unfold Dev.retarget
  grind -ring -linarith -order only [kept_iff, Dev.beginRule_kept, Dev.setStk_kept]
theorem Dev.ruleWrite_kept (d : Dev) (s v : Nat) : Kept d (Dev.ruleWrite d s v) := by
  unfold Dev.ruleWrite
  grind -ring -linarith -order only [kept_iff, Dev.modStk_kept, Dev.retarget_kept]
theorem Dev.applyRule_kept (d : Dev) (s die : Nat) : Kept d (Dev.applyRule d s die) := by
  unfold Dev.applyRule
  grind -ring -linarith -order only [kept_iff, Dev.beginRule_kept, Dev.setStk_kept]
theorem Dev.refloor_kept (d : Dev) (s : Nat) : Kept d (Dev.refloor d s) := by
  unfold Dev.refloor
  grind -ring -linarith -order only [kept_iff, Dev.modStk_kept, Dev.retarget_kept]
theorem Dev.refloorDie_kept (d : Dev) (t : Nat) : Kept d (Dev.refloorDie d t) := by
  unfold Dev.refloorDie
  grind -ring -linarith -order only [kept_iff, Dev.refloor_kept]
theorem execStackRuleWrite_kept (st : Stack) (v : Word) (s : State) {t_ : State} (h_ : execStackRuleWrite st v s =
    .next t_) : Kept s.dev t_.dev := by
  unfold execStackRuleWrite at h_
  refine State.hosted_kept (fun d => ?_) h_
  unfold Dev.when
  grind -ring -linarith -order only [kept_iff, Dev.ruleWrite_kept]
theorem execDieApplyRule_kept (st : Stack) (die : Fin 16) (s : State) {t_ : State} (h_ : execDieApplyRule st die s =
    .next t_) : Kept s.dev t_.dev := by
  unfold execDieApplyRule at h_
  refine State.always_kept ?_ h_
  unfold Dev.when
  grind -ring -linarith -order only [kept_iff, Dev.applyRule_kept]
theorem execModeTimeout_kept (st : Stack) (s : State) {t_ : State} (h_ : execModeTimeout st s = .next t_) : Kept
    s.dev t_.dev := by
  unfold execModeTimeout at h_
  refine State.always_kept ?_ h_
  unfold Dev.when
  grind -ring -linarith -order only [kept_iff, Dev.modStk_kept, Dev.regionFault_kept]
theorem Dev.floorsChanged_kept (d : Dev) (t : Nat) : Kept d (Dev.floorsChanged d t) := by
  unfold Dev.floorsChanged
  grind -ring -linarith -order only [kept_iff, Dev.modTdie_kept, Dev.refloorDie_kept]
theorem Dev.clkWrite_kept (d : Dev) (t : Nat) (v : Nat) : Kept d (Dev.clkWrite d t v) := by
  unfold Dev.clkWrite
  grind -ring -linarith -order only [kept_iff, Dev.bump_kept, Dev.modTdie_kept, Dev.raise_kept]
theorem Dev.pllLock_kept (d : Dev) (t : Nat) (p : Pll) : Kept d (Dev.pllLock d t p) := by
  unfold Dev.pllLock
  grind -ring -linarith -order only [kept_iff, Dev.setTdie_kept]
theorem Dev.autoSwitch_kept (d : Dev) (t : Nat) : Kept d (Dev.autoSwitch d t) := by
  unfold Dev.autoSwitch
  grind -ring -linarith -order only [kept_iff, Dev.setTdie_kept]
theorem Dev.floorEnforce_kept (d : Dev) (t : Nat) : Kept d (Dev.floorEnforce d t) := by
  unfold Dev.floorEnforce
  grind -ring -linarith -order only [kept_iff, Dev.setTdie_kept]
theorem Dev.pllStop_kept (d : Dev) (t : Nat) (p : Pll) : Kept d (Dev.pllStop d t p) := by
  unfold Dev.pllStop
  grind -ring -linarith -order only [kept_iff, Dev.setTdie_kept]
theorem Dev.powerCompare_kept (d : Dev) (t m : Nat) : Kept d (Dev.powerCompare d t m) := by
  unfold Dev.powerCompare
  grind -ring -linarith -order only [kept_iff, Dev.bump_kept, Dev.floorsChanged_kept, Dev.setTdie_kept]
theorem Dev.sleepRegion_kept (d : Dev) (r : Nat) : Kept d (Dev.sleepRegion d r) := by
  unfold Dev.sleepRegion
  grind -ring -linarith -order only [kept_iff]
theorem Dev.selfRefresh_kept (d : Dev) (s : Nat) : Kept d (Dev.selfRefresh d s) := by
  unfold Dev.selfRefresh
  grind -ring -linarith -order only [kept_iff, Dev.modStk_kept]
theorem Dev.wakeGrant_kept (d : Dev) (q : WakeQueue) : Kept d (Dev.wakeGrant d q) := by
  unfold Dev.wakeGrant
  grind -ring -linarith -order only [kept_iff]
theorem Dev.regionAwakes_kept (d : Dev) (r : Nat) : Kept d (Dev.regionAwakes d r) := by
  unfold Dev.regionAwakes
  grind -ring -linarith -order only [kept_iff]
theorem Dev.stackAwakes_kept (d : Dev) (s : Nat) : Kept d (Dev.stackAwakes d s) := by
  unfold Dev.stackAwakes
  grind -ring -linarith -order only [kept_iff]
theorem Dev.tick_kept (d : Dev) : Kept d (Dev.tick d) := by
  unfold Dev.tick
  grind -ring -linarith -order only [foldl_kept, kept_iff, Dev.modStk_kept]
theorem execClkSelWrite_kept (t : TDie) (v : Word) (s : State) {t_ : State} (h_ : execClkSelWrite t v s = .next t_)
    : Kept s.dev t_.dev := by
  unfold execClkSelWrite at h_
  refine State.hosted_kept (fun d => ?_) h_
  unfold Dev.when
  grind -ring -linarith -order only [kept_iff, Dev.clkWrite_kept]
theorem execPllLock_kept (t : TDie) (p : Pll) (s : State) {t_ : State} (h_ : execPllLock t p s = .next t_) : Kept
    s.dev t_.dev := by
  unfold execPllLock at h_
  refine State.always_kept ?_ h_
  grind -ring -linarith -order only [kept_iff, Dev.pllLock_kept]
theorem execTdieAutoSwitch_kept (t : TDie) (s : State) {t_ : State} (h_ : execTdieAutoSwitch t s = .next t_) : Kept
    s.dev t_.dev := by
  unfold execTdieAutoSwitch at h_
  refine State.always_kept ?_ h_
  grind -ring -linarith -order only [kept_iff, Dev.autoSwitch_kept]
theorem execFloorEnforce_kept (t : TDie) (s : State) {t_ : State} (h_ : execFloorEnforce t s = .next t_) : Kept
    s.dev t_.dev := by
  unfold execFloorEnforce at h_
  refine State.always_kept ?_ h_
  grind -ring -linarith -order only [kept_iff, Dev.floorEnforce_kept]
theorem execPllIdleStop_kept (t : TDie) (p : Pll) (s : State) {t_ : State} (h_ : execPllIdleStop t p s = .next t_) :
    Kept s.dev t_.dev := by
  unfold execPllIdleStop at h_
  refine State.always_kept ?_ h_
  grind -ring -linarith -order only [kept_iff, Dev.pllStop_kept]
theorem execPowerCompare_kept (t : TDie) (mean : BitVec 10) (s : State) {t_ : State} (h_ : execPowerCompare t mean s
    = .next t_) : Kept s.dev t_.dev := by
  unfold execPowerCompare at h_
  refine State.always_kept ?_ h_
  unfold Dev.when
  grind -ring -linarith -order only [kept_iff, Dev.powerCompare_kept]
theorem execRegionSleep_kept (r : Region) (s : State) {t_ : State} (h_ : execRegionSleep r s = .next t_) : Kept
    s.dev t_.dev := by
  unfold execRegionSleep at h_
  refine State.always_kept ?_ h_
  unfold Dev.when
  grind -ring -linarith -order only [kept_iff, Dev.sleepRegion_kept]
theorem execStackSelfRefresh_kept (st : Stack) (s : State) {t_ : State} (h_ : execStackSelfRefresh st s = .next t_)
    : Kept s.dev t_.dev := by
  unfold execStackSelfRefresh at h_
  refine State.always_kept ?_ h_
  unfold Dev.when
  grind -ring -linarith -order only [kept_iff, Dev.selfRefresh_kept]
theorem execWakeGrant_kept (q : WakeQueue) (s : State) {t_ : State} (h_ : execWakeGrant q s = .next t_) : Kept s.dev
    t_.dev := by
  unfold execWakeGrant at h_
  refine State.always_kept ?_ h_
  grind -ring -linarith -order only [kept_iff, Dev.wakeGrant_kept]
theorem execRegionAwake_kept (r : Region) (s : State) {t_ : State} (h_ : execRegionAwake r s = .next t_) : Kept
    s.dev t_.dev := by
  unfold execRegionAwake at h_
  refine State.always_kept ?_ h_
  grind -ring -linarith -order only [kept_iff, Dev.regionAwakes_kept]
theorem execStackSrExit_kept (st : Stack) (s : State) {t_ : State} (h_ : execStackSrExit st s = .next t_) : Kept
    s.dev t_.dev := by
  unfold execStackSrExit at h_
  refine State.always_kept ?_ h_
  grind -ring -linarith -order only [kept_iff, Dev.stackAwakes_kept]
theorem Dev.setThermStage_kept (d : Dev) (t g : Nat) : Kept d (Dev.setThermStage d t g) := by
  unfold Dev.setThermStage
  grind -ring -linarith -order only [kept_iff, Dev.floorsChanged_kept, Dev.modTdie_kept]
theorem Dev.thermStep_kept (d : Dev) (t : Nat) : Kept d (Dev.thermStep d t) := by
  unfold Dev.thermStep
  grind -ring -linarith -order only [kept_iff, Dev.bump_kept, Dev.setThdie_kept, Dev.setThermStage_kept]
theorem Dev.stackHot_kept (d : Dev) (s : Nat) : Kept d (Dev.stackHot d s) := by
  unfold Dev.stackHot
  grind -ring -linarith -order only [kept_iff, Dev.modStk_kept]
theorem Dev.follow_kept (d : Dev) (src : Nat) (before after : Bool) : Kept d (Dev.follow d src before after) := by
  unfold Dev.follow
  grind -ring -linarith -order only [kept_iff, Dev.raise_kept, Dev.withdraw_kept]
theorem Dev.thermalSample_kept (d : Dev) (readings : List (Nat × BitVec 16)) : Kept d (Dev.thermalSample d readings)
    := by
  unfold Dev.thermalSample
  refine Kept.trans ?_ (Dev.follow_kept _ _ _ _)
  refine Kept.trans ?_ (foldl_kept _ _ _ fun a x => by grind -ring -linarith -order only [kept_iff, Dev.thermStep_kept])
  refine Kept.trans ?_ (foldl_kept _ _ _ fun a x => by grind -ring -linarith -order only [kept_iff, Dev.stackHot_kept])
  refine Kept.trans ?_ (Dev.follow_kept _ _ _ _)
  exact foldl_kept _ _ _ fun a x => by grind -ring -linarith -order only [kept_iff, Dev.modSensor_kept]
theorem Dev.graceExpire_kept (d : Dev) (t : Nat) : Kept d (Dev.graceExpire d t) := by
  unfold Dev.graceExpire
  grind -ring -linarith -order only [kept_iff, Dev.bump_kept, Dev.setThdie_kept, Dev.setThermStage_kept]
theorem Dev.coolingStepDown_kept (d : Dev) (t : Nat) : Kept d (Dev.coolingStepDown d t) := by
  unfold Dev.coolingStepDown
  grind -ring -linarith -order only [kept_iff, Dev.setThdie_kept, Dev.setThermStage_kept]
theorem Dev.setTemps_kept (d : Dev) (readings : List (Nat × BitVec 16)) : Kept d (Dev.setTemps d readings) := by
  unfold Dev.setTemps
  apply foldl_kept
  intro a x
  grind -ring -linarith -order only [kept_iff]
theorem Dev.tripTemp_kept (d : Dev) (n : Nat) : Kept d (Dev.tripTemp d n) := by
  unfold Dev.tripTemp
  grind -ring -linarith -order only [kept_iff]
theorem execThermalSample_kept (readings : List (Nat × BitVec 16)) (s : State) {t_ : State} (h_ : execThermalSample
    readings s = .next t_) : Kept s.dev t_.dev := by
  unfold execThermalSample at h_
  refine State.checked_kept ?_ h_
  unfold Dev.when
  grind -ring -linarith -order only [kept_iff, Dev.setTemps_kept, Dev.thermalSample_kept]
theorem execGraceExpire_kept (t : TDie) (s : State) {t_ : State} (h_ : execGraceExpire t s = .next t_) : Kept s.dev
    t_.dev := by
  unfold execGraceExpire at h_
  refine State.always_kept ?_ h_
  unfold Dev.when
  grind -ring -linarith -order only [kept_iff, Dev.graceExpire_kept]
theorem execCoolingStepDown_kept (t : TDie) (s : State) {t_ : State} (h_ : execCoolingStepDown t s = .next t_) :
    Kept s.dev t_.dev := by
  unfold execCoolingStepDown at h_
  refine State.always_kept ?_ h_
  unfold Dev.when
  grind -ring -linarith -order only [kept_iff, Dev.coolingStepDown_kept]

end Sys2Proof.Machine
end

