-- ==== Sys2Proof/Laws/KeptMemory.lean ====
section
/-! SUPPORT. What every command keeps (Laws/Kept.lean), operation by operation: DRAM, integrity, exchange ports,
operands. -/

namespace Sys2Proof.Machine
open Sys2Proof

-- One proof at a time: each proof that waits for another keeps a thread, and a thread its stack.
set_option Elab.async false

theorem Dev.raceChunk_kept (d : Dev) (st die : Nat) (p : Stripe) : Kept d (Dev.raceChunk d st die p) := by
  unfold Dev.raceChunk
  grind -ring -linarith -order only [kept_iff, Dev.modStk_kept]
theorem Dev.writeChunkAs_kept (d0 : Dev) (st die : Nat) (p : Stripe) (bytes : List Byte) (flips : Bool) (m : Nat) :
    Kept d0 (Dev.writeChunkAs d0 st die p bytes flips m) := by
  unfold Dev.writeChunkAs
  grind -ring -linarith -order only [kept_iff, Dev.putChunk_kept, Dev.raceChunk_kept, Dev.setStk_kept]
theorem Dev.writeChunk_kept (d : Dev) (st die : Nat) (p : Stripe) (bytes : List Byte) (flips : Bool) : Kept d
    (Dev.writeChunk d st die p bytes flips) := by
  unfold Dev.writeChunk
  grind -ring -linarith -order only [kept_iff, Dev.writeChunkAs_kept]
theorem Dev.applyDelta_kept (d : Dev) (st : Nat) (p : Stripe) (i : Nat) (delta : List Byte) (j : Nat) : Kept d
    (Dev.applyDelta d st p i delta j) := by
  unfold Dev.applyDelta
  grind -ring -linarith -order only [kept_iff, Dev.bump_kept, Dev.writeChunkAs_kept]
theorem Dev.putStripe_kept (d : Dev) (st : Nat) (p : Stripe) (chunks : List (List Byte)) (flips : Bool) : Kept d
    (Dev.putStripe d st p chunks flips) := by
  unfold Dev.putStripe
  apply foldl_kept
  intro a x
  grind -ring -linarith -order only [kept_iff, Dev.writeChunk_kept]
theorem Dev.logUe_kept (d : Dev) (st : Nat) (p : Stripe) (outcome : Nat) (src : MemSource) : Kept d (Dev.logUe d st
    p outcome src) := by
  unfold Dev.logUe
  grind -ring -linarith -order only [kept_iff, Dev.modStk_kept, Dev.raise_kept]
theorem Dev.poison_kept (d : Dev) (st : Nat) (p : Stripe) : Kept d (Dev.poison d st p) := by
  unfold Dev.poison
  apply foldl_kept
  intro a x
  grind -ring -linarith -order only [kept_iff]
theorem Dev.invalidate_kept (d : Dev) (st : Nat) (p : Stripe) (i : Nat) : Kept d (Dev.invalidate d st p i) := by
  unfold Dev.invalidate
  grind -ring -linarith -order only [kept_iff, Dev.modStk_kept]
theorem Dev.reconstruct_kept (d : Dev) (st : Nat) (p : Stripe) (i : Nat) {d_ : Dev} (h_ : Dev.reconstruct d st p i =
    some d_) : Kept d d_ := by
  unfold Dev.reconstruct at h_
  grind -ring -linarith -order only [foldl_kept, kept_iff, Dev.bump_kept, Dev.invalidate_kept, Dev.modStk_kept,
    Dev.putChunk_kept]
theorem Dev.rewriteStripe_kept (d : Dev) (st : Nat) (p : Stripe) (good : List (List Byte)) : Kept d
    (Dev.rewriteStripe d st p good) := by
  unfold Dev.rewriteStripe
  apply foldl_kept
  intro a x
  grind -ring -linarith -order only [kept_iff, Dev.invalidate_kept, Dev.putChunk_kept]
theorem Dev.twinRepair_kept (d : Dev) (st : Nat) (p : Stripe) (bytes : List Byte) (src : MemSource) : Kept d
    (Dev.twinRepair d st p bytes src) := by
  unfold Dev.twinRepair
  grind -ring -linarith -order only [kept_iff, Dev.bump_kept, Dev.logUe_kept, Dev.rewriteStripe_kept]
theorem Dev.openRow_kept (d : Dev) (st i bank row : Nat) : Kept d (Dev.openRow d st i bank row) := by
  unfold Dev.openRow
  grind -ring -linarith -order only [kept_iff, Dev.setStk_kept]
theorem Dev.leaveCells_kept (d : Dev) (p : Party) : Kept d (Dev.leaveCells d p) := by
  unfold Dev.leaveCells
  grind -ring -linarith -order only [foldl_kept, kept_iff, Dev.modBcell_kept]
theorem Dev.leaveStripes_kept (d : Dev) (p : Party) : Kept d (Dev.leaveStripes d p) := by
  unfold Dev.leaveStripes
  apply foldl_kept
  intro a x
  grind -ring -linarith -order only [kept_iff, Dev.modStk_kept]
theorem Dev.unserve_kept (d : Dev) (p : Party) : Kept d (Dev.unserve d p) := by
  unfold Dev.unserve
  grind -ring -linarith -order only [kept_iff, Dev.leaveCells_kept, Dev.leaveStripes_kept]
theorem Dev.rereads_kept (d : Dev) (st : Nat) (p : Stripe) : Kept d (Dev.rereads d st p) := by
  unfold Dev.rereads
  grind -ring -linarith -order only [kept_iff, Dev.bumpBy_kept]
theorem Dev.retried_kept (d : Dev) (st i : Nat) (p : Stripe) : Kept d (Dev.retried d st i p) := by
  unfold Dev.retried
  grind -ring -linarith -order only [kept_iff, Dev.bump_kept]
theorem Dev.readStripe_kept (d : Dev) (st : Nat) (p : Stripe) : Kept d (Dev.readStripe d st p) := by
  unfold Dev.readStripe
  grind -ring -linarith -order only [foldl_kept, kept_iff, Dev.openRow_kept, Dev.rereads_kept, Dev.retried_kept]
theorem Dev.mirrorRepair_kept (d : Dev) (st : Nat) (p : Stripe) (src : MemSource) {d_ : Dev} (h_ : Dev.mirrorRepair
    d st p src = some d_) : Kept d d_ := by
  unfold Dev.mirrorRepair at h_
  grind -ring -linarith -order only [kept_iff, Dev.bump_kept, Dev.logUe_kept, Dev.readStripe_kept,
      Dev.rewriteStripe_kept]
theorem Dev.judged_kept (d : Dev) (st : Nat) (p : Stripe) : Kept d (Dev.judged d st p) := by
  unfold Dev.judged
  grind -ring -linarith -order only [kept_iff, Dev.readStripe_kept]
theorem Dev.mended_kept (d : Dev) (w : Who) (st : Nat) (p : Stripe) (i : Nat) {d_ : Dev} (h_ : Dev.mended d w st p i
    = .ok d_) : Kept d d_ := by
  unfold Dev.mended at h_
  grind -ring -linarith -order only [kept_iff, → Dev.mirrorRepair_kept, Dev.readStripe_kept, → Dev.reconstruct_kept]
theorem Dev.goodChunk_kept (d : Dev) (w : Who) (st : Nat) (p : Stripe) (i : Nat) {p_ : Dev × List Byte} (h_ :
    Dev.goodChunk d w st p i = .ok p_) : Kept d p_.1 := by
  unfold Dev.goodChunk at h_
  grind -ring -linarith -order only [kept_iff, → Dev.mended_kept, Dev.openRow_kept, Dev.retried_kept]
theorem Dev.loadBlock_kept (d : Dev) (w : Who) (a : Nat) {p_ : Dev × List Byte} (h_ : Dev.loadBlock d w a = .ok p_)
    : Kept d p_.1 := by
  unfold Dev.loadBlock at h_
  grind -ring -linarith -order only [kept_iff, → Dev.goodChunk_kept]
theorem Dev.loadBlocks_kept (d : Dev) (w : Who) (a : Nat) (n0 : Nat) {p_ : Dev × List Byte} (h_ : Dev.loadBlocks d w
    a n0 = .ok p_) : Kept d p_.1 := by
  induction n0 generalizing d w a p_ <;>
    (unfold Dev.loadBlocks at h_
     grind -ring -linarith -order only [kept_iff, → Dev.loadBlock_kept])
theorem Dev.bankLoad_kept (d : Dev) (w : Who) (a n : Nat) {p_ : Dev × List Byte} (h_ : Dev.bankLoad d w a n = .ok
    p_) : Kept d p_.1 := by
  unfold Dev.bankLoad at h_
  grind -ring -linarith -order only [kept_iff, → Dev.loadBlocks_kept]
theorem Dev.loadMiss_kept (d : Dev) (w : Who) (a len : Nat) {p_ : Dev × List Byte} (h_ : Dev.loadMiss d w a len =
    .ok p_) : Kept d p_.1 := by
  unfold Dev.loadMiss at h_
  grind -ring -linarith -order only [kept_iff, → Dev.bankLoad_kept, Dev.bump_kept, Dev.modStk_kept]
theorem Dev.linePiece_kept (d : Dev) (w : Who) (a len : Nat) {p_ : Dev × List Byte} (h_ : Dev.linePiece d w a len =
    .ok p_) : Kept d p_.1 := by
  unfold Dev.linePiece at h_
  grind -ring -linarith -order only [kept_iff, Dev.bump_kept, → Dev.loadMiss_kept, Dev.modStk_kept]
theorem Dev.usesRange_kept (d : Dev) (n a len : Nat) : Kept d (Dev.usesRange d n a len) := by
  unfold Dev.usesRange
  grind -ring -linarith -order only [kept_iff]
theorem Dev.stepUses_kept (d : Dev) (w : Who) (a len : Nat) : Kept d (Dev.stepUses d w a len) := by
  unfold Dev.stepUses
  grind -ring -linarith -order only [kept_iff, Dev.usesRange_kept]
theorem Dev.loadPiece_kept (d : Dev) (w : Who) (a len : Nat) {p_ : Dev × List Byte} (h_ : Dev.loadPiece d w a len =
    .ok p_) : Kept d p_.1 := by
  unfold Dev.loadPiece at h_
  grind -ring -linarith -order only [kept_iff, → Dev.linePiece_kept, Dev.stepUses_kept]
theorem Dev.loadPieces_kept (d : Dev) (w : Who) (ps : List (Nat × Nat)) {p_ : Dev × List Byte} (h_ : Dev.loadPieces
    d w ps = .ok p_) : Kept d p_.1 := by
  induction ps generalizing d w p_ <;>
    (unfold Dev.loadPieces at h_
     grind -ring -linarith -order only [kept_iff, → Dev.loadPiece_kept])
theorem Dev.load_kept (d : Dev) (w : Who) (a len : Nat) {p_ : Dev × List Byte} (h_ : Dev.load d w a len = .ok p_) :
    Kept d p_.1 := by
  unfold Dev.load at h_
  grind -ring -linarith -order only [kept_iff, → Dev.loadPieces_kept]
theorem Dev.oldChunks_kept (d : Dev) (w : Who) (ps : List (Nat × List Byte)) {p_ : Dev × List Cover} (h_ :
    Dev.oldChunks d w ps = .ok p_) : Kept d p_.1 := by
  induction ps generalizing d w p_ <;>
    (unfold Dev.oldChunks at h_
     grind -ring -linarith -order only [kept_iff, → Dev.goodChunk_kept])
theorem Dev.narrowChunk_kept (d : Dev) (flips : Bool) (c : Cover) : Kept d (Dev.narrowChunk d flips c) := by
  unfold Dev.narrowChunk
  grind -ring -linarith -order only [kept_iff, Dev.applyDelta_kept, Dev.modStk_kept, Dev.writeChunk_kept]
theorem Dev.narrowChunks_kept (d : Dev) (w : Who) (flips : Bool) (ps : List (Nat × List Byte)) {d_ : Dev} (h_ :
    Dev.narrowChunks d w flips ps = .ok d_) : Kept d d_ := by
  unfold Dev.narrowChunks at h_
  grind -ring -linarith -order only [foldl_kept, kept_iff, Dev.narrowChunk_kept, → Dev.oldChunks_kept]
theorem Dev.stripeStore_kept (d : Dev) (w : Who) (flips : Bool) (st : Nat) (p : Stripe) (chunks : List (List Byte))
    {d_ : Dev} (h_ : Dev.stripeStore d w flips st p chunks = .ok d_) : Kept d d_ := by
  unfold Dev.stripeStore at h_
  grind -ring -linarith -order only [foldl_kept, kept_iff, Dev.openRow_kept, Dev.putStripe_kept]
theorem Dev.bankStore_kept (d : Dev) (w : Who) (flips : Bool) (a : Nat) (bytes : List Byte) {d_ : Dev} (h_ :
    Dev.bankStore d w flips a bytes = .ok d_) : Kept d d_ := by
  unfold Dev.bankStore at h_
  grind -ring -linarith -order only [kept_iff, Dev.bumpBy_kept, → Dev.narrowChunks_kept, → Dev.stripeStore_kept]
theorem Dev.lineBefore_kept (d : Dev) (w : Who) (a n : Nat) {p_ : Dev × List Byte} (h_ : Dev.lineBefore d w a n =
    .ok p_) : Kept d p_.1 := by
  unfold Dev.lineBefore at h_
  grind -ring -linarith -order only [kept_iff, → Dev.bankLoad_kept]
theorem Dev.cacheStore_kept (d : Dev) (w : Who) (a : Nat) (base bytes : List Byte) : Kept d (Dev.cacheStore d w a
    base bytes) := by
  unfold Dev.cacheStore
  grind -ring -linarith -order only [kept_iff, Dev.modStk_kept]
theorem Dev.streamOut_kept (d : Dev) (a : Nat) (bytes : List Byte) : Kept d (Dev.streamOut d a bytes) := by
  unfold Dev.streamOut
  grind -ring -linarith -order only [kept_iff, Dev.mirrorQueued_kept]
theorem Dev.raceRange_kept (d : Dev) (a n : Nat) : Kept d (Dev.raceRange d a n) := by
  unfold Dev.raceRange
  apply foldl_kept
  intro a x
  grind -ring -linarith -order only [kept_iff, Dev.raceChunk_kept]
theorem Dev.mirrorStore_kept (d : Dev) (w : Who) (a : Nat) (bytes : List Byte) {d_ : Dev} (h_ : Dev.mirrorStore d w
    a bytes = .ok d_) : Kept d d_ := by
  unfold Dev.mirrorStore at h_
  (repeat' split at h_) <;>
    grind -ring -linarith -order only [kept_iff, → Dev.bankStore_kept, Dev.cacheStore_kept, → Dev.lineBefore_kept,
        Dev.raceRange_kept]
theorem Dev.storePiece_kept (d : Dev) (w : Who) (a : Nat) (bs : List Byte) {d_ : Dev} (h_ : Dev.storePiece d w a bs
    = .ok d_) : Kept d d_ := by
  unfold Dev.storePiece at h_
  (repeat' split at h_) <;>
    grind -ring -linarith -order only [kept_iff, → Dev.bankStore_kept, Dev.cacheStore_kept, → Dev.lineBefore_kept, →
        Dev.mirrorStore_kept,
    Dev.stepUses_kept, Dev.streamOut_kept]
theorem Dev.storePieces_kept (d : Dev) (w : Who) (ps : List (Nat × Nat)) (bytes : List Byte) {d_ : Dev} (h_ :
    Dev.storePieces d w ps bytes = .ok d_) : Kept d d_ := by
  induction ps generalizing d w bytes d_ <;>
    (unfold Dev.storePieces at h_
     grind -ring -linarith -order only [kept_iff, → Dev.storePiece_kept])
theorem Dev.store_kept (d : Dev) (w : Who) (a : Nat) (bytes : List Byte) {d_ : Dev} (h_ : Dev.store d w a bytes =
    .ok d_) : Kept d d_ := by
  unfold Dev.store at h_
  grind -ring -linarith -order only [kept_iff, → Dev.storePieces_kept]
theorem Dev.pennantWait_kept (d : Dev) (p : Nat) (counted : Bool) : Kept d (Dev.pennantWait d p counted) := by
  unfold Dev.pennantWait
  grind -ring -linarith -order only [kept_iff, Dev.bump_kept]
theorem Dev.engineWait_kept (d : Dev) (p : Nat) (q : Party) (counted : Bool) : Kept d (Dev.engineWait d p q counted)
    := by
  unfold Dev.engineWait
  grind -ring -linarith -order only [kept_iff, Dev.pennantWait_kept]
theorem Dev.awaitCells_kept (d : Dev) (cks : List Nat) (a : Wait) : Kept d (Dev.awaitCells d cks a) := by
  unfold Dev.awaitCells
  grind -ring -linarith -order only [foldl_kept, kept_iff, Dev.bump_kept, Dev.modBcell_kept]
theorem Dev.ueWaits_kept (d : Dev) (st : Nat) (u : UeWait) : Kept d (Dev.ueWaits d st u) := by
  unfold Dev.ueWaits
  grind -ring -linarith -order only [kept_iff, Dev.modStk_kept]
theorem Dev.askTwin_kept (d : Dev) (st : Nat) (u : UeWait) : Kept d (Dev.askTwin d st u) := by
  unfold Dev.askTwin
  grind -ring -linarith -order only [kept_iff, Dev.emit_kept, Dev.judged_kept, Dev.modStk_kept, Dev.ueWaits_kept]
theorem Dev.ueForget_kept (d : Dev) (st : Nat) (p : Stripe) : Kept d (Dev.ueForget d st p) := by
  unfold Dev.ueForget
  grind -ring -linarith -order only [kept_iff, Dev.modStk_kept]
theorem Dev.ueFault_kept (d : Dev) (w : Who) (st : Nat) (p : Stripe) : Kept d (Dev.ueFault d w st p) := by
  unfold Dev.ueFault
  grind -ring -linarith -order only [kept_iff, Dev.bump_kept, Dev.logUe_kept, Dev.poison_kept, Dev.regionFault_kept,
    Dev.ueForget_kept]
theorem Dev.stopped_kept (d : Dev) (w : Who) (counted : Bool) (e : Stop) : Kept d (Dev.stopped d w counted e) := by
  unfold Dev.stopped
  grind -ring -linarith -order only [kept_iff, Dev.askTwin_kept, Dev.awaitCells_kept, Dev.chipFault_kept,
      Dev.engineWait_kept, Dev.judged_kept,
    Dev.leaveCells_kept, Dev.modStk_kept, Dev.startClock_kept, Dev.ueFault_kept, Dev.unserve_kept,
    Dev.wakeStack_kept]
theorem Dev.unlock_kept (d : Dev) (st : Nat) (p : Stripe) : Kept d (Dev.unlock d st p) := by
  unfold Dev.unlock
  grind -ring -linarith -order only [kept_iff, Dev.modStk_kept]
theorem Dev.hostLost_kept (d : Dev) (st : Nat) (p : Stripe) : Kept d (Dev.hostLost d st p) := by
  unfold Dev.hostLost
  grind -ring -linarith -order only [kept_iff, Dev.bump_kept, Dev.judged_kept, Dev.logUe_kept, Dev.poison_kept,
      Dev.ueForget_kept]
theorem Dev.stoppedFor_kept (d : Dev) (a : Accessor) (h : Hint) (e : Stop) : Kept d (Dev.stoppedFor d a h e) := by
  unfold Dev.stoppedFor
  grind -ring -linarith -order only [kept_iff, Dev.hostLost_kept, Dev.stopped_kept]
theorem Dev.hostReadLost_kept (d : Dev) (st : Nat) (p : Stripe) (addr len : Nat) : Kept d (Dev.hostReadLost d st p
    addr len) := by
  unfold Dev.hostReadLost
  grind -ring -linarith -order only [kept_iff, Dev.drawn_kept, Dev.emit_kept, Dev.hostLost_kept]
theorem Dev.readStopped_kept (d : Dev) (a : Accessor) (h : Hint) (addr len : Nat) (e : Stop) : Kept d
    (Dev.readStopped d a h addr len e) := by
  unfold Dev.readStopped
  grind -ring -linarith -order only [kept_iff, Dev.hostReadLost_kept, Dev.stoppedFor_kept]
theorem Dev.sendCover_kept (d : Dev) (flips : Bool) (c : Cover) : Kept d (Dev.sendCover d flips c) := by
  unfold Dev.sendCover
  grind -ring -linarith -order only [kept_iff, Dev.modStk_kept, Dev.writeChunk_kept]
theorem Dev.narrowSteps_kept (d : Dev) (w : Who) (ps : List (Nat × List Byte)) {d_ : Dev} (h_ : Dev.narrowSteps d w
    ps = .ok d_) : Kept d d_ := by
  unfold Dev.narrowSteps at h_
  grind -ring -linarith -order only [foldl_kept, kept_iff, → Dev.oldChunks_kept, Dev.sendCover_kept]
theorem Dev.afterWrite_kept (d : Dev) (w : Who) (a : Nat) (base bytes : List Byte) {d_ : Dev} (h_ : Dev.afterWrite d
    w a base bytes = .ok d_) : Kept d d_ := by
  unfold Dev.afterWrite at h_
  grind -ring -linarith -order only [kept_iff, Dev.cacheStore_kept, → Dev.mirrorStore_kept, Dev.streamOut_kept]
theorem Dev.scrubLost_kept (d : Dev) (st : Nat) (p : Stripe) {d_ : Dev} (h_ : Dev.scrubLost d st p = .ok d_) : Kept
    d d_ := by
  unfold Dev.scrubLost at h_
  grind -ring -linarith -order only [kept_iff, Dev.bump_kept, Dev.logUe_kept, → Dev.mirrorRepair_kept,
    Dev.poison_kept, Dev.ueForget_kept]
theorem Dev.scrubStripe_kept (d : Dev) (st : Nat) (p : Stripe) {d_ : Dev} (h_ : Dev.scrubStripe d st p = .ok d_) :
    Kept d d_ := by
  unfold Dev.scrubStripe at h_
  grind -ring -linarith -order only [foldl_kept, kept_iff, Dev.bump_kept, Dev.invalidate_kept, Dev.putChunk_kept,
      Dev.readStripe_kept, →
    Dev.scrubLost_kept]
theorem Dev.loseWait_kept (d : Dev) (st : Nat) (u : UeWait) : Kept d (Dev.loseWait d st u) := by
  unfold Dev.loseWait
  grind -ring -linarith -order only [kept_iff, Dev.bump_kept, Dev.logUe_kept, Dev.modStk_kept, Dev.poison_kept,
    Dev.ueFault_kept,
    Dev.ueForget_kept]
theorem Dev.verdict_kept (d : Dev) (st : Nat) (p : Stripe) {d_ : Dev} (h_ : Dev.verdict d st p = .ok d_) : Kept d d_
    := by
  unfold Dev.verdict at h_
  grind -ring -linarith -order only [foldl_kept, kept_iff, Dev.loseWait_kept, → Dev.mirrorRepair_kept,
    Dev.ueForget_kept]
theorem Dev.reconStripe_kept (d : Dev) (st : Nat) (p : Stripe) {d_ : Dev} (h_ : Dev.reconStripe d st p = .ok d_) :
    Kept d d_ := by
  unfold Dev.reconStripe at h_
  grind -ring -linarith -order only [kept_iff, Dev.readStripe_kept, → Dev.reconstruct_kept, Dev.ueForget_kept, →
      Dev.verdict_kept]
theorem Dev.lockWork_kept (d : Dev) (st : Nat) (p : Stripe) (q : LockReq) {d_ : Dev} (h_ : Dev.lockWork d st p q =
    .ok d_) : Kept d d_ := by
  unfold Dev.lockWork at h_
  grind -ring -linarith -order only [foldl_kept, kept_iff, → Dev.afterWrite_kept, Dev.bump_kept, Dev.emit_kept,
    → Dev.lineBefore_kept, →
    Dev.loadPiece_kept, → Dev.narrowSteps_kept, Dev.openRow_kept, Dev.putStripe_kept, → Dev.reconStripe_kept, →
    Dev.scrubStripe_kept]
theorem Dev.lockStopped_kept (d : Dev) (st : Nat) (q : LockReq) (e : Stop) : Kept d (Dev.lockStopped d st q e) := by
  unfold Dev.lockStopped
  grind -ring -linarith -order only [kept_iff, Dev.readStopped_kept, Dev.stopped_kept, Dev.stoppedFor_kept]
theorem Dev.serveLock_kept (d : Dev) (st : Nat) (p : Stripe) (l : Lock) (q : LockReq) : Kept d (Dev.serveLock d st p
    l q) := by
  unfold Dev.serveLock
  grind -ring -linarith -order only [kept_iff, Dev.lockStopped_kept, → Dev.lockWork_kept, Dev.modStk_kept,
    Dev.unlock_kept, Dev.unserve_kept]
theorem Dev.serveStripe_kept (d : Dev) (st : Nat) (p : Stripe) : Kept d (Dev.serveStripe d st p) := by
  unfold Dev.serveStripe
  grind -ring -linarith -order only [kept_iff, Dev.serveLock_kept]
theorem Dev.requestLock_kept (d : Dev) (st : Nat) (p : Stripe) (q : LockReq) : Kept d (Dev.requestLock d st p q) := by
  unfold Dev.requestLock
  grind -ring -linarith -order only [kept_iff, Dev.modStk_kept, Dev.serveStripe_kept]
theorem Dev.admitLocks_kept (d : Dev) (st : Nat) : Kept d (Dev.admitLocks d st) := by
  unfold Dev.admitLocks
  grind -ring -linarith -order only [kept_iff, Dev.modStk_kept, Dev.serveStripe_kept]
theorem Dev.grantLock_kept (d : Dev) (st : Nat) (p : Stripe) : Kept d (Dev.grantLock d st p) := by
  unfold Dev.grantLock
  grind -ring -linarith -order only [kept_iff, Dev.admitLocks_kept, Dev.serveStripe_kept]
theorem Dev.deltaGrant_kept (d : Dev) (st : Nat) : Kept d (Dev.deltaGrant d st) := by
  unfold Dev.deltaGrant
  grind -ring -linarith -order only [kept_iff, Dev.modStk_kept]
theorem Dev.settle_kept (d : Dev) (st : Nat) (p : Stripe) : Kept d (Dev.settle d st p) := by
  unfold Dev.settle
  grind -ring -linarith -order only [kept_iff, Dev.admitLocks_kept, Dev.unlock_kept]
theorem Dev.deltaApply_kept (d : Dev) (st j : Nat) : Kept d (Dev.deltaApply d st j) := by
  unfold Dev.deltaApply
  grind -ring -linarith -order only [kept_iff, Dev.applyDelta_kept, Dev.modStk_kept, Dev.settle_kept]
theorem Dev.performAccess_kept (d : Dev) (a : Access) : Kept d (Dev.performAccess d a) := by
  unfold Dev.performAccess
  grind -ring -linarith -order only [kept_iff, Dev.awaitCells_kept, Dev.emit_kept, → Dev.loadPiece_kept,
    Dev.readStopped_kept,
    Dev.requestLock_kept, Dev.stoppedFor_kept, Dev.unserve_kept]
theorem Dev.pointRow_kept (d : Dev) (st die bank row spare : Nat) : Kept d (Dev.pointRow d st die bank row spare) :=
    by
  unfold Dev.pointRow
  grind -ring -linarith -order only [kept_iff, Dev.modStk_kept]
theorem Dev.rescue_kept (d : Dev) (st die : Nat) (p : Stripe) {d_ : Dev} (h_ : Dev.rescue d st die p = .ok d_) :
    Kept d d_ := by
  unfold Dev.rescue at h_
  grind -ring -linarith -order only [kept_iff, → Dev.goodChunk_kept, Dev.judged_kept]
theorem Dev.rescueRow_kept (d : Dev) (st die : Nat) (ps : List Stripe) {d_ : Dev} (h_ : Dev.rescueRow d st die ps =
    .ok d_) : Kept d d_ := by
  induction ps generalizing d st die d_ <;>
    (unfold Dev.rescueRow at h_
     grind -ring -linarith -order only [kept_iff, → Dev.rescue_kept])
theorem Dev.withdrawGranule_kept (d : Dev) (g : Nat) : Kept d (Dev.withdrawGranule d g) := by
  unfold Dev.withdrawGranule
  grind -ring -linarith -order only [kept_iff]
theorem Dev.retireRange_kept (d : Dev) (st die bank row : Nat) : Kept d (Dev.retireRange d st die bank row) := by
  unfold Dev.retireRange
  grind -ring -linarith -order only [kept_iff, Dev.modStk_kept, Dev.raise_kept, Dev.withdrawGranule_kept]
theorem Dev.moveRow_kept (d : Dev) (st die bank row k : Nat) : Kept d (Dev.moveRow d st die bank row k) := by
  unfold Dev.moveRow
  grind -ring -linarith -order only [foldl_kept, kept_iff, Dev.bump_kept, Dev.modStk_kept, Dev.pointRow_kept,
    Dev.putChunk_kept]
theorem Dev.freeRow_kept (d : Dev) (st : Nat) (q : Nat × Nat × Nat) : Kept d (Dev.freeRow d st q) := by
  unfold Dev.freeRow
  grind -ring -linarith -order only [foldl_kept, kept_iff, Dev.admitLocks_kept, Dev.modStk_kept, Dev.unlock_kept,
      Dev.unserve_kept]
theorem Dev.copyRow_kept (d : Dev) (st die bank row k : Nat) {d_ : Dev} (h_ : Dev.copyRow d st die bank row k = .ok
    d_) : Kept d d_ := by
  unfold Dev.copyRow at h_
  grind -ring -linarith -order only [kept_iff, Dev.moveRow_kept, → Dev.rescueRow_kept]
theorem Dev.rowWork_kept (d : Dev) (st : Nat) (q : Nat × Nat × Nat) : Kept d (Dev.rowWork d st q) := by
  unfold Dev.rowWork
  grind -ring -linarith -order only [kept_iff, → Dev.copyRow_kept, Dev.freeRow_kept, Dev.retireRange_kept,
      Dev.stopped_kept]
theorem Dev.rowRepair_kept (d : Dev) (st : Nat) (q : Nat × Nat × Nat) : Kept d (Dev.rowRepair d st q) := by
  unfold Dev.rowRepair
  grind -ring -linarith -order only [kept_iff, Dev.modStk_kept, Dev.rowWork_kept]
theorem Dev.tryRows_kept (d : Dev) (st : Nat) (l : List (Nat × Nat × Nat)) : Kept d (Dev.tryRows d st l) := by
  unfold Dev.tryRows
  apply foldl_kept
  intro a x
  grind -ring -linarith -order only [kept_iff, Dev.rowRepair_kept]
theorem Dev.askRow_kept (d : Dev) (st die bank row : Nat) : Kept d (Dev.askRow d st die bank row) := by
  unfold Dev.askRow
  grind -ring -linarith -order only [kept_iff, Dev.modStk_kept, Dev.rowRepair_kept]
theorem execReconstruction_kept (st : Stack) (bank : Fin 128) (row : Fin 20480) (chunk : Fin 64) (s : State) {t_ :
    State} (h_ : execReconstruction st bank row chunk s = .next t_) : Kept s.dev t_.dev := by
  unfold execReconstruction at h_
  refine State.always_kept ?_ h_
  unfold Dev.when
  grind -ring -linarith -order only [kept_iff, Dev.requestLock_kept]
theorem execDeltaGrant_kept (st : Stack) (s : State) {t_ : State} (h_ : execDeltaGrant st s = .next t_) : Kept s.dev
    t_.dev := by
  unfold execDeltaGrant at h_
  refine State.always_kept ?_ h_
  grind -ring -linarith -order only [kept_iff, Dev.deltaGrant_kept]
theorem execDeltaApply_kept (st : Stack) (check : Fin 2) (s : State) {t_ : State} (h_ : execDeltaApply st check s =
    .next t_) : Kept s.dev t_.dev := by
  unfold execDeltaApply at h_
  refine State.always_kept ?_ h_
  grind -ring -linarith -order only [kept_iff, Dev.deltaApply_kept]
theorem Dev.lockGrant_kept (d : Dev) (st : Nat) (p : Stripe) : Kept d (Dev.lockGrant d st p) := by
  unfold Dev.lockGrant
  grind -ring -linarith -order only [kept_iff, Dev.grantLock_kept, Dev.tryRows_kept]
theorem execStripeLockGrant_kept (st : Stack) (bank : Fin 128) (row : Fin 20480) (chunk : Fin 64) (s : State) {t_ :
    State} (h_ : execStripeLockGrant st bank row chunk s = .next t_) : Kept s.dev t_.dev := by
  unfold execStripeLockGrant at h_
  refine State.always_kept ?_ h_
  grind -ring -linarith -order only [kept_iff, Dev.lockGrant_kept]
theorem execNarrowWrite_kept (who : Accessor) (addr : BitVec 48) (bytes : List Byte) (s : State) {t_ : State} (h_ :
    execNarrowWrite who addr bytes s = .next t_) : Kept s.dev t_.dev := by
  unfold execNarrowWrite at h_
  refine State.checked_kept ?_ h_
  grind -ring -linarith -order only [kept_iff, Dev.requestLock_kept, Dev.stoppedFor_kept]
theorem execFullStripeWrite_kept (who : Accessor) (addr : BitVec 48) (bytes : List Byte) (s : State) {t_ : State}
    (h_ : execFullStripeWrite who addr bytes s = .next t_) : Kept s.dev t_.dev := by
  unfold execFullStripeWrite at h_
  refine State.checked_kept ?_ h_
  grind -ring -linarith -order only [kept_iff, Dev.requestLock_kept, Dev.stoppedFor_kept]
theorem Dev.repaired_kept (d : Dev) (st : Nat) (p : Stripe) (twin : Option (List Byte)) : Kept d (Dev.repaired d st
    p twin) := by
  unfold Dev.repaired
  grind -ring -linarith -order only [foldl_kept, kept_iff, Dev.loseWait_kept, → Dev.mirrorRepair_kept,
    Dev.twinRepair_kept, Dev.ueForget_kept]
theorem Dev.unlockRepaired_kept (d : Dev) (st : Nat) (p : Stripe) : Kept d (Dev.unlockRepaired d st p) := by
  unfold Dev.unlockRepaired
  grind -ring -linarith -order only [kept_iff, Dev.unlock_kept]
theorem Dev.stripeRepair_kept (d : Dev) (st : Nat) (p : Stripe) (twin : Option (List Byte)) : Kept d
    (Dev.stripeRepair d st p twin) := by
  unfold Dev.stripeRepair
  grind -ring -linarith -order only [kept_iff, Dev.admitLocks_kept, Dev.repaired_kept, Dev.stopped_kept,
      Dev.unlockRepaired_kept,
    Dev.unserve_kept]
theorem execStripeRepair_kept (st : Stack) (bank : Fin 128) (row : Fin 20480) (chunk : Fin 64) (twin : Option (List
    Byte)) (s : State) {t_ : State} (h_ : execStripeRepair st bank row chunk twin s = .next t_) : Kept s.dev t_.dev
    := by
  unfold execStripeRepair at h_
  refine State.checked_kept ?_ h_
  grind -ring -linarith -order only [kept_iff, Dev.stripeRepair_kept]
theorem Dev.scrubVisit_kept (d : Dev) (st : Nat) : Kept d (Dev.scrubVisit d st) := by
  unfold Dev.scrubVisit
  grind -ring -linarith -order only [kept_iff, Dev.modStk_kept, Dev.requestLock_kept]
theorem execScrubVisit_kept (st : Stack) (s : State) {t_ : State} (h_ : execScrubVisit st s = .next t_) : Kept s.dev
    t_.dev := by
  unfold execScrubVisit at h_
  refine State.always_kept ?_ h_
  unfold Dev.when
  grind -ring -linarith -order only [kept_iff, Dev.scrubVisit_kept]
theorem execRowRepair_kept (st : Stack) (die : Die) (bank : Fin 128) (row : Fin 20480) (s : State) {t_ : State} (h_
    : execRowRepair st die bank row s = .next t_) : Kept s.dev t_.dev := by
  unfold execRowRepair at h_
  refine State.always_kept ?_ h_
  unfold Dev.when
  grind -ring -linarith -order only [kept_iff, Dev.askRow_kept]
theorem execFlipArm_kept (st : Stack) (v : Word) (s : State) {t_ : State} (h_ : execFlipArm st v s = .next t_) :
    Kept s.dev t_.dev := by
  unfold execFlipArm at h_
  refine State.checked_kept (Dev.inOrder_kept _ _ _ fun d => ?_) h_
  unfold Dev.when
  grind -ring -linarith -order only [kept_iff, Dev.modStk_kept]
theorem execRemapLogRead_kept (st : Stack) (s : State) {t_ : State} (h_ : execRemapLogRead st s = .next t_) : Kept
    s.dev t_.dev := by
  unfold execRemapLogRead at h_
  refine State.hosted_kept (fun d => ?_) h_
  unfold Dev.when
  grind -ring -linarith -order only [kept_iff, Dev.emit_kept, Dev.setStk_kept]
theorem execPageRetireLogRead_kept (st : Stack) (s : State) {t_ : State} (h_ : execPageRetireLogRead st s = .next
    t_) : Kept s.dev t_.dev := by
  unfold execPageRetireLogRead at h_
  refine State.hosted_kept (fun d => ?_) h_
  unfold Dev.when
  grind -ring -linarith -order only [kept_iff, Dev.emit_kept, Dev.setStk_kept]
theorem Dev.exchange_kept (d : Dev) (g : Nat) (bs : List Byte) : Kept d (Dev.exchange d g bs) := by
  unfold Dev.exchange
  grind -ring -linarith -order only [kept_iff, Dev.modCell_kept]
theorem Dev.cellReplayed_kept (d : Dev) (x n : Nat) : Kept d (Dev.cellReplayed d x n) := by
  unfold Dev.cellReplayed
  grind -ring -linarith -order only [kept_iff, Dev.bumpBy_kept, Dev.modCell_kept]
theorem Dev.scratchWords_kept (d : Dev) (k n : Nat) {d_ : Dev} (h_ : Dev.scratchWords d k n = .ok d_) : Kept d d_ := by
  unfold Dev.scratchWords at h_
  grind -ring -linarith -order only [foldl_kept, kept_iff, Dev.cellReplayed_kept]
theorem Dev.bbufWords_kept (d : Dev) (k n : Nat) {d_ : Dev} (h_ : Dev.bbufWords d k n = .ok d_) : Kept d d_ := by
  unfold Dev.bbufWords at h_
  grind -ring -linarith -order only [foldl_kept, kept_iff, Dev.bumpBy_kept]
theorem Dev.readRun_kept (d : Dev) (w : Who) (v : View) (lo n : Nat) {p_ : Dev × List Byte} (h_ : Dev.readRun d w v
    lo n = .ok p_) : Kept d p_.1 := by
  unfold Dev.readRun at h_
  grind -ring -linarith -order only [kept_iff, → Dev.bbufWords_kept, → Dev.load_kept, → Dev.scratchWords_kept]
theorem Dev.readRuns_kept (d : Dev) (w : Who) (v : View) (m : Local) (rs : List (Nat × Nat)) {p_ : Dev × Local} (h_
    : Dev.readRuns d w v m rs = .ok p_) : Kept d p_.1 := by
  induction rs generalizing d w v m p_ <;>
    (unfold Dev.readRuns at h_
     grind -ring -linarith -order only [kept_iff, → Dev.readRun_kept])
theorem Dev.fetch_kept (d : Dev) (w : Who) (v : View) (es : List Elt) {p_ : Dev × Local} (h_ : Dev.fetch d w v es =
    .ok p_) : Kept d p_.1 := by
  unfold Dev.fetch at h_
  grind -ring -linarith -order only [kept_iff, → Dev.readRuns_kept]
theorem Dev.writeRun_kept (d : Dev) (w : Who) (v : View) (lo : Nat) (bytes : List Byte) {d_ : Dev} (h_ :
    Dev.writeRun d w v lo bytes = .ok d_) : Kept d d_ := by
  unfold Dev.writeRun at h_
  grind -ring -linarith -order only [kept_iff, Dev.bbufWrite_kept, Dev.cellWrite_kept, → Dev.store_kept]
theorem Dev.writeEach_kept (d : Dev) (w : Who) (v : View) (m : Local) (rs : List (Nat × Nat)) {d_ : Dev} (h_ :
    Dev.writeEach d w v m rs = .ok d_) : Kept d d_ := by
  induction rs generalizing d w v m d_ <;>
    (unfold Dev.writeEach at h_
     grind -ring -linarith -order only [kept_iff, → Dev.writeRun_kept])
theorem Dev.afterChunks_kept (d : Dev) (w : Who) (ps : List (Nat × List Byte)) {d_ : Dev} (h_ : Dev.afterChunks d w
    ps = .ok d_) : Kept d d_ := by
  induction ps generalizing d w d_ <;>
    (unfold Dev.afterChunks at h_
     grind -ring -linarith -order only [kept_iff, Dev.cacheStore_kept, → Dev.lineBefore_kept, Dev.streamOut_kept])
theorem Dev.mirrorLine_kept (d : Dev) (w : Who) (a : Nat) (bytes : List Byte) : Kept d (Dev.mirrorLine d w a bytes)
    := by
  unfold Dev.mirrorLine
  grind -ring -linarith -order only [kept_iff, Dev.cacheStore_kept, Dev.raceRange_kept]
theorem Dev.mirrorStripe_kept (d : Dev) (w : Who) (a : Nat) (chunks : List (List Byte)) {d_ : Dev} (h_ :
    Dev.mirrorStripe d w a chunks = .ok d_) : Kept d d_ := by
  unfold Dev.mirrorStripe at h_
  grind -ring -linarith -order only [foldl_kept, kept_iff, Dev.mirrorLine_kept, → Dev.stripeStore_kept]
theorem Dev.writeStripes_kept (d : Dev) (w : Who) (ss : List (Nat × List (List Byte))) {d_ : Dev} (h_ :
    Dev.writeStripes d w ss = .ok d_) : Kept d d_ := by
  induction ss generalizing d with
  | nil => cases h_; exact Kept.refl _
  | cons p r ih =>
    unfold Dev.writeStripes at h_
    dsimp only at h_
    split at h_
    · cases h_
    · split at h_
      · cases h_
      · rename_i h1
        split at h_
        · cases h_
        · rename_i h2
          split at h_
          · cases h_
          · rename_i h3
            exact ((((Dev.stripeStore_kept _ _ _ _ _ _ h1).trans (foldl_kept _ _ _ fun a x => Dev.stepUses_kept
                ..)).trans
              (Dev.afterChunks_kept _ _ _ h2)).trans (Dev.mirrorStripe_kept _ _ _ _ h3)).trans (ih _ h_)
    · cases h_
theorem Dev.writeRuns_kept (d : Dev) (w : Who) (v : View) (m : Local) (rs : List (Nat × Nat)) {d_ : Dev} (h_ :
    Dev.writeRuns d w v m rs = .ok d_) : Kept d d_ := by
  unfold Dev.writeRuns at h_
  grind -ring -linarith -order only [kept_iff, → Dev.writeEach_kept, → Dev.writeStripes_kept]
theorem Dev.putElems_kept (d : Dev) (w : Who) (v : View) (ps : List Put) (free : List Nat) (e : Nat) {d_ : Dev} (h_
    : Dev.putElems d w v ps free e = .ok d_) : Kept d d_ := by
  unfold Dev.putElems at h_
  grind -ring -linarith -order only [kept_iff, → Dev.fetch_kept, → Dev.writeRuns_kept]

end Sys2Proof.Machine
end

