-- ==== Sys2Proof/Laws/KeptBlocks.lean ====
section
/-! SUPPORT. What every command keeps (Laws/Kept.lean), operation by operation: flags, functions and block sequencers.
-/

namespace Sys2Proof.Machine
open Sys2Proof

-- One proof at a time: each proof that waits for another keeps a thread, and a thread its stack.
set_option Elab.async false

theorem Dev.grantWait_kept (d : Dev) (f k want : Nat) : Kept d (Dev.grantWait d f k want) := by
  unfold Dev.grantWait
  grind -ring -linarith -order only [kept_iff, Dev.modBlk_kept, Dev.modFlag_kept]
theorem Dev.serveWaits_kept (d : Dev) (f : Nat) (ks : List Nat) : Kept d (Dev.serveWaits d f ks) := by
  induction ks generalizing d f <;>
    (unfold Dev.serveWaits
     grind -ring -linarith -order only [kept_iff, Dev.grantWait_kept, Dev.setWaitq_kept])
theorem Dev.startWait_kept (d : Dev) (k f want : Nat) : Kept d (Dev.startWait d k f want) := by
  unfold Dev.startWait
  grind -ring -linarith -order only [kept_iff, Dev.modBlk_kept, Dev.serveWaits_kept]
theorem Dev.flagAdd_kept (d : Dev) (r f incr : Nat) {d_ : Dev} (h_ : Dev.flagAdd d r f incr = some d_) : Kept d d_
    := by
  unfold Dev.flagAdd at h_
  grind -ring -linarith -order only [kept_iff, Dev.modQueue_kept, Dev.serveWaits_kept, Dev.setFlag_kept]
theorem Dev.zeroFlags_kept (d : Dev) (r : Nat) : Kept d (Dev.zeroFlags d r) := by
  unfold Dev.zeroFlags
  grind -ring -linarith -order only [kept_iff]
theorem Dev.opHalt_kept (d : Dev) (k code index opnd opcode : Nat) : Kept d (Dev.opHalt d k code index opnd opcode)
    := by
  unfold Dev.opHalt
  grind -ring -linarith -order only [kept_iff, Dev.blockHalt_kept]
theorem Dev.parityHalt_kept (d : Dev) (k code word index opcode : Nat) : Kept d (Dev.parityHalt d k code word index
    opcode) := by
  unfold Dev.parityHalt
  grind -ring -linarith -order only [kept_iff, Dev.bumpBy_kept, Dev.cellReplayed_kept, Dev.modCell_kept,
      Dev.opHalt_kept]
theorem Dev.modFlight_kept (d : Dev) (k i : Nat) (f : Flight → Flight) : Kept d (Dev.modFlight d k i f) := by
  unfold Dev.modFlight
  grind -ring -linarith -order only [kept_iff, Dev.modBlk_kept]
theorem Dev.finish_kept (d : Dev) (k i : Nat) : Kept d (Dev.finish d k i) := by
  unfold Dev.finish
  grind -ring -linarith -order only [kept_iff, Dev.modFlight_kept]
theorem Dev.fetchDescs_kept (d : Dev) (k : Nat) (es : List Nat) {d_ : Dev} (h_ : Dev.fetchDescs d k es = .ok d_) :
    Kept d d_ := by
  induction es generalizing d k d_ <;>
    (unfold Dev.fetchDescs at h_
     grind -ring -linarith -order only [kept_iff, → Dev.bbufWords_kept])
theorem Dev.fetchOp_kept (d : Dev) (k index : Nat) (w : OpWord) {d_ : Dev} (h_ : Dev.fetchOp d k index w = .ok d_) :
    Kept d d_ := by
  unfold Dev.fetchOp at h_
  grind -ring -linarith -order only [kept_iff, Dev.bumpBy_kept, → Dev.fetchDescs_kept]
theorem Dev.enterFlight_kept (d : Dev) (k : Nat) (w : OpWord) (done : Bool) : Kept d (Dev.enterFlight d k w done) :=
    by
  unfold Dev.enterFlight
  grind -ring -linarith -order only [kept_iff, Dev.modBlk_kept]
theorem Dev.sendRoom_kept (d : Dev) (p channel len : Nat) : Kept d (Dev.sendRoom d p channel len) := by
  unfold Dev.sendRoom
  grind -ring -linarith -order only [kept_iff, Dev.emit_kept]
theorem Dev.joinPort_kept (d : Dev) (k : Nat) (w : OpWord) (i : Nat) : Kept d (Dev.joinPort d k w i) := by
  unfold Dev.joinPort
  grind -ring -linarith -order only [kept_iff, Dev.modRegion_kept, Dev.modSpan_kept, Dev.sendRoom_kept]
theorem Dev.beginWait_kept (d : Dev) (k : Nat) (w : OpWord) : Kept d (Dev.beginWait d k w) := by
  unfold Dev.beginWait
  grind -ring -linarith -order only [kept_iff, Dev.startWait_kept]
theorem Dev.issueReady_kept (d : Dev) (k : Nat) (w : OpWord) : Kept d (Dev.issueReady d k w) := by
  unfold Dev.issueReady
  grind -ring -linarith -order only [kept_iff, Dev.beginWait_kept, Dev.enterFlight_kept, Dev.joinPort_kept,
    Dev.modBlk_kept]
theorem Dev.issue_kept (d : Dev) (k : Nat) : Kept d (Dev.issue d k) := by
  unfold Dev.issue
  grind -ring -linarith -order only [kept_iff, → Dev.fetchOp_kept, Dev.issueReady_kept, Dev.opHalt_kept,
    Dev.parityHalt_kept]
theorem Dev.complete_kept (d : Dev) (k pos : Nat) : Kept d (Dev.complete d k pos) := by
  unfold Dev.complete
  grind -ring -linarith -order only [kept_iff, Dev.bump_kept, → Dev.flagAdd_kept, Dev.modBlk_kept, Dev.opHalt_kept]
theorem Dev.sendFabric_kept (d : Dev) (src dst : Nat) (cls : FabClass) (body : Payload) : Kept d (Dev.sendFabric d
    src dst cls body) := by
  unfold Dev.sendFabric
  grind -ring -linarith -order only [kept_iff]
theorem Dev.setFlagOp_kept (d : Dev) (k : Nat) : Kept d (Dev.setFlagOp d k) := by
  unfold Dev.setFlagOp
  grind -ring -linarith -order only [kept_iff, Dev.finish_kept, → Dev.flagAdd_kept, Dev.modFlight_kept,
    Dev.opHalt_kept, Dev.sendFabric_kept]
theorem Dev.remoteSet_kept (d : Dev) (r : Nat) : Kept d (Dev.remoteSet d r) := by
  unfold Dev.remoteSet
  grind -ring -linarith -order only [kept_iff, Dev.finish_kept, → Dev.flagAdd_kept, Dev.modRegion_kept, Dev.opHalt_kept]
theorem Dev.putBufregs_kept (d : Dev) (g : Nat) (es : List Nat) : Kept d (Dev.putBufregs d g es) := by
  unfold Dev.putBufregs
  apply foldl_kept
  intro a x
  grind -ring -linarith -order only [kept_iff, Dev.setBufreg_kept]
theorem Dev.clearImem_kept (d : Dev) (k : Nat) : Kept d (Dev.clearImem d k) := by
  unfold Dev.clearImem
  grind -ring -linarith -order only [kept_iff]
theorem Dev.placeImage_kept (d : Dev) (k ops descs : Nat) (img : List Byte) : Kept d (Dev.placeImage d k ops descs
    img) := by
  unfold Dev.placeImage
  dsimp only
  have k1 : Kept d ((List.range 8).foldl (fun a c => a.putBufregs (8 * k + c) (imageBufregs img c)) d) :=
    foldl_kept _ _ _ fun a x => Dev.putBufregs_kept _ _ _
  refine k1.trans ?_
  refine (Dev.bbufWrite_kept _ k 0 (slice img 2112 (32 * descs))).trans ?_
  refine (Dev.clearImem_kept _ k).trans ?_
  exact (foldl_kept _ _ _ fun a x => Dev.setOpword_kept _ _ _).trans (Dev.modBlk_kept _ _ _)
theorem Dev.imageDone_kept (d : Dev) (k : Nat) : Kept d (Dev.imageDone d k) := by
  unfold Dev.imageDone
  grind -ring -linarith -order only [kept_iff, Dev.blockHalt_kept, → Dev.load_kept, Dev.placeImage_kept,
    Dev.stopped_kept, Dev.unserve_kept]
theorem execOpIssue_kept (r : Region) (b : Blk) (s : State) {t_ : State} (h_ : execOpIssue r b s = .next t_) : Kept
    s.dev t_.dev := by
  unfold execOpIssue at h_
  refine State.always_kept ?_ h_
  unfold Dev.when
  grind -ring -linarith -order only [kept_iff, Dev.issue_kept]
theorem execOpComplete_kept (r : Region) (b : Blk) (pos : Fin 32) (s : State) {t_ : State} (h_ : execOpComplete r b
    pos s = .next t_) : Kept s.dev t_.dev := by
  unfold execOpComplete at h_
  refine State.always_kept ?_ h_
  unfold Dev.when
  grind -ring -linarith -order only [kept_iff, Dev.complete_kept]
theorem execWaitFlag_kept (r : Region) (b : Blk) (s : State) {t_ : State} (h_ : execWaitFlag r b s = .next t_) :
    Kept s.dev t_.dev := by
  unfold execWaitFlag at h_
  refine State.always_kept ?_ h_
  unfold Dev.when
  grind -ring -linarith -order only [kept_iff, Dev.issue_kept]
theorem execSetFlag_kept (r : Region) (b : Blk) (s : State) {t_ : State} (h_ : execSetFlag r b s = .next t_) : Kept
    s.dev t_.dev := by
  unfold execSetFlag at h_
  refine State.always_kept ?_ h_
  unfold Dev.when
  grind -ring -linarith -order only [kept_iff, Dev.setFlagOp_kept]
theorem execRemoteFlagSet_kept (r : Region) (s : State) {t_ : State} (h_ : execRemoteFlagSet r s = .next t_) : Kept
    s.dev t_.dev := by
  unfold execRemoteFlagSet at h_
  refine State.always_kept ?_ h_
  grind -ring -linarith -order only [kept_iff, Dev.remoteSet_kept]
theorem execImageLoadDone_kept (r : Region) (b : Blk) (s : State) {t_ : State} (h_ : execImageLoadDone r b s = .next
    t_) : Kept s.dev t_.dev := by
  unfold execImageLoadDone at h_
  refine State.always_kept ?_ h_
  unfold Dev.when
  grind -ring -linarith -order only [kept_iff, Dev.imageDone_kept]

end Sys2Proof.Machine
end

