-- ==== Sys2Proof/Laws/KeptStacks.lean ====
section
/-! SUPPORT. What every command keeps (Laws/Kept.lean), operation by operation: stack sequencers and scans. -/

namespace Sys2Proof.Machine
open Sys2Proof

-- One proof at a time: each proof that waits for another keeps a thread, and a thread its stack.
set_option Elab.async false

theorem Dev.setSlot_kept (d : Dev) (st n : Nat) (x : Option Slot) : Kept d (Dev.setSlot d st n x) := by
  unfold Dev.setSlot
  grind -ring -linarith -order only [kept_iff, Dev.modStk_kept]
theorem Dev.advance_kept (d : Dev) (st i c : Nat) : Kept d (Dev.advance d st i c) := by
  unfold Dev.advance
  grind -ring -linarith -order only [kept_iff, Dev.modBcell_kept]
theorem Dev.bauWaits_kept (d : Dev) (st i c : Nat) (p : Stripe) : Kept d (Dev.bauWaits d st i c p) := by
  unfold Dev.bauWaits
  grind -ring -linarith -order only [kept_iff, Dev.modBcell_kept, Dev.ueWaits_kept]
theorem Dev.retriedAll_kept (d : Dev) (st i b : Nat) (ns : List Nat) : Kept d (Dev.retriedAll d st i b ns) := by
  unfold Dev.retriedAll
  apply foldl_kept
  intro a x
  grind -ring -linarith -order only [kept_iff, Dev.retried_kept, Dev.stepUses_kept]
theorem Dev.wxvRows_kept (d : Dev) (st i c : Nat) (w : SeqWord) (r : Nat) (n0 : Nat) : Kept d (Dev.wxvRows d st i c
    w r n0) := by
  induction n0 generalizing d st i c w r <;>
    (unfold Dev.wxvRows
     grind -ring -linarith -order only [kept_iff, Dev.setAccs_kept])
theorem Dev.wxv_kept (d : Dev) (st i c : Nat) : Kept d (Dev.wxv d st i c) := by
  unfold Dev.wxv
  grind -ring -linarith -order only [kept_iff, Dev.advance_kept, Dev.bauWaits_kept, Dev.modBcell_kept,
    Dev.retriedAll_kept, Dev.wxvRows_kept]
theorem Dev.loada_kept (d : Dev) (st n : Nat) : Kept d (Dev.loada d st n) := by
  have key : ∀ (l : List (Nat × Nat)) (e : Dev) (c : Nat) (bs : List Byte),
      Kept e (l.foldl (fun a p => (a.abufWrite (cellKey st p.1 p.2) c bs).advance st p.1 p.2) e) :=
    fun l e c bs => foldl_kept _ _ _ fun a x => (Dev.abufWrite_kept _ _ _ _).trans (Dev.advance_kept _ _ _ _)
  unfold Dev.loada
  dsimp only
  split; · exact Kept.refl _
  split; · exact Kept.refl _
  split; · exact Kept.refl _
  exact key _ _ _ _
theorem Dev.emitWord_kept (d : Dev) (st i c : Nat) : Kept d (Dev.emitWord d st i c) := by
  unfold Dev.emitWord
  grind -ring -linarith -order only [kept_iff, Dev.advance_kept, Dev.setSlot_kept]
theorem Dev.recordMerge_kept (d : Dev) (st n : Nat) : Kept d (Dev.recordMerge d st n) := by
  unfold Dev.recordMerge
  grind -ring -linarith -order only [kept_iff, Dev.setSlot_kept]
theorem Dev.attnDecode_kept (d : Dev) (st i c : Nat) : Kept d (Dev.attnDecode d st i c) := by
  unfold Dev.attnDecode
  grind -ring -linarith -order only [kept_iff, Dev.advance_kept, Dev.bauWaits_kept, Dev.bumpBy_kept, Dev.drawn_kept,
    Dev.modBcell_kept,
    Dev.retriedAll_kept, Dev.setAccs_kept]
theorem Dev.storeWaits_kept (d : Dev) (ck : Nat) (p : Option Stripe) : Kept d (Dev.storeWaits d ck p) := by
  unfold Dev.storeWaits
  grind -ring -linarith -order only [kept_iff, Dev.modBcell_kept]
theorem Dev.storeStep_kept (d : Dev) (st i c : Nat) : Kept d (Dev.storeStep d st i c) := by
  unfold Dev.storeStep
  grind -ring -linarith -order only [kept_iff, Dev.advance_kept, Dev.bauWaits_kept, Dev.invalidate_kept,
    Dev.modBcell_kept, Dev.modStk_kept,
    Dev.retried_kept, Dev.storeWaits_kept, Dev.streamOut_kept, Dev.writeChunk_kept]
theorem Dev.yieldWord_kept (d : Dev) (st i c o : Nat) : Kept d (Dev.yieldWord d st i c o) := by
  unfold Dev.yieldWord
  grind -ring -linarith -order only [kept_iff, Dev.advance_kept, Dev.modBcell_kept]
theorem Dev.endWord_kept (d : Dev) (st i c : Nat) : Kept d (Dev.endWord d st i c) := by
  unfold Dev.endWord
  grind -ring -linarith -order only [kept_iff, Dev.modBcell_kept]
theorem Dev.stackReports_kept (d : Dev) (k index st : Nat) (scan : Bool) : Kept d (Dev.stackReports d k index st
    scan) := by
  unfold Dev.stackReports
  grind -ring -linarith -order only [kept_iff, Dev.modFlight_kept]
theorem Dev.slotDone_kept (d : Dev) (st n : Nat) (s : Slot) : Kept d (Dev.slotDone d st n s) := by
  unfold Dev.slotDone
  grind -ring -linarith -order only [kept_iff, Dev.modQueue_kept, Dev.setSlot_kept, Dev.stackReports_kept]
theorem Dev.drainQueue_kept (d : Dev) (q : Nat) : Kept d (Dev.drainQueue d q) := by
  unfold Dev.drainQueue
  grind -ring -linarith -order only [foldl_kept, kept_iff, Dev.modQueue_kept, Dev.slotDone_kept]
theorem Dev.scramble_kept (d : Dev) (st : Nat) (l : List Nat) {d_ : Dev} (h_ : Dev.scramble d st l = .ok d_) : Kept
    d d_ := by
  induction l generalizing d st d_ <;>
    (unfold Dev.scramble at h_
     grind -ring -linarith -order only [kept_iff, → Dev.store_kept])
theorem Dev.sequenceEnd_kept (d : Dev) (st n : Nat) : Kept d (Dev.sequenceEnd d st n) := by
  unfold Dev.sequenceEnd
  grind -ring -linarith -order only [kept_iff, Dev.drainQueue_kept, Dev.drawn_kept, Dev.modQueue_kept,
    → Dev.scramble_kept, Dev.setSlot_kept,
    Dev.slotDone_kept, Dev.stopped_kept, Dev.unserve_kept]
theorem Dev.loadTiles_kept (d : Dev) (w : Who) (s : Slot) (x : Score) (m : Local) (ts : List (Nat × Nat)) {p_ : Dev
    × Local} (h_ : Dev.loadTiles d w s x m ts = .ok p_) : Kept d p_.1 := by
  induction ts generalizing d w x m p_ <;>
    (unfold Dev.loadTiles at h_
     grind -ring -linarith -order only [kept_iff, → Dev.load_kept])
theorem Dev.storeParts_kept (d : Dev) (w : Who) (base : Nat) (ps : List (Nat × List Byte)) {d_ : Dev} (h_ :
    Dev.storeParts d w base ps = .ok d_) : Kept d d_ := by
  induction ps generalizing d w base d_ <;>
    (unfold Dev.storeParts at h_
     grind -ring -linarith -order only [kept_iff, → Dev.store_kept])
theorem Dev.normBlock_kept (d : Dev) (st : Nat) (w : Who) (s : Slot) (x : Score) {d_ : Dev} (h_ : Dev.normBlock d st
    w s x = .ok d_) : Kept d d_ := by
  unfold Dev.normBlock at h_
  grind -ring -linarith -order only [kept_iff, Dev.bumpBy_kept, Dev.drawn_kept, → Dev.loadTiles_kept,
    → Dev.store_kept, → Dev.storeParts_kept]
theorem Dev.normBlocks_kept (d : Dev) (st : Nat) (w : Who) (s : Slot) (xs : List Score) {d_ : Dev} (h_ :
    Dev.normBlocks d st w s xs = .ok d_) : Kept d d_ := by
  induction xs generalizing d st w d_ <;>
    (unfold Dev.normBlocks at h_
     grind -ring -linarith -order only [kept_iff, → Dev.normBlock_kept])
theorem Dev.normalise_kept (d : Dev) (st n : Nat) : Kept d (Dev.normalise d st n) := by
  unfold Dev.normalise
  grind -ring -linarith -order only [kept_iff, → Dev.normBlocks_kept, Dev.setSlot_kept, Dev.stopped_kept,
    Dev.unserve_kept]
theorem execLoada_kept (st : Stack) (slot : SlotNo) (s : State) {t_ : State} (h_ : execLoada st slot s = .next t_) :
    Kept s.dev t_.dev := by
  unfold execLoada at h_
  refine State.always_kept ?_ h_
  grind -ring -linarith -order only [kept_iff, Dev.loada_kept]
theorem execWxv_kept (st : Stack) (i : Fin 16) (c : BankCell) (s : State) {t_ : State} (h_ : execWxv st i c s =
    .next t_) : Kept s.dev t_.dev := by
  unfold execWxv at h_
  refine State.always_kept ?_ h_
  grind -ring -linarith -order only [kept_iff, Dev.wxv_kept]
theorem execAttnDecode_kept (st : Stack) (i : Fin 16) (c : BankCell) (s : State) {t_ : State} (h_ : execAttnDecode
    st i c s = .next t_) : Kept s.dev t_.dev := by
  unfold execAttnDecode at h_
  refine State.always_kept ?_ h_
  grind -ring -linarith -order only [kept_iff, Dev.attnDecode_kept]
theorem execNormalise_kept (st : Stack) (slot : SlotNo) (s : State) {t_ : State} (h_ : execNormalise st slot s =
    .next t_) : Kept s.dev t_.dev := by
  unfold execNormalise at h_
  refine State.always_kept ?_ h_
  grind -ring -linarith -order only [kept_iff, Dev.normalise_kept]
theorem execEmit_kept (st : Stack) (i : Fin 16) (c : BankCell) (s : State) {t_ : State} (h_ : execEmit st i c s =
    .next t_) : Kept s.dev t_.dev := by
  unfold execEmit at h_
  refine State.always_kept ?_ h_
  grind -ring -linarith -order only [kept_iff, Dev.emitWord_kept]
theorem execStore_kept (st : Stack) (i : Fin 16) (c : BankCell) (s : State) {t_ : State} (h_ : execStore st i c s =
    .next t_) : Kept s.dev t_.dev := by
  unfold execStore at h_
  refine State.always_kept ?_ h_
  grind -ring -linarith -order only [kept_iff, Dev.storeStep_kept]
theorem execYield_kept (st : Stack) (i : Fin 16) (c : BankCell) (s : State) {t_ : State} (h_ : execYield st i c s =
    .next t_) : Kept s.dev t_.dev := by
  unfold execYield at h_
  refine State.always_kept ?_ h_
  grind -ring -linarith -order only [kept_iff, Dev.yieldWord_kept]
theorem execRefslot_kept (st : Stack) (i : Fin 16) (c : BankCell) (s : State) {t_ : State} (h_ : execRefslot st i c
    s = .next t_) : Kept s.dev t_.dev := by
  unfold execRefslot at h_
  refine State.always_kept ?_ h_
  grind -ring -linarith -order only [kept_iff, Dev.yieldWord_kept]
theorem execSeqEnd_kept (st : Stack) (i : Fin 16) (c : BankCell) (s : State) {t_ : State} (h_ : execSeqEnd st i c s
    = .next t_) : Kept s.dev t_.dev := by
  unfold execSeqEnd at h_
  refine State.always_kept ?_ h_
  grind -ring -linarith -order only [kept_iff, Dev.endWord_kept]
theorem execSequenceEnd_kept (st : Stack) (slot : SlotNo) (s : State) {t_ : State} (h_ : execSequenceEnd st slot s =
    .next t_) : Kept s.dev t_.dev := by
  unfold execSequenceEnd at h_
  refine State.always_kept ?_ h_
  grind -ring -linarith -order only [kept_iff, Dev.sequenceEnd_kept]
theorem execAttnRecordMerge_kept (st : Stack) (slot : SlotNo) (s : State) {t_ : State} (h_ : execAttnRecordMerge st
    slot s = .next t_) : Kept s.dev t_.dev := by
  unfold execAttnRecordMerge at h_
  refine State.always_kept ?_ h_
  grind -ring -linarith -order only [kept_iff, Dev.recordMerge_kept]
theorem Dev.scanTake_kept (d : Dev) (st i : Nat) (s : FpVal) : Kept d (Dev.scanTake d st i s) := by
  unfold Dev.scanTake
  grind -ring -linarith -order only [kept_iff, Dev.bump_kept, Dev.modStk_kept]
theorem Dev.scanVectors_kept (d : Dev) (sl : Slot) (st i c : Nat) (x : Scan) (ns : List Nat) : Kept d
    (Dev.scanVectors d sl st i c x ns) := by
  induction ns generalizing d st i c x <;>
    (unfold Dev.scanVectors
     grind -ring -linarith -order only [kept_iff, Dev.scanTake_kept])
theorem Dev.scanEnd_kept (d : Dev) (st : Nat) (x : Scan) : Kept d (Dev.scanEnd d st x) := by
  unfold Dev.scanEnd
  grind -ring -linarith -order only [kept_iff, Dev.modRegion_kept, Dev.modStk_kept, Dev.slotDone_kept]
theorem Dev.scanSegment_kept (d : Dev) (st i c : Nat) : Kept d (Dev.scanSegment d st i c) := by
  unfold Dev.scanSegment
  grind -ring -linarith -order only [foldl_kept, kept_iff, Dev.bauWaits_kept, Dev.drawn_kept, Dev.modBcell_kept,
    Dev.retriedAll_kept,
    Dev.scanEnd_kept, Dev.scanVectors_kept]
theorem Dev.loadQuery_kept (d : Dev) (st ck : Nat) : Kept d (Dev.loadQuery d st ck) := by
  unfold Dev.loadQuery
  grind -ring -linarith -order only [kept_iff, Dev.abufWrite_kept]
theorem Dev.writeList_kept (d : Dev) (k : Nat) (w : OpWord) (raws : List Nat) (l : List Cand) : Kept d
    (Dev.writeList d k w raws l) := by
  unfold Dev.writeList
  grind -ring -linarith -order only [foldl_kept, kept_iff, Dev.cellWrite_kept, Dev.drawn_kept]
theorem Dev.rootAdvance_kept (d : Dev) (r : Nat) (s : RootScan) : Kept d (Dev.rootAdvance d r s) := by
  unfold Dev.rootAdvance
  grind -ring -linarith -order only [kept_iff, Dev.finish_kept, Dev.setRegion_kept, Dev.writeList_kept]
theorem Dev.regionMerge_kept (d : Dev) (r : Nat) : Kept d (Dev.regionMerge d r) := by
  unfold Dev.regionMerge
  grind -ring -linarith -order only [kept_iff, Dev.finish_kept, Dev.modRegion_kept, Dev.rootAdvance_kept,
    Dev.sendFabric_kept,
    Dev.writeList_kept]
theorem Dev.listArrives_kept (d : Dev) (r : Nat) : Kept d (Dev.listArrives d r) := by
  unfold Dev.listArrives
  grind -ring -linarith -order only [kept_iff, Dev.rootAdvance_kept, Dev.sendFabric_kept, Dev.setRegion_kept]
theorem execScanRegionMerge_kept (r : Region) (s : State) {t_ : State} (h_ : execScanRegionMerge r s = .next t_) :
    Kept s.dev t_.dev := by
  unfold execScanRegionMerge at h_
  refine State.always_kept ?_ h_
  grind -ring -linarith -order only [kept_iff, Dev.regionMerge_kept]
theorem execScanListArrival_kept (r : Region) (s : State) {t_ : State} (h_ : execScanListArrival r s = .next t_) :
    Kept s.dev t_.dev := by
  unfold execScanListArrival at h_
  refine State.always_kept ?_ h_
  grind -ring -linarith -order only [kept_iff, Dev.listArrives_kept]
theorem execScanMergeTimeout_kept (r : Region) (s : State) {t_ : State} (h_ : execScanMergeTimeout r s = .next t_) :
    Kept s.dev t_.dev := by
  unfold execScanMergeTimeout at h_
  refine State.always_kept ?_ h_
  unfold Dev.when
  grind -ring -linarith -order only [kept_iff, Dev.regionFault_kept]
theorem Dev.sendDispatch_kept (d : Dev) (k o : Nat) : Kept d (Dev.sendDispatch d k o) := by
  unfold Dev.sendDispatch
  grind -ring -linarith -order only [foldl_kept, kept_iff, Dev.modFlight_kept, Dev.modQueue_kept, Dev.modStk_kept]
theorem Dev.newSlot_kept (d : Dev) (q : DispReq) (n : Nat) {p_ : Dev × Slot} (h_ : Dev.newSlot d q n = .ok p_) :
    Kept d p_.1 := by
  unfold Dev.newSlot at h_
  grind -ring -linarith -order only [kept_iff, → Dev.scratchWords_kept]
theorem Dev.sequenceImage_kept (d : Dev) (st a size : Nat) {p_ : Dev × List Byte} (h_ : Dev.sequenceImage d st a
    size = .ok p_) : Kept d p_.1 := by
  unfold Dev.sequenceImage at h_
  grind -ring -linarith -order only [kept_iff, → Dev.load_kept, Dev.modStk_kept]
theorem Dev.startSequence_kept (d : Dev) (st n : Nat) (q : DispReq) (rest : List DispReq) : Kept d
    (Dev.startSequence d st n q rest) := by
  have key : ∀ (l : List (Nat × Nat)) (e : Dev), Kept e
      (l.foldl (fun a p => a.modBcell (cellKey st p.1 p.2) (fun x => x.enqueue n)) e) :=
    fun l e => foldl_kept _ _ _ fun a x => Dev.modBcell_kept _ _ _
  unfold Dev.startSequence
  dsimp only
  split
  · exact Dev.modQueue_kept _ _ _
  have k0 := Dev.modStk_kept d st (fun x => { x with reqs := rest })
  split
  · split
    · exact Dev.stopped_kept _ _ _ _
    · rename_i h1
      have k1 := (Dev.sequenceImage_kept _ _ _ _ h1).trans (Dev.unserve_kept _ (reconWho st).party)
      split
      · exact k0.trans (Dev.parityHalt_kept _ _ _ _ _ _)
      · exact Kept.refl _
      · rename_i h2
        have k2 := k1.trans (Dev.newSlot_kept _ _ _ h2)
        have k3 := (k2.trans (Dev.drawn_kept _)).trans (Dev.modStk_kept _ st (fun x => { x with reqs := rest }))
        split
        · exact k3.trans (Dev.stackHalt_kept _ _ _ _)
        · split
          · exact k3.trans (Dev.stackHalt_kept _ _ _ _)
          · exact (k3.trans (Dev.setSlot_kept _ _ _ _)).trans (key _ _)
  · exact k0
theorem Dev.queueScan_kept (d : Dev) (st n : Nat) (q : DispReq) (rest : List DispReq) : Kept d (Dev.queueScan d st n
    q rest) := by
  unfold Dev.queueScan
  grind -ring -linarith -order only [kept_iff, Dev.drawn_kept, Dev.modStk_kept, → Dev.newSlot_kept,
    Dev.parityHalt_kept, Dev.setSlot_kept]
theorem Dev.filterSegment_kept (d : Dev) (st : Nat) (c : Op) {p_ : Dev × Option (List Byte)} (h_ : Dev.filterSegment
    d st c = .ok p_) : Kept d p_.1 := by
  unfold Dev.filterSegment at h_
  grind -ring -linarith -order only [kept_iff, → Dev.load_kept]
theorem Dev.scanCell_kept (d : Dev) (st ck : Nat) : Kept d (Dev.scanCell d st ck) := by
  unfold Dev.scanCell
  grind -ring -linarith -order only [kept_iff, Dev.loadQuery_kept, Dev.modBcell_kept]
theorem Dev.startScan_kept (d : Dev) (st n : Nat) (rest : List Nat) : Kept d (Dev.startScan d st n rest) := by
  unfold Dev.startScan
  grind -ring -linarith -order only [foldl_kept, kept_iff, → Dev.filterSegment_kept, Dev.modStk_kept,
    Dev.scanCell_kept, Dev.setSlot_kept,
    Dev.stopped_kept, Dev.unserve_kept]
theorem Dev.takeRequest_kept (d : Dev) (st : Nat) : Kept d (Dev.takeRequest d st) := by
  unfold Dev.takeRequest
  grind -ring -linarith -order only [kept_iff, Dev.queueScan_kept, Dev.startSequence_kept]
theorem Dev.dispatch_kept (d : Dev) (st : Nat) : Kept d (Dev.dispatch d st) := by
  unfold Dev.dispatch
  grind -ring -linarith -order only [kept_iff, Dev.startScan_kept, Dev.takeRequest_kept]
theorem Dev.useTurn_kept (d : Dev) (st i t : Nat) : Kept d (Dev.useTurn d st i t) := by
  unfold Dev.useTurn
  grind -ring -linarith -order only [kept_iff, Dev.modStk_kept]
theorem Dev.activate_kept (d : Dev) (st i c t : Nat) (row : Option Nat) : Kept d (Dev.activate d st i c t row) := by
  unfold Dev.activate
  grind -ring -linarith -order only [kept_iff, Dev.modBcell_kept, Dev.modStk_kept]
theorem Dev.tryActivate_kept (d : Dev) (st i c t rs : Nat) (row : Option Nat) : Kept d (Dev.tryActivate d st i c t
    rs row) := by
  unfold Dev.tryActivate
  grind -ring -linarith -order only [kept_iff, Dev.activate_kept, Dev.bump_kept, Dev.useTurn_kept]
theorem Dev.turn_kept (d : Dev) (st i c t : Nat) : Kept d (Dev.turn d st i c t) := by
  unfold Dev.turn
  grind -ring -linarith -order only [kept_iff, Dev.tryActivate_kept]
theorem Dev.bankAccess_kept (d : Dev) (a : Access) : Kept d (Dev.bankAccess d a) := by
  unfold Dev.bankAccess
  grind -ring -linarith -order only [foldl_kept, kept_iff, Dev.bump_kept, Dev.modBcell_kept, Dev.performAccess_kept,
    Dev.stoppedFor_kept]
theorem Dev.serveParty_kept (d : Dev) (ck : Nat) (p : Party) : Kept d (Dev.serveParty d ck p) := by
  unfold Dev.serveParty
  grind -ring -linarith -order only [kept_iff]
theorem Dev.serveCell_kept (d : Dev) (ck : Nat) (l : List Wait) : Kept d (Dev.serveCell d ck l) := by
  induction l generalizing d ck <;>
    (unfold Dev.serveCell
     grind -ring -linarith -order only [kept_iff, Dev.performAccess_kept, Dev.serveParty_kept])
theorem Dev.freeCell_kept (d : Dev) (ck : Nat) : Kept d (Dev.freeCell d ck) := by
  unfold Dev.freeCell
  grind -ring -linarith -order only [kept_iff, Dev.serveCell_kept, Dev.setBcell_kept]
theorem Dev.resume_kept (d : Dev) (st ck : Nat) : Kept d (Dev.resume d st ck) := by
  unfold Dev.resume
  grind -ring -linarith -order only [kept_iff, Dev.bumpBy_kept, Dev.freeCell_kept, Dev.loadQuery_kept,
      Dev.modBcell_kept, Dev.setBcell_kept]
theorem Dev.startRefresh_kept (d : Dev) (st i c : Nat) (x : BCell) : Kept d (Dev.startRefresh d st i c x) := by
  unfold Dev.startRefresh
  grind -ring -linarith -order only [kept_iff, Dev.modStk_kept, Dev.setBcell_kept]
theorem Dev.afterYield_kept (d : Dev) (st i c : Nat) (h : Option Stripe) : Kept d (Dev.afterYield d st i c h) := by
  unfold Dev.afterYield
  grind -ring -linarith -order only [kept_iff, Dev.modBcell_kept, Dev.resume_kept]
theorem Dev.serveYield_kept (d : Dev) (st i c : Nat) (ref : Bool) : Kept d (Dev.serveYield d st i c ref) := by
  unfold Dev.serveYield
  grind -ring -linarith -order only [kept_iff, Dev.afterYield_kept, Dev.bump_kept, Dev.serveCell_kept,
    Dev.setBcell_kept, Dev.startRefresh_kept]
theorem Dev.serveStopped_kept (d : Dev) (ck : Nat) : Kept d (Dev.serveStopped d ck) := by
  unfold Dev.serveStopped
  grind -ring -linarith -order only [kept_iff, Dev.serveCell_kept, Dev.setBcell_kept]
theorem Dev.yieldPoint_kept (d : Dev) (st i c : Nat) : Kept d (Dev.yieldPoint d st i c) := by
  unfold Dev.yieldPoint
  grind -ring -linarith -order only [kept_iff, Dev.scanSegment_kept, Dev.serveStopped_kept, Dev.serveYield_kept]
theorem Dev.refreshDue_kept (d : Dev) (st i c : Nat) : Kept d (Dev.refreshDue d st i c) := by
  unfold Dev.refreshDue
  grind -ring -linarith -order only [kept_iff, Dev.bump_kept, Dev.setBcell_kept, Dev.startRefresh_kept]
theorem Dev.refreshDone_kept (d : Dev) (st i c : Nat) : Kept d (Dev.refreshDone d st i c) := by
  unfold Dev.refreshDone
  grind -ring -linarith -order only [kept_iff, Dev.serveCell_kept, Dev.setBcell_kept]
theorem Dev.dropKeep_kept (d : Dev) (st : Nat) : Kept d (Dev.dropKeep d st) := by
  unfold Dev.dropKeep
  grind -ring -linarith -order only [kept_iff, Dev.modStk_kept]
theorem execStackSeq_kept (r : Region) (b : Blk) (s : State) {t_ : State} (h_ : execStackSeq r b s = .next t_) :
    Kept s.dev t_.dev := by
  unfold execStackSeq at h_
  refine State.always_kept ?_ h_
  grind -ring -linarith -order only [kept_iff, Dev.sendDispatch_kept]
theorem execStackScan_kept (r : Region) (b : Blk) (s : State) {t_ : State} (h_ : execStackScan r b s = .next t_) :
    Kept s.dev t_.dev := by
  unfold execStackScan at h_
  refine State.always_kept ?_ h_
  grind -ring -linarith -order only [kept_iff, Dev.sendDispatch_kept]
theorem execStackDispatch_kept (st : Stack) (s : State) {t_ : State} (h_ : execStackDispatch st s = .next t_) : Kept
    s.dev t_.dev := by
  unfold execStackDispatch at h_
  refine State.always_kept ?_ h_
  grind -ring -linarith -order only [kept_iff, Dev.dispatch_kept]
theorem execStreamActivation_kept (st : Stack) (i : Fin 16) (c : BankCell) (cycle : Nat) (s : State) {t_ : State}
    (h_ : execStreamActivation st i c cycle s = .next t_) : Kept s.dev t_.dev := by
  unfold execStreamActivation at h_
  refine State.always_kept ?_ h_
  grind -ring -linarith -order only [kept_iff, Dev.turn_kept]
theorem execYieldPoint_kept (st : Stack) (i : Fin 16) (c : BankCell) (s : State) {t_ : State} (h_ : execYieldPoint
    st i c s = .next t_) : Kept s.dev t_.dev := by
  unfold execYieldPoint at h_
  refine State.always_kept ?_ h_
  grind -ring -linarith -order only [kept_iff, Dev.yieldPoint_kept]
theorem execBankAccess_kept (who : Accessor) (hint : Hint) (addr : BitVec 48) (len : Nat) (wdata : Option (List
    Byte)) (s : State) {t_ : State} (h_ : execBankAccess who hint addr len wdata s = .next t_) : Kept s.dev t_.dev
    := by
  unfold execBankAccess at h_
  refine State.checked_kept ?_ h_
  grind -ring -linarith -order only [kept_iff, Dev.bankAccess_kept]
theorem execRefreshDue_kept (st : Stack) (i : Die) (c : BankCell) (s : State) {t_ : State} (h_ : execRefreshDue st i
    c s = .next t_) : Kept s.dev t_.dev := by
  unfold execRefreshDue at h_
  refine State.always_kept ?_ h_
  unfold Dev.when
  grind -ring -linarith -order only [kept_iff, Dev.refreshDue_kept]
theorem execRefreshDone_kept (st : Stack) (i : Die) (c : BankCell) (s : State) {t_ : State} (h_ : execRefreshDone st
    i c s = .next t_) : Kept s.dev t_.dev := by
  unfold execRefreshDone at h_
  refine State.always_kept ?_ h_
  grind -ring -linarith -order only [kept_iff, Dev.refreshDone_kept]
theorem Dev.startDrop_kept (d : Dev) (st : Nat) : Kept d (Dev.startDrop d st) := by
  unfold Dev.startDrop
  grind -ring -linarith -order only [kept_iff, Dev.dropKeep_kept, Dev.modStk_kept]
theorem execDropKeep_kept (st : Stack) (s : State) {t_ : State} (h_ : execDropKeep st s = .next t_) : Kept s.dev
    t_.dev := by
  unfold execDropKeep at h_
  refine State.hosted_kept (fun d => ?_) h_
  unfold Dev.when
  grind -ring -linarith -order only [kept_iff, Dev.dropKeep_kept, Dev.startDrop_kept]

end Sys2Proof.Machine
end

