-- ==== Sys2Proof/Laws/KeptTensor.lean ====
section
/-! SUPPORT. What every command keeps (Laws/Kept.lean), operation by operation: tensor operations, queues and links. -/

namespace Sys2Proof.Machine
open Sys2Proof

-- One proof at a time: each proof that waits for another keeps a thread, and a thread its stack.
set_option Elab.async false

theorem Dev.fetchBatches_kept (d : Dev) (w : Who) (v : View) (m : Local) (bs : Batches) {p_ : Dev × Local} (h_ :
    Dev.fetchBatches d w v m bs = .ok p_) : Kept d p_.1 := by
  induction bs generalizing d w v m p_ <;>
    (unfold Dev.fetchBatches at h_
     grind -ring -linarith -order only [kept_iff, → Dev.readRuns_kept])
theorem Dev.fetchSrcs_kept (d : Dev) (w : Who) (c : Op) (g : Nat) (cells : Bool) (l : List (Nat × Batches)) {p_ :
    Dev × List (Nat × Local)} (h_ : Dev.fetchSrcs d w c g cells l = .ok p_) : Kept d p_.1 := by
  induction l generalizing d w c g cells p_ <;>
    (unfold Dev.fetchSrcs at h_
     grind -ring -linarith -order only [kept_iff, → Dev.fetchBatches_kept])
theorem Dev.sendPort_kept (d : Dev) (k index q : Nat) (bs : List Byte) : Kept d (Dev.sendPort d k index q bs) := by
  unfold Dev.sendPort
  exact Dev.modQueue_kept d _ _
theorem Dev.divert_kept (d : Dev) (c : Op) (index : Nat) (v : View) (ps : List Put) : Kept d (Dev.divert d c index v
    ps).1 := by
  unfold Dev.divert
  apply foldl_kept
  intro a x
  grind -ring -linarith -order only [kept_iff, Dev.sendPort_kept]
theorem Dev.writeBatches_kept (d : Dev) (w : Who) (v : View) (p : Plan) (ms : Nat → Local) (i : Nat) (free : List
    Nat) (e : Nat) (first : Bool) (bs : Batches) {d_ : Dev} (h_ : Dev.writeBatches d w v p ms i free e first bs =
    .ok d_) : Kept d d_ := by
  induction bs generalizing d w v p ms i free e first d_ <;>
    (unfold Dev.writeBatches at h_
     grind -ring -linarith -order only [kept_iff, → Dev.putElems_kept])
theorem Dev.writeDsts_kept (d : Dev) (w : Who) (c : Op) (index g : Nat) (last : Bool) (p : Plan) (ms : Nat → Local)
    (e : Nat) (l : List (Nat × Batches)) {p_ : Dev × Bool} (h_ : Dev.writeDsts d w c index g last p ms e l = .ok p_)
    : Kept d p_.1 := by
  induction l generalizing d w c index g last p ms e p_ <;>
    (unfold Dev.writeDsts at h_
     grind -ring -linarith -order only [kept_iff, Dev.divert_kept, → Dev.writeBatches_kept])
theorem Dev.passTurn_kept (d : Dev) (c : Op) (g : Nat) (p : Plan) (ms : Nat → Local) : Kept d (Dev.passTurn d c g p
    ms) := by
  unfold Dev.passTurn
  grind -ring -linarith -order only [kept_iff, Dev.exchange_kept]
theorem Dev.runCells_kept (d : Dev) (w : Who) (c : Op) (index : Nat) (p : Plan) (outer : List (Nat × Local)) (e :
    Nat) (gs : List Nat) {p_ : Dev × Bool} (h_ : Dev.runCells d w c index p outer e gs = .ok p_) : Kept d p_.1 := by
  induction gs generalizing d w c index p outer e p_ <;>
    (unfold Dev.runCells at h_
     grind -ring -linarith -order only [kept_iff, → Dev.fetchSrcs_kept, Dev.passTurn_kept, → Dev.writeDsts_kept])
theorem Dev.runPlan_kept (d : Dev) (c : Op) (index : Nat) (p : Plan) (e : Nat) {p_ : Dev × Bool} (h_ : Dev.runPlan d
    c index p e = .ok p_) : Kept d p_.1 := by
  unfold Dev.runPlan at h_
  grind -ring -linarith -order only [kept_iff, → Dev.fetchSrcs_kept, → Dev.runCells_kept]
theorem Dev.opStopped_kept (d : Dev) (k : Nat) (f : Flight) (e : Stop) : Kept d (Dev.opStopped d k f e) := by
  unfold Dev.opStopped
  grind -ring -linarith -order only [kept_iff, Dev.modFlight_kept, Dev.parityHalt_kept, Dev.pennantWait_kept,
    Dev.stopped_kept]
theorem Dev.planEnd_kept (d : Dev) (k : Nat) (f : Flight) (r : Acc (Dev × Bool)) (hr : ∀ p, r = .ok p → Kept d p.1)
    : Kept d (Dev.planEnd d k f r) := by
  unfold Dev.planEnd
  grind -ring -linarith -order only [kept_iff, Dev.drawn_kept, Dev.finish_kept, Dev.modFlight_kept,
    Dev.opStopped_kept, Dev.unserve_kept]
theorem Dev.execute_kept (d : Dev) (k o : Nat) (plan : Op → Nat → Plan) : Kept d (Dev.execute d k o plan) := by
  unfold Dev.execute
  grind -ring -linarith -order only [kept_iff, Dev.planEnd_kept, → Dev.runPlan_kept]
theorem Dev.indexRows_kept (d : Dev) (c : Op) (g : Geo) {p_ : Dev × List (Option Nat)} (h_ : Dev.indexRows d c g =
    .ok p_) : Kept d p_.1 := by
  unfold Dev.indexRows at h_
  grind -ring -linarith -order only [kept_iff, → Dev.fetch_kept]
theorem Dev.executeIndexed_kept (d : Dev) (k o : Nat) : Kept d (Dev.executeIndexed d k o) := by
  unfold Dev.executeIndexed
  grind -ring -linarith -order only [kept_iff, Dev.bumpBy_kept, → Dev.indexRows_kept, Dev.opHalt_kept,
    Dev.opStopped_kept, Dev.planEnd_kept, →
    Dev.runPlan_kept]
theorem Dev.replayXnet_kept (d : Dev) (k : Nat) : Kept d (Dev.replayXnet d k) := by
  unfold Dev.replayXnet
  grind -ring -linarith -order only [kept_iff, Dev.bumpBy_kept]
theorem Dev.flightPlan_kept (d : Dev) (c : Op) (a : Nat) {p_ : Dev × Plan} (h_ : Dev.flightPlan d c a = some p_) :
    Kept d p_.1 := by
  unfold Dev.flightPlan at h_
  split at h_
  · split at h_
    · cases h_
    · rename_i h
      cases h_
      exact Dev.indexRows_kept _ _ _ h
  · simp only [Option.map_eq_some_iff] at h_
    obtain ⟨q, _, rfl⟩ := h_
    exact Kept.refl _
theorem Dev.partWay_kept (d : Dev) (k o : Nat) : Kept d (Dev.partWay d k o) := by
  unfold Dev.partWay
  grind -ring -linarith -order only [kept_iff, Dev.drawn_kept, → Dev.flightPlan_kept, Dev.modFlight_kept, →
      Dev.runPlan_kept]
theorem Dev.partWays_kept (d : Dev) (k : Nat) : Kept d (Dev.partWays d k) := by
  unfold Dev.partWays
  apply foldl_kept
  intro a x
  grind -ring -linarith -order only [kept_iff, Dev.partWay_kept]
theorem execMatmul_kept (r : Region) (b : Blk) (s : State) {t_ : State} (h_ : execMatmul r b s = .next t_) : Kept
    s.dev t_.dev := by
  unfold execMatmul at h_
  refine State.always_kept ?_ h_
  grind -ring -linarith -order only [kept_iff, Dev.execute_kept]
theorem execMatmulAcc_kept (r : Region) (b : Blk) (s : State) {t_ : State} (h_ : execMatmulAcc r b s = .next t_) :
    Kept s.dev t_.dev := by
  unfold execMatmulAcc at h_
  refine State.always_kept ?_ h_
  grind -ring -linarith -order only [kept_iff, Dev.execute_kept]
theorem execElem_kept (r : Region) (b : Blk) (s : State) {t_ : State} (h_ : execElem r b s = .next t_) : Kept s.dev
    t_.dev := by
  unfold execElem at h_
  refine State.always_kept ?_ h_
  grind -ring -linarith -order only [kept_iff, Dev.execute_kept]
theorem execReduce_kept (r : Region) (b : Blk) (s : State) {t_ : State} (h_ : execReduce r b s = .next t_) : Kept
    s.dev t_.dev := by
  unfold execReduce at h_
  refine State.always_kept ?_ h_
  grind -ring -linarith -order only [kept_iff, Dev.execute_kept]
theorem execRowstat_kept (r : Region) (b : Blk) (s : State) {t_ : State} (h_ : execRowstat r b s = .next t_) : Kept
    s.dev t_.dev := by
  unfold execRowstat at h_
  refine State.always_kept ?_ h_
  grind -ring -linarith -order only [kept_iff, Dev.execute_kept]
theorem execMove_kept (r : Region) (b : Blk) (s : State) {t_ : State} (h_ : execMove r b s = .next t_) : Kept s.dev
    t_.dev := by
  unfold execMove at h_
  refine State.always_kept ?_ h_
  grind -ring -linarith -order only [kept_iff, Dev.execute_kept]
theorem Dev.layout_kept (d : Dev) (k : Nat) : Kept d (Dev.layout d k) := by
  unfold Dev.layout
  grind -ring -linarith -order only [kept_iff, Dev.execute_kept, Dev.opHalt_kept, Dev.replayXnet_kept]
theorem execLayout_kept (r : Region) (b : Blk) (s : State) {t_ : State} (h_ : execLayout r b s = .next t_) : Kept
    s.dev t_.dev := by
  unfold execLayout at h_
  refine State.always_kept ?_ h_
  grind -ring -linarith -order only [kept_iff, Dev.layout_kept]
theorem execGather_kept (r : Region) (b : Blk) (s : State) {t_ : State} (h_ : execGather r b s = .next t_) : Kept
    s.dev t_.dev := by
  unfold execGather at h_
  refine State.always_kept ?_ h_
  grind -ring -linarith -order only [kept_iff, Dev.executeIndexed_kept]
theorem execScatter_kept (r : Region) (b : Blk) (s : State) {t_ : State} (h_ : execScatter r b s = .next t_) : Kept
    s.dev t_.dev := by
  unfold execScatter at h_
  refine State.always_kept ?_ h_
  grind -ring -linarith -order only [kept_iff, Dev.executeIndexed_kept]
theorem execScatterAcc_kept (r : Region) (b : Blk) (s : State) {t_ : State} (h_ : execScatterAcc r b s = .next t_) :
    Kept s.dev t_.dev := by
  unfold execScatterAcc at h_
  refine State.always_kept ?_ h_
  grind -ring -linarith -order only [kept_iff, Dev.executeIndexed_kept]
theorem execBwdScores_kept (r : Region) (b : Blk) (s : State) {t_ : State} (h_ : execBwdScores r b s = .next t_) :
    Kept s.dev t_.dev := by
  unfold execBwdScores at h_
  refine State.always_kept ?_ h_
  grind -ring -linarith -order only [kept_iff, Dev.execute_kept]
theorem execBwdRowdot_kept (r : Region) (b : Blk) (s : State) {t_ : State} (h_ : execBwdRowdot r b s = .next t_) :
    Kept s.dev t_.dev := by
  unfold execBwdRowdot at h_
  refine State.always_kept ?_ h_
  grind -ring -linarith -order only [kept_iff, Dev.execute_kept]
theorem execBwdDscore_kept (r : Region) (b : Blk) (s : State) {t_ : State} (h_ : execBwdDscore r b s = .next t_) :
    Kept s.dev t_.dev := by
  unfold execBwdDscore at h_
  refine State.always_kept ?_ h_
  grind -ring -linarith -order only [kept_iff, Dev.execute_kept]
theorem Dev.discardStep_kept (d : Dev) (r : Nat) : Kept d (Dev.discardStep d r) := by
  unfold Dev.discardStep
  grind -ring -linarith -order only [kept_iff, Dev.modDom_kept]
theorem Dev.pointerReset_kept (d : Dev) (r j : Nat) : Kept d (Dev.pointerReset d r j) := by
  unfold Dev.pointerReset
  grind -ring -linarith -order only [kept_iff, Dev.bump_kept, Dev.discardStep_kept, Dev.modQueue_kept, Dev.raise_kept]
theorem Dev.checkedQueue_kept (d : Dev) (r j : Nat) (f : Dev → Dev) (hf : ∀ a, Kept a (f a)) : Kept d
    (Dev.checkedQueue d r j f) := by
  unfold Dev.checkedQueue; grind -ring -linarith -order only [kept_iff, Dev.pointerReset_kept]
theorem Dev.queuesChecked_kept (d : Dev) (r : Nat) : Kept d (Dev.queuesChecked d r) := by
  unfold Dev.queuesChecked
  apply foldl_kept
  intro a x
  grind -ring -linarith -order [kept_iff, Dev.checkedQueue_kept]
theorem Dev.readyOne_kept (d : Dev) (r j : Nat) : Kept d (Dev.readyOne d r j) := by
  unfold Dev.readyOne
  grind -ring -linarith -order only [kept_iff, → Dev.flagAdd_kept, Dev.regionFault_kept]
theorem Dev.readyMany_kept (d : Dev) (r j : Nat) (n0 : Nat) : Kept d (Dev.readyMany d r j n0) := by
  induction n0 generalizing d r j <;>
    (unfold Dev.readyMany
     grind -ring -linarith -order only [kept_iff, Dev.readyOne_kept])
theorem Dev.offerPackets_kept (d : Dev) (r j : Nat) : Kept d (Dev.offerPackets d r j) := by
  unfold Dev.offerPackets
  grind -ring -linarith -order only [kept_iff, Dev.readyMany_kept, Dev.setQueue_kept]
theorem Dev.outputDone_kept (d : Dev) (r j : Nat) (o : QOut) : Kept d (Dev.outputDone d r j o) := by
  unfold Dev.outputDone
  grind -ring -linarith -order only [kept_iff, Dev.finish_kept, Dev.modQueue_kept, Dev.slotDone_kept]
theorem Dev.putEntry_kept (d : Dev) (r j : Nat) (o : QOut) : Kept d (Dev.putEntry d r j o) := by
  unfold Dev.putEntry
  grind -ring -linarith -order only [kept_iff, Dev.bbufWrite_kept, Dev.offerPackets_kept, Dev.outputDone_kept,
    Dev.setQueue_kept]
theorem Dev.entryWrite_kept (d : Dev) (r j : Nat) : Kept d (Dev.entryWrite d r j) := by
  unfold Dev.entryWrite
  grind -ring -linarith -order only [kept_iff, Dev.bump_kept, Dev.checkedQueue_kept, Dev.outputDone_kept,
    Dev.putEntry_kept, Dev.setQueue_kept]
theorem Dev.release_kept (d : Dev) (r j n : Nat) : Kept d (Dev.release d r j n) := by
  have k := Dev.modQueue_kept d (32 * r + j) (fun x => x.released n)
  unfold Dev.release
  dsimp only
  split
  · exact k.trans (Dev.sendFabric_kept _ _ _ _ _)
  · exact k.trans (Dev.modQueue_kept _ _ _)
theorem Dev.control_kept (d : Dev) (r j v : Nat) : Kept d (Dev.control d r j v) := by
  unfold Dev.control
  grind -ring -linarith -order only [kept_iff, Dev.modQueue_kept, Dev.offerPackets_kept, Dev.release_kept]
theorem Dev.controlStep_kept (d : Dev) (r j o : Nat) : Kept d (Dev.controlStep d r j o) := by
  unfold Dev.controlStep
  grind -ring -linarith -order only [kept_iff, Dev.checkedQueue_kept, Dev.control_kept, Dev.modQueue_kept,
    Dev.regionFault_kept]
theorem execQueueEntryWrite_kept (r : Region) (q : QueueNo) (s : State) {t_ : State} (h_ : execQueueEntryWrite r q s
    = .next t_) : Kept s.dev t_.dev := by
  unfold execQueueEntryWrite at h_
  refine State.always_kept ?_ h_
  grind -ring -linarith -order only [kept_iff, Dev.entryWrite_kept]
theorem execQueueRelease_kept (r : Region) (q : QueueNo) (s : State) {t_ : State} (h_ : execQueueRelease r q s =
    .next t_) : Kept s.dev t_.dev := by
  unfold execQueueRelease at h_
  refine State.always_kept ?_ h_
  grind -ring -linarith -order only [kept_iff, Dev.controlStep_kept]
theorem execQueueMark_kept (r : Region) (q : QueueNo) (s : State) {t_ : State} (h_ : execQueueMark r q s = .next t_)
    : Kept s.dev t_.dev := by
  unfold execQueueMark at h_
  refine State.always_kept ?_ h_
  grind -ring -linarith -order only [kept_iff, Dev.controlStep_kept]
theorem execQueueRewind_kept (r : Region) (q : QueueNo) (s : State) {t_ : State} (h_ : execQueueRewind r q s = .next
    t_) : Kept s.dev t_.dev := by
  unfold execQueueRewind at h_
  refine State.always_kept ?_ h_
  grind -ring -linarith -order only [kept_iff, Dev.controlStep_kept]
theorem execQueueStall_kept (r : Region) (q : QueueNo) (s : State) {t_ : State} (h_ : execQueueStall r q s = .next
    t_) : Kept s.dev t_.dev := by
  unfold execQueueStall at h_
  refine State.always_kept ?_ h_
  unfold Dev.when
  grind -ring -linarith -order only [kept_iff, Dev.regionFault_kept]
theorem Dev.messageArrives_kept (d : Dev) (src dst : Nat) (cls : FabClass) : Kept d (Dev.messageArrives d src dst
    cls) := by
  unfold Dev.messageArrives
  grind -ring -linarith -order only [kept_iff, Dev.finish_kept, Dev.modQueue_kept, Dev.modRegion_kept, Dev.release_kept]
theorem Dev.contribute_kept (d : Dev) (k n : Nat) (f : Flight) : Kept d (Dev.contribute d k n f) := by
  unfold Dev.contribute
  grind -ring -linarith -order only [kept_iff, Dev.modFlight_kept, Dev.modRegion_kept, Dev.opStopped_kept,
    → Dev.readRun_kept,
    Dev.regionFault_kept, Dev.setRounds_kept]
theorem Dev.treeReduce_kept (d : Dev) (k : Nat) : Kept d (Dev.treeReduce d k) := by
  unfold Dev.treeReduce
  grind -ring -linarith -order only [kept_iff, Dev.contribute_kept]
theorem Dev.treeResult_kept (d : Dev) (vals : List Word) (p : Contrib) : Kept d (Dev.treeResult d vals p) := by
  unfold Dev.treeResult
  grind -ring -linarith -order only [foldl_kept, kept_iff, Dev.cellWrite_kept, Dev.drawn_kept, Dev.finish_kept]
theorem Dev.roundEnds_kept (d : Dev) (n : Nat) (x : Round) (vals : List Word) : Kept d (Dev.roundEnds d n x vals) :=
    by
  unfold Dev.roundEnds
  grind -ring -linarith -order only [foldl_kept, kept_iff, Dev.bump_kept, Dev.modRounds_kept, Dev.treeResult_kept]
theorem Dev.treeRoom_kept (d : Dev) (ps : List Nat) (n : Nat) : Kept d (Dev.treeRoom d ps n) := by
  unfold Dev.treeRoom
  apply foldl_kept
  intro a x
  grind -ring -linarith -order only [kept_iff, Dev.sendRoom_kept]
theorem Dev.treeComplete_kept (d : Dev) (n : Nat) (late : Bool) : Kept d (Dev.treeComplete d n late) := by
  unfold Dev.treeComplete
  grind -ring -linarith -order only [kept_iff, Dev.bump_kept, Dev.drawn_kept, Dev.modRounds_kept, Dev.roundEnds_kept,
      Dev.treeRoom_kept]
theorem Dev.treeTimeout_kept (d : Dev) (n : Nat) : Kept d (Dev.treeTimeout d n) := by
  unfold Dev.treeTimeout
  grind -ring -linarith -order only [kept_iff, Dev.regionFault_kept]
theorem Dev.spanEnter_kept (d : Dev) (p st reason : Nat) : Kept d (Dev.spanEnter d p st reason) := by
  unfold Dev.spanEnter
  grind -ring -linarith -order only [kept_iff, Dev.modSpan_kept, Dev.raise_kept]
theorem Dev.spanOut_kept (d : Dev) (p channel : Nat) (bytes : List Byte) : Kept d (Dev.spanOut d p channel bytes) :=
    by
  unfold Dev.spanOut
  grind -ring -linarith -order only [kept_iff, Dev.bumpBy_kept, Dev.emit_kept]
theorem Dev.spanData_kept (d : Dev) (k : Nat) (f : Flight) : Kept d (Dev.spanData d k f) := by
  unfold Dev.spanData
  grind -ring -linarith -order only [kept_iff, Dev.modFlight_kept, Dev.modSpan_kept, Dev.opStopped_kept,
    → Dev.readRun_kept, Dev.spanOut_kept,
    Dev.unserve_kept]
theorem Dev.spanBack_kept (d : Dev) (b : SpanBack) : Kept d (Dev.spanBack d b) := by
  unfold Dev.spanBack
  grind -ring -linarith -order only [kept_iff, Dev.finish_kept, Dev.modSpan_kept]
theorem Dev.spanSend_kept (d : Dev) (k : Nat) (got : Option SpanBack) : Kept d (Dev.spanSend d k got) := by
  unfold Dev.spanSend
  grind -ring -linarith -order only [kept_iff, Dev.spanBack_kept, Dev.spanData_kept]
theorem Dev.receiveInto_kept (d : Dev) (c : Op) (index : Nat) (bs : List Byte) {p_ : Dev × Bool} (h_ :
    Dev.receiveInto d c index bs = .ok p_) : Kept d p_.1 := by
  unfold Dev.receiveInto at h_
  grind -ring -linarith -order only [foldl_kept, kept_iff, Dev.cellWrite_kept, Dev.divert_kept, → Dev.putElems_kept]
theorem Dev.spanRecv_kept (d : Dev) (k : Nat) : Kept d (Dev.spanRecv d k) := by
  unfold Dev.spanRecv
  grind -ring -linarith -order only [kept_iff, Dev.emit_kept, Dev.planEnd_kept, → Dev.receiveInto_kept,
    Dev.regionFault_kept, Dev.setSpan_kept]
theorem Dev.spanArrival_kept (d : Dev) (p channel : Nat) (bytes : List Byte) : Kept d (Dev.spanArrival d p channel
    bytes) := by
  unfold Dev.spanArrival
  grind -ring -linarith -order only [kept_iff, Dev.bumpBy_kept, Dev.emit_kept, Dev.setSpan_kept]
theorem Dev.roomOf_kept (d : Dev) (p : Nat) : Kept d (Dev.roomOf d p) := by
  unfold Dev.roomOf
  grind -ring -linarith -order only [foldl_kept, kept_iff, Dev.sendRoom_kept]
theorem Dev.trainResult_kept (d : Dev) (p : Nat) (res : TrainEnd) : Kept d (Dev.trainResult d p res) := by
  unfold Dev.trainResult
  grind -ring -linarith -order only [kept_iff, Dev.modSpan_kept, Dev.roomOf_kept, Dev.spanEnter_kept]
theorem Dev.spanTrains_kept (d : Dev) (p : Nat) : Kept d (Dev.spanTrains d p) := by
  unfold Dev.spanTrains
  grind -ring -linarith -order only [kept_iff, Dev.emit_kept, Dev.spanEnter_kept]
theorem Dev.spanRetrain_kept (d : Dev) (p : Nat) : Kept d (Dev.spanRetrain d p) := by
  unfold Dev.spanRetrain
  grind -ring -linarith -order only [kept_iff, Dev.modSpan_kept, Dev.spanTrains_kept]
theorem Dev.cutPort_kept (d : Dev) (p : Nat) : Kept d (Dev.cutPort d p) := by
  unfold Dev.cutPort
  grind -ring -linarith -order only [foldl_kept, kept_iff, Dev.modBlk_kept, Dev.modRounds_kept, Dev.modSpan_kept]
theorem Dev.spanFails_kept (d : Dev) (p : Nat) : Kept d (Dev.spanFails d p) := by
  unfold Dev.spanFails
  grind -ring -linarith -order only [kept_iff, Dev.cutPort_kept, Dev.modSpan_kept, Dev.spanEnter_kept]
theorem Dev.sendWords_kept (d : Dev) (ps : List Nat) (l : List Word) : Kept d (Dev.sendWords d ps l) := by
  unfold Dev.sendWords
  apply foldl_kept
  intro a x
  grind -ring -linarith -order only [kept_iff, Dev.modSpan_kept, Dev.spanOut_kept]
theorem Dev.takeTree_kept (d : Dev) (ps : List Nat) {p_ : Dev × List (List Byte)} (h_ : Dev.takeTree d ps = some p_)
    : Kept d p_.1 := by
  induction ps generalizing d p_ with
  | nil => cases h_; exact Kept.refl _
  | cons p r ih =>
    unfold Dev.takeTree at h_
    split at h_
    · cases h_
    · simp only [Option.map_eq_some_iff] at h_
      obtain ⟨q, hq, rfl⟩ := h_
      exact ((Dev.modSpan_kept ..).trans (Dev.emit_kept ..)).trans (ih (p_ := q) _ hq)
theorem Dev.treeFinal_kept (d1 d : Dev) (n : Nat) (t : SpanTree) (x : Round) (vals : List Word) (h : Kept d d1) :
    Kept d (Dev.treeFinal d1 d n t x vals) := by
  unfold Dev.treeFinal
  split
  · exact (h.trans (Dev.sendWords_kept ..)).trans (Dev.roundEnds_kept ..)
  · exact Kept.refl _
theorem Dev.treeUp_kept (d : Dev) (n : Nat) (t : SpanTree) (x : Round) (own : List Word) : Kept d (Dev.treeUp d n t
    x own) := by
  unfold Dev.treeUp
  grind -ring -linarith -order only [kept_iff, Dev.drawn_kept, Dev.modRounds_kept, Dev.sendWords_kept, →
      Dev.takeTree_kept, Dev.treeFinal_kept,
    Dev.treeRoom_kept]
theorem Dev.spanRound_kept (d : Dev) (n : Nat) : Kept d (Dev.spanRound d n) := by
  unfold Dev.spanRound
  grind -ring -linarith -order only [kept_iff, Dev.drawn_kept, → Dev.takeTree_kept, Dev.treeFinal_kept, Dev.treeUp_kept]
theorem Dev.treeTurn_kept (d : Dev) (t : TreeTurn) : Kept d (Dev.treeTurn d t) := by
  unfold Dev.treeTurn
  grind -ring -linarith -order only [kept_iff, Dev.spanBack_kept, Dev.spanRound_kept]
theorem execFabricMessage_kept (src dst : Router) (cls : FabClass) (s : State) {t_ : State} (h_ : execFabricMessage
    src dst cls s = .next t_) : Kept s.dev t_.dev := by
  unfold execFabricMessage at h_
  refine State.always_kept ?_ h_
  unfold Dev.when
  grind -ring -linarith -order only [kept_iff, Dev.messageArrives_kept]
theorem execTreeReduce_kept (r : Region) (b : Blk) (s : State) {t_ : State} (h_ : execTreeReduce r b s = .next t_) :
    Kept s.dev t_.dev := by
  unfold execTreeReduce at h_
  refine State.always_kept ?_ h_
  grind -ring -linarith -order only [kept_iff, Dev.treeReduce_kept]
theorem execTreeRoundComplete_kept (n : Domain) (late : Bool) (s : State) {t_ : State} (h_ : execTreeRoundComplete n
    late s = .next t_) : Kept s.dev t_.dev := by
  unfold execTreeRoundComplete at h_
  refine State.always_kept ?_ h_
  grind -ring -linarith -order only [kept_iff, Dev.treeComplete_kept]
theorem execTreeTimeout_kept (n : Domain) (s : State) {t_ : State} (h_ : execTreeTimeout n s = .next t_) : Kept
    s.dev t_.dev := by
  unfold execTreeTimeout at h_
  refine State.always_kept ?_ h_
  grind -ring -linarith -order only [kept_iff, Dev.treeTimeout_kept]
theorem execSpanSend_kept (r : Region) (op : SpanSend) (s : State) {t_ : State} (h_ : execSpanSend r op s = .next
    t_) : Kept s.dev t_.dev := by
  unfold execSpanSend at h_
  refine State.always_kept ?_ h_
  grind -ring -linarith -order only [kept_iff, Dev.spanSend_kept]
theorem execSpanRecv_kept (r : Region) (b : Blk) (s : State) {t_ : State} (h_ : execSpanRecv r b s = .next t_) :
    Kept s.dev t_.dev := by
  unfold execSpanRecv at h_
  refine State.always_kept ?_ h_
  grind -ring -linarith -order only [kept_iff, Dev.spanRecv_kept]
theorem execSpanTrainResult_kept (p : PortNo) (res : TrainEnd) (s : State) {t_ : State} (h_ : execSpanTrainResult p
    res s = .next t_) : Kept s.dev t_.dev := by
  unfold execSpanTrainResult at h_
  refine State.always_kept ?_ h_
  grind -ring -linarith -order only [kept_iff, Dev.trainResult_kept]
theorem execSpanRetrain_kept (p : PortNo) (s : State) {t_ : State} (h_ : execSpanRetrain p s = .next t_) : Kept
    s.dev t_.dev := by
  unfold execSpanRetrain at h_
  refine State.hosted_kept (fun d => ?_) h_
  unfold Dev.when
  grind -ring -linarith -order only [kept_iff, Dev.spanRetrain_kept]
theorem execSpanMessageArrival_kept (p : PortNo) (channel : Byte) (bytes : List Byte) (s : State) {t_ : State} (h_ :
    execSpanMessageArrival p channel bytes s = .next t_) : Kept s.dev t_.dev := by
  unfold execSpanMessageArrival at h_
  refine State.always_kept ?_ h_
  grind -ring -linarith -order only [kept_iff, Dev.spanArrival_kept]
theorem execSpanTreeRound_kept (turn : TreeTurn) (s : State) {t_ : State} (h_ : execSpanTreeRound turn s = .next t_)
    : Kept s.dev t_.dev := by
  unfold execSpanTreeRound at h_
  refine State.always_kept ?_ h_
  grind -ring -linarith -order only [kept_iff, Dev.treeTurn_kept, Dev.turn_kept]
theorem execSpanTimeout_kept (r : Region) (b : Blk) (pos : Fin 32) (s : State) {t_ : State} (h_ : execSpanTimeout r
    b pos s = .next t_) : Kept s.dev t_.dev := by
  unfold execSpanTimeout at h_
  refine State.always_kept ?_ h_
  unfold Dev.when
  grind -ring -linarith -order only [kept_iff, Dev.regionFault_kept]

end Sys2Proof.Machine
end

