-- ==== Sys2Proof/Laws/KeptServe.lean ====
section
/-! SUPPORT. What every command keeps (Laws/Kept.lean), operation by operation: serving, security and bundles. -/

namespace Sys2Proof.Machine
open Sys2Proof

-- One proof at a time: each proof that waits for another keeps a thread, and a thread its stack.
set_option Elab.async false

theorem Dev.changed_kept (d : Dev) (i : Nat) : Kept d (Dev.changed d i) := by
  unfold Dev.changed
  grind -ring -linarith -order only [kept_iff, Dev.raise_kept]
theorem Dev.setState_kept (d : Dev) (i : Nat) (st : ReqState) : Kept d (Dev.setState d i st) := by
  unfold Dev.setState
  grind -ring -linarith -order only [kept_iff, Dev.changed_kept, Dev.modReq_kept]
theorem Dev.kick_kept (d : Dev) (n : Nat) : Kept d (Dev.kick d n) := by
  unfold Dev.kick
  grind -ring -linarith -order only [kept_iff, Dev.modDom_kept]
theorem Dev.credit_kept (d : Dev) (c n : Nat) : Kept d (Dev.credit d c n) := by
  unfold Dev.credit
  grind -ring -linarith -order only [kept_iff, Dev.saturated_kept, Dev.setCust_kept]
theorem Dev.reserve_kept (d : Dev) (c n : Nat) : Kept d (Dev.reserve d c n) := by
  unfold Dev.reserve
  grind -ring -linarith -order only [kept_iff, Dev.modCust_kept]
theorem Dev.unreserve_kept (d : Dev) (c n : Nat) : Kept d (Dev.unreserve d c n) := by
  unfold Dev.unreserve
  grind -ring -linarith -order only [kept_iff, Dev.credit_kept, Dev.modCust_kept]
theorem Dev.record_kept (d : Dev) (step : BitVec 16) (n : Nat) (command : Bool) (parts : List TwinPart) : Kept d
    (Dev.record d step n command parts) := by
  have k := Dev.mirrorQueued_kept d (.record d.twin.nextSeq step (BitVec.ofNat 4 n) command parts)
  unfold Dev.record
  split
  · exact k.trans ⟨rfl, id⟩
  · exact Kept.refl _
theorem Dev.commandRecord_kept (d : Dev) (i : Nat) : Kept d (Dev.commandRecord d i) := by
  unfold Dev.commandRecord
  grind -ring -linarith -order only [kept_iff, Dev.record_kept]
theorem Dev.groupFilled_kept (d : Dev) (w : Who) (list ids g : Nat) {p_ : Dev × Bool} (h_ : Dev.groupFilled d w list
    ids g = .ok p_) : Kept d p_.1 := by
  unfold Dev.groupFilled at h_
  grind -ring -linarith -order only [kept_iff, → Dev.load_kept]
theorem Dev.filledFrom_kept (d : Dev) (w : Who) (list ids g : Nat) (n0 : Nat) {p_ : Dev × Nat} (h_ : Dev.filledFrom
    d w list ids g n0 = .ok p_) : Kept d p_.1 := by
  induction n0 generalizing d w list ids g p_ <;>
    (unfold Dev.filledFrom at h_
     grind -ring -linarith -order only [kept_iff, → Dev.groupFilled_kept])
theorem Dev.filledGroups_kept (d : Dev) (x : Req) (b : Bundle) (groups : Nat) {p_ : Dev × Nat} (h_ :
    Dev.filledGroups d x b groups = .ok p_) : Kept d p_.1 := by
  unfold Dev.filledGroups at h_
  grind -ring -linarith -order only [kept_iff, → Dev.filledFrom_kept, Dev.unserve_kept, → Acc.andThen_ok]
theorem Dev.dropGranules_kept (d : Dev) (i : Nat) : Kept d (Dev.dropGranules d i) := by
  unfold Dev.dropGranules
  grind -ring -linarith -order only [kept_iff, Dev.modReq_kept]
theorem Dev.loadRuns_kept (d : Dev) (w : Who) (as : List Nat) {p_ : Dev × List Byte} (h_ : Dev.loadRuns d w as = .ok
    p_) : Kept d p_.1 := by
  induction as generalizing d w p_ <;>
    (unfold Dev.loadRuns at h_
     grind -ring -linarith -order only [kept_iff, → Dev.load_kept, Dev.unserve_kept])
theorem Dev.storePage_kept (d : Dev) (w : Who) (id : Nat) (bs : List Byte) {d_ : Dev} (h_ : Dev.storePage d w id bs
    = .ok d_) : Kept d d_ := by
  unfold Dev.storePage at h_
  grind -ring -linarith -order only [kept_iff, Dev.unserve_kept, → Dev.writeStripes_kept, → Acc.andThen_ok]
theorem Dev.pageIds_kept (d : Dev) (x : Req) (b : Bundle) (groups : Nat) {p_ : Dev × List Nat} (h_ : Dev.pageIds d x
    b groups = .ok p_) : Kept d p_.1 := by
  unfold Dev.pageIds at h_
  grind -ring -linarith -order only [kept_iff, → Dev.load_kept, Dev.unserve_kept]
theorem Dev.storeGranules_kept (d : Dev) (gs : List Nat) (bs : List Byte) {d_ : Dev} (h_ : Dev.storeGranules d gs bs
    = .ok d_) : Kept d d_ := by
  induction gs generalizing d bs d_ <;>
    (unfold Dev.storeGranules at h_
     grind -ring -linarith -order only [kept_iff, → Dev.store_kept, Dev.unserve_kept])
theorem Dev.loadGranules_kept (d : Dev) (gs : List Nat) {p_ : Dev × List Byte} (h_ : Dev.loadGranules d gs = .ok p_)
    : Kept d p_.1 := by
  induction gs generalizing d p_ <;>
    (unfold Dev.loadGranules at h_
     grind -ring -linarith -order only [kept_iff, → Dev.load_kept, Dev.unserve_kept])
theorem Dev.packPage_kept (d : Dev) (shape id : Nat) (gs : List Nat) {d_ : Dev} (h_ : Dev.packPage d shape id gs =
    .ok d_) : Kept d d_ := by
  unfold Dev.packPage at h_
  obtain ⟨a, h1, h2⟩ := Acc.andThen_ok h_
  exact (Dev.loadRuns_kept _ _ _ h1).trans (Dev.storeGranules_kept _ _ _ h2)
theorem Dev.expandPage_kept (d : Dev) (shape id : Nat) (gs : List Nat) {d_ : Dev} (h_ : Dev.expandPage d shape id gs
    = .ok d_) : Kept d d_ := by
  unfold Dev.expandPage at h_
  grind -ring -linarith -order only [kept_iff, → Dev.loadGranules_kept, → Dev.storePage_kept, → Acc.andThen_ok]
theorem Dev.copyPages_kept (d : Dev) (expand : Bool) (shape : Nat) (ps : List (Nat × List Nat)) {d_ : Dev} (h_ :
    Dev.copyPages d expand shape ps = .ok d_) : Kept d d_ := by
  induction ps generalizing d expand shape d_ <;>
    (unfold Dev.copyPages at h_
     grind -ring -linarith -order only [kept_iff, → Dev.expandPage_kept, → Dev.packPage_kept, → Acc.andThen_ok,
       foldl_kept])
theorem Dev.copyRequest_kept (d : Dev) (x : Req) (b : Bundle) (chosen : Nat → Bool) {d_ : Dev} (h_ : Dev.copyRequest
    d x b chosen = .ok d_) : Kept d d_ := by
  unfold Dev.copyRequest at h_
  grind -ring -linarith -order only [kept_iff, → Dev.copyPages_kept, → Dev.pageIds_kept, → Acc.andThen_ok]
theorem Dev.partCopied_kept (d : Dev) (i : Nat) : Kept d (Dev.partCopied d i) := by
  unfold Dev.partCopied
  grind -ring -linarith -order only [kept_iff, → Dev.copyRequest_kept, Dev.drawn_kept]
theorem Dev.eligible_kept (d : Dev) (i : Nat) {p_ : Dev × Option Elig} (h_ : Dev.eligible d i = .ok p_) : Kept d
    p_.1 := by
  unfold Dev.eligible at h_
  grind -ring -linarith -order only [kept_iff, → Dev.filledGroups_kept]
theorem Dev.eligibles_kept (d : Dev) (is : List Nat) {p_ : Dev × List Elig} (h_ : Dev.eligibles d is = .ok p_) :
    Kept d p_.1 := by
  induction is generalizing d p_ <;>
    (unfold Dev.eligibles at h_
     grind -ring -linarith -order only [kept_iff, → Dev.eligible_kept])
theorem Dev.preempt_kept (d : Dev) (n : Nat) : Kept d (Dev.preempt d n) := by
  unfold Dev.preempt
  grind -ring -linarith -order only [kept_iff, Dev.modDom_kept]
theorem Dev.tryPreempt_kept (d : Dev) (n : Nat) : Kept d (Dev.tryPreempt d n) := by
  unfold Dev.tryPreempt
  grind -ring -linarith -order only [kept_iff, → Dev.eligibles_kept, Dev.modDom_kept, Dev.preempt_kept,
      Dev.stopped_kept]
theorem Dev.judgeAgain_kept (d : Dev) : Kept d (Dev.judgeAgain d) := by
  unfold Dev.judgeAgain
  apply foldl_kept
  intro a x
  grind -ring -linarith -order only [kept_iff, Dev.modDom_kept, Dev.tryPreempt_kept]
theorem Dev.prompt_kept (d : Dev) (n : Nat) : Kept d (Dev.prompt d n) := by
  unfold Dev.prompt
  grind -ring -linarith -order only [kept_iff, Dev.kick_kept, Dev.tryPreempt_kept]
theorem Dev.refuse_kept (d : Dev) (i code : Nat) : Kept d (Dev.refuse d i code) := by
  unfold Dev.refuse
  grind -ring -linarith -order only [kept_iff, Dev.changed_kept, Dev.modReq_kept]
theorem Dev.taken_kept (d : Dev) (i : Nat) : Kept d (Dev.taken d i) := by
  unfold Dev.taken
  grind -ring -linarith -order only [kept_iff, Dev.modReq_kept]
theorem Dev.accepted_kept (d : Dev) (i : Nat) : Kept d (Dev.accepted d i) := by
  unfold Dev.accepted
  grind -ring -linarith -order only [kept_iff, Dev.commandRecord_kept, Dev.prompt_kept]
theorem Dev.submit_kept (d : Dev) (i : Nat) : Kept d (Dev.submit d i) := by
  unfold Dev.submit
  grind -ring -linarith -order only [kept_iff, Dev.accepted_kept, Dev.modReq_kept, Dev.refuse_kept,
    Dev.setState_kept, Dev.taken_kept]
theorem Dev.cancel_kept (d : Dev) (i : Nat) : Kept d (Dev.cancel d i) := by
  unfold Dev.cancel
  grind -ring -linarith -order only [kept_iff, Dev.accepted_kept, Dev.changed_kept, Dev.complete_kept,
    Dev.dropGranules_kept, Dev.modReq_kept,
    Dev.partCopied_kept, Dev.refuse_kept, Dev.setState_kept, Dev.taken_kept]
theorem Dev.copyRegions_kept (d : Dev) (x : Req) (b : Bundle) {p_ : Dev × List Nat} (h_ : Dev.copyRegions d x b =
    .ok p_) : Kept d p_.1 := by
  unfold Dev.copyRegions at h_
  grind -ring -linarith -order only [kept_iff, → Dev.pageIds_kept, → Acc.andThen_ok]
theorem Dev.copyFalls_kept (d : Dev) (i : Nat) (rs : List Nat) : Kept d (Dev.copyFalls d i rs) := by
  unfold Dev.copyFalls
  grind -ring -linarith -order only [foldl_kept, kept_iff, Dev.modReq_kept, Dev.wakeUnit_kept]
theorem Dev.parkStarts_kept (d : Dev) (i : Nat) (st : ReqState) : Kept d (Dev.parkStarts d i st) := by
  have k := Dev.setState_kept d i st
  unfold Dev.parkStarts
  dsimp only
  split
  · rename_i p h
    simp only [Option.map_eq_some_iff] at h
    obtain ⟨b, _, hb⟩ := h
    exact (k.trans (Dev.copyRegions_kept _ _ _ hb)).trans (Dev.copyFalls_kept ..)
  · exact k.trans (Dev.modReq_kept ..)
theorem Dev.park_kept (d : Dev) (i : Nat) : Kept d (Dev.park d i) := by
  unfold Dev.park
  grind -ring -linarith -order only [kept_iff, Dev.accepted_kept, Dev.dropGranules_kept, → Dev.filledGroups_kept,
    Dev.modReq_kept,
    Dev.parkStarts_kept, Dev.refuse_kept, Dev.stopped_kept, Dev.taken_kept]
theorem Dev.resumeReq_kept (d : Dev) (i : Nat) : Kept d (Dev.resumeReq d i) := by
  unfold Dev.resumeReq
  grind -ring -linarith -order only [kept_iff, Dev.accepted_kept, → Dev.filledGroups_kept, Dev.parkStarts_kept,
    Dev.refuse_kept,
    Dev.stopped_kept, Dev.taken_kept]
theorem Dev.releaseReq_kept (d : Dev) (i : Nat) : Kept d (Dev.releaseReq d i) := by
  unfold Dev.releaseReq
  grind -ring -linarith -order only [kept_iff, Dev.accepted_kept, Dev.modReq_kept, Dev.refuse_kept,
    Dev.setState_kept, Dev.taken_kept]
theorem Dev.putTokens_kept (d : Dev) (x : Req) (k : BitVec 16) (ts : List Word) {d_ : Dev} (h_ : Dev.putTokens d x k
    ts = .ok d_) : Kept d d_ := by
  induction ts generalizing d x k d_ <;>
    (unfold Dev.putTokens at h_
     grind -ring -linarith -order only [kept_iff, → Dev.store_kept, Dev.unserve_kept])
theorem Dev.parkDue_kept (d : Dev) (i : Nat) : Kept d (Dev.parkDue d i) := by
  unfold Dev.parkDue
  grind -ring -linarith -order only [kept_iff, Dev.dropGranules_kept, Dev.modReq_kept, Dev.parkStarts_kept]
theorem Dev.commandDue_kept (d : Dev) (i : Nat) : Kept d (Dev.commandDue d i) := by
  unfold Dev.commandDue
  grind -ring -linarith -order only [kept_iff, Dev.dropGranules_kept, Dev.modReq_kept, Dev.parkDue_kept,
    Dev.setState_kept]
theorem Dev.settleAcks_kept (d : Dev) : Kept d (Dev.settleAcks d) := by
  unfold Dev.settleAcks
  grind -ring -linarith -order only [kept_iff]
theorem Dev.ackServed_kept (d : Dev) (i : Nat) : Kept d (Dev.ackServed d i) := by
  unfold Dev.ackServed
  grind -ring -linarith -order only [kept_iff, Dev.settleAcks_kept]
theorem Dev.delivered_kept (d : Dev) (i : Nat) : Kept d (Dev.delivered d i) := by
  unfold Dev.delivered
  grind -ring -linarith -order only [kept_iff, Dev.ackServed_kept, Dev.bump_kept, Dev.bumpBy_kept, Dev.changed_kept,
    Dev.commandDue_kept,
    Dev.modReq_kept, Dev.prompt_kept]
theorem Dev.deliver_kept (d : Dev) (i : Nat) : Kept d (Dev.deliver d i) := by
  unfold Dev.deliver
  grind -ring -linarith -order only [kept_iff, Dev.delivered_kept, Dev.hostLost_kept, Dev.modReq_kept,
    Dev.pennantWait_kept, →
    Dev.putTokens_kept, Dev.stopped_kept]
theorem Dev.copyWith_kept (d : Dev) (i : Nat) (f : Dev → Dev) (hf : ∀ a, Kept a (f a)) : Kept d (Dev.copyWith d i f)
    := by
  unfold Dev.copyWith
  dsimp only
  split
  · exact Kept.refl _
  · split
    · exact Dev.stopped_kept ..
    · rename_i h1
      have k := Dev.copyRegions_kept _ _ _ h1
      split
      · exact k.trans (Dev.copyFalls_kept ..)
      · split
        · exact Kept.refl _
        · split
          · exact Dev.stopped_kept ..
          · rename_i h2
            exact ((k.trans (Dev.copyRequest_kept _ _ _ _ h2)).trans (Dev.modReq_kept ..)).trans (hf _)
theorem Dev.packed_kept (d : Dev) (i : Nat) : Kept d (Dev.packed d i) := by
  unfold Dev.packed
  exact Dev.copyWith_kept _ _ _ fun a => (Dev.drawn_kept a).trans (Dev.setState_kept ..)
theorem Dev.expanded_kept (d : Dev) (i : Nat) : Kept d (Dev.expanded d i) := by
  unfold Dev.expanded
  exact Dev.copyWith_kept _ _ _ fun a =>
    ((Dev.dropGranules_kept a i).trans (Dev.setState_kept ..)).trans (Dev.prompt_kept ..)
theorem Dev.parkExpire_kept (d : Dev) (i : Nat) : Kept d (Dev.parkExpire d i) := by
  unfold Dev.parkExpire
  grind -ring -linarith -order only [kept_iff, Dev.dropGranules_kept, Dev.setState_kept]
theorem execSubmit_kept (i : ReqNo) (s : State) {t_ : State} (h_ : execSubmit i s = .next t_) : Kept s.dev t_.dev := by
  unfold execSubmit at h_
  refine State.always_kept ?_ h_
  unfold Dev.when
  unfold Dev.readReq
  grind -ring -linarith -order only [kept_iff, Dev.chipFault_kept, Dev.submit_kept]
theorem execCancel_kept (i : ReqNo) (s : State) {t_ : State} (h_ : execCancel i s = .next t_) : Kept s.dev t_.dev := by
  unfold execCancel at h_
  refine State.always_kept ?_ h_
  unfold Dev.when
  unfold Dev.readReq
  grind -ring -linarith -order only [kept_iff, Dev.chipFault_kept, Dev.cancel_kept]
theorem execPark_kept (i : ReqNo) (s : State) {t_ : State} (h_ : execPark i s = .next t_) : Kept s.dev t_.dev := by
  unfold execPark at h_
  refine State.always_kept ?_ h_
  unfold Dev.when
  unfold Dev.readReq
  grind -ring -linarith -order only [kept_iff, Dev.chipFault_kept, Dev.park_kept]
theorem execResume_kept (i : ReqNo) (s : State) {t_ : State} (h_ : execResume i s = .next t_) : Kept s.dev t_.dev := by
  unfold execResume at h_
  refine State.always_kept ?_ h_
  unfold Dev.when
  unfold Dev.readReq
  grind -ring -linarith -order only [kept_iff, Dev.chipFault_kept, Dev.resumeReq_kept]
theorem execRelease_kept (i : ReqNo) (s : State) {t_ : State} (h_ : execRelease i s = .next t_) : Kept s.dev t_.dev
    := by
  unfold execRelease at h_
  refine State.always_kept ?_ h_
  unfold Dev.when
  unfold Dev.readReq
  grind -ring -linarith -order only [kept_iff, Dev.chipFault_kept, Dev.releaseReq_kept]
theorem execTokenDelivery_kept (i : ReqNo) (s : State) {t_ : State} (h_ : execTokenDelivery i s = .next t_) : Kept
    s.dev t_.dev := by
  unfold execTokenDelivery at h_
  refine State.always_kept ?_ h_
  unfold Dev.when
  unfold Dev.readReq
  grind -ring -linarith -order only [kept_iff, Dev.chipFault_kept, Dev.deliver_kept]
theorem execPackingDone_kept (i : ReqNo) (s : State) {t_ : State} (h_ : execPackingDone i s = .next t_) : Kept s.dev
    t_.dev := by
  unfold execPackingDone at h_
  refine State.always_kept ?_ h_
  unfold Dev.when
  unfold Dev.readReq
  grind -ring -linarith -order only [kept_iff, Dev.chipFault_kept, Dev.packed_kept]
theorem execExpansionDone_kept (i : ReqNo) (s : State) {t_ : State} (h_ : execExpansionDone i s = .next t_) : Kept
    s.dev t_.dev := by
  unfold execExpansionDone at h_
  refine State.always_kept ?_ h_
  unfold Dev.when
  unfold Dev.readReq
  grind -ring -linarith -order only [kept_iff, Dev.chipFault_kept, Dev.expanded_kept]
theorem execParkTtlExpire_kept (i : ReqNo) (s : State) {t_ : State} (h_ : execParkTtlExpire i s = .next t_) : Kept
    s.dev t_.dev := by
  unfold execParkTtlExpire at h_
  refine State.always_kept ?_ h_
  unfold Dev.when
  unfold Dev.readReq
  grind -ring -linarith -order only [kept_iff, Dev.chipFault_kept, Dev.parkExpire_kept]
theorem Dev.promptAll_kept (d : Dev) : Kept d (Dev.promptAll d) := by
  unfold Dev.promptAll
  apply foldl_kept
  intro a x
  grind -ring -linarith -order only [kept_iff, Dev.prompt_kept]
theorem Dev.custCredit_kept (d : Dev) (c n : Nat) : Kept d (Dev.custCredit d c n) := by
  unfold Dev.custCredit
  grind -ring -linarith -order only [kept_iff, Dev.credit_kept, Dev.promptAll_kept]
theorem Dev.serveKick_kept (d : Dev) (v : Nat) : Kept d (Dev.serveKick d v) := by
  unfold Dev.serveKick
  apply foldl_kept
  intro a x
  grind -ring -linarith -order only [kept_iff, Dev.kick_kept]
theorem execCustCredit_kept (c : CustNo) (n : Word) (s : State) {t_ : State} (h_ : execCustCredit c n s = .next t_)
    : Kept s.dev t_.dev := by
  unfold execCustCredit at h_
  refine State.hosted_kept (fun d => ?_) h_
  unfold Dev.when
  grind -ring -linarith -order only [kept_iff, Dev.custCredit_kept]
theorem execServeKick_kept (v : Word) (s : State) {t_ : State} (h_ : execServeKick v s = .next t_) : Kept s.dev
    t_.dev := by
  unfold execServeKick at h_
  refine State.hosted_kept (fun d => ?_) h_
  unfold Dev.when
  grind -ring -linarith -order only [kept_iff, Dev.serveKick_kept]
theorem Dev.blow_kept (d : Dev) (b : FuseBit) : Kept d (Dev.blow d b) := by
  unfold Dev.blow
  grind -ring -linarith -order only [kept_iff]
theorem Dev.authFail_kept (d : Dev) (err : Nat) : Kept d (Dev.authFail d err) := by
  unfold Dev.authFail
  grind -ring -linarith -order only [kept_iff]
theorem Dev.startTraining_kept (d : Dev) : Kept d (Dev.startTraining d) := by
  unfold Dev.startTraining
  grind -ring -linarith -order only [foldl_kept, kept_iff, Dev.startClock_kept]
theorem Dev.fwStart_kept (d : Dev) (img : List Byte) : Kept d (Dev.fwStart d img) := by
  unfold Dev.fwStart
  grind -ring -linarith -order only [kept_iff, Dev.startTraining_kept]
theorem Dev.fwVerify_kept (d : Dev) (fail : Option Nat) : Kept d (Dev.fwVerify d fail) := by
  unfold Dev.fwVerify
  grind -ring -linarith -order only [foldl_kept, kept_iff, Dev.authFail_kept, Dev.blow_kept, Dev.fwStart_kept]
theorem execFirmwareVerify_kept (fuseFail : Option Nat) (s : State) {t_ : State} (h_ : execFirmwareVerify fuseFail s
    = .next t_) : Kept s.dev t_.dev := by
  unfold execFirmwareVerify at h_
  refine State.always_kept ?_ h_
  unfold Dev.when
  grind -ring -linarith -order only [kept_iff, Dev.fwVerify_kept]
theorem Dev.fwPush_kept (d : Dev) (v : Nat) : Kept d (Dev.fwPush d v) := by
  unfold Dev.fwPush
  grind -ring -linarith -order only [kept_iff]
theorem execFwPush_kept (v : Word) (s : State) {t_ : State} (h_ : execFwPush v s = .next t_) : Kept s.dev t_.dev := by
  unfold execFwPush at h_
  refine State.hosted_kept (fun d => ?_) h_
  unfold Dev.when
  grind -ring -linarith -order only [kept_iff, Dev.fwPush_kept]
theorem Dev.windowLoad_kept (d : Dev) (w : Who) (o len : Nat) (n0 : Nat) {p_ : Dev × List Byte} (h_ : Dev.windowLoad
    d w o len n0 = .ok p_) : Kept d p_.1 := by
  induction n0 generalizing d w o len p_ <;>
    (unfold Dev.windowLoad at h_
     grind -ring -linarith -order only [kept_iff, → Dev.load_kept])
theorem Dev.windowRead_kept (d : Dev) (w : Who) (o len : Nat) {p_ : Dev × List Byte} (h_ : Dev.windowRead d w o len
    = .ok p_) : Kept d p_.1 := by
  unfold Dev.windowRead at h_
  grind -ring -linarith -order only [kept_iff, → Dev.windowLoad_kept]
theorem Dev.flashWith_kept (d : Dev) (img : List Byte) (ok : Bool) : Kept d (Dev.flashWith d img ok) := by
  unfold Dev.flashWith
  grind -ring -linarith -order only [kept_iff, Dev.emit_kept]
theorem Dev.flashRead_kept (d : Dev) (page : Nat) {p_ : Dev × List Byte} (h_ : Dev.flashRead d page = .ok p_) : Kept
    d p_.1 := by
  unfold Dev.flashRead at h_
  grind -ring -linarith -order only [kept_iff, → Dev.windowRead_kept, → Acc.andThen_ok]
theorem Dev.flashEnd_kept (d : Dev) (r : Acc (Dev × List Byte)) (ok : Bool) (hr : ∀ p, r = .ok p → Kept d p.1) :
    Kept d (Dev.flashEnd d r ok) := by
  unfold Dev.flashEnd
  grind -ring -linarith -order only [kept_iff, Dev.flashWith_kept, Dev.hostLost_kept, Dev.stopped_kept,
      Dev.unserve_kept]
theorem Dev.flashOn_kept (d : Dev) : Kept d (Dev.flashOn d) := by
  unfold Dev.flashOn
  grind -ring -linarith -order only [kept_iff, Dev.flashEnd_kept, → Dev.flashRead_kept]
theorem Dev.flashUpdate_kept (d : Dev) (v : Nat) (ok : Bool) : Kept d (Dev.flashUpdate d v ok) := by
  unfold Dev.flashUpdate
  grind -ring -linarith -order only [kept_iff, Dev.flashOn_kept]
theorem execFlashUpdate_kept (v : Word) (flashOk : Bool) (s : State) {t_ : State} (h_ : execFlashUpdate v flashOk s
    = .next t_) : Kept s.dev t_.dev := by
  unfold execFlashUpdate at h_
  refine State.hosted_kept (fun d => ?_) h_
  unfold Dev.when
  grind -ring -linarith -order only [kept_iff, Dev.flashUpdate_kept]
theorem Dev.spdm_kept (d : Dev) (p : SpdmPort) (q : SpdmReq) : Kept d (Dev.spdm d p q) := by
  unfold Dev.spdm
  grind -ring -linarith -order only [kept_iff, Dev.drawn_kept, Dev.emit_kept]
theorem execSpdmRequest_kept (port : SpdmPort) (q : SpdmReq) (s : State) {t_ : State} (h_ : execSpdmRequest port q s
    = .next t_) : Kept s.dev t_.dev := by
  unfold execSpdmRequest at h_
  refine State.checked_kept ?_ h_
  grind -ring -linarith -order only [kept_iff, Dev.spdm_kept]
theorem execMeasRunningRead_kept (s : State) {t_ : State} (h_ : execMeasRunningRead s = .next t_) : Kept s.dev
    t_.dev := by
  unfold execMeasRunningRead at h_
  refine State.hosted_kept (fun d => ?_) h_
  unfold Dev.when
  grind -ring -linarith -order only [kept_iff, Dev.emit_kept]
theorem Dev.reportStart_kept (d : Dev) : Kept d (Dev.reportStart d) := by
  unfold Dev.reportStart
  grind -ring -linarith -order only [kept_iff]
theorem Dev.reportGo_kept (d : Dev) : Kept d (Dev.reportGo d) := by
  unfold Dev.reportGo
  grind -ring -linarith -order only [kept_iff, Dev.reportStart_kept]
theorem execReportGo_kept (s : State) {t_ : State} (h_ : execReportGo s = .next t_) : Kept s.dev t_.dev := by
  unfold execReportGo at h_
  refine State.hosted_kept (fun d => ?_) h_
  unfold Dev.when
  grind -ring -linarith -order only [kept_iff, Dev.reportGo_kept]
theorem execReportTreeReady_kept (s : State) {t_ : State} (h_ : execReportTreeReady s = .next t_) : Kept s.dev
    t_.dev := by
  unfold execReportTreeReady at h_
  refine State.always_kept ?_ h_
  unfold Dev.when
  grind -ring -linarith -order only [kept_iff, Dev.reportStart_kept]
theorem Dev.reportDone_kept (d : Dev) : Kept d (Dev.reportDone d) := by
  unfold Dev.reportDone
  grind -ring -linarith -order only [kept_iff]
theorem execReportDone_kept (s : State) {t_ : State} (h_ : execReportDone s = .next t_) : Kept s.dev t_.dev := by
  unfold execReportDone at h_
  refine State.always_kept ?_ h_
  unfold Dev.when
  grind -ring -linarith -order only [kept_iff, Dev.reportDone_kept]
theorem Dev.imageText_kept (d : Dev) (w : Who) (a : Nat) {p_ : Dev × List Byte} (h_ : Dev.imageText d w a = .ok p_)
    : Kept d p_.1 := by
  unfold Dev.imageText at h_
  grind -ring -linarith -order only [kept_iff, → Dev.load_kept]
theorem Dev.imageTexts_kept (d : Dev) (w : Who) (as : List Nat) {p_ : Dev × List Byte} (h_ : Dev.imageTexts d w as =
    .ok p_) : Kept d p_.1 := by
  induction as generalizing d w p_ <;>
    (unfold Dev.imageTexts at h_
     grind -ring -linarith -order only [kept_iff, → Dev.imageText_kept])
theorem Dev.bundleEnd_kept (d : Dev) (code : Nat) : Kept d (Dev.bundleEnd d code) := by
  unfold Dev.bundleEnd
  grind -ring -linarith -order only [kept_iff, Dev.raise_kept]
theorem Dev.setResident_kept (d : Dev) (n b : Nat) (x : Option Bundle) : Kept d (Dev.setResident d n b x) := by
  unfold Dev.setResident
  grind -ring -linarith -order only [kept_iff, Dev.modDom_kept]
theorem Dev.admitOne_kept (d : Dev) : Kept d (Dev.admitOne d) := by
  unfold Dev.admitOne
  grind -ring -linarith -order only [kept_iff, Dev.bundleEnd_kept, → Dev.imageTexts_kept, → Dev.load_kept,
    Dev.setResident_kept,
    Dev.stopped_kept, Dev.unserve_kept, Dev.wakeDomain_kept]
theorem Dev.retireOne_kept (d : Dev) : Kept d (Dev.retireOne d) := by
  unfold Dev.retireOne
  grind -ring -linarith -order only [kept_iff, Dev.bundleEnd_kept, Dev.setResident_kept]
theorem Dev.passPiece_kept (d : Dev) (p : Piece) (bs : List Byte) : Kept d (Dev.passPiece d p bs) := by
  unfold Dev.passPiece
  grind -ring -linarith -order only [kept_iff, Dev.exchange_kept]
theorem Dev.readPiece_kept (d : Dev) (p : Piece) {p_ : Dev × List Byte} (h_ : Dev.readPiece d p = .ok p_) : Kept d
    p_.1 := by
  unfold Dev.readPiece at h_
  grind -ring -linarith -order only [kept_iff, → Dev.bbufWords_kept, Dev.passPiece_kept, → Dev.scratchWords_kept, →
      Acc.andThen_ok]
theorem Dev.readPieces_kept (d : Dev) (ps : List Piece) {p_ : Dev × List (List Byte)} (h_ : Dev.readPieces d ps =
    .ok p_) : Kept d p_.1 := by
  induction ps generalizing d p_ <;>
    (unfold Dev.readPieces at h_
     grind -ring -linarith -order only [kept_iff, → Dev.readPiece_kept, → Acc.andThen_ok, foldl_kept])
theorem Dev.putPiece_kept (d : Dev) (p : Piece) (bs : List Byte) : Kept d (Dev.putPiece d p bs) := by
  unfold Dev.putPiece
  grind -ring -linarith -order only [kept_iff, Dev.bbufWrite_kept, Dev.cellWrite_kept]
theorem Dev.withBadSram_kept (d old : Dev) : Kept d (Dev.withBadSram d old) := by
  unfold Dev.withBadSram
  grind -ring -linarith -order only [kept_iff]
theorem Dev.undefine_kept (d : Dev) (r : Nat) (keep : List Piece) : Kept d (Dev.undefine d r keep) := by
  unfold Dev.undefine
  refine Kept.trans ?_ (Dev.withBadSram_kept _ _)
  exact (Dev.scrapSram_kept d r).trans (foldl_kept _ _ _ fun a x => Dev.putPiece_kept _ _ _)
theorem Dev.saveHome_kept (d : Dev) (r home limit : Nat) (ps : List Piece) {d_ : Dev} (h_ : Dev.saveHome d r home
    limit ps = .ok d_) : Kept d d_ := by
  unfold Dev.saveHome at h_
  grind -ring -linarith -order only [kept_iff, → Dev.readPieces_kept, → Dev.store_kept, Dev.unserve_kept,
    → Acc.andThen_ok]
theorem Dev.putPieces_kept (d : Dev) (ps : List Piece) (bs : List Byte) : Kept d (Dev.putPieces d ps bs) := by
  induction ps generalizing d bs <;>
    (unfold Dev.putPieces
     grind -ring -linarith -order only [kept_iff, Dev.passPiece_kept, Dev.putPiece_kept])
theorem Dev.restoreHome_kept (d : Dev) (r home limit : Nat) (ps : List Piece) {d_ : Dev} (h_ : Dev.restoreHome d r
    home limit ps = .ok d_) : Kept d d_ := by
  unfold Dev.restoreHome at h_
  grind -ring -linarith -order only [kept_iff, → Dev.load_kept, Dev.putPieces_kept, Dev.unserve_kept]
theorem Dev.saveBundle_kept (d : Dev) (b : Bundle) (rs : List (Nat × Nat × List Nat)) {d_ : Dev} (h_ :
    Dev.saveBundle d b rs = .ok d_) : Kept d d_ := by
  induction rs generalizing d b d_ <;>
    (unfold Dev.saveBundle at h_
     grind -ring -linarith -order only [kept_iff, → Dev.saveHome_kept])
theorem Dev.restoreBundle_kept (d : Dev) (b : Bundle) (rs : List (Nat × Nat × List Nat)) {d_ : Dev} (h_ :
    Dev.restoreBundle d b rs = .ok d_) : Kept d d_ := by
  induction rs generalizing d b d_ <;>
    (unfold Dev.restoreBundle at h_
     grind -ring -linarith -order only [kept_iff, → Dev.restoreHome_kept, Dev.undefine_kept])
theorem Dev.loadImages_kept (d : Dev) (b : Bundle) : Kept d (Dev.loadImages d b) := by
  unfold Dev.loadImages
  grind -ring -linarith -order only [foldl_kept, kept_iff, Dev.setBlk_kept]
theorem Dev.resetStack_kept (d : Dev) (st : Nat) : Kept d (Dev.resetStack d st) := by
  exact (Dev.dropKeep_kept _ _).trans (Dev.scrapBau_kept _ _)
theorem Dev.resetStacks_kept (d : Dev) (n : Nat) : Kept d (Dev.resetStacks d n) := by
  unfold Dev.resetStacks
  apply foldl_kept
  intro a x
  grind -ring -linarith -order only [kept_iff, Dev.resetStack_kept]
theorem Dev.moveStopped_kept (d : Dev) (r : Nat) (e : Stop) : Kept d (Dev.moveStopped d r e) := by
  unfold Dev.moveStopped
  grind -ring -linarith -order only [kept_iff, Dev.parityHalt_kept, Dev.stopped_kept]
theorem execAdmitBundle_kept (s : State) {t_ : State} (h_ : execAdmitBundle s = .next t_) : Kept s.dev t_.dev := by
  unfold execAdmitBundle at h_
  refine State.always_kept ?_ h_
  unfold Dev.when
  grind -ring -linarith -order only [kept_iff, Dev.admitOne_kept]
theorem execRetire_kept (s : State) {t_ : State} (h_ : execRetire s = .next t_) : Kept s.dev t_.dev := by
  unfold execRetire at h_
  refine State.always_kept ?_ h_
  unfold Dev.when
  grind -ring -linarith -order only [kept_iff, Dev.retireOne_kept]
theorem Dev.preemptWrite_kept (d : Dev) (n : Nat) (v : Word) : Kept d (Dev.preemptWrite d n v) := by
  unfold Dev.preemptWrite
  grind -ring -linarith -order only [kept_iff, Dev.modDom_kept, Dev.tryPreempt_kept]
theorem execDomPreemptWrite_kept (n : Domain) (v : Word) (s : State) {t_ : State} (h_ : execDomPreemptWrite n v s =
    .next t_) : Kept s.dev t_.dev := by
  unfold execDomPreemptWrite at h_
  refine State.hosted_kept (fun d => ?_) h_
  unfold Dev.when
  grind -ring -linarith -order only [kept_iff, Dev.preemptWrite_kept]

end Sys2Proof.Machine
end

