-- ==== Sys2Proof/Laws/KeptSteps.lean ====
section
/-! SUPPORT. What every command keeps (Laws/Kept.lean), operation by operation: steps, start-up and the package. -/

namespace Sys2Proof.Machine
open Sys2Proof

-- One proof at a time: each proof that waits for another keeps a thread, and a thread its stack.
set_option Elab.async false

theorem Dev.placeGen_kept (d : Dev) (slices : Nat) (l : List Elig) : Kept d (Dev.placeGen d slices l).1 := by
  induction l generalizing d slices <;>
    (unfold Dev.placeGen
     grind -ring -linarith -order only [kept_iff, Dev.modReq_kept, Dev.reserve_kept])
theorem Dev.placeFallback_kept (d : Dev) (l : List Elig) : Kept d (Dev.placeFallback d l).1 := by
  unfold Dev.placeFallback
  apply foldl_kept
  intro a x
  grind -ring -linarith -order only [kept_iff, Dev.bump_kept, Dev.reserve_kept]
theorem Dev.needsBudget_kept (d : Dev) (i : Nat) : Kept d (Dev.needsBudget d i) := by
  unfold Dev.needsBudget
  grind -ring -linarith -order only [kept_iff, Dev.changed_kept, Dev.modReq_kept]
theorem Dev.placeChunks_kept (d : Dev) (b : Bundle) (placed : List (Elig × Placed)) (t n : Nat) (l : List Elig) :
    Kept d (Dev.placeChunks d b placed t n l).1 := by
  induction l generalizing d b placed t n <;>
    (unfold Dev.placeChunks
     grind -ring -linarith -order only [kept_iff, Dev.needsBudget_kept, Dev.reserve_kept])
theorem Dev.flagHeld_kept (d : Dev) (e : Elig) : Kept d (Dev.flagHeld d e) := by
  unfold Dev.flagHeld
  grind -ring -linarith -order only [kept_iff, Dev.changed_kept, Dev.modReq_kept]
theorem Dev.clearHeld_kept (d : Dev) (i : Nat) : Kept d (Dev.clearHeld d i) := by
  unfold Dev.clearHeld
  grind -ring -linarith -order only [kept_iff, Dev.modReq_kept]
theorem Dev.flagAll_kept (d : Dev) (n : Nat) (num : Option Nat) (l : List Elig) : Kept d (Dev.flagAll d n num l) := by
  unfold Dev.flagAll
  apply foldl_kept
  intro a x
  grind -ring -linarith -order only [kept_iff, Dev.clearHeld_kept, Dev.flagHeld_kept]
theorem Dev.composeStep_kept (d : Dev) (n : Nat) (b : Bundle) (l : List Elig) : Kept d (Dev.composeStep d n b l).1
    := by
  unfold Dev.composeStep
  grind -ring -linarith -order only [kept_iff, Dev.placeChunks_kept, Dev.placeFallback_kept, Dev.placeGen_kept]
theorem Dev.switchTo_kept (d : Dev) (n : Nat) (b : Bundle) (save : Bool) {d_ : Dev} (h_ : Dev.switchTo d n b save =
    .ok d_) : Kept d d_ := by
  unfold Dev.switchTo at h_
  grind -ring -linarith -order only [kept_iff, Dev.bump_kept, Dev.loadImages_kept, → Dev.saveBundle_kept]
theorem Dev.freshUse_kept (d : Dev) (n : Nat) : Kept d (Dev.freshUse d n) := by
  unfold Dev.freshUse
  grind -ring -linarith -order only [kept_iff]
theorem Dev.adopt_kept (d : Dev) (n : Nat) (b : Bundle) (s : Step) (others : Bool) {d_ : Dev} (h_ : Dev.adopt d n b
    s others = .ok d_) : Kept d d_ := by
  unfold Dev.adopt at h_
  grind -ring -linarith -order only [kept_iff, Dev.freshUse_kept, Dev.modDom_kept, Dev.setDom_kept, → Dev.switchTo_kept,
      Dev.wakeDomain_kept]
theorem Dev.startRestore_kept (d : Dev) (n : Nat) (u : Susp) {d_ : Dev} (h_ : Dev.startRestore d n u = .ok d_) :
    Kept d d_ := by
  unfold Dev.startRestore at h_
  grind -ring -linarith -order only [kept_iff, Dev.modDom_kept, Dev.resetStacks_kept, → Dev.switchTo_kept,
    Dev.wakeDomain_kept]
theorem Dev.nothingPlaced_kept (d : Dev) (n : Nat) {d_ : Dev} (h_ : Dev.nothingPlaced d n = .ok d_) : Kept d d_ :=
    by
  unfold Dev.nothingPlaced at h_
  grind -ring -linarith -order only [kept_iff, Dev.modDom_kept, → Dev.startRestore_kept]
theorem Dev.composeFrom_kept (d : Dev) (n : Nat) (all : List Elig) {d_ : Dev} (h_ : Dev.composeFrom d n all = .ok
    d_) : Kept d d_ := by
  unfold Dev.composeFrom at h_
  dsimp only at h_
  generalize (Dom.choose _ _ _) = pick at h_
  have k := fun m => Dev.flagAll_kept d n m all
  repeat' split at h_
  all_goals first
  | exact (k _).trans (Dev.nothingPlaced_kept _ _ h_)
  | exact ((k _).trans (Dev.composeStep_kept _ _ _ _)).trans (Dev.adopt_kept _ _ _ _ _ h_)
theorem Dev.takeDeadlines_kept (d : Dev) (n : Nat) : Kept d (Dev.takeDeadlines d n) := by
  unfold Dev.takeDeadlines
  exact foldl_kept _ _ d (fun a i => Dev.modReq_kept a i _)
theorem Dev.composeDomain_kept (d : Dev) (n : Nat) : Kept d (Dev.composeDomain d n) := by
  unfold Dev.composeDomain
  grind -ring -linarith -order only [kept_iff, Dev.takeDeadlines_kept, → Dev.composeFrom_kept, → Dev.eligibles_kept,
    Dev.moveStopped_kept, Dev.stopped_kept]
theorem Dev.writeArea_kept (d : Dev) (n : Nat) (b : Bundle) (s : Step) {d_ : Dev} (h_ : Dev.writeArea d n b s = .ok
    d_) : Kept d d_ := by
  unfold Dev.writeArea at h_
  grind -ring -linarith -order only [kept_iff, → Dev.store_kept]
theorem Dev.emptyQueues_kept (d : Dev) (r : Nat) : Kept d (Dev.emptyQueues d r) := by
  unfold Dev.emptyQueues
  grind -ring -linarith -order only [foldl_kept, kept_iff, Dev.modQueue_kept, Dev.queuesChecked_kept]
theorem Dev.startRegion_kept (d : Dev) (entry r : Nat) : Kept d (Dev.startRegion d entry r) := by
  unfold Dev.startRegion
  grind -ring -linarith -order only [foldl_kept, kept_iff, Dev.emptyQueues_kept, Dev.modBlk_kept, Dev.modRegion_kept,
    Dev.setFlag_kept,
    Dev.zeroFlags_kept]
theorem Dev.prepare_kept (d : Dev) (n : Nat) (b : Bundle) (s : Step) {d_ : Dev} (h_ : Dev.prepare d n b s = .ok d_)
    : Kept d d_ := by
  unfold Dev.prepare at h_
  grind -ring -linarith -order only [kept_iff, Dev.resetStacks_kept, → Dev.restoreBundle_kept, → Dev.writeArea_kept]
theorem Dev.releasePhase_kept (d : Dev) (n : Nat) : Kept d (Dev.releasePhase d n) := by
  unfold Dev.releasePhase
  grind -ring -linarith -order only [foldl_kept, kept_iff, Dev.modDom_kept, Dev.moveStopped_kept, → Dev.prepare_kept,
    Dev.setRounds_kept,
    Dev.startRegion_kept, Dev.stopped_kept, Dev.tryPreempt_kept, Dev.unserve_kept]
theorem Dev.records_kept (d : Dev) (w : Who) (a n : Nat) {p_ : Dev × List Record} (h_ : Dev.records d w a n = .ok
    p_) : Kept d p_.1 := by
  unfold Dev.records at h_
  grind -ring -linarith -order only [kept_iff, → Dev.load_kept]
theorem Dev.dropResult_kept (d : Dev) (i reserved : Nat) (num : BitVec 16) : Kept d (Dev.dropResult d i reserved
    num) := by
  unfold Dev.dropResult
  grind -ring -linarith -order only [kept_iff, Dev.dropGranules_kept, Dev.modReq_kept, Dev.parkDue_kept,
    Dev.setState_kept, Dev.unreserve_kept]
theorem Dev.giveTokens_kept (d : Dev) (i reserved : Nat) (num : BitVec 16) (r : Record) (hold : Bool) (f : Req →
    Req) : Kept d (Dev.giveTokens d i reserved num r hold f) := by
  unfold Dev.giveTokens
  grind -ring -linarith -order only [kept_iff, Dev.complete_kept, Dev.modCust_kept, Dev.modReq_kept,
    Dev.setState_kept, Dev.unreserve_kept]
theorem Dev.commitPlaced_kept (d : Dev) (s : Step) (hold : Bool) (p : Placed) (r : Record) : Kept d
    (Dev.commitPlaced d s hold p r) := by
  unfold Dev.commitPlaced
  grind -ring -linarith -order only [kept_iff, Dev.dropResult_kept, Dev.giveTokens_kept]
theorem Dev.commitChunk_kept (d : Dev) (s : Step) (hold : Bool) (c : ChunkAt) (r : Record) : Kept d (Dev.commitChunk
    d s hold c r) := by
  unfold Dev.commitChunk
  grind -ring -linarith -order only [kept_iff, Dev.dropResult_kept, Dev.giveTokens_kept, Dev.modReq_kept,
    Dev.setState_kept]
theorem Dev.countWaits_kept (d : Dev) (n : Nat) (s : Step) : Kept d (Dev.countWaits d n s) := by
  unfold Dev.countWaits
  apply foldl_kept
  intro a x
  grind -ring -linarith -order only [kept_iff, Dev.bumpBy_kept]
theorem Dev.stepRecord_kept (d : Dev) (n : Nat) (s : Step) (rs : List (Nat × Record)) : Kept d (Dev.stepRecord d n s
    rs) := by
  unfold Dev.stepRecord
  grind -ring -linarith -order only [kept_iff, Dev.record_kept]
theorem Dev.commitWith_kept (d : Dev) (n : Nat) (s : Step) (rs cs : List Record) : Kept d (Dev.commitWith d n s rs
    cs) := by
  unfold Dev.commitWith
  refine Kept.trans ?_ (Dev.modDom_kept _ _ _)
  refine Kept.trans ?_ (foldl_kept _ _ _ fun a x => Dev.zeroFlags_kept _ _)
  have k : ∀ (e : Dev) (l : List (BitVec 32 × Nat × Nat)), True := fun _ _ => trivial
  refine Kept.trans (b := Dev.stepRecord _ _ _ _) ?_ (by split <;> exact ⟨rfl, id⟩)
  refine Kept.trans ?_ (Dev.stepRecord_kept _ _ _ _)
  refine Kept.trans ?_ (foldl_kept _ _ _ fun a x => Dev.commitChunk_kept _ _ _ _ _)
  refine Kept.trans ?_ (foldl_kept _ _ _ fun a x => Dev.commitPlaced_kept _ _ _ _ _)
  exact Dev.countWaits_kept _ _ _
theorem Dev.commit_kept (d : Dev) (n : Nat) (s : Step) {d_ : Dev} (h_ : Dev.commit d n s = .ok d_) : Kept d d_ := by
  unfold Dev.commit at h_
  grind -ring -linarith -order only [kept_iff, Dev.commitWith_kept, → Dev.records_kept, Dev.regionFault_kept,
    Dev.unserve_kept]
theorem Dev.phaseEnd_kept (d : Dev) (n : Nat) {d_ : Dev} (h_ : Dev.phaseEnd d n = .ok d_) : Kept d d_ := by
  unfold Dev.phaseEnd at h_
  grind -ring -linarith -order only [foldl_kept, kept_iff, → Dev.commit_kept, Dev.modDom_kept, Dev.stopped_kept,
    Dev.zeroFlags_kept]
theorem Dev.stepEnd_kept (d : Dev) (k : Nat) : Kept d (Dev.stepEnd d k) := by
  unfold Dev.stepEnd
  (repeat' split) <;> grind -ring -linarith -order only [kept_iff, Dev.bump_kept, → Dev.flagAdd_kept,
    Dev.modBlk_kept, Dev.opHalt_kept, →
    Dev.phaseEnd_kept, Dev.stopped_kept]
theorem Dev.withdrawRecvs_kept (d : Dev) (n : Nat) : Kept d (Dev.withdrawRecvs d n) := by
  unfold Dev.withdrawRecvs
  apply foldl_kept
  intro a x
  grind -ring -linarith -order only [kept_iff, Dev.modSpan_kept]
theorem Dev.rejoinRecvs_kept (d : Dev) (n : Nat) : Kept d (Dev.rejoinRecvs d n) := by
  unfold Dev.rejoinRecvs
  apply foldl_kept
  intro a x
  grind -ring -linarith -order only [kept_iff, Dev.modSpan_kept]
theorem Dev.drainSlots_kept (d : Dev) (r : Nat) : Kept d (Dev.drainSlots d r) := by
  unfold Dev.drainSlots
  apply foldl_kept
  intro a x
  grind -ring -linarith -order only [kept_iff, Dev.drainQueue_kept]
theorem Dev.suspendDone_kept (d : Dev) (n : Nat) : Kept d (Dev.suspendDone d n) := by
  unfold Dev.suspendDone
  grind -ring -linarith -order only [foldl_kept, kept_iff, Dev.bump_kept, Dev.drainSlots_kept, Dev.modBlk_kept,
      Dev.modDom_kept,
    Dev.partWays_kept, Dev.withdrawRecvs_kept]
theorem Dev.storeOver_kept (d : Dev) (w : Who) (rs : List (Nat × Nat)) (bs : List Byte) {d_ : Dev} (h_ :
    Dev.storeOver d w rs bs = .ok d_) : Kept d d_ := by
  induction rs generalizing d w bs d_ <;>
    (unfold Dev.storeOver at h_
     grind -ring -linarith -order only [kept_iff, → Dev.store_kept, Dev.unserve_kept, → Acc.andThen_ok, foldl_kept])
theorem Dev.loadOver_kept (d : Dev) (w : Who) (rs : List (Nat × Nat)) {p_ : Dev × List Byte} (h_ : Dev.loadOver d w
    rs = .ok p_) : Kept d p_.1 := by
  induction rs generalizing d w p_ <;>
    (unfold Dev.loadOver at h_
     grind -ring -linarith -order only [kept_iff, → Dev.load_kept, Dev.unserve_kept, → Acc.andThen_ok, foldl_kept])
theorem Dev.writeSlot_kept (d : Dev) (n r level : Nat) (live : List Byte) {d_ : Dev} (h_ : Dev.writeSlot d n r level
    live = .ok d_) : Kept d d_ := by
  unfold Dev.writeSlot at h_
  grind -ring -linarith -order only [kept_iff, Dev.drawn_kept, → Dev.storeOver_kept, → Acc.andThen_ok]
theorem Dev.clearRegion_kept (d : Dev) (r : Nat) (b : Bundle) : Kept d (Dev.clearRegion d r b) := by
  unfold Dev.clearRegion
  grind -ring -linarith -order only [foldl_kept, kept_iff, Dev.emptyQueues_kept, Dev.modBlk_kept, Dev.modRegion_kept,
    Dev.undefine_kept,
    Dev.zeroFlags_kept]
theorem Dev.saveMemory_kept (d : Dev) (n r level : Nat) (b : Bundle) {p_ : Dev × SavedRegion × List Byte} (h_ :
    Dev.saveMemory d n r level b = .ok p_) : Kept d p_.1 := by
  unfold Dev.saveMemory at h_
  grind -ring -linarith -order only [kept_iff, → Dev.loadOver_kept, Dev.queuesChecked_kept, → Dev.readPieces_kept,
    → Dev.writeSlot_kept, →
    Acc.andThen_ok]
theorem Dev.saveRegion_kept (d : Dev) (n r : Nat) : Kept d (Dev.saveRegion d n r) := by
  unfold Dev.saveRegion
  grind -ring -linarith -order only [kept_iff, Dev.clearRegion_kept, Dev.modDom_kept, Dev.moveStopped_kept,
    → Dev.saveMemory_kept,
    Dev.stopped_kept]
theorem Dev.putQueue_kept (d : Dev) (k : Nat) (q : Queue) : Kept d (Dev.putQueue d k q) := by
  unfold Dev.putQueue
  grind -ring -linarith -order only [kept_iff, Dev.checkedQueue_kept, Dev.setQueue_kept]
theorem Dev.restoreRuns_kept (d : Dev) (n level : Nat) (s : SavedRegion) {d_ : Dev} (h_ : Dev.restoreRuns d n level
    s = .ok d_) : Kept d d_ := by
  unfold Dev.restoreRuns at h_
  obtain ⟨p, h, h_⟩ := Acc.andThen_ok h_
  cases h_
  have k : Kept d p.1 := by
    split at h
    · exact Dev.loadOver_kept _ _ _ h
    · cases h
      exact Dev.drawn_kept d
  exact ((k.trans (Dev.undefine_kept _ _ _)).trans (Dev.putPieces_kept _ _ _)).trans
    (foldl_kept _ _ _ fun a x => Dev.putPiece_kept _ _ _)
theorem Dev.restoreRecords_kept (d : Dev) (s : SavedRegion) : Kept d (Dev.restoreRecords d s) := by
  unfold Dev.restoreRecords
  grind -ring -linarith -order only [foldl_kept, kept_iff, Dev.control_kept, Dev.modRegion_kept, Dev.putQueue_kept,
    Dev.setBlk_kept,
    Dev.setFlag_kept, Dev.setWaitq_kept, Dev.zeroFlags_kept]
theorem Dev.restoreRegions_kept (d : Dev) (n level : Nat) (ss : List SavedRegion) {d_ : Dev} (h_ :
    Dev.restoreRegions d n level ss = .ok d_) : Kept d d_ := by
  induction ss generalizing d n level d_ <;>
    (unfold Dev.restoreRegions at h_
     grind -ring -linarith -order only [kept_iff, Dev.restoreRecords_kept, → Dev.restoreRuns_kept, → Acc.andThen_ok,
       foldl_kept])
theorem Dev.mergeKept_kept (d : Dev) (r : Nat) (n0 : Nat) : Kept d (Dev.mergeKept d r n0) := by
  induction n0 generalizing d r <;>
    (unfold Dev.mergeKept
     grind -ring -linarith -order only [kept_iff, Dev.regionMerge_kept])
theorem Dev.wakeBlocks_kept (d : Dev) (r : Nat) : Kept d (Dev.wakeBlocks d r) := by
  unfold Dev.wakeBlocks
  apply foldl_kept
  intro a x
  grind -ring -linarith -order only [kept_iff, Dev.modBlk_kept]
theorem Dev.restoreStep_kept (d : Dev) (n : Nat) (u : Susp) {d_ : Dev} (h_ : Dev.restoreStep d n u = .ok d_) : Kept
    d d_ := by
  unfold Dev.restoreStep at h_
  grind -ring -linarith -order only [kept_iff, → Dev.restoreRegions_kept, → Dev.storeOver_kept, → Acc.andThen_ok]
theorem Dev.resumeStep_kept (d : Dev) (n : Nat) (u : Susp) : Kept d (Dev.resumeStep d n u) := by
  unfold Dev.resumeStep
  grind -ring -linarith -order only [foldl_kept, kept_iff, Dev.bumpBy_kept, Dev.mergeKept_kept, Dev.modDom_kept,
    Dev.rejoinRecvs_kept,
    Dev.setRounds_kept, Dev.tryPreempt_kept, Dev.wakeBlocks_kept]
theorem Dev.continueStep_kept (d : Dev) (n : Nat) : Kept d (Dev.continueStep d n) := by
  unfold Dev.continueStep
  grind -ring -linarith -order only [kept_iff, Dev.moveStopped_kept, → Dev.restoreStep_kept, Dev.resumeStep_kept,
    Dev.stopped_kept]
theorem Dev.domainStall_kept (d : Dev) (n : Nat) : Kept d (Dev.domainStall d n) := by
  unfold Dev.domainStall
  grind -ring -linarith -order only [foldl_kept, kept_iff, Dev.modDom_kept, Dev.recordFault_kept]
theorem execStepEnd_kept (r : Region) (b : Blk) (s : State) {t_ : State} (h_ : execStepEnd r b s = .next t_) : Kept
    s.dev t_.dev := by
  unfold execStepEnd at h_
  refine State.always_kept ?_ h_
  grind -ring -linarith -order only [kept_iff, Dev.stepEnd_kept]
theorem execCompose_kept (n : Domain) (s : State) {t_ : State} (h_ : execCompose n s = .next t_) : Kept s.dev t_.dev
    := by
  unfold execCompose at h_
  refine State.always_kept ?_ h_
  unfold Dev.when
  grind -ring -linarith -order only [kept_iff, Dev.chipFault_kept, Dev.composeDomain_kept]
theorem execPhaseRelease_kept (n : Domain) (s : State) {t_ : State} (h_ : execPhaseRelease n s = .next t_) : Kept
    s.dev t_.dev := by
  unfold execPhaseRelease at h_
  refine State.always_kept ?_ h_
  unfold Dev.when
  grind -ring -linarith -order only [kept_iff, Dev.releasePhase_kept]
theorem execSuspendComplete_kept (n : Domain) (s : State) {t_ : State} (h_ : execSuspendComplete n s = .next t_) :
    Kept s.dev t_.dev := by
  unfold execSuspendComplete at h_
  refine State.always_kept ?_ h_
  grind -ring -linarith -order only [kept_iff, Dev.suspendDone_kept]
theorem execSaveComplete_kept (r : Region) (s : State) {t_ : State} (h_ : execSaveComplete r s = .next t_) : Kept
    s.dev t_.dev := by
  unfold execSaveComplete at h_
  refine State.always_kept ?_ h_
  grind -ring -linarith -order only [kept_iff, Dev.saveRegion_kept]
theorem execSuspendedStepContinue_kept (n : Domain) (s : State) {t_ : State} (h_ : execSuspendedStepContinue n s =
    .next t_) : Kept s.dev t_.dev := by
  unfold execSuspendedStepContinue at h_
  refine State.always_kept ?_ h_
  grind -ring -linarith -order only [kept_iff, Dev.continueStep_kept]
theorem execDomainStall_kept (n : Domain) (s : State) {t_ : State} (h_ : execDomainStall n s = .next t_) : Kept
    s.dev t_.dev := by
  unfold execDomainStall at h_
  refine State.always_kept ?_ h_
  unfold Dev.when
  grind -ring -linarith -order only [kept_iff, Dev.domainStall_kept]
theorem Dev.blank_kept (d : Dev) : Kept d (Dev.blank d) := by
  exact ⟨rfl, fun _ => rfl⟩
theorem Dev.keepRecords_kept (d old : Dev) : Kept d (Dev.keepRecords d old) := by
  unfold Dev.keepRecords
  grind -ring -linarith -order only [kept_iff, Dev.setCtr_kept]
theorem Dev.fullReset_kept (d : Dev) (cause : Nat) : Kept d (Dev.fullReset d cause) := by
  unfold Dev.fullReset
  grind -ring -linarith -order only [kept_iff, Dev.blank_kept, Dev.keepRecords_kept]
theorem Dev.keepLink_kept (d old : Dev) : Kept d (Dev.keepLink d old) := by
  unfold Dev.keepLink
  grind -ring -linarith -order only [kept_iff]
theorem Dev.keepDie_kept (d old : Dev) (t : Nat) : Kept d (Dev.keepDie d old t) := by
  unfold Dev.keepDie
  grind -ring -linarith -order only [kept_iff, Dev.modTdie_kept, Dev.refloorDie_kept, Dev.setThdie_kept]
theorem Dev.keepPrivileged_kept (d old : Dev) : Kept d (Dev.keepPrivileged d old) := by
  unfold Dev.keepPrivileged
  grind -ring -linarith -order only [foldl_kept, kept_iff, Dev.follow_kept, Dev.keepDie_kept]
theorem Dev.tryBoot_kept (d : Dev) : Kept d (Dev.tryBoot d) := by
  unfold Dev.tryBoot
  grind -ring -linarith -order only [kept_iff, Dev.enter_kept]
theorem Dev.vddKeepUp_kept (d : Dev) : Kept d (Dev.vddKeepUp d) := by
  unfold Dev.vddKeepUp
  grind -ring -linarith -order only [kept_iff, Dev.enter_kept, Dev.tryBoot_kept]
theorem Dev.vddKeepLoss_kept (d : Dev) : Kept d (Dev.vddKeepLoss d) := by
  unfold Dev.vddKeepLoss
  grind -ring -linarith -order only [kept_iff, Dev.blank_kept]
theorem Dev.pwrgoodRise_kept (d : Dev) (lands : Straps) : Kept d (Dev.pwrgoodRise d lands) := by
  unfold Dev.pwrgoodRise
  grind -ring -linarith -order only [kept_iff, Dev.tryBoot_kept]
theorem Dev.pwrgoodFall_kept (d : Dev) : Kept d (Dev.pwrgoodFall d) := by
  unfold Dev.pwrgoodFall
  grind -ring -linarith -order only [kept_iff, Dev.blank_kept, Dev.enter_kept, Dev.setCtr_kept]
theorem Dev.perstAssert_kept (d : Dev) : Kept d (Dev.perstAssert d) := by
  unfold Dev.perstAssert
  grind -ring -linarith -order only [kept_iff, Dev.enter_kept, Dev.fullReset_kept]
theorem Dev.linkReset_kept (d : Dev) : Kept d (Dev.linkReset d) := by
  unfold Dev.linkReset
  grind -ring -linarith -order only [kept_iff]
theorem Dev.hotReset_kept (d : Dev) : Kept d (Dev.hotReset d) := by
  unfold Dev.hotReset
  grind -ring -linarith -order only [kept_iff, Dev.enter_kept, Dev.fullReset_kept, Dev.linkReset_kept, Dev.tryBoot_kept]
theorem Dev.deviceReset_kept (d : Dev) (v : Nat) : Kept d (Dev.deviceReset d v) := by
  unfold Dev.deviceReset
  grind -ring -linarith -order only [kept_iff, Dev.enter_kept, Dev.fullReset_kept, Dev.keepLink_kept]
theorem Dev.stopPlls_kept (d : Dev) : Kept d (Dev.stopPlls d) := by
  unfold Dev.stopPlls
  apply foldl_kept
  intro a x
  grind -ring -linarith -order only [kept_iff, Dev.modTdie_kept, Dev.stopped_kept]
theorem Dev.referenceLoss_kept (d : Dev) : Kept d (Dev.referenceLoss d) := by
  have h := Dev.stopPlls_kept { d with pins.refclk := false }
  unfold Dev.referenceLoss
  dsimp only
  split
  · exact ⟨rfl, id⟩
  · exact ⟨rfl, id⟩
  · refine Kept.trans ?_ (Dev.emit_kept _ _)
    rw [kept_iff]
    refine ⟨h.1, fun w => ?_⟩
    rw [memsCanonical_iff] at w ⊢
    exact ⟨w.1, rfl, rfl, rfl, rfl, rfl, rfl⟩
theorem Dev.thermalTrip_kept (d : Dev) (n : Nat) : Kept d (Dev.thermalTrip d n) := by
  unfold Dev.thermalTrip
  grind -ring -linarith -order only [kept_iff, Dev.blank_kept, Dev.bump_kept, Dev.keepRecords_kept, Dev.tripTemp_kept]
theorem Dev.thermalRestart_kept (d : Dev) : Kept d (Dev.thermalRestart d) := by
  unfold Dev.thermalRestart
  grind -ring -linarith -order only [kept_iff, Dev.enter_kept, Dev.fullReset_kept, Dev.tryBoot_kept]
theorem Dev.trainLink_kept (d : Dev) (l : LinkTrained) : Kept d (Dev.trainLink d l) := by
  unfold Dev.trainLink
  grind -ring -linarith -order only [kept_iff]
theorem Dev.bootsOn_kept (d old : Dev) : Kept d (Dev.bootsOn d old) := by
  unfold Dev.bootsOn
  grind -ring -linarith -order only [kept_iff, Dev.startTraining_kept]
theorem Dev.linkAgain_kept (d : Dev) : Kept d (Dev.linkAgain d) := by
  unfold Dev.linkAgain
  grind -ring -linarith -order only [kept_iff, Dev.drawn_kept, Dev.trainLink_kept]
theorem Dev.returnReset_kept (d : Dev) : Kept d (Dev.returnReset d) := by
  unfold Dev.returnReset
  grind -ring -linarith -order only [kept_iff, Dev.bump_kept, Dev.fullReset_kept, Dev.keepPrivileged_kept]
theorem Dev.referenceReturn_kept (d : Dev) : Kept d (Dev.referenceReturn d) := by
  unfold Dev.referenceReturn
  grind -ring -linarith -order only [kept_iff, Dev.bootsOn_kept, Dev.enter_kept, Dev.linkAgain_kept,
      Dev.returnReset_kept, Dev.tryBoot_kept]
theorem Dev.romReady_kept (d : Dev) (f : FlashAnswer) (l : LinkTrained) : Kept d (Dev.romReady d f l) := by
  unfold Dev.romReady
  grind -ring -linarith -order only [kept_iff, Dev.trainLink_kept]
theorem Dev.linksTrained_kept (d : Dev) : Kept d (Dev.linksTrained d) := by
  unfold Dev.linksTrained
  grind -ring -linarith -order only [kept_iff, Dev.enter_kept]
theorem Dev.fillComplete_kept (d : Dev) : Kept d (Dev.fillComplete d) := by
  exact Kept.trans (b := { d with dram := [], parity := [], clk.regionAwake := 0, clk.stackAwake := 0 })
    (kept_iff.mpr ⟨rfl, fun h => by rw [memsCanonical_iff] at h ⊢; exact ⟨rfl, h.2⟩⟩) (Dev.enter_kept _ _)
theorem Dev.configRequest_kept (d : Dev) (q : ConfigReq) : Kept d (Dev.configRequest d q) := by
  unfold Dev.configRequest
  grind -ring -linarith -order only [kept_iff, Dev.emit_kept, Dev.flushVectors_kept]
theorem execVddKeepUp_kept (s : State) {t_ : State} (h_ : execVddKeepUp s = .next t_) : Kept s.dev t_.dev := by
  unfold execVddKeepUp at h_
  refine State.always_kept ?_ h_
  grind -ring -linarith -order only [kept_iff, Dev.vddKeepUp_kept]
theorem execVddKeepLoss_kept (s : State) {t_ : State} (h_ : execVddKeepLoss s = .next t_) : Kept s.dev t_.dev := by
  unfold execVddKeepLoss at h_
  refine State.always_kept ?_ h_
  unfold Dev.when
  grind -ring -linarith -order only [kept_iff, Dev.vddKeepLoss_kept]
theorem execPwrgoodRise_kept (lands : Straps) (s : State) {t_ : State} (h_ : execPwrgoodRise lands s = .next t_) :
    Kept s.dev t_.dev := by
  unfold execPwrgoodRise at h_
  refine State.always_kept ?_ h_
  unfold Dev.when
  grind -ring -linarith -order only [kept_iff, Dev.pwrgoodRise_kept]
theorem execPwrgoodFall_kept (s : State) {t_ : State} (h_ : execPwrgoodFall s = .next t_) : Kept s.dev t_.dev := by
  unfold execPwrgoodFall at h_
  refine State.always_kept ?_ h_
  unfold Dev.when
  grind -ring -linarith -order only [kept_iff, Dev.pwrgoodFall_kept]
theorem execPerstAssert_kept (s : State) {t_ : State} (h_ : execPerstAssert s = .next t_) : Kept s.dev t_.dev := by
  unfold execPerstAssert at h_
  refine State.always_kept ?_ h_
  unfold Dev.when
  grind -ring -linarith -order only [kept_iff, Dev.perstAssert_kept]
theorem execPerstDeassert_kept (s : State) {t_ : State} (h_ : execPerstDeassert s = .next t_) : Kept s.dev t_.dev :=
    by
  unfold execPerstDeassert at h_
  refine State.always_kept ?_ h_
  unfold Dev.when
  grind -ring -linarith -order only [kept_iff, Dev.tryBoot_kept]
theorem execHotReset_kept (x_ : LinkReset) (s : State) {t_ : State} (h_ : execHotReset x_ s = .next t_) : Kept s.dev
    t_.dev := by
  unfold execHotReset at h_
  refine State.always_kept ?_ h_
  grind -ring -linarith -order only [kept_iff, Dev.hotReset_kept]
theorem execDeviceReset_kept (v : Word) (s : State) {t_ : State} (h_ : execDeviceReset v s = .next t_) : Kept s.dev
    t_.dev := by
  unfold execDeviceReset at h_
  refine State.hosted_kept (fun d => ?_) h_
  unfold Dev.when
  grind -ring -linarith -order only [kept_iff, Dev.deviceReset_kept]
theorem execReferenceLoss_kept (s : State) {t_ : State} (h_ : execReferenceLoss s = .next t_) : Kept s.dev t_.dev :=
    by
  unfold execReferenceLoss at h_
  refine State.always_kept ?_ h_
  unfold Dev.when
  grind -ring -linarith -order only [kept_iff, Dev.referenceLoss_kept]
theorem execReferenceReturn_kept (s : State) {t_ : State} (h_ : execReferenceReturn s = .next t_) : Kept s.dev
    t_.dev := by
  unfold execReferenceReturn at h_
  refine State.always_kept ?_ h_
  unfold Dev.when
  grind -ring -linarith -order only [kept_iff, Dev.referenceReturn_kept]
theorem execThermalTrip_kept (sensor : Fin 196) (s : State) {t_ : State} (h_ : execThermalTrip sensor s = .next t_)
    : Kept s.dev t_.dev := by
  unfold execThermalTrip at h_
  refine State.always_kept ?_ h_
  unfold Dev.when
  grind -ring -linarith -order only [kept_iff, Dev.thermalTrip_kept]
theorem execThermalRestart_kept (s : State) {t_ : State} (h_ : execThermalRestart s = .next t_) : Kept s.dev t_.dev
    := by
  unfold execThermalRestart at h_
  refine State.always_kept ?_ h_
  grind -ring -linarith -order only [kept_iff, Dev.thermalRestart_kept]
theorem execRomReady_kept (found : RomFinds) (s : State) {t_ : State} (h_ : execRomReady found s = .next t_) : Kept
    s.dev t_.dev := by
  unfold execRomReady at h_
  refine State.always_kept ?_ h_
  unfold Dev.when
  grind -ring -linarith -order only [kept_iff, Dev.romReady_kept]
theorem execBootLinksTrained_kept (s : State) {t_ : State} (h_ : execBootLinksTrained s = .next t_) : Kept s.dev
    t_.dev := by
  unfold execBootLinksTrained at h_
  refine State.always_kept ?_ h_
  unfold Dev.when
  grind -ring -linarith -order only [kept_iff, Dev.linksTrained_kept]
theorem execLinkTrainTimeout_kept (s : State) {t_ : State} (h_ : execLinkTrainTimeout s = .next t_) : Kept s.dev
    t_.dev := by
  unfold execLinkTrainTimeout at h_
  refine State.always_kept ?_ h_
  unfold Dev.when
  grind -ring -linarith -order only [kept_iff, Dev.startFault_kept]
theorem execFillComplete_kept (s : State) {t_ : State} (h_ : execFillComplete s = .next t_) : Kept s.dev t_.dev :=
    by
  unfold execFillComplete at h_
  refine State.always_kept ?_ h_
  unfold Dev.when
  grind -ring -linarith -order only [kept_iff, Dev.fillComplete_kept]
theorem execFillTimeout_kept (s : State) {t_ : State} (h_ : execFillTimeout s = .next t_) : Kept s.dev t_.dev := by
  unfold execFillTimeout at h_
  refine State.always_kept ?_ h_
  unfold Dev.when
  grind -ring -linarith -order only [kept_iff, Dev.startFault_kept]
theorem execConfigRequest_kept (q : ConfigReq) (s : State) {t_ : State} (h_ : execConfigRequest q s = .next t_) :
    Kept s.dev t_.dev := by
  unfold execConfigRequest at h_
  refine State.always_kept ?_ h_
  grind -ring -linarith -order only [kept_iff, Dev.configRequest_kept]
theorem execIodieLost_kept (io : Fin 2) (s : State) {t_ : State} (h_ : execIodieLost io s = .next t_) : Kept s.dev
    t_.dev := by
  unfold execIodieLost at h_
  refine State.always_kept ?_ h_
  unfold Dev.when
  grind -ring -linarith -order only [kept_iff, Dev.chipFault_kept]
theorem Dev.tapLoad_kept (d : Dev) (i : Nat) : Kept d (Dev.tapLoad d i) := by
  unfold Dev.tapLoad
  grind -ring -linarith -order only [kept_iff]
theorem execBypass_kept (s : State) {t_ : State} (h_ : execBypass s = .next t_) : Kept s.dev t_.dev := by
  unfold execBypass at h_
  refine State.always_kept ?_ h_
  unfold Dev.when
  grind -ring -linarith -order only [kept_iff, Dev.tapLoad_kept]
theorem execIdcode_kept (s : State) {t_ : State} (h_ : execIdcode s = .next t_) : Kept s.dev t_.dev := by
  unfold execIdcode at h_
  refine State.always_kept ?_ h_
  unfold Dev.when
  grind -ring -linarith -order only [kept_iff, Dev.emit_kept, Dev.tapLoad_kept]
theorem execSamplePreload_kept (shift : List Bool) (s : State) {t_ : State} (h_ : execSamplePreload shift s = .next
    t_) : Kept s.dev t_.dev := by
  unfold execSamplePreload at h_
  refine State.checked_kept ?_ h_
  unfold Dev.when
  grind -ring -linarith -order only [kept_iff, Dev.emit_kept, Dev.tapLoad_kept]
theorem execExtest_kept (s : State) {t_ : State} (h_ : execExtest s = .next t_) : Kept s.dev t_.dev := by
  unfold execExtest at h_
  refine State.always_kept ?_ h_
  unfold Dev.when
  grind -ring -linarith -order only [kept_iff, Dev.tapLoad_kept]
theorem execClamp_kept (s : State) {t_ : State} (h_ : execClamp s = .next t_) : Kept s.dev t_.dev := by
  unfold execClamp at h_
  refine State.always_kept ?_ h_
  unfold Dev.when
  grind -ring -linarith -order only [kept_iff, Dev.tapLoad_kept]
theorem execHighz_kept (s : State) {t_ : State} (h_ : execHighz s = .next t_) : Kept s.dev t_.dev := by
  unfold execHighz at h_
  refine State.always_kept ?_ h_
  unfold Dev.when
  grind -ring -linarith -order only [kept_iff, Dev.tapLoad_kept]

end Sys2Proof.Machine
end

