-- ==== Sys2Proof/Laws/KeptChip.lean ====
section
/-! SUPPORT. What every command keeps (Laws/Kept.lean), operation by operation: the twin, the boot image, the host port,
the registers, the tick. -/

namespace Sys2Proof.Machine
open Sys2Proof

-- One proof at a time: each proof that waits for another keeps a thread, and a thread its stack.
set_option Elab.async false

theorem Dev.twinEnter_kept (d : Dev) (st : Nat) : Kept d (Dev.twinEnter d st) := by
  unfold Dev.twinEnter
  grind -ring -linarith -order only [kept_iff, Dev.raise_kept]
theorem Dev.attachFails_kept (d : Dev) (code : Nat) : Kept d (Dev.attachFails d code) := by
  unfold Dev.attachFails
  grind -ring -linarith -order only [kept_iff, Dev.twinEnter_kept]
theorem Dev.unhold_kept (d : Dev) (n : Nat) : Kept d (Dev.unhold d n) := by
  unfold Dev.unhold
  apply foldl_kept
  intro a x
  grind -ring -linarith -order only [kept_iff, Dev.modReq_kept]
theorem Dev.detach_kept (d : Dev) (code : Nat) : Kept d (Dev.detach d code) := by
  unfold Dev.detach
  grind -ring -linarith -order only [foldl_kept, kept_iff, Dev.bump_kept, Dev.twinEnter_kept, Dev.unhold_kept]
theorem Dev.tryAttach_kept (d : Dev) : Kept d (Dev.tryAttach d) := by
  unfold Dev.tryAttach
  grind -ring -linarith -order only [kept_iff, Dev.attachFails_kept, Dev.emit_kept, Dev.twinEnter_kept]
theorem Dev.twinStopped_kept (d : Dev) (w : Who) (counted : Bool) (e : Stop) : Kept d (Dev.twinStopped d w counted
    e) := by
  unfold Dev.twinStopped
  grind -ring -linarith -order only [kept_iff, Dev.hostLost_kept, Dev.stopped_kept, Dev.unserve_kept]
theorem copyPiece_kept (a len : Nat) (x : Dev × Nat) : Kept x.1 (copyPiece a len x).1 := by
  unfold copyPiece
  grind -ring -linarith -order only [kept_iff, Dev.drawn_kept, Dev.hostLost_kept, → Dev.loadPiece_kept,
      Dev.mirrorSend_kept,
    Dev.twinStopped_kept, Dev.unserve_kept]
theorem copyStripe_kept (bankView : Bool) (st : Nat) (p : Stripe) (x : Dev × Nat) : Kept x.1 (copyStripe bankView st
    p x).1 := by
  unfold copyStripe
  split
  · exact foldl_kept_fst _ _ _ fun a i => copyPiece_kept ..
  · exact copyPiece_kept ..
theorem copyBand_kept (bankView : Bool) (st row : Nat) (x : Dev × Nat) : Kept x.1 (copyBand bankView st row x).1 := by
  unfold copyBand
  exact foldl_kept_fst _ _ _ fun a i => foldl_kept_fst _ _ _ fun b j => copyStripe_kept ..
theorem copyArea_kept (x : Dev × Nat) (r : Area) : Kept x.1 (copyArea x r).1 := by
  unfold copyArea
  exact foldl_kept_fst _ _ _ fun a i => foldl_kept_fst _ _ _ fun b j => copyBand_kept ..
theorem Dev.copyEnds_kept (d : Dev) (n : Nat) : Kept d (Dev.copyEnds d n) := by
  unfold Dev.copyEnds
  grind -ring -linarith -order only [kept_iff, Dev.mirrorSend_kept]
theorem Dev.copyOn_kept (d : Dev) : Kept d (Dev.copyOn d) := by
  unfold Dev.copyOn
  split
  · exact Kept.refl _
  · exact (foldl_kept_fst copyArea _ (d, 0) copyArea_kept).trans (Dev.copyEnds_kept ..)
theorem Dev.fullCopy_kept (d : Dev) : Kept d (Dev.fullCopy d) := by
  unfold Dev.fullCopy
  grind -ring -linarith -order only [foldl_kept, kept_iff, Dev.commandRecord_kept, Dev.copyOn_kept]
theorem Dev.attached_kept (d : Dev) : Kept d (Dev.attached d) := by
  unfold Dev.attached
  grind -ring -linarith -order only [kept_iff, Dev.fullCopy_kept, Dev.twinEnter_kept]
theorem Dev.twinAnswers_kept (d : Dev) (hello : TwinHello) (areas : List MirrorArea) : Kept d (Dev.twinAnswers d
    hello areas) := by
  unfold Dev.twinAnswers
  grind -ring -linarith -order only [kept_iff, Dev.attachFails_kept, Dev.attached_kept]
theorem Dev.presence_kept (d : Dev) (level : Bool) : Kept d (Dev.presence d level) := by
  unfold Dev.presence
  grind -ring -linarith -order only [kept_iff, Dev.attachFails_kept, Dev.detach_kept, Dev.tryAttach_kept]
theorem Dev.hbEdge_kept (d : Dev) (level : Bool) : Kept d (Dev.hbEdge d level) := by
  unfold Dev.hbEdge
  grind -ring -linarith -order only [kept_iff]
theorem Dev.heartbeatTimeout_kept (d : Dev) : Kept d (Dev.heartbeatTimeout d) := by
  unfold Dev.heartbeatTimeout
  grind -ring -linarith -order only [kept_iff, Dev.detach_kept]
theorem Dev.postOne_kept (d : Dev) (x : TwinPost) {d_ : Dev} (h_ : Dev.postOne d x = .ok d_) : Kept d d_ := by
  unfold Dev.postOne at h_
  grind -ring -linarith -order only [kept_iff, Dev.emit_kept, → Dev.store_kept, Dev.twinStopped_kept, Dev.unserve_kept]
theorem Dev.postAll_kept (d : Dev) (l : List TwinPost) : Kept d (Dev.postAll d l) := by
  induction l generalizing d <;>
    (unfold Dev.postAll
     grind -ring -linarith -order only [kept_iff, → Dev.postOne_kept, Dev.twinStopped_kept])
theorem Dev.postOn_kept (d : Dev) : Kept d (Dev.postOn d) := by
  unfold Dev.postOn
  grind -ring -linarith -order only [kept_iff, Dev.postAll_kept]
theorem Dev.post_kept (d : Dev) (x : TwinPost) : Kept d (Dev.post d x) := by
  unfold Dev.post
  grind -ring -linarith -order only [kept_iff, Dev.postOn_kept]
theorem Dev.shadowBytes_kept (d : Dev) (i : Nat) : Kept d (Dev.shadowBytes d i) := by
  unfold Dev.shadowBytes
  grind -ring -linarith -order only [kept_iff, Dev.drawn_kept, Dev.post_kept]
theorem Dev.applyPart_kept (d : Dev) (step : BitVec 16) (n : Nat) (p : TwinPart) : Kept d (Dev.applyPart d step n p)
    := by
  unfold Dev.applyPart
  grind -ring -linarith -order only [kept_iff, Dev.drawn_kept, Dev.setShadow_kept, Dev.shadowBytes_kept]
theorem Dev.applyItem_kept (d : Dev) (x : TwinItem) : Kept d (Dev.applyItem d x) := by
  unfold Dev.applyItem
  grind -ring -linarith -order only [foldl_kept, kept_iff, Dev.applyPart_kept, Dev.post_kept, Dev.record_kept]
theorem Dev.recordAcked_kept (d : Dev) (seq : Nat) : Kept d (Dev.recordAcked d seq) := by
  unfold Dev.recordAcked
  grind -ring -linarith -order only [kept_iff, Dev.bump_kept, Dev.settleAcks_kept, Dev.unhold_kept]
theorem Dev.ackReceived_kept (d : Dev) : Kept d (Dev.ackReceived d) := by
  unfold Dev.ackReceived
  grind -ring -linarith -order only [kept_iff, Dev.record_kept, Dev.recordAcked_kept]
theorem Dev.repairRead_kept (d : Dev) (a len : Nat) : Kept d (Dev.repairRead d a len) := by
  unfold Dev.repairRead
  grind -ring -linarith -order only [kept_iff, Dev.emit_kept, → Dev.load_kept, Dev.twinRepair_kept,
      Dev.twinStopped_kept, Dev.unserve_kept]
theorem Dev.promoteEntry_kept (d : Dev) (n : Nat) (x : Shadow) : Kept d (Dev.promoteEntry d n x).1 := by
  unfold Dev.promoteEntry
  grind -ring -linarith -order only [kept_iff, Dev.bump_kept, Dev.changed_kept, Dev.setReq_kept]
theorem Dev.writeLog_kept (d : Dev) (page k : Nat) (bs : List Byte) {d_ : Dev} (h_ : Dev.writeLog d page k bs = .ok
    d_) : Kept d d_ := by
  unfold Dev.writeLog at h_
  grind -ring -linarith -order only [kept_iff, → Dev.store_kept, Dev.twinStopped_kept, Dev.unserve_kept]
theorem Dev.countPromotions_kept (d : Dev) (k : Nat) : Kept d (Dev.countPromotions d k) := by
  unfold Dev.countPromotions
  grind -ring -linarith -order only [kept_iff]
theorem Dev.promoteOne_kept (d : Dev) (n page i : Nat) (x : Shadow) {d_ : Dev} (h_ : Dev.promoteOne d n page i x =
    .ok d_) : Kept d d_ := by
  unfold Dev.promoteOne at h_
  dsimp only at h_
  obtain ⟨d1, h, h2⟩ := Acc.andThen_ok h_
  cases h2
  exact (((Dev.promoteEntry_kept ..).trans (Dev.writeLog_kept _ _ _ _ h)).trans (Dev.setShadow_kept ..)).trans
    (Dev.countPromotions_kept ..)
theorem Dev.promoteWaits_kept (d : Dev) (q : Promotion) (e : Stop) : Kept d (Dev.promoteWaits d q e) := by
  unfold Dev.promoteWaits
  grind -ring -linarith -order only [kept_iff, Dev.twinStopped_kept]
theorem Dev.promoteAll_kept (d : Dev) (q : Promotion) (es : List (Nat × Option Shadow)) : Kept d (Dev.promoteAll d q
    es) := by
  induction es generalizing d q with
  | nil =>
    unfold Dev.promoteAll
    exact Kept.trans (b := { d with twin.promoting := none }) ⟨rfl, id⟩ (Dev.prompt_kept ..)
  | cons e r ih =>
    obtain ⟨i, o⟩ := e
    cases o with
    | none => exact ih d q
    | some x =>
      unfold Dev.promoteAll
      exact Acc.fold_kept (fun e => Dev.promoteWaits_kept ..) fun d1 h =>
        (Dev.promoteOne_kept _ _ _ _ _ h).trans (ih _ _)
theorem Dev.promoteOn_kept (d : Dev) : Kept d (Dev.promoteOn d) := by
  unfold Dev.promoteOn
  grind -ring -linarith -order only [kept_iff, Dev.promoteAll_kept]
theorem Dev.promote_kept (d : Dev) (v : Nat) : Kept d (Dev.promote d v) := by
  unfold Dev.promote
  grind -ring -linarith -order only [kept_iff, Dev.chipFault_kept, Dev.promoteOn_kept]
theorem Dev.linkFails_kept (d : Dev) (l : Link) : Kept d (Dev.linkFails d l) := by
  unfold Dev.linkFails
  grind -ring -linarith -order only [kept_iff, Dev.attachFails_kept, Dev.chipFault_kept, Dev.detach_kept,
    Dev.regionFault_kept,
    Dev.spanFails_kept]
theorem Dev.replay_kept (d : Dev) (l : Link) (channel : Fin 25) (failed : Bool) : Kept d (Dev.replay d l channel
    failed) := by
  unfold Dev.replay
  grind -ring -linarith -order only [kept_iff, Dev.bump_kept, Dev.linkFails_kept]
theorem execLinkReplay_kept (r : FlitReplay) (s : State) {t_ : State} (h_ : execLinkReplay r s = .next t_) : Kept
    s.dev t_.dev := by
  unfold execLinkReplay at h_
  refine State.always_kept ?_ h_
  unfold Dev.when
  grind -ring -linarith -order only [kept_iff, Dev.replay_kept]
theorem execTwinAttach_kept (s : State) {t_ : State} (h_ : execTwinAttach s = .next t_) : Kept s.dev t_.dev := by
  unfold execTwinAttach at h_
  refine State.hosted_kept (fun d => ?_) h_
  unfold Dev.when
  grind -ring -linarith -order only [kept_iff, Dev.tryAttach_kept]
theorem execTwinAttached_kept (hello : TwinHello) (areas : List MirrorArea) (s : State) {t_ : State} (h_ :
    execTwinAttached hello areas s = .next t_) : Kept s.dev t_.dev := by
  unfold execTwinAttached at h_
  refine State.checked_kept ?_ h_
  grind -ring -linarith -order only [kept_iff, Dev.twinAnswers_kept]
theorem execTwinDetach_kept (s : State) {t_ : State} (h_ : execTwinDetach s = .next t_) : Kept s.dev t_.dev := by
  unfold execTwinDetach at h_
  refine State.hosted_kept (fun d => ?_) h_
  unfold Dev.when
  grind -ring -linarith -order only [kept_iff, Dev.detach_kept]
theorem execTwinHeartbeatSend_kept (s : State) {t_ : State} (h_ : execTwinHeartbeatSend s = .next t_) : Kept s.dev
    t_.dev := by
  unfold execTwinHeartbeatSend at h_
  refine State.always_kept ?_ h_
  unfold Dev.when
  grind -ring -linarith -order only [kept_iff, Dev.emit_kept]
theorem execTwinHbToggle_kept (s : State) {t_ : State} (h_ : execTwinHbToggle s = .next t_) : Kept s.dev t_.dev :=
    by
  unfold execTwinHbToggle at h_
  refine State.always_kept ?_ h_
  unfold Dev.when
  grind -ring -linarith -order only [kept_iff]
theorem execHeartbeatTimeout_kept (s : State) {t_ : State} (h_ : execHeartbeatTimeout s = .next t_) : Kept s.dev
    t_.dev := by
  unfold execHeartbeatTimeout at h_
  refine State.always_kept ?_ h_
  unfold Dev.when
  grind -ring -linarith -order only [kept_iff, Dev.heartbeatTimeout_kept]
theorem execAckTimeout_kept (s : State) {t_ : State} (h_ : execAckTimeout s = .next t_) : Kept s.dev t_.dev := by
  unfold execAckTimeout at h_
  refine State.always_kept ?_ h_
  unfold Dev.when
  grind -ring -linarith -order only [kept_iff, Dev.detach_kept]
theorem execTwinRecordApply_kept (item : TwinItem) (s : State) {t_ : State} (h_ : execTwinRecordApply item s = .next
    t_) : Kept s.dev t_.dev := by
  unfold execTwinRecordApply at h_
  refine State.checked_kept ?_ h_
  unfold Dev.when
  grind -ring -linarith -order only [kept_iff, Dev.applyItem_kept]
theorem execTwinAckReceived_kept (s : State) {t_ : State} (h_ : execTwinAckReceived s = .next t_) : Kept s.dev
    t_.dev := by
  unfold execTwinAckReceived at h_
  refine State.always_kept ?_ h_
  unfold Dev.when
  grind -ring -linarith -order only [kept_iff, Dev.ackReceived_kept]
theorem execTwinRepairRead_kept (addr : BitVec 48) (len : Nat) (s : State) {t_ : State} (h_ : execTwinRepairRead
    addr len s = .next t_) : Kept s.dev t_.dev := by
  unfold execTwinRepairRead at h_
  refine State.checked_kept ?_ h_
  unfold Dev.when
  grind -ring -linarith -order only [kept_iff, Dev.repairRead_kept]
theorem execTwinPromote_kept (v : Word) (s : State) {t_ : State} (h_ : execTwinPromote v s = .next t_) : Kept s.dev
    t_.dev := by
  unfold execTwinPromote at h_
  refine State.hosted_kept (fun d => ?_) h_
  unfold Dev.when
  grind -ring -linarith -order only [kept_iff, Dev.promote_kept]
theorem execLinkHeartbeatArrival_kept (s : State) {t_ : State} (h_ : execLinkHeartbeatArrival s = .next t_) : Kept
    s.dev t_.dev := by
  unfold execLinkHeartbeatArrival at h_
  refine State.always_kept ?_ h_
  unfold Dev.when
  grind -ring -linarith -order only [kept_iff]
theorem execAttachFailure_kept (why : AttachFail) (s : State) {t_ : State} (h_ : execAttachFailure why s = .next t_)
    : Kept s.dev t_.dev := by
  unfold execAttachFailure at h_
  refine State.always_kept ?_ h_
  unfold Dev.when
  grind -ring -linarith -order only [kept_iff, Dev.attachFails_kept]
theorem execTwinPresentInChange_kept (level : Bool) (s : State) {t_ : State} (h_ : execTwinPresentInChange level s =
    .next t_) : Kept s.dev t_.dev := by
  unfold execTwinPresentInChange at h_
  refine State.always_kept ?_ h_
  grind -ring -linarith -order only [kept_iff, Dev.presence_kept]
theorem execTwinHbInEdge_kept (level : Bool) (s : State) {t_ : State} (h_ : execTwinHbInEdge level s = .next t_) :
    Kept s.dev t_.dev := by
  unfold execTwinHbInEdge at h_
  refine State.always_kept ?_ h_
  grind -ring -linarith -order only [kept_iff, Dev.hbEdge_kept]
theorem Dev.applyRepair_kept (d : Dev) (x : Repair) : Kept d (Dev.applyRepair d x) := by
  unfold Dev.applyRepair
  grind -ring -linarith -order only [kept_iff, Dev.modStk_kept]
theorem Dev.applyQueue_kept (d : Dev) (x : QueueEnt) : Kept d (Dev.applyQueue d x) := by
  unfold Dev.applyQueue
  grind -ring -linarith -order only [kept_iff, Dev.setQueue_kept]
theorem Dev.applyPort_kept (d : Dev) (x : PortRec) : Kept d (Dev.applyPort d x) := by
  unfold Dev.applyPort
  grind -ring -linarith -order only [kept_iff, Dev.modSpan_kept]
theorem Dev.applyEvents_kept (d : Dev) (xs : List EventEnt) : Kept d (Dev.applyEvents d xs) := by
  unfold Dev.applyEvents
  grind -ring -linarith -order only [kept_iff, Dev.ecUpdate_kept]
theorem Dev.applyPower_kept (d : Dev) (b : Option (List Nat)) : Kept d (Dev.applyPower d b) := by
  unfold Dev.applyPower
  apply foldl_kept
  intro a x
  grind -ring -linarith -order only [kept_iff, Dev.modTdie_kept]
theorem Dev.applyThermal_kept (d : Dev) (b : Option (List Nat)) : Kept d (Dev.applyThermal d b) := by
  unfold Dev.applyThermal
  grind -ring -linarith -order only [kept_iff]
theorem Dev.trainPorts_kept (d : Dev) : Kept d (Dev.trainPorts d) := by
  unfold Dev.trainPorts
  apply foldl_kept
  intro a x
  grind -ring -linarith -order only [kept_iff, Dev.spanTrains_kept]
theorem Dev.applyImage_kept (d : Dev) (x : Draft) (img : List Byte) : Kept d (Dev.applyImage d x img) := by
  unfold Dev.applyImage
  refine Kept.trans ?_ (Dev.tryAttach_kept _)
  refine Kept.trans ?_ (Dev.trainPorts_kept _)
  refine Kept.trans ?_ (Dev.enter_kept _ _)
  refine Kept.trans ?_ (Dev.raise_kept _ _)
  refine Kept.trans (b := Dev.applyThermal _ _) ?_ ⟨rfl, id⟩
  refine Kept.trans ?_ (Dev.applyThermal_kept _ _)
  refine Kept.trans ?_ (Dev.applyPower_kept _ _)
  refine Kept.trans ?_ (Dev.applyEvents_kept _ _)
  refine Kept.trans ?_ (foldl_kept _ _ _ fun a x => Dev.applyPort_kept _ _)
  refine Kept.trans ?_ (foldl_kept _ _ _ fun a x => Dev.applyQueue_kept _ _)
  refine Kept.trans (b := List.foldl Dev.applyRepair d x.repairs) ?_ ⟨rfl, id⟩
  exact foldl_kept _ _ _ fun a x => Dev.applyRepair_kept _ _
theorem Dev.rejectImage_kept (d : Dev) (b : Bad) : Kept d (Dev.rejectImage d b) := by
  unfold Dev.rejectImage
  grind -ring -linarith -order only [kept_iff, Dev.raise_kept]
theorem Dev.copyStops_kept (d : Dev) (o : Nat) (e : Stop) {p_ : Dev × List Byte × Option Nat}
    (h_ : Dev.copyStops d o e = .ok p_) : Kept d p_.1 := by
  unfold Dev.copyStops at h_
  split at h_
  · cases h_
    exact (((Dev.ueForget_kept ..).trans (Dev.poison_kept ..)).trans (Dev.bump_kept ..)).trans (Dev.logUe_kept ..)
  · cases h_
theorem Dev.copyFrom_kept (d : Dev) (o : Nat) (n0 : Nat) {p_ : Dev × List Byte × Option Nat} (h_ : Dev.copyFrom d o
    n0 = .ok p_) : Kept d p_.1 := by
  induction n0 generalizing d o p_ with
  | zero => cases h_; exact Kept.refl _
  | succ n ih =>
    unfold Dev.copyFrom at h_
    rcases Acc.fold_ok h_ with ⟨e, _, h⟩ | ⟨p, h1, h2⟩
    · exact Dev.copyStops_kept _ _ _ h
    · obtain ⟨q, h3, h4⟩ := Acc.andThen_ok h2
      cases h4
      exact (Dev.loadPiece_kept _ _ _ _ h1).trans (ih (p_ := q) _ _ h3)
theorem Dev.copyImage_kept (d : Dev) {p_ : Dev × List Byte × Option Nat} (h_ : Dev.copyImage d = .ok p_) : Kept d
    p_.1 := by
  unfold Dev.copyImage at h_
  obtain ⟨p, h1, h2⟩ := Acc.andThen_ok h_
  split at h2
  · cases h2
    exact Dev.copyFrom_kept (p_ := p) _ _ _ h1
  · obtain ⟨q, h3, h4⟩ := Acc.andThen_ok h2
    cases h4
    exact Dev.copyFrom_kept (p_ := q) _ _ _ h3
theorem Dev.imageWaits_kept (d : Dev) (e : Stop) : Kept d (Dev.imageWaits d e) := by
  unfold Dev.imageWaits
  grind -ring -linarith -order only [kept_iff, Dev.stopped_kept]
theorem Dev.imageReads_kept (d : Dev) : Kept d (Dev.imageReads d) := by
  unfold Dev.imageReads
  exact Acc.fold_kept (fun e => Dev.imageWaits_kept ..) fun p h =>
    ((Dev.copyImage_kept _ h).trans (Dev.unserve_kept ..)).trans ⟨rfl, id⟩
theorem Dev.imageOn_kept (d : Dev) : Kept d (Dev.imageOn d) := by
  unfold Dev.imageOn
  grind -ring -linarith -order only [kept_iff, Dev.imageReads_kept]
theorem Dev.startImage_kept (d : Dev) : Kept d (Dev.startImage d) := by
  unfold Dev.startImage
  grind -ring -linarith -order only [kept_iff, Dev.imageReads_kept, Dev.rejectImage_kept]
theorem Dev.structCommit_kept (d : Dev) (v : Nat) : Kept d (Dev.structCommit d v) := by
  unfold Dev.structCommit
  grind -ring -linarith -order only [kept_iff, Dev.startImage_kept]
theorem Dev.copyDone_kept (d0 : Dev) : Kept d0 (Dev.copyDone d0) := by
  unfold Dev.copyDone
  grind -ring -linarith -order only [kept_iff, Dev.applyImage_kept, Dev.drawn_kept, Dev.imageOn_kept,
      Dev.rejectImage_kept, Dev.stopped_kept,
    Dev.unserve_kept]
theorem execStructCommit_kept (v : Word) (s : State) {t_ : State} (h_ : execStructCommit v s = .next t_) : Kept
    s.dev t_.dev := by
  unfold execStructCommit at h_
  refine State.hosted_kept (fun d => ?_) h_
  unfold Dev.when
  grind -ring -linarith -order only [kept_iff, Dev.structCommit_kept]
theorem execStructCopyDone_kept (s : State) {t_ : State} (h_ : execStructCopyDone s = .next t_) : Kept s.dev t_.dev
    := by
  unfold execStructCopyDone at h_
  refine State.always_kept ?_ h_
  unfold Dev.when
  grind -ring -linarith -order only [kept_iff, Dev.copyDone_kept]
theorem Dev.hostMixes_kept (d : Dev) (a n : Nat) : Kept d (Dev.hostMixes d a n) := by
  unfold Dev.hostMixes
  grind -ring -linarith -order only [kept_iff, Dev.drawn_kept]
theorem Dev.hitPage_kept (d : Dev) (write : Bool) (c : Nat × Nat × Nat) : Kept d (Dev.hitPage d write c) := by
  unfold Dev.hitPage
  split
  · exact Dev.chipFault_kept ..
  · split
    · exact Kept.trans (b := { d with host.hitValid := true, host.hitPage := c.1 }) ⟨rfl, id⟩ (Dev.bump_kept ..)
    · exact Kept.refl _
theorem Dev.wakeStacks_kept (d : Dev) (l : List Nat) : Kept d (Dev.wakeStacks d l) := by
  unfold Dev.wakeStacks
  apply foldl_kept
  intro a x
  grind -ring -linarith -order only [kept_iff, Dev.startClock_kept, Dev.wakeStack_kept]
theorem Dev.hostStore_kept (d : Dev) (ps : List (Nat × Nat)) (bytes : List Byte) {d_ : Dev} (h_ : Dev.hostStore d ps
    bytes = .ok d_) : Kept d d_ := by
  induction ps generalizing d bytes d_ <;>
    (unfold Dev.hostStore at h_
     grind -ring -linarith -order only [kept_iff, Dev.hostLost_kept, Dev.hostMixes_kept, → Dev.storePiece_kept])
theorem Dev.hostLoad_kept (d : Dev) (ps : List (Nat × Nat)) {p_ : Dev × List Byte × Bool} (h_ : Dev.hostLoad d ps =
    .ok p_) : Kept d p_.1 := by
  induction ps generalizing d p_ <;>
    (unfold Dev.hostLoad at h_
     grind -ring -linarith -order only [kept_iff, Dev.drawn_kept, Dev.hostLost_kept, → Dev.loadPiece_kept])
theorem Dev.hostWaits_kept (d : Dev) (i : Instr) (e : Stop) : Kept d (Dev.hostWaits d i e) := by
  unfold Dev.hostWaits
  grind -ring -linarith -order only [kept_iff, Dev.hold_kept, Dev.stoppedFor_kept, Dev.when_kept]
theorem Dev.windowWrite_kept (d : Dev) (o : Nat) (bytes : List Byte) : Kept d (Dev.windowWrite d o bytes) := by
  unfold Dev.windowWrite
  grind -ring -linarith -order only [foldl_kept, kept_iff, Dev.hitPage_kept, Dev.hold_kept, → Dev.hostStore_kept,
    Dev.hostWaits_kept,
    Dev.unserve_kept, Dev.wakeStacks_kept]
theorem Dev.windowReadout_kept (d : Dev) (o len : Nat) : Kept d (Dev.windowReadout d o len) := by
  unfold Dev.windowReadout
  grind -ring -linarith -order only [foldl_kept, kept_iff, Dev.emit_kept, Dev.hitPage_kept, Dev.hold_kept,
    → Dev.hostLoad_kept,
    Dev.hostWaits_kept, Dev.unserve_kept, Dev.wakeStacks_kept]
theorem Dev.stageWrite_kept (d : Dev) (o : Nat) (bytes : List Byte) : Kept d (Dev.stageWrite d o bytes) := by
  unfold Dev.stageWrite
  grind -ring -linarith -order only [kept_iff]
theorem Dev.hostWrite_kept (d : Dev) (o : Nat) (bytes : List Byte) : Kept d (Dev.hostWrite d o bytes) := by
  unfold Dev.hostWrite
  grind -ring -linarith -order only [kept_iff, Dev.stageWrite_kept, Dev.windowWrite_kept]
theorem Dev.hostRead_kept (d : Dev) (o len : Nat) : Kept d (Dev.hostRead d o len) := by
  unfold Dev.hostRead
  grind -ring -linarith -order only [kept_iff, Dev.emit_kept, Dev.windowReadout_kept]
theorem Dev.setPennants_kept (d : Dev) (ps : List Nat) (x : Bool) : Kept d (Dev.setPennants d ps x) := by
  unfold Dev.setPennants
  grind -ring -linarith -order only [foldl_kept, kept_iff, Dev.chipFault_kept, Dev.setPennant_kept]
theorem Dev.stallPage_kept (d : Dev) (p : Nat) : Kept d (Dev.stallPage d p) := by
  unfold Dev.stallPage
  grind -ring -linarith -order only [kept_iff, Dev.raise_kept]
theorem Dev.ringError_kept (d : Dev) (g code : Nat) (index : Option Nat) : Kept d (Dev.ringError d g code index) :=
    by
  unfold Dev.ringError
  grind -ring -linarith -order only [kept_iff, Dev.modRing_kept, Dev.raise_kept]
theorem Dev.ringEnable_kept (d : Dev) (g : Nat) (en : Bool) : Kept d (Dev.ringEnable d g en) := by
  unfold Dev.ringEnable
  grind -ring -linarith -order only [kept_iff, Dev.ringError_kept, Dev.setRing_kept]
theorem Dev.wakeEntry_kept (d : Dev) (e : RingEntry) : Kept d (Dev.wakeEntry d e) := by
  unfold Dev.wakeEntry
  grind -ring -linarith -order only [kept_iff, Dev.wakeUnit_kept]
theorem Dev.ringLost_kept (d : Dev) (st : Nat) (p : Stripe) : Kept d (Dev.ringLost d st p) := by
  unfold Dev.ringLost
  grind -ring -linarith -order only [kept_iff, Dev.bump_kept, Dev.logUe_kept, Dev.poison_kept, Dev.ueForget_kept]
theorem Dev.fetched_kept (d : Dev) (g : Nat) (w : Option Nat) : Kept d (Dev.fetched d g w) := by
  unfold Dev.fetched
  grind -ring -linarith -order only [kept_iff, Dev.modRing_kept]
theorem Dev.fetchEntries_kept (d : Dev) (g : Nat) (n0 : Nat) : Kept d (Dev.fetchEntries d g n0) := by
  induction n0 generalizing d with
  | zero => exact Kept.refl _
  | succ n ih =>
    unfold Dev.fetchEntries
    dsimp only
    split
    · exact Kept.refl _
    · refine Acc.fold_kept (fun e => ?_) fun q h =>
        ((((Dev.load_kept _ _ _ _ h).trans (Dev.unserve_kept ..)).trans (Dev.fetched_kept ..)).trans
          (Dev.wakeEntry_kept ..)).trans (ih _)
      split
      · exact (((Dev.unserve_kept ..).trans (Dev.ringLost_kept ..)).trans (Dev.fetched_kept ..)).trans (ih _)
      · exact Dev.stopped_kept ..
theorem Dev.fetchRing_kept (d : Dev) (g : Nat) : Kept d (Dev.fetchRing d g) := by
  unfold Dev.fetchRing
  grind -ring -linarith -order only [kept_iff, Dev.fetchEntries_kept, Dev.fetched_kept]
theorem Dev.ringDoorbell_kept (d : Dev) (g : Nat) (v : BitVec 16) : Kept d (Dev.ringDoorbell d g v) := by
  unfold Dev.ringDoorbell
  grind -ring -linarith -order only [kept_iff, Dev.fetchRing_kept, Dev.ringError_kept, Dev.setRing_kept]
theorem Dev.rowsCopied_kept (d : Dev) (draw : Nat) (rows : List (Nat × Nat)) : Kept d (Dev.rowsCopied d draw rows)
    := by
  unfold Dev.rowsCopied
  apply foldl_kept
  intro a x
  grind -ring -linarith -order only [kept_iff]
theorem Dev.readRows_kept (d : Dev) (w : Who) (e : RingEntry) (as : List Nat) {p_ : Dev × List (List Byte)} (h_ :
    Dev.readRows d w e as = .ok p_) : Kept d p_.1 := by
  induction as generalizing d w e p_ <;>
    (unfold Dev.readRows at h_
     grind -ring -linarith -order only [kept_iff, → Dev.load_kept])
theorem Dev.writeRows_kept (d : Dev) (w : Who) (ps : List (Nat × List Byte)) {d_ : Dev} (h_ : Dev.writeRows d w ps =
    .ok d_) : Kept d d_ := by
  unfold Dev.writeRows at h_
  grind -ring -linarith -order only [kept_iff, → Dev.writeRuns_kept]
theorem Dev.copyEntry_kept (d : Dev) (g i : Nat) (e : RingEntry) {d_ : Dev} (h_ : Dev.copyEntry d g i e = .ok d_) :
    Kept d d_ := by
  unfold Dev.copyEntry at h_
  grind -ring -linarith -order only [kept_iff, Dev.drawn_kept, → Dev.readRows_kept, Dev.rowsCopied_kept,
      Dev.unserve_kept, → Dev.writeRows_kept,
    → Acc.andThen_ok]
theorem Dev.entryStarts_kept (d : Dev) (g : Nat) (e : RingEntry) : Kept d (Dev.entryStarts d g e) := by
  unfold Dev.entryStarts
  grind -ring -linarith -order only [kept_iff, Dev.fetched_kept, Dev.modRing_kept]
theorem Dev.modRun_kept (d : Dev) (g i : Nat) (f : RingRun → RingRun) : Kept d (Dev.modRun d g i f) := by
  unfold Dev.modRun
  grind -ring -linarith -order only [kept_iff, Dev.modRing_kept]
theorem Dev.entryStopped_kept (d : Dev) (g : Nat) (f : RingRun) (s : Stop) : Kept d (Dev.entryStopped d g f s) := by
  unfold Dev.entryStopped
  grind -ring -linarith -order only [kept_iff, Dev.modRun_kept, Dev.ringError_kept, Dev.ringLost_kept, Dev.stopped_kept,
      Dev.unserve_kept]
theorem Dev.doEntry_kept (d : Dev) (g : Nat) (f : RingRun) : Kept d (Dev.doEntry d g f) := by
  unfold Dev.doEntry
  grind -ring -linarith -order only [kept_iff, → Dev.copyEntry_kept, Dev.entryStopped_kept, Dev.modRun_kept,
      Dev.wakeUnit_kept]
theorem Dev.startEntry_kept (d : Dev) (g op : Nat) : Kept d (Dev.startEntry d g op) := by
  unfold Dev.startEntry
  grind -ring -linarith -order only [kept_iff, Dev.doEntry_kept, Dev.entryStarts_kept, Dev.ringError_kept,
      Dev.setPennants_kept]
theorem Dev.runEntry_kept (d : Dev) (g op : Nat) : Kept d (Dev.runEntry d g op) := by
  unfold Dev.runEntry
  grind -ring -linarith -order only [kept_iff, Dev.doEntry_kept, Dev.fetchRing_kept, Dev.startEntry_kept]
theorem Dev.completeEntry_kept (d : Dev) (g : Nat) : Kept d (Dev.completeEntry d g) := by
  unfold Dev.completeEntry
  grind -ring -linarith -order only [kept_iff, Dev.bump_kept, Dev.modRing_kept, Dev.raise_kept, Dev.runEntry_kept]
theorem execHostWindowWrite_kept (off : Nat) (bytes : List Byte) (s : State) {t_ : State} (h_ : execHostWindowWrite
    off bytes s = .next t_) : Kept s.dev t_.dev := by
  unfold execHostWindowWrite at h_
  refine State.checked_kept (Dev.inOrder_kept _ _ _ fun d => ?_) h_
  unfold Dev.when
  grind -ring -linarith -order only [kept_iff, Dev.hostWrite_kept]
theorem execHostWindowRead_kept (off len : Nat) (s : State) {t_ : State} (h_ : execHostWindowRead off len s = .next
    t_) : Kept s.dev t_.dev := by
  unfold execHostWindowRead at h_
  refine State.checked_kept (Dev.inOrder_kept _ _ _ fun d => ?_) h_
  unfold Dev.when
  grind -ring -linarith -order only [kept_iff, Dev.hostRead_kept]
theorem execAtomicOpRequest_kept (bar : Fin 6) (off : Nat) (s : State) {t_ : State} (h_ : execAtomicOpRequest bar
    off s = .next t_) : Kept s.dev t_.dev := by
  unfold execAtomicOpRequest at h_
  refine State.hosted_kept (fun d => ?_) h_
  unfold Dev.when
  grind -ring -linarith -order only [kept_iff, Dev.emit_kept]
theorem execPennantGive_kept (w : Fin 4096) (v : Word) (s : State) {t_ : State} (h_ : execPennantGive w v s = .next
    t_) : Kept s.dev t_.dev := by
  unfold execPennantGive at h_
  refine State.hosted_kept (fun d => ?_) h_
  unfold Dev.when
  grind -ring -linarith -order only [kept_iff, Dev.setPennants_kept]
theorem execPennantTake_kept (w : Fin 4096) (v : Word) (s : State) {t_ : State} (h_ : execPennantTake w v s = .next
    t_) : Kept s.dev t_.dev := by
  unfold execPennantTake at h_
  refine State.hosted_kept (fun d => ?_) h_
  unfold Dev.when
  grind -ring -linarith -order only [kept_iff, Dev.setPennants_kept]
theorem execPennantStall_kept (page : Fin 131072) (s : State) {t_ : State} (h_ : execPennantStall page s = .next t_)
    : Kept s.dev t_.dev := by
  unfold execPennantStall at h_
  refine State.always_kept ?_ h_
  unfold Dev.when
  grind -ring -linarith -order only [kept_iff, Dev.stallPage_kept]
theorem execRingEnable_kept (g : RingNo) (v : Word) (s : State) {t_ : State} (h_ : execRingEnable g v s = .next t_)
    : Kept s.dev t_.dev := by
  unfold execRingEnable at h_
  refine State.hosted_kept (fun d => ?_) h_
  unfold Dev.when
  grind -ring -linarith -order only [kept_iff, Dev.ringEnable_kept]
theorem execRingDoorbell_kept (g : RingNo) (v : Word) (s : State) {t_ : State} (h_ : execRingDoorbell g v s = .next
    t_) : Kept s.dev t_.dev := by
  unfold execRingDoorbell at h_
  refine State.hosted_kept (fun d => ?_) h_
  unfold Dev.when
  grind -ring -linarith -order only [kept_iff, Dev.ringDoorbell_kept]
theorem execRingNop_kept (g : RingNo) (s : State) {t_ : State} (h_ : execRingNop g s = .next t_) : Kept s.dev t_.dev
    := by
  unfold execRingNop at h_
  refine State.always_kept ?_ h_
  grind -ring -linarith -order only [kept_iff, Dev.runEntry_kept]
theorem execRingMove_kept (g : RingNo) (s : State) {t_ : State} (h_ : execRingMove g s = .next t_) : Kept s.dev
    t_.dev := by
  unfold execRingMove at h_
  refine State.always_kept ?_ h_
  grind -ring -linarith -order only [kept_iff, Dev.runEntry_kept]
theorem execRingLayout_kept (g : RingNo) (s : State) {t_ : State} (h_ : execRingLayout g s = .next t_) : Kept s.dev
    t_.dev := by
  unfold execRingLayout at h_
  refine State.always_kept ?_ h_
  grind -ring -linarith -order only [kept_iff, Dev.runEntry_kept]
theorem execRingFill_kept (g : RingNo) (s : State) {t_ : State} (h_ : execRingFill g s = .next t_) : Kept s.dev
    t_.dev := by
  unfold execRingFill at h_
  refine State.always_kept ?_ h_
  grind -ring -linarith -order only [kept_iff, Dev.runEntry_kept]
theorem execRingGiveBack_kept (g : RingNo) (s : State) {t_ : State} (h_ : execRingGiveBack g s = .next t_) : Kept
    s.dev t_.dev := by
  unfold execRingGiveBack at h_
  refine State.always_kept ?_ h_
  grind -ring -linarith -order only [kept_iff, Dev.runEntry_kept]
theorem execRingEntryComplete_kept (g : RingNo) (s : State) {t_ : State} (h_ : execRingEntryComplete g s = .next t_)
    : Kept s.dev t_.dev := by
  unfold execRingEntryComplete at h_
  refine State.always_kept ?_ h_
  grind -ring -linarith -order only [kept_iff, Dev.completeEntry_kept]
theorem Dev.afterRead_kept (d : Dev) (off : Nat) : Kept d (Dev.afterRead d off) := by
  unfold Dev.afterRead
  grind -ring -linarith -order only [kept_iff, Dev.modStk_kept]
theorem Dev.read32_kept (d : Dev) (who : Agent) (off : Nat) : Kept d (Dev.read32 d who off).1 := by
  unfold Dev.read32
  grind -ring -linarith -order only [kept_iff, Dev.afterRead_kept, Dev.chipFault_kept, Dev.claimRead_kept,
    Dev.drawn_kept,
    Dev.setLatchedHalf_kept]
theorem Dev.read64_kept (d : Dev) (who : Agent) (off : Nat) : Kept d (Dev.read64 d who off).1 := by
  unfold Dev.read64
  grind -ring -linarith -order only [kept_iff, Dev.afterRead_kept, Dev.read32_kept]
theorem Dev.readAnswer_kept (d : Dev) (who : Agent) (bar off len v : Nat) : Kept d (Dev.readAnswer d who bar off len
    v) := by
  unfold Dev.readAnswer
  grind -ring -linarith -order only [kept_iff, Dev.emit_kept]
theorem Dev.readReg_kept (d : Dev) (who : Agent) (bar off len : Nat) : Kept d (Dev.readReg d who bar off len) := by
  unfold Dev.readReg
  grind -ring -linarith -order only [kept_iff, Dev.read32_kept, Dev.read64_kept, Dev.readAnswer_kept]
theorem execReg64LowerRead_kept (who : Agent) (bar : Fin 6) (off len : Nat) (s : State) {t_ : State} (h_ :
    execReg64LowerRead who bar off len s = .next t_) : Kept s.dev t_.dev := by
  unfold execReg64LowerRead at h_
  refine State.asked_kept (fun d => ?_) h_
  unfold Dev.when
  grind -ring -linarith -order only [kept_iff, Dev.readReg_kept]
theorem Dev.chipWrite_kept (d : Dev) (off v : Nat) : Kept d (Dev.chipWrite d off v) := by
  unfold Dev.chipWrite
  grind -ring -linarith -order only [kept_iff, Dev.deviceReset_kept, Dev.structCommit_kept]
theorem Dev.ringCfgWrite_kept (d : Dev) (g v : Nat) : Kept d (Dev.ringCfgWrite d g v) := by
  unfold Dev.ringCfgWrite
  grind -ring -linarith -order only [kept_iff, Dev.modRing_kept]
theorem Dev.hostRegWrite_kept (d : Dev) (off v : Nat) : Kept d (Dev.hostRegWrite d off v) := by
  unfold Dev.hostRegWrite
  grind -ring -linarith -order only [kept_iff, Dev.ringCfgWrite_kept, Dev.ringEnable_kept]
theorem Dev.pennantWrite_kept (d : Dev) (off v : Nat) : Kept d (Dev.pennantWrite d off v) := by
  unfold Dev.pennantWrite
  grind -ring -linarith -order only [kept_iff, Dev.setPennants_kept]
theorem Dev.ecRegWrite_kept (d : Dev) (who : Agent) (off v : Nat) : Kept d (Dev.ecRegWrite d who off v) := by
  unfold Dev.ecRegWrite
  grind only [kept_iff, Dev.cfgWrite_kept, Dev.eoi_kept, Dev.holdWrite_kept, Dev.maskWrite_kept, Dev.modeWrite_kept,
    Dev.pendingWrite_kept, Dev.runningWrite_kept]
theorem Dev.pwrWrite_kept (d : Dev) (v : Nat) : Kept d (Dev.pwrWrite d v) := by
  unfold Dev.pwrWrite
  grind -ring -linarith -order only [kept_iff]
theorem Dev.clkRegWrite_kept (d : Dev) (off v : Nat) : Kept d (Dev.clkRegWrite d off v) := by
  unfold Dev.clkRegWrite
  grind -ring -linarith -order only [kept_iff, Dev.clkWrite_kept, Dev.modTdie_kept, Dev.modThdie_kept,
    Dev.pwrWrite_kept]
theorem Dev.secRegWrite_kept (d : Dev) (off v : Nat) : Kept d (Dev.secRegWrite d off v) := by
  unfold Dev.secRegWrite
  grind -ring -linarith -order only [kept_iff, Dev.drawn_kept, Dev.flashUpdate_kept, Dev.fwPush_kept, Dev.reportGo_kept]
theorem Dev.cmdWrite_kept (d : Dev) (i c : Nat) : Kept d (Dev.cmdWrite d i c) := by
  unfold Dev.cmdWrite
  grind -ring -linarith -order only [kept_iff, Dev.modReq_kept, Dev.refuse_kept]
theorem Dev.reqWrite_kept (d : Dev) (i k v : Nat) : Kept d (Dev.reqWrite d i k v) := by
  unfold Dev.reqWrite
  grind -ring -linarith -order only [kept_iff, Dev.cmdWrite_kept, Dev.modReq_kept, Dev.prompt_kept]
theorem Dev.serveCtlWrite_kept (d : Dev) (v : Nat) : Kept d (Dev.serveCtlWrite d v) := by
  unfold Dev.serveCtlWrite
  grind -ring -linarith -order only [kept_iff]
theorem Dev.quantumWrite_kept (d : Dev) (n v : Nat) : Kept d (Dev.quantumWrite d n v) := by
  unfold Dev.quantumWrite
  grind -ring -linarith -order only [kept_iff, Dev.modDom_kept]
theorem Dev.bundleCmdWrite_kept (d : Dev) (v : Nat) : Kept d (Dev.bundleCmdWrite d v) := by
  unfold Dev.bundleCmdWrite
  grind -ring -linarith -order only [kept_iff]
theorem Dev.changedWrite_kept (d : Dev) (w v : Nat) : Kept d (Dev.changedWrite d w v) := by
  unfold Dev.changedWrite
  apply foldl_kept
  intro a x
  grind -ring -linarith -order only [kept_iff, Dev.changed_kept]
theorem Dev.engineWrite_kept (d : Dev) (o v : Nat) : Kept d (Dev.engineWrite d o v) := by
  unfold Dev.engineWrite
  grind -ring -linarith -order only [kept_iff, Dev.bundleCmdWrite_kept, Dev.changedWrite_kept, Dev.preemptWrite_kept,
    Dev.quantumWrite_kept,
    Dev.serveCtlWrite_kept, Dev.serveKick_kept]
theorem Dev.cacheCtlWrite_kept (d : Dev) (s v : Nat) : Kept d (Dev.cacheCtlWrite d s v) := by
  unfold Dev.cacheCtlWrite
  grind -ring -linarith -order only [kept_iff, Dev.modStk_kept, Dev.startDrop_kept]
theorem Dev.stackWrite_kept (d : Dev) (s o v : Nat) : Kept d (Dev.stackWrite d s o v) := by
  unfold Dev.stackWrite
  grind -ring -linarith -order only [kept_iff, Dev.cacheCtlWrite_kept, Dev.maskWrite_kept, Dev.modStk_kept,
    Dev.ruleWrite_kept]
theorem Dev.regionWrite_kept (d : Dev) (off v : Nat) : Kept d (Dev.regionWrite d off v) := by
  unfold Dev.regionWrite
  grind -ring -linarith -order only [kept_iff, Dev.modQueue_kept, Dev.stackWrite_kept]
theorem Dev.spanWrite_kept (d : Dev) (p v : Nat) : Kept d (Dev.spanWrite d p v) := by
  unfold Dev.spanWrite
  grind -ring -linarith -order only [kept_iff, Dev.modSpan_kept, Dev.spanRetrain_kept]
theorem Dev.twinCtlWrite_kept (d : Dev) (v : Nat) : Kept d (Dev.twinCtlWrite d v) := by
  unfold Dev.twinCtlWrite
  grind -ring -linarith -order only [kept_iff, Dev.detach_kept, Dev.tryAttach_kept]
theorem Dev.mcommitWrite_kept (d : Dev) (v : Nat) : Kept d (Dev.mcommitWrite d v) := by
  unfold Dev.mcommitWrite
  grind -ring -linarith -order only [kept_iff]
theorem Dev.linkWrite_kept (d : Dev) (off v : Nat) : Kept d (Dev.linkWrite d off v) := by
  unfold Dev.linkWrite
  grind -ring -linarith -order only [kept_iff, Dev.mcommitWrite_kept, Dev.promote_kept, Dev.spanWrite_kept,
    Dev.twinCtlWrite_kept]
theorem Dev.putReg_kept (d : Dev) (who : Agent) (off v : Nat) : Kept d (Dev.putReg d who off v) := by
  unfold Dev.putReg
  (repeat' split) <;> grind -ring -linarith -order only [kept_iff, Dev.chipWrite_kept, Dev.clkRegWrite_kept,
    Dev.custCredit_kept,
    Dev.ecRegWrite_kept, Dev.engineWrite_kept, Dev.hostRegWrite_kept, Dev.linkWrite_kept, Dev.pennantWrite_kept,
    Dev.regionWrite_kept, Dev.reqWrite_kept, Dev.secRegWrite_kept]
theorem Dev.cleanTable_kept (d : Dev) (off : Nat) : Kept d (Dev.cleanTable d off) := by
  unfold Dev.cleanTable
  grind -ring -linarith -order only [kept_iff]
theorem Dev.write32_kept (d : Dev) (who : Agent) (off v : Nat) : Kept d (Dev.write32 d who off v) := by
  unfold Dev.write32
  grind -ring -linarith -order only [kept_iff, Dev.cleanTable_kept, Dev.putReg_kept, Dev.setHeldHalf_kept]
theorem Dev.write64_kept (d : Dev) (who : Agent) (off v : Nat) : Kept d (Dev.write64 d who off v) := by
  unfold Dev.write64
  grind -ring -linarith -order only [kept_iff, Dev.cleanTable_kept, Dev.putReg_kept, Dev.setHeldHalf_kept,
    Dev.write32_kept]
theorem Dev.bar4Write_kept (d : Dev) (off v : Nat) : Kept d (Dev.bar4Write d off v) := by
  unfold Dev.bar4Write
  grind -ring -linarith -order only [kept_iff, Dev.flushVectors_kept, Dev.modMsixEntry_kept, Dev.ringDoorbell_kept,
    Dev.sourceDoorbell_kept]
theorem Dev.writeReg_kept (d : Dev) (who : Agent) (bar off len v : Nat) : Kept d (Dev.writeReg d who bar off len v)
    := by
  unfold Dev.writeReg
  grind -ring -linarith -order only [kept_iff, Dev.bar4Write_kept, Dev.write32_kept, Dev.write64_kept]
theorem execRegisterWrite_kept (who : Agent) (bar : Fin 6) (off len : Nat) (v : BitVec 64) (s : State) {t_ : State}
    (h_ : execRegisterWrite who bar off len v s = .next t_) : Kept s.dev t_.dev := by
  unfold execRegisterWrite at h_
  refine State.asked_kept (fun d => ?_) h_
  unfold Dev.when
  grind -ring -linarith -order only [kept_iff, Dev.writeReg_kept]
theorem Dev.fetchOn_kept (d : Dev) : Kept d (Dev.fetchOn d) := by
  unfold Dev.fetchOn
  apply foldl_kept
  intro a x
  grind -ring -linarith -order only [kept_iff, Dev.fetchRing_kept, Dev.fetched_kept]
theorem Dev.resumed_kept (d : Dev) : Kept d (Dev.resumed d) := by
  unfold Dev.resumed
  grind -ring -linarith -order only [kept_iff, Dev.copyOn_kept, Dev.fetchOn_kept, Dev.flashOn_kept, Dev.imageOn_kept,
      Dev.judgeAgain_kept,
    Dev.postOn_kept, Dev.promoteOn_kept]
theorem Dev.cycle_kept (d : Dev) : Kept d (Dev.cycle d) := by
  unfold Dev.cycle
  grind -ring -linarith -order only [kept_iff, Dev.resumed_kept, Dev.tick_kept]

end Sys2Proof.Machine
end

