-- ==== Sys2Proof/Laws/State.lean ====
section
/-! SUPPORT. Updates of the device: for each accessor the fields that it leaves as they were, and the value it reads
back;
the shared operations over the log, the counters and the inbox likewise. -/

namespace Sys2Proof.Machine
open Sys2Proof

/-! ### Fields that an update leaves as they were -/

@[simp] theorem Dev.setCtr_keeps (d : Dev) (k : Nat) (x : Counter) :
    (d.setCtr k x).free = d.free ∧ (d.setCtr k x).now = d.now ∧ (d.setCtr k x).out = d.out ∧ (d.setCtr k x).fuses =
    d.fuses ∧ (d.setCtr k x).pins = d.pins ∧ (d.setCtr k x).chip = d.chip ∧ (d.setCtr k x).held = d.held ∧
    (d.setCtr k x).latched = d.latched ∧ (d.setCtr k x).host = d.host ∧ (d.setCtr k x).ec = d.ec ∧ (d.setCtr k
    x).clk = d.clk ∧ (d.setCtr k x).therm = d.therm ∧ (d.setCtr k x).sec = d.sec ∧ (d.setCtr k x).img = d.img ∧
    (d.setCtr k x).serve = d.serve ∧ (d.setCtr k x).doms = d.doms ∧ (d.setCtr k x).bcmd = d.bcmd ∧ (d.setCtr k
    x).flags = d.flags ∧ (d.setCtr k x).waiters = d.waiters ∧ (d.setCtr k x).queues = d.queues ∧ (d.setCtr k
    x).regions = d.regions ∧ (d.setCtr k x).blocks = d.blocks ∧ (d.setCtr k x).imem = d.imem ∧ (d.setCtr k
    x).bufregs = d.bufregs ∧ (d.setCtr k x).cells = d.cells ∧ (d.setCtr k x).scratch = d.scratch ∧ (d.setCtr k
    x).bbuf = d.bbuf ∧ (d.setCtr k x).sramEpoch = d.sramEpoch ∧ (d.setCtr k x).badScratch = d.badScratch ∧
    (d.setCtr k x).badBbuf = d.badBbuf ∧ (d.setCtr k x).badImem = d.badImem ∧ (d.setCtr k x).badXnet = d.badXnet ∧
    (d.setCtr k x).badTables = d.badTables ∧ (d.setCtr k x).stks = d.stks ∧ (d.setCtr k x).bcells = d.bcells ∧
    (d.setCtr k x).abuf = d.abuf ∧ (d.setCtr k x).accs = d.accs ∧ (d.setCtr k x).bauEpoch = d.bauEpoch ∧ (d.setCtr
    k x).dram = d.dram ∧ (d.setCtr k x).parity = d.parity ∧ (d.setCtr k x).net = d.net ∧ (d.setCtr k x).twin =
    d.twin ∧ (d.setCtr k x).tap = d.tap ∧ (d.setCtr k x).pathScratch = d.pathScratch ∧ (d.setCtr k x).pathBbuf =
    d.pathBbuf ∧ (d.setCtr k x).pathImem = d.pathImem ∧ (d.setCtr k x).pathXnet = d.pathXnet ∧ (d.setCtr k
    x).served = d.served ∧ (d.setCtr k x).badPath = d.badPath := by
  simp [Dev.setCtr]

@[simp] theorem Dev.setFlag_keeps (d : Dev) (k : Nat) (x : Nat) :
    (d.setFlag k x).free = d.free ∧ (d.setFlag k x).now = d.now ∧ (d.setFlag k x).out = d.out ∧ (d.setFlag k
    x).fuses = d.fuses ∧ (d.setFlag k x).pins = d.pins ∧ (d.setFlag k x).chip = d.chip ∧ (d.setFlag k x).held =
    d.held ∧ (d.setFlag k x).latched = d.latched ∧ (d.setFlag k x).counters = d.counters ∧ (d.setFlag k x).host =
    d.host ∧ (d.setFlag k x).ec = d.ec ∧ (d.setFlag k x).clk = d.clk ∧ (d.setFlag k x).therm = d.therm ∧ (d.setFlag
    k x).sec = d.sec ∧ (d.setFlag k x).img = d.img ∧ (d.setFlag k x).serve = d.serve ∧ (d.setFlag k x).doms =
    d.doms ∧ (d.setFlag k x).bcmd = d.bcmd ∧ (d.setFlag k x).waiters = d.waiters ∧ (d.setFlag k x).queues =
    d.queues ∧ (d.setFlag k x).regions = d.regions ∧ (d.setFlag k x).blocks = d.blocks ∧ (d.setFlag k x).imem =
    d.imem ∧ (d.setFlag k x).bufregs = d.bufregs ∧ (d.setFlag k x).cells = d.cells ∧ (d.setFlag k x).scratch =
    d.scratch ∧ (d.setFlag k x).bbuf = d.bbuf ∧ (d.setFlag k x).sramEpoch = d.sramEpoch ∧ (d.setFlag k
    x).badScratch = d.badScratch ∧ (d.setFlag k x).badBbuf = d.badBbuf ∧ (d.setFlag k x).badImem = d.badImem ∧
    (d.setFlag k x).badXnet = d.badXnet ∧ (d.setFlag k x).badTables = d.badTables ∧ (d.setFlag k x).stks = d.stks ∧
    (d.setFlag k x).bcells = d.bcells ∧ (d.setFlag k x).abuf = d.abuf ∧ (d.setFlag k x).accs = d.accs ∧ (d.setFlag
    k x).bauEpoch = d.bauEpoch ∧ (d.setFlag k x).dram = d.dram ∧ (d.setFlag k x).parity = d.parity ∧ (d.setFlag k
    x).net = d.net ∧ (d.setFlag k x).twin = d.twin ∧ (d.setFlag k x).tap = d.tap ∧ (d.setFlag k x).pathScratch =
    d.pathScratch ∧ (d.setFlag k x).pathBbuf = d.pathBbuf ∧ (d.setFlag k x).pathImem = d.pathImem ∧ (d.setFlag k
    x).pathXnet = d.pathXnet ∧ (d.setFlag k x).served = d.served ∧ (d.setFlag k x).badPath = d.badPath := by
  simp [Dev.setFlag]

@[simp] theorem Dev.setWaitq_keeps (d : Dev) (k : Nat) (x : List Nat) :
    (d.setWaitq k x).free = d.free ∧ (d.setWaitq k x).now = d.now ∧ (d.setWaitq k x).out = d.out ∧ (d.setWaitq k
    x).fuses = d.fuses ∧ (d.setWaitq k x).pins = d.pins ∧ (d.setWaitq k x).chip = d.chip ∧ (d.setWaitq k x).held =
    d.held ∧ (d.setWaitq k x).latched = d.latched ∧ (d.setWaitq k x).counters = d.counters ∧ (d.setWaitq k x).host
    = d.host ∧ (d.setWaitq k x).ec = d.ec ∧ (d.setWaitq k x).clk = d.clk ∧ (d.setWaitq k x).therm = d.therm ∧
    (d.setWaitq k x).sec = d.sec ∧ (d.setWaitq k x).img = d.img ∧ (d.setWaitq k x).serve = d.serve ∧ (d.setWaitq k
    x).doms = d.doms ∧ (d.setWaitq k x).bcmd = d.bcmd ∧ (d.setWaitq k x).flags = d.flags ∧ (d.setWaitq k x).queues
    = d.queues ∧ (d.setWaitq k x).regions = d.regions ∧ (d.setWaitq k x).blocks = d.blocks ∧ (d.setWaitq k x).imem
    = d.imem ∧ (d.setWaitq k x).bufregs = d.bufregs ∧ (d.setWaitq k x).cells = d.cells ∧ (d.setWaitq k x).scratch =
    d.scratch ∧ (d.setWaitq k x).bbuf = d.bbuf ∧ (d.setWaitq k x).sramEpoch = d.sramEpoch ∧ (d.setWaitq k
    x).badScratch = d.badScratch ∧ (d.setWaitq k x).badBbuf = d.badBbuf ∧ (d.setWaitq k x).badImem = d.badImem ∧
    (d.setWaitq k x).badXnet = d.badXnet ∧ (d.setWaitq k x).badTables = d.badTables ∧ (d.setWaitq k x).stks =
    d.stks ∧ (d.setWaitq k x).bcells = d.bcells ∧ (d.setWaitq k x).abuf = d.abuf ∧ (d.setWaitq k x).accs = d.accs ∧
    (d.setWaitq k x).bauEpoch = d.bauEpoch ∧ (d.setWaitq k x).dram = d.dram ∧ (d.setWaitq k x).parity = d.parity ∧
    (d.setWaitq k x).net = d.net ∧ (d.setWaitq k x).twin = d.twin ∧ (d.setWaitq k x).tap = d.tap ∧ (d.setWaitq k
    x).pathScratch = d.pathScratch ∧ (d.setWaitq k x).pathBbuf = d.pathBbuf ∧ (d.setWaitq k x).pathImem =
    d.pathImem ∧ (d.setWaitq k x).pathXnet = d.pathXnet ∧ (d.setWaitq k x).served = d.served ∧ (d.setWaitq k
    x).badPath = d.badPath := by
  simp [Dev.setWaitq]

@[simp] theorem Dev.setQueue_keeps (d : Dev) (k : Nat) (x : Queue) :
    (d.setQueue k x).free = d.free ∧ (d.setQueue k x).now = d.now ∧ (d.setQueue k x).out = d.out ∧ (d.setQueue k
    x).fuses = d.fuses ∧ (d.setQueue k x).pins = d.pins ∧ (d.setQueue k x).chip = d.chip ∧ (d.setQueue k x).held =
    d.held ∧ (d.setQueue k x).latched = d.latched ∧ (d.setQueue k x).counters = d.counters ∧ (d.setQueue k x).host
    = d.host ∧ (d.setQueue k x).ec = d.ec ∧ (d.setQueue k x).clk = d.clk ∧ (d.setQueue k x).therm = d.therm ∧
    (d.setQueue k x).sec = d.sec ∧ (d.setQueue k x).img = d.img ∧ (d.setQueue k x).serve = d.serve ∧ (d.setQueue k
    x).doms = d.doms ∧ (d.setQueue k x).bcmd = d.bcmd ∧ (d.setQueue k x).flags = d.flags ∧ (d.setQueue k x).waiters
    = d.waiters ∧ (d.setQueue k x).regions = d.regions ∧ (d.setQueue k x).blocks = d.blocks ∧ (d.setQueue k x).imem
    = d.imem ∧ (d.setQueue k x).bufregs = d.bufregs ∧ (d.setQueue k x).cells = d.cells ∧ (d.setQueue k x).scratch =
    d.scratch ∧ (d.setQueue k x).bbuf = d.bbuf ∧ (d.setQueue k x).sramEpoch = d.sramEpoch ∧ (d.setQueue k
    x).badScratch = d.badScratch ∧ (d.setQueue k x).badBbuf = d.badBbuf ∧ (d.setQueue k x).badImem = d.badImem ∧
    (d.setQueue k x).badXnet = d.badXnet ∧ (d.setQueue k x).badTables = d.badTables ∧ (d.setQueue k x).stks =
    d.stks ∧ (d.setQueue k x).bcells = d.bcells ∧ (d.setQueue k x).abuf = d.abuf ∧ (d.setQueue k x).accs = d.accs ∧
    (d.setQueue k x).bauEpoch = d.bauEpoch ∧ (d.setQueue k x).dram = d.dram ∧ (d.setQueue k x).parity = d.parity ∧
    (d.setQueue k x).net = d.net ∧ (d.setQueue k x).twin = d.twin ∧ (d.setQueue k x).tap = d.tap ∧ (d.setQueue k
    x).pathScratch = d.pathScratch ∧ (d.setQueue k x).pathBbuf = d.pathBbuf ∧ (d.setQueue k x).pathImem =
    d.pathImem ∧ (d.setQueue k x).pathXnet = d.pathXnet ∧ (d.setQueue k x).served = d.served ∧ (d.setQueue k
    x).badPath = d.badPath := by
  simp [Dev.setQueue]

@[simp] theorem Dev.setRegion_keeps (d : Dev) (k : Nat) (x : RegionSt) :
    (d.setRegion k x).free = d.free ∧ (d.setRegion k x).now = d.now ∧ (d.setRegion k x).out = d.out ∧ (d.setRegion
    k x).fuses = d.fuses ∧ (d.setRegion k x).pins = d.pins ∧ (d.setRegion k x).chip = d.chip ∧ (d.setRegion k
    x).held = d.held ∧ (d.setRegion k x).latched = d.latched ∧ (d.setRegion k x).counters = d.counters ∧
    (d.setRegion k x).host = d.host ∧ (d.setRegion k x).ec = d.ec ∧ (d.setRegion k x).clk = d.clk ∧ (d.setRegion k
    x).therm = d.therm ∧ (d.setRegion k x).sec = d.sec ∧ (d.setRegion k x).img = d.img ∧ (d.setRegion k x).serve =
    d.serve ∧ (d.setRegion k x).doms = d.doms ∧ (d.setRegion k x).bcmd = d.bcmd ∧ (d.setRegion k x).flags = d.flags
    ∧ (d.setRegion k x).waiters = d.waiters ∧ (d.setRegion k x).queues = d.queues ∧ (d.setRegion k x).blocks =
    d.blocks ∧ (d.setRegion k x).imem = d.imem ∧ (d.setRegion k x).bufregs = d.bufregs ∧ (d.setRegion k x).cells =
    d.cells ∧ (d.setRegion k x).scratch = d.scratch ∧ (d.setRegion k x).bbuf = d.bbuf ∧ (d.setRegion k x).sramEpoch
    = d.sramEpoch ∧ (d.setRegion k x).badScratch = d.badScratch ∧ (d.setRegion k x).badBbuf = d.badBbuf ∧
    (d.setRegion k x).badImem = d.badImem ∧ (d.setRegion k x).badXnet = d.badXnet ∧ (d.setRegion k x).badTables =
    d.badTables ∧ (d.setRegion k x).stks = d.stks ∧ (d.setRegion k x).bcells = d.bcells ∧ (d.setRegion k x).abuf =
    d.abuf ∧ (d.setRegion k x).accs = d.accs ∧ (d.setRegion k x).bauEpoch = d.bauEpoch ∧ (d.setRegion k x).dram =
    d.dram ∧ (d.setRegion k x).parity = d.parity ∧ (d.setRegion k x).net = d.net ∧ (d.setRegion k x).twin = d.twin
    ∧ (d.setRegion k x).tap = d.tap ∧ (d.setRegion k x).pathScratch = d.pathScratch ∧ (d.setRegion k x).pathBbuf =
    d.pathBbuf ∧ (d.setRegion k x).pathImem = d.pathImem ∧ (d.setRegion k x).pathXnet = d.pathXnet ∧ (d.setRegion k
    x).served = d.served ∧ (d.setRegion k x).badPath = d.badPath := by
  simp [Dev.setRegion]

@[simp] theorem Dev.setBlk_keeps (d : Dev) (k : Nat) (x : BlockSt) :
    (d.setBlk k x).free = d.free ∧ (d.setBlk k x).now = d.now ∧ (d.setBlk k x).out = d.out ∧ (d.setBlk k x).fuses =
    d.fuses ∧ (d.setBlk k x).pins = d.pins ∧ (d.setBlk k x).chip = d.chip ∧ (d.setBlk k x).held = d.held ∧
    (d.setBlk k x).latched = d.latched ∧ (d.setBlk k x).counters = d.counters ∧ (d.setBlk k x).host = d.host ∧
    (d.setBlk k x).ec = d.ec ∧ (d.setBlk k x).clk = d.clk ∧ (d.setBlk k x).therm = d.therm ∧ (d.setBlk k x).sec =
    d.sec ∧ (d.setBlk k x).img = d.img ∧ (d.setBlk k x).serve = d.serve ∧ (d.setBlk k x).doms = d.doms ∧ (d.setBlk
    k x).bcmd = d.bcmd ∧ (d.setBlk k x).flags = d.flags ∧ (d.setBlk k x).waiters = d.waiters ∧ (d.setBlk k
    x).queues = d.queues ∧ (d.setBlk k x).regions = d.regions ∧ (d.setBlk k x).imem = d.imem ∧ (d.setBlk k
    x).bufregs = d.bufregs ∧ (d.setBlk k x).cells = d.cells ∧ (d.setBlk k x).scratch = d.scratch ∧ (d.setBlk k
    x).bbuf = d.bbuf ∧ (d.setBlk k x).sramEpoch = d.sramEpoch ∧ (d.setBlk k x).badScratch = d.badScratch ∧
    (d.setBlk k x).badBbuf = d.badBbuf ∧ (d.setBlk k x).badImem = d.badImem ∧ (d.setBlk k x).badXnet = d.badXnet ∧
    (d.setBlk k x).badTables = d.badTables ∧ (d.setBlk k x).stks = d.stks ∧ (d.setBlk k x).bcells = d.bcells ∧
    (d.setBlk k x).abuf = d.abuf ∧ (d.setBlk k x).accs = d.accs ∧ (d.setBlk k x).bauEpoch = d.bauEpoch ∧ (d.setBlk
    k x).dram = d.dram ∧ (d.setBlk k x).parity = d.parity ∧ (d.setBlk k x).net = d.net ∧ (d.setBlk k x).twin =
    d.twin ∧ (d.setBlk k x).tap = d.tap ∧ (d.setBlk k x).pathScratch = d.pathScratch ∧ (d.setBlk k x).pathBbuf =
    d.pathBbuf ∧ (d.setBlk k x).pathImem = d.pathImem ∧ (d.setBlk k x).pathXnet = d.pathXnet ∧ (d.setBlk k
    x).served = d.served ∧ (d.setBlk k x).badPath = d.badPath := by
  simp [Dev.setBlk]

@[simp] theorem Dev.setOpword_keeps (d : Dev) (k : Nat) (x : Nat) :
    (d.setOpword k x).free = d.free ∧ (d.setOpword k x).now = d.now ∧ (d.setOpword k x).out = d.out ∧ (d.setOpword
    k x).fuses = d.fuses ∧ (d.setOpword k x).pins = d.pins ∧ (d.setOpword k x).chip = d.chip ∧ (d.setOpword k
    x).held = d.held ∧ (d.setOpword k x).latched = d.latched ∧ (d.setOpword k x).counters = d.counters ∧
    (d.setOpword k x).host = d.host ∧ (d.setOpword k x).ec = d.ec ∧ (d.setOpword k x).clk = d.clk ∧ (d.setOpword k
    x).therm = d.therm ∧ (d.setOpword k x).sec = d.sec ∧ (d.setOpword k x).img = d.img ∧ (d.setOpword k x).serve =
    d.serve ∧ (d.setOpword k x).doms = d.doms ∧ (d.setOpword k x).bcmd = d.bcmd ∧ (d.setOpword k x).flags = d.flags
    ∧ (d.setOpword k x).waiters = d.waiters ∧ (d.setOpword k x).queues = d.queues ∧ (d.setOpword k x).regions =
    d.regions ∧ (d.setOpword k x).blocks = d.blocks ∧ (d.setOpword k x).bufregs = d.bufregs ∧ (d.setOpword k
    x).cells = d.cells ∧ (d.setOpword k x).scratch = d.scratch ∧ (d.setOpword k x).bbuf = d.bbuf ∧ (d.setOpword k
    x).sramEpoch = d.sramEpoch ∧ (d.setOpword k x).badScratch = d.badScratch ∧ (d.setOpword k x).badBbuf =
    d.badBbuf ∧ (d.setOpword k x).badImem = d.badImem ∧ (d.setOpword k x).badXnet = d.badXnet ∧ (d.setOpword k
    x).badTables = d.badTables ∧ (d.setOpword k x).stks = d.stks ∧ (d.setOpword k x).bcells = d.bcells ∧
    (d.setOpword k x).abuf = d.abuf ∧ (d.setOpword k x).accs = d.accs ∧ (d.setOpword k x).bauEpoch = d.bauEpoch ∧
    (d.setOpword k x).dram = d.dram ∧ (d.setOpword k x).parity = d.parity ∧ (d.setOpword k x).net = d.net ∧
    (d.setOpword k x).twin = d.twin ∧ (d.setOpword k x).tap = d.tap ∧ (d.setOpword k x).pathScratch = d.pathScratch
    ∧ (d.setOpword k x).pathBbuf = d.pathBbuf ∧ (d.setOpword k x).pathImem = d.pathImem ∧ (d.setOpword k
    x).pathXnet = d.pathXnet ∧ (d.setOpword k x).served = d.served ∧ (d.setOpword k x).badPath = d.badPath := by
  simp [Dev.setOpword]

@[simp] theorem Dev.setBufreg_keeps (d : Dev) (k : Nat) (x : Word) :
    (d.setBufreg k x).free = d.free ∧ (d.setBufreg k x).now = d.now ∧ (d.setBufreg k x).out = d.out ∧ (d.setBufreg
    k x).fuses = d.fuses ∧ (d.setBufreg k x).pins = d.pins ∧ (d.setBufreg k x).chip = d.chip ∧ (d.setBufreg k
    x).held = d.held ∧ (d.setBufreg k x).latched = d.latched ∧ (d.setBufreg k x).counters = d.counters ∧
    (d.setBufreg k x).host = d.host ∧ (d.setBufreg k x).ec = d.ec ∧ (d.setBufreg k x).clk = d.clk ∧ (d.setBufreg k
    x).therm = d.therm ∧ (d.setBufreg k x).sec = d.sec ∧ (d.setBufreg k x).img = d.img ∧ (d.setBufreg k x).serve =
    d.serve ∧ (d.setBufreg k x).doms = d.doms ∧ (d.setBufreg k x).bcmd = d.bcmd ∧ (d.setBufreg k x).flags = d.flags
    ∧ (d.setBufreg k x).waiters = d.waiters ∧ (d.setBufreg k x).queues = d.queues ∧ (d.setBufreg k x).regions =
    d.regions ∧ (d.setBufreg k x).blocks = d.blocks ∧ (d.setBufreg k x).imem = d.imem ∧ (d.setBufreg k x).cells =
    d.cells ∧ (d.setBufreg k x).scratch = d.scratch ∧ (d.setBufreg k x).bbuf = d.bbuf ∧ (d.setBufreg k x).sramEpoch
    = d.sramEpoch ∧ (d.setBufreg k x).badScratch = d.badScratch ∧ (d.setBufreg k x).badBbuf = d.badBbuf ∧
    (d.setBufreg k x).badImem = d.badImem ∧ (d.setBufreg k x).badXnet = d.badXnet ∧ (d.setBufreg k x).badTables =
    d.badTables ∧ (d.setBufreg k x).stks = d.stks ∧ (d.setBufreg k x).bcells = d.bcells ∧ (d.setBufreg k x).abuf =
    d.abuf ∧ (d.setBufreg k x).accs = d.accs ∧ (d.setBufreg k x).bauEpoch = d.bauEpoch ∧ (d.setBufreg k x).dram =
    d.dram ∧ (d.setBufreg k x).parity = d.parity ∧ (d.setBufreg k x).net = d.net ∧ (d.setBufreg k x).twin = d.twin
    ∧ (d.setBufreg k x).tap = d.tap ∧ (d.setBufreg k x).pathScratch = d.pathScratch ∧ (d.setBufreg k x).pathBbuf =
    d.pathBbuf ∧ (d.setBufreg k x).pathImem = d.pathImem ∧ (d.setBufreg k x).pathXnet = d.pathXnet ∧ (d.setBufreg k
    x).served = d.served ∧ (d.setBufreg k x).badPath = d.badPath := by
  simp [Dev.setBufreg]

@[simp] theorem Dev.setCell_keeps (d : Dev) (k : Nat) (x : CellSt) :
    (d.setCell k x).free = d.free ∧ (d.setCell k x).now = d.now ∧ (d.setCell k x).out = d.out ∧ (d.setCell k
    x).fuses = d.fuses ∧ (d.setCell k x).pins = d.pins ∧ (d.setCell k x).chip = d.chip ∧ (d.setCell k x).held =
    d.held ∧ (d.setCell k x).latched = d.latched ∧ (d.setCell k x).counters = d.counters ∧ (d.setCell k x).host =
    d.host ∧ (d.setCell k x).ec = d.ec ∧ (d.setCell k x).clk = d.clk ∧ (d.setCell k x).therm = d.therm ∧ (d.setCell
    k x).sec = d.sec ∧ (d.setCell k x).img = d.img ∧ (d.setCell k x).serve = d.serve ∧ (d.setCell k x).doms =
    d.doms ∧ (d.setCell k x).bcmd = d.bcmd ∧ (d.setCell k x).flags = d.flags ∧ (d.setCell k x).waiters = d.waiters
    ∧ (d.setCell k x).queues = d.queues ∧ (d.setCell k x).regions = d.regions ∧ (d.setCell k x).blocks = d.blocks ∧
    (d.setCell k x).imem = d.imem ∧ (d.setCell k x).bufregs = d.bufregs ∧ (d.setCell k x).scratch = d.scratch ∧
    (d.setCell k x).bbuf = d.bbuf ∧ (d.setCell k x).sramEpoch = d.sramEpoch ∧ (d.setCell k x).badScratch =
    d.badScratch ∧ (d.setCell k x).badBbuf = d.badBbuf ∧ (d.setCell k x).badImem = d.badImem ∧ (d.setCell k
    x).badXnet = d.badXnet ∧ (d.setCell k x).badTables = d.badTables ∧ (d.setCell k x).stks = d.stks ∧ (d.setCell k
    x).bcells = d.bcells ∧ (d.setCell k x).abuf = d.abuf ∧ (d.setCell k x).accs = d.accs ∧ (d.setCell k x).bauEpoch
    = d.bauEpoch ∧ (d.setCell k x).dram = d.dram ∧ (d.setCell k x).parity = d.parity ∧ (d.setCell k x).net = d.net
    ∧ (d.setCell k x).twin = d.twin ∧ (d.setCell k x).tap = d.tap ∧ (d.setCell k x).pathScratch = d.pathScratch ∧
    (d.setCell k x).pathBbuf = d.pathBbuf ∧ (d.setCell k x).pathImem = d.pathImem ∧ (d.setCell k x).pathXnet =
    d.pathXnet ∧ (d.setCell k x).served = d.served ∧ (d.setCell k x).badPath = d.badPath := by
  simp [Dev.setCell]

@[simp] theorem Dev.setStk_keeps (d : Dev) (k : Nat) (x : StackSt) :
    (d.setStk k x).free = d.free ∧ (d.setStk k x).now = d.now ∧ (d.setStk k x).out = d.out ∧ (d.setStk k x).fuses =
    d.fuses ∧ (d.setStk k x).pins = d.pins ∧ (d.setStk k x).chip = d.chip ∧ (d.setStk k x).held = d.held ∧
    (d.setStk k x).latched = d.latched ∧ (d.setStk k x).counters = d.counters ∧ (d.setStk k x).host = d.host ∧
    (d.setStk k x).ec = d.ec ∧ (d.setStk k x).clk = d.clk ∧ (d.setStk k x).therm = d.therm ∧ (d.setStk k x).sec =
    d.sec ∧ (d.setStk k x).img = d.img ∧ (d.setStk k x).serve = d.serve ∧ (d.setStk k x).doms = d.doms ∧ (d.setStk
    k x).bcmd = d.bcmd ∧ (d.setStk k x).flags = d.flags ∧ (d.setStk k x).waiters = d.waiters ∧ (d.setStk k
    x).queues = d.queues ∧ (d.setStk k x).regions = d.regions ∧ (d.setStk k x).blocks = d.blocks ∧ (d.setStk k
    x).imem = d.imem ∧ (d.setStk k x).bufregs = d.bufregs ∧ (d.setStk k x).cells = d.cells ∧ (d.setStk k x).scratch
    = d.scratch ∧ (d.setStk k x).bbuf = d.bbuf ∧ (d.setStk k x).sramEpoch = d.sramEpoch ∧ (d.setStk k x).badScratch
    = d.badScratch ∧ (d.setStk k x).badBbuf = d.badBbuf ∧ (d.setStk k x).badImem = d.badImem ∧ (d.setStk k
    x).badXnet = d.badXnet ∧ (d.setStk k x).badTables = d.badTables ∧ (d.setStk k x).bcells = d.bcells ∧ (d.setStk
    k x).abuf = d.abuf ∧ (d.setStk k x).accs = d.accs ∧ (d.setStk k x).bauEpoch = d.bauEpoch ∧ (d.setStk k x).dram
    = d.dram ∧ (d.setStk k x).parity = d.parity ∧ (d.setStk k x).net = d.net ∧ (d.setStk k x).twin = d.twin ∧
    (d.setStk k x).tap = d.tap ∧ (d.setStk k x).pathScratch = d.pathScratch ∧ (d.setStk k x).pathBbuf = d.pathBbuf
    ∧ (d.setStk k x).pathImem = d.pathImem ∧ (d.setStk k x).pathXnet = d.pathXnet ∧ (d.setStk k x).served =
    d.served ∧ (d.setStk k x).badPath = d.badPath := by
  simp [Dev.setStk]

@[simp] theorem Dev.setBcell_keeps (d : Dev) (k : Nat) (x : BCell) :
    (d.setBcell k x).free = d.free ∧ (d.setBcell k x).now = d.now ∧ (d.setBcell k x).out = d.out ∧ (d.setBcell k
    x).fuses = d.fuses ∧ (d.setBcell k x).pins = d.pins ∧ (d.setBcell k x).chip = d.chip ∧ (d.setBcell k x).held =
    d.held ∧ (d.setBcell k x).latched = d.latched ∧ (d.setBcell k x).counters = d.counters ∧ (d.setBcell k x).host
    = d.host ∧ (d.setBcell k x).ec = d.ec ∧ (d.setBcell k x).clk = d.clk ∧ (d.setBcell k x).therm = d.therm ∧
    (d.setBcell k x).sec = d.sec ∧ (d.setBcell k x).img = d.img ∧ (d.setBcell k x).serve = d.serve ∧ (d.setBcell k
    x).doms = d.doms ∧ (d.setBcell k x).bcmd = d.bcmd ∧ (d.setBcell k x).flags = d.flags ∧ (d.setBcell k x).waiters
    = d.waiters ∧ (d.setBcell k x).queues = d.queues ∧ (d.setBcell k x).regions = d.regions ∧ (d.setBcell k
    x).blocks = d.blocks ∧ (d.setBcell k x).imem = d.imem ∧ (d.setBcell k x).bufregs = d.bufregs ∧ (d.setBcell k
    x).cells = d.cells ∧ (d.setBcell k x).scratch = d.scratch ∧ (d.setBcell k x).bbuf = d.bbuf ∧ (d.setBcell k
    x).sramEpoch = d.sramEpoch ∧ (d.setBcell k x).badScratch = d.badScratch ∧ (d.setBcell k x).badBbuf = d.badBbuf
    ∧ (d.setBcell k x).badImem = d.badImem ∧ (d.setBcell k x).badXnet = d.badXnet ∧ (d.setBcell k x).badTables =
    d.badTables ∧ (d.setBcell k x).stks = d.stks ∧ (d.setBcell k x).abuf = d.abuf ∧ (d.setBcell k x).accs = d.accs
    ∧ (d.setBcell k x).bauEpoch = d.bauEpoch ∧ (d.setBcell k x).dram = d.dram ∧ (d.setBcell k x).parity = d.parity
    ∧ (d.setBcell k x).net = d.net ∧ (d.setBcell k x).twin = d.twin ∧ (d.setBcell k x).tap = d.tap ∧ (d.setBcell k
    x).pathScratch = d.pathScratch ∧ (d.setBcell k x).pathBbuf = d.pathBbuf ∧ (d.setBcell k x).pathImem =
    d.pathImem ∧ (d.setBcell k x).pathXnet = d.pathXnet ∧ (d.setBcell k x).served = d.served ∧ (d.setBcell k
    x).badPath = d.badPath := by
  simp [Dev.setBcell]

@[simp] theorem Dev.setDom_keeps (d : Dev) (k : Nat) (x : Dom) :
    (d.setDom k x).free = d.free ∧ (d.setDom k x).now = d.now ∧ (d.setDom k x).out = d.out ∧ (d.setDom k x).fuses =
    d.fuses ∧ (d.setDom k x).pins = d.pins ∧ (d.setDom k x).chip = d.chip ∧ (d.setDom k x).held = d.held ∧
    (d.setDom k x).latched = d.latched ∧ (d.setDom k x).counters = d.counters ∧ (d.setDom k x).host = d.host ∧
    (d.setDom k x).ec = d.ec ∧ (d.setDom k x).clk = d.clk ∧ (d.setDom k x).therm = d.therm ∧ (d.setDom k x).sec =
    d.sec ∧ (d.setDom k x).img = d.img ∧ (d.setDom k x).serve = d.serve ∧ (d.setDom k x).bcmd = d.bcmd ∧ (d.setDom
    k x).flags = d.flags ∧ (d.setDom k x).waiters = d.waiters ∧ (d.setDom k x).queues = d.queues ∧ (d.setDom k
    x).regions = d.regions ∧ (d.setDom k x).blocks = d.blocks ∧ (d.setDom k x).imem = d.imem ∧ (d.setDom k
    x).bufregs = d.bufregs ∧ (d.setDom k x).cells = d.cells ∧ (d.setDom k x).scratch = d.scratch ∧ (d.setDom k
    x).bbuf = d.bbuf ∧ (d.setDom k x).sramEpoch = d.sramEpoch ∧ (d.setDom k x).badScratch = d.badScratch ∧
    (d.setDom k x).badBbuf = d.badBbuf ∧ (d.setDom k x).badImem = d.badImem ∧ (d.setDom k x).badXnet = d.badXnet ∧
    (d.setDom k x).badTables = d.badTables ∧ (d.setDom k x).stks = d.stks ∧ (d.setDom k x).bcells = d.bcells ∧
    (d.setDom k x).abuf = d.abuf ∧ (d.setDom k x).accs = d.accs ∧ (d.setDom k x).bauEpoch = d.bauEpoch ∧ (d.setDom
    k x).dram = d.dram ∧ (d.setDom k x).parity = d.parity ∧ (d.setDom k x).net = d.net ∧ (d.setDom k x).twin =
    d.twin ∧ (d.setDom k x).tap = d.tap ∧ (d.setDom k x).pathScratch = d.pathScratch ∧ (d.setDom k x).pathBbuf =
    d.pathBbuf ∧ (d.setDom k x).pathImem = d.pathImem ∧ (d.setDom k x).pathXnet = d.pathXnet ∧ (d.setDom k
    x).served = d.served ∧ (d.setDom k x).badPath = d.badPath := by
  simp [Dev.setDom]

@[simp] theorem Dev.setReq_keeps (d : Dev) (k : Nat) (x : Req) :
    (d.setReq k x).free = d.free ∧ (d.setReq k x).now = d.now ∧ (d.setReq k x).out = d.out ∧ (d.setReq k x).fuses =
    d.fuses ∧ (d.setReq k x).pins = d.pins ∧ (d.setReq k x).chip = d.chip ∧ (d.setReq k x).held = d.held ∧
    (d.setReq k x).latched = d.latched ∧ (d.setReq k x).counters = d.counters ∧ (d.setReq k x).host = d.host ∧
    (d.setReq k x).ec = d.ec ∧ (d.setReq k x).clk = d.clk ∧ (d.setReq k x).therm = d.therm ∧ (d.setReq k x).sec =
    d.sec ∧ (d.setReq k x).img = d.img ∧ (d.setReq k x).doms = d.doms ∧ (d.setReq k x).bcmd = d.bcmd ∧ (d.setReq k
    x).flags = d.flags ∧ (d.setReq k x).waiters = d.waiters ∧ (d.setReq k x).queues = d.queues ∧ (d.setReq k
    x).regions = d.regions ∧ (d.setReq k x).blocks = d.blocks ∧ (d.setReq k x).imem = d.imem ∧ (d.setReq k
    x).bufregs = d.bufregs ∧ (d.setReq k x).cells = d.cells ∧ (d.setReq k x).scratch = d.scratch ∧ (d.setReq k
    x).bbuf = d.bbuf ∧ (d.setReq k x).sramEpoch = d.sramEpoch ∧ (d.setReq k x).badScratch = d.badScratch ∧
    (d.setReq k x).badBbuf = d.badBbuf ∧ (d.setReq k x).badImem = d.badImem ∧ (d.setReq k x).badXnet = d.badXnet ∧
    (d.setReq k x).badTables = d.badTables ∧ (d.setReq k x).stks = d.stks ∧ (d.setReq k x).bcells = d.bcells ∧
    (d.setReq k x).abuf = d.abuf ∧ (d.setReq k x).accs = d.accs ∧ (d.setReq k x).bauEpoch = d.bauEpoch ∧ (d.setReq
    k x).dram = d.dram ∧ (d.setReq k x).parity = d.parity ∧ (d.setReq k x).net = d.net ∧ (d.setReq k x).twin =
    d.twin ∧ (d.setReq k x).tap = d.tap ∧ (d.setReq k x).pathScratch = d.pathScratch ∧ (d.setReq k x).pathBbuf =
    d.pathBbuf ∧ (d.setReq k x).pathImem = d.pathImem ∧ (d.setReq k x).pathXnet = d.pathXnet ∧ (d.setReq k
    x).served = d.served ∧ (d.setReq k x).badPath = d.badPath := by
  simp [Dev.setReq]

@[simp] theorem Dev.setCust_keeps (d : Dev) (k : Nat) (x : Cust) :
    (d.setCust k x).free = d.free ∧ (d.setCust k x).now = d.now ∧ (d.setCust k x).out = d.out ∧ (d.setCust k
    x).fuses = d.fuses ∧ (d.setCust k x).pins = d.pins ∧ (d.setCust k x).chip = d.chip ∧ (d.setCust k x).held =
    d.held ∧ (d.setCust k x).latched = d.latched ∧ (d.setCust k x).counters = d.counters ∧ (d.setCust k x).host =
    d.host ∧ (d.setCust k x).ec = d.ec ∧ (d.setCust k x).clk = d.clk ∧ (d.setCust k x).therm = d.therm ∧ (d.setCust
    k x).sec = d.sec ∧ (d.setCust k x).img = d.img ∧ (d.setCust k x).doms = d.doms ∧ (d.setCust k x).bcmd = d.bcmd
    ∧ (d.setCust k x).flags = d.flags ∧ (d.setCust k x).waiters = d.waiters ∧ (d.setCust k x).queues = d.queues ∧
    (d.setCust k x).regions = d.regions ∧ (d.setCust k x).blocks = d.blocks ∧ (d.setCust k x).imem = d.imem ∧
    (d.setCust k x).bufregs = d.bufregs ∧ (d.setCust k x).cells = d.cells ∧ (d.setCust k x).scratch = d.scratch ∧
    (d.setCust k x).bbuf = d.bbuf ∧ (d.setCust k x).sramEpoch = d.sramEpoch ∧ (d.setCust k x).badScratch =
    d.badScratch ∧ (d.setCust k x).badBbuf = d.badBbuf ∧ (d.setCust k x).badImem = d.badImem ∧ (d.setCust k
    x).badXnet = d.badXnet ∧ (d.setCust k x).badTables = d.badTables ∧ (d.setCust k x).stks = d.stks ∧ (d.setCust k
    x).bcells = d.bcells ∧ (d.setCust k x).abuf = d.abuf ∧ (d.setCust k x).accs = d.accs ∧ (d.setCust k x).bauEpoch
    = d.bauEpoch ∧ (d.setCust k x).dram = d.dram ∧ (d.setCust k x).parity = d.parity ∧ (d.setCust k x).net = d.net
    ∧ (d.setCust k x).twin = d.twin ∧ (d.setCust k x).tap = d.tap ∧ (d.setCust k x).pathScratch = d.pathScratch ∧
    (d.setCust k x).pathBbuf = d.pathBbuf ∧ (d.setCust k x).pathImem = d.pathImem ∧ (d.setCust k x).pathXnet =
    d.pathXnet ∧ (d.setCust k x).served = d.served ∧ (d.setCust k x).badPath = d.badPath := by
  simp [Dev.setCust]

@[simp] theorem Dev.setRing_keeps (d : Dev) (k : Nat) (x : Ring) :
    (d.setRing k x).free = d.free ∧ (d.setRing k x).now = d.now ∧ (d.setRing k x).out = d.out ∧ (d.setRing k
    x).fuses = d.fuses ∧ (d.setRing k x).pins = d.pins ∧ (d.setRing k x).chip = d.chip ∧ (d.setRing k x).held =
    d.held ∧ (d.setRing k x).latched = d.latched ∧ (d.setRing k x).counters = d.counters ∧ (d.setRing k x).ec =
    d.ec ∧ (d.setRing k x).clk = d.clk ∧ (d.setRing k x).therm = d.therm ∧ (d.setRing k x).sec = d.sec ∧ (d.setRing
    k x).img = d.img ∧ (d.setRing k x).serve = d.serve ∧ (d.setRing k x).doms = d.doms ∧ (d.setRing k x).bcmd =
    d.bcmd ∧ (d.setRing k x).flags = d.flags ∧ (d.setRing k x).waiters = d.waiters ∧ (d.setRing k x).queues =
    d.queues ∧ (d.setRing k x).regions = d.regions ∧ (d.setRing k x).blocks = d.blocks ∧ (d.setRing k x).imem =
    d.imem ∧ (d.setRing k x).bufregs = d.bufregs ∧ (d.setRing k x).cells = d.cells ∧ (d.setRing k x).scratch =
    d.scratch ∧ (d.setRing k x).bbuf = d.bbuf ∧ (d.setRing k x).sramEpoch = d.sramEpoch ∧ (d.setRing k
    x).badScratch = d.badScratch ∧ (d.setRing k x).badBbuf = d.badBbuf ∧ (d.setRing k x).badImem = d.badImem ∧
    (d.setRing k x).badXnet = d.badXnet ∧ (d.setRing k x).badTables = d.badTables ∧ (d.setRing k x).stks = d.stks ∧
    (d.setRing k x).bcells = d.bcells ∧ (d.setRing k x).abuf = d.abuf ∧ (d.setRing k x).accs = d.accs ∧ (d.setRing
    k x).bauEpoch = d.bauEpoch ∧ (d.setRing k x).dram = d.dram ∧ (d.setRing k x).parity = d.parity ∧ (d.setRing k
    x).net = d.net ∧ (d.setRing k x).twin = d.twin ∧ (d.setRing k x).tap = d.tap ∧ (d.setRing k x).pathScratch =
    d.pathScratch ∧ (d.setRing k x).pathBbuf = d.pathBbuf ∧ (d.setRing k x).pathImem = d.pathImem ∧ (d.setRing k
    x).pathXnet = d.pathXnet ∧ (d.setRing k x).served = d.served ∧ (d.setRing k x).badPath = d.badPath := by
  simp [Dev.setRing]

@[simp] theorem Dev.setTdie_keeps (d : Dev) (k : Nat) (x : TDieSt) :
    (d.setTdie k x).free = d.free ∧ (d.setTdie k x).now = d.now ∧ (d.setTdie k x).out = d.out ∧ (d.setTdie k
    x).fuses = d.fuses ∧ (d.setTdie k x).pins = d.pins ∧ (d.setTdie k x).chip = d.chip ∧ (d.setTdie k x).held =
    d.held ∧ (d.setTdie k x).latched = d.latched ∧ (d.setTdie k x).counters = d.counters ∧ (d.setTdie k x).host =
    d.host ∧ (d.setTdie k x).ec = d.ec ∧ (d.setTdie k x).therm = d.therm ∧ (d.setTdie k x).sec = d.sec ∧ (d.setTdie
    k x).img = d.img ∧ (d.setTdie k x).serve = d.serve ∧ (d.setTdie k x).doms = d.doms ∧ (d.setTdie k x).bcmd =
    d.bcmd ∧ (d.setTdie k x).flags = d.flags ∧ (d.setTdie k x).waiters = d.waiters ∧ (d.setTdie k x).queues =
    d.queues ∧ (d.setTdie k x).regions = d.regions ∧ (d.setTdie k x).blocks = d.blocks ∧ (d.setTdie k x).imem =
    d.imem ∧ (d.setTdie k x).bufregs = d.bufregs ∧ (d.setTdie k x).cells = d.cells ∧ (d.setTdie k x).scratch =
    d.scratch ∧ (d.setTdie k x).bbuf = d.bbuf ∧ (d.setTdie k x).sramEpoch = d.sramEpoch ∧ (d.setTdie k
    x).badScratch = d.badScratch ∧ (d.setTdie k x).badBbuf = d.badBbuf ∧ (d.setTdie k x).badImem = d.badImem ∧
    (d.setTdie k x).badXnet = d.badXnet ∧ (d.setTdie k x).badTables = d.badTables ∧ (d.setTdie k x).stks = d.stks ∧
    (d.setTdie k x).bcells = d.bcells ∧ (d.setTdie k x).abuf = d.abuf ∧ (d.setTdie k x).accs = d.accs ∧ (d.setTdie
    k x).bauEpoch = d.bauEpoch ∧ (d.setTdie k x).dram = d.dram ∧ (d.setTdie k x).parity = d.parity ∧ (d.setTdie k
    x).net = d.net ∧ (d.setTdie k x).twin = d.twin ∧ (d.setTdie k x).tap = d.tap ∧ (d.setTdie k x).pathScratch =
    d.pathScratch ∧ (d.setTdie k x).pathBbuf = d.pathBbuf ∧ (d.setTdie k x).pathImem = d.pathImem ∧ (d.setTdie k
    x).pathXnet = d.pathXnet ∧ (d.setTdie k x).served = d.served ∧ (d.setTdie k x).badPath = d.badPath := by
  simp [Dev.setTdie]

@[simp] theorem Dev.setSensor_keeps (d : Dev) (k : Nat) (x : Sensor) :
    (d.setSensor k x).free = d.free ∧ (d.setSensor k x).now = d.now ∧ (d.setSensor k x).out = d.out ∧ (d.setSensor
    k x).fuses = d.fuses ∧ (d.setSensor k x).pins = d.pins ∧ (d.setSensor k x).chip = d.chip ∧ (d.setSensor k
    x).held = d.held ∧ (d.setSensor k x).latched = d.latched ∧ (d.setSensor k x).counters = d.counters ∧
    (d.setSensor k x).host = d.host ∧ (d.setSensor k x).ec = d.ec ∧ (d.setSensor k x).clk = d.clk ∧ (d.setSensor k
    x).sec = d.sec ∧ (d.setSensor k x).img = d.img ∧ (d.setSensor k x).serve = d.serve ∧ (d.setSensor k x).doms =
    d.doms ∧ (d.setSensor k x).bcmd = d.bcmd ∧ (d.setSensor k x).flags = d.flags ∧ (d.setSensor k x).waiters =
    d.waiters ∧ (d.setSensor k x).queues = d.queues ∧ (d.setSensor k x).regions = d.regions ∧ (d.setSensor k
    x).blocks = d.blocks ∧ (d.setSensor k x).imem = d.imem ∧ (d.setSensor k x).bufregs = d.bufregs ∧ (d.setSensor k
    x).cells = d.cells ∧ (d.setSensor k x).scratch = d.scratch ∧ (d.setSensor k x).bbuf = d.bbuf ∧ (d.setSensor k
    x).sramEpoch = d.sramEpoch ∧ (d.setSensor k x).badScratch = d.badScratch ∧ (d.setSensor k x).badBbuf =
    d.badBbuf ∧ (d.setSensor k x).badImem = d.badImem ∧ (d.setSensor k x).badXnet = d.badXnet ∧ (d.setSensor k
    x).badTables = d.badTables ∧ (d.setSensor k x).stks = d.stks ∧ (d.setSensor k x).bcells = d.bcells ∧
    (d.setSensor k x).abuf = d.abuf ∧ (d.setSensor k x).accs = d.accs ∧ (d.setSensor k x).bauEpoch = d.bauEpoch ∧
    (d.setSensor k x).dram = d.dram ∧ (d.setSensor k x).parity = d.parity ∧ (d.setSensor k x).net = d.net ∧
    (d.setSensor k x).twin = d.twin ∧ (d.setSensor k x).tap = d.tap ∧ (d.setSensor k x).pathScratch = d.pathScratch
    ∧ (d.setSensor k x).pathBbuf = d.pathBbuf ∧ (d.setSensor k x).pathImem = d.pathImem ∧ (d.setSensor k
    x).pathXnet = d.pathXnet ∧ (d.setSensor k x).served = d.served ∧ (d.setSensor k x).badPath = d.badPath := by
  simp [Dev.setSensor]

@[simp] theorem Dev.setThdie_keeps (d : Dev) (k : Nat) (x : ThDie) :
    (d.setThdie k x).free = d.free ∧ (d.setThdie k x).now = d.now ∧ (d.setThdie k x).out = d.out ∧ (d.setThdie k
    x).fuses = d.fuses ∧ (d.setThdie k x).pins = d.pins ∧ (d.setThdie k x).chip = d.chip ∧ (d.setThdie k x).held =
    d.held ∧ (d.setThdie k x).latched = d.latched ∧ (d.setThdie k x).counters = d.counters ∧ (d.setThdie k x).host
    = d.host ∧ (d.setThdie k x).ec = d.ec ∧ (d.setThdie k x).clk = d.clk ∧ (d.setThdie k x).sec = d.sec ∧
    (d.setThdie k x).img = d.img ∧ (d.setThdie k x).serve = d.serve ∧ (d.setThdie k x).doms = d.doms ∧ (d.setThdie
    k x).bcmd = d.bcmd ∧ (d.setThdie k x).flags = d.flags ∧ (d.setThdie k x).waiters = d.waiters ∧ (d.setThdie k
    x).queues = d.queues ∧ (d.setThdie k x).regions = d.regions ∧ (d.setThdie k x).blocks = d.blocks ∧ (d.setThdie
    k x).imem = d.imem ∧ (d.setThdie k x).bufregs = d.bufregs ∧ (d.setThdie k x).cells = d.cells ∧ (d.setThdie k
    x).scratch = d.scratch ∧ (d.setThdie k x).bbuf = d.bbuf ∧ (d.setThdie k x).sramEpoch = d.sramEpoch ∧
    (d.setThdie k x).badScratch = d.badScratch ∧ (d.setThdie k x).badBbuf = d.badBbuf ∧ (d.setThdie k x).badImem =
    d.badImem ∧ (d.setThdie k x).badXnet = d.badXnet ∧ (d.setThdie k x).badTables = d.badTables ∧ (d.setThdie k
    x).stks = d.stks ∧ (d.setThdie k x).bcells = d.bcells ∧ (d.setThdie k x).abuf = d.abuf ∧ (d.setThdie k x).accs
    = d.accs ∧ (d.setThdie k x).bauEpoch = d.bauEpoch ∧ (d.setThdie k x).dram = d.dram ∧ (d.setThdie k x).parity =
    d.parity ∧ (d.setThdie k x).net = d.net ∧ (d.setThdie k x).twin = d.twin ∧ (d.setThdie k x).tap = d.tap ∧
    (d.setThdie k x).pathScratch = d.pathScratch ∧ (d.setThdie k x).pathBbuf = d.pathBbuf ∧ (d.setThdie k
    x).pathImem = d.pathImem ∧ (d.setThdie k x).pathXnet = d.pathXnet ∧ (d.setThdie k x).served = d.served ∧
    (d.setThdie k x).badPath = d.badPath := by
  simp [Dev.setThdie]

@[simp] theorem Dev.setSpan_keeps (d : Dev) (k : Nat) (x : Span) :
    (d.setSpan k x).free = d.free ∧ (d.setSpan k x).now = d.now ∧ (d.setSpan k x).out = d.out ∧ (d.setSpan k
    x).fuses = d.fuses ∧ (d.setSpan k x).pins = d.pins ∧ (d.setSpan k x).chip = d.chip ∧ (d.setSpan k x).held =
    d.held ∧ (d.setSpan k x).latched = d.latched ∧ (d.setSpan k x).counters = d.counters ∧ (d.setSpan k x).host =
    d.host ∧ (d.setSpan k x).ec = d.ec ∧ (d.setSpan k x).clk = d.clk ∧ (d.setSpan k x).therm = d.therm ∧ (d.setSpan
    k x).sec = d.sec ∧ (d.setSpan k x).img = d.img ∧ (d.setSpan k x).serve = d.serve ∧ (d.setSpan k x).doms =
    d.doms ∧ (d.setSpan k x).bcmd = d.bcmd ∧ (d.setSpan k x).flags = d.flags ∧ (d.setSpan k x).waiters = d.waiters
    ∧ (d.setSpan k x).queues = d.queues ∧ (d.setSpan k x).regions = d.regions ∧ (d.setSpan k x).blocks = d.blocks ∧
    (d.setSpan k x).imem = d.imem ∧ (d.setSpan k x).bufregs = d.bufregs ∧ (d.setSpan k x).cells = d.cells ∧
    (d.setSpan k x).scratch = d.scratch ∧ (d.setSpan k x).bbuf = d.bbuf ∧ (d.setSpan k x).sramEpoch = d.sramEpoch ∧
    (d.setSpan k x).badScratch = d.badScratch ∧ (d.setSpan k x).badBbuf = d.badBbuf ∧ (d.setSpan k x).badImem =
    d.badImem ∧ (d.setSpan k x).badXnet = d.badXnet ∧ (d.setSpan k x).badTables = d.badTables ∧ (d.setSpan k
    x).stks = d.stks ∧ (d.setSpan k x).bcells = d.bcells ∧ (d.setSpan k x).abuf = d.abuf ∧ (d.setSpan k x).accs =
    d.accs ∧ (d.setSpan k x).bauEpoch = d.bauEpoch ∧ (d.setSpan k x).dram = d.dram ∧ (d.setSpan k x).parity =
    d.parity ∧ (d.setSpan k x).twin = d.twin ∧ (d.setSpan k x).tap = d.tap ∧ (d.setSpan k x).pathScratch =
    d.pathScratch ∧ (d.setSpan k x).pathBbuf = d.pathBbuf ∧ (d.setSpan k x).pathImem = d.pathImem ∧ (d.setSpan k
    x).pathXnet = d.pathXnet ∧ (d.setSpan k x).served = d.served ∧ (d.setSpan k x).badPath = d.badPath := by
  simp [Dev.setSpan]

@[simp] theorem Dev.setShadow_keeps (d : Dev) (k : Nat) (x : Option Shadow) :
    (d.setShadow k x).free = d.free ∧ (d.setShadow k x).now = d.now ∧ (d.setShadow k x).out = d.out ∧ (d.setShadow
    k x).fuses = d.fuses ∧ (d.setShadow k x).pins = d.pins ∧ (d.setShadow k x).chip = d.chip ∧ (d.setShadow k
    x).held = d.held ∧ (d.setShadow k x).latched = d.latched ∧ (d.setShadow k x).counters = d.counters ∧
    (d.setShadow k x).host = d.host ∧ (d.setShadow k x).ec = d.ec ∧ (d.setShadow k x).clk = d.clk ∧ (d.setShadow k
    x).therm = d.therm ∧ (d.setShadow k x).sec = d.sec ∧ (d.setShadow k x).img = d.img ∧ (d.setShadow k x).serve =
    d.serve ∧ (d.setShadow k x).doms = d.doms ∧ (d.setShadow k x).bcmd = d.bcmd ∧ (d.setShadow k x).flags = d.flags
    ∧ (d.setShadow k x).waiters = d.waiters ∧ (d.setShadow k x).queues = d.queues ∧ (d.setShadow k x).regions =
    d.regions ∧ (d.setShadow k x).blocks = d.blocks ∧ (d.setShadow k x).imem = d.imem ∧ (d.setShadow k x).bufregs =
    d.bufregs ∧ (d.setShadow k x).cells = d.cells ∧ (d.setShadow k x).scratch = d.scratch ∧ (d.setShadow k x).bbuf
    = d.bbuf ∧ (d.setShadow k x).sramEpoch = d.sramEpoch ∧ (d.setShadow k x).badScratch = d.badScratch ∧
    (d.setShadow k x).badBbuf = d.badBbuf ∧ (d.setShadow k x).badImem = d.badImem ∧ (d.setShadow k x).badXnet =
    d.badXnet ∧ (d.setShadow k x).badTables = d.badTables ∧ (d.setShadow k x).stks = d.stks ∧ (d.setShadow k
    x).bcells = d.bcells ∧ (d.setShadow k x).abuf = d.abuf ∧ (d.setShadow k x).accs = d.accs ∧ (d.setShadow k
    x).bauEpoch = d.bauEpoch ∧ (d.setShadow k x).dram = d.dram ∧ (d.setShadow k x).parity = d.parity ∧ (d.setShadow
    k x).net = d.net ∧ (d.setShadow k x).tap = d.tap ∧ (d.setShadow k x).pathScratch = d.pathScratch ∧ (d.setShadow
    k x).pathBbuf = d.pathBbuf ∧ (d.setShadow k x).pathImem = d.pathImem ∧ (d.setShadow k x).pathXnet = d.pathXnet
    ∧ (d.setShadow k x).served = d.served ∧ (d.setShadow k x).badPath = d.badPath := by
  simp [Dev.setShadow]

@[simp] theorem Dev.setRounds_keeps (d : Dev) (k : Nat) (x : List Round) :
    (d.setRounds k x).free = d.free ∧ (d.setRounds k x).now = d.now ∧ (d.setRounds k x).out = d.out ∧ (d.setRounds
    k x).fuses = d.fuses ∧ (d.setRounds k x).pins = d.pins ∧ (d.setRounds k x).chip = d.chip ∧ (d.setRounds k
    x).held = d.held ∧ (d.setRounds k x).latched = d.latched ∧ (d.setRounds k x).counters = d.counters ∧
    (d.setRounds k x).host = d.host ∧ (d.setRounds k x).ec = d.ec ∧ (d.setRounds k x).clk = d.clk ∧ (d.setRounds k
    x).therm = d.therm ∧ (d.setRounds k x).sec = d.sec ∧ (d.setRounds k x).img = d.img ∧ (d.setRounds k x).serve =
    d.serve ∧ (d.setRounds k x).doms = d.doms ∧ (d.setRounds k x).bcmd = d.bcmd ∧ (d.setRounds k x).flags = d.flags
    ∧ (d.setRounds k x).waiters = d.waiters ∧ (d.setRounds k x).queues = d.queues ∧ (d.setRounds k x).regions =
    d.regions ∧ (d.setRounds k x).blocks = d.blocks ∧ (d.setRounds k x).imem = d.imem ∧ (d.setRounds k x).bufregs =
    d.bufregs ∧ (d.setRounds k x).cells = d.cells ∧ (d.setRounds k x).scratch = d.scratch ∧ (d.setRounds k x).bbuf
    = d.bbuf ∧ (d.setRounds k x).sramEpoch = d.sramEpoch ∧ (d.setRounds k x).badScratch = d.badScratch ∧
    (d.setRounds k x).badBbuf = d.badBbuf ∧ (d.setRounds k x).badImem = d.badImem ∧ (d.setRounds k x).badXnet =
    d.badXnet ∧ (d.setRounds k x).badTables = d.badTables ∧ (d.setRounds k x).stks = d.stks ∧ (d.setRounds k
    x).bcells = d.bcells ∧ (d.setRounds k x).abuf = d.abuf ∧ (d.setRounds k x).accs = d.accs ∧ (d.setRounds k
    x).bauEpoch = d.bauEpoch ∧ (d.setRounds k x).dram = d.dram ∧ (d.setRounds k x).parity = d.parity ∧ (d.setRounds
    k x).twin = d.twin ∧ (d.setRounds k x).tap = d.tap ∧ (d.setRounds k x).pathScratch = d.pathScratch ∧
    (d.setRounds k x).pathBbuf = d.pathBbuf ∧ (d.setRounds k x).pathImem = d.pathImem ∧ (d.setRounds k x).pathXnet
    = d.pathXnet ∧ (d.setRounds k x).served = d.served ∧ (d.setRounds k x).badPath = d.badPath := by
  simp [Dev.setRounds]

@[simp] theorem Dev.setHeldHalf_keeps (d : Dev) (k : Nat) (x : Option Word) :
    (d.setHeldHalf k x).free = d.free ∧ (d.setHeldHalf k x).now = d.now ∧ (d.setHeldHalf k x).out = d.out ∧
    (d.setHeldHalf k x).fuses = d.fuses ∧ (d.setHeldHalf k x).pins = d.pins ∧ (d.setHeldHalf k x).chip = d.chip ∧
    (d.setHeldHalf k x).latched = d.latched ∧ (d.setHeldHalf k x).counters = d.counters ∧ (d.setHeldHalf k x).host
    = d.host ∧ (d.setHeldHalf k x).ec = d.ec ∧ (d.setHeldHalf k x).clk = d.clk ∧ (d.setHeldHalf k x).therm =
    d.therm ∧ (d.setHeldHalf k x).sec = d.sec ∧ (d.setHeldHalf k x).img = d.img ∧ (d.setHeldHalf k x).serve =
    d.serve ∧ (d.setHeldHalf k x).doms = d.doms ∧ (d.setHeldHalf k x).bcmd = d.bcmd ∧ (d.setHeldHalf k x).flags =
    d.flags ∧ (d.setHeldHalf k x).waiters = d.waiters ∧ (d.setHeldHalf k x).queues = d.queues ∧ (d.setHeldHalf k
    x).regions = d.regions ∧ (d.setHeldHalf k x).blocks = d.blocks ∧ (d.setHeldHalf k x).imem = d.imem ∧
    (d.setHeldHalf k x).bufregs = d.bufregs ∧ (d.setHeldHalf k x).cells = d.cells ∧ (d.setHeldHalf k x).scratch =
    d.scratch ∧ (d.setHeldHalf k x).bbuf = d.bbuf ∧ (d.setHeldHalf k x).sramEpoch = d.sramEpoch ∧ (d.setHeldHalf k
    x).badScratch = d.badScratch ∧ (d.setHeldHalf k x).badBbuf = d.badBbuf ∧ (d.setHeldHalf k x).badImem =
    d.badImem ∧ (d.setHeldHalf k x).badXnet = d.badXnet ∧ (d.setHeldHalf k x).badTables = d.badTables ∧
    (d.setHeldHalf k x).stks = d.stks ∧ (d.setHeldHalf k x).bcells = d.bcells ∧ (d.setHeldHalf k x).abuf = d.abuf ∧
    (d.setHeldHalf k x).accs = d.accs ∧ (d.setHeldHalf k x).bauEpoch = d.bauEpoch ∧ (d.setHeldHalf k x).dram =
    d.dram ∧ (d.setHeldHalf k x).parity = d.parity ∧ (d.setHeldHalf k x).net = d.net ∧ (d.setHeldHalf k x).twin =
    d.twin ∧ (d.setHeldHalf k x).tap = d.tap ∧ (d.setHeldHalf k x).pathScratch = d.pathScratch ∧ (d.setHeldHalf k
    x).pathBbuf = d.pathBbuf ∧ (d.setHeldHalf k x).pathImem = d.pathImem ∧ (d.setHeldHalf k x).pathXnet =
    d.pathXnet ∧ (d.setHeldHalf k x).served = d.served ∧ (d.setHeldHalf k x).badPath = d.badPath := by
  simp [Dev.setHeldHalf]

@[simp] theorem Dev.setLatchedHalf_keeps (d : Dev) (k : Nat) (x : Option Word) :
    (d.setLatchedHalf k x).free = d.free ∧ (d.setLatchedHalf k x).now = d.now ∧ (d.setLatchedHalf k x).out = d.out
    ∧ (d.setLatchedHalf k x).fuses = d.fuses ∧ (d.setLatchedHalf k x).pins = d.pins ∧ (d.setLatchedHalf k x).chip =
    d.chip ∧ (d.setLatchedHalf k x).held = d.held ∧ (d.setLatchedHalf k x).counters = d.counters ∧
    (d.setLatchedHalf k x).host = d.host ∧ (d.setLatchedHalf k x).ec = d.ec ∧ (d.setLatchedHalf k x).clk = d.clk ∧
    (d.setLatchedHalf k x).therm = d.therm ∧ (d.setLatchedHalf k x).sec = d.sec ∧ (d.setLatchedHalf k x).img =
    d.img ∧ (d.setLatchedHalf k x).serve = d.serve ∧ (d.setLatchedHalf k x).doms = d.doms ∧ (d.setLatchedHalf k
    x).bcmd = d.bcmd ∧ (d.setLatchedHalf k x).flags = d.flags ∧ (d.setLatchedHalf k x).waiters = d.waiters ∧
    (d.setLatchedHalf k x).queues = d.queues ∧ (d.setLatchedHalf k x).regions = d.regions ∧ (d.setLatchedHalf k
    x).blocks = d.blocks ∧ (d.setLatchedHalf k x).imem = d.imem ∧ (d.setLatchedHalf k x).bufregs = d.bufregs ∧
    (d.setLatchedHalf k x).cells = d.cells ∧ (d.setLatchedHalf k x).scratch = d.scratch ∧ (d.setLatchedHalf k
    x).bbuf = d.bbuf ∧ (d.setLatchedHalf k x).sramEpoch = d.sramEpoch ∧ (d.setLatchedHalf k x).badScratch =
    d.badScratch ∧ (d.setLatchedHalf k x).badBbuf = d.badBbuf ∧ (d.setLatchedHalf k x).badImem = d.badImem ∧
    (d.setLatchedHalf k x).badXnet = d.badXnet ∧ (d.setLatchedHalf k x).badTables = d.badTables ∧ (d.setLatchedHalf
    k x).stks = d.stks ∧ (d.setLatchedHalf k x).bcells = d.bcells ∧ (d.setLatchedHalf k x).abuf = d.abuf ∧
    (d.setLatchedHalf k x).accs = d.accs ∧ (d.setLatchedHalf k x).bauEpoch = d.bauEpoch ∧ (d.setLatchedHalf k
    x).dram = d.dram ∧ (d.setLatchedHalf k x).parity = d.parity ∧ (d.setLatchedHalf k x).net = d.net ∧
    (d.setLatchedHalf k x).twin = d.twin ∧ (d.setLatchedHalf k x).tap = d.tap ∧ (d.setLatchedHalf k x).pathScratch
    = d.pathScratch ∧ (d.setLatchedHalf k x).pathBbuf = d.pathBbuf ∧ (d.setLatchedHalf k x).pathImem = d.pathImem ∧
    (d.setLatchedHalf k x).pathXnet = d.pathXnet ∧ (d.setLatchedHalf k x).served = d.served ∧ (d.setLatchedHalf k
    x).badPath = d.badPath := by
  simp [Dev.setLatchedHalf]

@[simp] theorem Dev.setXparity_keeps (d : Dev) (k : Nat) (x : Nat) :
    (d.setXparity k x).free = d.free ∧ (d.setXparity k x).now = d.now ∧ (d.setXparity k x).out = d.out ∧
    (d.setXparity k x).fuses = d.fuses ∧ (d.setXparity k x).pins = d.pins ∧ (d.setXparity k x).chip = d.chip ∧
    (d.setXparity k x).held = d.held ∧ (d.setXparity k x).latched = d.latched ∧ (d.setXparity k x).counters =
    d.counters ∧ (d.setXparity k x).host = d.host ∧ (d.setXparity k x).ec = d.ec ∧ (d.setXparity k x).clk = d.clk ∧
    (d.setXparity k x).therm = d.therm ∧ (d.setXparity k x).sec = d.sec ∧ (d.setXparity k x).img = d.img ∧
    (d.setXparity k x).serve = d.serve ∧ (d.setXparity k x).doms = d.doms ∧ (d.setXparity k x).bcmd = d.bcmd ∧
    (d.setXparity k x).flags = d.flags ∧ (d.setXparity k x).waiters = d.waiters ∧ (d.setXparity k x).queues =
    d.queues ∧ (d.setXparity k x).regions = d.regions ∧ (d.setXparity k x).blocks = d.blocks ∧ (d.setXparity k
    x).imem = d.imem ∧ (d.setXparity k x).bufregs = d.bufregs ∧ (d.setXparity k x).cells = d.cells ∧ (d.setXparity
    k x).scratch = d.scratch ∧ (d.setXparity k x).bbuf = d.bbuf ∧ (d.setXparity k x).sramEpoch = d.sramEpoch ∧
    (d.setXparity k x).badScratch = d.badScratch ∧ (d.setXparity k x).badBbuf = d.badBbuf ∧ (d.setXparity k
    x).badImem = d.badImem ∧ (d.setXparity k x).badXnet = d.badXnet ∧ (d.setXparity k x).badTables = d.badTables ∧
    (d.setXparity k x).stks = d.stks ∧ (d.setXparity k x).bcells = d.bcells ∧ (d.setXparity k x).abuf = d.abuf ∧
    (d.setXparity k x).accs = d.accs ∧ (d.setXparity k x).bauEpoch = d.bauEpoch ∧ (d.setXparity k x).dram = d.dram
    ∧ (d.setXparity k x).net = d.net ∧ (d.setXparity k x).twin = d.twin ∧ (d.setXparity k x).tap = d.tap ∧
    (d.setXparity k x).pathScratch = d.pathScratch ∧ (d.setXparity k x).pathBbuf = d.pathBbuf ∧ (d.setXparity k
    x).pathImem = d.pathImem ∧ (d.setXparity k x).pathXnet = d.pathXnet ∧ (d.setXparity k x).served = d.served ∧
    (d.setXparity k x).badPath = d.badPath := by
  simp [Dev.setXparity]

@[simp] theorem Dev.setPennant_keeps (d : Dev) (k : Nat) (x : Bool) :
    (d.setPennant k x).free = d.free ∧ (d.setPennant k x).now = d.now ∧ (d.setPennant k x).out = d.out ∧
    (d.setPennant k x).fuses = d.fuses ∧ (d.setPennant k x).pins = d.pins ∧ (d.setPennant k x).chip = d.chip ∧
    (d.setPennant k x).held = d.held ∧ (d.setPennant k x).latched = d.latched ∧ (d.setPennant k x).counters =
    d.counters ∧ (d.setPennant k x).ec = d.ec ∧ (d.setPennant k x).clk = d.clk ∧ (d.setPennant k x).therm = d.therm
    ∧ (d.setPennant k x).sec = d.sec ∧ (d.setPennant k x).img = d.img ∧ (d.setPennant k x).serve = d.serve ∧
    (d.setPennant k x).doms = d.doms ∧ (d.setPennant k x).bcmd = d.bcmd ∧ (d.setPennant k x).flags = d.flags ∧
    (d.setPennant k x).waiters = d.waiters ∧ (d.setPennant k x).queues = d.queues ∧ (d.setPennant k x).regions =
    d.regions ∧ (d.setPennant k x).blocks = d.blocks ∧ (d.setPennant k x).imem = d.imem ∧ (d.setPennant k
    x).bufregs = d.bufregs ∧ (d.setPennant k x).cells = d.cells ∧ (d.setPennant k x).scratch = d.scratch ∧
    (d.setPennant k x).bbuf = d.bbuf ∧ (d.setPennant k x).sramEpoch = d.sramEpoch ∧ (d.setPennant k x).badScratch =
    d.badScratch ∧ (d.setPennant k x).badBbuf = d.badBbuf ∧ (d.setPennant k x).badImem = d.badImem ∧ (d.setPennant
    k x).badXnet = d.badXnet ∧ (d.setPennant k x).badTables = d.badTables ∧ (d.setPennant k x).stks = d.stks ∧
    (d.setPennant k x).bcells = d.bcells ∧ (d.setPennant k x).abuf = d.abuf ∧ (d.setPennant k x).accs = d.accs ∧
    (d.setPennant k x).bauEpoch = d.bauEpoch ∧ (d.setPennant k x).dram = d.dram ∧ (d.setPennant k x).parity =
    d.parity ∧ (d.setPennant k x).net = d.net ∧ (d.setPennant k x).twin = d.twin ∧ (d.setPennant k x).tap = d.tap ∧
    (d.setPennant k x).pathScratch = d.pathScratch ∧ (d.setPennant k x).pathBbuf = d.pathBbuf ∧ (d.setPennant k
    x).pathImem = d.pathImem ∧ (d.setPennant k x).pathXnet = d.pathXnet ∧ (d.setPennant k x).served = d.served ∧
    (d.setPennant k x).badPath = d.badPath := by
  simp [Dev.setPennant]

@[simp] theorem Dev.setMsixEntry_keeps (d : Dev) (k : Nat) (x : MsixEntry) :
    (d.setMsixEntry k x).free = d.free ∧ (d.setMsixEntry k x).now = d.now ∧ (d.setMsixEntry k x).out = d.out ∧
    (d.setMsixEntry k x).fuses = d.fuses ∧ (d.setMsixEntry k x).pins = d.pins ∧ (d.setMsixEntry k x).chip = d.chip
    ∧ (d.setMsixEntry k x).held = d.held ∧ (d.setMsixEntry k x).latched = d.latched ∧ (d.setMsixEntry k x).counters
    = d.counters ∧ (d.setMsixEntry k x).ec = d.ec ∧ (d.setMsixEntry k x).clk = d.clk ∧ (d.setMsixEntry k x).therm =
    d.therm ∧ (d.setMsixEntry k x).sec = d.sec ∧ (d.setMsixEntry k x).img = d.img ∧ (d.setMsixEntry k x).serve =
    d.serve ∧ (d.setMsixEntry k x).doms = d.doms ∧ (d.setMsixEntry k x).bcmd = d.bcmd ∧ (d.setMsixEntry k x).flags
    = d.flags ∧ (d.setMsixEntry k x).waiters = d.waiters ∧ (d.setMsixEntry k x).queues = d.queues ∧ (d.setMsixEntry
    k x).regions = d.regions ∧ (d.setMsixEntry k x).blocks = d.blocks ∧ (d.setMsixEntry k x).imem = d.imem ∧
    (d.setMsixEntry k x).bufregs = d.bufregs ∧ (d.setMsixEntry k x).cells = d.cells ∧ (d.setMsixEntry k x).scratch
    = d.scratch ∧ (d.setMsixEntry k x).bbuf = d.bbuf ∧ (d.setMsixEntry k x).sramEpoch = d.sramEpoch ∧
    (d.setMsixEntry k x).badScratch = d.badScratch ∧ (d.setMsixEntry k x).badBbuf = d.badBbuf ∧ (d.setMsixEntry k
    x).badImem = d.badImem ∧ (d.setMsixEntry k x).badXnet = d.badXnet ∧ (d.setMsixEntry k x).badTables =
    d.badTables ∧ (d.setMsixEntry k x).stks = d.stks ∧ (d.setMsixEntry k x).bcells = d.bcells ∧ (d.setMsixEntry k
    x).abuf = d.abuf ∧ (d.setMsixEntry k x).accs = d.accs ∧ (d.setMsixEntry k x).bauEpoch = d.bauEpoch ∧
    (d.setMsixEntry k x).dram = d.dram ∧ (d.setMsixEntry k x).parity = d.parity ∧ (d.setMsixEntry k x).net = d.net
    ∧ (d.setMsixEntry k x).twin = d.twin ∧ (d.setMsixEntry k x).tap = d.tap ∧ (d.setMsixEntry k x).pathScratch =
    d.pathScratch ∧ (d.setMsixEntry k x).pathBbuf = d.pathBbuf ∧ (d.setMsixEntry k x).pathImem = d.pathImem ∧
    (d.setMsixEntry k x).pathXnet = d.pathXnet ∧ (d.setMsixEntry k x).served = d.served ∧ (d.setMsixEntry k
    x).badPath = d.badPath := by
  simp [Dev.setMsixEntry]

@[simp] theorem Dev.setPbaBit_keeps (d : Dev) (k : Nat) (x : Bool) :
    (d.setPbaBit k x).free = d.free ∧ (d.setPbaBit k x).now = d.now ∧ (d.setPbaBit k x).out = d.out ∧ (d.setPbaBit
    k x).fuses = d.fuses ∧ (d.setPbaBit k x).pins = d.pins ∧ (d.setPbaBit k x).chip = d.chip ∧ (d.setPbaBit k
    x).held = d.held ∧ (d.setPbaBit k x).latched = d.latched ∧ (d.setPbaBit k x).counters = d.counters ∧
    (d.setPbaBit k x).ec = d.ec ∧ (d.setPbaBit k x).clk = d.clk ∧ (d.setPbaBit k x).therm = d.therm ∧ (d.setPbaBit
    k x).sec = d.sec ∧ (d.setPbaBit k x).img = d.img ∧ (d.setPbaBit k x).serve = d.serve ∧ (d.setPbaBit k x).doms =
    d.doms ∧ (d.setPbaBit k x).bcmd = d.bcmd ∧ (d.setPbaBit k x).flags = d.flags ∧ (d.setPbaBit k x).waiters =
    d.waiters ∧ (d.setPbaBit k x).queues = d.queues ∧ (d.setPbaBit k x).regions = d.regions ∧ (d.setPbaBit k
    x).blocks = d.blocks ∧ (d.setPbaBit k x).imem = d.imem ∧ (d.setPbaBit k x).bufregs = d.bufregs ∧ (d.setPbaBit k
    x).cells = d.cells ∧ (d.setPbaBit k x).scratch = d.scratch ∧ (d.setPbaBit k x).bbuf = d.bbuf ∧ (d.setPbaBit k
    x).sramEpoch = d.sramEpoch ∧ (d.setPbaBit k x).badScratch = d.badScratch ∧ (d.setPbaBit k x).badBbuf =
    d.badBbuf ∧ (d.setPbaBit k x).badImem = d.badImem ∧ (d.setPbaBit k x).badXnet = d.badXnet ∧ (d.setPbaBit k
    x).badTables = d.badTables ∧ (d.setPbaBit k x).stks = d.stks ∧ (d.setPbaBit k x).bcells = d.bcells ∧
    (d.setPbaBit k x).abuf = d.abuf ∧ (d.setPbaBit k x).accs = d.accs ∧ (d.setPbaBit k x).bauEpoch = d.bauEpoch ∧
    (d.setPbaBit k x).dram = d.dram ∧ (d.setPbaBit k x).parity = d.parity ∧ (d.setPbaBit k x).net = d.net ∧
    (d.setPbaBit k x).twin = d.twin ∧ (d.setPbaBit k x).tap = d.tap ∧ (d.setPbaBit k x).pathScratch = d.pathScratch
    ∧ (d.setPbaBit k x).pathBbuf = d.pathBbuf ∧ (d.setPbaBit k x).pathImem = d.pathImem ∧ (d.setPbaBit k
    x).pathXnet = d.pathXnet ∧ (d.setPbaBit k x).served = d.served ∧ (d.setPbaBit k x).badPath = d.badPath := by
  simp [Dev.setPbaBit]

@[simp] theorem Dev.drawn_keeps (d : Dev) :
    d.drawn.now = d.now ∧ d.drawn.out = d.out ∧ d.drawn.fuses = d.fuses ∧ d.drawn.pins = d.pins ∧ d.drawn.chip =
    d.chip ∧ d.drawn.held = d.held ∧ d.drawn.latched = d.latched ∧ d.drawn.counters = d.counters ∧ d.drawn.host =
    d.host ∧ d.drawn.ec = d.ec ∧ d.drawn.clk = d.clk ∧ d.drawn.therm = d.therm ∧ d.drawn.sec = d.sec ∧ d.drawn.img
    = d.img ∧ d.drawn.serve = d.serve ∧ d.drawn.doms = d.doms ∧ d.drawn.bcmd = d.bcmd ∧ d.drawn.flags = d.flags ∧
    d.drawn.waiters = d.waiters ∧ d.drawn.queues = d.queues ∧ d.drawn.regions = d.regions ∧ d.drawn.blocks =
    d.blocks ∧ d.drawn.imem = d.imem ∧ d.drawn.bufregs = d.bufregs ∧ d.drawn.cells = d.cells ∧ d.drawn.scratch =
    d.scratch ∧ d.drawn.bbuf = d.bbuf ∧ d.drawn.sramEpoch = d.sramEpoch ∧ d.drawn.badScratch = d.badScratch ∧
    d.drawn.badBbuf = d.badBbuf ∧ d.drawn.badImem = d.badImem ∧ d.drawn.badXnet = d.badXnet ∧ d.drawn.badTables =
    d.badTables ∧ d.drawn.stks = d.stks ∧ d.drawn.bcells = d.bcells ∧ d.drawn.abuf = d.abuf ∧ d.drawn.accs = d.accs
    ∧ d.drawn.bauEpoch = d.bauEpoch ∧ d.drawn.dram = d.dram ∧ d.drawn.parity = d.parity ∧ d.drawn.net = d.net ∧
    d.drawn.twin = d.twin ∧ d.drawn.tap = d.tap ∧ d.drawn.pathScratch = d.pathScratch ∧ d.drawn.pathBbuf =
    d.pathBbuf ∧ d.drawn.pathImem = d.pathImem ∧ d.drawn.pathXnet = d.pathXnet ∧ d.drawn.served = d.served ∧
    d.drawn.badPath = d.badPath := by
  simp [Dev.drawn]

@[simp] theorem Dev.emit_keeps (d : Dev) (o : Out) :
    (d.emit o).free = d.free ∧ (d.emit o).now = d.now ∧ (d.emit o).fuses = d.fuses ∧ (d.emit o).pins = d.pins ∧
    (d.emit o).chip = d.chip ∧ (d.emit o).held = d.held ∧ (d.emit o).latched = d.latched ∧ (d.emit o).counters =
    d.counters ∧ (d.emit o).host = d.host ∧ (d.emit o).ec = d.ec ∧ (d.emit o).clk = d.clk ∧ (d.emit o).therm =
    d.therm ∧ (d.emit o).sec = d.sec ∧ (d.emit o).img = d.img ∧ (d.emit o).serve = d.serve ∧ (d.emit o).doms =
    d.doms ∧ (d.emit o).bcmd = d.bcmd ∧ (d.emit o).flags = d.flags ∧ (d.emit o).waiters = d.waiters ∧ (d.emit
    o).queues = d.queues ∧ (d.emit o).regions = d.regions ∧ (d.emit o).blocks = d.blocks ∧ (d.emit o).imem = d.imem
    ∧ (d.emit o).bufregs = d.bufregs ∧ (d.emit o).cells = d.cells ∧ (d.emit o).scratch = d.scratch ∧ (d.emit
    o).bbuf = d.bbuf ∧ (d.emit o).sramEpoch = d.sramEpoch ∧ (d.emit o).badScratch = d.badScratch ∧ (d.emit
    o).badBbuf = d.badBbuf ∧ (d.emit o).badImem = d.badImem ∧ (d.emit o).badXnet = d.badXnet ∧ (d.emit o).badTables
    = d.badTables ∧ (d.emit o).stks = d.stks ∧ (d.emit o).bcells = d.bcells ∧ (d.emit o).abuf = d.abuf ∧ (d.emit
    o).accs = d.accs ∧ (d.emit o).bauEpoch = d.bauEpoch ∧ (d.emit o).dram = d.dram ∧ (d.emit o).parity = d.parity ∧
    (d.emit o).net = d.net ∧ (d.emit o).twin = d.twin ∧ (d.emit o).tap = d.tap ∧ (d.emit o).pathScratch =
    d.pathScratch ∧ (d.emit o).pathBbuf = d.pathBbuf ∧ (d.emit o).pathImem = d.pathImem ∧ (d.emit o).pathXnet =
    d.pathXnet ∧ (d.emit o).served = d.served ∧ (d.emit o).badPath = d.badPath := by
  simp [Dev.emit]

@[simp] theorem Dev.raise_keeps (d : Dev) (src : Nat) :
    (d.raise src).free = d.free ∧ (d.raise src).now = d.now ∧ (d.raise src).out = d.out ∧ (d.raise src).fuses =
    d.fuses ∧ (d.raise src).pins = d.pins ∧ (d.raise src).chip = d.chip ∧ (d.raise src).held = d.held ∧ (d.raise
    src).latched = d.latched ∧ (d.raise src).counters = d.counters ∧ (d.raise src).host = d.host ∧ (d.raise
    src).clk = d.clk ∧ (d.raise src).therm = d.therm ∧ (d.raise src).sec = d.sec ∧ (d.raise src).img = d.img ∧
    (d.raise src).serve = d.serve ∧ (d.raise src).doms = d.doms ∧ (d.raise src).bcmd = d.bcmd ∧ (d.raise src).flags
    = d.flags ∧ (d.raise src).waiters = d.waiters ∧ (d.raise src).queues = d.queues ∧ (d.raise src).regions =
    d.regions ∧ (d.raise src).blocks = d.blocks ∧ (d.raise src).imem = d.imem ∧ (d.raise src).bufregs = d.bufregs ∧
    (d.raise src).cells = d.cells ∧ (d.raise src).scratch = d.scratch ∧ (d.raise src).bbuf = d.bbuf ∧ (d.raise
    src).sramEpoch = d.sramEpoch ∧ (d.raise src).badScratch = d.badScratch ∧ (d.raise src).badBbuf = d.badBbuf ∧
    (d.raise src).badImem = d.badImem ∧ (d.raise src).badXnet = d.badXnet ∧ (d.raise src).badTables = d.badTables ∧
    (d.raise src).stks = d.stks ∧ (d.raise src).bcells = d.bcells ∧ (d.raise src).abuf = d.abuf ∧ (d.raise
    src).accs = d.accs ∧ (d.raise src).bauEpoch = d.bauEpoch ∧ (d.raise src).dram = d.dram ∧ (d.raise src).parity =
    d.parity ∧ (d.raise src).net = d.net ∧ (d.raise src).twin = d.twin ∧ (d.raise src).tap = d.tap ∧ (d.raise
    src).pathScratch = d.pathScratch ∧ (d.raise src).pathBbuf = d.pathBbuf ∧ (d.raise src).pathImem = d.pathImem ∧
    (d.raise src).pathXnet = d.pathXnet ∧ (d.raise src).served = d.served ∧ (d.raise src).badPath = d.badPath := by
  simp [Dev.raise]

@[simp] theorem Dev.withdraw_keeps (d : Dev) (src : Nat) :
    (d.withdraw src).free = d.free ∧ (d.withdraw src).now = d.now ∧ (d.withdraw src).out = d.out ∧ (d.withdraw
    src).fuses = d.fuses ∧ (d.withdraw src).pins = d.pins ∧ (d.withdraw src).chip = d.chip ∧ (d.withdraw src).held
    = d.held ∧ (d.withdraw src).latched = d.latched ∧ (d.withdraw src).counters = d.counters ∧ (d.withdraw
    src).host = d.host ∧ (d.withdraw src).clk = d.clk ∧ (d.withdraw src).therm = d.therm ∧ (d.withdraw src).sec =
    d.sec ∧ (d.withdraw src).img = d.img ∧ (d.withdraw src).serve = d.serve ∧ (d.withdraw src).doms = d.doms ∧
    (d.withdraw src).bcmd = d.bcmd ∧ (d.withdraw src).flags = d.flags ∧ (d.withdraw src).waiters = d.waiters ∧
    (d.withdraw src).queues = d.queues ∧ (d.withdraw src).regions = d.regions ∧ (d.withdraw src).blocks = d.blocks
    ∧ (d.withdraw src).imem = d.imem ∧ (d.withdraw src).bufregs = d.bufregs ∧ (d.withdraw src).cells = d.cells ∧
    (d.withdraw src).scratch = d.scratch ∧ (d.withdraw src).bbuf = d.bbuf ∧ (d.withdraw src).sramEpoch =
    d.sramEpoch ∧ (d.withdraw src).badScratch = d.badScratch ∧ (d.withdraw src).badBbuf = d.badBbuf ∧ (d.withdraw
    src).badImem = d.badImem ∧ (d.withdraw src).badXnet = d.badXnet ∧ (d.withdraw src).badTables = d.badTables ∧
    (d.withdraw src).stks = d.stks ∧ (d.withdraw src).bcells = d.bcells ∧ (d.withdraw src).abuf = d.abuf ∧
    (d.withdraw src).accs = d.accs ∧ (d.withdraw src).bauEpoch = d.bauEpoch ∧ (d.withdraw src).dram = d.dram ∧
    (d.withdraw src).parity = d.parity ∧ (d.withdraw src).net = d.net ∧ (d.withdraw src).twin = d.twin ∧
    (d.withdraw src).tap = d.tap ∧ (d.withdraw src).pathScratch = d.pathScratch ∧ (d.withdraw src).pathBbuf =
    d.pathBbuf ∧ (d.withdraw src).pathImem = d.pathImem ∧ (d.withdraw src).pathXnet = d.pathXnet ∧ (d.withdraw
    src).served = d.served ∧ (d.withdraw src).badPath = d.badPath := by
  simp [Dev.withdraw]

@[simp] theorem Dev.mirrorSend_keeps (d : Dev) (x : TwinItem) :
    (d.mirrorSend x).free = d.free ∧ (d.mirrorSend x).now = d.now ∧ (d.mirrorSend x).fuses = d.fuses ∧
    (d.mirrorSend x).pins = d.pins ∧ (d.mirrorSend x).chip = d.chip ∧ (d.mirrorSend x).held = d.held ∧
    (d.mirrorSend x).latched = d.latched ∧ (d.mirrorSend x).counters = d.counters ∧ (d.mirrorSend x).host = d.host
    ∧ (d.mirrorSend x).ec = d.ec ∧ (d.mirrorSend x).clk = d.clk ∧ (d.mirrorSend x).therm = d.therm ∧ (d.mirrorSend
    x).sec = d.sec ∧ (d.mirrorSend x).img = d.img ∧ (d.mirrorSend x).serve = d.serve ∧ (d.mirrorSend x).doms =
    d.doms ∧ (d.mirrorSend x).bcmd = d.bcmd ∧ (d.mirrorSend x).flags = d.flags ∧ (d.mirrorSend x).waiters =
    d.waiters ∧ (d.mirrorSend x).queues = d.queues ∧ (d.mirrorSend x).regions = d.regions ∧ (d.mirrorSend x).blocks
    = d.blocks ∧ (d.mirrorSend x).imem = d.imem ∧ (d.mirrorSend x).bufregs = d.bufregs ∧ (d.mirrorSend x).cells =
    d.cells ∧ (d.mirrorSend x).scratch = d.scratch ∧ (d.mirrorSend x).bbuf = d.bbuf ∧ (d.mirrorSend x).sramEpoch =
    d.sramEpoch ∧ (d.mirrorSend x).badScratch = d.badScratch ∧ (d.mirrorSend x).badBbuf = d.badBbuf ∧ (d.mirrorSend
    x).badImem = d.badImem ∧ (d.mirrorSend x).badXnet = d.badXnet ∧ (d.mirrorSend x).badTables = d.badTables ∧
    (d.mirrorSend x).stks = d.stks ∧ (d.mirrorSend x).bcells = d.bcells ∧ (d.mirrorSend x).abuf = d.abuf ∧
    (d.mirrorSend x).accs = d.accs ∧ (d.mirrorSend x).bauEpoch = d.bauEpoch ∧ (d.mirrorSend x).dram = d.dram ∧
    (d.mirrorSend x).parity = d.parity ∧ (d.mirrorSend x).net = d.net ∧ (d.mirrorSend x).tap = d.tap ∧
    (d.mirrorSend x).pathScratch = d.pathScratch ∧ (d.mirrorSend x).pathBbuf = d.pathBbuf ∧ (d.mirrorSend
    x).pathImem = d.pathImem ∧ (d.mirrorSend x).pathXnet = d.pathXnet ∧ (d.mirrorSend x).served = d.served ∧
    (d.mirrorSend x).badPath = d.badPath := by
  simp [Dev.mirrorSend, Dev.emit]

/-! ### Values read back -/

@[simp] theorem Dev.setCtr_read (d : Dev) (k : Nat) (x : Counter) : (d.setCtr k x).ctr k = x := by
  simp only [Dev.setCtr, Dev.ctr]
  exact Tab.read_write_same

theorem Dev.setCtr_other (d : Dev) (k j : Nat) (x : Counter) (hj : j ≠ k) :
    (d.setCtr k x).ctr j = d.ctr j := by
  simp only [Dev.setCtr, Dev.ctr]
  exact Tab.read_write_other hj

@[simp] theorem Dev.setFlag_read (d : Dev) (k : Nat) (x : Nat) : (d.setFlag k x).flag k = x := by
  simp only [Dev.setFlag, Dev.flag]
  exact Tab.read_write_same

theorem Dev.setFlag_other (d : Dev) (k j : Nat) (x : Nat) (hj : j ≠ k) :
    (d.setFlag k x).flag j = d.flag j := by
  simp only [Dev.setFlag, Dev.flag]
  exact Tab.read_write_other hj

@[simp] theorem Dev.setWaitq_read (d : Dev) (k : Nat) (x : List Nat) : (d.setWaitq k x).waitq k = x := by
  simp only [Dev.setWaitq, Dev.waitq]
  exact Tab.read_write_same

theorem Dev.setWaitq_other (d : Dev) (k j : Nat) (x : List Nat) (hj : j ≠ k) :
    (d.setWaitq k x).waitq j = d.waitq j := by
  simp only [Dev.setWaitq, Dev.waitq]
  exact Tab.read_write_other hj

@[simp] theorem Dev.setQueue_read (d : Dev) (k : Nat) (x : Queue) : (d.setQueue k x).queue k = x := by
  simp only [Dev.setQueue, Dev.queue]
  exact Tab.read_write_same

theorem Dev.setQueue_other (d : Dev) (k j : Nat) (x : Queue) (hj : j ≠ k) :
    (d.setQueue k x).queue j = d.queue j := by
  simp only [Dev.setQueue, Dev.queue]
  exact Tab.read_write_other hj

@[simp] theorem Dev.setRegion_read (d : Dev) (k : Nat) (x : RegionSt) : (d.setRegion k x).region k = x := by
  simp only [Dev.setRegion, Dev.region]
  exact Tab.read_write_same

theorem Dev.setRegion_other (d : Dev) (k j : Nat) (x : RegionSt) (hj : j ≠ k) :
    (d.setRegion k x).region j = d.region j := by
  simp only [Dev.setRegion, Dev.region]
  exact Tab.read_write_other hj

@[simp] theorem Dev.setBlk_read (d : Dev) (k : Nat) (x : BlockSt) : (d.setBlk k x).blk k = x := by
  simp only [Dev.setBlk, Dev.blk]
  exact Tab.read_write_same

theorem Dev.setBlk_other (d : Dev) (k j : Nat) (x : BlockSt) (hj : j ≠ k) :
    (d.setBlk k x).blk j = d.blk j := by
  simp only [Dev.setBlk, Dev.blk]
  exact Tab.read_write_other hj

@[simp] theorem Dev.setOpword_read (d : Dev) (k : Nat) (x : Nat) : (d.setOpword k x).opword k = x := by
  simp only [Dev.setOpword, Dev.opword]
  exact Tab.read_write_same

theorem Dev.setOpword_other (d : Dev) (k j : Nat) (x : Nat) (hj : j ≠ k) :
    (d.setOpword k x).opword j = d.opword j := by
  simp only [Dev.setOpword, Dev.opword]
  exact Tab.read_write_other hj

@[simp] theorem Dev.setBufreg_read (d : Dev) (k : Nat) (x : Word) : (d.setBufreg k x).bufreg k = x := by
  simp only [Dev.setBufreg, Dev.bufreg]
  exact Tab.read_write_same

theorem Dev.setBufreg_other (d : Dev) (k j : Nat) (x : Word) (hj : j ≠ k) :
    (d.setBufreg k x).bufreg j = d.bufreg j := by
  simp only [Dev.setBufreg, Dev.bufreg]
  exact Tab.read_write_other hj

@[simp] theorem Dev.setCell_read (d : Dev) (k : Nat) (x : CellSt) : (d.setCell k x).cell k = x := by
  simp only [Dev.setCell, Dev.cell]
  exact Tab.read_write_same

theorem Dev.setCell_other (d : Dev) (k j : Nat) (x : CellSt) (hj : j ≠ k) :
    (d.setCell k x).cell j = d.cell j := by
  simp only [Dev.setCell, Dev.cell]
  exact Tab.read_write_other hj

@[simp] theorem Dev.setStk_read (d : Dev) (k : Nat) (x : StackSt) : (d.setStk k x).stk k = x := by
  simp only [Dev.setStk, Dev.stk]
  exact Tab.read_write_same

theorem Dev.setStk_other (d : Dev) (k j : Nat) (x : StackSt) (hj : j ≠ k) :
    (d.setStk k x).stk j = d.stk j := by
  simp only [Dev.setStk, Dev.stk]
  exact Tab.read_write_other hj

@[simp] theorem Dev.setBcell_read (d : Dev) (k : Nat) (x : BCell) : (d.setBcell k x).bcell k = x := by
  simp only [Dev.setBcell, Dev.bcell]
  exact Tab.read_write_same

theorem Dev.setBcell_other (d : Dev) (k j : Nat) (x : BCell) (hj : j ≠ k) :
    (d.setBcell k x).bcell j = d.bcell j := by
  simp only [Dev.setBcell, Dev.bcell]
  exact Tab.read_write_other hj

@[simp] theorem Dev.setDom_read (d : Dev) (k : Nat) (x : Dom) : (d.setDom k x).dom k = x := by
  simp only [Dev.setDom, Dev.dom]
  exact Tab.read_write_same

theorem Dev.setDom_other (d : Dev) (k j : Nat) (x : Dom) (hj : j ≠ k) :
    (d.setDom k x).dom j = d.dom j := by
  simp only [Dev.setDom, Dev.dom]
  exact Tab.read_write_other hj

@[simp] theorem Dev.setReq_read (d : Dev) (k : Nat) (x : Req) : (d.setReq k x).req k = x := by
  simp only [Dev.setReq, Dev.req]
  exact Tab.read_write_same

theorem Dev.setReq_other (d : Dev) (k j : Nat) (x : Req) (hj : j ≠ k) :
    (d.setReq k x).req j = d.req j := by
  simp only [Dev.setReq, Dev.req]
  exact Tab.read_write_other hj

@[simp] theorem Dev.setCust_read (d : Dev) (k : Nat) (x : Cust) : (d.setCust k x).cust k = x := by
  simp only [Dev.setCust, Dev.cust]
  exact Tab.read_write_same

theorem Dev.setCust_other (d : Dev) (k j : Nat) (x : Cust) (hj : j ≠ k) :
    (d.setCust k x).cust j = d.cust j := by
  simp only [Dev.setCust, Dev.cust]
  exact Tab.read_write_other hj

@[simp] theorem Dev.setRing_read (d : Dev) (k : Nat) (x : Ring) : (d.setRing k x).ring k = x := by
  simp only [Dev.setRing, Dev.ring]
  exact Tab.read_write_same

theorem Dev.setRing_other (d : Dev) (k j : Nat) (x : Ring) (hj : j ≠ k) :
    (d.setRing k x).ring j = d.ring j := by
  simp only [Dev.setRing, Dev.ring]
  exact Tab.read_write_other hj

@[simp] theorem Dev.setTdie_read (d : Dev) (k : Nat) (x : TDieSt) : (d.setTdie k x).tdie k = x := by
  simp only [Dev.setTdie, Dev.tdie]
  exact Tab.read_write_same

theorem Dev.setTdie_other (d : Dev) (k j : Nat) (x : TDieSt) (hj : j ≠ k) :
    (d.setTdie k x).tdie j = d.tdie j := by
  simp only [Dev.setTdie, Dev.tdie]
  exact Tab.read_write_other hj

@[simp] theorem Dev.setSensor_read (d : Dev) (k : Nat) (x : Sensor) : (d.setSensor k x).sensor k = x := by
  simp only [Dev.setSensor, Dev.sensor]
  exact Tab.read_write_same

theorem Dev.setSensor_other (d : Dev) (k j : Nat) (x : Sensor) (hj : j ≠ k) :
    (d.setSensor k x).sensor j = d.sensor j := by
  simp only [Dev.setSensor, Dev.sensor]
  exact Tab.read_write_other hj

@[simp] theorem Dev.setThdie_read (d : Dev) (k : Nat) (x : ThDie) : (d.setThdie k x).thdie k = x := by
  simp only [Dev.setThdie, Dev.thdie]
  exact Tab.read_write_same

theorem Dev.setThdie_other (d : Dev) (k j : Nat) (x : ThDie) (hj : j ≠ k) :
    (d.setThdie k x).thdie j = d.thdie j := by
  simp only [Dev.setThdie, Dev.thdie]
  exact Tab.read_write_other hj

@[simp] theorem Dev.setSpan_read (d : Dev) (k : Nat) (x : Span) : (d.setSpan k x).span k = x := by
  simp only [Dev.setSpan, Dev.span]
  exact Tab.read_write_same

theorem Dev.setSpan_other (d : Dev) (k j : Nat) (x : Span) (hj : j ≠ k) :
    (d.setSpan k x).span j = d.span j := by
  simp only [Dev.setSpan, Dev.span]
  exact Tab.read_write_other hj

@[simp] theorem Dev.setShadow_read (d : Dev) (k : Nat) (x : Option Shadow) : (d.setShadow k x).shadow k = x := by
  simp only [Dev.setShadow, Dev.shadow]
  exact Tab.read_write_same

theorem Dev.setShadow_other (d : Dev) (k j : Nat) (x : Option Shadow) (hj : j ≠ k) :
    (d.setShadow k x).shadow j = d.shadow j := by
  simp only [Dev.setShadow, Dev.shadow]
  exact Tab.read_write_other hj

@[simp] theorem Dev.setRounds_read (d : Dev) (k : Nat) (x : List Round) : (d.setRounds k x).rounds k = x := by
  simp only [Dev.setRounds, Dev.rounds]
  exact Tab.read_write_same

theorem Dev.setRounds_other (d : Dev) (k j : Nat) (x : List Round) (hj : j ≠ k) :
    (d.setRounds k x).rounds j = d.rounds j := by
  simp only [Dev.setRounds, Dev.rounds]
  exact Tab.read_write_other hj

@[simp] theorem Dev.setHeldHalf_read (d : Dev) (k : Nat) (x : Option Word) : (d.setHeldHalf k x).heldHalf k = x := by
  simp only [Dev.setHeldHalf, Dev.heldHalf]
  exact Tab.read_write_same

theorem Dev.setHeldHalf_other (d : Dev) (k j : Nat) (x : Option Word) (hj : j ≠ k) :
    (d.setHeldHalf k x).heldHalf j = d.heldHalf j := by
  simp only [Dev.setHeldHalf, Dev.heldHalf]
  exact Tab.read_write_other hj

@[simp] theorem Dev.setLatchedHalf_read (d : Dev) (k : Nat) (x : Option Word) : (d.setLatchedHalf k x).latchedHalf k = x
    := by
  simp only [Dev.setLatchedHalf, Dev.latchedHalf]
  exact Tab.read_write_same

theorem Dev.setLatchedHalf_other (d : Dev) (k j : Nat) (x : Option Word) (hj : j ≠ k) :
    (d.setLatchedHalf k x).latchedHalf j = d.latchedHalf j := by
  simp only [Dev.setLatchedHalf, Dev.latchedHalf]
  exact Tab.read_write_other hj

@[simp] theorem Dev.setXparity_read (d : Dev) (k : Nat) (x : Nat) : (d.setXparity k x).xparity k = x := by
  simp only [Dev.setXparity, Dev.xparity]
  exact Tab.read_write_same

theorem Dev.setXparity_other (d : Dev) (k j : Nat) (x : Nat) (hj : j ≠ k) :
    (d.setXparity k x).xparity j = d.xparity j := by
  simp only [Dev.setXparity, Dev.xparity]
  exact Tab.read_write_other hj

@[simp] theorem Dev.setPennant_read (d : Dev) (k : Nat) (x : Bool) : (d.setPennant k x).pennant k = x := by
  simp only [Dev.setPennant, Dev.pennant]
  exact Tab.read_write_same

theorem Dev.setPennant_other (d : Dev) (k j : Nat) (x : Bool) (hj : j ≠ k) :
    (d.setPennant k x).pennant j = d.pennant j := by
  simp only [Dev.setPennant, Dev.pennant]
  exact Tab.read_write_other hj

@[simp] theorem Dev.setMsixEntry_read (d : Dev) (k : Nat) (x : MsixEntry) : (d.setMsixEntry k x).msixEntry k = x := by
  simp only [Dev.setMsixEntry, Dev.msixEntry]
  exact Tab.read_write_same

theorem Dev.setMsixEntry_other (d : Dev) (k j : Nat) (x : MsixEntry) (hj : j ≠ k) :
    (d.setMsixEntry k x).msixEntry j = d.msixEntry j := by
  simp only [Dev.setMsixEntry, Dev.msixEntry]
  exact Tab.read_write_other hj

@[simp] theorem Dev.setPbaBit_read (d : Dev) (k : Nat) (x : Bool) : (d.setPbaBit k x).pbaBit k = x := by
  simp only [Dev.setPbaBit, Dev.pbaBit]
  exact Tab.read_write_same

theorem Dev.setPbaBit_other (d : Dev) (k j : Nat) (x : Bool) (hj : j ≠ k) :
    (d.setPbaBit k x).pbaBit j = d.pbaBit j := by
  simp only [Dev.setPbaBit, Dev.pbaBit]
  exact Tab.read_write_other hj

/-! ### Guards and ends -/

@[simp] theorem Dev.when_true (d : Dev) (f : Dev → Dev) : d.when true f = f d := rfl
@[simp] theorem Dev.when_false (d : Dev) (f : Dev → Dev) : d.when false f = d := rfl
theorem State.always_next (s : State) (f : Dev → Dev) : s.always f = .next { s with dev := f s.dev } := rfl

/-- A chip that changes state raises source 1 (R432, Table 1 of 15). -/
theorem Dev.enter_new {d : Dev} {st : ChipState} (h : d.chip.state ≠ st) :
    d.enter st = { d with chip.state := st, ec.inbox := d.ec.inbox ++ [⟨1, true⟩] } := by
  simp [Dev.enter, h, Dev.raise]
@[simp] theorem Dev.enter_same (d : Dev) : d.enter d.chip.state = d := by simp [Dev.enter]

end Sys2Proof.Machine
end

