-- ==== Sys2Proof/Laws/Ops.lean ====
section
/-! SUPPORT. Shared operations over the device: what each leaves as it was. -/

namespace Sys2Proof.Machine
open Sys2Proof

/-- A counter update changes counters, and where one saturates its log and source 2 (R447, R448). -/
@[simp] theorem Dev.bumpBy_keeps (d : Dev) (off n : Nat) :
    (d.bumpBy off n).free = d.free ∧ (d.bumpBy off n).now = d.now ∧ (d.bumpBy off n).out = d.out ∧ (d.bumpBy off
    n).fuses = d.fuses ∧ (d.bumpBy off n).pins = d.pins ∧ (d.bumpBy off n).held = d.held ∧ (d.bumpBy off n).latched
    = d.latched ∧ (d.bumpBy off n).host = d.host ∧ (d.bumpBy off n).clk = d.clk ∧ (d.bumpBy off n).therm = d.therm
    ∧ (d.bumpBy off n).sec = d.sec ∧ (d.bumpBy off n).img = d.img ∧ (d.bumpBy off n).serve = d.serve ∧ (d.bumpBy
    off n).doms = d.doms ∧ (d.bumpBy off n).bcmd = d.bcmd ∧ (d.bumpBy off n).flags = d.flags ∧ (d.bumpBy off
    n).waiters = d.waiters ∧ (d.bumpBy off n).queues = d.queues ∧ (d.bumpBy off n).regions = d.regions ∧ (d.bumpBy
    off n).blocks = d.blocks ∧ (d.bumpBy off n).imem = d.imem ∧ (d.bumpBy off n).bufregs = d.bufregs ∧ (d.bumpBy
    off n).cells = d.cells ∧ (d.bumpBy off n).scratch = d.scratch ∧ (d.bumpBy off n).bbuf = d.bbuf ∧ (d.bumpBy off
    n).sramEpoch = d.sramEpoch ∧ (d.bumpBy off n).badScratch = d.badScratch ∧ (d.bumpBy off n).badBbuf = d.badBbuf
    ∧ (d.bumpBy off n).badImem = d.badImem ∧ (d.bumpBy off n).badXnet = d.badXnet ∧ (d.bumpBy off n).badTables =
    d.badTables ∧ (d.bumpBy off n).stks = d.stks ∧ (d.bumpBy off n).bcells = d.bcells ∧ (d.bumpBy off n).abuf =
    d.abuf ∧ (d.bumpBy off n).accs = d.accs ∧ (d.bumpBy off n).bauEpoch = d.bauEpoch ∧ (d.bumpBy off n).dram =
    d.dram ∧ (d.bumpBy off n).parity = d.parity ∧ (d.bumpBy off n).net = d.net ∧ (d.bumpBy off n).twin = d.twin ∧
    (d.bumpBy off n).tap = d.tap ∧ (d.bumpBy off n).pathScratch = d.pathScratch ∧ (d.bumpBy off n).pathBbuf =
    d.pathBbuf ∧ (d.bumpBy off n).pathImem = d.pathImem ∧ (d.bumpBy off n).pathXnet = d.pathXnet ∧ (d.bumpBy off
    n).served = d.served ∧ (d.bumpBy off n).badPath = d.badPath := by
  unfold Dev.bumpBy
  dsimp only
  split
  · unfold Dev.saturated
    (repeat' split) <;> simp
  · simp

@[simp] theorem Dev.bump_keeps (d : Dev) (off : Nat) :
    (d.bump off).free = d.free ∧ (d.bump off).now = d.now ∧ (d.bump off).out = d.out ∧ (d.bump off).fuses = d.fuses
    ∧ (d.bump off).pins = d.pins ∧ (d.bump off).held = d.held ∧ (d.bump off).latched = d.latched ∧ (d.bump
    off).host = d.host ∧ (d.bump off).clk = d.clk ∧ (d.bump off).therm = d.therm ∧ (d.bump off).sec = d.sec ∧
    (d.bump off).img = d.img ∧ (d.bump off).serve = d.serve ∧ (d.bump off).doms = d.doms ∧ (d.bump off).bcmd =
    d.bcmd ∧ (d.bump off).flags = d.flags ∧ (d.bump off).waiters = d.waiters ∧ (d.bump off).queues = d.queues ∧
    (d.bump off).regions = d.regions ∧ (d.bump off).blocks = d.blocks ∧ (d.bump off).imem = d.imem ∧ (d.bump
    off).bufregs = d.bufregs ∧ (d.bump off).cells = d.cells ∧ (d.bump off).scratch = d.scratch ∧ (d.bump off).bbuf
    = d.bbuf ∧ (d.bump off).sramEpoch = d.sramEpoch ∧ (d.bump off).badScratch = d.badScratch ∧ (d.bump off).badBbuf
    = d.badBbuf ∧ (d.bump off).badImem = d.badImem ∧ (d.bump off).badXnet = d.badXnet ∧ (d.bump off).badTables =
    d.badTables ∧ (d.bump off).stks = d.stks ∧ (d.bump off).bcells = d.bcells ∧ (d.bump off).abuf = d.abuf ∧
    (d.bump off).accs = d.accs ∧ (d.bump off).bauEpoch = d.bauEpoch ∧ (d.bump off).dram = d.dram ∧ (d.bump
    off).parity = d.parity ∧ (d.bump off).net = d.net ∧ (d.bump off).twin = d.twin ∧ (d.bump off).tap = d.tap ∧
    (d.bump off).pathScratch = d.pathScratch ∧ (d.bump off).pathBbuf = d.pathBbuf ∧ (d.bump off).pathImem =
    d.pathImem ∧ (d.bump off).pathXnet = d.pathXnet ∧ (d.bump off).served = d.served ∧ (d.bump off).badPath =
    d.badPath := by
  simp [Dev.bump]

/-- Of the chip registers only the saturation log changes. -/
@[simp] theorem Dev.bumpBy_chip (d : Dev) (off n : Nat) :
    (d.bumpBy off n).chip.state = d.chip.state ∧ (d.bumpBy off n).chip.stage = d.chip.stage ∧
    (d.bumpBy off n).chip.faultCode = d.chip.faultCode ∧ (d.bumpBy off n).chip.startErr = d.chip.startErr ∧
    (d.bumpBy off n).chip.lastReset = d.chip.lastReset ∧ (d.bumpBy off n).chip.straps = d.chip.straps ∧
    (d.bumpBy off n).chip.ioLost = d.chip.ioLost := by
  unfold Dev.bumpBy
  dsimp only
  split
  · unfold Dev.saturated
    (repeat' split) <;> simp [Dev.setCtr]
  · simp [Dev.setCtr]

@[simp] theorem Dev.bump_chip (d : Dev) (off : Nat) :
    (d.bump off).chip.state = d.chip.state ∧ (d.bump off).chip.stage = d.chip.stage ∧
    (d.bump off).chip.faultCode = d.chip.faultCode ∧ (d.bump off).chip.startErr = d.chip.startErr ∧
    (d.bump off).chip.lastReset = d.chip.lastReset ∧ (d.bump off).chip.straps = d.chip.straps ∧
    (d.bump off).chip.ioLost = d.chip.ioLost := by
  simp [Dev.bump]

/-- A recorded fault changes its region, counters and raises (R23, R24). -/
@[simp] theorem Dev.recordFault_keeps (d : Dev) (r code origin unit : Nat) :
    (d.recordFault r code origin unit).free = d.free ∧ (d.recordFault r code origin unit).now = d.now ∧
    (d.recordFault r code origin unit).out = d.out ∧ (d.recordFault r code origin unit).fuses = d.fuses ∧
    (d.recordFault r code origin unit).pins = d.pins ∧ (d.recordFault r code origin unit).held = d.held ∧
    (d.recordFault r code origin unit).latched = d.latched ∧ (d.recordFault r code origin unit).host = d.host ∧
    (d.recordFault r code origin unit).clk = d.clk ∧ (d.recordFault r code origin unit).therm = d.therm ∧
    (d.recordFault r code origin unit).sec = d.sec ∧ (d.recordFault r code origin unit).img = d.img ∧
    (d.recordFault r code origin unit).serve = d.serve ∧ (d.recordFault r code origin unit).doms = d.doms ∧
    (d.recordFault r code origin unit).bcmd = d.bcmd ∧ (d.recordFault r code origin unit).flags = d.flags ∧
    (d.recordFault r code origin unit).waiters = d.waiters ∧ (d.recordFault r code origin unit).queues = d.queues ∧
    (d.recordFault r code origin unit).blocks = d.blocks ∧ (d.recordFault r code origin unit).imem = d.imem ∧
    (d.recordFault r code origin unit).bufregs = d.bufregs ∧ (d.recordFault r code origin unit).cells = d.cells ∧
    (d.recordFault r code origin unit).scratch = d.scratch ∧ (d.recordFault r code origin unit).bbuf = d.bbuf ∧
    (d.recordFault r code origin unit).sramEpoch = d.sramEpoch ∧ (d.recordFault r code origin unit).badScratch =
    d.badScratch ∧ (d.recordFault r code origin unit).badBbuf = d.badBbuf ∧ (d.recordFault r code origin
    unit).badImem = d.badImem ∧ (d.recordFault r code origin unit).badXnet = d.badXnet ∧ (d.recordFault r code
    origin unit).badTables = d.badTables ∧ (d.recordFault r code origin unit).stks = d.stks ∧ (d.recordFault r code
    origin unit).bcells = d.bcells ∧ (d.recordFault r code origin unit).abuf = d.abuf ∧ (d.recordFault r code
    origin unit).accs = d.accs ∧ (d.recordFault r code origin unit).bauEpoch = d.bauEpoch ∧ (d.recordFault r code
    origin unit).dram = d.dram ∧ (d.recordFault r code origin unit).parity = d.parity ∧ (d.recordFault r code
    origin unit).net = d.net ∧ (d.recordFault r code origin unit).twin = d.twin ∧ (d.recordFault r code origin
    unit).tap = d.tap ∧ (d.recordFault r code origin unit).pathScratch = d.pathScratch ∧ (d.recordFault r code
    origin unit).pathBbuf = d.pathBbuf ∧ (d.recordFault r code origin unit).pathImem = d.pathImem ∧ (d.recordFault
    r code origin unit).pathXnet = d.pathXnet ∧ (d.recordFault r code origin unit).served = d.served ∧
    (d.recordFault r code origin unit).badPath = d.badPath := by
  unfold Dev.recordFault
  split
  · simp
  · simp [Dev.modRegion]

theorem foldl_keep {α β : Type} (g : Dev → α) (f : Dev → β → Dev) (l : List β) (d : Dev)
    (h : ∀ a x, g (f a x) = g a) : g (l.foldl f d) = g d := by
  induction l generalizing d with
  | nil => rfl
  | cons x r ih => exact (ih (f d x)).trans (h d x)

@[simp] theorem Dev.stopRegion_keeps (d : Dev) (r o : Nat) :
    (d.stopRegion r o).free = d.free ∧ (d.stopRegion r o).now = d.now ∧ (d.stopRegion r o).out = d.out ∧
    (d.stopRegion r o).fuses = d.fuses ∧ (d.stopRegion r o).pins = d.pins ∧ (d.stopRegion r o).held = d.held ∧
    (d.stopRegion r o).latched = d.latched ∧ (d.stopRegion r o).host = d.host ∧ (d.stopRegion r o).clk = d.clk ∧
    (d.stopRegion r o).therm = d.therm ∧ (d.stopRegion r o).sec = d.sec ∧ (d.stopRegion r o).img = d.img ∧
    (d.stopRegion r o).serve = d.serve ∧ (d.stopRegion r o).doms = d.doms ∧ (d.stopRegion r o).bcmd = d.bcmd ∧
    (d.stopRegion r o).flags = d.flags ∧ (d.stopRegion r o).waiters = d.waiters ∧ (d.stopRegion r o).queues =
    d.queues ∧ (d.stopRegion r o).blocks = d.blocks ∧ (d.stopRegion r o).imem = d.imem ∧ (d.stopRegion r o).bufregs
    = d.bufregs ∧ (d.stopRegion r o).cells = d.cells ∧ (d.stopRegion r o).scratch = d.scratch ∧ (d.stopRegion r
    o).bbuf = d.bbuf ∧ (d.stopRegion r o).sramEpoch = d.sramEpoch ∧ (d.stopRegion r o).badScratch = d.badScratch ∧
    (d.stopRegion r o).badBbuf = d.badBbuf ∧ (d.stopRegion r o).badImem = d.badImem ∧ (d.stopRegion r o).badXnet =
    d.badXnet ∧ (d.stopRegion r o).badTables = d.badTables ∧ (d.stopRegion r o).stks = d.stks ∧ (d.stopRegion r
    o).bcells = d.bcells ∧ (d.stopRegion r o).abuf = d.abuf ∧ (d.stopRegion r o).accs = d.accs ∧ (d.stopRegion r
    o).bauEpoch = d.bauEpoch ∧ (d.stopRegion r o).dram = d.dram ∧ (d.stopRegion r o).parity = d.parity ∧
    (d.stopRegion r o).net = d.net ∧ (d.stopRegion r o).twin = d.twin ∧ (d.stopRegion r o).tap = d.tap ∧
    (d.stopRegion r o).pathScratch = d.pathScratch ∧ (d.stopRegion r o).pathBbuf = d.pathBbuf ∧ (d.stopRegion r
    o).pathImem = d.pathImem ∧ (d.stopRegion r o).pathXnet = d.pathXnet ∧ (d.stopRegion r o).served = d.served ∧
    (d.stopRegion r o).badPath = d.badPath := by
  unfold Dev.stopRegion
  split <;> simp

/-- A fault in the cycle of the domain's stop changes the regions and counters (R444). -/
theorem Dev.alsoFaults_keeps (d : Dev) (n r code unit : Nat) :
    (d.alsoFaults n r code unit).free = d.free ∧ (d.alsoFaults n r code unit).now = d.now ∧ (d.alsoFaults n r
    code unit).out = d.out ∧ (d.alsoFaults n r code unit).fuses = d.fuses ∧ (d.alsoFaults n r code unit).pins =
    d.pins ∧ (d.alsoFaults n r code unit).held = d.held ∧ (d.alsoFaults n r code unit).latched = d.latched ∧
    (d.alsoFaults n r code unit).host = d.host ∧ (d.alsoFaults n r code unit).clk = d.clk ∧ (d.alsoFaults n r
    code unit).therm = d.therm ∧ (d.alsoFaults n r code unit).sec = d.sec ∧ (d.alsoFaults n r code unit).img =
    d.img ∧ (d.alsoFaults n r code unit).serve = d.serve ∧ (d.alsoFaults n r code unit).bcmd = d.bcmd ∧
    (d.alsoFaults n r code unit).flags = d.flags ∧ (d.alsoFaults n r code unit).waiters = d.waiters ∧
    (d.alsoFaults n r code unit).queues = d.queues ∧ (d.alsoFaults n r code unit).blocks = d.blocks ∧
    (d.alsoFaults n r code unit).imem = d.imem ∧ (d.alsoFaults n r code unit).bufregs = d.bufregs ∧
    (d.alsoFaults n r code unit).cells = d.cells ∧ (d.alsoFaults n r code unit).scratch = d.scratch ∧
    (d.alsoFaults n r code unit).bbuf = d.bbuf ∧ (d.alsoFaults n r code unit).sramEpoch = d.sramEpoch ∧
    (d.alsoFaults n r code unit).badScratch = d.badScratch ∧ (d.alsoFaults n r code unit).badBbuf = d.badBbuf ∧
    (d.alsoFaults n r code unit).badImem = d.badImem ∧ (d.alsoFaults n r code unit).badXnet = d.badXnet ∧
    (d.alsoFaults n r code unit).badTables = d.badTables ∧ (d.alsoFaults n r code unit).stks = d.stks ∧
    (d.alsoFaults n r code unit).bcells = d.bcells ∧ (d.alsoFaults n r code unit).abuf = d.abuf ∧ (d.alsoFaults
    n r code unit).accs = d.accs ∧ (d.alsoFaults n r code unit).bauEpoch = d.bauEpoch ∧ (d.alsoFaults n r code
    unit).dram = d.dram ∧ (d.alsoFaults n r code unit).parity = d.parity ∧ (d.alsoFaults n r code unit).net =
    d.net ∧ (d.alsoFaults n r code unit).twin = d.twin ∧ (d.alsoFaults n r code unit).tap = d.tap ∧
    (d.alsoFaults n r code unit).pathScratch = d.pathScratch ∧ (d.alsoFaults n r code unit).pathBbuf =
    d.pathBbuf ∧ (d.alsoFaults n r code unit).pathImem = d.pathImem ∧ (d.alsoFaults n r code unit).pathXnet =
    d.pathXnet ∧ (d.alsoFaults n r code unit).served = d.served ∧ (d.alsoFaults n r code unit).badPath =
    d.badPath := by
  unfold Dev.alsoFaults
  split
  · simp
  · and_intros <;>
      exact (foldl_keep _ _ _ _ (fun a x => by simp [Dev.modRegion])).trans (by simp [Dev.modRegion])

/-- A region fault changes the regions and the run state of the domain (R23, R24, R444). -/
theorem Dev.regionFault_keeps (d : Dev) (r code unit : Nat) :
    (d.regionFault r code unit).free = d.free ∧ (d.regionFault r code unit).now = d.now ∧ (d.regionFault r code
    unit).out = d.out ∧ (d.regionFault r code unit).fuses = d.fuses ∧ (d.regionFault r code unit).pins = d.pins ∧
    (d.regionFault r code unit).held = d.held ∧ (d.regionFault r code unit).latched = d.latched ∧ (d.regionFault r
    code unit).host = d.host ∧ (d.regionFault r code unit).clk = d.clk ∧ (d.regionFault r code unit).therm =
    d.therm ∧ (d.regionFault r code unit).sec = d.sec ∧ (d.regionFault r code unit).img = d.img ∧ (d.regionFault r
    code unit).serve = d.serve ∧ (d.regionFault r code unit).bcmd = d.bcmd ∧ (d.regionFault r code unit).flags =
    d.flags ∧ (d.regionFault r code unit).waiters = d.waiters ∧ (d.regionFault r code unit).queues = d.queues ∧
    (d.regionFault r code unit).blocks = d.blocks ∧ (d.regionFault r code unit).imem = d.imem ∧ (d.regionFault r
    code unit).bufregs = d.bufregs ∧ (d.regionFault r code unit).cells = d.cells ∧ (d.regionFault r code
    unit).scratch = d.scratch ∧ (d.regionFault r code unit).bbuf = d.bbuf ∧ (d.regionFault r code unit).sramEpoch =
    d.sramEpoch ∧ (d.regionFault r code unit).badScratch = d.badScratch ∧ (d.regionFault r code unit).badBbuf =
    d.badBbuf ∧ (d.regionFault r code unit).badImem = d.badImem ∧ (d.regionFault r code unit).badXnet = d.badXnet ∧
    (d.regionFault r code unit).badTables = d.badTables ∧ (d.regionFault r code unit).stks = d.stks ∧
    (d.regionFault r code unit).bcells = d.bcells ∧ (d.regionFault r code unit).abuf = d.abuf ∧ (d.regionFault r
    code unit).accs = d.accs ∧ (d.regionFault r code unit).bauEpoch = d.bauEpoch ∧ (d.regionFault r code unit).dram
    = d.dram ∧ (d.regionFault r code unit).parity = d.parity ∧ (d.regionFault r code unit).net = d.net ∧
    (d.regionFault r code unit).twin = d.twin ∧ (d.regionFault r code unit).tap = d.tap ∧ (d.regionFault r code
    unit).pathScratch = d.pathScratch ∧ (d.regionFault r code unit).pathBbuf = d.pathBbuf ∧ (d.regionFault r code
    unit).pathImem = d.pathImem ∧ (d.regionFault r code unit).pathXnet = d.pathXnet ∧ (d.regionFault r code
    unit).served = d.served ∧ (d.regionFault r code unit).badPath = d.badPath := by
  unfold Dev.regionFault
  split
  · simp
  · split
    · simp
    · split
      · split
        · simpa using Dev.alsoFaults_keeps d _ r code unit
        · simp
      · and_intros <;>
          exact (foldl_keep _ _ _ _ (fun a x => by simp)).trans (by simp [Dev.modDom])

end Sys2Proof.Machine
end

