-- ==== Sys2Proof/Laws/Same.lean ====
section
/-! SUPPORT. What an access to memory or an SRAM may change: bytes, queues, stacks, counters, log entries, messages. The
units named here, and of the host interface the parts named, stay as they were, whatever is loaded or stored. -/

namespace Sys2Proof.Machine
open Sys2Proof

-- One proof at a time: each proof that waits for another keeps a thread, and a thread its stack.
set_option Elab.async false

/-- The units that no data access touches are the same in both devices. -/
structure Same (d e : Dev) : Prop where
  all : e.blocks = d.blocks ∧ e.flags = d.flags ∧ e.waiters = d.waiters ∧ e.imem = d.imem ∧ e.regions = d.regions ∧
    e.doms = d.doms ∧ e.serve = d.serve ∧ e.img = d.img ∧ e.clk = d.clk ∧ e.fuses = d.fuses ∧ e.pins = d.pins ∧
    e.net = d.net ∧ e.host.pennants = d.host.pennants ∧ e.host.rings = d.host.rings ∧
    e.host.held = d.host.held ∧ e.host.linkUp = d.host.linkUp ∧ e.host.copied = d.host.copied ∧
    e.therm = d.therm ∧ e.sec = d.sec ∧ e.tap = d.tap ∧ e.bcmd = d.bcmd ∧ e.bufregs = d.bufregs ∧ e.abuf = d.abuf ∧
    e.accs = d.accs ∧ e.bcells = d.bcells
theorem same_iff {d e : Dev} : Same d e ↔ (e.blocks = d.blocks ∧ e.flags = d.flags ∧ e.waiters = d.waiters ∧
    e.imem = d.imem ∧ e.regions = d.regions ∧ e.doms = d.doms ∧ e.serve = d.serve ∧ e.img = d.img ∧ e.clk = d.clk ∧
    e.fuses = d.fuses ∧ e.pins = d.pins ∧ e.net = d.net ∧
    e.host.pennants = d.host.pennants ∧ e.host.rings = d.host.rings ∧ e.host.held = d.host.held ∧
    e.host.linkUp = d.host.linkUp ∧ e.host.copied = d.host.copied ∧ e.therm = d.therm ∧ e.sec = d.sec ∧
    e.tap = d.tap ∧ e.bcmd = d.bcmd ∧ e.bufregs = d.bufregs ∧ e.abuf = d.abuf ∧ e.accs = d.accs ∧
    e.bcells = d.bcells) := ⟨fun h => h.1, fun h => ⟨h⟩⟩
theorem Same.refl (a : Dev) : Same a a := by rw [same_iff]; simp
theorem Same.trans {a b c : Dev} (h : Same a b) (k : Same b c) : Same a c := by rw [same_iff] at *; simp_all
theorem foldl_same {β : Type} (f : Dev → β → Dev) (l : List β) (d : Dev) (h : ∀ a x, Same a (f a x)) :
    Same d (l.foldl f d) := by
  induction l generalizing d with
  | nil => exact Same.refl d
  | cons x r ih => exact (h d x).trans (ih (f d x))

theorem Dev.setCtr_same (d : Dev) (k : Nat) (x : Counter) : Same d (Dev.setCtr d k x) := by
  unfold Dev.setCtr
  grind (splits := 40) -ring -linarith -order only [same_iff]

theorem Dev.setQueue_same (d : Dev) (k : Nat) (x : Queue) : Same d (Dev.setQueue d k x) := by
  unfold Dev.setQueue
  grind (splits := 40) -ring -linarith -order only [same_iff]

theorem Dev.modQueue_same (d : Dev) (k : Nat) (f : Queue → Queue) : Same d (Dev.modQueue d k f) := by
  unfold Dev.modQueue
  grind (splits := 40) -ring -linarith -order only [same_iff, Dev.setQueue_same]

theorem Dev.setCell_same (d : Dev) (k : Nat) (x : CellSt) : Same d (Dev.setCell d k x) := by
  unfold Dev.setCell
  grind (splits := 40) -ring -linarith -order only [same_iff]

theorem Dev.modCell_same (d : Dev) (k : Nat) (f : CellSt → CellSt) : Same d (Dev.modCell d k f) := by
  unfold Dev.modCell
  grind (splits := 40) -ring -linarith -order only [same_iff, Dev.setCell_same]

theorem Dev.setStk_same (d : Dev) (k : Nat) (x : StackSt) : Same d (Dev.setStk d k x) := by
  unfold Dev.setStk
  grind (splits := 40) -ring -linarith -order only [same_iff]

theorem Dev.modStk_same (d : Dev) (k : Nat) (f : StackSt → StackSt) : Same d (Dev.modStk d k f) := by
  unfold Dev.modStk
  grind (splits := 40) -ring -linarith -order only [same_iff, Dev.setStk_same]

theorem Dev.emit_same (d : Dev) (o : Out) : Same d (Dev.emit d o) := by
  unfold Dev.emit
  grind (splits := 40) -ring -linarith -order only [same_iff]

theorem Dev.mirrorSend_same (d : Dev) (x : TwinItem) : Same d (Dev.mirrorSend d x) := by
  unfold Dev.mirrorSend
  grind (splits := 40) -ring -linarith -order only [same_iff, Dev.emit_same]

theorem Dev.mirrorQueued_same (d : Dev) (x : TwinItem) : Same d (Dev.mirrorQueued d x) := by
  unfold Dev.mirrorQueued
  grind (splits := 40) -ring -linarith -order only [same_iff, Dev.mirrorSend_same]

theorem Dev.raise_same (d : Dev) (src : Nat) : Same d (Dev.raise d src) := by
  unfold Dev.raise
  grind (splits := 40) -ring -linarith -order only [same_iff]

theorem Dev.saturated_same (d : Dev) (off : Nat) : Same d (Dev.saturated d off) := by
  unfold Dev.saturated
  grind (splits := 40) -ring -linarith -order only [same_iff, Dev.raise_same]

theorem Dev.bumpBy_same (d : Dev) (off k : Nat) : Same d (Dev.bumpBy d off k) := by
  unfold Dev.bumpBy
  grind (splits := 40) -ring -linarith -order only [same_iff, Dev.saturated_same, Dev.setCtr_same]

theorem Dev.bump_same (d : Dev) (off : Nat) : Same d (Dev.bump d off) := by
  unfold Dev.bump
  grind (splits := 40) -ring -linarith -order only [same_iff, Dev.bumpBy_same]

theorem Dev.putChunk_same (d : Dev) (st die : Nat) (p : Stripe) (bytes : List Byte) (m : Nat) : Same d (Dev.putChunk
    d st die p bytes m) := by
  unfold Dev.putChunk
  grind (splits := 40) -ring -linarith -order only [same_iff]

theorem Dev.raceChunk_same (d : Dev) (st die : Nat) (p : Stripe) : Same d (Dev.raceChunk d st die p) := by
  unfold Dev.raceChunk
  grind (splits := 40) -ring -linarith -order only [same_iff, Dev.modStk_same]

theorem Dev.writeChunkAs_same (d0 : Dev) (st die : Nat) (p : Stripe) (bytes : List Byte) (flips : Bool) (m : Nat) :
    Same d0 (Dev.writeChunkAs d0 st die p bytes flips m) := by
  unfold Dev.writeChunkAs
  grind (splits := 40) -ring -linarith -order only [same_iff, Dev.putChunk_same, Dev.raceChunk_same,
    Dev.setStk_same]

theorem Dev.writeChunk_same (d : Dev) (st die : Nat) (p : Stripe) (bytes : List Byte) (flips : Bool) : Same d
    (Dev.writeChunk d st die p bytes flips) := by
  unfold Dev.writeChunk
  grind (splits := 40) -ring -linarith -order only [same_iff, Dev.writeChunkAs_same]

theorem Dev.applyDelta_same (d : Dev) (st : Nat) (p : Stripe) (i : Nat) (delta : List Byte) (j : Nat) : Same d
    (Dev.applyDelta d st p i delta j) := by
  unfold Dev.applyDelta
  grind (splits := 40) -ring -linarith -order only [same_iff, Dev.bump_same, Dev.writeChunkAs_same]

theorem Dev.putStripe_same (d : Dev) (st : Nat) (p : Stripe) (chunks : List (List Byte)) (flips : Bool) : Same d
    (Dev.putStripe d st p chunks flips) := by
  unfold Dev.putStripe
  apply foldl_same
  intro a x
  grind (splits := 40) -ring -linarith -order only [same_iff, Dev.writeChunk_same]

theorem Dev.logUe_same (d : Dev) (st : Nat) (p : Stripe) (outcome : Nat) (src : MemSource) : Same d (Dev.logUe d st
    p outcome src) := by
  unfold Dev.logUe
  grind (splits := 40) -ring -linarith -order only [same_iff, Dev.modStk_same, Dev.raise_same]

theorem Dev.invalidate_same (d : Dev) (st : Nat) (p : Stripe) (i : Nat) : Same d (Dev.invalidate d st p i) := by
  unfold Dev.invalidate
  grind (splits := 40) -ring -linarith -order only [same_iff, Dev.modStk_same]

theorem Dev.reconstruct_same (d : Dev) (st : Nat) (p : Stripe) (i : Nat) {d_ : Dev} (h_ : Dev.reconstruct d st p i =
    some d_) : Same d d_ := by
  unfold Dev.reconstruct at h_
  grind (splits := 40) -ring -linarith -order only [foldl_same, same_iff, Dev.bump_same, Dev.invalidate_same,
    Dev.modStk_same, Dev.putChunk_same]

theorem Dev.rewriteStripe_same (d : Dev) (st : Nat) (p : Stripe) (good : List (List Byte)) : Same d
    (Dev.rewriteStripe d st p good) := by
  unfold Dev.rewriteStripe
  apply foldl_same
  intro a x
  grind (splits := 40) -ring -linarith -order only [same_iff, Dev.invalidate_same, Dev.putChunk_same]

theorem Dev.openRow_same (d : Dev) (st i bank row : Nat) : Same d (Dev.openRow d st i bank row) := by
  unfold Dev.openRow
  grind (splits := 40) -ring -linarith -order only [same_iff, Dev.setStk_same]

theorem Dev.rereads_same (d : Dev) (st : Nat) (p : Stripe) : Same d (Dev.rereads d st p) := by
  unfold Dev.rereads
  grind (splits := 40) -ring -linarith -order only [same_iff, Dev.bumpBy_same]

theorem Dev.retried_same (d : Dev) (st i : Nat) (p : Stripe) : Same d (Dev.retried d st i p) := by
  unfold Dev.retried
  grind (splits := 40) -ring -linarith -order only [same_iff, Dev.bump_same]

theorem Dev.readStripe_same (d : Dev) (st : Nat) (p : Stripe) : Same d (Dev.readStripe d st p) := by
  unfold Dev.readStripe
  grind (splits := 40) -ring -linarith -order only [foldl_same, same_iff, Dev.openRow_same, Dev.rereads_same,
    Dev.retried_same]

theorem Dev.mirrorRepair_same (d : Dev) (st : Nat) (p : Stripe) (src : MemSource) {d_ : Dev} (h_ : Dev.mirrorRepair
    d st p src = some d_) : Same d d_ := by
  unfold Dev.mirrorRepair at h_
  grind (splits := 40) -ring -linarith -order only [same_iff, Dev.bump_same, Dev.logUe_same, Dev.readStripe_same,
    Dev.rewriteStripe_same]

theorem Dev.mended_same (d : Dev) (w : Who) (st : Nat) (p : Stripe) (i : Nat) {d_ : Dev} (h_ : Dev.mended d w st p i
    = .ok d_) : Same d d_ := by
  unfold Dev.mended at h_
  grind (splits := 40) -ring -linarith -order only [same_iff, → Dev.mirrorRepair_same, Dev.readStripe_same, →
    Dev.reconstruct_same]

theorem Dev.goodChunk_same (d : Dev) (w : Who) (st : Nat) (p : Stripe) (i : Nat) {p_ : Dev × List Byte} (h_ :
    Dev.goodChunk d w st p i = .ok p_) : Same d p_.1 := by
  unfold Dev.goodChunk at h_
  grind (splits := 40) -ring -linarith -order only [same_iff, → Dev.mended_same, Dev.openRow_same, Dev.retried_same]

theorem Dev.loadBlock_same (d : Dev) (w : Who) (a : Nat) {p_ : Dev × List Byte} (h_ : Dev.loadBlock d w a = .ok p_)
    : Same d p_.1 := by
  unfold Dev.loadBlock at h_
  grind (splits := 40) -ring -linarith -order only [same_iff, → Dev.goodChunk_same]

theorem Dev.loadBlocks_same (d : Dev) (w : Who) (a : Nat) (n0 : Nat) {p_ : Dev × List Byte} (h_ : Dev.loadBlocks d w
    a n0 = .ok p_) : Same d p_.1 := by
  induction n0 generalizing d w a p_ <;>
    (unfold Dev.loadBlocks at h_
     grind (splits := 40) -ring -linarith -order only [same_iff, → Dev.loadBlock_same])

theorem Dev.bankLoad_same (d : Dev) (w : Who) (a n : Nat) {p_ : Dev × List Byte} (h_ : Dev.bankLoad d w a n = .ok
    p_) : Same d p_.1 := by
  unfold Dev.bankLoad at h_
  grind (splits := 40) -ring -linarith -order only [same_iff, → Dev.loadBlocks_same]

theorem Dev.loadMiss_same (d : Dev) (w : Who) (a len : Nat) {p_ : Dev × List Byte} (h_ : Dev.loadMiss d w a len =
    .ok p_) : Same d p_.1 := by
  unfold Dev.loadMiss at h_
  grind (splits := 40) -ring -linarith -order only [same_iff, → Dev.bankLoad_same, Dev.bump_same, Dev.modStk_same]

theorem Dev.linePiece_same (d : Dev) (w : Who) (a len : Nat) {p_ : Dev × List Byte} (h_ : Dev.linePiece d w a len =
    .ok p_) : Same d p_.1 := by
  unfold Dev.linePiece at h_
  grind (splits := 40) -ring -linarith -order only [same_iff, Dev.bump_same, → Dev.loadMiss_same, Dev.modStk_same]

theorem Dev.usesRange_same (d : Dev) (n a len : Nat) : Same d (Dev.usesRange d n a len) := by
  unfold Dev.usesRange
  grind (splits := 40) -ring -linarith -order only [same_iff]

theorem Dev.stepUses_same (d : Dev) (w : Who) (a len : Nat) : Same d (Dev.stepUses d w a len) := by
  unfold Dev.stepUses
  grind (splits := 40) -ring -linarith -order only [same_iff, Dev.usesRange_same]

theorem Dev.loadPiece_same (d : Dev) (w : Who) (a len : Nat) {p_ : Dev × List Byte} (h_ : Dev.loadPiece d w a len =
    .ok p_) : Same d p_.1 := by
  unfold Dev.loadPiece at h_
  grind (splits := 40) -ring -linarith -order only [same_iff, → Dev.linePiece_same, Dev.stepUses_same]

theorem Dev.loadPieces_same (d : Dev) (w : Who) (ps : List (Nat × Nat)) {p_ : Dev × List Byte} (h_ : Dev.loadPieces
    d w ps = .ok p_) : Same d p_.1 := by
  induction ps generalizing d w p_ <;>
    (unfold Dev.loadPieces at h_
     grind (splits := 40) -ring -linarith -order only [same_iff, → Dev.loadPiece_same])

theorem Dev.load_same (d : Dev) (w : Who) (a len : Nat) {p_ : Dev × List Byte} (h_ : Dev.load d w a len = .ok p_) :
    Same d p_.1 := by
  unfold Dev.load at h_
  grind (splits := 40) -ring -linarith -order only [same_iff, → Dev.loadPieces_same]

theorem Dev.oldChunks_same (d : Dev) (w : Who) (ps : List (Nat × List Byte)) {p_ : Dev × List Cover} (h_ :
    Dev.oldChunks d w ps = .ok p_) : Same d p_.1 := by
  induction ps generalizing d w p_ <;>
    (unfold Dev.oldChunks at h_
     grind (splits := 40) -ring -linarith -order only [same_iff, → Dev.goodChunk_same])

theorem Dev.narrowChunk_same (d : Dev) (flips : Bool) (c : Cover) : Same d (Dev.narrowChunk d flips c) := by
  unfold Dev.narrowChunk
  grind (splits := 40) -ring -linarith -order only [same_iff, Dev.applyDelta_same, Dev.modStk_same,
    Dev.writeChunk_same]

theorem Dev.narrowChunks_same (d : Dev) (w : Who) (flips : Bool) (ps : List (Nat × List Byte)) {d_ : Dev} (h_ :
    Dev.narrowChunks d w flips ps = .ok d_) : Same d d_ := by
  unfold Dev.narrowChunks at h_
  grind (splits := 40) -ring -linarith -order only [foldl_same, same_iff, Dev.narrowChunk_same, →
    Dev.oldChunks_same]

theorem Dev.stripeStore_same (d : Dev) (w : Who) (flips : Bool) (st : Nat) (p : Stripe) (chunks : List (List Byte))
    {d_ : Dev} (h_ : Dev.stripeStore d w flips st p chunks = .ok d_) : Same d d_ := by
  unfold Dev.stripeStore at h_
  grind (splits := 40) -ring -linarith -order only [foldl_same, same_iff, Dev.openRow_same, Dev.putStripe_same]

theorem Dev.bankStore_same (d : Dev) (w : Who) (flips : Bool) (a : Nat) (bytes : List Byte) {d_ : Dev} (h_ :
    Dev.bankStore d w flips a bytes = .ok d_) : Same d d_ := by
  unfold Dev.bankStore at h_
  grind (splits := 40) -ring -linarith -order only [same_iff, Dev.bumpBy_same, → Dev.narrowChunks_same, →
    Dev.stripeStore_same]

theorem Dev.lineBefore_same (d : Dev) (w : Who) (a n : Nat) {p_ : Dev × List Byte} (h_ : Dev.lineBefore d w a n =
    .ok p_) : Same d p_.1 := by
  unfold Dev.lineBefore at h_
  grind (splits := 40) -ring -linarith -order only [same_iff, → Dev.bankLoad_same]

theorem Dev.cacheStore_same (d : Dev) (w : Who) (a : Nat) (base bytes : List Byte) : Same d (Dev.cacheStore d w a
    base bytes) := by
  unfold Dev.cacheStore
  grind (splits := 40) -ring -linarith -order only [same_iff, Dev.modStk_same]

theorem Dev.streamOut_same (d : Dev) (a : Nat) (bytes : List Byte) : Same d (Dev.streamOut d a bytes) := by
  unfold Dev.streamOut
  grind (splits := 40) -ring -linarith -order only [same_iff, Dev.mirrorQueued_same]

theorem Dev.raceRange_same (d : Dev) (a n : Nat) : Same d (Dev.raceRange d a n) := by
  unfold Dev.raceRange
  apply foldl_same
  intro a x
  grind (splits := 40) -ring -linarith -order only [same_iff, Dev.raceChunk_same]

theorem Dev.mirrorStore_same (d : Dev) (w : Who) (a : Nat) (bytes : List Byte) {d_ : Dev} (h_ : Dev.mirrorStore d w
    a bytes = .ok d_) : Same d d_ := by
  unfold Dev.mirrorStore at h_
  (repeat' split at h_) <;>
    grind (splits := 40) -ring -linarith -order only [same_iff, → Dev.bankStore_same, Dev.cacheStore_same, →
    Dev.lineBefore_same, Dev.raceRange_same]

theorem Dev.storePiece_same (d : Dev) (w : Who) (a : Nat) (bs : List Byte) {d_ : Dev} (h_ : Dev.storePiece d w a bs
    = .ok d_) : Same d d_ := by
  unfold Dev.storePiece at h_
  (repeat' split at h_) <;>
    grind (splits := 40) -ring -linarith -order only [same_iff, → Dev.bankStore_same, Dev.cacheStore_same, →
    Dev.lineBefore_same, → Dev.mirrorStore_same, Dev.stepUses_same, Dev.streamOut_same]

theorem Dev.storePieces_same (d : Dev) (w : Who) (ps : List (Nat × Nat)) (bytes : List Byte) {d_ : Dev} (h_ :
    Dev.storePieces d w ps bytes = .ok d_) : Same d d_ := by
  induction ps generalizing d w bytes d_ <;>
    (unfold Dev.storePieces at h_
     grind (splits := 40) -ring -linarith -order only [same_iff, → Dev.storePiece_same])

theorem Dev.store_same (d : Dev) (w : Who) (a : Nat) (bytes : List Byte) {d_ : Dev} (h_ : Dev.store d w a bytes =
    .ok d_) : Same d d_ := by
  unfold Dev.store at h_
  grind (splits := 40) -ring -linarith -order only [same_iff, → Dev.storePieces_same]

theorem Dev.bbufWrite_same (d : Dev) (k a : Nat) (bytes : List Byte) : Same d (Dev.bbufWrite d k a bytes) := by
  unfold Dev.bbufWrite
  grind (splits := 40) -ring -linarith -order only [same_iff]

theorem Dev.cellWrite_same (d : Dev) (g a : Nat) (bytes : List Byte) : Same d (Dev.cellWrite d g a bytes) := by
  unfold Dev.cellWrite
  grind (splits := 40) -ring -linarith -order only [same_iff]

theorem Dev.exchange_same (d : Dev) (g : Nat) (bs : List Byte) : Same d (Dev.exchange d g bs) := by
  unfold Dev.exchange
  grind (splits := 40) -ring -linarith -order only [same_iff, Dev.modCell_same]

theorem Dev.cellReplayed_same (d : Dev) (x n : Nat) : Same d (Dev.cellReplayed d x n) := by
  unfold Dev.cellReplayed
  grind (splits := 40) -ring -linarith -order only [same_iff, Dev.bumpBy_same, Dev.modCell_same]

theorem Dev.scratchWords_same (d : Dev) (k n : Nat) {d_ : Dev} (h_ : Dev.scratchWords d k n = .ok d_) : Same d d_ := by
  unfold Dev.scratchWords at h_
  grind (splits := 40) -ring -linarith -order only [foldl_same, same_iff, Dev.cellReplayed_same]

theorem Dev.bbufWords_same (d : Dev) (k n : Nat) {d_ : Dev} (h_ : Dev.bbufWords d k n = .ok d_) : Same d d_ := by
  unfold Dev.bbufWords at h_
  grind (splits := 40) -ring -linarith -order only [foldl_same, same_iff, Dev.bumpBy_same]

theorem Dev.readRun_same (d : Dev) (w : Who) (v : View) (lo n : Nat) {p_ : Dev × List Byte} (h_ : Dev.readRun d w v
    lo n = .ok p_) : Same d p_.1 := by
  unfold Dev.readRun at h_
  grind (splits := 40) -ring -linarith -order only [same_iff, → Dev.bbufWords_same, → Dev.load_same, →
    Dev.scratchWords_same]

theorem Dev.readRuns_same (d : Dev) (w : Who) (v : View) (m : Local) (rs : List (Nat × Nat)) {p_ : Dev × Local} (h_
    : Dev.readRuns d w v m rs = .ok p_) : Same d p_.1 := by
  induction rs generalizing d w v m p_ <;>
    (unfold Dev.readRuns at h_
     grind (splits := 40) -ring -linarith -order only [same_iff, → Dev.readRun_same])

theorem Dev.fetch_same (d : Dev) (w : Who) (v : View) (es : List Elt) {p_ : Dev × Local} (h_ : Dev.fetch d w v es =
    .ok p_) : Same d p_.1 := by
  unfold Dev.fetch at h_
  grind (splits := 40) -ring -linarith -order only [same_iff, → Dev.readRuns_same]

theorem Dev.writeRun_same (d : Dev) (w : Who) (v : View) (lo : Nat) (bytes : List Byte) {d_ : Dev} (h_ :
    Dev.writeRun d w v lo bytes = .ok d_) : Same d d_ := by
  unfold Dev.writeRun at h_
  grind (splits := 40) -ring -linarith -order only [same_iff, Dev.bbufWrite_same, Dev.cellWrite_same, →
    Dev.store_same]

theorem Dev.writeEach_same (d : Dev) (w : Who) (v : View) (m : Local) (rs : List (Nat × Nat)) {d_ : Dev} (h_ :
    Dev.writeEach d w v m rs = .ok d_) : Same d d_ := by
  induction rs generalizing d w v m d_ <;>
    (unfold Dev.writeEach at h_
     grind (splits := 40) -ring -linarith -order only [same_iff, → Dev.writeRun_same])

theorem Dev.afterChunks_same (d : Dev) (w : Who) (ps : List (Nat × List Byte)) {d_ : Dev} (h_ : Dev.afterChunks d w
    ps = .ok d_) : Same d d_ := by
  induction ps generalizing d w d_ <;>
    (unfold Dev.afterChunks at h_
     grind (splits := 40) -ring -linarith -order only [same_iff, Dev.cacheStore_same, → Dev.lineBefore_same,
      Dev.streamOut_same])

theorem Dev.mirrorLine_same (d : Dev) (w : Who) (a : Nat) (bytes : List Byte) : Same d (Dev.mirrorLine d w a bytes)
    := by
  unfold Dev.mirrorLine
  grind (splits := 40) -ring -linarith -order only [same_iff, Dev.cacheStore_same, Dev.raceRange_same]

theorem Dev.mirrorStripe_same (d : Dev) (w : Who) (a : Nat) (chunks : List (List Byte)) {d_ : Dev} (h_ :
    Dev.mirrorStripe d w a chunks = .ok d_) : Same d d_ := by
  unfold Dev.mirrorStripe at h_
  grind (splits := 40) -ring -linarith -order only [foldl_same, same_iff, Dev.mirrorLine_same, →
    Dev.stripeStore_same]

theorem Dev.writeStripes_same (d : Dev) (w : Who) (ss : List (Nat × List (List Byte))) {d_ : Dev} (h_ :
    Dev.writeStripes d w ss = .ok d_) : Same d d_ := by
  induction ss generalizing d with
  | nil => cases h_; exact Same.refl _
  | cons p r ih =>
    unfold Dev.writeStripes at h_
    dsimp only at h_
    split at h_
    · cases h_
    · split at h_
      · cases h_
      · rename_i h1
        split at h_
        · cases h_
        · rename_i h2
          split at h_
          · cases h_
          · rename_i h3
            exact ((((Dev.stripeStore_same _ _ _ _ _ _ h1).trans (foldl_same _ _ _ fun a x => Dev.stepUses_same
                ..)).trans
              (Dev.afterChunks_same _ _ _ h2)).trans (Dev.mirrorStripe_same _ _ _ _ h3)).trans (ih _ h_)
    · cases h_

theorem Dev.writeRuns_same (d : Dev) (w : Who) (v : View) (m : Local) (rs : List (Nat × Nat)) {d_ : Dev} (h_ :
    Dev.writeRuns d w v m rs = .ok d_) : Same d d_ := by
  unfold Dev.writeRuns at h_
  grind (splits := 40) -ring -linarith -order only [same_iff, → Dev.writeEach_same, → Dev.writeStripes_same]

theorem Dev.putElems_same (d : Dev) (w : Who) (v : View) (ps : List Put) (free : List Nat) (e : Nat) {d_ : Dev} (h_
    : Dev.putElems d w v ps free e = .ok d_) : Same d d_ := by
  unfold Dev.putElems at h_
  grind (splits := 40) -ring -linarith -order only [same_iff, → Dev.fetch_same, → Dev.writeRuns_same]

theorem Dev.fetchBatches_same (d : Dev) (w : Who) (v : View) (m : Local) (bs : Batches) {p_ : Dev × Local} (h_ :
    Dev.fetchBatches d w v m bs = .ok p_) : Same d p_.1 := by
  induction bs generalizing d w v m p_ <;>
    (unfold Dev.fetchBatches at h_
     grind (splits := 40) -ring -linarith -order only [same_iff, → Dev.readRuns_same])

theorem Dev.fetchSrcs_same (d : Dev) (w : Who) (c : Op) (g : Nat) (cells : Bool) (l : List (Nat × Batches)) {p_ :
    Dev × List (Nat × Local)} (h_ : Dev.fetchSrcs d w c g cells l = .ok p_) : Same d p_.1 := by
  induction l generalizing d w c g cells p_ <;>
    (unfold Dev.fetchSrcs at h_
     grind (splits := 40) -ring -linarith -order only [same_iff, → Dev.fetchBatches_same])

theorem Dev.sendPort_same (d : Dev) (k index q : Nat) (bs : List Byte) : Same d (Dev.sendPort d k index q bs) := by
  unfold Dev.sendPort
  grind (splits := 40) -ring -linarith -order only [same_iff, Dev.modQueue_same]

theorem Dev.divert_same (d : Dev) (c : Op) (index : Nat) (v : View) (ps : List Put) : Same d (Dev.divert d c index v
    ps).1 := by
  unfold Dev.divert
  apply foldl_same
  intro a x
  grind (splits := 40) -ring -linarith -order only [same_iff, Dev.sendPort_same]

theorem Dev.writeBatches_same (d : Dev) (w : Who) (v : View) (p : Plan) (ms : Nat → Local) (i : Nat) (free : List
    Nat) (e : Nat) (first : Bool) (bs : Batches) {d_ : Dev} (h_ : Dev.writeBatches d w v p ms i free e first bs =
    .ok d_) : Same d d_ := by
  induction bs generalizing d w v p ms i free e first d_ <;>
    (unfold Dev.writeBatches at h_
     grind (splits := 40) -ring -linarith -order only [same_iff, → Dev.putElems_same])

theorem Dev.writeDsts_same (d : Dev) (w : Who) (c : Op) (index g : Nat) (last : Bool) (p : Plan) (ms : Nat → Local)
    (e : Nat) (l : List (Nat × Batches)) {p_ : Dev × Bool} (h_ : Dev.writeDsts d w c index g last p ms e l = .ok p_)
    : Same d p_.1 := by
  induction l generalizing d w c index g last p ms e p_ <;>
    (unfold Dev.writeDsts at h_
     grind (splits := 40) -ring -linarith -order only [same_iff, Dev.divert_same, → Dev.writeBatches_same])

theorem Dev.passTurn_same (d : Dev) (c : Op) (g : Nat) (p : Plan) (ms : Nat → Local) : Same d (Dev.passTurn d c g p
    ms) := by
  unfold Dev.passTurn
  grind (splits := 40) -ring -linarith -order only [same_iff, Dev.exchange_same]

theorem Dev.runCells_same (d : Dev) (w : Who) (c : Op) (index : Nat) (p : Plan) (outer : List (Nat × Local)) (e :
    Nat) (gs : List Nat) {p_ : Dev × Bool} (h_ : Dev.runCells d w c index p outer e gs = .ok p_) : Same d p_.1 := by
  induction gs generalizing d w c index p outer e p_ <;>
    (unfold Dev.runCells at h_
     grind (splits := 40) -ring -linarith -order only [same_iff, → Dev.fetchSrcs_same, Dev.passTurn_same, →
      Dev.writeDsts_same])

end Sys2Proof.Machine
end

