-- ==== Sys2Proof/Tests/Slice0.lean ====
section
/-! SUPPORT. Tests: ill-formed commands are refused, the manual's worked examples, operations that run; and for every
obligation with hypotheses one theorem `wit_<Name>`: for each of its clauses a concrete state and operands that meet the
clause's hypotheses together. No test states what an obligation concludes. -/

open Sys2Proof Sys2Proof.Machine Sys2Proof.Claims
namespace Sys2Proof.Tests
set_option Elab.async false
set_option linter.unusedVariables false

/-! ### Small machines -/

/-- The device `d` with an empty queue. -/
def on (d : Dev) : State := ⟨[], d⟩
/-- READY: the link up, everything awake, the firmware running, the default rules. -/
def up : Dev := { Dev.reset with
  chip.state := .ready, chip.stage := .train, host.linkUp := true, clk.fabricReady := true, clk.mgmtReady := true
  clk.regionAwake := 0xFFF, clk.stackAwake := 0xFFFFFF, sec.fwValid := true }
/-- The same in another chip state. -/
def upIn (c : ChipState) : Dev := { up with chip.state := c }
/-- The same, a host write held back. -/
def heldUp : Dev := { up with host.held := [.twinAttach] }
/-- Right after power-on, the link up. -/
def fresh : Dev := { Dev.reset with host.linkUp := true }
/-- The number whose field at bit `p.1` is `p.2`, for each listed `p`. -/
def fields (l : List (Nat × Nat)) : Nat := l.foldl (fun a p => a + p.2 * 2 ^ p.1) 0
/-- An operation: opcode, CELL_MASK, the six operands, other fields. -/
def opw (o mask : Nat) (ops : List Nat) (l : List (Nat × Nat)) : Nat :=
  fields ((0, o) :: (8, mask) :: (List.range 6).map (fun i => (67 + 10 * i, ops.getD i 0x3FF)) ++ l)
/-- An area on all rows of stack 23. -/
def area23 : Area := ⟨0, false, false, false, false, 11, false, 0, 11, 0, 0x800000, 0, 20480⟩
/-- Tensor region 11 is domain 11, which runs a step and has stack 23. -/
def dom11 : Dev := { up with
  img.state := 5, img.str := ⟨[⟨11, true, 0x800⟩], [area23], [], [], none, 1, 0⟩, doms := [(11, { Dom.zero with act := .running })] }
/-- Block 3 of that region, running, with `w` next and `fly` in flight; buffer regions 0 to 3 of its cell 0 are four pages each
table entry 0 is an empty geometry record, entry 1 a block-buffer range. -/
def work (w : Nat) (fly : List Flight) : Dev := { dom11 with
  blocks := [(47, { BlockSt.zero with st := .running, ops := 8, fly := fly })], imem := [(47 * 8192, w)]
  bufregs := (List.range 4).map (fun n => (64 * 376 + n, BitVec.ofNat 32 (2 ^ 31 + 3 * 2 ^ 20 + 4 * n)))
  bbuf := Tab.writeN zeroByte [] (47 * bbufBytes) (bytesOf 2 32 ++ bytesOf (fields [(0, 1), (2, 1), (64, 4096), (128, 64)]) 32) }
/-- Operation `w` at index 0, as issue leaves it in flight. -/
def flight (w : Nat) : Flight := ⟨0, w, (work w []).rawsOf 47 w, false, false, [], false, 0⟩
def flying (w : Nat) : Dev := work w [flight w]
/-- A result whose second part is `b`. -/
def tells {ε α β : Type} [DecidableEq β] (b : β) (x : Except ε (α × β)) : Bool :=
  match x with
  | .ok (_, y) => y == b
  | .error _ => false
/-- The first part of a result. -/
def first {ε α β : Type} (a : α) (x : Except ε (α × β)) : α :=
  match x with
  | .ok (y, _) => y
  | .error _ => a
theorem tells_eq {ε α β : Type} [DecidableEq β] {b : β} {x : Except ε (α × β)} (a : α) (h : tells b x = true) :
    x = .ok (first a x, b) := by
  match x, h with
  | .ok (d, y), h => simp [tells] at h; simp [first, h]
/-- A result that is `a`. -/
def yields {ε α : Type} [DecidableEq α] (a : α) (x : Except ε α) : Bool :=
  match x with
  | .ok y => y == a
  | .error _ => false
theorem yields_eq {ε α : Type} [DecidableEq α] {a : α} {x : Except ε α} (h : yields a x = true) : x = .ok a := by
  match x, h with
  | .ok y, h => simp [yields] at h; simp [h]
/-- Four facts decided together, before a last one. -/
theorem four_of {a b c d e : Prop} (h : a ∧ b ∧ c ∧ d) (k : e) : a ∧ b ∧ c ∧ d ∧ e := ⟨h.1, h.2.1, h.2.2.1, h.2.2.2, k⟩
theorem cons_of {l : List Nat} {a : Nat} (h : l.head? = some a) : l = a :: l.tail := by
  match l, h with
  | b :: r, h => simp at h; simp [h]
theorem some_of {α : Type} {x : Option α} (a : α) (h : x.isSome = true) : x = some (x.getD a) := by
  match x, h with
  | some y, _ => rfl
/-- The first address of bank 0, row 256 of stack 23, which no window page covers. -/
def far : Nat := 23 * stackSpan + 2 ^ 30
/-- DRAM bytes there: die, byte, value. -/
def dramOf (l : List (Nat × Nat × Nat)) : Mem :=
  l.map (fun p => (32 * up.chunkKey 23 p.1 ⟨0, 256, 0⟩ + p.2.1, BitVec.ofNat 8 p.2.2))
def elemW : Nat := opw 0x08 1 [0, 0x3FF, 0x3FF, 0x200, 1] [(16, 1), (26, 1)]
/-- A block that loads an image from stack 23. -/
def loading (l : List (Nat × Nat × Nat)) : State := on { dom11 with
  blocks := [(47, { BlockSt.zero with st := .loading, image := far })], dram := dramOf l }
def imgOk : State := loading [(0, 0, 1)]
def imgZero : State := loading []
def imgOverlap : State := loading [(0, 0, 1), (2, 3, 128), (2, 7, 128)]
theorem ofBytes_zeros (n : Nat) : ofBytes (List.replicate n 0#8) = 0 := by
  induction n with
  | zero => rfl
  | succ n ih => rw [List.replicate_succ, ofBytes, ih]; rfl
theorem bufregs_zero (n c : Nat) : imageBufregs (1 :: List.replicate n 0#8) c = List.replicate 64 0 := by
  refine List.eq_replicate_iff.2 ⟨by simp [imageBufregs], fun x hx => ?_⟩
  obtain ⟨e, -, rfl⟩ := List.mem_map.1 hx
  rw [show 64 + 256 * c + 4 * e = (63 + 256 * c + 4 * e) + 1 by omega]
  simp only [fieldOf, slice, List.drop_succ_cons, List.drop_replicate, List.take_replicate, ofBytes_zeros]
/-- Queue 31 of region 11: of kind `kind`, 32-byte entries, two of them, at 4096 of block 3, one entry a packet. -/
def queue31 (kind : Nat) : Queue := { Queue.zero with
  cfg := BitVec.ofNat 64 (fields [(56, kind), (52, 11), (50, 3), (48, 3), (17, 1), (0, 1)]), flags := 0x03FF0000 }
def withQueue (x : Queue) : Dev := { dom11 with queues := [(383, x)] }
/-- An output of 64 bytes to a queue. -/
def output : QOut := ⟨List.replicate 64 1, false, none, 0, 47, 0, false, false, false⟩
def moveToPort : Nat := opw 0x10 1 [0, 0x3FF, 0x3FF, 0x200, 0x201] [(16, 1), (26, 1)]
/-- Port 11 with channel 254 open to domain 11; `f` more. -/
def withSpan (x : Span) (d : Dev) : Dev := { d with net.spans := [(11, x)] }
def span11 : Span := { Span.dflt with en := true, st := 2, channels := [⟨254, 11, [(47, 0)], 65536, []⟩] }
def treeW : Nat := opw 0x28 1 [0, 0x3FF, 0x3FF, 0x3FF, 1] [(128, 4)]
def treeW8 : Nat := opw 0x28 1 [0, 0x3FF, 0x3FF, 0x3FF, 1] [(128, 8)]
def sendW : Nat := opw 0x29 1 [0] [(128, 11), (132, 254), (144, 4)]
def recvW : Nat := opw 0x2A 1 [0x3FF, 0x3FF, 0x3FF, 0x3FF, 1] [(128, 11), (132, 254), (144, 4)]
def round11 (own : Option (List Word)) (sent : Bool) : Round := ⟨0, [⟨11, 47, 0, treeW, [1, 2, 3, 4]⟩], own, sent, false⟩
/-- A round of domain 11 waits; the domain is in the span tree `t`. -/
def rounds11 (t : List SpanTree) (x : Round) (d : Dev) : Dev := { d with
  net.rounds := [(11, [x])], img.str := { d.img.str with trees := t } }
/-- A SPAN_RECV into a queue. -/
def recvQW : Nat := opw 0x2A 1 [0x3FF, 0x3FF, 0x3FF, 0x3FF, 0x201] [(128, 11), (132, 254), (144, 4)]
def gatherW (o : Nat) : Nat :=
  if o = 0x18 then opw 0x18 1 [0, 0x201, 0x3FF, 0x200, 1] [(16, 1), (21, 7), (26, 1), (43, 2)]
  else opw o 1 [0, 0x201, 0x3FF, 0x200, 1] [(16, 1), (21, 7), (26, 1), (43, 2)]
/-- The geometry record of the indexed operations: one entry, a table of `rows` rows, SRC0 or DST0 by strides. -/
def gatherGeo (o rows : Nat) : Nat := fields [(0, 2), (2, if o = 0x18 then 0 else 3), (96, rows)]
def gatherFlight (o rows : Nat) : Flight :=
  ⟨0, gatherW o, [0, fields [(0, 1), (2, 1), (64, 4096), (128, 64)], 0, gatherGeo o rows, 0, 0], false, false, [], false, 0⟩
def gathering (o rows : Nat) : Dev := work (gatherW o) [gatherFlight o rows]
def gatherRun (o rows nw : Nat) (l : List (Option Nat)) : Acc (Dev × Bool) :=
  let c := (gatherFlight o rows).op 47
  (gathering o rows).runPlan c 0 (((gathering o rows).indexedPlan c l nw 0).after c 0) 0
/-- A dispatch with the words `ws` on die 15, bank cell 63 of stack 23; its broadcast buffer holds `bc` and zeros. -/
def slotW (ws : List Nat) (bc : Mem) : Slot :=
  ⟨⟨11, 3, 0, 0, [], false, []⟩, ws, 0x8000, 2 ^ 63, bc, 65536, 0, 0, 0, [], false, 0, [], 0, false, []⟩
def ck63 : Nat := cellKey 23 15 63
/-- That dispatch in slot 3, the cell in the state `x`, the stack as `f` makes it. -/
def bau (sl : Slot) (x : BCell) (f : StackSt → StackSt) : Dev := { dom11 with
  stks := [(23, f { StackSt.dflt 2 with slots := [(3, some sl)] })], bcells := [(ck63, x)] }
def inSeq : BCell := { BCell.zero with runs := [3], work := .seq, phase := .streaming }
/-- A STACK_SCAN with a root, whose tag has region list `m` of sender 0, and a root scan that has one list of `need`. -/
def scanList0 : FabMsg := ⟨0, 11, .ctrl, .scanList ⟨3, []⟩ 1 2⟩
def rootScan (need : Nat) : RootScan := ⟨47, 0, 0, 3, 1, need, 1, []⟩
def scanW (root at_ : Nat) : Nat :=
  opw 0x21 1 [0x201, 0, 0x3FF, 0x3FF, 1] [(128, 2), (160, 0), (172, 0), (179, root), (180, at_), (188, 255)]
/-- A STACK_SCAN in flight whose stack has reported an empty list. -/
def scanFlight (w : Nat) : Flight := { flight w with begun := true }
def scanned (w : Nat) : Dev := { work 0 [scanFlight w] with regions := [(11, { RegionSt.zero with scanned := [(47, 0, [])] })] }
/-- Region 11 as `f` makes it. -/
def withRegion (f : RegionSt → RegionSt) : Dev := { dom11 with regions := [(11, f RegionSt.zero)] }
/-- A STACK_SEQ, or STACK_SCAN, of block 47 for stack 23, its image 80 bytes at `far`. -/
def seqW : Nat := opw 0x20 0 [0x201] [(128, 2), (133, 31)]
def req23 (w : Nat) (scan : Bool) : DispReq := ⟨11, 3, 0, w, [fields [(0, 1), (64, far), (128, 80)], 0, 0, 0, 0, 0], scan, []⟩
/-- Stack 23 with that request, the bytes `l` at `far`. -/
def requested (q : DispReq) (l : List (Nat × Nat × Nat)) : Dev := { dom11 with
  stks := [(23, { StackSt.dflt 2 with reqs := [q] })], queues := [(383, queue31 1)], dram := dramOf l }
/-- An image of one word, whose first byte is `b`. -/
def image80 (b : Byte) : List Byte :=
  1 :: 0 :: 0 :: 0x80 :: List.replicate 11 0 ++ 0x80 :: List.replicate 48 0 ++ b :: List.replicate 15 0
/-- A DECODE word of 17 slots, and a broadcast buffer whose last map entry is valid: 32 positions, the query at 31. -/
def decodeW : Nat := fields [(0, 3), (8, 17)]
def mapped : Mem := Tab.writeN zeroByte [] (16 * 2047) (bytesOf (2 ^ 15 + 32 * 2 ^ 64 + 31 * 2 ^ 96) 16)
/-- The same with stream rows activated ahead. -/
def fed : BCell := { inSeq with rowsAhead := 40 }
/-- The cell's own stripe 0 of its upper bank. -/
def stripe127 : Stripe := ⟨127, 0, 0⟩
theorem ok_of {ε α : Type} {x : Except ε α} (a : α) (h : (match x with | .ok _ => true | .error _ => false) = true) :
    x = .ok (match x with | .ok y => y | .error _ => a) := by
  match x, h with
  | .ok y, _ => rfl
/-- Bytes of a number, by their place. -/
def memAt (k : Nat) (bs : List Byte) : Mem := Tab.writeN zeroByte [] k bs
def farStripe : Stripe := ⟨0, 256, 0⟩
/-- Stack 23 with changes `f`, bank cell states `l`. -/
def stack23 (f : StackSt → StackSt) (l : Tab BCell) : Dev := { dom11 with stks := [(23, f (StackSt.dflt 2))], bcells := l }
/-- A delta of cell 63 of die 15 for the stripe at `far`, granted or not; the same stripe with a lock; a narrow write of it. -/
def delta15 (granted : Bool) : Delta := ⟨0, farStripe, 15, 1023, List.replicate 32 1, granted, false, false⟩
def owing (granted : Bool) : Dev := stack23 (fun x => { x with deltas := [delta15 granted] }) []
def lock0 (held : Bool) (ws : List LockReq) : Lock := ⟨farStripe, held, false, ws⟩
def locked (k : Lock) : Dev := stack23 (fun x => { x with locks := [k] }) []
def narrow1 : LockReq := .narrow .host .stream far [1]
/-- Dies 0 to `n` − 1 of the stripe at `far` fail parity. -/
def badDie (n : Nat) (d : Dev) : Dev := { d with
  parity := (List.range n).map (fun i => (up.chunkKey 23 i farStripe, 1)) }
/-- All rows of stacks 19 and 23 in a mirrored area. -/
def mirrored (d : Dev) : Dev := { d with
  img.str := { d.img.str with areas := [{ area23 with mirrored := true, mstep := 1, onStacks := 0x80000 }] } }
/-- The area of stack 23 is TWIN_REPAIR, and a twin is attached. -/
def withTwin (d : Dev) : Dev := { d with
  twin.st := 2, img.str := { d.img.str with areas := [{ area23 with twinRepair := true }] } }
/-- A read of the BAU that awaits the repair of the stripe at `far`, of which `n` dies fail. -/
def ue0 : UeWait := ⟨farStripe, .bau, 11, 5, .repair⟩
def awaiting (n : Nat) : Dev := badDie n (stack23 (fun x => { x with ueWait := [ue0] }) [])
/-- The spares of bank 127 of die 17 below `n` are used. -/
def spent (n : Nat) : Dev := stack23 (fun x => { x with retired := (List.range n).map (fun k => ((17 * 128 + 127) * 64 + k, true)) }) []
/-- The second part of a result. -/
def second {ε α β : Type} (b : β) (x : Except ε (α × β)) : β :=
  match x with
  | .ok (_, y) => y
  | .error _ => b
theorem pair_of {ε α β : Type} {x : Except ε (α × β)} (a : α) (b : β)
    (h : (match x with | .ok _ => true | .error _ => false) = true) : x = .ok (first a x, second b x) := by
  match x, h with
  | .ok (y, z), _ => rfl
/-- Bundle 255 of domain 11: one position range, pages of 64-wide BF16 heads, its step area at `far`. -/
def bundle255 : Bundle := ⟨255, 11, false, [256], 0, 0, 0, 0, 1, 1, [0, 0, 0, 0], [0, 0, 0, 0], [0, 0, 0, 0], 0, 0, far,
  0, 4, 0, [(11, far, [far, far, far, far])], []⟩
/-- Entry 4095 of the request table in the state `x`, for bundle 255 of domain 11, which is as `y` says. -/
def serving (x : Req) (y : Dom) : Dev := { dom11 with
  serve.reqs := [(4095, x)], doms := [(11, { y with resident := [(255, bundle255)] })], img.str := { dom11.img.str with parkTotal := 1 } }
/-- A request with a prompt of one token and a limit of two, its areas at `far`. -/
def entry (st : ReqState) (cmd : Nat) : Req := { Req.zero with
  cmd := cmd, state := st, cfg := 0x0BFF0000, promptBase := BitVec.ofNat 64 far, pageList := BitVec.ofNat 64 (far + 64)
  outBase := BitVec.ofNat 64 (far + 128 + 4 * 2 ^ 48), promptLen := 1, maxLen := 2 }
/-- A released MAIN step of bundle 255 that holds entry 4095. -/
def step1 : Step := ⟨1, false, 0, 0, [⟨4095, 0, false⟩], [], 0, 0, 255, true, false, []⟩
/-- That step, suspended, of domain 11 in the activity `a`; a saved region with nothing in it; its four blocks wait. -/
def susp1 : Susp := ⟨{ step1 with placed := [] }, 0, true, 0, [], []⟩
def suspended (a : Activity) : Dev := serving (entry .active 0) { Dom.zero with act := a, susp := [susp1] }
def kept11 : SavedRegion := ⟨11, [], [], [], [], [], [], RegionSt.zero⟩
def stuck : Dev := { dom11 with blocks := (List.range 4).map (fun j => (44 + j, { BlockSt.zero with st := .running, wait := some (0, 1) })) }
def withBundleCmd (op dom b : Nat) (d : Dev) : Dev := { d with bcmd := ⟨BitVec.ofNat 64 far, true, op, dom, b, 0⟩ }
/-- A descriptor of bundle 254 for domain 11, at `far`: magic, domain, range, pages, areas. -/
def descriptor (dom : Nat) : Mem := dramOf [(0, 0, 0x4B), (0, 1, 0x42), (0, 2, 0x4E), (0, 3, 0x44), (0, 4, 254), (0, 5, dom),
  (0, 9, 1), (0, 23, 1), (0, 24, 1), (2, 27, 0x40), (2, 28, 0xE0), (2, 29, 2), (3, 4, 4), (8, 0, 27), (8, 19, 0x40),
  (8, 20, 0xE0), (8, 21, 2), (8, 27, 0x40), (8, 28, 0xE0), (8, 29, 2), (9, 3, 0x40), (9, 4, 0xE0), (9, 5, 2), (9, 11, 0x40),
  (9, 12, 0xE0), (9, 13, 2)]
theorem err_of {ε α : Type} [DecidableEq ε] {e : ε} {x : Except ε α}
    (h : (match x with | .ok _ => false | .error y => y == e) = true) : x = .error e := by
  match x, h with
  | .error y, h => simp at h; rw [h]
/-- The 1,024 bytes of that descriptor. -/
def descBytes (dom : Byte) : List Byte :=
  [0x4b, 0x42, 0x4e, 0x44, 0xfe, dom, 0, 0, 0, 0x1] ++ List.replicate 13 0 ++ [0x1, 0x1] ++ List.replicate 66 0 ++
  [0x40, 0xe0, 0x2] ++ List.replicate 6 0 ++ [0x4] ++ List.replicate 155 0 ++ [0x1b] ++ List.replicate 18 0 ++ [0x40,
  0xe0, 0x2] ++ List.replicate 5 0 ++ [0x40, 0xe0, 0x2] ++ List.replicate 5 0 ++ [0x40, 0xe0, 0x2] ++ List.replicate 5
  0 ++ [0x40, 0xe0, 0x2] ++ List.replicate 722 0
theorem outside_of {w m n : Nat} (h : w &&& m = w) : outside w m n = false := by
  simp only [outside, List.any_eq_false, List.mem_range]
  intro i _ hi
  have : w.testBit i = (w.testBit i && m.testBit i) := by rw [← Nat.testBit_and, h]
  simp only [bitAt] at hi
  grind
/-- Every word of four bytes satisfies `p` with its place. -/
def eachWord (p : Nat → Nat → Bool) (o : Nat) : List Byte → Bool
  | a :: b :: c :: e :: r => p o (ofBytes [a, b, c, e]) && eachWord p (o + 1) r
  | _ => true
theorem eachWord_at {p : Nat → Nat → Bool} (j : Nat) : ∀ (o : Nat) (bs : List Byte), eachWord p o bs = true →
    4 * j + 4 ≤ bs.length → p (o + j) (fieldOf bs (4 * j) 4) = true := by
  induction j with
  | zero =>
    intro o bs h hl
    match bs, h, hl with
    | a :: b :: c :: e :: r, h, _ => simp [eachWord] at h; exact h.1
  | succ j ih =>
    intro o bs h hl
    match bs, h, hl with
    | a :: b :: c :: e :: r, h, hl =>
      simp only [eachWord, Bool.and_eq_true] at h
      have := ih (o + 1) r h.2 (by simp at hl; omega)
      rw [show o + (j + 1) = o + 1 + j by omega]
      have e2 : fieldOf (a :: b :: c :: e :: r) (4 * (j + 1)) 4 = fieldOf r (4 * j) 4 := by
        rw [show 4 * (j + 1) = 4 * j + 1 + 1 + 1 + 1 by omega]; rfl
      rw [e2]; exact this
theorem reserved_of {bs : List Byte} {m : Nat} (hl : bs.length = 1024)
    (h : eachWord (fun o w => w &&& descMask m o == w) 0 bs = true) : descReserved bs m = false := by
  simp only [descReserved, List.any_eq_false, List.mem_range]
  intro o ho
  have := eachWord_at o 0 bs h (by omega)
  simpa using outside_of (n := 32) (by simpa using this)
def admitting : Dev := withBundleCmd 1 11 0 { dom11 with dram := descriptor 11 }
theorem admit_good : admitting.admitCode 11 (descBytes 11) = 0 := by
  have h : descReserved (descBytes 11) (admitting.regionsOf 11).length = false :=
    reserved_of (by decide +kernel) (by decide +kernel)
  simp only [Dev.admitCode, descBad, h, Bool.false_or]
  decide +kernel
/-- UNSTRUCTURED with an attempt as `f` makes it. -/
def attempt (f : Img → Img) (d : Dev) : Dev := { upIn .unstructured with img := f Dev.reset.img, dram := d.dram }
def draft0 : Draft := ⟨up.img.str, [], [], [], none, none, 0, []⟩
def ck (d : Nat) : Nat := 32 * up.chunkKey 0 d ⟨0, 0, 0⟩
/-- The twin as `f` makes it. -/
def twin (f : Twin → Twin) : Dev := { dom11 with twin := f dom11.twin }
def attaching : Dev := twin fun x => { x with st := 1, present := true }
def attached : Dev := twin fun x => { x with st := 2, present := true }
/-- The same, the area of stack 23 a shadow. -/
def shadowed (d : Dev) : Dev := { d with img.str := { d.img.str with areas := [{ area23 with kind := 9 }] } }
def part0 : TwinPart := ⟨5, List.replicate 16 1, List.replicate 16 1⟩
def record0 : TwinItem := .record 7 8 9 true [part0]
/-- A promotable shadow for domain 11, its log in page 23. -/
def promotable : Dev := { twin fun x => { x with promotable := true, promotePage := 23 } with host.pennants := [(23, true)] }
theorem some_val {α : Type} {x : Option α} (a : α) (h : x.isSome = true) : x = some (x.getD a) := by
  match x, h with
  | some y, _ => rfl
def image0 : List Byte :=
  [75, 83, 84, 82, 0, 1, 0, 0, 144, 0, 0, 0, 3, 0, 0, 0, 151, 207, 146, 169, 142, 130, 31, 105, 208, 128, 
200, 212, 191, 176, 49, 119, 249, 152, 148, 138, 109, 28, 178, 120, 76, 254, 73, 150, 217, 94, 126, 59, 165, 
255, 194, 144, 170, 111, 227, 195, 124, 245, 73, 35, 248, 33, 237, 228, 1, 0, 0, 0, 16, 0, 0, 0, 0, 0, 255, 
15, 0, 0, 0, 0, 0, 0, 0, 0, 0, 0, 0, 0, 3, 0, 0, 0, 32, 0, 0, 0, 8, 0, 15, 0, 255, 255, 255, 0, 0, 0, 0, 0, 
171, 0, 0, 0, 0, 0, 0, 0, 0, 0, 0, 0, 0, 0, 0, 0, 0, 0, 0, 0, 10, 0, 0, 0, 8, 0, 0, 0, 1, 0, 0, 0, 0, 0, 0, 0]
/-- Those bytes at the first byte of window page 0. -/
def withImage (d : Dev) : Dev := { d with dram := (List.range 144).filterMap (fun o =>
  if image0.getD o 0 = 0 then none else some (ck (o / 32) + o % 32, image0.getD o 0)) }
/-- Ring 63 in page 23, 16 entries, `p` of them produced, `fly` in flight, in the state `st`; byte 0 of its first entry is `a`,
byte 1 is `b`. -/
def ring63 (st : Nat) (p : BitVec 16) (fly : List RingRun) (a b : Nat) : Dev := { dom11 with
  host.rings := [(63, ⟨23, 0, 4, decide (st ≠ 0), st, 0, 0, p, 0, 0, fly, []⟩)]
  dram := [(32 * up.chunkKey 23 0 ⟨0, 0, 0⟩, BitVec.ofNat 8 a), (32 * up.chunkKey 23 0 ⟨0, 0, 0⟩ + 1, BitVec.ofNat 8 b)] }
/-- A ring entry that fills 64 bytes at `far`. -/
def fillEntry : RingEntry := ⟨fields [(0, 3), (8, 11), (64, 7), (128, far), (192, 64), (224, 1)]⟩
/-- That entry, started. -/
def run0 : RingRun := ⟨0, false, 11, true, fillEntry.w, false, false, none⟩
/-- Ring 63 with `fly` in flight and the entries `l` fetched. -/
def holds63 (fly : List RingRun) (l : List (Option Nat)) : Dev := { dom11 with
  host.rings := [(63, ⟨23, 0, 4, true, 1, 0, 0, 1, 0, 0, fly, l⟩)] }
/-- The security unit as `f` makes it. -/
def secure (f : Sec → Sec) : Dev := { up with sec := f up.sec }
theorem triple_of {ε α β γ : Type} {x : Except ε (α × β × γ)} (a : α) (b : β × γ)
    (h : (match x with | .ok _ => true | .error _ => false) = true) :
    x = .ok (first a x, (second b x).1, (second b x).2) := by
  match x, h with
  | .ok (y, z, w), _ => rfl

/-- The plan of `elemW`; a suspension may stop it after any of its tile steps. -/
def elemP : Plan := elemPlan ((flight elemW).op 47) 0
theorem parts_run : ∀ t, t < elemP.steps ((flight elemW).op 47) - 0 + 1 →
    tells false ((flying elemW).runPlan ((flight elemW).op 47) 0 (elemP.between ((flight elemW).op 47) 0 (0 + t)) 0) = true := by
  decide +kernel

/-! ### Ill-formed commands -/

theorem test_illformed_lengths :
    [Instr.bankAccess .host .keep 0 31 (some (List.replicate 31 0)), .bankAccess .host .keep 511 2 none, .narrowWrite .host (2 ^ 46 + 31) [1, 2],
      .fullStripeWrite .host 512 [1], .fullStripeWrite .host 32 (List.replicate 512 0),
      .hostWindowWrite 0 [], .hostWindowRead 0 0, .twinRepairRead 0 0, .twinRepairRead 0 65537].map wellFormed =
    [true, false, false, false, false, false, false, false, false] := by decide +kernel
theorem test_illformed_bits :
    [Instr.flipArm 0 0x7FFFFFFF, .ecHoldTake .host 0xFF, .ecHoldRelease .host 0x100, .thermalSample [(196, 0)],
      .stripeRepair 0 0 0 0 (some [1]), .twinAttached ⟨true, [1]⟩ [], .twinRecordApply (.write 0 []), .samplePreload [],
      .spdmRequest .doe ⟨0x12, .challenge 0 []⟩].map wellFormed = List.replicate 9 false := by decide +kernel
theorem test_illformed_faults : exec (.flipArm 0 0) State.reset = .fault .illFormed := rfl

/-! ### Examples of the manual -/

/-- 05, the example beside Table 3: linear address 0xA001234567. -/
theorem test_linear_address : linearLoc 5 0x1234567 = ⟨5, 11, 70, 4, 1095⟩ ∧ fieldAt 0xA001234567 37 5 = 5 := by decide +kernel
/-- 05, the bank-view address of the same cell. -/
theorem test_bank_address : bankLoc 5 (0x40B718002447 % 2 ^ 37) = ⟨5, 11, 70, 4, 1095⟩ := by decide +kernel
/-- 06, the example beside R175: page 0x003AEE0B, position 300 in slot 4 of share 37, keys of 256 bytes. -/
theorem test_page_place :
    pageRun 0x3AEE0B 37 false + 4 * 256 = 0x40EAB5770400 ∧ pageRun 0x3AEE0B 37 true + 4 * 256 = 0x40EAB5770C00 := by decide +kernel
/-- 04, Table 5. -/
theorem test_layout_offsets :
    elemBit 0 3 200 100 70 133 / 8 = 14133 ∧ elemBit 1 3 200 100 70 133 / 8 = 21261 ∧
    elemBit 2 12 256 10240 1000 130 / 8 = 687364 ∧ elemBit 5 8 320 256 130 31 / 8 = 42946 ∧
    elemBit 3 0 256 512 300 200 / 8 = 322592 ∧ elemBit 4 1 1000 6 5 999 / 8 = 12078 := by decide +kernel
/-- 04, the footprints below Table 5. -/
theorem test_footprints : footprint 1 3 200 100 = 25600 ∧ footprint 3 0 256 512 = 524288 := by decide +kernel
/-- 14, the worked example: window page 256 and the place of bank 9. -/
theorem test_window_page :
    up.windowAddr 256 0 = 0x20001400000 ∧ bankLoc 18 (0x424624856000 % 2 ^ 37) = ⟨18, 3, 9, 4268, 0⟩ := by decide +kernel
/-- 15, Table 4: at 3.0 µs source 3 pends over priority 5, at 4.1 µs the claim is spurious, at 6.0 µs source 66 is claimed. -/
def nesting (pending : List (Nat × Bool)) : Conc := { Dev.reset.ec with
  cfg := [(3, ⟨10, 5⟩), (66, ⟨9, 5⟩), (130, ⟨5, 5⟩)], mask := [(3, false), (66, false), (130, false)], running := [(5, [5])]
  pending := pending }
theorem test_nesting :
    (nesting [(3, true)]).pick 5 = some 3 ∧ (nesting []).pick 5 = none ∧ (nesting [(66, true)]).pick 5 = some 66 := by decide +kernel

/-! ### Operations that run -/

/-- Words of nine operations, with their plans (R58). -/
def plans : List (Nat × (Op → Nat → Plan)) :=
  [(opw 0x01 1 [0, 1, 0x3FF, 0x3FF, 2] [(16, 1), (21, 1), (26, 1), (32, 1), (35, 2), (38, 3)], matmulPlan),
   (opw 0x02 1 [0, 1, 0x3FF, 0x3FF, 2] [(16, 1), (21, 1), (32, 1), (35, 2), (38, 3)], matmulAccPlan),
   (opw 0x09 1 [0, 0x3FF, 0x3FF, 0x200, 1] [(16, 1), (26, 1)], reducePlan),
   (opw 0x0A 1 [0, 0x3FF, 0x3FF, 0x200, 1, 2] [(16, 1)], rowstatPlan),
   (opw 0x10 1 [0, 0x3FF, 0x3FF, 0x200, 1] [(16, 1), (26, 1)], movePlan),
   (opw 0x11 1 [0, 0x3FF, 0x3FF, 0x200, 1] [(16, 1), (26, 1), (38, 3), (128, 1), (160, 1)], layoutPlan),
   (opw 0x38 1 [0, 1, 3, 0x3FF, 2] [(16, 1), (21, 1), (26, 1), (32, 1), (35, 2), (38, 3)], bwdScoresPlan),
   (opw 0x39 1 [0, 1, 0x3FF, 0x3FF, 2] [(16, 1), (21, 1)], bwdRowdotPlan),
   (opw 0x3A 1 [0, 1, 3, 0x3FF, 2] [(16, 1), (21, 1), (26, 1), (32, 3), (35, 3), (38, 3)], bwdDscorePlan)]
def runs (p : Nat × (Op → Nat → Plan)) : Bool :=
  (work p.1 []).issues 47 && decide ((work p.1 []).checkOp 47 p.1 = none) && decide ((flying p.1).ready 47 (p.1 % 256) = some (flight p.1)) &&
    (match (flying p.1).runPlan ((flight p.1).op 47) 0 (p.2 ((flight p.1).op 47) 0) 0 with
     | .ok (_, again) => !again
     | .error _ => false)
theorem test_plans_run : plans.all runs = true := by decide +kernel

/-! ### Witnesses -/

theorem wit_StepRunsFront :
    ∃ (d : Dev), (∀ e ∈ d.doms, e.2.judge = false) ∧ d.twin.copyAt = none ∧ d.twin.posts = [] ∧ d.twin.promoting =
      none ∧ d.img.waits = false ∧ d.sec.flashRun = none ∧ (∀ e ∈ d.host.rings, (e.2.prod - e.2.start).toNat ≤
      e.2.fetched.length) :=
  ⟨up, by decide +kernel⟩

theorem wit_QueueFirstInFirstOut :
    (∃ (c : Instr) (rest : List Instr) (d : Dev) (t : State), step ⟨c :: rest, d⟩ = .next t) ∧
    (∃ (s : State) (i : Instr) (off len : Nat) (st : Stack) (bar : Fin 6) (v : Word) (t : TDie) (w : Fin 4096) (g :
      RingNo) (p : PortNo) (dom : Domain) (c : CustNo) (n : Fin 256) (x : Bool), s.dev.host.held ≠ [] ∧ i ∈
      [.hostWindowRead off len, .atomicOpRequest bar off, .pennantGive w v, .pennantTake w v, .ringEnable g v,
      .ringDoorbell g v, .sourceDoorbell v, .msixUnmask n, .ecModeWrite v, .clkSelWrite t v, .structCommit v,
      .stackRuleWrite st v, .dropKeep st, .remapLogRead st, .pageRetireLogRead st, .spanRetrain p, .custCredit c v,
      .serveKick v, .domPreemptWrite dom v, .twinAttach, .twinDetach, .twinPromote v, .fwPush v, .flashUpdate v x,
      .measRunningRead, .reportGo, .deviceReset v] ∧ wellFormed i = true) ∧
    (∃ (s : State) (off : Nat) (bytes : List Byte) (st : Stack) (v : Word), s.dev.host.held ≠ [] ∧ wellFormed
      (.hostWindowWrite off bytes) = true) ∧
    (∃ (s : State) (off : Nat) (bytes : List Byte) (st : Stack) (v : Word), s.dev.host.held ≠ [] ∧ wellFormed
      (.flipArm st v) = true) ∧
    (∃ (s : State) (bar : Fin 6) (off len : Nat) (v : BitVec 64) (t : TargetNo) (w : Fin 64) (x : Word) (i : Instr),
      s.dev.host.held ≠ [] ∧ i ∈ [.reg64LowerRead .host bar off len, .registerWrite .host bar off len v, .ecClaim
      .host t, .ecEoi .host t x, .ecPendingWrite .host w x]) ∧
    (∃ (s : State) (bar : Fin 6) (off len : Nat) (v : BitVec 64) (t : TargetNo) (w : Fin 64) (x : Word),
      s.dev.host.held ≠ []) :=
  ⟨⟨.pwrgoodFall, [.vddKeepUp], up, _, rfl⟩,
   ⟨on heldUp, .twinDetach, 0, 1, 0, 0, 0, 0, 0, 0, 0, 0, 0, 0, true, by decide +kernel⟩,
   ⟨on heldUp, 0, [1], 0, 0, by decide +kernel⟩,
   ⟨on heldUp, 0, [], 23, 0x80000112, by decide +kernel⟩,
   ⟨on heldUp, 0, 0, 4, 0, 0, 0, 0, .ecClaim .host 0, by decide +kernel⟩,
   ⟨on heldUp, 5, 0, 4, 0, 0, 0, 0, by decide +kernel⟩⟩

theorem wit_WellFormedCompletes :
    (∃ (c : Instr) (s : State), wellFormed c = true) ∧
    (∃ (c : Instr) (s : State), wellFormed c = false) :=
  ⟨⟨.bypass, State.reset, by decide +kernel⟩,
   ⟨.samplePreload [], State.reset, by decide +kernel⟩⟩

theorem wit_StepKeepsMemoriesCanonical :
    ∃ (s t : State), Inv s ∧ step s = .next t :=
  ⟨State.reset, _, show _ = true from by decide +kernel, rfl⟩

theorem wit_StepKeepsGrade :
    (∃ (s t : State), step s = .next t) ∧
    (∃ (s t : State) (n : Nat), step s = .next t) ∧
    (∃ (d : Dev), d.fuses.grade = .a) ∧
    (∃ (d : Dev), d.fuses.grade = .s) ∧
    (∃ (d : Dev) (f : TDie), d.fuses.grade = .b f) ∧
    (∃ (d : Dev) (f : TDie) (n : Nat), d.fuses.grade = .b f) :=
  ⟨⟨State.reset, _, rfl⟩,
   ⟨State.reset, _, 0, rfl⟩,
   ⟨up, by decide +kernel⟩,
   ⟨{ up with fuses.grade := .s }, by decide +kernel⟩,
   ⟨{ up with fuses.grade := .b 5 }, 5, by decide +kernel⟩,
   ⟨{ up with fuses.grade := .b 5 }, 5, 0, by decide +kernel⟩⟩

theorem wit_PowerUp :
    (∃ (s : State), s.dev.chip.state = .off ∧ s.dev.pins.refclk = true ∧ s.dev.pins.pwrgood = false) ∧
    (∃ (s : State), s.dev.chip.state = .off ∧ s.dev.pins.refclk = false) ∧
    (∃ (s : State) (lands : Straps), s.dev.pins.vddKeep = true ∧ s.dev.pins.pwrgood = false ∧ s.dev.chip.state = .keep
      ∧ s.dev.pins.perst = true) ∧
    (∃ (s : State) (lands : Straps), s.dev.pins.vddKeep = true ∧ s.dev.pins.pwrgood = false ∧ s.dev.chip.state = .keep
      ∧ s.dev.pins.perst = false ∧ s.dev.pins.refclk = true) ∧
    (∃ (s : State), s.dev.pins.perst = true ∧ s.dev.chip.state = .keep ∧ s.dev.pins.pwrgood = true ∧ s.dev.pins.refclk
      = true) ∧
    (∃ (s : State), s.dev.pins.perst = true ∧ s.dev.chip.state ≠ .keep) :=
  ⟨⟨on { upIn .off with pins.pwrgood := false }, by decide +kernel⟩,
   ⟨on { upIn .off with pins.refclk := false }, by decide +kernel⟩,
   ⟨on { upIn .keep with pins.pwrgood := false, pins.perst := true }, Straps.open, by decide +kernel⟩,
   ⟨on { upIn .keep with pins.pwrgood := false }, Straps.open, by decide +kernel⟩,
   ⟨on { upIn .keep with pins.perst := true }, by decide +kernel⟩,
   ⟨on { up with pins.perst := true }, by decide +kernel⟩⟩

theorem wit_BootSequence :
    (∃ (s : State) (f : FlashAnswer) (l : LinkTrained), s.dev.chip.state = .boot ∧ s.dev.chip.stage = .rom ∧
      s.dev.chip.startErr = 0 ∧ s.dev.clk.coast = false ∧ s.dev.hostBoot = true ∧ s.dev.host.linkUp = true ∧
      s.dev.sec.pushGo = false) ∧
    (∃ (s : State) (f : FlashAnswer) (l : LinkTrained), s.dev.chip.state = .boot ∧ s.dev.chip.stage = .rom ∧
      s.dev.chip.startErr = 0 ∧ s.dev.clk.coast = false ∧ s.dev.hostBoot = true ∧ s.dev.host.linkUp = true ∧
      s.dev.sec.pushGo = true) ∧
    (∃ (s : State) (f : FlashAnswer) (l : LinkTrained), s.dev.chip.state = .boot ∧ s.dev.chip.stage = .rom ∧
      s.dev.chip.startErr = 0 ∧ s.dev.clk.coast = false ∧ s.dev.hostBoot = true ∧ s.dev.host.linkUp = false ∧
      s.dev.sec.pushGo = false) ∧
    (∃ (s : State) (l : LinkTrained), s.dev.chip.state = .boot ∧ s.dev.chip.stage = .rom ∧ s.dev.chip.startErr = 0 ∧
      s.dev.clk.coast = false ∧ s.dev.host.linkUp = true ∧ s.dev.hostBoot = false) ∧
    (∃ (s : State) (bytes : List Byte) (l : LinkTrained), s.dev.chip.state = .boot ∧ s.dev.chip.stage = .rom ∧
      s.dev.chip.startErr = 0 ∧ s.dev.clk.coast = false ∧ s.dev.host.linkUp = true ∧ s.dev.hostBoot = false ∧ 0x800000
      < bytes.length) ∧
    (∃ (s : State) (bytes : List Byte) (l : LinkTrained), s.dev.chip.state = .boot ∧ s.dev.chip.stage = .rom ∧
      s.dev.chip.startErr = 0 ∧ s.dev.clk.coast = false ∧ s.dev.host.linkUp = true ∧ s.dev.hostBoot = false ∧
      s.dev.chip.straps.bootSrc = 0 ∧ bytes.length ≤ 0x800000) ∧
    (∃ (s : State), s.dev.chip.state = .boot ∧ s.dev.chip.stage = .train ∧ s.dev.clk.coast = false) ∧
    (∃ (s : State), s.dev.chip.state = .fill ∧ s.dev.clk.coast = false) :=
  ⟨⟨on fresh, .noAnswer, ⟨5, .x1⟩, by decide +kernel⟩,
   ⟨on { fresh with sec.pushGo := true }, .noAnswer, ⟨5, .x1⟩, by decide +kernel⟩,
   ⟨on Dev.reset, .noAnswer, ⟨0, .x8⟩, by decide +kernel⟩,
   ⟨on { fresh with chip.straps := ⟨0, true, 0, 0, 0, 0, false⟩ }, ⟨5, .x16⟩, by decide +kernel⟩,
   ⟨on { fresh with chip.straps := ⟨0, true, 0, 0, 0, 0, false⟩ }, List.replicate 0x800001 0, ⟨5, .x16⟩, four_of
    (by decide +kernel) ⟨by decide +kernel, by decide +kernel, by rw [List.length_replicate]; decide⟩⟩,
   ⟨on { fresh with chip.straps := ⟨0, true, 0, 0, 0, 0, false⟩ }, List.replicate 0x800000 0, ⟨5, .x16⟩, four_of
    (by decide +kernel) ⟨by decide +kernel, by decide +kernel, by decide +kernel, Nat.le_of_eq List.length_replicate⟩⟩,
   ⟨on { fresh with chip.stage := .train }, by decide +kernel⟩,
   ⟨on (upIn .fill), by decide +kernel⟩⟩

theorem wit_ResetsAndPowerLoss :
    (∃ (s : State), s.dev.pins.perst = false ∧ s.dev.chip.state ≠ .off ∧ s.dev.chip.state ≠ .thermalOff ∧
      s.dev.chip.state ≠ .keep) ∧
    (∃ (s : State) (why : LinkReset), s.dev.clk.coast = false ∧ s.dev.regsLive = true ∧ s.dev.pins.pwrgood = true ∧
      s.dev.pins.perst = false ∧ s.dev.pins.refclk = true) ∧
    (∃ (s : State) (why : LinkReset), s.dev.clk.coast = false ∧ s.dev.chip.state = .boot ∧ s.dev.chip.startErr ≠ 0 ∧
      s.dev.pins.pwrgood = true ∧ s.dev.pins.perst = false ∧ s.dev.pins.refclk = true) ∧
    (∃ (s : State) (why : LinkReset), s.dev.clk.coast = false ∧ (s.dev.chip.state = .fill ∨ (s.dev.chip.state = .boot
      ∧ s.dev.chip.startErr = 0))) ∧
    (∃ (s : State), s.dev.host.held = [] ∧ s.dev.hostReach = true ∧ s.dev.regsLive = true) ∧
    (∃ (s : State), s.dev.host.held = [] ∧ s.dev.hostReach = true ∧ s.dev.chip.state = .boot ∧ s.dev.chip.startErr ≠
      0) ∧
    (∃ (s : State), s.dev.host.held = [] ∧ (s.dev.chip.state = .fill ∨ (s.dev.chip.state = .boot ∧ s.dev.chip.startErr
      = 0))) ∧
    (∃ (s : State) (v : Word), s.dev.host.held = [] ∧ v ≠ 0xD1CE) ∧
    (∃ (s : State), s.dev.pins.vddKeep = true) ∧
    (∃ (s : State), s.dev.pins.pwrgood = true ∧ s.dev.chip.state ≠ .off ∧ s.dev.chip.state ≠ .thermalOff ∧
      s.dev.chip.state ≠ .keep) ∧
    (∃ (s : State), s.dev.pins.pwrgood = true ∧ s.dev.chip.state = .thermalOff) :=
  ⟨⟨on up, by decide +kernel⟩,
   ⟨on up, .hotReset, by decide +kernel⟩,
   ⟨on { upIn .boot with chip.startErr := 1 }, .linkDown, by decide +kernel⟩,
   ⟨on (upIn .fill), .linkDown, by decide +kernel⟩,
   ⟨on up, by decide +kernel⟩,
   ⟨on { fresh with chip.startErr := 2 }, by decide +kernel⟩,
   ⟨on (upIn .fill), by decide +kernel⟩,
   ⟨on up, 0xD1CF, by decide +kernel⟩,
   ⟨on up, by decide +kernel⟩,
   ⟨on up, by decide +kernel⟩,
   ⟨on (upIn .thermalOff), by decide +kernel⟩⟩

theorem wit_ReferenceAndThermalLoss :
    (∃ (s : State), s.dev.pins.refclk = true ∧ s.dev.chip.state = .ready) ∧
    (∃ (s : State), s.dev.pins.refclk = false ∧ s.dev.clk.coast = true ∧ s.dev.chip.state = .ready ∧ s.dev.pins.perst
      = false ∧ s.dev.pins.pwrgood = true ∧ s.dev.sec.fwValid = true) ∧
    (∃ (s : State), s.dev.pins.refclk = false ∧ s.dev.clk.coast = false ∧ s.dev.chip.state = .unstructured) ∧
    (∃ (s : State) (n : Fin 196), s.dev.sensorPresent n.val = true ∧ s.dev.chip.state = .ready) ∧
    (∃ (s : State) (n : Fin 196), s.dev.chip.state = .thermalOff ∧ s.dev.sensorPresent n.val = true) ∧
    (∃ (s : State), s.dev.chip.state = .thermalOff ∧ s.dev.coolEnough = false) ∧
    (∃ (s : State), s.dev.chip.state = .thermalOff ∧ s.dev.coolEnough = true ∧ s.dev.pins.pwrgood = true ∧
      s.dev.pins.perst = true) ∧
    (∃ (s : State), s.dev.chip.state = .thermalOff ∧ s.dev.pins.pwrgood = false) :=
  ⟨⟨on up, by decide +kernel⟩,
   ⟨on { up with pins.refclk := false, clk.coast := true }, by decide +kernel⟩,
   ⟨on { upIn .unstructured with pins.refclk := false }, by decide +kernel⟩,
   ⟨on up, 195, by decide +kernel⟩,
   ⟨on (upIn .thermalOff), 0, by decide +kernel⟩,
   ⟨on { upIn .thermalOff with pins.temps := [(0, 0x7FF)] }, by decide +kernel⟩,
   ⟨on { upIn .thermalOff with pins.perst := true }, by decide +kernel⟩,
   ⟨on { upIn .thermalOff with pins.pwrgood := false }, by decide +kernel⟩⟩

theorem wit_ConfigurationAndTestPort :
    (∃ (s : State) (q : ConfigReq), s.dev.host.linkUp = false) ∧
    (∃ (s : State) (q : ConfigReq), s.dev.host.linkUp = true ∧ s.dev.configOk = false) ∧
    (∃ (s : State) (item : ConfigItem), s.dev.host.linkUp = true ∧ s.dev.configOk = true) ∧
    (∃ (s : State) (b : Bar) (a : BitVec 64), s.dev.host.linkUp = true ∧ s.dev.configOk = true) ∧
    (∃ (s : State) (p r : Nat), s.dev.host.linkUp = true ∧ s.dev.configOk = true ∧ p ∈ [128, 256, 512] ∧ r ∈ [128,
      256, 512, 1024, 2048, 4096]) ∧
    (∃ (s : State) (p r : Nat), s.dev.host.linkUp = true ∧ s.dev.configOk = true ∧ p ∉ [128, 256, 512] ∧ r ∉ [128,
      256, 512, 1024, 2048, 4096]) ∧
    (∃ (s : State) (bm me fm d3 : Bool), s.dev.host.linkUp = true ∧ s.dev.configOk = true ∧ s.dev.host.pba = []) ∧
    (∃ (s : State) (io : Fin 2), s.dev.chip.state = .ready) ∧
    (∃ (s : State), s.dev.pins.vddKeep = true) ∧
    (∃ (s : State) (shift : List Bool), s.dev.pins.vddKeep = true ∧ wellFormed (.samplePreload shift) = true) ∧
    (∃ (d : Dev) (p : Nat), (d.chip.state = .off ∨ d.chip.state = .keep ∨ d.chip.state = .thermalOff)) ∧
    (∃ (d : Dev), d.pins.perst = true) ∧
    (∃ (d : Dev) (p : Nat), d.chip.state = .fault) ∧
    (∃ (d : Dev) (p : Nat), d.chip.state = .fault ∧ d.pins.vddKeep = true ∧ d.pins.pwrgood = true ∧ d.pins.perst =
      false ∧ d.clk.coast = false ∧ d.host.linkUp = true) ∧
    (∃ (d : Dev) (p : Nat), d.spanPresent = false) ∧
    (∃ (s : State), s.dev.pins.vddKeep = false) ∧
    (∃ (d : Dev), d.pins.perst = false ∧ 3 ≤ d.tap.ir) :=
  ⟨⟨on State.reset.dev, .read .deviceId, by decide +kernel⟩,
   ⟨on { fresh with chip.straps := ⟨0, true, 0, 0, 0, 0, false⟩ }, .read .capabilities, by decide +kernel⟩,
   ⟨on up, .bar .bar4, by decide +kernel⟩,
   ⟨on up, .bar2, 2 ^ 40, by decide +kernel⟩,
   ⟨on up, 512, 4096, by decide +kernel⟩,
   ⟨on up, 1024, 8192, by decide +kernel⟩,
   ⟨on up, true, true, false, false, by decide +kernel⟩,
   ⟨on up, 1, by decide +kernel⟩,
   ⟨on up, by decide +kernel⟩,
   ⟨on up, List.replicate 42 true, by decide +kernel⟩,
   ⟨upIn .keep, 3, by decide +kernel⟩,
   ⟨{ up with pins.perst := true }, by decide +kernel⟩,
   ⟨upIn .fault, 3, by decide +kernel⟩,
   ⟨upIn .fault, 3, by decide +kernel⟩,
   ⟨{ up with fuses.grade := .s }, 3, by decide +kernel⟩,
   ⟨on { up with pins.vddKeep := false }, by decide +kernel⟩,
   ⟨{ up with tap.ir := 3 }, by decide +kernel⟩⟩

theorem wit_EventDelivery :
    (∃ (d : Dev) (n : Nat), listedSource n = false) ∧
    (∃ (d : Dev) (r : Nat), r < 12) ∧
    (∃ (d : Dev) (st : Nat), st < 24) ∧
    (∃ (d : Dev) (p : Nat), p < 12) ∧
    (∃ (s : State) (src : BitVec 11), s.dev.ec.arrives src.toNat true = true ∧ s.dev.clk.coast = false ∧
      s.dev.raisable src.toNat = true ∧ s.dev.cfgBad src.toNat = false ∧ s.dev.ec.hold = none) ∧
    (∃ (s : State) (src : BitVec 11), s.dev.ec.arrives src.toNat false = true ∧ s.dev.clk.coast = false ∧
      s.dev.raisable src.toNat = true ∧ s.dev.cfgBad src.toNat = false ∧ s.dev.ec.hold = none) ∧
    (∃ (s : State) (src : BitVec 11), s.dev.ec.arrives src.toNat true = true ∧ s.dev.clk.coast = false ∧
      s.dev.raisable src.toNat = true ∧ s.dev.cfgBad src.toNat = true ∧ s.dev.ec.hold = none ∧ s.dev.chip.state =
      .ready) ∧
    (∃ (s : State) (src : BitVec 11), s.dev.ec.arrives src.toNat true = true ∧ s.dev.clk.coast = false ∧
      s.dev.raisable src.toNat = false) ∧
    (∃ (s : State) (src : BitVec 11), s.dev.ec.arrives src.toNat true = true ∧ s.dev.clk.coast = false ∧
      s.dev.raisable src.toNat = true ∧ s.dev.cfgBad src.toNat = false ∧ s.dev.ec.heldSource src.toNat = true ∧
      (s.dev.ec.heldQ.any (fun m => decide (m.src = src.toNat))) = false) ∧
    (∃ (s : State) (v : Word), s.dev.host.held = [] ∧ s.dev.reaches .host = true ∧ s.dev.raisable (fieldAt v.toNat 0
      11) = true) ∧
    (∃ (s : State) (v : Word), s.dev.host.held = [] ∧ s.dev.raisable (fieldAt v.toNat 0 11) = false) :=
  ⟨⟨up, 0x7FF, by decide +kernel⟩,
   ⟨up, 11, by decide +kernel⟩,
   ⟨up, 23, by decide +kernel⟩,
   ⟨up, 11, by decide +kernel⟩,
   ⟨on { up with ec.inbox := [⟨2046, true⟩] }, 2046, by decide +kernel⟩,
   ⟨on { up with ec.inbox := [⟨16, false⟩] }, 16, by decide +kernel⟩,
   ⟨on { up with ec.inbox := [⟨2046, true⟩], badTables := [0x102FF8] }, 2046, by decide +kernel⟩,
   ⟨on { up with ec.inbox := [⟨11, true⟩] }, 11, by decide +kernel⟩,
   ⟨on { up with ec.inbox := [⟨10, true⟩], ec.hold := some .mgmt }, 10, by decide +kernel⟩,
   ⟨on up, 1024, by decide +kernel⟩,
   ⟨on up, 0x7FF, by decide +kernel⟩⟩

theorem wit_ClaimsAndMessages :
    (∃ (d : Dev) (c : Conc) (also : List Nat), (∀ t : Nat, c.line t = false)) ∧
    (∃ (d : Dev) (t : Nat), t ≠ 256 ∧ d.vectorOpen t = true) ∧
    (∃ (d : Dev) (t : Nat), t ≠ 256 ∧ d.vectorOpen t = false) ∧
    (∃ (s : State) (who : Agent) (t : TargetNo) (n : Nat), InTurn who s.dev ∧ s.dev.reaches who = true ∧
      s.dev.ec.parjo = false ∧ s.dev.pendingBad = false ∧ (¬(who = .host ∧ t.val = 256)) ∧ s.dev.ec.pick t.val = some
      n) ∧
    (∃ (s : State) (who : Agent) (t : TargetNo), InTurn who s.dev ∧ s.dev.reaches who = true ∧ s.dev.ec.parjo = false
      ∧ s.dev.pendingBad = false ∧ (¬(who = .host ∧ t.val = 256)) ∧ s.dev.ec.pick t.val = none) ∧
    (∃ (s : State) (who : Agent) (t : TargetNo), InTurn who s.dev ∧ s.dev.reaches who = true ∧ s.dev.ec.parjo = false
      ∧ s.dev.pendingBad = true ∧ (¬(who = .host ∧ t.val = 256)) ∧ s.dev.chip.state = .ready) ∧
    (∃ (s : State), s.dev.host.held = [] ∧ s.dev.reaches .host = true) ∧
    (∃ (s : State) (who : Agent) (t : TargetNo), InTurn who s.dev ∧ s.dev.reaches who = true ∧ s.dev.ec.parjo = true) :=
  ⟨⟨up, Dev.reset.ec, [], fun _ => rfl⟩,
   ⟨{ up with
      host.busMaster := true,
      host.msixEnable := true,
      host.msix := [(255, ⟨0, 0, false⟩)] }, 255, by decide +kernel⟩,
   ⟨up, 0, by decide +kernel⟩,
   ⟨on { up with ec.pending := [(2, true)], ec.mask := [(2, false)] }, .host, 0, 2, (fun _ => rfl), by decide +kernel⟩,
   ⟨on up, .mgmt, 256, (fun _ => rfl), by decide +kernel⟩,
   ⟨on { up with ec.pending := [(2, true)], badTables := [0x101008] }, .mgmt, 256, (fun _ => rfl), by decide +kernel⟩,
   ⟨on up, by decide +kernel⟩,
   ⟨on { up with ec.parjo := true }, .host, 256, (fun _ => rfl), by decide +kernel⟩⟩

theorem wit_ClaimPicksHighest :
    (∃ (c : Conc) (t n : Nat), c.pick t = some n) ∧
    (∃ (c : Conc) (t n : Nat) (m : Nat), c.pick t = some n ∧ c.eligible t m = true) :=
  ⟨⟨{ Dev.reset.ec with pending := [(2, true), (8, true)], mask := [(2, false), (8, false)] }, 0, 8,
    by decide +kernel⟩,
   ⟨{ Dev.reset.ec with pending := [(2, true), (8, true)], mask := [(2, false), (8, false)] }, 0, 8, 2,
    by decide +kernel⟩⟩

theorem wit_EoiPops :
    (∃ (s : State) (who : Agent) (t : TargetNo) (v : Word) (p : Nat) (rest : List Nat), InTurn who s.dev ∧
      s.dev.reaches who = true ∧ s.dev.ec.parjo = false ∧ (¬(who = .host ∧ t.val = 256)) ∧ fieldAt v.toNat 0 11 ≠
      0x7FF ∧ (levelSource (fieldAt v.toNat 0 11) = false ∨ s.dev.raisable (fieldAt v.toNat 0 11) = false ∨
      s.dev.levelCond (fieldAt v.toNat 0 11) = false) ∧ s.dev.ec.stackOf t.val = p :: rest) ∧
    (∃ (s : State) (who : Agent) (t : TargetNo) (v : Word) (p : Nat) (rest : List Nat), InTurn who s.dev ∧
      s.dev.reaches who = true ∧ s.dev.ec.parjo = false ∧ (¬(who = .host ∧ t.val = 256)) ∧ levelSource (fieldAt
      v.toNat 0 11) = true ∧ s.dev.raisable (fieldAt v.toNat 0 11) = true ∧ s.dev.levelCond (fieldAt v.toNat 0 11) =
      true ∧ s.dev.ec.heldSource (fieldAt v.toNat 0 11) = false ∧ s.dev.ec.stackOf t.val = p :: rest) ∧
    (∃ (s : State) (who : Agent) (t : TargetNo) (v : Word) (p : Nat) (rest : List Nat), InTurn who s.dev ∧
      s.dev.reaches who = true ∧ s.dev.ec.parjo = false ∧ (¬(who = .host ∧ t.val = 256)) ∧ levelSource (fieldAt
      v.toNat 0 11) = true ∧ s.dev.raisable (fieldAt v.toNat 0 11) = true ∧ s.dev.levelCond (fieldAt v.toNat 0 11) =
      true ∧ s.dev.ec.heldSource (fieldAt v.toNat 0 11) = true ∧ s.dev.ec.heldQ.any (fun m => decide (m.src = fieldAt
      v.toNat 0 11)) = false ∧ s.dev.ec.stackOf t.val = p :: rest) ∧
    (∃ (s : State) (who : Agent) (t : TargetNo) (v : Word) (p : Nat) (rest : List Nat), InTurn who s.dev ∧
      s.dev.reaches who = true ∧ s.dev.ec.parjo = false ∧ (¬(who = .host ∧ t.val = 256)) ∧ levelSource (fieldAt
      v.toNat 0 11) = true ∧ s.dev.raisable (fieldAt v.toNat 0 11) = true ∧ s.dev.levelCond (fieldAt v.toNat 0 11) =
      true ∧ s.dev.ec.heldSource (fieldAt v.toNat 0 11) = true ∧ s.dev.ec.heldQ.any (fun m => decide (m.src = fieldAt
      v.toNat 0 11)) = true ∧ s.dev.ec.stackOf t.val = p :: rest) ∧
    (∃ (s : State) (who : Agent) (t : TargetNo) (v : Word), InTurn who s.dev ∧ s.dev.reaches who = true ∧
      s.dev.ec.parjo = false ∧ (¬(who = .host ∧ t.val = 256)) ∧ fieldAt v.toNat 0 11 ≠ 0x7FF ∧ s.dev.ec.stackOf t.val
      = []) ∧
    (∃ (s : State) (who : Agent) (t : TargetNo), InTurn who s.dev) ∧
    (∃ (s : State) (who : Agent) (t : TargetNo) (v : Word), InTurn who s.dev ∧ s.dev.ec.parjo = true) ∧
    (∃ (s : State) (v : Word), s.dev.host.held = []) :=
  ⟨⟨on { up with ec.running := [(255, [8, 1])] }, .host, 255, 0x400, 8, [1], (fun _ => rfl), by decide +kernel⟩,
   ⟨on { up with
      ec.running := [(0, [14])],
      regions := [(0, { RegionSt.zero with faultValid := true })] }, .host, 0, 16, 14, [], (fun _ => rfl),
    by decide +kernel⟩,
   ⟨on { up with
      ec.running := [(0, [14])],
      ec.hold := some .mgmt,
      ec.word := 0,
      regions := [(0, { RegionSt.zero with faultValid := true })] }, .host, 0, 16, 14, [], (fun _ => rfl),
    by decide +kernel⟩,
   ⟨on { up with
      ec.running := [(0, [14])],
      ec.hold := some .mgmt,
      ec.word := 0,
      ec.heldQ := [⟨16, false⟩],
      regions := [(0, { RegionSt.zero with faultValid := true })] }, .host, 0, 16, 14, [], (fun _ => rfl),
    by decide +kernel⟩,
   ⟨on up, .mgmt, 256, 10, (fun _ => rfl), by decide +kernel⟩,
   ⟨on up, .host, 255, fun _ => rfl⟩,
   ⟨on { up with ec.parjo := true }, .host, 255, 16, (fun _ => rfl), by decide +kernel⟩,
   ⟨on up, 0x7FF, by decide +kernel⟩⟩

theorem wit_PendingHoldModeMask :
    (∃ (s : State) (who : Agent) (w : Fin 64) (v : Word), InTurn who s.dev ∧ s.dev.reaches who = true ∧ s.dev.ec.parjo
      = false ∧ s.dev.ec.blockedFor who w.val = false) ∧
    (∃ (s : State) (who : Agent) (w : Fin 64) (v : Word), InTurn who s.dev ∧ s.dev.reaches who = true ∧
      s.dev.ec.blockedFor who w.val = true) ∧
    (∃ (s : State) (who : Agent) (v : Word), InTurn who s.dev ∧ s.dev.reaches who = true ∧ v.getLsbD 8 = true ∧
      v.getLsbD 29 = false ∧ s.dev.ec.hold = none) ∧
    (∃ (s : State) (who : Agent) (v : Word) (o : Agent), InTurn who s.dev ∧ s.dev.reaches who = true ∧ v.getLsbD 8 =
      true ∧ v.getLsbD 9 = false ∧ v.getLsbD 29 = false ∧ s.dev.ec.hold = some o) ∧
    (∃ (s : State) (who : Agent) (v : Word), InTurn who s.dev ∧ s.dev.reaches who = true ∧ v.getLsbD 9 = true ∧
      v.getLsbD 29 = false ∧ s.dev.ec.hold = some who) ∧
    (∃ (s : State), s.dev.clk.coast = false ∧ s.dev.ec.hold.isSome = true) ∧
    (∃ (c : Conc), c.heldQ = []) ∧
    (∃ (s : State) (v : Word), s.dev.host.held = [] ∧ s.dev.reaches .host = true ∧ s.dev.ec.parjo ≠ v.getLsbD 0) ∧
    (∃ (s : State) (v : Word), s.dev.host.held = [] ∧ s.dev.ec.parjo = v.getLsbD 0) ∧
    (∃ (s : State) (n : Fin 256), s.dev.host.held = [] ∧ s.dev.reaches .host = true ∧ s.dev.host.pba = []) ∧
    (∃ (s : State) (n : Fin 256), s.dev.host.held = [] ∧ s.dev.reaches .host = true ∧ Tab.wf (fun _ => false)
      s.dev.host.pba = true ∧ n.val ∈ s.dev.host.pba.map (·.1) ∧ (∀ v ∈ s.dev.host.pba.map (·.1), v ≠ n.val →
      (s.dev.msixEntry v).mask = true) ∧ Dev.vectorOpen (s.dev.modMsixEntry n.val (fun e => { e with mask := false }))
      n.val = true) ∧
    (∃ (s : State) (who : Agent) (w : Fin 64) (v : Word), InTurn who s.dev ∧ s.dev.reaches who = true ∧ s.dev.ec.parjo
      = true ∧ s.dev.ec.blockedFor who w.val = false ∧ s.dev.ec.hold = none) ∧
    (∃ (d : Dev) (who : Agent) (w : Nat) (v : Word), d.ec.blockedFor who w = false) ∧
    (∃ (d : Dev) (who : Agent) (w : Nat) (v : Word), d.ec.blockedFor who w = true) ∧
    (∃ (d : Dev) (n : Nat) (v : Word), listedSource n = true) ∧
    (∃ (d : Dev) (n : Nat) (v : Word), listedSource n = false) :=
  ⟨⟨on up, .host, 63, 0xFFFFFFFF, (fun _ => rfl), by decide +kernel⟩,
   ⟨on { up with ec.hold := some .mgmt, ec.word := 63 }, .host, 63, 0, (fun _ => rfl), by decide +kernel⟩,
   ⟨on up, .host, 0x13F, (fun _ => rfl), by decide +kernel⟩,
   ⟨on { up with ec.hold := some .host }, .mgmt, 0x100, .host, (fun _ => rfl), by decide +kernel⟩,
   ⟨on { up with ec.hold := some .host }, .host, 0x200, (fun _ => rfl), by decide +kernel⟩,
   ⟨on { up with ec.hold := some .host }, by decide +kernel⟩,
   ⟨Dev.reset.ec, by decide +kernel⟩,
   ⟨on up, 1, by decide +kernel⟩,
   ⟨on up, 0, by decide +kernel⟩,
   ⟨on up, 255, by decide +kernel⟩,
   ⟨on { up with host.busMaster := true, host.msixEnable := true, host.pba := [(255, true)] }, 255, by decide +kernel⟩,
   ⟨on { up with ec.parjo := true }, .host, 63, 0xFFFFFFFF, (fun _ => rfl), by decide +kernel⟩,
   ⟨up, .host, 63, 0, by decide +kernel⟩,
   ⟨{ up with ec.hold := some .mgmt, ec.word := 63 }, .host, 63, 0, by decide +kernel⟩,
   ⟨up, 2046, 0, by decide +kernel⟩,
   ⟨up, 2047, 0, by decide +kernel⟩⟩

theorem wit_ClocksOfATensorDie :
    (∃ (s : State) (t : TDie) (v : Word), s.dev.host.held = [] ∧ s.dev.reaches .host = true ∧ s.dev.tdiePresent t.val
      = true ∧ s.dev.selRefused (s.dev.tdie t.val) (fieldAt v.toNat 0 2) = true) ∧
    (∃ (s : State) (t : TDie) (v : Word), s.dev.host.held = [] ∧ s.dev.reaches .host = true ∧ s.dev.tdiePresent t.val
      = true ∧ s.dev.selRefused (s.dev.tdie t.val) (fieldAt v.toNat 0 2) = false) ∧
    (∃ (s : State) (t : TDie) (v : Word), s.dev.host.held = [] ∧ s.dev.tdiePresent t.val = false) ∧
    (∃ (x : TDieSt) (p : Pll) (st : Nat), (5 < st ∨ x.selected p = true ∨ x.hwOwn = true ∨ x.auto = true)) ∧
    (∃ (s : State) (t : TDie), s.dev.pins.refclk = true ∧ (s.dev.tdie t.val).aSt = .locking) ∧
    (∃ (s : State) (t : TDie), s.dev.pins.refclk = true ∧ (s.dev.tdie t.val).bSt = .locking) ∧
    (∃ (s : State) (t : TDie), (s.dev.tdie t.val).auto = true ∧ (s.dev.tdie t.val).sel = 0 ∧ (s.dev.tdie t.val).aSt ≠
      .stopped ∧ (s.dev.tdie t.val).aStep ≠ (s.dev.tdie t.val).floor ∧ (s.dev.tdie t.val).bStep = (s.dev.tdie
      t.val).floor ∧ (s.dev.tdie t.val).bSt = .locked) ∧
    (∃ (s : State) (t : TDie), 2 ≤ (s.dev.tdie t.val).sel) ∧
    (∃ (x : TDieSt), 2 ≤ x.sel) ∧
    (∃ (s : State) (t : TDie), (s.dev.tdie t.val).hwOwn = true ∧ (s.dev.tdie t.val).ready (s.dev.tdie t.val).other =
      true) ∧
    (∃ (s : State) (t : TDie), (s.dev.tdie t.val).sel = 0 ∧ s.dev.dieAsleep t.val = true) ∧
    (∃ (s : State) (t : TDie), (s.dev.tdie t.val).sel = 1 ∧ s.dev.dieAsleep t.val = true) ∧
    (∃ (s : State) (t : TDie), (s.dev.tdie t.val).sel = 0 ∧ s.dev.dieAsleep t.val = false) :=
  ⟨⟨on { up with clk.tdie := [(5, { TDieSt.dflt 520 with sel := 1 })] }, 5, 0, by decide +kernel⟩,
   ⟨on up, 5, 0x80000550, by decide +kernel⟩,
   ⟨on { up with fuses.grade := .b 5 }, 5, 0, by decide +kernel⟩,
   ⟨TDieSt.dflt 520, .b, 5, by decide +kernel⟩,
   ⟨on { up with clk.tdie := [(5, { TDieSt.dflt 520 with aSt := .locking })] }, 5, by decide +kernel⟩,
   ⟨on { up with clk.tdie := [(5, { TDieSt.dflt 520 with bSt := .locking })] }, 5, by decide +kernel⟩,
   ⟨on { up with
      clk.tdie := [(5, { TDieSt.dflt 520 with aSt := .locked, bSt := .locked, bStep := 5, powerFloor := 5 })] }, 5,
    by decide +kernel⟩,
   ⟨on { up with clk.tdie := [(5, { TDieSt.dflt 520 with sel := 2 })] }, 5, by decide +kernel⟩,
   ⟨{ TDieSt.dflt 520 with sel := 2 }, by decide⟩,
   ⟨on { up with clk.tdie := [(5, { TDieSt.dflt 520 with hwOwn := true, bSt := .locked })] }, 5, by decide +kernel⟩,
   ⟨on { up with clk.regionAwake := 0, clk.stackAwake := 0 }, 5, by decide +kernel⟩,
   ⟨on { up with
      clk.regionAwake := 0,
      clk.stackAwake := 0,
      clk.tdie := [(5, { TDieSt.dflt 520 with sel := 1 })] }, 5, by decide +kernel⟩,
   ⟨on up, 5, by decide +kernel⟩⟩

theorem wit_PowerLoop :
    (∃ (s : State) (t : TDie) (m : BitVec 10), s.dev.tdiePresent t.val = true ∧ (s.dev.tdie t.val).budget < m.toNat ∧
      (s.dev.tdie t.val).stage < 5) ∧
    (∃ (s : State) (t : TDie) (m : BitVec 10), s.dev.tdiePresent t.val = true ∧ (s.dev.tdie t.val).budget < m.toNat ∧
      5 ≤ (s.dev.tdie t.val).stage) ∧
    (∃ (s : State) (t : TDie) (m : BitVec 10), s.dev.tdiePresent t.val = true ∧ m.toNat ≤ (s.dev.tdie t.val).budget ∧
      10 * m.toNat < 9 * (s.dev.tdie t.val).budget ∧ (s.dev.tdie t.val).low < 9) ∧
    (∃ (s : State) (t : TDie) (m : BitVec 10), s.dev.tdiePresent t.val = true ∧ m.toNat ≤ (s.dev.tdie t.val).budget ∧
      10 * m.toNat < 9 * (s.dev.tdie t.val).budget ∧ (s.dev.tdie t.val).low = 9) ∧
    (∃ (s : State) (t : TDie) (m : BitVec 10), s.dev.tdiePresent t.val = true ∧ m.toNat ≤ (s.dev.tdie t.val).budget ∧
      9 * (s.dev.tdie t.val).budget ≤ 10 * m.toNat) :=
  ⟨⟨on { up with clk.tdie := [(5, { TDieSt.dflt 520 with stage := 4 })] }, 5, 521, by decide +kernel⟩,
   ⟨on { up with clk.tdie := [(5, { TDieSt.dflt 520 with stage := 5 })] }, 5, 521, by decide +kernel⟩,
   ⟨on { up with clk.tdie := [(5, { TDieSt.dflt 520 with low := 8 })] }, 5, 467, by decide +kernel⟩,
   ⟨on { up with clk.tdie := [(5, { TDieSt.dflt 520 with low := 9, stage := 1 })] }, 5, 0, by decide +kernel⟩,
   ⟨on { up with clk.tdie := [(5, TDieSt.dflt 520)] }, 5, 468, by decide +kernel⟩⟩

theorem wit_SleepAndWake :
    (∃ (s : State) (r : Region), s.dev.maySleep r.val = true) ∧
    (∃ (s : State) (st : Stack), s.dev.maySelfRefresh st.val = true) ∧
    (∃ (s : State) (r : Nat) (rest : List Nat), s.dev.clk.regionQ = r :: rest) ∧
    (∃ (s : State) (x : Nat) (rest : List Nat), s.dev.clk.stackQ = x :: rest) ∧
    (∃ (s : State) (r : Region), s.dev.clk.regionGranted = [r.val] ∧ s.dev.clockRuns (r.val / 2) = true) ∧
    (∃ (s : State) (st : Stack), s.dev.clk.stackGranted = [st.val] ∧ s.dev.clockRuns (st.val / 4) = true) ∧
    (∃ (s : State) (r : Region), s.dev.clockRuns (r.val / 2) = false) :=
  ⟨⟨on up, 11, by decide +kernel⟩,
   ⟨on { up with clk.regionAwake := 0 }, 23, by decide +kernel⟩,
   ⟨on { up with clk.regionQ := [11] }, 11, [], by decide +kernel⟩,
   ⟨on { up with clk.stackQ := [23] }, 23, [], by decide +kernel⟩,
   ⟨on { up with
      clk.regionAwake := 0,
      clk.regionGranted := [11],
      clk.tdie := [(5, { TDieSt.dflt 520 with aSt := .locked })] }, 11, by decide +kernel⟩,
   ⟨on { up with
      clk.stackAwake := 0,
      clk.stackGranted := [23],
      clk.tdie := [(5, { TDieSt.dflt 520 with aSt := .locked })] }, 23, by decide +kernel⟩,
   ⟨on up, 11, by decide +kernel⟩⟩

theorem wit_StackRuleSets :
    (∃ (s : State) (st : Stack) (v : Word), s.dev.host.held = [] ∧ s.dev.hostReady = true ∧ s.dev.stackPresent st.val
      = true ∧ 4 < fieldAt v.toNat 0 3) ∧
    (∃ (s : State) (st : Stack) (v : Word), s.dev.host.held = [] ∧ s.dev.hostReady = true ∧ s.dev.stackPresent st.val
      = true ∧ fieldAt v.toNat 0 3 ≤ 4) ∧
    (∃ (d : Dev) (st : Nat), (d.stk st).busy = false ∧ max (d.stk st).sw (d.stk st).floor = (d.stk st).target) ∧
    (∃ (d : Dev) (st : Nat), (d.stk st).busy = false ∧ max (d.stk st).sw (d.stk st).floor ≠ (d.stk st).target) ∧
    (∃ (d : Dev) (st : Nat), (d.stk st).busy = true) ∧
    (∃ (s : State) (st : Stack) (i : Fin 16), s.dev.mayApply st.val i.val = true ∧ (s.dev.stk st.val).applied |||
      BitVec.ofNat 16 (2 ^ i.val) ≠ 0xFFFF) ∧
    (∃ (s : State) (st : Stack) (i : Fin 16), s.dev.mayApply st.val i.val = true ∧ (s.dev.stk st.val).applied |||
      BitVec.ofNat 16 (2 ^ i.val) = 0xFFFF ∧ (s.dev.stk st.val).pend = none) ∧
    (∃ (d : Dev) (st i : Nat) (n : Nat), (d.stk st).target ≤ (d.stk st).frm ∧ n < i) ∧
    (∃ (d : Dev) (st i : Nat), (d.stk st).frm < (d.stk st).target) ∧
    (∃ (s : State) (st : Stack) (i : Fin 16), s.dev.mayApply st.val i.val = false) ∧
    (∃ (s : State) (st : Stack), (s.dev.stk st.val).busy = true ∧ (s.dev.stk st.val).timedOut = false) ∧
    (∃ (s : State) (st : Stack), (s.dev.stk st.val).busy = false) :=
  ⟨⟨on up, 23, 5, by decide +kernel⟩,
   ⟨on up, 23, 4, by decide +kernel⟩,
   ⟨up, 23, by decide +kernel⟩,
   ⟨{ up with stks := [(23, { StackSt.dflt 2 with sw := 4 })] }, 23, by decide +kernel⟩,
   ⟨{ up with stks := [(23, { StackSt.dflt 2 with busy := true })] }, 23, by decide +kernel⟩,
   ⟨on { up with stks := [(23, { StackSt.dflt 2 with busy := true, target := 4, applied := 0 })] }, 23, 15,
    by decide +kernel⟩,
   ⟨on { up with
      stks := [(23, { StackSt.dflt 2 with busy := true, target := 4, applied := 0x7FFF })] }, 23, 15,
    by decide +kernel⟩,
   ⟨{ up with stks := [(23, { StackSt.dflt 2 with busy := true })] }, 23, 15, 14, by decide +kernel⟩,
   ⟨{ up with stks := [(23, { StackSt.dflt 2 with busy := true, target := 4, frm := 0 })] }, 23, 15,
    by decide +kernel⟩,
   ⟨on up, 23, 15, by decide +kernel⟩,
   ⟨on { up with stks := [(23, { StackSt.dflt 2 with busy := true })] }, 23, by decide +kernel⟩,
   ⟨on up, 23, by decide +kernel⟩⟩

theorem wit_Throttling :
    (∃ (s : State) (n : Fin 196) (t : BitVec 16), s.dev.samples = true ∧ s.dev.sensorPresent n.val = true) ∧
    (∃ (s : State) (n : Fin 196) (t : BitVec 16), s.dev.samples = false ∧ s.dev.sensorPresent n.val = true) ∧
    (∃ (d : Dev) (t : Nat), (d.thdie t).st = .idle ∧ d.dieHot t = true) ∧
    (∃ (d : Dev) (t : Nat), (d.thdie t).st = .cooling ∧ d.dieHot t = true) ∧
    (∃ (s : State) (t : TDie), s.dev.samples = true ∧ s.dev.tdiePresent t.val = true ∧ (s.dev.thdie t.val).st = .grace
      ∧ s.dev.dieClear t.val = false ∧ (s.dev.thdie t.val).stage < 5) ∧
    (∃ (s : State) (t : TDie), s.dev.samples = true ∧ s.dev.tdiePresent t.val = true ∧ (s.dev.thdie t.val).st =
      .cooling ∧ s.dev.dieClear t.val = true ∧ 1 < (s.dev.thdie t.val).stage) ∧
    (∃ (s : State) (t : TDie), (s.dev.thdie t.val).st ≠ .grace) :=
  ⟨⟨on up, 195, 0x680, by decide +kernel⟩,
   ⟨on (upIn .thermalOff), 195, 0x680, by decide +kernel⟩,
   ⟨{ up with therm.sensors := [(195, ⟨true, true, true, 0x680⟩)] }, 5, by decide +kernel⟩,
   ⟨{ up with
      therm.dies := [(5, { ThDie.zero with st := .cooling })],
      therm.sensors := [(195, ⟨true, true, true, 0x680⟩)] }, 5, by decide +kernel⟩,
   ⟨on { up with
      therm.dies := [(5, { ThDie.zero with st := .grace, stage := 4 })],
      therm.sensors := [(195, ⟨true, true, true, 0x680⟩)] }, 5, by decide +kernel⟩,
   ⟨on { up with therm.dies := [(5, { ThDie.zero with st := .cooling, stage := 2 })] }, 5, by decide +kernel⟩,
   ⟨on up, 5, by decide +kernel⟩⟩

theorem wit_CountersAndFaults :
    (∃ (c : Counter) (k : Nat), c.count ≤ 2 ^ 48 - 1) ∧
    (∃ (d : Dev) (off k : Nat), ((d.ctr off).add k).sat = (d.ctr off).sat) ∧
    (∃ (d : Dev) (off k : Nat), ((d.ctr off).add k).sat ≠ (d.ctr off).sat) ∧
    (∃ (c : Counter), c.count ≤ 2 ^ 48 - 1) ∧
    (∃ (d : Dev) (r code origin unit : Nat), (d.region r).faultValid = true) ∧
    (∃ (d : Dev) (r code origin unit : Nat), (d.region r).faultValid = false) ∧
    (∃ (d : Dev) (r code unit n : Nat), d.domainOf r = some n ∧ (((d.dom n).stopped = true ∧ (d.dom n).stopAt ≠ d.now)
      ∨ d.chip.state = .fault)) ∧
    (∃ (d : Dev) (r code unit n : Nat), d.domainOf r = some n ∧ d.chip.state ≠ .fault ∧ (d.dom n).stopped = true ∧
      (d.dom n).stopAt = d.now ∧ (d.region r).faultCode ≠ 0x4C) ∧
    (∃ (d : Dev) (r code unit n : Nat), d.domainOf r = some n ∧ d.chip.state ≠ .fault ∧ (d.dom n).stopped = true ∧
      (d.dom n).stopAt = d.now ∧ (d.region r).faultCode = 0x4C ∧ code ≠ 0x4C) ∧
    (∃ (d : Dev) (r code unit n : Nat) (o : Nat), d.domainOf r = some n ∧ d.chip.state ≠ .fault ∧ (d.dom n).stopped =
      true ∧ (d.dom n).stopAt = d.now ∧ (d.region r).faultCode = 0x4C ∧ code ≠ 0x4C ∧ o ∈ d.regionsOf n ∧ o ≠ r ∧
      (d.region o).faultCode = 0x4C) ∧
    (∃ (d : Dev) (r code unit n : Nat), d.domainOf r = some n ∧ (d.dom n).stopped = false ∧ d.chip.state ≠ .fault ∧
      d.regionsOf n = [r]) ∧
    (∃ (d : Dev) (r code unit n : Nat), d.domainOf r = some n ∧ (d.dom n).stopped = false ∧ d.chip.state ≠ .fault) ∧
    (∃ (d : Dev) (r code unit n : Nat), d.domainOf r = some n ∧ (d.dom n).stopped = false ∧ d.chip.state ≠ .fault ∧
      (d.region r).faultValid = false) ∧
    (∃ (d : Dev) (r code unit n : Nat) (o : Nat), d.domainOf r = some n ∧ (d.dom n).stopped = false ∧ d.chip.state ≠
      .fault ∧ o ∈ d.regionsOf n ∧ o ≠ r ∧ (d.region o).faultValid = false) ∧
    (∃ (d : Dev) (code : Nat), d.chip.state = .ready) :=
  ⟨⟨⟨2 ^ 48 - 1, false⟩, 1, by decide +kernel⟩,
   ⟨up, 0x200028, 1, by decide +kernel⟩,
   ⟨up, 0x200028, countMax, by decide +kernel⟩,
   ⟨⟨2 ^ 48 - 1, true⟩, by decide +kernel⟩,
   ⟨{ up with regions := [(11, { RegionSt.zero with faultValid := true })] }, 11, 1, 0, 0, by decide +kernel⟩,
   ⟨up, 11, 1, 0, 0, by decide +kernel⟩,
   ⟨{ up with
      img.state := 5,
      img.str := ⟨[⟨11, true, 0xC00⟩], [], [], [], none, 1, 0⟩,
      now := 5,
      doms := [(11, { Dom.zero with stopped := true })] }, 11, 1, 0, 11, by decide +kernel⟩,
   ⟨{ up with
      img.state := 5,
      img.str := ⟨[⟨11, true, 0xC00⟩], [], [], [], none, 1, 0⟩,
      doms := [(11, { Dom.zero with stopped := true })] }, 11, 1, 0, 11, by decide +kernel⟩,
   ⟨{ up with
      img.state := 5,
      img.str := ⟨[⟨11, true, 0xC00⟩], [], [], [], none, 1, 0⟩,
      doms := [(11, { Dom.zero with stopped := true })],
      regions := [(11, { RegionSt.zero with faultCode := 0x4C })] }, 11, 1, 0, 11, by decide +kernel⟩,
   ⟨{ up with
      img.state := 5,
      img.str := ⟨[⟨11, true, 0xC00⟩], [], [], [], none, 1, 0⟩,
      doms := [(11, { Dom.zero with stopped := true })],
      regions := [(10, { RegionSt.zero with faultCode := 0x4C }), (11, { RegionSt.zero with faultCode := 0x4C })] },
    11, 1, 0, 11, 10, by decide +kernel⟩,
   ⟨{ up with img.state := 5, img.str := ⟨[⟨11, true, 0x800⟩], [], [], [], none, 1, 0⟩ }, 11, 1, 0, 11,
    by decide +kernel⟩,
   ⟨{ up with img.state := 5, img.str := ⟨[⟨11, true, 0xC00⟩], [], [], [], none, 1, 0⟩ }, 11, 1, 0, 11,
    by decide +kernel⟩,
   ⟨{ up with img.state := 5, img.str := ⟨[⟨11, true, 0x800⟩], [], [], [], none, 1, 0⟩ }, 11, 1, 0, 11,
    by decide +kernel⟩,
   ⟨{ up with img.state := 5, img.str := ⟨[⟨11, true, 0xC00⟩], [], [], [], none, 1, 0⟩ }, 11, 1, 0, 11, 10,
    by decide +kernel⟩,
   ⟨up, 0x80, by decide +kernel⟩⟩

theorem wit_MemoryReadAfterWrite :
    ∃ (dflt : Nat → Byte) (m : Mem) (a : Nat) (bs : List Byte), Memory.wf dflt m = true :=
  ⟨zeroByte, [(4, 1), (5, 2)], 5, [0, 3], by decide +kernel⟩

theorem wit_IssueAndCompletion :
    (∃ (s : State) (r : Region) (b : Blk) (k : Nat) (w : OpWord) (d1 : Dev), k = 4 * r.val + b.val ∧ w =
      s.dev.nextWord k ∧ s.dev.issues k = true ∧ s.dev.fetchOp k (s.dev.blk k).next w = .ok d1 ∧ d1.checkOp k w = none
      ∧ (d1.blk k).fenced w = false ∧ w.waitEn = false ∧ w.opcode ≠ 0x30 ∧ w.opcode ≠ 0x28 ∧ w.opcode ≠ 0x2A ∧
      d1.scoreHeld k w = false ∧ d1.room (d1.opOf k w) = true) ∧
    (∃ (s : State) (r : Region) (b : Blk) (k : Nat) (w : OpWord) (d1 : Dev) (code o : Nat), k = 4 * r.val + b.val ∧ w
      = s.dev.nextWord k ∧ s.dev.issues k = true ∧ s.dev.fetchOp k (s.dev.blk k).next w = .ok d1 ∧ d1.checkOp k w =
      some (code, o)) ∧
    (∃ (s : State) (r : Region) (b : Blk) (k : Nat) (w : OpWord) (d1 : Dev), k = 4 * r.val + b.val ∧ w =
      s.dev.nextWord k ∧ s.dev.issues k = true ∧ s.dev.fetchOp k (s.dev.blk k).next w = .ok d1 ∧ d1.checkOp k w = none
      ∧ (d1.blk k).fenced w = true) ∧
    (∃ (d : Dev) (k i : Nat) (w : OpWord) (d1 : Dev), d.fetchOp k i w = .ok d1) ∧
    (∃ (d : Dev) (k i : Nat) (w : OpWord) (d1 : Dev), d.fetchOp k i w = .ok d1 ∧ d.pathImem = [] ∧ d.pathBbuf = []) ∧
    (∃ (s : State) (r : Region) (b : Blk), s.dev.issues (4 * r.val + b.val) = false) ∧
    (∃ (s : State) (r : Region) (b : Blk) (k : Nat) (f : Flight), k = 4 * r.val + b.val ∧ (s.dev.blk k).st = .running
      ∧ (s.dev.blk k).fly[0]? = some f ∧ f.done = true ∧ s.dev.mirrorFull = false ∧ OpWord.setEn f.word = false) ∧
    (∃ (s : State) (r : Region) (b : Blk) (k : Nat) (f : Flight) (e e' : Dev), k = 4 * r.val + b.val ∧ (s.dev.blk
      k).st = .running ∧ (s.dev.blk k).fly[0]? = some f ∧ f.done = true ∧ s.dev.mirrorFull = false ∧ OpWord.setEn
      f.word = true ∧ e = ((s.dev.modBlk k (fun x =>
      { x with fly := x.fly.filter (fun y => decide (y.index ≠ f.index)) })).bump (blockBase (k / 4) (k % 4) + 0x20))
      ∧ e.flagAdd (k / 4) (OpWord.setNum f.word) 1 = some e') ∧
    (∃ (s : State) (r : Region) (b : Blk) (pos : Fin 32) (f : Flight), (s.dev.blk (4 * r.val + b.val)).fly[pos.val]? =
      some f ∧ f.done = false) :=
  ⟨⟨on (work elemW []), 11, 3, 47, elemW, _, by decide +kernel, by decide +kernel, by decide +kernel, (ok_of up
    (by decide +kernel)), by decide +kernel⟩,
   ⟨on (work 0xFF []), 11, 3, 47, 0xFF, _, 0x01, 7, by decide +kernel, by decide +kernel, by decide +kernel, (ok_of up
    (by decide +kernel)), by decide +kernel⟩,
   ⟨on (work (elemW + 2 ^ 127) [flight elemW]), 11, 3, 47, elemW + 2 ^ 127, _, by decide +kernel, by decide +kernel,
    by decide +kernel, (ok_of up (by decide +kernel)), by decide +kernel⟩,
   ⟨{ work elemW [] with pathImem := [(8 * 47 * 8192, 1)] }, 47, 0, elemW, _, (ok_of up (by decide +kernel))⟩,
   ⟨work elemW [], 47, 0, elemW, _, (ok_of up (by decide +kernel)), by decide +kernel⟩,
   ⟨on up, 11, 3, by decide +kernel⟩,
   ⟨on (work elemW [{ flight elemW with done := true }]), 11, 3, 47, { flight elemW with done := true },
    by decide +kernel⟩,
   ⟨on (work elemW [{ flight (elemW + 2 ^ 66) with done := true }]), 11, 3, 47,
    { flight (elemW + 2 ^ 66) with done := true }, _, _, four_of (by decide +kernel) ⟨by decide +kernel,
    by decide +kernel, rfl, (some_of up (by decide +kernel))⟩⟩,
   ⟨on (flying elemW), 11, 3, 0, flight elemW, by decide +kernel⟩⟩

theorem wit_FlagOperations :
    (∃ (s : State) (r : Region) (b : Blk) (k : Nat) (f : Flight) (rest : List Flight), k = 4 * r.val + b.val ∧
      (s.dev.blk k).st = .running ∧ (s.dev.blk k).fly = f :: rest ∧ OpWord.opcode f.word = 0x31 ∧ f.begun = false ∧
      OpWord.peek f.word = false ∧ s.dev.controlled (k / 4) (OpWord.flag f.word) = none ∧ s.dev.waitq (flagKey (k / 4)
      (OpWord.flag f.word)) = [] ∧ s.dev.flag (flagKey (k / 4) (OpWord.flag f.word)) + OpWord.count f.word ≤ 65535) ∧
    (∃ (s : State) (r : Region) (b : Blk) (k : Nat) (f : Flight) (rest : List Flight), k = 4 * r.val + b.val ∧
      (s.dev.blk k).st = .running ∧ (s.dev.blk k).fly = f :: rest ∧ OpWord.opcode f.word = 0x31 ∧ f.begun = false ∧
      OpWord.peek f.word = true ∧ OpWord.region f.word ≠ k / 4) ∧
    (∃ (s : State) (r : Region) (b : Blk) (k : Nat) (f : Flight) (rest : List Flight), k = 4 * r.val + b.val ∧
      (s.dev.blk k).st = .running ∧ (s.dev.blk k).fly = f :: rest ∧ OpWord.opcode f.word = 0x31 ∧ f.begun = false ∧
      OpWord.peek f.word = false ∧ s.dev.controlled (k / 4) (OpWord.flag f.word) = none ∧ 65535 < s.dev.flag (flagKey
      (k / 4) (OpWord.flag f.word)) + OpWord.count f.word) ∧
    (∃ (s : State) (r : Region) (src flag incr blk index : Nat) (rest : List FabMsg) (e : Dev), (s.dev.region
      r.val).arrived = ⟨src, r.val, .ctrl, .flagSet flag incr blk index⟩ :: rest ∧ Dev.flagAdd (s.dev.modRegion r.val
      (fun x => { x with arrived := rest })) r.val flag incr = some e) ∧
    (∃ (s : State) (r : Region) (b : Blk) (k : Nat) (w : OpWord), k = 4 * r.val + b.val ∧ w = s.dev.nextWord k ∧
      s.dev.issues k = true ∧ s.dev.fetchOp k (s.dev.blk k).next w = .ok s.dev ∧ s.dev.checkOp k w = none ∧ w.opcode =
      0x30 ∧ w.waitEn = false ∧ w.peek = false ∧ (s.dev.blk k).fly = [] ∧ (s.dev.blk k).wait = none ∧ (s.dev.blk
      k).flagTaken = false ∧ s.dev.waitq (flagKey (k / 4) w.flag) = [] ∧ w.count ≤ s.dev.flag (flagKey (k / 4)
      w.flag)) ∧
    (∃ (s : State) (r : Region) (b : Blk) (k : Nat) (w : OpWord), k = 4 * r.val + b.val ∧ w = s.dev.nextWord k ∧
      s.dev.issues k = true ∧ s.dev.fetchOp k (s.dev.blk k).next w = .ok s.dev ∧ s.dev.checkOp k w = none ∧ w.opcode =
      0x30 ∧ w.waitEn = false ∧ (s.dev.blk k).fly = [] ∧ (s.dev.blk k).wait = none ∧ (s.dev.blk k).flagTaken = false ∧
      s.dev.waitq (flagKey (k / 4) w.flag) = [] ∧ s.dev.flag (flagKey (k / 4) w.flag) < w.count) ∧
    (∃ (s : State) (r : Region) (b : Blk) (k : Nat) (f : Flight) (rest : List Flight), k = 4 * r.val + b.val ∧
      (s.dev.blk k).st = .running ∧ (s.dev.blk k).fly = f :: rest ∧ OpWord.opcode f.word = 0x31 ∧ f.begun = false ∧
      OpWord.peek f.word = false ∧ s.dev.controlled (k / 4) (OpWord.flag f.word) = none ∧ s.dev.flag (flagKey (k / 4)
      (OpWord.flag f.word)) + OpWord.count f.word ≤ 65535) ∧
    (∃ (d : Dev) (f k : Nat) (ks : List Nat) (x : Nat × Nat), (d.blk k).wait = some x ∧ d.flag f < x.2) ∧
    (∃ (d : Dev) (f k : Nat) (ks : List Nat) (x : Nat × Nat), (d.blk k).wait = some x ∧ x.2 ≤ d.flag f) ∧
    (∃ (d : Dev) (f k want : Nat) (x : Nat), x ≠ f) ∧
    (∃ (d : Dev) (f k want : Nat) (j : Nat), j ≠ k) ∧
    (∃ (s : State) (r : Region) (b : Blk) (k j : Nat) (ks : List Nat) (w : OpWord) (x : Nat × Nat), k = 4 * r.val +
      b.val ∧ w = s.dev.nextWord k ∧ s.dev.issues k = true ∧ s.dev.fetchOp k (s.dev.blk k).next w = .ok s.dev ∧
      s.dev.checkOp k w = none ∧ w.opcode = 0x30 ∧ w.waitEn = false ∧ (s.dev.blk k).fly = [] ∧ (s.dev.blk k).wait =
      none ∧ (s.dev.blk k).flagTaken = false ∧ s.dev.waitq (flagKey (k / 4) w.flag) = j :: ks ∧ j ≠ k ∧ (s.dev.blk
      j).wait = some x ∧ s.dev.flag (flagKey (k / 4) w.flag) < x.2) :=
  ⟨⟨on (flying (opw 0x31 0 [] [(128, 1023), (138, 65535), (154, 0), (156, 11)])), 11, 3, 47, flight (opw 0x31 0 []
    [(128, 1023), (138, 65535), (154, 0), (156, 11)]), [], by decide +kernel⟩,
   ⟨on (flying (opw 0x31 0 [] [(128, 1023), (138, 1), (154, 1), (156, 0)])), 11, 3, 47, flight (opw 0x31 0 [] [(128,
    1023), (138, 1), (154, 1), (156, 0)]), [], by decide +kernel⟩,
   ⟨on
    { flying (opw 0x31 0 [] [(128, 1023), (138, 65535), (154, 0), (156, 11)]) with flags := [(flagKey 11 1023, 1)] },
    11, 3, 47, flight (opw 0x31 0 [] [(128, 1023), (138, 65535), (154, 0), (156, 11)]), [], by decide +kernel⟩,
   ⟨on { up with
      regions := [(11, { RegionSt.zero with arrived := [⟨0, 11, .ctrl, .flagSet 1023 65535 3 5⟩] })] }, 11, 0, 1023,
    65535, 3, 5, [], _, by decide +kernel, (some_of up (by decide +kernel))⟩,
   ⟨on { work (opw 0x30 0 [] [(128, 1023), (138, 1)]) [] with flags := [(flagKey 11 1023, 1)] }, 11, 3, 47, opw 0x30 0
    [] [(128, 1023), (138, 1)], by decide +kernel, by decide +kernel, by decide +kernel, (yields_eq
    (by decide +kernel)), by decide +kernel⟩,
   ⟨on (work (opw 0x30 0 [] [(128, 1023), (138, 65535)]) []), 11, 3, 47, opw 0x30 0 [] [(128, 1023), (138, 65535)],
    by decide +kernel, by decide +kernel, by decide +kernel, (yields_eq (by decide +kernel)), by decide +kernel⟩,
   ⟨on (flying (opw 0x31 0 [] [(128, 1023), (138, 65535), (154, 0), (156, 11)])), 11, 3, 47, flight (opw 0x31 0 []
    [(128, 1023), (138, 65535), (154, 0), (156, 11)]), [], by decide +kernel⟩,
   ⟨{ dom11 with blocks := [(46, { BlockSt.zero with st := .running, wait := some (1023, 2) })] }, flagKey 11 1023,
    46, [], (1023, 2), by decide +kernel⟩,
   ⟨{ dom11 with
      blocks := [(46, { BlockSt.zero with st := .running, wait := some (1023, 2) })],
      flags := [(flagKey 11 1023, 2)] }, flagKey 11 1023, 46, [], (1023, 2), by decide +kernel⟩,
   ⟨up, flagKey 11 1023, 47, 1, flagKey 11 0, by decide⟩,
   ⟨up, flagKey 11 1023, 47, 1, 46, by decide⟩,
   ⟨on { work (opw 0x30 0 [] [(128, 1023), (138, 1)]) [] with
      waiters := [(flagKey 11 1023, [46])]
      blocks := (46, { BlockSt.zero with st := .running, wait := some (1023, 2) }) ::
        (work (opw 0x30 0 [] [(128, 1023), (138, 1)]) []).blocks },
    11, 3, 47, 46, [], opw 0x30 0 [] [(128, 1023), (138, 1)], (1023, 2), by decide +kernel, by decide +kernel, by decide +kernel,
    (yields_eq (by decide +kernel)), by decide +kernel⟩⟩

theorem wit_PlannedOperations :
    (∃ (s : State) (r : Region) (b : Blk) (k : Nat) (o : Nat) (i : Instr) (plan : Op → Nat → Plan) (f : Flight) (d1 :
      Dev), k = 4 * r.val + b.val ∧ (i, o, plan) ∈ [(.matmul r b, 0x01, matmulPlan), (.matmulAcc r b, 0x02,
      matmulAccPlan), (.elem r b, 0x08, elemPlan), (.reduce r b, 0x09, reducePlan), (.rowstat r b, 0x0A, rowstatPlan),
      (.move r b, 0x10, movePlan), (.bwdScores r b, 0x38, bwdScoresPlan), (.bwdRowdot r b, 0x39, bwdRowdotPlan),
      (.bwdDscore r b, 0x3A, bwdDscorePlan)] ∧ s.dev.ready k o = some f ∧ s.dev.runPlan (f.op k) f.index ((plan (f.op
      k) s.dev.free).after (f.op k) f.pos) s.dev.free = .ok (d1, false)) ∧
    (∃ (s : State) (r : Region) (b : Blk) (k : Nat) (o : Nat) (i : Instr) (plan : Op → Nat → Plan) (f : Flight) (d1 :
      Dev), k = 4 * r.val + b.val ∧ (i, o, plan) ∈ [(.matmul r b, 0x01, matmulPlan), (.matmulAcc r b, 0x02,
      matmulAccPlan), (.elem r b, 0x08, elemPlan), (.reduce r b, 0x09, reducePlan), (.rowstat r b, 0x0A, rowstatPlan),
      (.move r b, 0x10, movePlan), (.bwdScores r b, 0x38, bwdScoresPlan), (.bwdRowdot r b, 0x39, bwdRowdotPlan),
      (.bwdDscore r b, 0x3A, bwdDscorePlan)] ∧ s.dev.ready k o = some f ∧ s.dev.runPlan (f.op k) f.index ((plan (f.op
      k) s.dev.free).after (f.op k) f.pos) s.dev.free = .ok (d1, true)) ∧
    (∃ (s : State) (r : Region) (b : Blk) (k : Nat) (o : Nat) (i : Instr) (plan : Op → Nat → Plan), k = 4 * r.val +
      b.val ∧ (i, o, plan) ∈ [(.matmul r b, 0x01, matmulPlan), (.matmulAcc r b, 0x02, matmulAccPlan), (.elem r b,
      0x08, elemPlan), (.reduce r b, 0x09, reducePlan), (.rowstat r b, 0x0A, rowstatPlan), (.move r b, 0x10,
      movePlan), (.bwdScores r b, 0x38, bwdScoresPlan), (.bwdRowdot r b, 0x39, bwdRowdotPlan), (.bwdDscore r b, 0x3A,
      bwdDscorePlan)] ∧ s.dev.ready k o = none) ∧
    (∃ (s : State) (r : Region) (b : Blk) (k : Nat) (f : Flight) (d0 d1 : Dev) (q : Bool), k = 4 * r.val + b.val ∧
      s.dev.ready k 0x11 = some f ∧ s.dev.xnetReplays k ≤ 3 ∧ d0 = s.dev.replayXnet k ∧ d0.runPlan (f.op k) f.index
      ((layoutPlan (f.op k) d0.free).after (f.op k) f.pos) d0.free = .ok (d1, q)) ∧
    (∃ (s : State) (r : Region) (b : Blk) (k : Nat) (f : Flight), k = 4 * r.val + b.val ∧ s.dev.ready k 0x11 = some f
      ∧ 3 < s.dev.xnetReplays k) ∧
    (∃ (d : Dev) (k : Nat), d.badXnet.contains k = true) ∧
    (∃ (d : Dev) (k : Nat), d.xnetReplays k = 0) ∧
    (∃ (d : Dev) (k : Nat), d.xnetReplays k ≠ 0) ∧
    (∃ (d : Dev) (k o : Nat), (d.blk k).st ≠ .running) :=
  ⟨⟨on (flying (opw 0x01 1 [0, 1, 0x3FF, 0x3FF, 2] [(16, 1), (21, 1), (26, 1), (32, 1), (35, 2), (38, 3)])), 11, 3,
    47, 0x01, _, _, flight (opw 0x01 1 [0, 1, 0x3FF, 0x3FF, 2] [(16, 1), (21, 1), (26, 1), (32, 1), (35, 2), (38,
    3)]), _, by decide +kernel, (List.mem_cons_self), by decide +kernel, (tells_eq up (by decide +kernel))⟩,
   ⟨on { flying moveToPort with queues := [(383, queue31 2)] }, 11, 3, 47, 0x10, _, _, flight moveToPort, _,
    by decide +kernel, (by repeat constructor), by decide +kernel, (tells_eq up (by decide +kernel))⟩,
   ⟨on up, 11, 3, 47, 0x01, _, _, by decide +kernel, (List.mem_cons_self), by decide +kernel⟩,
   ⟨on
    { flying (opw 0x11 1 [0, 0x3FF, 0x3FF, 0x200, 1] [(16, 1), (26, 1), (38, 3), (128, 1), (160, 1)]) with pathXnet := [(47, 2)] },
    11, 3, 47, flight (opw 0x11 1 [0, 0x3FF, 0x3FF, 0x200, 1] [(16, 1), (26, 1), (38, 3), (128, 1), (160, 1)]), _, _,
    false, by decide +kernel, by decide +kernel, by decide +kernel, rfl, (tells_eq up (by decide +kernel))⟩,
   ⟨on
    { flying (opw 0x11 1 [0, 0x3FF, 0x3FF, 0x200, 1] [(16, 1), (26, 1), (38, 3), (128, 1), (160, 1)]) with badXnet := [47] },
    11, 3, 47, flight (opw 0x11 1 [0, 0x3FF, 0x3FF, 0x200, 1] [(16, 1), (26, 1), (38, 3), (128, 1), (160, 1)]),
    by decide +kernel⟩,
   ⟨{ flying (opw 0x11 1 [0, 0x3FF, 0x3FF, 0x200, 1] [(16, 1), (26, 1), (38, 3), (128, 1), (160, 1)]) with badXnet := [47] },
    47, by decide +kernel⟩,
   ⟨up, 47, by decide +kernel⟩,
   ⟨{ up with pathXnet := [(47, 1)] }, 47, by decide +kernel⟩,
   ⟨up, 47, 1, by decide +kernel⟩⟩

theorem wit_IndexedOperations :
    (∃ (s : State) (r : Region) (b : Blk) (k : Nat) (o : Nat) (i : Instr) (f : Flight) (rows : List (Option Nat)) (d0
      d1 : Dev) (nw : Nat) (q : Bool), k = 4 * r.val + b.val ∧ (i, o) ∈ [(.gather r b, 0x18), (.scatter r b, 0x19),
      (.scatterAcc r b, 0x1A)] ∧ s.dev.ready k o = some f ∧ s.dev.indexRows (f.op k) (f.op k).geoD = .ok (d0, rows) ∧
      nw = openWindows (f.op k).geoD (f.op k).w.idxPol rows ∧ d0.runPlan (f.op k) f.index ((d0.indexedPlan (f.op k)
      rows nw f.pos).after (f.op k) f.pos) s.dev.free = .ok (d1, q) ∧ ceilDiv (f.op k).geoD.e1 64 ≤ nw) ∧
    (∃ (s : State) (r : Region) (b : Blk) (k : Nat) (o : Nat) (i : Instr) (f : Flight) (rows : List (Option Nat)) (d0
      d1 : Dev) (nw : Nat) (q : Bool), k = 4 * r.val + b.val ∧ (i, o) ∈ [(.gather r b, 0x18), (.scatter r b, 0x19),
      (.scatterAcc r b, 0x1A)] ∧ s.dev.ready k o = some f ∧ s.dev.indexRows (f.op k) (f.op k).geoD = .ok (d0, rows) ∧
      nw = openWindows (f.op k).geoD (f.op k).w.idxPol rows ∧ d0.runPlan (f.op k) f.index ((d0.indexedPlan (f.op k)
      rows nw f.pos).after (f.op k) f.pos) s.dev.free = .ok (d1, q) ∧ nw < ceilDiv (f.op k).geoD.e1 64) ∧
    (∃ (d : Dev) (c : Op) (rows : List (Option Nat)) (nw a : Nat), c.code = 0x18) ∧
    (∃ (d : Dev) (c : Op) (rows : List (Option Nat)) (nw a : Nat), c.code = 0x19) ∧
    (∃ (d : Dev) (c : Op) (rows : List (Option Nat)) (nw a : Nat), c.code = 0x1A) ∧
    (∃ (rows : Nat) (x : Int) (pol : Nat), 0 ≤ x ∧ x < rows) ∧
    (∃ (rows : Nat) (x : Int), (x < 0 ∨ rows ≤ x)) ∧
    (∃ (rows : Nat) (x : Int), 0 < rows ∧ x < 0) ∧
    (∃ (rows : Nat) (x : Int), 0 < rows ∧ rows ≤ x) :=
  ⟨⟨on (gathering 0x18 1), 11, 3, 47, 0x18, .gather 11 3, gatherFlight 0x18 1, [some 0], _, _, 1, false,
    by decide +kernel, by simp, by decide +kernel, (tells_eq up (by decide +kernel)), by decide +kernel, (tells_eq up
    (by decide +kernel : tells false (gatherRun 0x18 1 1 [some 0]) = true)), by decide +kernel⟩,
   ⟨on (gathering 0x18 0), 11, 3, 47, 0x18, .gather 11 3, gatherFlight 0x18 0, [none], _, _, 0, false,
    by decide +kernel, by simp, by decide +kernel, (tells_eq up (by decide +kernel)), by decide +kernel, (tells_eq up
    (by decide +kernel : tells false (gatherRun 0x18 0 0 [none]) = true)), by decide +kernel⟩,
   ⟨up, opWith 47 0x18 [], [], 0, 0, by decide⟩,
   ⟨up, opWith 47 0x19 [], [], 0, 0, by decide⟩,
   ⟨up, opWith 47 0x1A [], [], 0, 0, by decide⟩,
   ⟨8, 7, 0, by decide⟩,
   ⟨8, 8, by decide⟩,
   ⟨8, -1, by decide⟩,
   ⟨8, 8, by decide⟩⟩

theorem wit_OperationValues :
    (∃ (w : OpWord) (ms : Nat → Local) (r c k : Nat), w.tileK ≤ k) ∧
    (∃ (w : OpWord) (ms : Nat → Local) (init : FpVal) (r c : Nat), 0 < prodK w.typeS0 w.typeS1 w.tileK ∧ prodK
      w.typeS0 w.typeS1 w.tileK ≤ groupSize w.typeS0 w.typeS1) ∧
    (∃ (c : Op) (e n old : Nat) (ms : Nat → Local), c.geoD.func ≠ 0x22) ∧
    (∃ (c : Op) (e n old : Nat) (ms : Nat → Local), c.geoD.func = 0x22) ∧
    (∃ (a b c : FpVal), (a.isNan = true ∨ b.isNan = true)) ∧
    (∃ (a b c : FpVal), a.isNan = false ∧ b.isNan = false ∧ a.lt b = true) ∧
    (∃ (e i : Nat) (l : List FpVal), (∃ x ∈ l, x ≠ .inf true)) ∧
    (∃ (e i : Nat) (l : List FpVal), (∀ x ∈ l, x = .inf true)) ∧
    (∃ (c : Op) (e i n old r j : Nat) (ms : Nat → Local) (field : Nat → Nat → Nat) (l : FpVal), r = n / c.w.tileN ∧ j
      = c.w.c0 + n % c.w.tileN ∧ (∀ o k : Nat, field o k = (ms 2).bits (c.w.statElt r o k)) ∧ l = ofF32 (BitVec.ofNat
      32 (field 4 32)) ∧ (l.isZero = true ∨ ¬(j < field 10 16 ∧ (j < field 12 16 ∨ field 8 16 ≤ j)))) ∧
    (∃ (c : Op) (e i n old r j : Nat) (ms : Nat → Local) (field : Nat → Nat → Nat) (l : FpVal), r = n / c.w.tileN ∧ j
      = c.w.c0 + n % c.w.tileN ∧ (∀ o k : Nat, field o k = (ms 2).bits (c.w.statElt r o k)) ∧ l = ofF32 (BitVec.ofNat
      32 (field 4 32)) ∧ l.isZero = false ∧ j < field 10 16 ∧ (j < field 12 16 ∨ field 8 16 ≤ j)) :=
  ⟨⟨opw 0x01 1 [0, 1, 0x3FF, 0x3FF, 2] [(16, 1), (21, 1), (26, 1), (32, 1), (35, 2), (38, 3)], fun _ => [], 0, 0, 1,
    by decide +kernel⟩,
   ⟨opw 0x01 1 [0, 1, 0x3FF, 0x3FF, 2] [(16, 1), (21, 1), (26, 1), (32, 1), (35, 2), (38, 3)], fun _ => [],
    FpVal.zero, 0, 0, by decide +kernel⟩,
   ⟨opWith 47 elemW [], 0, 0, 0, fun _ => default, by decide +kernel⟩,
   ⟨opWith 47 elemW [0, 0, 0, fields [(0, 2), (81, 0x22)], 0, 0], 0, 0, 0, fun _ => default, by decide +kernel⟩,
   ⟨.nan, .zero, .zero, by decide⟩,
   ⟨.zero, .ofInt 1, .zero, by decide +kernel⟩,
   ⟨0, 0, [.zero], by decide⟩,
   ⟨0, 0, [.inf true], by decide⟩,
   ⟨opWith 47 0x38 [], 0, 4, 0, 0, 0, 0, (fun _ => []), (fun o k => Local.bits ((fun _ => [] : Nat → Local) 2)
    (OpWord.statElt 0x38 0 o k)), _, by decide +kernel, by decide +kernel, (fun _ _ => rfl), rfl, by decide +kernel⟩,
   ⟨opWith 47 0x38 [], 0, 4, 0, 0, 0, 0, ((fun _ => memAt 0 [0, 0, 0, 0, 0, 0, 0x80, 0x3F, 0, 0, 1, 0, 1, 0, 0, 0])),
    (fun o k => Local.bits (((fun _ => memAt 0 [0, 0, 0, 0, 0, 0, 0x80, 0x3F, 0, 0, 1, 0, 1, 0, 0, 0]) : Nat → Local)
    2) (OpWord.statElt 0x38 0 o k)), _, by decide +kernel, by decide +kernel, (fun _ _ => rfl), rfl,
    by decide +kernel⟩⟩

theorem wit_PlansTouchMemoryOnly :
    ∃ (d d1 : Dev) (c : Op) (index : Nat) (p : Plan) (e : Nat) (q : Bool), d.runPlan c index p e = .ok (d1, q) :=
  ⟨flying (opw 0x01 1 [0, 1, 0x3FF, 0x3FF, 2] [(16, 1), (21, 1), (26, 1), (32, 1), (35, 2), (38, 3)]), _, (flight (opw
    0x01 1 [0, 1, 0x3FF, 0x3FF, 2] [(16, 1), (21, 1), (26, 1), (32, 1), (35, 2), (38, 3)])).op 47, 0, matmulPlan
    ((flight (opw 0x01 1 [0, 1, 0x3FF, 0x3FF, 2] [(16, 1), (21, 1), (26, 1), (32, 1), (35, 2), (38, 3)])).op 47) 0, 0,
    false, (tells_eq up (by decide +kernel))⟩

theorem wit_ImageLoad :
    (∃ (s : State) (r : Region) (b : Blk) (k : Nat) (w : Who) (d1 d2 : Dev) (head rest : List Byte) (ops descs : Nat),
      k = 4 * r.val + b.val ∧ w = whoOf (.copyEngine r) .stream ∧ (s.dev.blk k).st = .loading ∧ s.dev.load w
      (s.dev.blk k).image 2112 = .ok (d1, head) ∧ ops = fieldOf head 0 4 ∧ descs = fieldOf head 4 4 ∧ 0 < ops ∧ ops ≤
      8192 ∧ descs ≤ 511 ∧ (∀ c : Nat, c < 8 → bufregsBad (imageBufregs head c) = false) ∧ d1.load w ((s.dev.blk
      k).image + 2112) (32 * descs + 32 * ops) = .ok (d2, rest)) ∧
    (∃ (s : State) (r : Region) (b : Blk) (k : Nat) (w : Who) (d1 : Dev) (head : List Byte), k = 4 * r.val + b.val ∧ w
      = whoOf (.copyEngine r) .stream ∧ (s.dev.blk k).st = .loading ∧ s.dev.load w (s.dev.blk k).image 2112 = .ok (d1,
      head) ∧ (fieldOf head 0 4 = 0 ∨ 8192 < fieldOf head 0 4 ∨ 511 < fieldOf head 4 4)) ∧
    (∃ (s : State) (r : Region) (b : Blk) (k c : Nat) (w : Who) (d1 : Dev) (head : List Byte), k = 4 * r.val + b.val ∧
      w = whoOf (.copyEngine r) .stream ∧ (s.dev.blk k).st = .loading ∧ s.dev.load w (s.dev.blk k).image 2112 = .ok
      (d1, head) ∧ 0 < fieldOf head 0 4 ∧ fieldOf head 0 4 ≤ 8192 ∧ fieldOf head 4 4 ≤ 511 ∧ c < 8 ∧ bufregsBad
      (imageBufregs head c) = true) :=
  ⟨⟨imgOk, 11, 3, 47, _, _, _, _, _, 1, 0, by decide +kernel, rfl, by decide +kernel, (tells_eq up (b := 1 ::
    List.replicate 2111 0#8) (by decide +kernel)), four_of (by decide +kernel) ⟨by decide +kernel, (fun c _ =>
    by rw [bufregs_zero]; decide +kernel), (tells_eq up (b := List.replicate 32 0) (by decide +kernel))⟩⟩,
   ⟨imgZero, 11, 3, 47, _, _, _, by decide +kernel, rfl, by decide +kernel, (tells_eq up (b := List.replicate 2112 0)
    (by decide +kernel)), by decide +kernel⟩,
   ⟨imgOverlap, 11, 3, 47, 0, _, _, _, by decide +kernel, rfl, by decide +kernel, (tells_eq up (b := 1 ::
    List.replicate 66 0 ++ 128 :: List.replicate 3 0 ++ 128 :: List.replicate 2040 0) (by decide +kernel)),
    by decide +kernel⟩⟩

theorem wit_QueueEntries :
    (∃ (s : State) (r : Region) (q : QueueNo) (x : Queue) (o : QOut) (rest : List QOut), x = s.dev.queue (32 * r.val +
      q.val) ∧ x.outs = o :: rest ∧ o.discard = false ∧ x.matched = true ∧ x.full = false ∧ (o.waits = false ∨
      x.distant r.val = false) ∧ x.esize < o.bytes.length) ∧
    (∃ (s : State) (r : Region) (q : QueueNo) (x : Queue) (o : QOut) (rest : List QOut), x = s.dev.queue (32 * r.val +
      q.val) ∧ x.outs = o :: rest ∧ o.discard = false ∧ x.matched = true ∧ (x.full = true ∨ (o.waits = true ∧
      x.distant r.val = true)) ∧ o.counted = false) ∧
    (∃ (s : State) (r : Region) (q : QueueNo) (x : Queue) (o : QOut) (rest : List QOut), x = s.dev.queue (32 * r.val +
      q.val) ∧ x.outs = o :: rest ∧ o.discard = false ∧ x.matched = true ∧ (x.full = true ∨ (o.waits = true ∧
      x.distant r.val = true)) ∧ o.counted = true) ∧
    (∃ (s : State) (r : Region) (q : QueueNo) (x : Queue) (o : QOut) (rest : List QOut), x = s.dev.queue (32 * r.val +
      q.val) ∧ x.outs = o :: rest ∧ o.discard = true ∧ o.stack = none ∧ (s.dev.modQueue (32 * r.val + q.val) (fun y =>
      { y with outs := y.outs.tail })).outputsLeft o.blk o.index = false) ∧
    (∃ (s : State) (r : Region) (q : QueueNo) (x : Queue) (o : QOut) (rest : List QOut), x = s.dev.queue (32 * r.val +
      q.val) ∧ x.outs = o :: rest ∧ o.discard = false ∧ x.matched = false) ∧
    (∃ (s : State) (r : Region) (q : QueueNo), (s.dev.queue (32 * r.val + q.val)).held = true ∧ s.dev.stepRuns r.val =
      true) ∧
    (∃ (s : State) (r : Region) (q : QueueNo), (s.dev.queue (32 * r.val + q.val)).outs = []) :=
  ⟨⟨on (withQueue { queue31 2 with outs := [output] }), 11, 31, { queue31 2 with outs := [output] }, output, [],
    by decide +kernel⟩,
   ⟨on (withQueue { queue31 2 with outs := [output], write := 2, write2 := 2 }), 11, 31,
    { queue31 2 with outs := [output], write := 2, write2 := 2 }, output, [], by decide +kernel⟩,
   ⟨on (withQueue { queue31 2 with
      outs := [{ output with waits := true, counted := true }],
      write := 2,
      write2 := 2 }), 11, 31, { queue31 2 with
      outs := [{ output with waits := true, counted := true }],
      write := 2,
      write2 := 2 }, { output with waits := true, counted := true }, [], by decide +kernel⟩,
   ⟨on (withQueue { queue31 2 with outs := [{ output with discard := true }] }), 11, 31,
    { queue31 2 with outs := [{ output with discard := true }] }, { output with discard := true }, [],
    by decide +kernel⟩,
   ⟨on (withQueue { queue31 2 with outs := [output], write := 1 }), 11, 31,
    { queue31 2 with outs := [output], write := 1 }, output, [], by decide +kernel⟩,
   ⟨on (withQueue { queue31 2 with held := true }), 11, 31, by decide +kernel⟩,
   ⟨on up, 11, 31, by decide +kernel⟩⟩

theorem wit_QueueControl :
    (∃ (s : State) (r : Region) (q : QueueNo) (x : Queue) (v : Nat) (rest : List Nat), x = s.dev.queue (32 * r.val +
      q.val) ∧ x.ctl = v :: rest ∧ x.matched = true ∧ ctlOp v = 1 ∧ 0 < ctlCount v ∧ ctlCount v ≤ 4096 ∧ ctlCount v ≤
      (x.write - x.release).toNat) ∧
    (∃ (s : State) (r : Region) (q : QueueNo) (x : Queue) (v : Nat) (rest : List Nat), x = s.dev.queue (32 * r.val +
      q.val) ∧ x.ctl = v :: rest ∧ x.matched = true ∧ ctlOp v = 2 ∧ ctlCount v = 0) ∧
    (∃ (s : State) (r : Region) (q : QueueNo) (x : Queue) (v : Nat) (rest : List Nat), x = s.dev.queue (32 * r.val +
      q.val) ∧ x.ctl = v :: rest ∧ x.matched = true ∧ ctlOp v = 3 ∧ ctlCount v = 0 ∧ x.markValid = true) ∧
    (∃ (s : State) (r : Region) (q : QueueNo) (x : Queue) (v o : Nat) (rest : List Nat) (c : Instr), x = s.dev.queue
      (32 * r.val + q.val) ∧ x.ctl = v :: rest ∧ x.matched = true ∧ (c, o) ∈ [(.queueRelease r q, 1), (.queueMark r q,
      2), (.queueRewind r q, 3)] ∧ (ctlOp v = 0 ∨ 3 < ctlOp v ∨ (ctlOp v = o ∧ ((o = 1 ∧ (ctlCount v = 0 ∨ 4096 <
      ctlCount v ∨ (x.write - x.release).toNat < ctlCount v)) ∨ (o = 2 ∧ ctlCount v ≠ 0) ∨ (o = 3 ∧ (ctlCount v ≠ 0 ∨
      x.markValid = false)))))) ∧
    (∃ (s : State) (r : Region) (q : QueueNo), (s.dev.queue (32 * r.val + q.val)).ctl = []) :=
  ⟨⟨on (withQueue { queue31 2 with write := 2, write2 := 2, offer := 2, offer2 := 2, ctl := [8194] }), 11, 31,
    { queue31 2 with write := 2, write2 := 2, offer := 2, offer2 := 2, ctl := [8194] }, 8194, [], by decide +kernel⟩,
   ⟨on (withQueue { queue31 2 with write := 2, write2 := 2, offer := 2, offer2 := 2, ctl := [16384] }), 11, 31,
    { queue31 2 with write := 2, write2 := 2, offer := 2, offer2 := 2, ctl := [16384] }, 16384, [], by decide +kernel⟩,
   ⟨on (withQueue { queue31 2 with
      write := 2,
      write2 := 2,
      offer := 2,
      offer2 := 2,
      markValid := true,
      ctl := [24576] }), 11, 31, { queue31 2 with
      write := 2,
      write2 := 2,
      offer := 2,
      offer2 := 2,
      markValid := true,
      ctl := [24576] }, 24576, [], by decide +kernel⟩,
   ⟨on (withQueue { queue31 2 with write := 2, write2 := 2, offer := 2, offer2 := 2, ctl := [8195] }), 11, 31,
    { queue31 2 with write := 2, write2 := 2, offer := 2, offer2 := 2, ctl := [8195] }, 8195, 1, [], .queueRelease 11
    31, by decide +kernel, by decide +kernel, by decide +kernel, by simp, by decide +kernel⟩,
   ⟨on up, 11, 31, by decide +kernel⟩⟩

theorem wit_FabricAndReductionTree :
    (∃ (s : State) (src dst : Router) (cls : FabClass) (m : FabMsg) (rest : List FabMsg), s.dev.clk.coast = false ∧
      takeMsg s.dev.net.msgs (fun m => m.on src.val dst.val cls) = some (m, rest) ∧ ((∃ f i b n : Nat, m.body =
      .flagSet f i b n) ∨ (∃ (l : TagList) (b n : Nat), m.body = .scanList l b n))) ∧
    (∃ (s : State) (src dst : Router) (cls : FabClass) (m : FabMsg) (rest : List FabMsg) (b i : Nat), s.dev.clk.coast
      = false ∧ takeMsg s.dev.net.msgs (fun m => m.on src.val dst.val cls) = some (m, rest) ∧ m.body = .listAccepted b
      i) ∧
    (∃ (s : State) (src dst : Router) (cls : FabClass) (m : FabMsg) (rest : List FabMsg) (j : Nat), s.dev.clk.coast =
      false ∧ takeMsg s.dev.net.msgs (fun m => m.on src.val dst.val cls) = some (m, rest) ∧ m.body = .release j) ∧
    (∃ (s : State) (src dst : Router) (cls : FabClass) (m : FabMsg) (rest : List FabMsg), s.dev.clk.coast = false ∧
      takeMsg s.dev.net.msgs (fun m => m.on src.val dst.val cls) = some (m, rest) ∧ m.body = .data) ∧
    (∃ (s : State) (src dst : Router) (cls : FabClass), takeMsg s.dev.net.msgs (fun m => m.on src.val dst.val cls) =
      none) ∧
    (∃ (l : List FabMsg) (p : FabMsg → Bool) (m : FabMsg) (rest : List FabMsg), takeMsg l p = some (m, rest)) ∧
    (∃ (s : State) (r : Region) (b : Blk) (k n br g : Nat) (f : Flight) (d1 : Dev) (bs : List Byte) (q : Nat × Nat)
      (gs : List Nat) (tl : List (Nat × Nat)), k = 4 * r.val + b.val ∧ s.dev.ready k 0x28 = some f ∧ s.dev.domainOf
      r.val = some n ∧ (s.dev.region r.val).treeQ = q :: tl ∧ q = (k, f.index) ∧ s.dev.rounds n = [] ∧ (f.op k).at 0 =
      .br br ∧ cellsOf k (OpWord.mask f.word) = g :: gs ∧ s.dev.readRun (whoBlock k (OpWord.hint f.word)) (.cell g
      (s.dev.bufregBase g br)) 0 (OpWord.treeBytes f.word) = .ok (d1, bs)) ∧
    (∃ (s : State) (r : Region) (b : Blk) (k n br g : Nat) (f : Flight) (q : Nat × Nat) (gs : List Nat) (tl : List
      (Nat × Nat)) (x : Round) (p : Contrib), k = 4 * r.val + b.val ∧ s.dev.ready k 0x28 = some f ∧ s.dev.domainOf
      r.val = some n ∧ (s.dev.region r.val).treeQ = q :: tl ∧ q = (k, f.index) ∧ s.dev.rounds n = [x] ∧ x.num =
      (s.dev.region r.val).treeTaken ∧ p ∈ x.parts ∧ OpWord.treeSig p.word ≠ OpWord.treeSig f.word ∧ (f.op k).at 0 =
      .br br ∧ cellsOf k (OpWord.mask f.word) = g :: gs) ∧
    (∃ (s : State) (r : Region) (b : Blk), s.dev.ready (4 * r.val + b.val) 0x28 = none) ∧
    (∃ (s : State) (n : Domain) (late : Bool) (x : Round), (s.dev.rounds n.val).find? (s.dev.roundFull n.val) = some x
      ∧ s.dev.spanTree n.val = none) ∧
    (∃ (s : State) (n : Domain) (late : Bool) (x : Round) (t : SpanTree) (vals : List Word), (s.dev.rounds
      n.val).find? (s.dev.roundFull n.val) = some x ∧ s.dev.spanTree n.val = some t ∧ vals = combineAll x.op
      s.dev.free (((x.parts.map Contrib.values).head?.map List.length).getD 0) (x.parts.map Contrib.values)) ∧
    (∃ (s : State) (n : Domain) (late : Bool), (s.dev.rounds n.val).find? (s.dev.roundFull n.val) = none) ∧
    (∃ (s : State) (n : Domain) (x : Round) (rest : List Round), s.dev.rounds n.val = x :: rest ∧ s.dev.spanTree n.val
      = none) ∧
    (∃ (s : State) (n : Domain), s.dev.rounds n.val = []) :=
  ⟨⟨on { up with net.msgs := [⟨0, 11, .ctrl, .flagSet 0 1 0 0⟩] }, 0, 11, .ctrl, ⟨0, 11, .ctrl, .flagSet 0 1 0 0⟩, [],
    by decide +kernel, by decide +kernel, (.inl ⟨0, 1, 0, 0, rfl⟩)⟩,
   ⟨on { up with net.msgs := [⟨0, 11, .ctrl, .listAccepted 0 0⟩] }, 0, 11, .ctrl, ⟨0, 11, .ctrl, .listAccepted 0 0⟩,
    [], 0, 0, by decide +kernel⟩,
   ⟨on { up with net.msgs := [⟨0, 11, .ctrl, .release 31⟩] }, 0, 11, .ctrl, ⟨0, 11, .ctrl, .release 31⟩, [], 31,
    by decide +kernel⟩,
   ⟨on { up with net.msgs := [⟨11, 0, .rsp, .data⟩] }, 11, 0, .rsp, ⟨11, 0, .rsp, .data⟩, [], by decide +kernel⟩,
   ⟨on up, 0, 15, .ctrl, by decide +kernel⟩,
   ⟨[⟨0, 11, .ctrl, .flagSet 0 1 0 0⟩], fun _ => true, ⟨0, 11, .ctrl, .flagSet 0 1 0 0⟩, [], by decide +kernel⟩,
   ⟨on { flying treeW with regions := [(11, { RegionSt.zero with treeQ := [(47, 0)] })] }, 11, 3, 47, 11, 0, 376,
    flight treeW, _, List.replicate 4 0, (47, 0), [], [], four_of (by decide +kernel) (four_of (by decide +kernel)
    (tells_eq up (by decide +kernel)))⟩,
   ⟨on { flying treeW8 with
      regions := [(11, { RegionSt.zero with treeQ := [(47, 0)] })],
      net.rounds := [(11, [round11 none false])] }, 11, 3, 47, 11, 0, 376, flight treeW8, (47, 0), [], [], round11
    none false, ⟨11, 47, 0, treeW, [1, 2, 3, 4]⟩, by decide +kernel⟩,
   ⟨on up, 11, 3, by decide +kernel⟩,
   ⟨on (rounds11 [] (round11 none false) dom11), 11, true, round11 none false, by decide +kernel⟩,
   ⟨on (rounds11 [⟨11, true, 0, 8⟩] (round11 none false) dom11), 11, true, round11 none false, ⟨11, true, 0, 8⟩, _,
    by decide +kernel, by decide +kernel, rfl⟩,
   ⟨on dom11, 11, true, by decide +kernel⟩,
   ⟨on (rounds11 [] (round11 none false) dom11), 11, round11 none false, [], by decide +kernel⟩,
   ⟨on up, 11, by decide +kernel⟩⟩

theorem wit_SpanPorts :
    (∃ (s : State) (p : PortNo), (s.dev.span p.val).st = 1) ∧
    (∃ (s : State) (p : PortNo) (i : BitVec 6) (q : PortNo), (s.dev.span p.val).st = 1 ∧ i.toNat = (s.dev.span
      p.val).wantId ∧ q.val = (s.dev.span p.val).wantPort) ∧
    (∃ (s : State) (p : PortNo) (i : BitVec 6) (q : BitVec 4), (s.dev.span p.val).st = 1 ∧ (i.toNat ≠ (s.dev.span
      p.val).wantId ∨ q.toNat ≠ (s.dev.span p.val).wantPort)) ∧
    (∃ (s : State) (p : PortNo) (res : TrainEnd), (s.dev.span p.val).st ≠ 1) ∧
    (∃ (s : State) (p : PortNo), s.dev.host.held = [] ∧ s.dev.hostReady = true ∧ s.dev.spanPresent = true ∧
      (s.dev.span p.val).st = 3 ∧ (s.dev.span p.val).en = true) ∧
    (∃ (s : State) (p : PortNo) (channel : Byte) (bytes : List Byte), (s.dev.span p.val).st = 2 ∧ s.dev.spanTakes
      p.val channel.toNat bytes.length = true) ∧
    (∃ (s : State) (p : PortNo) (channel : Byte) (bytes : List Byte), ((s.dev.span p.val).st ≠ 2 ∨ s.dev.spanTakes
      p.val channel.toNat bytes.length = false)) ∧
    (∃ (d : Dev) (p n len : Nat) (c : Channel), n ≠ 255 ∧ (d.span p).channels.find? (fun c => decide (c.num = n)) =
      some c) ∧
    (∃ (s : State) (r : Region) (b : Blk) (k p c : Nat) (f : Flight), k = 4 * r.val + b.val ∧ s.dev.ready k 0x29 =
      some f ∧ p = OpWord.port f.word ∧ c = OpWord.channel f.word ∧ ((s.dev.span p).st ≠ 2 ∨ ((s.dev.span p).channel
      c).credit < OpWord.spanBytes f.word)) ∧
    (∃ (s : State) (r : Region) (b : Blk), s.dev.ready (4 * r.val + b.val) 0x29 = none) ∧
    (∃ (d : Dev) (p : PortNo) (c : Byte) (x : SpanReply), (d.span p.val).st ≠ 2) ∧
    (∃ (d : Dev) (p : PortNo) (c : Byte) (n : Nat), (d.span p.val).st = 2) ∧
    (∃ (d : Dev) (p : PortNo) (c : Byte) (k i : Nat) (rest : List (Nat × Nat)), (d.span p.val).st = 2 ∧ ((d.span
      p.val).channel c.toNat).sends = (k, i) :: rest) ∧
    (∃ (s : State) (r : Region) (b : Blk) (k : Nat) (f : Flight) (d1 : Dev) (bs : List Byte), k = 4 * r.val + b.val ∧
      s.dev.ready k 0x29 = some f ∧ (s.dev.span (OpWord.port f.word)).st = 2 ∧ OpWord.spanBytes f.word ≤ ((s.dev.span
      (OpWord.port f.word)).channel (OpWord.channel f.word)).credit ∧ s.dev.readRun (whoBlock k (OpWord.hint f.word))
      (s.dev.viewOf ((f.op k).at 0) k (firstCell k (OpWord.mask f.word))) 0 (OpWord.spanBytes f.word) = .ok (d1, bs)) ∧
    (∃ (s : State) (r : Region) (b : Blk) (k : Nat) (f : Flight) (bs : List Byte) (rest : List (Nat × List Byte)) (d1
      : Dev) (x : Span) (q : Bool), k = 4 * r.val + b.val ∧ s.dev.ready k 0x2A = some f ∧ x = s.dev.span (OpWord.port
      f.word) ∧ x.st = 2 ∧ takeRx x.rx (OpWord.channel f.word) = some (bs, rest) ∧ x.channels.any (fun h => h.num ==
      OpWord.channel f.word && h.recvs.head? == some (k, f.index)) = true ∧ bs.length = OpWord.spanBytes f.word ∧
      Dev.receiveInto
      { s.dev.setSpan (OpWord.port f.word) (x.received (OpWord.channel f.word) rest) with out := s.dev.out ++ [.spanReply (OpWord.port f.word) (OpWord.channel f.word) (.credit (min bs.length 65536))] }
      (f.op k) f.index bs = .ok (d1, q) ∧ q = false) ∧
    (∃ (s : State) (r : Region) (b : Blk) (k : Nat) (f : Flight) (bs : List Byte) (rest : List (Nat × List Byte)) (d1
      : Dev) (x : Span) (q : Bool), k = 4 * r.val + b.val ∧ s.dev.ready k 0x2A = some f ∧ x = s.dev.span (OpWord.port
      f.word) ∧ x.st = 2 ∧ takeRx x.rx (OpWord.channel f.word) = some (bs, rest) ∧ x.channels.any (fun h => h.num ==
      OpWord.channel f.word && h.recvs.head? == some (k, f.index)) = true ∧ bs.length = OpWord.spanBytes f.word ∧
      Dev.receiveInto
      { s.dev.setSpan (OpWord.port f.word) (x.received (OpWord.channel f.word) rest) with out := s.dev.out ++ [.spanReply (OpWord.port f.word) (OpWord.channel f.word) (.credit (min bs.length 65536))] }
      (f.op k) f.index bs = .ok (d1, q) ∧ q = true) ∧
    (∃ (s : State) (r : Region) (b : Blk) (k : Nat) (f : Flight), k = 4 * r.val + b.val ∧ s.dev.ready k 0x2A = some f
      ∧ (takeRx (s.dev.span (OpWord.port f.word)).rx (OpWord.channel f.word) = none ∨ (s.dev.span (OpWord.port
      f.word)).st ≠ 2 ∨ (s.dev.span (OpWord.port f.word)).channels.any (fun h => h.num == OpWord.channel f.word &&
      h.recvs.head? == some (k, f.index)) = false)) ∧
    (∃ (s : State) (r : Region) (b : Blk), s.dev.ready (4 * r.val + b.val) 0x2A = none) ∧
    (∃ (s : State) (r : Region) (b : Blk) (k : Nat) (f : Flight) (bs : List Byte) (rest : List (Nat × List Byte)) (x :
      Span), k = 4 * r.val + b.val ∧ s.dev.ready k 0x2A = some f ∧ x = s.dev.span (OpWord.port f.word) ∧ x.st = 2 ∧
      takeRx x.rx (OpWord.channel f.word) = some (bs, rest) ∧ x.channels.any (fun h => h.num == OpWord.channel f.word
      && h.recvs.head? == some (k, f.index)) = true ∧ bs.length ≠ OpWord.spanBytes f.word) ∧
    (∃ (s : State) (r : Region) (b : Blk) (pos : Fin 32), s.dev.spanTimed (4 * r.val + b.val) pos.val = true) ∧
    (∃ (d : Dev) (k pos : Nat) (f : Flight), (d.blk k).fly[pos]? = some f ∧ f.done = false ∧ (OpWord.opcode f.word =
      0x29 ∨ OpWord.opcode f.word = 0x2A)) :=
  ⟨⟨on (withSpan { span11 with st := 1 } up), 11, by decide +kernel⟩,
   ⟨on (withSpan { span11 with st := 1, wantId := 63, wantPort := 0 } up), 11, 63, 0, by decide +kernel⟩,
   ⟨on (withSpan { span11 with st := 1, wantId := 63, wantPort := 0 } up), 11, 63, 15, by decide +kernel⟩,
   ⟨on up, 0, .none, by decide +kernel⟩,
   ⟨on (withSpan { span11 with st := 3 } up), 11, by decide +kernel⟩,
   ⟨on (withSpan span11 up), 11, 254, [1], by decide +kernel⟩,
   ⟨on (withSpan span11 up), 11, 253, [1], by decide +kernel⟩,
   ⟨withSpan span11 up, 11, 254, 1, ⟨254, 11, [(47, 0)], 65536, []⟩, by decide +kernel⟩,
   ⟨on (withSpan { span11 with st := 3 } (flying sendW)), 11, 3, 47, 11, 254, flight sendW, by decide +kernel⟩,
   ⟨on up, 11, 3, by decide +kernel⟩,
   ⟨up, 0, 0, .ack, by decide +kernel⟩,
   ⟨withSpan span11 up, 11, 254, 0, by decide +kernel⟩,
   ⟨withSpan { span11 with channels := [⟨254, 11, [], 0, [(47, 0)]⟩] } up, 11, 254, 47, 0, [], by decide +kernel⟩,
   ⟨on (withSpan span11 (flying sendW)), 11, 3, 47, flight sendW, _, List.replicate 4 0, four_of (by decide +kernel)
    (tells_eq up (by decide +kernel))⟩,
   ⟨on (withSpan { span11 with rx := [(254, List.replicate 4 1)] } (flying recvW)), 11, 3, 47, flight recvW,
    List.replicate 4 1, [], _, { span11 with rx := [(254, List.replicate 4 1)] }, false, four_of (by decide +kernel)
    ⟨by decide +kernel, by decide +kernel, by decide +kernel, (tells_eq up (by decide +kernel)), rfl⟩⟩,
   ⟨on (withSpan { span11 with rx := [(254, List.replicate 4 1)] }
    { flying recvQW with queues := [(383, queue31 2)] }), 11, 3, 47, flight recvQW, List.replicate 4 1, [], _,
    { span11 with rx := [(254, List.replicate 4 1)] }, true, four_of (by decide +kernel) ⟨by decide +kernel,
    by decide +kernel, by decide +kernel, (tells_eq up (by decide +kernel)), rfl⟩⟩,
   ⟨on (withSpan span11 (flying recvW)), 11, 3, 47, flight recvW, by decide +kernel⟩,
   ⟨on up, 11, 3, by decide +kernel⟩,
   ⟨on (withSpan { span11 with rx := [(254, [1])] } (flying recvW)), 11, 3, 47, flight recvW, [1], [],
    { span11 with rx := [(254, [1])] }, by decide +kernel⟩,
   ⟨on (flying sendW), 11, 3, 0, by decide +kernel⟩,
   ⟨flying recvW, 47, 0, flight recvW, by decide +kernel⟩⟩

theorem wit_SpanTreeRounds :
    (∃ (s : State) (n : Domain) (t : SpanTree) (x : Round) (rest : List Round) (own : List Word) (d1 : Dev) (ms : List
      (List Byte)), s.dev.spanTree n.val = some t ∧ s.dev.rounds n.val = x :: rest ∧ x.own = some own ∧ x.sent = false
      ∧ x.cut = false ∧ t.root = true ∧ (∀ p ∈ t.kids, (s.dev.span p).st = 2) ∧ s.dev.takeTree t.kids = some (d1, ms)) ∧
    (∃ (s : State) (n : Domain) (t : SpanTree) (x : Round) (rest : List Round) (own vals : List Word) (d1 : Dev) (ms :
      List (List Byte)), s.dev.spanTree n.val = some t ∧ s.dev.rounds n.val = x :: rest ∧ x.own = some own ∧ x.sent =
      false ∧ x.cut = false ∧ t.root = false ∧ (∀ p ∈ t.kids ++ [t.parent], (s.dev.span p).st = 2) ∧ s.dev.takeTree
      t.kids = some (d1, ms) ∧ vals = combineAll x.op s.dev.free own.length ((own :: ms.map (partialWords s.dev.free
      own.length)).map (fun v => v.map ofF32)) ∧ d1.mayFlow [t.parent] vals = true) ∧
    (∃ (s : State) (n : Domain) (t : SpanTree) (x : Round) (rest : List Round) (own vals : List Word) (d1 : Dev) (ms :
      List (List Byte)), s.dev.spanTree n.val = some t ∧ s.dev.rounds n.val = x :: rest ∧ x.own = some own ∧ x.sent =
      false ∧ x.cut = false ∧ t.root = false ∧ (∀ p ∈ t.kids ++ [t.parent], (s.dev.span p).st = 2) ∧ s.dev.takeTree
      t.kids = some (d1, ms) ∧ vals = combineAll x.op s.dev.free own.length ((own :: ms.map (partialWords s.dev.free
      own.length)).map (fun v => v.map ofF32)) ∧ d1.mayFlow [t.parent] vals = false) ∧
    (∃ (s : State) (n : Domain) (t : SpanTree) (x : Round) (rest : List Round) (own : List Word) (d1 : Dev) (bs : List
      Byte) (more : List (List Byte)), s.dev.spanTree n.val = some t ∧ s.dev.rounds n.val = x :: rest ∧ x.own = some
      own ∧ x.sent = true ∧ x.cut = false ∧ t.root = false ∧ (∀ p ∈ t.kids ++ [t.parent], (s.dev.span p).st = 2) ∧
      s.dev.takeTree [t.parent] = some (d1, bs :: more)) ∧
    (∃ (d1 d : Dev) (n : Nat) (t : SpanTree) (x : Round) (vals : List Word), d1.mayFlow t.kids vals = true) ∧
    (∃ (d1 d : Dev) (n : Nat) (t : SpanTree) (x : Round) (vals : List Word), d1.mayFlow t.kids vals = false) ∧
    (∃ (s : State) (n : Domain) (x : Round) (rest : List Round), s.dev.rounds n.val = x :: rest ∧ x.cut = true) ∧
    (∃ (s : State) (n : Domain), s.dev.spanTree n.val = none) :=
  ⟨⟨on (withSpan { span11 with rx := [(255, [1, 2, 3, 4])] } (rounds11 [⟨11, true, 12, 0x800⟩] (round11 (some [1])
    false) dom11)), 11, ⟨11, true, 12, 0x800⟩, round11 (some [1]) false, [], [1], _, _, four_of (by decide +kernel)
    ⟨by decide +kernel, by decide +kernel, by decide +kernel, rfl⟩⟩,
   ⟨on (withSpan { span11 with rx := [(255, [1, 2, 3, 4])] } (rounds11 [⟨11, false, 11, 0⟩] (round11 (some [1]) false)
    dom11)), 11, ⟨11, false, 11, 0⟩, round11 (some [1]) false, [], [1], _, _, _, four_of (by decide +kernel)
    ⟨by decide +kernel, by decide +kernel, by decide +kernel, rfl, rfl, by decide +kernel⟩⟩,
   ⟨on (withSpan { span11 with tree := ⟨255, 0, [], 0, []⟩ } (rounds11 [⟨11, false, 11, 0⟩] (round11 (some [1]) false)
    dom11)), 11, ⟨11, false, 11, 0⟩, round11 (some [1]) false, [], [1], _, _, _, four_of (by decide +kernel)
    ⟨by decide +kernel, by decide +kernel, by decide +kernel, rfl, rfl, by decide +kernel⟩⟩,
   ⟨on (withSpan { span11 with rx := [(255, [1, 2, 3, 4])] } (rounds11 [⟨11, false, 11, 0⟩] (round11 (some [1]) true)
    dom11)), 11, ⟨11, false, 11, 0⟩, round11 (some [1]) true, [], [1], _, _, _, four_of (by decide +kernel)
    ⟨by decide +kernel, by decide +kernel, by decide +kernel, rfl⟩⟩,
   ⟨withSpan span11 up, up, 11, ⟨11, true, 12, 0x800⟩, round11 none false, [1], by decide +kernel⟩,
   ⟨withSpan { span11 with tree := ⟨255, 0, [], 0, []⟩ } up, up, 11, ⟨11, true, 12, 0x800⟩, round11 none false, [1],
    by decide +kernel⟩,
   ⟨on (rounds11 [] { round11 none false with cut := true } dom11), 11, { round11 none false with cut := true }, [],
    by decide +kernel⟩,
   ⟨on up, 11, by decide +kernel⟩⟩

theorem wit_WeightWords :
    (∃ (s : State) (st : Stack) (n : SlotNo) (sl : Slot) (p0 : Nat × Nat) (rest : List (Nat × Nat)) (pc : Nat) (w :
      SeqWord), s.dev.slotOf st.val n.val = some sl ∧ sl.chosen = p0 :: rest ∧ pc = (s.dev.bcell (cellKey st.val p0.1
      p0.2)).pc ∧ sl.words[pc]? = some w ∧ (∀ p ∈ sl.chosen, (s.dev.bcell (cellKey st.val p.1 p.2)).runs.head? = some
      n.val ∧ (s.dev.bcell (cellKey st.val p.1 p.2)).pc = pc ∧ (s.dev.wordFor st.val p.1 p.2 0x1).isSome = true) ∧ 32
      * w.loadAoff + 32 * w.count ≤ 32768) ∧
    (∃ (s : State) (st : Stack) (i : Fin 16) (c : BankCell) (sl : Slot) (w : SeqWord), s.dev.wordFor st.val i.val
      c.val 0x2 = some (sl, w) ∧ s.dev.firstBad st.val i.val (2 * c.val + w.wBank) ((List.range w.count).flatMap (fun
      r => (List.range w.wLen).map (fun k => w.wAddr + r * w.wPitch + k))) = none ∧ (sl.wordOpens w st.val i.val c.val
      0 (s.dev.bcell (cellKey st.val i.val c.val)).row).length ≤ (s.dev.bcell (cellKey st.val i.val c.val)).rowsAhead) ∧
    (∃ (s : State) (st : Stack) (i : Fin 16) (c : BankCell) (sl : Slot) (w : SeqWord), s.dev.wordFor st.val i.val
      c.val 0x2 = some (sl, w) ∧ (s.dev.bcell (cellKey st.val i.val c.val)).rowsAhead < (sl.wordOpens w st.val i.val
      c.val 0 (s.dev.bcell (cellKey st.val i.val c.val)).row).length) ∧
    (∃ (s : State) (st : Stack) (i : Fin 16) (c : BankCell) (sl : Slot) (w : SeqWord) (p : Stripe), s.dev.wordFor
      st.val i.val c.val 0x2 = some (sl, w) ∧ s.dev.firstBad st.val i.val (2 * c.val + w.wBank) ((List.range
      w.count).flatMap (fun r => (List.range w.wLen).map (fun k => w.wAddr + r * w.wPitch + k))) = some p ∧
      (sl.wordOpens w st.val i.val c.val 0 (s.dev.bcell (cellKey st.val i.val c.val)).row).length ≤ (s.dev.bcell
      (cellKey st.val i.val c.val)).rowsAhead) ∧
    (∃ (d : Dev) (st i c n r q : Nat) (w : SeqWord), r < n ∧ q < w.wBatch) ∧
    (∃ (d : Dev) (st i c n x : Nat) (w : SeqWord), (x < cellKey st i c * 2048 + w.wAcc ∨ cellKey st i c * 2048 +
      (w.wAcc + n * w.wBatch) ≤ x)) ∧
    (∃ (d : Dev) (st i b : Nat) (ns : List Nat), d.badPath = []) :=
  ⟨⟨on (bau (slotW [fields [(0, 1), (8, 1), (24, 1023), (34, 2047)]] ([])) inSeq id), 23, 3, (slotW [fields [(0, 1),
    (8, 1), (24, 1023), (34, 2047)]] ([])), (15, 63), [], 0, fields [(0, 1), (8, 1), (24, 1023), (34, 2047)],
    by decide +kernel⟩,
   ⟨on (bau (slotW [fields [(0, 2), (8, 1), (24, 1), (67, 1)]] []) fed id), 23, 15, 63, slotW [fields [(0, 2), (8, 1),
    (24, 1), (67, 1)]] [], fields [(0, 2), (8, 1), (24, 1), (67, 1)], by decide +kernel⟩,
   ⟨on (bau (slotW [fields [(0, 2), (8, 1), (24, 1), (67, 1)]] []) inSeq id), 23, 15, 63, slotW [fields [(0, 2), (8,
    1), (24, 1), (67, 1)]] [], fields [(0, 2), (8, 1), (24, 1), (67, 1)], by decide +kernel⟩,
   ⟨on
    { bau (slotW [fields [(0, 2), (8, 1), (24, 1), (67, 1)]] []) fed id with parity := [(up.chunkKey 23 15 stripe127, 1)] },
    23, 15, 63, slotW [fields [(0, 2), (8, 1), (24, 1), (67, 1)]] [], fields [(0, 2), (8, 1), (24, 1), (67, 1)],
    stripe127, by decide +kernel⟩,
   ⟨up, 23, 15, 63, 2048, 2047, 255, fields [(94, 255)], by decide +kernel⟩,
   ⟨up, 23, 15, 63, 1, 0, fields [(83, 1)], by decide +kernel⟩,
   ⟨up, 23, 15, 127, [], by decide +kernel⟩⟩

theorem wit_EmitWords :
    (∃ (s : State) (st : Stack) (i : Fin 16) (c : BankCell) (sl : Slot) (w : SeqWord) (n : Nat) (rest : List Nat),
      s.dev.wordFor st.val i.val c.val 0x5 = some (sl, w) ∧ w.eMode ≠ 1 ∧ (s.dev.bcell (cellKey st.val i.val
      c.val)).runs = n :: rest) ∧
    (∃ (s : State) (st : Stack) (i : Fin 16) (c : BankCell) (sl : Slot) (w : SeqWord) (n at0 : Nat) (rest : List Nat),
      s.dev.wordFor st.val i.val c.val 0x5 = some (sl, w) ∧ w.eMode = 1 ∧ (s.dev.bcell (cellKey st.val i.val
      c.val)).runs = n :: rest ∧ (s.dev.bcell (cellKey st.val i.val c.val)).ridx = some at0 ∧ w.count = w.ePitch ∧ 0 <
      w.ePitch) ∧
    (∃ (s : State) (st : Stack) (i : Fin 16) (c : BankCell) (sl : Slot) (w : SeqWord) (n : Nat) (rest : List Nat),
      s.dev.wordFor st.val i.val c.val 0x5 = some (sl, w) ∧ w.eMode = 1 ∧ (s.dev.bcell (cellKey st.val i.val
      c.val)).runs = n :: rest ∧ (s.dev.bcell (cellKey st.val i.val c.val)).ridx = none) :=
  ⟨⟨on (bau (slotW [fields [(0, 5), (8, 1)]] ([])) inSeq id), 23, 15, 63, (slotW [fields [(0, 5), (8, 1)]] ([])),
    fields [(0, 5), (8, 1)], 3, [], by decide +kernel⟩,
   ⟨on (bau (slotW [fields [(0, 5), (8, 66), (35, 1), (52, 66)]] ([])) { inSeq with ridx := some 0 } id), 23, 15, 63,
    (slotW [fields [(0, 5), (8, 66), (35, 1), (52, 66)]] ([])), fields [(0, 5), (8, 66), (35, 1), (52, 66)], 3, 0, [],
    by decide +kernel⟩,
   ⟨on (bau (slotW [fields [(0, 5), (8, 66), (35, 1), (52, 66)]] ([])) inSeq id), 23, 15, 63, (slotW [fields [(0, 5),
    (8, 66), (35, 1), (52, 66)]] ([])), fields [(0, 5), (8, 66), (35, 1), (52, 66)], 3, [], by decide +kernel⟩⟩

theorem wit_AttentionWords :
    (∃ (s : State) (st : Stack) (i : Fin 16) (c : BankCell) (sl : Slot) (w : SeqWord), s.dev.wordFor st.val i.val
      c.val 0x3 = some (sl, w) ∧ w.aKind = 0 ∧ sl.entry w st.val i.val c.val = none) ∧
    (∃ (s : State) (st : Stack) (i : Fin 16) (c : BankCell) (sl : Slot) (w : SeqWord) (x : PageEntry), s.dev.wordFor
      st.val i.val c.val 0x3 = some (sl, w) ∧ w.aKind = 0 ∧ sl.entry w st.val i.val c.val = some x ∧ (sl.wordOpens w
      st.val i.val c.val 0 (s.dev.bcell (cellKey st.val i.val c.val)).row).length ≤ (s.dev.bcell (cellKey st.val i.val
      c.val)).rowsAhead ∧ sl.raced = [] ∧ (∀ n : Nat, s.dev.chunkBad st.val i.val (bankStripe (2 * c.val + x.par) n) =
      false)) ∧
    (∃ (s : State) (st : Stack) (i : Fin 16) (c : BankCell) (sl : Slot) (w : SeqWord) (x : PageEntry), s.dev.wordFor
      st.val i.val c.val 0x3 = some (sl, w) ∧ w.aKind = 0 ∧ sl.entry w st.val i.val c.val = some x ∧ (s.dev.bcell
      (cellKey st.val i.val c.val)).rowsAhead < (sl.wordOpens w st.val i.val c.val 0 (s.dev.bcell (cellKey st.val
      i.val c.val)).row).length) ∧
    (∃ (sl : Slot) (w : SeqWord) (st i c pos : Nat) (row : Option Nat) (x : PageEntry), w.op = 0x3 ∧ sl.entry w st i c
      = some x) ∧
    (∃ (d : Dev) (sl : Slot) (st i c g : Nat) (w : SeqWord) (x : PageEntry), (∀ t ∈ tilesOf w x, t = []) ∧ w.aInit =
      true) ∧
    (∃ (d : Dev) (sl : Slot) (st i c g : Nat) (w : SeqWord) (x : PageEntry), (∀ t ∈ tilesOf w x, t = []) ∧ w.aInit =
      false) ∧
    (∃ (w : SeqWord) (x : PageEntry) (t : List Nat), t ∈ tilesOf w x) ∧
    (∃ (w : SeqWord) (x : PageEntry) (t : List Nat) (j : Nat), t ∈ tilesOf w x ∧ j ∈ t) ∧
    (∃ (w : SeqWord) (x : PageEntry) (t : List Nat) (j : Nat), t ∈ tilesOf w x ∧ j ∈ t ∧ w.causal = true) ∧
    (∃ (s : State) (st : Stack) (n : SlotNo) (sl : Slot) (k : Nat) (ws : List Word) (rest : List (Nat × List Word)),
      (s.dev.stk st.val).halt = 0 ∧ s.dev.slotOf st.val n.val = some sl ∧ sl.arrivals = (k, ws) :: rest ∧ (∀ j : Nat,
      j < ws.length → Tab.read (fun _ => none) sl.merge (k + j) = none)) ∧
    (∃ (s : State) (st : Stack) (n : SlotNo) (sl : Slot) (k : Nat) (ws olds : List Word) (rest : List (Nat × List
      Word)), (s.dev.stk st.val).halt = 0 ∧ s.dev.slotOf st.val n.val = some sl ∧ sl.arrivals = (k, ws) :: rest ∧
      olds.length = ws.length ∧ ws ≠ [] ∧ (∀ j : Nat, j < ws.length → Tab.read (fun _ => none) sl.merge (k + j) =
      olds[j]?)) ∧
    (∃ (old new : List FpVal), old.getD (new.length - 2) .nan = .inf true ∧ new.getD (new.length - 2) .nan = .inf
      true) ∧
    (∃ (s : State) (st : Stack) (n : SlotNo) (sl : Slot) (w : SeqWord) (d1 : Dev), s.dev.slotOf st.val n.val = some sl
      ∧ s.dev.stackRuns st.val = true ∧ sl.dieMask = 0 ∧ sl.cellMask = 0 ∧ sl.words[sl.basePc]? = some w ∧ w.op = 0x3
      ∧ s.dev.normBlocks st.val (normWho st.val) sl ((List.range w.count).map (sl.score w)) = .ok d1) :=
  ⟨⟨on (bau (slotW [decodeW] []) inSeq id), 23, 15, 63, slotW [decodeW] [], decodeW, by decide +kernel⟩,
   ⟨on (bau (slotW [decodeW] mapped) fed id), 23, 15, 63, slotW [decodeW] mapped, decodeW, ⟨0, 0, 0, 0, 32, 0, 31⟩,
    four_of (by decide +kernel) ⟨by decide +kernel, (fun _ => rfl)⟩⟩,
   ⟨on (bau (slotW [decodeW] mapped) inSeq id), 23, 15, 63, slotW [decodeW] mapped, decodeW, ⟨0, 0, 0, 0, 32, 0, 31⟩,
    by decide +kernel⟩,
   ⟨slotW [decodeW] mapped, decodeW, 23, 15, 63, 0, none, ⟨0, 0, 0, 0, 32, 0, 31⟩, by decide +kernel⟩,
   ⟨up, slotW [] [], 23, 15, 63, 0, fields [(26, 1)], ⟨0, 0, 0, 0, 32, 0, 31⟩, by decide +kernel⟩,
   ⟨up, slotW [] [], 23, 15, 63, 0, 0, ⟨0, 0, 0, 0, 32, 0, 31⟩, by decide +kernel⟩,
   ⟨fields [(0, 3), (8, 17)], ⟨0, 0, 0, 0, 32, 0, 31⟩, List.range 16, by decide +kernel⟩,
   ⟨decodeW, ⟨0, 0, 0, 0, 32, 0, 31⟩, List.range 16, 15, by decide +kernel⟩,
   ⟨fields [(0, 3), (8, 17), (72, 1)], ⟨0, 0, 0, 0, 32, 0, 31⟩, [16], 16, by decide +kernel⟩,
   ⟨on (bau ({ slotW [fields [(0, 3), (8, 17)]] ([]) with arrivals := [(0, [1, 2])] }) inSeq id), 23, 3,
    ({ slotW [fields [(0, 3), (8, 17)]] ([]) with arrivals := [(0, [1, 2])] }), 0, [1, 2], [], by decide +kernel⟩,
   ⟨on (bau
    ({ slotW [fields [(0, 3), (8, 17)]] ([]) with arrivals := [(0, [1, 2])], merge := [(0, some 3), (1, some 4)] })
    inSeq id), 23, 3,
    ({ slotW [fields [(0, 3), (8, 17)]] ([]) with arrivals := [(0, [1, 2])], merge := [(0, some 3), (1, some 4)] }),
    0, [1, 2], [3, 4], [], by decide +kernel⟩,
   ⟨List.replicate 64 FpVal.zero ++ [.inf true, FpVal.zero], List.replicate 64 FpVal.zero ++ [.inf true, FpVal.zero],
    by decide +kernel⟩,
   ⟨on (bau
    { slotW [fields [(0, 3), (8, 1), (24, 1)]] (memAt 0 (bytesOf (far + (far + 16384) * 2 ^ 64) 16)) with dieMask := 0, cellMask := 0 }
    inSeq id), 23, 3,
    { slotW [fields [(0, 3), (8, 1), (24, 1)]] (memAt 0 (bytesOf (far + (far + 16384) * 2 ^ 64) 16)) with dieMask := 0, cellMask := 0 },
    fields [(0, 3), (8, 1), (24, 1)], _, four_of (by decide +kernel) ⟨by decide +kernel, by decide +kernel, (ok_of up
    (by decide +kernel))⟩⟩⟩

theorem wit_StoreAndYieldWords :
    (∃ (s : State) (st : Stack) (i : Fin 16) (c : BankCell) (sl : Slot) (w : SeqWord) (ck k : Nat) (p : Stripe) (d1 :
      Dev), s.dev.wordFor st.val i.val c.val 0x6 = some (sl, w) ∧ ck = cellKey st.val i.val c.val ∧ k = (s.dev.bcell
      ck).storePos ∧ p = bankStripe (2 * c.val + w.sBank) (w.sAddr + k) ∧ (openings (s.dev.bcell ck).row [streamRow (2
      * c.val + w.sBank) p.row]).length ≤ (s.dev.bcell ck).rowsAhead ∧ (∀ x ∈ (s.dev.stk st.val).deltas, x.cell = 64 *
      i.val + c.val → x.granted = true) ∧ s.dev.stripeLocked st.val p = false ∧ s.dev.chunkBad st.val i.val p = false
      ∧ d1 = ((((((s.dev.retried st.val i.val p).writeChunk st.val i.val p (overlay (s.dev.chunk st.val i.val p)
      (s.dev.storeBytes ck w k) 0) true).invalidate st.val p i.val).modStk st.val (fun x => { x with
        deltas := x.deltas ++ [⟨x.deltaSeq, p, i.val, 64 * i.val + c.val, xorBytes (s.dev.chunk st.val i.val p)
      (overlay (s.dev.chunk st.val i.val p) (s.dev.storeBytes ck w k) 0), false, false, false⟩],
        deltaSeq := x.deltaSeq + 1 })).streamOut (bankAddr st.val i.val (2 * c.val + w.sBank) (w.sAddr + k))
      (s.dev.storeBytes ck w k)).modBcell ck (fun y => y.read (openings (s.dev.bcell ck).row [streamRow (2 * c.val +
      w.sBank) p.row]))) ∧ k + 1 < w.storeSteps) ∧
    (∃ (s : State) (st : Stack) (i : Fin 16) (c : BankCell) (sl : Slot) (w : SeqWord) (ck k : Nat) (p : Stripe) (d1 :
      Dev), s.dev.wordFor st.val i.val c.val 0x6 = some (sl, w) ∧ ck = cellKey st.val i.val c.val ∧ k = (s.dev.bcell
      ck).storePos ∧ p = bankStripe (2 * c.val + w.sBank) (w.sAddr + k) ∧ (openings (s.dev.bcell ck).row [streamRow (2
      * c.val + w.sBank) p.row]).length ≤ (s.dev.bcell ck).rowsAhead ∧ (∀ x ∈ (s.dev.stk st.val).deltas, x.cell = 64 *
      i.val + c.val → x.granted = true) ∧ s.dev.stripeLocked st.val p = false ∧ s.dev.chunkBad st.val i.val p = false
      ∧ d1 = ((((((s.dev.retried st.val i.val p).writeChunk st.val i.val p (overlay (s.dev.chunk st.val i.val p)
      (s.dev.storeBytes ck w k) 0) true).invalidate st.val p i.val).modStk st.val (fun x => { x with
        deltas := x.deltas ++ [⟨x.deltaSeq, p, i.val, 64 * i.val + c.val, xorBytes (s.dev.chunk st.val i.val p)
      (overlay (s.dev.chunk st.val i.val p) (s.dev.storeBytes ck w k) 0), false, false, false⟩],
        deltaSeq := x.deltaSeq + 1 })).streamOut (bankAddr st.val i.val (2 * c.val + w.sBank) (w.sAddr + k))
      (s.dev.storeBytes ck w k)).modBcell ck (fun y => y.read (openings (s.dev.bcell ck).row [streamRow (2 * c.val +
      w.sBank) p.row]))) ∧ w.storeSteps ≤ k + 1) ∧
    (∃ (s : State) (st : Stack) (i : Fin 16) (c : BankCell) (sl : Slot) (w : SeqWord) (ck : Nat) (p : Stripe),
      s.dev.wordFor st.val i.val c.val 0x6 = some (sl, w) ∧ ck = cellKey st.val i.val c.val ∧ p = bankStripe (2 *
      c.val + w.sBank) (w.sAddr + (s.dev.bcell ck).storePos) ∧ (s.dev.bcell ck).rowsAhead < (openings (s.dev.bcell
      ck).row [streamRow (2 * c.val + w.sBank) p.row]).length) ∧
    (∃ (s : State) (st : Stack) (i : Fin 16) (c : BankCell) (sl : Slot) (w : SeqWord) (ck : Nat) (p : Stripe),
      s.dev.wordFor st.val i.val c.val 0x6 = some (sl, w) ∧ ck = cellKey st.val i.val c.val ∧ p = bankStripe (2 *
      c.val + w.sBank) (w.sAddr + (s.dev.bcell ck).storePos) ∧ (openings (s.dev.bcell ck).row [streamRow (2 * c.val +
      w.sBank) p.row]).length ≤ (s.dev.bcell ck).rowsAhead ∧ (∃ x ∈ (s.dev.stk st.val).deltas, x.cell = 64 * i.val +
      c.val ∧ x.granted = false)) ∧
    (∃ (s : State) (st : Stack) (i : Fin 16) (c : BankCell) (sl : Slot) (w : SeqWord) (ck : Nat) (p : Stripe),
      s.dev.wordFor st.val i.val c.val 0x6 = some (sl, w) ∧ ck = cellKey st.val i.val c.val ∧ p = bankStripe (2 *
      c.val + w.sBank) (w.sAddr + (s.dev.bcell ck).storePos) ∧ (openings (s.dev.bcell ck).row [streamRow (2 * c.val +
      w.sBank) p.row]).length ≤ (s.dev.bcell ck).rowsAhead ∧ (∀ x ∈ (s.dev.stk st.val).deltas, x.cell = 64 * i.val +
      c.val → x.granted = true) ∧ s.dev.stripeLocked st.val p = true) ∧
    (∃ (s : State) (st : Stack) (i : Fin 16) (c : BankCell) (q : Slot × SeqWord), s.dev.wordFor st.val i.val c.val 0x7
      = some q) ∧
    (∃ (s : State) (st : Stack) (i : Fin 16) (c : BankCell) (q : Slot × SeqWord), s.dev.wordFor st.val i.val c.val 0x8
      = some q) ∧
    (∃ (s : State) (st : Stack) (i : Fin 16) (c : BankCell) (q : Slot × SeqWord), s.dev.wordFor st.val i.val c.val 0xF
      = some q) ∧
    (∃ (s : State) (st : Stack) (n : SlotNo) (sl : Slot), s.dev.slotOf st.val n.val = some sl ∧ s.dev.sequenceOver
      st.val n.val sl = true ∧ sl.sent = false ∧ (s.dev.stk st.val).halt = 0 ∧ sl.output = [] ∧ sl.onBase = false) ∧
    (∃ (s : State) (st : Stack) (n : SlotNo) (sl : Slot) (d1 : Dev), s.dev.slotOf st.val n.val = some sl ∧
      s.dev.sequenceOver st.val n.val sl = true ∧ sl.sent = false ∧ (s.dev.stk st.val).halt = 0 ∧ sl.output = [] ∧
      sl.onBase = true ∧ s.dev.scramble st.val (sl.raceAddrs st.val) = .ok d1) ∧
    (∃ (d : Dev) (st : Nat) (sl : Slot), sl.raced = []) ∧
    (∃ (s : State) (st : Stack) (n : SlotNo), (s.dev.stk st.val).halt ≠ 0) ∧
    (∃ (s : State) (st : Stack) (n : SlotNo) (sl : Slot) (k q : Nat), s.dev.slotOf st.val n.val = some sl ∧
      s.dev.sequenceOver st.val n.val sl = true ∧ sl.sent = false ∧ (s.dev.stk st.val).halt = 0 ∧ sl.output ≠ [] ∧
      s.dev.draining sl.req.region = false ∧ k = 4 * sl.req.region + sl.req.blk ∧ q = 32 * sl.req.region +
      OpWord.queue sl.req.word ∧ (s.dev.queue q).order.head? = some (st.val, k, sl.req.index)) ∧
    (∃ (s : State) (st : Stack) (i : Fin 16) (c : BankCell) (n : SlotNo), s.dev.nextSeq st.val i.val c.val = none ∧
      s.dev.slotOf st.val n.val = none) :=
  ⟨⟨on (bau (slotW [fields [(0, 6), (8, 9), (35, 1), (57, 0)]] []) fed id), 23, 15, 63, slotW [fields [(0, 6), (8, 9),
    (35, 1), (57, 0)]] [], fields [(0, 6), (8, 9), (35, 1), (57, 0)], ck63, 0, stripe127, _, four_of
    (by decide +kernel) (four_of (by decide +kernel) ⟨rfl, by decide +kernel⟩)⟩,
   ⟨on (bau (slotW [fields [(0, 6), (8, 8), (35, 1), (57, 0)]] []) fed id), 23, 15, 63, slotW [fields [(0, 6), (8, 8),
    (35, 1), (57, 0)]] [], fields [(0, 6), (8, 8), (35, 1), (57, 0)], ck63, 0, stripe127, _, four_of
    (by decide +kernel) (four_of (by decide +kernel) ⟨rfl, by decide +kernel⟩)⟩,
   ⟨on (bau (slotW [fields [(0, 6), (8, 8), (35, 1), (57, 0)]] []) inSeq id), 23, 15, 63, slotW [fields [(0, 6), (8,
    8), (35, 1), (57, 0)]] [], fields [(0, 6), (8, 8), (35, 1), (57, 0)], ck63, stripe127, by decide +kernel⟩,
   ⟨on (bau (slotW [fields [(0, 6), (8, 8), (35, 1), (57, 0)]] []) fed (fun x =>
    { x with deltas := [⟨7, farStripe, 15, 1023, [], false, false, false⟩] })), 23, 15, 63, slotW [fields [(0, 6), (8,
    8), (35, 1), (57, 0)]] [], fields [(0, 6), (8, 8), (35, 1), (57, 0)], ck63, stripe127, by decide +kernel⟩,
   ⟨on (bau (slotW [fields [(0, 6), (8, 8), (35, 1), (57, 0)]] []) fed (fun x =>
    { x with locks := [⟨stripe127, true, false, []⟩] })), 23, 15, 63, slotW [fields [(0, 6), (8, 8), (35, 1), (57,
    0)]] [], fields [(0, 6), (8, 8), (35, 1), (57, 0)], ck63, stripe127, by decide +kernel⟩,
   ⟨on (bau (slotW [7] ([])) inSeq id), 23, 15, 63, (slotW [7] [], 7), by decide +kernel⟩,
   ⟨on (bau (slotW [8] ([])) inSeq id), 23, 15, 63, (slotW [8] [], 8), by decide +kernel⟩,
   ⟨on (bau (slotW [15] ([])) inSeq id), 23, 15, 63, (slotW [15] [], 15), by decide +kernel⟩,
   ⟨on (bau (slotW [15] ([])) BCell.zero id), 23, 3, slotW [15] [], by decide +kernel⟩,
   ⟨on (bau { slotW [15] [] with dieMask := 0, cellMask := 0, raced := [0] } BCell.zero id), 23, 3,
    { slotW [15] [] with dieMask := 0, cellMask := 0, raced := [0] }, _, four_of (by decide +kernel)
    ⟨by decide +kernel, by decide +kernel, (ok_of up (by decide +kernel))⟩⟩,
   ⟨up, 23, slotW [15] [], by decide +kernel⟩,
   ⟨on (bau (slotW [15] []) inSeq (fun x => { x with halt := 1 })), 23, 3, by decide +kernel⟩,
   ⟨on { bau { slotW [15] [] with merge := [(0, some 1)] } BCell.zero id with
      queues := [(32 * 11, { queue31 1 with order := [(23, 47, 0)] })] }, 23, 3,
    { slotW [15] [] with merge := [(0, some 1)] }, 47, 352, by decide +kernel⟩,
   ⟨on up, 23, 15, 63, 3, by decide +kernel⟩⟩

theorem wit_StackDispatch :
    (∃ (s : State) (r : Region) (b : Blk) (k : Nat) (f : Flight) (d1 : Dev), k = 4 * r.val + b.val ∧ s.dev.ready k
      0x20 = some f ∧ d1 = (f.op k).stacksNamed.foldl (fun a st => a.modStk st (fun x =>
      { x with reqs := x.reqs ++ [⟨k / 4, k % 4, f.index, f.word, f.raws, false, []⟩] })) s.dev) ∧
    (∃ (s : State) (r : Region) (b : Blk) (k : Nat) (f : Flight), k = 4 * r.val + b.val ∧ s.dev.ready k 0x21 = some f) ∧
    (∃ (s : State) (r : Region) (b : Blk), s.dev.ready (4 * r.val + b.val) 0x20 = none) ∧
    (∃ (s : State) (r : Region) (b : Blk), s.dev.ready (4 * r.val + b.val) 0x21 = none) ∧
    (∃ (s : State) (st : Stack) (q : DispReq) (rest : List DispReq) (n k a size : Nat) (t z : Bool) (d1 d1' d2 : Dev)
      (bs : List Byte) (s0 sl : Slot), s.dev.stackRuns st.val = true ∧ (s.dev.stk st.val).scanQ = [] ∧ (s.dev.stk
      st.val).reqs = q :: rest ∧ s.dev.freeSlot st.val = some n ∧ q.scan = false ∧ k = 4 * q.region + q.blk ∧
      (s.dev.queue (32 * q.region + OpWord.queue q.word)).full = false ∧ (opWith k q.word q.raws).at 0 = .addr t a
      size z ∧ s.dev.sequenceImage st.val a size = .ok (d1, bs) ∧ (d1.unserve (reconWho st.val).party).newSlot q 65536
      = .ok (d1', s0) ∧ headerFail bs size = none ∧ d2 = d1'.drawn.modStk st.val (fun x => { x with reqs := rest }) ∧
      sl = { s0 with
        words := (List.range ((bs.length - 64) / 16)).map (fun i => SeqWord.withArg (fieldOf bs (64 + 16 * i) 16)
      (OpWord.arg q.word % 65536)),
        dieMask := fieldOf bs 2 2,
        cellMask := fieldOf bs 8 8 } ∧ d2.seqFail st.val sl sl.words 0 0 sl.words = none) ∧
    (∃ (s : State) (st : Stack) (q : DispReq) (rest : List DispReq) (n k a size : Nat) (t z : Bool) (d1 d1' d2 : Dev)
      (bs : List Byte) (s0 sl : Slot) (code i : Nat), s.dev.stackRuns st.val = true ∧ (s.dev.stk st.val).scanQ = [] ∧
      (s.dev.stk st.val).reqs = q :: rest ∧ s.dev.freeSlot st.val = some n ∧ q.scan = false ∧ k = 4 * q.region + q.blk
      ∧ (s.dev.queue (32 * q.region + OpWord.queue q.word)).full = false ∧ (opWith k q.word q.raws).at 0 = .addr t a
      size z ∧ s.dev.sequenceImage st.val a size = .ok (d1, bs) ∧ (d1.unserve (reconWho st.val).party).newSlot q 65536
      = .ok (d1', s0) ∧ headerFail bs size = none ∧ d2 = d1'.drawn.modStk st.val (fun x => { x with reqs := rest }) ∧
      sl = { s0 with
        words := (List.range ((bs.length - 64) / 16)).map (fun i => SeqWord.withArg (fieldOf bs (64 + 16 * i) 16)
      (OpWord.arg q.word % 65536)),
        dieMask := fieldOf bs 2 2,
        cellMask := fieldOf bs 8 8 } ∧ d2.seqFail st.val sl sl.words 0 0 sl.words = some (code, i)) ∧
    (∃ (s : State) (st : Stack) (q : DispReq) (rest : List DispReq) (n : Nat) (d1 : Dev) (sl : Slot), s.dev.stackRuns
      st.val = true ∧ (s.dev.stk st.val).scanQ = [] ∧ (s.dev.stk st.val).reqs = q :: rest ∧ s.dev.freeSlot st.val =
      some n ∧ q.scan = true ∧ s.dev.newSlot q (2 * OpWord.scanDim q.word) = .ok (d1, sl)) ∧
    (∃ (s : State) (st : Stack), (s.dev.stackRuns st.val = false ∨ ((s.dev.stk st.val).scanQ = [] ∧ (s.dev.freeSlot
      st.val = none ∨ (s.dev.stk st.val).reqs = [])))) ∧
    (∃ (d : Dev) (st n : Nat), d.freeSlot st = some n) ∧
    (∃ (d : Dev) (st n : Nat) (m : Nat), d.freeSlot st = some n ∧ m < n) :=
  ⟨⟨on (flying seqW), 11, 3, 47, flight seqW, _, by decide +kernel, by decide +kernel, rfl⟩,
   ⟨on (flying (opw 0x21 0 [0x201] [(128, 2), (133, 31)])), 11, 3, 47, flight (opw 0x21 0 [0x201] [(128, 2), (133,
    31)]), by decide +kernel⟩,
   ⟨on up, 11, 3, by decide +kernel⟩,
   ⟨on up, 11, 3, by decide +kernel⟩,
   ⟨on (requested (req23 seqW false) [(0, 0, 1), (0, 3, 0x80), (0, 15, 0x80), (2, 0, 15)]), 23, req23 seqW false, [],
    0, 47, far, 80, false, false, _, _, _, image80 15, _, _, four_of (by decide +kernel) (four_of (by decide +kernel)
    ⟨(tells_eq up (by decide +kernel)), (pair_of up (slotW [] []) (by decide +kernel)), by decide +kernel, rfl, rfl,
    by decide +kernel⟩)⟩,
   ⟨on (requested (req23 seqW false) [(0, 0, 1), (0, 3, 0x80), (0, 15, 0x80), (2, 0, 0)]), 23, req23 seqW false, [],
    0, 47, far, 80, false, false, _, _, _, image80 0, _, _, 0x20, 0, four_of (by decide +kernel) (four_of
    (by decide +kernel) ⟨(tells_eq up (by decide +kernel)), (pair_of up (slotW [] []) (by decide +kernel)),
    by decide +kernel, rfl, rfl, by decide +kernel⟩)⟩,
   ⟨on (requested (req23 (opw 0x21 0 [0x201] [(128, 2), (133, 31)]) true) []), 23, req23 (opw 0x21 0 [0x201] [(128,
    2), (133, 31)]) true, [], 0, _, _, four_of (by decide +kernel) ⟨by decide +kernel, (pair_of up (slotW [] [])
    (by decide +kernel))⟩⟩,
   ⟨on { up with clk.stackAwake := 0 }, 23, by decide +kernel⟩,
   ⟨up, 23, 0, by decide +kernel⟩,
   ⟨(bau (slotW [] []) BCell.zero (fun x => { x with slots := [(0, some (slotW [] []))] })), 23, 1, 0,
    by decide +kernel⟩⟩

theorem wit_TurnsAndRefresh :
    (∃ (s : State) (st : Stack) (i : Fin 16) (c : BankCell) (t : Nat), t % 64 = c.val ∧ (s.dev.bcell (cellKey st.val
      i.val c.val)).refreshing = false ∧ s.dev.stackRuns st.val = true ∧ Tab.read (fun _ => 0) (s.dev.stk
      st.val).turnAt i.val ≤ t ∧ (s.dev.bcell (cellKey st.val i.val c.val)).phase = .wantTurn ∧ pimCap (s.dev.stk
      st.val).inForce < s.dev.streaming st.val i.val + 1) ∧
    (∃ (s : State) (st : Stack) (i : Fin 16) (c : BankCell) (t : Nat), t % 64 = c.val ∧ (s.dev.bcell (cellKey st.val
      i.val c.val)).refreshing = false ∧ s.dev.stackRuns st.val = true ∧ Tab.read (fun _ => 0) (s.dev.stk
      st.val).turnAt i.val ≤ t ∧ (s.dev.bcell (cellKey st.val i.val c.val)).phase = .wantTurn ∧ s.dev.streaming st.val
      i.val + 1 ≤ pimCap (s.dev.stk st.val).inForce ∧ s.dev.serves (cellKey st.val i.val c.val) = true) ∧
    (∃ (s : State) (st : Stack) (i : Fin 16) (c : BankCell) (t : Nat), t % 64 = c.val ∧ (s.dev.bcell (cellKey st.val
      i.val c.val)).refreshing = false ∧ s.dev.stackRuns st.val = true ∧ Tab.read (fun _ => 0) (s.dev.stk
      st.val).turnAt i.val ≤ t ∧ (s.dev.bcell (cellKey st.val i.val c.val)).phase = .wantTurn ∧ s.dev.streaming st.val
      i.val + 1 ≤ pimCap (s.dev.stk st.val).inForce ∧ s.dev.serves (cellKey st.val i.val c.val) = false ∧
      (s.dev.recentActs st.val i.val t).length < bawCount (s.dev.stk st.val).inForce) ∧
    (∃ (s : State) (st : Stack) (i : Fin 16) (c : BankCell) (t : Nat), t % 64 = c.val ∧ (s.dev.bcell (cellKey st.val
      i.val c.val)).refreshing = false ∧ s.dev.stackRuns st.val = true ∧ Tab.read (fun _ => 0) (s.dev.stk
      st.val).turnAt i.val ≤ t ∧ (s.dev.bcell (cellKey st.val i.val c.val)).phase = .wantTurn ∧ s.dev.streaming st.val
      i.val + 1 ≤ pimCap (s.dev.stk st.val).inForce ∧ s.dev.serves (cellKey st.val i.val c.val) = false ∧ bawCount
      (s.dev.stk st.val).inForce ≤ (s.dev.recentActs st.val i.val t).length) ∧
    (∃ (s : State) (st : Stack) (i : Fin 16) (c : BankCell) (t : Nat) (x : BCell) (r : Nat), t % 64 = c.val ∧ x =
      s.dev.bcell (cellKey st.val i.val c.val) ∧ x.refreshing = false ∧ s.dev.stackRuns st.val = true ∧ Tab.read (fun
      _ => 0) (s.dev.stk st.val).turnAt i.val ≤ t ∧ x.phase = .streaming ∧ (s.dev.segmentOpens st.val i.val
      c.val)[x.rowsAhead]? = some r ∧ (s.dev.recentActs st.val i.val t).length < bawCount ((s.dev.stk st.val).ruleOf
      i.val)) ∧
    (∃ (s : State) (st : Stack) (i : Fin 16) (c : BankCell) (t : Nat) (x : BCell) (r : Nat), t % 64 = c.val ∧ x =
      s.dev.bcell (cellKey st.val i.val c.val) ∧ x.refreshing = false ∧ s.dev.stackRuns st.val = true ∧ Tab.read (fun
      _ => 0) (s.dev.stk st.val).turnAt i.val ≤ t ∧ x.phase = .streaming ∧ (s.dev.segmentOpens st.val i.val
      c.val)[x.rowsAhead]? = some r ∧ bawCount ((s.dev.stk st.val).ruleOf i.val) ≤ (s.dev.recentActs st.val i.val
      t).length) ∧
    (∃ (s : State) (st : Stack) (i : Fin 16) (c : BankCell) (t : Nat) (x : BCell), t % 64 = c.val ∧ x = s.dev.bcell
      (cellKey st.val i.val c.val) ∧ x.refreshing = false ∧ s.dev.stackRuns st.val = true ∧ Tab.read (fun _ => 0)
      (s.dev.stk st.val).turnAt i.val ≤ t ∧ x.phase = .streaming ∧ (s.dev.segmentOpens st.val i.val
      c.val)[x.rowsAhead]? = none) ∧
    (∃ (s : State) (st : Stack) (i : Fin 16) (c : BankCell) (t : Nat), (t % 64 ≠ c.val ∨ s.dev.stackRuns st.val =
      false ∨ t < Tab.read (fun _ => 0) (s.dev.stk st.val).turnAt i.val)) ∧
    (∃ (d : Dev) (st i c t r : Nat), d.laterActs st i t = []) ∧
    (∃ (s : State) (st : Stack) (i : Die) (c : BankCell) (ck : Nat) (x : BCell), s.dev.stackPresent st.val = true ∧
      s.dev.clk.stackAwake.getLsbD st.val = true ∧ ck = cellKey st.val i.val c.val ∧ x = s.dev.bcell ck ∧ x.ahead =
      true) ∧
    (∃ (s : State) (st : Stack) (i : Die) (c : BankCell) (ck : Nat) (x : BCell), s.dev.stackPresent st.val = true ∧
      s.dev.clk.stackAwake.getLsbD st.val = true ∧ ck = cellKey st.val i.val c.val ∧ x = s.dev.bcell ck ∧ x.ahead =
      false ∧ x.phase ≠ .streaming ∧ x.refreshing = false ∧ (x.phase = .idle ∨ s.dev.cellDeltas st.val i.val c.val =
      false)) ∧
    (∃ (s : State) (st : Stack) (i : Die) (c : BankCell) (ck : Nat) (x : BCell), s.dev.stackPresent st.val = true ∧
      s.dev.clk.stackAwake.getLsbD st.val = true ∧ ck = cellKey st.val i.val c.val ∧ x = s.dev.bcell ck ∧ x.ahead =
      false ∧ x.phase ≠ .streaming ∧ (x.refreshing = true ∨ (x.phase ≠ .idle ∧ s.dev.cellDeltas st.val i.val c.val =
      true))) ∧
    (∃ (s : State) (st : Stack) (i : Die) (c : BankCell) (ck : Nat) (x : BCell), s.dev.stackPresent st.val = true ∧
      s.dev.clk.stackAwake.getLsbD st.val = true ∧ ck = cellKey st.val i.val c.val ∧ x = s.dev.bcell ck ∧ x.ahead =
      false ∧ x.phase = .streaming ∧ x.postponed < 4) ∧
    (∃ (s : State) (st : Stack) (i : Die) (c : BankCell) (ck : Nat) (x : BCell), s.dev.stackPresent st.val = true ∧
      s.dev.clk.stackAwake.getLsbD st.val = true ∧ ck = cellKey st.val i.val c.val ∧ x = s.dev.bcell ck ∧ x.ahead =
      false ∧ x.phase = .streaming ∧ 4 ≤ x.postponed ∧ x.refreshing = false) ∧
    (∃ (s : State) (st : Stack) (i : Die) (c : BankCell) (ck : Nat) (x : BCell), ck = cellKey st.val i.val c.val ∧ x =
      s.dev.bcell ck ∧ x.refreshing = true ∧ 0 < x.due) ∧
    (∃ (s : State) (st : Stack) (i : Die) (c : BankCell) (ck : Nat) (x : BCell), ck = cellKey st.val i.val c.val ∧ x =
      s.dev.bcell ck ∧ x.refreshing = true ∧ x.due = 0 ∧ ((x.phase ≠ .idle ∧ x.phase ≠ .wantTurn) ∨ x.waiting = [])) ∧
    (∃ (s : State) (st : Stack) (i : Fin 16) (c : BankCell) (ck : Nat) (x : BCell) (ref : Bool), ck = cellKey st.val
      i.val c.val ∧ x = s.dev.bcell ck ∧ x.refreshing = false ∧ x.phase = .atYield ref ∧ s.dev.cellDeltas st.val i.val
      c.val = false ∧ 0 < x.due) ∧
    (∃ (s : State) (st : Stack) (i : Fin 16) (c : BankCell) (ck : Nat) (x : BCell) (ref : Bool), ck = cellKey st.val
      i.val c.val ∧ x = s.dev.bcell ck ∧ x.refreshing = false ∧ x.phase = .atYield ref ∧ s.dev.cellDeltas st.val i.val
      c.val = false ∧ x.due = 0 ∧ 0 < x.postponed) ∧
    (∃ (s : State) (st : Stack) (i : Fin 16) (c : BankCell) (ck : Nat) (x : BCell) (ref : Bool), ck = cellKey st.val
      i.val c.val ∧ x = s.dev.bcell ck ∧ x.refreshing = false ∧ x.phase = .atYield ref ∧ s.dev.cellDeltas st.val i.val
      c.val = false ∧ x.due = 0 ∧ x.postponed = 0 ∧ ref = true ∧ x.ahead = false) ∧
    (∃ (s : State) (st : Stack) (i : Fin 16) (c : BankCell) (ck : Nat) (x : BCell) (ref : Bool), ck = cellKey st.val
      i.val c.val ∧ x = s.dev.bcell ck ∧ x.refreshing = false ∧ x.phase = .atYield ref ∧ s.dev.cellDeltas st.val i.val
      c.val = false ∧ x.due = 0 ∧ x.postponed = 0 ∧ (ref = false ∨ x.ahead = true)) ∧
    (∃ (s : State) (st : Stack) (i : Fin 16) (c : BankCell) (ck : Nat) (x : BCell) (ref : Bool), ck = cellKey st.val
      i.val c.val ∧ x = s.dev.bcell ck ∧ x.phase = .atYield ref ∧ s.dev.cellDeltas st.val i.val c.val = true) ∧
    (∃ (s : State) (st : Stack) (i : Fin 16) (c : BankCell), (s.dev.bcell (cellKey st.val i.val c.val)).refreshing =
      true) :=
  ⟨⟨on { bau (slotW [7] []) ({ inSeq with phase := .wantTurn }) id with
      stks := [(23, { StackSt.dflt 2 with floor := 15 })],
      bcells := (List.range 63).map (fun c => (cellKey 23 15 c, inSeq)) ++ [(ck63,
    { inSeq with phase := .wantTurn })] }, 23, 15, 63, 63, by decide +kernel⟩,
   ⟨on { bau (slotW [7] []) { inSeq with phase := .wantTurn } id with
      served := [(ck63, (whoOf .host .stream).party)] }, 23, 15, 63, 63, by decide +kernel⟩,
   ⟨on (bau (slotW [7] []) { inSeq with phase := .wantTurn } id), 23, 15, 63, 63, by decide +kernel⟩,
   ⟨on (bau (slotW [7] []) { inSeq with phase := .wantTurn } (fun x =>
    { x with acts := [(15, List.replicate 8 62)] })), 23, 15, 63, 63, by decide +kernel⟩,
   ⟨on (bau (slotW [fields [(0, 2), (8, 1), (24, 1), (67, 1)]] []) inSeq id), 23, 15, 63, 63, inSeq, 1300480,
    by decide +kernel⟩,
   ⟨on (bau (slotW [fields [(0, 2), (8, 1), (24, 1), (67, 1)]] []) inSeq (fun x =>
    { x with acts := [(15, List.replicate 8 62)] })), 23, 15, 63, 63, inSeq, 1300480, by decide +kernel⟩,
   ⟨on (bau (slotW [fields [(0, 2), (8, 1), (24, 1), (67, 1)]] []) fed id), 23, 15, 63, 63, fed, by decide +kernel⟩,
   ⟨on up, 23, 15, 63, 0, by decide +kernel⟩,
   ⟨up, 23, 15, 63, 63, 0, by decide +kernel⟩,
   ⟨on (bau (slotW [7] []) ({ inSeq with ahead := true }) id), 23, 15, 63, ck63, { inSeq with ahead := true },
    by decide +kernel⟩,
   ⟨on (bau (slotW [7] []) (BCell.zero) id), 23, 15, 63, ck63, BCell.zero, by decide +kernel⟩,
   ⟨on (bau (slotW [7] []) ({ inSeq with phase := .wantTurn }) (fun x =>
    { x with deltas := [⟨0, farStripe, 15, 1023, [], true, false, false⟩] })), 23, 15, 63, ck63,
    { inSeq with phase := .wantTurn }, by decide +kernel⟩,
   ⟨on (bau (slotW [7] []) ({ inSeq with postponed := 3 }) id), 23, 15, 63, ck63, { inSeq with postponed := 3 },
    by decide +kernel⟩,
   ⟨on (bau (slotW [7] []) ({ inSeq with postponed := 4 }) id), 23, 15, 63, ck63, { inSeq with postponed := 4 },
    by decide +kernel⟩,
   ⟨on (bau (slotW [7] []) ({ inSeq with refreshing := true, due := 1 }) id), 23, 15, 63, ck63,
    { inSeq with refreshing := true, due := 1 }, by decide +kernel⟩,
   ⟨on (bau (slotW [7] []) ({ inSeq with refreshing := true }) id), 23, 15, 63, ck63,
    { inSeq with refreshing := true }, by decide +kernel⟩,
   ⟨on (bau (slotW [7] []) ({ inSeq with phase := .atYield true, due := 1 }) id), 23, 15, 63, ck63,
    { inSeq with phase := .atYield true, due := 1 }, true, by decide +kernel⟩,
   ⟨on (bau (slotW [7] []) ({ inSeq with phase := .atYield false, postponed := 1 }) id), 23, 15, 63, ck63,
    { inSeq with phase := .atYield false, postponed := 1 }, false, by decide +kernel⟩,
   ⟨on (bau (slotW [7] []) ({ inSeq with phase := .atYield true }) id), 23, 15, 63, ck63,
    { inSeq with phase := .atYield true }, true, by decide +kernel⟩,
   ⟨on (bau (slotW [7] []) ({ inSeq with phase := .atYield false }) id), 23, 15, 63, ck63,
    { inSeq with phase := .atYield false }, false, by decide +kernel⟩,
   ⟨on (bau (slotW [7] []) ({ inSeq with phase := .atYield true }) (fun x =>
    { x with deltas := [⟨0, farStripe, 15, 1023, [], true, false, false⟩] })), 23, 15, 63, ck63,
    { inSeq with phase := .atYield true }, true, by decide +kernel⟩,
   ⟨on (bau (slotW [7] []) ({ inSeq with refreshing := true }) id), 23, 15, 63, by decide +kernel⟩⟩

theorem wit_BankAccesses :
    (∃ (s : State) (who : Accessor) (hint : Hint) (addr : BitVec 48) (len : Nat) (l : Loc) (w : Who) (d1 : Dev) (bs :
      List Byte), wellFormed (.bankAccess who hint addr len none) = true ∧ w = whoOf who hint ∧ s.dev.decodeAddr
      addr.toNat = .at l ∧ s.dev.barred w addr.toNat = none ∧ s.dev.loadPiece w addr.toNat len = .ok (d1, bs)) ∧
    (∃ (s : State) (who : Accessor) (hint : Hint) (addr : BitVec 48) (len : Nat) (l : Loc) (w : Who) (ck : Nat) (p :
      Party) (a : Access), wellFormed (.bankAccess who hint addr len none) = true ∧ w = whoOf who hint ∧
      s.dev.decodeAddr addr.toNat = .at l ∧ s.dev.barred w addr.toNat = none ∧ a = ⟨who, hint, addr.toNat, len, none⟩
      ∧ s.dev.loadPiece w addr.toNat len = .error (.busy [ck] p) ∧ (s.dev.bcell ck).waiting.contains (.access a) =
      false ∧ (s.dev.bcell ck).late.contains (.access a) = false ∧ s.dev.cellHeld ck = true ∧ s.dev.awaits (.access a)
      = false) ∧
    (∃ (s : State) (who : Accessor) (hint : Hint) (addr : BitVec 48) (len : Nat) (l : Loc) (w : Who) (ck : Nat) (p :
      Party) (a : Access), wellFormed (.bankAccess who hint addr len none) = true ∧ w = whoOf who hint ∧
      s.dev.decodeAddr addr.toNat = .at l ∧ s.dev.barred w addr.toNat = none ∧ a = ⟨who, hint, addr.toNat, len, none⟩
      ∧ s.dev.loadPiece w addr.toNat len = .error (.busy [ck] p) ∧ (s.dev.bcell ck).waiting.contains (.access a) =
      false ∧ (s.dev.bcell ck).late.contains (.access a) = false ∧ (s.dev.cellHeld ck = false ∨ s.dev.awaits (.access
      a) = true)) ∧
    (∃ (s : State) (who : Accessor) (hint : Hint) (addr : BitVec 48) (len : Nat) (l : Loc) (w : Who) (q : Party),
      wellFormed (.bankAccess who hint addr len none) = true ∧ w = whoOf who hint ∧ s.dev.decodeAddr addr.toNat = .at
      l ∧ s.dev.barred w addr.toNat = none ∧ s.dev.loadPiece w addr.toNat len = .error (.stripe l.st l.stripe q)) ∧
    (∃ (s : State) (who : Accessor) (hint : Hint) (addr : BitVec 48) (bytes : List Byte) (l : Loc), wellFormed
      (.bankAccess who hint addr bytes.length (some bytes)) = true ∧ s.dev.decodeAddr addr.toNat = .at l ∧
      s.dev.barred (whoOf who hint) addr.toNat = none) ∧
    (∃ (s : State) (who : Accessor) (hint : Hint) (addr : BitVec 48) (len : Nat) (wdata : Option (List Byte)),
      wellFormed (.bankAccess who hint addr len wdata) = true ∧ s.dev.decodeAddr addr.toNat = .none) ∧
    (∃ (s : State) (st : Stack), s.dev.host.held = [] ∧ s.dev.hostReady = true ∧ s.dev.stackPresent st.val = true) ∧
    (∃ (s : State) (st : Stack), s.dev.host.held = [] ∧ (s.dev.hostReady = false ∨ s.dev.stackPresent st.val = false)) :=
  ⟨⟨on dom11, .host, .stream, BitVec.ofNat 48 far, 1, ⟨23, 0, 0, 256, 0⟩, whoOf .host .stream, _, [0],
    by decide +kernel, rfl, by decide +kernel, by decide +kernel, (tells_eq up (by decide +kernel))⟩,
   ⟨on (stack23 id [(cellKey 23 0 0, inSeq)]), .host, .stream, BitVec.ofNat 48 far, 1, ⟨23, 0, 0, 256, 0⟩, whoOf .host
    .stream, cellKey 23 0 0, (whoOf .host .stream).party, ⟨.host, .stream, far, 1, none⟩, by decide +kernel, rfl,
    by decide +kernel, by decide +kernel, by decide +kernel, (err_of (by decide +kernel)), by decide +kernel⟩,
   ⟨on (stack23 id [(cellKey 23 0 0, inSeq), (cellKey 23 0 1,
    { BCell.zero with waiting := [.access ⟨.host, .stream, far, 1, none⟩] })]), .host, .stream, BitVec.ofNat 48 far,
    1, ⟨23, 0, 0, 256, 0⟩, whoOf .host .stream, cellKey 23 0 0, (whoOf .host .stream).party, ⟨.host, .stream, far, 1,
    none⟩, by decide +kernel, rfl, by decide +kernel, by decide +kernel, by decide +kernel, (err_of
    (by decide +kernel)), by decide +kernel⟩,
   ⟨on { (stack23 (fun x => { x with locks := [⟨farStripe, true, false, []⟩] }) []) with
      parity := [(up.chunkKey 23 0 farStripe, 1)] }, .host, .stream, BitVec.ofNat 48 far, 1, ⟨23, 0, 0, 256, 0⟩, whoOf
    .host .stream, (whoOf .host .stream).party, by decide +kernel, rfl, by decide +kernel, by decide +kernel, (err_of
    (by decide +kernel))⟩,
   ⟨on dom11, .host, .keep, BitVec.ofNat 48 far, [1], ⟨23, 0, 0, 256, 0⟩, by decide +kernel⟩,
   ⟨on up, .host, .stream, 0x7FFFFFFFFFFF, 1, none, by decide +kernel⟩,
   ⟨on up, 23, by decide +kernel⟩,
   ⟨on (upIn .boot), 23, by decide +kernel⟩⟩

theorem wit_ScanMerges :
    (∃ (metric k : Nat) (a b : List Cand) (c : Cand), c ∈ mergeCands metric k a b) ∧
    (∃ (s : State) (r : Region) (k : Nat) (f : Flight) (l : List Cand) (d1 : Dev), s.dev.draining r.val = false ∧
      s.dev.mergeReady r.val = some (k, f) ∧ l = ((s.dev.region r.val).scanned.filter (fun x => x.1 == k && x.2.1 ==
      f.index)).foldl (fun a x => mergeCands (OpWord.metric f.word) (OpWord.scanK f.word) a x.2.2) [] ∧ d1 =
      (s.dev.modRegion r.val (fun x =>
      { x with scanned := x.scanned.filter (fun y => !(y.1 == k && y.2.1 == f.index)) })).writeList k f.word f.raws l
      ∧ OpWord.rootEn f.word = false) ∧
    (∃ (s : State) (r : Region) (k : Nat) (f : Flight) (l : List Cand) (d1 : Dev), s.dev.draining r.val = false ∧
      s.dev.mergeReady r.val = some (k, f) ∧ l = ((s.dev.region r.val).scanned.filter (fun x => x.1 == k && x.2.1 ==
      f.index)).foldl (fun a x => mergeCands (OpWord.metric f.word) (OpWord.scanK f.word) a x.2.2) [] ∧ d1 =
      (s.dev.modRegion r.val (fun x =>
      { x with scanned := x.scanned.filter (fun y => !(y.1 == k && y.2.1 == f.index)) })).writeList k f.word f.raws l
      ∧ OpWord.rootEn f.word = true ∧ OpWord.root f.word ≠ r.val) ∧
    (∃ (s : State) (r : Region) (k : Nat) (f : Flight) (l : List Cand) (d1 : Dev) (x : RootScan), s.dev.draining r.val
      = false ∧ s.dev.mergeReady r.val = some (k, f) ∧ l = ((s.dev.region r.val).scanned.filter (fun x => x.1 == k &&
      x.2.1 == f.index)).foldl (fun a x => mergeCands (OpWord.metric f.word) (OpWord.scanK f.word) a x.2.2) [] ∧ d1 =
      (s.dev.modRegion r.val (fun x =>
      { x with scanned := x.scanned.filter (fun y => !(y.1 == k && y.2.1 == f.index)) })).writeList k f.word f.raws l
      ∧ OpWord.rootEn f.word = true ∧ OpWord.root f.word = r.val ∧ x = ⟨k, f.index, f.word, OpWord.tag f.word,
      OpWord.scanK f.word, OpWord.nlist f.word, 1, l⟩) ∧
    (∃ (s : State) (r : Region), (s.dev.draining r.val = true ∨ s.dev.mergeReady r.val = none)) ∧
    (∃ (s : State) (r : Region) (m : FabMsg) (l : TagList) (b i : Nat), s.dev.draining r.val = false ∧ (s.dev.region
      r.val).nextList [] (s.dev.region r.val).arrived = some (m, l, b, i) ∧ (s.dev.region r.val).root.find? (fun x =>
      decide (x.tag = l.tag)) = none) ∧
    (∃ (s : State) (r : Region) (m : FabMsg) (l : TagList) (b i : Nat) (x : RootScan), s.dev.draining r.val = false ∧
      (s.dev.region r.val).nextList [] (s.dev.region r.val).arrived = some (m, l, b, i) ∧ (s.dev.region
      r.val).root.find? (fun y => decide (y.tag = l.tag)) = some x) ∧
    (∃ (s : State) (r : Region), (s.dev.draining r.val = true ∨ (s.dev.region r.val).nextList [] (s.dev.region
      r.val).arrived = none)) ∧
    (∃ (x : RegionSt) (pre post : List FabMsg) (m : FabMsg) (l : TagList) (b i : Nat), m.body = .scanList l b i ∧ (∀ n
      ∈ pre, n.src = m.src → ∀ (l' : TagList) (b' i' : Nat), n.body ≠ .scanList l' b' i') ∧ (x.tags.contains l.tag =
      true ∨ x.tags.length < 4)) ∧
    (∃ (x : RegionSt) (ms : List FabMsg) (m : FabMsg) (l : TagList) (b i : Nat), x.nextList [] ms = some (m, l, b, i)) ∧
    (∃ (d : Dev) (r : Nat) (s s1 : RootScan) (x1 : RegionSt), ({ d.region r with root := (d.region r).root.erase s } :
      RegionSt).absorb s 16 = (x1, s1) ∧ s1.need ≤ s1.got) ∧
    (∃ (d : Dev) (r : Nat) (s s1 : RootScan) (x1 : RegionSt), ({ d.region r with root := (d.region r).root.erase s } :
      RegionSt).absorb s 16 = (x1, s1) ∧ s1.got < s1.need) ∧
    (∃ (d : Dev) (r k : Nat) (f : Flight), d.mergeReady r = some (k, f) ∧ OpWord.rootEn f.word = true ∧ OpWord.root
      f.word = r) ∧
    (∃ (x : RegionSt) (s : RootScan) (n : Nat) (l : Nat × TagList × Nat × Nat), s.got < s.need ∧ x.lists.find? (fun l
      => decide (l.2.1.tag = s.tag)) = some l) ∧
    (∃ (s : State) (r : Region), (s.dev.region r.val).root ≠ []) ∧
    (∃ (s : State) (r : Region), (s.dev.region r.val).root = []) :=
  ⟨⟨0, 1, [⟨5, 23, 0, 0⟩], [], ⟨5, 23, 0, 0⟩, by decide +kernel⟩,
   ⟨on (scanned (scanW 0 0)), 11, 47, scanFlight (scanW 0 0), _, _, by decide +kernel, by decide +kernel, rfl, rfl,
    by decide +kernel⟩,
   ⟨on (scanned (scanW 1 0)), 11, 47, scanFlight (scanW 1 0), _, _, by decide +kernel, by decide +kernel, rfl, rfl,
    by decide +kernel⟩,
   ⟨on (scanned (scanW 1 11)), 11, 47, scanFlight (scanW 1 11), _, _, _, by decide +kernel, by decide +kernel, rfl,
    rfl, by decide +kernel, by decide +kernel, rfl⟩,
   ⟨on up, 11, by decide +kernel⟩,
   ⟨on (withRegion fun x => { x with arrived := [scanList0] }), 11, scanList0, ⟨3, []⟩, 1, 2, by decide +kernel⟩,
   ⟨on (withRegion fun x => { x with arrived := [scanList0], root := [rootScan 2] }), 11, scanList0, ⟨3, []⟩, 1, 2,
    rootScan 2, by decide +kernel⟩,
   ⟨on up, 11, by decide +kernel⟩,
   ⟨RegionSt.zero, [⟨1, 11, .ctrl, .scanList ⟨2, []⟩ 0 0⟩], [], scanList0, ⟨3, []⟩, 1, 2, rfl, by simp [scanList0],
    by decide +kernel⟩,
   ⟨RegionSt.zero, [scanList0], scanList0, ⟨3, []⟩, 1, 2, by decide +kernel⟩,
   ⟨up, 11, rootScan 1, rootScan 1, _, rfl, by decide +kernel⟩,
   ⟨up, 11, rootScan 2, rootScan 2, _, rfl, by decide +kernel⟩,
   ⟨scanned (scanW 1 11), 11, 47, scanFlight (scanW 1 11), by decide +kernel⟩,
   ⟨{ RegionSt.zero with lists := [(0, ⟨3, []⟩, 1, 2)] }, rootScan 2, 0, (0, ⟨3, []⟩, 1, 2), by decide +kernel⟩,
   ⟨on { up with regions := [(11, { RegionSt.zero with root := [⟨47, 0, 0, 0, 1, 1, 0, []⟩] })] }, 11,
    by decide +kernel⟩,
   ⟨on up, 11, by decide +kernel⟩⟩

theorem wit_StripeLocksAndDeltas :
    (∃ (s : State) (who : Accessor) (addr : BitVec 48) (bytes : List Byte) (l : Loc), wellFormed (.fullStripeWrite who
      addr bytes) = true ∧ s.dev.decodeAddr addr.toNat = .at l ∧ s.dev.barred (whoOf who .stream) addr.toNat = none) ∧
    (∃ (s : State) (who : Accessor) (addr : BitVec 48) (bytes : List Byte) (l : Loc), wellFormed (.narrowWrite who
      addr bytes) = true ∧ s.dev.decodeAddr addr.toNat = .at l ∧ s.dev.barred (whoOf who .stream) addr.toNat = none) ∧
    (∃ (d : Dev) (st : Nat) (p : Stripe) (q : LockReq) (k : Lock), (d.stk st).lockOf p = some k) ∧
    (∃ (d : Dev) (st : Nat) (p : Stripe) (q : LockReq), (d.stk st).lockOf p = none ∧ (96 ≤ (d.stk st).occupied ∨
      (d.stk st).lockWait ≠ [])) ∧
    (∃ (d : Dev) (st : Nat) (p : Stripe) (q : LockReq), (d.stk st).lockOf p = none ∧ (d.stk st).occupied < 96 ∧ (d.stk
      st).lockWait = []) ∧
    (∃ (d : Dev) (st : Nat) (p : Stripe) (k : Lock) (q : LockReq) (rest : List LockReq), (d.stk st).lockOf p = some k
      ∧ k.waiters = q :: rest ∧ q.isParty = false ∧ k.held = false ∧ d.consistent st p = true) ∧
    (∃ (d : Dev) (st : Nat) (p : Stripe) (k : Lock) (q : LockReq) (rest : List LockReq), (d.stk st).lockOf p = some k
      ∧ k.waiters = q :: rest ∧ q.isParty = false ∧ (k.held = true ∨ d.consistent st p = false)) ∧
    (∃ (d : Dev) (st : Nat) (p : Stripe) (q : LockReq) (rest : List (Stripe × LockReq)), (d.stk st).lockWait = (p, q)
      :: rest ∧ q.isParty = false ∧ (d.stk st).occupied < 96 ∧ (d.stk st).lockOf p = none) ∧
    (∃ (d : Dev) (st : Nat) (p : Stripe) (q : LockReq) (rest : List (Stripe × LockReq)), (d.stk st).lockWait = (p, q)
      :: rest ∧ q.isParty = false ∧ 96 ≤ (d.stk st).occupied) ∧
    (∃ (d d0 d1 d2 : Dev) (st : Nat) (p : Stripe) (l : Lock) (q : LockReq), d0 = d.modStk st (fun x => x.setLock p
      none) ∧ d0.lockWork st p q = .ok d1 ∧ d2 = (d1.unserve (q.behind st)).modStk st (fun x => x.setLock p (some ⟨p,
      true, false, l.waiters.erase q⟩)) ∧ (∀ (a : Accessor) (h : Hint) (addr : Nat) (bytes : List Byte), q ≠ .narrow a
      h addr bytes)) ∧
    (∃ (d d0 d1 d2 : Dev) (st : Nat) (p : Stripe) (l : Lock) (q : LockReq) (a : Accessor) (h : Hint) (addr : Nat)
      (bytes : List Byte), d0 = d.modStk st (fun x => x.setLock p none) ∧ d0.lockWork st p q = .ok d1 ∧ d2 =
      (d1.unserve (q.behind st)).modStk st (fun x => x.setLock p (some ⟨p, true, false, l.waiters.erase q⟩)) ∧ q =
      .narrow a h addr bytes ∧ d2.consistent st p = true) ∧
    (∃ (d d0 d1 d2 : Dev) (st : Nat) (p : Stripe) (l : Lock) (q : LockReq) (a : Accessor) (h : Hint) (addr : Nat)
      (bytes : List Byte), d0 = d.modStk st (fun x => x.setLock p none) ∧ d0.lockWork st p q = .ok d1 ∧ d2 =
      (d1.unserve (q.behind st)).modStk st (fun x => x.setLock p (some ⟨p, true, false, l.waiters.erase q⟩)) ∧ q =
      .narrow a h addr bytes ∧ d2.consistent st p = false) ∧
    (∃ (d d0 : Dev) (st : Nat) (p : Stripe) (l : Lock) (q : LockReq) (e : Stop), d0 = d.modStk st (fun x => x.setLock
      p none) ∧ d0.lockWork st p q = .error e ∧ e.waits = true) ∧
    (∃ (d d0 : Dev) (st : Nat) (p : Stripe) (l : Lock) (q : LockReq) (e : Stop), d0 = d.modStk st (fun x => x.setLock
      p none) ∧ d0.lockWork st p q = .error e ∧ e.waits = false) ∧
    (∃ (d : Dev) (st : Nat) (p : Stripe) (a : Accessor) (h : Hint) (addr : Nat) (bytes : List Byte), d.cellsFree
      (whoOf a h) (bankCells st p.bank (List.range 18)) = .ok ()) ∧
    (∃ (d d0 d1 : Dev) (st : Nat) (p : Stripe) (a : Accessor) (h : Hint) (addr : Nat) (bytes base : List Byte),
      d.lineBefore (whoOf a h) addr bytes.length = .ok (d0, base) ∧ d0.narrowSteps (whoOf a h) (chunkCuts addr bytes
      17) = .ok d1) ∧
    (∃ (d d1 : Dev) (w : Who) (ps : List (Nat × List Byte)) (cs : List Cover), d.cellsFree w ((d.placesOf ps).flatMap
      (fun l => bankCells l.st l.bank [l.die])) = .ok () ∧ d.oldChunks w ps = .ok (d1, cs)) ∧
    (∃ (d d1 d2 : Dev) (w : Who) (addr : Nat) (bytes old : List Byte) (r : List (Nat × List Byte)) (l : Loc) (cs :
      List Cover), d.decodeAddr addr = .at l ∧ d.goodChunk w l.st l.stripe l.die = .ok (d1, old) ∧ d1.oldChunks w r =
      .ok (d2, cs)) ∧
    (∃ (d : Dev) (flips : Bool) (l : Loc) (old bytes new : List Byte), new = overlay old bytes (l.byte % 32)) ∧
    (∃ (d : Dev) (st : Nat) (p : Stripe) (k : Lock), (d.stk st).lockOf p = some k ∧ k.waiters = []) ∧
    (∃ (d : Dev) (st : Nat) (p : Stripe) (k : Lock), (d.stk st).lockOf p = some k ∧ k.waiters ≠ []) ∧
    (∃ (s : State) (st : Stack) (bank : Fin 128) (row : Fin 20480) (chunk : Fin 64) (p : Stripe) (k : Lock) (q :
      LockReq) (rest : List LockReq) (e : Dev), p = ⟨bank.val, row.val, chunk.val⟩ ∧ (s.dev.stk st.val).lockOf p =
      some k ∧ k.waiters = q :: rest ∧ q.isParty = false ∧ k.held = false ∧ s.dev.consistent st.val p = true ∧ e =
      (s.dev.serveLock st.val p k q).admitLocks st.val) ∧
    (∃ (s : State) (st : Stack) (bank : Fin 128) (row : Fin 20480) (chunk : Fin 64) (p : Stripe) (k : Lock), p =
      ⟨bank.val, row.val, chunk.val⟩ ∧ (s.dev.stk st.val).lockOf p = some k ∧ (k.held = true ∨ s.dev.consistent st.val
      p = false) ∧ (s.dev.stk st.val).lockWait = [] ∧ (s.dev.stk st.val).rowWait = []) ∧
    (∃ (s : State) (st : Stack) (x : Delta), (s.dev.stk st.val).nextDelta = some x) ∧
    (∃ (s : State) (st : Stack), (s.dev.stk st.val).nextDelta = none) ∧
    (∃ (x : StackSt) (g : Delta), x.nextDelta = some g) ∧
    (∃ (x : StackSt) (g : Delta) (y : Delta), x.nextDelta = some g ∧ y ∈ x.deltas ∧ y.granted = false ∧ x.buffered
      y.stripe.bank < 32) ∧
    (∃ (s : State) (st : Stack) (x : Delta) (d1 : Dev), s.dev.dueDelta st.val 0 = some x ∧ d1 = Dev.writeChunkAs (if
      s.dev.chunkBad st.val 16 x.stripe then s.dev.bump (stackBase st.val + 0x0F0) else s.dev) st.val 16 x.stripe
      (xorBytes (s.dev.chunk st.val 16 x.stripe) x.bytes) true (s.dev.xparity (s.dev.chunkKey st.val 16 x.stripe))) ∧
    (∃ (s : State) (st : Stack) (x : Delta) (d1 : Dev), s.dev.dueDelta st.val 1 = some x ∧ d1 = Dev.writeChunkAs (if
      s.dev.chunkBad st.val 17 x.stripe then s.dev.bump (stackBase st.val + 0x0F0) else s.dev) st.val 17 x.stripe
      (xorBytes (s.dev.chunk st.val 17 x.stripe) (scaleChunk x.bytes x.die)) true (s.dev.xparity (s.dev.chunkKey
      st.val 17 x.stripe))) ∧
    (∃ (d : Dev) (st j : Nat) (x : Delta), d.dueDelta st j = some x) ∧
    (∃ (s : State) (st : Stack) (j : Fin 2), (∀ x ∈ (s.dev.stk st.val).deltas, x.granted = true → (s.dev.bcell
      ((st.val * 18 + (16 + j.val)) * 64 + x.stripe.bank / 2)).refreshing = true)) :=
  ⟨⟨on dom11, .host, BitVec.ofNat 48 far, List.replicate 512 1, ⟨23, 0, 0, 256, 0⟩, by decide +kernel⟩,
   ⟨on dom11, .host, BitVec.ofNat 48 far, [1], ⟨23, 0, 0, 256, 0⟩, by decide +kernel⟩,
   ⟨locked (lock0 true []), 23, farStripe, narrow1, lock0 true [], by decide +kernel⟩,
   ⟨stack23 (fun x => { x with locks := (List.range 96).map (fun i => ⟨⟨0, i, 0⟩, true, false, []⟩) }) [], 23,
    farStripe, narrow1, by decide +kernel⟩,
   ⟨dom11, 23, farStripe, narrow1, by decide +kernel⟩,
   ⟨locked (lock0 false [narrow1]), 23, farStripe, lock0 false [narrow1], narrow1, [], by decide +kernel⟩,
   ⟨locked (lock0 true [narrow1]), 23, farStripe, lock0 true [narrow1], narrow1, [], by decide +kernel⟩,
   ⟨stack23 (fun x => { x with lockWait := [(farStripe, narrow1)] }) [], 23, farStripe, narrow1, [],
    by decide +kernel⟩,
   ⟨stack23 (fun x => { x with
      locks := (List.range 96).map (fun i => ⟨⟨0, i, 0⟩, true, false, []⟩),
      lockWait := [(farStripe, narrow1)] }) [], 23, farStripe, narrow1, [], by decide +kernel⟩,
   ⟨dom11, _, _, _, 23, farStripe, lock0 false [.recon], .recon, rfl, (ok_of up (by decide +kernel)), rfl, (fun _ _ _
    _ h => nomatch h)⟩,
   ⟨dom11, _, _, _, 23, ⟨127, 0, 0⟩, lock0 false [], narrow1, .host, .stream, far, [1], rfl, (ok_of up
    (by decide +kernel)), rfl, by decide +kernel⟩,
   ⟨dom11, _, _, _, 23, farStripe, lock0 false [], narrow1, .host, .stream, far, [1], rfl, (ok_of up
    (by decide +kernel)), rfl, by decide +kernel⟩,
   ⟨stack23 id [(cellKey 23 0 0, inSeq)], _, 23, farStripe, lock0 false [], narrow1, .busy [cellKey 23 0 0] (whoOf
    .host .stream).party, rfl, (err_of (by decide +kernel)), by decide +kernel⟩,
   ⟨dom11, _, 23, farStripe, lock0 false [], .read .host .stream 0x7FFFFFFFFFFF 1, .unmapped, rfl, (err_of
    (by decide +kernel)), by decide +kernel⟩,
   ⟨dom11, 23, farStripe, .host, .stream, far, List.replicate 512 1, (yields_eq (by decide +kernel))⟩,
   ⟨dom11, _, _, 23, farStripe, .host, .stream, far, [1], _, (pair_of up [] (by decide +kernel)), (ok_of up
    (by decide +kernel))⟩,
   ⟨dom11, _, whoOf .host .stream, [(far, [1])], _, (yields_eq (by decide +kernel)), (pair_of up []
    (by decide +kernel))⟩,
   ⟨dom11, _, _, whoOf .host .stream, far, [1], List.replicate 32 0, [], ⟨23, 0, 0, 256, 0⟩, [], by decide +kernel,
    (tells_eq up (by decide +kernel)), rfl⟩,
   ⟨dom11, true, ⟨23, 0, 0, 256, 0⟩, List.replicate 32 0, [1], _, rfl⟩,
   ⟨locked (lock0 true []), 23, farStripe, lock0 true [], by decide +kernel⟩,
   ⟨locked (lock0 true [narrow1]), 23, farStripe, lock0 true [narrow1], by decide +kernel⟩,
   ⟨on (locked (lock0 false [narrow1])), 23, 0, 256, 0, farStripe, lock0 false [narrow1], narrow1, [], _, four_of
    (by decide +kernel) ⟨by decide +kernel, by decide +kernel, rfl⟩⟩,
   ⟨on (locked (lock0 true [narrow1])), 23, 0, 256, 0, farStripe, lock0 true [narrow1], by decide +kernel⟩,
   ⟨on (owing false), 23, delta15 false, by decide +kernel⟩,
   ⟨on up, 23, by decide +kernel⟩,
   ⟨{ StackSt.dflt 2 with deltas := [delta15 false, delta15 true] }, delta15 false, by decide +kernel⟩,
   ⟨{ StackSt.dflt 2 with
      deltaPtr := 1024,
      deltas := [delta15 false, ⟨1, farStripe, 0, 0, [], false, false, false⟩] }, ⟨1, farStripe, 0, 0, [], false,
    false, false⟩, delta15 false, by decide +kernel⟩,
   ⟨on (owing true), 23, delta15 true, _, by decide +kernel, rfl⟩,
   ⟨on (owing true), 23, delta15 true, _, by decide +kernel, rfl⟩,
   ⟨owing true, 23, 1, delta15 true, by decide +kernel⟩,
   ⟨on { owing true with
      bcells := [((23 * 18 + 16 + 1) * 64, { BCell.zero with refreshing := true })] }, 23, 1, by decide +kernel⟩⟩

theorem wit_StripeRepair :
    (∃ (s : State) (st : Stack) (bank : Fin 128) (row : Fin 20480) (chunk : Fin 64) (p : Stripe), p = ⟨bank.val,
      row.val, chunk.val⟩ ∧ (s.dev.badDies st.val p ≠ [] ∨ (s.dev.stk st.val).waitsOf p ≠ [])) ∧
    (∃ (s : State) (st : Stack) (bank : Fin 128) (row : Fin 20480) (chunk : Fin 64) (p : Stripe), p = ⟨bank.val,
      row.val, chunk.val⟩ ∧ s.dev.badDies st.val p = [] ∧ (s.dev.stk st.val).waitsOf p = []) ∧
    (∃ (d : Dev) (st : Nat) (p : Stripe), d.badDies st p = []) ∧
    (∃ (d d1 : Dev) (st i : Nat) (r : List Nat) (p : Stripe) (good : List (List Byte)), d.badDies st p = i :: r ∧
      d.cellsFree (reconWho st) (bankCells st p.bank (List.range 18)) = .ok () ∧ d1 = Dev.rereads ((List.range
      18).foldl (fun a j => (a.openRow st j p.bank p.row).retried st j p) d) st p ∧ decodeStripe (d1.stripeChunks st
      p) (d1.badDies st p) = some good) ∧
    (∃ (d d1 : Dev) (st i : Nat) (r : List Nat) (p : Stripe) (u : UeWait) (ws : List UeWait) (d2 : Dev), d.badDies st
      p = i :: r ∧ d.cellsFree (reconWho st) (bankCells st p.bank (List.range 18)) = .ok () ∧ d1 = Dev.rereads
      ((List.range 18).foldl (fun a j => (a.openRow st j p.bank p.row).retried st j p) d) st p ∧ decodeStripe
      (d1.stripeChunks st p) (d1.badDies st p) = none ∧ (d1.stk st).waitsOf p = u :: ws ∧ d1.mirrorReady (reconWho st)
      st p = .ok () ∧ d1.mirrorRepair st p u.src = some d2) ∧
    (∃ (d d1 : Dev) (st i : Nat) (r : List Nat) (p : Stripe) (u : UeWait) (ws : List UeWait), d.badDies st p = i :: r
      ∧ d.cellsFree (reconWho st) (bankCells st p.bank (List.range 18)) = .ok () ∧ d1 = Dev.rereads ((List.range
      18).foldl (fun a j => (a.openRow st j p.bank p.row).retried st j p) d) st p ∧ decodeStripe (d1.stripeChunks st
      p) (d1.badDies st p) = none ∧ (d1.stk st).waitsOf p = u :: ws ∧ d1.mirrorReady (reconWho st) st p = .ok () ∧
      d1.mirrorRepair st p u.src = none ∧ d1.twinSource st p = true) ∧
    (∃ (s : State) (st : Stack) (i : Nat) (p : Stripe), s.dev.regsLive = true ∧ (s.dev.chip.state ≠ .fault ∨
      s.dev.chip.startErr = 0) ∧ s.dev.stackPresent st.val = true ∧ (s.dev.stk st.val).scrubEn = true ∧
      s.dev.clk.stackAwake.getLsbD st.val = true ∧ i = (s.dev.stk st.val).scrubPos ∧ p = ⟨i / 64 % 128, i / 8192, i %
      64⟩) ∧
    (∃ (s : State) (st : Stack), (s.dev.stk st.val).scrubEn = false) ∧
    (∃ (d d1 : Dev) (st : Nat) (p : Stripe) (good : List (List Byte)) (fix : List Nat), d.cellsFree (scrubWho st)
      (bankCells st p.bank (List.range 18)) = .ok () ∧ d1 = (Dev.rereads ((List.range 18).foldl (fun a i => (a.openRow
      st i p.bank p.row).retried st i p) d) st p).bump (stackBase st + 0x100) ∧ d1.poisoned st p = false ∧
      decodeStripe (d1.stripeChunks st p) (d.badDies st p) = some good ∧ fix = (List.range 18).filter (fun i =>
      (d.badDies st p).contains i || decide (good.getD i [] ≠ d1.chunk st i p)) ∧ fix = []) ∧
    (∃ (d d1 : Dev) (st : Nat) (p : Stripe) (good : List (List Byte)) (fix : List Nat), d.cellsFree (scrubWho st)
      (bankCells st p.bank (List.range 18)) = .ok () ∧ d1 = (Dev.rereads ((List.range 18).foldl (fun a i => (a.openRow
      st i p.bank p.row).retried st i p) d) st p).bump (stackBase st + 0x100) ∧ d1.poisoned st p = false ∧
      decodeStripe (d1.stripeChunks st p) (d.badDies st p) = some good ∧ fix = (List.range 18).filter (fun i =>
      (d.badDies st p).contains i || decide (good.getD i [] ≠ d1.chunk st i p)) ∧ fix ≠ []) ∧
    (∃ (s : State) (st : Stack) (bank : Fin 128) (row : Fin 20480) (chunk : Fin 64) (twin : Option (List Byte)) (p :
      Stripe), wellFormed (.stripeRepair st bank row chunk twin) = true ∧ p = ⟨bank.val, row.val, chunk.val⟩ ∧
      s.dev.consistent st.val p = true ∧ s.dev.mirrorReady (reconWho st.val) st.val p = .ok () ∧ s.dev.cellsFree
      (reconWho st.val) (bankCells st.val p.bank (List.range 18)) = .ok ()) ∧
    (∃ (d : Dev) (st : Nat) (p : Stripe), (d.stk st).rowHeld = none) ∧
    (∃ (d : Dev) (st : Nat) (p : Stripe) (die : Nat), (d.stk st).rowHeld = some (die, p.bank, p.row)) ∧
    (∃ (s : State) (st : Stack) (bank : Fin 128) (row : Fin 20480) (chunk : Fin 64) (twin : Option (List Byte)),
      wellFormed (.stripeRepair st bank row chunk twin) = true ∧ s.dev.consistent st.val ⟨bank.val, row.val,
      chunk.val⟩ = false) ∧
    (∃ (d : Dev) (st : Nat) (p : Stripe) (twin : Option (List Byte)), d.uncorrectable st p = false) ∧
    (∃ (d : Dev) (st : Nat) (p : Stripe) (twin : Option (List Byte)) (u : UeWait) (ws : List UeWait) (d1 : Dev),
      d.uncorrectable st p = true ∧ (d.stk st).waitsOf p = u :: ws ∧ d.mirrorRepair st p u.src = some d1) ∧
    (∃ (d : Dev) (st : Nat) (p : Stripe) (twin : Option (List Byte)) (u : UeWait) (ws : List UeWait) (bytes : List
      Byte), d.uncorrectable st p = true ∧ (d.stk st).waitsOf p = u :: ws ∧ d.mirrorRepair st p u.src = none ∧ twin =
      some bytes ∧ d.twinSource st p = true) ∧
    (∃ (d : Dev) (st : Nat) (p : Stripe) (twin : Option (List Byte)) (u : UeWait) (ws : List UeWait), d.uncorrectable
      st p = true ∧ (d.stk st).waitsOf p = u :: ws ∧ ws = [] ∧ d.mirrorRepair st p u.src = none ∧ twin = none) :=
  ⟨⟨on (badDie 1 dom11), 23, 0, 256, 0, farStripe, by decide +kernel⟩,
   ⟨on dom11, 23, 0, 256, 0, farStripe, by decide +kernel⟩,
   ⟨dom11, 23, farStripe, by decide +kernel⟩,
   ⟨badDie 2 dom11, _, 23, 0, [1], farStripe, _, by decide +kernel, (yields_eq (by decide +kernel)), rfl, (some_of []
    (by decide +kernel))⟩,
   ⟨mirrored (awaiting 3), _, 23, 0, [1, 2], farStripe, ue0, [], _, by decide +kernel, (yields_eq
    (by decide +kernel)), rfl, by decide +kernel, by decide +kernel, (yields_eq (by decide +kernel)), (some_of up
    (by decide +kernel))⟩,
   ⟨withTwin (awaiting 3), _, 23, 0, [1, 2], farStripe, ue0, [], by decide +kernel, (yields_eq (by decide +kernel)),
    rfl, by decide +kernel, by decide +kernel, (yields_eq (by decide +kernel)), by decide +kernel⟩,
   ⟨on { up with stks := [(23, { StackSt.dflt 2 with scrubEn := true, scrubPos := 167772159 })] }, 23, 167772159,
    ⟨127, 20479, 63⟩, by decide +kernel⟩,
   ⟨on { up with stks := [(23, { StackSt.dflt 2 with scrubEn := false })] }, 23, by decide +kernel⟩,
   ⟨dom11, _, 23, farStripe, _, [], (yields_eq (by decide +kernel)), rfl, by decide +kernel, (some_of []
    (by decide +kernel)), by decide +kernel⟩,
   ⟨badDie 1 dom11, _, 23, farStripe, _, [0], (yields_eq (by decide +kernel)), rfl, by decide +kernel, (some_of []
    (by decide +kernel)), by decide +kernel⟩,
   ⟨on (badDie 2 dom11), 23, 0, 256, 0, none, farStripe, by decide +kernel, by decide +kernel, by decide +kernel,
    (yields_eq (by decide +kernel)), (yields_eq (by decide +kernel))⟩,
   ⟨dom11, 23, farStripe, by decide +kernel⟩,
   ⟨stack23 (fun x => { x with rowHeld := some (17, 0, 256) }) [], 23, farStripe, 17, by decide +kernel⟩,
   ⟨on (owing true), 23, 0, 256, 0, none, by decide +kernel⟩,
   ⟨dom11, 23, farStripe, none, by decide +kernel⟩,
   ⟨mirrored (awaiting 3), 23, farStripe, none, ue0, [], _, by decide +kernel, by decide +kernel, (some_of up
    (by decide +kernel))⟩,
   ⟨withTwin (awaiting 3), 23, farStripe, some (List.replicate 512 1), ue0, [], List.replicate 512 1,
    by decide +kernel⟩,
   ⟨awaiting 3, 23, farStripe, none, ue0, [], by decide +kernel⟩⟩

theorem wit_RowsAndLogs :
    (∃ (s : State) (st : Stack) (die : Die) (bank : Fin 128) (row : Fin 20480) (q : Nat × Nat × Nat) (d1 d2 : Dev),
      s.dev.stackPresent st.val = true ∧ s.dev.regsLive = true ∧ (s.dev.chip.state ≠ .fault ∨ s.dev.chip.startErr = 0)
      ∧ q = (die.val, bank.val, row.val) ∧ (s.dev.stk st.val).rowWait.contains q = false ∧ (s.dev.stk st.val).rowHeld
      ≠ some q ∧ d1 = s.dev.modStk st.val (fun x => { x with rowWait := x.rowWait ++ [q] }) ∧ d2 = d1.modStk st.val
      (fun x => x.lockRow q) ∧ ((s.dev.stk st.val).rowHeld ≠ none ∨ 32 < (s.dev.stk st.val).occupied ∨ ∃ p ∈
      rowStripes bank.val row.val, d1.stripeLocked st.val p = true ∨ d1.consistent st.val p = false)) ∧
    (∃ (s : State) (st : Stack) (die : Die) (bank : Fin 128) (row : Fin 20480) (q : Nat × Nat × Nat) (d1 d2 : Dev),
      s.dev.stackPresent st.val = true ∧ s.dev.regsLive = true ∧ (s.dev.chip.state ≠ .fault ∨ s.dev.chip.startErr = 0)
      ∧ q = (die.val, bank.val, row.val) ∧ (s.dev.stk st.val).rowWait.contains q = false ∧ (s.dev.stk st.val).rowHeld
      ≠ some q ∧ d1 = s.dev.modStk st.val (fun x => { x with rowWait := x.rowWait ++ [q] }) ∧ d2 = d1.modStk st.val
      (fun x => x.lockRow q) ∧ (s.dev.stk st.val).rowHeld = none ∧ (s.dev.stk st.val).occupied ≤ 32 ∧ (∀ p ∈
      rowStripes bank.val row.val, d1.stripeLocked st.val p = false ∧ d1.consistent st.val p = true) ∧ d2.spares
      st.val die.val bank.val = []) ∧
    (∃ (s : State) (st : Stack) (die : Die) (bank : Fin 128) (row : Fin 20480) (q : Nat × Nat × Nat) (d1 d2 : Dev) (k
      : Nat) (rest : List Nat) (d3 : Dev), s.dev.stackPresent st.val = true ∧ s.dev.regsLive = true ∧
      (s.dev.chip.state ≠ .fault ∨ s.dev.chip.startErr = 0) ∧ q = (die.val, bank.val, row.val) ∧ (s.dev.stk
      st.val).rowWait.contains q = false ∧ (s.dev.stk st.val).rowHeld ≠ some q ∧ d1 = s.dev.modStk st.val (fun x =>
      { x with rowWait := x.rowWait ++ [q] }) ∧ d2 = d1.modStk st.val (fun x => x.lockRow q) ∧ (s.dev.stk
      st.val).rowHeld = none ∧ (s.dev.stk st.val).occupied ≤ 32 ∧ (∀ p ∈ rowStripes bank.val row.val, d1.stripeLocked
      st.val p = false ∧ d1.consistent st.val p = true) ∧ d2.spares st.val die.val bank.val = k :: rest ∧ d2.cellsFree
      (rowWho st.val) (bankCells st.val bank.val [die.val]) = .ok () ∧ d2.rescueRow st.val die.val (rowStripes
      bank.val row.val) = .ok d3) ∧
    (∃ (s : State) (st : Stack) (die : Die) (bank : Fin 128) (row : Fin 20480) (q : Nat × Nat × Nat) (d1 d2 : Dev) (k
      : Nat) (rest : List Nat) (cs : List Nat) (w : Party), s.dev.stackPresent st.val = true ∧ s.dev.regsLive = true ∧
      (s.dev.chip.state ≠ .fault ∨ s.dev.chip.startErr = 0) ∧ q = (die.val, bank.val, row.val) ∧ (s.dev.stk
      st.val).rowWait.contains q = false ∧ (s.dev.stk st.val).rowHeld ≠ some q ∧ d1 = s.dev.modStk st.val (fun x =>
      { x with rowWait := x.rowWait ++ [q] }) ∧ d2 = d1.modStk st.val (fun x => x.lockRow q) ∧ (s.dev.stk
      st.val).rowHeld = none ∧ (s.dev.stk st.val).occupied ≤ 32 ∧ (∀ p ∈ rowStripes bank.val row.val, d1.stripeLocked
      st.val p = false ∧ d1.consistent st.val p = true) ∧ d2.spares st.val die.val bank.val = k :: rest ∧ d2.cellsFree
      (rowWho st.val) (bankCells st.val bank.val [die.val]) = .error (.busy cs w)) ∧
    (∃ (x : StackSt) (q : Nat × Nat × Nat) (p : _), p ∈ rowStripes q.2.1 q.2.2) ∧
    (∃ (d : Dev) (st die bank k : Nat) (rest : List Nat), d.spares st die bank = k :: rest) ∧
    (∃ (s : State) (st : Stack) (v : Word) (x : StackSt), s.dev.host.held = [] ∧ wellFormed (.flipArm st v) = true ∧
      s.dev.hostReady = true ∧ s.dev.stackPresent st.val = true ∧ x = s.dev.stk st.val) ∧
    (∃ (s : State) (st : Stack) (w : BitVec 64) (rest : List (BitVec 64)), s.dev.host.held = [] ∧ s.dev.reaches .host
      = true ∧ s.dev.stackPresent st.val = true ∧ (s.dev.stk st.val).remapLog = w :: rest) ∧
    (∃ (s : State) (st : Stack) (w : BitVec 64) (rest : List (BitVec 64)), s.dev.host.held = [] ∧ s.dev.reaches .host
      = true ∧ s.dev.stackPresent st.val = true ∧ (s.dev.stk st.val).retireLog = w :: rest) ∧
    (∃ (s : State) (st : Stack), s.dev.host.held = [] ∧ s.dev.reaches .host = false) :=
  ⟨⟨on (stack23 (fun x => { x with rowHeld := some (16, 0, 256) }) []), 23, 17, 0, 256, _, _, _, by decide +kernel,
    by decide +kernel, by decide +kernel, rfl, by decide +kernel, by decide +kernel, rfl, rfl, by decide +kernel⟩,
   ⟨on (spent 64), 23, 17, 127, 20479, _, _, _, by decide +kernel, by decide +kernel, by decide +kernel, rfl,
    by decide +kernel, by decide +kernel, rfl, rfl, by decide +kernel⟩,
   ⟨on dom11, 23, 17, 127, 20479, _, _, _, 0, _, _, by decide +kernel, by decide +kernel, by decide +kernel, rfl,
    by decide +kernel, by decide +kernel, rfl, rfl, by decide +kernel, by decide +kernel, by decide +kernel, (cons_of
    (by decide +kernel)), (yields_eq (by decide +kernel)), (ok_of up (by decide +kernel))⟩,
   ⟨on (stack23 id [(cellKey 23 17 63, inSeq)]), 23, 17, 127, 20479, _, _, _, 0, _, [cellKey 23 17 63], (rowWho
    23).party, by decide +kernel, by decide +kernel, by decide +kernel, rfl, by decide +kernel, by decide +kernel,
    rfl, rfl, by decide +kernel, by decide +kernel, by decide +kernel, (cons_of (by decide +kernel)), (err_of
    (by decide +kernel))⟩,
   ⟨StackSt.dflt 2, (17, 127, 20479), ⟨127, 20479, 63⟩, by decide +kernel⟩,
   ⟨spent 63, 23, 17, 127, 63, [], by decide +kernel⟩,
   ⟨on up, 23, 0x80000112, StackSt.dflt 2, by decide +kernel⟩,
   ⟨on (stack23 (fun x => { x with remapLog := [5] }) []), 23, 5, [], by decide +kernel⟩,
   ⟨on (stack23 (fun x => { x with retireLog := [5] }) []), 23, 5, [], by decide +kernel⟩,
   ⟨on (upIn .boot), 23, by decide +kernel⟩⟩

theorem wit_RequestCommands :
    (∃ (s : State) (i : ReqNo), s.dev.commanded i.val 1 = true ∧ s.dev.reqBad i.val = false ∧ s.dev.submitCode
      (s.dev.req i.val) = 0) ∧
    (∃ (s : State) (i : ReqNo) (code : Nat), s.dev.commanded i.val 1 = true ∧ s.dev.reqBad i.val = false ∧
      s.dev.submitCode (s.dev.req i.val) = code ∧ code ≠ 0) ∧
    (∃ (d : Dev) (x : Req), x.state ≠ .free) ∧
    (∃ (s : State) (i : ReqNo) (d1 : Dev), s.dev.commanded i.val 2 = true ∧ s.dev.reqBad i.val = false ∧ d1 =
      s.dev.modReq i.val (fun x => { x with cmd := 0 }) ∧ (s.dev.req i.val).state = .free) ∧
    (∃ (s : State) (i : ReqNo) (d1 : Dev), s.dev.commanded i.val 2 = true ∧ s.dev.reqBad i.val = false ∧ d1 =
      s.dev.modReq i.val (fun x => { x with cmd := 0 }) ∧ (s.dev.req i.val).state = .complete) ∧
    (∃ (s : State) (i : ReqNo) (d1 : Dev), s.dev.commanded i.val 2 = true ∧ s.dev.reqBad i.val = false ∧ d1 =
      s.dev.modReq i.val (fun x => { x with cmd := 0 }) ∧ ((s.dev.req i.val).state = .cancelled ∨ (s.dev.req
      i.val).state = .parkExpired)) ∧
    (∃ (s : State) (i : ReqNo) (d1 : Dev), s.dev.commanded i.val 2 = true ∧ s.dev.reqBad i.val = false ∧ d1 =
      s.dev.modReq i.val (fun x => { x with cmd := 0 }) ∧ (s.dev.req i.val).state ≠ .free ∧ (s.dev.req
      i.val).state.ended = false ∧ s.dev.inStep i.val = false ∧ (s.dev.req i.val).ackWait = false) ∧
    (∃ (s : State) (i : ReqNo) (d1 : Dev), s.dev.commanded i.val 2 = true ∧ s.dev.reqBad i.val = false ∧ d1 =
      s.dev.modReq i.val (fun x => { x with cmd := 0 }) ∧ (s.dev.req i.val).state ≠ .free ∧ (s.dev.req
      i.val).state.ended = false ∧ (s.dev.inStep i.val = true ∨ (s.dev.req i.val).ackWait = true)) ∧
    (∃ (d : Dev) (i : Nat), (d.req i).state ≠ .parking ∧ (d.req i).state ≠ .resuming) ∧
    (∃ (d d1 : Dev) (i : Nat) (b : Bundle), ((d.req i).state = .parking ∨ (d.req i).state = .resuming) ∧ d.bundleOf
      (d.req i).domain (d.req i).bundle = some b ∧ d.drawn.copyRequest (d.req i) b (Config.freeBit d.free) = .ok d1) ∧
    (∃ (s : State) (i : ReqNo), s.dev.reqBad i.val = true ∧ s.dev.commanded i.val 1 = true) ∧
    (∃ (s : State) (i : ReqNo), s.dev.reqBad i.val = true ∧ s.dev.commanded i.val 2 = true) ∧
    (∃ (s : State) (i : ReqNo), s.dev.reqBad i.val = true ∧ s.dev.commanded i.val 3 = true) ∧
    (∃ (s : State) (i : ReqNo), s.dev.reqBad i.val = true ∧ s.dev.commanded i.val 4 = true) ∧
    (∃ (s : State) (i : ReqNo), s.dev.reqBad i.val = true ∧ s.dev.commanded i.val 5 = true) ∧
    (∃ (d d1 d2 : Dev) (i : Nat) (x : Req) (b : Bundle) (rs : List Nat), d1 = d.setState i .parking ∧ x = d1.req i ∧
      d.bundleOf x.domain x.bundle = some b ∧ d1.copyRegions x b = .ok (d2, rs)) ∧
    (∃ (s : State) (i : ReqNo) (b : Bundle) (d0 d1 d2 d3 : Dev) (k need : Nat), s.dev.commanded i.val 3 = true ∧
      s.dev.reqBad i.val = false ∧ d1 = s.dev.modReq i.val (fun x => { x with cmd := 0 }) ∧ (s.dev.req i.val).state =
      .active ∧ s.dev.bundleOf (s.dev.req i.val).domain (s.dev.req i.val).bundle = some b ∧ d1.filledGroups (s.dev.req
      i.val) b ((s.dev.req i.val).groupsMax b) = .ok (d2, k) ∧ need = k * b.idsPerGroup * granulesPer b.pageShape ∧ d0
      = d2.dropGranules i.val ∧ d3 = Dev.modReq { d0 with
        serve.granulesUsed := ((d0.freeGranules.take need).foldl (fun l g => insertNat g l) d0.serve.granulesUsed) }
      i.val (fun y => { y with granules := d0.freeGranules.take need }) ∧ d0.freeGranules.length < need) ∧
    (∃ (s : State) (i : ReqNo) (b : Bundle) (d0 d1 d2 d3 : Dev) (k need : Nat), s.dev.commanded i.val 3 = true ∧
      s.dev.reqBad i.val = false ∧ d1 = s.dev.modReq i.val (fun x => { x with cmd := 0 }) ∧ (s.dev.req i.val).state =
      .active ∧ s.dev.bundleOf (s.dev.req i.val).domain (s.dev.req i.val).bundle = some b ∧ d1.filledGroups (s.dev.req
      i.val) b ((s.dev.req i.val).groupsMax b) = .ok (d2, k) ∧ need = k * b.idsPerGroup * granulesPer b.pageShape ∧ d0
      = d2.dropGranules i.val ∧ d3 = Dev.modReq { d0 with
        serve.granulesUsed := ((d0.freeGranules.take need).foldl (fun l g => insertNat g l) d0.serve.granulesUsed) }
      i.val (fun y => { y with granules := d0.freeGranules.take need }) ∧ need ≤ d0.freeGranules.length ∧ s.dev.inStep
      i.val = false ∧ (s.dev.req i.val).ackWait = false) ∧
    (∃ (s : State) (i : ReqNo) (b : Bundle) (d0 d1 d2 d3 : Dev) (k need : Nat), s.dev.commanded i.val 3 = true ∧
      s.dev.reqBad i.val = false ∧ d1 = s.dev.modReq i.val (fun x => { x with cmd := 0 }) ∧ (s.dev.req i.val).state =
      .active ∧ s.dev.bundleOf (s.dev.req i.val).domain (s.dev.req i.val).bundle = some b ∧ d1.filledGroups (s.dev.req
      i.val) b ((s.dev.req i.val).groupsMax b) = .ok (d2, k) ∧ need = k * b.idsPerGroup * granulesPer b.pageShape ∧ d0
      = d2.dropGranules i.val ∧ d3 = Dev.modReq { d0 with
        serve.granulesUsed := ((d0.freeGranules.take need).foldl (fun l g => insertNat g l) d0.serve.granulesUsed) }
      i.val (fun y => { y with granules := d0.freeGranules.take need }) ∧ need ≤ d0.freeGranules.length ∧
      (s.dev.inStep i.val = true ∨ (s.dev.req i.val).ackWait = true)) ∧
    (∃ (s : State) (i : ReqNo), s.dev.commanded i.val 3 = true ∧ s.dev.reqBad i.val = false ∧ (s.dev.req i.val).state
      ≠ .active) ∧
    (∃ (s : State) (i : ReqNo) (b : Bundle) (d2 : Dev) (k : Nat), s.dev.commanded i.val 4 = true ∧ s.dev.reqBad i.val
      = false ∧ (s.dev.req i.val).state = .parked ∧ s.dev.bundleOf (s.dev.req i.val).domain (s.dev.req i.val).bundle =
      some b ∧ (s.dev.modReq i.val (fun x => { x with cmd := 0 })).filledGroups (s.dev.req i.val) b (ceilDiv
      (s.dev.req i.val).pos (shapePositions b.pageShape)) = .ok (d2, k) ∧ k * shapePositions b.pageShape < (s.dev.req
      i.val).pos) ∧
    (∃ (s : State) (i : ReqNo) (b : Bundle) (d2 : Dev) (k : Nat), s.dev.commanded i.val 4 = true ∧ s.dev.reqBad i.val
      = false ∧ (s.dev.req i.val).state = .parked ∧ s.dev.bundleOf (s.dev.req i.val).domain (s.dev.req i.val).bundle =
      some b ∧ (s.dev.modReq i.val (fun x => { x with cmd := 0 })).filledGroups (s.dev.req i.val) b (ceilDiv
      (s.dev.req i.val).pos (shapePositions b.pageShape)) = .ok (d2, k) ∧ (s.dev.req i.val).pos ≤ k * shapePositions
      b.pageShape) ∧
    (∃ (s : State) (i : ReqNo), s.dev.commanded i.val 4 = true ∧ s.dev.reqBad i.val = false ∧ (s.dev.req i.val).state
      ≠ .parked) ∧
    (∃ (s : State) (i : ReqNo), s.dev.commanded i.val 5 = true ∧ s.dev.reqBad i.val = false ∧ (s.dev.req
      i.val).state.ended = true) ∧
    (∃ (s : State) (i : ReqNo), s.dev.commanded i.val 5 = true ∧ s.dev.reqBad i.val = false ∧ (s.dev.req
      i.val).state.ended = false) ∧
    (∃ (s : State) (i : ReqNo), (s.dev.req i.val).cmd = 0) :=
  ⟨⟨on (serving (entry .free 1) Dom.zero), 4095, by decide +kernel⟩,
   ⟨on (serving (entry .queued 1) Dom.zero), 4095, 2, by decide +kernel⟩,
   ⟨up, { Req.zero with state := .parkExpired }, by decide +kernel⟩,
   ⟨on (serving (entry .free 2) Dom.zero), 4095, _, by decide +kernel, by decide +kernel, rfl, by decide +kernel⟩,
   ⟨on (serving (entry .complete 2) Dom.zero), 4095, _, by decide +kernel, by decide +kernel, rfl, by decide +kernel⟩,
   ⟨on (serving (entry .parkExpired 2) Dom.zero), 4095, _, by decide +kernel, by decide +kernel, rfl,
    by decide +kernel⟩,
   ⟨on (serving (entry .active 2) Dom.zero), 4095, _, by decide +kernel, by decide +kernel, rfl, by decide +kernel⟩,
   ⟨on (serving (entry .active 2) { Dom.zero with step := some step1 }), 4095, _, by decide +kernel,
    by decide +kernel, rfl, by decide +kernel⟩,
   ⟨up, 4095, by decide +kernel⟩,
   ⟨serving (entry .resuming 2) Dom.zero, _, 4095, bundle255, by decide +kernel, by decide +kernel, (ok_of up
    (by decide +kernel))⟩,
   ⟨on { serving (entry .active 1) Dom.zero with badTables := [0x400000 + 64 * 4095] }, 4095, by decide +kernel⟩,
   ⟨on { serving (entry .active 2) Dom.zero with badTables := [0x400000 + 64 * 4095] }, 4095, by decide +kernel⟩,
   ⟨on { serving (entry .active 3) Dom.zero with badTables := [0x400000 + 64 * 4095] }, 4095, by decide +kernel⟩,
   ⟨on { serving (entry .active 4) Dom.zero with badTables := [0x400000 + 64 * 4095] }, 4095, by decide +kernel⟩,
   ⟨on { serving (entry .active 5) Dom.zero with badTables := [0x400000 + 64 * 4095] }, 4095, by decide +kernel⟩,
   ⟨serving (entry .active 0) Dom.zero, _, _, 4095, _, bundle255, _, rfl, rfl, by decide +kernel, (pair_of up []
    (by decide +kernel))⟩,
   ⟨on { serving (entry .active 3) Dom.zero with img.str := { dom11.img.str with parkTotal := 0 } }, 4095, bundle255,
    _, _, _, _, _, _, by decide +kernel, by decide +kernel, rfl, by decide +kernel, by decide +kernel, (pair_of up 0
    (by decide +kernel)), rfl, rfl, rfl, by decide +kernel⟩,
   ⟨on { serving (entry .active 3) Dom.zero with img.str := { dom11.img.str with parkTotal := 1 } }, 4095, bundle255,
    _, _, _, _, _, _, by decide +kernel, by decide +kernel, rfl, by decide +kernel, by decide +kernel, (pair_of up 0
    (by decide +kernel)), rfl, rfl, rfl, by decide +kernel⟩,
   ⟨on { serving (entry .active 3) { Dom.zero with step := some step1 } with
      img.str := { dom11.img.str with parkTotal := 1 } }, 4095, bundle255, _, _, _, _, _, _, by decide +kernel,
    by decide +kernel, rfl, by decide +kernel, by decide +kernel, (pair_of up 0 (by decide +kernel)), rfl, rfl, rfl,
    by decide +kernel⟩,
   ⟨on (serving (entry .parked 3) Dom.zero), 4095, by decide +kernel⟩,
   ⟨on { (serving { entry .parked 4 with genLen := 2000 } Dom.zero) with
      dram := dramOf [(2, 0, 255), (2, 1, 255), (2, 2, 255), (2, 3, 255)] }, 4095, bundle255, _, 0, four_of
    (by decide +kernel) ⟨(tells_eq up (by decide +kernel)), by decide +kernel⟩⟩,
   ⟨on (serving (entry .parked 4) Dom.zero), 4095, bundle255, _, _, four_of (by decide +kernel) ⟨(pair_of up 0
    (by decide +kernel)), by decide +kernel⟩⟩,
   ⟨on (serving (entry .active 4) Dom.zero), 4095, by decide +kernel⟩,
   ⟨on (serving (entry .cancelled 5) Dom.zero), 4095, by decide +kernel⟩,
   ⟨on (serving (entry .active 5) Dom.zero), 4095, by decide +kernel⟩,
   ⟨on (serving (entry .active 0) Dom.zero), 4095, by decide +kernel⟩⟩

theorem wit_DeliveryAndCustomers :
    (∃ (s : State) (i : ReqNo) (d1 : Dev), s.dev.engineRuns = true ∧ s.dev.reqBad i.val = false ∧ (s.dev.req
      i.val).delivery ≠ [] ∧ (s.dev.req i.val).ackWait = false ∧ s.dev.putTokens (s.dev.req i.val) (s.dev.req
      i.val).outWrite (s.dev.req i.val).delivery = .ok d1) ∧
    (∃ (s : State) (i : ReqNo), (s.dev.req i.val).ackWait = true ∧ s.dev.reqBad i.val = false) ∧
    (∃ (s : State) (i : ReqNo) (p : Nat) (d1 : Dev), s.dev.engineRuns = true ∧ s.dev.reqBad i.val = false ∧ (s.dev.req
      i.val).delivery ≠ [] ∧ (s.dev.req i.val).ackWait = false ∧ s.dev.putTokens (s.dev.req i.val) (s.dev.req
      i.val).outWrite (s.dev.req i.val).delivery = .error (.page p) ∧ d1 = { s.dev with
        host.waits := if s.dev.host.waits.contains p then s.dev.host.waits else s.dev.host.waits ++ [p] }) ∧
    (∃ (s : State) (i : ReqNo) (b : Bundle) (d1 d2 : Dev) (rs : List Nat), s.dev.bundleOf (s.dev.req i.val).domain
      (s.dev.req i.val).bundle = some b ∧ s.dev.engineRuns = true ∧ s.dev.reqBad i.val = false ∧ s.dev.copyRegions
      (s.dev.req i.val) b = .ok (d1, rs) ∧ (∀ r ∈ rs, d1.unitAwake r = true ∧ d1.stateMoves r = false) ∧
      d1.copyRequest (s.dev.req i.val) b (fun _ => true) = .ok d2 ∧ (s.dev.req i.val).state = .parking) ∧
    (∃ (s : State) (i : ReqNo) (b : Bundle) (d1 d2 : Dev) (rs : List Nat), s.dev.bundleOf (s.dev.req i.val).domain
      (s.dev.req i.val).bundle = some b ∧ s.dev.engineRuns = true ∧ s.dev.reqBad i.val = false ∧ s.dev.copyRegions
      (s.dev.req i.val) b = .ok (d1, rs) ∧ (∀ r ∈ rs, d1.unitAwake r = true ∧ d1.stateMoves r = false) ∧
      d1.copyRequest (s.dev.req i.val) b (fun _ => true) = .ok d2 ∧ (s.dev.req i.val).state = .resuming) ∧
    (∃ (s : State) (i : ReqNo) (b : Bundle) (d1 d2 : Dev) (rs : List Nat), s.dev.bundleOf (s.dev.req i.val).domain
      (s.dev.req i.val).bundle = some b ∧ s.dev.engineRuns = true ∧ s.dev.reqBad i.val = false ∧ s.dev.copyRegions
      (s.dev.req i.val) b = .ok (d1, rs) ∧ (∀ r ∈ rs, d1.unitAwake r = true) ∧ (∃ r ∈ rs, d1.stateMoves r = true) ∧
      (s.dev.req i.val).state = .parking) ∧
    (∃ (s : State) (i : ReqNo) (b : Bundle) (d1 d2 : Dev) (rs : List Nat), s.dev.bundleOf (s.dev.req i.val).domain
      (s.dev.req i.val).bundle = some b ∧ s.dev.engineRuns = true ∧ s.dev.reqBad i.val = false ∧ s.dev.copyRegions
      (s.dev.req i.val) b = .ok (d1, rs) ∧ (∀ r ∈ rs, d1.unitAwake r = true) ∧ (∃ r ∈ rs, d1.stateMoves r = true) ∧
      (s.dev.req i.val).state = .resuming) ∧
    (∃ (s : State) (i : ReqNo) (b : Bundle) (d1 d2 : Dev) (rs : List Nat), s.dev.bundleOf (s.dev.req i.val).domain
      (s.dev.req i.val).bundle = some b ∧ s.dev.engineRuns = true ∧ s.dev.reqBad i.val = false ∧ s.dev.copyRegions
      (s.dev.req i.val) b = .ok (d1, rs) ∧ (∃ r ∈ rs, d1.unitAwake r = false) ∧ (s.dev.req i.val).state = .parking) ∧
    (∃ (d : Dev) (r n : Nat), d.domainOf r = some n) ∧
    (∃ (d d1 : Dev) (x : Req) (b : Bundle) (ids : List Nat) (expand : Bool) (held : Nat) (ps : List (Nat × List Nat)),
      expand = decide (x.state = .resuming) ∧ held = x.granules.length / (max 1 (b.idsPerGroup * granulesPer
      b.pageShape)) ∧ d.pageIds x b (if expand then min held (ceilDiv x.pos (shapePositions b.pageShape)) else held) =
      .ok (d1, ids) ∧ ps = (List.range ids.length).map (fun j => (ids.getD j 0, (x.granules.drop (granulesPer
      b.pageShape * j)).take (granulesPer b.pageShape)))) ∧
    (∃ (d d1 : Dev) (shape id : Nat) (gs : List Nat) (ps : List (Nat × List Nat)), d.packPage shape id gs = .ok d1) ∧
    (∃ (d d1 : Dev) (shape id : Nat) (gs : List Nat) (ps : List (Nat × List Nat)), d.expandPage shape id gs = .ok d1) ∧
    (∃ (d d1 : Dev) (shape id : Nat) (gs : List Nat) (bs : List Byte), d.loadRuns (copyWho id) (pageRuns id) = .ok
      (d1, bs)) ∧
    (∃ (d d1 : Dev) (shape id : Nat) (gs : List Nat) (bs : List Byte), d.loadGranules gs = .ok (d1, bs)) ∧
    (∃ (s : State) (i : ReqNo), (s.dev.req i.val).state = .active) ∧
    (∃ (s : State) (i : ReqNo), (s.dev.req i.val).state = .active ∧ s.dev.reqBad i.val = false) ∧
    (∃ (s : State) (i : ReqNo), s.dev.engineRuns = true ∧ s.dev.reqBad i.val = true) ∧
    (∃ (s : State) (i : ReqNo), s.dev.engineRuns = true ∧ s.dev.reqBad i.val = false ∧ (s.dev.req i.val).state =
      .parked ∧ (s.dev.req i.val).ttl ≠ 0 ∧ 25000 * (s.dev.req i.val).ttl ≤ (s.dev.req i.val).elapsed s.dev.now) ∧
    (∃ (s : State) (i : ReqNo), s.dev.engineRuns = true ∧ s.dev.reqBad i.val = false ∧ (s.dev.req i.val).state =
      .parked ∧ (s.dev.req i.val).ttl ≠ 0 ∧ (s.dev.req i.val).elapsed s.dev.now < 25000 * (s.dev.req i.val).ttl) ∧
    (∃ (s : State) (c : CustNo) (n : Word), s.dev.host.held = [] ∧ s.dev.hostReady = true ∧ c.val <
      s.dev.img.str.customers) ∧
    (∃ (d : Dev) (c n : Nat), (d.cust c).available + n ≤ 0xFFFFFFFF) ∧
    (∃ (d : Dev) (c n : Nat), 0xFFFFFFFF < (d.cust c).available + n ∧ (d.cust c).sat = false) ∧
    (∃ (s : State) (v : Word), s.dev.host.held = [] ∧ s.dev.hostReady = true) :=
  ⟨⟨on (serving { entry .active 0 with delivery := [1] } Dom.zero), 4095, _, four_of (by decide +kernel) (ok_of up
    (by decide +kernel))⟩,
   ⟨on (serving { entry .active 0 with ackWait := true } Dom.zero), 4095, by decide +kernel⟩,
   ⟨on
    { serving { entry .active 0 with delivery := [1], outBase := BitVec.ofNat 64 (23 * stackSpan + 4 * 2 ^ 48) } Dom.zero with
      host.pennants := [(23, false)] }, 4095, 23, _, four_of (by decide +kernel) ⟨(err_of (by decide +kernel)), rfl⟩⟩,
   ⟨on (serving { entry .parking 0 with granules := [0, 1, 2, 3] } Dom.zero), 4095, bundle255, _, _, _,
    by decide +kernel, by decide +kernel, by decide +kernel, (pair_of up [] (by decide +kernel)), by decide +kernel,
    (ok_of up (by decide +kernel)), by decide +kernel⟩,
   ⟨on (serving { entry .resuming 0 with granules := [0, 1, 2, 3] } Dom.zero), 4095, bundle255, _, _, _,
    by decide +kernel, by decide +kernel, by decide +kernel, (pair_of up [] (by decide +kernel)), by decide +kernel,
    (ok_of up (by decide +kernel)), by decide +kernel⟩,
   ⟨on { serving { entry .parking 0 with granules := [0, 1, 2, 3] } { Dom.zero with act := .saving } with
      dram := dramOf [(2, 2, 0xB8)] }, 4095, bundle255, _, up, _, by decide +kernel, by decide +kernel,
    by decide +kernel, (pair_of up [] (by decide +kernel)), by decide +kernel⟩,
   ⟨on { serving { entry .resuming 0 with granules := [0, 1, 2, 3] } { Dom.zero with act := .saving } with
      dram := dramOf [(2, 2, 0xB8)] }, 4095, bundle255, _, up, _, by decide +kernel, by decide +kernel,
    by decide +kernel, (pair_of up [] (by decide +kernel)), by decide +kernel⟩,
   ⟨on { serving { entry .parking 0 with granules := [0, 1, 2, 3] } Dom.zero with
      clk.regionAwake := 0xFFE }, 4095, bundle255, _, up, _, by decide +kernel, by decide +kernel, by decide +kernel,
    (pair_of up [] (by decide +kernel)), by decide +kernel⟩,
   ⟨dom11, 11, 11, by decide +kernel⟩,
   ⟨dom11, _, { entry .parking 0 with granules := [0, 1, 2, 3] }, bundle255, _, false, _, _, by decide +kernel, rfl,
    (pair_of up [] (by decide +kernel)), rfl⟩,
   ⟨dom11, _, 4, 0, [], [], (ok_of up (by decide +kernel))⟩,
   ⟨dom11, _, 4, 0, [], [], (ok_of up (by decide +kernel))⟩,
   ⟨dom11, _, 4, 0, [], _, (pair_of up [] (by decide +kernel))⟩,
   ⟨dom11, _, 4, 0, [0], _, (pair_of up [] (by decide +kernel))⟩,
   ⟨on (serving (entry .active 0) Dom.zero), 4095, by decide +kernel⟩,
   ⟨on (serving (entry .active 0) Dom.zero), 4095, by decide +kernel⟩,
   ⟨on { serving (entry .active 0) Dom.zero with badTables := [0x400000 + 64 * 4095] }, 4095, by decide +kernel⟩,
   ⟨on { serving { entry .parked 0 with limits := 0x10000, since := some 0 } Dom.zero with
      now := 25000 }, 4095, by decide +kernel⟩,
   ⟨on { serving { entry .parked 0 with limits := 0x10000, since := some 0 } Dom.zero with
      now := 24999 }, 4095, by decide +kernel⟩,
   ⟨on dom11, 0, 0xFFFFFFFF, by decide +kernel⟩,
   ⟨up, 0, 0xFFFFFFFF, by decide +kernel⟩,
   ⟨{ up with serve.custs := [(0, ⟨1, 0, false⟩)] }, 0, 0xFFFFFFFF, by decide +kernel⟩,
   ⟨on dom11, 0xFFF, by decide +kernel⟩⟩

theorem wit_BundleCommands :
    (∃ (s : State) (n : Nat) (d1 d2 : Dev) (bs : List Byte), s.dev.engineRuns = true ∧ s.dev.bcmd.busy = true ∧
      s.dev.bcmd.op = 1 ∧ n = s.dev.bcmd.domain ∧ (s.dev.domEnt n).isSome = true ∧ s.dev.load (s.dev.sliceWho n)
      s.dev.bcmd.addr.toNat 1024 = .ok (d1, bs) ∧ d2 = (d1.unserve (s.dev.sliceWho n).party).wakeDomain n ∧ fieldOf bs
      0 4 ≠ 0x444E424B) ∧
    (∃ (s : State) (n : Nat) (d1 d2 : Dev) (bs : List Byte), s.dev.engineRuns = true ∧ s.dev.bcmd.busy = true ∧
      s.dev.bcmd.op = 1 ∧ n = s.dev.bcmd.domain ∧ (s.dev.domEnt n).isSome = true ∧ s.dev.load (s.dev.sliceWho n)
      s.dev.bcmd.addr.toNat 1024 = .ok (d1, bs) ∧ d2 = (d1.unserve (s.dev.sliceWho n).party).wakeDomain n ∧ fieldOf bs
      0 4 = 0x444E424B) ∧
    (∃ (s : State) (n : Nat) (d1 d2 : Dev) (bs : List Byte) (b : Bundle) (d3 d4 : Dev) (text : List Byte),
      s.dev.engineRuns = true ∧ s.dev.bcmd.busy = true ∧ s.dev.bcmd.op = 1 ∧ n = s.dev.bcmd.domain ∧ (s.dev.domEnt
      n).isSome = true ∧ s.dev.load (s.dev.sliceWho n) s.dev.bcmd.addr.toNat 1024 = .ok (d1, bs) ∧ d2 = (d1.unserve
      (s.dev.sliceWho n).party).wakeDomain n ∧ fieldOf bs 0 4 = 0x444E424B ∧ s.dev.admitCode n bs = 0 ∧ b = descOf bs
      (s.dev.regionsOf n) ∧ d2.imageTexts (s.dev.sliceWho n) (b.regions.flatMap (fun r => r.2.2)) = .ok (d3, text) ∧
      d4 = (d3.unserve (s.dev.sliceWho n).party).setResident n b.num (some { b with digest := sha384 (bs ++ text) })) ∧
    (∃ (d : Dev) (n : Nat) (bs : List Byte), (d.domEnt n).isNone = true) ∧
    (∃ (s : State), s.dev.bcmd.busy = false) ∧
    (∃ (s : State) (n b : Nat), s.dev.engineRuns = true ∧ s.dev.bcmd.busy = true ∧ s.dev.bcmd.op = 2 ∧ n =
      s.dev.bcmd.domain ∧ b = s.dev.bcmd.bundle ∧ s.dev.domEnt n = none) ∧
    (∃ (s : State) (n b : Nat), s.dev.engineRuns = true ∧ s.dev.bcmd.busy = true ∧ s.dev.bcmd.op = 2 ∧ n =
      s.dev.bcmd.domain ∧ b = s.dev.bcmd.bundle ∧ (s.dev.domEnt n).isSome = true ∧ s.dev.bundleOf n b = none) ∧
    (∃ (s : State) (n b : Nat), s.dev.engineRuns = true ∧ s.dev.bcmd.busy = true ∧ s.dev.bcmd.op = 2 ∧ n =
      s.dev.bcmd.domain ∧ b = s.dev.bcmd.bundle ∧ (s.dev.domEnt n).isSome = true ∧ (s.dev.bundleOf n b).isSome = true
      ∧ s.dev.bundleUsed n b = true) ∧
    (∃ (s : State) (n b : Nat) (x : Bundle), s.dev.engineRuns = true ∧ s.dev.bcmd.busy = true ∧ s.dev.bcmd.op = 2 ∧ n
      = s.dev.bcmd.domain ∧ b = s.dev.bcmd.bundle ∧ (s.dev.domEnt n).isSome = true ∧ s.dev.bundleOf n b = some x ∧
      s.dev.bundleUsed n b = false) ∧
    (∃ (s : State) (n : Domain) (v : Word) (fits : Bool), s.dev.host.held = [] ∧ s.dev.hostReady = true ∧ fits =
      ((s.dev.domEnt n.val).any (fun e => e.preempt) && s.dev.slotsExist n.val && (s.dev.dom n.val).resident.all (fun
      e => s.dev.slotsFit n.val e.2))) :=
  ⟨⟨on (withBundleCmd 1 11 0 dom11), 11, _, _, List.replicate 1024 0, four_of (by decide +kernel) ⟨by decide +kernel,
    (tells_eq up (by decide +kernel)), rfl, by decide +kernel⟩⟩,
   ⟨on (withBundleCmd 1 11 0 { dom11 with dram := descriptor 10 }), 11, _, _, descBytes 10, four_of
    (by decide +kernel) ⟨by decide +kernel, (tells_eq up (by decide +kernel)), rfl, by decide +kernel⟩⟩,
   ⟨on admitting, 11, _, _, descBytes 11, _, _, _, _, four_of (by decide +kernel) ⟨by decide +kernel, (tells_eq up
    (by decide +kernel)), rfl, by decide +kernel, admit_good, rfl, (pair_of up [] (by decide +kernel)), rfl⟩⟩,
   ⟨up, 11, [], by decide +kernel⟩,
   ⟨on up, by decide +kernel⟩,
   ⟨on (withBundleCmd 2 10 255 dom11), 10, 255, by decide +kernel⟩,
   ⟨on (withBundleCmd 2 11 254 (serving Req.zero Dom.zero)), 11, 254, by decide +kernel⟩,
   ⟨on (withBundleCmd 2 11 255 (serving (entry .active 0) Dom.zero)), 11, 255, by decide +kernel⟩,
   ⟨on (withBundleCmd 2 11 255 (serving Req.zero Dom.zero)), 11, 255, bundle255, by decide +kernel⟩,
   ⟨on dom11, 11, 1, _, by decide +kernel, by decide +kernel, rfl⟩⟩

theorem wit_StepsOfADomain :
    (∃ (s : State) (n : Domain) (d1 d2 : Dev) (l : List Elig), s.dev.mayCompose n.val = true ∧ s.dev.clk.coast = false
      ∧ s.dev.composeBad n.val = false ∧ (s.dev.takeDeadlines n.val).eligibles (s.dev.reqsOf n.val) = .ok (d1, l) ∧
      d1.composeFrom n.val l = .ok d2) ∧
    (∃ (s : State) (n : Domain), s.dev.mayCompose n.val = true ∧ s.dev.clk.coast = false ∧ s.dev.composeBad n.val =
      true) ∧
    (∃ (s : State) (n : Domain), s.dev.mayCompose n.val = true ∧ s.dev.clk.coast = false ∧ s.dev.reqsOf n.val = [] ∧
      (s.dev.dom n.val).susp = []) ∧
    (∃ (s : State) (n : Domain), s.dev.mayCompose n.val = false) ∧
    (∃ (s : State) (n : Domain) (x : Step) (b : Bundle) (d1 : Dev), s.dev.clk.coast = false ∧ (s.dev.dom n.val).step =
      some x ∧ s.dev.bundleOf n.val x.bundle = some b ∧ x.released = false ∧ ((s.dev.dom n.val).act = .idle ∨
      (s.dev.dom n.val).act = .running ∨ (s.dev.dom n.val).act = .switching) ∧ (s.dev.dom n.val).stopped = false ∧
      (s.dev.dom n.val).wedged = false ∧ s.dev.domainAwake n.val = true ∧ s.dev.imagesLoad n.val = false ∧
      s.dev.chip.state = .ready ∧ s.dev.prepare n.val b x = .ok d1) ∧
    (∃ (s : State) (n : Domain), (s.dev.dom n.val).step = none) ∧
    (∃ (s : State) (r : Region) (b : Blk) (k : Nat) (f : Flight), k = 4 * r.val + b.val ∧ s.dev.ready k 0x32 = some f
      ∧ OpWord.setEn f.word = false ∧ s.dev.domainOf r.val = none) ∧
    (∃ (s : State) (r : Region) (b : Blk) (k n : Nat) (f : Flight) (d1 d2 : Dev), k = 4 * r.val + b.val ∧ s.dev.ready
      k 0x32 = some f ∧ OpWord.setEn f.word = false ∧ s.dev.domainOf r.val = some n ∧ d1 = (s.dev.modBlk k (fun x =>
      { x with st := .idle, arrived := true, fly := [] })).bump (blockBase (k / 4) (k % 4) + 0x20) ∧ d1.phaseEnd n =
      .ok d2) ∧
    (∃ (d : Dev) (n : Nat) (x : Step), (d.dom n).step = some x ∧ d.allArrived n = false) ∧
    (∃ (d : Dev) (n : Nat) (x : Step), (d.dom n).step = some x ∧ d.chip.state = .fault) ∧
    (∃ (d : Dev) (n : Nat) (x : Step), (d.dom n).step = some x ∧ d.allArrived n = true ∧ (d.dom n).stopped = false ∧
      d.chip.state ≠ .fault ∧ (d.dom n).wedged = false ∧ x.released = true ∧ (d.dom n).act = .running ∧ x.phase ≠ 0) ∧
    (∃ (s : State) (r : Region) (b : Blk), s.dev.ready (4 * r.val + b.val) 0x32 = none) :=
  ⟨⟨on (serving (entry .queued 0) { Dom.zero with wantCompose := true }), 11, _, _, _, by decide +kernel,
    by decide +kernel, by decide +kernel, (pair_of up [] (by decide +kernel)), (ok_of up (by decide +kernel))⟩,
   ⟨on { (serving (entry .queued 0) { Dom.zero with wantCompose := true }) with
      badTables := [64 * (0x10000 + 4095)] }, 11, by decide +kernel⟩,
   ⟨on (serving (entry .free 0) { Dom.zero with wantCompose := true }), 11, by decide +kernel⟩,
   ⟨on up, 11, by decide +kernel⟩,
   ⟨on (serving Req.zero { Dom.zero with step := some { step1 with released := false } }), 11,
    { step1 with released := false }, bundle255, _, four_of (by decide +kernel) (four_of (by decide +kernel)
    ⟨by decide +kernel, by decide +kernel, (ok_of up (by decide +kernel))⟩)⟩,
   ⟨on up, 11, by decide +kernel⟩,
   ⟨on { flying (0x32 + fields ((List.range 6).map (fun i => (67 + 10 * i, 0x3FF)))) with img := up.img }, 11, 3, 47,
    flight (0x32 + fields ((List.range 6).map (fun i => (67 + 10 * i, 0x3FF)))), by decide +kernel⟩,
   ⟨on (flying (0x32 + fields ((List.range 6).map (fun i => (67 + 10 * i, 0x3FF))))), 11, 3, 47, 11, flight (0x32 +
    fields ((List.range 6).map (fun i => (67 + 10 * i, 0x3FF)))), _, _, four_of (by decide +kernel) ⟨rfl, (ok_of up
    (by decide +kernel))⟩⟩,
   ⟨serving Req.zero { Dom.zero with step := some step1, act := .running }, 11, step1, by decide +kernel⟩,
   ⟨{ serving Req.zero { Dom.zero with step := some step1, act := .running } with
      chip.state := .fault }, 11, step1, by decide +kernel⟩,
   ⟨{ serving Req.zero { Dom.zero with act := .running, step := some { step1 with phase := 8, lmax := 8 } } with
      blocks := (List.range 4).map (fun j => (44 + j, { BlockSt.zero with arrived := true })) }, 11,
    { step1 with phase := 8, lmax := 8 }, by decide +kernel⟩,
   ⟨on up, 11, 3, by decide +kernel⟩⟩

theorem wit_SuspensionAndStall :
    (∃ (s : State) (n : Domain) (u : Susp) (rest : List Susp) (d1 d2 : Dev), (s.dev.dom n.val).susp = u :: rest ∧
      (s.dev.dom n.val).act = .suspending ∧ s.dev.domainLives n.val = true ∧ (s.dev.blocksOf n.val).any (fun k =>
      (s.dev.blk k).fly.any Flight.mustEnd) = false ∧ d1 = (s.dev.blocksOf n.val).foldl (fun a k => (a.partWays
      k).modBlk k (fun b => if b.st = .running then { b with st := .suspended } else b)) s.dev ∧ d2 =
      (u.step.reqs.foldl (fun a i => a.bump (0x440000 + 64 * (a.req i).customer + 0x18)) d1).bump (0x450400 + 0x10 *
      n.val)) ∧
    (∃ (s : State) (n : Domain), ((s.dev.dom n.val).act ≠ .suspending ∨ (s.dev.dom n.val).susp = [] ∨
      s.dev.domainLives n.val = false ∨ ∃ k ∈ s.dev.blocksOf n.val, ∃ f ∈ (s.dev.blk k).fly, f.mustEnd = true)) ∧
    (∃ (d d0 d1 : Dev) (k o t : Nat) (f : Flight) (p : Plan), o ≠ 0x11 ∧ d.ready k o = some f ∧ d.flightPlan (f.op k)
      f.pos = some (d0, p) ∧ t = f.pos + Config.order d.free 0 % (p.steps (f.op k) - f.pos + 1) ∧ f.pos ≤ p.steps
      (f.op k) ∧ d0.runPlan (f.op k) f.index (p.between (f.op k) f.pos t) d.free = .ok (d1, false)) ∧
    (∃ (d : Dev) (k o : Nat), d.ready k o = none) ∧
    (∃ (d : Dev) (n : Nat), (∀ k ∈ d.blocksOf n, (d.blk k).fly = [])) ∧
    (∃ (s : State) (r : Region) (n : Nat) (u : Susp) (rest : List Susp) (b : Bundle) (d1 : Dev) (x : SavedRegion)
      (area : List Byte) (all : Bool), s.dev.domainOf r.val = some n ∧ (s.dev.dom n).susp = u :: rest ∧ s.dev.bundleOf
      n u.step.bundle = some b ∧ (s.dev.dom n).act = .saving ∧ s.dev.domainLives n = true ∧ u.regions.any (fun y =>
      y.region == r.val) = false ∧ s.dev.regionQuiet r.val = true ∧ s.dev.saveMemory n r.val u.level b = .ok (d1, x,
      area) ∧ all = (s.dev.regionsOf n).all (fun q => q == r.val || u.regions.any (fun y => y.region == q))) ∧
    (∃ (d d0 d1 d2 d3 d4 : Dev) (n r level : Nat) (b : Bundle) (live other : List (List Byte)) (area : List Byte), d0
      = d.queuesChecked r ∧ d0.readPieces (d0.slotPieces r b) = .ok (d1, live) ∧ d1.readPieces (d0.queuePieces r) =
      .ok (d2, other) ∧ d2.writeSlot n r level live.flatten = .ok d3 ∧ d3.loadOver (d.sliceWho n) [(b.stepArea,
      0x8000)] = .ok (d4, area)) ∧
    (∃ (s : State) (r : Region), (s.dev.domainOf r.val = none ∨ s.dev.regionQuiet r.val = false ∨ ∃ n : Nat,
      s.dev.domainOf r.val = some n ∧ s.dev.domainLives n = false)) ∧
    (∃ (s : State) (n : Domain) (u : Susp) (rest : List Susp) (d1 d2 : Dev), (s.dev.dom n.val).susp = u :: rest ∧
      (s.dev.dom n.val).act = .restoring ∧ s.dev.domainLives n.val = true ∧ s.dev.domainAwake n.val = true ∧
      s.dev.imagesLoad n.val = false ∧ s.dev.restoreStep n.val u = .ok d1 ∧ d2 = (d1.setRounds n.val []).modDom n.val
      (fun y => { y with act := .running, step := some u.step, susp := y.susp.tail })) ∧
    (∃ (d d1 : Dev) (n : Nat) (u : Susp) (b : Bundle), d.restoreRegions n u.level u.regions = .ok d1 ∧ d1.bundleOf n
      u.step.bundle = some b) ∧
    (∃ (d d1 : Dev) (n level : Nat) (x : SavedRegion) (xs : List SavedRegion), d.restoreRuns n level x = .ok d1) ∧
    (∃ (d : Dev) (r j : Nat), r < 12 ∧ j < 4) ∧
    (∃ (s : State) (n : Domain), ((s.dev.dom n.val).susp = [] ∨ (s.dev.dom n.val).act ≠ .restoring ∨ s.dev.domainLives
      n.val = false ∨ s.dev.domainAwake n.val = false ∨ s.dev.imagesLoad n.val = true)) ∧
    (∃ (s : State) (n : Domain), s.dev.stalls n.val = true) ∧
    (∃ (d : Dev) (n : Nat), (d.dom n).act = .running ∧ d.chip.state ≠ .fault ∧ (d.dom n).stopped = false ∧ (d.dom
      n).wedged = false ∧ (∀ k ∈ d.blocksOf n, (d.blk k).fly = [] ∧ ((d.blk k).acts = true ∧ (d.blk k).wait.isSome =
      true ∨ (d.blk k).arrived = true)) ∧ (∃ k ∈ d.blocksOf n, (d.blk k).acts = true ∧ (d.blk k).wait.isSome = true)) ∧
    (∃ (d : Dev) (n k : Nat) (f : Flight), k ∈ d.blocksOf n ∧ f ∈ (d.blk k).fly ∧ f.mayset = true) ∧
    (∃ (s : State) (n : Domain), s.dev.stalls n.val = false) :=
  ⟨⟨on { suspended .suspending with blocks := [(47, { BlockSt.zero with st := .running })] }, 11, susp1, [], _, _,
    four_of (by decide +kernel) ⟨rfl, rfl⟩⟩,
   ⟨on up, 11, .inl (by decide +kernel)⟩,
   ⟨flying elemW, flying elemW, _, 47, 8, _, flight elemW, elemP, by decide +kernel, by decide +kernel, rfl, rfl,
    by decide +kernel, (tells_eq up (parts_run _ (Nat.mod_lt _ (by decide +kernel))))⟩,
   ⟨up, 47, 8, by decide +kernel⟩,
   ⟨up, 11, by decide +kernel⟩,
   ⟨on (suspended .saving), 11, 11, susp1, [], bundle255, _, _, _, _, four_of (by decide +kernel) ⟨by decide +kernel,
    by decide +kernel, by decide +kernel, (triple_of up (kept11, []) (by decide +kernel)), rfl⟩⟩,
   ⟨suspended .saving, _, _, _, _, _, 11, 11, 0, bundle255, _, _, _, rfl, (pair_of up [] (by decide +kernel)),
    (pair_of up [] (by decide +kernel)), (ok_of up (by decide +kernel)), (pair_of up [] (by decide +kernel))⟩,
   ⟨on up, 11, .inl (by decide +kernel)⟩,
   ⟨on (suspended .restoring), 11, susp1, [], _, _, four_of (by decide +kernel) ⟨by decide +kernel, (ok_of up
    (by decide +kernel)), rfl⟩⟩,
   ⟨suspended .restoring, _, 11, susp1, bundle255, (ok_of up (by decide +kernel)), by decide +kernel⟩,
   ⟨suspended .restoring, _, 11, 0, kept11, [], (ok_of up (by decide +kernel))⟩,
   ⟨up, 11, 3, by decide +kernel⟩,
   ⟨on up, 11, .inl (by decide +kernel)⟩,
   ⟨on stuck, 11, by decide +kernel⟩,
   ⟨stuck, 11, by decide +kernel⟩,
   ⟨flying (elemW + 2 ^ 66), 11, 47, flight (elemW + 2 ^ 66), by decide +kernel⟩,
   ⟨on (flying elemW), 11, by decide +kernel⟩⟩

theorem wit_TwinAttachment :
    (∃ (s : State), s.dev.host.held = [] ∧ s.dev.hostReady = true ∧ s.dev.twin.st = 0 ∧ s.dev.twin.present = true ∧
      s.dev.chip.state = .ready ∧ s.dev.clk.coast = false ∧ s.dev.promotedLive = 0) ∧
    (∃ (s : State), s.dev.host.held = [] ∧ s.dev.hostReady = true ∧ s.dev.twin.st = 0 ∧ s.dev.twin.present = true ∧
      s.dev.chip.state = .ready ∧ s.dev.clk.coast = false ∧ s.dev.promotedLive ≠ 0) ∧
    (∃ (s : State), s.dev.host.held = [] ∧ s.dev.twin.present = false) ∧
    (∃ (s : State) (h : TwinHello) (areas : List MirrorArea), wellFormed (.twinAttached h areas) = true ∧
      s.dev.twin.st = 1 ∧ s.dev.clk.coast = false ∧ h.role = s.dev.chip.straps.twinRole) ∧
    (∃ (s : State) (h : TwinHello) (areas : List MirrorArea), wellFormed (.twinAttached h areas) = true ∧
      s.dev.twin.st = 1 ∧ s.dev.clk.coast = false ∧ h.role ≠ s.dev.chip.straps.twinRole ∧ (h.digest ≠ s.dev.twinDigest
      ∨ s.dev.shadowsMatch areas = false)) ∧
    (∃ (s : State) (h : TwinHello) (areas : List MirrorArea), wellFormed (.twinAttached h areas) = true ∧
      s.dev.twin.st = 1 ∧ s.dev.clk.coast = false ∧ h.role ≠ s.dev.chip.straps.twinRole ∧ h.digest = s.dev.twinDigest
      ∧ s.dev.shadowsMatch areas = true) ∧
    (∃ (s : State) (h : TwinHello) (areas : List MirrorArea), wellFormed (.twinAttached h areas) = true ∧
      s.dev.twin.st ≠ 1) ∧
    (∃ (s : State) (why : AttachFail), s.dev.twin.st = 1) ∧
    (∃ (d : Dev) (code : Nat), d.twin.st = 2) ∧
    (∃ (d : Dev) (code : Nat), d.twin.st ≠ 2) ∧
    (∃ (s : State), s.dev.host.held = [] ∧ s.dev.hostReady = true) ∧
    (∃ (s : State) (seq : BitVec 32) (step : BitVec 16) (n : BitVec 4) (parts : List TwinPart), .record seq step n
      false parts ∈ s.dev.twin.stream) ∧
    (∃ (s : State), (∀ (seq : BitVec 32) (step : BitVec 16) (n : BitVec 4) (parts : List TwinPart), .record seq step n
      false parts ∉ s.dev.twin.stream)) ∧
    (∃ (s : State) (level : Bool), s.dev.twin.present = level) ∧
    (∃ (s : State), s.dev.regsLive = true ∧ s.dev.twin.present = true ∧ s.dev.twin.st = 2) :=
  ⟨⟨on (twin fun x => { x with present := true }), by decide +kernel⟩,
   ⟨on { (twin fun x => { x with present := true }) with
      serve.reqs := [(0, { Req.zero with promoted := true, state := .active })] }, by decide +kernel⟩,
   ⟨on dom11, by decide +kernel⟩,
   ⟨on attaching, ⟨true, List.replicate 48 0⟩, [], by decide +kernel⟩,
   ⟨on attaching, ⟨false, List.replicate 48 0⟩, [⟨false, 0, 0, 0⟩], by decide +kernel⟩,
   ⟨on attaching, ⟨false, attaching.twinDigest⟩, [], by decide +kernel⟩,
   ⟨on dom11, ⟨true, List.replicate 48 0⟩, [], by decide +kernel⟩,
   ⟨on attaching, .train, by decide +kernel⟩,
   ⟨attached, 5, by decide +kernel⟩,
   ⟨dom11, 5, by decide +kernel⟩,
   ⟨on dom11, by decide +kernel⟩,
   ⟨on { attached with twin.stream := [.record 7 8 9 false [part0]] }, 7, 8, 9, [part0], by decide +kernel⟩,
   ⟨on attached, fun _ _ _ _ h => absurd h List.not_mem_nil⟩,
   ⟨on dom11, false, by decide +kernel⟩,
   ⟨on attached, by decide +kernel⟩⟩

theorem wit_HeartbeatsAndReplays :
    (∃ (s : State), s.dev.twin.st = 2 ∧ s.dev.clk.coast = false) ∧
    (∃ (s : State), s.dev.twin.st ≠ 2) ∧
    (∃ (s : State), s.dev.hbDriven = true) ∧
    (∃ (s : State), s.dev.hbDriven = false) ∧
    (∃ (s : State) (level : Bool), s.dev.twin.hbLevel ≠ level) ∧
    (∃ (s : State), s.dev.twin.st = 2 ∧ s.dev.twin.linkBeat = true) ∧
    (∃ (s : State), s.dev.twin.st = 2 ∧ s.dev.twin.linkBeat = false ∧ s.dev.twin.edgeBeat = true) ∧
    (∃ (s : State), s.dev.twin.st = 2 ∧ s.dev.twin.linkBeat = false ∧ s.dev.twin.edgeBeat = false) ∧
    (∃ (s : State) (l : Link) (c : Fin 25) (k : Nat), k = linkKey l c ∧ s.dev.linkRuns l = true) ∧
    (∃ (s : State) (l : Link) (c : Fin 25) (k : Nat), k = linkKey l c ∧ s.dev.linkRuns l = true ∧ Tab.read (fun _ =>
      0) s.dev.net.fails k < 7) ∧
    (∃ (l m : Link) (b c : Fin 25), linkKey l b = linkKey m c) ∧
    (∃ (l m : Link) (b c : Fin 25), linkKey l b = linkKey m c ∧ (∃ (r : Router) (dir : Fin 6), l = .fabric r dir)) ∧
    (∃ (s : State) (st : Stack) (c : Fin 25), s.dev.linkRuns (.bond st) = true ∧ Tab.read (fun _ => 0) s.dev.net.fails
      (linkKey (.bond st) c) = 7) ∧
    (∃ (s : State) (l : Link) (c : Fin 25) (failed : Bool), s.dev.linkRuns l = false) :=
  ⟨⟨on attached, by decide +kernel⟩,
   ⟨on dom11, by decide +kernel⟩,
   ⟨on attached, by decide +kernel⟩,
   ⟨on Dev.reset, by decide +kernel⟩,
   ⟨on dom11, true, by decide +kernel⟩,
   ⟨on (twin fun x => { x with st := 2, linkBeat := true, edgeBeat := false }), by decide +kernel⟩,
   ⟨on (twin fun x => { x with st := 2, linkBeat := false, edgeBeat := true }), by decide +kernel⟩,
   ⟨on (twin fun x => { x with st := 2, linkBeat := false, edgeBeat := false }), by decide +kernel⟩,
   ⟨on attached, .twin, 0, 3200, by decide +kernel⟩,
   ⟨on attached, .twin, 24, 3200, by decide +kernel⟩,
   ⟨.twin, .twin, 0, 24, by decide +kernel⟩,
   ⟨.fabric 5 1, .fabric 5 1, 24, 24, by decide +kernel, ⟨5, 1, rfl⟩⟩,
   ⟨on { dom11 with net.fails := [(3023, 7)] }, 23, 0, by decide +kernel⟩,
   ⟨on dom11, .twin, 0, true, by decide +kernel⟩⟩

theorem wit_MirrorAndPromotion :
    (∃ (s : State) (seq : BitVec 32) (step : BitVec 16) (n : BitVec 4) (c : Bool) (parts : List TwinPart), wellFormed
      (.twinRecordApply (.record seq step n c parts)) = true ∧ s.dev.twin.st = 2 ∧ s.dev.clk.coast = false) ∧
    (∃ (s : State) (a : BitVec 48) (bs : List Byte), wellFormed (.twinRecordApply (.write a bs)) = true ∧
      s.dev.twin.st = 2 ∧ s.dev.clk.coast = false ∧ s.dev.inShadow a.toNat = true) ∧
    (∃ (d d0 : Dev) (a : Nat) (bs : List Byte) (d1 : Dev), d.twin.posts = [] ∧ d0 =
      { d with twin.posts := [.bytes a bs] } ∧ d0.store postWho a bs = .ok d1) ∧
    (∃ (d d0 : Dev) (a : Nat) (bs : List Byte) (cks : List Nat) (p : Party), d.twin.posts = [] ∧ d0 =
      { d with twin.posts := [.bytes a bs] } ∧ d0.store postWho a bs = .error (.busy cks p)) ∧
    (∃ (d : Dev), d.twin.posts = [] ∧ d.twin.st = 2) ∧
    (∃ (s : State) (a : BitVec 48) (bs : List Byte), wellFormed (.twinRecordApply (.write a bs)) = true ∧
      s.dev.inShadow a.toNat = false) ∧
    (∃ (d : Dev) (step : BitVec 16) (n : Nat) (p : TwinPart), d.shadowAddr p.entry = none ∧ Shadow.state ⟨n, step,
      p.req, d.partToken p⟩ ≠ .free) ∧
    (∃ (d d1 : Dev) (step : BitVec 16) (n a : Nat) (p : TwinPart) (x : Shadow), x = ⟨n, step, p.req, d.partToken p⟩ ∧
      d1 = d.drawn.setShadow p.entry (if x.state = .free then none else some x) ∧ d1.shadowAddr p.entry = some a) ∧
    (∃ (s : State) (a : BitVec 48) (bs : List Byte) (rest : List TwinItem), s.dev.twin.st = 2 ∧ s.dev.twin.stream =
      .write a bs :: .copyEnd :: rest) ∧
    (∃ (s : State) (seq : BitVec 32) (step : BitVec 16) (n : BitVec 4) (c : Bool) (parts : List TwinPart) (rest : List
      TwinItem), s.dev.twin.st = 2 ∧ s.dev.twin.stream = .record seq step n c parts :: rest ∧ s.dev.twin.acks.find?
      (fun a => decide (a.seq = seq.toNat)) = none) ∧
    (∃ (s : State) (seq : BitVec 32) (step : BitVec 16) (n : BitVec 4) (c : Bool) (parts : List TwinPart) (rest : List
      TwinItem) (q : Ack) (d1 : Dev), s.dev.twin.st = 2 ∧ s.dev.twin.stream = .record seq step n c parts :: rest ∧
      s.dev.twin.acks.find? (fun a => decide (a.seq = seq.toNat)) = some q ∧ d1 = Dev.bump
      { s.dev with twin.stream := rest } 0x3800018) ∧
    (∃ (d : Dev), (∀ a ∈ d.twin.acks, a.acked = false ∨ a.reqs ≠ [])) ∧
    (∃ (d : Dev) (a : Ack), d.twin.acks = [a] ∧ a.acked = true ∧ a.reqs = []) ∧
    (∃ (s : State), s.dev.twin.st = 2 ∧ s.dev.twin.stream = []) ∧
    (∃ (s : State) (addr : BitVec 48) (len : Nat) (d1 : Dev) (bs : List Byte), wellFormed (.twinRepairRead addr len) =
      true ∧ s.dev.twin.st = 2 ∧ s.dev.clk.coast = false ∧ s.dev.load ⟨.host, .stream, false, 0, 10⟩ addr.toNat len =
      .ok (d1, bs)) ∧
    (∃ (s : State) (addr : BitVec 48) (len : Nat), wellFormed (.twinRepairRead addr len) = true ∧ s.dev.twin.st = 2 ∧
      s.dev.clk.coast = false ∧ s.dev.load ⟨.host, .stream, false, 0, 10⟩ addr.toNat len = .error .unmapped) ∧
    (∃ (s : State) (v : Word) (d1 : Dev), s.dev.host.held = [] ∧ s.dev.hostReady = true ∧ d1 = { s.dev with
        twin.dstDomain := fieldAt v.toNat 20 4,
        twin.srcDomain := fieldAt v.toNat 16 4 } ∧ (bitAt v.toNat 31 = false ∨ s.dev.twin.promoting.isSome = true)) ∧
    (∃ (s : State) (v : Word) (d1 : Dev), s.dev.host.held = [] ∧ s.dev.hostReady = true ∧ d1 = { s.dev with
        twin.dstDomain := fieldAt v.toNat 20 4,
        twin.srcDomain := fieldAt v.toNat 16 4 } ∧ bitAt v.toNat 31 = true ∧ s.dev.twin.promoting = none ∧
      d1.pennantBad d1.twin.promotePage = true) ∧
    (∃ (s : State) (v : Word) (d1 : Dev), s.dev.host.held = [] ∧ s.dev.hostReady = true ∧ d1 = { s.dev with
        twin.dstDomain := fieldAt v.toNat 20 4,
        twin.srcDomain := fieldAt v.toNat 16 4 } ∧ bitAt v.toNat 31 = true ∧ s.dev.twin.promoting = none ∧
      d1.pennantBad d1.twin.promotePage = false ∧ d1.promoteRefusal ≠ 0) ∧
    (∃ (s : State) (v : Word) (d1 : Dev) (q : Promotion), s.dev.host.held = [] ∧ s.dev.hostReady = true ∧ d1 =
      { s.dev with
        twin.dstDomain := fieldAt v.toNat 20 4,
        twin.srcDomain := fieldAt v.toNat 16 4 } ∧ bitAt v.toNat 31 = true ∧ s.dev.twin.promoting = none ∧
      d1.pennantBad d1.twin.promotePage = false ∧ d1.promoteRefusal = 0 ∧ q = ⟨d1.twin.srcDomain, d1.twin.dstDomain,
      d1.twin.promotePage, false⟩) ∧
    (∃ (d : Dev) (q : Promotion) (i : Nat) (x : Shadow) (r : List (Nat × Option Shadow)) (d1 : Dev), d.promoteOne
      q.dst q.page i x = .ok d1) ∧
    (∃ (d : Dev) (q : Promotion) (i : Nat) (x : Shadow) (r : List (Nat × Option Shadow)) (cks : List Nat) (p : Party),
      d.promoteOne q.dst q.page i x = .error (.busy cks p)) ∧
    (∃ (d d1 : Dev) (n page i k : Nat) (x : Shadow) (p : Dev × Nat × Nat), p = d.promoteEntry n x ∧ k =
      p.1.twin.promoteCount ∧ p.1.store promoteWho (p.1.windowAddr page (16 * k)) (logEntry i p.2.2 p.2.1 x) = .ok d1) ∧
    (∃ (d : Dev), d.twin.st ≠ 0) ∧
    (∃ (d : Dev), d.twin.st = 0 ∧ d.twin.promotable = false) ∧
    (∃ (d : Dev), d.twin.st = 0 ∧ d.twin.promotable = true ∧ (d.domEnt d.twin.dstDomain).isNone = true) ∧
    (∃ (d : Dev), d.twin.st = 0 ∧ d.twin.promotable = true ∧ (d.domEnt d.twin.dstDomain).isSome = true ∧ d.pennant
      d.twin.promotePage = false) ∧
    (∃ (d : Dev) (n : Nat) (x : Shadow), (x.state = .parked ∨ x.state = .parking ∨ x.state = .resuming)) ∧
    (∃ (x : Shadow) (n now order : Nat), n < 16) :=
  ⟨⟨on attached, 7, 8, 9, true, [part0], by decide +kernel⟩,
   ⟨on (shadowed attached), BitVec.ofNat 48 far, [1], by decide +kernel⟩,
   ⟨shadowed attached, _, far, [1], _, by decide +kernel, rfl, (ok_of up (by decide +kernel))⟩,
   ⟨{ shadowed attached with
      stks := [(23, StackSt.dflt 2)],
      bcells := [(cellKey 23 0 0, inSeq)] }, _, far, [1], [cellKey 23 0 0], postWho.party, by decide +kernel, rfl,
    (err_of (by decide +kernel))⟩,
   ⟨attached, by decide +kernel⟩,
   ⟨on attached, BitVec.ofNat 48 far, [1], by decide +kernel⟩,
   ⟨dom11, 8, 9, part0, by decide +kernel⟩,
   ⟨{ dom11 with
      img.str := { dom11.img.str with areas := [{ area23 with kind := 9, records := true }] } }, _, 8, 9, _, part0,
    ⟨9, 8, part0.req, dom11.partToken part0⟩, rfl, rfl, (some_of 0 (by decide +kernel))⟩,
   ⟨on { attached with twin.stream := [.write 0 [1], .copyEnd] }, 0, [1], [], by decide +kernel⟩,
   ⟨on { attached with twin.stream := [record0] }, 7, 8, 9, true, [part0], [], by decide +kernel⟩,
   ⟨on { attached with twin.stream := [record0], twin.acks := [⟨7, 11, 0, [], false⟩] }, 7, 8, 9, true, [part0], [],
    ⟨7, 11, 0, [], false⟩, _, by decide +kernel, by decide +kernel, by decide +kernel, rfl⟩,
   ⟨attached, by decide +kernel⟩,
   ⟨{ attached with twin.acks := [⟨7, 11, 0, [], true⟩] }, ⟨7, 11, 0, [], true⟩, by decide +kernel⟩,
   ⟨on attached, by decide +kernel⟩,
   ⟨on (shadowed attached), BitVec.ofNat 48 far, 1, _, _, by decide +kernel, by decide +kernel, by decide +kernel,
    (pair_of up [] (by decide +kernel))⟩,
   ⟨on attached, BitVec.ofNat 48 (2 ^ 47), 1, by decide +kernel, by decide +kernel, by decide +kernel, (err_of
    (by decide +kernel))⟩,
   ⟨on dom11, 0xB00000, _, by decide +kernel, by decide +kernel, rfl, by decide +kernel⟩,
   ⟨on { promotable with badTables := [0x800000] }, 0x80B00000, _, by decide +kernel, by decide +kernel, rfl,
    by decide +kernel⟩,
   ⟨on promotable, 0x80000000, _, by decide +kernel, by decide +kernel, rfl, by decide +kernel⟩,
   ⟨on promotable, 0x80B00000, _, _, by decide +kernel, by decide +kernel, rfl, four_of (by decide +kernel) rfl⟩,
   ⟨promotable, ⟨11, 11, 23, false⟩, 5, ⟨11, 8, part0.req, 5⟩, [], _, (ok_of up (by decide +kernel))⟩,
   ⟨{ promotable with stks := [(23, StackSt.dflt 2)], bcells := [(cellKey 23 0 0, inSeq)] }, ⟨11, 11, 23, false⟩, 5,
    ⟨11, 8, part0.req, 5⟩, [], [cellKey 23 0 0], promoteWho.party, (err_of (by decide +kernel))⟩,
   ⟨promotable, _, 11, 23, 5, _, ⟨11, 8, part0.req, 5⟩, _, rfl, rfl, (ok_of up (by decide +kernel))⟩,
   ⟨attached, by decide +kernel⟩,
   ⟨dom11, by decide +kernel⟩,
   ⟨promotable, by decide +kernel⟩,
   ⟨{ promotable with twin.promotePage := 22, twin.dstDomain := 11 }, by decide +kernel⟩,
   ⟨up, 11, ⟨0, 0, [5], 0⟩, by decide +kernel⟩,
   ⟨⟨0, 0, [3], 0⟩, 15, 0, 0, by decide +kernel⟩⟩

theorem wit_StructureImage :
    (∃ (s : State) (v : Word), s.dev.host.held = [] ∧ s.dev.reaches .host = true ∧ v.getLsbD 31 = false) ∧
    (∃ (s : State) (v : Word), s.dev.host.held = [] ∧ s.dev.reaches .host = true ∧ v.getLsbD 31 = true ∧
      (s.dev.chip.state ≠ .unstructured ∨ (s.dev.img.state ≠ 0 ∧ s.dev.img.state ≠ 4))) ∧
    (∃ (s : State) (v : Word), s.dev.host.held = [] ∧ s.dev.reaches .host = true ∧ v.getLsbD 31 = true ∧
      s.dev.chip.state = .unstructured ∧ (s.dev.img.state = 0 ∨ s.dev.img.state = 4) ∧ s.dev.windowPages ≤ fieldAt
      v.toNat 0 17) ∧
    (∃ (s : State) (v : Word) (d1 : Dev) (d2 : Dev) (bs : List Byte) (u : Option Nat), s.dev.host.held = [] ∧
      s.dev.reaches .host = true ∧ v.getLsbD 31 = true ∧ s.dev.chip.state = .unstructured ∧ (s.dev.img.state = 0 ∨
      s.dev.img.state = 4) ∧ fieldAt v.toNat 0 17 < s.dev.windowPages ∧ d1 = { s.dev with
        img :=
      { s.dev.img with page := fieldAt v.toNat 0 17, run := fieldAt v.toNat 0 17, code := 0, section_ := 0, offset := 0, state := 1 } }
      ∧ d1.copyImage = .ok (d2, bs, u)) ∧
    (∃ (s : State) (v : Word) (d1 : Dev) (cks : List Nat) (p : Party), s.dev.host.held = [] ∧ s.dev.reaches .host =
      true ∧ v.getLsbD 31 = true ∧ s.dev.chip.state = .unstructured ∧ (s.dev.img.state = 0 ∨ s.dev.img.state = 4) ∧
      fieldAt v.toNat 0 17 < s.dev.windowPages ∧ d1 = { s.dev with
        img :=
      { s.dev.img with page := fieldAt v.toNat 0 17, run := fieldAt v.toNat 0 17, code := 0, section_ := 0, offset := 0, state := 1 } }
      ∧ d1.copyImage = .error (.busy cks p)) ∧
    (∃ (s : State) (cks : List Nat) (p : Party), s.dev.img.state = 1 ∧ s.dev.chip.state = .unstructured ∧
      s.dev.clk.coast = false ∧ s.dev.img.waits = true ∧ s.dev.copyImage = .error (.busy cks p)) ∧
    (∃ (s : State) (o : Nat), s.dev.img.state = 1 ∧ s.dev.chip.state = .unstructured ∧ s.dev.clk.coast = false ∧
      s.dev.img.waits = false ∧ s.dev.img.ue = some o) ∧
    (∃ (s : State) (d1 : Dev) (img : List Byte) (b : Bad), s.dev.img.state = 1 ∧ s.dev.chip.state = .unstructured ∧
      s.dev.clk.coast = false ∧ s.dev.img.waits = false ∧ s.dev.img.ue = none ∧ s.dev.finalCopy = .ok img ∧ d1 =
      s.dev.unserve imageWho.party ∧ s.dev.validate img s.dev.imageRoom = .error b) ∧
    (∃ (s : State) (d1 : Dev) (img : List Byte) (x : Draft), s.dev.img.state = 1 ∧ s.dev.chip.state = .unstructured ∧
      s.dev.clk.coast = false ∧ s.dev.img.waits = false ∧ s.dev.img.ue = none ∧ s.dev.finalCopy = .ok img ∧ d1 =
      s.dev.unserve imageWho.party ∧ s.dev.validate img s.dev.imageRoom = .ok x) ∧
    (∃ (s : State), s.dev.img.state ≠ 1) :=
  ⟨⟨on (upIn .unstructured), 5, by decide +kernel⟩,
   ⟨on up, 0x80000005, by decide +kernel⟩,
   ⟨on (upIn .unstructured), 0x80002000, by decide +kernel⟩,
   ⟨on (attempt (fun x => { x with state := 4 }) up), 0x80000000, _, _, _, _, four_of (by decide +kernel)
    ⟨by decide +kernel, by decide +kernel, rfl, (triple_of up ([], none) (by decide +kernel))⟩⟩,
   ⟨on { upIn .unstructured with
      bcells := [(cellKey 0 0 0, { BCell.zero with refreshing := true })] }, 0x80000000, _, [cellKey 0 0 0],
    imageWho.party, four_of (by decide +kernel) ⟨by decide +kernel, by decide +kernel, rfl, (err_of
    (by decide +kernel))⟩⟩,
   ⟨on { attempt (fun x => { x with state := 1, waits := true }) up with
      bcells := [(cellKey 0 0 0, { BCell.zero with refreshing := true })] }, [cellKey 0 0 0], imageWho.party, four_of
    (by decide +kernel) (err_of (by decide +kernel))⟩,
   ⟨on (attempt (fun x => { x with state := 1, ue := some 512 }) up), 512, by decide +kernel⟩,
   ⟨on (attempt (fun x => { x with state := 1, copy := [] }) up), _, [], ⟨imgMagic, noSection, 0⟩, four_of
    (by decide +kernel) ⟨by decide +kernel, (yields_eq (by decide +kernel)), rfl, (err_of (by decide +kernel))⟩⟩,
   ⟨on (attempt (fun x => { x with state := 1, copy := image0 }) (withImage up)), _, image0, _, four_of
    (by decide +kernel) ⟨by decide +kernel, (yields_eq (by decide +kernel)), rfl, (ok_of draft0 (by decide +kernel))⟩⟩,
   ⟨on (upIn .unstructured), by decide +kernel⟩⟩

theorem wit_WindowAndPennants :
    (∃ (s : State) (off : Nat) (bytes : List Byte), s.dev.host.held = [] ∧ wellFormed (.hostWindowWrite off bytes) =
      true ∧ s.dev.hostReach = true ∧ s.dev.chip.state = .boot ∧ s.dev.sec.pushGo = false ∧ off + bytes.length ≤
      0x800000) ∧
    (∃ (s : State) (off len : Nat), s.dev.host.held = [] ∧ wellFormed (.hostWindowRead off len) = true ∧
      s.dev.hostReach = true ∧ s.dev.chip.state = .fill) ∧
    (∃ (s : State) (off : Nat) (bytes : List Byte) (d1 : Dev), s.dev.host.held = [] ∧ wellFormed (.hostWindowWrite off
      bytes) = true ∧ s.dev.hostReach = true ∧ s.dev.filled = true ∧ off + bytes.length ≤ s.dev.windowPages * 0x200000
      ∧ s.dev.asleepIn (cutsOf off bytes.length) = [] ∧ ((cutsOf off bytes.length).foldl (fun a c => a.hitPage true c)
      s.dev).hostStore (s.dev.cutPieces (cutsOf off bytes.length)) bytes = .ok d1) ∧
    (∃ (s : State) (off : Nat) (bytes : List Byte) (d1 : Dev), s.dev.host.held = [] ∧ wellFormed (.hostWindowWrite off
      bytes) = true ∧ s.dev.hostReach = true ∧ s.dev.filled = true ∧ off + bytes.length ≤ s.dev.windowPages * 0x200000
      ∧ s.dev.asleepIn (cutsOf off bytes.length) ≠ [] ∧ d1 = s.dev.wakeStacks (s.dev.asleepIn (cutsOf off
      bytes.length))) ∧
    (∃ (s : State) (off len : Nat) (d1 : Dev) (bs : List Byte) (ep : Bool), s.dev.host.held = [] ∧ wellFormed
      (.hostWindowRead off len) = true ∧ s.dev.hostReach = true ∧ s.dev.filled = true ∧ off + len ≤ s.dev.windowPages
      * 0x200000 ∧ s.dev.asleepIn (cutsOf off len) = [] ∧ ((cutsOf off len).foldl (fun a c => a.hitPage false c)
      s.dev).hostLoad (s.dev.cutPieces (cutsOf off len)) = .ok (d1, bs, ep)) ∧
    (∃ (s : State) (off : Nat) (bytes : List Byte), s.dev.host.held = [] ∧ wellFormed (.hostWindowWrite off bytes) =
      true ∧ s.dev.regsLive = true ∧ s.dev.windowPages * 0x200000 < off + bytes.length) ∧
    (∃ (s : State) (off len : Nat) (bytes : List Byte), s.dev.host.held = [] ∧ s.dev.hostReach = true ∧
      s.dev.chip.state = .fault ∧ s.dev.chip.startErr ≠ 0 ∧ wellFormed (.hostWindowRead off len) = true) ∧
    (∃ (s : State) (off len : Nat) (bytes : List Byte), s.dev.host.held = [] ∧ s.dev.hostReach = true ∧
      s.dev.chip.state = .fault ∧ s.dev.chip.startErr ≠ 0 ∧ wellFormed (.hostWindowWrite off bytes) = true) ∧
    (∃ (d : Dev) (write : Bool) (c : Nat × Nat × Nat), d.pennantBad c.1 = true) ∧
    (∃ (d : Dev) (write : Bool) (c : Nat × Nat × Nat), d.pennantBad c.1 = false ∧ d.pennant c.1 = false) ∧
    (∃ (d : Dev) (c : Nat × Nat × Nat), d.pennantBad c.1 = false ∧ d.pennant c.1 = true) ∧
    (∃ (s : State) (w : Fin 4096) (v : Word), s.dev.host.held = [] ∧ s.dev.reaches .host = true ∧ (∃ p ∈ wordPages
      w.val v.toNat, p < s.dev.windowPages ∧ s.dev.pennantBad p = true)) ∧
    (∃ (s : State) (w : Fin 4096) (v : Word), s.dev.host.held = [] ∧ s.dev.reaches .host = true ∧ (∀ p ∈ wordPages
      w.val v.toNat, p < s.dev.windowPages → s.dev.pennantBad p = false)) ∧
    (∃ (s : State) (p : Fin 131072), s.dev.host.waits.contains p.val = true ∧ s.dev.host.stalled = false) ∧
    (∃ (s : State) (p : Fin 131072), s.dev.host.waits.contains p.val = true ∧ s.dev.host.stalled = true) ∧
    (∃ (s : State) (p : Fin 131072), s.dev.host.waits.contains p.val = false) ∧
    (∃ (s : State) (bar : Fin 6) (off : Nat), s.dev.host.held = [] ∧ s.dev.host.linkUp = true) :=
  ⟨⟨on (upIn .boot), 0, [1], by decide +kernel⟩,
   ⟨on (upIn .fill), 0, 1, by decide +kernel⟩,
   ⟨on dom11, 23 * 0x200000, [1], _, four_of (by decide +kernel) ⟨by decide +kernel, by decide +kernel, (ok_of up
    (by decide +kernel))⟩⟩,
   ⟨on { dom11 with clk.stackAwake := 0 }, 23 * 0x200000, [1], _, four_of (by decide +kernel) ⟨by decide +kernel,
    by decide +kernel, rfl⟩⟩,
   ⟨on dom11, 23 * 0x200000, 1, _, _, _, four_of (by decide +kernel) ⟨by decide +kernel, by decide +kernel, (triple_of
    up ([], false) (by decide +kernel))⟩⟩,
   ⟨on up, 0x400000000, [1], by decide +kernel⟩,
   ⟨on { upIn .fault with chip.startErr := 1 }, 0, 1, [], by decide +kernel⟩,
   ⟨on { upIn .fault with chip.startErr := 1 }, 0, 1, [1], by decide +kernel⟩,
   ⟨{ up with badTables := [0x800000] }, true, (5, 0, 1), by decide +kernel⟩,
   ⟨up, true, (0, 0, 0), by decide +kernel⟩,
   ⟨{ up with host.pennants := [(5, true)] }, (5, 0, 1), by decide +kernel⟩,
   ⟨on { up with badTables := [0x800000] }, 0, 0x80000000, by decide +kernel, by decide +kernel, ⟨31,
    by decide +kernel, by decide +kernel, by decide +kernel⟩⟩,
   ⟨on up, 4095, 0xFFFFFFFF, by decide +kernel⟩,
   ⟨on { up with host.waits := [131071] }, 131071, by decide +kernel⟩,
   ⟨on { up with host.waits := [131071], host.stalled := true }, 131071, by decide +kernel⟩,
   ⟨on up, 131071, by decide +kernel⟩,
   ⟨on up, 5, 0, by decide +kernel⟩⟩

theorem wit_HostRings :
    (∃ (s : State) (g : RingNo) (v : Word), s.dev.host.held = [] ∧ s.dev.reaches .host = true ∧ v.getLsbD 0 = true ∧
      s.dev.chip.state = .ready ∧ (s.dev.ring g.val).state = 0 ∧ s.dev.ringOk (s.dev.ring g.val) = true) ∧
    (∃ (s : State) (g : RingNo) (v : Word), s.dev.host.held = [] ∧ s.dev.reaches .host = true ∧ v.getLsbD 0 = true ∧
      s.dev.chip.state = .ready ∧ (s.dev.ring g.val).state = 0 ∧ s.dev.ringOk (s.dev.ring g.val) = false) ∧
    (∃ (s : State) (g : RingNo) (v : Word), s.dev.host.held = [] ∧ s.dev.reaches .host = true ∧ v.getLsbD 0 = true ∧
      (s.dev.chip.state ≠ .ready ∨ (s.dev.ring g.val).state ≠ 0)) ∧
    (∃ (s : State) (g : RingNo) (v : Word), s.dev.host.held = [] ∧ s.dev.reaches .host = true ∧ v.getLsbD 0 = false ∧
      (s.dev.ring g.val).state = 0) ∧
    (∃ (s : State) (g : RingNo) (v : Word), s.dev.host.held = [] ∧ s.dev.reaches .host = true ∧ v.getLsbD 0 = false ∧
      (s.dev.ring g.val).state ≠ 0 ∧ (s.dev.ring g.val).quiet = true) ∧
    (∃ (s : State) (g : RingNo) (v : Word), s.dev.host.held = [] ∧ s.dev.reaches .host = true ∧ v.getLsbD 0 = false ∧
      (s.dev.ring g.val).state ≠ 0 ∧ (s.dev.ring g.val).quiet = false) ∧
    (∃ (s : State) (g : RingNo) (v : Word) (x : Ring), s.dev.host.held = [] ∧ s.dev.hostReady = true ∧ x = s.dev.ring
      g.val ∧ x.state = 1 ∧ 2 ^ x.log2 < (v.setWidth 16 - x.prod).toNat + (x.prod - x.cons).toNat) ∧
    (∃ (s : State) (g : RingNo) (v : Word) (x : Ring), s.dev.host.held = [] ∧ s.dev.hostReady = true ∧ x = s.dev.ring
      g.val ∧ x.state = 1 ∧ (v.setWidth 16 - x.prod).toNat + (x.prod - x.cons).toNat ≤ 2 ^ x.log2) ∧
    (∃ (s : State) (g : RingNo) (v : Word), s.dev.host.held = [] ∧ (s.dev.ring g.val).state ≠ 1) ∧
    (∃ (d : Dev) (g n : Nat) (x : Ring), x = d.ring g ∧ (x.state ≠ 1 ∨ (x.prod - x.start).toNat ≤ x.fetched.length)) ∧
    (∃ (d : Dev) (g n : Nat) (x : Ring) (d1 : Dev) (bs : List Byte), x = d.ring g ∧ x.state = 1 ∧ x.fetched.length <
      (x.prod - x.start).toNat ∧ d.load mgmtWho (d.entryAddr x (x.start + BitVec.ofNat 16 x.fetched.length)) 64 = .ok
      (d1, bs)) ∧
    (∃ (d : Dev) (g : Nat) (c : Nat) (x : Ring) (i : Option Nat), x = d.ring g ∧ x.state = 2) ∧
    (∃ (d : Dev) (g : Nat) (c : Nat) (x : Ring) (i : Option Nat), x = d.ring g ∧ x.state ≠ 2) ∧
    (∃ (s : State) (g : RingNo) (i : Instr) (o : Nat) (d1 : Dev), (i, o) ∈ [(.ringNop g, 0), (.ringMove g, 1),
      (.ringLayout g, 2), (.ringFill g, 3), (.ringGiveBack g, 4)] ∧ (s.dev.clk.coast = true ∨ s.dev.chip.state ≠
      .ready)) ∧
    (∃ (s : State) (g : RingNo) (i : Instr) (o : Nat) (d1 : Dev) (f : RingRun), (i, o) ∈ [(.ringNop g, 0), (.ringMove
      g, 1), (.ringLayout g, 2), (.ringFill g, 3), (.ringGiveBack g, 4)] ∧ s.dev.clk.coast = false ∧ s.dev.chip.state
      = .ready ∧ d1 = s.dev.fetchRing g.val ∧ (d1.ring g.val).fly.find? (fun x => !x.made && !x.failed && decide (min
      (RingEntry.op ⟨x.entry⟩) 5 = o)) = some f) ∧
    (∃ (s : State) (g : RingNo) (i : Instr) (o : Nat) (d1 : Dev), (i, o) ∈ [(.ringNop g, 0), (.ringMove g, 1),
      (.ringLayout g, 2), (.ringFill g, 3), (.ringGiveBack g, 4)] ∧ s.dev.clk.coast = false ∧ s.dev.chip.state =
      .ready ∧ d1 = s.dev.fetchRing g.val ∧ (d1.ring g.val).fly.find? (fun x => !x.made && !x.failed && decide (min
      (RingEntry.op ⟨x.entry⟩) 5 = o)) = none) ∧
    (∃ (d : Dev) (g w : Nat) (r : List (Option Nat)), d.chip.state = .ready ∧ d.clk.coast = false ∧ (d.ring g).state =
      1 ∧ (d.ring g).fetched = some w :: r ∧ ((RingEntry.mk w).fence = true ∨ (RingEntry.mk w).op = 4) ∧ (d.ring
      g).fly ≠ []) ∧
    (∃ (d : Dev) (g w : Nat) (r : List (Option Nat)), d.chip.state = .ready ∧ d.clk.coast = false ∧ (d.ring g).state =
      1 ∧ (d.ring g).fetched = some w :: r ∧ ((RingEntry.mk w).fence = false ∧ (RingEntry.mk w).op ≠ 4 ∨ (d.ring
      g).fly = [])) ∧
    (∃ (d : Dev) (g o : Nat), d.nextEntry g = none) ∧
    (∃ (d : Dev) (g o : Nat) (e : RingEntry), d.nextEntry g = some (some e) ∧ min e.op 5 ≠ o) ∧
    (∃ (d : Dev) (g o : Nat) (e : RingEntry), d.nextEntry g = some (some e) ∧ min e.op 5 = o ∧ d.entryCode e ≠ 0) ∧
    (∃ (d : Dev) (g o : Nat) (e : RingEntry), d.nextEntry g = some (some e) ∧ o = 0 ∧ e.op = 0 ∧ d.entryCode e = 0) ∧
    (∃ (d : Dev) (g o : Nat) (e : RingEntry), d.nextEntry g = some (some e) ∧ o = 4 ∧ e.op = 4 ∧ d.entryCode e = 0) ∧
    (∃ (d : Dev) (g o : Nat) (e : RingEntry), d.nextEntry g = some (some e) ∧ e.op = o ∧ (o = 1 ∨ o = 2 ∨ o = 3) ∧
      d.entryCode e = 0 ∧ d.engineTurn e.region g = false) ∧
    (∃ (d : Dev) (g o : Nat) (e : RingEntry), d.nextEntry g = some (some e) ∧ e.op = o ∧ (o = 1 ∨ o = 2 ∨ o = 3) ∧
      d.entryCode e = 0 ∧ d.engineTurn e.region g = true) ∧
    (∃ (d : Dev) (r g h t : Nat), t = Tab.read (fun _ => 63) d.host.ringTurn r ∧ t < 64 ∧ g < 64 ∧ h < 64) ∧
    (∃ (d : Dev) (r g : Nat) (h : _), h ∈ d.ringsBefore r g) ∧
    (∃ (d : Dev) (g : Nat) (f : RingRun), d.shareFree f.region = false) ∧
    (∃ (d : Dev) (g : Nat) (f : RingRun), d.shareFree f.region = true ∧ d.clk.regionAwake.getLsbD f.region = false) ∧
    (∃ (d : Dev) (g : Nat) (f : RingRun) (d1 : Dev), d.shareFree f.region = true ∧ d.clk.regionAwake.getLsbD f.region
      = true ∧ d.copyEntry g f.index ⟨f.entry⟩ = .ok d1) ∧
    (∃ (d : Dev) (g : Nat) (f : RingRun) (cks : List Nat) (p : Party), d.shareFree f.region = true ∧
      d.clk.regionAwake.getLsbD f.region = true ∧ d.copyEntry g f.index ⟨f.entry⟩ = .error (.busy cks p)) ∧
    (∃ (s : State) (g : RingNo) (f : RingRun) (rest : List RingRun) (d1 : Dev), (s.dev.ring g.val).fly = f :: rest ∧
      d1 = (s.dev.modRing g.val (fun x => Ring.settled { x with fly := rest, cons := x.cons + 1 })).bump (0x2010 +
      0x20 * g.val) ∧ f.made = true ∧ (f.busy = false ∨ s.dev.mirrorFull = false)) ∧
    (∃ (s : State) (g : RingNo) (f : RingRun) (rest : List RingRun) (d1 : Dev), (s.dev.ring g.val).fly = f :: rest ∧
      d1 = (s.dev.modRing g.val (fun x => Ring.settled { x with fly := rest, cons := x.cons + 1 })).bump (0x2010 +
      0x20 * g.val) ∧ f.made = false) ∧
    (∃ (s : State) (g : RingNo) (f : RingRun) (rest : List RingRun) (d1 : Dev), (s.dev.ring g.val).fly = f :: rest ∧
      d1 = (s.dev.modRing g.val (fun x => Ring.settled { x with fly := rest, cons := x.cons + 1 })).bump (0x2010 +
      0x20 * g.val) ∧ f.busy = true ∧ s.dev.twin.st = 2 ∧ 8388608 < s.dev.twin.backlog) ∧
    (∃ (s : State) (g : RingNo) (d1 : Dev), (s.dev.ring g.val).fly = [] ∧ d1 = s.dev.fetchRing g.val ∧ (d1.ring
      g.val).fly = [] ∧ s.dev.clk.coast = false ∧ s.dev.chip.state = .ready ∧ d1.nextEntry g.val = none) ∧
    (∃ (s : State) (g : RingNo) (d1 : Dev), (s.dev.ring g.val).fly = [] ∧ d1 = s.dev.fetchRing g.val ∧ (d1.ring
      g.val).fly = [] ∧ s.dev.clk.coast = false ∧ s.dev.chip.state = .ready ∧ d1.nextEntry g.val = some none) ∧
    (∃ (s : State) (g : RingNo) (d1 : Dev) (e : RingEntry), (s.dev.ring g.val).fly = [] ∧ d1 = s.dev.fetchRing g.val ∧
      (d1.ring g.val).fly = [] ∧ s.dev.clk.coast = false ∧ s.dev.chip.state = .ready ∧ d1.nextEntry g.val = some (some
      e) ∧ 5 ≤ e.op) :=
  ⟨⟨on (ring63 0 0 [] 0 0), 63, 1, by decide +kernel⟩,
   ⟨on dom11, 63, 1, by decide +kernel⟩,
   ⟨on (ring63 1 0 [] 0 0), 63, 1, by decide +kernel⟩,
   ⟨on (ring63 0 0 [] 0 0), 63, 0, by decide +kernel⟩,
   ⟨on (ring63 1 0 [] 0 0), 63, 0, by decide +kernel⟩,
   ⟨on (ring63 1 0 [run0] 0 0), 63, 0, by decide +kernel⟩,
   ⟨on (ring63 1 0 [] 0 0), 63, 17, _, by decide +kernel, by decide +kernel, rfl, by decide +kernel⟩,
   ⟨on (ring63 1 0 [] 0 0), 63, 16, _, by decide +kernel, by decide +kernel, rfl, by decide +kernel⟩,
   ⟨on dom11, 63, 1, by decide +kernel⟩,
   ⟨dom11, 63, 0, _, rfl, by decide +kernel⟩,
   ⟨ring63 1 1 [] 3 11, 63, 0, _, _, _, rfl, by decide +kernel, by decide +kernel, (pair_of up []
    (by decide +kernel))⟩,
   ⟨ring63 2 0 [] 0 0, 63, 4, _, none, rfl, by decide +kernel⟩,
   ⟨ring63 1 0 [] 0 0, 63, 4, _, none, rfl, by decide +kernel⟩,
   ⟨on { dom11 with clk.coast := true }, 63, .ringFill 63, 3, up, by decide +kernel⟩,
   ⟨on (ring63 1 1 [run0] 0 0), 63, .ringFill 63, 3, _, run0, by decide +kernel, by decide +kernel, by decide +kernel,
    rfl, by decide +kernel⟩,
   ⟨on (ring63 1 1 [run0] 0 0), 63, .ringNop 63, 0, _, by decide +kernel, by decide +kernel, by decide +kernel, rfl,
    by decide +kernel⟩,
   ⟨holds63 [run0] [some 16], 63, 16, [], by decide +kernel⟩,
   ⟨holds63 [run0] [some 0], 63, 0, [], by decide +kernel⟩,
   ⟨dom11, 63, 0, by decide +kernel⟩,
   ⟨holds63 [] [some 0], 63, 3, ⟨0⟩, by decide +kernel⟩,
   ⟨holds63 [] [some 4096], 63, 0, ⟨4096⟩, by decide +kernel⟩,
   ⟨holds63 [] [some 0], 63, 0, ⟨0⟩, by decide +kernel⟩,
   ⟨holds63 [] [some (4 + 2 ^ 128)], 63, 4, ⟨4 + 2 ^ 128⟩, by decide +kernel⟩,
   ⟨holds63 [run0] [some fillEntry.w], 63, 3, fillEntry, by decide +kernel⟩,
   ⟨holds63 [] [some fillEntry.w], 63, 3, fillEntry, by decide +kernel⟩,
   ⟨dom11, 11, 63, 5, _, rfl, by decide +kernel⟩,
   ⟨dom11, 11, 63, 5, by decide +kernel⟩,
   ⟨{ dom11 with doms := [(11, { Dom.zero with act := .saving })] }, 63, run0, by decide +kernel⟩,
   ⟨{ dom11 with clk.regionAwake := 0 }, 63, run0, by decide +kernel⟩,
   ⟨dom11, 63, run0, _, by decide +kernel, by decide +kernel, (ok_of up (by decide +kernel))⟩,
   ⟨{ dom11 with bcells := [(cellKey 23 0 0, { BCell.zero with refreshing := true })] }, 63, run0, [cellKey 23 0 0],
    (copyEngineWho 11).party, by decide +kernel, by decide +kernel, (err_of (by decide +kernel))⟩,
   ⟨on (ring63 1 1 [{ run0 with made := true, event := true }] 0 0), 63, { run0 with made := true, event := true },
    [], _, by decide +kernel, rfl, by decide +kernel⟩,
   ⟨on (ring63 1 1 [run0] 0 0), 63, run0, [], _, by decide +kernel, rfl, by decide +kernel⟩,
   ⟨on { ring63 1 1 [run0] 0 0 with twin.st := 2, twin.backlog := 8388609 }, 63, run0, [], _, by decide +kernel, rfl,
    by decide +kernel⟩,
   ⟨on dom11, 63, _, by decide +kernel, rfl, by decide +kernel⟩,
   ⟨on (holds63 [] [none]), 63, _, by decide +kernel, rfl, by decide +kernel⟩,
   ⟨on (holds63 [] [some 5]), 63, _, ⟨5⟩, by decide +kernel, rfl, by decide +kernel⟩⟩

theorem wit_RegisterHalves :
    (∃ (s : State) (who : Agent) (off : Nat), InTurn who s.dev ∧ s.dev.readReach who = true ∧ s.dev.regsLive = true ∧
      off % 4 = 0 ∧ s.dev.badTables.contains (tableWord off) = false ∧ (off < 0x104000 ∨ 0x105010 ≤ off) ∧ off ≠
      0x300080 ∧ (s.dev.reg off).wide = true) ∧
    (∃ (s : State) (who : Agent) (off : Nat) (w : Word), InTurn who s.dev ∧ s.dev.readReach who = true ∧
      s.dev.regsLive = true ∧ off % 8 = 0 ∧ s.dev.badTables.contains (tableWord (off + 4)) = false ∧ (off + 4 <
      0x104000 ∨ 0x105010 ≤ off + 4) ∧ off + 4 ≠ 0x300080 ∧ (s.dev.reg off).wide = true ∧ (s.dev.reg (off + 4)).wide =
      false ∧ s.dev.latchedHalf off = some w) ∧
    (∃ (s : State) (who : Agent) (off : Nat), InTurn who s.dev ∧ s.dev.readReach who = true ∧ s.dev.regsLive = true ∧
      off % 8 = 0 ∧ s.dev.badTables.contains (tableWord off) = false ∧ (off < 0x104000 ∨ 0x105010 ≤ off) ∧ off ≠
      0x300080 ∧ (s.dev.reg off).wide = false) ∧
    (∃ (s : State) (who : Agent) (off : Nat), InTurn who s.dev ∧ s.dev.readReach who = true ∧ s.dev.regsLive = true ∧
      off % 8 = 4 ∧ s.dev.badTables.contains (tableWord off) = false ∧ (off < 0x104000 ∨ 0x105010 ≤ off) ∧ off ≠
      0x300080 ∧ (s.dev.reg off).wide = false ∧ (s.dev.reg (off - 4)).wide = false) ∧
    (∃ (s : State) (who : Agent) (off : Nat), InTurn who s.dev ∧ s.dev.readReach who = true ∧ s.dev.regsLive = true ∧
      off % 8 = 4 ∧ s.dev.badTables.contains (tableWord off) = false ∧ (off < 0x104000 ∨ 0x105010 ≤ off) ∧ off ≠
      0x300080 ∧ (s.dev.reg off).wide = false ∧ (s.dev.reg (off - 4)).wide = true ∧ s.dev.latchedHalf (off - 4) =
      none) ∧
    (∃ (s : State) (who : Agent) (off : Nat), InTurn who s.dev ∧ s.dev.readReach who = true ∧ s.dev.regsLive = true ∧
      off % 8 = 0 ∧ s.dev.badTables.contains off = false ∧ s.dev.badTables.contains (off + 4) = false ∧ (s.dev.reg
      off).wide = true) ∧
    (∃ (s : State) (who : Agent) (off : Nat), InTurn who s.dev ∧ s.dev.readReach who = true ∧ s.dev.regsLive = true ∧
      off % 8 = 0 ∧ s.dev.badTables.contains (tableWord off) = false ∧ s.dev.badTables.contains (tableWord (off + 4))
      = false ∧ (off + 4 < 0x104000 ∨ 0x105010 ≤ off) ∧ off ≠ 0x300080 ∧ (s.dev.reg off).wide = false ∧ (s.dev.reg
      (off + 4)).wide = false) ∧
    (∃ (s : State) (who : Agent) (bar : Fin 6) (off len : Nat), InTurn who s.dev ∧ s.dev.readReach who = true ∧ (bar =
      0 ∨ bar = 4) ∧ off % len ≠ 0) ∧
    (∃ (s : State) (who : Agent) (bar : Fin 6) (off len : Nat), InTurn who s.dev ∧ s.dev.readReach who = true ∧ (bar =
      0 ∨ bar = 4) ∧ len ≠ 4 ∧ len ≠ 8) ∧
    (∃ (s : State) (who : Agent) (bar : Fin 6) (off len : Nat), InTurn who s.dev ∧ s.dev.readReach who = false) ∧
    (∃ (s : State) (who : Agent) (off : Nat) (v : BitVec 64), InTurn who s.dev ∧ s.dev.readReach who = true ∧ off % 4
      = 0 ∧ s.dev.writeActs off = true ∧ (s.dev.reg off).wide = true) ∧
    (∃ (s : State) (who : Agent) (off : Nat) (v : BitVec 64) (w : Word), InTurn who s.dev ∧ s.dev.readReach who = true
      ∧ off % 8 = 0 ∧ s.dev.writeActs (off + 4) = true ∧ (s.dev.reg off).wide = true ∧ (s.dev.reg (off + 4)).wide =
      false ∧ s.dev.heldHalf off = some w) ∧
    (∃ (s : State) (who : Agent) (off : Nat) (v : BitVec 64), InTurn who s.dev ∧ s.dev.readReach who = true ∧ off % 8
      = 0 ∧ s.dev.writeActs (off + 4) = true ∧ (s.dev.reg off).wide = true ∧ (s.dev.reg (off + 4)).wide = false ∧
      s.dev.heldHalf off = none) ∧
    (∃ (s : State) (who : Agent) (off : Nat) (v : BitVec 64), InTurn who s.dev ∧ s.dev.readReach who = true ∧ off % 8
      = 0 ∧ s.dev.writeActs off = true ∧ (s.dev.reg off).wide = true) ∧
    (∃ (s : State) (who : Agent) (off : Nat) (v : BitVec 64), InTurn who s.dev ∧ s.dev.readReach who = true ∧ off % 8
      = 0 ∧ s.dev.writeActs off = true ∧ (s.dev.reg off).wide = false) ∧
    (∃ (s : State) (who : Agent) (off : Nat) (v : BitVec 64), InTurn who s.dev ∧ s.dev.readReach who = true ∧ off % 8
      = 4 ∧ s.dev.writeActs off = true ∧ (s.dev.reg off).wide = false ∧ (s.dev.reg (off - 4)).wide = false) ∧
    (∃ (s : State) (who : Agent) (off : Nat) (v : BitVec 64) (e : Dev), InTurn who s.dev ∧ s.dev.readReach who = true
      ∧ off % 8 = 0 ∧ s.dev.writeActs off = true ∧ (s.dev.reg off).wide = false ∧ e = (s.dev.cleanTable off).putReg
      who off (v.toNat % 2 ^ 32) ∧ e.writeActs (off + 4) = true ∧ (e.reg off).wide = false ∧ (e.reg (off + 4)).wide =
      false) ∧
    (∃ (s : State) (who : Agent) (bar : Fin 6) (off len : Nat) (v : BitVec 64), InTurn who s.dev ∧ (off % len ≠ 0 ∨
      (len ≠ 4 ∧ len ≠ 8))) ∧
    (∃ (s : State) (who : Agent) (off : Nat) (v : BitVec 64), InTurn who s.dev ∧ s.dev.writeActs off = false) ∧
    (∃ (d : Dev) (off : Nat), 0x20 ≤ off ∧ off < 0x1000) ∧
    (∃ (d : Dev) (r o : Nat), r < 12 ∧ o < 0x200000 ∧ d.regionPresent r = false) ∧
    (∃ (d : Dev) (r f : Nat), r < 12 ∧ f < 1024 ∧ d.regionPresent r = true) ∧
    (∃ (d : Dev) (r j : Nat), r < 12 ∧ j < 4 ∧ d.regionPresent r = true) ∧
    (∃ (d : Dev) (c : Nat), c < 1024 ∧ c < d.img.str.customers) ∧
    (∃ (d : Dev) (i k : Nat), i < 4096 ∧ k < 16 ∧ k ∉ [2, 3, 4, 5, 6, 7]) ∧
    (∃ (d : Dev) (i k : Nat), i < 4096 ∧ k ∈ [2, 4, 6]) ∧
    (∃ (d : Dev) (n : Nat), n < 2047) ∧
    (∃ (d : Dev) (w i : Nat), w < 4096 ∧ i < 32) ∧
    (∃ (d : Dev) (who : Agent) (r f v : Nat), r < 12 ∧ f < 1024) ∧
    (∃ (d : Dev) (who : Agent) (c v : Nat), c < 1024) ∧
    (∃ (d : Dev) (who : Agent) (i v : Nat), i < 4096 ∧ (d.req i).state = .free) ∧
    (∃ (d : Dev) (who : Agent) (i v : Nat), i < 4096 ∧ (d.req i).state = .active) ∧
    (∃ (d : Dev) (who : Agent) (st v : Nat), st < 24 ∧ d.regionPresent (st / 2) = true) ∧
    (∃ (d : Dev) (who : Agent) (v n : Nat), n < 12) :=
  ⟨⟨on up, .host, 0x3800010, (fun _ => rfl), by decide +kernel⟩,
   ⟨on { up with latched := [(0x3800010, some 9)] }, .mgmt, 0x3800010, 9, (fun _ => rfl), by decide +kernel⟩,
   ⟨on up, .mgmt, 0, (fun _ => rfl), by decide +kernel⟩,
   ⟨on up, .mgmt, 4, (fun _ => rfl), by decide +kernel⟩,
   ⟨on up, .mgmt, 0x3800014, (fun _ => rfl), by decide +kernel⟩,
   ⟨on up, .host, 0x3800010, (fun _ => rfl), by decide +kernel⟩,
   ⟨on up, .mgmt, 0, (fun _ => rfl), by decide +kernel⟩,
   ⟨on up, .host, 4, 2, 4, (fun _ => rfl), by decide +kernel⟩,
   ⟨on up, .host, 0, 0, 16, (fun _ => rfl), by decide +kernel⟩,
   ⟨on Dev.reset, .host, 5, 0, 4, (fun _ => rfl), by decide +kernel⟩,
   ⟨on up, .host, 0x3800010, 1, (fun _ => rfl), by decide +kernel⟩,
   ⟨on { up with held := [(0x3800010, some 9)] }, .host, 0x3800010, 1, 9, (fun _ => rfl), by decide +kernel⟩,
   ⟨on up, .host, 0x3800010, 1, (fun _ => rfl), by decide +kernel⟩,
   ⟨on up, .mgmt, 0x3800010, 1, (fun _ => rfl), by decide +kernel⟩,
   ⟨on up, .host, 0, 1, (fun _ => rfl), by decide +kernel⟩,
   ⟨on up, .host, 4, 1, (fun _ => rfl), by decide +kernel⟩,
   ⟨on up, .host, 0, 1, _, (fun _ => rfl), four_of (by decide +kernel) ⟨rfl, by decide +kernel⟩⟩,
   ⟨on up, .host, 5, 0, 2, 1, (fun _ => rfl), by decide +kernel⟩,
   ⟨on fresh, .host, 8, 1, (fun _ => rfl), by decide +kernel⟩,
   ⟨up, 0xFFC, by decide +kernel⟩,
   ⟨{ up with fuses.grade := .b 11 }, 11, 0, by decide +kernel⟩,
   ⟨up, 11, 1023, by decide +kernel⟩,
   ⟨up, 11, 3, by decide +kernel⟩,
   ⟨{ up with img.str := { up.img.str with customers := 1 } }, 0, by decide +kernel⟩,
   ⟨up, 4095, 15, by decide +kernel⟩,
   ⟨up, 4095, 6, by decide +kernel⟩,
   ⟨up, 2046, by decide +kernel⟩,
   ⟨up, 4095, 31, by decide +kernel⟩,
   ⟨up, .host, 11, 1023, 1, by decide +kernel⟩,
   ⟨up, .host, 1023, 1, by decide +kernel⟩,
   ⟨serving (entry .free 0) Dom.zero, .host, 4095, 1, by decide +kernel⟩,
   ⟨serving (entry .active 0) Dom.zero, .host, 4095, 1, by decide +kernel⟩,
   ⟨up, .host, 23, 1, by decide +kernel⟩,
   ⟨up, .host, 1, 11, by decide +kernel⟩⟩

theorem wit_SecurityCommands :
    (∃ (s : State) (v : Word), s.dev.host.held = [] ∧ s.dev.secReach = true ∧ v.getLsbD 31 = true ∧ s.dev.sec.pushGo =
      false ∧ s.dev.chip.state = .boot ∧ s.dev.chip.stage = .waitPush ∧ s.dev.chip.startErr = 0) ∧
    (∃ (s : State) (v : Word), s.dev.host.held = [] ∧ s.dev.secReach = true ∧ v.getLsbD 31 = false ∧ s.dev.sec.pushGo
      = false) ∧
    (∃ (s : State) (v : Word), s.dev.host.held = [] ∧ s.dev.secReach = true ∧ v.getLsbD 31 = true ∧ s.dev.sec.pushGo =
      false ∧ (s.dev.chip.state ≠ .boot ∨ s.dev.chip.stage ≠ .waitPush)) ∧
    (∃ (s : State) (v : Word), s.dev.host.held = [] ∧ s.dev.secReach = true ∧ s.dev.sec.pushGo = true) ∧
    (∃ (d : Dev), d.hostBoot = true ∧ (d.sec.stagingLen < 4112 ∨ 0x800000 < d.sec.stagingLen)) ∧
    (∃ (d : Dev), (d.hostBoot = false ∨ (4112 ≤ d.sec.stagingLen ∧ d.sec.stagingLen ≤ 0x800000))) ∧
    (∃ (s : State) (fail : Option Nat) (e : Nat), s.dev.chip.state = .boot ∧ s.dev.chip.stage = .verify ∧
      s.dev.chip.startErr = 0 ∧ s.dev.stagedCheck = e ∧ e ≠ 0) ∧
    (∃ (s : State) (fail : Option Nat), s.dev.chip.stage ≠ .verify) ∧
    (∃ (d : Dev) (img : List Byte) (len : Nat), fieldOf img 0 4 ≠ 0x4D57464B) ∧
    (∃ (x : Sec) (m : Meas), x.log.length < 4096) ∧
    (∃ (x : Sec) (m : Meas), 4096 ≤ x.log.length) ∧
    (∃ (s : State) (v : Word) (ok : Bool), s.dev.host.held = [] ∧ s.dev.secReach = true ∧ v.getLsbD 31 = true ∧
      s.dev.sec.fwValid = true ∧ s.dev.regsLive = true ∧ s.dev.sec.flashRun = none ∧ s.dev.chip.straps.safeBoot =
      true) ∧
    (∃ (s : State) (v : Word) (ok : Bool) (d1 : Dev) (d2 d3 : Dev) (img : List Byte), s.dev.host.held = [] ∧
      s.dev.secReach = true ∧ v.getLsbD 31 = true ∧ s.dev.sec.fwValid = true ∧ s.dev.regsLive = true ∧
      s.dev.sec.flashRun = none ∧ s.dev.chip.straps.safeBoot = false ∧ s.dev.clk.coast = false ∧ fieldAt v.toNat 0 17
      < s.dev.windowPages ∧ d1 = { s.dev with
        sec := { s.dev.sec with flashPage := fieldAt v.toNat 0 17, flashRun := some (fieldAt v.toNat 0 17, ok) } } ∧
      d1.flashRead (fieldAt v.toNat 0 17) = .ok (d2, img) ∧ d3 =
      { (d2.unserve mgmtWho.party) with sec.flashRun := none } ∧ d2.fwCheck img img.length ≠ 0) ∧
    (∃ (s : State) (v : Word) (ok : Bool) (d1 : Dev) (cks : List Nat) (p : Party), s.dev.host.held = [] ∧
      s.dev.secReach = true ∧ v.getLsbD 31 = true ∧ s.dev.sec.fwValid = true ∧ s.dev.regsLive = true ∧
      s.dev.sec.flashRun = none ∧ s.dev.chip.straps.safeBoot = false ∧ s.dev.clk.coast = false ∧ fieldAt v.toNat 0 17
      < s.dev.windowPages ∧ d1 = { s.dev with
        sec := { s.dev.sec with flashPage := fieldAt v.toNat 0 17, flashRun := some (fieldAt v.toNat 0 17, ok) } } ∧
      d1.flashRead (fieldAt v.toNat 0 17) = .error (.busy cks p)) ∧
    (∃ (s : State) (v : Word) (ok : Bool), s.dev.host.held = [] ∧ s.dev.secReach = true ∧ s.dev.sec.flashRun ≠ none) ∧
    (∃ (s : State) (v : Word) (ok : Bool), s.dev.host.held = [] ∧ s.dev.secReach = true ∧ s.dev.sec.fwValid = false) ∧
    (∃ (s : State) (p : SpdmPort) (q : SpdmReq), wellFormed (.spdmRequest p q) = true ∧ s.dev.sec.fwValid = false) ∧
    (∃ (s : State) (q : SpdmReq) (a : BitVec 7), wellFormed (.spdmRequest (.mctp a) q) = true ∧ s.dev.sec.fwValid =
      true ∧ s.dev.chip.state ≠ .thermalOff ∧ a ≠ (if s.dev.chip.straps.twinRole then 0x4B else 0x4A)) ∧
    (∃ (s : State) (q : SpdmReq) (a : BitVec 7), wellFormed (.spdmRequest (.mctp a) q) = true ∧ s.dev.sec.fwValid =
      true ∧ s.dev.chip.state ≠ .thermalOff ∧ a = (if s.dev.chip.straps.twinRole then 0x4B else 0x4A)) ∧
    (∃ (s : State) (q : SpdmReq), wellFormed (.spdmRequest .doe q) = true ∧ s.dev.sec.fwValid = true ∧
      s.dev.chip.state ≠ .thermalOff ∧ s.dev.host.linkUp = true) ∧
    (∃ (d : Dev) (c : Spdm) (q : SpdmReq), ((q.body = .getVersion ∧ q.version = 0x10) ∨ (q.body ≠ .getVersion ∧
      q.version = 0x12))) ∧
    (∃ (d : Dev) (c : Spdm) (q : SpdmReq), ((q.body = .getVersion ∧ q.version ≠ 0x10) ∨ (q.body ≠ .getVersion ∧
      q.version ≠ 0x12))) ∧
    (∃ (s : State), s.dev.host.held = [] ∧ s.dev.secReach = true) ∧
    (∃ (s : State), s.dev.host.held = [] ∧ s.dev.secReach = true ∧ s.dev.sec.fwValid = true ∧ s.dev.sec.repStatus ≠ 1
      ∧ s.dev.sec.treeReady = false) ∧
    (∃ (s : State), s.dev.host.held = [] ∧ s.dev.secReach = true ∧ s.dev.sec.fwValid = true ∧ s.dev.sec.repStatus ≠ 1
      ∧ s.dev.sec.treeReady = true ∧ s.dev.sec.reports < 1024 ∧ s.dev.fuses.reportBits < 1024 ∧ s.dev.sec.topLeaf ≠
      none) ∧
    (∃ (s : State), s.dev.host.held = [] ∧ s.dev.secReach = true ∧ s.dev.sec.fwValid = true ∧ s.dev.sec.repStatus ≠ 1
      ∧ s.dev.sec.treeReady = true ∧ s.dev.sec.reports < 1024 ∧ s.dev.fuses.reportBits < 1024 ∧ s.dev.sec.topLeaf =
      none) ∧
    (∃ (s : State), s.dev.host.held = [] ∧ s.dev.secReach = true ∧ s.dev.sec.fwValid = true ∧ s.dev.sec.repStatus ≠ 1
      ∧ s.dev.sec.treeReady = true ∧ (1024 ≤ s.dev.sec.reports ∨ 1024 ≤ s.dev.fuses.reportBits)) ∧
    (∃ (s : State), s.dev.host.held = [] ∧ s.dev.sec.repStatus = 1) ∧
    (∃ (s : State), s.dev.sec.fwValid = true ∧ s.dev.sec.treeReady = false ∧ s.dev.sec.heldGo = true ∧
      s.dev.sec.reports < 1024 ∧ s.dev.sec.topLeaf = none ∧ s.dev.fuses.reportBits < 1024) ∧
    (∃ (s : State), s.dev.sec.fwValid = true ∧ s.dev.sec.treeReady = false ∧ s.dev.sec.heldGo = false) ∧
    (∃ (s : State), s.dev.sec.repStatus = 1 ∧ s.dev.sec.treeReady = true ∧ s.dev.sec.repBody ≠ []) ∧
    (∃ (s : State), s.dev.sec.repStatus = 1 ∧ s.dev.sec.treeReady = true ∧ s.dev.sec.repBody = []) ∧
    (∃ (s : State), s.dev.sec.repStatus ≠ 1) :=
  ⟨⟨on { (secure fun x => { x with fwValid := false }) with
      chip.state := .boot,
      chip.stage := .waitPush }, 0x80000010, by decide +kernel⟩,
   ⟨on up, 0x10, by decide +kernel⟩,
   ⟨on up, 0x80000000, by decide +kernel⟩,
   ⟨on (secure fun x => { x with fwValid := false, pushGo := true }), 0x80000000, by decide +kernel⟩,
   ⟨{ up with chip.straps.bootSrc := 1 }, by decide +kernel⟩,
   ⟨{ up with chip.straps := ⟨0, false, 0, 0, 0, 0, false⟩ }, by decide +kernel⟩,
   ⟨on { (secure fun x => { x with fwValid := false }) with
      chip.state := .boot,
      chip.stage := .verify }, none, 2, by decide +kernel⟩,
   ⟨on up, none, by decide +kernel⟩,
   ⟨up, [], 0, by decide +kernel⟩,
   ⟨up.sec, ⟨1, 0, 0, 0, 0, []⟩, by decide +kernel⟩,
   ⟨{ up.sec with log := List.replicate 4096 ⟨1, 0, 0, 0, 0, []⟩ }, ⟨1, 0, 0, 0, 0, []⟩, by decide +kernel⟩,
   ⟨on { up with chip.straps.safeBoot := true }, 0x80000000, true, by decide +kernel⟩,
   ⟨on { dom11 with chip.straps.safeBoot := false }, 0x80000017, true, _, _, _, _, four_of (by decide +kernel)
    (four_of (by decide +kernel) ⟨by decide +kernel, rfl, (pair_of up [] (by decide +kernel)), rfl,
    by decide +kernel⟩)⟩,
   ⟨on { dom11 with
      chip.straps.safeBoot := false,
      bcells := [(cellKey 23 0 0, { BCell.zero with refreshing := true })] }, 0x80000017, true, _, [cellKey 23 0 0],
    mgmtWho.party, four_of (by decide +kernel) (four_of (by decide +kernel) ⟨by decide +kernel, rfl, (err_of
    (by decide +kernel))⟩)⟩,
   ⟨on (secure fun x => { x with flashRun := some (0, true) }), 0x80000000, true, by decide +kernel⟩,
   ⟨on (secure fun x => { x with fwValid := false }), 0x80000000, true, by decide +kernel⟩,
   ⟨on (secure fun x => { x with fwValid := false }), .mctp 0x4B, ⟨0x10, .getVersion⟩, by decide +kernel⟩,
   ⟨on up, ⟨0x10, .getVersion⟩, 0x4A, by decide +kernel⟩,
   ⟨on up, ⟨0x10, .getVersion⟩, 0x4B, by decide +kernel⟩,
   ⟨on up, ⟨0x10, .getVersion⟩, by decide +kernel⟩,
   ⟨up, up.sec.doe, ⟨0x10, .getVersion⟩, by decide +kernel⟩,
   ⟨up, up.sec.doe, ⟨0x12, .getVersion⟩, by decide +kernel⟩,
   ⟨on up, by decide +kernel⟩,
   ⟨on up, by decide +kernel⟩,
   ⟨on (secure fun x => { x with treeReady := true, reports := 1, topLeaf := some 0 }), by decide +kernel⟩,
   ⟨on (secure fun x => { x with treeReady := true, reports := 0 }), by decide +kernel⟩,
   ⟨on (secure fun x => { x with treeReady := true, reports := 1024 }), by decide +kernel⟩,
   ⟨on (secure fun x => { x with repStatus := 1 }), by decide +kernel⟩,
   ⟨on (secure fun x => { x with heldGo := true }), by decide +kernel⟩,
   ⟨on up, by decide +kernel⟩,
   ⟨on (secure fun x => { x with repStatus := 1, treeReady := true, repBody := [1] }), by decide +kernel⟩,
   ⟨on (secure fun x => { x with repStatus := 1, treeReady := true }), by decide +kernel⟩,
   ⟨on up, by decide +kernel⟩⟩

/-- The clauses of `SecurityCommands` on an image that verifies: any device whose staged image verifies meets them, in BOOT at
the verification; and any memory that holds an image that verifies at page 23 meets the flash update's. Such images exist
(NOTES.md: one signed outside the package verifies); the kernel cannot evaluate the thousands of hashes of its signature here,
so the verdict is a premise. -/
theorem wit_SecurityCommands_verified (d : Dev) (h : d.stagedCheck = 0) (k : Nat) (hk : k < (d.fuseWork d.staged).length) :
    ∃ s : State, s.dev.chip.state = .boot ∧ s.dev.chip.stage = .verify ∧ s.dev.chip.startErr = 0 ∧ s.dev.stagedCheck = 0 ∧
      k < (s.dev.fuseWork s.dev.staged).length :=
  ⟨on { d with chip.state := .boot, chip.stage := .verify, chip.startErr := 0 }, rfl, rfl, rfl, h, hk⟩
/-- A device whose memory holds `m`, and the same once an update from page 23 has begun. -/
def flashed (m : Mem) : Dev := { dom11 with chip.straps.safeBoot := false, dram := m }
def flashing (m : Mem) : Dev := { flashed m with sec := { (flashed m).sec with flashPage := 23, flashRun := some (23, true) } }
theorem wit_SecurityCommands_flash (m : Mem) (d2 : Dev) (img : List Byte) (h : (flashing m).flashRead 23 = .ok (d2, img))
    (hv : d2.fwCheck img img.length = 0) :
    ∃ (s : State) (v : Word) (ok : Bool) (d1 : Dev) (d2 d3 : Dev) (img : List Byte), s.dev.host.held = [] ∧
      s.dev.secReach = true ∧ v.getLsbD 31 = true ∧ s.dev.sec.fwValid = true ∧ s.dev.regsLive = true ∧
      s.dev.sec.flashRun = none ∧ s.dev.chip.straps.safeBoot = false ∧ s.dev.clk.coast = false ∧
      fieldAt v.toNat 0 17 < s.dev.windowPages ∧
      d1 = { s.dev with sec := { s.dev.sec with flashPage := fieldAt v.toNat 0 17, flashRun := some (fieldAt v.toNat 0 17, ok) } } ∧
      d1.flashRead (fieldAt v.toNat 0 17) = .ok (d2, img) ∧ d3 = { (d2.unserve mgmtWho.party) with sec.flashRun := none } ∧
      d2.fwCheck img img.length = 0 :=
  ⟨on (flashed m), 0x80000017, true, flashing m, d2, _, img, rfl, rfl, rfl, rfl, rfl, rfl, rfl, rfl,
    (show 23 < dom11.windowPages by decide +kernel), rfl, h, rfl, hv⟩

end Sys2Proof.Tests
end

section
/-! What a step keeps of the device (R1, R2): the grade of the part and the canonical form of the memories, command by
command; and the units that each grade has. -/

namespace Sys2Proof.Machine
open Sys2Proof Sys2Proof.Claims

/-- Each command keeps what its meaning keeps. -/
theorem exec_kept (i : Instr) {s t : State} (h : exec i s = .next t) : Kept s.dev t.dev := by
  cases i with
  | matmul r b => exact execMatmul_kept r b s h
  | matmulAcc r b => exact execMatmulAcc_kept r b s h
  | elem r b => exact execElem_kept r b s h
  | reduce r b => exact execReduce_kept r b s h
  | rowstat r b => exact execRowstat_kept r b s h
  | move r b => exact execMove_kept r b s h
  | layout r b => exact execLayout_kept r b s h
  | gather r b => exact execGather_kept r b s h
  | scatter r b => exact execScatter_kept r b s h
  | scatterAcc r b => exact execScatterAcc_kept r b s h
  | stackSeq r b => exact execStackSeq_kept r b s h
  | stackScan r b => exact execStackScan_kept r b s h
  | treeReduce r b => exact execTreeReduce_kept r b s h
  | spanSend r op => exact execSpanSend_kept r op s h
  | spanRecv r b => exact execSpanRecv_kept r b s h
  | waitFlag r b => exact execWaitFlag_kept r b s h
  | setFlag r b => exact execSetFlag_kept r b s h
  | stepEnd r b => exact execStepEnd_kept r b s h
  | bwdScores r b => exact execBwdScores_kept r b s h
  | bwdRowdot r b => exact execBwdRowdot_kept r b s h
  | bwdDscore r b => exact execBwdDscore_kept r b s h
  | opIssue r b => exact execOpIssue_kept r b s h
  | opComplete r b pos => exact execOpComplete_kept r b pos s h
  | remoteFlagSet r => exact execRemoteFlagSet_kept r s h
  | imageLoadDone r b => exact execImageLoadDone_kept r b s h
  | stackDispatch st => exact execStackDispatch_kept st s h
  | loada st slot => exact execLoada_kept st slot s h
  | wxv st d c => exact execWxv_kept st d c s h
  | attnDecode st d c => exact execAttnDecode_kept st d c s h
  | normalise st slot => exact execNormalise_kept st slot s h
  | emit st d c => exact execEmit_kept st d c s h
  | store st d c => exact execStore_kept st d c s h
  | yield st d c => exact execYield_kept st d c s h
  | refslot st d c => exact execRefslot_kept st d c s h
  | seqEnd st d c => exact execSeqEnd_kept st d c s h
  | sequenceEnd st slot => exact execSequenceEnd_kept st slot s h
  | attnRecordMerge st slot => exact execAttnRecordMerge_kept st slot s h
  | streamActivation st d c cycle => exact execStreamActivation_kept st d c cycle s h
  | yieldPoint st d c => exact execYieldPoint_kept st d c s h
  | bankAccess who hint addr len wdata => exact execBankAccess_kept who hint addr len wdata s h
  | refreshDue st d c => exact execRefreshDue_kept st d c s h
  | refreshDone st d c => exact execRefreshDone_kept st d c s h
  | stackRuleWrite st v => exact execStackRuleWrite_kept st v s h
  | dieApplyRule st d => exact execDieApplyRule_kept st d s h
  | modeTimeout st => exact execModeTimeout_kept st s h
  | dropKeep st => exact execDropKeep_kept st s h
  | scanRegionMerge r => exact execScanRegionMerge_kept r s h
  | scanListArrival r => exact execScanListArrival_kept r s h
  | scanMergeTimeout r => exact execScanMergeTimeout_kept r s h
  | reconstruction st bank row chunk => exact execReconstruction_kept st bank row chunk s h
  | deltaGrant st => exact execDeltaGrant_kept st s h
  | deltaApply st check => exact execDeltaApply_kept st check s h
  | stripeLockGrant st bank row chunk => exact execStripeLockGrant_kept st bank row chunk s h
  | narrowWrite who addr bytes => exact execNarrowWrite_kept who addr bytes s h
  | fullStripeWrite who addr bytes => exact execFullStripeWrite_kept who addr bytes s h
  | stripeRepair st bank row chunk twin => exact execStripeRepair_kept st bank row chunk twin s h
  | scrubVisit st => exact execScrubVisit_kept st s h
  | rowRepair st d bank row => exact execRowRepair_kept st d bank row s h
  | flipArm st v => exact execFlipArm_kept st v s h
  | remapLogRead st => exact execRemapLogRead_kept st s h
  | pageRetireLogRead st => exact execPageRetireLogRead_kept st s h
  | fillComplete => exact execFillComplete_kept s h
  | fillTimeout => exact execFillTimeout_kept s h
  | submit n => exact execSubmit_kept n s h
  | cancel n => exact execCancel_kept n s h
  | park n => exact execPark_kept n s h
  | resume n => exact execResume_kept n s h
  | release n => exact execRelease_kept n s h
  | compose dom => exact execCompose_kept dom s h
  | phaseRelease dom => exact execPhaseRelease_kept dom s h
  | tokenDelivery n => exact execTokenDelivery_kept n s h
  | packingDone n => exact execPackingDone_kept n s h
  | expansionDone n => exact execExpansionDone_kept n s h
  | parkTtlExpire n => exact execParkTtlExpire_kept n s h
  | custCredit c n => exact execCustCredit_kept c n s h
  | serveKick v => exact execServeKick_kept v s h
  | admitBundle => exact execAdmitBundle_kept s h
  | retire => exact execRetire_kept s h
  | suspendComplete dom => exact execSuspendComplete_kept dom s h
  | saveComplete r => exact execSaveComplete_kept r s h
  | suspendedStepContinue dom => exact execSuspendedStepContinue_kept dom s h
  | domPreemptWrite dom v => exact execDomPreemptWrite_kept dom v s h
  | domainStall dom => exact execDomainStall_kept dom s h
  | queueEntryWrite r q => exact execQueueEntryWrite_kept r q s h
  | queueRelease r q => exact execQueueRelease_kept r q s h
  | queueMark r q => exact execQueueMark_kept r q s h
  | queueRewind r q => exact execQueueRewind_kept r q s h
  | queueStall r q => exact execQueueStall_kept r q s h
  | fabricMessage src dst cls => exact execFabricMessage_kept src dst cls s h
  | linkReplay r => exact execLinkReplay_kept r s h
  | treeRoundComplete dom late => exact execTreeRoundComplete_kept dom late s h
  | treeTimeout dom => exact execTreeTimeout_kept dom s h
  | spanTrainResult p res => exact execSpanTrainResult_kept p res s h
  | spanRetrain p => exact execSpanRetrain_kept p s h
  | spanMessageArrival p channel bytes => exact execSpanMessageArrival_kept p channel bytes s h
  | spanTreeRound turn => exact execSpanTreeRound_kept turn s h
  | spanTimeout r b pos => exact execSpanTimeout_kept r b pos s h
  | twinAttach => exact execTwinAttach_kept s h
  | twinAttached hello areas => exact execTwinAttached_kept hello areas s h
  | twinDetach => exact execTwinDetach_kept s h
  | twinHeartbeatSend => exact execTwinHeartbeatSend_kept s h
  | twinHbToggle => exact execTwinHbToggle_kept s h
  | heartbeatTimeout => exact execHeartbeatTimeout_kept s h
  | ackTimeout => exact execAckTimeout_kept s h
  | twinRecordApply item => exact execTwinRecordApply_kept item s h
  | twinAckReceived => exact execTwinAckReceived_kept s h
  | twinRepairRead addr len => exact execTwinRepairRead_kept addr len s h
  | twinPromote v => exact execTwinPromote_kept v s h
  | structCommit v => exact execStructCommit_kept v s h
  | structCopyDone => exact execStructCopyDone_kept s h
  | hostWindowWrite off bytes => exact execHostWindowWrite_kept off bytes s h
  | hostWindowRead off len => exact execHostWindowRead_kept off len s h
  | atomicOpRequest bar off => exact execAtomicOpRequest_kept bar off s h
  | configRequest q => exact execConfigRequest_kept q s h
  | pennantGive w v => exact execPennantGive_kept w v s h
  | pennantTake w v => exact execPennantTake_kept w v s h
  | pennantStall page => exact execPennantStall_kept page s h
  | ringEnable g v => exact execRingEnable_kept g v s h
  | ringDoorbell g v => exact execRingDoorbell_kept g v s h
  | ringNop g => exact execRingNop_kept g s h
  | ringMove g => exact execRingMove_kept g s h
  | ringLayout g => exact execRingLayout_kept g s h
  | ringFill g => exact execRingFill_kept g s h
  | ringGiveBack g => exact execRingGiveBack_kept g s h
  | ringEntryComplete g => exact execRingEntryComplete_kept g s h
  | sourceDoorbell v => exact execSourceDoorbell_kept v s h
  | eventRaise src => exact execEventRaise_kept src s h
  | eventWithdraw src => exact execEventWithdraw_kept src s h
  | msixUnmask vector => exact execMsixUnmask_kept vector s h
  | ecClaim who t => exact execEcClaim_kept who t s h
  | ecEoi who t v => exact execEcEoi_kept who t v s h
  | ecPendingWrite who w v => exact execEcPendingWrite_kept who w v s h
  | ecHoldTake who v => exact execEcHoldTake_kept who v s h
  | ecHoldRelease who v => exact execEcHoldRelease_kept who v s h
  | ecHoldExpire => exact execEcHoldExpire_kept s h
  | ecModeWrite v => exact execEcModeWrite_kept v s h
  | clkSelWrite d v => exact execClkSelWrite_kept d v s h
  | pllLock d p => exact execPllLock_kept d p s h
  | tdieAutoSwitch d => exact execTdieAutoSwitch_kept d s h
  | floorEnforce d => exact execFloorEnforce_kept d s h
  | pllIdleStop d p => exact execPllIdleStop_kept d p s h
  | powerCompare d mean => exact execPowerCompare_kept d mean s h
  | regionSleep r => exact execRegionSleep_kept r s h
  | stackSelfRefresh st => exact execStackSelfRefresh_kept st s h
  | wakeGrant q => exact execWakeGrant_kept q s h
  | regionAwake r => exact execRegionAwake_kept r s h
  | stackSrExit st => exact execStackSrExit_kept st s h
  | referenceLoss => exact execReferenceLoss_kept s h
  | referenceReturn => exact execReferenceReturn_kept s h
  | thermalSample readings => exact execThermalSample_kept readings s h
  | graceExpire d => exact execGraceExpire_kept d s h
  | coolingStepDown d => exact execCoolingStepDown_kept d s h
  | thermalTrip sensor => exact execThermalTrip_kept sensor s h
  | thermalRestart => exact execThermalRestart_kept s h
  | vddKeepUp => exact execVddKeepUp_kept s h
  | pwrgoodRise lands => exact execPwrgoodRise_kept lands s h
  | pwrgoodFall => exact execPwrgoodFall_kept s h
  | perstAssert => exact execPerstAssert_kept s h
  | perstDeassert => exact execPerstDeassert_kept s h
  | hotReset cause => exact execHotReset_kept cause s h
  | deviceReset v => exact execDeviceReset_kept v s h
  | romReady found => exact execRomReady_kept found s h
  | fwPush v => exact execFwPush_kept v s h
  | firmwareVerify fuseFail => exact execFirmwareVerify_kept fuseFail s h
  | bootLinksTrained => exact execBootLinksTrained_kept s h
  | linkTrainTimeout => exact execLinkTrainTimeout_kept s h
  | flashUpdate v flashOk => exact execFlashUpdate_kept v flashOk s h
  | spdmRequest port q => exact execSpdmRequest_kept port q s h
  | measRunningRead => exact execMeasRunningRead_kept s h
  | reportGo => exact execReportGo_kept s h
  | reportDone => exact execReportDone_kept s h
  | reportTreeReady => exact execReportTreeReady_kept s h
  | iodieLost io => exact execIodieLost_kept io s h
  | twinPresentInChange level => exact execTwinPresentInChange_kept level s h
  | twinHbInEdge level => exact execTwinHbInEdge_kept level s h
  | bypass => exact execBypass_kept s h
  | idcode => exact execIdcode_kept s h
  | samplePreload shift => exact execSamplePreload_kept shift s h
  | extest => exact execExtest_kept s h
  | clamp => exact execClamp_kept s h
  | highz => exact execHighz_kept s h
  | reg64LowerRead who bar off len => exact execReg64LowerRead_kept who bar off len s h
  | registerWrite who bar off len v => exact execRegisterWrite_kept who bar off len v s h
  | vddKeepLoss => exact execVddKeepLoss_kept s h
  | linkHeartbeatArrival => exact execLinkHeartbeatArrival_kept s h
  | attachFailure why => exact execAttachFailure_kept why s h

theorem idle_kept (s : State) : Kept s.dev s.idle.dev := by
  have h := Dev.cycle_kept s.dev
  exact ⟨h.grade, h.mems⟩

/-- A step keeps the grade and the canonical form of the memories, on an empty queue as with a command at the front. -/
theorem step_kept {s t : State} (h : step s = .next t) : Kept s.dev t.dev := by
  unfold step at h
  split at h
  · cases h
    exact idle_kept s
  · have hk := exec_kept _ h
    exact hk

/-! ### The units of a grade (R1, R2) -/

section SameGrade
variable {d e : Dev} (h : e.fuses.grade = d.fuses.grade)
include h

theorem Dev.gradeCode_of_grade_eq : e.gradeCode = d.gradeCode := by unfold Dev.gradeCode; rw [h]

theorem Dev.spanPresent_of_grade_eq : e.spanPresent = d.spanPresent := by unfold Dev.spanPresent; rw [h]

theorem Dev.bwdPresent_of_grade_eq : e.bwdPresent = d.bwdPresent := by unfold Dev.bwdPresent; rw [h]

theorem Dev.tdiePresent_of_grade_eq (n : Nat) : e.tdiePresent n = d.tdiePresent n := by unfold Dev.tdiePresent; rw [h]

theorem Dev.regionPresent_of_grade_eq (n : Nat) : e.regionPresent n = d.regionPresent n :=
  Dev.tdiePresent_of_grade_eq h (n / 2)

theorem Dev.stackPresent_of_grade_eq (n : Nat) : e.stackPresent n = d.stackPresent n :=
  Dev.regionPresent_of_grade_eq h (n / 2)

end SameGrade

/-- The present regions depend on the grade only, so they can be listed on the device after reset with that grade. -/
theorem Dev.regionsPresent_eq (d : Dev) :
    d.regionsPresent = { Dev.reset with fuses.grade := d.fuses.grade }.regionsPresent := by
  unfold Dev.regionsPresent
  exact List.filter_congr fun n _ => Dev.regionPresent_of_grade_eq rfl n

theorem Dev.stacksPresent_eq (d : Dev) :
    d.stacksPresent = { Dev.reset with fuses.grade := d.fuses.grade }.stacksPresent := by
  unfold Dev.stacksPresent
  exact List.filter_congr fun n _ => Dev.stackPresent_of_grade_eq rfl n

/-- No region and no stack is fused off in a YK24-A or YK24-S part. -/
theorem Dev.allPresent {d : Dev} (h : d.fuses.grade = .a ∨ d.fuses.grade = .s) :
    d.regionsPresent.length = 12 ∧ d.stacksPresent.length = 24 := by
  rw [Dev.regionsPresent_eq, Dev.stacksPresent_eq]
  rcases h with h | h <;> rw [h] <;> exact ⟨rfl, rfl⟩

/-- A YK24-B part lacks the two regions of its fused tensor die. -/
theorem Dev.regionPresent_of_grade_b {d : Dev} {f : TDie} (h : d.fuses.grade = .b f) (n : Nat) :
    d.regionPresent n = true ↔ n < 12 ∧ n ≠ 2 * f.val ∧ n ≠ 2 * f.val + 1 := by
  simp only [Dev.regionPresent, Dev.tdiePresent, h, Bool.and_eq_true, Bool.not_eq_true', decide_eq_true_eq,
    decide_eq_false_iff_not]
  omega

theorem lengths_of_fused_die (f : TDie) :
    { Dev.reset with fuses.grade := .b f }.regionsPresent.length = 10 ∧
      { Dev.reset with fuses.grade := .b f }.stacksPresent.length = 20 := by
  decide +revert

theorem Dev.lengths_of_grade_b {d : Dev} {f : TDie} (h : d.fuses.grade = .b f) :
    d.regionsPresent.length = 10 ∧ d.stacksPresent.length = 20 := by
  rw [Dev.regionsPresent_eq, Dev.stacksPresent_eq, h]
  exact lengths_of_fused_die f

/-- Settles O6: every step keeps the grade that the fuses give, on which alone the present units depend. -/
theorem stepKeepsGrade : Obligations.StepKeepsGrade := by
  refine ⟨fun s t hst => ?_, fun d n => rfl, fun d h => ?_, fun d h => ?_, fun d f h => ?_⟩
  · have hg := (step_kept hst).grade
    exact ⟨Dev.gradeCode_of_grade_eq hg, Dev.spanPresent_of_grade_eq hg, Dev.bwdPresent_of_grade_eq hg, fun n =>
      ⟨Dev.tdiePresent_of_grade_eq hg n, Dev.regionPresent_of_grade_eq hg n, Dev.stackPresent_of_grade_eq hg n⟩⟩
  · obtain ⟨hr, hs⟩ := Dev.allPresent (.inl h)
    exact ⟨hr, hs, by simp only [Dev.spanPresent, h], by simp only [Dev.bwdPresent, h]⟩
  · obtain ⟨hr, hs⟩ := Dev.allPresent (.inr h)
    exact ⟨hr, hs, by simp only [Dev.spanPresent, h], by simp only [Dev.bwdPresent, h]⟩
  · obtain ⟨hr, hs⟩ := Dev.lengths_of_grade_b h
    exact ⟨hr, hs, by simp only [Dev.spanPresent, h], by simp only [Dev.bwdPresent, h],
      Dev.regionPresent_of_grade_b h⟩

end Sys2Proof.Machine
end

section
/-! Register accesses (R10 to R12): what a read answers and latches, and what a write holds and puts. -/

namespace Sys2Proof.Machine
open Sys2Proof Sys2Proof.Claims

/-! ### An access comes in its turn, and reaches the registers -/

theorem Dev.ask_of_inTurn {d : Dev} {who : Agent} (h : InTurn who d) (i : Instr) (f : Dev → Dev) :
    d.ask who i f = f d := by
  cases who with
  | host => simp [Dev.ask, Dev.inOrder, h rfl]
  | mgmt => rfl

section Access
variable {s : State} {who : Agent} {bar : Fin 6} {off len : Nat} {v : BitVec 64} (ht : InTurn who s.dev)
include ht

theorem reg64LowerRead_does (hr : s.dev.readReach who = true) :
    Does (.reg64LowerRead who bar off len) s (s.dev.readReg who bar.val off len) := by
  show execReg64LowerRead who bar off len s = _
  rw [execReg64LowerRead, State.asked, State.always_next, Dev.ask_of_inTurn ht, hr, Dev.when_true]

theorem reg64LowerRead_unreached (hr : s.dev.readReach who = false) :
    Does (.reg64LowerRead who bar off len) s s.dev := by
  show execReg64LowerRead who bar off len s = _
  rw [execReg64LowerRead, State.asked, State.always_next, Dev.ask_of_inTurn ht, hr, Dev.when_false]

theorem registerWrite_does (hr : s.dev.readReach who = true) :
    Does (.registerWrite who bar off len v) s (s.dev.writeReg who bar.val off len v.toNat) := by
  show execRegisterWrite who bar off len v s = _
  rw [execRegisterWrite, State.asked, State.always_next, Dev.ask_of_inTurn ht, hr, Dev.when_true]

/-- A write that would change nothing changes nothing, whether it reaches the registers or not. -/
theorem registerWrite_idle (hw : s.dev.writeReg who bar.val off len v.toNat = s.dev) :
    Does (.registerWrite who bar off len v) s s.dev := by
  show execRegisterWrite who bar off len v s = _
  rw [execRegisterWrite, State.asked, State.always_next, Dev.ask_of_inTurn ht, Dev.when, hw, ite_self]

end Access

/-! ### Reads (R10, R11) -/

section Read
variable (d : Dev) (who : Agent) {off len : Nat}

theorem Dev.readReg_32 (h : off % 4 = 0) :
    d.readReg who 0 off 4 = (d.read32 who off).1.readAnswer who 0 off 4 (d.read32 who off).2 := by
  simp [Dev.readReg, h]

theorem Dev.readReg_64 (h : off % 8 = 0) :
    d.readReg who 0 off 8 = (d.read64 who off).1.readAnswer who 0 off 8 (d.read64 who off).2 := by
  simp [Dev.readReg, h]

/-- An access that is not aligned, or of another width, reads zero on both BARs that hold registers. -/
theorem Dev.readReg_zero {bar : Nat} (hb : bar = 0 ∨ bar = 4) (h : off % len ≠ 0 ∨ len ≠ 4 ∧ len ≠ 8) :
    d.readReg who bar off len = d.readAnswer who bar off len 0 := by
  rcases hb with rfl | rfl <;> rcases h with h | ⟨h4, h8⟩ <;> simp [Dev.readReg, *]

/-- A 32-bit read shows its register: the registers are live, the word's parity holds, and the offset is none of those
whose read does something of its own (`EC_CLAIM`, `MEAS_RUNNING`). -/
structure Dev.PlainRead (d : Dev) (off : Nat) : Prop where
  live : d.regsLive = true
  good : d.badTables.contains (tableWord off) = false
  noClaim : off < 0x104000 ∨ 0x105010 ≤ off
  noMeas : off ≠ 0x300080

/-- A read of the upper half of the 64-bit register at `off`: the latched half, once; or the current one. -/
def Dev.upperRead (d : Dev) (off : Nat) : Dev × Nat :=
  match d.latchedHalf off with
  | some w => (d.setLatchedHalf off none, w.toNat)
  | none => (d, (d.reg off).value / 2 ^ 32)

variable {d}

theorem Dev.upperRead_latched {w : Word} (h : d.latchedHalf off = some w) :
    d.upperRead off = (d.setLatchedHalf off none, w.toNat) := by
  simp only [Dev.upperRead, h]

theorem Dev.upperRead_current (h : d.latchedHalf off = none) :
    d.upperRead off = (d, (d.reg off).value / 2 ^ 32) := by
  simp only [Dev.upperRead, h]

theorem Dev.read32_plain (h : d.PlainRead off) : d.read32 who off =
    if (d.reg off).wide then
      ((d.afterRead off).setLatchedHalf off (some (BitVec.ofNat 32 ((d.reg off).value / 2 ^ 32))),
        (d.reg off).value % 2 ^ 32)
    else if off % 8 = 4 && (d.reg (off - 4)).wide then d.upperRead (off - 4)
    else (d, (d.reg off).value) := by
  obtain ⟨hl, hg, hc, hm⟩ := h
  have hc' : ¬(0x104000 ≤ off ∧ off < 0x105010) := by omega
  cases hh : d.latchedHalf (off - 4) <;>
    simp only [Dev.read32, hl, hg, measRunningAt, hm, Bool.not_true, Bool.false_and, Bool.false_eq_true, ite_false,
      Bool.and_eq_true, decide_eq_true_eq, hc', false_and, Dev.upperRead, hh]

theorem Dev.read32_lower (h : d.PlainRead off) (hw : (d.reg off).wide = true) : d.read32 who off =
    ((d.afterRead off).setLatchedHalf off (some (BitVec.ofNat 32 ((d.reg off).value / 2 ^ 32))),
      (d.reg off).value % 2 ^ 32) := by
  rw [Dev.read32_plain who h, if_pos hw]

theorem Dev.read32_upper_latched {w : Word} (h : d.PlainRead (off + 4)) (ha : off % 8 = 0)
    (hw : (d.reg off).wide = true) (hu : (d.reg (off + 4)).wide = false) (hl : d.latchedHalf off = some w) :
    d.read32 who (off + 4) = (d.setLatchedHalf off none, w.toNat) := by
  have h4 : (off + 4) % 8 = 4 := by omega
  simp [Dev.read32_plain who h, h4, hw, hu, Dev.upperRead_latched hl]

theorem Dev.read32_upper_current (h : d.PlainRead off) (ha : off % 8 = 4) (hw : (d.reg off).wide = false)
    (hl : (d.reg (off - 4)).wide = true) (hn : d.latchedHalf (off - 4) = none) :
    d.read32 who off = (d, (d.reg (off - 4)).value / 2 ^ 32) := by
  simp [Dev.read32_plain who h, ha, hw, hl, Dev.upperRead_current hn]

/-- A 32-bit register, which is no upper half, is read alone. -/
theorem Dev.read32_narrow (h : d.PlainRead off) (hw : (d.reg off).wide = false)
    (hl : off % 8 = 4 → (d.reg (off - 4)).wide = false) : d.read32 who off = (d, (d.reg off).value) := by
  by_cases ha : off % 8 = 4
  · simp [Dev.read32_plain who h, hw, hl ha]
  · simp [Dev.read32_plain who h, hw, ha]

theorem Dev.read64_wide (hl : d.regsLive = true) (h0 : d.badTables.contains off = false)
    (h4 : d.badTables.contains (off + 4) = false) (hw : (d.reg off).wide = true) :
    d.read64 who off = (d.afterRead off, (d.reg off).value) := by
  simp only [Dev.read64, hl, h0, h4, hw, Bool.and_true, Bool.not_false, if_true]

/-- Two 32-bit registers are read as one 64-bit word, the lower offset in its lower half. -/
theorem Dev.read64_narrow (h0 : d.PlainRead off) (h4 : d.PlainRead (off + 4)) (ha : off % 8 = 0)
    (hw : (d.reg off).wide = false) (hu : (d.reg (off + 4)).wide = false) :
    d.read64 who off = (d, (d.reg off).value + (d.reg (off + 4)).value * 2 ^ 32) := by
  have hr0 := Dev.read32_narrow who h0 hw (by omega)
  have hr4 := Dev.read32_narrow who h4 hu fun _ => hw
  simp only [Dev.read64, hw, Bool.and_false, Bool.false_and, Bool.false_eq_true, if_false, hr0, hr4, atBit]

end Read

/-! ### Writes (R12) -/

section Write
variable (d : Dev) (who : Agent) {off len : Nat}

theorem Dev.writeReg_32 (h : off % 4 = 0) (v : Nat) : d.writeReg who 0 off 4 v = d.write32 who off (v % 2 ^ 32) := by
  simp [Dev.writeReg, h]

theorem Dev.writeReg_64 (h : off % 8 = 0) (v : Nat) : d.writeReg who 0 off 8 v = d.write64 who off v := by
  simp [Dev.writeReg, h]

theorem Dev.writeReg_odd (bar : Nat) (h : off % len ≠ 0 ∨ len ≠ 4 ∧ len ≠ 8) (v : Nat) :
    d.writeReg who bar off len v = d := by
  rcases h with h | ⟨h4, h8⟩ <;> simp [Dev.writeReg, *]

theorem Dev.write32_ignored (h : d.writeActs off = false) (v : Nat) : d.write32 who off v = d := by
  simp [Dev.write32, h]

variable {d}

theorem Dev.write32_lower (h : d.writeActs off = true) (hw : (d.reg off).wide = true) (v : Nat) :
    d.write32 who off v = d.setHeldHalf off (some (BitVec.ofNat 32 v)) := by
  simp [Dev.write32, h, hw]

/-- The lower half that a write of the upper half writes with it. -/
def Dev.lowerHalf (d : Dev) (off : Nat) : Nat :=
  match d.heldHalf off with
  | some w => w.toNat
  | none => (d.reg off).value % 2 ^ 32

theorem Dev.lowerHalf_held {w : Word} (h : d.heldHalf off = some w) : d.lowerHalf off = w.toNat := by
  simp only [Dev.lowerHalf, h]

theorem Dev.lowerHalf_current (h : d.heldHalf off = none) : d.lowerHalf off = (d.reg off).value % 2 ^ 32 := by
  simp only [Dev.lowerHalf, h]

theorem Dev.write32_upper (h : d.writeActs (off + 4) = true) (ha : off % 8 = 0) (hw : (d.reg off).wide = true)
    (hu : (d.reg (off + 4)).wide = false) (v : Nat) : d.write32 who (off + 4) v =
      (((d.cleanTable (off + 4)).cleanTable off).setHeldHalf off none).putReg who off
        (d.lowerHalf off + v * 2 ^ 32) := by
  have h4 : (off + 4) % 8 = 4 := by omega
  cases hh : d.heldHalf off <;> simp [Dev.write32, Dev.lowerHalf, h, hu, h4, hw, hh, atBit]

theorem Dev.write32_narrow (h : d.writeActs off = true) (hw : (d.reg off).wide = false)
    (hl : off % 8 = 4 → (d.reg (off - 4)).wide = false) (v : Nat) :
    d.write32 who off v = (d.cleanTable off).putReg who off v := by
  by_cases ha : off % 8 = 4
  · simp [Dev.write32, h, hw, hl ha]
  · simp [Dev.write32, h, hw, ha]

theorem Dev.write64_wide (h : d.writeActs off = true) (hw : (d.reg off).wide = true) (v : Nat) :
    d.write64 who off v =
      (((d.cleanTable off).cleanTable (off + 4)).setHeldHalf off none).putReg who off v := by
  simp [Dev.write64, h, hw]

theorem Dev.write64_narrow (hw : (d.reg off).wide = false) (v : Nat) :
    d.write64 who off v = (d.write32 who off (v % 2 ^ 32)).write32 who (off + 4) (v / 2 ^ 32) := by
  simp [Dev.write64, hw]

end Write

end Sys2Proof.Machine
end

section
/-! What single registers show, and what writing them changes (R9, R366): the fields of a register word, the offsets of
the units in BAR0, and the registers of the scope's statement. -/

namespace Sys2Proof.Machine
open Sys2Proof Sys2Proof.Claims

/-! ### Words of a register -/

@[simp] theorem regWord_nil : regWord [] = 0 := rfl

/-- What the fields before have placed is added at the end. -/
theorem foldl_fields (fs : List (Nat × Nat × Nat)) (a : Nat) :
    fs.foldl (fun a f => a + atBit (f.1 % 2 ^ f.2.2) f.2.1) a = a + regWord fs := by
  induction fs generalizing a with
  | nil => rfl
  | cons f r ih =>
    rw [regWord, List.foldl_cons, List.foldl_cons, ih, ih (0 + _), Nat.zero_add, Nat.add_assoc]

@[simp] theorem regWord_cons (f : Nat × Nat × Nat) (fs : List (Nat × Nat × Nat)) :
    regWord (f :: fs) = f.1 % 2 ^ f.2.2 * 2 ^ f.2.1 + regWord fs := by
  rw [regWord, List.foldl_cons, foldl_fields, Nat.zero_add, atBit]

/-- A flag stands in its register as one bit. -/
theorem bitF_placed (b : Bool) (lo : Nat) :
    (bitF b lo).1 % 2 ^ (bitF b lo).2.2 * 2 ^ (bitF b lo).2.1 = if b then 2 ^ lo else 0 := by
  cases b <;> simp [bitF, boolBit]

/-- Fields from bit `m` up leave the bits below it clear. -/
theorem two_pow_dvd_regWord {m : Nat} {fs : List (Nat × Nat × Nat)} (h : ∀ f ∈ fs, m ≤ f.2.1) :
    2 ^ m ∣ regWord fs := by
  induction fs with
  | nil => exact Nat.dvd_zero _
  | cons f r ih =>
    rw [List.forall_mem_cons] at h
    rw [regWord_cons]
    exact Nat.dvd_add (Nat.dvd_mul_left_of_dvd (Nat.pow_dvd_pow 2 h.1) _) (ih h.2)

theorem regWord_cons_mod {m : Nat} (f : Nat × Nat × Nat) {fs : List (Nat × Nat × Nat)}
    (h : ∀ g ∈ fs, m ≤ g.2.1) : regWord (f :: fs) % 2 ^ m = f.1 % 2 ^ f.2.2 * 2 ^ f.2.1 % 2 ^ m := by
  obtain ⟨k, hk⟩ := two_pow_dvd_regWord h
  rw [regWord_cons, hk, Nat.add_mul_mod_self_left]

theorem bitMap_succ (n : Nat) (p : Nat → Bool) : bitMap (n + 1) p = 2 ^ n * (p n).toNat + bitMap n p := by
  unfold bitMap
  rw [List.range_succ, List.map_append, List.sum_append, Nat.add_comm]
  cases h : p n <;> simp [atBit, boolBit, h]

theorem bitMap_lt (n : Nat) (p : Nat → Bool) : bitMap n p < 2 ^ n := by
  induction n with
  | zero => exact Nat.one_pos
  | succ n ih =>
    have hb := Nat.mul_le_mul_left (2 ^ n) (Bool.toNat_le (p n))
    rw [bitMap_succ, Nat.pow_succ]
    omega

/-- Bit `i` of a bit map is the flag of number `i`. -/
theorem testBit_bitMap (n : Nat) (p : Nat → Bool) (i : Nat) : (bitMap n p).testBit i = (decide (i < n) && p i) := by
  induction n with
  | zero => simp [bitMap]
  | succ n ih =>
    rw [bitMap_succ, Nat.testBit_two_pow_mul_add _ (bitMap_lt n p)]
    rcases Nat.lt_trichotomy i n with hi | rfl | hi
    · rw [if_pos hi, ih, decide_eq_true hi, decide_eq_true (Nat.lt_succ_of_lt hi)]
    · cases h : p i <;> simp
    · have hs : ¬ i < n + 1 := by omega
      have h2 : (p n).toNat < 2 ^ (i - n) :=
        Nat.lt_of_lt_of_le (Bool.toNat_lt (p n)) (Nat.pow_le_pow_right Nat.two_pos (Nat.sub_pos_of_lt hi))
      rw [if_neg (by omega), decide_eq_false hs, Bool.false_and, Nat.testBit_lt_two_pow h2]

theorem chipCode_lt (c : ChipState) : chipCode c < 16 := by cases c <;> decide

/-- `CHIP_STATUS` shows the chip's state in its lowest field. -/
theorem Dev.chipStatus_mod (d : Dev) : d.chipStatus % 16 = chipCode d.chip.state := by
  show regWord _ % 2 ^ 4 = _
  rw [regWord_cons_mod _ (by simp [bitF])]
  have h := chipCode_lt d.chip.state
  dsimp only
  omega

/-! ### What a register shows -/

theorem Dev.reg_chip_undefined (d : Dev) {off : Nat} (h0 : 0x20 ≤ off) (h1 : off < 0x1000) :
    d.reg off = Reg.zero := by
  rw [Dev.reg, if_pos h1]
  unfold Dev.chipReg
  split
  case h_6 => rfl
  all_goals omega

/-- An offset within the 2 MiB of a region names a register of that region. -/
theorem Dev.reg_region (d : Dev) {r o : Nat} (hr : r < 12) (ho : o < 0x200000) :
    d.reg (0x1000000 + 0x200000 * r + o) = d.regionReg r o := by
  have hq : (0x1000000 + 0x200000 * r + o - 0x1000000) / 0x200000 = r := by omega
  have hm : (0x1000000 + 0x200000 * r + o) % 0x200000 = o := by omega
  simp (disch := omega) only [Dev.reg, if_neg, if_pos, hq, hm]

theorem Dev.regionReg_absent {d : Dev} {r : Nat} (h : d.regionPresent r = false) (o : Nat) :
    d.regionReg r o = Reg.zero := by
  simp [Dev.regionReg, h]

theorem Dev.regionReg_flag {d : Dev} {r f : Nat} (h : d.regionPresent r = true) (hf : f < 1024) :
    d.regionReg r (0x10000 + 4 * f) =
      ⟨false, d.flag (1024 * r + f) % 2 ^ 16 + if (d.waitq (1024 * r + f)).isEmpty then 0 else 2 ^ 31⟩ := by
  have h3 : 0x10000 + 4 * f < 0x11000 := by omega
  have h4 : (0x10000 + 4 * f) % 4 = 0 := by omega
  have h5 : (0x10000 + 4 * f - 0x10000) / 4 = f := by omega
  unfold Dev.regionReg
  rw [h, if_neg (by simp), if_neg (by omega), if_neg (by omega), if_neg (by omega), if_pos (by simp [h3, h4]), h5]
  simp only [reg32, regWord_cons, bitF_placed, regWord_nil, Nat.pow_zero, Nat.mul_one, Nat.add_zero]
  cases (d.waitq (1024 * r + f)).isEmpty <;> rfl

/-- The word of a statistics counter: COUNT in bits [47:0], SAT in bit [63]. -/
theorem Counter.word_eq (c : Counter) : c.word = c.count % 2 ^ 48 + if c.sat then 2 ^ 63 else 0 := by
  simp only [Counter.word, regWord_cons, bitF_placed, regWord_nil, Nat.pow_zero, Nat.mul_one, Nat.add_zero]

theorem Dev.regionReg_opsCompleted {d : Dev} {r j : Nat} (h : d.regionPresent r = true) (hj : j < 4) :
    d.regionReg r (0x80000 + j * 0x20000 + 0x20) = d.counterReg (blockBase r j + 0x20) := by
  have hk : (0x80000 + j * 0x20000 + 0x20 - 0x80000) / 0x20000 = j := by omega
  have hp : (0x80000 + j * 0x20000 + 0x20) % 0x20000 = 0x20 := by omega
  have hr : (4 * r + j) / 4 = r := by omega
  have hj4 : (4 * r + j) % 4 = j := by omega
  simp (disch := omega) only [Dev.regionReg, h, Bool.not_true, Bool.false_eq_true, if_false, Bool.and_eq_true,
    decide_eq_true_eq, if_neg, if_pos, hk, hp]
  simp [Dev.blockReg, opsCompletedAt, blockAt, hr, hj4]

theorem Dev.reg_opsCompleted {d : Dev} {r j : Nat} (h : d.regionPresent r = true) (hr : r < 12) (hj : j < 4) :
    d.reg (blockBase r j + 0x20) = d.counterReg (blockBase r j + 0x20) := by
  have ho : blockBase r j + 0x20 = 0x1000000 + 0x200000 * r + (0x80000 + j * 0x20000 + 0x20) := by
    unfold blockBase regionBase; omega
  have hreg := Dev.reg_region d hr (o := 0x80000 + j * 0x20000 + 0x20) (by omega)
  rw [← ho] at hreg
  rw [hreg, Dev.regionReg_opsCompleted h hj]

theorem Dev.reg_customer (d : Dev) {c o : Nat} (hc : c < 1024) (ho : o < 64) :
    d.reg (0x440000 + 64 * c + o) = d.custReg c o := by
  have hq : (0x440000 + 64 * c + o - 0x440000) / 64 = c := by omega
  have hm : (0x440000 + 64 * c + o) % 64 = o := by omega
  simp (disch := omega) only [Dev.reg, if_neg, if_pos, hq, hm]

theorem Dev.custReg_budget {d : Dev} {c : Nat} (hc : c < d.img.str.customers) : d.custReg c 0 =
    ⟨true, (d.cust c).available % 2 ^ 32 + (d.cust c).reserved % 2 ^ 16 * 2 ^ 32 +
      if (d.cust c).sat then 2 ^ 63 else 0⟩ := by
  rw [Dev.custReg, if_neg (by omega)]
  simp only [regWord_cons, bitF_placed, regWord_nil, Nat.pow_zero, Nat.mul_one, Nat.add_zero, Nat.add_assoc]

theorem Dev.reg_request (d : Dev) {i o : Nat} (hi : i < 4096) (ho : o < 64) :
    d.reg (0x400000 + 64 * i + o) = d.reqReg i o := by
  have hq : (0x400000 + 64 * i + o - 0x400000) / 64 = i := by omega
  have hm : (0x400000 + 64 * i + o) % 64 = o := by omega
  simp (disch := omega) only [Dev.reg, if_neg, if_pos, hq, hm]

theorem reqWide_iff (k : Nat) : reqWide k = true ↔ k = 2 ∨ k = 4 ∨ k = 6 := by
  simp [reqWide, or_assoc]

theorem Dev.reqReg_narrow (d : Dev) (i : Nat) {k : Nat} (hk : k ∉ [2, 3, 4, 5, 6, 7]) :
    d.reqReg i (4 * k) = ⟨false, ((d.reqWords i).getD k 0).toNat⟩ := by
  simp only [List.mem_cons, List.not_mem_nil, or_false, not_or] at hk
  have hd : 4 * k / 4 = k := by omega
  have h0 : ¬ reqWide k = true := by rw [reqWide_iff]; omega
  have h1 : ¬ reqWide (k - 1) = true := by rw [reqWide_iff]; omega
  unfold Dev.reqReg
  rw [if_neg (by omega), hd, if_neg h0, if_neg h1]

theorem Dev.reqReg_wide (d : Dev) (i : Nat) {k : Nat} (hk : k ∈ [2, 4, 6]) : d.reqReg i (4 * k) =
    ⟨true, ((d.reqWords i).getD k 0).toNat + ((d.reqWords i).getD (k + 1) 0).toNat * 2 ^ 32⟩ := by
  simp only [List.mem_cons, List.not_mem_nil, or_false] at hk
  have hd : 4 * k / 4 = k := by omega
  unfold Dev.reqReg
  rw [if_neg (by omega), hd, if_pos ((reqWide_iff k).mpr hk)]
  rfl

theorem Dev.reg_concentrator (d : Dev) {off : Nat} (h0 : 0x100000 ≤ off) (h1 : off < 0x200000) :
    d.reg off = d.ecReg off := by
  simp (disch := omega) only [Dev.reg, if_neg, if_pos]

theorem Dev.ecReg_config (d : Dev) {n : Nat} (hn : n < 2047) : d.ecReg (0x101000 + 4 * n) =
    ⟨false, (d.ec.cfgOf n).prio % 2 ^ 4 + (d.ec.cfgOf n).target % 2 ^ 9 * 2 ^ 8⟩ := by
  have hq : (0x101000 + 4 * n - 0x101000) / 4 = n := by omega
  simp (disch := omega) only [Dev.ecReg, spuriousAt, Bool.and_eq_true, decide_eq_true_eq, if_neg, if_pos, hq]
  simp [reg32]

theorem Dev.reg_pennants (d : Dev) {w : Nat} (hw : w < 4096) :
    d.reg (0x800000 + 4 * w) = ⟨false, d.pennantWord w⟩ := by
  have hd : (0x800000 + 4 * w) / 0x10000 = 0x80 := by omega
  have hm : (0x800000 + 4 * w) % 0x10000 = 4 * w := by omega
  have h4 : 4 * w < 0x4000 := by omega
  simp (disch := omega) only [Dev.reg, if_neg, if_pos]
  simp [Dev.pennantReg, hd, hm, h4]

theorem Dev.testBit_pennantWord (d : Dev) (w : Nat) {i : Nat} (hi : i < 32) :
    (d.pennantWord w).testBit i = d.pennant (32 * w + i) := by
  rw [Dev.pennantWord, testBit_bitMap, decide_eq_true hi, Bool.true_and]

/-! ### What a write changes -/

/-- An offset within the 2 MiB of a region writes a register of that region. -/
theorem Dev.putReg_region (d : Dev) (who : Agent) {off : Nat} (h0 : 0x1000000 ≤ off) (h1 : off < 0x2800000)
    (v : Nat) : d.putReg who off v = d.regionWrite off v := by
  simp (disch := omega) only [Dev.putReg, if_neg, if_pos]

theorem stackRegOf_below {r o : Nat} (ho : o < 0x100000) :
    stackRegOf (0x1000000 + 0x200000 * r + o) = none := by
  have hp : (0x1000000 + 0x200000 * r + o - 0x1000000) % 0x200000 = o := by omega
  have hn : ¬ 0x100000 ≤ o := by omega
  simp [stackRegOf, hp, hn]

theorem stackRegOf_stack {st o : Nat} (hs : st < 24) (ho : o < 0x20000) :
    stackRegOf (stackBase st + o) = some (st, o) := by
  have hb : stackBase st + o = 0x1000000 + st / 2 * 0x200000 + (0x100000 + st % 2 * 0x20000 + o) := by
    unfold stackBase regionBase; omega
  have hp : (stackBase st + o - 0x1000000) % 0x200000 = 0x100000 + st % 2 * 0x20000 + o := by omega
  have hr : 2 * ((stackBase st + o - 0x1000000) / 0x200000) + (0x100000 + st % 2 * 0x20000 + o - 0x100000) / 0x20000
      = st := by omega
  have hm : (0x100000 + st % 2 * 0x20000 + o) % 0x20000 = o := by omega
  unfold stackRegOf
  rw [hp, if_pos (by simp only [Bool.and_eq_true, decide_eq_true_eq]; omega), hr, hm]

/-- The flags of a region are read-only (R78): a write of one changes nothing. -/
theorem Dev.putReg_flag (d : Dev) (who : Agent) {r f : Nat} (hr : r < 12) (hf : f < 1024) (v : Nat) :
    d.putReg who (0x1000000 + 0x200000 * r + 0x10000 + 4 * f) v = d := by
  have ho : (0x1000000 + 0x200000 * r + (0x10000 + 4 * f)) % 0x200000 = 0x10000 + 4 * f := by omega
  have hq : ¬ 0x20000 ≤ 0x10000 + 4 * f := by omega
  rw [Nat.add_assoc _ 0x10000, Dev.putReg_region d who (by omega) (by omega)]
  simp [Dev.regionWrite, stackRegOf_below (r := r) (o := 0x10000 + 4 * f) (by omega), ho, hq]

/-- A write in the registers of a stack that is present is the stack's. -/
theorem Dev.putReg_stack {d : Dev} (who : Agent) {st o : Nat} (hs : st < 24) (ho : o < 0x20000)
    (h : d.regionPresent (st / 2) = true) (v : Nat) : d.putReg who (stackBase st + o) v = d.stackWrite st o v := by
  have hb : stackBase st = 0x1000000 + st / 2 * 0x200000 + 0x100000 + st % 2 * 0x20000 := rfl
  have hr : (stackBase st + o - 0x1000000) / 0x200000 = st / 2 := by omega
  rw [Dev.putReg_region d who (by omega) (by omega)]
  simp [Dev.regionWrite, hr, h, stackRegOf_stack hs ho]

theorem Dev.putReg_customer (d : Dev) (who : Agent) {c : Nat} (hc : c < 1024) (v : Nat) :
    d.putReg who (0x440000 + 64 * c + 8) v = d.custCredit c v := by
  have hq : (0x440000 + 64 * c + 8 - 0x440000) / 64 = c := by omega
  simp (disch := omega) only [Dev.putReg, if_neg, if_pos, hq]

theorem Dev.putReg_request (d : Dev) (who : Agent) {i k : Nat} (hi : i < 4096) (hk : k < 16) (v : Nat) :
    d.putReg who (0x400000 + 64 * i + 4 * k) v = d.reqWrite i k v := by
  have hq : (0x400000 + 64 * i + 4 * k - 0x400000) / 64 = i := by omega
  have hm : (0x400000 + 64 * i + 4 * k) % 64 / 4 = k := by omega
  simp (disch := omega) only [Dev.putReg, if_neg, if_pos, hq, hm]

/-- A FREE entry takes a new `REQ_CFG`, and nothing is prompted. -/
theorem Dev.reqWrite_cfg_free {d : Dev} {i : Nat} (h : (d.req i).state = .free) (v : Nat) :
    d.reqWrite i 1 v = d.modReq i (fun x => { x with cfg := BitVec.ofNat 32 v &&& 0xFFFF1FFF }) := by
  have ho : ReqState.free.open_ = true := rfl
  simp [Dev.reqWrite, Dev.modReq, Req.written, h, ho]

/-- The prompt's length of an ACTIVE entry does not change. -/
theorem Dev.reqWrite_length_active {d : Dev} {i : Nat} (h : (d.req i).state = .active) (v : Nat) :
    d.reqWrite i 8 v = d.modReq i id := by
  have ho : (d.req i).state.open_ = false := by rw [h]; rfl
  simp [Dev.reqWrite, Dev.modReq, Req.written, ho]

theorem Dev.mcommitWrite_bit (d : Dev) (v : Nat) {n : Nat} (hn : n < 12) :
    (d.mcommitWrite v).twin.mcommit.getLsbD n = (bitAt v n && (d.mirrored n || d.twin.mcommit.getLsbD n)) := by
  rw [Dev.mcommitWrite, BitVec.getLsbD_ofNat, testBit_bitMap, decide_eq_true hn, Bool.true_and, Bool.true_and]

end Sys2Proof.Machine
end

section
/-! The registers of the scope (R10 to R12): each access as a command, and the statement about them. -/

namespace Sys2Proof.Machine
open Sys2Proof Sys2Proof.Claims

/-! ### A register access as a command -/

section Commands
variable {s : State} {who : Agent} {off : Nat} (ht : InTurn who s.dev) (hr : s.dev.readReach who = true)
include ht hr

/-- A 32-bit read answers what `read32` gives. -/
theorem read32_does {e : Dev} {n : Nat} (ha : off % 4 = 0) (h : s.dev.read32 who off = (e, n)) :
    Does (.reg64LowerRead who 0 off 4) s (e.readAnswer who 0 off 4 n) := by
  have hd := reg64LowerRead_does (bar := 0) (off := off) (len := 4) ht hr
  rwa [Fin.val_zero, Dev.readReg_32 _ _ ha, h] at hd

/-- A 64-bit read answers what `read64` gives. -/
theorem read64_does {e : Dev} {n : Nat} (ha : off % 8 = 0) (h : s.dev.read64 who off = (e, n)) :
    Does (.reg64LowerRead who 0 off 8) s (e.readAnswer who 0 off 8 n) := by
  have hd := reg64LowerRead_does (bar := 0) (off := off) (len := 8) ht hr
  rwa [Fin.val_zero, Dev.readReg_64 _ _ ha, h] at hd

theorem readZero_does {bar : Fin 6} {len : Nat} (hb : bar = 0 ∨ bar = 4) (h : off % len ≠ 0 ∨ len ≠ 4 ∧ len ≠ 8) :
    Does (.reg64LowerRead who bar off len) s (s.dev.readAnswer who bar.val off len 0) := by
  have hv : bar.val = 0 ∨ bar.val = 4 := hb.imp (congrArg Fin.val) (congrArg Fin.val)
  have hd := reg64LowerRead_does (bar := bar) (off := off) (len := len) ht hr
  rwa [Dev.readReg_zero _ _ hv h] at hd

/-- A 32-bit write does what `write32` does. -/
theorem write32_does {e : Dev} {v : BitVec 64} (ha : off % 4 = 0)
    (h : s.dev.write32 who off (v.toNat % 2 ^ 32) = e) : Does (.registerWrite who 0 off 4 v) s e := by
  have hd := registerWrite_does (bar := 0) (off := off) (len := 4) (v := v) ht hr
  rwa [Fin.val_zero, Dev.writeReg_32 _ _ ha, h] at hd

/-- A 64-bit write does what `write64` does. -/
theorem write64_does {e : Dev} {v : BitVec 64} (ha : off % 8 = 0) (h : s.dev.write64 who off v.toNat = e) :
    Does (.registerWrite who 0 off 8 v) s e := by
  have hd := registerWrite_does (bar := 0) (off := off) (len := 8) (v := v) ht hr
  rwa [Fin.val_zero, Dev.writeReg_64 _ _ ha, h] at hd

end Commands

theorem Dev.writeReg_ignored (d : Dev) (who : Agent) {off : Nat} (h : d.writeActs off = false) (v : Nat) :
    d.writeReg who 0 off 4 v = d := by
  by_cases ha : off % 4 = 0
  · rw [Dev.writeReg_32 d who ha, Dev.write32_ignored d who h]
  · exact Dev.writeReg_odd d who 0 (.inl ha) v

/-- Settles O59: the access rules (R10 to R12) first, then the registers it names, what they show and what writes
change. -/
theorem registerHalves : Obligations.RegisterHalves := by
  refine ⟨?readLower, ?readUpperLatched, ?readNarrow, ?readUpper, ?readWhole, ?readPair, ?readMisaligned, ?readWidth,
    ?readUnreached, ?writeLower, ?writeUpperHeld, ?writeUpperCurrent, ?writeWhole, ?writeNarrow, ?writeNarrowUpper,
    ?writePair, ?writeOdd, ?writeIgnored, ?status, ?undefined, ?absent, ?flag, ?opsCompleted, ?customer, ?request,
    ?requestWide, ?config, ?pennants, ?putStatus, ?putFlag, ?putHit, ?putPower, ?putServe, ?putCredit, ?putCfg,
    ?putLength, ?putScrub, ?putMcommit⟩
  case readLower =>
    intro s who off ht hr hl ha hg hc hm hw
    exact read32_does ht hr ha (Dev.read32_lower who ⟨hl, hg, hc, hm⟩ hw)
  case readUpperLatched =>
    intro s who off w ht hr hl ha hg hc hm hw hu hh
    exact read32_does ht hr (by omega) (Dev.read32_upper_latched who ⟨hl, hg, hc, hm⟩ ha hw hu hh)
  case readNarrow =>
    intro s who off ht hr hl ha hg hc hm hw
    exact read32_does ht hr (by omega) (Dev.read32_narrow who ⟨hl, hg, hc, hm⟩ hw (by omega))
  case readUpper =>
    intro s who off ht hr hl ha hg hc hm hw
    refine ⟨fun hn => ?_, fun hn hh => ?_⟩
    · exact read32_does ht hr (by omega) (Dev.read32_narrow who ⟨hl, hg, hc, hm⟩ hw fun _ => hn)
    · exact read32_does ht hr (by omega) (Dev.read32_upper_current who ⟨hl, hg, hc, hm⟩ ha hw hn hh)
  case readWhole =>
    intro s who off ht hr hl ha h0 h4 hw
    exact read64_does ht hr ha (Dev.read64_wide who hl h0 h4 hw)
  case readPair =>
    intro s who off ht hr hl ha h0 h4 hc hm hw hu
    exact read64_does ht hr ha
      (Dev.read64_narrow who ⟨hl, h0, by omega, hm⟩ ⟨hl, h4, by omega, by omega⟩ ha hw hu)
  case readMisaligned =>
    intro s who bar off len ht hr hb h
    exact readZero_does ht hr hb (.inl h)
  case readWidth =>
    intro s who bar off len ht hr hb h4 h8
    exact readZero_does ht hr hb (.inr ⟨h4, h8⟩)
  case readUnreached =>
    intro s who bar off len ht hr
    exact reg64LowerRead_unreached ht hr
  case writeLower =>
    intro s who off v ht hr ha hw hwide
    exact write32_does ht hr ha (Dev.write32_lower who hw hwide _)
  case writeUpperHeld =>
    intro s who off v w ht hr ha hw hwide hu hh
    refine write32_does ht hr (by omega) ?_
    rw [Dev.write32_upper who hw ha hwide hu, Dev.lowerHalf_held hh]
  case writeUpperCurrent =>
    intro s who off v ht hr ha hw hwide hu hh
    refine write32_does ht hr (by omega) ?_
    rw [Dev.write32_upper who hw ha hwide hu, Dev.lowerHalf_current hh]
  case writeWhole =>
    intro s who off v ht hr ha hw hwide
    exact write64_does ht hr ha (Dev.write64_wide who hw hwide _)
  case writeNarrow =>
    intro s who off v ht hr ha hw hn
    exact write32_does ht hr (by omega) (Dev.write32_narrow who hw hn (by omega) _)
  case writeNarrowUpper =>
    intro s who off v ht hr ha hw hn hl
    exact write32_does ht hr (by omega) (Dev.write32_narrow who hw hn (fun _ => hl) _)
  case writePair =>
    intro s who off v e ht hr ha hw hn he hw4 hn0 hn4
    refine write64_does ht hr ha ?_
    rw [Dev.write64_narrow who hn, Dev.write32_narrow who hw hn (by omega), ← he]
    exact Dev.write32_narrow who hw4 hn4 (fun _ => hn0) _
  case writeOdd =>
    intro s who bar off len v ht h
    exact registerWrite_idle ht (Dev.writeReg_odd _ who bar.val h _)
  case writeIgnored =>
    intro s who off v ht hw
    exact registerWrite_idle ht (Dev.writeReg_ignored _ who hw _)
  case status => exact fun d => ⟨rfl, d.chipStatus_mod⟩
  case undefined => exact fun d off h0 h1 => d.reg_chip_undefined h0 h1
  case absent => exact fun d r o hr ho h => (d.reg_region hr ho).trans (Dev.regionReg_absent h o)
  case flag =>
    intro d r f hr hf h
    rw [Nat.add_assoc _ 0x10000, d.reg_region hr (by omega), Dev.regionReg_flag h hf]
  case opsCompleted =>
    intro d r j hr hj h
    rw [Dev.reg_opsCompleted h hr hj, Dev.counterReg, Counter.word_eq]
  case customer => exact fun d c hc h => (d.reg_customer hc (o := 0) (by omega)).trans (Dev.custReg_budget h)
  case request =>
    intro d i k hi hk hn
    rw [d.reg_request hi (by omega), d.reqReg_narrow i hn]
  case requestWide =>
    intro d i k hi hk
    have hk8 : k < 8 := by
      simp only [List.mem_cons, List.not_mem_nil, or_false] at hk
      omega
    rw [d.reg_request hi (by omega), d.reqReg_wide i hk]
  case config =>
    intro d n hn
    rw [d.reg_concentrator (by omega) (by omega), d.ecReg_config hn]
  case pennants =>
    intro d w i hw hi
    rw [d.reg_pennants hw]
    exact ⟨rfl, d.testBit_pennantWord w hi⟩
  case putStatus => exact fun d who v => rfl
  case putFlag => exact fun d who r f v hr hf => d.putReg_flag who hr hf v
  case putHit => exact fun d who v => rfl
  case putPower => exact fun d who v => rfl
  case putServe => exact fun d who v => rfl
  case putCredit => exact fun d who c v hc => d.putReg_customer who hc v
  case putCfg =>
    intro d who i v hi h
    rw [show 0x400000 + 64 * i + 4 = 0x400000 + 64 * i + 4 * 1 from rfl, d.putReg_request who hi (by omega),
      Dev.reqWrite_cfg_free h]
  case putLength =>
    intro d who i v hi h
    rw [d.putReg_request who hi (by omega), Dev.reqWrite_length_active h]
  case putScrub =>
    intro d who st v hs h
    rw [Dev.putReg_stack who hs (by omega) h]
    rfl
  case putMcommit => exact fun d who v n hn => d.mcommitWrite_bit v hn

end Sys2Proof.Machine
end

section
/-! The words of a stack sequence, case by case: a chunk step of STORE (R147, R148, R304), the words that come to a yield
point (R143), the end of a sequence (R146), and the words where there is nothing to do. -/

namespace Sys2Proof.Machine
open Sys2Proof Sys2Proof.Claims

/-- A command leaves the device that its meaning computes. -/
theorem does_of_eq {i : Instr} {s : State} {e e' : Dev} (he : e = e') (h : Does i s e) : Does i s e' := he ▸ h

/-! ### Nothing to do -/

section NoWord
variable {d : Dev} {st i c : Nat}

theorem Dev.wordFor_none (h : d.nextSeq st i c = none) (o : Nat) : d.wordFor st i c o = none := by
  rw [Dev.wordFor, h, Option.filter_none]

theorem Dev.wxv_noWord (h : d.wordFor st i c 0x2 = none) : d.wxv st i c = d := by rw [Dev.wxv, h]

theorem Dev.attnDecode_noWord (h : d.wordFor st i c 0x3 = none) : d.attnDecode st i c = d := by rw [Dev.attnDecode, h]

theorem Dev.emitWord_noWord (h : d.wordFor st i c 0x5 = none) : d.emitWord st i c = d := by rw [Dev.emitWord, h]

theorem Dev.storeStep_noWord (h : d.wordFor st i c 0x6 = none) : d.storeStep st i c = d := by rw [Dev.storeStep, h]

theorem Dev.yieldWord_noWord {o : Nat} (h : d.wordFor st i c o = none) : d.yieldWord st i c o = d := by
  rw [Dev.yieldWord, h]

theorem Dev.endWord_noWord (h : d.wordFor st i c 0xF = none) : d.endWord st i c = d := by rw [Dev.endWord, h]

end NoWord

section NoSlot
variable {d : Dev} {st n : Nat} (h : d.slotOf st n = none)
include h

theorem Dev.loada_noSlot : d.loada st n = d := by rw [Dev.loada, h]

theorem Dev.normalise_noSlot : d.normalise st n = d := by rw [Dev.normalise, h]

theorem Dev.sequenceEnd_noSlot : d.sequenceEnd st n = d := by rw [Dev.sequenceEnd, h]

theorem Dev.recordMerge_noSlot : d.recordMerge st n = d := by rw [Dev.recordMerge, h, ite_self]

end NoSlot

/-! ### A chunk step of STORE -/

/-- The stripe of the next chunk of a STORE word in cell `c`. -/
def Dev.storeStripe (d : Dev) (st i c : Nat) (w : SeqWord) : Stripe :=
  bankStripe (2 * c + w.sBank) (w.sAddr + (d.bcell (cellKey st i c)).storePos)

/-- The activations that the next chunk step of a STORE word takes. -/
def Dev.storeRows (d : Dev) (st i c : Nat) (w : SeqWord) : List Nat :=
  openings (d.bcell (cellKey st i c)).row [streamRow (2 * c + w.sBank) (d.storeStripe st i c w).row]

/-- A delta that the cell sent has no grant yet (R304). -/
def Dev.deltaWaits (d : Dev) (st cell : Nat) : Bool :=
  (d.stk st).deltas.any (fun e => decide (e.cell = cell) && !e.granted)

/-- The chunk of a step is written, its delta is sent, and the row it lies in has been read (R147, R304). -/
def Dev.chunkStored (d : Dev) (st i c : Nat) (w : SeqWord) : Dev :=
  let ck := cellKey st i c
  let k := (d.bcell ck).storePos
  let p := d.storeStripe st i c w
  let part := d.storeBytes ck w k
  let new := overlay (d.chunk st i p) part 0
  (((((d.retried st i p).writeChunk st i p new true).invalidate st p i).modStk st (fun y =>
    y.sendDelta p i (64 * i + c) (xorBytes (d.chunk st i p) new))).streamOut
      (bankAddr st i (2 * c + w.sBank) (w.sAddr + k)) part).modBcell ck (fun y => y.read (d.storeRows st i c w))

theorem Dev.deltaWaits_iff {d : Dev} {st cell : Nat} :
    d.deltaWaits st cell = true ↔ ∃ x ∈ (d.stk st).deltas, x.cell = cell ∧ x.granted = false := by
  simp only [Dev.deltaWaits, List.any_eq_true, Bool.and_eq_true, decide_eq_true_eq, Bool.not_eq_true']

theorem Dev.deltaWaits_eq_false_iff {d : Dev} {st cell : Nat} :
    d.deltaWaits st cell = false ↔ ∀ x ∈ (d.stk st).deltas, x.cell = cell → x.granted = true := by
  simp only [Dev.deltaWaits, List.any_eq_false, Bool.and_eq_true, decide_eq_true_eq, Bool.not_eq_true', not_and,
    Bool.not_eq_false]

section StoreStep
variable {d : Dev} {st i c : Nat} {sl : Slot} {w : SeqWord} (hw : d.wordFor st i c 0x6 = some (sl, w))
include hw

/-- What a chunk step can do, in the order in which it looks. -/
theorem Dev.storeStep_eq : d.storeStep st i c =
    if (d.bcell (cellKey st i c)).rowsAhead < (d.storeRows st i c w).length then d
    else if d.deltaWaits st (64 * i + c) then d.storeWaits (cellKey st i c) none
    else if d.stripeLocked st (d.storeStripe st i c w) then
      d.storeWaits (cellKey st i c) (some (d.storeStripe st i c w))
    else if d.chunkBad st i (d.storeStripe st i c w) then d.bauWaits st i c (d.storeStripe st i c w)
    else if (d.bcell (cellKey st i c)).storePos + 1 < w.storeSteps then
      (d.chunkStored st i c w).modBcell (cellKey st i c) (fun y =>
        { y with storePos := (d.bcell (cellKey st i c)).storePos + 1 })
    else (d.chunkStored st i c w).advance st i c := by
  rw [Dev.storeStep, hw]
  rfl

theorem Dev.storeStep_rowClosed (h : (d.bcell (cellKey st i c)).rowsAhead < (d.storeRows st i c w).length) :
    d.storeStep st i c = d := by
  rw [Dev.storeStep_eq hw, if_pos h]

section RowOpen
variable (ho : (d.storeRows st i c w).length ≤ (d.bcell (cellKey st i c)).rowsAhead)
include ho

theorem Dev.storeStep_deltaWaits (hd : d.deltaWaits st (64 * i + c) = true) :
    d.storeStep st i c = d.storeWaits (cellKey st i c) none := by
  rw [Dev.storeStep_eq hw, if_neg (Nat.not_lt.mpr ho), if_pos hd]

variable (hd : d.deltaWaits st (64 * i + c) = false)
include hd

theorem Dev.storeStep_stripeLocked (hl : d.stripeLocked st (d.storeStripe st i c w) = true) :
    d.storeStep st i c = d.storeWaits (cellKey st i c) (some (d.storeStripe st i c w)) := by
  rw [Dev.storeStep_eq hw, if_neg (Nat.not_lt.mpr ho), if_neg (Bool.eq_false_iff.mp hd), if_pos hl]

variable (hl : d.stripeLocked st (d.storeStripe st i c w) = false)
  (hb : d.chunkBad st i (d.storeStripe st i c w) = false)
include hl hb

/-- With nothing to wait for the chunk is stored; the word goes on with its next chunk, or is done. -/
theorem Dev.storeStep_stores : d.storeStep st i c =
    if (d.bcell (cellKey st i c)).storePos + 1 < w.storeSteps then
      (d.chunkStored st i c w).modBcell (cellKey st i c) (fun y =>
        { y with storePos := (d.bcell (cellKey st i c)).storePos + 1 })
    else (d.chunkStored st i c w).advance st i c := by
  rw [Dev.storeStep_eq hw, if_neg (Nat.not_lt.mpr ho), if_neg (Bool.eq_false_iff.mp hd),
    if_neg (Bool.eq_false_iff.mp hl), if_neg (Bool.eq_false_iff.mp hb)]

end RowOpen
end StoreStep

/-! ### Words that come to a yield point -/

section YieldPoint
variable {d : Dev} {st i c : Nat} {q : Slot × SeqWord}

theorem Dev.yieldWord_yields {o : Nat} (h : d.wordFor st i c o = some q) :
    d.yieldWord st i c o = (d.advance st i c).modBcell (cellKey st i c) (fun x => x.leave (o = 0x8)) := by
  rw [Dev.yieldWord, h]

theorem Dev.endWord_ends (h : d.wordFor st i c 0xF = some q) :
    d.endWord st i c = d.modBcell (cellKey st i c) (fun x =>
      { x.leave false with
        runs := x.runs.tail, work := .none, pc := 0, storePos := 0, ridx := none, before := x.before - 1 }) := by
  rw [Dev.endWord, h]

end YieldPoint

/-! ### The end of a sequence -/

/-- On a halted stack no sequence ends (R22). -/
theorem Dev.sequenceEnd_halted {d : Dev} {st : Nat} (h : (d.stk st).halt ≠ 0) (n : Nat) : d.sequenceEnd st n = d := by
  have hh : (d.stk st).halted = true := decide_eq_true h
  rw [Dev.sequenceEnd]
  cases d.slotOf st n with
  | none => rfl
  | some sl => simp only [hh, Bool.or_true, if_true]

theorem Slot.raceAddrs_of_raced_nil {sl : Slot} (h : sl.raced = []) (st : Nat) : sl.raceAddrs st = [] := by
  rw [Slot.raceAddrs, h, List.map_nil, List.filter_nil]

theorem Dev.scramble_unraced {sl : Slot} (h : sl.raced = []) (d : Dev) (st : Nat) :
    d.scramble st (sl.raceAddrs st) = .ok d := by
  rw [Slot.raceAddrs_of_raced_nil h, Dev.scramble]

/-- The sequence of slot `n` is over and has sent nothing, and its stack runs: it can end now (R146). -/
structure Dev.CanEnd (d : Dev) (st n : Nat) (sl : Slot) : Prop where
  slot : d.slotOf st n = some sl
  ended : d.sequenceOver st n sl = true
  unsent : sl.sent = false
  running : (d.stk st).halt = 0

section CanEnd
variable {d : Dev} {st n : Nat} {sl : Slot} (h : d.CanEnd st n sl)
include h

theorem Dev.CanEnd.guard_eq_false : (!d.sequenceOver st n sl || sl.sent || (d.stk st).halted) = false := by
  have hh : (d.stk st).halted = false := decide_eq_false (not_not_intro h.running)
  rw [h.ended, h.unsent, hh]
  rfl

section Silent
variable (ho : sl.output = [])
include ho

theorem Dev.sequenceEnd_silent (hb : sl.onBase = false) : d.sequenceEnd st n =
    (d.unserve (normWho st).party).drawn.slotDone st n sl := by
  simp only [Dev.sequenceEnd, h.slot, h.guard_eq_false, ho, hb, List.isEmpty_nil, Bool.false_eq_true, if_true, if_false]

theorem Dev.sequenceEnd_silentBase (hb : sl.onBase = true) {d1 : Dev} (hs : d.scramble st (sl.raceAddrs st) = .ok d1) :
    d.sequenceEnd st n = (d1.unserve (normWho st).party).drawn.slotDone st n sl := by
  simp only [Dev.sequenceEnd, h.slot, h.guard_eq_false, ho, hb, hs, List.isEmpty_nil,
    Bool.false_eq_true, if_true, if_false]

end Silent

/-- An output goes to its queue when the dispatch stands first in the queue's order, and its domain saves no step. -/
theorem Dev.sequenceEnd_sends (ho : sl.output ≠ []) (hd : d.draining sl.req.region = false)
    (hq : (d.queue (32 * sl.req.region + OpWord.queue sl.req.word)).order.head? =
      some (st, 4 * sl.req.region + sl.req.blk, sl.req.index)) :
    d.sequenceEnd st n = (d.setSlot st n (some { sl with sent := true })).modQueue
      (32 * sl.req.region + OpWord.queue sl.req.word) (fun x => { x with outs := x.outs ++
        [⟨sl.output, false, some st, n, 4 * sl.req.region + sl.req.blk, sl.req.index, false, false, false⟩] }) := by
  have hne : sl.output.isEmpty = false := List.isEmpty_eq_false_iff.mpr ho
  simp only [Dev.sequenceEnd, h.slot, h.guard_eq_false, hne, hq, hd, Bool.false_eq_true, if_true, if_false]

end CanEnd

/-- Settles O40: the chunk step of STORE by what it can wait for, the words that come to a yield point, and the end of a
sequence by what it sends. -/
theorem storeAndYieldWords : Obligations.StoreAndYieldWords := by
  refine ⟨?stores, ?waits, fun _ _ => rfl, ?yields, ?refslot, ?ends, ?silent, ?silentBase, ?unraced, ?halted, ?sends,
    ?idle⟩
  case stores =>
    rintro s st i c sl w _ _ _ _ hw rfl rfl rfl ho hd hl hb rfl
    have h := Dev.storeStep_stores hw ho (Dev.deltaWaits_eq_false_iff.mpr hd) hl hb
    exact ⟨fun hk => does_of_eq (h.trans (if_pos hk)) rfl,
      fun hk => does_of_eq (h.trans (if_neg (Nat.not_lt.mpr hk))) rfl⟩
  case waits =>
    rintro s st i c sl w _ _ hw rfl rfl
    refine ⟨fun hc => does_of_eq (Dev.storeStep_rowClosed hw hc) rfl, fun ho => ⟨fun hd => ?_, fun hd hl => ?_⟩⟩
    · exact does_of_eq (Dev.storeStep_deltaWaits hw ho (Dev.deltaWaits_iff.mpr hd)) rfl
    · exact does_of_eq (Dev.storeStep_stripeLocked hw ho (Dev.deltaWaits_eq_false_iff.mpr hd) hl) rfl
  case yields => exact fun s st i c q h => does_of_eq (Dev.yieldWord_yields h) rfl
  case refslot => exact fun s st i c q h => does_of_eq (Dev.yieldWord_yields h) rfl
  case ends => exact fun s st i c q h => does_of_eq (Dev.endWord_ends h) rfl
  case silent =>
    intro s st n sl hs hv hu hr ho hb
    exact does_of_eq (Dev.sequenceEnd_silent ⟨hs, hv, hu, hr⟩ ho hb) rfl
  case silentBase =>
    intro s st n sl d1 hs hv hu hr ho hb h1
    exact does_of_eq (Dev.sequenceEnd_silentBase ⟨hs, hv, hu, hr⟩ ho hb h1) rfl
  case unraced => exact fun d st sl h => d.scramble_unraced h st
  case halted => exact fun s st n h => does_of_eq (Dev.sequenceEnd_halted h n.val) rfl
  case sends =>
    rintro s st n sl _ _ hs hv hu hr ho hd rfl rfl hq
    exact does_of_eq (Dev.sequenceEnd_sends ⟨hs, hv, hu, hr⟩ ho hd hq) rfl
  case idle =>
    intro s st i c n hw hs
    have h := Dev.wordFor_none hw
    exact ⟨does_of_eq (Dev.wxv_noWord (h _)) rfl, does_of_eq (Dev.attnDecode_noWord (h _)) rfl,
      does_of_eq (Dev.emitWord_noWord (h _)) rfl, does_of_eq (Dev.storeStep_noWord (h _)) rfl,
      does_of_eq (Dev.yieldWord_noWord (h _)) rfl, does_of_eq (Dev.yieldWord_noWord (h _)) rfl,
      does_of_eq (Dev.endWord_noWord (h _)) rfl, does_of_eq (Dev.loada_noSlot hs) rfl,
      does_of_eq (Dev.normalise_noSlot hs) rfl, does_of_eq (Dev.sequenceEnd_noSlot hs) rfl,
      does_of_eq (Dev.recordMerge_noSlot hs) rfl⟩

end Sys2Proof.Machine
end

section
/-! Values of the matrix, vector and backward operations (R33, R43, R50, R51, R88 to R91, R196): one group of a product, the
order of a short row's sum, the statistics of a row, and the visible columns of a row of scores. -/

namespace Sys2Proof.Machine
open Sys2Proof Sys2Proof.Claims

/-! ### A product -/

/-- A is zero beyond K (R33). -/
theorem OpWord.aVal_beyond {w : OpWord} {k : Nat} (h : w.tileK ≤ k) (ms : Nat → Local) (r : Nat) :
    w.aVal ms r k = FpVal.zero := if_pos h

/-- B is zero beyond K (R33). -/
theorem OpWord.bVal_beyond {w : OpWord} {k : Nat} (h : w.tileK ≤ k) (ms : Nat → Local) (c : Nat) :
    w.bVal ms k c = FpVal.zero := if_pos h

/-- A length that fits one group makes exactly one group, full or not. -/
theorem groups_of_fits {n g : Nat} (hn : 0 < n) (hg : n ≤ g) : n / g + (if n % g = 0 then 0 else 1) = 1 := by
  rcases Nat.eq_or_lt_of_le hg with rfl | hlt
  · rw [Nat.div_self hn, Nat.mod_self, if_pos rfl]
  · rw [Nat.div_eq_of_lt hlt, Nat.mod_eq_of_lt hlt, if_neg (Nat.pos_iff_ne_zero.mp hn)]

/-- With a single group the accumulator takes a single rounding (R51). -/
theorem OpWord.dot_oneGroup {w : OpWord} (hp : 0 < prodK w.typeS0 w.typeS1 w.tileK)
    (hg : prodK w.typeS0 w.typeS1 w.tileK ≤ groupSize w.typeS0 w.typeS1) (ms : Nat → Local) (init : FpVal) (r c : Nat) :
    w.dot ms init r c = add32 init (groupSum ((List.range (groupSize w.typeS0 w.typeS1)).map
      (fun j => (w.aVal ms r j, w.bVal ms j c)))) := by
  simp only [OpWord.dot, groups_of_fits hp hg, List.range_one, List.foldl_cons, List.foldl_nil, Nat.mul_zero,
    Nat.zero_add]

/-! ### An element of ELEM -/

theorem elemPlan_bitsOut {c : Op} (h : c.geoD.func ≠ 0x22) (e i n old : Nat) (ms : Nat → Local) :
    (elemPlan c e).bitsOut ms i n old =
      (vecFn c.geoD.func (c.value c.geoD ms 0 n) (c.value c.geoD ms 1 n) (c.value c.geoD ms 2 n)).toType c.w.typeD
        c.geoD.sat := if_neg h

/-- Under MXQUANT the elements go to DST0 and the scale bytes to DST1 (R53). -/
theorem elemPlan_bitsOut_mxquant {c : Op} (h : c.geoD.func = 0x22) (e i n old : Nat) (ms : Nat → Local) :
    (elemPlan c e).bitsOut ms i n old =
      if i = 5 then (c.mxOf c.geoD ms (n / ceilDiv c.geoD.e0 32 * c.geoD.e0 + n % ceilDiv c.geoD.e0 32 * 32)).1
      else (c.mxOf c.geoD ms n).2.getD (n % c.geoD.e0 % 32) 0 := if_pos h

section LargerSmaller
variable {a b : FpVal}

theorem FpVal.larger_nan (h : a.isNan = true ∨ b.isNan = true) : a.larger b = .nan :=
  if_pos (Bool.or_eq_true_iff.mpr h)

theorem FpVal.smaller_nan (h : a.isNan = true ∨ b.isNan = true) : a.smaller b = .nan :=
  if_pos (Bool.or_eq_true_iff.mpr h)

variable (ha : a.isNan = false) (hb : b.isNan = false) (h : a.lt b = true)
include ha hb h

theorem FpVal.larger_of_lt : a.larger b = b := by simp [FpVal.larger, ha, hb, h]

theorem FpVal.smaller_of_lt : a.smaller b = a := by simp [FpVal.smaller, ha, hb, h]

end LargerSmaller

/-! ### Sums and statistics of a row -/

theorem pick_single {α : Type} (a : α) (n : Nat) : pick [a] (n % [a].length) = some (a, []) := by
  rw [List.length_singleton, Nat.mod_one, pick]

/-- Of two addends either one comes first, and the other is left. -/
theorem pick_pair {α : Type} (a b : α) (n : Nat) :
    pick [a, b] (n % [a, b].length) = some (a, [b]) ∨ pick [a, b] (n % [a, b].length) = some (b, [a]) := by
  rcases Nat.mod_two_eq_zero_or_one n with h | h
  · exact .inl (congrArg (pick [a, b]) h)
  · exact .inr (congrArg (pick [a, b]) h)

theorem looseSum_single (e i : Nat) (a : FpVal) : looseSum e i [a] 1 = a := by
  rw [looseSum, pick_single]
  rfl

theorem looseSum_pair (e i : Nat) (a b : FpVal) :
    looseSum e i [a, b] 2 = add32 a b ∨ looseSum e i [a, b] 2 = add32 b a := by
  rw [looseSum]
  rcases pick_pair a b (Config.order e (2 * i)) with h | h
  · left
    simp only [h, pick_single, looseSum_single]
  · right
    simp only [h, pick_single, looseSum_single]

theorem rowSum_single (e i : Nat) (a : FpVal) : rowSum e i [a] = a.r32 := congrArg FpVal.r32 (looseSum_single e i a)

theorem rowSum_pair (e i : Nat) (a b : FpVal) :
    rowSum e i [a, b] = (add32 a b).r32 ∨ rowSum e i [a, b] = (add32 b a).r32 :=
  (looseSum_pair e i a b).imp (congrArg FpVal.r32) (congrArg FpVal.r32)

/-- SOFTMAX statistics of a row with an element above −∞ (R91). -/
theorem rowStats_softmax {l : List FpVal} (h : ∃ x ∈ l, x ≠ .inf true) (e i : Nat) : rowStats 0 e i l =
    (rowMax l, rowSum e i (l.map (fun x => expFn false (sub32 x (rowMax l))))) := by
  have hall : l.all (fun x => decide (x = .inf true)) = false := by simpa [List.all_eq_false] using h
  simp only [rowStats, hall, if_true, Bool.false_eq_true, if_false]

/-- SOFTMAX statistics of a row without one (R91). -/
theorem rowStats_softmax_masked {l : List FpVal} (h : ∀ x ∈ l, x = .inf true) (e i : Nat) :
    rowStats 0 e i l = (.inf true, FpVal.zero) := by
  have hall : l.all (fun x => decide (x = .inf true)) = true := by simpa [List.all_eq_true] using h
  simp only [rowStats, hall, if_true]

/-! ### Scores of the backward pass -/

/-- Column `j` is visible to a row whose statistics record has these `field`s (R185). -/
def rowSees (field : Nat → Nat → Nat) (j : Nat) : Prop := j < field 10 16 ∧ (j < field 12 16 ∨ field 8 16 ≤ j)

/-- The model's test of a score that counts: a row with a sum other than zero, and a column that it sees. -/
theorem scoreMasked_iff (field : Nat → Nat → Nat) (j : Nat) (l : FpVal) :
    (l.isZero || !(decide (j < field 10 16) && (decide (j < field 12 16) || decide (field 8 16 ≤ j)))) = true ↔
      l.isZero = true ∨ ¬rowSees field j := by
  simp only [rowSees, Bool.or_eq_true, Bool.not_eq_true', Bool.and_eq_false_iff,
    decide_eq_false_iff_not, Bool.or_eq_false_iff, Decidable.not_and_iff_not_or_not, not_or]

section Scores
variable {c : Op} {ms : Nat → Local} {n : Nat} {field : Nat → Nat → Nat} {l : FpVal}
  (hf : ∀ o k : Nat, field o k = (ms 2).bits (c.w.statElt (n / c.w.tileN) o k))
  (hl : l = ofF32 (BitVec.ofNat 32 (field 4 32)))
include hf hl

theorem bwdScoresPlan_masked (h : l.isZero = true ∨ ¬rowSees field (c.w.c0 + n % c.w.tileN)) (e i old : Nat) :
    (bwdScoresPlan c e).bitsOut ms i n old = 0 := by
  obtain rfl : field = fun o k => (ms 2).bits (c.w.statElt (n / c.w.tileN) o k) := funext fun o => funext (hf o)
  subst hl
  exact if_pos ((scoreMasked_iff _ _ _).mpr h)

theorem bwdScoresPlan_visible (hz : l.isZero = false) (hv : rowSees field (c.w.c0 + n % c.w.tileN)) (e i old : Nat) :
    (bwdScoresPlan c e).bitsOut ms i n old =
      (mul32 (expFn false (sub32 (c.w.dot ms FpVal.zero (n / c.w.tileN) (n % c.w.tileN))
        (ofF32 (BitVec.ofNat 32 (field 0 32))))) (recipFn l)).toType c.w.typeD c.w.tileSat := by
  have hn : ¬(l.isZero = true ∨ ¬rowSees field (c.w.c0 + n % c.w.tileN)) :=
    not_or.mpr ⟨Bool.eq_false_iff.mp hz, not_not_intro hv⟩
  obtain rfl : field = fun o k => (ms 2).bits (c.w.statElt (n / c.w.tileN) o k) := funext fun o => funext (hf o)
  subst hl
  exact if_neg (mt (scoreMasked_iff _ _ _).mp hn)

end Scores

/-- Settles O29: what a plan writes is read off its definition; the branches are those of MXQUANT, NaN operands, short and
masked rows, and the visible columns. -/
theorem operationValues : Obligations.OperationValues := by
  refine ⟨?matmul, ?matmulAcc, ?beyond, ?oneGroup, ?groupSizes, ?elem, ?functions, ?reduce, ?reduceRow, ?rowSum, ?rowstat,
    ?rowStats, ?scores, ?rowdotDscore⟩
  case matmul => exact fun c e i n old ms => rfl
  case matmulAcc => exact fun c e i n old ms => rfl
  case beyond => exact fun w ms r c k h => ⟨OpWord.aVal_beyond h ms r, OpWord.bVal_beyond h ms c⟩
  case oneGroup => exact fun w ms init r c hp hg => OpWord.dot_oneGroup hp hg ms init r c
  case groupSizes => decide
  case elem =>
    exact fun c e n old ms => ⟨fun h => elemPlan_bitsOut h e 4 n old ms, fun h =>
      ⟨elemPlan_bitsOut_mxquant h e 4 n old ms, elemPlan_bitsOut_mxquant h e 5 n old ms⟩⟩
  case functions =>
    exact fun a b c => ⟨rfl, rfl, rfl, rfl, rfl, rfl, fun h => ⟨FpVal.larger_nan h, FpVal.smaller_nan h⟩,
      fun ha hb h => ⟨FpVal.larger_of_lt ha hb h, FpVal.smaller_of_lt ha hb h⟩⟩
  case reduce => exact fun c e i j old ms => rfl
  case reduceRow => exact fun e i l => ⟨rfl, rfl, rfl, rfl⟩
  case rowSum => exact fun e i a b => ⟨rfl, rowSum_single e i a, rowSum_pair e i a b⟩
  case rowstat => exact fun c e j old ms => ⟨rfl, rfl⟩
  case rowStats => exact fun e i l => ⟨fun h => rowStats_softmax h e i, fun h => rowStats_softmax_masked h e i⟩
  case scores =>
    rintro c e i n old _ _ ms field l rfl rfl hf hl
    exact ⟨fun h => bwdScoresPlan_masked hf hl h e i old,
      fun hz hc hw => bwdScoresPlan_visible hf hl hz ⟨hc, hw⟩ e i old⟩
  case rowdotDscore => exact fun c e i n old ms => ⟨rfl, rfl⟩

end Sys2Proof.Machine
end

section
/-! The image load (R37, R68, R69): the outcomes of a header that was read, and what placing an image leaves unchanged. -/

namespace Sys2Proof.Machine
open Sys2Proof Sys2Proof.Claims

/-! ### What an image writes -/

/-- `d` with the tables, the block buffer, the instruction memory and the block states of `e`: all that an image load
writes. -/
def Dev.imageOf (d e : Dev) : Dev :=
  { d with
    bufregs := e.bufregs, bbuf := e.bbuf, badBbuf := e.badBbuf, imem := e.imem, badImem := e.badImem
    blocks := e.blocks }

/-- `e` differs from `d` at most where an image load writes. -/
def Dev.ImageOnly (d e : Dev) : Prop := e = d.imageOf e

theorem Dev.ImageOnly.trans {a b c : Dev} (h : a.ImageOnly b) (k : b.ImageOnly c) : a.ImageOnly c :=
  Eq.trans k (congrArg (fun x => x.imageOf c) h)

theorem foldl_imageOnly {β : Type} (f : Dev → β → Dev) (l : List β) (d : Dev) (h : ∀ (a : Dev) (x : β), a.ImageOnly (f a x)) :
    d.ImageOnly (l.foldl f d) := by
  induction l generalizing d with
  | nil => exact rfl
  | cons x r ih => exact (h d x).trans (ih (f d x))

theorem Dev.setBufreg_imageOnly (d : Dev) (k : Nat) (x : Word) : d.ImageOnly (d.setBufreg k x) := rfl

theorem Dev.putBufregs_imageOnly (d : Dev) (g : Nat) (es : List Nat) : d.ImageOnly (d.putBufregs g es) :=
  foldl_imageOnly _ _ d fun a _ => a.setBufreg_imageOnly _ _

theorem Dev.bbufWrite_imageOnly (d : Dev) (k a : Nat) (bytes : List Byte) : d.ImageOnly (d.bbufWrite k a bytes) := rfl

theorem Dev.clearImem_imageOnly (d : Dev) (k : Nat) : d.ImageOnly (d.clearImem k) := rfl

theorem Dev.setOpword_imageOnly (d : Dev) (k x : Nat) : d.ImageOnly (d.setOpword k x) := rfl

theorem Dev.modBlk_imageOnly (d : Dev) (k : Nat) (f : BlockSt → BlockSt) : d.ImageOnly (d.modBlk k f) := rfl

theorem Dev.placeImage_imageOnly (d : Dev) (k ops descs : Nat) (img : List Byte) :
    d.ImageOnly (d.placeImage k ops descs img) := by
  have tables : d.ImageOnly ((List.range 8).foldl (fun a c => a.putBufregs (8 * k + c) (imageBufregs img c)) d) :=
    foldl_imageOnly _ _ d fun a _ => a.putBufregs_imageOnly _ _
  unfold Dev.placeImage
  refine tables.trans ?_
  refine (Dev.bbufWrite_imageOnly _ k 0 (slice img 2112 (32 * descs))).trans ?_
  refine (Dev.clearImem_imageOnly _ k).trans ?_
  exact (foldl_imageOnly _ _ _ fun a _ => a.setOpword_imageOnly _ _).trans (Dev.modBlk_imageOnly _ _ _)

/-! ### The outcomes of a header -/

/-- The accessor of an image load is the copy engine of the block's region. -/
theorem copyEngine_of_block (r : Region) (b : Blk) (h : (4 * r.val + b.val) / 4 % 12 < 12) :
    Accessor.copyEngine ⟨(4 * r.val + b.val) / 4 % 12, h⟩ = .copyEngine r := by
  have hr : (4 * r.val + b.val) / 4 % 12 = r.val := by omega
  exact congrArg Accessor.copyEngine (Fin.ext hr)

/-- The command loads the image of a block that waits for it. -/
theorem imageLoadDone_does {s : State} {r : Region} {b : Blk} (h : (s.dev.blk (4 * r.val + b.val)).st = .loading) :
    Does (.imageLoadDone r b) s (s.dev.imageDone (4 * r.val + b.val)) := by
  show execImageLoadDone r b s = _
  rw [execImageLoadDone, State.always_next, blkNo, h, decide_eq_true rfl, Dev.when_true]

/-- The counts of a header are in range (R68, R69). -/
def imageCountsOk (head : List Byte) : Prop :=
  0 < fieldOf head 0 4 ∧ fieldOf head 0 4 ≤ 8192 ∧ fieldOf head 4 4 ≤ 511

theorem imageCounts_refused_iff (head : List Byte) :
    (decide (fieldOf head 0 4 = 0) || decide (8192 < fieldOf head 0 4) || decide (511 < fieldOf head 4 4)) = true ↔
      ¬imageCountsOk head := by
  simp only [imageCountsOk, Bool.or_eq_true, decide_eq_true_eq]
  omega

section Header
variable {d d1 : Dev} {r : Region} {b : Blk} {head : List Byte}
  (hl : d.load (whoOf (.copyEngine r) .stream) (d.blk (4 * r.val + b.val)).image 2112 = .ok (d1, head))
include hl

theorem Dev.imageDone_badCounts (hc : ¬imageCountsOk head) : d.imageDone (4 * r.val + b.val) =
    d.blockHalt ((4 * r.val + b.val) / 4) ((4 * r.val + b.val) % 4) codeImageInvalid imageFault := by
  simp only [Dev.imageDone, copyEngine_of_block, hl, (imageCounts_refused_iff head).mpr hc, if_true]

section Counts
variable (hc : imageCountsOk head)
include hc

theorem Dev.imageDone_badBufregs {c : Nat} (h8 : c < 8) (hb : bufregsBad (imageBufregs head c) = true) :
    d.imageDone (4 * r.val + b.val) =
      d.blockHalt ((4 * r.val + b.val) / 4) ((4 * r.val + b.val) % 4) codeBufregInvalid imageFault := by
  have hany : (List.range 8).any (fun c => bufregsBad (imageBufregs head c)) = true :=
    List.any_eq_true.mpr ⟨c, List.mem_range.mpr h8, hb⟩
  simp only [Dev.imageDone, copyEngine_of_block, hl, if_neg (mt (imageCounts_refused_iff head).mp (not_not_intro hc)),
    if_pos hany]

theorem Dev.imageDone_places (hb : ∀ c : Nat, c < 8 → bufregsBad (imageBufregs head c) = false) {d2 : Dev}
    {rest : List Byte}
    (h2 : d1.load (whoOf (.copyEngine r) .stream) ((d.blk (4 * r.val + b.val)).image + 2112)
      (32 * fieldOf head 4 4 + 32 * fieldOf head 0 4) = .ok (d2, rest)) :
    d.imageDone (4 * r.val + b.val) = (d2.unserve (whoOf (.copyEngine r) .stream).party).placeImage
      (4 * r.val + b.val) (fieldOf head 0 4) (fieldOf head 4 4) (head ++ rest) := by
  have hany : ¬(List.range 8).any (fun c => bufregsBad (imageBufregs head c)) = true := by
    simpa only [List.any_eq_true, List.mem_range, not_exists, not_and, Bool.not_eq_true] using hb
  have hlen : imageBytes (fieldOf head 0 4) (fieldOf head 4 4) - 2112 =
      32 * fieldOf head 4 4 + 32 * fieldOf head 0 4 := by
    unfold imageBytes
    omega
  simp only [Dev.imageDone, copyEngine_of_block, hl, if_neg (mt (imageCounts_refused_iff head).mp (not_not_intro hc)),
    if_neg hany, hlen, h2]

end Counts
end Header

/-- Settles O31: a header with counts out of range, one with bad buffer regions, and a good image, whose writes stay in the
tables, the block buffer, the instruction memory and the block states. -/
theorem imageLoad : Obligations.ImageLoad := by
  refine ⟨?good, ?badCounts, ?badBufregs, fun d k ops descs img => d.placeImage_imageOnly k ops descs img⟩
  case good =>
    rintro s r b _ _ d1 d2 head rest _ _ rfl rfl hst hl rfl rfl h0 h1 h2 hb hr
    exact does_of_eq (Dev.imageDone_places hl ⟨h0, h1, h2⟩ hb hr) (imageLoadDone_does hst)
  case badCounts =>
    rintro s r b _ _ d1 head rfl rfl hst hl hc
    have hbad : ¬imageCountsOk head := by
      unfold imageCountsOk
      omega
    exact does_of_eq (Dev.imageDone_badCounts hl hbad) (imageLoadDone_does hst)
  case badBufregs =>
    rintro s r b _ c _ d1 head rfl rfl hst hl h0 h1 h2 h8 hb
    exact does_of_eq (Dev.imageDone_badBufregs hl ⟨h0, h1, h2⟩ h8 hb) (imageLoadDone_does hst)

end Sys2Proof.Machine
end

section
/-! What a plan may touch (R71): a step's accesses are remembered in the host interface, in the record of the memory that
the step uses (R375). -/

namespace Sys2Proof.Machine
open Sys2Proof Sys2Proof.Claims

/-- Device address 2^30: bank 0 of row 256 of stack 0, which no window page covers. -/
def stepAddr : Nat := 2 ^ 30

/-- A step of domain 0, which is tensor region 0, is in flight: the image is accepted, stack 0 is awake, and all of its rows
are assigned. -/
def steppingDev : Dev := { Dev.reset with
  chip.state := .ready, clk.regionAwake := 1, clk.stackAwake := 3, img.state := 5
  img.str := ⟨[⟨0, false, 1⟩], [⟨0, false, false, false, false, 0, false, 0, 0, 0, 3, 0, 20480⟩], [], [], none, 1, 0⟩
  doms := [(0, { Dom.zero with act := .running, step := some ⟨1, false, 0, 0, [], [], 0, 0, 0, true, false, []⟩ })] }

/-- A MOVE (0x10) of block 0 on its cell 0: SRC0 is the 64 bytes of device memory at `stepAddr` (table entry 0), DST0 is
buffer region 0, SRC3 is the geometry of one element (entry 1), and the element is of type 3, of one byte (R61, R92). -/
def moveFromMemory : Op :=
  opWith 0 (0x10 + 1 * 2 ^ 8 + 3 * 2 ^ 16 + 3 * 2 ^ 26 + 0x200 * 2 ^ 67 + 0x3FF * 2 ^ 77 + 0x3FF * 2 ^ 87 + 0x201 * 2 ^ 97 +
      0x3FF * 2 ^ 117)
    [1 + stepAddr * 2 ^ 64 + 64 * 2 ^ 128, 0, 0, 2, 0, 0]

/-- The plan of that MOVE runs, and the range that it read is remembered as one that the step of domain 0 uses. -/
theorem moveFromMemory_stepUse :
    (steppingDev.runPlan moveFromMemory 0 (movePlan moveFromMemory 0) 0).toOption.map (fun r => r.1.host.stepUse) =
      some [(0, [(stepAddr, 1)])] := by decide +kernel

/-- Refutes O30: a MOVE that reads device memory in a step leaves the range that it read in `host.stepUse` (R375, log 105),
so the host interface is not as it was. -/
theorem not_plansTouchMemoryOnly : ¬ Obligations.PlansTouchMemoryOnly := by
  intro h
  have hrun := moveFromMemory_stepUse
  cases hr : steppingDev.runPlan moveFromMemory 0 (movePlan moveFromMemory 0) 0 with
  | error e => rw [hr] at hrun; cases hrun
  | ok r =>
    obtain ⟨-, -, -, -, -, -, -, -, -, -, -, -, hhost, -⟩ := h _ _ _ _ _ _ _ hr
    rw [hr, Except.toOption, Option.map_some, hhost] at hrun
    cases hrun

end Sys2Proof.Machine
end

section
/-! Issue and completion of operations (R71, R72, R73, R75): what a fetch changes, the outcomes of an issue by what it meets
first, and what leaves with a completed operation. -/

namespace Sys2Proof.Machine
open Sys2Proof Sys2Proof.Claims

/-! ### What a fetch changes -/

/-- `d` with the error paths of instruction memory and block buffers, the counters, the saturation log and the inbox of
`e`: all that a fetch writes. -/
def Dev.fetchOf (d e : Dev) : Dev :=
  { d with pathImem := e.pathImem, pathBbuf := e.pathBbuf, counters := e.counters, chip := e.chip, ec := e.ec }

/-- `e` differs from `d` at most where a fetch writes. -/
def Dev.FetchOnly (d e : Dev) : Prop := e = d.fetchOf e

theorem Dev.FetchOnly.trans {a b c : Dev} (h : a.FetchOnly b) (k : b.FetchOnly c) : a.FetchOnly c :=
  Eq.trans k (congrArg (fun x => x.fetchOf c) h)

/-- A reflexive and transitive relation that each step of a fold keeps holds of the whole fold. -/
theorem foldl_rel {β : Type} {R : Dev → Dev → Prop} (hr : ∀ d : Dev, R d d) (ht : ∀ {a b c : Dev}, R a b → R b c → R a c)
    {f : Dev → β → Dev} (h : ∀ (a : Dev) (x : β), R a (f a x)) (l : List β) (d : Dev) : R d (l.foldl f d) := by
  induction l generalizing d with
  | nil => exact hr d
  | cons x r ih => exact ht (h d x) (ih (f d x))

theorem foldl_fetchOnly {β : Type} (f : Dev → β → Dev) (l : List β) (d : Dev)
    (h : ∀ (a : Dev) (x : β), a.FetchOnly (f a x)) : d.FetchOnly (l.foldl f d) :=
  foldl_rel (R := Dev.FetchOnly) (fun _ => rfl) Dev.FetchOnly.trans h l d

theorem Dev.saturated_fetchOnly (d : Dev) (off : Nat) : d.FetchOnly (d.saturated off) := by
  unfold Dev.saturated
  (repeat' split) <;> rfl

theorem Dev.bumpBy_fetchOnly (d : Dev) (off n : Nat) : d.FetchOnly (d.bumpBy off n) := by
  unfold Dev.bumpBy
  dsimp only
  split
  · exact Dev.FetchOnly.trans (b := d.setCtr off _) rfl (Dev.saturated_fetchOnly _ _)
  · rfl

/-- A read of the block buffers that succeeds counts its replays and clears the paths of the run; where no path is in
error it changes nothing. -/
theorem Dev.bbufWords_fetchOnly {d e : Dev} {k n : Nat} (h : d.bbufWords k n = .ok e) :
    d.FetchOnly e ∧ (d.pathBbuf = [] → e = d) := by
  unfold Dev.bbufWords at h
  split at h
  · cases h
  · cases h
  · cases h
    refine ⟨?_, fun hp => ?_⟩
    · exact Dev.FetchOnly.trans (b := { d with pathBbuf := cleanPath d.pathBbuf k n }) rfl
        (foldl_fetchOnly _ _ _ fun a x => a.bumpBy_fetchOnly _ _)
    · obtain ⟨⟩ := d
      cases hp
      rfl

theorem Dev.fetchDescs_fetchOnly {d e : Dev} {k : Nat} {es : List Nat} (h : d.fetchDescs k es = .ok e) :
    d.FetchOnly e ∧ (d.pathBbuf = [] → e = d) := by
  induction es generalizing d with
  | nil => cases h; exact ⟨rfl, fun _ => rfl⟩
  | cons x r ih =>
    unfold Dev.fetchDescs at h
    split at h
    · cases h
    next d1 h1 =>
      obtain ⟨hone, hclean⟩ := Dev.bbufWords_fetchOnly h1
      obtain ⟨hrest, hrestClean⟩ := ih h
      refine ⟨hone.trans hrest, fun hp => ?_⟩
      cases hclean hp
      exact hrestClean hp

/-- The device in which the replays of instruction-memory entry `index` are counted. -/
def Dev.fetchedWord (d : Dev) (k index : Nat) : Dev :=
  let entry := fun e : Nat × Nat => decide (e.1 / 8 = k * 8192 + index)
  let n : Nat := (d.pathImem.filter entry).foldl (fun a e => a + e.2) 0
  if n = 0 then d else { d with pathImem := d.pathImem.filter (fun e => !entry e) }.bumpBy (blockReplaysAt k) n

theorem Dev.fetchedWord_fetchOnly (d : Dev) (k index : Nat) : d.FetchOnly (d.fetchedWord k index) := by
  unfold Dev.fetchedWord
  dsimp only
  split
  · rfl
  · exact Dev.FetchOnly.trans (b := { d with pathImem := d.pathImem.filter _ }) rfl (Dev.bumpBy_fetchOnly _ _ _)

theorem Dev.fetchedWord_clean {d : Dev} (h : d.pathImem = []) (k index : Nat) : d.fetchedWord k index = d := by
  unfold Dev.fetchedWord
  rw [h]
  rfl

/-- A fetch that succeeds reads the word, then the descriptors. -/
theorem Dev.fetchOp_ok {d e : Dev} {k index : Nat} {w : OpWord} (h : d.fetchOp k index w = .ok e) :
    (d.fetchedWord k index).fetchDescs k w.entries = .ok e := by
  unfold Dev.fetchOp at h
  dsimp only at h
  split at h
  · cases h
  · cases h
  · exact h

theorem Dev.fetchOp_fetchOnly {d e : Dev} {k index : Nat} {w : OpWord} (h : d.fetchOp k index w = .ok e) :
    d.FetchOnly e ∧ (d.pathImem = [] → d.pathBbuf = [] → e = d) := by
  obtain ⟨hdescs, hclean⟩ := Dev.fetchDescs_fetchOnly (Dev.fetchOp_ok h)
  refine ⟨(d.fetchedWord_fetchOnly k index).trans hdescs, fun hi hb => ?_⟩
  rw [Dev.fetchedWord_clean hi] at hclean
  exact hclean hb

/-! ### Issue -/

section Issue
variable {d d1 : Dev} {k : Nat} (hf : d.fetchOp k (d.blk k).next (d.nextWord k) = .ok d1)
include hf

theorem Dev.issue_refused {code o : Nat} (hc : d1.checkOp k (d.nextWord k) = some (code, o)) :
    d.issue k = d1.opHalt k code (d.blk k).next o (d.nextWord k).opcode := by
  simp only [Dev.issue, hf, hc]

section Checked
variable (hc : d1.checkOp k (d.nextWord k) = none)
include hc

theorem Dev.issue_fenced (hw : (d1.blk k).fenced (d.nextWord k) = true) : d.issue k = d1 := by
  simp only [Dev.issue, hf, hc, hw, if_true]

theorem Dev.issue_checked (hw : (d1.blk k).fenced (d.nextWord k) = false) :
    d.issue k = d1.issueReady k (d.nextWord k) := by
  simp only [Dev.issue, hf, hc, hw, Bool.false_eq_true, if_false]

end Checked
end Issue

/-- No wait begins for an operation without one. -/
theorem Dev.beginWait_none {w : OpWord} (hw : w.waitEn = false) (ho : w.opcode ≠ 0x30) (d : Dev) (k : Nat) :
    d.beginWait k w = d := by
  simp [Dev.beginWait, hw, ho]

/-- No shared port knows of an operation but a TREE_REDUCE and a SPAN_RECV. -/
theorem Dev.joinPort_other {w : OpWord} (ht : w.opcode ≠ 0x28) (hr : w.opcode ≠ 0x2A) (d : Dev) (k i : Nat) :
    d.joinPort k w i = d := by
  unfold Dev.joinPort
  split
  · exact absurd ‹_› ht
  · exact absurd ‹_› hr
  · rfl

/-- An operation without waits that neither the scoreboard nor an engine holds enters flight. -/
theorem Dev.issueReady_enters {d : Dev} {k : Nat} {w : OpWord} (hw : w.waitEn = false) (ho : w.opcode ≠ 0x30)
    (ht : w.opcode ≠ 0x28) (hr : w.opcode ≠ 0x2A) (hs : d.scoreHeld k w = false) (hroom : d.room (d.opOf k w) = true) :
    d.issueReady k w = d.enterFlight k w false := by
  have hdone : (d.blk k).waitsDone w = true := by simp [BlockSt.waitsDone, hw, ho]
  simp only [Dev.issueReady, Dev.beginWait_none hw ho, Dev.joinPort_other ht hr, hdone, hs, hroom, ho, decide_false,
    Bool.not_true, Bool.false_eq_true, if_true, if_false]

theorem opIssue_does {s : State} {r : Region} {b : Blk} (h : s.dev.issues (4 * r.val + b.val) = true) :
    Does (.opIssue r b) s (s.dev.issue (4 * r.val + b.val)) :=
  does_of_eq (if_pos h) rfl

theorem opIssue_idle {s : State} {r : Region} {b : Blk} (h : s.dev.issues (4 * r.val + b.val) = false) :
    Does (.opIssue r b) s s.dev :=
  does_of_eq (if_neg (Bool.eq_false_iff.mp h)) rfl

theorem waitFlag_idle {s : State} {r : Region} {b : Blk} (h : s.dev.issues (4 * r.val + b.val) = false) :
    Does (.waitFlag r b) s s.dev :=
  does_of_eq (if_neg (by simp [blkNo, h])) rfl

/-! ### Completion -/

/-- The device that the completed operation `f` of block `k` has left, counted there. -/
def Dev.left (d : Dev) (k : Nat) (f : Flight) : Dev :=
  (d.modBlk k (fun b => { b with fly := b.fly.filter (fun x => decide (x.index ≠ f.index)) })).bump (opsCompletedAt k)

section Complete
variable {d : Dev} {k pos : Nat} {f : Flight} (hf : (d.blk k).fly[pos]? = some f)
include hf

theorem Dev.complete_unfinished (hd : f.done = false) : d.complete k pos = d := by
  simp [Dev.complete, hf, hd]

section Done
variable (hd : f.done = true) (hm : d.mirrorFull = false)
include hd hm

theorem Dev.complete_noFlag (hs : OpWord.setEn f.word = false) : d.complete k pos = d.left k f := by
  simp only [Dev.complete, hf, hd, hm, hs, Bool.not_true, Bool.or_self, Bool.false_eq_true, if_false, Dev.left]

theorem Dev.complete_setsFlag (hs : OpWord.setEn f.word = true) {e : Dev}
    (he : (d.left k f).flagAdd (k / 4) (OpWord.setNum f.word) 1 = some e) : d.complete k pos = e := by
  rw [Dev.left] at he
  simp only [Dev.complete, hf, hd, hm, hs, he, Bool.not_true, Bool.or_self, Bool.false_eq_true, if_false, if_true]

end Done
end Complete

theorem opComplete_does {s : State} {r : Region} {b : Blk} (h : (s.dev.blk (4 * r.val + b.val)).st = .running)
    (pos : Fin 32) : Does (.opComplete r b pos) s (s.dev.complete (4 * r.val + b.val) pos.val) :=
  does_of_eq (if_pos (decide_eq_true h)) rfl

/-- Where the completion would change nothing, the command changes nothing, whether the block runs or not. -/
theorem opComplete_idle {s : State} {r : Region} {b : Blk} {pos : Fin 32}
    (h : s.dev.complete (4 * r.val + b.val) pos.val = s.dev) : Does (.opComplete r b pos) s s.dev :=
  does_of_eq (e := s.dev.when (s.dev.blk (4 * r.val + b.val)).acts fun d => d.complete (4 * r.val + b.val) pos.val)
    (by rw [Dev.when, h, ite_self]) rfl

/-- Settles O25: an issue by what it meets first, a completion by whether the operation is done. -/
theorem issueAndCompletion : Obligations.IssueAndCompletion := by
  refine ⟨?issue, fun d k i w d1 h => Dev.fetchOp_fetchOnly h, fun s r b h => ⟨opIssue_idle h, waitFlag_idle h⟩,
    fun d r b code info => rfl, ?completes, ?completesFlag, ?unfinished⟩
  case issue =>
    rintro s r b _ _ d1 rfl rfl hi hf
    refine ⟨?_, ?_, ?_⟩
    · intro hc hw hwait ho ht hr hs hroom
      exact does_of_eq ((Dev.issue_checked hf hc hw).trans (Dev.issueReady_enters hwait ho ht hr hs hroom))
        (opIssue_does hi)
    · intro code o hc
      exact does_of_eq (Dev.issue_refused hf hc) (opIssue_does hi)
    · intro hc hw
      exact does_of_eq (Dev.issue_fenced hf hc hw) (opIssue_does hi)
  case completes =>
    rintro s r b _ f rfl hst hf hd hm hs
    exact does_of_eq (Dev.complete_noFlag hf hd hm hs) (opComplete_does hst 0)
  case completesFlag =>
    rintro s r b _ f rfl hst hf hd hm hs _ e rfl he
    exact does_of_eq (Dev.complete_setsFlag hf hd hm hs he) (opComplete_does hst 0)
  case unfinished => exact fun s r b pos f hf hd => opComplete_idle (Dev.complete_unfinished hf hd)

end Sys2Proof.Machine
end

section
/-! Counting flags (R77, R79 to R82): a set of the region's own flag or of another region's, the waits that an increment
serves, and a WAIT_FLAG that is satisfied at once or waits. -/

namespace Sys2Proof.Machine
open Sys2Proof Sys2Proof.Claims

/-! ### Blocks, flags and waits are separate arrays -/

@[simp] theorem Dev.modBlk_read (d : Dev) (k : Nat) (f : BlockSt → BlockSt) : (d.modBlk k f).blk k = f (d.blk k) :=
  d.setBlk_read k _

theorem Dev.modBlk_other (d : Dev) {k j : Nat} (f : BlockSt → BlockSt) (hj : j ≠ k) : (d.modBlk k f).blk j = d.blk j :=
  d.setBlk_other k j _ hj

@[simp] theorem Dev.modBlk_flag (d : Dev) (k x : Nat) (f : BlockSt → BlockSt) : (d.modBlk k f).flag x = d.flag x := rfl

@[simp] theorem Dev.modBlk_waitq (d : Dev) (k x : Nat) (f : BlockSt → BlockSt) : (d.modBlk k f).waitq x = d.waitq x := rfl

@[simp] theorem Dev.modFlag_blk (d : Dev) (x k : Nat) (f : Nat → Nat) : (d.modFlag x f).blk k = d.blk k := rfl

@[simp] theorem Dev.modFlag_read (d : Dev) (x : Nat) (f : Nat → Nat) : (d.modFlag x f).flag x = f (d.flag x) :=
  d.setFlag_read x _

theorem Dev.modFlag_other (d : Dev) {x y : Nat} (f : Nat → Nat) (hy : y ≠ x) : (d.modFlag x f).flag y = d.flag y :=
  d.setFlag_other x y _ hy

@[simp] theorem Dev.setWaitq_blk (d : Dev) (x k : Nat) (l : List Nat) : (d.setWaitq x l).blk k = d.blk k := rfl

@[simp] theorem Dev.setWaitq_flag (d : Dev) (x y : Nat) (l : List Nat) : (d.setWaitq x l).flag y = d.flag y := rfl

/-- A change of the block that leaves its place in the program leaves the next word. -/
theorem Dev.nextWord_modBlk {d : Dev} {k : Nat} {f : BlockSt → BlockSt} (h : (f (d.blk k)).next = (d.blk k).next) :
    (d.modBlk k f).nextWord k = d.nextWord k := by
  rw [Dev.nextWord, Dev.modBlk_read, h]
  rfl

/-- `d` with the flags, the waits and the block states of `e`: all that the wait of a block writes. -/
def Dev.flagsOf (d e : Dev) : Dev := { d with flags := e.flags, waiters := e.waiters, blocks := e.blocks }

/-- `e` differs from `d` at most where the wait of a block writes. -/
def Dev.FlagsOnly (d e : Dev) : Prop := e = d.flagsOf e

theorem Dev.FlagsOnly.trans {a b c : Dev} (h : a.FlagsOnly b) (k : b.FlagsOnly c) : a.FlagsOnly c :=
  Eq.trans k (congrArg (fun x => x.flagsOf c) h)

theorem Dev.modBlk_flagsOnly (d : Dev) (k : Nat) (f : BlockSt → BlockSt) : d.FlagsOnly (d.modBlk k f) := rfl

theorem Dev.modFlag_flagsOnly (d : Dev) (x : Nat) (f : Nat → Nat) : d.FlagsOnly (d.modFlag x f) := rfl

theorem Dev.setWaitq_flagsOnly (d : Dev) (x : Nat) (l : List Nat) : d.FlagsOnly (d.setWaitq x l) := rfl

/-! ### The waits of a flag (R79, R80) -/

section Head
variable {d : Dev} {f k : Nat} {x : Nat × Nat} (hw : (d.blk k).wait = some x)
include hw

/-- The first wait is not satisfied: it and those behind it stay. -/
theorem Dev.serveWaits_stays (h : d.flag f < x.2) (ks : List Nat) : d.serveWaits f (k :: ks) = d.setWaitq f (k :: ks) := by
  simp only [Dev.serveWaits, hw, if_neg (Nat.not_le.mpr h)]

/-- The first wait is satisfied, and then the next one comes. -/
theorem Dev.serveWaits_grants (h : x.2 ≤ d.flag f) (ks : List Nat) :
    d.serveWaits f (k :: ks) = (d.grantWait f k x.2).serveWaits f ks := by
  simp only [Dev.serveWaits, hw, if_pos h]

end Head

/-- What the grant of a wait does with the block. -/
def BlockSt.granted (b : BlockSt) (own : Bool) : BlockSt :=
  if own then { b with wait := none, flagTaken := true } else { b with wait := none, waitTaken := true }

theorem Dev.grantWait_peeks {d : Dev} {k : Nat} (h : (d.ownWait k && (d.nextWord k).peek) = true) (f want : Nat) :
    d.grantWait f k want = d.modBlk k (fun b => b.granted (d.ownWait k)) := by
  simp only [Dev.grantWait, h, if_true]
  rfl

theorem Dev.grantWait_consumes {d : Dev} {k : Nat} (h : (d.ownWait k && (d.nextWord k).peek) = false) (f want : Nat) :
    d.grantWait f k want = (d.modFlag f (fun c => c - want)).modBlk k (fun b => b.granted (d.ownWait k)) := by
  simp only [Dev.grantWait, h, Bool.false_eq_true, if_false]
  rfl

theorem Dev.grantWait_frame (d : Dev) (f k want : Nat) : d.grantWait f k want =
    { d with flags := (d.grantWait f k want).flags, blocks := (d.grantWait f k want).blocks } := by
  cases h : d.ownWait k && (d.nextWord k).peek with
  | true => rw [Dev.grantWait_peeks h]; rfl
  | false => rw [Dev.grantWait_consumes h]; rfl

theorem Dev.grantWait_blk (d : Dev) (f k want : Nat) :
    (d.grantWait f k want).blk k = (d.blk k).granted (d.ownWait k) := by
  cases h : d.ownWait k && (d.nextWord k).peek with
  | true => rw [Dev.grantWait_peeks h, Dev.modBlk_read]
  | false => rw [Dev.grantWait_consumes h, Dev.modBlk_read, Dev.modFlag_blk]

theorem Dev.grantWait_blk_other (d : Dev) (f want : Nat) {k j : Nat} (hj : j ≠ k) :
    (d.grantWait f k want).blk j = d.blk j := by
  cases h : d.ownWait k && (d.nextWord k).peek with
  | true => rw [Dev.grantWait_peeks h, Dev.modBlk_other _ _ hj]
  | false => rw [Dev.grantWait_consumes h, Dev.modBlk_other _ _ hj, Dev.modFlag_blk]

theorem Dev.grantWait_flag (d : Dev) (f k want : Nat) : (d.grantWait f k want).flag f =
    if d.ownWait k && (d.nextWord k).peek then d.flag f else d.flag f - want := by
  cases h : d.ownWait k && (d.nextWord k).peek with
  | true => rw [Dev.grantWait_peeks h, Dev.modBlk_flag, if_pos rfl]
  | false => rw [Dev.grantWait_consumes h, Dev.modBlk_flag, Dev.modFlag_read, if_neg Bool.false_ne_true]

theorem Dev.grantWait_flag_other (d : Dev) (k want : Nat) {f x : Nat} (hx : x ≠ f) :
    (d.grantWait f k want).flag x = d.flag x := by
  cases h : d.ownWait k && (d.nextWord k).peek with
  | true => rw [Dev.grantWait_peeks h, Dev.modBlk_flag]
  | false => rw [Dev.grantWait_consumes h, Dev.modBlk_flag, Dev.modFlag_other _ _ hx]

theorem BlockSt.granted_wait (b : BlockSt) (own : Bool) : (b.granted own).wait = none := by cases own <;> rfl

theorem BlockSt.granted_flagTaken (b : BlockSt) (own : Bool) : (b.granted own).flagTaken = (b.flagTaken || own) := by
  cases own
  · exact (Bool.or_false _).symm
  · exact (Bool.or_true _).symm

theorem BlockSt.granted_waitTaken (b : BlockSt) (own : Bool) : (b.granted own).waitTaken = (b.waitTaken || !own) := by
  cases own
  · exact (Bool.or_true _).symm
  · exact (Bool.or_false _).symm

/-! ### Increments (R81) -/

section Increment
variable {d : Dev} {r f incr : Nat} (hc : d.controlled r f = none)
include hc

theorem Dev.flagAdd_overflow (h : 65535 < d.flag (flagKey r f) + incr) : d.flagAdd r f incr = none := by
  simp only [Dev.flagAdd, hc, if_pos h]

/-- An increment that stays in range adds to the count and serves the waits of the flag. -/
theorem Dev.flagAdd_adds (h : d.flag (flagKey r f) + incr ≤ 65535) : d.flagAdd r f incr =
    some ((d.modFlag (flagKey r f) (fun c => c + incr)).serveWaits (flagKey r f) (d.waitq (flagKey r f))) := by
  simp only [Dev.flagAdd, hc, if_neg (Nat.not_lt.mpr h)]
  rfl

end Increment

/-! ### SET_FLAG and REMOTE_FLAG_SET (R79, R82) -/

section SetFlag
variable {d : Dev} {k : Nat} {f : Flight} {rest : List Flight} (hf : (d.blk k).fly = f :: rest)
  (ho : OpWord.opcode f.word = 0x31) (hb : f.begun = false)
include hf ho hb

theorem Dev.setFlagOp_sends (hp : OpWord.peek f.word = true) (hr : OpWord.region f.word ≠ k / 4) : d.setFlagOp k =
    (d.sendFabric (k / 4) (OpWord.region f.word) .ctrl
      (.flagSet (OpWord.flag f.word) (OpWord.count f.word) (k % 4) f.index)).modFlight k f.index
        (fun x => { x with begun := true }) := by
  simp [Dev.setFlagOp, hf, ho, hb, hp, hr]

section Own
variable (hp : OpWord.peek f.word = false)
include hp

theorem Dev.setFlagOp_adds {e : Dev} (h : d.flagAdd (k / 4) (OpWord.flag f.word) (OpWord.count f.word) = some e) :
    d.setFlagOp k = e.finish k f.index := by
  simp [Dev.setFlagOp, hf, ho, hb, hp, h]

theorem Dev.setFlagOp_overflows (h : d.flagAdd (k / 4) (OpWord.flag f.word) (OpWord.count f.word) = none) :
    d.setFlagOp k = d.opHalt k codeFlagOverflow f.index 7 0x31 := by
  simp [Dev.setFlagOp, hf, ho, hb, hp, h]

end Own
end SetFlag

theorem setFlag_does {s : State} {r : Region} {b : Blk} (h : (s.dev.blk (4 * r.val + b.val)).st = .running) :
    Does (.setFlag r b) s (s.dev.setFlagOp (4 * r.val + b.val)) :=
  does_of_eq (if_pos (decide_eq_true h)) rfl

/-- The oldest set that has arrived is applied, and its sender is done. -/
theorem Dev.remoteSet_applies {d e : Dev} {r src dst flag incr blk index : Nat} {c : FabClass} {rest : List FabMsg}
    (h : (d.region r).arrived = ⟨src, dst, c, .flagSet flag incr blk index⟩ :: rest)
    (he : (d.modRegion r (fun x => { x with arrived := rest })).flagAdd r flag incr = some e) :
    d.remoteSet r = e.finish (4 * src + blk) index := by
  simp only [Dev.remoteSet, h, takeMsg, FabMsg.isSet, if_true, he]

/-! ### WAIT_FLAG (R79, R80) -/

/-- Block `k` waits until flag `f` of its region reaches `want`. -/
def Dev.waitsOn (d : Dev) (k f want : Nat) : Dev :=
  d.modBlk k (fun b => { b with wait := some (f, want), lastWait := (f, want) })

theorem Dev.startWait_eq (d : Dev) (k f want : Nat) : d.startWait k f want =
    (d.waitsOn k f want).serveWaits (flagKey (k / 4) f) (d.waitq (flagKey (k / 4) f) ++ [k]) := rfl

theorem Dev.waitsOn_wait (d : Dev) (k f want : Nat) : ((d.waitsOn k f want).blk k).wait = some (f, want) := by
  rw [Dev.waitsOn, Dev.modBlk_read]

/-- An oldest unissued WAIT_FLAG without an embedded wait, whose own wait has not begun, with nothing in flight. -/
structure Dev.CanWait (d : Dev) (k : Nat) (w : OpWord) : Prop where
  word : w = d.nextWord k
  opcode : w.opcode = 0x30
  plain : w.waitEn = false
  alone : (d.blk k).fly = []
  fresh : (d.blk k).wait = none
  untaken : (d.blk k).flagTaken = false

theorem Dev.waitsOn_flagsOnly (d : Dev) (k f want : Nat) : d.FlagsOnly (d.waitsOn k f want) := rfl

theorem Dev.enterFlight_flagsOnly (d : Dev) (k : Nat) (w : OpWord) (done : Bool) : d.FlagsOnly (d.enterFlight k w done) := rfl

/-- The device after a wait of block `k` that its flag satisfied at once: the count is consumed, and nobody waits. -/
def Dev.waitPassed (d : Dev) (k : Nat) (w : OpWord) : Dev :=
  (((d.waitsOn k w.flag w.count).modFlag (flagKey (k / 4) w.flag) (fun c => c - w.count)).modBlk k
    (fun b => b.granted true)).setWaitq (flagKey (k / 4) w.flag) []

/-- The device in which that operation has issued. -/
def Dev.waitIssued (d : Dev) (k : Nat) (w : OpWord) : Dev := (d.waitPassed k w).enterFlight k w true

theorem Dev.waitIssued_flagsOnly (d : Dev) (k : Nat) (w : OpWord) : d.FlagsOnly (d.waitIssued k w) := by
  unfold Dev.waitIssued Dev.waitPassed
  exact ((((d.waitsOn_flagsOnly k _ _).trans (Dev.modFlag_flagsOnly _ _ _)).trans (Dev.modBlk_flagsOnly _ _ _)).trans
    (Dev.setWaitq_flagsOnly _ _ _)).trans (Dev.enterFlight_flagsOnly _ _ _ _)

theorem Dev.waitIssued_flag (d : Dev) (k : Nat) (w : OpWord) (x : Nat) : (d.waitIssued k w).flag x =
    if x = flagKey (k / 4) w.flag then d.flag x - w.count else d.flag x := by
  show ((d.waitsOn k w.flag w.count).modFlag (flagKey (k / 4) w.flag) (fun c => c - w.count)).flag x = _
  split
  next hx => rw [hx, Dev.modFlag_read]; rfl
  next hx => rw [Dev.modFlag_other _ _ hx]; rfl

theorem Dev.waitPassed_blk (d : Dev) (k : Nat) (w : OpWord) : (d.waitPassed k w).blk k =
    { d.blk k with wait := none, lastWait := (w.flag, w.count), flagTaken := true } := by
  rw [Dev.waitPassed, Dev.setWaitq_blk, Dev.modBlk_read, Dev.modFlag_blk, Dev.waitsOn, Dev.modBlk_read]
  rfl

theorem Dev.waitIssued_blk (d : Dev) (k : Nat) (w : OpWord) : (d.waitIssued k w).blk k =
    { d.blk k with
      fly := (d.blk k).fly ++ [⟨(d.blk k).next, w, d.rawsOf k w, true, true, [], false, 0⟩], next := (d.blk k).next + 1
      wait := none, lastWait := (w.flag, w.count), waitTaken := false, flagTaken := false, heldScore := false } := by
  rw [Dev.waitIssued, Dev.enterFlight, Dev.modBlk_read, Dev.waitPassed_blk]
  rfl

section WaitFlag
variable {d : Dev} {k : Nat} {w : OpWord} (h : d.CanWait k w)
include h

theorem Dev.CanWait.beginWait : d.beginWait k w = d.startWait k w.flag w.count := by
  simp [Dev.beginWait, h.fresh, h.plain, h.opcode, h.untaken]

theorem Dev.CanWait.issue (hf : d.fetchOp k (d.blk k).next w = .ok d) (hc : d.checkOp k w = none) :
    d.issue k = d.issueReady k w := by
  obtain rfl := h.word
  have hfence : (d.blk k).fenced (d.nextWord k) = false := by simp [BlockSt.fenced, h.alone]
  simp only [Dev.issue, hf, hc, hfence, Bool.false_eq_true, if_false]

theorem Dev.CanWait.ownWait : (d.waitsOn k w.flag w.count).ownWait k = true := by
  have hn : (d.waitsOn k w.flag w.count).nextWord k = w := (Dev.nextWord_modBlk rfl).trans h.word.symm
  simp [Dev.ownWait, hn, h.opcode, h.plain]

/-- The wait stays where it has taken its place: nothing issues. -/
theorem Dev.CanWait.issueReady_waits {q : List Nat}
    (hq : (d.waitsOn k w.flag w.count).serveWaits (flagKey (k / 4) w.flag) (d.waitq (flagKey (k / 4) w.flag) ++ [k]) =
      (d.waitsOn k w.flag w.count).setWaitq (flagKey (k / 4) w.flag) q) :
    d.issueReady k w = (d.waitsOn k w.flag w.count).setWaitq (flagKey (k / 4) w.flag) q := by
  have hwait := d.waitsOn_wait k w.flag w.count
  have huntaken : ((d.waitsOn k w.flag w.count).blk k).flagTaken = false := by
    rw [Dev.waitsOn, Dev.modBlk_read, h.untaken]
  have hstays : ((d.waitsOn k w.flag w.count).setWaitq (flagKey (k / 4) w.flag) q).beginWait k w =
      (d.waitsOn k w.flag w.count).setWaitq (flagKey (k / 4) w.flag) q := by
    simp [Dev.beginWait, hwait]
  simp [Dev.issueReady, h.beginWait, Dev.startWait_eq, hq, hstays, BlockSt.waitsDone, h.opcode, huntaken]

/-- A WAIT_FLAG whose wait is satisfied enters flight, done: nothing is in flight, and the sequencer has room. -/
theorem Dev.issueReady_passes {e : Dev} (hs : d.startWait k w.flag w.count = e) (hw : (e.blk k).wait = none)
    (ht : (e.blk k).flagTaken = true) (hfly : (e.blk k).fly = []) : d.issueReady k w = e.enterFlight k w true := by
  have hbegun : e.beginWait k w = e := by simp [Dev.beginWait, hw, h.plain, ht]
  have hdone : (e.blk k).waitsDone w = true := by simp [BlockSt.waitsDone, h.plain, ht]
  have hscore : e.scoreHeld k w = false := by simp [Dev.scoreHeld, hfly]
  have hcode : (e.opOf k w).code = 0x30 := h.opcode
  have hroom : e.room (e.opOf k w) = true := by
    have hk : (e.opOf k w).k = k := rfl
    simp [Dev.room, hk, hcode, hfly, enginesOf, roomOn]
  simp [Dev.issueReady, h.beginWait, hs, hbegun, hdone, hscore, hroom, h.opcode, Dev.joinPort]

section Satisfied
variable (hq : d.waitq (flagKey (k / 4) w.flag) = []) (hp : w.peek = false) (hle : w.count ≤ d.flag (flagKey (k / 4) w.flag))
include hq hp hle

theorem Dev.CanWait.startWait_passes : d.startWait k w.flag w.count = d.waitPassed k w := by
  have hn : (d.waitsOn k w.flag w.count).nextWord k = w := (Dev.nextWord_modBlk rfl).trans h.word.symm
  have hpeek : ((d.waitsOn k w.flag w.count).ownWait k && ((d.waitsOn k w.flag w.count).nextWord k).peek) = false := by
    rw [hn, hp, Bool.and_false]
  rw [Dev.startWait_eq, hq, List.nil_append, Dev.serveWaits_grants (d.waitsOn_wait k w.flag w.count) hle,
    Dev.grantWait_consumes hpeek, h.ownWait, Dev.serveWaits]
  rfl

theorem Dev.CanWait.issueReady_satisfied : d.issueReady k w = d.waitIssued k w :=
  Dev.issueReady_passes h (h.startWait_passes hq hp hle) (by rw [Dev.waitPassed_blk]) (by rw [Dev.waitPassed_blk])
    (by rw [Dev.waitPassed_blk, h.alone])

end Satisfied

/-- The wait is not satisfied, and nobody waits before it. -/
theorem Dev.CanWait.issueReady_unsatisfied (hq : d.waitq (flagKey (k / 4) w.flag) = [])
    (hlt : d.flag (flagKey (k / 4) w.flag) < w.count) :
    d.issueReady k w = (d.waitsOn k w.flag w.count).setWaitq (flagKey (k / 4) w.flag) [k] :=
  h.issueReady_waits (by rw [hq]; exact Dev.serveWaits_stays (d.waitsOn_wait k w.flag w.count) hlt [])

/-- An earlier wait of another block is not satisfied: the wait joins those behind it, whatever the count. -/
theorem Dev.CanWait.issueReady_joins {j : Nat} {ks : List Nat} {x : Nat × Nat}
    (hq : d.waitq (flagKey (k / 4) w.flag) = j :: ks) (hj : j ≠ k) (hx : (d.blk j).wait = some x)
    (hlt : d.flag (flagKey (k / 4) w.flag) < x.2) :
    d.issueReady k w = (d.waitsOn k w.flag w.count).setWaitq (flagKey (k / 4) w.flag) (j :: ks ++ [k]) := by
  have hhead : ((d.waitsOn k w.flag w.count).blk j).wait = some x := by rw [Dev.waitsOn, Dev.modBlk_other _ _ hj, hx]
  exact h.issueReady_waits (by rw [hq]; exact Dev.serveWaits_stays hhead hlt (ks ++ [k]))

/-- A block that has taken its place among the waits: the flags, what it has in flight and its place in the program stay. -/
theorem Dev.CanWait.waiting {s : State} {i : Instr} {q : List Nat}
    (hd : Does i s ((d.waitsOn k w.flag w.count).setWaitq (flagKey (k / 4) w.flag) q)) :
    ∃ e : Dev, Does i s e ∧ e.flags = d.flags ∧ (e.blk k).fly = [] ∧ (e.blk k).wait = some (w.flag, w.count) ∧
      e.waitq (flagKey (k / 4) w.flag) = q ∧ (e.blk k).next = (d.blk k).next :=
  ⟨_, hd, rfl, by simp [Dev.waitsOn, h.alone], by simp [Dev.waitsOn], by simp, by simp [Dev.waitsOn]⟩

end WaitFlag

theorem waitFlag_does {s : State} {r : Region} {b : Blk} (hi : s.dev.issues (4 * r.val + b.val) = true)
    (ho : (s.dev.nextWord (4 * r.val + b.val)).opcode = 0x30) :
    Does (.waitFlag r b) s (s.dev.issue (4 * r.val + b.val)) :=
  does_of_eq (if_pos (by simp [blkNo, hi, ho])) rfl

/-- Settles O26: sets by where their flag lies and by the count that they give, the waits that an increment serves, and a
WAIT_FLAG by what stands before it. -/
theorem flagOperations : Obligations.FlagOperations := by
  refine ⟨?setsUnwaited, ?sends, ?overflows, ?arrives, ?satisfied, ?unsatisfied, ?sets,
    fun d f k ks x hw => ⟨fun h => Dev.serveWaits_stays hw h ks, fun h => Dev.serveWaits_grants hw h ks⟩,
    fun d f => rfl, ?grants, ?joins⟩
  case setsUnwaited =>
    rintro s r b _ f rest rfl hst hf ho hb hp hc hq hle
    refine ⟨_, does_of_eq (Dev.setFlagOp_adds hf ho hb hp (Dev.flagAdd_adds hc hle)) (setFlag_does hst), ?_⟩
    rw [hq]
    rfl
  case sends =>
    rintro s r b _ f rest rfl hst hf ho hb hp hr
    exact does_of_eq (Dev.setFlagOp_sends hf ho hb hp hr) (setFlag_does hst)
  case overflows =>
    rintro s r b _ f rest rfl hst hf ho hb hp hc hlt
    exact does_of_eq (Dev.setFlagOp_overflows hf ho hb hp (Dev.flagAdd_overflow hc hlt)) (setFlag_does hst)
  case arrives =>
    intro s r src flag incr blk index rest e h he
    exact does_of_eq (Dev.remoteSet_applies h he) rfl
  case satisfied =>
    rintro s r b _ w rfl rfl hi hf hc ho hw hp hfly hwait htaken hq hle
    have h : s.dev.CanWait (4 * r.val + b.val) _ := ⟨rfl, ho, hw, hfly, hwait, htaken⟩
    refine ⟨_, does_of_eq ((h.issue hf hc).trans (h.issueReady_satisfied hq hp hle)) (waitFlag_does hi ho),
      s.dev.waitIssued_flagsOnly _ _, s.dev.waitIssued_flag _ _, ?_⟩
    rw [Dev.waitIssued_blk, hfly]
    exact ⟨rfl, rfl, rfl⟩
  case unsatisfied =>
    rintro s r b _ w rfl rfl hi hf hc ho hw hfly hwait htaken hq hlt
    have h : s.dev.CanWait (4 * r.val + b.val) _ := ⟨rfl, ho, hw, hfly, hwait, htaken⟩
    exact h.waiting (does_of_eq ((h.issue hf hc).trans (h.issueReady_unsatisfied hq hlt)) (waitFlag_does hi ho))
  case sets =>
    rintro s r b _ f rest rfl hst hf ho hb hp hc hle
    exact does_of_eq (Dev.setFlagOp_adds hf ho hb hp (Dev.flagAdd_adds hc hle)) (setFlag_does hst)
  case grants =>
    intro d f k want
    have hb := d.grantWait_blk f k want
    exact ⟨d.grantWait_frame f k want, by rw [hb, BlockSt.granted_wait], by rw [hb, BlockSt.granted_flagTaken],
      by rw [hb, BlockSt.granted_waitTaken], d.grantWait_flag f k want, fun x hx => d.grantWait_flag_other k want hx,
      fun j hj => d.grantWait_blk_other f want hj⟩
  case joins =>
    rintro s r b _ j ks w x rfl rfl hi hf hc ho hw hfly hwait htaken hq hj hx hlt
    have h : s.dev.CanWait (4 * r.val + b.val) _ := ⟨rfl, ho, hw, hfly, hwait, htaken⟩
    exact h.waiting (does_of_eq ((h.issue hf hc).trans (h.issueReady_joins hq hj hx hlt)) (waitFlag_does hi ho))

end Sys2Proof.Machine
end

section
/-! The operations of the engines (R71, R88 to R92, R118, R196): a plan that runs ends its operation or leaves an output to
come, and the frames of a LAYOUT that fail parity (R123). -/

namespace Sys2Proof.Machine
open Sys2Proof Sys2Proof.Claims

/-! ### A plan carried out (R71, R245) -/

section Execute
variable {d : Dev} {k o : Nat} {plan : Op → Nat → Plan}

theorem Dev.ready_notRunning (h : (d.blk k).st ≠ .running) (o : Nat) : d.ready k o = none :=
  if_neg (by simp [BlockSt.acts, h])

theorem Dev.execute_notReady (h : d.ready k o = none) : d.execute k o plan = d := by
  rw [Dev.execute, h]

/-- The operation whose writes are made, in the device `d`: it is done, unless an output still has to enter a queue. -/
def Dev.planned (d : Dev) (k : Nat) (f : Flight) (queued : Bool) : Dev :=
  (d.unserve (whoBlock k 0).party).drawn.modFlight k f.index
    (fun y => if queued then { y with begun := true } else { y with begun := true, done := true })

theorem Dev.planned_done (d : Dev) (k : Nat) (f : Flight) :
    d.planned k f false = (d.unserve (whoBlock k 0).party).drawn.finish k f.index := rfl

theorem Dev.planned_queued (d : Dev) (k : Nat) (f : Flight) : d.planned k f true =
    (d.unserve (whoBlock k 0).party).drawn.modFlight k f.index (fun x => { x with begun := true }) := rfl

theorem Dev.planEnd_ok (d d1 : Dev) (k : Nat) (f : Flight) (q : Bool) : d.planEnd k f (.ok (d1, q)) = d1.planned k f q := by
  cases q
  · rfl
  · rfl

theorem Dev.execute_runs {f : Flight} (hf : d.ready k o = some f) {d1 : Dev} {q : Bool}
    (hr : d.runPlan (f.op k) f.index ((plan (f.op k) d.free).after (f.op k) f.pos) d.free = .ok (d1, q)) :
    d.execute k o plan = d1.planned k f q := by
  simp only [Dev.execute, hf, hr, Dev.planEnd_ok]

end Execute

/-- An operation that stands at its first tile step runs its whole plan. -/
theorem Plan.after_zero (p : Plan) (c : Op) : p.after c 0 = p := if_pos rfl

/-- The commands of the operations that a plan carries out, but for LAYOUT and the indexed ones, with opcode and plan. -/
def plannedOps (r : Region) (b : Blk) : List (Instr × Nat × (Op → Nat → Plan)) :=
  [(.matmul r b, 0x01, matmulPlan), (.matmulAcc r b, 0x02, matmulAccPlan), (.elem r b, 0x08, elemPlan),
    (.reduce r b, 0x09, reducePlan), (.rowstat r b, 0x0A, rowstatPlan), (.move r b, 0x10, movePlan),
    (.bwdScores r b, 0x38, bwdScoresPlan), (.bwdRowdot r b, 0x39, bwdRowdotPlan), (.bwdDscore r b, 0x3A, bwdDscorePlan)]

/-- Each of those commands executes its opcode's plan. -/
theorem plannedOps_does {s : State} {r : Region} {b : Blk} {i : Instr} {o : Nat} {plan : Op → Nat → Plan}
    (h : (i, o, plan) ∈ plannedOps r b) : Does i s (s.dev.execute (4 * r.val + b.val) o plan) := by
  simp only [plannedOps, List.mem_cons, List.not_mem_nil, or_false, Prod.mk.injEq] at h
  rcases h with ⟨rfl, rfl, rfl⟩ | ⟨rfl, rfl, rfl⟩ | ⟨rfl, rfl, rfl⟩ | ⟨rfl, rfl, rfl⟩ | ⟨rfl, rfl, rfl⟩ | ⟨rfl, rfl, rfl⟩ |
    ⟨rfl, rfl, rfl⟩ | ⟨rfl, rfl, rfl⟩ | ⟨rfl, rfl, rfl⟩ <;> rfl

/-! ### Frames of a LAYOUT (R123) -/

theorem Dev.xnetReplays_bad {d : Dev} {k : Nat} (h : d.badXnet.contains k = true) : 3 < d.xnetReplays k := by
  rw [Dev.xnetReplays, if_pos h]
  exact Nat.lt_succ_self 3

theorem Dev.replayXnet_none {d : Dev} {k : Nat} (h : d.xnetReplays k = 0) : d.replayXnet k = d := if_pos h

theorem Dev.replayXnet_counts {d : Dev} {k : Nat} (h : d.xnetReplays k ≠ 0) : d.replayXnet k =
    Dev.bumpBy { d with pathXnet := Tab.write (fun _ => 0) d.pathXnet k 0 } (blockBase (k / 4) (k % 4) + 8)
      (min 3 (d.xnetReplays k)) := if_neg h

theorem Dev.replayXnet_blocks (d : Dev) (k : Nat) : (d.replayXnet k).blocks = d.blocks := by
  by_cases h : d.xnetReplays k = 0
  · rw [Dev.replayXnet_none h]
  · simp [Dev.replayXnet_counts h]

theorem Dev.ready_of_blocks {d e : Dev} (h : e.blocks = d.blocks) (k o : Nat) : e.ready k o = d.ready k o := by
  have hb : e.blk k = d.blk k := congrArg (fun t => Tab.read (fun _ => BlockSt.zero) t k) h
  simp only [Dev.ready, hb]

section Layout
variable {d : Dev} {k : Nat} {f : Flight} (hf : d.ready k 0x11 = some f)
include hf

theorem Dev.layout_halts (h : 3 < d.xnetReplays k) : d.layout k = (d.replayXnet k).opHalt k codeXnetParity f.index 7 0x11 := by
  rw [Dev.layout, hf]
  exact if_pos h

/-- A frame that needs at most three replays is moved once they are counted. -/
theorem Dev.layout_runs (h : d.xnetReplays k ≤ 3) {d1 : Dev} {q : Bool}
    (hr : (d.replayXnet k).runPlan (f.op k) f.index ((layoutPlan (f.op k) (d.replayXnet k).free).after (f.op k) f.pos)
      (d.replayXnet k).free = .ok (d1, q)) : d.layout k = d1.planned k f q := by
  have hready : (d.replayXnet k).ready k 0x11 = some f := (Dev.ready_of_blocks (d.replayXnet_blocks k) k 0x11).trans hf
  rw [Dev.layout, hf, ← Dev.execute_runs hready hr]
  exact if_neg (Nat.not_lt.mpr h)

end Layout

/-- Settles O27: an engine's operation by what its plan answers, and a LAYOUT by the replays that its frame needs. -/
theorem plannedOperations : Obligations.PlannedOperations := by
  refine ⟨?planned, ?layout, ?layoutHalts, Plan.after_zero, fun d k => ⟨Dev.xnetReplays_bad, Dev.replayXnet_none,
    Dev.replayXnet_counts⟩, fun d k o h => Dev.ready_notRunning h o⟩
  case planned =>
    rintro s r b _ o i plan rfl hi
    refine ⟨fun f d1 hf hr => ?_, fun f d1 hf hr => ?_, fun hf => ?_⟩
    · exact does_of_eq (Dev.execute_runs hf hr) (plannedOps_does hi)
    · exact does_of_eq (Dev.execute_runs hf hr) (plannedOps_does hi)
    · exact does_of_eq (Dev.execute_notReady hf) (plannedOps_does hi)
  case layout =>
    rintro s r b _ f _ d1 q rfl hf h3 rfl hr
    exact does_of_eq (Dev.layout_runs hf h3 hr) rfl
  case layoutHalts =>
    rintro s r b _ f rfl hf h3
    exact does_of_eq (Dev.layout_halts hf h3) rfl

end Sys2Proof.Machine
end

section
/-! What a read of memory or of an SRAM changes (R301, R302, R165, R375): rows that open, chunks that it corrects, the cache,
counters and the record of what a step uses; no queue, no draw of a free value, no block, flag or buffer region. -/

namespace Sys2Proof.Machine
open Sys2Proof Sys2Proof.Claims

/-- `d` with the stacks, DRAM, parity, error paths, cells, counters, saturation log, inbox and step use of `e`: all that a read
writes. -/
def Dev.readOf (d e : Dev) : Dev :=
  { d with
    stks := e.stks, dram := e.dram, parity := e.parity, badPath := e.badPath, cells := e.cells
    pathScratch := e.pathScratch, pathBbuf := e.pathBbuf, pathImem := e.pathImem
    counters := e.counters, chip := e.chip, ec := e.ec, host.stepUse := e.host.stepUse }

/-- `e` differs from `d` at most where a read writes. -/
def Dev.ReadOnly (d e : Dev) : Prop := e = d.readOf e

namespace Dev.ReadOnly

theorem refl (d : Dev) : d.ReadOnly d := rfl

theorem trans {a b c : Dev} (h : a.ReadOnly b) (k : b.ReadOnly c) : a.ReadOnly c :=
  Eq.trans k (congrArg (fun x => x.readOf c) h)

variable {d e : Dev} (h : d.ReadOnly e)
include h

theorem free : e.free = d.free := by rw [show e = d.readOf e from h]; rfl
theorem queues : e.queues = d.queues := by rw [show e = d.readOf e from h]; rfl
theorem bufregs : e.bufregs = d.bufregs := by rw [show e = d.readOf e from h]; rfl

end Dev.ReadOnly

theorem foldl_readOnly {β : Type} (f : Dev → β → Dev) (l : List β) (d : Dev)
    (h : ∀ (a : Dev) (x : β), a.ReadOnly (f a x)) : d.ReadOnly (l.foldl f d) :=
  foldl_rel (R := Dev.ReadOnly) Dev.ReadOnly.refl Dev.ReadOnly.trans h l d

/-! ### Counters, stacks, cells -/

theorem Dev.FetchOnly.readOnly {d e : Dev} (h : d.FetchOnly e) : d.ReadOnly e :=
  Eq.trans h (congrArg (fun x => d.readOf x) h.symm)

theorem Dev.bumpBy_readOnly (d : Dev) (off n : Nat) : d.ReadOnly (d.bumpBy off n) := (d.bumpBy_fetchOnly off n).readOnly

theorem Dev.bump_readOnly (d : Dev) (off : Nat) : d.ReadOnly (d.bump off) := d.bumpBy_readOnly off 1

theorem Dev.setStk_readOnly (d : Dev) (st : Nat) (x : StackSt) : d.ReadOnly (d.setStk st x) := rfl

theorem Dev.modStk_readOnly (d : Dev) (st : Nat) (f : StackSt → StackSt) : d.ReadOnly (d.modStk st f) := rfl

theorem Dev.modCell_readOnly (d : Dev) (g : Nat) (f : CellSt → CellSt) : d.ReadOnly (d.modCell g f) := rfl

theorem Dev.raise_readOnly (d : Dev) (src : Nat) : d.ReadOnly (d.raise src) := rfl

/-! ### Chunks and stripes -/

theorem Dev.openRow_readOnly (d : Dev) (st i bank row : Nat) : d.ReadOnly (d.openRow st i bank row) := by
  unfold Dev.openRow
  dsimp only
  split
  · exact .refl d
  · exact d.setStk_readOnly st _

theorem Dev.retried_readOnly (d : Dev) (st i : Nat) (p : Stripe) : d.ReadOnly (d.retried st i p) := by
  unfold Dev.retried
  dsimp only
  split
  · exact Dev.ReadOnly.trans (b := { d with badPath := _ }) rfl (Dev.bump_readOnly _ _)
  · exact .refl d

theorem Dev.readStripe_readOnly (d : Dev) (st : Nat) (p : Stripe) : d.ReadOnly (d.readStripe st p) := by
  unfold Dev.readStripe Dev.rereads
  refine Dev.ReadOnly.trans ?_ (Dev.bumpBy_readOnly _ _ _)
  exact foldl_readOnly _ _ d fun a i => (a.openRow_readOnly st i p.bank p.row).trans (Dev.retried_readOnly _ st i p)

theorem Dev.putChunk_readOnly (d : Dev) (st die : Nat) (p : Stripe) (bytes : List Byte) (m : Nat) :
    d.ReadOnly (d.putChunk st die p bytes m) := rfl

theorem Dev.invalidate_readOnly (d : Dev) (st : Nat) (p : Stripe) (i : Nat) : d.ReadOnly (d.invalidate st p i) :=
  d.modStk_readOnly st _

theorem Dev.reconstruct_readOnly {d e : Dev} {st i : Nat} {p : Stripe} (h : d.reconstruct st p i = some e) :
    d.ReadOnly e := by
  unfold Dev.reconstruct at h
  split at h
  · cases h
  · cases h
    refine .trans (.trans ?_ (Dev.modStk_readOnly _ st _)) (Dev.bump_readOnly _ _)
    exact foldl_readOnly _ _ d fun a j => (a.putChunk_readOnly st j p _ 0).trans (Dev.invalidate_readOnly _ st p j)

theorem Dev.rewriteStripe_readOnly (d : Dev) (st : Nat) (p : Stripe) (good : List (List Byte)) :
    d.ReadOnly (d.rewriteStripe st p good) :=
  foldl_readOnly _ _ d fun a i => (a.putChunk_readOnly st i p _ 0).trans (Dev.invalidate_readOnly _ st p i)

theorem Dev.logUe_readOnly (d : Dev) (st : Nat) (p : Stripe) (outcome : Nat) (src : MemSource) :
    d.ReadOnly (d.logUe st p outcome src) := by
  unfold Dev.logUe
  exact .trans (d.modStk_readOnly st _) (Dev.raise_readOnly _ _)

theorem Dev.mirrorRepair_readOnly {d e : Dev} {st : Nat} {p : Stripe} {src : MemSource}
    (h : d.mirrorRepair st p src = some e) : d.ReadOnly e := by
  unfold Dev.mirrorRepair at h
  split at h
  · cases h
  · split at h
    · obtain rfl := Option.some.inj h
      refine .trans ?_ (Dev.logUe_readOnly _ st p 0 src)
      refine .trans ?_ (Dev.bump_readOnly _ _)
      exact .trans (d.readStripe_readOnly _ p) (Dev.rewriteStripe_readOnly _ st p _)
    · cases h

theorem Dev.mended_readOnly {d e : Dev} {w : Who} {st i : Nat} {p : Stripe} (h : d.mended w st p i = .ok e) :
    d.ReadOnly e := by
  unfold Dev.mended at h
  split at h
  · cases h
  split at h
  · cases h
  split at h
  next hr => cases h; exact (d.readStripe_readOnly st p).trans (Dev.reconstruct_readOnly hr)
  split at h
  · cases h
  split at h
  next hm => cases h; exact (d.readStripe_readOnly st p).trans (Dev.mirrorRepair_readOnly hm)
  split at h <;> cases h

theorem Dev.goodChunk_readOnly {d e : Dev} {w : Who} {st i : Nat} {p : Stripe} {bs : List Byte}
    (h : d.goodChunk w st p i = .ok (e, bs)) : d.ReadOnly e := by
  unfold Dev.goodChunk at h
  dsimp only at h
  split at h
  · cases h
    exact (d.openRow_readOnly st i p.bank p.row).trans (Dev.retried_readOnly _ st i p)
  split at h
  · cases h
  next hm => cases h; exact (d.openRow_readOnly st i p.bank p.row).trans (Dev.mended_readOnly hm)

/-! ### Loads -/

theorem Dev.loadBlock_readOnly {d e : Dev} {w : Who} {a : Nat} {bs : List Byte} (h : d.loadBlock w a = .ok (e, bs)) :
    d.ReadOnly e := by
  unfold Dev.loadBlock at h
  split at h
  · split at h
    · cases h
    · exact Dev.goodChunk_readOnly h
  · cases h

theorem Dev.loadBlocks_readOnly {d e : Dev} {w : Who} {a n : Nat} {bs : List Byte} (h : d.loadBlocks w a n = .ok (e, bs)) :
    d.ReadOnly e := by
  induction n generalizing d a bs with
  | zero => cases h; exact .refl _
  | succ n ih =>
    unfold Dev.loadBlocks at h
    split at h
    · cases h
    next h1 =>
      split at h
      · cases h
      next h2 => cases h; exact (Dev.loadBlock_readOnly h1).trans (ih h2)

theorem Dev.bankLoad_readOnly {d e : Dev} {w : Who} {a n : Nat} {bs : List Byte} (h : d.bankLoad w a n = .ok (e, bs)) :
    d.ReadOnly e := by
  unfold Dev.bankLoad at h
  split at h
  · cases h
  · exact Dev.loadBlocks_readOnly h

theorem Dev.loadMiss_readOnly {d e : Dev} {w : Who} {a len : Nat} {bs : List Byte} (h : d.loadMiss w a len = .ok (e, bs)) :
    d.ReadOnly e := by
  unfold Dev.loadMiss at h
  dsimp only at h
  split at h
  · split at h
    · cases h
    next h1 =>
      cases h
      exact (d.bump_readOnly _).trans ((Dev.bankLoad_readOnly h1).trans (Dev.modStk_readOnly _ _ _))
  · split at h
    · cases h
    next h1 => cases h; exact (d.bump_readOnly _).trans (Dev.bankLoad_readOnly h1)

theorem Dev.linePiece_readOnly {d e : Dev} {w : Who} {a len : Nat} {bs : List Byte}
    (h : d.linePiece w a len = .ok (e, bs)) : d.ReadOnly e := by
  unfold Dev.linePiece at h
  dsimp only at h
  split at h
  · split at h
    · exact (d.modStk_readOnly _ _).trans (Dev.loadMiss_readOnly h)
    · cases h
      exact (d.modStk_readOnly _ _).trans (Dev.bump_readOnly _ _)
  · exact Dev.loadMiss_readOnly h

theorem Dev.stepUses_readOnly (d : Dev) (w : Who) (a len : Nat) : d.ReadOnly (d.stepUses w a len) := by
  unfold Dev.stepUses
  split
  · unfold Dev.usesRange
    dsimp only
    split
    · exact .refl d
    · exact rfl
  · exact .refl d

theorem Dev.loadPiece_readOnly {d e : Dev} {w : Who} {a len : Nat} {bs : List Byte}
    (h : d.loadPiece w a len = .ok (e, bs)) : d.ReadOnly e := by
  unfold Dev.loadPiece at h
  split at h
  · cases h
  split at h
  · cases h
  next h1 => cases h; exact (Dev.linePiece_readOnly h1).trans (Dev.stepUses_readOnly _ w a len)

theorem Dev.loadPieces_readOnly {d e : Dev} {w : Who} {ps : List (Nat × Nat)} {bs : List Byte}
    (h : d.loadPieces w ps = .ok (e, bs)) : d.ReadOnly e := by
  induction ps generalizing d bs with
  | nil => cases h; exact .refl _
  | cons p r ih =>
    unfold Dev.loadPieces at h
    split at h
    · cases h
    next h1 =>
      split at h
      · cases h
      next h2 => cases h; exact (Dev.loadPiece_readOnly h1).trans (ih h2)

theorem Dev.load_readOnly {d e : Dev} {w : Who} {a len : Nat} {bs : List Byte} (h : d.load w a len = .ok (e, bs)) :
    d.ReadOnly e := Dev.loadPieces_readOnly h

/-! ### Reads of an operand -/

theorem Dev.cellReplayed_readOnly (d : Dev) (x n : Nat) : d.ReadOnly (d.cellReplayed x n) := by
  unfold Dev.cellReplayed
  exact .trans (d.bumpBy_readOnly _ n) (Dev.modCell_readOnly _ _ _)

theorem Dev.scratchWords_readOnly {d e : Dev} {k n : Nat} (h : d.scratchWords k n = .ok e) : d.ReadOnly e := by
  unfold Dev.scratchWords at h
  split at h
  · cases h
  · cases h
  · cases h
    exact Dev.ReadOnly.trans (b := { d with pathScratch := cleanPath d.pathScratch k n }) rfl
      (foldl_readOnly _ _ _ fun a x => a.cellReplayed_readOnly x.1 x.2)

theorem Dev.readRun_readOnly {d e : Dev} {w : Who} {v : View} {lo n : Nat} {bs : List Byte}
    (h : d.readRun w v lo n = .ok (e, bs)) : d.ReadOnly e := by
  unfold Dev.readRun at h
  split at h
  · split at h
    · cases h
    next h1 => cases h; exact Dev.scratchWords_readOnly h1
  · split at h
    · cases h
    split at h
    · cases h
    next h1 => cases h; exact (Dev.bbufWords_fetchOnly h1).1.readOnly
  · exact Dev.load_readOnly h

theorem Dev.readRuns_readOnly {d e : Dev} {w : Who} {v : View} {m x : Local} {rs : List (Nat × Nat)}
    (h : d.readRuns w v m rs = .ok (e, x)) : d.ReadOnly e := by
  induction rs generalizing d m with
  | nil => cases h; exact .refl _
  | cons p r ih =>
    unfold Dev.readRuns at h
    split at h
    · cases h
    next h1 => exact (Dev.readRun_readOnly h1).trans (ih h)

theorem Dev.fetch_readOnly {d e : Dev} {w : Who} {v : View} {es : List Elt} {x : Local} (h : d.fetch w v es = .ok (e, x)) :
    d.ReadOnly e := Dev.readRuns_readOnly h

theorem Dev.indexRows_readOnly {d e : Dev} {c : Op} {g : Geo} {rows : List (Option Nat)}
    (h : d.indexRows c g = .ok (e, rows)) : d.ReadOnly e := by
  unfold Dev.indexRows at h
  split at h
  · cases h
  next h1 => cases h; exact Dev.fetch_readOnly h1

end Sys2Proof.Machine
end

section
/-! GATHER, SCATTER and SCATTER_ACC (R101 to R104): the rows that an index list names, and the windows that are carried
out. -/

namespace Sys2Proof.Machine
open Sys2Proof Sys2Proof.Claims

/-! ### The row of an index (R104) -/

section Row
variable {rows : Nat} {x : Int}

theorem indexRow_inRange (h0 : 0 ≤ x) (h1 : x < rows) (pol : Nat) : indexRow rows pol x = some x.toNat := by
  simp [indexRow, h0, h1]

/-- Out of range, only CLAMP names a row, and none in an empty table. -/
theorem indexRow_outOfRange (h : x < 0 ∨ (rows : Int) ≤ x) (pol : Nat) : indexRow rows pol x =
    if pol = 1 ∧ rows ≠ 0 then some (if x < 0 then 0 else rows - 1) else none := by
  have hn : ¬(0 ≤ x ∧ x < rows) := by omega
  simp [indexRow, hn]

end Row

/-! ### The plan of an indexed operation -/

section Plans
variable (d : Dev) {c : Op} (rows : List (Option Nat)) (nw a : Nat)

theorem Dev.indexedPlan_gather (h : c.code = 0x18) : d.indexedPlan c rows nw a = gatherPlan c c.geoD rows nw := by
  simp only [Dev.indexedPlan, h]

theorem Dev.indexedPlan_scatter (h : c.code = 0x19) : d.indexedPlan c rows nw a = scatterPlan c c.geoD rows nw := by
  simp only [Dev.indexedPlan, h]

theorem Dev.indexedPlan_scatterAcc (h : c.code = 0x1A) : d.indexedPlan c rows nw a =
    scatterAccPlan c c.geoD rows nw d.free a (d.leadsOut (d.opView c 4 0)) := by
  simp only [Dev.indexedPlan, h]

end Plans

/-- The plan depends on the device by its draws, queues and buffer regions only: a read leaves it as it is. -/
theorem Dev.ReadOnly.indexedPlan {d e : Dev} (h : d.ReadOnly e) (c : Op) (rows : List (Option Nat)) (nw a : Nat) :
    e.indexedPlan c rows nw a = d.indexedPlan c rows nw a := by
  rw [show e = d.readOf e from h]
  rfl

section Indexed
variable {d d0 d1 : Dev} {k o : Nat} {f : Flight} {rows : List (Option Nat)} {q : Bool} (hf : d.ready k o = some f)
  (hi : d.indexRows (f.op k) (f.op k).geoD = .ok (d0, rows))
  (hr : d0.runPlan (f.op k) f.index ((d0.indexedPlan (f.op k) rows (openWindows (f.op k).geoD (f.op k).w.idxPol rows)
    f.pos).after (f.op k) f.pos) d.free = .ok (d1, q))
include hf hi hr

/-- FAULT stops before the window of the first entry that is out of range (R104). -/
theorem Dev.executeIndexed_faults
    (h : openWindows (f.op k).geoD (f.op k).w.idxPol rows < ceilDiv (f.op k).geoD.e1 64) :
    d.executeIndexed k o = d1.opHalt k codeIndexRange f.index 1 o := by
  rw [(Dev.indexRows_readOnly hi).indexedPlan] at hr
  simp only [Dev.executeIndexed, hf, hi, hr, if_pos h]

/-- With no window left, the entries that name no row are counted and the operation ends. -/
theorem Dev.executeIndexed_runs
    (h : ceilDiv (f.op k).geoD.e1 64 ≤ openWindows (f.op k).geoD (f.op k).w.idxPol rows) : d.executeIndexed k o =
      (d1.bumpBy (blockBase (k / 4) (k % 4) + 0x18) (rows.filter (·.isNone)).length).planned k f q := by
  rw [(Dev.indexRows_readOnly hi).indexedPlan] at hr
  simp only [Dev.executeIndexed, hf, hi, hr, if_neg (Nat.not_lt.mpr h), Dev.planEnd_ok, indexZeroedAt, blockAt]

end Indexed

/-- The commands of the indexed operations, with their opcodes. -/
def indexedOps (r : Region) (b : Blk) : List (Instr × Nat) :=
  [(.gather r b, 0x18), (.scatter r b, 0x19), (.scatterAcc r b, 0x1A)]

theorem indexedOps_does {s : State} {r : Region} {b : Blk} {i : Instr} {o : Nat} (h : (i, o) ∈ indexedOps r b) :
    Does i s (s.dev.executeIndexed (4 * r.val + b.val) o) := by
  simp only [indexedOps, List.mem_cons, List.not_mem_nil, or_false, Prod.mk.injEq] at h
  rcases h with ⟨rfl, rfl⟩ | ⟨rfl, rfl⟩ | ⟨rfl, rfl⟩ <;> rfl

/-- Settles O28: an indexed operation by whether FAULT stops it, its plan by its opcode, and the row of an index by whether
the index is in range. -/
theorem indexedOperations : Obligations.IndexedOperations := by
  refine ⟨?runs, fun d c rows nw a => ⟨d.indexedPlan_gather rows nw a, d.indexedPlan_scatter rows nw a,
    d.indexedPlan_scatterAcc rows nw a⟩, fun rows x => ⟨fun h0 h1 pol => indexRow_inRange h0 h1 pol, ?outside, ?low, ?high,
    ?empty⟩⟩
  case runs =>
    rintro s r b _ o i f rows d0 d1 _ q rfl hi hf hx rfl hr
    refine ⟨fun h => ⟨_, rfl, ?_, ?_⟩, fun h => does_of_eq (Dev.executeIndexed_faults hf hx hr h) (indexedOps_does hi)⟩
    · rintro rfl
      exact does_of_eq ((Dev.executeIndexed_runs hf hx hr h).trans (Dev.planned_done _ _ f)) (indexedOps_does hi)
    · rintro rfl
      exact does_of_eq ((Dev.executeIndexed_runs hf hx hr h).trans (Dev.planned_queued _ _ f)) (indexedOps_does hi)
  case outside =>
    intro h
    exact ⟨by simp [indexRow_outOfRange h], by simp [indexRow_outOfRange h]⟩
  case low =>
    intro h0 hx
    rw [indexRow_outOfRange (.inl hx), if_pos ⟨rfl, by omega⟩, if_pos hx]
  case high =>
    intro h0 hx
    rw [indexRow_outOfRange (.inr hx), if_pos ⟨rfl, by omega⟩, if_neg (by omega)]
  case empty =>
    rw [indexRow_outOfRange (by omega), if_neg (fun h => h.2 rfl)]

end Sys2Proof.Machine
end

section
/-! Steps of a domain (R222, R223, R226 to R230, R83, R28): composition, the release of a phase, and the end of a phase. -/

namespace Sys2Proof.Machine
open Sys2Proof Sys2Proof.Claims

/-! ### COMPOSE (R223, R445) -/

section Compose
variable {s : State} {n : Domain}

theorem compose_idle (h : s.dev.mayCompose n.val = false) : Does (.compose n) s s.dev :=
  does_of_eq (if_neg (by simp [h])) rfl

theorem Dev.ready_of_mayCompose {d : Dev} {n : Nat} (h : d.mayCompose n = true) : d.chip.state = .ready := by
  simp only [Dev.mayCompose, Bool.and_eq_true, decide_eq_true_eq] at h
  exact h.1.2

section May
variable (h : s.dev.mayCompose n.val = true) (hc : s.dev.clk.coast = false)
include h hc

theorem compose_does (hb : s.dev.composeBad n.val = false) : Does (.compose n) s (s.dev.composeDomain n.val) :=
  does_of_eq ((if_pos (by simp [h, hc])).trans (if_neg (Bool.eq_false_iff.mp hb))) rfl

/-- A word of the request table that fails its replays is a chip fault (R445). -/
theorem compose_faults (hb : s.dev.composeBad n.val = true) :
    Does (.compose n) s (moved { s.dev with chip.faultCode := 0x82 } .fault) := by
  have hr := Dev.ready_of_mayCompose h
  have hf : s.dev.chipFault codeChipParity = moved { s.dev with chip.faultCode := 0x82 } .fault := by
    rw [Dev.chipFault, if_pos (by simp [hr]), Dev.enter_new (by simp [hr])]
    rfl
  exact does_of_eq ((if_pos (by simp [h, hc])).trans ((if_pos hb).trans hf)) rfl

end May
end Compose

section Composition
variable {d d1 d2 : Dev} {n : Nat} {l : List Elig}

theorem Dev.composeDomain_composes (hl : (d.takeDeadlines n).eligibles (d.reqsOf n) = .ok (d1, l))
    (hd : d1.composeFrom n l = .ok d2) : d.composeDomain n = d2 := by
  simp only [Dev.composeDomain, hl, hd]

/-- Without requests there is no claim, and nothing is placed. -/
theorem Dev.composeFrom_nil (hr : d.reqsOf n = []) : d.composeFrom n [] = d.nothingPlaced n := by
  have hflag : ∀ num : Option Nat, d.flagAll n num [] = d := fun num => by rw [Dev.flagAll, hr]; rfl
  simp [Dev.composeFrom, Dom.choose, claimants, hflag]

theorem Dev.nothingPlaced_idle (hs : (d.dom n).susp = []) :
    d.nothingPlaced n = .ok (d.modDom n (fun x => { x with wantCompose := false })) := by
  rw [Dev.nothingPlaced, hs]

theorem Dev.composeDomain_idle (hr : d.reqsOf n = []) (hs : (d.dom n).susp = []) :
    d.composeDomain n = d.modDom n (fun x => { x with wantCompose := false }) := by
  have ht : d.takeDeadlines n = d := by rw [Dev.takeDeadlines, hr]; rfl
  refine Dev.composeDomain_composes (d1 := d) (l := []) ?_ ((Dev.composeFrom_nil hr).trans (Dev.nothingPlaced_idle hs))
  rw [ht, hr]
  rfl

end Composition

/-! ### Placement (R227) -/

theorem slicesOf_cons (e : Elig) (i n : Nat) (probe : Bool) (l : List (Elig × Placed)) :
    slicesOf ((e, ⟨i, n, probe⟩) :: l) = n + 1 + slicesOf l := by
  simp [slicesOf]

/-- A step takes no more slices than 256 leaves beside those placed already. -/
theorem Dev.placeGen_slices (l : List Elig) : ∀ (d : Dev) (k : Nat), k ≤ 256 → k + slicesOf (d.placeGen k l).2 ≤ 256 := by
  induction l with
  | nil => intro d k hk; simpa [Dev.placeGen, slicesOf] using hk
  | cons e r ih =>
    intro d k hk
    unfold Dev.placeGen
    dsimp only
    split
    · exact ih d k hk
    · rw [slicesOf_cons, ← Nat.add_assoc, ← Nat.add_assoc]
      exact ih _ _ (by omega)

/-! ### PHASE_RELEASE (R222) -/

section Release
variable {s : State} {n : Domain}

theorem phaseRelease_does (hc : s.dev.clk.coast = false) {d : Dev} (hd : s.dev.releasePhase n.val = d) :
    Does (.phaseRelease n) s d :=
  does_of_eq ((if_pos (by simp [hc])).trans hd) rfl

theorem phaseRelease_none (h : (s.dev.dom n.val).step = none) : Does (.phaseRelease n) s s.dev := by
  have hr : s.dev.releasePhase n.val = s.dev := by simp only [Dev.releasePhase, h]
  refine does_of_eq (?_ : s.dev.when (!s.dev.clk.coast) (fun d => d.releasePhase n.val) = s.dev) rfl
  simp only [Dev.when, hr, ite_self]

end Release

theorem Dev.releasePhase_released {d d1 : Dev} {n : Nat} {x : Step} {b : Bundle} (hs : (d.dom n).step = some x)
    (hb : d.bundleOf n x.bundle = some b) (hx : x.released = false) (ha : (d.dom n).act.releases = true)
    (hst : (d.dom n).stopped = false) (hw : (d.dom n).wedged = false) (haw : d.domainAwake n = true)
    (hi : d.imagesLoad n = false) (hr : d.chip.state = .ready) (hp : d.prepare n b x = .ok d1) :
    d.releasePhase n = (Dev.modDom ((d1.regionsOf n).foldl (fun a r => a.startRegion (x.entry b) r)
      ((d1.unserve (d.sliceWho n).party).setRounds n [])) n (fun y => { y with
        act := .running, step := y.step.map (fun z => { z with released := true }) })).tryPreempt n := by
  simp only [Dev.releasePhase, hs, hb, hx, ha, hst, hw, haw, hi, hr, hp]
  rfl

/-! ### STEP_END and the end of a phase (R83, R28, R222) -/

section PhaseEnd
variable {d : Dev} {n : Nat} {x : Step}

theorem Dev.phaseEnd_waits (hs : (d.dom n).step = some x) (h : d.allArrived n = false ∨ d.chip.state = .fault) :
    d.phaseEnd n = .ok d := by
  simp only [Dev.phaseEnd, hs]
  refine if_pos ?_
  rcases h with h | h <;> simp [h]

theorem Dev.phaseEnd_draft (hs : (d.dom n).step = some x) (ha : d.allArrived n = true) (hst : (d.dom n).stopped = false)
    (hf : d.chip.state ≠ .fault) (hw : (d.dom n).wedged = false) (hx : x.released = true)
    (hact : (d.dom n).act = .running) (hp : x.phase ≠ 0) :
    d.phaseEnd n = .ok (((d.regionsOf n).foldl (fun a r => a.zeroFlags r) d).modDom n (fun y => { y with
      step := some { x with phase := if x.phase < x.lmax then x.phase + 1 else 0, released := false } })) := by
  simp only [Dev.phaseEnd, hs]
  exact (if_neg (by simp [ha, hst, hf, hw, hx, hact])).trans (if_neg hp)

end PhaseEnd

/-- The block has arrived and reads IDLE, and its completion is counted (R83, R72). -/
def Dev.arrives (d : Dev) (k : Nat) : Dev :=
  (d.modBlk k (fun x => { x with st := .idle, arrived := true, fly := [] })).bump (opsCompletedAt k)

section StepEnd
variable {d : Dev} {k : Nat} {f : Flight}

theorem Dev.stepEnd_noDomain (hf : d.ready k 0x32 = some f) (hw : OpWord.setEn f.word = false)
    (hn : d.domainOf (k / 4) = none) : d.stepEnd k = d.arrives k := by
  simp only [Dev.stepEnd, hf, hw, hn]
  rfl

theorem Dev.stepEnd_phase {n : Nat} {e : Dev} (hf : d.ready k 0x32 = some f) (hw : OpWord.setEn f.word = false)
    (hn : d.domainOf (k / 4) = some n) (he : (d.arrives k).phaseEnd n = .ok e) : d.stepEnd k = e := by
  simp only [Dev.stepEnd, hf, hw, hn]
  exact congrArg (fun a : Acc Dev => match a with
    | .ok d3 => d3
    | .error e => d.stopped (d.sliceWho n) false e) he

theorem Dev.stepEnd_none (h : d.ready k 0x32 = none) : d.stepEnd k = d := by
  simp only [Dev.stepEnd, h]

end StepEnd

theorem stepEnd_does {s : State} {r : Region} {b : Blk} {e : Dev} (h : s.dev.stepEnd (4 * r.val + b.val) = e) :
    Does (.stepEnd r b) s e :=
  does_of_eq h rfl

/-- Settles O51: each command takes the branch of its function that the hypotheses select; the bound of 256 slices is
kept by every placement. -/
theorem stepsOfADomain : Obligations.StepsOfADomain := by
  unfold Obligations.StepsOfADomain
  refine ⟨?compose, ?bad, ?noRequests, ?idle, ?slices, ?release, ?noStep, ?arrives, ?ends, ?notAll, ?fault, ?draft, ?none⟩
  case compose =>
    intro s n d1 d2 l hm hc hb hl hd
    exact Dev.composeDomain_composes hl hd ▸ compose_does hm hc hb
  case bad =>
    intro s n hm hc hb
    exact compose_faults hm hc hb
  case noRequests =>
    intro s n hm hc hr hs
    have hb : s.dev.composeBad n.val = false := by rw [Dev.composeBad, hr]; rfl
    exact Dev.composeDomain_idle hr hs ▸ compose_does hm hc hb
  case idle =>
    intro s n h
    exact compose_idle h
  case slices =>
    intro d l
    simpa using Dev.placeGen_slices l d 0 (by omega)
  case release =>
    intro s n x b d1 hc hs hb hx ha hst hw haw hi hr hp
    have hact : (s.dev.dom n.val).act.releases = true := by
      rcases ha with ha | ha | ha <;> rw [ha] <;> rfl
    exact phaseRelease_does hc (Dev.releasePhase_released hs hb hx hact hst hw haw hi hr hp)
  case noStep =>
    intro s n h
    exact phaseRelease_none h
  case arrives =>
    intro s r b k f hk hf hw hn
    subst hk
    have hreg : (4 * r.val + b.val) / 4 = r.val := by omega
    exact stepEnd_does (Dev.stepEnd_noDomain hf hw (by rw [hreg, hn]))
  case ends =>
    intro s r b k n f d1 d2 hk hf hw hn hd1 hd2
    subst hk hd1
    have hreg : (4 * r.val + b.val) / 4 = r.val := by omega
    exact stepEnd_does (Dev.stepEnd_phase hf hw (by rw [hreg, hn]) hd2)
  case notAll =>
    intro d n x hs h
    exact Dev.phaseEnd_waits hs (.inl h)
  case fault =>
    intro d n x hs h
    exact Dev.phaseEnd_waits hs (.inr h)
  case draft =>
    intro d n x hs ha hst hf hw hx hact hp
    exact Dev.phaseEnd_draft hs ha hst hf hw hx hact hp
  case none =>
    intro s r b h
    exact stepEnd_does (Dev.stepEnd_none h)

end Sys2Proof.Machine
end

section
/-! Suspension, save, continuation and the stall (R84, R85, R245, R246, R248, R251, R253). -/

namespace Sys2Proof.Machine
open Sys2Proof Sys2Proof.Claims

/-! ### What must end, and who goes on (R245, R438) -/

theorem Flight.mustEnd_iff (f : Flight) : f.mustEnd = true ↔ f.done = false ∧ (OpWord.opcode f.word = 0x28 ∨
    ((OpWord.opcode f.word = 0x29 ∨ OpWord.opcode f.word = 0x31) ∧ f.begun = true)) := by
  simp [Flight.mustEnd]

theorem Dev.domainLives_iff (d : Dev) (n : Nat) : d.domainLives n = true ↔
    (d.dom n).stopped = false ∧ (d.dom n).wedged = false ∧ d.chip.state = .ready := by
  simp [Dev.domainLives, and_assoc]

/-! ### The tile step at which an engine stops (R245) -/

section PartWay
variable {d : Dev} {k o : Nat}

theorem Dev.stopAt_mem (d : Dev) {a n : Nat} (h : a ≤ n) : a ≤ d.stopAt a n ∧ d.stopAt a n ≤ n := by
  have hm := Nat.mod_lt (Config.order d.free 0) (by omega : 0 < n - a + 1)
  simp only [Dev.stopAt]
  omega

theorem Dev.partWay_idle (h : d.ready k o = none) : d.partWay k o = d := by
  simp only [Dev.partWay, h]

theorem Dev.partWay_stops {d0 d1 : Dev} {f : Flight} {p : Plan} (ho : o ≠ 0x11) (hf : d.ready k o = some f)
    (hp : d.flightPlan (f.op k) f.pos = some (d0, p))
    (hr : d0.runPlan (f.op k) f.index (p.between (f.op k) f.pos (d.stopAt f.pos (p.steps (f.op k)))) d.free =
      .ok (d1, false)) :
    d.partWay k o = d1.drawn.modFlight k f.index (fun x => { x with pos := d.stopAt f.pos (p.steps (f.op k)) }) := by
  simp only [Dev.partWay, hf, ho, decide_false, Bool.false_and, Bool.false_eq_true, if_false, hp, hr]

end PartWay

/-! ### SUSPEND_COMPLETE (R245, R246) -/

section SuspendDone
variable {d : Dev} {n : Nat}

/-- Where nothing is in flight no receive has to be withdrawn. -/
theorem Dev.withdrawRecvs_noFlight (h : ∀ k ∈ d.blocksOf n, (d.blk k).fly = []) : d.withdrawRecvs n = d := by
  have ho : d.openRecvs n = [] := by
    simp only [Dev.openRecvs, List.flatMap_eq_nil_iff]
    intro k hk
    rw [h k hk]
    rfl
  rw [Dev.withdrawRecvs, ho]
  rfl

theorem Dev.suspendDone_waits (h : (d.dom n).act ≠ .suspending ∨ (d.dom n).susp = [] ∨ d.domainLives n = false ∨
    ∃ k ∈ d.blocksOf n, ∃ f ∈ (d.blk k).fly, f.mustEnd = true) : d.suspendDone n = d := by
  unfold Dev.suspendDone
  dsimp only
  split
  · rfl
  next u rest hu =>
    refine if_pos ?_
    rcases h with ha | hs | hl | ⟨k, hk, f, hf, hm⟩
    · simp [ha]
    · simp [hs] at hu
    · simp [hl]
    · have hany : (d.blocksOf n).any (fun k => (d.blk k).fly.any Flight.mustEnd) = true :=
        List.any_eq_true.mpr ⟨k, hk, List.any_eq_true.mpr ⟨f, hf, hm⟩⟩
      simp [hany]

theorem suspendComplete_does {s : State} {n : Domain} {e : Dev} (h : s.dev.suspendDone n.val = e) :
    Does (.suspendComplete n) s e :=
  does_of_eq h rfl

end SuspendDone

/-! ### The runs of a save slot (R248 Table 5) -/

theorem mem_cellsOf_region {c r j mask : Nat} (hj : j < 4) (h : c ∈ cellsOf (4 * r + j) mask) : c / 32 = r := by
  simp only [cellsOf, bitsOf, List.mem_map, List.mem_filter, List.mem_range] at h
  obtain ⟨i, ⟨hi, -⟩, rfl⟩ := h
  omega

/-- The cell regions among the live runs of a region lie in its own cells. -/
theorem Dev.livePieces_region {d : Dev} {r : Nat} {b : Bundle} {p : Piece} (h : p ∈ d.livePieces r b) (hc : p.cell = true) :
    p.unit / 32 = r := by
  simp only [Dev.livePieces, Dev.liveCell, List.mem_flatMap, List.mem_cons, List.mem_map, List.mem_range] at h
  obtain ⟨j, hj, rfl | ⟨c, hcell, m, -, rfl⟩⟩ := h
  · cases hc
  · dsimp only
    omega

theorem Dev.mem_flightPieces (d : Dev) (k : Nat) (p : Piece) : p ∈ d.flightPieces k ↔
    ∃ f ∈ (d.blk k).fly, ∃ c ∈ cellsOf k (f.op k).w.mask, ∃ n ∈ (f.op k).reads ++ (f.op k).writes,
      p = ⟨true, c, d.bufregBase c n, d.bufregSize c n⟩ := by
  simp only [Dev.flightPieces, List.mem_flatMap, List.mem_map, eq_comm]

theorem Dev.flightPieces_region {d : Dev} {r j : Nat} {p : Piece} (hj : j < 4) (h : p ∈ d.flightPieces (4 * r + j)) :
    p.unit / 32 = r := by
  obtain ⟨f, -, c, hc, n, -, rfl⟩ := (d.mem_flightPieces _ _).mp h
  exact mem_cellsOf_region hj hc

/-- Sorting runs by the cells of a region keeps those that lie in the region. -/
theorem mem_flatMap_cells {l : List Piece} {r : Nat} {p : Piece} :
    p ∈ (List.range 32).flatMap (fun c => l.filter (fun q => q.unit = 32 * r + c)) ↔ p ∈ l ∧ p.unit / 32 = r := by
  simp only [List.mem_flatMap, List.mem_range, List.mem_filter, decide_eq_true_eq]
  constructor
  · rintro ⟨c, hc, hp, hu⟩
    exact ⟨hp, by omega⟩
  · rintro ⟨hp, hu⟩
    exact ⟨p.unit % 32, by omega, hp, by omega⟩

theorem Dev.mem_padPieces (d : Dev) (r : Nat) (b : Bundle) (p : Piece) : p ∈ d.padPieces r b ↔
    (p ∈ d.livePieces r b ∧ p.cell = true) ∨ ∃ j < 4, p ∈ d.flightPieces (4 * r + j) := by
  unfold Dev.padPieces
  dsimp only
  rw [mem_flatMap_cells]
  simp only [List.mem_append, List.mem_eraseDups, List.mem_filter, List.mem_flatMap, List.mem_range, Bool.not_eq_true',
    List.contains_eq_mem, decide_eq_false_iff_not]
  constructor
  · rintro ⟨hl | ⟨hf, -⟩, -⟩
    · exact .inl hl
    · exact .inr hf
  · rintro (⟨hl, hc⟩ | ⟨j, hj, hf⟩)
    · exact ⟨.inl ⟨hl, hc⟩, Dev.livePieces_region hl hc⟩
    · refine ⟨?_, Dev.flightPieces_region hj hf⟩
      by_cases hl : p ∈ d.livePieces r b ∧ p.cell = true
      · exact .inl hl
      · exact .inr ⟨⟨j, hj, hf⟩, hl⟩

theorem Dev.mem_slotPieces (d : Dev) (r : Nat) (b : Bundle) (p : Piece) : p ∈ d.slotPieces r b ↔
    p ∈ d.livePieces r b ∨ ∃ j < 4, p ∈ d.flightPieces (4 * r + j) := by
  simp only [Dev.slotPieces, List.mem_append, Dev.mem_padPieces, List.mem_filter, Bool.not_eq_true']
  cases hc : p.cell <;> simp

/-! ### SAVE_COMPLETE (R248) -/

theorem Acc.andThen_eq {α β : Type} {x : Acc α} {a : α} (h : x = .ok a) (f : α → Acc β) : Acc.andThen x f = f a := by
  rw [h]
  rfl

theorem Dev.saveMemory_saves {d d0 d1 d2 d3 d4 : Dev} {n r level : Nat} {b : Bundle} {live other : List (List Byte)}
    {area : List Byte} (h0 : d0 = d.queuesChecked r) (h1 : d0.readPieces (d0.slotPieces r b) = .ok (d1, live))
    (h2 : d1.readPieces (d0.queuePieces r) = .ok (d2, other)) (h3 : d2.writeSlot n r level live.flatten = .ok d3)
    (h4 : d3.loadOver (d.sliceWho n) [(b.stepArea, 0x8000)] = .ok (d4, area)) :
    d.saveMemory n r level b = .ok (d4, d0.savedRegion r b ((d0.queuePieces r).zip other), area) := by
  simp only [Dev.saveMemory, ← h0, Acc.andThen_eq h1, Acc.andThen_eq h2, Acc.andThen_eq h3, Acc.andThen_eq h4]

section Save
variable {s : State} {r : Region}

theorem saveComplete_does {n : Nat} {e : Dev} (hn : s.dev.domainOf r.val = some n) (h : s.dev.saveRegion n r.val = e) :
    Does (.saveComplete r) s e := by
  refine does_of_eq (?_ : (match s.dev.domainOf r.val with
    | some n => s.dev.saveRegion n r.val
    | none => s.dev) = e) rfl
  rw [hn]
  exact h

theorem saveComplete_noDomain (hn : s.dev.domainOf r.val = none) : Does (.saveComplete r) s s.dev := by
  refine does_of_eq (?_ : (match s.dev.domainOf r.val with
    | some n => s.dev.saveRegion n r.val
    | none => s.dev) = s.dev) rfl
  rw [hn]

end Save

section SaveRegion
variable {d : Dev} {n r : Nat}

theorem Dev.saveRegion_waits (h : d.regionQuiet r = false ∨ d.domainLives n = false) : d.saveRegion n r = d := by
  unfold Dev.saveRegion
  dsimp only
  split
  · rfl
  split
  · rfl
  refine if_pos ?_
  rcases h with h | h <;> simp [h]

theorem Dev.saveRegion_saves {d1 : Dev} {u : Susp} {rest : List Susp} {b : Bundle} {x : SavedRegion} {area : List Byte}
    {all : Bool} (hs : (d.dom n).susp = u :: rest) (hb : d.bundleOf n u.step.bundle = some b) (ha : (d.dom n).act = .saving)
    (hl : d.domainLives n = true) (hu : u.regions.any (fun y => y.region == r) = false) (hq : d.regionQuiet r = true)
    (hm : d.saveMemory n r u.level b = .ok (d1, x, area))
    (hall : all = (d.regionsOf n).all (fun q => q == r || u.regions.any (fun y => y.region == q))) :
    d.saveRegion n r = (d1.clearRegion r b).modDom n (fun y => { y with
      susp := match y.susp with
        | v :: more => { v with regions := x :: v.regions, area := area } :: more
        | [] => []
      act := if all then .idle else .saving
      step := if all then none else y.step
      wantCompose := y.wantCompose || all }) := by
  simp only [Dev.saveRegion, hs, hb, hm, hall]
  exact if_neg (by simp [ha, hl, hu, hq])

end SaveRegion

/-! ### SUSPENDED_STEP_CONTINUE (R251) -/

section Continue
variable {d : Dev} {n : Nat}

theorem Dev.continueStep_waits (h : (d.dom n).susp = [] ∨ (d.dom n).act ≠ .restoring ∨ d.domainLives n = false ∨
    d.domainAwake n = false ∨ d.imagesLoad n = true) : d.continueStep n = d := by
  unfold Dev.continueStep
  dsimp only
  split
  · rfl
  next u rest hu =>
    refine if_pos ?_
    rcases h with hs | h | h | h | h
    · simp [hs] at hu
    all_goals simp [h]

theorem Dev.continueStep_resumes {d1 : Dev} {u : Susp} {rest : List Susp} (hs : (d.dom n).susp = u :: rest)
    (ha : (d.dom n).act = .restoring) (hl : d.domainLives n = true) (haw : d.domainAwake n = true)
    (hi : d.imagesLoad n = false) (hr : d.restoreStep n u = .ok d1) : d.continueStep n = d1.resumeStep n u := by
  simp only [Dev.continueStep, hs, hr]
  exact if_neg (by simp [ha, hl, haw, hi])

theorem suspendedStepContinue_does {s : State} {n : Domain} {e : Dev} (h : s.dev.continueStep n.val = e) :
    Does (.suspendedStepContinue n) s e :=
  does_of_eq h rfl

theorem Dev.restoreStep_area {d1 : Dev} {u : Susp} {b : Bundle} (hr : d.restoreRegions n u.level u.regions = .ok d1)
    (hb : d1.bundleOf n u.step.bundle = some b) :
    d.restoreStep n u = d1.storeOver (d.sliceWho n) [(b.stepArea, u.area.length)] u.area :=
  (Acc.andThen_eq hr _).trans (by simp only [hb])

/-- A block that no entry of a list names stays as it is. -/
theorem foldl_modBlk_other (f : BlockSt → BlockSt) (l : List Nat) {k : Nat} (hk : k ∉ l) (d : Dev) :
    (l.foldl (fun a i => a.modBlk i f) d).blk k = d.blk k := by
  induction l generalizing d with
  | nil => rfl
  | cons i r ih =>
    obtain ⟨hi, hr⟩ := not_or.mp (mt List.mem_cons.mpr hk)
    exact (ih hr (d.modBlk i f)).trans (d.modBlk_other f hi)

/-- A block that a list of blocks names once changes once. -/
theorem foldl_modBlk_read (f : BlockSt → BlockSt) {l : List Nat} (hl : l.Nodup) {k : Nat} (hk : k ∈ l) (d : Dev) :
    (l.foldl (fun a i => a.modBlk i f) d).blk k = f (d.blk k) := by
  induction l generalizing d with
  | nil => cases hk
  | cons i r ih =>
    obtain ⟨hi, hr⟩ := List.nodup_cons.mp hl
    rcases List.mem_cons.mp hk with rfl | hk
    · exact (foldl_modBlk_other f r hi _).trans (d.modBlk_read k f)
    · have hne : k ≠ i := fun h => hi (h ▸ hk)
      exact (ih hr hk (d.modBlk i f)).trans (congrArg f (d.modBlk_other f hne))

/-- A region's blocks that are suspended run again; the others stay as they are. -/
theorem Dev.wakeBlocks_blk (d : Dev) (r : Nat) {j : Nat} (hj : j < 4) : (d.wakeBlocks r).blk (4 * r + j) =
    if (d.blk (4 * r + j)).st = .suspended then { d.blk (4 * r + j) with st := .running } else d.blk (4 * r + j) := by
  have hl : ((List.range 4).map (fun i => 4 * r + i)).Nodup :=
    List.pairwise_map.mpr (List.nodup_range.imp fun hab h => hab (Nat.add_left_cancel h))
  have hk : 4 * r + j ∈ (List.range 4).map (fun i => 4 * r + i) := List.mem_map_of_mem (List.mem_range.mpr hj)
  exact (congrArg (fun a : Dev => a.blk (4 * r + j)) List.foldl_map.symm).trans (foldl_modBlk_read _ hl hk d)

end Continue

/-! ### The stall (R84, R85) -/

section Stall
variable {d : Dev} {n : Nat}

theorem Dev.stalls_of_waits (ha : (d.dom n).act = .running) (hf : d.chip.state ≠ .fault) (hst : (d.dom n).stopped = false)
    (hw : (d.dom n).wedged = false) (hall : ∀ k ∈ d.blocksOf n, (d.blk k).fly = [] ∧
      ((d.blk k).acts = true ∧ (d.blk k).wait.isSome = true ∨ (d.blk k).arrived = true))
    (hany : ∃ k ∈ d.blocksOf n, (d.blk k).acts = true ∧ (d.blk k).wait.isSome = true) : d.stalls n = true := by
  have hstuck : ∀ k ∈ d.blocksOf n, (d.blk k).acts = true ∧ (d.blk k).wait.isSome = true → d.blockStuck k = true :=
    fun k hk ⟨hr, hwait⟩ => by simp [Dev.blockStuck, hr, hwait, (hall k hk).1]
  have h1 : (d.blocksOf n).all (fun k => d.blockStuck k || (d.blk k).arrived) = true :=
    List.all_eq_true.mpr fun k hk => by
      rcases (hall k hk).2 with h | h
      · simp [hstuck k hk h]
      · simp [h]
  obtain ⟨k, hk, hwk⟩ := hany
  have h2 : (d.blocksOf n).any d.blockStuck = true := List.any_eq_true.mpr ⟨k, hk, hstuck k hk hwk⟩
  have h3 : (d.blocksOf n).any (fun k => (d.blk k).fly.any Flight.mayset) = false :=
    List.any_eq_false.mpr fun k hk => by simp [(hall k hk).1]
  simp [Dev.stalls, ha, hf, hst, hw, h1, h2, h3]

theorem Dev.stalls_mayset {k : Nat} {f : Flight} (hk : k ∈ d.blocksOf n) (hf : f ∈ (d.blk k).fly) (hm : f.mayset = true) :
    d.stalls n = false := by
  have h : (d.blocksOf n).any (fun k => (d.blk k).fly.any Flight.mayset) = true :=
    List.any_eq_true.mpr ⟨k, hk, List.any_eq_true.mpr ⟨f, hf, hm⟩⟩
  simp [Dev.stalls, h]

theorem domainStall_stalls {s : State} {n : Domain} (h : s.dev.stalls n.val = true) :
    Does (.domainStall n) s (s.dev.domainStall n.val) :=
  does_of_eq (if_pos h) rfl

theorem domainStall_idle {s : State} {n : Domain} (h : s.dev.stalls n.val = false) : Does (.domainStall n) s s.dev :=
  does_of_eq (if_neg (Bool.eq_false_iff.mp h)) rfl

end Stall

/-- Settles O52: each command takes the branch of its function that the hypotheses select. The tile step at which an
engine stops lies between the one it stood at and the last (`Dev.stopAt_mem`); the runs of a save slot are the live ones
and those that operations in flight touch (`Dev.mem_slotPieces`). -/
theorem suspensionAndStall : Obligations.SuspensionAndStall := by
  unfold Obligations.SuspensionAndStall
  refine ⟨?suspend, ?noSuspend, Flight.mustEnd_iff, Dev.domainLives_iff, ?partWay, fun _ _ _ => Dev.partWay_idle,
    fun _ _ => Dev.withdrawRecvs_noFlight, ?save, ?saveMemory, ?noSave, ?slot, ?resume, ?restoreStep, ?restoreRegions,
    ?wake, ?noResume, ?stall, ?stalls, ?mayset, ?noStall⟩
  case suspend =>
    intro s n u rest d1 d2 hs ha hl hm hd1 hd2
    refine suspendComplete_does ?_
    subst hd1 hd2
    simp only [Dev.suspendDone, hs]
    exact if_neg (by simp [ha, hl, hm])
  case noSuspend =>
    intro s n h
    exact suspendComplete_does (Dev.suspendDone_waits h)
  case partWay =>
    intro d d0 d1 k o t f p ho hf hp ht hpos hr
    obtain rfl : t = d.stopAt f.pos (p.steps (f.op k)) := ht
    obtain ⟨hlo, hhi⟩ := d.stopAt_mem hpos
    exact ⟨hlo, hhi, Dev.partWay_stops ho hf hp hr⟩
  case save =>
    intro s r n u rest b d1 x area all hn hs hb ha hl hu hq hm hall
    exact saveComplete_does hn (Dev.saveRegion_saves hs hb ha hl hu hq hm hall)
  case saveMemory =>
    intro d d0 d1 d2 d3 d4 n r level b live other area hd0 h1 h2 h3 h4
    exact Dev.saveMemory_saves hd0 h1 h2 h3 h4
  case noSave =>
    rintro s r (hn | hq | ⟨n, hn, hl⟩)
    · exact saveComplete_noDomain hn
    · cases hn : s.dev.domainOf r.val with
      | none => exact saveComplete_noDomain hn
      | some n => exact saveComplete_does hn (Dev.saveRegion_waits (.inl hq))
    · exact saveComplete_does hn (Dev.saveRegion_waits (.inr hl))
  case slot =>
    intro d r b p
    rw [Dev.mem_slotPieces]
    refine or_congr_right ⟨?_, ?_⟩
    · rintro ⟨j, hj, hp⟩
      obtain ⟨f, hf, c, hc, m, hm, rfl⟩ := (d.mem_flightPieces _ _).mp hp
      exact ⟨j, c, m, f, hj, hf, hc, hm, mem_cellsOf_region hj hc, rfl⟩
    · rintro ⟨j, c, m, f, hj, hf, hc, hm, -, rfl⟩
      exact ⟨j, hj, (d.mem_flightPieces _ _).mpr ⟨f, hf, c, hc, m, hm, rfl⟩⟩
  case resume =>
    intro s n u rest d1 d2 hs ha hl haw hi hr hd2
    subst hd2
    exact suspendedStepContinue_does (Dev.continueStep_resumes hs ha hl haw hi hr)
  case restoreStep =>
    intro d d1 n u b hr hb
    exact Dev.restoreStep_area hr hb
  case restoreRegions =>
    intro d d1 n level x xs h
    exact Acc.andThen_eq h _
  case wake =>
    intro d r j _ hj
    exact d.wakeBlocks_blk r hj
  case noResume =>
    intro s n h
    exact suspendedStepContinue_does (Dev.continueStep_waits h)
  case stall =>
    intro s n h
    exact domainStall_stalls h
  case stalls =>
    intro d n ha hf hst hw hall hany
    exact Dev.stalls_of_waits ha hf hst hw hall hany
  case mayset =>
    intro d n k f hk hf hm
    exact Dev.stalls_mayset hk hf hm
  case noStall =>
    intro s n h
    exact domainStall_idle h

end Sys2Proof.Machine
end

section
/-! Written again: an element of a sparse array, and a unit of the device, written twice; runs of several values in a sparse
array. -/

namespace Sys2Proof.Machine
open Sys2Proof Sys2Proof.Claims

/-! ### Sparse arrays -/

section Tab
variable {α : Type} {dflt : Nat → α} {t : Tab α}

theorem Tab.length_readN {k n : Nat} : (Tab.readN dflt t k n).length = n := by
  induction n generalizing k with
  | zero => rfl
  | succ n ih => rw [Tab.readN, List.length_cons, ih]

/-- A run reads as the list whose elements its places hold. -/
theorem Tab.readN_eq_of_getElem {k : Nat} {vs : List α}
    (h : ∀ (i : Nat) (hi : i < vs.length), Tab.read dflt t (k + i) = vs[i]) : Tab.readN dflt t k vs.length = vs := by
  induction vs generalizing k with
  | nil => rfl
  | cons v r ih =>
    rw [List.length_cons, Tab.readN, show Tab.read dflt t k = v from h 0 (Nat.zero_lt_succ _), ih]
    intro i hi
    have := h (i + 1) (Nat.succ_lt_succ hi)
    rwa [← Nat.add_assoc, Nat.add_right_comm] at this

variable [DecidableEq α]

/-- A second write of a key takes the place of the first, where the first left an entry. -/
theorem Tab.write_write {k : Nat} {v v' : α} (hv : v ≠ dflt k) :
    Tab.write dflt (Tab.write dflt t k v) k v' = Tab.write dflt t k v' := by
  induction t with
  | nil => simp [Tab.write, hv]
  | cons e r ih =>
    rcases Nat.lt_trichotomy k e.1 with h | h | h
    · have hd : List.dropWhile (fun x => decide (x.1 ≤ k)) (e :: r) = e :: r :=
        List.dropWhile_cons_of_neg (by simpa using h)
      simp only [Tab.write, h, hv, hd, Nat.lt_irrefl, if_true, if_false]
    · simp [Tab.write, h, h ▸ hv]
    · simp only [Tab.write, Nat.lt_asymm h, Nat.ne_of_gt h, if_false, ih]

variable {ks : List Nat} {vs : List α}

/-- The run `vs` written from each of the keys on. -/
def Tab.writeRuns (dflt : Nat → α) (t : Tab α) (ks : List Nat) (vs : List α) : Tab α :=
  ks.foldl (fun a k => Tab.writeN dflt a k vs) t

theorem Tab.read_writeRuns_other {j : Nat} (h : ∀ k ∈ ks, j < k ∨ k + vs.length ≤ j) :
    Tab.read dflt (Tab.writeRuns dflt t ks vs) j = Tab.read dflt t j := by
  induction ks generalizing t with
  | nil => rfl
  | cons k r ih =>
    obtain ⟨hk, hr⟩ := List.forall_mem_cons.mp h
    exact (ih hr).trans (Tab.read_writeN_other hk)

/-- Where the runs lie apart each of them reads back. -/
theorem Tab.readN_writeRuns_same (h : ∀ k ∈ ks, ∀ j ∈ ks, k = j ∨ k + vs.length ≤ j ∨ j + vs.length ≤ k) {k : Nat}
    (hk : k ∈ ks) : Tab.readN dflt (Tab.writeRuns dflt t ks vs) k vs.length = vs := by
  induction ks generalizing t with
  | nil => cases hk
  | cons j r ih =>
    by_cases hr : k ∈ r
    · exact ih (fun a ha b hb => h a (.tail _ ha) b (.tail _ hb)) hr
    · obtain rfl : k = j := (List.mem_cons.mp hk).resolve_right hr
      refine Tab.readN_eq_of_getElem fun i hi => ?_
      have hapart : ∀ a ∈ r, k + i < a ∨ a + vs.length ≤ k + i := by
        intro a ha
        rcases h k hk a (.tail _ ha) with rfl | hab | hab
        · exact absurd ha hr
        · omega
        · omega
      exact (Tab.read_writeRuns_other hapart).trans (Tab.read_writeN_same hi)

end Tab

/-! ### Bank cells -/

theorem Dev.modBcell_congr {d : Dev} {k : Nat} {f g : BCell → BCell} (h : f (d.bcell k) = g (d.bcell k)) :
    d.modBcell k f = d.modBcell k g := congrArg (d.setBcell k) h

/-- Two changes of a cell are one, where the first does not leave it as after a reset. -/
theorem Dev.modBcell_modBcell {d : Dev} {k : Nat} {f g : BCell → BCell} (h : f (d.bcell k) ≠ BCell.zero) :
    (d.modBcell k f).modBcell k g = d.modBcell k (fun x => g (f x)) := by
  have hr : (d.modBcell k f).bcell k = f (d.bcell k) := Dev.setBcell_read d k _
  have hw := Tab.write_write (dflt := fun _ => BCell.zero) (t := d.bcells) (k := k) (v' := g (f (d.bcell k))) h
  rw [Dev.modBcell, hr]
  exact congrArg (fun t => { d with bcells := t }) hw

end Sys2Proof.Machine
end

section
/-! The weight words of a stack sequence (R137, R141, R142): LOADA fills the activation buffers of the cells that stand at it,
WXV adds its rows into accumulators, waits for its stream rows, or waits for a chunk that fails parity. -/

namespace Sys2Proof.Machine
open Sys2Proof Sys2Proof.Claims

/-! ### LOADA (R142) -/

/-- LOADA in the cells `ps`: the bytes `bs` at byte `o` of each activation buffer. -/
def Dev.loadCells (d : Dev) (st o : Nat) (bs : List Byte) (ps : List (Nat × Nat)) : Dev :=
  ps.foldl (fun a p => (a.abufWrite (cellKey st p.1 p.2) o bs).advance st p.1 p.2) d

/-- The first bytes that LOADA writes in the cells `ps`. -/
def loadPlaces (st o : Nat) (ps : List (Nat × Nat)) : List Nat := ps.map (fun p => cellKey st p.1 p.2 * 32768 + o)

/-- A cell that moves on does not look at the activation buffers. -/
theorem foldl_advance_abuf (d : Dev) (st : Nat) (ps : List (Nat × Nat)) (t : Mem) :
    ps.foldl (fun a p => a.advance st p.1 p.2) { d with abuf := t } =
      { ps.foldl (fun a p => a.advance st p.1 p.2) d with abuf := t } := by
  induction ps generalizing d with
  | nil => rfl
  | cons p r ih => exact ih (d.advance st p.1 p.2)

/-- LOADA changes the activation buffers and moves the cells on. -/
theorem Dev.loadCells_eq (d : Dev) (st o : Nat) (bs : List Byte) (ps : List (Nat × Nat)) :
    d.loadCells st o bs ps = { ps.foldl (fun a p => a.advance st p.1 p.2) d with
      abuf := Tab.writeRuns d.abufDflt d.abuf (loadPlaces st o ps) bs } := by
  induction ps generalizing d with
  | nil => rfl
  | cons p r ih =>
    refine (ih _).trans ?_
    exact congrArg (fun e : Dev => { e with abuf := Tab.writeRuns d.abufDflt d.abuf (loadPlaces st o (p :: r)) bs })
      (foldl_advance_abuf (d.advance st p.1 p.2) st r _)

theorem foldl_min_const {β : Type} {f : β → Nat} {l : List β} {m : Nat} (h : ∀ x ∈ l, f x = m) :
    l.foldl (fun a x => min a (f x)) m = m :=
  List.foldlRecOn (motive := (· = m)) l _ rfl fun _ ha x hx => by rw [ha, h x hx, Nat.min_self]

/-- Cells that all stand at one LOADA word take it together. -/
theorem Dev.loada_together {d : Dev} {st n : Nat} {sl : Slot} {p0 : Nat × Nat} {rest : List (Nat × Nat)} {w : SeqWord}
    (hs : d.slotOf st n = some sl) (hc : sl.chosen = p0 :: rest)
    (hw : sl.words[(d.bcell (cellKey st p0.1 p0.2)).pc]? = some w) (hat : ∀ p ∈ sl.chosen, d.atLoada st n p = true)
    (hpc : ∀ p ∈ sl.chosen, (d.bcell (cellKey st p.1 p.2)).pc = (d.bcell (cellKey st p0.1 p0.2)).pc) :
    d.loada st n = d.loadCells st (32 * w.loadAoff) (sl.bytes (32 * w.loadBoff) (32 * w.count)) sl.chosen := by
  have hf : sl.chosen.filter (d.atLoada st n) = p0 :: rest := by rw [List.filter_eq_self.mpr hat, hc]
  have hm : rest.foldl (fun m p => min m (d.bcell (cellKey st p.1 p.2)).pc) (d.bcell (cellKey st p0.1 p0.2)).pc =
      (d.bcell (cellKey st p0.1 p0.2)).pc :=
    foldl_min_const fun p hp => hpc p (hc ▸ List.mem_cons_of_mem p0 hp)
  have hsame : (p0 :: rest).filter (fun p => decide ((d.bcell (cellKey st p.1 p.2)).pc =
      (d.bcell (cellKey st p0.1 p0.2)).pc)) = sl.chosen := by
    rw [← hc]
    exact List.filter_eq_self.mpr fun p hp => decide_eq_true (hpc p hp)
  simp only [Dev.loada, hs, hf, hm, hw, hsame]
  rfl

theorem Dev.loadCells_abufDflt (d : Dev) (st o : Nat) (bs : List Byte) (ps : List (Nat × Nat)) :
    (d.loadCells st o bs ps).abufDflt = d.abufDflt :=
  congrArg abufUnlisted (foldl_keep Dev.bauEpoch _ ps d fun _ _ => rfl)

/-- Each of the cells holds the bytes, where they fit its buffer. -/
theorem Dev.loadCells_read {st o : Nat} {bs : List Byte} {ps : List (Nat × Nat)} (ho : o + bs.length ≤ 32768)
    (d : Dev) {p : Nat × Nat} (hp : p ∈ ps) :
    Tab.readN (d.loadCells st o bs ps).abufDflt (d.loadCells st o bs ps).abuf (cellKey st p.1 p.2 * 32768 + o) bs.length = bs := by
  rw [Dev.loadCells_abufDflt, Dev.loadCells_eq]
  refine Tab.readN_writeRuns_same ?_ (List.mem_map_of_mem hp)
  simp only [loadPlaces, List.mem_map]
  rintro _ ⟨a, -, rfl⟩ _ ⟨b, -, rfl⟩
  omega

theorem Dev.loadCells_other {st o : Nat} {bs : List Byte} {ps : List (Nat × Nat)} (d : Dev) {x : Nat}
    (h : ∀ p ∈ ps, x < cellKey st p.1 p.2 * 32768 + o ∨ cellKey st p.1 p.2 * 32768 + o + bs.length ≤ x) :
    Tab.read (d.loadCells st o bs ps).abufDflt (d.loadCells st o bs ps).abuf x = Tab.read d.abufDflt d.abuf x := by
  rw [Dev.loadCells_abufDflt, Dev.loadCells_eq]
  exact Tab.read_writeRuns_other (List.forall_mem_map.mpr h)

/-! ### WXV (R137, R141) -/

/-- What lies apart from `n + 1` runs of `b` places lies apart from the first and from the later ones. -/
theorem apart_of_runs {k a r n b x : Nat} (h : x < k + (a + r * b) ∨ k + (a + (r + (n + 1)) * b) ≤ x) :
    (x < k + (a + r * b) ∨ k + (a + r * b) + b ≤ x) ∧ (x < k + (a + (r + 1) * b) ∨ k + (a + (r + 1 + n) * b) ≤ x) := by
  simp only [Nat.add_mul, Nat.one_mul] at h ⊢
  omega

section Rows
variable (d : Dev) (st i c : Nat) (w : SeqWord)

/-- What WXV leaves in the accumulator of row `r` and sequence `q`. -/
def Dev.wxvValue (r q : Nat) : FpVal :=
  bauDot (if w.wZero then FpVal.zero else d.acc (cellKey st i c) (w.wAcc + r * w.wBatch + q))
    ((w.weights (d.bankBytes st i (2 * c + w.wBank) (32 * (w.wAddr + r * w.wPitch)) (32 * w.wLen))).zip
      ((List.range w.rowLen).map (d.activation (cellKey st i c) (32 * (w.wAoff + q * w.wAstr)))))

/-- The device after row `r` of WXV. -/
def Dev.wxvRow (r : Nat) : Dev :=
  d.setAccs (cellKey st i c) (w.wAcc + r * w.wBatch) ((List.range w.wBatch).map (d.wxvValue st i c w r))

theorem Dev.wxvRows_succ (r n : Nat) : d.wxvRows st i c w r (n + 1) = (d.wxvRow st i c w r).wxvRows st i c w (r + 1) n := rfl

/-- WXV changes accumulators alone. -/
theorem Dev.wxvRows_eq (r n : Nat) : d.wxvRows st i c w r n = { d with accs := (d.wxvRows st i c w r n).accs } := by
  induction n generalizing d r with
  | zero => rfl
  | succ n ih => exact ih (d.wxvRow st i c w r) (r + 1)

theorem Dev.wxvRow_other {r x : Nat} (h : x < cellKey st i c * 2048 + (w.wAcc + r * w.wBatch) ∨
    cellKey st i c * 2048 + (w.wAcc + r * w.wBatch) + w.wBatch ≤ x) :
    Tab.read d.accDflt (d.wxvRow st i c w r).accs x = Tab.read d.accDflt d.accs x :=
  Tab.read_writeN_other (by simpa using h)

theorem Dev.wxvRow_same {r q : Nat} (hq : q < w.wBatch) :
    Tab.read d.accDflt (d.wxvRow st i c w r).accs (cellKey st i c * 2048 + (w.wAcc + r * w.wBatch) + q) =
      (d.wxvValue st i c w r q).toF32 :=
  (Tab.read_writeN_same (by simpa using hq)).trans (by simp)

/-- Rows write the accumulators of their own rows alone. -/
theorem Dev.wxvRows_other {r n x : Nat} (h : x < cellKey st i c * 2048 + (w.wAcc + r * w.wBatch) ∨
    cellKey st i c * 2048 + (w.wAcc + (r + n) * w.wBatch) ≤ x) :
    Tab.read d.accDflt (d.wxvRows st i c w r n).accs x = Tab.read d.accDflt d.accs x := by
  induction n generalizing d r with
  | zero => rfl
  | succ n ih =>
    obtain ⟨hfirst, hlater⟩ := apart_of_runs h
    exact (ih (d.wxvRow st i c w r) hlater).trans (d.wxvRow_other st i c w hfirst)

/-- A row does not meet what a later row begins with. -/
theorem Dev.wxvValue_wxvRow {r r' : Nat} (h : r < r') (q : Nat) :
    (d.wxvRow st i c w r).wxvValue st i c w r' q = d.wxvValue st i c w r' q := by
  have hle : (r + 1) * w.wBatch ≤ r' * w.wBatch := Nat.mul_le_mul_right _ h
  have hr : (r + 1) * w.wBatch = r * w.wBatch + w.wBatch := Nat.succ_mul _ _
  have hacc : (d.wxvRow st i c w r).acc (cellKey st i c) (w.wAcc + r' * w.wBatch + q) =
      d.acc (cellKey st i c) (w.wAcc + r' * w.wBatch + q) :=
    congrArg ofF32 (d.wxvRow_other st i c w (by omega))
  rw [Dev.wxvValue, hacc]
  rfl

theorem Dev.wxvRows_same {r n j q : Nat} (hj : j < n) (hq : q < w.wBatch) :
    Tab.read d.accDflt (d.wxvRows st i c w r n).accs (cellKey st i c * 2048 + (w.wAcc + (r + j) * w.wBatch) + q) =
      (d.wxvValue st i c w (r + j) q).toF32 := by
  induction n generalizing d r j with
  | zero => exact absurd hj (Nat.not_lt_zero j)
  | succ n ih =>
    rw [Dev.wxvRows_succ]
    cases j with
    | zero =>
      have hr : (r + 1) * w.wBatch = r * w.wBatch + w.wBatch := Nat.succ_mul _ _
      refine ((d.wxvRow st i c w r).wxvRows_other st i c w ?_).trans (d.wxvRow_same st i c w hq)
      rw [Nat.add_zero]
      omega
    | succ j =>
      have hrow : r + (j + 1) = r + 1 + j := by omega
      rw [hrow, ← d.wxvValue_wxvRow st i c w (show r < r + 1 + j by omega)]
      exact ih (d.wxvRow st i c w r) (Nat.lt_of_succ_lt_succ hj)

end Rows

/-! ### Chunks read again (R301, R375) -/

/-- `d` with the error paths of chunks, the counters, the saturation log, the inbox and the step use of `e`: all that the
retries of a BAU's reads write. -/
def Dev.retryOf (d e : Dev) : Dev :=
  { d with
    badPath := e.badPath, counters := e.counters, chip := e.chip, ec := e.ec
    host := { d.host with stepUse := e.host.stepUse } }

/-- `e` differs from `d` at most where retries write, and no path in error counts none. -/
structure Dev.RetryOnly (d e : Dev) : Prop where
  frame : e = d.retryOf e
  clean : d.badPath = [] → e.badPath = [] ∧ e.counters = d.counters ∧ e.chip = d.chip ∧ e.ec = d.ec

theorem Dev.RetryOnly.refl (d : Dev) : d.RetryOnly d := ⟨rfl, fun h => ⟨h, rfl, rfl, rfl⟩⟩

theorem Dev.RetryOnly.trans {a b c : Dev} (h : a.RetryOnly b) (k : b.RetryOnly c) : a.RetryOnly c where
  frame := Eq.trans k.frame (congrArg (fun x => x.retryOf c) h.frame)
  clean := fun ha => by
    obtain ⟨hb, hbc, hbh, hbe⟩ := h.clean ha
    obtain ⟨hc, hcc, hch, hce⟩ := k.clean hb
    exact ⟨hc, hcc.trans hbc, hch.trans hbh, hce.trans hbe⟩

theorem Dev.bump_retryOf (d : Dev) (off : Nat) : d.bump off = d.retryOf (d.bump off) := by
  unfold Dev.bump Dev.bumpBy
  dsimp only
  split
  · unfold Dev.saturated
    (repeat' split) <;> rfl
  · rfl

theorem Dev.retried_retryOnly (d : Dev) (st i : Nat) (p : Stripe) : d.RetryOnly (d.retried st i p) := by
  unfold Dev.retried
  dsimp only
  split
  next hk =>
    refine ⟨?_, fun h => by simp [h] at hk⟩
    exact (Dev.bump_retryOf _ _).trans rfl
  · exact Dev.RetryOnly.refl d

theorem Dev.stepUses_retryOnly (d : Dev) (w : Who) (a len : Nat) : d.RetryOnly (d.stepUses w a len) := by
  unfold Dev.stepUses Dev.usesRange
  dsimp only
  (repeat' split) <;> exact ⟨rfl, fun h => ⟨h, rfl, rfl, rfl⟩⟩

theorem Dev.retriedAll_retryOnly (d : Dev) (st i b : Nat) (ns : List Nat) : d.RetryOnly (d.retriedAll st i b ns) :=
  foldl_rel Dev.RetryOnly.refl Dev.RetryOnly.trans
    (fun a n => (a.retried_retryOnly st i (bankStripe b n)).trans (Dev.stepUses_retryOnly _ _ _ _)) ns d

theorem Dev.RetryOnly.bcell {d e : Dev} (h : d.RetryOnly e) (k : Nat) : e.bcell k = d.bcell k := by
  rw [h.frame]; rfl

/-! ### The step of a WXV word -/

/-- The chunks that a WXV word reads of its bank. -/
def SeqWord.wChunks (w : SeqWord) : List Nat :=
  (List.range w.count).flatMap (fun r => (List.range w.wLen).map (fun k => w.wAddr + r * w.wPitch + k))

section Wxv
variable {d : Dev} {st i c : Nat} {sl : Slot} {w : SeqWord} (hw : d.wordFor st i c 0x2 = some (sl, w))
include hw

theorem Dev.wxv_rowClosed (hr : (d.bcell (cellKey st i c)).rowsAhead <
    (sl.wordOpens w st i c 0 (d.bcell (cellKey st i c)).row).length) : d.wxv st i c = d := by
  simp only [Dev.wxv, hw, hr, if_true]

section RowsOpen
variable (hr : (sl.wordOpens w st i c 0 (d.bcell (cellKey st i c)).row).length ≤ (d.bcell (cellKey st i c)).rowsAhead)
include hr

theorem Dev.wxv_parity {p : Stripe} (hb : d.firstBad st i (2 * c + w.wBank) w.wChunks = some p) :
    d.wxv st i c = d.bauWaits st i c p := by
  rw [SeqWord.wChunks] at hb
  simp only [Dev.wxv, hw, Nat.not_lt.mpr hr, if_false, hb]

theorem Dev.wxv_adds (hb : d.firstBad st i (2 * c + w.wBank) w.wChunks = none) :
    d.wxv st i c = ((d.wxvRows st i c w 0 w.count).retriedAll st i (2 * c + w.wBank) w.wChunks).modBcell (cellKey st i c)
      (fun x => { x.read (sl.wordOpens w st i c 0 x.row) with
        latch := some (d.lastWeights st i c w), pc := x.pc + 1, storePos := 0 }) := by
  have hcell : ((d.wxvRows st i c w 0 w.count).retriedAll st i (2 * c + w.wBank) w.wChunks).bcell (cellKey st i c) =
      d.bcell (cellKey st i c) :=
    (Dev.RetryOnly.bcell (Dev.retriedAll_retryOnly _ _ _ _ _) _).trans (by rw [Dev.wxvRows_eq]; rfl)
  rw [SeqWord.wChunks] at hb hcell ⊢
  simp only [Dev.wxv, hw, Nat.not_lt.mpr hr, if_false, hb, Dev.advance]
  rw [Dev.modBcell_modBcell fun h => Option.some_ne_none _ (congrArg BCell.latch h)]
  exact Dev.modBcell_congr (by rw [hcell]; rfl)

end RowsOpen
end Wxv

/-- Settles O37: the bytes that LOADA writes lie in the buffers of the cells that stand at it (`Dev.loadCells_read`); a WXV
word takes the branch of what it meets, and its rows write apart from each other (`Dev.wxvRows_same`). -/
theorem weightWords : Obligations.WeightWords := by
  unfold Obligations.WeightWords
  refine ⟨?loada, ?adds, ?closed, ?parity, ?value, ?others, fun d st i c n w => d.wxvRows_eq st i c w 0 n, ?retries⟩
  case loada =>
    rintro s st n sl p0 rest _ w hs hc rfl hw hall hfit
    have hlen : (sl.bytes (32 * w.loadBoff) (32 * w.count)).length = 32 * w.count := Tab.length_readN
    have hl := Dev.loada_together hs hc hw (fun p hp => by simp [Dev.atLoada, (hall p hp).1, (hall p hp).2.2])
      (fun p hp => (hall p hp).2.1)
    refine ⟨_, does_of_eq hl rfl, ?_, fun p hp => ?_, fun x hx => ?_⟩
    · rw [Dev.loadCells_eq]
      rfl
    · have hr := s.dev.loadCells_read (st := st.val) (bs := sl.bytes (32 * w.loadBoff) (32 * w.count)) (by rwa [hlen]) hp
      rwa [hlen] at hr
    · have hd := s.dev.loadCells_other (st := st.val) (ps := sl.chosen) (x := x)
        (bs := sl.bytes (32 * w.loadBoff) (32 * w.count)) (o := 32 * w.loadAoff)
      rw [hlen] at hd
      exact hd hx
  case adds => exact fun s st i c sl w hw hb hr => does_of_eq (Dev.wxv_adds hw hr hb) rfl
  case closed => exact fun s st i c sl w hw hr => does_of_eq (Dev.wxv_rowClosed hw hr) rfl
  case parity => exact fun s st i c sl w p hw hb hr => does_of_eq (Dev.wxv_parity hw hr hb) rfl
  case value =>
    intro d st i c n r q w hr hq
    have h := d.wxvRows_same st i c w (r := 0) hr hq
    rwa [Nat.zero_add, Nat.add_assoc] at h
  case others =>
    intro d st i c n x w h
    exact d.wxvRows_other st i c w (by simpa using h)
  case retries =>
    intro d st i b ns
    exact ⟨(d.retriedAll_retryOnly st i b ns).frame, (d.retriedAll_retryOnly st i b ns).clean⟩

end Sys2Proof.Machine
end

section
/-! EMIT (R142, R149, R150, R192): into the merge buffer value by value, or as the records of the cell's entry. -/

namespace Sys2Proof.Machine
open Sys2Proof Sys2Proof.Claims

/-! ### Sums in the merge buffer (R149) -/

/-- The value that entry `i` holds, as it goes into a sum: zero where none is written. -/
def Slot.mergeValue (x : Slot) (i : Nat) : FpVal := ofF32 ((Tab.read (fun _ => none) x.merge i).getD 0)

/-- The values `f 0` to `f (n - 1)` added into the entries from `base` on. -/
def Slot.sumRun (x : Slot) (base : Nat) (f : Nat → FpVal) (n : Nat) : Slot :=
  (List.range n).foldl (fun a j => a.sumInto (base + j) (f j)) x

section SumRun
variable (x : Slot) (base : Nat) (f : Nat → FpVal)

theorem Slot.sumRun_succ (n : Nat) : x.sumRun base f (n + 1) = (x.sumRun base f n).sumInto (base + n) (f n) := by
  rw [Slot.sumRun, List.range_succ, List.foldl_append]
  rfl

theorem Slot.sumRun_eq (n : Nat) : x.sumRun base f n = { x with merge := (x.sumRun base f n).merge } := by
  induction n with
  | zero => rfl
  | succ n ih =>
    rw [Slot.sumRun_succ, ih]
    rfl

theorem Slot.sumRun_other {n k : Nat} (h : k < base ∨ base + n ≤ k) :
    Tab.read (fun _ => none) (x.sumRun base f n).merge k = Tab.read (fun _ => none) x.merge k := by
  induction n with
  | zero => rfl
  | succ n ih =>
    rw [Slot.sumRun_succ]
    exact (Tab.read_write_other (by omega)).trans (ih (by omega))

/-- Each entry of the run takes one addition. -/
theorem Slot.sumRun_same {n j : Nat} (h : j < n) : Tab.read (fun _ => none) (x.sumRun base f n).merge (base + j) =
    some (add32 (x.mergeValue (base + j)) (f j)).toF32 := by
  induction n with
  | zero => exact absurd h (Nat.not_lt_zero j)
  | succ n ih =>
    rw [Slot.sumRun_succ]
    rcases Nat.lt_succ_iff_lt_or_eq.mp h with hj | rfl
    · exact (Tab.read_write_other (by omega)).trans (ih hj)
    · refine Tab.read_write_same.trans ?_
      rw [x.sumRun_other base f (by omega)]
      rfl

end SumRun

/-! ### EMIT in both modes -/

section Emit
variable {d : Dev} {st i c n : Nat} {sl : Slot} {w : SeqWord} {rest : List Nat}
  (hw : d.wordFor st i c 0x5 = some (sl, w)) (hn : (d.bcell (cellKey st i c)).runs = n :: rest)
include hw hn

theorem Dev.emitWord_sums (hm : w.eMode ≠ 1) : d.emitWord st i c = (d.setSlot st n (some { sl with
      merge := (sl.sumRun (w.eBase + (64 * i + c) * w.ePitch) (fun j => d.acc (cellKey st i c) (w.eAcc + j)) w.count).merge
      otype := w.eType })).advance st i c := by
  have hz : ((List.range w.count).map (fun j => d.acc (cellKey st i c) (w.eAcc + j))).zip (List.range w.count) =
      (List.range w.count).map (fun j => (d.acc (cellKey st i c) (w.eAcc + j), j)) := by
    simpa using List.zip_map' (f := fun j => d.acc (cellKey st i c) (w.eAcc + j)) (g := id) (l := List.range w.count)
  simp only [Dev.emitWord, hw, hn, hm, if_false, hz, List.foldl_map]
  exact congrArg (fun x : Slot => (d.setSlot st n (some { x with otype := w.eType })).advance st i c) (sl.sumRun_eq _ _ _)

/-- One record of a cell with a valid entry. -/
theorem Dev.emitWord_record (hm : w.eMode = 1) {r : Nat} (hr : (d.bcell (cellKey st i c)).ridx = some r)
    (hc : w.count = w.ePitch) (hp : 0 < w.ePitch) : d.emitWord st i c = (d.setSlot st n (some { sl with
      recLen := w.ePitch
      arrivals := sl.arrivals ++ [(r, (List.range w.count).map (fun j =>
        (d.acc (cellKey st i c) (w.eAcc + j)).toF32))] })).advance st i c := by
  have hone : List.range (w.count / w.ePitch) = [0] := by rw [hc, Nat.div_self hp]; rfl
  have hall : slice ((List.range w.count).map (fun j => d.acc (cellKey st i c) (w.eAcc + j))) 0 w.ePitch =
      (List.range w.count).map (fun j => d.acc (cellKey st i c) (w.eAcc + j)) := by
    rw [slice, List.drop_zero]
    exact List.take_of_length_le (by simp [hc])
  simp only [Dev.emitWord, hw, hn, hm, hr, hone, List.map_cons, List.map_nil, Nat.zero_mul, Nat.add_zero, hall,
    List.map_map, if_true]
  rfl

theorem Dev.emitWord_noEntry (hm : w.eMode = 1) (hr : (d.bcell (cellKey st i c)).ridx = none) :
    d.emitWord st i c = (d.setSlot st n (some sl)).advance st i c := by
  simp only [Dev.emitWord, hw, hn, hm, hr, if_true]
  rfl

end Emit

/-- Settles O38: in MODE 0 the entries are those of the run of sums (`Slot.sumRun_same`); in MODE 1 the word sends one record
of the cell's entry, or none. -/
theorem emitWords : Obligations.EmitWords := by
  unfold Obligations.EmitWords
  refine ⟨?sums, ?record, ?noEntry⟩
  case sums =>
    intro s st i c sl w n rest hw hm hn
    refine ⟨_, does_of_eq (Dev.emitWord_sums hw hn hm) rfl, fun j hj => Slot.sumRun_same sl _ _ hj,
      fun k hk => Slot.sumRun_other sl _ _ hk⟩
  case record =>
    exact fun s st i c sl w n r rest hw hm hn hr hc hp => does_of_eq (Dev.emitWord_record hw hn hm hr hc hp) rfl
  case noEntry => exact fun s st i c sl w n rest hw hm hn hr => does_of_eq (Dev.emitWord_noEntry hw hn hm hr) rfl

end Sys2Proof.Machine
end

section
/-! The rule set of a stack (R156, R157, R159, R160): a write of SW_SET, the change that it begins, its dies one by one, and
the time-out. -/

namespace Sys2Proof.Machine
open Sys2Proof Sys2Proof.Claims

/-! ### Requests of the host and conditions of a step -/

section Hosted
variable {s : State} {i : Instr} {c : Dev → Bool} {f : Dev → Dev}
  (he : exec i s = s.hosted i fun d => d.when (c d) f) (hh : s.dev.host.held = [])
include he hh

/-- A request of the function comes in its turn where none waits before it (R368), with its effect on its conditions. -/
theorem hosted_does (hc : c s.dev = true) : Does i s (f s.dev) := by
  rw [Does, he, State.hosted, State.always_next, Dev.inOrder, hh, Dev.when, if_pos hc]
  rfl

theorem hosted_idle (hc : c s.dev = false) : Does i s s.dev := by
  rw [Does, he, State.hosted, State.always_next, Dev.inOrder, hh, Dev.when, if_neg (Bool.eq_false_iff.mp hc)]
  rfl

end Hosted

/-! ### SW_SET (R156, R157, R159) -/

section Retarget
variable {d : Dev} {st : Nat}

theorem Dev.retarget_waits (hb : (d.stk st).busy = true) : d.retarget st = d.setStk st { d.stk st with
    pend := if (d.stk st).wanted = (d.stk st).target then none else some (d.stk st).wanted } := if_pos hb

theorem Dev.retarget_met (hb : (d.stk st).busy = false) (hw : (d.stk st).wanted = (d.stk st).target) :
    d.retarget st = d := by
  simp only [Dev.retarget, hb, hw, Bool.false_eq_true, if_false, if_true]

theorem Dev.retarget_begins (hb : (d.stk st).busy = false) (hw : (d.stk st).wanted ≠ (d.stk st).target) :
    d.retarget st = d.beginRule st (d.stk st).wanted := by
  simp only [Dev.retarget, hb, hw, Bool.false_eq_true, if_false]

end Retarget

section SwSet
variable {s : State} {st : Stack} {v : Word} (hh : s.dev.host.held = []) (hr : s.dev.hostReady = true)
  (hp : s.dev.stackPresent st.val = true)
include hh hr hp

theorem stackRuleWrite_does : Does (.stackRuleWrite st v) s (s.dev.ruleWrite st.val (fieldAt v.toNat 0 3)) := by
  refine hosted_does (c := fun d => d.hostReady && d.stackPresent st.val)
    (f := fun d => d.ruleWrite st.val (fieldAt v.toNat 0 3)) rfl hh ?_
  simp only [hr, hp, Bool.and_self]

theorem stackRuleWrite_reserved (hv : 4 < fieldAt v.toNat 0 3) : Does (.stackRuleWrite st v) s s.dev :=
  does_of_eq (if_pos hv) (stackRuleWrite_does hh hr hp)

theorem stackRuleWrite_listed (hv : fieldAt v.toNat 0 3 ≤ 4) : Does (.stackRuleWrite st v) s
    ((s.dev.modStk st.val (fun x => { x with sw := fieldAt v.toNat 0 3 })).retarget st.val) :=
  does_of_eq (if_neg (Nat.not_lt.mpr hv)) (stackRuleWrite_does hh hr hp)

end SwSet

/-! ### The dies (R157) -/

theorem Dev.mayApply_iff (d : Dev) (st i : Nat) : d.mayApply st i = true ↔
    (d.stk st).busy = true ∧ (d.stk st).timedOut = false ∧ (d.stk st).applied.getLsbD i = false ∧
      ((d.stk st).target ≤ (d.stk st).frm → ∀ n : Nat, n < i → (d.stk st).applied.getLsbD n = true) ∧
      ((d.stk st).frm < (d.stk st).target →
        d.streaming st i ≤ pimCap (d.stk st).target ∧ d.actsNow st i ≤ bawCount (d.stk st).target) := by
  unfold Dev.mayApply
  by_cases h : (d.stk st).target ≤ (d.stk st).frm
  · simp [h, Nat.not_lt.mpr h, and_assoc]
  · simp [h, Nat.not_le.mp h, and_assoc]

section Apply
variable {d : Dev} {st i : Nat}

theorem Dev.applyRule_goesOn (ha : (d.stk st).applied ||| BitVec.ofNat 16 (2 ^ i) ≠ 0xFFFF) :
    d.applyRule st i = d.modStk st (fun x => { x with applied := x.applied ||| BitVec.ofNat 16 (2 ^ i) }) := if_neg ha

/-- The last die ends the change. -/
theorem Dev.applyRule_ends (ha : (d.stk st).applied ||| BitVec.ofNat 16 (2 ^ i) = 0xFFFF) (hp : (d.stk st).pend = none) :
    d.applyRule st i = d.modStk st (fun x => { x with applied := 0xFFFF, busy := false, pend := none }) := by
  simp only [Dev.applyRule, ha, hp, if_true]
  rfl

end Apply

section DieApply
variable {s : State} {st : Stack} {i : Fin 16}

theorem dieApplyRule_does (h : s.dev.mayApply st.val i.val = true) {e : Dev} (he : s.dev.applyRule st.val i.val = e) :
    Does (.dieApplyRule st i) s e :=
  does_of_eq ((if_pos h).trans he) rfl

theorem dieApplyRule_waits (h : s.dev.mayApply st.val i.val = false) : Does (.dieApplyRule st i) s s.dev :=
  does_of_eq (if_neg (Bool.eq_false_iff.mp h)) rfl

end DieApply

/-! ### The time-out (R160) -/

theorem modeTimeout_faults {s : State} {st : Stack} (hb : (s.dev.stk st.val).busy = true)
    (ht : (s.dev.stk st.val).timedOut = false) : Does (.modeTimeout st) s
      ((s.dev.modStk st.val (fun x => { x with timedOut := true })).regionFault (st.val / 2) codeModeTimeout 6) :=
  does_of_eq (if_pos (by rw [hb, ht]; rfl)) rfl

theorem modeTimeout_idle {s : State} {st : Stack} (hb : (s.dev.stk st.val).busy = false) :
    Does (.modeTimeout st) s s.dev :=
  does_of_eq (if_neg (by rw [hb]; exact Bool.false_ne_true)) rfl

/-- Settles O21: a write of SW_SET by its code, the retargeting by BUSY and the set wanted, and the step of a die by whether
it is the last. -/
theorem stackRuleSets : Obligations.StackRuleSets := by
  unfold Obligations.StackRuleSets
  refine ⟨fun s st v => stackRuleWrite_reserved, fun s st v => stackRuleWrite_listed, fun d st => Dev.retarget_met,
    ?begins, fun d st => Dev.retarget_waits, ?goesOn, ?ends, Dev.mayApply_iff, fun s st i => dieApplyRule_waits,
    fun s st => modeTimeout_faults, fun s st => modeTimeout_idle⟩
  case begins => exact fun d st hb hw => (Dev.retarget_begins hb hw).trans rfl
  case goesOn => exact fun s st i h ha => dieApplyRule_does h (Dev.applyRule_goesOn ha)
  case ends => exact fun s st i h ha hp => dieApplyRule_does h (Dev.applyRule_ends ha hp)

end Sys2Proof.Machine
end

section
/-! Dispatch on the stacks (R144, R145, R202): an engine hands its request to the stacks that it names, and a stack that runs
takes its oldest request into the lowest free slot. -/

namespace Sys2Proof.Machine
open Sys2Proof Sys2Proof.Claims

/-! ### STACK_SEQ and STACK_SCAN (R144, R202) -/

section Send
variable {d : Dev} {k : Nat}

theorem Dev.sendDispatch_notReady {o : Nat} (h : d.ready k o = none) : d.sendDispatch k o = d := by
  rw [Dev.sendDispatch, h]

variable {f : Flight}

theorem Dev.sendDispatch_scan (h : d.ready k 0x21 = some f) : d.sendDispatch k 0x21 =
    ((f.op k).stacksNamed.foldl (fun a st => a.modStk st (fun x =>
      { x with reqs := x.reqs ++ [⟨k / 4, k % 4, f.index, f.word, f.raws, true, []⟩] })) d).modFlight k f.index (fun x =>
        { x with begun := true, waitsOn := (f.op k).stacksNamed }) := by
  rw [Dev.sendDispatch, h]
  rfl

/-- A sequence also takes its place in the order of its queue, on every stack that it names. -/
theorem Dev.sendDispatch_seq (h : d.ready k 0x20 = some f) : d.sendDispatch k 0x20 =
    (((f.op k).stacksNamed.foldl (fun a st => a.modStk st (fun x =>
      { x with reqs := x.reqs ++ [⟨k / 4, k % 4, f.index, f.word, f.raws, false, []⟩] })) d).modQueue
        (32 * (k / 4) + (f.op k).w.queue) (fun x =>
          { x with order := x.order ++ (f.op k).stacksNamed.map (fun st => (st, k, f.index)) })).modFlight k f.index
            (fun x => { x with begun := true, waitsOn := (f.op k).stacksNamed }) := by
  rw [Dev.sendDispatch, h]
  rfl

end Send

theorem stackSeq_does {s : State} {r : Region} {b : Blk} {e : Dev} (h : s.dev.sendDispatch (4 * r.val + b.val) 0x20 = e) :
    Does (.stackSeq r b) s e := does_of_eq h rfl

theorem stackScan_does {s : State} {r : Region} {b : Blk} {e : Dev}
    (h : s.dev.sendDispatch (4 * r.val + b.val) 0x21 = e) : Does (.stackScan r b) s e := does_of_eq h rfl

/-! ### Slots -/

theorem Dev.freeSlot_spec {d : Dev} {st n : Nat} (h : d.freeSlot st = some n) :
    n < 4 ∧ d.slotOf st n = none ∧ ∀ m : Nat, m < n → d.slotOf st m ≠ none := by
  obtain ⟨hfree, hmem, hlow⟩ := List.find?_range_eq_some.mp h
  refine ⟨List.mem_range.mp hmem, Option.isNone_iff_eq_none.mp hfree, fun m hm hn => ?_⟩
  simpa [hn] using hlow m hm

theorem seqFault_shared (n i : Nat) : seqFault n i none = BitVec.ofNat 32 (2 ^ 31 + n * 2 ^ 16 + i % 2048) := rfl

theorem seqFault_die (n i x : Nat) :
    seqFault n i (some x) = BitVec.ofNat 32 (2 ^ 31 + (2 ^ 28 + x * 2 ^ 24) + n * 2 ^ 16 + i % 2048) := rfl

/-! ### The request that is taken -/

section Take
variable {d : Dev} {st : Nat}

theorem Dev.dispatch_stopped (h : d.stackRuns st = false) : d.dispatch st = d := by
  simp only [Dev.dispatch, h, Bool.not_false, if_true]

theorem Dev.dispatch_noScan (hr : d.stackRuns st = true) (hs : (d.stk st).scanQ = []) : d.dispatch st = d.takeRequest st := by
  simp only [Dev.dispatch, hr, hs, Bool.not_true, Bool.false_eq_true, if_false]

theorem Dev.takeRequest_none (h : d.freeSlot st = none ∨ (d.stk st).reqs = []) : d.takeRequest st = d := by
  unfold Dev.takeRequest
  split
  next hq hn =>
    rcases h with h | h
    · exact absurd (h.symm.trans hn) (Option.some_ne_none _).symm
    · exact absurd (h.symm.trans hq) (List.cons_ne_nil _ _).symm
  · rfl

variable {q : DispReq} {rest : List DispReq} {n : Nat} (hr : d.stackRuns st = true) (hs : (d.stk st).scanQ = [])
  (hq : (d.stk st).reqs = q :: rest) (hn : d.freeSlot st = some n)
include hr hs hq hn

theorem Dev.dispatch_seq (hk : q.scan = false) : d.dispatch st = d.startSequence st n q rest := by
  rw [Dev.dispatch_noScan hr hs, Dev.takeRequest, hq, hn]
  exact if_neg (Bool.eq_false_iff.mp hk)

theorem Dev.dispatch_scan (hk : q.scan = true) {d1 : Dev} {sl : Slot}
    (h1 : d.newSlot q (2 * OpWord.scanDim q.word) = .ok (d1, sl)) : d.dispatch st =
      (d1.drawn.setSlot st n (some { sl with dieMask := 0xFFFF, cellMask := 2 ^ 64 - 1 })).modStk st (fun x =>
        { x with reqs := rest, scanQ := x.scanQ ++ [n] }) := by
  rw [Dev.dispatch_noScan hr hs, Dev.takeRequest, hq, hn]
  refine (if_pos hk).trans ?_
  simp only [Dev.queueScan, h1]

end Take

/-! ### The start of a sequence (R145) -/

/-- The slot of a sequence whose image is `bs`. -/
def Slot.withImage (s0 : Slot) (q : DispReq) (bs : List Byte) : Slot :=
  { s0 with
    words := (List.range ((bs.length - 64) / 16)).map (fun i =>
      SeqWord.withArg (fieldOf bs (64 + 16 * i) 16) (OpWord.arg q.word % 65536))
    dieMask := fieldOf bs 2 2, cellMask := fieldOf bs 8 8 }

/-- The sequence of slot `sl` begins in its selected cells, or halts the stack at the first word that fails (R145). -/
def Dev.beginChecked (d : Dev) (st n : Nat) (sl : Slot) : Dev :=
  match d.seqFail st sl sl.words 0 0 sl.words with
  | some f => d.stackHalt st f.1 (seqFault n f.2 (d.faultDie st sl sl.words f))
  | none => sl.chosen.foldl (fun x p => x.modBcell (cellKey st p.1 p.2) (fun y => y.enqueue n))
      (d.setSlot st n (some sl))

theorem Dev.beginChecked_starts {d : Dev} {st n : Nat} {sl : Slot} (h : d.seqFail st sl sl.words 0 0 sl.words = none) :
    d.beginChecked st n sl = sl.chosen.foldl (fun x p => x.modBcell (cellKey st p.1 p.2) (fun y => y.enqueue n))
      (d.setSlot st n (some sl)) := by
  rw [Dev.beginChecked, h]

theorem Dev.beginChecked_halts {d : Dev} {st n : Nat} {sl : Slot} {code i : Nat}
    (h : d.seqFail st sl sl.words 0 0 sl.words = some (code, i)) :
    d.beginChecked st n sl = d.stackHalt st code (seqFault n i (d.faultDie st sl sl.words (code, i))) := by
  rw [Dev.beginChecked, h]

section Start
variable {d d1 d1' : Dev} {st n a size : Nat} {q : DispReq} {rest : List DispReq} {t z : Bool} {bs : List Byte} {s0 : Slot}

/-- With its image read and its header good, a sequence is checked and begins. -/
theorem Dev.startSequence_checked (hf : (d.queue (32 * q.region + OpWord.queue q.word)).full = false)
    (ha : (opWith (4 * q.region + q.blk) q.word q.raws).at 0 = .addr t a size z)
    (hi : d.sequenceImage st a size = .ok (d1, bs)) (hn : (d1.unserve (reconWho st).party).newSlot q 65536 = .ok (d1', s0))
    (hh : headerFail bs size = none) {d2 : Dev} (h2 : d2 = d1'.drawn.modStk st (fun x => { x with reqs := rest }))
    {sl : Slot} (hsl : sl = s0.withImage q bs) : d.startSequence st n q rest = d2.beginChecked st n sl := by
  subst h2 hsl
  simp only [Dev.startSequence, hf, ha, hi, hn, hh, Bool.false_and, Bool.false_eq_true, if_false]
  rfl

end Start

theorem stackDispatch_does {s : State} {st : Stack} {e : Dev} (h : s.dev.dispatch st.val = e) :
    Does (.stackDispatch st) s e := does_of_eq h rfl

/-- Settles O41: what the engine sends, and what the stack does with its oldest request, by the check of the sequence. -/
theorem stackDispatch : Obligations.StackDispatch := by
  unfold Obligations.StackDispatch
  refine ⟨?seq, ?scan, fun s r b h => stackSeq_does (Dev.sendDispatch_notReady h),
    fun s r b h => stackScan_does (Dev.sendDispatch_notReady h), ?takes,
    fun n i x => ⟨seqFault_shared n i, seqFault_die n i x⟩, ?takesScan, ?waits, fun d st n => Dev.freeSlot_spec⟩
  case seq =>
    rintro s r b _ f _ rfl hf rfl
    exact stackSeq_does (Dev.sendDispatch_seq hf)
  case scan =>
    rintro s r b _ f rfl hf
    exact stackScan_does (Dev.sendDispatch_scan hf)
  case takes =>
    rintro s st q rest n _ a size t z d1 d1' d2 bs s0 sl hr hs hq hn hk rfl hf ha hi h1 hh h2 hsl
    have hstart := (Dev.dispatch_seq hr hs hq hn hk).trans (Dev.startSequence_checked hf ha hi h1 hh h2 hsl)
    exact ⟨fun hc => stackDispatch_does (hstart.trans (Dev.beginChecked_starts hc)),
      fun code i hc => stackDispatch_does (hstart.trans (Dev.beginChecked_halts hc))⟩
  case takesScan =>
    exact fun s st q rest n d1 sl hr hs hq hn hk h1 => stackDispatch_does (Dev.dispatch_scan hr hs hq hn hk h1)
  case waits =>
    rintro s st (hr | ⟨hs, h⟩)
    · exact stackDispatch_does (Dev.dispatch_stopped hr)
    · cases hr : s.dev.stackRuns st.val with
      | false => exact stackDispatch_does (Dev.dispatch_stopped hr)
      | true => exact stackDispatch_does ((Dev.dispatch_noScan hr hs).trans (Dev.takeRequest_none h))

end Sys2Proof.Machine
end

section
/-! Turns, refreshes and yield points of a bank cell (R151, R152, R153, R158, R161, R163, R165): each step by what it meets. -/

namespace Sys2Proof.Machine
open Sys2Proof Sys2Proof.Claims

/-! ### Turns (R151, R152, R153, R158) -/

section TryActivate
variable {d : Dev} {st i t rs : Nat}

theorem Dev.tryActivate_makes (h : (d.recentActs st i t).length < bawCount rs) (c : Nat) (row : Option Nat) :
    d.tryActivate st i c t rs row = (d.useTurn st i t).activate st i c t row := if_pos h

theorem Dev.tryActivate_refused (h : bawCount rs ≤ (d.recentActs st i t).length) (c : Nat) (row : Option Nat) :
    d.tryActivate st i c t rs row = (d.useTurn st i t).bump (bawRefusalsAt st) := if_neg (Nat.not_lt.mpr h)

end TryActivate

/-- The cell may take the turn of cycle `t`: it is the cell's own, the die has not used it, the stack runs, and the cell does
not refresh (R153). -/
structure Dev.MayTurn (d : Dev) (st i c t : Nat) : Prop where
  own : t % 64 = c
  idle : (d.bcell (cellKey st i c)).refreshing = false
  runs : d.stackRuns st = true
  unused : Tab.read (fun _ => 0) (d.stk st).turnAt i ≤ t

section Turn
variable {d : Dev} {st i c t : Nat}

theorem Dev.turn_idle (h : t % 64 ≠ c ∨ d.stackRuns st = false ∨ t < Tab.read (fun _ => 0) (d.stk st).turnAt i) :
    d.turn st i c t = d :=
  if_pos (by rcases h with h | h | h <;> simp [h])

variable (h : d.MayTurn st i c t)
include h

theorem Dev.MayTurn.guard_eq_false : (decide (t % 64 ≠ c) || (d.bcell (cellKey st i c)).refreshing || !d.stackRuns st ||
    decide (t < Tab.read (fun _ => 0) (d.stk st).turnAt i)) = false := by
  simp [h.own, h.idle, h.runs, h.unused]

/-- A start or resume: not while tPIM_CAP is reached, nor while the cell serves an access. -/
theorem Dev.turn_starts (hp : (d.bcell (cellKey st i c)).phase = .wantTurn) : d.turn st i c t =
    if pimCap (d.stk st).inForce < d.streaming st i + 1 ∨ d.serves (cellKey st i c) = true then d
    else d.tryActivate st i c t (d.stk st).inForce (d.segmentOpens st i c).head? := by
  simp only [Dev.turn, h.guard_eq_false, hp, Bool.false_eq_true, if_false, Bool.or_eq_true, decide_eq_true_eq]

section Streams
variable (hp : (d.bcell (cellKey st i c)).phase = .streaming)
include hp

/-- A running stream opens its next stream row, if it has one to open. -/
theorem Dev.turn_opens {r : Nat}
    (hr : (d.segmentOpens st i c)[(d.bcell (cellKey st i c)).rowsAhead]? = some r) :
    d.turn st i c t = d.tryActivate st i c t ((d.stk st).ruleOf i) (some r) := by
  simp only [Dev.turn, h.guard_eq_false, hp, hr, Bool.false_eq_true, if_false]

theorem Dev.turn_nothingToOpen (hr : (d.segmentOpens st i c)[(d.bcell (cellKey st i c)).rowsAhead]? = none) :
    d.turn st i c t = d := by
  simp only [Dev.turn, h.guard_eq_false, hp, hr, Bool.false_eq_true, if_false]

end Streams

end Turn

theorem streamActivation_does {s : State} {st : Stack} {i : Fin 16} {c : BankCell} {t : Nat} {e : Dev}
    (h : s.dev.turn st.val i.val c.val t = e) : Does (.streamActivation st i c t) s e := does_of_eq h rfl

/-! ### Refreshes (R161, R163) -/

section RefreshDue
variable {d : Dev} {st i c : Nat}

theorem Dev.refreshDue_ahead (h : (d.bcell (cellKey st i c)).ahead = true) : d.refreshDue st i c =
    d.setBcell (cellKey st i c) { d.bcell (cellKey st i c) with ahead := false } := if_pos h

variable (ha : (d.bcell (cellKey st i c)).ahead = false)
include ha

/-- Outside a segment the refresh begins, or falls due behind what comes before it. -/
theorem Dev.refreshDue_outside (hp : (d.bcell (cellKey st i c)).phase ≠ .streaming) : d.refreshDue st i c =
    if (d.bcell (cellKey st i c)).refreshing = true ∨
      ((d.bcell (cellKey st i c)).phase ≠ .idle ∧ d.cellDeltas st i c = true)
    then d.setBcell (cellKey st i c) { d.bcell (cellKey st i c) with due := (d.bcell (cellKey st i c)).due + 1 }
    else d.startRefresh st i c (d.bcell (cellKey st i c)) := by
  simp only [Dev.refreshDue, ha, BCell.inSegment, hp, Bool.false_eq_true, if_false, decide_false, Bool.not_false, if_true,
    Bool.or_eq_true, Bool.and_eq_true, decide_eq_true_eq]

variable (hp : (d.bcell (cellKey st i c)).phase = .streaming)
include hp

theorem Dev.refreshDue_postponed (hn : (d.bcell (cellKey st i c)).postponed < 4) : d.refreshDue st i c =
    (d.setBcell (cellKey st i c) { d.bcell (cellKey st i c) with
      postponed := (d.bcell (cellKey st i c)).postponed + 1 }).bump (refreshPostponedAt st) := by
  simp only [Dev.refreshDue, ha, BCell.inSegment, hp, hn, Bool.false_eq_true, if_false, decide_true, Bool.not_true, if_true]

theorem Dev.refreshDue_forced (hn : 4 ≤ (d.bcell (cellKey st i c)).postponed)
    (hr : (d.bcell (cellKey st i c)).refreshing = false) : d.refreshDue st i c =
      (d.startRefresh st i c (d.bcell (cellKey st i c))).bump (refreshForcedAt st) := by
  simp only [Dev.refreshDue, ha, BCell.inSegment, hp, hr, Nat.not_lt.mpr hn, Bool.false_eq_true, if_false, decide_true,
    Bool.not_true]

end RefreshDue

theorem refreshDue_does {s : State} {st : Stack} {i : Die} {c : BankCell} (hp : s.dev.stackPresent st.val = true)
    (hw : s.dev.clk.stackAwake.getLsbD st.val = true) {e : Dev} (h : s.dev.refreshDue st.val i.val c.val = e) :
    Does (.refreshDue st i c) s e :=
  does_of_eq ((if_pos (by rw [hp, hw]; rfl)).trans h) rfl

section RefreshDone
variable {d : Dev} {st i c : Nat} (hr : (d.bcell (cellKey st i c)).refreshing = true)
include hr

theorem Dev.refreshDone_next (hd : 0 < (d.bcell (cellKey st i c)).due) : d.refreshDone st i c =
    d.setBcell (cellKey st i c) { d.bcell (cellKey st i c) with due := (d.bcell (cellKey st i c)).due - 1 } := by
  simp only [Dev.refreshDone, hr, hd, Bool.not_true, Bool.false_eq_true, if_false, if_true]

/-- With nothing to serve the refresh just ends. -/
theorem Dev.refreshDone_ends (hd : (d.bcell (cellKey st i c)).due = 0)
    (h : ((d.bcell (cellKey st i c)).phase ≠ .idle ∧ (d.bcell (cellKey st i c)).phase ≠ .wantTurn) ∨
      (d.bcell (cellKey st i c)).waiting = []) : d.refreshDone st i c =
    d.setBcell (cellKey st i c) { d.bcell (cellKey st i c) with refreshing := false } := by
  have hd' : ¬ 0 < (d.bcell (cellKey st i c)).due := by omega
  simp only [Dev.refreshDone, hr, hd', Bool.not_true, Bool.false_eq_true, if_false]
  rcases h with ⟨hi, ht⟩ | hw
  · exact if_neg (by simp [hi, ht])
  · have hsame : { d.bcell (cellKey st i c) with refreshing := false, waiting := [] } =
        { d.bcell (cellKey st i c) with refreshing := false } := by rw [← hw]
    rw [hw, hsame, Dev.serveCell, ite_self]

end RefreshDone

theorem refreshDone_does {s : State} {st : Stack} {i : Die} {c : BankCell} {e : Dev}
    (h : s.dev.refreshDone st.val i.val c.val = e) : Does (.refreshDone st i c) s e := does_of_eq h rfl

/-! ### Yield points (R163, R165) -/

section Yield
variable {d : Dev} {st i c : Nat} {ref : Bool}

theorem Dev.yieldPoint_refreshing (hr : (d.bcell (cellKey st i c)).refreshing = true) : d.yieldPoint st i c = d := if_pos hr

theorem Dev.yieldPoint_serves (hr : (d.bcell (cellKey st i c)).refreshing = false)
    (hp : (d.bcell (cellKey st i c)).phase = .atYield ref) : d.yieldPoint st i c = d.serveYield st i c ref := by
  simp only [Dev.yieldPoint, hr, hp, Bool.false_eq_true, if_false]

/-- The cell's own deltas come first. -/
theorem Dev.yieldPoint_deltas (hp : (d.bcell (cellKey st i c)).phase = .atYield ref) (hc : d.cellDeltas st i c = true) :
    d.yieldPoint st i c = d := by
  cases hr : (d.bcell (cellKey st i c)).refreshing with
  | true => exact Dev.yieldPoint_refreshing hr
  | false => exact (Dev.yieldPoint_serves hr hp).trans (if_pos hc)

/-- The order of a yield point: what fell due, what was postponed, what a REFSLOT pulls in, what waits. -/
theorem Dev.serveYield_eq (hc : d.cellDeltas st i c = false) : d.serveYield st i c ref =
    let x := d.bcell (cellKey st i c)
    if 0 < x.due then d.startRefresh st i c { x with due := x.due - 1, phase := .atYield ref }
    else if 0 < x.postponed then
      (d.startRefresh st i c { x with postponed := x.postponed - 1, phase := .atYield false }).bump (refreshAtYieldAt st)
    else if ref = true ∧ x.ahead = false then
      (d.startRefresh st i c { x with ahead := true, phase := .atYield false }).bump (refreshAtSlotAt st)
    else ((d.setBcell (cellKey st i c) { x with phase := .wantTurn, waiting := [] }).serveCell (cellKey st i c)
      x.waiting).afterYield st i c x.holds := by
  simp only [Dev.serveYield, hc, Bool.false_eq_true, if_false, Bool.and_eq_true, Bool.not_eq_true']

end Yield

theorem yieldPoint_does {s : State} {st : Stack} {i : Fin 16} {c : BankCell} {e : Dev}
    (h : s.dev.yieldPoint st.val i.val c.val = e) : Does (.yieldPoint st i c) s e := does_of_eq h rfl

/-! ### The activation (R152, R153) -/

theorem Dev.actsAfter_noneLater {d : Dev} {st i t : Nat} (h : d.laterActs st i t = []) :
    d.actsAfter st i t = d.recentActs st i t ++ [t] := by
  rw [Dev.actsAfter, h]
  rfl

/-- Settles O42: a turn by the phase of its cell, a refresh by where it falls due, a yield point in its order
(`Dev.serveYield_eq`). -/
theorem turnsAndRefresh : Obligations.TurnsAndRefresh := by
  unfold Obligations.TurnsAndRefresh
  refine ⟨?start, ?stream, fun s st i c t h => streamActivation_does (Dev.turn_idle h), fun _ _ _ _ => rfl, ?activates,
    ?due, fun _ _ _ _ _ => rfl, ?done, ?yields, ?deltas, fun s st i c hr => yieldPoint_does (Dev.yieldPoint_refreshing hr)⟩
  case start =>
    intro s st i c t ho hr hs hu hp
    have hturn := Dev.turn_starts ⟨ho, hr, hs, hu⟩ hp
    refine ⟨fun hcap => streamActivation_does (hturn.trans (if_pos (.inl hcap))), fun hcap => ?_⟩
    have hgo : s.dev.serves (cellKey st.val i.val c.val) = false → s.dev.turn st.val i.val c.val t =
        s.dev.tryActivate st.val i.val c.val t (s.dev.stk st.val).inForce (s.dev.segmentOpens st.val i.val c.val).head? :=
      fun hv => hturn.trans (if_neg (by simp [Nat.not_lt.mpr hcap, hv]))
    exact ⟨fun hv => streamActivation_does (hturn.trans (if_pos (.inr hv))),
      fun hv hb => streamActivation_does ((hgo hv).trans (Dev.tryActivate_makes hb _ _)),
      fun hv hb => streamActivation_does ((hgo hv).trans (Dev.tryActivate_refused hb _ _))⟩
  case stream =>
    rintro s st i c t _ ho rfl hr hs hu hp
    have hmay : s.dev.MayTurn st.val i.val c.val t := ⟨ho, hr, hs, hu⟩
    refine ⟨fun r hrow => ?_, fun hrow => streamActivation_does (Dev.turn_nothingToOpen hmay hp hrow)⟩
    have hturn := Dev.turn_opens hmay hp hrow
    exact ⟨fun hb => streamActivation_does (hturn.trans (Dev.tryActivate_makes hb _ _)),
      fun hb => streamActivation_does (hturn.trans (Dev.tryActivate_refused hb _ _))⟩
  case activates =>
    intro d st i c t r h
    constructor <;> (rw [Dev.activate, Dev.actsAfter_noneLater h]; rfl)
  case due =>
    rintro s st i c _ _ hpr haw rfl rfl
    refine ⟨fun ha => refreshDue_does hpr haw (Dev.refreshDue_ahead ha), fun ha hp hr hi => ?_, fun ha hp h => ?_,
      fun ha hp hn => refreshDue_does hpr haw (Dev.refreshDue_postponed ha hp hn),
      fun ha hp hn hr => refreshDue_does hpr haw (Dev.refreshDue_forced ha hp hn hr)⟩
    · refine refreshDue_does hpr haw ((Dev.refreshDue_outside ha hp).trans (if_neg ?_))
      rcases hi with hi | hi <;> simp [hr, hi]
    · exact refreshDue_does hpr haw ((Dev.refreshDue_outside ha hp).trans (if_pos h))
  case done =>
    rintro s st i c _ _ rfl rfl hr
    exact ⟨fun hd => refreshDone_does (Dev.refreshDone_next hr hd),
      fun hd h => refreshDone_does (Dev.refreshDone_ends hr hd h)⟩
  case yields =>
    rintro s st i c _ _ ref rfl rfl hr hp hc
    have hy := (Dev.yieldPoint_serves hr hp).trans (Dev.serveYield_eq hc)
    refine ⟨fun hd => ?_, fun hd hn => ?_, fun hd hn hf ha => ?_, fun hd hn h => ?_⟩
    · exact yieldPoint_does (hy.trans (if_pos hd))
    · refine yieldPoint_does (hy.trans ((if_neg ?_).trans (if_pos hn)))
      omega
    · refine yieldPoint_does (hy.trans ((if_neg ?_).trans ((if_neg ?_).trans (if_pos ⟨hf, ha⟩))))
      · omega
      · omega
    · refine yieldPoint_does (hy.trans ((if_neg ?_).trans ((if_neg ?_).trans (if_neg ?_))))
      · omega
      · omega
      · rcases h with h | h <;> simp [h]
  case deltas =>
    rintro s st i c _ _ ref rfl rfl hp hc
    exact yieldPoint_does (Dev.yieldPoint_deltas hp hc)

end Sys2Proof.Machine
end

section
/-! Accesses of the conventional path (R165, R168, R169): a read that is made, that waits for a cell or for its stripe, a write
under its stripe's lock; and DROP_KEEP. -/

namespace Sys2Proof.Machine
open Sys2Proof Sys2Proof.Claims

/-! ### What a party gives up -/

theorem Dev.leaveCells_out (d : Dev) (p : Party) : (d.leaveCells p).out = d.out := by
  rw [Dev.leaveCells]
  exact foldl_keep Dev.out _ _ _ fun _ _ => rfl

theorem Dev.leaveStripes_out (d : Dev) (p : Party) : (d.leaveStripes p).out = d.out := by
  rw [Dev.leaveStripes]
  exact foldl_keep Dev.out _ _ _ fun _ _ => rfl

/-- A party that gives up its waits sends nothing. -/
@[simp] theorem Dev.unserve_out (d : Dev) (p : Party) : (d.unserve p).out = d.out :=
  ((d.leaveCells p).leaveStripes_out p).trans (d.leaveCells_out p)

/-! ### Reads and writes -/

theorem Dev.barred_unmapped {d : Dev} {a : Nat} (h : d.decodeAddr a = .none) (w : Who) : d.barred w a = some .unmapped := by
  rw [Dev.barred, h]

section Access
variable {d : Dev} {a : Access}

/-- An access outside the memory does nothing. -/
theorem Dev.bankAccess_unmapped (h : d.decodeAddr a.addr = .none) : d.bankAccess a = d := by
  rw [Dev.bankAccess, Dev.barred_unmapped h]
  dsimp only
  cases a.who <;> rfl

variable {l : Loc} (hl : d.decodeAddr a.addr = .at l) (hb : d.barred (whoOf a.who a.hint) a.addr = none)
include hl hb

theorem Dev.bankAccess_write {bytes : List Byte} (hw : a.wdata = some bytes) : d.bankAccess a =
    d.requestLock l.st l.stripe
      (if bitAt a.addr 46 = false ∧ a.addr % 512 = 0 ∧ bytes.length = 512 then .full a.who a.hint a.addr bytes
       else .narrow a.who a.hint a.addr bytes) := by
  simp only [Dev.bankAccess, Dev.performAccess, hl, hb, hw, Bool.and_eq_true, Bool.not_eq_true', decide_eq_true_eq,
    and_assoc]
  split <;> rfl

section Read
variable (hr : a.wdata = none)
include hr

theorem Dev.bankAccess_reads {d1 : Dev} {bs : List Byte} (h : d.loadPiece (whoOf a.who a.hint) a.addr a.len = .ok (d1, bs)) :
    d.bankAccess a = (d1.unserve (whoOf a.who a.hint).party).emit (.accessDone a.who a.addr (some bs) false) := by
  simp only [Dev.bankAccess, Dev.performAccess, hl, hb, hr, h]

theorem Dev.bankAccess_busy {cks : List Nat} {p : Party}
    (h : d.loadPiece (whoOf a.who a.hint) a.addr a.len = .error (.busy cks p)) :
    d.bankAccess a = d.awaitCells cks (.access a) := by
  simp only [Dev.bankAccess, Dev.performAccess, hl, hb, hr, h]

theorem Dev.bankAccess_locked {q : Party}
    (h : d.loadPiece (whoOf a.who a.hint) a.addr a.len = .error (.stripe l.st l.stripe q)) :
    d.bankAccess a = d.requestLock l.st l.stripe (.read a.who a.hint a.addr a.len) := by
  simp only [Dev.bankAccess, Dev.performAccess, hl, hb, hr, h, decide_true, Bool.and_self, if_true]

end Read
end Access

/-! ### The wait for a cell (R165) -/

section AwaitCell
variable {d : Dev} {ck : Nat} {a : Wait} (hw : (d.bcell ck).waiting.contains a = false)
  (hl : (d.bcell ck).late.contains a = false)
include hw hl

/-- What comes to a cell for the first time waits there; it is counted where the cell is held and it waits nowhere yet. -/
theorem Dev.awaitCells_one : d.awaitCells [ck] a =
    if d.cellHeld ck = true ∧ d.awaits a = false then (d.modBcell ck (fun y => y.await a)).bump (accessWaitsAt (ck / 1152))
    else d.modBcell ck (fun y => y.await a) := by
  have hnew : [ck].filter (fun ck => !((d.bcell ck).waiting.contains a || (d.bcell ck).late.contains a)) = [ck] :=
    List.filter_cons_of_pos (by rw [hw, hl]; rfl)
  simp only [Dev.awaitCells, hnew, List.find?]
  cases hc : d.cellHeld ck with
  | false => rfl
  | true => cases ha : d.awaits a <;> rfl

end AwaitCell

theorem bankAccess_does {s : State} {who : Accessor} {hint : Hint} {addr : BitVec 48} {len : Nat}
    {wdata : Option (List Byte)} (hw : wellFormed (.bankAccess who hint addr len wdata) = true) {e : Dev}
    (h : s.dev.bankAccess ⟨who, hint, addr.toNat, len, wdata⟩ = e) : Does (.bankAccess who hint addr len wdata) s e :=
  does_of_eq h (if_pos hw)

/-! ### DROP_KEEP (R169) -/

theorem dropKeep_does {s : State} {st : Stack} (hh : s.dev.host.held = []) (hr : s.dev.hostReady = true)
    (hp : s.dev.stackPresent st.val = true) : Does (.dropKeep st) s (s.dev.startDrop st.val) := by
  refine hosted_does (c := fun d => d.hostReady && d.stackPresent st.val) (f := fun d => d.startDrop st.val) rfl hh ?_
  simp only [hr, hp, Bool.and_self]

theorem dropKeep_idle {s : State} {st : Stack} (hh : s.dev.host.held = [])
    (h : s.dev.hostReady = false ∨ s.dev.stackPresent st.val = false) : Does (.dropKeep st) s s.dev := by
  refine hosted_idle (c := fun d => d.hostReady && d.stackPresent st.val) (f := fun d => d.startDrop st.val) rfl hh ?_
  exact Bool.and_eq_false_iff.mpr h

/-- Settles O43: a read by the answer of its load, a write by its stripe, an access outside the memory, and DROP_KEEP. -/
theorem bankAccesses : Obligations.BankAccesses := by
  unfold Obligations.BankAccesses
  refine ⟨?reads, ?writes, fun s who hint addr len wdata hw hn => bankAccess_does hw (Dev.bankAccess_unmapped hn),
    fun s st hh hr hp => dropKeep_does hh hr hp, fun s st hh h => dropKeep_idle hh h⟩
  case reads =>
    rintro s who hint addr len l _ hw rfl hl hb
    refine ⟨fun d1 bs h => ?_, ?_, fun q h => bankAccess_does hw (Dev.bankAccess_locked hl hb rfl h)⟩
    · refine bankAccess_does hw ((Dev.bankAccess_reads hl hb rfl h).trans ?_)
      rw [Dev.emit, Dev.unserve_out]
    · rintro ck p _ rfl h hwait hlate
      have hone := (Dev.bankAccess_busy hl hb rfl h).trans (Dev.awaitCells_one hwait hlate)
      refine ⟨fun hc ha => bankAccess_does hw (hone.trans (if_pos ⟨hc, ha⟩)), fun hn => ?_⟩
      refine bankAccess_does hw (hone.trans (if_neg ?_))
      rcases hn with hn | hn <;> simp [hn]
  case writes => exact fun s who hint addr bytes l hw hl hb => bankAccess_does hw (Dev.bankAccess_write hl hb rfl)

end Sys2Proof.Machine
end

section
/-! The words of attention (R182, R188, R189, R190, R193): a DECODE word by the entry of its cell and by its own activation,
the tiles that it reads, the merge of the oldest record that has arrived, and a NORMALISE word. -/

namespace Sys2Proof.Machine
open Sys2Proof Sys2Proof.Claims

/-! ### The tiles of a word (R188, R189) -/

section Tiles
variable {w : SeqWord} {x : PageEntry}

/-- What a visible slot has in common with its query, whatever the sparse pattern (R188). -/
theorem slotVisible_bounds {t : Nat} (h : slotVisible w x t = true) :
    t < x.npos ∧ (w.causal = true → x.pos0 + t ≤ x.qpos) := by
  simp only [slotVisible, Bool.and_eq_true, Bool.or_eq_true, Bool.not_eq_true', decide_eq_true_eq] at h
  obtain ⟨⟨hn, hc⟩, -⟩ := h
  exact ⟨hn, fun hw => hc.resolve_left (by simp [hw])⟩

/-- A tile holds the visible ones of the next 16 slots, or of as many as the word still has. -/
theorem exists_of_mem_tilesOf {t : List Nat} (h : t ∈ tilesOf w x) : ∃ k : Nat,
    t = ((List.range (min 16 (w.count - 16 * k))).map (fun j => w.aStart + 16 * k + j)).filter (slotVisible w x) := by
  obtain ⟨k, -, hk⟩ := List.mem_map.mp h
  exact ⟨k, hk.symm⟩

theorem length_le_of_mem_tilesOf {t : List Nat} (h : t ∈ tilesOf w x) : t.length ≤ 16 := by
  obtain ⟨k, rfl⟩ := exists_of_mem_tilesOf h
  refine Nat.le_trans (List.length_filter_le _ _) ?_
  rw [List.length_map, List.length_range]
  exact Nat.min_le_left _ _

theorem bounds_of_mem_tile {t : List Nat} (h : t ∈ tilesOf w x) {j : Nat} (hj : j ∈ t) :
    w.aStart ≤ j ∧ j < w.aStart + w.count ∧ j < x.npos ∧ (w.causal = true → x.pos0 + j ≤ x.qpos) := by
  obtain ⟨k, rfl⟩ := exists_of_mem_tilesOf h
  obtain ⟨hrange, hv⟩ := List.mem_filter.mp hj
  obtain ⟨r, hr, rfl⟩ := List.mem_map.mp hrange
  have hlt : r < min 16 (w.count - 16 * k) := List.mem_range.mp hr
  exact ⟨by omega, by omega, slotVisible_bounds hv⟩

/-- The word reads a slot exactly where some tile is not empty. -/
theorem tilesOf_any_iff : (tilesOf w x).any (fun t => !t.isEmpty) = true ↔ ¬∀ t ∈ tilesOf w x, t = [] := by
  simp only [List.any_eq_true, Bool.not_eq_true', List.isEmpty_eq_false_iff, Classical.not_forall, exists_prop]

/-- Where no tile has a visible slot, the tile arithmetic has nothing to run over. -/
theorem tilesOf_filter_eq_nil (h : ∀ t ∈ tilesOf w x, t = []) : (tilesOf w x).filter (fun t => !t.isEmpty) = [] :=
  List.filter_eq_nil_iff.mpr fun t ht => by simp [h t ht]

end Tiles

/-! ### The records of a word without a visible slot (R189) -/

section NoVisibleSlot
variable {sl : Slot} {w : SeqWord} {x : PageEntry} (h : ∀ t ∈ tilesOf w x, t = []) (d : Dev) (st i c g : Nat)
include h

theorem Dev.attnHead_init (hi : w.aInit = true) :
    d.attnHead sl st i c w x g = List.replicate w.headWidth FpVal.zero ++ [.inf true, FpVal.zero] := by
  simp only [Dev.attnHead, tilesOf_filter_eq_nil h, List.foldl_nil, hi, if_true]

theorem Dev.attnHead_noInit (hi : w.aInit = false) : d.attnHead sl st i c w x g =
    (List.range (w.headWidth + 2)).map (fun k => d.acc (cellKey st i c) (w.aAcc + g * w.recLen + k)) := by
  simp only [Dev.attnHead, tilesOf_filter_eq_nil h, List.foldl_nil, hi, Bool.false_eq_true, if_false,
    List.range_succ, List.map_append, List.map_cons, List.map_nil, List.append_assoc, List.singleton_append,
    Nat.add_assoc]

end NoVisibleSlot

/-! ### The activation that a DECODE word makes of its own (R190) -/

section Activation
variable {sl : Slot} {w : SeqWord} {st i c : Nat} (hop : w.op = 0x3)
include hop

/-- The activations do not depend on the row that is open. -/
theorem Slot.wordOpens_attn (pos : Nat) (row : Option Nat) :
    sl.wordOpens w st i c pos row = openings none (sl.wordRows w st i c pos) := by
  rw [Slot.wordOpens, if_pos hop]

theorem Slot.wordOpens_entry (pos : Nat) (row : Option Nat) {x : PageEntry} (hx : sl.entry w st i c = some x) :
    sl.wordOpens w st i c pos row =
      if (∀ t ∈ tilesOf w x, t = []) then [] else [(2 * c + x.par) * 10240 + x.srow] := by
  have hrow : streamRow (2 * c + x.par) (2 * x.srow) = (2 * c + x.par) * 10240 + x.srow := by
    unfold streamRow
    omega
  rw [Slot.wordOpens_attn hop]
  by_cases h : ∀ t ∈ tilesOf w x, t = []
  · have hnone := mt tilesOf_any_iff.mp (not_not_intro h)
    simp only [Slot.wordRows, hop, hx, if_pos h, if_neg hnone, openings]
  · simp only [Slot.wordRows, hop, hx, if_neg h, if_pos (tilesOf_any_iff.mpr h), hrow, openings, reduceCtorEq, if_false]

end Activation

/-! ### A DECODE word (R189, R190) -/

/-- The chunks of the keys and values that a DECODE word reads. -/
def attnChunks (w : SeqWord) (x : PageEntry) : List Nat :=
  (tilesOf w x).flatten.flatMap (fun t => [0, 1].flatMap (fun row => kvChunks w x row t))

theorem Dev.op_of_wordFor {d : Dev} {st i c o : Nat} {sl : Slot} {w : SeqWord} (h : d.wordFor st i c o = some (sl, w)) :
    w.op = o := by
  obtain ⟨-, hop⟩ := Option.filter_eq_some_iff.mp h
  exact of_decide_eq_true hop

theorem Dev.firstBad_eq_none {d : Dev} {st i b : Nat} (h : ∀ n : Nat, d.chunkBad st i (bankStripe b n) = false)
    (ns : List Nat) : d.firstBad st i b ns = none := by
  rw [Dev.firstBad, List.find?_eq_none.mpr fun n _ => by simp [h n], Option.map_none]

section Decode
variable {d : Dev} {st i c : Nat} {sl : Slot} {w : SeqWord} (hw : d.wordFor st i c 0x3 = some (sl, w)) (hk : w.aKind = 0)
include hw hk

theorem Dev.attnDecode_noEntry (hx : sl.entry w st i c = none) :
    d.attnDecode st i c = (d.modBcell (cellKey st i c) (fun x => { x with ridx := none })).advance st i c := by
  simp only [Dev.attnDecode, hw, hk, hx, ne_eq, not_true_eq_false, if_false]

section Entry
variable {x : PageEntry} (hx : sl.entry w st i c = some x)
include hx

theorem Dev.attnDecode_rowClosed (hr : (d.bcell (cellKey st i c)).rowsAhead <
    (sl.wordOpens w st i c 0 (d.bcell (cellKey st i c)).row).length) : d.attnDecode st i c = d := by
  simp only [Dev.attnDecode, hw, hk, hx, hr, ne_eq, not_true_eq_false, if_false, if_true]

/-- With its row open, good chunks and no slot written since the dispatch, the word does its arithmetic. -/
theorem Dev.attnDecode_decodes
    (hr : (sl.wordOpens w st i c 0 (d.bcell (cellKey st i c)).row).length ≤ (d.bcell (cellKey st i c)).rowsAhead)
    (hraced : sl.raced = []) (hb : d.firstBad st i (2 * c + x.par) (attnChunks w x) = none) : d.attnDecode st i c =
      (((((d.setAccs (cellKey st i c) w.aAcc ((List.range w.heads).flatMap (d.attnHead sl st i c w x))).retriedAll st i
        (2 * c + x.par) (attnChunks w x)).modBcell (cellKey st i c) (fun y =>
          { y.read (sl.wordOpens w st i c 0 y.row) with ridx := some x.ridx })).bumpBy (tilesSkippedAt st)
            ((tilesOf w x).filter (·.isEmpty)).length).advance st i c) := by
  have hopens := sl.wordOpens_attn (st := st) (i := i) (c := c) (Dev.op_of_wordFor hw) 0
  rw [attnChunks] at hb ⊢
  simp only [hopens] at hr ⊢
  simp only [Dev.attnDecode, hw, hk, hx, hopens, Nat.not_lt.mpr hr, hb, hraced, List.isEmpty_nil, ne_eq,
    not_true_eq_false, if_false, if_true]

end Entry
end Decode

/-! ### The merge of records (R193) -/

/-- Two records without a score: the maximum stays −∞, and so does the record. -/
theorem mergeRecord_unscored {old new : List FpVal} (ho : old.getD (new.length - 2) .nan = .inf true)
    (hn : new.getD (new.length - 2) .nan = .inf true) : mergeRecord old new = old := by
  have hmax : (FpVal.inf true).larger (.inf true) = .inf true := by decide
  simp only [mergeRecord, ho, hn, hmax, if_true]

section RecordMerge
variable {d : Dev} {st n k : Nat} {sl : Slot} {ws : List Word} {rest : List (Nat × List Word)}
  (hh : (d.stk st).halt = 0) (hs : d.slotOf st n = some sl) (ha : sl.arrivals = (k, ws) :: rest)
include hh hs ha

/-- The oldest record that has arrived goes into the merge buffer, by what its place there holds. -/
theorem Dev.recordMerge_arrival {old : List (Option Word)}
    (hold : (List.range ws.length).map (fun j => Tab.read (fun _ => none) sl.merge (k + j)) = old) :
    d.recordMerge st n = d.setSlot st n (some { sl with
      arrivals := rest
      merge := Tab.writeN (fun _ => none) sl.merge k ((if old.all (·.isNone) then ws
        else (mergeRecord (old.map (fun v => ofF32 (v.getD 0))) (ws.map ofF32)).map FpVal.toF32).map some) }) := by
  have hrun : (d.stk st).halted = false := decide_eq_false (not_not_intro hh)
  simp only [Dev.recordMerge, hrun, hs, ha, hold, Bool.false_eq_true, if_false]

theorem Dev.recordMerge_first (hnone : ∀ j : Nat, j < ws.length → Tab.read (fun _ => none) sl.merge (k + j) = none) :
    d.recordMerge st n = d.setSlot st n (some { sl with
      arrivals := rest, merge := Tab.writeN (fun _ => none) sl.merge k (ws.map some) }) := by
  have hall : ((List.range ws.length).map (fun j => Tab.read (fun _ => none) sl.merge (k + j))).all (·.isNone) = true := by
    simpa [List.all_eq_true] using hnone
  rw [Dev.recordMerge_arrival hh hs ha rfl, if_pos hall]

theorem Dev.recordMerge_next {olds : List Word} (hlen : olds.length = ws.length) (hne : ws ≠ [])
    (hold : ∀ j : Nat, j < ws.length → Tab.read (fun _ => none) sl.merge (k + j) = olds[j]?) :
    d.recordMerge st n = d.setSlot st n (some { sl with
      arrivals := rest
      merge := Tab.writeN (fun _ => none) sl.merge k
        ((mergeRecord (olds.map ofF32) (ws.map ofF32)).map (fun v => some v.toF32)) }) := by
  have hmap : (List.range ws.length).map (fun j => Tab.read (fun _ => none) sl.merge (k + j)) = olds.map some := by
    refine List.ext_getElem (by simp [hlen]) fun j hj _ => ?_
    have hj' : j < ws.length := by simpa using hj
    simp [hold j hj', hlen, hj']
  have hsome : ¬(olds.map some).all (·.isNone) = true := by
    obtain ⟨v, hv⟩ := List.exists_mem_of_length_pos (hlen ▸ List.length_pos_iff.mpr hne)
    simpa [List.all_eq_true] using ⟨v, hv⟩
  rw [Dev.recordMerge_arrival hh hs ha hmap, if_neg hsome, List.map_map, List.map_map]
  rfl

end RecordMerge

/-! ### A NORMALISE word (R181, R182) -/

theorem Dev.normalise_word {d d1 : Dev} {st n : Nat} {sl : Slot} {w : SeqWord} (hs : d.slotOf st n = some sl)
    (hr : d.stackRuns st = true) (hbase : sl.onBase = true) (hw : sl.words[sl.basePc]? = some w) (hop : w.op = 0x3)
    (hb : d.normBlocks st (normWho st) sl ((List.range w.count).map (sl.score w)) = .ok d1) :
    d.normalise st n =
      (d1.unserve (normWho st).party).setSlot st n (some { sl with basePc := sl.basePc + 1 }) := by
  simp only [Dev.normalise, hs, hr, hbase, Bool.and_self, if_true, hw, hop, hb, ne_eq, not_true_eq_false, if_false]

/-- Settles O39: a DECODE word by its entry and its activation, the tiles by the slots that they may hold, a record by what
its place in the merge buffer holds, and a NORMALISE word whose blocks end well. -/
theorem attentionWords : Obligations.AttentionWords := by
  unfold Obligations.AttentionWords
  refine ⟨?noEntry, ?decodes, ?rowClosed, ?opens, ?init, ?noInit, ?tiles, ?first, ?next, ?unscored, ?normalise⟩
  case noEntry => exact fun s st i c sl w hw hk hx => does_of_eq (Dev.attnDecode_noEntry hw hk hx) rfl
  case decodes =>
    exact fun s st i c sl w x hw hk hx hr hraced hb =>
      does_of_eq (Dev.attnDecode_decodes hw hk hx hr hraced (Dev.firstBad_eq_none hb _)) rfl
  case rowClosed => exact fun s st i c sl w x hw hk hx hr => does_of_eq (Dev.attnDecode_rowClosed hw hk hx hr) rfl
  case opens => exact fun sl w st i c pos row x hop hx => Slot.wordOpens_entry hop pos row hx
  case init => exact fun d sl st i c g w x h hi => Dev.attnHead_init h d st i c g hi
  case noInit => exact fun d sl st i c g w x h hi => Dev.attnHead_noInit h d st i c g hi
  case tiles => exact fun w x t ht => ⟨length_le_of_mem_tilesOf ht, fun j hj => bounds_of_mem_tile ht hj⟩
  case first =>
    exact fun s st n sl k ws rest hh hs ha hnone => does_of_eq (Dev.recordMerge_first hh hs ha hnone) rfl
  case next =>
    exact fun s st n sl k ws olds rest hh hs ha hlen hne hold =>
      does_of_eq (Dev.recordMerge_next hh hs ha hlen hne hold) rfl
  case unscored => exact fun old new ho hn => mergeRecord_unscored ho hn
  case normalise =>
    intro s st n sl w d1 hs hr hd hc hw hop hb
    exact does_of_eq (Dev.normalise_word hs hr (by simp [Slot.onBase, hd, hc]) hw hop hb) rfl

end Sys2Proof.Machine
end

section
/-! Merges of scan results (R207 to R210): what a merge keeps, the region's merge of its stacks' lists, the list that a region
accepts next, and the root's scan that takes the lists of its tag. -/

namespace Sys2Proof.Machine
open Sys2Proof Sys2Proof.Claims

/-! ### Merged lists and their entries (R207, R208) -/

theorem insertCand_perm (metric : Nat) (c : Cand) (l : List Cand) : (insertCand metric c l).Perm (c :: l) := by
  induction l with
  | nil => rfl
  | cons b r ih =>
    rw [insertCand]
    split
    · rfl
    · exact (ih.cons b).trans (.swap c b r)

theorem foldl_insertCand_perm (metric : Nat) (a b : List Cand) :
    (b.foldl (fun l c => insertCand metric c l) a).Perm (a ++ b) := by
  induction b generalizing a with
  | nil => simp
  | cons c r ih => exact (ih _).trans (((insertCand_perm metric c a).append_right r).trans List.perm_middle.symm)

theorem mergeCands_length (metric k : Nat) (a b : List Cand) :
    (mergeCands metric k a b).length = min k (a.length + b.length) := by
  rw [mergeCands, List.length_take, (foldl_insertCand_perm metric a b).length_eq, List.length_append]

theorem mem_of_mem_mergeCands {metric k : Nat} {a b : List Cand} {c : Cand} (h : c ∈ mergeCands metric k a b) :
    c ∈ a ∨ c ∈ b :=
  List.mem_append.mp ((foldl_insertCand_perm metric a b).mem_iff.mp (List.mem_of_mem_take h))

theorem mergeCands_one (metric : Nat) (a b : Cand) :
    mergeCands metric 1 [a] [b] = [if candBefore metric b a then b else a] := by
  by_cases h : candBefore metric b a = true <;> simp [mergeCands, insertCand, h]

@[simp] theorem bytesOf_length (w n : Nat) : (bytesOf w n).length = n := by simp [bytesOf]

@[simp] theorem Cand.bytes_length (c : Cand) : c.bytes.length = 16 := by simp [Cand.bytes]

@[simp] theorem emptyEntry_length (metric : Nat) : (emptyEntry metric).length = 16 := by simp [emptyEntry]

theorem flatMap_bytes_length (l : List Cand) : (l.flatMap Cand.bytes).length = 16 * l.length := by
  induction l with
  | nil => rfl
  | cons c r ih => rw [List.flatMap_cons, List.length_append, Cand.bytes_length, ih, List.length_cons]; omega

theorem listBytes_length (metric k : Nat) (l : List Cand) : (listBytes metric k l).length = 16 * k := by
  have hempty : (List.replicate (k - l.length) (emptyEntry metric)).flatten.length = (k - l.length) * 16 := by
    rw [List.length_flatten, List.map_replicate, List.sum_replicate_nat, emptyEntry_length]
  rw [listBytes, List.length_append, flatMap_bytes_length, List.length_take, hempty]
  omega

/-! ### Places of tags (R210) -/

theorem RegionSt.hasPlace_iff {x : RegionSt} {tag : Nat} :
    x.hasPlace tag = true ↔ x.tags.contains tag = true ∨ x.tags.length < 4 := by simp [RegionSt.hasPlace]

/-- A root's own list is merged only when its tag has a place. -/
theorem Dev.hasPlace_of_mergeReady {d : Dev} {r k : Nat} {f : Flight} (h : d.mergeReady r = some (k, f))
    (he : OpWord.rootEn f.word = true) (hr : OpWord.root f.word = r) :
    (d.region r).hasPlace (OpWord.tag f.word) = true := by
  obtain ⟨b, -, hb⟩ := List.exists_of_findSome?_eq_some h
  obtain ⟨f', hf, hkf⟩ := Option.map_eq_some_iff.mp hb
  obtain ⟨-, rfl⟩ := Prod.mk.inj hkf
  have hready := List.find?_some hf
  simp only [Bool.and_eq_true, he, hr] at hready
  simpa using hready.1.2

/-! ### SCAN_REGION_MERGE (R209) -/

section RegionMerge
variable {d d1 : Dev} {r k : Nat} {f : Flight} {l : List Cand}
  (hd : d.draining r = false) (hm : d.mergeReady r = some (k, f))
  (hl : l = ((d.region r).scanned.filter (fun x => x.1 == k && x.2.1 == f.index)).foldl
    (fun a x => mergeCands (OpWord.metric f.word) (OpWord.scanK f.word) a x.2.2) [])
  (h1 : d1 = (d.modRegion r (fun x => { x with
    scanned := x.scanned.filter (fun y => !(y.1 == k && y.2.1 == f.index)) })).writeList k f.word f.raws l)
include hd hm hl h1

/-- What the region does with the list that it has written, by ROOT_EN and ROOT. -/
theorem Dev.regionMerge_ready : d.regionMerge r =
    if !OpWord.rootEn f.word then d1.finish k f.index
    else if OpWord.root f.word = r then
      (d1.modRegion r (fun y => { y with root := y.root ++
        [⟨k, f.index, f.word, OpWord.tag f.word, OpWord.scanK f.word, OpWord.nlist f.word, 1, l⟩] })).rootAdvance r
          ⟨k, f.index, f.word, OpWord.tag f.word, OpWord.scanK f.word, OpWord.nlist f.word, 1, l⟩
    else d1.sendFabric r (OpWord.root f.word) .ctrl (.scanList ⟨OpWord.tag f.word, l⟩ (k % 4) f.index) := by
  subst h1 hl
  rw [Dev.regionMerge, hd, hm]
  rfl

theorem Dev.regionMerge_completes (he : OpWord.rootEn f.word = false) : d.regionMerge r = d1.finish k f.index := by
  rw [Dev.regionMerge_ready hd hm hl h1, he]
  rfl

theorem Dev.regionMerge_sends (he : OpWord.rootEn f.word = true) (hr : OpWord.root f.word ≠ r) :
    d.regionMerge r =
      d1.sendFabric r (OpWord.root f.word) .ctrl (.scanList ⟨OpWord.tag f.word, l⟩ (k % 4) f.index) := by
  rw [Dev.regionMerge_ready hd hm hl h1, he, if_neg hr]
  rfl

theorem Dev.regionMerge_root (he : OpWord.rootEn f.word = true) (hr : OpWord.root f.word = r) {x : RootScan}
    (hx : x = ⟨k, f.index, f.word, OpWord.tag f.word, OpWord.scanK f.word, OpWord.nlist f.word, 1, l⟩) :
    d.regionMerge r = (d1.modRegion r (fun y => { y with root := y.root ++ [x] })).rootAdvance r x := by
  rw [Dev.regionMerge_ready hd hm hl h1, he, if_pos hr, hx]
  rfl

end RegionMerge

theorem Dev.regionMerge_idle {d : Dev} {r : Nat} (h : d.draining r = true ∨ d.mergeReady r = none) :
    d.regionMerge r = d := by
  have hnone : (if d.draining r then none else d.mergeReady r) = none := by
    obtain h | h := h <;> simp [h]
  rw [Dev.regionMerge, hnone]

/-! ### The list that a region accepts next (R210) -/

/-- None of the messages is a list of the sender `src`. -/
def NoListOf (src : Nat) (ms : List FabMsg) : Prop :=
  ∀ n ∈ ms, n.src = src → ∀ (l : TagList) (b i : Nat), n.body ≠ .scanList l b i

theorem noListOf_nil (src : Nat) : NoListOf src [] := by simp [NoListOf]

theorem noListOf_cons {src : Nat} {n : FabMsg} {ms : List FabMsg} :
    NoListOf src (n :: ms) ↔
      (n.src = src → ∀ (l : TagList) (b i : Nat), n.body ≠ .scanList l b i) ∧ NoListOf src ms :=
  List.forall_mem_cons

section NextList
variable {x : RegionSt} {held : List Nat} {n : FabMsg} {ms : List FabMsg}

theorem RegionSt.nextList_other (h : ∀ (l : TagList) (b i : Nat), n.body ≠ .scanList l b i) :
    x.nextList held (n :: ms) = x.nextList held ms := by
  rw [RegionSt.nextList]
  split
  · exact absurd ‹_› (h _ _ _)
  · rfl

variable {l : TagList} {b i : Nat} (hb : n.body = .scanList l b i)
include hb

theorem RegionSt.nextList_held (h : n.src ∈ held) : x.nextList held (n :: ms) = x.nextList held ms := by
  simp [RegionSt.nextList, hb, h]

theorem RegionSt.nextList_accepts (h : n.src ∉ held) (hp : x.hasPlace l.tag = true) :
    x.nextList held (n :: ms) = some (n, l, b, i) := by
  simp [RegionSt.nextList, hb, h, hp]

theorem RegionSt.nextList_holds (h : n.src ∉ held) (hp : x.hasPlace l.tag = false) :
    x.nextList held (n :: ms) = x.nextList (n.src :: held) ms := by
  simp [RegionSt.nextList, hb, h, hp]

end NextList

/-- The four ways in which the search for the next list meets a message. -/
theorem RegionSt.nextList_cons (x : RegionSt) (held : List Nat) (n : FabMsg) (ms : List FabMsg) :
    ((∀ (l : TagList) (b i : Nat), n.body ≠ .scanList l b i) ∧ x.nextList held (n :: ms) = x.nextList held ms) ∨
    (n.src ∈ held ∧ x.nextList held (n :: ms) = x.nextList held ms) ∨
    (∃ (l : TagList) (b i : Nat), n.body = .scanList l b i ∧ n.src ∉ held ∧ x.hasPlace l.tag = true ∧
      x.nextList held (n :: ms) = some (n, l, b, i)) ∨
    ((∃ (l : TagList) (b i : Nat), n.body = .scanList l b i ∧ x.hasPlace l.tag = false) ∧
      x.nextList held (n :: ms) = x.nextList (n.src :: held) ms) := by
  by_cases hlist : ∃ (l : TagList) (b i : Nat), n.body = .scanList l b i
  · obtain ⟨l, b, i, hb⟩ := hlist
    by_cases hh : n.src ∈ held
    · exact .inr (.inl ⟨hh, RegionSt.nextList_held hb hh⟩)
    · cases hp : x.hasPlace l.tag with
      | true => exact .inr (.inr (.inl ⟨l, b, i, hb, hh, hp, RegionSt.nextList_accepts hb hh hp⟩))
      | false => exact .inr (.inr (.inr ⟨⟨l, b, i, hb, hp⟩, RegionSt.nextList_holds hb hh hp⟩))
  · have hother : ∀ (l : TagList) (b i : Nat), n.body ≠ .scanList l b i := by simpa using hlist
    exact .inl ⟨hother, RegionSt.nextList_other hother⟩

/-- An accepted list is the oldest of its sender, which no earlier list holds, and its tag has a place. -/
theorem RegionSt.nextList_eq_some {x : RegionSt} {held : List Nat} {ms : List FabMsg} {m : FabMsg} {l : TagList}
    {b i : Nat} (h : x.nextList held ms = some (m, l, b, i)) :
    m.body = .scanList l b i ∧ x.hasPlace l.tag = true ∧ m.src ∉ held ∧
      ∃ pre post : List FabMsg, ms = pre ++ m :: post ∧ NoListOf m.src pre := by
  induction ms generalizing held with
  | nil => simp [RegionSt.nextList] at h
  | cons n ms ih =>
    obtain ⟨ho, he⟩ | ⟨hh, he⟩ | ⟨l', b', i', hb, hh, hp, he⟩ | ⟨-, he⟩ := x.nextList_cons held n ms
    case inl =>
      obtain ⟨hm, hp, hs, pre, post, rfl, hpre⟩ := ih (he ▸ h)
      exact ⟨hm, hp, hs, n :: pre, post, rfl, noListOf_cons.mpr ⟨fun _ => ho, hpre⟩⟩
    case inr.inl =>
      obtain ⟨hm, hp, hs, pre, post, rfl, hpre⟩ := ih (he ▸ h)
      exact ⟨hm, hp, hs, n :: pre, post, rfl, noListOf_cons.mpr ⟨fun hsrc => absurd (hsrc ▸ hh) hs, hpre⟩⟩
    case inr.inr.inl =>
      obtain ⟨rfl, rfl, rfl, rfl⟩ : n = m ∧ l' = l ∧ b' = b ∧ i' = i := by simpa using he.symm.trans h
      exact ⟨hb, hp, hh, [], ms, rfl, noListOf_nil _⟩
    case inr.inr.inr =>
      obtain ⟨hm, hp, hs, pre, post, rfl, hpre⟩ := ih (he ▸ h)
      have hne : m.src ≠ n.src := List.ne_of_not_mem_cons hs
      exact ⟨hm, hp, List.not_mem_of_not_mem_cons hs, n :: pre, post, rfl,
        noListOf_cons.mpr ⟨fun hsrc => absurd hsrc.symm hne, hpre⟩⟩

/-- The oldest list of a sender that no earlier list holds does not stay behind the lists of others. -/
theorem RegionSt.nextList_ne_none {x : RegionSt} {held : List Nat} {pre post : List FabMsg} {m : FabMsg} {l : TagList}
    {b i : Nat} (hm : m.body = .scanList l b i) (hpre : NoListOf m.src pre) (hp : x.hasPlace l.tag = true)
    (hs : m.src ∉ held) : x.nextList held (pre ++ m :: post) ≠ none := by
  induction pre generalizing held with
  | nil => simp [RegionSt.nextList_accepts hm hs hp]
  | cons n pre ih =>
    obtain ⟨hn, hpre⟩ := noListOf_cons.mp hpre
    rw [List.cons_append]
    obtain ⟨-, he⟩ | ⟨-, he⟩ | ⟨l', b', i', -, -, -, he⟩ | ⟨⟨l', b', i', hb, -⟩, he⟩ :=
      x.nextList_cons held n (pre ++ m :: post)
    case inl => exact he ▸ ih hpre hs
    case inr.inl => exact he ▸ ih hpre hs
    case inr.inr.inl => simp [he]
    case inr.inr.inr =>
      have hne : m.src ≠ n.src := fun hsrc => hn hsrc.symm l' b' i' hb
      exact he ▸ ih hpre (List.not_mem_cons_of_ne_of_not_mem hne hs)

/-! ### SCAN_LIST_ARRIVAL (R209, R210) -/

section ListArrives
variable {d : Dev} {r : Nat} {m : FabMsg} {l : TagList} {b i : Nat} (hd : d.draining r = false)
  (hn : (d.region r).nextList [] (d.region r).arrived = some (m, l, b, i))
include hd hn

theorem Dev.listArrives_held (hf : (d.region r).root.find? (fun x => decide (x.tag = l.tag)) = none) :
    d.listArrives r = (d.setRegion r { d.region r with
      arrived := (d.region r).arrived.erase m
      lists := (d.region r).lists ++ [(m.src, l, b, i)] }).sendFabric r m.src .rsp (.listAccepted b i) := by
  simp only [Dev.listArrives, hd, hn, hf, Bool.false_eq_true, if_false]

theorem Dev.listArrives_merged {x : RootScan}
    (hf : (d.region r).root.find? (fun y => decide (y.tag = l.tag)) = some x) :
    d.listArrives r = ((d.setRegion r { d.region r with
      arrived := (d.region r).arrived.erase m
      lists := (d.region r).lists ++ [(m.src, l, b, i)] }).sendFabric r m.src .rsp (.listAccepted b i)).rootAdvance r x := by
  simp only [Dev.listArrives, hd, hn, hf, Bool.false_eq_true, if_false]

end ListArrives

theorem Dev.listArrives_idle {d : Dev} {r : Nat}
    (h : d.draining r = true ∨ (d.region r).nextList [] (d.region r).arrived = none) : d.listArrives r = d := by
  have hnone : (if d.draining r then none else (d.region r).nextList [] (d.region r).arrived) = none := by
    obtain h | h := h <;> simp [h]
  simp only [Dev.listArrives, hnone]

/-! ### The root's scan (R209, R210) -/

theorem RegionSt.absorb_next {x : RegionSt} {s : RootScan} {l : Nat × TagList × Nat × Nat} (n : Nat)
    (hneed : s.got < s.need) (hl : x.lists.find? (fun l => decide (l.2.1.tag = s.tag)) = some l) :
    x.absorb s (n + 1) = ({ x with lists := x.lists.erase l }).absorb { s with
      got := s.got + 1
      list := mergeCands (OpWord.metric s.word) s.k s.list (l.2.1.list.take s.k) } n := by
  rw [RegionSt.absorb, if_neg (Nat.not_le.mpr hneed), hl]

section RootAdvance
variable {d : Dev} {r : Nat} {s s1 : RootScan} {x1 : RegionSt}
  (h : ({ d.region r with root := (d.region r).root.erase s } : RegionSt).absorb s 16 = (x1, s1))
include h

theorem Dev.rootAdvance_completes (hgot : s1.need ≤ s1.got) :
    d.rootAdvance r s = ((d.setRegion r x1).writeList s1.blk s1.word
      ((((d.blk s1.blk).fly.find? (fun f => decide (f.index = s1.index))).map (·.raws)).getD []) s1.list).finish s1.blk
        s1.index := by
  simp only [Dev.rootAdvance, h, if_pos hgot]

theorem Dev.rootAdvance_waits (hgot : s1.got < s1.need) :
    d.rootAdvance r s = d.setRegion r { x1 with root := (d.region r).root.map (fun y => if y = s then s1 else y) } := by
  simp only [Dev.rootAdvance, h, if_neg (Nat.not_le.mpr hgot)]

end RootAdvance

/-! ### SCAN_MERGE_TIMEOUT (R210) -/

theorem scanMergeTimeout_does (r : Region) (s : State) :
    Does (.scanMergeTimeout r) s
      (s.dev.when (!(s.dev.region r.val).root.isEmpty) fun d => d.regionFault r.val codeScanMergeTimeout 6) := rfl

/-- Settles O44: a merge is a permutation of its lists cut to `k` (`foldl_insertCand_perm`); the search for the next list is
followed message by message, with the senders that it holds (`RegionSt.nextList_cons`). -/
theorem scanMerges : Obligations.ScanMerges := by
  unfold Obligations.ScanMerges
  refine ⟨?keeps, mergeCands_one, listBytes_length, ?regionMerges, ?regionIdle, ?listHeld, ?listMerged, ?arrivalIdle,
    ?noneHeldByOthers, ?nextIsOldest, ?rootAdvances, ?ownPlace, ?absorbs, ?timeout, ?timeoutIdle⟩
  case keeps => exact fun metric k a b => ⟨mergeCands_length metric k a b, fun c hc => mem_of_mem_mergeCands hc⟩
  case regionMerges =>
    exact fun s r k f l d1 hd hm hl h1 =>
      ⟨fun he => does_of_eq (Dev.regionMerge_completes hd hm hl h1 he) rfl,
        fun he hr => does_of_eq (Dev.regionMerge_sends hd hm hl h1 he hr) rfl,
        fun he hr x hx => does_of_eq (Dev.regionMerge_root hd hm hl h1 he hr hx) rfl⟩
  case regionIdle => exact fun s r h => does_of_eq (Dev.regionMerge_idle h) rfl
  case listHeld => exact fun s r m l b i hd hn hf => does_of_eq (Dev.listArrives_held hd hn hf) rfl
  case listMerged => exact fun s r m l b i x hd hn hf => does_of_eq (Dev.listArrives_merged hd hn hf) rfl
  case arrivalIdle => exact fun s r h => does_of_eq (Dev.listArrives_idle h) rfl
  case noneHeldByOthers =>
    exact fun x pre post m l b i hm hpre hp =>
      RegionSt.nextList_ne_none hm hpre (RegionSt.hasPlace_iff.mpr hp) List.not_mem_nil
  case nextIsOldest =>
    intro x ms m l b i h
    obtain ⟨hm, hp, -, hpre⟩ := RegionSt.nextList_eq_some h
    exact ⟨hm, RegionSt.hasPlace_iff.mp hp, hpre⟩
  case rootAdvances =>
    exact fun d r s s1 x1 h => ⟨Dev.rootAdvance_completes h, Dev.rootAdvance_waits h⟩
  case ownPlace => exact fun d r k f h he hr => RegionSt.hasPlace_iff.mp (Dev.hasPlace_of_mergeReady h he hr)
  case absorbs => exact fun x s n l hneed hl => RegionSt.absorb_next n hneed hl
  case timeout => exact fun s r h => does_of_eq (if_pos (by simpa using h)) (scanMergeTimeout_does r s)
  case timeoutIdle => exact fun s r h => does_of_eq (if_neg (by simp [h])) (scanMergeTimeout_does r s)

end Sys2Proof.Machine
end

section
/-! The commands of a request entry (R217, R218, R219, R235, R237): how the engine comes to one, and for each command its
refusals and its effect. -/

namespace Sys2Proof.Machine
open Sys2Proof Sys2Proof.Claims

/-! ### The engine reads an entry (R217, R445) -/

section Engine
variable {s : State} {c : Instr} {i : Nat} {p : Dev → Bool} {f : Dev → Dev}
  (he : exec c s = s.always fun d => d.when (p d) fun d => d.readReq i f)
include he

theorem engine_does (hp : p s.dev = true) (hb : s.dev.reqBad i = false) {e : Dev} (hf : f s.dev = e) : Does c s e := by
  rw [Does, he, State.always_next, hp, Dev.when_true, Dev.readReq, if_neg (Bool.eq_false_iff.mp hb), hf]

/-- A bad word of the entry, or of its customer, is a chip fault. -/
theorem engine_faults (hp : p s.dev = true) (hb : s.dev.reqBad i = true) : Does c s (s.dev.chipFault 0x82) := by
  rw [Does, he, State.always_next, hp, Dev.when_true, Dev.readReq, if_pos hb]
  rfl

theorem engine_idle (hp : p s.dev = false) : Does c s s.dev := by
  rw [Does, he, State.always_next, hp, Dev.when_false]

/-- An engine step that would leave the device as it is leaves it whether or not the engine runs. -/
theorem engine_still (hb : s.dev.reqBad i = false) (hf : f s.dev = s.dev) : Does c s s.dev := by
  cases hp : p s.dev with
  | false => exact engine_idle he hp
  | true => exact engine_does he hp hb hf

end Engine

section Commands
variable {s : State} {i : ReqNo} {e : Dev}

theorem Dev.commanded_none {d : Dev} {i code : Nat} (h : (d.req i).cmd = 0) (hc : code ≠ 0) : d.commanded i code = false := by
  simp [Dev.commanded, h, hc.symm]

theorem submit_does (hc : s.dev.commanded i.val 1 = true) (hb : s.dev.reqBad i.val = false)
    (h : s.dev.submit i.val = e) : Does (.submit i) s e :=
  engine_does (p := (·.commanded i.val 1)) rfl hc hb h

theorem cancel_does (hc : s.dev.commanded i.val 2 = true) (hb : s.dev.reqBad i.val = false)
    (h : s.dev.cancel i.val = e) : Does (.cancel i) s e :=
  engine_does (p := (·.commanded i.val 2)) rfl hc hb h

theorem park_does (hc : s.dev.commanded i.val 3 = true) (hb : s.dev.reqBad i.val = false)
    (h : s.dev.park i.val = e) : Does (.park i) s e :=
  engine_does (p := (·.commanded i.val 3)) rfl hc hb h

theorem resume_does (hc : s.dev.commanded i.val 4 = true) (hb : s.dev.reqBad i.val = false)
    (h : s.dev.resumeReq i.val = e) : Does (.resume i) s e :=
  engine_does (p := (·.commanded i.val 4)) rfl hc hb h

theorem release_does (hc : s.dev.commanded i.val 5 = true) (hb : s.dev.reqBad i.val = false)
    (h : s.dev.releaseReq i.val = e) : Does (.release i) s e :=
  engine_does (p := (·.commanded i.val 5)) rfl hc hb h

end Commands

/-! ### SUBMIT (R218) -/

section Submit
variable {d : Dev} {i : Nat}

theorem Dev.submitCode_badState {x : Req} (h : x.state ≠ .free) : d.submitCode x = 2 := if_pos h

theorem Dev.submit_accepts (h : d.submitCode (d.req i) = 0) : d.submit i =
    (Dev.setState { (d.taken i).modReq i (fun x => x.submitted d.now d.serve.orders) with
      serve.orders := d.serve.orders + 1 } i .queued).accepted i := by
  simp only [Dev.submit, h]

theorem Dev.submit_refuses {code : Nat} (h : d.submitCode (d.req i) = code) (hc : code ≠ 0) :
    d.submit i = (d.taken i).refuse i code := by
  obtain ⟨n, rfl⟩ := Nat.exists_eq_succ_of_ne_zero hc
  simp only [Dev.submit, h]

end Submit

/-! ### CANCEL (R236, R237) -/

section Cancel
variable {d : Dev} {i : Nat}

theorem Dev.cancel_free (h : (d.req i).state = .free) : d.cancel i = (d.taken i).refuse i 2 := by
  simp only [Dev.cancel, h]

theorem Dev.cancel_complete (h : (d.req i).state = .complete) : d.cancel i =
    ((((d.taken i).modReq i (fun x => { x with cancelLate := true })).changed i).accepted i) := by
  simp only [Dev.cancel, h]

theorem Dev.cancel_gone (h : (d.req i).state = .cancelled ∨ (d.req i).state = .parkExpired) :
    d.cancel i = (d.taken i).accepted i := by
  rcases h with h | h <;> simp only [Dev.cancel, h]

/-- A request that is neither FREE nor ended: whether the CANCEL waits is the only question left. -/
theorem Dev.cancel_live (hf : (d.req i).state ≠ .free) (he : (d.req i).state.ended = false) : d.cancel i =
    if d.inStep i || (d.req i).ackWait then ((d.taken i).modReq i (fun x => { x with cancelAt := true })).accepted i
    else ((((((d.taken i).partCopied i).dropGranules i).modReq i (fun x => { x with parkAt := false })).setState i
      .cancelled).accepted i) := by
  unfold Dev.cancel
  dsimp only
  split
  case h_1 hs => exact absurd hs hf
  case h_2 hs => rw [hs] at he; cases he
  case h_3 hs => rw [hs] at he; cases he
  case h_4 hs => rw [hs] at he; cases he
  case h_5 => rfl

theorem Dev.cancel_ends (hf : (d.req i).state ≠ .free) (he : (d.req i).state.ended = false)
    (hs : d.inStep i = false) (ha : (d.req i).ackWait = false) : d.cancel i =
      (((((d.taken i).partCopied i).dropGranules i).modReq i (fun x => { x with parkAt := false })).setState i
        .cancelled).accepted i :=
  (Dev.cancel_live hf he).trans (if_neg (by simp [hs, ha]))

theorem Dev.cancel_waits (hf : (d.req i).state ≠ .free) (he : (d.req i).state.ended = false)
    (h : d.inStep i = true ∨ (d.req i).ackWait = true) : d.cancel i =
      ((d.taken i).modReq i (fun x => { x with cancelAt := true })).accepted i :=
  (Dev.cancel_live hf he).trans (if_pos (Bool.or_eq_true_iff.mpr h))

theorem Dev.partCopied_still (hp : (d.req i).state ≠ .parking) (hr : (d.req i).state ≠ .resuming) : d.partCopied i = d :=
  if_neg (by simp [hp, hr])

theorem Dev.partCopied_copies {d1 : Dev} {b : Bundle} (h : (d.req i).state = .parking ∨ (d.req i).state = .resuming)
    (hb : d.bundleOf (d.req i).domain (d.req i).bundle = some b)
    (hc : d.drawn.copyRequest (d.req i) b (Config.freeBit d.free) = .ok d1) : d.partCopied i = d1 := by
  refine (if_pos (by simpa using h)).trans ?_
  simp only [hb, hc]

end Cancel

/-! ### PARK and RESUME (R235) -/

/-- The lowest free granules, `need` of them, are reserved for request `i`. -/
def Dev.reserveGranules (d : Dev) (i need : Nat) : Dev :=
  Dev.modReq { d with
    serve.granulesUsed := (d.freeGranules.take need).foldl (fun l g => insertNat g l) d.serve.granulesUsed } i
      (fun y => { y with granules := d.freeGranules.take need })

section Park
variable {d : Dev} {i : Nat}

theorem Dev.parkStarts_falls {d2 : Dev} {st : ReqState} {x : Req} {b : Bundle} {rs : List Nat}
    (hx : x = (d.setState i st).req i) (hb : d.bundleOf x.domain x.bundle = some b)
    (hr : (d.setState i st).copyRegions x b = .ok (d2, rs)) : d.parkStarts i st = d2.copyFalls i rs := by
  simp only [Dev.parkStarts, ← hx, hb, hr, Option.map_some]

theorem Dev.park_refuses (h : (d.req i).state ≠ .active) : d.park i = (d.taken i).refuse i 2 := if_pos h

theorem Dev.resume_refuses (h : (d.req i).state ≠ .parked) : d.resumeReq i = (d.taken i).refuse i 2 := if_pos h

section Filled
variable {d2 : Dev} {b : Bundle} {k need : Nat} (hb : d.bundleOf (d.req i).domain (d.req i).bundle = some b)
include hb

section Active
variable (hs : (d.req i).state = .active)
  (hk : (d.taken i).filledGroups (d.req i) b ((d.req i).groupsMax b) = .ok (d2, k))
  (hn : need = k * b.idsPerGroup * granulesPer b.pageShape)
include hs hk hn

/-- A PARK of an ACTIVE request: the granules of an earlier PARK count as free. -/
theorem Dev.park_active : d.park i =
    if (d2.dropGranules i).freeGranules.length < need then d2.refuse i 8
    else if d.inStep i || (d.req i).ackWait then
      (((d2.dropGranules i).reserveGranules i need).modReq i (fun y => { y with parkAt := true })).accepted i
    else (((d2.dropGranules i).reserveGranules i need).parkStarts i .parking).accepted i := by
  subst hn
  refine (if_neg (fun hne => hne hs)).trans ?_
  simp only [hb, hk]
  rfl

theorem Dev.park_noGranules (h : (d2.dropGranules i).freeGranules.length < need) : d.park i = d2.refuse i 8 :=
  (Dev.park_active hb hs hk hn).trans (if_pos h)

theorem Dev.park_begins (h : need ≤ (d2.dropGranules i).freeGranules.length) (hi : d.inStep i = false)
    (ha : (d.req i).ackWait = false) :
    d.park i = (((d2.dropGranules i).reserveGranules i need).parkStarts i .parking).accepted i :=
  (Dev.park_active hb hs hk hn).trans ((if_neg (Nat.not_lt.mpr h)).trans (if_neg (by simp [hi, ha])))

theorem Dev.park_waits (h : need ≤ (d2.dropGranules i).freeGranules.length)
    (hw : d.inStep i = true ∨ (d.req i).ackWait = true) : d.park i =
      (((d2.dropGranules i).reserveGranules i need).modReq i (fun y => { y with parkAt := true })).accepted i :=
  (Dev.park_active hb hs hk hn).trans ((if_neg (Nat.not_lt.mpr h)).trans (if_pos (Bool.or_eq_true_iff.mpr hw)))

end Active

section Parked
variable (hs : (d.req i).state = .parked)
  (hk : (d.taken i).filledGroups (d.req i) b (ceilDiv (d.req i).pos (shapePositions b.pageShape)) = .ok (d2, k))
include hs hk

theorem Dev.resume_parked : d.resumeReq i =
    if k * shapePositions b.pageShape < (d.req i).pos then d2.refuse i 9
    else (d2.parkStarts i .resuming).accepted i := by
  refine (if_neg (fun hne => hne hs)).trans ?_
  simp only [hb, hk]

theorem Dev.resume_noPages (h : k * shapePositions b.pageShape < (d.req i).pos) : d.resumeReq i = d2.refuse i 9 :=
  (Dev.resume_parked hb hs hk).trans (if_pos h)

theorem Dev.resume_begins (h : (d.req i).pos ≤ k * shapePositions b.pageShape) :
    d.resumeReq i = (d2.parkStarts i .resuming).accepted i :=
  (Dev.resume_parked hb hs hk).trans (if_neg (Nat.not_lt.mpr h))

end Parked
end Filled
end Park

/-! ### RELEASE (R219) -/

section Release
variable {d : Dev} {i : Nat}

theorem Dev.release_frees (h : (d.req i).state.ended = true) : d.releaseReq i =
    (((d.taken i).modReq i (fun x => { x with
      refused := false, ringFull := false, needPages := false, needBudget := false, missed := false, maxlen := false
      eos := false, cancelLate := false })).setState i .free).accepted i :=
  if_neg (by simp [h])

theorem Dev.release_refuses (h : (d.req i).state.ended = false) : d.releaseReq i = (d.taken i).refuse i 2 :=
  if_pos (by simp [h])

end Release

/-- Settles O48: each command is followed through its refusals to its effect, and an entry whose command is another fails
the guard of every command. -/
theorem requestCommands : Obligations.RequestCommands := by
  unfold Obligations.RequestCommands
  refine ⟨?submits, ?submitRefused, fun d x => Dev.submitCode_badState, ?cancel, fun d i => Dev.partCopied_still,
    fun d d1 i b => Dev.partCopied_copies, ?badRecord, ?copyFalls, ?park, ?parkRefused, ?resume, ?resumeRefused,
    ?releases, ?releaseRefused, ?still⟩
  case submits => exact fun s i hc hb h => submit_does hc hb (Dev.submit_accepts h)
  case submitRefused => exact fun s i code hc hb h h0 => submit_does hc hb (Dev.submit_refuses h h0)
  case cancel =>
    rintro s i _ hc hb rfl
    exact ⟨fun h => cancel_does hc hb (Dev.cancel_free h), fun h => cancel_does hc hb (Dev.cancel_complete h),
      fun h => cancel_does hc hb (Dev.cancel_gone h),
      fun hf he hs ha => cancel_does hc hb (Dev.cancel_ends hf he hs ha),
      fun hf he hw => cancel_does hc hb (Dev.cancel_waits hf he hw)⟩
  case badRecord =>
    exact fun s i hb => ⟨fun hc => engine_faults (p := (·.commanded i.val 1)) rfl hc hb,
      fun hc => engine_faults (p := (·.commanded i.val 2)) rfl hc hb,
      fun hc => engine_faults (p := (·.commanded i.val 3)) rfl hc hb,
      fun hc => engine_faults (p := (·.commanded i.val 4)) rfl hc hb,
      fun hc => engine_faults (p := (·.commanded i.val 5)) rfl hc hb⟩
  case copyFalls =>
    rintro d _ d2 i x b rs rfl hx hb hr
    exact Dev.parkStarts_falls hx hb hr
  case park =>
    rintro s i b _ _ d2 _ k need hc hbad rfl hs hb hk hn rfl rfl
    exact ⟨fun h => park_does hc hbad (Dev.park_noGranules hb hs hk hn h),
      fun h hi ha => park_does hc hbad (Dev.park_begins hb hs hk hn h hi ha),
      fun h hw => park_does hc hbad (Dev.park_waits hb hs hk hn h hw)⟩
  case parkRefused => exact fun s i hc hb h => park_does hc hb (Dev.park_refuses h)
  case resume =>
    exact fun s i b d2 k hc hbad hs hb hk => ⟨fun h => resume_does hc hbad (Dev.resume_noPages hb hs hk h),
      fun h => resume_does hc hbad (Dev.resume_begins hb hs hk h)⟩
  case resumeRefused => exact fun s i hc hb h => resume_does hc hb (Dev.resume_refuses h)
  case releases => exact fun s i hc hb h => release_does hc hb (Dev.release_frees h)
  case releaseRefused => exact fun s i hc hb h => release_does hc hb (Dev.release_refuses h)
  case still =>
    intro s i h
    have hn : ∀ code : Nat, code ≠ 0 → s.dev.commanded i.val code = false := fun code => Dev.commanded_none h
    exact ⟨engine_idle (p := (·.commanded i.val 1)) rfl (hn 1 (by decide)),
      engine_idle (p := (·.commanded i.val 2)) rfl (hn 2 (by decide)),
      engine_idle (p := (·.commanded i.val 3)) rfl (hn 3 (by decide)),
      engine_idle (p := (·.commanded i.val 4)) rfl (hn 4 (by decide)),
      engine_idle (p := (·.commanded i.val 5)) rfl (hn 5 (by decide))⟩

end Sys2Proof.Machine
end

section
/-! Delivery, the copies of the park pool, customers and SERVE_KICK (R221, R223, R231, R235, R294, R369). -/

namespace Sys2Proof.Machine
open Sys2Proof Sys2Proof.Claims

/-! ### TOKEN_DELIVERY (R221, R294, R369) -/

section Delivery
variable {d : Dev} {i : Nat}

theorem Dev.deliver_waits (h : (d.req i).ackWait = true) : d.deliver i = d := if_pos (by simp [h])

section Tokens
variable (hd : (d.req i).delivery ≠ []) (ha : (d.req i).ackWait = false)
include hd ha

theorem Dev.deliver_delivers {d1 : Dev}
    (h : d.putTokens (d.req i) (d.req i).outWrite (d.req i).delivery = .ok d1) : d.deliver i = d1.delivered i := by
  refine (if_neg (by simp [hd, ha])).trans ?_
  simp only [h]

/-- A pennant holds the page that the tokens go to. -/
theorem Dev.deliver_held {p : Nat}
    (h : d.putTokens (d.req i) (d.req i).outWrite (d.req i).delivery = .error (.page p)) :
    d.deliver i = (d.pennantWait p (d.req i).waited).modReq i (fun y => { y with waited := true }) := by
  refine (if_neg (by simp [hd, ha])).trans ?_
  simp only [h]

end Tokens

theorem tokenDelivery_does {s : State} {i : ReqNo} {e : Dev} (hr : s.dev.engineRuns = true)
    (hb : s.dev.reqBad i.val = false) (h : s.dev.deliver i.val = e) : Does (.tokenDelivery i) s e :=
  engine_does (p := Dev.engineRuns) rfl hr hb h

end Delivery

/-! ### PACKING_DONE and EXPANSION_DONE (R235) -/

section Copy
variable {d d1 : Dev} {i : Nat} {f : Dev → Dev} {b : Bundle} {rs : List Nat}
  (hb : d.bundleOf (d.req i).domain (d.req i).bundle = some b) (hr : d.copyRegions (d.req i) b = .ok (d1, rs))
include hb hr

theorem Dev.copyWith_falls (h : ∃ r ∈ rs, d1.unitAwake r = false) : d.copyWith i f = d1.copyFalls i rs := by
  simp only [Dev.copyWith, hb, hr]
  exact if_pos (by simpa using h)

section Awake
variable (hw : ∀ r ∈ rs, d1.unitAwake r = true)
include hw

/-- Saves, restores and bundle switches come first. -/
theorem Dev.copyWith_waits (h : ∃ r ∈ rs, d1.stateMoves r = true) : d.copyWith i f = d := by
  simp only [Dev.copyWith, hb, hr]
  exact (if_neg (by simpa using hw)).trans (if_pos (by simpa using h))

theorem Dev.copyWith_ends {d2 : Dev} (h : ∀ r ∈ rs, d1.stateMoves r = false)
    (hc : d1.copyRequest (d.req i) b (fun _ => true) = .ok d2) :
    d.copyWith i f = f (d2.modReq i (fun y => { y with since := some d.now, copyOn := [] })) := by
  simp only [Dev.copyWith, hb, hr, hc]
  exact (if_neg (by simpa using hw)).trans (if_neg (by simpa using h))

end Awake
end Copy

section CopyDone
variable {s : State} {i : ReqNo} {e : Dev} (hr : s.dev.engineRuns = true) (hb : s.dev.reqBad i.val = false)
include hr hb

theorem packingDone_does (hs : (s.dev.req i.val).state = .parking) (h : s.dev.packed i.val = e) :
    Does (.packingDone i) s e :=
  engine_does (p := fun d => d.engineRuns && decide ((d.req i.val).state = .parking)) rfl (by simp [hr, hs]) hb h

theorem expansionDone_does (hs : (s.dev.req i.val).state = .resuming) (h : s.dev.expanded i.val = e) :
    Does (.expansionDone i) s e :=
  engine_does (p := fun d => d.engineRuns && decide ((d.req i.val).state = .resuming)) rfl (by simp [hr, hs]) hb h

end CopyDone

theorem packingDone_idle {s : State} {i : ReqNo} (h : (s.dev.req i.val).state ≠ .parking) :
    Does (.packingDone i) s s.dev :=
  engine_idle (p := fun d => d.engineRuns && decide ((d.req i.val).state = .parking)) rfl (by simp [h])

theorem expansionDone_idle {s : State} {i : ReqNo} (h : (s.dev.req i.val).state ≠ .resuming) :
    Does (.expansionDone i) s s.dev :=
  engine_idle (p := fun d => d.engineRuns && decide ((d.req i.val).state = .resuming)) rfl (by simp [h])

theorem Dev.stateMoves_iff {d : Dev} {r n : Nat} (h : d.domainOf r = some n) : d.stateMoves r = true ↔
    (d.dom n).act = .switching ∨ (d.dom n).act = .saving ∨ (d.dom n).act = .restoring := by
  simp [Dev.stateMoves, h]

/-! ### The pages of a copy (R235) -/

theorem map_getD_range {α : Type} (l : List α) (a : α) : (List.range l.length).map (fun j => l.getD j a) = l :=
  List.ext_getElem (by simp) fun j _ hj => by simp [hj]

theorem Dev.copyRequest_all {d d1 : Dev} {x : Req} {b : Bundle} {ids : List Nat}
    (h : d.pageIds x b (x.copiedGroups b (decide (x.state = .resuming))) = .ok (d1, ids)) :
    d.copyRequest x b (fun _ => true) = d1.copyPages (decide (x.state = .resuming)) b.pageShape
      (pagePlaces (granulesPer b.pageShape) ids x.granules) := by
  refine (Acc.andThen_eq h _).trans ?_
  have hall : ∀ l : List Nat, l.filter (fun _ => true) = l := fun l => List.filter_eq_self.mpr fun _ _ => rfl
  simp only [hall, map_getD_range]

theorem Dev.copyPages_packs {d d1 : Dev} {shape id : Nat} {gs : List Nat} (h : d.packPage shape id gs = .ok d1)
    (ps : List (Nat × List Nat)) : d.copyPages false shape ((id, gs) :: ps) = d1.copyPages false shape ps :=
  Acc.andThen_eq h _

theorem Dev.copyPages_expands {d d1 : Dev} {shape id : Nat} {gs : List Nat} (h : d.expandPage shape id gs = .ok d1)
    (ps : List (Nat × List Nat)) : d.copyPages true shape ((id, gs) :: ps) = d1.copyPages true shape ps :=
  Acc.andThen_eq h _

/-! ### PARK_TTL_EXPIRE (R235) -/

section Expire
variable {d : Dev} {i : Nat}

theorem Dev.parkExpire_notParked (h : (d.req i).state ≠ .parked) : d.parkExpire i = d := if_neg (by simp [h])

theorem Dev.parkExpire_early (h : (d.req i).elapsed d.now < 25000 * (d.req i).ttl) : d.parkExpire i = d :=
  if_neg (by simp [Nat.not_le.mpr h])

theorem Dev.parkExpire_expires (hs : (d.req i).state = .parked) (ht : (d.req i).ttl ≠ 0)
    (h : 25000 * (d.req i).ttl ≤ (d.req i).elapsed d.now) :
    d.parkExpire i = (d.dropGranules i).setState i .parkExpired :=
  if_pos (by simp [hs, ht, h])

end Expire

/-! ### Customers (R231) -/

section Credit
variable {d : Dev} {c n : Nat}

theorem Dev.credit_adds (h : (d.cust c).available + n ≤ 0xFFFFFFFF) :
    d.credit c n = d.setCust c { d.cust c with available := (d.cust c).available + n } := by
  simp [Dev.credit, Nat.min_eq_left h, Nat.not_lt.mpr h]

theorem Dev.credit_saturates (h : 0xFFFFFFFF < (d.cust c).available + n) (hs : (d.cust c).sat = false) :
    d.credit c n = (d.setCust c { d.cust c with available := 0xFFFFFFFF, sat := true }).saturated (0x440000 + 64 * c) := by
  simp [Dev.credit, Nat.min_eq_right (Nat.le_of_lt h), h, hs, custAt]

end Credit

theorem custCredit_does {s : State} {c : CustNo} {n : Word} (hh : s.dev.host.held = []) (hr : s.dev.hostReady = true)
    (hc : c.val < s.dev.img.str.customers) : Does (.custCredit c n) s ((s.dev.credit c.val n.toNat).promptAll) :=
  does_of_eq (if_pos hc) (hosted_does (c := Dev.hostReady) (f := fun d => d.custCredit c.val n.toNat) rfl hh hr)

/-! ### SERVE_KICK (R223) -/

/-- `e` differs from `d` in its domains alone. -/
def Dev.DomsOnly (d e : Dev) : Prop := e = { d with doms := e.doms }

theorem Dev.DomsOnly.trans {a b c : Dev} (h : a.DomsOnly b) (k : b.DomsOnly c) : a.DomsOnly c :=
  Eq.trans k (congrArg (fun x : Dev => { x with doms := c.doms }) h)

theorem Dev.kick_domsOnly (d : Dev) (n : Nat) : d.DomsOnly (d.kick n) := by
  unfold Dev.kick
  split <;> rfl

theorem Dev.kick_read {d : Dev} {n : Nat} (h : n < 12) : (d.kick n).dom n = { d.dom n with wantCompose := true } := by
  rw [Dev.kick, if_pos h, Dev.modDom, Dev.setDom_read]

theorem Dev.kick_other (d : Dev) {n j : Nat} (h : j ≠ n) : (d.kick n).dom j = d.dom j := by
  unfold Dev.kick
  split
  · exact d.setDom_other _ _ _ h
  · rfl

/-- A domain that is kicked more than once wants to compose as one that is kicked once. -/
theorem foldl_kick_dom {l : List Nat} (hl : ∀ k ∈ l, k < 12) (d : Dev) (n : Nat) : (l.foldl Dev.kick d).dom n =
    if n ∈ l then { d.dom n with wantCompose := true } else d.dom n := by
  induction l generalizing d with
  | nil => rfl
  | cons k r ih =>
    obtain ⟨hk, hr⟩ := List.forall_mem_cons.mp hl
    rw [List.foldl_cons, ih hr]
    by_cases hn : n = k
    · subst hn
      simp [Dev.kick_read hk]
    · simp [d.kick_other hn, hn]

theorem mem_bitsOf {w n i : Nat} : i ∈ bitsOf w n ↔ i < n ∧ bitAt w i = true := by
  simp [bitsOf]

theorem Dev.serveKick_domsOnly (d : Dev) (v : Nat) : d.DomsOnly (d.serveKick v) :=
  foldl_rel (R := Dev.DomsOnly) (fun _ => rfl) Dev.DomsOnly.trans Dev.kick_domsOnly (bitsOf v 12) d

theorem Dev.serveKick_dom (d : Dev) (v n : Nat) : (d.serveKick v).dom n =
    if n < 12 ∧ bitAt v n = true then { d.dom n with wantCompose := true } else d.dom n := by
  simp only [Dev.serveKick, foldl_kick_dom (fun k hk => (mem_bitsOf.mp hk).1), mem_bitsOf]

theorem serveKick_does {s : State} {v : Word} (hh : s.dev.host.held = []) (hr : s.dev.hostReady = true) :
    Does (.serveKick v) s (s.dev.serveKick v.toNat) :=
  hosted_does (c := Dev.hostReady) (f := fun d => d.serveKick v.toNat) rfl hh hr

/-- Settles O49: the delivery by what its write of the tokens answers, a copy by its regions, a credit by whether its sum
fits, and SERVE_KICK as a run of kicks, each of which changes the entry of one domain. -/
theorem deliveryAndCustomers : Obligations.DeliveryAndCustomers := by
  unfold Obligations.DeliveryAndCustomers
  refine ⟨?delivers, ?ackWait, ?pennant, ?copies, fun d r n => Dev.stateMoves_iff, ?copyRequest, ?copyPages, ?page,
    ?active, ?badRecord, ?expires, fun s c n => custCredit_does, fun d c n => Dev.credit_adds,
    fun d c n => Dev.credit_saturates, ?kick⟩
  case delivers =>
    exact fun s i d1 hr hb hd ha h => tokenDelivery_does hr hb (Dev.deliver_delivers hd ha h)
  case ackWait => exact fun s i ha hb => engine_still (p := Dev.engineRuns) rfl hb (Dev.deliver_waits ha)
  case pennant =>
    rintro s i p _ hr hb hd ha h rfl
    exact tokenDelivery_does hr hb (Dev.deliver_held hd ha h)
  case copies =>
    intro s i b d1 d2 rs hb hr hbad hrs
    refine ⟨fun h hc => ?_, fun hw hm => ?_, fun hw hs => packingDone_does hr hbad hs (Dev.copyWith_falls hb hrs hw)⟩
    · have hw : ∀ r ∈ rs, d1.unitAwake r = true := fun r hm => (h r hm).1
      have hm : ∀ r ∈ rs, d1.stateMoves r = false := fun r hm => (h r hm).2
      exact ⟨fun hs => packingDone_does hr hbad hs (Dev.copyWith_ends hb hrs hw hm hc),
        fun hs => expansionDone_does hr hbad hs (Dev.copyWith_ends hb hrs hw hm hc)⟩
    · exact ⟨fun hs => packingDone_does hr hbad hs (Dev.copyWith_waits hb hrs hw hm),
        fun hs => expansionDone_does hr hbad hs (Dev.copyWith_waits hb hrs hw hm)⟩
  case copyRequest =>
    rintro d d1 x b ids _ _ _ rfl rfl h rfl
    exact Dev.copyRequest_all h
  case copyPages =>
    exact fun d d1 shape id gs ps => ⟨fun h => Dev.copyPages_packs h ps, fun h => Dev.copyPages_expands h ps⟩
  case page => exact fun d d1 shape id gs bs => ⟨fun h => Acc.andThen_eq h _, fun h => Acc.andThen_eq h _⟩
  case active =>
    intro s i h
    exact ⟨packingDone_idle (by simp [h]), expansionDone_idle (by simp [h]), fun hb =>
      engine_still (p := Dev.engineRuns) rfl hb (Dev.parkExpire_notParked (by simp [h]))⟩
  case badRecord =>
    exact fun s i hr hb => ⟨engine_faults (p := Dev.engineRuns) rfl hr hb, engine_faults (p := Dev.engineRuns) rfl hr hb⟩
  case expires =>
    exact fun s i hr hb hs ht =>
      ⟨fun h => engine_does (p := Dev.engineRuns) rfl hr hb (Dev.parkExpire_expires hs ht h),
        fun h => engine_does (p := Dev.engineRuns) rfl hr hb (Dev.parkExpire_early h)⟩
  case kick =>
    exact fun s v hh hr => ⟨s.dev.serveKick v.toNat, serveKick_does hh hr, s.dev.serveKick_domsOnly v.toNat,
      s.dev.serveKick_dom v.toNat⟩

end Sys2Proof.Machine
end

section
/-! Bundles and DOM_PREEMPT (R240, R241, R247): the admission of a descriptor, the retirement of a bundle, and the write
that lets a domain be pre-empted. -/

namespace Sys2Proof.Machine
open Sys2Proof Sys2Proof.Claims

/-! ### ADMIT (R240, R241) -/

theorem Dev.admitCode_noDomain {d : Dev} {n : Nat} (bs : List Byte) (h : (d.domEnt n).isNone = true) :
    d.admitCode n bs = 2 :=
  if_pos (by simp [h])

section Admit
variable {d d1 d2 : Dev} {n : Nat} {bs : List Byte} (hn : n = d.bcmd.domain) (he : (d.domEnt n).isSome = true)
  (hl : d.load (d.sliceWho n) d.bcmd.addr.toNat 1024 = .ok (d1, bs))
  (h2 : d2 = (d1.unserve (d.sliceWho n).party).wakeDomain n)
include hn he hl h2

theorem Dev.admitOne_badMagic (hm : fieldOf bs 0 4 ≠ 0x444E424B) : d.admitOne = d2.bundleEnd 1 := by
  subst hn h2
  simp only [Dev.admitOne, hl, he]
  exact if_pos hm

section Magic
variable (hm : fieldOf bs 0 4 = 0x444E424B)
include hm

theorem Dev.admitOne_refuses {code : Nat} (hc : d.admitCode n bs = code) (h0 : code ≠ 0) :
    d.admitOne = d2.bundleEnd code := by
  subst hn h2
  obtain ⟨k, rfl⟩ := Nat.exists_eq_succ_of_ne_zero h0
  simp only [Dev.admitOne, hl, he, hc]
  exact if_neg (not_not_intro hm)

/-- A good bundle is measured with its images, resident, and logged. -/
theorem Dev.admitOne_accepts {b : Bundle} {d3 d4 : Dev} {text : List Byte} (hc : d.admitCode n bs = 0)
    (hb : b = descOf bs (d.regionsOf n))
    (ht : d2.imageTexts (d.sliceWho n) (b.regions.flatMap (fun r => r.2.2)) = .ok (d3, text))
    (h4 : d4 = (d3.unserve (d.sliceWho n).party).setResident n b.num (some { b with digest := sha384 (bs ++ text) })) :
    d.admitOne = { d4.bundleEnd 0 with sec := d4.sec.append ⟨4, n, b.num, 0, 0, sha384 (bs ++ text)⟩ } := by
  subst hn h2 hb h4
  simp only [Dev.admitOne, hl, he, hc, if_true, ht]
  exact if_neg (not_not_intro hm)

end Magic
end Admit

/-! ### RETIRE (R241) -/

section Retire
variable {d : Dev} {n b : Nat} (hn : n = d.bcmd.domain) (hb : b = d.bcmd.bundle)
include hn

theorem Dev.retireOne_noDomain (he : d.domEnt n = none) : d.retireOne = d.bundleEnd 2 :=
  if_pos (by simp [← hn, he])

variable (he : (d.domEnt n).isSome = true)
include hb he

theorem Dev.retireOne_noBundle (hx : d.bundleOf n b = none) : d.retireOne = d.bundleEnd 8 := by
  subst hn hb
  refine (if_neg (by simp [Option.isSome_iff_ne_none.mp he])).trans ?_
  simp only [hx]

/-- A resident bundle goes if nothing uses it. -/
theorem Dev.retireOne_resident {x : Bundle} (hx : d.bundleOf n b = some x) : d.retireOne =
    if d.bundleUsed n b then d.bundleEnd 7
    else { (d.setResident n b none).bundleEnd 0 with sec := d.sec.append ⟨5, n, b, 0, 0, x.digest⟩ } := by
  subst hn hb
  refine (if_neg (by simp [Option.isSome_iff_ne_none.mp he])).trans ?_
  simp only [hx]
  rfl

theorem Dev.retireOne_inUse (hx : (d.bundleOf n b).isSome = true) (hu : d.bundleUsed n b = true) :
    d.retireOne = d.bundleEnd 7 := by
  obtain ⟨x, hx⟩ := Option.isSome_iff_exists.mp hx
  exact (Dev.retireOne_resident hn hb he hx).trans (if_pos hu)

theorem Dev.retireOne_removes {x : Bundle} (hx : d.bundleOf n b = some x) (hu : d.bundleUsed n b = false) :
    d.retireOne = { (d.setResident n b none).bundleEnd 0 with sec := d.sec.append ⟨5, n, b, 0, 0, x.digest⟩ } :=
  (Dev.retireOne_resident hn hb he hx).trans (if_neg (Bool.eq_false_iff.mp hu))

end Retire

/-! ### The commands -/

section Commands
variable {s : State} {e : Dev}

section Busy
variable (hr : s.dev.engineRuns = true) (hb : s.dev.bcmd.busy = true)
include hr hb

theorem admitBundle_does (ho : s.dev.bcmd.op = 1) (h : s.dev.admitOne = e) : Does .admitBundle s e :=
  does_of_eq ((if_pos (by simp [hr, hb, ho])).trans h) rfl

theorem retire_does (ho : s.dev.bcmd.op = 2) (h : s.dev.retireOne = e) : Does .retire s e :=
  does_of_eq ((if_pos (by simp [hr, hb, ho])).trans h) rfl

end Busy

theorem admitBundle_idle (h : s.dev.bcmd.busy = false) : Does .admitBundle s s.dev :=
  does_of_eq (if_neg (by simp [h])) rfl

theorem retire_idle (h : s.dev.bcmd.busy = false) : Does .retire s s.dev :=
  does_of_eq (if_neg (by simp [h])) rfl

end Commands

/-! ### DOM_PREEMPT (R247) -/

theorem Dev.preemptible_eq_any (d : Dev) (n : Nat) : d.preemptible n = (d.domEnt n).any (fun e => e.preempt) := by
  unfold Dev.preemptible
  cases d.domEnt n <;> rfl

theorem domPreemptWrite_does {s : State} {n : Domain} {v : Word} (hh : s.dev.host.held = [])
    (hr : s.dev.hostReady = true) : Does (.domPreemptWrite n v) s (s.dev.preemptWrite n.val v) :=
  hosted_does (c := Dev.hostReady) (f := fun d => d.preemptWrite n.val v) rfl hh hr

/-- Settles O50: ADMIT by the code of the descriptor that was read, RETIRE by whether the bundle is resident and used,
and DOM_PREEMPT by what the image and the save slots allow. -/
theorem bundleCommands : Obligations.BundleCommands := by
  unfold Obligations.BundleCommands
  refine ⟨?admission, fun d n bs => Dev.admitCode_noDomain bs, fun s h => ⟨admitBundle_idle h, retire_idle h⟩, ?retire,
    fun d code => rfl, ?preempt⟩
  case admission =>
    intro s n d1 d2 bs hr hb ho hn he hl h2
    refine ⟨fun hm => admitBundle_does hr hb ho (Dev.admitOne_badMagic hn he hl h2 hm), fun hm => ?_, ?_⟩
    · exact or_iff_not_imp_left.mpr fun h0 =>
        admitBundle_does hr hb ho (Dev.admitOne_refuses hn he hl h2 hm rfl h0)
    · exact fun b d3 d4 text hm h0 hd ht h4 =>
        admitBundle_does hr hb ho (Dev.admitOne_accepts hn he hl h2 hm h0 hd ht h4)
  case retire =>
    exact fun s n b hr hb ho hn hbu =>
      ⟨fun he => retire_does hr hb ho (Dev.retireOne_noDomain hn he),
        fun he hx => retire_does hr hb ho (Dev.retireOne_noBundle hn hbu he hx),
        fun he hx hu => retire_does hr hb ho (Dev.retireOne_inUse hn hbu he hx hu),
        fun x he hx hu => retire_does hr hb ho (Dev.retireOne_removes hn hbu he hx hu)⟩
  case preempt =>
    rintro s n v _ hh hr rfl
    rw [← Dev.preemptible_eq_any]
    exact domPreemptWrite_does hh hr

end Sys2Proof.Machine
end

section
/-! Stream queues (R254 to R265): the outcomes of an entry write by the head output and the room in the queue, the stall
of a held queue, and the control sets, each by its code and by whether it breaks Table 1. -/

namespace Sys2Proof.Machine
open Sys2Proof Sys2Proof.Claims

@[simp] theorem Dev.modQueue_read (d : Dev) (k : Nat) (f : Queue → Queue) : (d.modQueue k f).queue k = f (d.queue k) :=
  d.setQueue_read k _

@[simp] theorem Dev.sendFabric_queue (d : Dev) (src dst : Nat) (cls : FabClass) (m : Payload) (k : Nat) :
    (d.sendFabric src dst cls m).queue k = d.queue k :=
  rfl

/-! ### The pointer check (R265) -/

theorem Dev.checkedQueue_matched {d : Dev} {r j : Nat} (h : (d.queue (32 * r + j)).matched = true) (f : Dev → Dev) :
    d.checkedQueue r j f = f d :=
  if_pos h

theorem Dev.checkedQueue_mismatched {d : Dev} {r j : Nat} (h : (d.queue (32 * r + j)).matched = false)
    (f : Dev → Dev) : d.checkedQueue r j f = d.pointerReset r j :=
  if_neg (Bool.eq_false_iff.mp h)

/-! ### Entries (R254, R256, R258, R263) -/

/-- The last bytes of an operation's output end the operation. -/
theorem Dev.outputDone_finishes {d : Dev} {r j : Nat} {o : QOut} (hs : o.stack = none)
    (hl : (d.modQueue (32 * r + j) (fun x => { x with outs := x.outs.tail })).outputsLeft o.blk o.index = false) :
    d.outputDone r j o =
      (d.modQueue (32 * r + j) (fun x => { x with outs := x.outs.tail })).finish o.blk o.index := by
  simp only [Dev.outputDone, hs]
  exact if_neg (Bool.eq_false_iff.mp hl)

theorem Dev.entryWrite_noOutput {d : Dev} {r j : Nat} (h : (d.queue (32 * r + j)).outs = []) :
    d.entryWrite r j = d := by
  simp only [Dev.entryWrite, h]

section Head
variable {d : Dev} {r j : Nat} {x : Queue} {o : QOut} {rest : List QOut} (hx : x = d.queue (32 * r + j))
  (ho : x.outs = o :: rest)
include hx ho

/-- An entry that is not the output's last is written whole, with no padding (R255). -/
theorem Dev.putEntry_more (hb : x.esize < o.bytes.length) : d.putEntry r j o = Dev.offerPackets
    ((d.bbufWrite (4 * r + x.consumer) (x.entryAt x.write.toNat) (o.bytes.take x.esize)).setQueue (32 * r + j) { x with
      pkts := x.addEntry false, write := x.write + 1, write2 := x.write + 1, held := false
      outs := { o with bytes := o.bytes.drop x.esize, begun := true, waits := false, counted := false } :: rest })
        r j := by
  subst hx
  have hfull : (o.bytes.take (d.queue (32 * r + j)).esize).length = (d.queue (32 * r + j)).esize :=
    List.length_take_of_le hb.le
  have hmore : (o.bytes.drop (d.queue (32 * r + j)).esize).isEmpty = false := by simpa using hb
  simp only [Dev.putEntry, hfull, hmore, ho, Nat.sub_self, List.replicate_zero, List.append_nil, List.tail_cons]
  exact if_neg Bool.false_ne_true

theorem Dev.entryWrite_discards (hd : o.discard = true) : d.entryWrite r j = d.outputDone r j o := by
  subst hx
  simp only [Dev.entryWrite, ho, if_pos hd]

section Kept
variable (hd : o.discard = false)
include hd

theorem Dev.entryWrite_mismatched (hm : x.matched = false) : d.entryWrite r j = d.pointerReset r j := by
  subst hx
  simp only [Dev.entryWrite, ho, hd, Dev.checkedQueue_mismatched hm]
  exact if_neg Bool.false_ne_true

section Matched
variable (hm : x.matched = true)
include hm

/-- With matched pointers the entry is held or written. -/
theorem Dev.entryWrite_matched : d.entryWrite r j =
    if x.full || (o.waits && x.distant r) then
      let d1 := d.setQueue (32 * r + j) { x with
        held := true, outs := { o with waits := true, counted := true } :: rest }
      if o.counted then d1 else d1.bump (queueHoldsAt r j)
    else d.putEntry r j o := by
  subst hx
  simp only [Dev.entryWrite, ho, hd, Dev.checkedQueue_matched hm]
  exact if_neg Bool.false_ne_true

theorem Dev.entryWrite_puts (hf : x.full = false) (hw : o.waits = false ∨ x.distant r = false) :
    d.entryWrite r j = d.putEntry r j o :=
  (Dev.entryWrite_matched hx ho hd hm).trans (if_neg (by obtain hw | hw := hw <;> simp [hf, hw]))

section Held
variable (hh : x.full = true ∨ (o.waits = true ∧ x.distant r = true))
include hh

theorem Dev.entryWrite_holds (hc : o.counted = false) : d.entryWrite r j =
    (d.setQueue (32 * r + j) { x with held := true, outs := { o with waits := true, counted := true } :: rest }).bump
      (queueHoldsAt r j) := by
  rw [Dev.entryWrite_matched hx ho hd hm, if_pos (by simpa using hh)]
  exact if_neg (Bool.eq_false_iff.mp hc)

/-- A hold that was counted is not counted again (R266). -/
theorem Dev.entryWrite_holdsAgain (hc : o.counted = true) : d.entryWrite r j =
    d.setQueue (32 * r + j) { x with held := true, outs := { o with waits := true } :: rest } := by
  have hsame : { o with waits := true, counted := true } = { o with waits := true } := by simp [hc]
  rw [Dev.entryWrite_matched hx ho hd hm, if_pos (by simpa using hh), hsame]
  exact if_pos hc

end Held
end Matched
end Kept
end Head

theorem queueEntryWrite_does {s : State} {r : Region} {q : QueueNo} {e : Dev} (h : s.dev.entryWrite r.val q.val = e) :
    Does (.queueEntryWrite r q) s e :=
  does_of_eq h rfl

/-! ### The stall (R264) -/

theorem queueStall_does {s : State} {r : Region} {q : QueueNo}
    (hh : (s.dev.queue (32 * r.val + q.val)).held = true) (hr : s.dev.stepRuns r.val = true) :
    Does (.queueStall r q) s (s.dev.regionFault r.val codeQueueStall 6) :=
  does_of_eq (if_pos (by simp [hh, hr])) rfl

/-- Settles O32: the entry write by the head output, the pointers, and the room in the queue; the stall by its
conditions. -/
theorem queueEntries : Obligations.QueueEntries := by
  unfold Obligations.QueueEntries
  refine ⟨?writes, ?holds, ?holdsAgain, ?discards, ?resets, fun s r q => queueStall_does,
    fun s r q h => queueEntryWrite_does (Dev.entryWrite_noOutput h)⟩
  case writes =>
    exact fun s r q x o rest hx ho hd hm hf hw hb => queueEntryWrite_does
      ((Dev.entryWrite_puts hx ho hd hm hf hw).trans (Dev.putEntry_more hx ho hb))
  case holds =>
    exact fun s r q x o rest hx ho hd hm hh hc => queueEntryWrite_does (Dev.entryWrite_holds hx ho hd hm hh hc)
  case holdsAgain =>
    exact fun s r q x o rest hx ho hd hm hh hc => queueEntryWrite_does (Dev.entryWrite_holdsAgain hx ho hd hm hh hc)
  case discards =>
    exact fun s r q x o rest hx ho hd hs hl => queueEntryWrite_does
      ((Dev.entryWrite_discards hx ho hd).trans (Dev.outputDone_finishes hs hl))
  case resets =>
    exact fun s r q x o rest hx ho hd hm => queueEntryWrite_does (Dev.entryWrite_mismatched hx ho hd hm)

/-! ### Control sets that break Table 1 (R261, R262) -/

section CtlBad
variable {x : Queue} {v : Nat}

theorem Queue.ctlBad_reserved (h : ctlOp v = 0 ∨ 3 < ctlOp v) : x.ctlBad v = true := by
  unfold Queue.ctlBad
  split
  case h_4 => rfl
  all_goals omega

theorem Queue.ctlBad_release (h : ctlOp v = 1) : x.ctlBad v = true ↔
    ctlCount v = 0 ∨ 4096 < ctlCount v ∨ (x.write - x.release).toNat < ctlCount v := by
  simp [Queue.ctlBad, h, or_assoc]

theorem Queue.ctlBad_mark (h : ctlOp v = 2) : x.ctlBad v = true ↔ ctlCount v ≠ 0 := by
  simp [Queue.ctlBad, h]

theorem Queue.ctlBad_rewind (h : ctlOp v = 3) : x.ctlBad v = true ↔ ctlCount v ≠ 0 ∨ x.markValid = false := by
  simp [Queue.ctlBad, h]

end CtlBad

/-! ### A control set is taken (R261) -/

/-- The device once the oldest control set of queue `k` is taken, and `rest` are left. -/
def Dev.ctlTaken (d : Dev) (k : Nat) (rest : List Nat) : Dev := d.modQueue k (fun x => { x with ctl := rest })

@[simp] theorem Dev.ctlTaken_read (d : Dev) (k : Nat) (rest : List Nat) :
    (d.ctlTaken k rest).queue k = { d.queue k with ctl := rest } :=
  d.modQueue_read k _

theorem Dev.controlStep_none {d : Dev} {r j : Nat} (h : (d.queue (32 * r + j)).ctl = []) (o : Nat) :
    d.controlStep r j o = d := by
  simp only [Dev.controlStep, h]

section Taken
variable {d : Dev} {r j v o : Nat} {rest : List Nat} (hc : (d.queue (32 * r + j)).ctl = v :: rest)
  (hm : (d.queue (32 * r + j)).matched = true)
include hc hm

/-- A set that a command takes is a fault, or has its effect. -/
theorem Dev.controlStep_takes (ho : ctlOp v = o ∨ ctlOp v = 0 ∨ 3 < ctlOp v) : d.controlStep r j o =
    if (d.queue (32 * r + j)).ctlBad v then (d.ctlTaken (32 * r + j) rest).regionFault r codeQueueCtl 6
    else (d.ctlTaken (32 * r + j) rest).control r j v := by
  have hm' : ((d.ctlTaken (32 * r + j) rest).queue (32 * r + j)).matched = true := by rw [Dev.ctlTaken_read]; exact hm
  have hbad : ((d.ctlTaken (32 * r + j) rest).queue (32 * r + j)).ctlBad v = (d.queue (32 * r + j)).ctlBad v := by
    rw [Dev.ctlTaken_read]; rfl
  simp only [Dev.controlStep, hc]
  rw [if_pos (by simpa [or_assoc] using ho), ← hbad]
  exact Dev.checkedQueue_matched hm' _

theorem Dev.controlStep_faults (ho : ctlOp v = o ∨ ctlOp v = 0 ∨ 3 < ctlOp v)
    (hb : (d.queue (32 * r + j)).ctlBad v = true) :
    d.controlStep r j o = (d.ctlTaken (32 * r + j) rest).regionFault r codeQueueCtl 6 :=
  (Dev.controlStep_takes hc hm ho).trans (if_pos hb)

theorem Dev.controlStep_controls (ho : ctlOp v = o) (hb : ¬ (d.queue (32 * r + j)).ctlBad v = true) :
    d.controlStep r j o = (d.ctlTaken (32 * r + j) rest).control r j v :=
  (Dev.controlStep_takes hc hm (.inl ho)).trans (if_neg hb)

end Taken

/-! ### RELEASE, MARK and REWIND (R261, R263, R269) -/

section Control
variable {d : Dev} {r j v : Nat}

/-- The release of a queue whose producer is in its own region reaches the producer at once. -/
theorem Dev.control_releaseNear (h : ctlOp v = 1) (hn : (d.queue (32 * r + j)).distant r = false) : d.control r j v =
    (d.modQueue (32 * r + j) (fun x => x.released (ctlCount v))).modQueue (32 * r + j) Queue.freed := by
  simp only [Dev.control, h]
  exact if_neg (Bool.eq_false_iff.mp hn)

theorem Dev.control_releaseFar (h : ctlOp v = 1) (hf : (d.queue (32 * r + j)).distant r = true) : d.control r j v =
    (d.modQueue (32 * r + j) (fun x => x.released (ctlCount v))).sendFabric r (d.queue (32 * r + j)).prodRegion .ctrl
      (.release j) := by
  simp only [Dev.control, h]
  exact if_pos hf

theorem Dev.control_mark (h : ctlOp v = 2) : d.control r j v =
    d.modQueue (32 * r + j) (fun x => { x with mark := x.offer, mark2 := x.offer, markValid := true }) := by
  simp only [Dev.control, h]

theorem Dev.control_rewind (h : ctlOp v = 3) :
    d.control r j v = (d.modQueue (32 * r + j) Queue.rewound).offerPackets r j := by
  simp only [Dev.control, h]

end Control

/-- Each of the three commands takes the sets of its own code `o`, and the reserved ones. -/
theorem controlStep_does {s : State} {r : Region} {q : QueueNo} {c : Instr} {o : Nat} {e : Dev}
    (hc : (c, o) ∈ [(.queueRelease r q, 1), (.queueMark r q, 2), (.queueRewind r q, 3)])
    (h : s.dev.controlStep r.val q.val o = e) : Does c s e := by
  simp only [List.mem_cons, Prod.mk.injEq, List.not_mem_nil, or_false] at hc
  obtain ⟨rfl, rfl⟩ | ⟨rfl, rfl⟩ | ⟨rfl, rfl⟩ := hc
  · exact does_of_eq h rfl
  · exact does_of_eq h rfl
  · exact does_of_eq h rfl

/-- Settles O33: a control set is taken from the queue; one that Table 1 and the queue's state allow has the effect of
its code, and every other is the fault. -/
theorem queueControl : Obligations.QueueControl := by
  unfold Obligations.QueueControl
  refine ⟨?release, ?mark, ?rewind, ?faults, ?none⟩
  case release =>
    rintro s r q _ v rest rfl hc hm ho hpos hmax hfit
    have hok : ¬ (s.dev.queue (32 * r.val + q.val)).ctlBad v = true := by
      rw [Queue.ctlBad_release ho]
      omega
    refine ⟨_, controlStep_does (by simp) (Dev.controlStep_controls hc hm ho hok), fun hn => ?_, fun hf => ?_⟩
    · rw [Dev.control_releaseNear ho (by rw [Dev.ctlTaken_read]; exact hn)]
      exact ⟨rfl, by simp only [Dev.modQueue_read, Dev.ctlTaken_read]; rfl⟩
    · rw [Dev.control_releaseFar ho (by rw [Dev.ctlTaken_read]; exact hf), Dev.ctlTaken_read]
      exact ⟨rfl, by simp only [Dev.sendFabric_queue, Dev.modQueue_read, Dev.ctlTaken_read]; rfl⟩
  case mark =>
    rintro s r q _ v rest rfl hc hm ho h0
    have hok : ¬ (s.dev.queue (32 * r.val + q.val)).ctlBad v = true := by simp [Queue.ctlBad_mark ho, h0]
    exact ⟨_, controlStep_does (by simp) ((Dev.controlStep_controls hc hm ho hok).trans (Dev.control_mark ho)), rfl,
      by simp only [Dev.modQueue_read, Dev.ctlTaken_read]⟩
  case rewind =>
    rintro s r q _ v rest rfl hc hm ho h0 hv
    have hok : ¬ (s.dev.queue (32 * r.val + q.val)).ctlBad v = true := by simp [Queue.ctlBad_rewind ho, h0, hv]
    exact ⟨_, controlStep_does (by simp) ((Dev.controlStep_controls hc hm ho hok).trans (Dev.control_rewind ho)), rfl,
      by simp only [Dev.modQueue_read, Dev.ctlTaken_read]⟩
  case faults =>
    rintro s r q _ v o rest c rfl hc hm hco hbad
    have htaken : ctlOp v = o ∨ ctlOp v = 0 ∨ 3 < ctlOp v := by tauto
    have hb : (s.dev.queue (32 * r.val + q.val)).ctlBad v = true := by
      obtain h0 | h3 | ⟨rfl, ⟨ho, h⟩ | ⟨ho, h⟩ | ⟨ho, h⟩⟩ := hbad
      · exact Queue.ctlBad_reserved (.inl h0)
      · exact Queue.ctlBad_reserved (.inr h3)
      · exact (Queue.ctlBad_release ho).mpr h
      · exact (Queue.ctlBad_mark ho).mpr h
      · exact (Queue.ctlBad_rewind ho).mpr h
    exact ⟨_, controlStep_does hco (Dev.controlStep_faults hc hm htaken hb), rfl, s.dev.ctlTaken_read _ rest⟩
  case none =>
    exact fun s r q h => ⟨controlStep_does (by simp) (Dev.controlStep_none h 1),
      controlStep_does (by simp) (Dev.controlStep_none h 2), controlStep_does (by simp) (Dev.controlStep_none h 3)⟩

end Sys2Proof.Machine
end

section
/-! Fabric messages and the reduction tree (R269, R270, R274 to R277): the arrival of a message by its payload, a contribution
by the round that it meets, and a full round by whether its domain has a span tree. -/

namespace Sys2Proof.Machine
open Sys2Proof Sys2Proof.Claims

/-! ### Steps under a condition -/

section Conditioned
variable {s : State} {i : Instr} {c : Dev → Bool} {f : Dev → Dev} {e : Dev}
  (he : exec i s = s.always fun d => d.when (c d) f)
include he

theorem when_does (hc : c s.dev = true) (hf : f s.dev = e) : Does i s e := by
  rw [Does, he, State.always_next, hc, Dev.when_true, hf]

theorem when_idle (hc : c s.dev = false) : Does i s s.dev := by
  rw [Does, he, State.always_next, hc, Dev.when_false]

/-- A step that would leave the device as it is leaves it whatever its condition. -/
theorem when_still (hf : f s.dev = s.dev) : Does i s s.dev := by
  cases hc : c s.dev with
  | false => exact when_idle he hc
  | true => exact when_does he hc hf

end Conditioned

/-! ### Messages of the fabric (R269, R270) -/

/-- What is taken is the oldest message that is looked for, and the others stay in order. -/
theorem takeMsg_eq_some {l : List FabMsg} {p : FabMsg → Bool} {m : FabMsg} {rest : List FabMsg}
    (h : takeMsg l p = some (m, rest)) : ∃ before_ after_ : List FabMsg, l = before_ ++ m :: after_ ∧
      rest = before_ ++ after_ ∧ p m = true ∧ ∀ x ∈ before_, p x = false := by
  induction l generalizing rest with
  | nil => simp [takeMsg] at h
  | cons n l ih =>
    by_cases hn : p n = true
    · obtain ⟨rfl, rfl⟩ : n = m ∧ l = rest := by simpa [takeMsg, hn] using h
      exact ⟨[], l, rfl, rfl, hn, by simp⟩
    · obtain ⟨⟨m', r⟩, hr, hq⟩ : ∃ q, takeMsg l p = some q ∧ (q.1, n :: q.2) = (m, rest) := by
        simpa [takeMsg, hn] using h
      obtain ⟨rfl, rfl⟩ := Prod.mk.inj hq
      obtain ⟨before_, after_, rfl, rfl, hm, hb⟩ := ih hr
      exact ⟨n :: before_, after_, rfl, rfl, hm, List.forall_mem_cons.mpr ⟨Bool.eq_false_iff.mpr hn, hb⟩⟩

theorem Dev.messageArrives_none {d : Dev} {src dst : Nat} {cls : FabClass}
    (h : takeMsg d.net.msgs (fun m => m.on src dst cls) = none) : d.messageArrives src dst cls = d := by
  simp only [Dev.messageArrives, h]

section Arrives
variable {d : Dev} {src dst : Nat} {cls : FabClass} {m : FabMsg} {rest : List FabMsg}
  (h : takeMsg d.net.msgs (fun m => m.on src dst cls) = some (m, rest))
include h

theorem Dev.messageArrives_waits
    (hb : (∃ f i b n : Nat, m.body = .flagSet f i b n) ∨ (∃ (l : TagList) (b n : Nat), m.body = .scanList l b n)) :
    d.messageArrives src dst cls =
      Dev.modRegion { d with net.msgs := rest } dst (fun x => { x with arrived := x.arrived ++ [m] }) := by
  obtain ⟨f, i, b, n, hb⟩ | ⟨l, b, n, hb⟩ := hb
  · simp only [Dev.messageArrives, h, hb]
  · simp only [Dev.messageArrives, h, hb]

theorem Dev.messageArrives_accepted {b i : Nat} (hb : m.body = .listAccepted b i) :
    d.messageArrives src dst cls = Dev.finish { d with net.msgs := rest } (4 * dst + b) i := by
  simp only [Dev.messageArrives, h, hb]

theorem Dev.messageArrives_release {j : Nat} (hb : m.body = .release j) :
    d.messageArrives src dst cls = Dev.modQueue { d with net.msgs := rest } (32 * src + j) Queue.freed := by
  simp only [Dev.messageArrives, h, hb]

theorem Dev.messageArrives_data (hb : m.body = .data) :
    d.messageArrives src dst cls = { d with net.msgs := rest } := by
  simp only [Dev.messageArrives, h, hb]

end Arrives

theorem fabricMessage_does {s : State} {src dst : Router} {cls : FabClass} {e : Dev} (hc : s.dev.clk.coast = false)
    (h : s.dev.messageArrives src.val dst.val cls = e) : Does (.fabricMessage src dst cls) s e :=
  when_does (c := fun d => !d.clk.coast) (f := fun d => d.messageArrives src.val dst.val cls) rfl (by simp [hc]) h

theorem fabricMessage_idle {s : State} {src dst : Router} {cls : FabClass}
    (h : takeMsg s.dev.net.msgs (fun m => m.on src.val dst.val cls) = none) : Does (.fabricMessage src dst cls) s s.dev :=
  when_still (c := fun d => !d.clk.coast) (f := fun d => d.messageArrives src.val dst.val cls) rfl
    (Dev.messageArrives_none h)

/-! ### Contributions (R274, R275) -/

theorem blk_region (r : Region) (b : Blk) : (4 * r.val + b.val) / 4 = r.val := by omega

theorem Dev.treeReduce_notReady {d : Dev} {k : Nat} (h : d.ready k 0x28 = none) : d.treeReduce k = d := by
  simp only [Dev.treeReduce, h]

/-- The operation at the head of its region's tree port contributes. -/
theorem Dev.treeReduce_head {d : Dev} {k n : Nat} {f : Flight} {q : Nat × Nat} {tl : List (Nat × Nat)}
    (hf : d.ready k 0x28 = some f) (hn : d.domainOf (k / 4) = some n) (ht : (d.region (k / 4)).treeQ = q :: tl)
    (hq : q = (k, f.index)) : d.treeReduce k = d.contribute k n f := by
  simp only [Dev.treeReduce, hf, hn, ht, hq, if_true]

section Contribute
variable {d : Dev} {k n br g : Nat} {f : Flight} {gs : List Nat} (hb : (f.op k).at 0 = .br br)
  (hg : cellsOf k (OpWord.mask f.word) = g :: gs)
include hb hg

/-- The first contribution to a domain's rounds begins a round with its number. -/
theorem Dev.contribute_first {d1 : Dev} {bs : List Byte} (hr : d.rounds n = [])
    (hl : d.readRun (whoBlock k (OpWord.hint f.word)) (.cell g (d.bufregBase g br)) 0 (OpWord.treeBytes f.word) =
      .ok (d1, bs)) :
    d.contribute k n f = ((d1.setRounds n
      [⟨(d.region (k / 4)).treeTaken, [⟨k / 4, k, f.index, f.word, bs⟩], none, false, false⟩]).modRegion (k / 4) (fun x =>
        { x with treeQ := x.treeQ.tail, treeTaken := x.treeTaken + 1 })).modFlight k f.index
          (fun y => { y with begun := true }) := by
  simp only [Dev.contribute, hr, hb, hg, hl, List.find?_nil]
  rfl

/-- A contribution that does not agree with one of its round is a fault of its region. -/
theorem Dev.contribute_mismatch {x : Round} {p : Contrib} (hr : d.rounds n = [x])
    (hx : x.num = (d.region (k / 4)).treeTaken) (hp : p ∈ x.parts)
    (hs : OpWord.treeSig p.word ≠ OpWord.treeSig f.word) : d.contribute k n f = d.regionFault (k / 4) 0x47 6 := by
  have hold : (d.rounds n).find? (fun x => decide (x.num = (d.region (k / 4)).treeTaken)) = some x := by simp [hr, hx]
  have hany : x.parts.any (fun p => OpWord.treeSig p.word != OpWord.treeSig f.word) = true :=
    List.any_eq_true.mpr ⟨p, hp, bne_iff_ne.mpr hs⟩
  simp only [Dev.contribute, hold, hb, hg]
  exact if_pos hany

end Contribute

theorem treeReduce_does {s : State} {r : Region} {b : Blk} {e : Dev} (h : s.dev.treeReduce (4 * r.val + b.val) = e) :
    Does (.treeReduce r b) s e :=
  does_of_eq h rfl

/-! ### Rounds (R275 to R277) -/

section Complete
variable {d : Dev} {n : Nat} {late : Bool}

theorem Dev.treeComplete_none (h : (d.rounds n).find? (d.roundFull n) = none) : d.treeComplete n late = d := by
  simp only [Dev.treeComplete, h]

section Full
variable {x : Round} (h : (d.rounds n).find? (d.roundFull n) = some x)
include h

theorem Dev.treeComplete_ends (ht : d.spanTree n = none) : d.treeComplete n late =
    Dev.roundEnds (if late then d.drawn.bump 0x3000010 else d.drawn) n x (combineAll x.op d.free
      (((x.parts.map Contrib.values).head?.map List.length).getD 0) (x.parts.map Contrib.values)) := by
  simp only [Dev.treeComplete, h, ht]
  rfl

/-- Under a span tree the combined round goes on there, with room for its vector from the children. -/
theorem Dev.treeComplete_goesOn {t : SpanTree} {vals : List Word} (ht : d.spanTree n = some t)
    (hv : vals = combineAll x.op d.free (((x.parts.map Contrib.values).head?.map List.length).getD 0)
      (x.parts.map Contrib.values)) : d.treeComplete n late =
    ((if late then d.drawn.bump 0x3000010 else d.drawn).modRounds n
      (fun l => l.map (fun y => if y.num = x.num then { y with own := some vals } else y))).treeRoom t.kids vals.length := by
  subst hv
  simp only [Dev.treeComplete, h, ht]
  rfl

end Full
end Complete

theorem Dev.treeTimeout_none {d : Dev} {n : Nat} (h : d.rounds n = []) : d.treeTimeout n = d := by
  simp only [Dev.treeTimeout, h]

theorem Dev.treeTimeout_faults {d : Dev} {n : Nat} {x : Round} {rest : List Round} (h : d.rounds n = x :: rest)
    (ht : d.spanTree n = none) :
    d.treeTimeout n = d.regionFault ((x.parts.head?.map (·.region)).getD 0) 0x48 6 := by
  simp only [Dev.treeTimeout, h, ht]
  rfl

/-- Settles O34: a message by its payload, a contribution by the round of its number, a full round by the span tree. -/
theorem fabricAndReductionTree : Obligations.FabricAndReductionTree := by
  unfold Obligations.FabricAndReductionTree
  refine ⟨?waits, ?accepted, ?leaves, fun s src dst cls => fabricMessage_idle, fun l p m rest => takeMsg_eq_some,
    ?contributes, ?mismatch, fun s r b h => treeReduce_does (Dev.treeReduce_notReady h), ?ends, ?goesOn,
    fun s n late h => does_of_eq (Dev.treeComplete_none h) rfl, ?timeout,
    fun s n h => does_of_eq (Dev.treeTimeout_none h) rfl⟩
  case waits =>
    exact fun s src dst cls m rest hc h hb => fabricMessage_does hc (Dev.messageArrives_waits h hb)
  case accepted =>
    exact fun s src dst cls m rest b i hc h hb => fabricMessage_does hc (Dev.messageArrives_accepted h hb)
  case leaves =>
    exact fun s src dst cls m rest hc h =>
      ⟨fun j hb => fabricMessage_does hc (Dev.messageArrives_release h hb),
        fun hb => fabricMessage_does hc (Dev.messageArrives_data h hb)⟩
  case contributes =>
    rintro s r b _ n br g f d1 bs q gs tl rfl hf hn ht hq hr hb hg hl
    refine treeReduce_does ((Dev.treeReduce_head hf (by rwa [blk_region]) (by rwa [blk_region]) hq).trans ?_)
    rw [Dev.contribute_first hb hg hr hl, blk_region]
  case mismatch =>
    rintro s r b _ n br g f q gs tl x p rfl hf hn ht hq hr hx hp hs hb hg
    refine treeReduce_does ((Dev.treeReduce_head hf (by rwa [blk_region]) (by rwa [blk_region]) hq).trans ?_)
    rw [Dev.contribute_mismatch hb hg hr (by rwa [blk_region]) hp hs, blk_region]
  case ends => exact fun s n late x h ht => does_of_eq (Dev.treeComplete_ends h ht) rfl
  case goesOn => exact fun s n late x t vals h ht hv => does_of_eq (Dev.treeComplete_goesOn h ht hv) rfl
  case timeout => exact fun s n x rest h ht => does_of_eq (Dev.treeTimeout_faults h ht) rfl

end Sys2Proof.Machine
end

section
/-! Span ports (R278 to R282, R285, R286): training by its outcome, messages in both directions by what the port and the
channel hold, and the operations that send and receive them. -/

namespace Sys2Proof.Machine
open Sys2Proof Sys2Proof.Claims

/-! ### Ports and what a device sends -/

/-- A device with the output of `d` sends one item more. -/
theorem Dev.emit_of_out {d e : Dev} (h : e.out = d.out) (o : Out) : e.emit o = { e with out := d.out ++ [o] } := by
  rw [Dev.emit, h]

@[simp] theorem Dev.modSpan_read (d : Dev) (p : Nat) (f : Span → Span) : (d.modSpan p f).span p = f (d.span p) :=
  d.setSpan_read p _

@[simp] theorem Dev.spanEnter_st (d : Dev) (p st reason : Nat) : ((d.spanEnter p st reason).span p).st = st := by
  have hmod : ((d.modSpan p (fun x => { x with st := st, reason := reason })).span p).st = st := by
    rw [Dev.modSpan_read]
  rw [Dev.spanEnter]
  split
  · exact hmod
  · exact hmod

@[simp] theorem Dev.spanEnter_out (d : Dev) (p st reason : Nat) : (d.spanEnter p st reason).out = d.out := by
  rw [Dev.spanEnter]
  split
  · rfl
  · rfl

/-! ### Room above the receive buffers (R281) -/

/-- A device that differs from `d` in what it has sent alone. -/
def Dev.OnlySends (d e : Dev) : Prop := e = { d with out := e.out }

theorem Dev.sendRoom_onlySends {d e : Dev} (h : d.OnlySends e) (p channel len : Nat) :
    d.OnlySends (e.sendRoom p channel len) := by
  rw [Dev.sendRoom]
  split
  · exact congrArg (fun x : Dev => x.emit (.spanReply p channel (.credit (len - channelBuffer)))) h
  · exact h

theorem Dev.sendRoom_down {d : Dev} {p : Nat} (h : (d.span p).st ≠ 2) (channel len : Nat) :
    d.sendRoom p channel len = d :=
  if_neg fun hup => h hup.2

/-- The room of a port that comes UP is sent credit by credit: what every such sending keeps, all of them keep. -/
theorem Dev.roomOf_keeps {motive : Dev → Prop} {d : Dev} (h : motive d) (p : Nat)
    (hs : ∀ (e : Dev) (channel len : Nat), motive e → motive (e.sendRoom p channel len)) : motive (d.roomOf p) := by
  rw [Dev.roomOf]
  refine List.foldlRecOn _ _ ?_ fun e he len _ => hs e treeChannel len he
  refine List.foldlRecOn _ _ h fun e he c _ => List.foldlRecOn _ _ he fun e he y _ => ?_
  split
  · exact hs e c.num _ he
  · exact he

theorem Dev.roomOf_onlySends (d : Dev) (p : Nat) : d.OnlySends (d.roomOf p) :=
  Dev.roomOf_keeps (d := d) (motive := d.OnlySends) rfl p fun _ channel len he => Dev.sendRoom_onlySends he p channel len

/-- A port that is not UP sends no credits. -/
theorem Dev.roomOf_down {d : Dev} {p : Nat} (h : (d.span p).st ≠ 2) : d.roomOf p = d :=
  Dev.roomOf_keeps (motive := (· = d)) rfl p fun _ channel len he => he.symm ▸ Dev.sendRoom_down h channel len

/-! ### Training (R279, R286) -/

theorem Dev.trainResult_idle {d : Dev} {p : Nat} (h : (d.span p).st ≠ 1) (res : TrainEnd) : d.trainResult p res = d :=
  if_pos h

section Training
variable {d : Dev} {p : Nat} (h : (d.span p).st = 1)
include h

theorem Dev.trainResult_none :
    d.trainResult p .none = (d.spanEnter p 3 1).modSpan p (fun y => { y with retrain := false }) :=
  if_neg (not_not_intro h)

variable {i : BitVec 6} {q : BitVec 4}

theorem Dev.trainResult_reached : d.trainResult p (.reached i q) =
    ((d.spanEnter p (if i.toNat = (d.span p).wantId ∧ q.toNat = (d.span p).wantPort then 2 else 3)
      (if i.toNat = (d.span p).wantId ∧ q.toNat = (d.span p).wantPort then 0 else 2)).modSpan p
        (fun y => { y with retrain := false, partnerId := i.toNat, partnerPort := q.toNat })).roomOf p := by
  simp only [Dev.trainResult, h, ne_eq, not_true, if_false, Bool.and_eq_true, decide_eq_true_eq]

theorem Dev.trainResult_wanted (hi : i.toNat = (d.span p).wantId) (hq : q.toNat = (d.span p).wantPort) :
    d.trainResult p (.reached i q) = ((d.spanEnter p 2 0).modSpan p
      (fun y => { y with retrain := false, partnerId := i.toNat, partnerPort := q.toNat })).roomOf p := by
  rw [Dev.trainResult_reached h, if_pos ⟨hi, hq⟩, if_pos ⟨hi, hq⟩]

/-- Another partner leaves the port FAILED, and a FAILED port sends no credits. -/
theorem Dev.trainResult_mismatch (hm : i.toNat ≠ (d.span p).wantId ∨ q.toNat ≠ (d.span p).wantPort) :
    d.trainResult p (.reached i q) = (d.spanEnter p 3 2).modSpan p
      (fun y => { y with retrain := false, partnerId := i.toNat, partnerPort := q.toNat }) := by
  have hno : ¬ (i.toNat = (d.span p).wantId ∧ q.toNat = (d.span p).wantPort) := by tauto
  rw [Dev.trainResult_reached h, if_neg hno, if_neg hno, Dev.roomOf_down]
  simp

end Training

theorem spanTrainResult_does {s : State} {p : PortNo} {res : TrainEnd} {e : Dev} (h : s.dev.trainResult p.val res = e) :
    Does (.spanTrainResult p res) s e :=
  does_of_eq h rfl

theorem Dev.spanRetrain_trains {d : Dev} {p : Nat} (h : (d.span p).st = 3) (he : (d.span p).en = true) :
    d.spanRetrain p = Dev.modSpan { d.spanEnter p 1 0 with
        out := d.out ++ [.spanTraining p d.chip.straps.spanId.toNat] } p (fun y => { y.emptied with retrain := true }) := by
  rw [Dev.spanRetrain, if_pos (by simp [h, he]), Dev.spanTrains, Dev.emit_of_out (d.spanEnter_out p 1 0)]

theorem spanRetrain_does {s : State} {p : PortNo} (hh : s.dev.host.held = []) (hr : s.dev.hostReady = true)
    (hp : s.dev.spanPresent = true) : Does (.spanRetrain p) s (s.dev.spanRetrain p.val) :=
  hosted_does (c := fun d => d.hostReady && d.spanPresent) (f := fun d => d.spanRetrain p.val) rfl hh (by simp [hr, hp])

/-! ### Messages that arrive (R280, R281) -/

theorem Dev.spanArrival_taken {d : Dev} {p channel : Nat} {bytes : List Byte} (h : (d.span p).st = 2)
    (ht : d.spanTakes p channel bytes.length = true) : d.spanArrival p channel bytes =
      { Dev.bumpBy (d.modSpan p (fun x => { x with rx := x.rx ++ [(channel, bytes)] })) (spanRxAt p) bytes.length with
        out := d.out ++ [.spanReply p channel .ack] } := by
  have hout : (Dev.bumpBy (d.modSpan p (fun x => { x with rx := x.rx ++ [(channel, bytes)] })) (spanRxAt p)
      bytes.length).out = d.out := by
    simp [Dev.modSpan]
  exact (if_pos (by simp [h, ht])).trans (Dev.emit_of_out hout _)

theorem Dev.spanArrival_lost {d : Dev} {p channel : Nat} {bytes : List Byte}
    (h : (d.span p).st ≠ 2 ∨ d.spanTakes p channel bytes.length = false) : d.spanArrival p channel bytes = d :=
  if_neg (by obtain h | h := h <;> simp [h])

theorem spanMessageArrival_does {s : State} {p : PortNo} {channel : Byte} {bytes : List Byte} {e : Dev}
    (h : s.dev.spanArrival p.val channel.toNat bytes = e) : Does (.spanMessageArrival p channel bytes) s e :=
  does_of_eq h rfl

theorem Dev.spanTakes_iff {d : Dev} {p n len : Nat} {c : Channel} (hn : n ≠ 255)
    (hc : (d.span p).channels.find? (fun c => decide (c.num = n)) = some c) :
    d.spanTakes p n len = true ↔ (d.span p).waiting n + len ≤ 65536 ∨ (d.span p).held n < c.recvs.length := by
  have ht : n ≠ treeChannel := hn
  simp only [Dev.spanTakes, if_neg ht, hc, Bool.or_eq_true, decide_eq_true_eq]
  rfl

/-! ### What comes back from the partner (R280, R281) -/

section Back
variable {d : Dev} {p : PortNo} {c : Byte}

theorem Dev.spanBack_down (h : (d.span p.val).st ≠ 2) (x : SpanReply) : d.spanBack ⟨p, c, x⟩ = d :=
  if_pos h

variable (h : (d.span p.val).st = 2)
include h

theorem Dev.spanBack_credit (n : Nat) : d.spanBack ⟨p, c, .credit n⟩ =
    d.modSpan p.val (fun x => x.modChannel c.toNat (fun h => { h with credit := h.credit + n })) :=
  if_neg (not_not_intro h)

/-- The acknowledgement of a channel's oldest message ends its SPAN_SEND. -/
theorem Dev.spanBack_ack {k i : Nat} {rest : List (Nat × Nat)}
    (hs : ((d.span p.val).channel c.toNat).sends = (k, i) :: rest) : d.spanBack ⟨p, c, .ack⟩ =
    (d.modSpan p.val (fun x => x.modChannel c.toNat (fun h => { h with sends := rest }))).finish k i := by
  simp only [Dev.spanBack, h, hs, ne_eq, not_true, if_false]

end Back

/-! ### SPAN_SEND (R280 to R282) -/

section Send
variable {d : Dev} {k : Nat}

theorem Dev.spanSend_notReady (h : d.ready k 0x29 = none) : d.spanSend k none = d := by
  simp only [Dev.spanSend, h]

theorem Dev.spanSend_ready {f : Flight} (h : d.ready k 0x29 = some f) : d.spanSend k none = d.spanData k f := by
  simp only [Dev.spanSend, h]

variable {f : Flight}

/-- Without a port that is UP and the credits of the whole message the operation is held. -/
theorem Dev.spanData_held (h : (d.span (OpWord.port f.word)).st ≠ 2 ∨
    ((d.span (OpWord.port f.word)).channel (OpWord.channel f.word)).credit < OpWord.spanBytes f.word) :
    d.spanData k f = d := by
  have hw : (f.op k).w = f.word := rfl
  exact if_pos (by simpa [hw] using h)

theorem Dev.spanData_leaves {d1 : Dev} {bs : List Byte} (h : (d.span (OpWord.port f.word)).st = 2)
    (hc : OpWord.spanBytes f.word ≤ ((d.span (OpWord.port f.word)).channel (OpWord.channel f.word)).credit)
    (hl : d.readRun (whoBlock k (OpWord.hint f.word)) (d.viewOf ((f.op k).at 0) k (firstCell k (OpWord.mask f.word))) 0
      (OpWord.spanBytes f.word) = .ok (d1, bs)) : d.spanData k f =
    Dev.modFlight (Dev.modSpan (Dev.bumpBy { d1.unserve (whoBlock k 0).party with
      out := d1.out ++ [.span (OpWord.port f.word) (OpWord.channel f.word) bs] } (spanTxAt (OpWord.port f.word)) bs.length)
        (OpWord.port f.word) (fun y => y.modChannel (OpWord.channel f.word) (fun h => { h with
          credit := h.credit - OpWord.spanBytes f.word, sends := h.sends ++ [(k, f.index)] }))) k f.index
      (fun y => { y with begun := true }) := by
  have hgo : ¬ (decide ((d.span (OpWord.port f.word)).st ≠ 2) ||
      decide (((d.span (OpWord.port f.word)).channel (OpWord.channel f.word)).credit < OpWord.spanBytes f.word)) = true := by
    simpa [h] using hc
  rw [← Dev.emit_of_out (d1.unserve_out (whoBlock k 0).party)]
  refine (if_neg hgo).trans ?_
  rw [show (f.op k).w = f.word from rfl, hl]
  rfl

end Send

theorem spanSend_does {s : State} {r : Region} {b : Blk} {e : Dev} (h : s.dev.spanSend (4 * r.val + b.val) none = e) :
    Does (.spanSend r ⟨b, .none⟩) s e :=
  does_of_eq h rfl

/-! ### SPAN_RECV (R281) -/

/-- The SPAN_RECV `f` of block `k` is the oldest of its channel. -/
def Span.receives (x : Span) (k : Nat) (f : Flight) : Bool :=
  x.channels.any (fun h => h.num == OpWord.channel f.word && h.recvs.head? == some (k, f.index))

section Recv
variable {d : Dev} {k : Nat}

theorem Dev.spanRecv_notReady (h : d.ready k 0x2A = none) : d.spanRecv k = d := by
  simp only [Dev.spanRecv, h]

variable {f : Flight} (hf : d.ready k 0x2A = some f)
include hf

theorem Dev.spanRecv_noMessage (ht : takeRx (d.span (OpWord.port f.word)).rx (OpWord.channel f.word) = none) :
    d.spanRecv k = d := by
  have hw : (f.op k).w = f.word := rfl
  simp only [Dev.spanRecv, hf, hw, ht]

section Message
variable {bs : List Byte} {rest : List (Nat × List Byte)} {x : Span} (hx : x = d.span (OpWord.port f.word))
  (ht : takeRx x.rx (OpWord.channel f.word) = some (bs, rest))
include hx ht

/-- What a SPAN_RECV does with the oldest message of its channel. -/
theorem Dev.spanRecv_message : d.spanRecv k =
    if x.st ≠ 2 || !x.receives k f then d
    else if bs.length ≠ OpWord.spanBytes f.word then d.regionFault (k / 4) 0x49 6
    else d.planEnd k f (((d.setSpan (OpWord.port f.word) (x.received (OpWord.channel f.word) rest)).emit
      (.spanReply (OpWord.port f.word) (OpWord.channel f.word) (.credit (min bs.length channelBuffer)))).receiveInto
        (f.op k) f.index bs) := by
  subst hx
  have hw : (f.op k).w = f.word := rfl
  simp only [Dev.spanRecv, hf, hw, ht]
  rfl

theorem Dev.spanRecv_waits (h : x.st ≠ 2 ∨ x.receives k f = false) : d.spanRecv k = d :=
  (Dev.spanRecv_message hf hx ht).trans (if_pos (by simpa using h))

section Mine
variable (hup : x.st = 2) (hm : x.receives k f = true)
include hup hm

theorem Dev.spanRecv_mine : d.spanRecv k =
    if bs.length ≠ OpWord.spanBytes f.word then d.regionFault (k / 4) 0x49 6
    else d.planEnd k f (((d.setSpan (OpWord.port f.word) (x.received (OpWord.channel f.word) rest)).emit
      (.spanReply (OpWord.port f.word) (OpWord.channel f.word) (.credit (min bs.length channelBuffer)))).receiveInto
        (f.op k) f.index bs) :=
  (Dev.spanRecv_message hf hx ht).trans (if_neg (by simp [hup, hm]))

theorem Dev.spanRecv_mismatch (hl : bs.length ≠ OpWord.spanBytes f.word) : d.spanRecv k = d.regionFault (k / 4) 0x49 6 :=
  (Dev.spanRecv_mine hf hx ht hup hm).trans (if_pos hl)

/-- A message of the right length is written, and the operation is done unless it leaves through a queue. -/
theorem Dev.spanRecv_takes {d1 : Dev} {q : Bool} (hl : bs.length = OpWord.spanBytes f.word)
    (h1 : Dev.receiveInto { d.setSpan (OpWord.port f.word) (x.received (OpWord.channel f.word) rest) with
      out := d.out ++ [.spanReply (OpWord.port f.word) (OpWord.channel f.word) (.credit (min bs.length 65536))] }
        (f.op k) f.index bs = .ok (d1, q)) : d.spanRecv k = d1.planned k f q :=
  calc d.spanRecv k
    _ = d.planEnd k f (.ok (d1, q)) :=
      (Dev.spanRecv_mine hf hx ht hup hm).trans ((if_neg (not_not_intro hl)).trans (congrArg (d.planEnd k f) h1))
    _ = d1.planned k f q := Dev.planEnd_ok d d1 k f q

end Mine
end Message

theorem Dev.spanRecv_idle (h : takeRx (d.span (OpWord.port f.word)).rx (OpWord.channel f.word) = none ∨
    (d.span (OpWord.port f.word)).st ≠ 2 ∨ (d.span (OpWord.port f.word)).receives k f = false) : d.spanRecv k = d := by
  cases ht : takeRx (d.span (OpWord.port f.word)).rx (OpWord.channel f.word) with
  | none => exact Dev.spanRecv_noMessage hf ht
  | some m => exact Dev.spanRecv_waits hf rfl ht (h.resolve_left (by simp [ht]))

end Recv

theorem spanRecv_does {s : State} {r : Region} {b : Blk} {e : Dev} (h : s.dev.spanRecv (4 * r.val + b.val) = e) :
    Does (.spanRecv r b) s e :=
  does_of_eq h rfl

/-! ### The span timeout (R285) -/

theorem Dev.spanTimed_of_spanOp {d : Dev} {k pos : Nat} {f : Flight} (hf : (d.blk k).fly[pos]? = some f)
    (hd : f.done = false) (ho : OpWord.opcode f.word = 0x29 ∨ OpWord.opcode f.word = 0x2A) : d.spanTimed k pos = true := by
  obtain ho | ho := ho
  · simp [Dev.spanTimed, hf, hd, ho]
  · simp [Dev.spanTimed, hf, hd, ho]

theorem spanTimeout_faults {s : State} {r : Region} {b : Blk} {pos : Fin 32}
    (h : s.dev.spanTimed (4 * r.val + b.val) pos.val = true) :
    Does (.spanTimeout r b pos) s (s.dev.regionFault r.val 0x4A 6) :=
  when_does (c := fun d => d.spanTimed (blkNo r b) pos.val) (f := fun d => d.regionFault r.val codeSpanTimeout 6) rfl h rfl

/-- Settles O35: training by its outcome, a message by the room of its channel, a SPAN_SEND by the credits, and a SPAN_RECV
by the oldest message and its length. -/
theorem spanPorts : Obligations.SpanPorts := by
  unfold Obligations.SpanPorts
  refine ⟨fun s p h => spanTrainResult_does (Dev.trainResult_none h), ?wanted, Dev.roomOf_onlySends,
    fun s p i q h hm => spanTrainResult_does (Dev.trainResult_mismatch h hm),
    fun s p res h => spanTrainResult_does (Dev.trainResult_idle h res),
    fun s p hh hr hp h he => does_of_eq (Dev.spanRetrain_trains h he) (spanRetrain_does hh hr hp),
    fun s p channel bytes h ht => spanMessageArrival_does (Dev.spanArrival_taken h ht),
    fun s p channel bytes h => spanMessageArrival_does (Dev.spanArrival_lost h),
    fun d p n len c => Dev.spanTakes_iff, ?held, fun s r b h => spanSend_does (Dev.spanSend_notReady h),
    fun s r b x => does_of_eq rfl rfl, fun d p c x h => Dev.spanBack_down h x,
    fun d p c n h => Dev.spanBack_credit h n, fun d p c k i rest h => Dev.spanBack_ack h, ?leaves, ?takes, ?idle,
    fun s r b h => spanRecv_does (Dev.spanRecv_notReady h), ?mismatch, fun s r b pos => spanTimeout_faults,
    fun d k pos f => Dev.spanTimed_of_spanOp⟩
  case wanted =>
    intro s p i q h hi hq
    have hport : (BitVec.ofNat 4 q.val).toNat = q.val := by
      rw [BitVec.toNat_ofNat]
      omega
    have hw := Dev.trainResult_wanted h hi (hport.trans hq)
    rw [hport] at hw
    exact spanTrainResult_does hw
  case held =>
    rintro s r b _ _ _ f rfl hf rfl rfl h
    exact spanSend_does ((Dev.spanSend_ready hf).trans (Dev.spanData_held h))
  case leaves =>
    rintro s r b _ f d1 bs rfl hf h hc hl
    exact spanSend_does ((Dev.spanSend_ready hf).trans (Dev.spanData_leaves h hc hl))
  case takes =>
    rintro s r b _ f bs rest d1 x q rfl hf hx hup ht hm hl h1
    have htake := Dev.spanRecv_takes hf hx ht hup hm hl h1
    exact ⟨fun hq => spanRecv_does (htake.trans (by rw [hq, Dev.planned_done])),
      fun hq => spanRecv_does (htake.trans (by rw [hq, Dev.planned_queued]))⟩
  case idle =>
    rintro s r b _ f rfl hf h
    exact spanRecv_does (Dev.spanRecv_idle hf h)
  case mismatch =>
    rintro s r b _ f bs rest x rfl hf hx hup ht hm hl
    refine spanRecv_does ((Dev.spanRecv_mismatch hf hx ht hup hm hl).trans ?_)
    rw [blk_region]

end Sys2Proof.Machine
end

section
/-! The span tree (R280, R284, R286): a device's partial by whether it is the root and whether its vector may flow, and the
value that comes down. -/

namespace Sys2Proof.Machine
open Sys2Proof Sys2Proof.Claims

/-! ### Vectors and their credits (R280) -/

theorem wordBytes_length (l : List Word) : (wordBytes l).length = 4 * l.length := by
  induction l with
  | nil => rfl
  | cons w l ih =>
    have hcons : wordBytes (w :: l) = bytesOf w.toNat 4 ++ wordBytes l := rfl
    rw [hcons, List.length_append, bytesOf_length, ih, List.length_cons]
    omega

theorem Dev.mayFlow_iff (d : Dev) (ps : List Nat) (l : List Word) :
    d.mayFlow ps l = true ↔ ∀ p ∈ ps, 4 * l.length ≤ (d.span p).tree.credit := by
  simp only [Dev.mayFlow, wordBytes_length, List.all_eq_true, decide_eq_true_eq]

/-! ### A step of the domain's oldest round (R284) -/

theorem Dev.treeFinal_flows {d1 : Dev} {t : SpanTree} {vals : List Word} (h : d1.mayFlow t.kids vals = true) (d : Dev)
    (n : Nat) (x : Round) : d1.treeFinal d n t x vals = (d1.sendWords t.kids vals).roundEnds n x vals :=
  if_pos h

theorem Dev.treeFinal_waits {d1 : Dev} {t : SpanTree} {vals : List Word} (h : d1.mayFlow t.kids vals = false) (d : Dev)
    (n : Nat) (x : Round) : d1.treeFinal d n t x vals = d :=
  if_neg (Bool.eq_false_iff.mp h)

/-- The device's own vector combined element by element with the children's partials. -/
def Dev.withPartials (d : Dev) (x : Round) (own : List Word) (ms : List (List Byte)) : List Word :=
  combineAll x.op d.free own.length ((own :: ms.map (partialWords d.free own.length)).map (fun v => v.map ofF32))

section Up
variable {d d1 : Dev} {n : Nat} {t : SpanTree} {x : Round} {own : List Word} {ms : List (List Byte)}
  (hk : d.takeTree t.kids = some (d1, ms))
include hk

theorem Dev.treeUp_root (ht : t.root = true) :
    d.treeUp n t x own = d1.drawn.treeFinal d n t x (d.withPartials x own ms) := by
  simp only [Dev.treeUp, hk, ht, if_true]
  rfl

variable (ht : t.root = false)
include ht

theorem Dev.treeUp_sends (hf : d1.mayFlow [t.parent] (d.withPartials x own ms) = true) :
    d.treeUp n t x own = ((d1.drawn.sendWords [t.parent] (d.withPartials x own ms)).modRounds n (fun l =>
      l.map (fun y => if y.num = x.num then { y with own := some (d.withPartials x own ms), sent := true } else y))).treeRoom
        [t.parent] (d.withPartials x own ms).length := by
  have hgo : ¬ (!d1.mayFlow [t.parent] (d.withPartials x own ms)) = true := by simp [hf]
  simp only [Dev.treeUp, hk, ht, Bool.false_eq_true, if_false]
  exact if_neg hgo

theorem Dev.treeUp_waits (hf : d1.mayFlow [t.parent] (d.withPartials x own ms) = false) : d.treeUp n t x own = d := by
  have hstay : (!d1.mayFlow [t.parent] (d.withPartials x own ms)) = true := by simp [hf]
  simp only [Dev.treeUp, hk, ht, Bool.false_eq_true, if_false]
  exact if_pos hstay

end Up

theorem Dev.spanRound_noTree {d : Dev} {n : Nat} (h : d.spanTree n = none) : d.spanRound n = d := by
  simp only [Dev.spanRound, h]

/-- Ports that a device's rounds of a span tree need: its children's, and its parent's unless it is the root. -/
def SpanTree.ports (t : SpanTree) : List Nat := t.kids ++ (if t.root then [] else [t.parent])

theorem SpanTree.ports_root {t : SpanTree} (h : t.root = true) : t.ports = t.kids := by simp [SpanTree.ports, h]

theorem SpanTree.ports_child {t : SpanTree} (h : t.root = false) : t.ports = t.kids ++ [t.parent] := by
  simp [SpanTree.ports, h]

section Oldest
variable {d : Dev} {n : Nat} {x : Round} {rest : List Round} (hr : d.rounds n = x :: rest)
include hr

/-- A round that waited on a port that failed goes no further (R286). -/
theorem Dev.spanRound_cut (hc : x.cut = true) : d.spanRound n = d := by
  cases ht : d.spanTree n with
  | none => exact Dev.spanRound_noTree ht
  | some t => cases ho : x.own <;> simp [Dev.spanRound, ht, hr, ho, hc]

variable {t : SpanTree} {own : List Word} (ht : d.spanTree n = some t) (ho : x.own = some own) (hc : x.cut = false)
  (hp : ∀ p ∈ t.ports, (d.span p).st = 2)
include ht ho hc hp

theorem Dev.spanRound_up (hs : x.sent = false) : d.spanRound n = d.treeUp n t x own := by
  have hgo : ¬ (x.cut || !t.ports.all (fun p => (d.span p).st == 2)) = true := by simpa [hc] using hp
  simp only [Dev.spanRound, ht, hr, ho, hs]
  exact if_neg hgo

/-- The value that the parent sends down ends the round. -/
theorem Dev.spanRound_down (hs : x.sent = true) {d1 : Dev} {bs : List Byte} {more : List (List Byte)}
    (hk : d.takeTree [t.parent] = some (d1, bs :: more)) :
    d.spanRound n = d1.drawn.treeFinal d n t x (partialWords d.free own.length bs) := by
  have hgo : ¬ (x.cut || !t.ports.all (fun p => (d.span p).st == 2)) = true := by simpa [hc] using hp
  simp only [Dev.spanRound, ht, hr, ho, hs, hk]
  exact if_neg hgo

end Oldest

theorem spanTreeRound_does {s : State} {n : Domain} {e : Dev} (h : s.dev.spanRound n.val = e) :
    Does (.spanTreeRound ⟨n, none⟩) s e :=
  does_of_eq h rfl

/-- Settles O36: the step of the oldest round goes up, at the root or below it, or takes the value that comes down; a vector
of `n` words needs `4 * n` credits. -/
theorem spanTreeRounds : Obligations.SpanTreeRounds := by
  unfold Obligations.SpanTreeRounds
  refine ⟨?root, ?child, ?down, ?final, Dev.mayFlow_iff, fun s n x rest hr hc => spanTreeRound_does (Dev.spanRound_cut hr hc),
    fun s n p c => does_of_eq rfl rfl, fun s n h => spanTreeRound_does (Dev.spanRound_noTree h)⟩
  case root =>
    intro s n t x rest own d1 ms ht hr ho hs hc hroot hp hk
    have hports := SpanTree.ports_root hroot
    exact spanTreeRound_does
      ((Dev.spanRound_up hr ht ho hc (hports ▸ hp) hs).trans (Dev.treeUp_root hk hroot))
  case child =>
    rintro s n t x rest own _ d1 ms ht hr ho hs hc hroot hp hk rfl
    have hports := SpanTree.ports_child hroot
    have hup := Dev.spanRound_up hr ht ho hc (hports ▸ hp) hs
    exact ⟨fun hf => spanTreeRound_does (hup.trans (Dev.treeUp_sends hk hroot hf)),
      fun hf => spanTreeRound_does (hup.trans (Dev.treeUp_waits hk hroot hf))⟩
  case down =>
    intro s n t x rest own d1 bs more ht hr ho hs hc hroot hp hk
    have hports := SpanTree.ports_child hroot
    exact spanTreeRound_does (Dev.spanRound_down hr ht ho hc (hports ▸ hp) hs hk)
  case final => exact fun d1 d n t x vals => ⟨fun h => Dev.treeFinal_flows h d n x, fun h => Dev.treeFinal_waits h d n x⟩

end Sys2Proof.Machine
end

section
/-! The twin link (R287, R288, R290, R456, R491): the states that it enters, an attempt to attach and the answer to it, and
what a detach changes. -/

namespace Sys2Proof.Machine
open Sys2Proof Sys2Proof.Claims

/-! ### Steps under a check, and requests of the host that change nothing -/

theorem checked_does {s : State} {i : Instr} {f : Dev → Dev} {e : Dev} (he : exec i s = s.checked (wellFormed i) f)
    (hw : wellFormed i = true) (hf : f s.dev = e) : Does i s e := by
  rw [Does, he, State.checked, if_pos hw, State.always_next, hf]

theorem hosted_still {s : State} {i : Instr} {c : Dev → Bool} {f : Dev → Dev}
    (he : exec i s = s.hosted i fun d => d.when (c d) f) (hh : s.dev.host.held = []) (hf : f s.dev = s.dev) :
    Does i s s.dev := by
  cases hc : c s.dev with
  | false => exact hosted_idle he hh hc
  | true => exact does_of_eq hf (hosted_does he hh hc)

/-! ### States of the link (R288, R290) -/

theorem Dev.twinEnter_changes {d : Dev} {st : Nat} (h : d.twin.st ≠ st) :
    d.twinEnter st = { d with twin.st := st, ec.inbox := d.ec.inbox ++ [⟨8, true⟩] } :=
  if_neg h

theorem Dev.twinEnter_same {d : Dev} {st : Nat} (h : d.twin.st = st) : d.twinEnter st = d := if_pos h

theorem Dev.attachFails_training {d : Dev} (h : d.twin.st = 1) (code : Nat) :
    d.attachFails code = { d with twin.code := code, twin.st := 0, ec.inbox := d.ec.inbox ++ [⟨8, true⟩] } :=
  Dev.twinEnter_changes (d := { d with twin.code := code }) (by rw [h]; decide)

theorem Dev.attachFails_detached {d : Dev} (h : d.twin.st = 0) (code : Nat) :
    d.attachFails code = { d with twin.code := code } :=
  Dev.twinEnter_same (d := { d with twin.code := code }) h

/-! ### An attempt to attach (R288, R456, R491) -/

theorem Dev.tryAttach_absent {d : Dev} (h : d.twin.present = false) : d.tryAttach = d := if_pos (by simp [h])

section Attempt
variable {d : Dev} (h0 : d.twin.st = 0) (hp : d.twin.present = true) (hr : d.chip.state = .ready)
  (hc : d.clk.coast = false)
include h0 hp hr hc

theorem Dev.tryAttach_free : d.tryAttach = if d.promotedLive ≠ 0 then d.attachFails 6
    else (d.twinEnter 1).emit (.twinHello ⟨d.chip.straps.twinRole, d.twinDigest⟩ d.mirrorAreas) :=
  if_neg (by simp [h0, hp, hr, hc])

theorem Dev.tryAttach_begins (hl : d.promotedLive = 0) : d.tryAttach =
    { d with twin.st := 1, ec.inbox := d.ec.inbox ++ [⟨8, true⟩]
             out := d.out ++ [.twinHello ⟨d.chip.straps.twinRole, d.twinDigest⟩ d.mirrorAreas] } := by
  rw [Dev.tryAttach_free h0 hp hr hc, if_neg (not_not_intro hl), Dev.twinEnter_changes (by rw [h0]; decide)]
  rfl

theorem Dev.tryAttach_refused (hl : d.promotedLive ≠ 0) : d.tryAttach = { d with twin.code := 6 } := by
  rw [Dev.tryAttach_free h0 hp hr hc, if_pos hl, Dev.attachFails_detached h0]

end Attempt

theorem twinAttach_does {s : State} {e : Dev} (hh : s.dev.host.held = []) (hr : s.dev.hostReady = true)
    (h : s.dev.tryAttach = e) : Does .twinAttach s e :=
  does_of_eq h (hosted_does (c := Dev.hostReady) (f := Dev.tryAttach) rfl hh hr)

/-! ### The twin's answer (R288, R450, R491) -/

theorem Dev.twinAnswers_idle {d : Dev} {h : TwinHello} {areas : List MirrorArea} (h1 : d.twin.st ≠ 1) :
    d.twinAnswers h areas = d :=
  if_pos (by simp [h1])

section Answer
variable {d : Dev} {h : TwinHello} {areas : List MirrorArea} (h1 : d.twin.st = 1) (hc : d.clk.coast = false)
include h1 hc

theorem Dev.twinAnswers_training : d.twinAnswers h areas =
    if h.role = d.chip.straps.twinRole then d.attachFails 7
    else if h.digest = d.twinDigest && d.shadowsMatch areas then d.attached
    else d.attachFails 6 :=
  if_neg (by simp [h1, hc])

theorem Dev.twinAnswers_sameRole (hr : h.role = d.chip.straps.twinRole) : d.twinAnswers h areas =
    { d with twin.code := 7, twin.st := 0, ec.inbox := d.ec.inbox ++ [⟨8, true⟩] } := by
  rw [Dev.twinAnswers_training h1 hc, if_pos hr, Dev.attachFails_training h1]

variable (hr : h.role ≠ d.chip.straps.twinRole)
include hr

theorem Dev.twinAnswers_mismatch (hm : h.digest ≠ d.twinDigest ∨ d.shadowsMatch areas = false) :
    d.twinAnswers h areas = { d with twin.code := 6, twin.st := 0, ec.inbox := d.ec.inbox ++ [⟨8, true⟩] } := by
  have hno : ¬ (h.digest = d.twinDigest && d.shadowsMatch areas) = true := by
    obtain hm | hm := hm <;> simp [hm]
  rw [Dev.twinAnswers_training h1 hc, if_neg hr, if_neg hno, Dev.attachFails_training h1]

theorem Dev.twinAnswers_attaches (hd : h.digest = d.twinDigest) (hm : d.shadowsMatch areas = true) :
    d.twinAnswers h areas = Dev.fullCopy { d with
      twin.stream := [], twin.backlog := 0, twin.acks := [], twin.synced := false, twin.shadow := [], twin.linkBeat := false
      twin.edgeBeat := false, twin.everAttached := true, twin.st := 2, ec.inbox := d.ec.inbox ++ [⟨8, true⟩] } := by
  have hyes : (h.digest = d.twinDigest && d.shadowsMatch areas) = true := by simp [hd, hm]
  rw [Dev.twinAnswers_training h1 hc, if_neg hr, if_pos hyes, Dev.attached, Dev.twinEnter_changes (by simp [h1])]

end Answer

theorem twinAttached_does {s : State} {h : TwinHello} {areas : List MirrorArea} {e : Dev}
    (hw : wellFormed (.twinAttached h areas) = true) (he : s.dev.twinAnswers h areas = e) :
    Does (.twinAttached h areas) s e :=
  checked_does rfl hw he

theorem attachFailure_does {s : State} (h : s.dev.twin.st = 1) (why : AttachFail) : Does (.attachFailure why) s
    { s.dev with twin.code := if why = .train then 7 else 6, twin.st := 0, ec.inbox := s.dev.ec.inbox ++ [⟨8, true⟩] } := by
  refine when_does (c := fun d => decide (d.twin.st = 1)) (f := fun d => d.attachFails (if why = .train then 7 else 6)) ?_
    (by simp [h]) (Dev.attachFails_training h _)
  cases why <;> rfl

/-! ### A detach (R290, R295) -/

/-- What a detach discards: the stream, the copy and what waits for acknowledgements; that the shadow was synced is kept. -/
def Dev.detached (d : Dev) (code : Nat) : Dev :=
  { d with twin := { d.twin with
      code := code, promotable := d.twin.synced, synced := false, stream := [], backlog := 0, acks := [], copyAt := none
      posts := d.twin.posts.filter (fun x => decide (x ≠ .ack)) } }

/-- `d` with the twin link, the request table, the counters, the saturation log and the inbox of `e`: all that a detach
changes. -/
def Dev.detachOf (d e : Dev) : Dev :=
  { d with twin := e.twin, serve.reqs := e.serve.reqs, counters := e.counters, chip := e.chip, ec := e.ec }

/-- `e` differs from `d` at most where a detach changes it. -/
def Dev.DetachOnly (d e : Dev) : Prop := e = d.detachOf e

theorem Dev.DetachOnly.trans {a b c : Dev} (h : a.DetachOnly b) (k : b.DetachOnly c) : a.DetachOnly c :=
  Eq.trans k (congrArg (fun x => x.detachOf c) h)

theorem Dev.bump_detachOnly (d : Dev) (off : Nat) : d.DetachOnly (d.bump off) := by
  have hfetch : d.bump off = d.fetchOf (d.bump off) := d.bumpBy_fetchOnly off 1
  calc d.bump off
    _ = d.fetchOf (d.bump off) := hfetch
    _ = d.detachOf (d.bump off) := by simp [Dev.fetchOf, Dev.detachOf]

/-- The requests of a domain deliver: the request table alone changes. -/
theorem Dev.unhold_detachOnly (d : Dev) (n : Nat) : d.DetachOnly (d.unhold n) :=
  foldl_rel (R := Dev.DetachOnly) (f := fun a i => a.modReq i (fun x => { x with ackWait := false })) (fun _ => rfl)
    Dev.DetachOnly.trans (fun _ _ => rfl) _ d

theorem Dev.twinEnter_detachOnly (d : Dev) (st : Nat) : d.DetachOnly (d.twinEnter st) := by
  rw [Dev.twinEnter]
  split
  · rfl
  · rfl

theorem Dev.unhold_twin (d : Dev) (n : Nat) : (d.unhold n).twin = d.twin :=
  foldl_keep Dev.twin _ _ d fun _ _ => rfl

theorem Dev.detach_idle {d : Dev} (h : d.twin.st ≠ 2) (code : Nat) : d.detach code = d := if_pos h

section Detach
variable {d : Dev} (h : d.twin.st = 2) (code : Nat)
include h

theorem Dev.detach_attached : d.detach code =
    (((List.range 12).foldl Dev.unhold (d.detached code)).bump twinDetachesAt).twinEnter 0 :=
  if_neg (not_not_intro h)

theorem Dev.detach_twin : (d.detach code).twin = { (d.detached code).twin with st := 0 } := by
  have htwin : (((List.range 12).foldl Dev.unhold (d.detached code)).bump twinDetachesAt).twin = (d.detached code).twin :=
    calc _
      _ = ((List.range 12).foldl Dev.unhold (d.detached code)).twin := by simp
      _ = (d.detached code).twin := foldl_keep Dev.twin _ _ _ Dev.unhold_twin
  have hst : (((List.range 12).foldl Dev.unhold (d.detached code)).bump twinDetachesAt).twin.st ≠ 0 := by
    rw [htwin]
    exact h ▸ (by decide)
  rw [Dev.detach_attached h, Dev.twinEnter_changes hst, htwin]

theorem Dev.detach_detachOnly : d.DetachOnly (d.detach code) := by
  have hdiscard : d.DetachOnly (d.detached code) := rfl
  have hdeliver := foldl_rel (R := Dev.DetachOnly) (fun _ => rfl) Dev.DetachOnly.trans Dev.unhold_detachOnly (List.range 12)
    (d.detached code)
  rw [Dev.detach_attached h]
  exact (hdiscard.trans hdeliver).trans ((Dev.bump_detachOnly _ _).trans (Dev.twinEnter_detachOnly _ 0))

end Detach

theorem Dev.DetachOnly.serve {d e : Dev} (h : d.DetachOnly e) : e.serve = { d.serve with reqs := e.serve.reqs } :=
  congrArg Dev.serve h

theorem Dev.DetachOnly.frame {d e : Dev} (h : d.DetachOnly e) :
    e = { d with twin := e.twin, ec := e.ec, chip := e.chip, counters := e.counters, serve := e.serve } :=
  Eq.trans h (congrArg (fun x => { d with twin := e.twin, ec := e.ec, chip := e.chip, counters := e.counters, serve := x })
    h.serve.symm)

theorem twinDetach_does {s : State} (hh : s.dev.host.held = []) (hr : s.dev.hostReady = true) :
    Does .twinDetach s (s.dev.detach 5) :=
  hosted_does (c := Dev.hostReady) (f := fun d => d.detach 5) rfl hh hr

/-! ### The acknowledgement of step records (R290) -/

theorem isStepRecord_iff {x : TwinItem} : isStepRecord x = true ↔
    ∃ (seq : BitVec 32) (step : BitVec 16) (n : BitVec 4) (parts : List TwinPart), x = .record seq step n false parts := by
  cases x with
  | record seq step n command parts => cases command <;> simp [isStepRecord]
  | _ => simp [isStepRecord]

theorem ackTimeout_detaches {s : State} (h : s.dev.twin.stream.any isStepRecord = true) :
    Does .ackTimeout s (s.dev.detach 4) :=
  when_does (c := fun d => d.twin.stream.any isStepRecord) (f := fun d => d.detach 4) rfl h rfl

theorem ackTimeout_idle {s : State} (h : s.dev.twin.stream.any isStepRecord = false) : Does .ackTimeout s s.dev :=
  when_idle (c := fun d => d.twin.stream.any isStepRecord) (f := fun d => d.detach 4) rfl h

/-! ### Presence (R287) -/

theorem Dev.presence_same {d : Dev} {level : Bool} (h : d.twin.present = level) :
    d.presence level = { d with pins.twinPresentIn := level } :=
  if_pos (by simp [h])

theorem Dev.state_of_regsLive {d : Dev} (h : d.regsLive = true) : d.chip.state ≠ .off ∧ d.chip.state ≠ .thermalOff := by
  constructor
  · intro hs
    simp [Dev.regsLive, hs] at h
  · intro hs
    simp [Dev.regsLive, hs] at h

theorem Dev.presence_lost {d : Dev} (hl : d.regsLive = true) (hp : d.twin.present = true) (h2 : d.twin.st = 2) :
    d.presence false = Dev.detach { d with pins.twinPresentIn := false, twin.present := false } 1 := by
  obtain ⟨hoff, hthermal⟩ := Dev.state_of_regsLive hl
  exact (if_neg (by simp [hoff, hthermal, hp])).trans (if_pos h2)

theorem twinPresentInChange_does {s : State} {level : Bool} {e : Dev} (h : s.dev.presence level = e) :
    Does (.twinPresentInChange level) s e :=
  does_of_eq h rfl

/-- Settles O53: an attempt by its conditions, an answer by role, digest and areas, a detach by what it discards and by the
fields that it leaves. -/
theorem twinAttachment : Obligations.TwinAttachment := by
  unfold Obligations.TwinAttachment
  refine ⟨?begins, ?refused, ?absent, ?fails, ?attaches, fun s h areas hw h1 => twinAttached_does hw (Dev.twinAnswers_idle h1),
    fun s why h => attachFailure_does h why, ?detaches, fun d code h => Dev.detach_idle h code,
    fun s => twinDetach_does, ?ackTimeout, ?ackIdle, fun s level h => twinPresentInChange_does (Dev.presence_same h),
    fun s hl hp h2 => twinPresentInChange_does (Dev.presence_lost hl hp h2)⟩
  case begins =>
    exact fun s hh hr h0 hp hready hc hl => twinAttach_does hh hr (Dev.tryAttach_begins h0 hp hready hc hl)
  case refused =>
    exact fun s hh hr h0 hp hready hc hl => twinAttach_does hh hr (Dev.tryAttach_refused h0 hp hready hc hl)
  case absent =>
    exact fun s hh hp => hosted_still (c := Dev.hostReady) (f := Dev.tryAttach) rfl hh (Dev.tryAttach_absent hp)
  case fails =>
    exact fun s h areas hw h1 hc =>
      ⟨fun hr => twinAttached_does hw (Dev.twinAnswers_sameRole h1 hc hr),
        fun hr hm => twinAttached_does hw (Dev.twinAnswers_mismatch h1 hc hr hm)⟩
  case attaches =>
    exact fun s h areas hw h1 hc hr hd hm => twinAttached_does hw (Dev.twinAnswers_attaches h1 hc hr hd hm)
  case detaches =>
    intro d code h
    have honly := Dev.detach_detachOnly h code
    exact ⟨d.detach code, rfl, Dev.detach_twin h code, honly.frame, honly.serve⟩
  case ackTimeout =>
    exact fun s seq step n parts h =>
      ackTimeout_detaches (List.any_eq_true.mpr ⟨_, h, isStepRecord_iff.mpr ⟨seq, step, n, parts, rfl⟩⟩)
  case ackIdle =>
    refine fun s h => ackTimeout_idle (List.any_eq_false.mpr fun x hx hrec => ?_)
    obtain ⟨seq, step, n, parts, rfl⟩ := isStepRecord_iff.mp hrec
    exact h seq step n parts hx

end Sys2Proof.Machine
end

section
/-! Heartbeats and link replays (R272, R273, R289, R290, R482): beats that are sent and noted, the heartbeat time by what was
noted in it, and a replay by the failures of its flit before it. -/

namespace Sys2Proof.Machine
open Sys2Proof Sys2Proof.Claims

/-! ### Heartbeats (R289, R290, R482) -/

section Beats
variable {s : State}

section Attached
variable (h : s.dev.twin.st = 2)
include h

theorem twinHeartbeatSend_does (hc : s.dev.clk.coast = false) :
    Does .twinHeartbeatSend s { s.dev with out := s.dev.out ++ [.twinHeartbeat] } :=
  when_does (c := fun d => decide (d.twin.st = 2) && !d.clk.coast) (f := fun d => d.emit .twinHeartbeat) rfl
    (by simp [h, hc]) rfl

theorem linkHeartbeatArrival_does (hc : s.dev.clk.coast = false) :
    Does .linkHeartbeatArrival s { s.dev with twin.linkBeat := true } :=
  when_does (c := fun d => decide (d.twin.st = 2) && !d.clk.coast) (f := fun d => { d with twin.linkBeat := true }) rfl
    (by simp [h, hc]) rfl

theorem heartbeatTimeout_does {e : Dev} (he : s.dev.heartbeatTimeout = e) : Does .heartbeatTimeout s e :=
  when_does (c := fun d => decide (d.twin.st = 2)) (f := Dev.heartbeatTimeout) rfl (by simp [h]) he

end Attached

section Detached
variable (h : s.dev.twin.st ≠ 2)
include h

theorem twinHeartbeatSend_idle : Does .twinHeartbeatSend s s.dev :=
  when_idle (c := fun d => decide (d.twin.st = 2) && !d.clk.coast) (f := fun d => d.emit .twinHeartbeat) rfl (by simp [h])

theorem linkHeartbeatArrival_idle : Does .linkHeartbeatArrival s s.dev :=
  when_idle (c := fun d => decide (d.twin.st = 2) && !d.clk.coast) (f := fun d => { d with twin.linkBeat := true }) rfl
    (by simp [h])

theorem heartbeatTimeout_idle : Does .heartbeatTimeout s s.dev :=
  when_idle (c := fun d => decide (d.twin.st = 2)) (f := Dev.heartbeatTimeout) rfl (by simp [h])

end Detached

theorem twinHbToggle_does (h : s.dev.hbDriven = true) :
    Does .twinHbToggle s { s.dev with twin.hbOut := !s.dev.twin.hbOut } :=
  when_does (c := Dev.hbDriven) (f := fun d => { d with twin.hbOut := !d.twin.hbOut }) rfl h rfl

theorem twinHbToggle_idle (h : s.dev.hbDriven = false) : Does .twinHbToggle s s.dev :=
  when_idle (c := Dev.hbDriven) (f := fun d => { d with twin.hbOut := !d.twin.hbOut }) rfl h

end Beats

theorem Dev.hbEdge_noted {d : Dev} {level : Bool} (h : d.twin.hbLevel ≠ level) : d.hbEdge level = { d with
    pins.twinHbIn := level, twin.hbLevel := level, twin.edgeBeat := d.twin.edgeBeat || decide (d.twin.st = 2) } :=
  if_neg h

theorem Dev.heartbeatTimeout_again {d : Dev} (h : d.twin.linkBeat = true) :
    d.heartbeatTimeout = { d with twin.linkBeat := false, twin.edgeBeat := false } :=
  if_pos h

/-- A time with no link heartbeat ends the attachment, with the code by the edges. -/
theorem Dev.heartbeatTimeout_ends {d : Dev} (h : d.twin.linkBeat = false) :
    d.heartbeatTimeout = d.detach (if d.twin.edgeBeat then 3 else 2) :=
  if_neg (Bool.eq_false_iff.mp h)

/-! ### The number of a link and its channel (R268) -/

/-- The link that a number belongs to. -/
def linkOfKey (k : Nat) : Link :=
  if k < 3000 then .fabric (Fin.ofNat 14 (k / 150)) (Fin.ofNat 6 (k / 25))
  else if k < 3100 then .bond (Fin.ofNat 24 (k - 3000))
  else if k < 3200 then .span (Fin.ofNat 12 (k - 3100))
  else .twin

theorem linkOfKey_linkKey (l : Link) (c : Fin 25) : linkOfKey (linkKey l c) = l := by
  cases l with
  | fabric r dir =>
    have hk : (r.val * 6 + dir.val) * 25 + c.val < 3000 := by omega
    have hr : Fin.ofNat 14 (((r.val * 6 + dir.val) * 25 + c.val) / 150) = r := Fin.ext (by simp; omega)
    have hdir : Fin.ofNat 6 (((r.val * 6 + dir.val) * 25 + c.val) / 25) = dir := Fin.ext (by simp; omega)
    rw [linkKey, linkOfKey, if_pos hk, hr, hdir]
  | bond st =>
    have hlo : ¬ 3000 + st.val < 3000 := by omega
    have hhi : 3000 + st.val < 3100 := by omega
    rw [linkKey, linkOfKey, if_neg hlo, if_pos hhi, Nat.add_sub_cancel_left, Fin.ofNat_val_eq_self]
  | span p =>
    have h0 : ¬ 3100 + p.val < 3000 := by omega
    have hlo : ¬ 3100 + p.val < 3100 := by omega
    have hhi : 3100 + p.val < 3200 := by omega
    rw [linkKey, linkOfKey, if_neg h0, if_neg hlo, if_pos hhi, Nat.add_sub_cancel_left, Fin.ofNat_val_eq_self]
  | twin => rfl

/-- Links have numbers of their own, and so has each channel of a fabric link. -/
theorem linkKey_inj {l m : Link} {b c : Fin 25} (h : linkKey l b = linkKey m c) :
    l = m ∧ ((∃ (r : Router) (dir : Fin 6), l = .fabric r dir) → b = c) := by
  obtain rfl : l = m := by rw [← linkOfKey_linkKey l b, h, linkOfKey_linkKey]
  refine ⟨rfl, ?_⟩
  rintro ⟨r, dir, rfl⟩
  exact Fin.ext (Nat.add_left_cancel h)

/-! ### Replays (R272, R273) -/

section Replay
variable {d : Dev} {l : Link} {c : Fin 25}

theorem Dev.replay_succeeds : d.replay l c false = { d.bump (replaysAt l) with
    net.fails := Tab.write (fun _ => 0) d.net.fails (linkKey l c) 0 } := by
  have hnet : (d.bump (replaysAt l)).net = d.net := by simp
  rw [← hnet]
  rfl

theorem Dev.replay_fails (h : Tab.read (fun _ => 0) d.net.fails (linkKey l c) < 7) : d.replay l c true =
    { d.bump (replaysAt l) with
      net.fails := Tab.write (fun _ => 0) d.net.fails (linkKey l c)
        (Tab.read (fun _ => 0) d.net.fails (linkKey l c) + 1) } := by
  have hnet : (d.bump (replaysAt l)).net.fails = d.net.fails := by simp
  refine (if_pos (Nat.succ_lt_succ h)).trans ?_
  rw [hnet]
  rfl

/-- The eighth failure in a row ends the link, and its flit's count begins again. -/
theorem Dev.replay_eighth (h : Tab.read (fun _ => 0) d.net.fails (linkKey l c) = 7) : d.replay l c true =
    Dev.linkFails { d.bump (replaysAt l) with net.fails := Tab.write (fun _ => 0) d.net.fails (linkKey l c) 0 } l := by
  have hnet : (d.bump (replaysAt l)).net.fails = d.net.fails := by simp
  have hnot : ¬ Tab.read (fun _ => 0) d.net.fails (linkKey l c) + 1 < 8 := by omega
  refine (if_neg hnot).trans ?_
  rw [hnet]

end Replay

section LinkReplay
variable {s : State} {l : Link} {c : Fin 25} {failed : Bool}

theorem linkReplay_does {e : Dev} (h : s.dev.linkRuns l = true) (he : s.dev.replay l c failed = e) :
    Does (.linkReplay ⟨l, c, failed⟩) s e :=
  when_does (c := fun d => d.linkRuns l) (f := fun d => d.replay l c failed) rfl h he

theorem linkReplay_idle (h : s.dev.linkRuns l = false) : Does (.linkReplay ⟨l, c, failed⟩) s s.dev :=
  when_idle (c := fun d => d.linkRuns l) (f := fun d => d.replay l c failed) rfl h

end LinkReplay

/-- Settles O54: beats by whether the twin is attached, the heartbeat time by what was noted in it, and a replay by the
failures before it; the number of a link gives the link back. -/
theorem heartbeatsAndReplays : Obligations.HeartbeatsAndReplays := by
  unfold Obligations.HeartbeatsAndReplays
  refine ⟨fun s h hc => ⟨twinHeartbeatSend_does h hc, linkHeartbeatArrival_does h hc⟩,
    fun s h => ⟨twinHeartbeatSend_idle h, linkHeartbeatArrival_idle h, heartbeatTimeout_idle h⟩,
    fun s => twinHbToggle_does, fun s => twinHbToggle_idle, fun s level h => does_of_eq (Dev.hbEdge_noted h) rfl,
    fun s h hb => heartbeatTimeout_does h (Dev.heartbeatTimeout_again hb), ?link, ?heartbeat, ?replay,
    fun l m b c => linkKey_inj, fun d => rfl, ?bond, fun s l c failed => linkReplay_idle⟩
  case link =>
    exact fun s h hb he => heartbeatTimeout_does h ((Dev.heartbeatTimeout_ends hb).trans (by rw [he]; rfl))
  case heartbeat =>
    exact fun s h hb he => heartbeatTimeout_does h ((Dev.heartbeatTimeout_ends hb).trans (by rw [he]; rfl))
  case replay =>
    rintro s l c _ rfl hl
    exact ⟨linkReplay_does hl Dev.replay_succeeds, fun h => linkReplay_does hl (Dev.replay_fails h)⟩
  case bond => exact fun s st c hl h => linkReplay_does hl (Dev.replay_eighth h)

end Sys2Proof.Machine
end

section
/-! The mirror stream and promotion (R292 to R294, R296, R453, R454): a received item, what it leaves to write, an
acknowledgement by the oldest item, a repair read by what the load answers, and a promotion by its refusal and entry by
entry. -/

namespace Sys2Proof.Machine
open Sys2Proof Sys2Proof.Claims

/-! ### What is received (R292, R293) -/

section Post
variable {d : Dev} (h : d.twin.posts = [])
include h

/-- With nothing before it, what is received is applied at once. -/
theorem Dev.post_empty (x : TwinPost) :
    d.post x = Dev.postAll { d with twin.posts := [x] } [x] := by
  rw [Dev.post, h]
  rfl

theorem Dev.post_ack (h2 : d.twin.st = 2) : d.post .ack = d.emit .twinAck := by
  have hsent : Dev.postOne { d with twin.posts := [.ack] } .ack =
      .ok (Dev.emit { d with twin.posts := [.ack] } .twinAck) := congrArg Except.ok (if_pos h2)
  rw [Dev.post_empty h, Dev.postAll, hsent]
  calc ({ Dev.emit { d with twin.posts := [.ack] } .twinAck with twin.posts := [] } : Dev)
    _ = Dev.emit { d with twin.posts := [] } .twinAck := rfl
    _ = d.emit .twinAck := by rw [← h]

variable {a : Nat} {bs : List Byte}

theorem Dev.post_stored {d1 : Dev} (hs : Dev.store { d with twin.posts := [.bytes a bs] } postWho a bs = .ok d1) :
    d.post (.bytes a bs) = { d1.unserve postWho.party with twin.posts := [] } := by
  rw [Dev.post_empty h]
  simp only [Dev.postAll, Dev.postOne, hs]

/-- A write whose cells are busy stays, and waits for them. -/
theorem Dev.post_busy {cks : List Nat} {p : Party}
    (hs : Dev.store { d with twin.posts := [.bytes a bs] } postWho a bs = .error (.busy cks p)) :
    d.post (.bytes a bs) = Dev.awaitCells { d with twin.posts := [.bytes a bs] } cks (.party p) := by
  rw [Dev.post_empty h]
  simp only [Dev.postAll, Dev.postOne, hs]
  rfl

end Post

section ApplyPart
variable {d : Dev} {p : TwinPart} {step : BitVec 16} {n : Nat}

theorem Dev.applyPart_table (ha : d.shadowAddr p.entry = none)
    (hx : Shadow.state ⟨n, step, p.req, d.partToken p⟩ ≠ .free) :
    d.applyPart step n p = d.drawn.setShadow p.entry (some ⟨n, step, p.req, d.partToken p⟩) := by
  have hno : (d.drawn.setShadow p.entry (some ⟨n, step, p.req, d.partToken p⟩)).shadowAddr p.entry = none := ha
  simp only [Dev.applyPart, if_neg hx, Dev.shadowBytes, hno]

/-- With a RECORDS area the entry is written to memory too. -/
theorem Dev.applyPart_memory {d1 : Dev} {a : Nat} {x : Shadow} (hx : x = ⟨n, step, p.req, d.partToken p⟩)
    (h1 : d1 = d.drawn.setShadow p.entry (if x.state = .free then none else some x)) (ha : d1.shadowAddr p.entry = some a) :
    d.applyPart step n p = d1.drawn.post (.bytes a ((List.range 128).map (Config.freeByte d1.free))) := by
  have hput : d.applyPart step n p = d1.shadowBytes p.entry := by
    subst hx h1
    rfl
  rw [hput, Dev.shadowBytes, ha]

end ApplyPart

section RecordApply
variable {s : State} {item : TwinItem} (hw : wellFormed (.twinRecordApply item) = true)
include hw

theorem twinRecordApply_does {e : Dev} (h2 : s.dev.twin.st = 2) (hc : s.dev.clk.coast = false)
    (h : s.dev.applyItem item = e) : Does (.twinRecordApply item) s e :=
  checked_does rfl hw ((if_pos (by simp [h2, hc])).trans h)

/-- An item that would leave the device as it is leaves it, attached or not. -/
theorem twinRecordApply_still (h : s.dev.applyItem item = s.dev) : Does (.twinRecordApply item) s s.dev :=
  checked_does rfl hw (ite_eq_right_iff.mpr fun _ => h)

end RecordApply

/-! ### Acknowledgements (R294, R450) -/

theorem Dev.settleAcks_open {d : Dev} (h : ∀ a ∈ d.twin.acks, a.acked = false ∨ a.reqs ≠ []) : d.settleAcks = d := by
  have hnone : d.twin.acks.find? (fun a => a.acked && a.reqs.isEmpty) = none :=
    List.find?_eq_none.mpr fun a ha => by obtain h | h := h a ha <;> simp [h]
  simp only [Dev.settleAcks, hnone]

theorem Dev.settleAcks_last {d : Dev} {a : Ack} (h : d.twin.acks = [a]) (hk : a.acked = true) (hr : a.reqs = []) :
    d.settleAcks = { d with twin.acks := [], twin.ackTime := d.now - a.since } := by
  simp [Dev.settleAcks, h, hk, hr]

section Acked
variable {d d1 : Dev} {seq : Nat} (h1 : d1 = d.bump 0x3800018)
include h1

theorem Dev.recordAcked_noStep (h : d.twin.acks.find? (fun a => decide (a.seq = seq)) = none) :
    d.recordAcked seq = d1 := by
  have hnone : (d.bump twinRecordsAt).twin.acks.find? (fun a => decide (a.seq = seq)) = none := by simpa using h
  simp only [Dev.recordAcked, hnone]
  exact h1.symm

/-- The deliveries held for the step go. -/
theorem Dev.recordAcked_step {q : Ack} (h : d.twin.acks.find? (fun a => decide (a.seq = seq)) = some q) :
    d.recordAcked seq = (Dev.unhold { d1 with twin.acks := d1.twin.acks.map (fun a =>
      { a with acked := a.acked || decide (a.seq = seq) }) } q.dom).settleAcks := by
  have hsome : (d.bump twinRecordsAt).twin.acks.find? (fun a => decide (a.seq = seq)) = some q := by simpa using h
  subst h1
  simp only [Dev.recordAcked, hsome]
  rfl

end Acked

section Stream
variable {d : Dev}

theorem Dev.ackReceived_none (h : d.twin.stream = []) : d.ackReceived = d := by
  simp only [Dev.ackReceived, h, nextAcked]

theorem Dev.ackReceived_copyEnd {a : BitVec 48} {bs : List Byte} {rest : List TwinItem}
    (h : d.twin.stream = .write a bs :: .copyEnd :: rest) :
    d.ackReceived = { d with twin.stream := rest, twin.synced := true } := by
  simp only [Dev.ackReceived, h, nextAcked]

theorem Dev.ackReceived_record {seq : BitVec 32} {step : BitVec 16} {n : BitVec 4} {c : Bool} {parts : List TwinPart}
    {rest : List TwinItem} (h : d.twin.stream = .record seq step n c parts :: rest) :
    d.ackReceived = Dev.recordAcked { d with twin.stream := rest } seq.toNat := by
  simp only [Dev.ackReceived, h, nextAcked]

end Stream

theorem twinAckReceived_does {s : State} {e : Dev} (h2 : s.dev.twin.st = 2) (h : s.dev.ackReceived = e) :
    Does .twinAckReceived s e :=
  when_does (c := fun d => decide (d.twin.st = 2)) (f := Dev.ackReceived) rfl (by simp [h2]) h

/-! ### Repair reads (R296) -/

section Repair
variable {d : Dev} {a len : Nat}

theorem Dev.repairRead_data {d1 : Dev} {bs : List Byte} (h : d.load repairWho a len = .ok (d1, bs)) :
    d.repairRead a len = (d1.unserve repairWho.party).emit (.twinRepair (some bs)) := by
  simp only [Dev.repairRead, h]

theorem Dev.repairRead_refused (h : d.load repairWho a len = .error .unmapped) :
    d.repairRead a len = (d.unserve repairWho.party).emit (.twinRepair none) := by
  simp only [Dev.repairRead, h]

end Repair

theorem twinRepairRead_does {s : State} {addr : BitVec 48} {len : Nat} {e : Dev}
    (hw : wellFormed (.twinRepairRead addr len) = true) (h2 : s.dev.twin.st = 2) (hc : s.dev.clk.coast = false)
    (h : s.dev.repairRead addr.toNat len = e) : Does (.twinRepairRead addr len) s e :=
  checked_does rfl hw ((if_pos (by simp [h2, hc])).trans h)

/-! ### TWIN_PROMOTE (R453) -/

section Refusal
variable {d : Dev}

theorem Dev.promoteRefusal_attached (h : d.twin.st ≠ 0) : d.promoteRefusal = 1 := if_pos h

section Detached
variable (h : d.twin.st = 0)
include h

theorem Dev.promoteRefusal_notPromotable (hp : d.twin.promotable = false) : d.promoteRefusal = 2 := by
  simp [Dev.promoteRefusal, h, hp]

variable (hp : d.twin.promotable = true)
include hp

theorem Dev.promoteRefusal_noDomain (hd : (d.domEnt d.twin.dstDomain).isNone = true) : d.promoteRefusal = 3 := by
  simp only [Dev.promoteRefusal, h, hp, hd, ne_eq, not_true, Bool.not_true, Bool.false_eq_true, if_false, if_true]

theorem Dev.promoteRefusal_noPage (hd : (d.domEnt d.twin.dstDomain).isSome = true)
    (hg : d.pennant d.twin.promotePage = false) : d.promoteRefusal = 4 := by
  have hsome : (d.domEnt d.twin.dstDomain).isNone = false := by simpa using hd
  simp [Dev.promoteRefusal, h, hp, hsome, hg]

end Detached
end Refusal

/-- The device once a write of TWIN_PROMOTE has set its fields. -/
def Dev.promoteFields (d : Dev) (v : Nat) : Dev :=
  { d with twin.dstDomain := fieldAt v 20 4, twin.srcDomain := fieldAt v 16 4 }

theorem Dev.promote_fields {d : Dev} {v : Nat} (h : bitAt v 31 = false ∨ d.twin.promoting.isSome = true) :
    d.promote v = d.promoteFields v :=
  if_pos (by simpa using h)

section Go
variable {d : Dev} {v : Nat} (hgo : bitAt v 31 = true) (hidle : d.twin.promoting = none)
include hgo hidle

theorem Dev.promote_goes : ¬ (!bitAt v 31 || (d.promoteFields v).twin.promoting.isSome) = true := by
  have hnone : (d.promoteFields v).twin.promoting = none := hidle
  simp [hgo, hnone]

theorem Dev.promote_badPennant (hb : (d.promoteFields v).pennantBad (d.promoteFields v).twin.promotePage = true) :
    d.promote v = (d.promoteFields v).chipFault 0x82 :=
  (if_neg (Dev.promote_goes hgo hidle)).trans (if_pos hb)

variable (hb : (d.promoteFields v).pennantBad (d.promoteFields v).twin.promotePage = false)
include hb

theorem Dev.promote_refused (hr : (d.promoteFields v).promoteRefusal ≠ 0) : d.promote v =
    { d.promoteFields v with twin.promoteCode := (d.promoteFields v).promoteRefusal } := by
  obtain ⟨code, hcode⟩ := Nat.exists_eq_succ_of_ne_zero hr
  rw [hcode]
  refine (if_neg (Dev.promote_goes hgo hidle)).trans ((if_neg (Bool.eq_false_iff.mp hb)).trans ?_)
  rw [← Dev.promoteFields, hcode]
  rfl

theorem Dev.promote_begins {q : Promotion} (hr : (d.promoteFields v).promoteRefusal = 0)
    (hq : q = ⟨(d.promoteFields v).twin.srcDomain, (d.promoteFields v).twin.dstDomain,
      (d.promoteFields v).twin.promotePage, false⟩) : d.promote v =
    Dev.promoteAll { d.promoteFields v with twin.promoteCode := 0, twin.promoteCount := 0, twin.promoting := some q } q
      ((d.promoteFields v).twin.shadow.filter (fun e => e.2.any (fun x => decide (x.domain = q.src)))) := by
  subst hq
  refine (if_neg (Dev.promote_goes hgo hidle)).trans ((if_neg (Bool.eq_false_iff.mp hb)).trans ?_)
  rw [← Dev.promoteFields, hr]
  rfl

end Go

theorem twinPromote_does {s : State} {v : Word} {e : Dev} (hh : s.dev.host.held = []) (hr : s.dev.hostReady = true)
    (h : s.dev.promote v.toNat = e) : Does (.twinPromote v) s e :=
  does_of_eq h (hosted_does (c := Dev.hostReady) (f := fun d => d.promote v.toNat) rfl hh hr)

/-! ### Entries that are promoted (R454) -/

section PromoteAll
variable {d : Dev} {q : Promotion} {i : Nat} {x : Shadow} (r : List (Nat × Option Shadow))

theorem Dev.promoteAll_nil (d : Dev) (q : Promotion) :
    d.promoteAll q [] = Dev.prompt { d with twin.promoting := none } q.dst :=
  rfl

theorem Dev.promoteAll_next {d1 : Dev} (h : d.promoteOne q.dst q.page i x = .ok d1) :
    d.promoteAll q ((i, some x) :: r) = d1.promoteAll { q with waited := false } r := by
  rw [Dev.promoteAll, h]
  rfl

/-- An entry whose log entry meets busy cells waits, and the promotion with it. -/
theorem Dev.promoteAll_busy {cks : List Nat} {p : Party} (h : d.promoteOne q.dst q.page i x = .error (.busy cks p)) :
    d.promoteAll q ((i, some x) :: r) = Dev.awaitCells { d with twin.promoting := some q } cks (.party p) := by
  have hsame : ({ q with waited := q.waited || Stop.onPage (.busy cks p) } : Promotion) = q := by simp [Stop.onPage]
  rw [Dev.promoteAll, h]
  calc d.promoteWaits q (.busy cks p)
    _ = Dev.awaitCells { d with
          twin.promoting := some { q with waited := q.waited || Stop.onPage (.busy cks p) } } cks (.party p) := rfl
    _ = Dev.awaitCells { d with twin.promoting := some q } cks (.party p) := by rw [hsame]

end PromoteAll

theorem Dev.promoteOne_logged {d d1 : Dev} {n page i k : Nat} {x : Shadow} {p : Dev × Nat × Nat}
    (hp : p = d.promoteEntry n x) (hk : k = p.1.twin.promoteCount)
    (h : p.1.store promoteWho (p.1.windowAddr page (16 * k)) (logEntry i p.2.2 p.2.1 x) = .ok d1) :
    d.promoteOne n page i x =
      .ok { (d1.unserve promoteWho.party).setShadow i none with twin.promoteCount := k + 1 } := by
  have hlog : p.1.writeLog page k (logEntry i p.2.2 p.2.1 x) = .ok (d1.unserve promoteWho.party) := by
    rw [Dev.writeLog, h]
  subst hp hk
  rw [Dev.promoteOne, Acc.andThen_eq hlog]
  rfl

theorem Dev.promoteEntry_parked {x : Shadow} (h : x.state = .parked ∨ x.state = .parking ∨ x.state = .resuming) (d : Dev)
    (n : Nat) : d.promoteEntry n x = (d, 2, 0) := by
  obtain h | h | h := h
  · simp only [Dev.promoteEntry, h]
  · simp only [Dev.promoteEntry, h]
  · simp only [Dev.promoteEntry, h]

/-- The domain field of a configuration word, replaced. -/
theorem domainField_replaced {w n : Nat} (hw : w < 2 ^ 32) (hn : n < 16) :
    fieldAt (BitVec.ofNat 32 (w - atBit (fieldAt w 24 4) 24 + atBit n 24)).toNat 24 4 = n := by
  simp only [fieldAt, atBit, BitVec.toNat_ofNat]
  omega

theorem Shadow.entry_domain (x : Shadow) {n : Nat} (hn : n < 16) (now order : Nat) :
    Req.domain (x.entry n now order) = n :=
  domainField_replaced (x.req.getD 1 0).isLt hn

/-- Settles O55: an item and its writes, an acknowledgement by the oldest item of the stream, a promotion by the first
condition that fails and then entry by entry. -/
theorem mirrorAndPromotion : Obligations.MirrorAndPromotion := by
  unfold Obligations.MirrorAndPromotion
  refine ⟨fun s seq step n c parts hw h2 hc => twinRecordApply_does hw h2 hc rfl, ?write, ?post,
    fun d h h2 => Dev.post_ack h h2, ?outside, fun d step n p ha hx => Dev.applyPart_table ha hx,
    fun d d1 step n a p x hx h1 ha => Dev.applyPart_memory hx h1 ha,
    fun s a bs rest h2 h => twinAckReceived_does h2 (Dev.ackReceived_copyEnd h), ?acked,
    fun d => Dev.settleAcks_open, fun d a => Dev.settleAcks_last,
    fun s h2 h => twinAckReceived_does h2 (Dev.ackReceived_none h),
    fun s addr len d1 bs hw h2 hc h => twinRepairRead_does hw h2 hc (Dev.repairRead_data h),
    fun s addr len hw h2 hc h => twinRepairRead_does hw h2 hc (Dev.repairRead_refused h), ?promote, ?promoteAll,
    fun d d1 n page i k x p => Dev.promoteOne_logged, ?refusal, fun d n x h => Dev.promoteEntry_parked h d n, ?entry⟩
  case write =>
    exact fun s a bs hw h2 hc hin => twinRecordApply_does hw h2 hc (if_pos hin)
  case post =>
    rintro d _ a bs h rfl
    exact ⟨fun d1 hs => Dev.post_stored h hs, fun cks p hs => Dev.post_busy h hs⟩
  case outside =>
    exact fun s a bs hw hout => twinRecordApply_still hw (if_neg (Bool.eq_false_iff.mp hout))
  case acked =>
    intro s seq step n c parts rest h2 h
    have hrec := Dev.ackReceived_record h
    exact ⟨fun hq => twinAckReceived_does h2 (hrec.trans (Dev.recordAcked_noStep rfl hq)),
      fun q d1 hq h1 => twinAckReceived_does h2 (hrec.trans (Dev.recordAcked_step h1 hq))⟩
  case promote =>
    rintro s v _ hh hr rfl
    exact ⟨fun h => twinPromote_does hh hr (Dev.promote_fields h),
      fun hgo hidle hb => twinPromote_does hh hr (Dev.promote_badPennant hgo hidle hb),
      fun hgo hidle hb =>
        ⟨fun href => twinPromote_does hh hr (Dev.promote_refused hgo hidle hb href),
          fun q href hq => twinPromote_does hh hr (Dev.promote_begins hgo hidle hb href hq)⟩⟩
  case promoteAll =>
    exact fun d q i x r => ⟨Dev.promoteAll_nil d q, fun d1 h => Dev.promoteAll_next r h,
      fun cks p h => Dev.promoteAll_busy r h⟩
  case refusal =>
    exact fun d => ⟨Dev.promoteRefusal_attached, Dev.promoteRefusal_notPromotable, Dev.promoteRefusal_noDomain,
      Dev.promoteRefusal_noPage⟩
  case entry => exact fun x n now order hn => ⟨x.entry_domain hn now order, rfl, rfl, rfl⟩

end Sys2Proof.Machine
end

section
/-! The machine as a whole: every command is an effect under the check of its operands, requests of the function keep their
order (R368), a cycle of the keep clock, and the memories' canonical form. -/

namespace Sys2Proof.Machine
open Sys2Proof Sys2Proof.Claims

/-! ### Every command is a checked effect -/

/-- Each command has an effect on the device, under the check of its operands, which is met where the operands have no
relation to keep. -/
theorem exec_checked (c : Instr) : ∃ f : Dev → Dev, ∀ s : State, exec c s = s.checked (wellFormed c) f := by
  cases c
  all_goals exact ⟨_, fun _ => rfl⟩

theorem exec_illFormed {c : Instr} (h : wellFormed c = false) (s : State) : exec c s = .fault .illFormed := by
  obtain ⟨f, hf⟩ := exec_checked c
  rw [hf, State.checked, h]
  rfl

theorem exec_completes {c : Instr} (h : wellFormed c = true) (s : State) : ∃ e : Dev, Does c s e := by
  obtain ⟨f, hf⟩ := exec_checked c
  exact ⟨f s.dev, checked_does (hf s) h rfl⟩

/-- A command leaves the queue as it finds it. -/
theorem exec_pending {c : Instr} {s t : State} (h : exec c s = .next t) : t.pending = s.pending := by
  obtain ⟨f, hf⟩ := exec_checked c
  rw [hf, State.checked] at h
  split at h
  · cases h
    rfl
  · cases h

/-- Settles O3: a command's effect is always defined; only the check of its operands can stop it. -/
theorem wellFormedCompletes : Obligations.WellFormedCompletes :=
  fun _ s => ⟨fun h => exec_completes h s, fun h => exec_illFormed h s⟩

/-! ### Requests of the function in order (R368) -/

/-- A request of the function that comes while an earlier one waits is held behind it. -/
theorem request_waits {s : State} {i : Instr} {f : Dev → Dev}
    (he : exec i s = s.checked (wellFormed i) fun d => d.inOrder i f) (hw : wellFormed i = true)
    (hh : s.dev.host.held ≠ []) : Does i s { s.dev with host.held := s.dev.host.held ++ [i] } :=
  checked_does he hw (if_neg (by simpa using hh))

/-- Settles O2: no command changes the queue; a request of the host that comes while another waits joins those that
wait. -/
theorem queueFirstInFirstOut : Obligations.QueueFirstInFirstOut := by
  refine ⟨fun c rest d t h => exec_pending h, ?requests, ?payloads, ?registers⟩
  case requests =>
    intro s i off len st bar v t w g p dom c n x hh hi hw
    have hreq : ∃ f : Dev → Dev, exec i s = s.checked (wellFormed i) fun d => d.inOrder i f := by
      simp only [List.mem_cons, List.not_mem_nil, or_false] at hi
      rcases hi with rfl | rfl | rfl | rfl | rfl | rfl | rfl | rfl | rfl | rfl | rfl | rfl | rfl | rfl | rfl | rfl | rfl |
        rfl | rfl | rfl | rfl | rfl | rfl | rfl | rfl | rfl | rfl
      all_goals exact ⟨_, rfl⟩
    obtain ⟨f, hf⟩ := hreq
    exact request_waits hf hw hh
  case payloads => exact fun s off bytes st v hh => ⟨fun hw => request_waits rfl hw hh, fun hw => request_waits rfl hw hh⟩
  case registers =>
    refine fun s bar off len v t w x hh => ⟨fun i hi => ?_, rfl⟩
    simp only [List.mem_cons, List.not_mem_nil, or_false] at hi
    obtain rfl | rfl | rfl | rfl | rfl := hi
    all_goals exact request_waits rfl rfl hh

/-! ### The memories -/

/-- Settles O4, by what every operation keeps (`step_kept`). -/
theorem stepKeepsMemoriesCanonical : Obligations.StepKeepsMemoriesCanonical :=
  fun _ _ hs hst => (step_kept hst).mems hs

/-- Settles O5: the empty arrays are canonical. -/
theorem resetMemoriesCanonical : Obligations.ResetMemoriesCanonical := rfl

/-- Settles O24, by the reads after a write of several values. -/
theorem memoryReadAfterWrite : Obligations.MemoryReadAfterWrite := by
  have hread (dflt : Nat → Byte) (m : Mem) (a : Nat) (bs : List Byte) (x : Nat) :
      Tab.read dflt (Tab.writeN dflt m a bs) x =
        if h : a ≤ x ∧ x - a < bs.length then bs[x - a] else Tab.read dflt m x := by
    split
    · next h =>
      have hx := Tab.read_writeN_same (dflt := dflt) (t := m) (k := a) h.2
      rwa [Nat.add_sub_cancel' h.1] at hx
    · exact Tab.read_writeN_other (by omega)
  exact fun dflt m a bs =>
    ⟨hread dflt m a bs, Tab.readN_eq_of_getElem fun i hi => Tab.read_writeN_same hi, Tab.writeN_wf⟩

/-! ### A step -/

theorem Dev.tick_now (d : Dev) : d.tick.now = d.now + 1 :=
  congrArg (· + 1) (foldl_keep Dev.now _ _ d fun a s => by simp [Dev.modStk])

/-- With nothing that waits for memory, a cycle takes up nothing. -/
theorem Dev.resumed_idle {d : Dev} (hj : ∀ e ∈ d.doms, e.2.judge = false) (hc : d.twin.copyAt = none)
    (hp : d.twin.posts = []) (hq : d.twin.promoting = none) (hi : d.img.waits = false) (hf : d.sec.flashRun = none)
    (hr : ∀ e ∈ d.host.rings, (e.2.prod - e.2.start).toNat ≤ e.2.fetched.length) : d.resumed = d := by
  have hjudge : d.judgeAgain = d := by
    rw [Dev.judgeAgain, List.filter_eq_nil_iff.mpr fun e he => by simp [hj e he]]
    rfl
  have hcopy : d.copyOn = d := by simp [Dev.copyOn, hc]
  have hpost : d.postOn = d := by simp [Dev.postOn, hp]
  have hprom : d.promoteOn = d := by simp [Dev.promoteOn, hq]
  have himg : d.imageOn = d := by simp [Dev.imageOn, hi]
  have hflash : d.flashOn = d := by simp [Dev.flashOn, hf]
  have hfetch : d.fetchOn = d := by
    rw [Dev.fetchOn, List.filter_eq_nil_iff.mpr fun e he => by simpa using hr e he]
    rfl
  rw [Dev.resumed, hjudge, hcopy, hpost, hprom, himg, hflash, hfetch]

/-- Settles O1: by the two cases of a step, and by each thing that a cycle could take up. -/
theorem stepRunsFront : Obligations.StepRunsFront :=
  ⟨fun _ _ _ => rfl, fun d => ⟨rfl, d.tick_now, rfl⟩, fun _ => Dev.resumed_idle⟩

end Sys2Proof.Machine
end

section
/-! The lock table of a stack, the writes that take a lock, and the delta channel (R154, R304 to R306, R308, R309). -/

namespace Sys2Proof.Machine
open Sys2Proof Sys2Proof.Claims

theorem Dev.modStk_congr {d : Dev} {st : Nat} {f g : StackSt → StackSt} (h : f (d.stk st) = g (d.stk st)) :
    d.modStk st f = d.modStk st g := congrArg (d.setStk st) h

/-! ### Requests and grants (R306) -/

section Locks
variable {d : Dev} {st : Nat} {p : Stripe} {k : Lock} {q : LockReq}

theorem Dev.requestLock_joins (h : (d.stk st).lockOf p = some k) : d.requestLock st p q = (d.modStk st (fun x =>
    x.setLock p (some { k with waiters := k.waiters ++ [q] }))).serveStripe st p := by
  simp only [Dev.requestLock, h]

theorem Dev.requestLock_queued (h : (d.stk st).lockOf p = none)
    (hf : 96 ≤ (d.stk st).occupied ∨ (d.stk st).lockWait ≠ []) :
    d.requestLock st p q = d.modStk st (fun x => { x with lockWait := x.lockWait ++ [(p, q)] }) := by
  simp only [Dev.requestLock, h]
  refine if_pos ?_
  obtain hf | hf := hf
  · simp [show lockEntries ≤ (d.stk st).occupied from hf]
  · simp [hf]

theorem Dev.requestLock_first (h : (d.stk st).lockOf p = none) (ho : (d.stk st).occupied < 96)
    (hw : (d.stk st).lockWait = []) :
    d.requestLock st p q = (d.modStk st (fun x => x.setLock p (some ⟨p, false, false, [q]⟩))).serveStripe st p := by
  simp only [Dev.requestLock, h]
  exact if_neg (by simp [hw, show ¬ lockEntries ≤ (d.stk st).occupied from Nat.not_le.mpr ho])

variable {rest : List LockReq}

/-- A requester at the head that is no party is the next holder, whether it goes on or begins. -/
theorem Dev.nextHolder_head (hw : k.waiters = q :: rest) (hq : q.isParty = false) : d.nextHolder k = some q := by
  rw [Dev.nextHolder, hw]
  split
  · rfl
  · rw [List.dropWhile_cons_of_neg (by simp [hq])]
    rfl

theorem Dev.serveStripe_of_holder (h : (d.stk st).lockOf p = some k) (hn : d.nextHolder k = some q)
    (hq : q.isParty = false) :
    d.serveStripe st p = if k.held || !d.consistent st p then d else d.serveLock st p k q := by
  simp only [Dev.serveStripe, h, hn]
  cases q with
  | party w => cases hq
  | narrow | full | read | recon | scrub => rfl

/-- A stripe whose lock is held, or whose deltas are not all applied, is not granted. -/
theorem Dev.serveStripe_shut (h : (d.stk st).lockOf p = some k) (hs : k.held = true ∨ d.consistent st p = false) :
    d.serveStripe st p = d := by
  cases hn : d.nextHolder k with
  | none => simp only [Dev.serveStripe, h, hn]
  | some q =>
    cases hq : q.isParty with
    | false =>
      rw [Dev.serveStripe_of_holder h hn hq]
      exact if_pos (by simpa using hs)
    | true =>
      cases q with
      | party w => simp only [Dev.serveStripe, h, hn]
      | narrow | full | read | recon | scrub => cases hq

theorem Dev.serveStripe_grants (h : (d.stk st).lockOf p = some k) (hw : k.waiters = q :: rest) (hq : q.isParty = false)
    (hh : k.held = false) (hc : d.consistent st p = true) : d.serveStripe st p = d.serveLock st p k q := by
  rw [Dev.serveStripe_of_holder h (Dev.nextHolder_head hw hq) hq]
  exact if_neg (by simp [hh, hc])

section Admit
variable {rest : List (Stripe × LockReq)} (hw : (d.stk st).lockWait = (p, q) :: rest) (hq : q.isParty = false)
include hw hq

theorem Dev.dropWhile_head : (d.stk st).lockWait.dropWhile (fun e => e.2.isParty && !d.goesBefore e.2) = (p, q) :: rest := by
  rw [hw, List.dropWhile_cons_of_neg (by simp [hq])]

theorem Dev.admitLocks_full (ho : 96 ≤ (d.stk st).occupied) : d.admitLocks st = d := by
  rw [Dev.admitLocks, Dev.dropWhile_head hw hq]
  exact if_pos (by simp [show lockEntries ≤ (d.stk st).occupied from ho])

theorem Dev.admitLocks_takes (ho : (d.stk st).occupied < 96) (hl : (d.stk st).lockOf p = none) :
    d.admitLocks st = (d.modStk st (fun x =>
      { x with lockWait := rest }.setLock p (some ⟨p, false, false, [q]⟩))).serveStripe st p := by
  rw [Dev.admitLocks, Dev.dropWhile_head hw hq]
  refine (if_neg (by simp [hq, show ¬ lockEntries ≤ (d.stk st).occupied from Nat.not_le.mpr ho])).trans ?_
  refine congrArg (fun e : Dev => e.serveStripe st p) (Dev.modStk_congr ?_)
  dsimp only
  split
  · next l h => exact absurd (hl.symm.trans h) nofun
  · rw [hw, List.erase_cons_head]

end Admit

theorem Dev.admitLocks_none (hw : (d.stk st).lockWait = []) : d.admitLocks st = d := by
  rw [Dev.admitLocks, hw]
  rfl

/-! ### What a holder does with its lock (R306, R308) -/

theorem Dev.unlock_last (h : (d.stk st).lockOf p = some k) (hw : k.waiters = []) : d.unlock st p =
    d.modStk st (fun x => { x with locks := x.locks.filter (fun y => decide (y.stripe ≠ p)) }) :=
  Dev.modStk_congr (by simp only [h, hw]; rfl)

theorem Dev.unlock_passes (h : (d.stk st).lockOf p = some k) (hw : k.waiters ≠ []) : d.unlock st p =
    d.modStk st (fun x => x.setLock p (some { k with held := false, taken := false })) :=
  Dev.modStk_congr (by simp only [h, List.isEmpty_eq_false_iff.mpr hw]; rfl)

section Serve
variable {d0 d1 d2 : Dev} {l : Lock} (h0 : d0 = d.modStk st (fun x => x.setLock p none))
include h0

/-- A holder other than a narrow write releases its lock when its work is done. -/
theorem Dev.serveLock_releases (h1 : d0.lockWork st p q = .ok d1)
    (h2 : d2 = (d1.unserve (q.behind st)).modStk st (fun x => x.setLock p (some ⟨p, true, false, l.waiters.erase q⟩)))
    (hq : ∀ (a : Accessor) (h : Hint) (addr : Nat) (bytes : List Byte), q ≠ .narrow a h addr bytes) :
    d.serveLock st p l q = d2.unlock st p := by
  subst h0 h2
  rw [Dev.serveLock, h1]
  cases q with
  | narrow a h addr bytes => exact absurd rfl (hq a h addr bytes)
  | full | read | recon | scrub | party => rfl

/-- A narrow write releases its lock when its work is done and its deltas are applied. -/
theorem Dev.serveLock_narrow {a : Accessor} {h : Hint} {addr : Nat} {bytes : List Byte}
    (h1 : d0.lockWork st p (.narrow a h addr bytes) = .ok d1)
    (h2 : d2 = (d1.unserve (LockReq.behind (.narrow a h addr bytes) st)).modStk st (fun x =>
      x.setLock p (some ⟨p, true, false, l.waiters.erase (.narrow a h addr bytes)⟩))) :
    d.serveLock st p l (.narrow a h addr bytes) = if d2.consistent st p then d2.unlock st p else d2 := by
  subst h0 h2
  rw [Dev.serveLock, h1]

theorem Dev.serveLock_waits {e : Stop} (h1 : d0.lockWork st p q = .error e) (he : e.waits = true) :
    d.serveLock st p l q = (d.modStk st (fun x =>
      x.setLock p (some { l with taken := true, waiters := q :: l.waiters.erase q }))).lockStopped st q e := by
  subst h0
  simp only [Dev.serveLock, h1, he, if_true]

theorem Dev.serveLock_ends {e : Stop} (h1 : d0.lockWork st p q = .error e) (he : e.waits = false) :
    d.serveLock st p l q = ((d.modStk st (fun x =>
      x.setLock p (some { l with held := true, waiters := l.waiters.erase q }))).lockStopped st q e).unlock st p := by
  subst h0
  simp only [Dev.serveLock, h1, he, Bool.false_eq_true, if_false]

end Serve

end Locks

/-! ### Writes (R308, R309) -/

theorem Dev.lockWork_full {d : Dev} {st : Nat} {p : Stripe} {a : Accessor} {h : Hint} {addr : Nat} {bytes : List Byte}
    (hc : d.cellsFree (whoOf a h) (bankCells st p.bank (List.range 18)) = .ok ()) :
    d.lockWork st p (.full a h addr bytes) = (((List.range 18).foldl (fun x i =>
      x.openRow st i p.bank p.row) d).putStripe st p ((List.range 16).map (fun i => slice bytes (32 * i) 32))
        (whoOf a h).flips).afterWrite (whoOf a h) addr [] bytes := by
  simp only [Dev.lockWork, hc]

theorem Dev.lockWork_narrow {d d0 d1 : Dev} {st : Nat} {p : Stripe} {a : Accessor} {h : Hint} {addr : Nat}
    {bytes base : List Byte} (h0 : d.lineBefore (whoOf a h) addr bytes.length = .ok (d0, base))
    (h1 : d0.narrowSteps (whoOf a h) (chunkCuts addr bytes 17) = .ok d1) : d.lockWork st p (.narrow a h addr bytes) =
      (d1.bump (stackBase st + 0x118)).afterWrite (whoOf a h) addr base bytes := by
  simp only [Dev.lockWork, h0, h1]
  rfl

theorem Dev.narrowSteps_ok {d d1 : Dev} {w : Who} {ps : List (Nat × List Byte)} {cs : List Cover}
    (hc : d.cellsFree w ((d.placesOf ps).flatMap (fun l => bankCells l.st l.bank [l.die])) = .ok ())
    (ho : d.oldChunks w ps = .ok (d1, cs)) :
    d.narrowSteps w ps = .ok (cs.foldl (fun a c => a.sendCover w.flips c) d1) := by
  simp only [Dev.narrowSteps, hc, ho]

theorem Dev.oldChunks_cons {d d1 d2 : Dev} {w : Who} {addr : Nat} {bytes old : List Byte} {r : List (Nat × List Byte)}
    {l : Loc} {cs : List Cover} (hl : d.decodeAddr addr = .at l)
    (hg : d.goodChunk w l.st l.stripe l.die = .ok (d1, old)) (hr : d1.oldChunks w r = .ok (d2, cs)) :
    d.oldChunks w ((addr, bytes) :: r) = .ok (d2, (l, old, bytes) :: cs) := by
  simp only [Dev.oldChunks, hl, hg, hr]

section Requests
variable {s : State} {who : Accessor} {addr : BitVec 48} {bytes : List Byte} {l : Loc}
  (hl : s.dev.decodeAddr addr.toNat = .at l) (hb : s.dev.barred (whoOf who .stream) addr.toNat = none)
include hl hb

theorem fullStripeWrite_does (hw : wellFormed (.fullStripeWrite who addr bytes) = true) :
    Does (.fullStripeWrite who addr bytes) s (s.dev.requestLock l.st l.stripe (.full who .stream addr.toNat bytes)) :=
  checked_does rfl hw (by simp only [hl, hb])

theorem narrowWrite_does (hw : wellFormed (.narrowWrite who addr bytes) = true) :
    Does (.narrowWrite who addr bytes) s (s.dev.requestLock l.st l.stripe (.narrow who .stream addr.toNat bytes)) :=
  checked_does rfl hw (by simp only [hl, hb])

end Requests

/-! ### STRIPE_LOCK_GRANT (R306) -/

theorem Dev.lockGrant_grants {d e : Dev} {st : Nat} {p : Stripe} {k : Lock} {q : LockReq} {rest : List LockReq}
    (h : (d.stk st).lockOf p = some k) (hw : k.waiters = q :: rest) (hq : q.isParty = false) (hh : k.held = false)
    (hc : d.consistent st p = true) (he : e = (d.serveLock st p k q).admitLocks st) :
    d.lockGrant st p = e.tryRows st (e.stk st).rowWait := by
  rw [Dev.lockGrant, Dev.grantLock, Dev.serveStripe_grants h hw hq hh hc, he]

theorem Dev.lockGrant_shut {d : Dev} {st : Nat} {p : Stripe} {k : Lock} (h : (d.stk st).lockOf p = some k)
    (hs : k.held = true ∨ d.consistent st p = false) (hw : (d.stk st).lockWait = []) (hr : (d.stk st).rowWait = []) :
    d.lockGrant st p = d := by
  rw [Dev.lockGrant, Dev.grantLock, Dev.serveStripe_shut h hs, Dev.admitLocks_none hw, hr]
  rfl

theorem stripeLockGrant_does {s : State} {st : Stack} {bank : Fin 128} {row : Fin 20480} {chunk : Fin 64} {e : Dev}
    (h : s.dev.lockGrant st.val ⟨bank.val, row.val, chunk.val⟩ = e) : Does (.stripeLockGrant st bank row chunk) s e :=
  does_of_eq h rfl

/-! ### The delta channel (R154, R304, R305) -/

/-- The choice of the first element with the least `f`, as the channel makes it. -/
def leastOf {β : Type} (f : β → Nat) (best : Option β) (e : β) : Option β :=
  match best with
  | none => some e
  | some b => if f e < f b then some e else some b

theorem foldl_leastOf {β : Type} {f : β → Nat} {l : List β} {b : Option β} {g : β} (h : l.foldl (leastOf f) b = some g) :
    (g ∈ l ∨ b = some g) ∧ (∀ y ∈ l, f g ≤ f y) ∧ ∀ y, b = some y → f g ≤ f y := by
  induction l generalizing b with
  | nil => simp_all
  | cons x r ih =>
    obtain ⟨hmem, hle, hb⟩ := ih h
    cases b with
    | none =>
      have hx : f g ≤ f x := hb x rfl
      refine ⟨.inl ?_, List.forall_mem_cons.mpr ⟨hx, hle⟩, by simp⟩
      obtain hm | hm := hmem
      · exact .tail _ hm
      · cases hm
        exact .head _
    | some y =>
      by_cases hxy : f x < f y
      · have hsome : leastOf f (some y) x = some x := if_pos hxy
        rw [hsome] at hmem hb
        have hx : f g ≤ f x := hb x rfl
        refine ⟨.inl ?_, List.forall_mem_cons.mpr ⟨hx, hle⟩, ?_⟩
        · obtain hm | hm := hmem
          · exact .tail _ hm
          · cases hm
            exact .head _
        · rintro _ ⟨⟩
          omega
      · have hsome : leastOf f (some y) x = some y := if_neg hxy
        rw [hsome] at hmem hb
        have hy : f g ≤ f y := hb y rfl
        refine ⟨hmem.imp_left (.tail _), List.forall_mem_cons.mpr ⟨by omega, hle⟩, ?_⟩
        rintro _ ⟨⟩
        exact hy

theorem StackSt.nextDelta_eq (x : StackSt) : x.nextDelta =
    (x.deltas.filter (fun e => !e.granted && decide (x.buffered e.stripe.bank < 32))).foldl
      (leastOf fun e => (e.cell + 1025 - x.deltaPtr - 1) % 1025) none := by
  refine congrArg (fun g => List.foldl g none _) ?_
  funext best e
  cases best with
  | none => rfl
  | some b => rfl

/-- The delta that the channel grants next is the first after the one granted last, among those with room. -/
theorem StackSt.nextDelta_least {x : StackSt} {g : Delta} (h : x.nextDelta = some g) : g ∈ x.deltas ∧ g.granted = false ∧
    x.buffered g.stripe.bank < 32 ∧ ∀ y ∈ x.deltas, y.granted = false → x.buffered y.stripe.bank < 32 →
      (g.cell + 1025 - x.deltaPtr - 1) % 1025 ≤ (y.cell + 1025 - x.deltaPtr - 1) % 1025 := by
  have hmay (y : Delta) : y ∈ x.deltas.filter (fun e => !e.granted && decide (x.buffered e.stripe.bank < 32)) ↔
      y ∈ x.deltas ∧ y.granted = false ∧ x.buffered y.stripe.bank < 32 := by
    simp
  obtain ⟨hmem, hle, -⟩ := foldl_leastOf (x.nextDelta_eq.symm.trans h)
  obtain ⟨hg, hu, hb⟩ := (hmay g).mp (hmem.resolve_right nofun)
  exact ⟨hg, hu, hb, fun y hy hyu hyb => hle y ((hmay y).mpr ⟨hy, hyu, hyb⟩)⟩

theorem Dev.deltaGrant_some {d : Dev} {st : Nat} {x : Delta} (h : (d.stk st).nextDelta = some x) :
    d.deltaGrant st = d.modStk st (fun y =>
      { y with deltas := y.deltas.erase x ++ [{ x with granted := true }], deltaPtr := x.cell }) := by
  simp only [Dev.deltaGrant, h]

theorem Dev.deltaGrant_none {d : Dev} {st : Nat} (h : (d.stk st).nextDelta = none) : d.deltaGrant st = d := by
  simp only [Dev.deltaGrant, h]

/-- A check die applies its next delta to its chunk; the delta is gone once both have. -/
theorem Dev.deltaApply_some {d : Dev} {st j : Nat} {x : Delta} (h : d.dueDelta st j = some x) : d.deltaApply st j =
    Dev.settle ((d.applyDelta st x.stripe x.die x.bytes (16 + j)).modStk st (fun z => { z with
      deltas := if (x.done j).doneP && (x.done j).doneQ then z.deltas.filter (fun y => decide (y.num ≠ x.num))
        else z.deltas.map (fun y => if y.num = x.num then x.done j else y) })) st x.stripe := by
  simp only [Dev.deltaApply, h]

/-- Die 16 adds a delta to its chunk (R304). -/
theorem Dev.deltaApply_sum {d d1 : Dev} {st : Nat} {x : Delta} (h : d.dueDelta st 0 = some x)
    (h1 : d1 = Dev.writeChunkAs (if d.chunkBad st 16 x.stripe then d.bump (stackBase st + 0x0F0) else d) st 16 x.stripe
      (xorBytes (d.chunk st 16 x.stripe) x.bytes) true (d.xparity (d.chunkKey st 16 x.stripe))) :
    d.deltaApply st 0 = (d1.modStk st (fun z => { z with
      deltas := if x.doneQ then z.deltas.filter (fun y => decide (y.num ≠ x.num))
        else z.deltas.map (fun y => if y.num = x.num then { x with doneP := true } else y) })).settle st x.stripe := by
  rw [Dev.deltaApply_some h, show d.applyDelta st x.stripe x.die x.bytes (16 + 0) = d1 from h1.symm]
  simp only [Delta.done, if_true, Bool.true_and]

/-- Die 17 adds the delta's multiple to its chunk (R304). -/
theorem Dev.deltaApply_multiple {d d1 : Dev} {st : Nat} {x : Delta} (h : d.dueDelta st 1 = some x)
    (h1 : d1 = Dev.writeChunkAs (if d.chunkBad st 17 x.stripe then d.bump (stackBase st + 0x0F0) else d) st 17 x.stripe
      (xorBytes (d.chunk st 17 x.stripe) (scaleChunk x.bytes x.die)) true (d.xparity (d.chunkKey st 17 x.stripe))) :
    d.deltaApply st 1 = (d1.modStk st (fun z => { z with
      deltas := if x.doneP then z.deltas.filter (fun y => decide (y.num ≠ x.num))
        else z.deltas.map (fun y => if y.num = x.num then { x with doneQ := true } else y) })).settle st x.stripe := by
  rw [Dev.deltaApply_some h, show d.applyDelta st x.stripe x.die x.bytes (16 + 1) = d1 from h1.symm]
  simp only [Delta.done, Nat.one_ne_zero, if_false, Bool.and_true]

theorem Dev.deltaApply_none {d : Dev} {st j : Nat} (h : d.dueDelta st j = none) : d.deltaApply st j = d := by
  simp only [Dev.deltaApply, h]

theorem Dev.dueDelta_some {d : Dev} {st j : Nat} {x : Delta} (h : d.dueDelta st j = some x) : x ∈ (d.stk st).deltas ∧
    x.granted = true ∧ (if j = 0 then x.doneP = false else x.doneQ = false) ∧
      (d.bcell ((st * 18 + (16 + j)) * 64 + x.stripe.bank / 2)).refreshing = false := by
  have hx := List.find?_some h
  simp only [Bool.and_eq_true, Bool.not_eq_true'] at hx
  obtain ⟨⟨hg, hd⟩, hr⟩ := hx
  refine ⟨List.mem_of_find?_eq_some h, hg, ?_, hr⟩
  split
  · next hj => rwa [if_pos hj] at hd
  · next hj => rwa [if_neg hj] at hd

/-- A refresh of the check cells holds the deltas of those cells. -/
theorem Dev.dueDelta_refreshing {d : Dev} {st j : Nat} (h : ∀ x ∈ (d.stk st).deltas, x.granted = true →
    (d.bcell ((st * 18 + (16 + j)) * 64 + x.stripe.bank / 2)).refreshing = true) : d.dueDelta st j = none := by
  refine List.find?_eq_none.mpr fun x hx => ?_
  cases hg : x.granted with
  | false => simp
  | true => simp [cellKey, h x hx hg]

theorem deltaApply_does {s : State} {st : Stack} {j : Fin 2} {e : Dev} (h : s.dev.deltaApply st.val j.val = e) :
    Does (.deltaApply st j) s e :=
  does_of_eq h rfl

/-- Settles O45: a request by the entry of its stripe, a grant by its oldest requester, a holder by what its work
answers, and a delta by the check die that applies it. -/
theorem stripeLocksAndDeltas : Obligations.StripeLocksAndDeltas := by
  unfold Obligations.StripeLocksAndDeltas
  refine ⟨fun s who addr bytes l hw hl hb => fullStripeWrite_does hl hb hw,
    fun s who addr bytes l hw hl hb => narrowWrite_does hl hb hw,
    fun d st p q => ⟨fun k => Dev.requestLock_joins, Dev.requestLock_queued, Dev.requestLock_first⟩,
    fun d st p k q rest h hw hq => ⟨Dev.serveStripe_grants h hw hq, Dev.serveStripe_shut h⟩,
    fun d st p q rest hw hq => ⟨Dev.admitLocks_takes hw hq, Dev.admitLocks_full hw hq⟩, ?done,
    fun d d0 st p l q e h0 h1 => ⟨Dev.serveLock_waits h0 h1, Dev.serveLock_ends h0 h1⟩,
    fun d st p a h addr bytes => Dev.lockWork_full, fun d st p cs flips => rfl,
    fun d d0 d1 st p a h addr bytes base => Dev.lockWork_narrow, fun d d1 w ps cs => Dev.narrowSteps_ok,
    fun d d1 d2 w addr bytes old r l cs => Dev.oldChunks_cons, ?sendCover,
    fun d st p k h => ⟨Dev.unlock_last h, Dev.unlock_passes h⟩, ?grant, ?shut,
    fun s st x h => does_of_eq (Dev.deltaGrant_some h) rfl, fun s st h => does_of_eq (Dev.deltaGrant_none h) rfl,
    fun x g => StackSt.nextDelta_least, fun s st x d1 h h1 => deltaApply_does (Dev.deltaApply_sum h h1),
    fun s st x d1 h h1 => deltaApply_does (Dev.deltaApply_multiple h h1), fun d st j x => Dev.dueDelta_some,
    fun s st j h => deltaApply_does (Dev.deltaApply_none (Dev.dueDelta_refreshing h))⟩
  case done =>
    intro d d0 d1 d2 st p l q h0 h1 h2
    refine ⟨Dev.serveLock_releases h0 h1 h2, ?_⟩
    rintro a h addr bytes rfl
    have hdone := Dev.serveLock_narrow h0 h1 h2
    exact ⟨fun hc => hdone.trans (if_pos hc), fun hc => hdone.trans (if_neg (by simp [hc]))⟩
  case sendCover =>
    rintro d flips l old bytes _ rfl
    rfl
  case grant =>
    rintro s st bank row chunk _ k q rest e rfl h hw hq hh hc he
    exact stripeLockGrant_does (Dev.lockGrant_grants h hw hq hh hc he)
  case shut =>
    rintro s st bank row chunk _ k rfl h hs hw hr
    exact stripeLockGrant_does (Dev.lockGrant_shut h hs hw hr)


end Sys2Proof.Machine
end

section
/-! Reconstruction, scrubbing, and the repair of a stripe that no code corrects (R302, R313, R317, R318). -/

namespace Sys2Proof.Machine
open Sys2Proof Sys2Proof.Claims

/-! ### Reconstruction (R302) -/

section Recon
variable {d : Dev} {st : Nat} {p : Stripe}

theorem Dev.reconStripe_clean (h : d.badDies st p = []) : d.reconStripe st p = .ok (d.ueForget st p) := by
  simp only [Dev.reconStripe, h]

/-! With a failing chunk the whole stripe is read, then corrected, or judged. -/

section Reads
variable {d1 : Dev} {i : Nat} {r : List Nat} (h : d.badDies st p = i :: r)
  (hc : d.cellsFree (reconWho st) (bankCells st p.bank (List.range 18)) = .ok ()) (h1 : d.readStripe st p = d1)
include h hc h1

theorem Dev.reconStripe_corrected {d2 : Dev} (hr : d1.reconstruct st p i = some d2) :
    d.reconStripe st p = .ok (d2.ueForget st p) := by
  simp only [Dev.reconStripe, h, hc, h1, hr]

theorem Dev.reconStripe_judged (hr : d1.reconstruct st p i = none) : d.reconStripe st p = d1.verdict st p := by
  simp only [Dev.reconStripe, h, hc, h1, hr]

end Reads

theorem Dev.reconstruct_corrects {i : Nat} {good : List (List Byte)}
    (h : decodeStripe (d.stripeChunks st p) (d.badDies st p) = some good) : d.reconstruct st p i =
      some ((((d.badDies st p).foldl (fun a j => (a.putChunk st j p (good.getD j []) 0).invalidate st p j) d).modStk st
        (fun x => { x with reconDie := some i })).bump (stackBase st + 0x0F8)) := by
  simp only [Dev.reconstruct, h]
  rfl

theorem Dev.reconstruct_none {i : Nat} (h : decodeStripe (d.stripeChunks st p) (d.badDies st p) = none) :
    d.reconstruct st p i = none := by
  simp only [Dev.reconstruct, h]

section Verdict
variable {u : UeWait} {ws : List UeWait} (hw : (d.stk st).waitsOf p = u :: ws)
  (hm : d.mirrorReady (reconWho st) st p = .ok ())
include hw hm

theorem Dev.verdict_mirror {d2 : Dev} (h : d.mirrorRepair st p u.src = some d2) :
    d.verdict st p = .ok (d2.ueForget st p) := by
  simp only [Dev.verdict, hw, hm, h]

theorem Dev.verdict_twin (h : d.mirrorRepair st p u.src = none) (ht : d.twinSource st p = true) :
    d.verdict st p = .error (.repair st p) := by
  simp only [Dev.verdict, hw, hm, h, ht, if_true]

end Verdict
end Recon

section Reconstruction
variable {s : State} {st : Stack} {bank : Fin 128} {row : Fin 20480} {chunk : Fin 64}

theorem reconstruction_does (h : s.dev.badDies st.val ⟨bank.val, row.val, chunk.val⟩ ≠ [] ∨
    (s.dev.stk st.val).waitsOf ⟨bank.val, row.val, chunk.val⟩ ≠ []) :
    Does (.reconstruction st bank row chunk) s (s.dev.requestLock st.val ⟨bank.val, row.val, chunk.val⟩ .recon) :=
  when_does (c := fun d => !(d.badDies st.val ⟨bank.val, row.val, chunk.val⟩).isEmpty ||
      !((d.stk st.val).waitsOf ⟨bank.val, row.val, chunk.val⟩).isEmpty)
    (f := fun d => d.requestLock st.val ⟨bank.val, row.val, chunk.val⟩ .recon) rfl (by simpa using h) rfl

theorem reconstruction_idle (hb : s.dev.badDies st.val ⟨bank.val, row.val, chunk.val⟩ = [])
    (hw : (s.dev.stk st.val).waitsOf ⟨bank.val, row.val, chunk.val⟩ = []) :
    Does (.reconstruction st bank row chunk) s s.dev :=
  when_idle (c := fun d => !(d.badDies st.val ⟨bank.val, row.val, chunk.val⟩).isEmpty ||
      !((d.stk st.val).waitsOf ⟨bank.val, row.val, chunk.val⟩).isEmpty)
    (f := fun d => d.requestLock st.val ⟨bank.val, row.val, chunk.val⟩ .recon) rfl (by simp [hb, hw])

end Reconstruction

/-! ### The scrubber (R317, R318) -/

theorem Dev.filled_iff {d : Dev} :
    d.filled = true ↔ d.regsLive = true ∧ (d.chip.state ≠ .fault ∨ d.chip.startErr = 0) := by
  simp only [Dev.filled, Bool.and_eq_true, Bool.not_eq_true', Bool.and_eq_false_iff, decide_eq_false_iff_not, not_not]

theorem scrubVisit_does {s : State} {st : Stack} (hf : s.dev.filled = true) (hp : s.dev.stackPresent st.val = true)
    (he : (s.dev.stk st.val).scrubEn = true) (ha : s.dev.clk.stackAwake.getLsbD st.val = true) :
    Does (.scrubVisit st) s (s.dev.scrubVisit st.val) :=
  when_does (c := fun d => d.filled && d.stackPresent st.val && (d.stk st.val).scrubEn && d.clk.stackAwake.getLsbD st.val)
    (f := fun d => d.scrubVisit st.val) rfl (by simp [hf, hp, he, ha]) rfl

theorem scrubVisit_idle {s : State} {st : Stack} (he : (s.dev.stk st.val).scrubEn = false) :
    Does (.scrubVisit st) s s.dev :=
  when_idle (c := fun d => d.filled && d.stackPresent st.val && (d.stk st.val).scrubEn && d.clk.stackAwake.getLsbD st.val)
    (f := fun d => d.scrubVisit st.val) rfl (by simp [he])

section Scrub
variable {d d1 : Dev} {st : Nat} {p : Stripe} {good : List (List Byte)} {fix : List Nat}
  (hc : d.cellsFree (scrubWho st) (bankCells st p.bank (List.range 18)) = .ok ())
  (h1 : d1 = (d.readStripe st p).bump (stackBase st + 0x100)) (hp : d1.poisoned st p = false)
  (hg : decodeStripe (d1.stripeChunks st p) (d.badDies st p) = some good)
  (hf : fix = (List.range 18).filter (fun i => (d.badDies st p).contains i || decide (good.getD i [] ≠ d1.chunk st i p)))
include hc h1 hp hg hf

/-- A visit writes back the chunks that the decoder corrects. -/
theorem Dev.scrubStripe_corrects : d.scrubStripe st p = if fix.isEmpty then .ok d1 else
    .ok ((fix.foldl (fun a i => (a.putChunk st i p (good.getD i []) 0).invalidate st p i) d1).bump
      (scrubCorrectedAt st)) := by
  subst hf
  replace h1 : (d.readStripe st p).bump (scrubVisitsAt st) = d1 := h1.symm
  simp only [Dev.scrubStripe, hc, h1, hp, hg, Bool.false_eq_true, if_false]

theorem Dev.scrubStripe_good (hn : fix = []) : d.scrubStripe st p = .ok d1 :=
  (Dev.scrubStripe_corrects hc h1 hp hg hf).trans (if_pos (by simp [hn]))

theorem Dev.scrubStripe_fixes (hn : fix ≠ []) : d.scrubStripe st p =
    .ok ((fix.foldl (fun a i => (a.putChunk st i p (good.getD i []) 0).invalidate st p i) d1).bump
      (stackBase st + 0x108)) :=
  (Dev.scrubStripe_corrects hc h1 hp hg hf).trans (if_neg (by simp [hn]))

end Scrub

/-! ### STRIPE_REPAIR (R313) -/

section Repair
variable {d : Dev} {st : Nat} {p : Stripe} {twin : Option (List Byte)}

theorem Dev.stripeRepair_repairs (hc : d.consistent st p = true) (hm : d.mirrorReady (reconWho st) st p = .ok ())
    (hf : d.cellsFree (reconWho st) (bankCells st p.bank (List.range 18)) = .ok ()) : d.stripeRepair st p twin =
      (((d.unserve (reconWho st).party).repaired st p twin).unlockRepaired st p).admitLocks st := by
  simp only [Dev.stripeRepair, hc, hm, hf, Acc.andThen, Bool.not_true, Bool.false_eq_true, if_false]

theorem Dev.stripeRepair_inconsistent (hc : d.consistent st p = false) : d.stripeRepair st p twin = d :=
  if_pos (by simp [hc])

theorem Dev.unlockRepaired_free (h : (d.stk st).rowHeld = none) : d.unlockRepaired st p = d.unlock st p :=
  if_neg (by simp [h])

theorem Dev.unlockRepaired_rowHeld {die : Nat} (h : (d.stk st).rowHeld = some (die, p.bank, p.row)) :
    d.unlockRepaired st p = d :=
  if_pos (by simp [h])

theorem Dev.repaired_correctable (h : d.uncorrectable st p = false) : d.repaired st p twin = d.ueForget st p :=
  if_pos (by simp [h])

section Uncorrectable
variable {u : UeWait} {ws : List UeWait} (h : d.uncorrectable st p = true) (hw : (d.stk st).waitsOf p = u :: ws)
include h hw

theorem Dev.repaired_mirror {d1 : Dev} (hm : d.mirrorRepair st p u.src = some d1) :
    d.repaired st p twin = d1.ueForget st p := by
  simp only [Dev.repaired, h, hw, hm, Bool.not_true, Bool.false_eq_true, if_false]

theorem Dev.repaired_twin {bytes : List Byte} (hm : d.mirrorRepair st p u.src = none) (ht : d.twinSource st p = true) :
    d.repaired st p (some bytes) = (d.twinRepair st p bytes u.src).ueForget st p := by
  simp only [Dev.repaired, h, hw, hm, ht, Bool.not_true, Bool.false_eq_true, if_false, if_true]

theorem Dev.repaired_lost (hm : d.mirrorRepair st p u.src = none) :
    d.repaired st p none = (u :: ws).foldl (fun a u => a.loseWait st u) d := by
  simp only [Dev.repaired, h, hw, hm, Bool.not_true, Bool.false_eq_true, if_false]

end Uncorrectable
end Repair

section StripeRepair
variable {s : State} {st : Stack} {bank : Fin 128} {row : Fin 20480} {chunk : Fin 64} {twin : Option (List Byte)} {e : Dev}

theorem stripeRepair_does (hw : wellFormed (.stripeRepair st bank row chunk twin) = true)
    (h : s.dev.stripeRepair st.val ⟨bank.val, row.val, chunk.val⟩ twin = e) :
    Does (.stripeRepair st bank row chunk twin) s e :=
  checked_does rfl hw h

end StripeRepair

/-- Settles O46: reconstruction by the failing dies and the decoder's answer, a visit of the scrubber by what the decoder
corrects, a repair by the first source that answers. -/
theorem stripeRepair : Obligations.StripeRepair := by
  unfold Obligations.StripeRepair
  refine ⟨?recon, fun d st p => Dev.reconStripe_clean, ?corrects, ?visit, fun s st => scrubVisit_idle, ?scrub, ?repair,
    fun d st p => ⟨Dev.unlockRepaired_free, fun die => Dev.unlockRepaired_rowHeld⟩,
    fun s st bank row chunk twin hw hc => stripeRepair_does hw (Dev.stripeRepair_inconsistent hc),
    fun d st p twin => Dev.repaired_correctable, ?sources⟩
  case recon =>
    rintro s st bank row chunk _ rfl
    exact ⟨reconstruction_does, reconstruction_idle⟩
  case corrects =>
    intro d d1 st i r p hb hc h1
    replace h1 : d.readStripe st p = d1 := h1.symm
    refine ⟨fun good hg => Dev.reconStripe_corrected hb hc h1 (Dev.reconstruct_corrects hg), fun u ws hn hw hm => ?_⟩
    have hjudged := Dev.reconStripe_judged hb hc h1 (Dev.reconstruct_none hn)
    exact ⟨fun d2 h2 => hjudged.trans (Dev.verdict_mirror hw hm h2),
      fun h2 ht => hjudged.trans (Dev.verdict_twin hw hm h2 ht)⟩
  case visit =>
    rintro s st _ _ hl hf hp he ha rfl rfl
    exact scrubVisit_does (Dev.filled_iff.mpr ⟨hl, hf⟩) hp he ha
  case scrub =>
    intro d d1 st p good fix hc h1 hp hg hf
    exact ⟨Dev.scrubStripe_good hc h1 hp hg hf, Dev.scrubStripe_fixes hc h1 hp hg hf⟩
  case repair =>
    rintro s st bank row chunk twin _ hw rfl hc hm hf
    exact stripeRepair_does hw (Dev.stripeRepair_repairs hc hm hf)
  case sources =>
    intro d st p twin u ws h hw
    refine ⟨fun d1 hm => Dev.repaired_mirror h hw hm, ?_, ?_⟩
    · rintro bytes hm rfl ht
      exact Dev.repaired_twin h hw hm ht
    · rintro rfl hm rfl
      exact Dev.repaired_lost h hw hm

end Sys2Proof.Machine
end

section
/-! The repair of a row, the flip mask, and the two logs (R319 to R323). -/

namespace Sys2Proof.Machine
open Sys2Proof Sys2Proof.Claims

@[simp] theorem Dev.modStk_read (d : Dev) (st : Nat) (f : StackSt → StackSt) : (d.modStk st f).stk st = f (d.stk st) :=
  d.setStk_read st _

/-! ### The locks of a row (R319) -/

/-- An entry put for its own stripe is found there, and the entries of the other stripes stay. -/
theorem StackSt.lockOf_setLock {x : StackSt} {p o : Stripe} {l : Lock} (hl : l.stripe = p) :
    (x.setLock p (some l)).lockOf o = if o = p then some l else x.lockOf o := by
  simp only [StackSt.setLock, StackSt.lockOf, List.find?_append]
  by_cases ho : o = p
  · have hnone : (x.locks.filter fun a => decide (a.stripe ≠ p)).find? (fun a => decide (a.stripe = o)) = none :=
      List.find?_eq_none.mpr fun a ha => by simpa [ho] using (List.mem_filter.mp ha).2
    rw [hnone]
    simp [hl, ho]
  · have hsame : (x.locks.filter fun a => decide (a.stripe ≠ p)).find? (fun a => decide (a.stripe = o)) =
        x.locks.find? (fun a => decide (a.stripe = o)) := by
      rw [List.find?_filter]
      refine congrArg (List.find? · x.locks) (funext fun a => ?_)
      by_cases ha : a.stripe = o
      · simp [ha, ho]
      · simp [ha]
    have hl' : l.stripe ≠ o := fun h => ho (h.symm.trans hl)
    rw [hsame]
    simp [hl', ho]

theorem StackSt.lockOf_stripe {x : StackSt} {p : Stripe} {l : Lock} (h : x.lockOf p = some l) : l.stripe = p := by
  simpa using List.find?_some h

/-- The entry of a stripe that a row repair locks. -/
def StackSt.rowLock (x : StackSt) (p : Stripe) : Lock :=
  match x.lockOf p with
  | some l => { l with held := true }
  | none => ⟨p, true, false, []⟩

theorem StackSt.rowLock_stripe (x : StackSt) (p : Stripe) : (x.rowLock p).stripe = p := by
  rw [StackSt.rowLock]
  split
  · next l h =>
    have hs := StackSt.lockOf_stripe h
    exact hs
  · rfl

theorem StackSt.rowLock_held (x : StackSt) (p : Stripe) : (x.rowLock p).held = true := by
  rw [StackSt.rowLock]
  split
  · rfl
  · rfl

/-- Every stripe locked one after another is held in the end, as one is that was held before. -/
theorem StackSt.foldl_rowLock_held {ps : List Stripe} {x : StackSt} {p : Stripe}
    (h : p ∈ ps ∨ ∃ l : Lock, x.lockOf p = some l ∧ l.held = true) :
    ∃ l : Lock, (ps.foldl (fun y o => y.setLock o (some (y.rowLock o))) x).lockOf p = some l ∧ l.held = true := by
  induction ps generalizing x with
  | nil => exact h.resolve_left List.not_mem_nil
  | cons o r ih =>
    refine ih ?_
    have hset := StackSt.lockOf_setLock (x := x) (o := p) (x.rowLock_stripe o)
    by_cases hpo : p = o
    · exact .inr ⟨_, hset.trans (if_pos hpo), x.rowLock_held o⟩
    · rw [hset, if_neg hpo]
      exact h.imp_left fun hm => (List.mem_cons.mp hm).resolve_left hpo

theorem StackSt.foldl_rowLock_rowHeld (ps : List Stripe) (x : StackSt) :
    (ps.foldl (fun y o => y.setLock o (some (y.rowLock o))) x).rowHeld = x.rowHeld := by
  induction ps generalizing x with
  | nil => rfl
  | cons o r ih => exact ih _

theorem StackSt.lockRow_eq (x : StackSt) (q : Nat × Nat × Nat) : x.lockRow q =
    (rowStripes q.2.1 q.2.2).foldl (fun y o => y.setLock o (some (y.rowLock o))) { x with rowHeld := some q } := rfl

/-! ### The repair of a row (R319 to R321) -/

section RowWork
variable {d : Dev} {st die bank row : Nat}

theorem Dev.rowWork_noSpare (h : d.spares st die bank = []) : d.rowWork st (die, bank, row) =
    (d.retireRange st die bank row).freeRow st (die, bank, row) := by
  simp only [Dev.rowWork, h]

section Spare
variable {k : Nat} {rest : List Nat} (h : d.spares st die bank = k :: rest)
include h

theorem Dev.rowWork_moves {d1 : Dev} (hc : d.cellsFree (rowWho st) (bankCells st bank [die]) = .ok ())
    (hr : d.rescueRow st die (rowStripes bank row) = .ok d1) : d.rowWork st (die, bank, row) =
      (d1.moveRow st die bank row k).freeRow st (die, bank, row) := by
  simp only [Dev.rowWork, h, Dev.copyRow, hc, hr]

theorem Dev.rowWork_busy {cs : List Nat} {w : Party}
    (hc : d.cellsFree (rowWho st) (bankCells st bank [die]) = .error (.busy cs w)) :
    d.rowWork st (die, bank, row) = d.awaitCells cs (.party w) := by
  simp only [Dev.rowWork, h, Dev.copyRow, hc]
  rfl

end Spare

theorem Dev.rowLockable_iff : d.rowLockable st bank row = true ↔
    (d.stk st).rowHeld = none ∧ (d.stk st).occupied ≤ 32 ∧
      ∀ p ∈ rowStripes bank row, d.stripeLocked st p = false ∧ d.consistent st p = true := by
  simp [Dev.rowLockable, and_assoc]

/-- A row that asks for its repair begins it at once where its stripes can be locked. -/
theorem Dev.askRow_new {d1 : Dev} (hn : (d.stk st).rowWait.contains (die, bank, row) = false)
    (hh : (d.stk st).rowHeld ≠ some (die, bank, row))
    (h1 : d1 = d.modStk st (fun x => { x with rowWait := x.rowWait ++ [(die, bank, row)] })) :
    d.askRow st die bank row = if d1.rowLockable st bank row then
      (d1.modStk st (fun x => x.lockRow (die, bank, row))).rowWork st (die, bank, row) else d1 := by
  have hd : d.modStk st (fun x => if x.rowWait.contains (die, bank, row) then x
      else { x with rowWait := x.rowWait ++ [(die, bank, row)] }) = d1 := by
    rw [h1]
    exact Dev.modStk_congr (if_neg (Bool.eq_false_iff.mp hn))
  have hh1 : (d1.stk st).rowHeld ≠ some (die, bank, row) := by
    rw [h1, Dev.modStk_read]
    exact hh
  rw [Dev.askRow, hd]
  exact if_neg hh1

end RowWork

theorem rowRepair_does {s : State} {st : Stack} {die : Die} {bank : Fin 128} {row : Fin 20480} {e : Dev}
    (hp : s.dev.stackPresent st.val = true) (hf : s.dev.filled = true)
    (h : s.dev.askRow st.val die.val bank.val row.val = e) : Does (.rowRepair st die bank row) s e :=
  when_does (c := fun d => d.stackPresent st.val && d.filled) (f := fun d => d.askRow st.val die.val bank.val row.val) rfl
    (by simp [hp, hf]) h

/-- The chunks of a row are taken from their old place before the row points at the spare. -/
theorem Dev.moveRow_eq (d : Dev) (st die bank row k : Nat) : d.moveRow st die bank row k =
    (Dev.modStk (((rowStripes bank row).map (fun p => (p, d.chunk st die p, d.xparity (d.chunkKey st die p)))).foldl
      (fun a q => a.putChunk st die q.1 q.2.1 q.2.2) (d.pointRow st die bank row k)) st (fun x =>
        x.logRemap (remapWord die bank row k (d.spareOf st die bank row)))).bump (stackBase st + 0x120) := by
  rw [Dev.moveRow, List.zip_eq_zipWith, List.zipWith_map_right, List.zipWith_self]
  rfl

theorem Dev.spares_cons {d : Dev} {st die bank k : Nat} {rest : List Nat} (h : d.spares st die bank = k :: rest) :
    k < 64 ∧ Tab.read (fun _ => false) (d.stk st).retired ((die * 128 + bank) * 64 + k) = false := by
  have hk : k ∈ (List.range 64).filter (d.spareFree st die bank) := by
    rw [← Dev.spares, h]
    exact .head _
  obtain ⟨hlt, hfree⟩ := List.mem_filter.mp hk
  refine ⟨List.mem_range.mp hlt, ?_⟩
  simp only [Dev.spareFree, Bool.and_eq_true, Bool.not_eq_true'] at hfree
  exact hfree.1.1

/-! ### The flip mask and the logs (R321, R323) -/

section Registers
variable {s : State} {st : Stack} (hh : s.dev.host.held = [])
include hh

theorem flipArm_does {v : Word} (hw : wellFormed (.flipArm st v) = true) (hr : s.dev.hostReady = true)
    (hp : s.dev.stackPresent st.val = true) :
    Does (.flipArm st v) s (s.dev.modStk st.val (fun x => x.flipWrite v.toNat)) :=
  checked_does rfl hw (by simp [Dev.inOrder, hh, hr, hp])

theorem remapLogRead_does (hr : s.dev.reaches .host = true) (hp : s.dev.stackPresent st.val = true) :
    Does (.remapLogRead st) s ((s.dev.setStk st.val (s.dev.stk st.val).remapRead.2).emit
      (.readDone 0 (remapLogAt st.val) (bytesOf (s.dev.stk st.val).remapRead.1.toNat 8) false)) :=
  hosted_does (c := fun d => d.reaches .host && d.stackPresent st.val)
    (f := fun d => (d.setStk st.val (d.stk st.val).remapRead.2).emit (.readDone 0 (remapLogAt st.val)
      (bytesOf (d.stk st.val).remapRead.1.toNat 8) false)) rfl hh (by simp [hr, hp])

theorem pageRetireLogRead_does (hr : s.dev.reaches .host = true) (hp : s.dev.stackPresent st.val = true) :
    Does (.pageRetireLogRead st) s ((s.dev.setStk st.val (s.dev.stk st.val).retireRead.2).emit
      (.readDone 0 (retireLogAt st.val) (bytesOf (s.dev.stk st.val).retireRead.1.toNat 8) false)) :=
  hosted_does (c := fun d => d.reaches .host && d.stackPresent st.val)
    (f := fun d => (d.setStk st.val (d.stk st.val).retireRead.2).emit (.readDone 0 (retireLogAt st.val)
      (bytesOf (d.stk st.val).retireRead.1.toNat 8) false)) rfl hh (by simp [hr, hp])

theorem logReads_idle (hr : s.dev.reaches .host = false) :
    Does (.remapLogRead st) s s.dev ∧ Does (.pageRetireLogRead st) s s.dev :=
  ⟨hosted_idle (c := fun d => d.reaches .host && d.stackPresent st.val)
      (f := fun d => (d.setStk st.val (d.stk st.val).remapRead.2).emit (.readDone 0 (remapLogAt st.val)
        (bytesOf (d.stk st.val).remapRead.1.toNat 8) false)) rfl hh (by simp [hr]),
    hosted_idle (c := fun d => d.reaches .host && d.stackPresent st.val)
      (f := fun d => (d.setStk st.val (d.stk st.val).retireRead.2).emit (.readDone 0 (retireLogAt st.val)
        (bytesOf (d.stk st.val).retireRead.1.toNat 8) false)) rfl hh (by simp [hr])⟩

end Registers

theorem StackSt.remapRead_cons {x : StackSt} {w : BitVec 64} {rest : List (BitVec 64)} (h : x.remapLog = w :: rest) :
    x.remapRead = (w ||| (if x.remapLost then 0x4000000000000000 else 0), { x with remapLog := rest, remapLost := false }) := by
  simp only [StackSt.remapRead, h]

theorem StackSt.retireRead_cons {x : StackSt} {w : BitVec 64} {rest : List (BitVec 64)} (h : x.retireLog = w :: rest) :
    x.retireRead =
      (w ||| (if x.retireLost then 0x4000000000000000 else 0), { x with retireLog := rest, retireLost := false }) := by
  simp only [StackSt.retireRead, h]

/-- Settles O47: the repair of a row by whether its stripes can be locked, by its spares and by the cells that it reads;
the registers by their oldest entry. -/
theorem rowsAndLogs : Obligations.RowsAndLogs := by
  unfold Obligations.RowsAndLogs
  refine ⟨?row, ?locks, fun d st q => rfl, Dev.moveRow_eq, fun d st die bank k rest => Dev.spares_cons, ?flip, ?remapLog,
    ?retireLog, fun s st hh hr => logReads_idle hh hr⟩
  case row =>
    rintro s st die bank row _ d1 d2 hp hl hf rfl hn hh h1 h2
    have hask := Dev.askRow_new hn hh h1
    rw [← h2] at hask
    have hdoes {e : Dev} (h : s.dev.askRow st.val die.val bank.val row.val = e) : Does (.rowRepair st die bank row) s e :=
      rowRepair_does hp (Dev.filled_iff.mpr ⟨hl, hf⟩) h
    have hrow : d1.rowLockable st.val bank.val row.val = true ↔ (s.dev.stk st.val).rowHeld = none ∧
        (s.dev.stk st.val).occupied ≤ 32 ∧ ∀ p ∈ rowStripes bank.val row.val,
          d1.stripeLocked st.val p = false ∧ d1.consistent st.val p = true := by
      rw [Dev.rowLockable_iff, show d1.stk st.val = _ from h1 ▸ Dev.modStk_read s.dev st.val _]
      rfl
    refine ⟨fun hshut => hdoes (hask.trans (if_neg fun hopen => ?_)), fun hnone hocc hps => ?_⟩
    · obtain ⟨hnone, hocc, hps⟩ := hrow.mp hopen
      obtain h | h | ⟨p, hm, h⟩ := hshut
      · exact h hnone
      · omega
      · simp [hps p hm] at h
    · rw [if_pos (hrow.mpr ⟨hnone, hocc, hps⟩)] at hask
      exact ⟨fun hs => hdoes (hask.trans (Dev.rowWork_noSpare hs)), fun k rest hs =>
        ⟨fun d3 hc hr => hdoes (hask.trans (Dev.rowWork_moves hs hc hr)),
          fun cs w hc => hdoes (hask.trans (Dev.rowWork_busy hs hc))⟩⟩
  case locks =>
    intro x q
    rw [StackSt.lockRow_eq]
    exact ⟨StackSt.foldl_rowLock_rowHeld _ _, fun p hp => StackSt.foldl_rowLock_held (.inl hp)⟩
  case flip =>
    rintro s st v _ hh hw hr hp rfl
    exact flipArm_does hh hw hr hp
  case remapLog =>
    intro s st w rest hh hr hp h
    have hread := remapLogRead_does hh hr hp
    rwa [StackSt.remapRead_cons h] at hread
  case retireLog =>
    intro s st w rest hh hr hp h
    have hread := pageRetireLogRead_does hh hr hp
    rwa [StackSt.retireRead_cons h] at hread

end Sys2Proof.Machine
end


section
/-! The structure image (O56): STRUCT_COMMIT by its branches, and the end of the copy. -/

namespace Sys2Proof.Machine

open Sys2Proof Sys2Proof.Claims

theorem bitAt_toNat {w : Nat} (v : BitVec w) (i : Nat) : bitAt v.toNat i = v.getLsbD i := by
  rw [bitAt, ← BitVec.testBit_toNat, Nat.testBit_eq_decide_div_mod_eq, beq_eq_decide]

/-! ### The branches of STRUCT_COMMIT (R326, R329) -/

section Commit

variable {d : Dev} {v : Nat}

theorem Dev.structCommit_page (hv : bitAt v 31 = false) :
    d.structCommit v = { d with img.page := fieldAt v 0 17 } := by
  rw [Dev.structCommit, hv]
  rfl

theorem Dev.structCommit_late (hv : bitAt v 31 = true)
    (h : d.chip.state ≠ .unstructured ∨ (d.img.state ≠ 0 ∧ d.img.state ≠ 4)) :
    d.structCommit v = { d with img.page := fieldAt v 0 17, img.late := true } := by
  have hno : ¬ (d.chip.state = .unstructured ∧ (d.img.state = 0 ∨ d.img.state = 4)) := by tauto
  simp only [Dev.structCommit, hv, Bool.not_true, Bool.false_eq_true, if_false]
  exact if_neg (by simpa using hno)

theorem Dev.structCommit_starts (hv : bitAt v 31 = true) (hu : d.chip.state = .unstructured)
    (hi : d.img.state = 0 ∨ d.img.state = 4) :
    d.structCommit v = Dev.startImage { d with img.page := fieldAt v 0 17 } := by
  simp only [Dev.structCommit, hv, Bool.not_true, Bool.false_eq_true, if_false]
  exact if_pos (by simpa [hu] using hi)

end Commit

/-- The attempt as GO begins it, on the page that is set. -/
def Dev.begun (d : Dev) : Dev :=
  { d with img := { d.img with run := d.img.page, code := 0, section_ := 0, offset := 0, state := 1 } }

theorem Dev.startImage_outside {d : Dev} (h : d.windowPages ≤ d.img.page) :
    d.startImage = d.begun.rejectImage ⟨imgLength, noSection, 8⟩ := if_pos h

theorem Dev.startImage_inside {d : Dev} (h : d.img.page < d.windowPages) : d.startImage = d.begun.imageReads :=
  if_neg (Nat.not_le.mpr h)

theorem Dev.imageReads_ok {d d1 : Dev} {bs : List Byte} {u : Option Nat} (h : d.copyImage = .ok (d1, bs, u)) :
    d.imageReads = { d1.unserve imageWho.party with img.copy := bs, img.ue := u, img.waits := false } := by
  rw [Dev.imageReads, h]
  rfl

theorem Dev.imageReads_busy {d : Dev} {cks : List Nat} {p : Party} (h : d.copyImage = .error (.busy cks p)) :
    d.imageReads = Dev.awaitCells { d with img.waits := true } cks (.party p) := by
  rw [Dev.imageReads, h]
  rfl

/-! ### The end of the copy (R327, R328) -/

theorem Dev.imageOn_read {d : Dev} (h : d.img.waits = false) : d.imageOn = d := by
  rw [Dev.imageOn, h]
  rfl

theorem Dev.imageOn_waits {d : Dev} (h : d.img.waits = true) (hc : d.clk.coast = false) : d.imageOn = d.imageReads := by
  rw [Dev.imageOn, h, hc]
  rfl

theorem Dev.awaitCells_img (d : Dev) (cks : List Nat) (a : Wait) : (d.awaitCells cks a).img = d.img := by
  rw [Dev.awaitCells]
  have hf := foldl_keep Dev.img (fun (x : Dev) ck => x.modBcell ck (fun y => y.await a))
    (cks.filter fun ck => !((d.bcell ck).waiting.contains a || (d.bcell ck).late.contains a)) d (fun _ _ => rfl)
  split
  · split
    · exact hf
    · simpa using hf
  · exact hf

section Done

variable {d : Dev} (hw : d.img.waits = false)

include hw

theorem Dev.copyDone_ue {o : Nat} (hu : d.img.ue = some o) :
    d.copyDone = Dev.rejectImage { d with img.copy := [], img.ue := none } ⟨imgCopyUe, noSection, o⟩ := by
  rw [Dev.copyDone, Dev.imageOn_read hw]
  simp only [hw, hu, Bool.false_eq_true, if_false]

theorem Dev.copyDone_bad {img : List Byte} {b : Bad} (hu : d.img.ue = none) (hf : d.finalCopy = .ok img)
    (hb : d.validate img d.imageRoom = .error b) :
    d.copyDone = Dev.rejectImage { (d.unserve imageWho.party).drawn with img.copy := [] } b := by
  rw [Dev.copyDone, Dev.imageOn_read hw]
  simp only [hw, hu, hf, hb, Bool.false_eq_true, if_false]

theorem Dev.copyDone_good {img : List Byte} {x : Draft} (hu : d.img.ue = none) (hf : d.finalCopy = .ok img)
    (hx : d.validate img d.imageRoom = .ok x) :
    d.copyDone = Dev.applyImage { (d.unserve imageWho.party).drawn with img.copy := [] } x img := by
  rw [Dev.copyDone, Dev.imageOn_read hw]
  simp only [hw, hu, hf, hx, Bool.false_eq_true, if_false]

end Done

theorem Dev.copyDone_waits {d : Dev} {cks : List Nat} {p : Party} (hw : d.img.waits = true) (hc : d.clk.coast = false)
    (h : d.copyImage = .error (.busy cks p)) : d.copyDone = d.awaitCells cks (.party p) := by
  have heq : ({ d with img.waits := true } : Dev) = d := by rw [← hw]
  have hon : d.imageOn = d.awaitCells cks (.party p) := by
    rw [Dev.imageOn_waits hw hc, Dev.imageReads_busy h, heq]
  rw [Dev.copyDone, hon]
  exact if_pos (by rw [Dev.awaitCells_img, hw])

theorem structCommit_does {s : State} {v : Word} {e : Dev} (hh : s.dev.host.held = []) (hr : s.dev.reaches .host = true)
    (he : s.dev.structCommit v.toNat = e) : Does (.structCommit v) s e :=
  does_of_eq he (hosted_does (c := fun d => d.reaches .host) (f := fun d => d.structCommit v.toNat) rfl hh hr)

theorem structCopyDone_does {s : State} {e : Dev} (hi : s.dev.img.state = 1) (hu : s.dev.chip.state = .unstructured)
    (hc : s.dev.clk.coast = false) (he : s.dev.copyDone = e) : Does .structCopyDone s e :=
  when_does (c := fun d => decide (d.img.state = 1) && decide (d.chip.state = .unstructured) && !d.clk.coast)
    (f := Dev.copyDone) rfl (by simp [hi, hu, hc]) he

/-- Settles O56: STRUCT_COMMIT by GO, the state and the page; the copy by what its reads meet, and its end by the first
thing that fails. -/
theorem structureImage : Obligations.StructureImage := by
  unfold Obligations.StructureImage
  refine ⟨?page, ?late, ?outside, ?inside, ?waits, ?copyUe, ?ends, ?none⟩
  case page =>
    intro s v hh hr hv
    exact structCommit_does hh hr (Dev.structCommit_page (by rwa [bitAt_toNat]))
  case late =>
    intro s v hh hr hv h
    exact structCommit_does hh hr (Dev.structCommit_late (by rwa [bitAt_toNat]) h)
  case outside =>
    intro s v hh hr hv hu hi hp
    refine structCommit_does hh hr ?_
    rw [Dev.structCommit_starts (by rwa [bitAt_toNat]) hu hi, Dev.startImage_outside hp]
    rfl
  case inside =>
    rintro s v d1 hh hr hv hu hi hp rfl
    have hgo : s.dev.structCommit v.toNat = Dev.imageReads { s.dev with
        img := { s.dev.img with
          page := fieldAt v.toNat 0 17, run := fieldAt v.toNat 0 17, code := 0, section_ := 0, offset := 0, state := 1 } } := by
      rw [Dev.structCommit_starts (by rwa [bitAt_toNat]) hu hi, Dev.startImage_inside hp]
      rfl
    exact ⟨fun d2 bs u h => structCommit_does hh hr (hgo.trans (Dev.imageReads_ok h)),
      fun cks p h => structCommit_does hh hr (hgo.trans (Dev.imageReads_busy h))⟩
  case waits =>
    intro s cks p hi hu hc hw h
    exact structCopyDone_does hi hu hc (Dev.copyDone_waits hw hc h)
  case copyUe =>
    intro s o hi hu hc hw ho
    exact structCopyDone_does hi hu hc (Dev.copyDone_ue hw ho)
  case ends =>
    rintro s d1 img hi hu hc hw hn hf rfl
    exact ⟨fun b hb => structCopyDone_does hi hu hc (Dev.copyDone_bad hw hn hf hb),
      fun x hx => structCopyDone_does hi hu hc (Dev.copyDone_good hw hn hf hx)⟩
  case none =>
    intro s hi
    exact when_idle (c := fun d => decide (d.img.state = 1) && decide (d.chip.state = .unstructured) && !d.clk.coast)
      (f := Dev.copyDone) rfl (by simp [hi])

end Sys2Proof.Machine
end


section
/-! The host window, pennants and AtomicOps (O57): an access of the window by the state of the chip, a page as an access
meets it, the pennants of a word. -/

namespace Sys2Proof.Machine

open Sys2Proof Sys2Proof.Claims

/-! ### Accesses of the window (R365, R369, R435) -/

section Window

variable {s : State} {off len : Nat} {bytes : List Byte} {e : Dev}

theorem hostWindowWrite_does (hh : s.dev.host.held = []) (hw : wellFormed (.hostWindowWrite off bytes) = true)
    (hr : s.dev.hostReach = true) (he : s.dev.hostWrite off bytes = e) : Does (.hostWindowWrite off bytes) s e :=
  checked_does (f := fun d => d.inOrder (.hostWindowWrite off bytes) fun d => d.when d.hostReach fun d =>
    d.hostWrite off bytes) rfl hw (by rw [Dev.inOrder, hh, List.isEmpty_nil, if_pos rfl, hr, Dev.when_true, he])

/-- A write that changes nothing changes nothing, whether the host reaches the window or not. -/
theorem hostWindowWrite_still (hh : s.dev.host.held = []) (hw : wellFormed (.hostWindowWrite off bytes) = true)
    (he : s.dev.hostWrite off bytes = s.dev) : Does (.hostWindowWrite off bytes) s s.dev := by
  cases hr : s.dev.hostReach with
  | true => exact hostWindowWrite_does hh hw hr he
  | false =>
    exact checked_does (f := fun d => d.inOrder (.hostWindowWrite off bytes) fun d => d.when d.hostReach fun d =>
      d.hostWrite off bytes) rfl hw (by rw [Dev.inOrder, hh, List.isEmpty_nil, if_pos rfl, hr, Dev.when_false])

theorem hostWindowRead_does (hh : s.dev.host.held = []) (hw : wellFormed (.hostWindowRead off len) = true)
    (hr : s.dev.hostReach = true) (he : s.dev.hostRead off len = e) : Does (.hostWindowRead off len) s e :=
  checked_does (f := fun d => d.inOrder (.hostWindowRead off len) fun d => d.when d.hostReach fun d =>
    d.hostRead off len) rfl hw (by rw [Dev.inOrder, hh, List.isEmpty_nil, if_pos rfl, hr, Dev.when_true, he])

end Window

theorem Dev.regsLive_iff {d : Dev} : d.regsLive = true ↔
    d.chip.state = .unstructured ∨ d.chip.state = .ready ∨ d.chip.state = .fault := by
  rw [Dev.regsLive]
  cases d.chip.state <;> simp

theorem Dev.filled_states {d : Dev} : d.filled = true ↔ (d.chip.state = .unstructured ∨ d.chip.state = .ready ∨
    (d.chip.state = .fault ∧ d.chip.startErr = 0)) := by
  rw [Dev.filled_iff, Dev.regsLive_iff]
  cases d.chip.state <;> simp

section Access

variable {d d1 : Dev} {o n : Nat} {bs : List Byte}

theorem Dev.hostWrite_boot (hb : d.chip.state = .boot) (hp : d.sec.pushGo = false) (hn : o + bs.length ≤ 0x800000) :
    d.hostWrite o bs = { d with sec.staging := Tab.writeN zeroByte d.sec.staging o bs } := by
  have hroom : ¬ (d.sec.pushGo || fwMax < o + bs.length) = true := by simp [hp, show fwMax = 0x800000 from rfl, hn]
  rw [Dev.hostWrite, hb]
  exact if_neg hroom

/-- A live chip's window takes a write that lies within it, where the fill is complete. -/
theorem Dev.hostWrite_live (hl : d.regsLive = true) : d.hostWrite o bs =
    if d.filled && o + bs.length ≤ d.windowPages * pageBytes then d.windowWrite o bs else d := by
  rw [Dev.hostWrite]
  obtain h | h | h := Dev.regsLive_iff.mp hl <;> rw [h]

theorem Dev.hostWrite_filled (hf : d.filled = true) (hn : o + bs.length ≤ d.windowPages * 0x200000) :
    d.hostWrite o bs = d.windowWrite o bs := by
  rw [Dev.hostWrite_live (Dev.filled_iff.mp hf).1]
  exact if_pos (by simpa [hf, show pageBytes = 0x200000 from rfl] using hn)

theorem Dev.hostWrite_beyond (hl : d.regsLive = true) (hn : d.windowPages * 0x200000 < o + bs.length) :
    d.hostWrite o bs = d := by
  rw [Dev.hostWrite_live hl]
  exact if_neg (by simp [show pageBytes = 0x200000 from rfl, hn])

theorem Dev.filled_startErr (hs : d.chip.state = .fault) (he : d.chip.startErr ≠ 0) : d.filled = false := by
  simp [Dev.filled, hs, he]

theorem Dev.hostWrite_startErr (hs : d.chip.state = .fault) (he : d.chip.startErr ≠ 0) : d.hostWrite o bs = d := by
  rw [Dev.hostWrite_live (Dev.regsLive_iff.mpr (.inr (.inr hs))), Dev.filled_startErr hs he]
  rfl

theorem Dev.hostRead_fill (hs : d.chip.state = .fill) :
    d.hostRead o n = d.emit (.readDone 2 o (List.replicate n 0) false) := by
  rw [Dev.hostRead, hs]

theorem Dev.hostRead_startErr (hs : d.chip.state = .fault) (he : d.chip.startErr ≠ 0) :
    d.hostRead o n = d.emit (.readDone 2 o (List.replicate n 0) false) := by
  rw [Dev.hostRead, hs]
  exact if_pos (by rw [Dev.filled_startErr hs he]; rfl)

theorem Dev.hostRead_filled (hf : d.filled = true) (hn : o + n ≤ d.windowPages * 0x200000) :
    d.hostRead o n = d.windowReadout o n := by
  have hlive : d.hostRead o n =
      if !d.filled then d.emit (.readDone 2 o (List.replicate n 0) false)
      else if o + n ≤ d.windowPages * pageBytes then d.windowReadout o n else d := by
    rw [Dev.hostRead]
    obtain h | h | h := Dev.regsLive_iff.mp (Dev.filled_iff.mp hf).1 <;> rw [h]
  rw [hlive, hf]
  exact if_pos hn

theorem Dev.windowWrite_lands (ha : d.asleepIn (cutsOf o bs.length) = [])
    (hs : ((cutsOf o bs.length).foldl (fun a c => a.hitPage true c) d).hostStore (d.cutPieces (cutsOf o bs.length)) bs =
      .ok d1) : d.windowWrite o bs = d1.unserve hostWho.party := by
  simp only [Dev.windowWrite, ha, hs]

theorem Dev.windowWrite_wakes (ha : d.asleepIn (cutsOf o bs.length) ≠ []) : d.windowWrite o bs =
    (d.wakeStacks (d.asleepIn (cutsOf o bs.length))).hold (.hostWindowWrite o bs) := by
  rw [Dev.windowWrite]
  split
  · next h => exact absurd h ha
  · rfl

theorem Dev.windowReadout_returns {r : List Byte} {ep : Bool} (ha : d.asleepIn (cutsOf o n) = [])
    (hs : ((cutsOf o n).foldl (fun a c => a.hitPage false c) d).hostLoad (d.cutPieces (cutsOf o n)) = .ok (d1, r, ep)) :
    d.windowReadout o n = (d1.unserve hostWho.party).emit (.readDone 2 o r ep) := by
  simp only [Dev.windowReadout, ha, hs]

end Access

/-! ### A page as an access meets it (R369, R445) -/

section HitPage

variable {d : Dev} {c : Nat × Nat × Nat} (hb : d.pennantBad c.1 = false)

include hb

theorem Dev.hitPage_host (w : Bool) (hp : d.pennant c.1 = false) : d.hitPage w c = d := by
  simp [Dev.hitPage, hb, hp]

theorem Dev.hitPage_read (hp : d.pennant c.1 = true) :
    d.hitPage false c = Dev.bump { d with host.hitValid := true, host.hitPage := c.1 } 0x1008 := by
  simp [Dev.hitPage, hb, hp, pennantHitsAt]

end HitPage

/-! ### The pennants of a word (R370) -/

theorem mem_wordPages {w v p : Nat} : p ∈ wordPages w v ↔ p / 32 = w ∧ bitAt v (p % 32) = true := by
  simp only [wordPages, List.mem_map, mem_bitsOf]
  constructor
  · rintro ⟨i, ⟨hi, hv⟩, rfl⟩
    rw [show (32 * w + i) % 32 = i by omega]
    exact ⟨by omega, hv⟩
  · rintro ⟨rfl, hv⟩
    exact ⟨p % 32, ⟨by omega, hv⟩, by omega⟩

/-- The pages of the list that the window has take the pennant. -/
def Dev.putPennants (d : Dev) (ps : List Nat) (x : Bool) : Dev :=
  ps.foldl (fun a p => if p < d.windowPages then a.setPennant p x else a) d

theorem Dev.putPennants_only (d : Dev) (ps : List Nat) (x : Bool) :
    d.putPennants ps x = { d with host.pennants := (d.putPennants ps x).host.pennants } := by
  have hfold (l : List Nat) (a : Dev) : l.foldl (fun a p => if p < d.windowPages then a.setPennant p x else a) a =
      { a with host.pennants := (l.foldl (fun a p => if p < d.windowPages then a.setPennant p x else a) a).host.pennants } := by
    induction l generalizing a with
    | nil => rfl
    | cons p r ih =>
      simp only [List.foldl_cons]
      rw [ih]
      split <;> rfl
  exact hfold ps d

theorem Dev.putPennants_read (d : Dev) (ps : List Nat) (x : Bool) (q : Nat) :
    (d.putPennants ps x).pennant q = if q ∈ ps ∧ q < d.windowPages then x else d.pennant q := by
  have hfold (l : List Nat) (a : Dev) :
      (l.foldl (fun a p => if p < d.windowPages then a.setPennant p x else a) a).pennant q =
        if q ∈ l ∧ q < d.windowPages then x else a.pennant q := by
    induction l generalizing a with
    | nil => simp
    | cons p r ih =>
      rw [List.foldl_cons, ih]
      by_cases hq : q = p
      · subst hq
        by_cases hw : q < d.windowPages <;> simp [hw]
      · by_cases hw : p < d.windowPages <;> simp [hw, hq, Dev.setPennant_other]
  exact hfold ps d

theorem Dev.setPennants_good {d : Dev} {ps : List Nat} (x : Bool)
    (h : ∀ p ∈ ps, p < d.windowPages → d.pennantBad p = false) :
    d.setPennants ps x = { d.putPennants ps x with
      host.waits := (d.putPennants ps x).host.waits.filter (fun p => !(d.putPennants ps x).pennant p)
      host.counted := (d.putPennants ps x).host.counted.filter (fun q => !(d.putPennants ps x).pennant q.1) } :=
  if_neg (by simpa using h)

theorem Dev.setPennants_bad {d : Dev} {ps : List Nat} (x : Bool)
    (h : ∃ p ∈ ps, p < d.windowPages ∧ d.pennantBad p = true) : d.setPennants ps x = d.chipFault 0x82 :=
  if_pos (by simpa using h)

section SetPennants

variable {d : Dev} {ps : List Nat} (x : Bool) (h : ∀ p ∈ ps, p < d.windowPages → d.pennantBad p = false)

include h

theorem Dev.setPennants_only : d.setPennants ps x = { d with
    host.pennants := (d.setPennants ps x).host.pennants, host.waits := (d.setPennants ps x).host.waits
    host.counted := (d.setPennants ps x).host.counted } := by
  rw [Dev.setPennants_good x h, Dev.putPennants_only d ps x]

theorem Dev.setPennants_read (q : Nat) :
    (d.setPennants ps x).pennant q = if q ∈ ps ∧ q < d.windowPages then x else d.pennant q := by
  rw [Dev.setPennants_good x h]
  exact Dev.putPennants_read d ps x q

theorem Dev.setPennants_waits : (d.setPennants ps x).host.waits =
    d.host.waits.filter (fun p => !(d.setPennants ps x).pennant p) := by
  rw [Dev.setPennants_good x h]
  show (d.putPennants ps x).host.waits.filter (fun p => !(d.putPennants ps x).pennant p) = _
  rw [show (d.putPennants ps x).host.waits = d.host.waits from congrArg (·.host.waits) (Dev.putPennants_only d ps x)]
  rfl

theorem Dev.setPennants_counted : (d.setPennants ps x).host.counted =
    d.host.counted.filter (fun q => !(d.setPennants ps x).pennant q.1) := by
  rw [Dev.setPennants_good x h]
  show (d.putPennants ps x).host.counted.filter (fun q => !(d.putPennants ps x).pennant q.1) = _
  rw [show (d.putPennants ps x).host.counted = d.host.counted from congrArg (·.host.counted) (Dev.putPennants_only d ps x)]
  rfl

end SetPennants

section Registers

variable {s : State} {w : Fin 4096} {v : Word} (hh : s.dev.host.held = []) (hr : s.dev.reaches .host = true)

include hh hr

theorem pennantGive_does : Does (.pennantGive w v) s (s.dev.setPennants (wordPages w.val v.toNat) true) :=
  hosted_does (c := fun d => d.reaches .host) (f := fun d => d.setPennants (wordPages w.val v.toNat) true) rfl hh hr

theorem pennantTake_does : Does (.pennantTake w v) s (s.dev.setPennants (wordPages w.val v.toNat) false) :=
  hosted_does (c := fun d => d.reaches .host) (f := fun d => d.setPennants (wordPages w.val v.toNat) false) rfl hh hr

end Registers

/-- The pages of a register's word that the window has, as a condition on its bits. -/
theorem mem_wordPages_toNat {w p n : Nat} (v : Word) : (p ∈ wordPages w v.toNat ∧ p < n) ↔
    (decide (p / 32 = w) && v.getLsbD (p % 32) && decide (p < n)) = true := by
  rw [mem_wordPages, bitAt_toNat, Bool.and_eq_true, Bool.and_eq_true, decide_eq_true_iff, decide_eq_true_iff]

/-! ### A stall of an engine (R371) -/

section Stall

variable {s : State} {p : Fin 131072}

theorem pennantStall_does {e : Dev} (hw : s.dev.host.waits.contains p.val = true) (he : s.dev.stallPage p.val = e) :
    Does (.pennantStall p) s e :=
  when_does (c := fun d => d.host.waits.contains p.val) (f := fun d => d.stallPage p.val) rfl hw he

theorem Dev.stallPage_first {d : Dev} {q : Nat} (h : d.host.stalled = false) : d.stallPage q = { d with
    host := { d.host with stalled := true, stallPage := q }, ec.inbox := d.ec.inbox ++ [⟨7, true⟩] } := by
  rw [Dev.stallPage, h]
  rfl

theorem Dev.stallPage_again {d : Dev} {q : Nat} (h : d.host.stalled = true) :
    d.stallPage q = { d with ec.inbox := d.ec.inbox ++ [⟨7, true⟩] } := by
  rw [Dev.stallPage, h]
  rfl

end Stall

/-- Settles O57: an access of the window by the state of the chip and the stacks it reaches, a page by its pennant, a word
of pennants by its pages, an engine's stall by the record that stands. -/
theorem windowAndPennants : Obligations.WindowAndPennants := by
  unfold Obligations.WindowAndPennants
  refine ⟨?boot, ?fill, ?lands, ?wakes, ?returns, ?beyond, fun d => Dev.filled_states, ?startErr, ?bad,
    fun d write c hb hp => Dev.hitPage_host hb write hp, fun d c hb hp => Dev.hitPage_read hb hp, ?chipFault, ?give, ?take,
    ?stallFirst, ?stallAgain, ?noStall, ?atomic⟩
  case boot =>
    intro s off bytes hh hw hr hb hp hn
    exact hostWindowWrite_does hh hw hr (Dev.hostWrite_boot hb hp hn)
  case fill =>
    intro s off len hh hw hr hs
    exact hostWindowRead_does hh hw hr (Dev.hostRead_fill hs)
  case lands =>
    intro s off bytes d1 hh hw hr hf hn ha hs
    exact hostWindowWrite_does hh hw hr ((Dev.hostWrite_filled hf hn).trans (Dev.windowWrite_lands ha hs))
  case wakes =>
    rintro s off bytes _ hh hw hr hf hn ha rfl
    exact hostWindowWrite_does hh hw hr ((Dev.hostWrite_filled hf hn).trans (Dev.windowWrite_wakes ha))
  case returns =>
    intro s off len d1 bs ep hh hw hr hf hn ha hs
    exact hostWindowRead_does hh hw hr ((Dev.hostRead_filled hf hn).trans (Dev.windowReadout_returns ha hs))
  case beyond =>
    intro s off bytes hh hw hl hn
    exact hostWindowWrite_still hh hw (Dev.hostWrite_beyond hl hn)
  case startErr =>
    intro s off len bytes hh hr hs he
    exact ⟨fun hw => hostWindowRead_does hh hw hr (Dev.hostRead_startErr hs he),
      fun hw => hostWindowWrite_still hh hw (Dev.hostWrite_startErr hs he)⟩
  case bad =>
    intro d write c hb
    exact if_pos hb
  case chipFault =>
    intro s w v hh hr h
    exact ⟨does_of_eq (Dev.setPennants_bad true h) (pennantGive_does hh hr),
      does_of_eq (Dev.setPennants_bad false h) (pennantTake_does hh hr)⟩
  case give =>
    intro s w v hh hr h
    refine ⟨_, pennantGive_does hh hr, Dev.setPennants_only true h, fun p => ?_, Dev.setPennants_waits true h,
      Dev.setPennants_counted true h⟩
    simp only [Dev.setPennants_read true h, mem_wordPages_toNat]
    cases decide (p / 32 = w.val) && v.getLsbD (p % 32) && decide (p < s.dev.windowPages) <;> simp
  case take =>
    intro s w v hh hr h
    refine ⟨_, pennantTake_does hh hr, Dev.setPennants_only false h, fun p => ?_⟩
    simp only [Dev.setPennants_read false h, mem_wordPages_toNat]
    cases decide (p / 32 = w.val) && v.getLsbD (p % 32) && decide (p < s.dev.windowPages) <;> simp
  case stallFirst =>
    intro s p hw hs
    exact pennantStall_does hw (Dev.stallPage_first hs)
  case stallAgain =>
    intro s p hw hs
    exact pennantStall_does hw (Dev.stallPage_again hs)
  case noStall =>
    intro s p hw
    exact when_idle (c := fun d => d.host.waits.contains p.val) (f := fun d => d.stallPage p.val) rfl hw
  case atomic =>
    intro s bar off hh hl
    exact hosted_does (c := fun d => d.host.linkUp) (f := fun d => d.emit (.unsupported bar.val off)) rfl hh hl

end Sys2Proof.Machine
end


section
/-! Power-on, boot and resets (O7 to O10): the changes of the chip's state, and what a full reset leaves. -/

namespace Sys2Proof.Machine

open Sys2Proof Sys2Proof.Claims

/-- A command without a condition does what its function gives. -/
theorem always_does {s : State} {i : Instr} {f : Dev → Dev} {e : Dev} (he : exec i s = s.always f) (hf : f s.dev = e) :
    Does i s e := by
  rw [Does, he, State.always_next, hf]

/-! ### Changes of the chip's state (R433) -/

section Moves

variable {d : Dev}

theorem Dev.enter_moved {st : ChipState} (h : d.chip.state ≠ st) : d.enter st = moved d st := Dev.enter_new h

theorem Dev.tryBoot_boots (hs : d.chip.state = .keep) (hw : d.pins.pwrgood = true) (hp : d.pins.perst = false)
    (hr : d.pins.refclk = true) : d.tryBoot = moved { d with chip.stage := .rom } .boot := by
  rw [Dev.tryBoot, if_pos (by simp [hs, hw, hp, hr])]
  exact Dev.enter_moved (by simp [hs])

theorem Dev.tryBoot_state (h : d.chip.state ≠ .keep) : d.tryBoot = d := if_neg (by simp [h])
theorem Dev.tryBoot_pwrgood (h : d.pins.pwrgood = false) : d.tryBoot = d := if_neg (by simp [h])
theorem Dev.tryBoot_perst (h : d.pins.perst = true) : d.tryBoot = d := if_neg (by simp [h])

theorem Dev.startFault_moved (n : Nat) (h : d.chip.state ≠ .fault) :
    d.startFault n = moved { d with chip.startErr := n } .fault := Dev.enter_moved h

end Moves

/-- Settles O7: each command by its condition, and the boot by the lands it asks for. -/
theorem powerUp : Obligations.PowerUp := by
  unfold Obligations.PowerUp
  refine ⟨?keep, ?noClock, ?latched, ?boots, ?perst, ?perstAlone⟩
  case keep =>
    intro s hs hr hp
    refine always_does (f := Dev.vddKeepUp) rfl ?_
    rw [Dev.vddKeepUp, if_neg (not_not.mpr hs)]
    refine (if_pos hr).trans ?_
    refine (congrArg Dev.tryBoot (Dev.enter_moved ?_)).trans (Dev.tryBoot_pwrgood hp)
    show s.dev.chip.state ≠ .keep
    simp [hs]
  case noClock =>
    intro s hs hr
    refine always_does (f := Dev.vddKeepUp) rfl ?_
    rw [Dev.vddKeepUp, if_neg (not_not.mpr hs)]
    exact if_neg (by simp [hr])
  case latched =>
    intro s lands hv hw hs hp
    refine when_does (c := fun d => d.pins.vddKeep) (f := fun d => d.pwrgoodRise lands) rfl hv ?_
    refine (if_neg (by simp [hw])).trans ?_
    exact Dev.tryBoot_perst hp
  case boots =>
    intro s lands hv hw hs hp hr
    refine when_does (c := fun d => d.pins.vddKeep) (f := fun d => d.pwrgoodRise lands) rfl hv ?_
    refine (if_neg (by simp [hw])).trans ?_
    exact Dev.tryBoot_boots hs rfl hp hr
  case perst =>
    intro s hp hs hw hr
    exact when_does (c := fun d => d.pins.perst) (f := fun d => ({ d with pins.perst := false } : Dev).tryBoot) rfl hp
      (Dev.tryBoot_boots hs hw rfl hr)
  case perstAlone =>
    intro s hp hs
    exact when_does (c := fun d => d.pins.perst) (f := fun d => ({ d with pins.perst := false } : Dev).tryBoot) rfl hp
      (Dev.tryBoot_state hs)

/-! ### Boot (R433, R434, R436) -/

section Boot

variable {s : State}

theorem romReady_does {f : FlashAnswer} {l : LinkTrained} {e : Dev} (hs : s.dev.chip.state = .boot)
    (hr : s.dev.chip.stage = .rom) (he : s.dev.chip.startErr = 0) (hc : s.dev.clk.coast = false)
    (h : s.dev.romReady f l = e) : Does (.romReady ⟨f, l⟩) s e :=
  when_does (c := fun d => decide (d.chip.state = .boot) && decide (d.chip.stage = .rom) &&
    decide (d.chip.startErr = 0) && !d.clk.coast) (f := fun d => d.romReady f l) rfl (by simp [hs, hr, he, hc]) h

theorem Dev.training_of {d : Dev} (hs : d.chip.state = .boot) (ht : d.chip.stage = .train) (hc : d.clk.coast = false) :
    d.training = true := by
  simp [Dev.training, hs, ht, hc]

theorem Dev.filling_of {d : Dev} (hs : d.chip.state = .fill) (hc : d.clk.coast = false) : d.filling = true := by
  simp [Dev.filling, hs, hc]

end Boot

section Rom

variable {d : Dev} {f : FlashAnswer} {l : LinkTrained}

theorem Dev.romReady_waits (hb : d.hostBoot = true) (hp : d.sec.pushGo = false) : d.romReady f l =
    { (if d.host.linkUp then d else d.trainLink l) with clk.mgmtReady := true, chip.stage := .waitPush } := by
  refine (if_pos hb).trans ?_
  rw [hp]
  exact if_neg Bool.false_ne_true

theorem Dev.romReady_pushed (hl : d.host.linkUp = true) (hb : d.hostBoot = true) (hp : d.sec.pushGo = true) :
    d.romReady f l = { d with
      clk.mgmtReady := true, chip.stage := .verify
      sec.stagingLen := if d.sec.pushLen = 0 then 0x800000 else d.sec.pushLen } := by
  refine (if_pos hb).trans ((if_pos hp).trans ?_)
  rw [if_pos hl]
  rfl

/-- The link stands, and the flash is the source: the answer of the flash decides. -/
theorem Dev.romReady_flash (hl : d.host.linkUp = true) (hb : d.hostBoot = false) {bytes : List Byte}
    (h0 : d.chip.straps.bootSrc = 0) (hn : bytes.length ≤ 0x800000) :
    d.romReady (.image bytes) l = { d with
      clk.mgmtReady := true, chip.stage := .verify, sec.staging := Tab.writeN zeroByte [] 0 bytes
      sec.stagingLen := bytes.length } := by
  simp only [Dev.romReady, hb, hl, h0, if_true, ne_eq, not_true_eq_false, if_false, Bool.false_eq_true]
  exact if_neg (Nat.not_lt.mpr hn)

theorem Dev.romReady_noAnswer (hl : d.host.linkUp = true) (hb : d.hostBoot = false) :
    d.romReady .noAnswer l = { d with clk.mgmtReady := true, chip.startErr := 2 } := by
  simp only [Dev.romReady, hb, hl, if_true, if_false, Bool.false_eq_true]
  split <;> rfl

theorem Dev.romReady_tooLong (hl : d.host.linkUp = true) (hb : d.hostBoot = false) {bytes : List Byte}
    (hn : 0x800000 < bytes.length) :
    d.romReady (.image bytes) l = { d with clk.mgmtReady := true, chip.startErr := 2 } := by
  simp only [Dev.romReady, hb, hl, if_true, if_false, Bool.false_eq_true]
  split
  · rfl
  · exact if_pos hn

end Rom

/-- Settles O8: the ROM by its source and by a push, the links and the fill by their end. -/
theorem bootSequence : Obligations.BootSequence := by
  unfold Obligations.BootSequence
  refine ⟨?push, ?noAnswer, ?tooLong, ?flash, ?trained, ?trainTimeout, ?fillTimeout, ?filled⟩
  case push =>
    intro s f l hs hr he hc hb
    refine ⟨fun hl hp => romReady_does hs hr he hc ?_, fun hl hp => romReady_does hs hr he hc (Dev.romReady_pushed hl hb hp),
      fun hl hp => ⟨_, rfl, romReady_does hs hr he hc ?_⟩⟩
    · rw [Dev.romReady_waits hb hp, if_pos hl]
    · rw [Dev.romReady_waits hb hp, hl]
      rfl
  case noAnswer =>
    intro s l hs hr he hc hl hb
    exact romReady_does hs hr he hc (Dev.romReady_noAnswer hl hb)
  case tooLong =>
    intro s bytes l hs hr he hc hl hb hn
    exact romReady_does hs hr he hc (Dev.romReady_tooLong hl hb hn)
  case flash =>
    intro s bytes l hs hr he hc hl hb h0 hn
    exact romReady_does hs hr he hc (Dev.romReady_flash hl hb h0 hn)
  case trained =>
    intro s hs ht hc
    exact when_does (c := Dev.training) (f := Dev.linksTrained) rfl (Dev.training_of hs ht hc)
      (Dev.enter_moved (show s.dev.chip.state ≠ .fill by simp [hs]))
  case trainTimeout =>
    intro s hs ht hc
    exact when_does (c := Dev.training) (f := fun d => d.startFault 3) rfl (Dev.training_of hs ht hc)
      (Dev.startFault_moved 3 (by simp [hs]))
  case fillTimeout =>
    intro s hs hc
    exact when_does (c := Dev.filling) (f := fun d => d.startFault 4) rfl (Dev.filling_of hs hc)
      (Dev.startFault_moved 4 (by simp [hs]))
  case filled =>
    intro s hs hc
    exact when_does (c := Dev.filling) (f := Dev.fillComplete) rfl (Dev.filling_of hs hc)
      (Dev.enter_moved (show s.dev.chip.state ≠ .unstructured by simp [hs]))

/-! ### Full resets (R439, R440 Table 4) -/

theorem Dev.keepRecords_ctr (d old : Dev) (off : Nat) : (d.keepRecords old).ctr off =
    if off = thermTripsAt ∨ off = clkCoastsAt then old.ctr off else d.ctr off := by
  rw [Dev.keepRecords]
  by_cases hcoast : off = clkCoastsAt
  · rw [hcoast, Dev.setCtr_read, if_pos (.inr rfl)]
  · rw [Dev.setCtr_other _ _ _ _ hcoast]
    by_cases htrip : off = thermTripsAt
    · rw [htrip, Dev.setCtr_read, if_pos (.inl rfl)]
    · rw [Dev.setCtr_other _ _ _ _ htrip, if_neg (not_or.mpr ⟨htrip, hcoast⟩)]
      rfl

theorem Dev.ctr_congr {d e : Dev} (h : e.counters = d.counters) (off : Nat) : e.ctr off = d.ctr off := by
  rw [Dev.ctr, h, Dev.ctr]

/-- Of a full reset's counters, two are kept. -/
theorem Dev.fullReset_ctr (d : Dev) (cause off : Nat) : (d.fullReset cause).ctr off =
    if off = thermTripsAt ∨ off = clkCoastsAt then d.ctr off else Dev.reset.ctr off := by
  rw [Dev.ctr_congr (show (d.fullReset cause).counters = (d.blank.keepRecords d).counters from rfl), Dev.keepRecords_ctr,
    Dev.ctr_congr (show d.blank.counters = Dev.reset.counters from rfl)]

/-- Settles O9: the fields by the reset value, the counters by the two that are kept. -/
theorem fullResetLeaves : Obligations.FullResetLeaves := by
  unfold Obligations.FullResetLeaves
  exact fun d cause => ⟨rfl, d.fullReset_ctr cause⟩

section Resets

variable {d : Dev}

theorem Dev.bootStopped_iff : d.bootStopped = true ↔ d.chip.state = .boot ∧ d.chip.startErr ≠ 0 := by
  simp [Dev.bootStopped]

/-- A full reset that the chip comes out of at once: KEEP, and BOOT. -/
theorem Dev.hotReset_full (hc : d.clk.coast = false) (hr : (d.regsLive || d.bootStopped) = true)
    (hs : d.chip.state ≠ .keep) (hw : d.pins.pwrgood = true) (hp : d.pins.perst = false) (hf : d.pins.refclk = true) :
    d.hotReset = moved { moved (d.fullReset 3) .keep with chip.stage := .rom } .boot := by
  rw [Dev.hotReset, hc, if_neg Bool.false_ne_true, if_pos hr,
    Dev.enter_moved (show (d.fullReset 3).chip.state ≠ .keep from hs)]
  exact Dev.tryBoot_boots rfl hw hp hf

theorem Dev.hotReset_link (hc : d.clk.coast = false)
    (h : d.chip.state = .fill ∨ (d.chip.state = .boot ∧ d.chip.startErr = 0)) : d.hotReset = d.linkReset := by
  have hno : (d.regsLive || d.bootStopped) = false := by
    obtain h | ⟨h, he⟩ := h
    · simp [Dev.regsLive, Dev.bootStopped, h]
    · simp [Dev.regsLive, Dev.bootStopped, h, he]
  have hyes : (decide (d.chip.state = .boot) || decide (d.chip.state = .fill)) = true := by
    obtain h | ⟨h, -⟩ := h <;> simp [h]
  rw [Dev.hotReset, hc, hno]
  exact if_pos hyes

theorem Dev.deviceReset_key (h : (d.regsLive || d.bootStopped) = true) :
    d.deviceReset 0xD1CE = ({ (d.fullReset 4).keepLink d with chip.stage := .rom } : Dev).enter .boot :=
  if_pos (by simpa using h)

theorem Dev.deviceReset_early (h : d.chip.state = .fill ∨ (d.chip.state = .boot ∧ d.chip.startErr = 0)) (v : Nat) :
    d.deviceReset v = d := by
  refine if_neg ?_
  obtain h | ⟨h, he⟩ := h
  · simp [Dev.regsLive, Dev.bootStopped, h]
  · simp [Dev.regsLive, Dev.bootStopped, h, he]

theorem Dev.deviceReset_other {v : Nat} (h : v ≠ 0xD1CE) : d.deviceReset v = d := if_neg (by simp [h])

theorem Dev.regsLive_ne (h : d.regsLive = true) : d.chip.state ≠ .keep ∧ d.chip.state ≠ .boot := by
  obtain h | h | h := Dev.regsLive_iff.mp h <;> simp [h]

theorem Dev.perstAssert_full (ho : d.chip.state ≠ .off) (ht : d.chip.state ≠ .thermalOff) (hk : d.chip.state ≠ .keep) :
    d.perstAssert = ({ Dev.fullReset { d with pins.perst := true } 2 with clk.coast := d.clk.coast } : Dev).enter .keep := by
  rw [Dev.perstAssert]
  split
  · next h => exact absurd h ho
  · next h => exact absurd h ht
  · next h => exact absurd h hk
  · rfl

theorem Dev.pwrgoodFall_full (ho : d.chip.state ≠ .off) (ht : d.chip.state ≠ .thermalOff) :
    d.pwrgoodFall = (Dev.setCtr { Dev.blank { d with pins.pwrgood := false } with
      therm.tripValid := d.therm.tripValid, therm.tripSensor := d.therm.tripSensor }
      thermTripsAt (d.ctr thermTripsAt)).enter .keep := by
  rw [Dev.pwrgoodFall]
  split
  · next h => exact absurd h ho
  · next h => exact absurd h ht
  · rfl

end Resets

section Requests

variable {s : State}

theorem deviceReset_does {v : Word} {e : Dev} (hh : s.dev.host.held = []) (hr : s.dev.hostReach = true)
    (he : s.dev.deviceReset v.toNat = e) : Does (.deviceReset v) s e :=
  does_of_eq he (hosted_does (c := Dev.hostReach) (f := fun d => d.deviceReset v.toNat) rfl hh hr)

theorem deviceReset_still {v : Word} (hh : s.dev.host.held = []) (he : s.dev.deviceReset v.toNat = s.dev) :
    Does (.deviceReset v) s s.dev :=
  hosted_still (c := Dev.hostReach) (f := fun d => d.deviceReset v.toNat) rfl hh he

end Requests

/-- Settles O10: each cause of a reset by the states it acts in. -/
theorem resetsAndPowerLoss : Obligations.ResetsAndPowerLoss := by
  unfold Obligations.ResetsAndPowerLoss
  refine ⟨?perst, ?hotLive, ?hotStopped, ?hotLink, ?keyLive, ?keyStopped, ?keyEarly, ?otherKey, ?vddKeep, ?pwrgood,
    ?thermalOff, fun d => ⟨rfl, rfl, rfl, rfl⟩⟩
  case perst =>
    intro s hp ho ht hk
    refine when_does (c := fun d => !d.pins.perst) (f := Dev.perstAssert) rfl (by simp [hp]) ?_
    rw [Dev.perstAssert_full ho ht hk]
    exact Dev.enter_moved hk
  case hotLive =>
    intro s why hc hl hw hp hr
    exact always_does (f := Dev.hotReset) rfl
      (Dev.hotReset_full hc (by rw [hl, Bool.true_or]) (Dev.regsLive_ne hl).1 hw hp hr)
  case hotStopped =>
    intro s why hc hs he hw hp hr
    exact always_does (f := Dev.hotReset) rfl
      (Dev.hotReset_full hc (by rw [Dev.bootStopped_iff.mpr ⟨hs, he⟩, Bool.or_true]) (by simp [hs]) hw hp hr)
  case hotLink =>
    intro s why hc h
    exact always_does (f := Dev.hotReset) rfl (Dev.hotReset_link hc h)
  case keyLive =>
    intro s hh hr hl
    refine deviceReset_does hh hr ((Dev.deviceReset_key (by rw [hl, Bool.true_or])).trans ?_)
    exact Dev.enter_moved (Dev.regsLive_ne hl).2
  case keyStopped =>
    intro s hh hr hs he
    refine deviceReset_does hh hr ((Dev.deviceReset_key ?_).trans ?_)
    · rw [Dev.bootStopped_iff.mpr ⟨hs, he⟩, Bool.or_true]
    · exact if_pos hs
  case keyEarly =>
    intro s hh h
    exact deviceReset_still hh (Dev.deviceReset_early h _)
  case otherKey =>
    intro s v hh hv
    exact deviceReset_still hh (Dev.deviceReset_other fun h => hv (BitVec.eq_of_toNat_eq h))
  case vddKeep =>
    intro s hv
    exact when_does (c := fun d => d.pins.vddKeep) (f := Dev.vddKeepLoss) rfl hv rfl
  case pwrgood =>
    intro s hw ho ht hk
    refine when_does (c := fun d => d.pins.pwrgood) (f := Dev.pwrgoodFall) rfl hw ?_
    rw [Dev.pwrgoodFall_full ho ht]
    exact Dev.enter_moved hk
  case thermalOff =>
    intro s hw ht
    refine when_does (c := fun d => d.pins.pwrgood) (f := Dev.pwrgoodFall) rfl hw ?_
    rw [Dev.pwrgoodFall, ht]

end Sys2Proof.Machine
end


section
/-! The loss and return of the reference, the thermal shutdown (O11). -/

namespace Sys2Proof.Machine

open Sys2Proof Sys2Proof.Claims

/-! ### What a die's power and thermal side writes -/

/-- `d` with the stacks, counters, saturation log, events, clocks and thermal stages of the dies of `e`: what the changes of
a die's floors, stages and clocks write. -/
def Dev.dieOf (d e : Dev) : Dev :=
  { d with
    stks := e.stks, counters := e.counters, ec := e.ec
    chip := { d.chip with satValid := e.chip.satValid, satOffset := e.chip.satOffset, satAt := e.chip.satAt }
    clk.tdie := e.clk.tdie, therm.dies := e.therm.dies }

/-- `e` differs from `d` at most there. -/
def Dev.DieOnly (d e : Dev) : Prop := e = d.dieOf e

theorem Dev.DieOnly.refl (d : Dev) : d.DieOnly d := rfl

theorem Dev.DieOnly.trans {a b c : Dev} (h : a.DieOnly b) (k : b.DieOnly c) : a.DieOnly c :=
  Eq.trans k (congrArg (fun x => x.dieOf c) h)

theorem Dev.bumpBy_dieOnly (d : Dev) (off n : Nat) : d.DieOnly (d.bumpBy off n) := by
  rw [Dev.bumpBy]
  split
  · rw [Dev.saturated]
    split
    · rfl
    · split
      · rfl
      · rfl
  · rfl

theorem Dev.bump_dieOnly (d : Dev) (off : Nat) : d.DieOnly (d.bump off) := d.bumpBy_dieOnly off 1

theorem Dev.beginRule_dieOnly (d : Dev) (s w : Nat) : d.DieOnly (d.beginRule s w) :=
  Dev.DieOnly.trans (b := d.modStk s fun x =>
    { x with busy := true, frm := x.target, target := w, applied := 0, pend := none }) rfl (Dev.bump_dieOnly _ _)

theorem Dev.retarget_dieOnly (d : Dev) (s : Nat) : d.DieOnly (d.retarget s) := by
  rw [Dev.retarget]
  split
  · rfl
  · split
    · rfl
    · exact d.beginRule_dieOnly s _

theorem Dev.refloor_dieOnly (d : Dev) (s : Nat) : d.DieOnly (d.refloor s) :=
  Dev.DieOnly.trans (b := d.modStk s fun x => { x with floor := d.stackFloor s }) rfl (Dev.retarget_dieOnly _ _)

theorem Dev.refloorDie_dieOnly (d : Dev) (t : Nat) : d.DieOnly (d.refloorDie t) :=
  ((d.refloor_dieOnly _).trans (Dev.refloor_dieOnly _ _)).trans ((Dev.refloor_dieOnly _ _).trans (Dev.refloor_dieOnly _ _))

theorem Dev.keepDie_dieOnly (d old : Dev) (t : Nat) : d.DieOnly (d.keepDie old t) :=
  Dev.DieOnly.trans (b := (d.modTdie t fun x => x.keepPower (old.tdie t)).setThdie t { old.thdie t with maxed := false }) rfl
    (Dev.refloorDie_dieOnly _ _)

theorem Dev.follow_dieOnly (d : Dev) (src : Nat) (b a : Bool) : d.DieOnly (d.follow src b a) := by
  rw [Dev.follow]
  split
  · rfl
  · split
    · rfl
    · rfl

theorem Dev.startClock_dieOnly (d : Dev) (t : Nat) : d.DieOnly (d.startClock t) := by
  rw [Dev.startClock]
  split
  · rfl
  · split
    · rfl
    · rfl

theorem foldl_dieOnly {β : Type} {f : Dev → β → Dev} (h : ∀ (a : Dev) (x : β), a.DieOnly (f a x)) (l : List β) (d : Dev) :
    d.DieOnly (l.foldl f d) :=
  foldl_rel (R := Dev.DieOnly) Dev.DieOnly.refl Dev.DieOnly.trans h l d

/-- The privileged units as they were, but for what the dies' floors follow. -/
def Dev.heldPrivileged (d old : Dev) : Dev :=
  { d with
    therm := old.therm, clk.mgmtReady := old.clk.mgmtReady, twin.hbOut := old.twin.hbOut
    twin.everAttached := old.twin.everAttached, sec := old.keptSec }

theorem Dev.keepPrivileged_eq {d old e : Dev}
    (h : (List.range 6).foldl (fun a t => a.keepDie old t) (d.heldPrivileged old) = e) :
    d.keepPrivileged old = (e.follow 3 false e.anyWarn).follow 4 false e.anyReq := by
  rw [← h]
  rfl

theorem Dev.keepPrivileged_dieOnly (d old : Dev) : (d.heldPrivileged old).DieOnly (d.keepPrivileged old) := by
  rw [Dev.keepPrivileged_eq rfl]
  exact ((foldl_dieOnly (fun a t => a.keepDie_dieOnly old t) _ _).trans (Dev.follow_dieOnly _ _ _ _)).trans
    (Dev.follow_dieOnly _ _ _ _)

/-- Boot has come to the stage. -/
def Dev.atStage (d : Dev) (x : BootStage) : Dev := { d with chip.stage := x }

theorem Dev.startTraining_eq (d : Dev) : d.startTraining =
    ((List.range 6).filter (fun t => d.tdiePresent t && !d.clk.coast)).foldl Dev.startClock (d.atStage .train) := rfl

theorem Dev.startTraining_dieOnly (d : Dev) : (d.atStage .train).DieOnly d.startTraining :=
  foldl_dieOnly Dev.startClock_dieOnly _ _

/-! ### The selected PLLs (R399, R401) -/

/-- PLL A of the die is selected, and in the state given. -/
def Dev.PllA (d : Dev) (k : Nat) (x : PllSt) : Prop := (d.tdie k).sel = 0 ∧ (d.tdie k).aSt = x

theorem Dev.PllA.congr {d e : Dev} {k : Nat} {x : PllSt} (h : d.PllA k x) (ho : d.DieOnly e) (hc : e.clk = d.clk) :
    e.PllA k x := by
  have htdie : e.tdie k = d.tdie k :=
    calc e.tdie k
      _ = (d.dieOf e).tdie k := congrArg (fun a : Dev => a.tdie k) ho
      _ = Tab.read (fun _ => TDieSt.dflt d.classBudget) e.clk.tdie k := rfl
      _ = d.tdie k := by rw [hc]; rfl
  rwa [Dev.PllA, htdie]

theorem Dev.PllA.atStage {d : Dev} {k : Nat} {x : PllSt} (h : d.PllA k x) (y : BootStage) : (d.atStage y).PllA k x := h

theorem Dev.retarget_clk (d : Dev) (s : Nat) : (d.retarget s).clk = d.clk := by
  rw [Dev.retarget]
  split
  · rfl
  · split
    · rfl
    · simp [Dev.beginRule, Dev.modStk]

theorem Dev.refloorDie_clk (d : Dev) (t : Nat) : (d.refloorDie t).clk = d.clk := by
  simp [Dev.refloorDie, Dev.refloor, Dev.retarget_clk, Dev.modStk]

theorem Dev.follow_clk (d : Dev) (src : Nat) (b a : Bool) : (d.follow src b a).clk = d.clk := by
  rw [Dev.follow]
  split
  · rfl
  · split
    · rfl
    · rfl

theorem Dev.PllA.follow {d : Dev} {k : Nat} {x : PllSt} (h : d.PllA k x) (src : Nat) (b a : Bool) :
    (d.follow src b a).PllA k x :=
  h.congr (d.follow_dieOnly src b a) (d.follow_clk src b a)

/-- A die kept at the return: its PLLs are as the full reset left them. -/
theorem Dev.keepDie_pllA {d : Dev} {k : Nat} {x : PllSt} (old : Dev) (t : Nat) (h : d.PllA k x) :
    (d.keepDie old t).PllA k x := by
  have hdie : (d.modTdie t fun y => y.keepPower (old.tdie t)).PllA k x := by
    by_cases hk : k = t
    · subst hk
      rw [Dev.PllA, Dev.modTdie, Dev.setTdie_read]
      exact h
    · rwa [Dev.PllA, Dev.modTdie, Dev.setTdie_other _ _ _ _ hk]
  have hthdie : ((d.modTdie t fun y => y.keepPower (old.tdie t)).setThdie t { old.thdie t with maxed := false }).PllA k x :=
    hdie
  exact hthdie.congr (Dev.refloorDie_dieOnly _ t) (Dev.refloorDie_clk _ t)

theorem foldl_pllA {β : Type} {f : Dev → β → Dev} {k : Nat} {x : PllSt}
    (hf : ∀ (a : Dev) (y : β), a.PllA k x → (f a y).PllA k x) {l : List β} {d : Dev} (h : d.PllA k x) :
    (l.foldl f d).PllA k x := by
  induction l generalizing d with
  | nil => exact h
  | cons y r ih => exact ih (hf d y h)

theorem Dev.keepPrivileged_pllA {d : Dev} {k : Nat} {x : PllSt} (old : Dev) (h : (d.heldPrivileged old).PllA k x) :
    (d.keepPrivileged old).PllA k x := by
  rw [Dev.keepPrivileged_eq rfl]
  exact ((foldl_pllA (fun _ t => Dev.keepDie_pllA old t) h).follow _ _ _).follow _ _ _

theorem Dev.startClock_other (d : Dev) {k t : Nat} (hk : k ≠ t) : (d.startClock t).tdie k = d.tdie k := by
  rw [Dev.startClock]
  split
  · exact Dev.setTdie_other _ _ _ _ hk
  · split
    · exact Dev.setTdie_other _ _ _ _ hk
    · rfl

theorem Dev.PllA.startClock {d : Dev} {k t : Nat} {x : PllSt} (h : d.PllA k x) (hk : k ≠ t) : (d.startClock t).PllA k x := by
  rwa [Dev.PllA, Dev.startClock_other _ hk]

theorem Dev.startClock_locks {d : Dev} {k : Nat} (h : d.PllA k .stopped) : (d.startClock k).PllA k .locking := by
  obtain ⟨hs, ha⟩ := h
  rw [Dev.startClock, if_pos (by simp [hs, ha]), Dev.PllA, Dev.setTdie_read]
  exact ⟨hs, rfl⟩

/-- A PLL that locks goes on. -/
theorem Dev.startClock_locking {d : Dev} {k : Nat} (t : Nat) (h : d.PllA k .locking) : (d.startClock t).PllA k .locking := by
  obtain ⟨hs, ha⟩ := h
  by_cases hk : k = t
  · subst hk
    rw [Dev.startClock, if_neg (by simp [ha]), if_neg (by simp [hs])]
    exact ⟨hs, ha⟩
  · rw [Dev.PllA, Dev.startClock_other _ hk]
    exact ⟨hs, ha⟩

theorem foldl_startClock_locks {l : List Nat} {d : Dev} {k : Nat} (hk : k ∈ l) (h : d.PllA k .stopped) :
    (l.foldl Dev.startClock d).PllA k .locking := by
  induction l generalizing d with
  | nil => cases hk
  | cons t r ih =>
    by_cases ht : k = t
    · subst ht
      exact foldl_pllA (l := r) (fun _ y => Dev.startClock_locking y) (Dev.startClock_locks h)
    · exact ih ((List.mem_cons.mp hk).resolve_left ht) (h.startClock ht)

/-! ### The return of the reference (R414, R440) -/

theorem Dev.tdiePresent_lt {d : Dev} {t : Nat} (h : d.tdiePresent t = true) : t < 6 := by
  rw [Dev.tdiePresent] at h
  split at h
  · simp_all
  · simpa using h

/-- What the dies do not write stands. -/
theorem Dev.DieOnly.keeps {d e : Dev} (h : d.DieOnly e) {α : Type} (g : Dev → α) (hg : ∀ a b : Dev, g (a.dieOf b) = g a) :
    g e = g d :=
  (congrArg g h).trans (hg d e)

theorem Dev.DieOnly.atStage {d e : Dev} (h : d.DieOnly e) (x : BootStage) : (d.atStage x).DieOnly (e.atStage x) :=
  show e.atStage x = (d.dieOf e).atStage x from congrArg (fun a : Dev => a.atStage x) h

theorem Sec.append_firmware (x : Sec) (m : Meas) :
    (x.append m).fwValid = x.fwValid ∧ (x.append m).fwDigest = x.fwDigest := by
  rw [Sec.append]
  split
  · exact ⟨rfl, rfl⟩
  · exact ⟨rfl, rfl⟩

theorem Sec.bootEntries_firmware (x : Sec) :
    x.bootEntries.fwValid = x.fwValid ∧ x.bootEntries.fwDigest = x.fwDigest := by
  rw [Sec.bootEntries, (Sec.append_firmware _ _).1, (Sec.append_firmware _ _).2]
  exact Sec.append_firmware _ _

theorem Dev.keptSec_firmware {d : Dev} (h : d.sec.fwValid = true) :
    d.keptSec.fwValid = true ∧ d.keptSec.fwDigest = d.sec.fwDigest := by
  rw [Dev.keptSec, if_pos h, (Sec.bootEntries_firmware _).1, (Sec.bootEntries_firmware _).2]
  exact ⟨h, rfl⟩

/-- The device at the return, the dies' own state apart, when boot goes on at the links. -/
def Dev.returned (d : Dev) : Dev := ((d.fullReset 5).heldPrivileged d).atStage .train

/-- Boot goes on at the training of the links. -/
def Dev.retrained (d : Dev) : Dev := d.returnReset.startTraining

section Return
variable {d : Dev} (hk : d.chip.state ≠ .keep)
include hk

theorem Dev.returnReset_eq : d.returnReset = ((d.fullReset 5).keepPrivileged d).bump clkCoastsAt := by
  rw [Dev.returnReset, if_neg (by simp [hk])]

theorem Dev.returnReset_dieOnly : ((d.fullReset 5).heldPrivileged d).DieOnly d.returnReset := by
  rw [Dev.returnReset_eq hk]
  exact (Dev.keepPrivileged_dieOnly _ _).trans (Dev.bump_dieOnly _ _)

theorem Dev.retrained_dieOnly : d.returned.DieOnly d.retrained :=
  ((Dev.returnReset_dieOnly hk).atStage .train).trans (Dev.startTraining_dieOnly _)

theorem Dev.returnReset_pllA (k : Nat) : d.returnReset.PllA k .stopped := by
  rw [Dev.returnReset_eq hk]
  have hreset : ((d.fullReset 5).heldPrivileged d).PllA k .stopped := ⟨rfl, rfl⟩
  exact (Dev.keepPrivileged_pllA d hreset).congr (Dev.bump_dieOnly _ _) (by simp)

theorem Dev.retrained_pllA {k : Nat} (hp : d.tdiePresent k = true) : d.retrained.PllA k .locking := by
  have hr := Dev.returnReset_dieOnly hk
  have hfuses : d.returnReset.fuses = d.fuses := hr.keeps Dev.fuses fun _ _ => rfl
  have hcoast : d.returnReset.clk.coast = false := hr.keeps (·.clk.coast) fun _ _ => rfl
  have hpresent : d.returnReset.tdiePresent k = true :=
    (Dev.tdiePresent_of_grade_eq (congrArg Fuses.grade hfuses) k).trans hp
  have hstopped : (d.returnReset.atStage .train).PllA k .stopped := (Dev.returnReset_pllA hk k).atStage .train
  rw [Dev.retrained, Dev.startTraining_eq]
  exact foldl_startClock_locks (by simp [hpresent, hcoast, Dev.tdiePresent_lt hp]) hstopped

end Return

theorem Dev.referenceReturn_boots {d d1 : Dev} (hc : d.clk.coast = true) (hk : d.chip.state ≠ .keep)
    (hb : d.chip.state ≠ .boot) (hp : d.pins.perst = false) (hw : d.pins.pwrgood = true) (hf : d.sec.fwValid = true)
    (h1 : d1 = { d with pins.refclk := true }) :
    d.referenceReturn = (moved d1.retrained .boot).drawn.trainLink (moved d1.retrained .boot).freeTraining := by
  have ht : d1.returned.DieOnly d1.retrained := Dev.retrained_dieOnly (by rw [h1]; exact hk)
  have hstate : d1.retrained.chip.state ≠ .boot := by
    rw [ht.keeps (·.chip.state) (fun _ _ => rfl), h1]
    exact hb
  have hstage : d1.retrained.chip.stage = .train := ht.keeps (·.chip.stage) fun _ _ => rfl
  have hon : d1.returnReset.bootsOn d = d1.retrained := if_pos hf
  rw [Dev.referenceReturn, if_pos hc, if_neg (by simp [hk, hp, hw])]
  show ((Dev.bootsOn (Dev.returnReset { d with pins.refclk := true }) d).enter .boot).linkAgain = _
  rw [← h1, hon, Dev.enter_moved hstate]
  exact if_neg (by simp [moved, hstage])

/-! ### The thermal shutdown (R424, R425) -/

theorem dramSensor_iff {n : Nat} : dramSensor n = true ↔ 96 ≤ n ∧ n < 192 := by simp [dramSensor]

theorem restartOf_eq (n : Nat) : restartOf n = if 96 ≤ n ∧ n < 192 then 85 else 95 := by
  simp only [restartOf, shutdownOf, dramSensor_iff]
  split <;> rfl

theorem Dev.coolEnough_iff {d : Dev} : d.coolEnough = true ↔ ∀ n : Nat, n < 196 → d.sensorPresent n = true →
    (d.temp n).toInt ≤ 16 * (if 96 ≤ n ∧ n < 192 then 85 else 95) := by
  simp only [Dev.coolEnough, List.all_eq_true, List.mem_range, Bool.or_eq_true, Bool.not_eq_true', atOrBelow,
    decide_eq_true_eq, restartOf_eq]
  refine forall_congr' fun n => forall_congr' fun _ => ?_
  cases d.sensorPresent n with
  | false => simp
  | true => split <;> simp

theorem Dev.sensorPresent_of_grade_eq {d e : Dev} (h : e.fuses.grade = d.fuses.grade) (n : Nat) :
    e.sensorPresent n = d.sensorPresent n := by
  rw [Dev.sensorPresent, Dev.sensorPresent, Dev.tdiePresent_of_grade_eq h, Dev.stackPresent_of_grade_eq h]

/-- The tripped sensor reads its shutdown threshold at least. -/
theorem Dev.tripTemp_temp (d : Dev) (n : Nat) : 16 * (shutdownOf n : Int) ≤ ((d.tripTemp n).temp n).toInt := by
  rw [Dev.tripTemp]
  split
  · next h => simpa [atOrAbove] using h
  · rw [Dev.temp]
    dsimp only
    rw [Tab.read_write_same, shutdownOf]
    split <;> decide

theorem Dev.tripTemp_other (d : Dev) {n k : Nat} (hk : k ≠ n) : (d.tripTemp n).temp k = d.temp k := by
  rw [Dev.tripTemp]
  split
  · rfl
  · exact Tab.read_write_other hk

theorem Dev.tripTemp_only (d : Dev) (n : Nat) : d.tripTemp n = { d with pins.temps := (d.tripTemp n).pins.temps } := by
  rw [Dev.tripTemp]
  split
  · rfl
  · rfl

/-- After a trip the chip is not cool enough: the tripped sensor is above its restart level. -/
theorem Dev.coolEnough_tripped {d e : Dev} {n : Nat} (hn : n < 196) (hp : d.sensorPresent n = true)
    (hg : e.fuses.grade = d.fuses.grade) (ht : e.pins = (d.tripTemp n).pins) : e.coolEnough = false := by
  refine Bool.eq_false_iff.mpr fun hcool => ?_
  have hle := Dev.coolEnough_iff.mp hcool n hn ((Dev.sensorPresent_of_grade_eq hg n).trans hp)
  have hge := d.tripTemp_temp n
  rw [show e.temp n = (d.tripTemp n).temp n by rw [Dev.temp, ht, Dev.temp]] at hle
  simp only [shutdownOf, dramSensor_iff] at hge
  split at hge <;> simp_all <;> omega

theorem Dev.thermalTrip_off {d : Dev} (hs : d.chip.state = .thermalOff) (n : Nat) : d.thermalTrip n = d.tripTemp n := by
  rw [Dev.thermalTrip, hs]

theorem Dev.thermalTrip_ready {d : Dev} (hs : d.chip.state = .ready) (n : Nat) : d.thermalTrip n =
    { ((d.tripTemp n).blank.keepRecords d).bump thermTripsAt with
      chip.state := .thermalOff, therm.tripValid := true, therm.tripSensor := n, ec.inbox := [] } := by
  rw [Dev.thermalTrip, hs]

theorem thermalTrip_does {s : State} {n : Fin 196} (hp : s.dev.sensorPresent n.val = true) :
    Does (.thermalTrip n) s (s.dev.thermalTrip n.val) :=
  when_does (c := fun d => d.sensorPresent n.val) (f := fun d => d.thermalTrip n.val) rfl hp rfl

theorem Dev.thermalRestart_not {d : Dev} (h : d.pins.pwrgood = false ∨ d.coolEnough = false) : d.thermalRestart = d :=
  if_neg (by obtain h | h := h <;> simp [h])

theorem Dev.thermalRestart_keeps {d : Dev} (hs : d.chip.state = .thermalOff) (hc : d.coolEnough = true)
    (hw : d.pins.pwrgood = true) (hp : d.pins.perst = true) : d.thermalRestart =
      moved { d.fullReset 1 with chip := { (d.fullReset 1).chip with straps := d.pins.lands } } .keep := by
  have hstate : (d.fullReset 1).chip.state ≠ .keep := by
    show d.chip.state ≠ .keep
    simp [hs]
  rw [Dev.thermalRestart, if_pos (by simp [hs, hw, hc])]
  refine (congrArg Dev.tryBoot (Dev.enter_moved (d := { d.fullReset 1 with chip.straps := d.pins.lands }) hstate)).trans ?_
  exact Dev.tryBoot_perst hp

/-! ### The loss of the reference (R412, R413) -/

theorem Dev.stopPlls_dieOnly (d : Dev) : d.DieOnly d.stopPlls := 
  foldl_dieOnly (f := fun a t => a.modTdie t fun x => { x with aSt := .stopped, bSt := .stopped }) (fun _ _ => rfl) _ _

/-- The device as the loss leaves it: what is kept, and the clocks of `d2`, whose PLLs have stopped. -/
def Dev.coasting (d d2 : Dev) : Dev :=
  Dev.emit { d2.blank with
    chip := d.chip, counters := d.counters, therm := d.therm, sec := d.sec, dram := d.dram, parity := d.parity
    clk := { d2.clk with coast := true, coastSeen := true, fabricReady := false, stackAwake := 0,
                         regionQ := [], stackQ := [], regionGranted := [], stackGranted := [] }
    twin := { d2.blank.twin with code := if d.twin.st = 2 then 3 else d.twin.code, hbOut := d.twin.hbOut,
                                 everAttached := d.twin.everAttached } } .mgmtIrq

theorem Dev.referenceLoss_ready {d d2 : Dev} (hs : d.chip.state = .ready)
    (h2 : Dev.stopPlls { d with pins.refclk := false } = d2) : d.referenceLoss = d.coasting d2 := by
  rw [← h2, Dev.referenceLoss]
  simp only [hs]
  rfl

theorem referenceLoss_does {s : State} {e : Dev} (hr : s.dev.pins.refclk = true) (he : s.dev.referenceLoss = e) :
    Does .referenceLoss s e :=
  when_does (c := fun d => d.pins.refclk) (f := Dev.referenceLoss) rfl hr he

theorem referenceReturn_does {s : State} {e : Dev} (hr : s.dev.pins.refclk = false) (he : s.dev.referenceReturn = e) :
    Does .referenceReturn s e :=
  when_does (c := fun d => !d.pins.refclk) (f := Dev.referenceReturn) rfl (by simp [hr]) he

theorem referenceLoss_leaves : ∀ s : State, s.dev.pins.refclk = true → s.dev.chip.state = .ready →
    ∃ e : Dev, Does .referenceLoss s e ∧ e.pins = { s.dev.pins with refclk := false } ∧ e.clk.coast = true ∧
      e.clk.coastSeen = true ∧ e.clk.stackAwake = 0 ∧ e.host.linkUp = false ∧
      e.out = s.dev.out ++ [.mgmtIrq] ∧ e.twin.st = 0 ∧ (s.dev.twin.st = 2 → e.twin.code = 3) ∧
      e.twin.hbOut = s.dev.twin.hbOut ∧ e.fuses = s.dev.fuses ∧ e.chip = s.dev.chip ∧ e.counters = s.dev.counters ∧
      e.therm = s.dev.therm ∧ e.sec = s.dev.sec ∧ e.dram = s.dev.dram ∧ e.parity = s.dev.parity ∧ e.blocks = [] ∧
      e.doms = [] ∧ e.stks = [] := by
  intro s hr hs
  obtain ⟨d2, h2⟩ : ∃ d2, Dev.stopPlls { s.dev with pins.refclk := false } = d2 := ⟨_, rfl⟩
  have hd2 : Dev.DieOnly { s.dev with pins.refclk := false } d2 := h2 ▸ Dev.stopPlls_dieOnly _
  have hpins : d2.pins = { s.dev.pins with refclk := false } := hd2.keeps Dev.pins fun _ _ => rfl
  have hfuses : d2.fuses = s.dev.fuses := hd2.keeps Dev.fuses fun _ _ => rfl
  have hout : d2.out = s.dev.out := hd2.keeps Dev.out fun _ _ => rfl
  exact ⟨s.dev.coasting d2, referenceLoss_does hr (Dev.referenceLoss_ready hs h2),
    hpins, rfl, rfl, rfl, rfl, congrArg (· ++ [Out.mgmtIrq]) hout, rfl, fun ht => if_pos ht, rfl, hfuses, rfl, rfl, rfl,
    rfl, rfl, rfl, rfl, rfl, rfl⟩

theorem referenceReturn_leaves : ∀ s : State, s.dev.pins.refclk = false → s.dev.clk.coast = true → s.dev.chip.state = .ready →
    s.dev.pins.perst = false → s.dev.pins.pwrgood = true → s.dev.sec.fwValid = true →
    ∃ e : Dev, Does .referenceReturn s e ∧ e.chip.state = .boot ∧ e.chip.stage = .train ∧ e.chip.lastReset = 5 ∧
      e.clk.coast = false ∧ e.host.linkUp = true ∧
      e.sec.fwValid = true ∧ e.sec.fwDigest = s.dev.sec.fwDigest ∧ e.therm.sensors = s.dev.therm.sensors ∧
      e.twin.hbOut = s.dev.twin.hbOut ∧ e.twin.everAttached = s.dev.twin.everAttached ∧ e.dram = [] ∧
      e.img = Dev.reset.img ∧ e.pins = { s.dev.pins with refclk := true } ∧
      (∀ t : Nat, s.dev.tdiePresent t = true → (e.tdie t).sel = 0 ∧ (e.tdie t).aSt = .locking) := by
  intro s hr hc hs hp hw hf
  obtain ⟨d1, h1⟩ : ∃ d1 : Dev, d1 = { s.dev with pins.refclk := true } := ⟨_, rfl⟩
  have hk : d1.chip.state ≠ .keep := by simp [h1, hs]
  have hf1 : d1.sec.fwValid = true := h1 ▸ hf
  obtain ⟨t, ht⟩ : ∃ t, d1.retrained = t := ⟨_, rfl⟩
  have hr1 : d1.returned.DieOnly t := ht ▸ Dev.retrained_dieOnly hk
  have hreturn := Dev.referenceReturn_boots hc (by simp [hs]) (by simp [hs]) hp hw hf h1
  rw [ht] at hreturn
  have hstage : t.chip.stage = .train := hr1.keeps (·.chip.stage) fun _ _ => rfl
  have hcause : t.chip.lastReset = 5 := hr1.keeps (·.chip.lastReset) fun _ _ => rfl
  have hcoast : t.clk.coast = false := hr1.keeps (·.clk.coast) fun _ _ => rfl
  have hsec : t.sec = d1.keptSec := hr1.keeps (·.sec) fun _ _ => rfl
  have hvalid : t.sec.fwValid = true := hsec ▸ (Dev.keptSec_firmware hf1).1
  have hdigest : t.sec.fwDigest = s.dev.sec.fwDigest := by rw [hsec, (Dev.keptSec_firmware hf1).2, h1]
  have hsensors : t.therm.sensors = s.dev.therm.sensors := by rw [hr1.keeps (·.therm.sensors) (fun _ _ => rfl), h1]; rfl
  have hbeat : t.twin.hbOut = s.dev.twin.hbOut := by rw [hr1.keeps (·.twin.hbOut) (fun _ _ => rfl), h1]; rfl
  have hever : t.twin.everAttached = s.dev.twin.everAttached := by rw [hr1.keeps (·.twin.everAttached) (fun _ _ => rfl), h1]; rfl
  have hdram : t.dram = [] := hr1.keeps Dev.dram fun _ _ => rfl
  have himg : t.img = Dev.reset.img := hr1.keeps Dev.img fun _ _ => rfl
  have hpins : t.pins = { s.dev.pins with refclk := true } := by rw [hr1.keeps Dev.pins (fun _ _ => rfl), h1]; rfl
  refine ⟨_, referenceReturn_does hr hreturn, rfl, hstage, hcause, hcoast, rfl, hvalid, hdigest, hsensors, hbeat, hever,
    hdram, himg, hpins, fun k hpk => ?_⟩
  have hpll : t.PllA k .locking := ht ▸ Dev.retrained_pllA hk (h1 ▸ hpk)
  exact hpll

theorem thermalTrip_leaves : ∀ (s : State) (n : Fin 196), s.dev.sensorPresent n.val = true → s.dev.chip.state = .ready →
    ∃ e : Dev, Does (.thermalTrip n) s e ∧ e.chip.state = .thermalOff ∧ e.therm.tripValid = true ∧
      e.therm.tripSensor = n.val ∧ e.dram = [] ∧ e.img = Dev.reset.img ∧ e.serve = Dev.reset.serve ∧
      e.pins = { s.dev.pins with temps := e.pins.temps } ∧ e.chip.straps = s.dev.chip.straps ∧
      e.clk.coastSeen = s.dev.clk.coastSeen ∧ e.coolEnough = false := by
  intro s n hp hs
  obtain ⟨d1, h1⟩ : ∃ d1, s.dev.tripTemp n.val = d1 := ⟨_, rfl⟩
  obtain ⟨d2, h2⟩ : ∃ d2, (d1.blank.keepRecords s.dev).bump thermTripsAt = d2 := ⟨_, rfl⟩
  have hd2 : (d1.blank.keepRecords s.dev).DieOnly d2 := h2 ▸ Dev.bump_dieOnly _ _
  have ht : d1 = { s.dev with pins.temps := d1.pins.temps } := h1 ▸ s.dev.tripTemp_only n.val
  have htrip := Dev.thermalTrip_ready hs n.val
  rw [h1, h2] at htrip
  have hdram : d2.dram = [] := hd2.keeps Dev.dram fun _ _ => rfl
  have himg : d2.img = Dev.reset.img := hd2.keeps Dev.img fun _ _ => rfl
  have hserve : d2.serve = Dev.reset.serve := hd2.keeps Dev.serve fun _ _ => rfl
  have hpins : d2.pins = d1.pins := hd2.keeps Dev.pins fun _ _ => rfl
  have hkept : d2.pins = { s.dev.pins with temps := d2.pins.temps } := by rw [hpins, ht]
  have hstraps : d2.chip.straps = s.dev.chip.straps := by rw [hd2.keeps (·.chip.straps) (fun _ _ => rfl), ht]; rfl
  have hcoast : d2.clk.coastSeen = s.dev.clk.coastSeen := hd2.keeps (·.clk.coastSeen) fun _ _ => rfl
  have hgrade : d2.fuses.grade = s.dev.fuses.grade := by rw [hd2.keeps Dev.fuses (fun _ _ => rfl), ht]; rfl
  exact ⟨_, does_of_eq htrip (thermalTrip_does hp), rfl, rfl, rfl, hdram, himg, hserve, hkept, hstraps, hcoast,
    Dev.coolEnough_tripped n.isLt hp hgrade (h1 ▸ hpins)⟩

/-- Settles O11: the loss and the return field by field, the return's dies by the PLL that each selects; the trip by its
sensor's threshold, the restart by the sensors, PWRGOOD and PERST#. -/
theorem referenceAndThermalLoss : Obligations.ReferenceAndThermalLoss := by
  unfold Obligations.ReferenceAndThermalLoss
  refine ⟨referenceLoss_leaves, referenceReturn_leaves, ?noCoast, thermalTrip_leaves, ?tripOff, fun d => Dev.coolEnough_iff, ?warm, ?restart, ?noPower⟩
  case noCoast =>
    intro s hr hc hs
    refine referenceReturn_does hr ?_
    rw [Dev.referenceReturn, hc, if_neg Bool.false_ne_true, if_neg (by simp [hs])]
    exact Dev.tryBoot_state (by simp [hs])
  case tripOff =>
    intro s n hs hp
    exact ⟨_, does_of_eq (Dev.thermalTrip_off hs n.val) (thermalTrip_does hp), s.dev.tripTemp_only n.val,
      Dev.coolEnough_tripped n.isLt hp (by rw [s.dev.tripTemp_only n.val]) rfl, fun k hk => s.dev.tripTemp_other hk⟩
  case warm =>
    intro s hs hc
    exact always_does (f := Dev.thermalRestart) rfl (Dev.thermalRestart_not (.inr hc))
  case restart =>
    intro s hs hc hw hp
    exact always_does (f := Dev.thermalRestart) rfl (Dev.thermalRestart_keeps hs hc hw hp)
  case noPower =>
    intro s hs hw
    exact always_does (f := Dev.thermalRestart) rfl (Dev.thermalRestart_not (.inl hw))

end Sys2Proof.Machine
end


section
/-! Configuration requests, the loss of an I/O die, the test port and the transmitters (O12). -/

namespace Sys2Proof.Machine

open Sys2Proof Sys2Proof.Claims

/-! ### Configuration requests (R356, R435) -/

section Config

variable {s : State} {q : ConfigReq}

theorem configRequest_does {e : Dev} (h : s.dev.configRequest q = e) : Does (.configRequest q) s e :=
  always_does (f := fun d => d.configRequest q) rfl h

theorem Dev.flushVectors_none {d : Dev} (h : d.host.pba = []) : d.flushVectors = d := by
  rw [Dev.flushVectors, h]
  rfl

theorem Dev.configRequest_down {d : Dev} (h : d.host.linkUp = false) : d.configRequest q = d := if_pos (by simp [h])

theorem Dev.configRequest_retry {d : Dev} (hl : d.host.linkUp = true) (hc : d.configOk = false) :
    d.configRequest q = d.emit .configRetry := by
  simp [Dev.configRequest, hl, hc]

variable {d : Dev} (hl : d.host.linkUp = true) (hc : d.configOk = true)
include hl hc

theorem Dev.configRequest_read (item : ConfigItem) :
    d.configRequest (.read item) = d.emit (.configData item (d.configValue item)) := by
  simp only [Dev.configRequest, hl, hc, Bool.not_true, Bool.false_eq_true, if_false]

theorem Dev.configRequest_bar (b : Bar) (a : BitVec 64) : d.configRequest (.writeBar b a) = Dev.emit { d with
    host.bars := Tab.write (fun _ => 0) d.host.bars (barNumber b) (d.barAddr b a) } .configDone := by
  simp only [Dev.configRequest, hl, hc, Bool.not_true, Bool.false_eq_true, if_false]

theorem Dev.configRequest_sizes (p r : Nat) : d.configRequest (.writeSizes p r) = Dev.emit { d with
    host.maxPayload := if payloadSizes.contains p then p else d.host.maxPayload
    host.maxRead := if readSizes.contains r then r else d.host.maxRead } .configDone := by
  simp only [Dev.configRequest, hl, hc, Bool.not_true, Bool.false_eq_true, if_false]

theorem Dev.configRequest_command (bm me fm d3 : Bool) (hp : d.host.pba = []) : d.configRequest (.write bm me fm d3) =
    Dev.emit { d with host := { d.host with busMaster := bm, msixEnable := me, functionMask := fm, d3hot := d3 } }
      .configDone := by
  simp only [Dev.configRequest, hl, hc, Bool.not_true, Bool.false_eq_true, if_false]
  exact Dev.flushVectors_none hp

end Config

/-! ### The test port (R490) -/

theorem tap_does {s : State} {i : Instr} {f : Dev → Dev} (he : exec i s = s.always fun d => d.when d.tapOn f)
    (hv : s.dev.pins.vddKeep = true) : Does i s (f s.dev) := when_does (c := Dev.tapOn) he hv rfl

theorem tap_idle {s : State} {i : Instr} {f : Dev → Dev} (he : exec i s = s.always fun d => d.when d.tapOn f)
    (hv : s.dev.pins.vddKeep = false) : Does i s s.dev := when_idle (c := Dev.tapOn) he hv

theorem Dev.outLevels_length (d : Dev) : d.outLevels.length = 14 := by
  have hspi : d.spiLevels.length = 6 := by
    rw [Dev.spiLevels]
    split
    · simp
    · rfl
  simp [Dev.outLevels, hspi]

theorem Dev.landOutputs_length (d : Dev) : d.landOutputs.length = 14 := by
  rw [Dev.landOutputs]
  split
  · simp
  · split
    · rfl
    · exact d.outLevels_length

theorem Dev.inLevels_length (d : Dev) : d.inLevels.length = 28 := by simp [Dev.inLevels, Straps.bits]

/-! ### The transmitters (R487) -/

section Transmitters

variable {d : Dev}

theorem Dev.hostTx_perst (h : d.pins.perst = true) : d.hostTx = .highZ := by simp [Dev.hostTx, h]

theorem Dev.hostTx_off (h : d.chip.state = .off ∨ d.chip.state = .keep ∨ d.chip.state = .thermalOff) :
    d.hostTx = .highZ := by
  obtain h | h | h := h <;> simp [Dev.hostTx, h]

theorem Dev.hostTx_fault (hs : d.chip.state = .fault) (hv : d.pins.vddKeep = true) (hw : d.pins.pwrgood = true)
    (hp : d.pins.perst = false) (hc : d.clk.coast = false) (hl : d.host.linkUp = true) : d.hostTx = .drives := by
  simp [Dev.hostTx, hs, hv, hw, hp, hc, hl]

theorem Dev.resting_of (h : d.restingState = true) : d.resting = true := by rw [Dev.resting, h, Bool.or_true]

theorem Dev.spanTx_resting (h : d.restingState = true) (p : Nat) : d.spanTx p = .highZ := by
  simp [Dev.spanTx, Dev.resting_of h]

theorem Dev.spanTx_absent (h : d.spanPresent = false) (p : Nat) : d.spanTx p = .highZ := by simp [Dev.spanTx, h]

theorem Dev.twinTx_resting (h : d.restingState = true) : d.twinTx = .highZ := if_pos (Dev.resting_of h)

theorem Dev.restingState_iff : d.restingState = true ↔
    d.chip.state = .off ∨ d.chip.state = .keep ∨ d.chip.state = .thermalOff ∨ d.chip.state = .fault := by
  rw [Dev.restingState]
  cases d.chip.state <;> simp

end Transmitters

theorem Dev.chipFault_ready {d : Dev} (h : d.chip.state = .ready) (code : Nat) :
    d.chipFault code = moved { d with chip.faultCode := code } .fault := by
  rw [Dev.chipFault, if_pos (by simp [h])]
  exact Dev.enter_moved (by simp [h])

theorem idcodeWord_fields : idcodeWord.toNat / 2 ^ 28 = 1 ∧ idcodeWord.toNat / 2 ^ 12 % 2 ^ 16 = 0xC240 ∧
    idcodeWord.toNat % 2 = 1 := by
  have hm := Config.manufacturer.isLt
  rw [idcodeWord, BitVec.toNat_ofNat]
  omega

/-- Settles O12: a configuration request by the link, the function and the item; the test port by its supply; each
transmitter by what puts it at rest. -/
theorem configurationAndTestPort : Obligations.ConfigurationAndTestPort := by
  unfold Obligations.ConfigurationAndTestPort
  refine ⟨?down, ?retry, ?read, ?values, ?bar, ?sizes, ?command, ?ioLost, ?taps, ?sample, ?chain, ?off,
    fun d => Dev.hostTx_perst, ?fault, fun d p h => Dev.spanTx_absent h p, ?unpowered, ?bypass, ?perst, idcodeWord_fields⟩
  case down =>
    intro s q hl
    exact configRequest_does (Dev.configRequest_down hl)
  case retry =>
    intro s q hl hc
    exact configRequest_does (Dev.configRequest_retry hl hc)
  case read =>
    intro s hl hc item
    exact configRequest_does (Dev.configRequest_read hl hc item)
  case values =>
    exact fun d => ⟨rfl, rfl, rfl, rfl, rfl, rfl, rfl, rfl, rfl, fun b => rfl, rfl, rfl, rfl⟩
  case bar =>
    intro s b a hl hc
    exact configRequest_does (Dev.configRequest_bar hl hc b a)
  case sizes =>
    intro s p r hl hc
    refine ⟨fun hp hr => configRequest_does ?_, fun hp hr => configRequest_does ?_⟩
    · rw [Dev.configRequest_sizes hl hc, if_pos (show payloadSizes.contains p = true from List.contains_iff_mem.mpr hp),
        if_pos (show readSizes.contains r = true from List.contains_iff_mem.mpr hr)]
      rfl
    · rw [Dev.configRequest_sizes hl hc, if_neg (show ¬ payloadSizes.contains p = true from fun h => hp (List.contains_iff_mem.mp h)),
        if_neg (show ¬ readSizes.contains r = true from fun h => hr (List.contains_iff_mem.mp h))]
      rfl
  case command =>
    intro s bm me fm d3 hl hc hp
    exact configRequest_does (Dev.configRequest_command hl hc bm me fm d3 hp)
  case ioLost =>
    intro s io hs
    exact when_does (c := Dev.regsLive) (f := fun d =>
      Dev.chipFault { d with chip.ioLost := d.chip.ioLost ||| BitVec.ofNat 2 (2 ^ io.val) } codeIodieLost) rfl
      (Dev.regsLive_iff.mpr (.inr (.inl hs)))
      (Dev.chipFault_ready
        (d := { s.dev with chip.ioLost := s.dev.chip.ioLost ||| BitVec.ofNat 2 (2 ^ io.val) }) hs codeIodieLost)
  case taps =>
    intro s hv
    exact ⟨tap_does (f := fun d => d.tapLoad tapBypass) rfl hv, tap_does (f := fun d => d.tapLoad tapExtest) rfl hv,
      tap_does (f := fun d => d.tapLoad tapClamp) rfl hv, tap_does (f := fun d => d.tapLoad tapHighz) rfl hv,
      tap_does (f := fun d => (d.tapLoad tapIdcode).emit (.tdo ((List.range 32).map idcodeWord.getLsbD))) rfl hv⟩
  case sample =>
    intro s shift hv hw
    refine checked_does (f := fun d => d.when d.tapOn fun d => { (d.tapLoad tapSample).emit
      (.tdo ((d.tapLoad tapSample).landOutputs ++ d.inLevels)) with tap.bsr := shift, free := d.free + 1 }) rfl hw ?_
    rw [show s.dev.tapOn = true from hv, Dev.when_true]
    rfl
  case chain =>
    intro d
    rw [List.length_append, d.landOutputs_length, d.inLevels_length]
    exact ⟨rfl, rfl⟩
  case off =>
    intro d p h
    have hrest : d.restingState = true := Dev.restingState_iff.mpr (by tauto)
    exact ⟨Dev.hostTx_off h, Dev.spanTx_resting hrest p, Dev.twinTx_resting hrest⟩
  case fault =>
    intro d p h
    have hrest : d.restingState = true := Dev.restingState_iff.mpr (.inr (.inr (.inr h)))
    exact ⟨Dev.spanTx_resting hrest p, Dev.twinTx_resting hrest, Dev.hostTx_fault h⟩
  case unpowered =>
    intro s hv
    exact ⟨tap_idle rfl hv, tap_idle rfl hv, tap_idle rfl hv, tap_idle rfl hv, tap_idle rfl hv⟩
  case bypass =>
    intro d hp hi
    exact if_pos (by simp [hp, hi])
  case perst =>
    intro d hp
    exact if_neg (by simp [hp])

end Sys2Proof.Machine
end


section
/-! The event concentrator (O13 to O17): delivery, messages, CLAIM and EOI, the words of pending and mask bits. -/

namespace Sys2Proof.Machine

open Sys2Proof Sys2Proof.Claims

/-! ### Register accesses of an agent (R368) -/

section Asked

variable {s : State} {who : Agent} {i : Instr} {f : Dev → Dev} {e : Dev}
  (he : exec i s = s.asked who i fun d => d.when (d.reaches who) f) (ht : InTurn who s.dev)
include he ht

theorem asked_does (hr : s.dev.reaches who = true) (hf : f s.dev = e) : Does i s e := by
  rw [Does, he, State.asked, State.always_next, Dev.ask_of_inTurn ht, hr, Dev.when_true, hf]

theorem asked_still (hf : f s.dev = s.dev) : Does i s s.dev := by
  cases hr : s.dev.reaches who with
  | true => exact asked_does he ht hr hf
  | false => rw [Does, he, State.asked, State.always_next, Dev.ask_of_inTurn ht, hr, Dev.when_false]

end Asked

/-! ### Which sources a raise reaches (R383) -/

section Raisable

variable {d : Dev} {n : Nat}

theorem Dev.raisable_unlisted (h : listedSource n = false) : d.raisable n = false := by rw [Dev.raisable, h, Bool.false_and]

theorem Dev.raisable_region {r : Nat} (hr : r < 12) : d.raisable (16 + r) = d.regionPresent r := by
  have hl : listedSource (16 + r) = true := by simp [listedSource]; omega
  rw [Dev.raisable, hl, Bool.true_and, if_pos (by simp only [Bool.and_eq_true, decide_eq_true_eq]; omega), Nat.add_sub_cancel_left]

theorem Dev.raisable_queues {r : Nat} (hr : r < 12) : d.raisable (28 + r) = d.regionPresent r := by
  have hl : listedSource (28 + r) = true := by simp [listedSource]; omega
  rw [Dev.raisable, hl, Bool.true_and, if_neg (by simp only [Bool.and_eq_true, decide_eq_true_eq]; omega), if_pos (by simp only [Bool.and_eq_true, decide_eq_true_eq]; omega), Nat.add_sub_cancel_left]

theorem Dev.raisable_stack {st : Nat} (hs : st < 24) : d.raisable (40 + st) = d.stackPresent st := by
  have hl : listedSource (40 + st) = true := by simp [listedSource]; omega
  rw [Dev.raisable, hl, Bool.true_and, if_neg (by simp only [Bool.and_eq_true, decide_eq_true_eq]; omega), if_neg (by simp only [Bool.and_eq_true, decide_eq_true_eq]; omega), if_pos (by simp only [Bool.and_eq_true, decide_eq_true_eq]; omega),
    Nat.add_sub_cancel_left]

theorem Dev.raisable_span {p : Nat} (hp : p < 12) : d.raisable (76 + p) = d.spanPresent := by
  have hl : listedSource (76 + p) = true := by simp [listedSource]; omega
  rw [Dev.raisable, hl, Bool.true_and, if_neg (by simp only [Bool.and_eq_true, decide_eq_true_eq]; omega), if_neg (by simp only [Bool.and_eq_true, decide_eq_true_eq]; omega), if_neg (by simp only [Bool.and_eq_true, decide_eq_true_eq]; omega),
    if_pos (by simp only [Bool.and_eq_true, decide_eq_true_eq]; omega)]

end Raisable

/-! ### Delivery (R383, R384, R394) -/

section Hardware

variable {c : Conc} {n : Nat} {b : Bool}

theorem Conc.heldSource_none (h : c.hold = none) : c.heldSource n = false := by rw [Conc.heldSource, h]; rfl

theorem Conc.hardware_free (h : c.heldSource n = false) : c.hardware n b = c.setPending n b := if_neg (by simp [h])

theorem Conc.hardware_queued (h : c.heldSource n = true) (hq : c.heldQ.any (fun m => decide (m.src = n)) = false) :
    c.hardware n b = { c with heldQ := c.heldQ ++ [⟨n, b⟩] } := by
  rw [Conc.hardware, if_pos h, if_neg (by simp only [hq, Bool.false_eq_true, not_false_eq_true])]

theorem Conc.hardware_merged (h : c.heldSource n = true) (hq : c.heldQ.any (fun m => decide (m.src = n)) = true) :
    c.hardware n b = { c with heldQ := c.heldQ.map (fun m => if m.src = n then ⟨n, b⟩ else m) } := by
  rw [Conc.hardware, if_pos h, if_pos hq]

end Hardware

/-- The concentrator once the oldest message of the source has left the inbox. -/
def Conc.taken (c : Conc) (n : Nat) : Conc := { c with inbox := dropFirst c.inbox n }

theorem Conc.hardware_taken {c : Conc} (h : c.hold = none) (n : Nat) (b : Bool) : (c.taken n).hardware n b =
    { c with inbox := dropFirst c.inbox n, pending := Tab.write (fun _ => false) c.pending n b } :=
  Conc.hardware_free (Conc.heldSource_none (c := c.taken n) h)

section Delivery

variable {d : Dev} {n : Nat} {up : Bool} (ha : d.ec.arrives n up = true) (hc : d.clk.coast = false)
include ha hc

theorem Dev.deliverEvent_ignored (hr : d.raisable n = false) :
    d.deliverEvent n up = { d with ec.inbox := dropFirst d.ec.inbox n } := by
  rw [Dev.deliverEvent, if_pos (by simp [ha, hc])]
  exact if_pos (by simp [hr])

theorem Dev.deliverEvent_bad (hr : d.raisable n = true) (hb : d.cfgBad n = true) : d.deliverEvent n up =
    Dev.chipFault { d with ec := (d.ec.taken n).hardware n up } 0x82 := by
  rw [Dev.deliverEvent, if_pos (by simp [ha, hc])]
  exact (if_neg (by simp [hr])).trans (if_pos hb)

theorem Dev.deliverEvent_good (hr : d.raisable n = true) (hb : d.cfgBad n = false) : d.deliverEvent n up =
    d.ecUpdate ((d.ec.taken n).hardware n up) [] := by
  rw [Dev.deliverEvent, if_pos (by simp [ha, hc])]
  exact (if_neg (by simp [hr])).trans (if_neg (by simp [hb]))

end Delivery

theorem eventRaise_does {s : State} {src : BitVec 11} {e : Dev} (h : s.dev.deliverEvent src.toNat true = e) :
    Does (.eventRaise src) s e :=
  always_does (f := fun d => d.deliverEvent src.toNat true) rfl h

theorem eventWithdraw_does {s : State} {src : BitVec 11} {e : Dev} (h : s.dev.deliverEvent src.toNat false = e) :
    Does (.eventWithdraw src) s e :=
  always_does (f := fun d => d.deliverEvent src.toNat false) rfl h

/-- Settles O13: a source by the table and its unit, a message by the source, its configuration word and the hold. -/
theorem eventDelivery : Obligations.EventDelivery := by
  unfold Obligations.EventDelivery
  refine ⟨fun d n => Dev.raisable_unlisted, rfl, ?regions, ?stackSources, ?spans, fun d => ⟨rfl, rfl, rfl, rfl⟩, ?raise,
    ?withdraw, ?bad, ?ignored, ?held, ?doorbell, ?noDoorbell⟩
  case regions =>
    intro d r hr
    rw [Dev.raisable_region hr, Dev.raisable_queues hr]
    exact ⟨Iff.rfl, Iff.rfl⟩
  case stackSources =>
    intro d st hs
    rw [Dev.raisable_stack hs]
  case spans =>
    intro d p hp
    rw [Dev.raisable_span hp]
  case raise =>
    intro s src ha hc hr hb hh
    refine eventRaise_does ((Dev.deliverEvent_good ha hc hr hb).trans ?_)
    rw [Conc.hardware_taken hh]
  case withdraw =>
    intro s src ha hc hr hb hh
    refine eventWithdraw_does ((Dev.deliverEvent_good ha hc hr hb).trans ?_)
    rw [Conc.hardware_taken hh]
  case bad =>
    intro s src ha hc hr hb hh hs
    refine eventRaise_does ((Dev.deliverEvent_bad ha hc hr hb).trans ?_)
    rw [Conc.hardware_taken hh]
    exact Dev.chipFault_ready (d := { s.dev with ec := { s.dev.ec with
      inbox := dropFirst s.dev.ec.inbox src.toNat
      pending := Tab.write (fun _ => false) s.dev.ec.pending src.toNat true } }) hs 0x82
  case ignored =>
    intro s src ha hc hr
    exact eventRaise_does (Dev.deliverEvent_ignored ha hc hr)
  case held =>
    intro s src ha hc hr hb hh hq
    refine eventRaise_does ((Dev.deliverEvent_good ha hc hr hb).trans ?_)
    rw [Conc.hardware_queued (c := s.dev.ec.taken src.toNat) hh hq]
    rfl
  case doorbell =>
    intro s v hh hr hn
    exact does_of_eq (if_pos hn) (hosted_does (c := fun d => d.reaches .host)
      (f := fun d => d.sourceDoorbell (fieldAt v.toNat 0 11)) rfl hh hr)
  case noDoorbell =>
    intro s v hh hn
    exact hosted_still (c := fun d => d.reaches .host) (f := fun d => d.sourceDoorbell (fieldAt v.toNat 0 11)) rfl hh
      (if_neg (by simp [hn]))

/-! ### Messages (R388) -/

/-- `e` differs from `d` at most in what is sent and in the pending bit array. -/
def Dev.MessageOnly (d e : Dev) : Prop := e = { d with out := e.out, host := { d.host with pba := e.host.pba } }

theorem Dev.MessageOnly.trans {a b c : Dev} (h : a.MessageOnly b) (k : b.MessageOnly c) : a.MessageOnly c :=
  Eq.trans k (congrArg (fun x : Dev => { x with out := c.out, host := { x.host with pba := c.host.pba } }) h)

theorem Dev.message_messageOnly (d : Dev) (t : Nat) : d.MessageOnly (d.message t) := by
  rw [Dev.message]
  split
  · rfl
  · rw [Dev.sendVector]
    split
    · rfl
    · rfl

theorem Dev.ecUpdate_messageOnly (d : Dev) (c : Conc) (also : List Nat) :
    Dev.MessageOnly { d with ec := c } (d.ecUpdate c also) :=
  foldl_rel (R := Dev.MessageOnly) (fun _ => rfl) Dev.MessageOnly.trans Dev.message_messageOnly _ _

theorem Dev.ecUpdate_quiet {c : Conc} (h : ∀ t : Nat, c.line t = false) (d : Dev) (also : List Nat) :
    d.ecUpdate c also = { d with ec := c } := by
  simp only [Dev.ecUpdate, h, Bool.false_and, List.filter_false, List.foldl_nil]

section Vectors

variable {d : Dev} {t : Nat} (ht : t ≠ 256)
include ht

theorem Dev.message_open (ho : d.vectorOpen t = true) :
    d.message t = { d with out := d.out ++ [.msix t (d.msixEntry t).addr (d.msixEntry t).data] } :=
  (if_neg ht).trans (if_pos ho)

theorem Dev.message_shut (ho : d.vectorOpen t = false) :
    d.message t = { d with host.pba := Tab.write (fun _ => false) d.host.pba t true } :=
  (if_neg ht).trans (if_neg (by simp [ho]))

end Vectors

/-! ### CLAIM (R389, R395) -/

section Claim

variable {d : Dev} {who : Agent} {t : Nat}

theorem Dev.claimRead_none (h : (who = .host ∧ t = 256) ∨ d.ec.parjo = true) : d.claimRead who t = (d, 0x7FF) :=
  if_pos (by simpa using h)

variable (hp : d.ec.parjo = false) (ht : ¬ (who = .host ∧ t = 256))
include hp ht

theorem Dev.claimRead_bad (hb : d.pendingBad = true) :
    d.claimRead who t = (d.drawn.chipFault 0x82, Config.freeWord d.free 0) := by
  rw [Dev.claimRead, if_neg (by simpa [hp] using ht)]
  exact if_pos hb

theorem Dev.claimRead_spurious (hb : d.pendingBad = false) (hn : d.ec.pick t = none) :
    d.claimRead who t = (d.bump 0x100008, 0x7FF) := by
  rw [Dev.claimRead, if_neg (by simpa [hp] using ht), hb, hn]
  rfl

theorem Dev.claimRead_picks (hb : d.pendingBad = false) {n : Nat} (hn : d.ec.pick t = some n) :
    d.claimRead who t = (d.ecUpdate { d.ec with
      pending := Tab.write (fun _ => false) d.ec.pending n false
      running := Tab.write (fun _ => []) d.ec.running t ((d.ec.cfgOf n).prio :: d.ec.stackOf t) } [t],
      BitVec.ofNat 32 ((d.ec.cfgOf n).prio * 2 ^ 16 + n)) := by
  rw [Dev.claimRead, if_neg (by simpa [hp] using ht), hb, hn]
  rfl

end Claim

theorem ecClaim_does {s : State} {who : Agent} {t : TargetNo} {e : Dev} {w : Word} (ht : InTurn who s.dev)
    (hr : s.dev.reaches who = true) (h : s.dev.claimRead who t.val = (e, w)) :
    Does (.ecClaim who t) s (e.answer who (0x104000 + 0x10 * t.val) w) :=
  asked_does (f := fun d => d.claim who t.val) rfl ht hr (by rw [Dev.claim, h]; rfl)

/-- Settles O14: a message by its target and vector; CLAIM by the mode, the target, the configuration words and what it
selects. -/
theorem claimsAndMessages : Obligations.ClaimsAndMessages := by
  unfold Obligations.ClaimsAndMessages
  refine ⟨fun d c also => d.ecUpdate_messageOnly c also, fun d c also h => Dev.ecUpdate_quiet h d also,
    fun d t => Dev.message_open, fun d t => Dev.message_shut, fun d => rfl, ?picks, ?spurious, ?bad, ?host, ?parjo⟩
  case picks =>
    intro s who t n hi hr hp hb ht hn
    exact ecClaim_does hi hr (Dev.claimRead_picks hp ht hb hn)
  case spurious =>
    intro s who t hi hr hp hb ht hn
    exact ecClaim_does hi hr (Dev.claimRead_spurious hp ht hb hn)
  case bad =>
    intro s who t hi hr hp hb ht hs
    refine ⟨Config.freeWord s.dev.free 0, ecClaim_does hi hr ((Dev.claimRead_bad hp ht hb).trans ?_)⟩
    rw [Dev.chipFault_ready (show s.dev.drawn.chip.state = .ready from hs)]
    rfl
  case host =>
    intro s hh hr
    exact ecClaim_does (t := 256) (fun _ => hh) hr (Dev.claimRead_none (.inl ⟨rfl, rfl⟩))
  case parjo =>
    intro s who t hi hr hp
    exact ecClaim_does hi hr (Dev.claimRead_none (.inr hp))

/-! ### The choice of CLAIM (R389) -/

/-- CLAIM prefers source `b` to source `m`, or they are one. -/
def Conc.Prefers (c : Conc) (b m : Nat) : Prop :=
  (c.cfgOf m).prio < (c.cfgOf b).prio ∨ ((c.cfgOf m).prio = (c.cfgOf b).prio ∧ b ≤ m)

theorem Conc.Prefers.refl (c : Conc) (n : Nat) : c.Prefers n n := .inr ⟨rfl, Nat.le_refl n⟩

/-- The choice after one more pending source. -/
def Conc.pickStep (c : Conc) (t : Nat) (best : Option Nat) (n : Nat) : Option Nat :=
  if c.eligible t n then
    match best with
    | none => some n
    | some m => if (c.cfgOf m).prio < (c.cfgOf n).prio then some n else some m
  else best

theorem Conc.pick_eq (c : Conc) (t : Nat) : c.pick t = c.pendingList.foldl (c.pickStep t) none := rfl

/-- Each source that may be chosen is behind the choice so far, or still to come above it. -/
def Conc.Covers (c : Conc) (t : Nat) (l : Tab Bool) (best : Option Nat) : Prop :=
  (∀ b, best = some b → c.eligible t b = true) ∧ ∀ m, c.eligible t m = true →
    (∃ b, best = some b ∧ c.Prefers b m) ∨ (Tab.read (fun _ => false) l m = true ∧ ∀ b, best = some b → b < m)

theorem Tab.read_cons_true {e : Nat × Bool} {r : Tab Bool} {m : Nat} (h : Tab.read (fun _ => false) (e :: r) m = true) :
    m = e.1 ∨ (e.1 < m ∧ Tab.read (fun _ => false) r m = true) := by
  rw [Tab.read] at h
  split at h
  · cases h
  · split at h
    · next h1 => exact .inl h1
    · exact .inr ⟨by omega, h⟩

theorem Conc.pickStep_other {c : Conc} {t n : Nat} (best : Option Nat) (h : ¬ c.eligible t n = true) :
    c.pickStep t best n = best := if_neg h

theorem Conc.pickStep_first {c : Conc} {t n : Nat} (h : c.eligible t n = true) : c.pickStep t none n = some n := if_pos h

theorem Conc.pickStep_next {c : Conc} {t n : Nat} (m : Nat) (h : c.eligible t n = true) :
    c.pickStep t (some m) n = if (c.cfgOf m).prio < (c.cfgOf n).prio then some n else some m := if_pos h

/-- One more entry of the pending bits: the choice still covers every source. -/
theorem Conc.Covers.step {c : Conc} {t : Nat} {e : Nat × Bool} {r : Tab Bool} {best : Option Nat}
    (h : c.Covers t (e :: r) best) : c.Covers t r (c.pickStep t best e.1) := by
  obtain ⟨hb, hm⟩ := h
  by_cases hn : c.eligible t e.1 = true
  case neg =>
    rw [Conc.pickStep_other best hn]
    refine ⟨hb, fun m he => (hm m he).imp_right fun ⟨hread, hlt⟩ => ⟨?_, hlt⟩⟩
    obtain rfl | ⟨-, hr⟩ := Tab.read_cons_true hread
    · exact absurd he hn
    · exact hr
  case pos =>
    cases best with
    | none =>
      rw [Conc.pickStep_first hn]
      refine ⟨fun b h => Option.some.inj h ▸ hn, fun m he => ?_⟩
      obtain ⟨b, h, -⟩ | ⟨hread, -⟩ := hm m he
      · cases h
      · obtain rfl | ⟨hlt, hr⟩ := Tab.read_cons_true hread
        · exact .inl ⟨_, rfl, .refl c _⟩
        · exact .inr ⟨hr, fun b h => Option.some.inj h ▸ hlt⟩
    | some x =>
      rw [Conc.pickStep_next x hn]
      split
      case isTrue hp =>
        refine ⟨fun b h => Option.some.inj h ▸ hn, fun m he => ?_⟩
        obtain ⟨b, h, hpref⟩ | ⟨hread, -⟩ := hm m he
        · obtain rfl := Option.some.inj h
          refine .inl ⟨_, rfl, .inl ?_⟩
          obtain h1 | ⟨h1, -⟩ := hpref
          · exact Nat.lt_trans h1 hp
          · exact h1 ▸ hp
        · obtain rfl | ⟨hlt, hr⟩ := Tab.read_cons_true hread
          · exact .inl ⟨_, rfl, .refl c _⟩
          · exact .inr ⟨hr, fun b h => Option.some.inj h ▸ hlt⟩
      case isFalse hp =>
        refine ⟨hb, fun m he => ?_⟩
        obtain h | ⟨hread, hlt⟩ := hm m he
        · exact .inl h
        · obtain rfl | ⟨-, hr⟩ := Tab.read_cons_true hread
          · have hx := hlt x rfl
            refine .inl ⟨x, rfl, ?_⟩
            obtain h1 | h1 := Nat.lt_or_eq_of_le (Nat.not_lt.mp hp)
            · exact .inl h1
            · exact .inr ⟨h1, Nat.le_of_lt hx⟩
          · exact .inr ⟨hr, hlt⟩

theorem Conc.Covers.foldl {c : Conc} {t : Nat} {l : Tab Bool} {best : Option Nat} (h : c.Covers t l best) :
    c.Covers t [] ((l.map (·.1)).foldl (c.pickStep t) best) := by
  induction l generalizing best with
  | nil => exact h
  | cons e r ih => exact ih h.step

theorem Conc.pick_covers (c : Conc) (t : Nat) : c.Covers t [] (c.pick t) := by
  rw [Conc.pick_eq]
  refine Conc.Covers.foldl ⟨nofun, fun m he => .inr ⟨?_, nofun⟩⟩
  have hpending : c.isPending m = true := by
    simp only [Conc.eligible, Bool.and_eq_true] at he
    exact he.1.1.1.1
  exact hpending

/-- Settles O15: the choice covers every pending source, by induction on the pending bits. -/
theorem claimPicksHighest : Obligations.ClaimPicksHighest := by
  unfold Obligations.ClaimPicksHighest
  intro c t n hn
  obtain ⟨hb, hm⟩ := c.pick_covers t
  refine ⟨hb n hn, fun m he => ?_⟩
  obtain ⟨b, h, hpref⟩ | ⟨hread, -⟩ := hm m he
  · obtain rfl := Option.some.inj (hn.symm.trans h)
    exact hpref
  · cases hread

/-! ### EOI (R390, R391, R395) -/

section Eoi

variable {d : Dev} {who : Agent} {t n : Nat}

theorem Dev.eoiIgnored_iff :
    ((decide (who = .host) && decide (t = 256)) || d.ec.parjo || decide (n = spurious)) = true ↔
      (who = .host ∧ t = 256) ∨ d.ec.parjo = true ∨ n = 0x7FF := by
  simp only [Bool.or_eq_true, Bool.and_eq_true, decide_eq_true_eq, or_assoc]
  exact Iff.rfl

theorem Dev.eoi_ignored (h : (who = .host ∧ t = 256) ∨ d.ec.parjo = true ∨ n = 0x7FF) : d.eoi who t n = d :=
  if_pos (Dev.eoiIgnored_iff.mpr h)

variable (hp : d.ec.parjo = false) (ht : ¬ (who = .host ∧ t = 256)) (hn : n ≠ 0x7FF)
include hp ht hn

theorem Dev.eoi_empty (h : d.ec.stackOf t = []) :
    d.eoi who t n = { d with ec.eoiEmpty := Tab.write (fun _ => false) d.ec.eoiEmpty t true } := by
  rw [Dev.eoi, if_neg (Dev.eoiIgnored_iff.not.mpr (by simp [hp, hn, ht])), h]

theorem Dev.eoi_pops {p : Nat} {rest : List Nat} (h : d.ec.stackOf t = p :: rest) : d.eoi who t n =
    d.ecUpdate ((if levelSource n && d.raisable n && d.levelCond n then d.ec.hardware n true else d.ec).setStack t rest)
      [t] := by
  rw [Dev.eoi, if_neg (Dev.eoiIgnored_iff.not.mpr (by simp [hp, hn, ht])), h]

end Eoi

theorem levelSource_ne {n : Nat} (h : levelSource n = true) : n ≠ 0x7FF := by
  rintro rfl
  cases h

section EcEoi

variable {s : State} {who : Agent} {t : TargetNo} {v : Word} (hi : InTurn who s.dev)
include hi

theorem ecEoi_does {e : Dev} (hr : s.dev.reaches who = true) (h : s.dev.eoi who t.val (fieldAt v.toNat 0 11) = e) :
    Does (.ecEoi who t v) s e :=
  asked_does (f := fun d => d.eoi who t.val (fieldAt v.toNat 0 11)) rfl hi hr h

theorem ecEoi_still (h : s.dev.eoi who t.val (fieldAt v.toNat 0 11) = s.dev) : Does (.ecEoi who t v) s s.dev :=
  asked_still (f := fun d => d.eoi who t.val (fieldAt v.toNat 0 11)) rfl hi h

/-- The EOI of a level source whose condition holds: it pends again, with the hold's rule. -/
theorem ecEoi_level {p : Nat} {rest : List Nat} {c : Conc} (hr : s.dev.reaches who = true) (hp : s.dev.ec.parjo = false)
    (ht : ¬ (who = .host ∧ t.val = 256)) (hl : levelSource (fieldAt v.toNat 0 11) = true)
    (ha : s.dev.raisable (fieldAt v.toNat 0 11) = true) (hc : s.dev.levelCond (fieldAt v.toNat 0 11) = true)
    (hs : s.dev.ec.stackOf t.val = p :: rest) (h : s.dev.ec.hardware (fieldAt v.toNat 0 11) true = c) :
    Does (.ecEoi who t v) s (s.dev.ecUpdate (c.setStack t.val rest) [t.val]) := by
  refine ecEoi_does hi hr ((Dev.eoi_pops hp ht (levelSource_ne hl) hs).trans ?_)
  rw [if_pos (by simp [hl, ha, hc]), h]

end EcEoi

/-- Settles O16: EOI by the stack, and the source that pends again by its condition and the hold. -/
theorem eoiPops : Obligations.EoiPops := by
  unfold Obligations.EoiPops
  refine ⟨?pops, ?pends, ?queued, ?merged, ?empty, ?spurious, ?parjo, ?host⟩
  case pops =>
    intro s who t v p rest hi hr hp ht hn hl hs
    refine ecEoi_does hi hr ((Dev.eoi_pops hp ht hn hs).trans ?_)
    rw [if_neg (by obtain h | h | h := hl <;> simp [h])]
    rfl
  case pends =>
    intro s who t v p rest hi hr hp ht hl ha hc hh hs
    exact ecEoi_level hi hr hp ht hl ha hc hs (Conc.hardware_free hh)
  case queued =>
    intro s who t v p rest hi hr hp ht hl ha hc hh hq hs
    exact ecEoi_level hi hr hp ht hl ha hc hs (Conc.hardware_queued hh hq)
  case merged =>
    intro s who t v p rest hi hr hp ht hl ha hc hh hq hs
    exact ecEoi_level hi hr hp ht hl ha hc hs (Conc.hardware_merged hh hq)
  case empty =>
    intro s who t v hi hr hp ht hn hs
    exact ecEoi_does hi hr (Dev.eoi_empty hp ht hn hs)
  case spurious =>
    intro s who t hi
    exact ecEoi_still hi (Dev.eoi_ignored (.inr (.inr rfl)))
  case parjo =>
    intro s who t v hi hp
    exact ecEoi_still hi (Dev.eoi_ignored (.inr (.inl hp)))
  case host =>
    intro s v hh
    exact ecEoi_still (t := 256) (fun _ => hh) (Dev.eoi_ignored (.inl ⟨rfl, rfl⟩))

end Sys2Proof.Machine
end


section
/-! The words of pending and mask bits, the hold, the mode and the vectors (O17). -/

namespace Sys2Proof.Machine

open Sys2Proof Sys2Proof.Claims

/-! ### Words of 32 bits, bit by bit -/

/-- A word's 32 bits written one after another: each source of the word takes its new value, the others keep theirs, while
`I` holds, which the writes keep. -/
theorem foldl_word {β : Type} {I : Conc → Prop} {g : Conc → Nat → β} {f : Conc → Nat → Conc} {w : Nat} {new : Nat → β → β}
    (hI : ∀ a i, I a → I (f a i))
    (hf : ∀ a i n, i < 32 → I a → g (f a i) n = if n = 32 * w + i then new n (g a n) else g a n)
    {c : Conc} (hc : I c) (n : Nat) :
    g ((List.range 32).foldl f c) n = if n / 32 = w then new n (g c n) else g c n := by
  have hprefix (k : Nat) (hk : k ≤ 32) : I ((List.range k).foldl f c) ∧
      g ((List.range k).foldl f c) n = if 32 * w ≤ n ∧ n < 32 * w + k then new n (g c n) else g c n := by
    induction k with
    | zero => exact ⟨hc, (if_neg (by omega)).symm⟩
    | succ k ih =>
      obtain ⟨hinv, hval⟩ := ih (by omega)
      rw [List.range_succ, List.foldl_append, List.foldl_cons, List.foldl_nil]
      refine ⟨hI _ k hinv, ?_⟩
      rw [hf _ k n (by omega) hinv, hval]
      by_cases hn : n = 32 * w + k
      · rw [if_pos hn, if_neg (by omega), if_pos (by omega)]
      · rw [if_neg hn]
        exact if_congr (by omega) rfl rfl
  rw [(hprefix 32 (Nat.le_refl _)).2]
  exact if_congr (by omega) rfl rfl

/-! ### Pending bits (R393, R395) -/

section Pending

variable {c : Conc} {n m : Nat} {b : Bool}

theorem Conc.setPending_read : (c.setPending n b).isPending m = if m = n then b else c.isPending m := by
  rw [Conc.isPending, Conc.setPending]
  split
  · next h =>
    subst h
    exact Tab.read_write_same
  · next h => exact Tab.read_write_other h

theorem Conc.setPending_only {c a : Conc} (h : a = { c with pending := a.pending }) (n : Nat) (b : Bool) :
    a.setPending n b = { c with pending := (a.setPending n b).pending } := by
  rw [Conc.setPending, h]

theorem Dev.writePendingBit_only {d : Dev} {a : Conc} (h : a = { c with pending := a.pending }) :
    d.writePendingBit a n b = { c with pending := (d.writePendingBit a n b).pending } := by
  rw [Dev.writePendingBit]
  split
  · split
    · exact Conc.setPending_only h _ _
    · exact h
  · exact Conc.setPending_only h _ _

theorem Dev.writePendingBit_read (d : Dev) : (d.writePendingBit c n b).isPending m =
    if m = n then (b && (d.raisable n || c.isPending n)) else c.isPending m := by
  cases b with
  | false => exact Conc.setPending_read
  | true =>
    rw [Dev.writePendingBit, if_pos rfl]
    cases d.raisable n with
    | true => exact Conc.setPending_read
    | false =>
      show c.isPending m = if m = n then c.isPending n else c.isPending m
      split
      · next h => rw [h]
      · rfl

theorem Dev.clearPendingBit_only {d : Dev} {a : Conc} (hh : c.hold = none) (h : a = { c with pending := a.pending }) :
    d.clearPendingBit a n = { c with pending := (d.clearPendingBit a n).pending } := by
  have hclear := Conc.setPending_only h n false
  have hfree : (a.setPending n false).hold = none := by rw [hclear]; exact hh
  rw [Dev.clearPendingBit]
  split
  · rw [Conc.hardware_free (Conc.heldSource_none hfree)]
    exact Conc.setPending_only hclear _ _
  · exact hclear

theorem Dev.clearPendingBit_read (d : Dev) (hh : c.hold = none) : (d.clearPendingBit c n).isPending m =
    if m = n then (levelSource n && d.raisable n && d.levelCond n) else c.isPending m := by
  rw [Dev.clearPendingBit]
  cases levelSource n && d.raisable n && d.levelCond n with
  | false => exact Conc.setPending_read
  | true =>
    rw [if_pos rfl, Conc.hardware_free (Conc.heldSource_none (c := c.setPending n false) hh), Conc.setPending_read]
    split
    · rfl
    · next h => rw [Conc.setPending_read, if_neg h]

end Pending

section PendingWord

variable (d : Dev) (w : Nat) (v : Word)

/-- The concentrator after a native write of a pending word. -/
def Dev.wordWritten : Conc := (List.range 32).foldl (fun a i => d.writePendingBit a (32 * w + i) (v.getLsbD i)) d.ec

/-- The concentrator after a write of ones in compatibility mode. -/
def Dev.wordCleared : Conc :=
  (List.range 32).foldl (fun a i => if v.getLsbD i then d.clearPendingBit a (32 * w + i) else a) d.ec

theorem Dev.wordWritten_only : d.wordWritten w v = { d.ec with pending := (d.wordWritten w v).pending } :=
  List.foldlRecOn (motive := fun a : Conc => a = { d.ec with pending := a.pending }) _ _ rfl
    fun _ h _ _ => Dev.writePendingBit_only h

theorem Dev.wordWritten_read (n : Nat) : (d.wordWritten w v).isPending n =
    if n / 32 = w then (v.getLsbD (n % 32) && (d.raisable n || d.ec.isPending n)) else d.ec.isPending n := by
  refine foldl_word (I := fun _ => True) (new := fun n x => v.getLsbD (n % 32) && (d.raisable n || x)) (fun _ _ _ => trivial)
    (fun a i n hi _ => ?_) trivial n
  rw [Dev.writePendingBit_read]
  split
  · next h =>
    subst h
    rw [show (32 * w + i) % 32 = i by omega]
  · rfl

variable (hh : d.ec.hold = none)
include hh

theorem Dev.clearedBit_only {a : Conc} (h : a = { d.ec with pending := a.pending }) (i : Nat) :
    (if v.getLsbD i then d.clearPendingBit a (32 * w + i) else a) =
      { d.ec with pending := (if v.getLsbD i then d.clearPendingBit a (32 * w + i) else a).pending } := by
  split
  · exact Dev.clearPendingBit_only hh h
  · exact h

theorem Dev.wordCleared_only : d.wordCleared w v = { d.ec with pending := (d.wordCleared w v).pending } :=
  List.foldlRecOn (motive := fun a : Conc => a = { d.ec with pending := a.pending }) _ _ rfl
    fun _ h i _ => d.clearedBit_only w v hh h i

theorem Dev.wordCleared_read (n : Nat) : (d.wordCleared w v).isPending n =
    if n / 32 = w ∧ v.getLsbD (n % 32) = true then levelSource n && d.raisable n && d.levelCond n
    else d.ec.isPending n := by
  have hword : (d.wordCleared w v).isPending n = if n / 32 = w then
      (if v.getLsbD (n % 32) then levelSource n && d.raisable n && d.levelCond n else d.ec.isPending n)
      else d.ec.isPending n := by
    refine foldl_word (I := fun a => a = { d.ec with pending := a.pending })
      (new := fun n x => if v.getLsbD (n % 32) then levelSource n && d.raisable n && d.levelCond n else x)
      (fun a i h => d.clearedBit_only w v hh h i) (fun a i n hi h => ?_) rfl n
    have hfree : a.hold = none := by rw [h]; exact hh
    by_cases hn : n = 32 * w + i
    · rw [if_pos hn, hn, show (32 * w + i) % 32 = i by omega]
      split
      · rw [d.clearPendingBit_read hfree, if_pos rfl]
      · rfl
    · rw [if_neg hn]
      split
      · rw [d.clearPendingBit_read hfree, if_neg hn]
      · rfl
  rw [hword]
  by_cases hn : n / 32 = w
  · cases hv : v.getLsbD (n % 32) <;> simp [hn]
  · simp [hn]

end PendingWord

/-! ### Mask and configuration words (R385, R393) -/

section Mask

variable (d : Dev) (w : Nat) (v : Word)

/-- The concentrator after a write of a mask word. -/
def Dev.wordMasked : Conc :=
  (List.range 32).foldl (fun a i =>
    if listedSource (32 * w + i) then
      { a with mask := Tab.write listedSource a.mask (32 * w + i) (v.getLsbD i) }
    else a) d.ec

theorem Dev.wordMasked_only : d.wordMasked w v = { d.ec with mask := (d.wordMasked w v).mask } := by
  refine List.foldlRecOn (motive := fun a : Conc => a = { d.ec with mask := a.mask }) _ _ rfl fun a h i _ => ?_
  split
  · rw [h]
  · exact h

theorem Dev.wordMasked_read (n : Nat) : (d.wordMasked w v).masked n =
    if n / 32 = w ∧ listedSource n = true then v.getLsbD (n % 32) else d.ec.masked n := by
  have hword : (d.wordMasked w v).masked n = if n / 32 = w then
      (if listedSource n then v.getLsbD (n % 32) else d.ec.masked n) else d.ec.masked n := by
    refine foldl_word (I := fun _ => True) (new := fun n x => if listedSource n then v.getLsbD (n % 32) else x)
      (fun _ _ _ => trivial) (fun a i n hi _ => ?_) trivial n
    by_cases hn : n = 32 * w + i
    · subst hn
      rw [if_pos rfl, show (32 * w + i) % 32 = i by omega]
      split
      · exact Tab.read_write_same
      · rfl
    · rw [if_neg hn]
      split
      · exact Tab.read_write_other hn
      · rfl
  rw [hword]
  by_cases hn : n / 32 = w
  · cases listedSource n <;> simp [hn]
  · simp [hn]

end Mask

/-! ### Vectors (R388) -/

section Unmask

variable {d : Dev} {n : Nat}

/-- A vector whose message cannot be sent keeps its pending bit. -/
theorem flush_shut {l : List Nat} (h : ∀ v ∈ l, d.vectorOpen v = false) :
    l.foldl (fun a v => if a.vectorOpen v then (a.setPbaBit v false).sendVector v else a) d = d := by
  induction l with
  | nil => rfl
  | cons v r ih =>
    obtain ⟨hv, hr⟩ := List.forall_mem_cons.mp h
    rw [List.foldl_cons, hv]
    exact ih hr

theorem Dev.vectorOpen_masked {v : Nat} (h : (d.msixEntry v).mask = true) : d.vectorOpen v = false := by
  rw [Dev.vectorOpen, h, Bool.not_true, Bool.and_false]

/-- The message of an open vector is sent, and its pending bit clears. -/
def Dev.sent (d : Dev) (n : Nat) : Dev :=
  { d with
    host.pba := Tab.write (fun _ => false) d.host.pba n false
    out := d.out ++ [.msix n (d.msixEntry n).addr (d.msixEntry n).data] }

theorem Dev.flush_open (h : d.vectorOpen n = true) : (d.setPbaBit n false).sendVector n = d.sent n :=
  if_pos h

/-- Of the vectors that wait one is open: its message is sent. -/
theorem flush_one {l : List Nat} (hn : n ∈ l) (hd : l.Nodup) (ho : d.vectorOpen n = true)
    (hs : ∀ v ∈ l, v ≠ n → (d.msixEntry v).mask = true) :
    l.foldl (fun a v => if a.vectorOpen v then (a.setPbaBit v false).sendVector v else a) d = d.sent n := by
  induction l with
  | nil => cases hn
  | cons v r ih =>
    obtain ⟨hv, hr⟩ := List.forall_mem_cons.mp hs
    obtain ⟨hmem, hdr⟩ := List.nodup_cons.mp hd
    rw [List.foldl_cons]
    by_cases hvn : v = n
    · subst hvn
      rw [if_pos ho, Dev.flush_open ho]
      exact flush_shut fun u hu =>
        Dev.vectorOpen_masked (d := d.sent v) (hr u hu fun h => hmem (h ▸ hu))
    · rw [Dev.vectorOpen_masked (hv hvn)]
      exact ih ((List.mem_cons.mp hn).resolve_left (Ne.symm hvn)) hdr hr

end Unmask

theorem Tab.rising_nodup {α : Type} {t : Tab α} {lo : Nat} (h : Tab.rising t lo = true) :
    (t.map (·.1)).Nodup ∧ ∀ k ∈ t.map (·.1), lo ≤ k := by
  induction t generalizing lo with
  | nil => exact ⟨List.nodup_nil, nofun⟩
  | cons e r ih =>
    rw [Tab.rising, Bool.and_eq_true, decide_eq_true_eq] at h
    obtain ⟨hlo, hr⟩ := h
    obtain ⟨hd, hle⟩ := ih hr
    refine ⟨List.nodup_cons.mpr ⟨fun hm => Nat.not_succ_le_self e.1 (hle e.1 hm), hd⟩, ?_⟩
    exact List.forall_mem_cons.mpr ⟨hlo, fun k hk => Nat.le_trans (Nat.le_succ_of_le hlo) (hle k hk)⟩

/-- A bit of a rising array cleared: its entry goes. -/
theorem Tab.write_default {α : Type} [DecidableEq α] {dflt : Nat → α} {t : Tab α} {lo k : Nat} (h : Tab.rising t lo = true) :
    Tab.write dflt t k (dflt k) = t.filter (fun e => decide (e.1 ≠ k)) := by
  have habove {r : Tab α} {b : Nat} (hr : Tab.rising r b = true) (hb : k < b) :
      r.filter (fun e => decide (e.1 ≠ k)) = r := by
    refine List.filter_eq_self.mpr fun e he => decide_eq_true ?_
    have hle := (Tab.rising_nodup hr).2 e.1 (List.mem_map_of_mem he)
    omega
  induction t generalizing lo with
  | nil => simp [Tab.write]
  | cons e r ih =>
    obtain ⟨hlo, hr⟩ : lo ≤ e.1 ∧ Tab.rising r (e.1 + 1) = true := by simpa [Tab.rising] using h
    rw [Tab.write]
    split
    · next hlt =>
      rw [if_pos rfl]
      exact (habove (b := e.1) (by simpa [Tab.rising] using hr) hlt).symm
    · split
      · next heq =>
        subst heq
        have hdrop : r.dropWhile (fun x => decide (x.1 ≤ e.1)) = r := by
          cases r with
          | nil => rfl
          | cons y z =>
            have hy : e.1 + 1 ≤ y.1 := by simp only [Tab.rising, Bool.and_eq_true, decide_eq_true_eq] at hr; exact hr.1
            exact List.dropWhile_cons_of_neg (by simp; omega)
        rw [if_pos rfl, hdrop, List.filter_cons_of_neg (by simp)]
        exact (habove hr (Nat.lt_succ_self _)).symm
      · next hne => rw [ih hr, List.filter_cons_of_pos (by simpa using Ne.symm hne)]

/-! ### The hold and the mode (R386, R394) -/

section Hold

variable {d : Dev} {who : Agent} {v : Word}

theorem Dev.holdWrite_takes (h8 : v.getLsbD 8 = true) (h29 : v.getLsbD 29 = false) (hh : d.ec.hold = none) :
    d.holdWrite who v = d.ecUpdate { d.ec with word := fieldAt v.toNat 0 6, hold := some who } [] := by
  simp only [Dev.holdWrite, h29, hh, h8, Bool.false_eq_true, if_false, if_true]

theorem Dev.holdWrite_ignored {o : Agent} (h9 : v.getLsbD 9 = false) (h29 : v.getLsbD 29 = false)
    (hh : d.ec.hold = some o) : d.holdWrite who v = d := by
  simp only [Dev.holdWrite, h29, hh, h9, Bool.false_and, Bool.false_eq_true, if_false]

theorem Dev.holdWrite_releases (h9 : v.getLsbD 9 = true) (h29 : v.getLsbD 29 = false) (hh : d.ec.hold = some who) :
    d.holdWrite who v = d.ecUpdate d.ec.unhold [] := by
  simp only [Dev.holdWrite, h29, hh, h9, Bool.true_and, decide_true, Bool.false_eq_true, if_false, if_true]

end Hold

section HoldCommands

variable {s : State} {who : Agent} {v : Word} {e : Dev} (hi : InTurn who s.dev) (hr : s.dev.reaches who = true)
include hi hr

theorem ecHoldTake_does (h8 : v.getLsbD 8 = true) (h : s.dev.holdWrite who v = e) : Does (.ecHoldTake who v) s e :=
  checked_does (f := fun d => d.ask who (.ecHoldTake who v) fun d => d.when (d.reaches who) fun d => d.holdWrite who v)
    rfl h8 (by rw [Dev.ask_of_inTurn hi, hr, Dev.when_true, h])

theorem ecHoldRelease_does (h9 : v.getLsbD 9 = true) (h : s.dev.holdWrite who v = e) : Does (.ecHoldRelease who v) s e :=
  checked_does (f := fun d => d.ask who (.ecHoldRelease who v) fun d => d.when (d.reaches who) fun d => d.holdWrite who v)
    rfl h9 (by rw [Dev.ask_of_inTurn hi, hr, Dev.when_true, h])

theorem ecPendingWrite_does {w : Fin 64} (h : s.dev.pendingWrite who w.val v = e) : Does (.ecPendingWrite who w v) s e :=
  asked_does (f := fun d => d.pendingWrite who w.val v) rfl hi hr h

end HoldCommands

theorem Dev.pendingWrite_native {d : Dev} {who : Agent} {w : Nat} {v : Word} (hb : d.ec.blockedFor who w = false)
    (hp : d.ec.parjo = false) : d.pendingWrite who w v = d.ecUpdate (d.wordWritten w v) [] := by
  rw [Dev.pendingWrite, hb, hp]
  rfl

theorem Dev.pendingWrite_parjo {d : Dev} {who : Agent} {w : Nat} {v : Word} (hb : d.ec.blockedFor who w = false)
    (hp : d.ec.parjo = true) : d.pendingWrite who w v = d.ecUpdate (d.wordCleared w v) (d.wordCleared w v).targets := by
  rw [Dev.pendingWrite, hb, hp]
  rfl

theorem Dev.maskWrite_free {d : Dev} {who : Agent} {w : Nat} {v : Word} (hb : d.ec.blockedFor who w = false) :
    d.maskWrite who w v = d.ecUpdate (d.wordMasked w v) [] := by
  rw [Dev.maskWrite, hb]
  rfl

/-- The configuration word that a write leaves. -/
def Dev.cfgWritten (d : Dev) (n : Nat) (v : Word) : EvCfg :=
  ⟨fieldAt v.toNat 0 4, if 256 < fieldAt v.toNat 8 9 then (d.ec.cfgOf n).target else fieldAt v.toNat 8 9⟩

theorem Dev.cfgWrite_listed {d : Dev} {n : Nat} {v : Word} (hl : listedSource n = true) :
    d.cfgWrite n v = d.ecUpdate { d.ec with cfg := Tab.write evCfgDefault d.ec.cfg n (d.cfgWritten n v) } [] :=
  if_neg (by simp [hl])

/-- The concentrator after a write of a configuration word: the source's own word alone changes. -/
theorem Conc.cfgOf_write {c : Conc} {n m : Nat} {x : EvCfg} :
    Conc.cfgOf { c with cfg := Tab.write evCfgDefault c.cfg n x } m = if m = n then x else c.cfgOf m := by
  split
  · next h =>
    subst h
    exact Tab.read_write_same
  · next h => exact Tab.read_write_other h

theorem msixUnmask_does {s : State} {n : Fin 256} {x e : Dev} (hh : s.dev.host.held = [])
    (hr : s.dev.reaches .host = true) (hx : s.dev.modMsixEntry n.val (fun e => { e with mask := false }) = x)
    (h : x.flushVectors = e) : Does (.msixUnmask n) s e :=
  does_of_eq (by rw [hx, h]) (hosted_does (c := fun d => d.reaches .host)
    (f := fun d => (d.modMsixEntry n.val (fun e => { e with mask := false })).flushVectors) rfl hh hr)

theorem ecModeWrite_does {s : State} {v : Word} {e : Dev} (hh : s.dev.host.held = []) (hr : s.dev.reaches .host = true)
    (h : s.dev.modeWrite (v.getLsbD 0) = e) : Does (.ecModeWrite v) s e :=
  does_of_eq h (hosted_does (c := fun d => d.reaches .host) (f := fun d => d.modeWrite (v.getLsbD 0)) rfl hh hr)

/-- Settles O17: a word of pending or mask bits by its 32 bits, the hold by its owner, a vector by the messages that wait. -/
theorem pendingHoldModeMask : Obligations.PendingHoldModeMask := by
  unfold Obligations.PendingHoldModeMask
  refine ⟨?native, ?blocked, ?take, ?taken, ?release, ?expire, ?unhold, ?mode, ?sameMode, ?unmask, ?unmaskSends, ?parjo,
    ?mask, ?maskBlocked, ?cfg, ?cfgUnlisted⟩
  case native =>
    intro s who w v hi hr hp hb
    exact ⟨_, ecPendingWrite_does hi hr (Dev.pendingWrite_native hb hp), s.dev.wordWritten_only w.val v,
      s.dev.wordWritten_read w.val v⟩
  case blocked =>
    intro s who w v hi hr hb
    exact ecPendingWrite_does hi hr (if_pos hb)
  case take =>
    intro s who v hi hr h8 h29 hh
    exact ecHoldTake_does hi hr h8 (Dev.holdWrite_takes h8 h29 hh)
  case taken =>
    intro s who v o hi hr h8 h9 h29 hh
    exact ecHoldTake_does hi hr h8 (Dev.holdWrite_ignored h9 h29 hh)
  case release =>
    intro s who v hi hr h9 h29 hh
    exact ecHoldRelease_does hi hr h9 (Dev.holdWrite_releases h9 h29 hh)
  case expire =>
    intro s hc hh
    exact when_does (c := fun d => !d.clk.coast) (f := Dev.holdExpire) rfl (by simp [hc]) (if_pos hh)
  case unhold =>
    intro c h
    rw [Conc.unhold, h]
    rfl
  case mode =>
    intro s v hh hr hp
    exact ⟨_, rfl, ecModeWrite_does hh hr (if_neg hp)⟩
  case sameMode =>
    intro s v hh hp
    exact hosted_still (c := fun d => d.reaches .host) (f := fun d => d.modeWrite (v.getLsbD 0)) rfl hh (if_pos hp)
  case unmask =>
    intro s n hh hr hp
    exact msixUnmask_does hh hr rfl (Dev.flushVectors_none hp)
  case unmaskSends =>
    intro s n hh hr hw hn hs ho
    obtain ⟨hrise, -⟩ := Tab.wf_iff.mp hw
    refine ⟨_, rfl, msixUnmask_does hh hr rfl ?_⟩
    have hmask (v : Nat) (hv : v ∈ s.dev.host.pba.map (·.1)) (hvn : v ≠ n.val) :
        ((s.dev.modMsixEntry n.val (fun e => { e with mask := false })).msixEntry v).mask = true := by
      rw [Dev.modMsixEntry, Dev.setMsixEntry_other _ _ _ _ hvn]
      exact hs v hv hvn
    refine (flush_one (l := s.dev.host.pba.map (·.1)) hn (Tab.rising_nodup hrise).1 ho hmask).trans ?_
    rw [Dev.sent, show (s.dev.modMsixEntry n.val (fun e => { e with mask := false })).host.pba = s.dev.host.pba from rfl,
      Tab.write_default (dflt := fun _ => false) hrise]
    rfl
  case parjo =>
    intro s who w v hi hr hp hb hh
    exact ⟨_, ecPendingWrite_does hi hr (Dev.pendingWrite_parjo hb hp), s.dev.wordCleared_only w.val v hh,
      s.dev.wordCleared_read w.val v hh⟩
  case mask =>
    intro d who w v hb
    exact ⟨_, Dev.maskWrite_free hb, d.wordMasked_only w v, d.wordMasked_read w v⟩
  case maskBlocked =>
    intro d who w v hb
    exact if_pos hb
  case cfg =>
    intro d n v hl
    refine ⟨_, Dev.cfgWrite_listed hl, rfl, fun m hm => ?_, ?_, ?_⟩
    · rw [Conc.cfgOf_write, if_neg hm]
    · rw [Conc.cfgOf_write, if_pos rfl, Dev.cfgWritten]
    · rw [Conc.cfgOf_write, if_pos rfl, Dev.cfgWritten]
      by_cases ht : 256 < fieldAt v.toNat 8 9
      · exact (if_pos ht).trans (if_neg (Nat.not_le.mpr ht)).symm
      · exact (if_neg ht).trans (if_pos (Nat.not_lt.mp ht)).symm
  case cfgUnlisted =>
    intro d n v hl
    exact if_pos (by simp [hl])

end Sys2Proof.Machine
end


section
/-! Clocks, the power loop, sleep and wake, throttling (O18, O19, O20, O22). -/

namespace Sys2Proof.Machine

open Sys2Proof Sys2Proof.Claims

/-! ### The clock of a tensor die (R399 to R403) -/

section ClkTdie

variable {s : State} {t : TDie} {v : Word}

theorem clkSelWrite_does {e : Dev} (hh : s.dev.host.held = []) (hr : s.dev.reaches .host = true)
    (h : s.dev.clkWrite t.val v.toNat = e) : Does (.clkSelWrite t v) s e :=
  does_of_eq h (hosted_does (c := fun d => d.reaches .host) (f := fun d => d.clkWrite t.val v.toNat) rfl hh hr)

theorem pllLock_does {p : Pll} {e : Dev} (h : s.dev.pllLock t.val p = e) : Does (.pllLock t p) s e :=
  always_does (f := fun d => d.pllLock t.val p) rfl h

theorem pllIdleStop_does {p : Pll} {e : Dev} (h : s.dev.pllStop t.val p = e) : Does (.pllIdleStop t p) s e :=
  always_does (f := fun d => d.pllStop t.val p) rfl h

end ClkTdie

section Pll

variable {d : Dev} {t v : Nat}

theorem Dev.clkWrite_absent (hp : d.tdiePresent t = false) : d.clkWrite t v = d := if_pos (by simp [hp])

theorem Dev.clkWrite_refused (hp : d.tdiePresent t = true) (hr : d.selRefused (d.tdie t) (fieldAt v 0 2) = true) :
    d.clkWrite t v = (d.bump switchRefusalsAt).raise 6 := by
  rw [Dev.clkWrite, hp, hr]
  rfl

theorem Dev.clkWrite_sets (hp : d.tdiePresent t = true) (hr : d.selRefused (d.tdie t) (fieldAt v 0 2) = false) :
    d.clkWrite t v = d.setTdie t (TDieSt.follow
      { ((d.tdie t).writeStep .a (fieldAt v 4 3)).writeStep .b (fieldAt v 8 3) with
        sel := fieldAt v 0 2, auto := bitAt v 31 }) := by
  rw [Dev.clkWrite, hp, hr]
  rfl

theorem Dev.selRefused_iff {x : TDieSt} {sel : Nat} : d.selRefused x sel = true ↔
    x.sel ≠ sel ∧ (x.auto = true ∨ x.hwOwn = true ∨ d.sourceReady x sel = false) := by
  simp [Dev.selRefused, or_assoc]

theorem Dev.sourceReady_none (d : Dev) (x : TDieSt) : d.sourceReady x 3 = false := by simp [Dev.sourceReady]

theorem TDieSt.writeStep_kept {x : TDieSt} {p : Pll} {st : Nat}
    (h : 5 < st ∨ x.selected p = true ∨ x.hwOwn = true ∨ x.auto = true) : x.writeStep p st = x :=
  if_pos (by obtain h | h | h | h := h <;> simp [h])

theorem Dev.pllLock_a (hr : d.pins.refclk = true) (hl : (d.tdie t).aSt = .locking) :
    d.pllLock t .a = d.setTdie t { d.tdie t with aSt := .locked } := if_pos (by simp [hr, TDieSt.pll, hl])

theorem Dev.pllLock_b (hr : d.pins.refclk = true) (hl : (d.tdie t).bSt = .locking) :
    d.pllLock t .b = d.setTdie t { d.tdie t with bSt := .locked } := if_pos (by simp [hr, TDieSt.pll, hl])

/-- Under AUTO, with PLL A selected off the floor, hardware switches to PLL B once it has locked at the floor. -/
theorem Dev.autoSwitch_toB (ha : (d.tdie t).auto = true) (hs : (d.tdie t).sel = 0) (hr : (d.tdie t).aSt ≠ .stopped)
    (hn : (d.tdie t).aStep ≠ (d.tdie t).floor) (hb : (d.tdie t).bStep = (d.tdie t).floor) (hl : (d.tdie t).bSt = .locked) :
    d.autoSwitch t = d.setTdie t { d.tdie t with sel := 1, hwOwn := false } := by
  have hother : (d.tdie t).other = .b := by rw [TDieSt.other, if_pos hs]
  have hactive : (d.tdie t).active = (d.tdie t).aStep := by rw [TDieSt.active, if_pos hs]
  have hstopped : (d.tdie t).stopped = false := by simp [TDieSt.stopped, hs, hr]
  have hready : (d.tdie t).ready .b = true := by simp [TDieSt.ready, TDieSt.pll, TDieSt.step, hl, hb]
  have hstep : (d.tdie t).step .b = (d.tdie t).floor := hb
  rw [Dev.autoSwitch, hother]
  exact if_pos (by simp [ha, hs, hstopped, hactive, hn, hstep, hready])

theorem Dev.autoSwitch_ref (hs : 2 ≤ (d.tdie t).sel) : d.autoSwitch t = d :=
  if_neg (by simp [Nat.not_lt.mpr hs])

theorem TDieSt.follow_ref {x : TDieSt} (h : 2 ≤ x.sel) : x.follow = x := if_pos (by simp [h])

theorem Dev.floorEnforce_switches (ho : (d.tdie t).hwOwn = true) (hr : (d.tdie t).ready (d.tdie t).other = true) :
    d.floorEnforce t = d.setTdie t { d.tdie t with sel := pllCode (d.tdie t).other, hwOwn := false } :=
  if_pos (by simp [ho, hr])

/-- A selected PLL stops exactly with its die asleep. -/
theorem Dev.pllStop_a (hs : (d.tdie t).sel = 0) :
    d.pllStop t .a = if d.dieAsleep t then d.setTdie t { d.tdie t with aSt := .stopped } else d := by
  have hsel : (d.tdie t).selected .a = true := by simp [TDieSt.selected, hs]
  rw [Dev.pllStop]
  simp only [hsel, if_true]

theorem Dev.pllStop_b (hs : (d.tdie t).sel = 1) :
    d.pllStop t .b = if d.dieAsleep t then d.setTdie t { d.tdie t with bSt := .stopped } else d := by
  have hsel : (d.tdie t).selected .b = true := by simp [TDieSt.selected, hs]
  rw [Dev.pllStop]
  simp only [hsel, if_true]

end Pll

/-- Settles O18: a write by the die and SEL, each change of a PLL by the state that it asks for. -/
theorem clocksOfATensorDie : Obligations.ClocksOfATensorDie := by
  unfold Obligations.ClocksOfATensorDie
  refine ⟨?write, ?absent, fun d x sel => Dev.selRefused_iff, fun d x => ⟨rfl, rfl, rfl, d.sourceReady_none x⟩,
    fun x p st => TDieSt.writeStep_kept, ?lockA, ?lockB, ?auto, ?ref, fun x => TDieSt.follow_ref, ?enforce, ?stopA, ?stopB,
    ?runs⟩
  case write =>
    intro s t v hh hr hp
    exact ⟨fun hs => clkSelWrite_does hh hr (Dev.clkWrite_refused hp hs),
      fun hs => ⟨_, rfl, clkSelWrite_does hh hr (Dev.clkWrite_sets hp hs)⟩⟩
  case absent =>
    intro s t v hh hp
    exact hosted_still (c := fun d => d.reaches .host) (f := fun d => d.clkWrite t.val v.toNat) rfl hh
      (Dev.clkWrite_absent hp)
  case lockA =>
    intro s t hr hl
    exact pllLock_does (Dev.pllLock_a hr hl)
  case lockB =>
    intro s t hr hl
    exact pllLock_does (Dev.pllLock_b hr hl)
  case auto =>
    intro s t ha hs hr hn hb hl
    exact always_does (f := fun d => d.autoSwitch t.val) rfl (Dev.autoSwitch_toB ha hs hr hn hb hl)
  case ref =>
    intro s t hs
    exact always_does (f := fun d => d.autoSwitch t.val) rfl (Dev.autoSwitch_ref hs)
  case enforce =>
    intro s t ho hr
    exact always_does (f := fun d => d.floorEnforce t.val) rfl (Dev.floorEnforce_switches ho hr)
  case stopA =>
    intro s t hs ha
    exact pllIdleStop_does ((Dev.pllStop_a hs).trans (if_pos ha))
  case stopB =>
    intro s t hs ha
    exact pllIdleStop_does ((Dev.pllStop_b hs).trans (if_pos ha))
  case runs =>
    intro s t hs ha
    exact pllIdleStop_does ((Dev.pllStop_a hs).trans (if_neg (by simp [ha])))

/-! ### The power loop (R405) -/

section Power

variable {d : Dev} {t m : Nat}

theorem powerCompare_does {s : State} {t : TDie} {m : BitVec 10} {e : Dev} (hp : s.dev.tdiePresent t.val = true)
    (h : s.dev.powerCompare t.val m.toNat = e) : Does (.powerCompare t m) s e :=
  when_does (c := fun d => d.tdiePresent t.val) (f := fun d => d.powerCompare t.val m.toNat) rfl hp h

theorem Dev.powerCompare_raises (hm : (d.tdie t).budget < m) (hs : (d.tdie t).stage < 5) : d.powerCompare t m =
    ((d.setTdie t { d.tdie t with
      power := m, stage := (d.tdie t).stage + 1, powerFloor := (d.tdie t).stage + 1, low := 0 }).bump
      (stageUpsAt t)).floorsChanged t :=
  (if_pos hm).trans (if_neg (Nat.not_le.mpr hs))

theorem Dev.powerCompare_over (hm : (d.tdie t).budget < m) (hs : 5 ≤ (d.tdie t).stage) : d.powerCompare t m =
    d.setTdie t { d.tdie t with power := m, overPower := true, low := 0 } :=
  (if_pos hm).trans (if_pos hs)

variable (hm : m ≤ (d.tdie t).budget)
include hm

theorem Dev.powerCompare_low (hl : 10 * m < 9 * (d.tdie t).budget) (hn : (d.tdie t).low < 9) : d.powerCompare t m =
    d.setTdie t { d.tdie t with power := m, low := (d.tdie t).low + 1 } :=
  (if_neg (Nat.not_lt.mpr hm)).trans ((if_pos hl).trans (if_pos (Nat.succ_lt_succ hn)))

theorem Dev.powerCompare_falls (hl : 10 * m < 9 * (d.tdie t).budget) (hn : (d.tdie t).low = 9) : d.powerCompare t m =
    (d.setTdie t { d.tdie t with
      power := m, stage := (d.tdie t).stage - 1, powerFloor := (d.tdie t).stage - 1, low := 0 }).floorsChanged t :=
  (if_neg (Nat.not_lt.mpr hm)).trans
    ((if_pos hl).trans (if_neg (show ¬ (d.tdie t).low + 1 < 10 by rw [hn]; exact Nat.lt_irrefl _)))

theorem Dev.powerCompare_near (hl : 9 * (d.tdie t).budget ≤ 10 * m) : d.powerCompare t m =
    d.setTdie t { d.tdie t with power := m, low := 0 } :=
  (if_neg (Nat.not_lt.mpr hm)).trans (if_neg (Nat.not_lt.mpr hl))

end Power

/-- Settles O19: the mean by the budget and 90% of it, the stage by its bound, the means in a row by their count. -/
theorem powerLoop : Obligations.PowerLoop := by
  unfold Obligations.PowerLoop
  exact ⟨fun s t m hp hm hs => powerCompare_does hp (Dev.powerCompare_raises hm hs),
    fun s t m hp hm hs => powerCompare_does hp (Dev.powerCompare_over hm hs),
    fun s t m hp hm hl hn => powerCompare_does hp (Dev.powerCompare_low hm hl hn),
    fun s t m hp hm hl hn => powerCompare_does hp (Dev.powerCompare_falls hm hl hn),
    fun s t m hp hm hl => powerCompare_does hp (Dev.powerCompare_near hm hl)⟩

/-! ### Sleep and wake (R406, R407, R409) -/

/-- Bit `r` cleared. -/
theorem getLsbD_clearBit {w : Nat} (x : BitVec w) (r q : Nat) (hq : q < w) :
    (x &&& ~~~(BitVec.ofNat w (2 ^ r))).getLsbD q = (x.getLsbD q && decide (q ≠ r)) := by
  rw [BitVec.getLsbD_and, BitVec.getLsbD_not, BitVec.getLsbD_ofNat, Nat.testBit_two_pow]
  by_cases h : r = q
  · simp [h, hq]
  · simp [h, hq, Ne.symm h]

/-- Bit `r` set. -/
theorem getLsbD_setBit {w : Nat} (x : BitVec w) (r q : Nat) (hq : q < w) :
    (x ||| BitVec.ofNat w (2 ^ r)).getLsbD q = (x.getLsbD q || decide (q = r)) := by
  rw [BitVec.getLsbD_or, BitVec.getLsbD_ofNat, Nat.testBit_two_pow]
  by_cases h : r = q
  · simp [h, hq]
  · simp [h, Ne.symm h]

section Wake

variable {d : Dev}

theorem Dev.regionAwakes_wakes {r : Nat} (hg : d.clk.regionGranted = [r]) (hc : d.clockRuns (r / 2) = true) :
    d.regionAwakes r = { d with
      clk.regionGranted := d.clk.regionGranted.filter (fun x => decide (x ≠ r))
      clk.regionAwake := d.clk.regionAwake ||| BitVec.ofNat 12 (2 ^ r) } :=
  if_pos (by simp [hg, hc])

theorem Dev.stackAwakes_wakes {st : Nat} (hg : d.clk.stackGranted = [st]) (hc : d.clockRuns (st / 4) = true) :
    d.stackAwakes st = { d with
      clk.stackGranted := d.clk.stackGranted.filter (fun x => decide (x ≠ st))
      clk.stackAwake := d.clk.stackAwake ||| BitVec.ofNat 24 (2 ^ st) } :=
  if_pos (by simp [hg, hc])

theorem Dev.regionAwakes_waits {r : Nat} (hc : d.clockRuns (r / 2) = false) : d.regionAwakes r = d :=
  if_neg (by simp [hc])

theorem Dev.wakeGrant_region {r : Nat} {rest : List Nat} (h : d.clk.regionQ = r :: rest) : d.wakeGrant .region = { d with
    clk.regionQ := rest, clk.regionFresh := false, clk.regionSame := min d.clk.regionSame rest.length
    clk.regionGrantAt := some d.now, clk.regionGranted := d.clk.regionGranted ++ [r] } := by
  rw [Dev.wakeGrant, h]

theorem Dev.wakeGrant_stack {x : Nat} {rest : List Nat} (h : d.clk.stackQ = x :: rest) : d.wakeGrant .stack = { d with
    clk.stackQ := rest, clk.stackFresh := false, clk.stackSame := min d.clk.stackSame rest.length
    clk.stackGrantAt := some d.now, clk.stackGranted := d.clk.stackGranted ++ [x] } := by
  rw [Dev.wakeGrant, h]

end Wake

/-- Settles O20: sleep by the bit and the flags it clears, a grant by its queue, a wake by the clock. -/
theorem sleepAndWake : Obligations.SleepAndWake := by
  unfold Obligations.SleepAndWake
  refine ⟨?sleep, ?refresh, ?grantRegion, ?grantStack, ?wakeRegion, ?wakeStack, ?waits⟩
  case sleep =>
    intro s r hm
    refine ⟨_, when_does (c := fun d => d.maySleep r.val) (f := fun d => d.sleepRegion r.val) rfl hm rfl, rfl, rfl,
      fun q hq => getLsbD_clearBit _ _ _ hq, fun k => ?_⟩
    refine Tab.read_clear.trans (if_congr ?_ rfl rfl)
    omega
  case refresh =>
    intro s st hm
    exact ⟨_, when_does (c := fun d => d.maySelfRefresh st.val) (f := fun d => d.selfRefresh st.val) rfl hm rfl, rfl,
      fun q hq => getLsbD_clearBit _ _ _ hq⟩
  case grantRegion =>
    intro s r rest h
    exact always_does (f := fun d => d.wakeGrant .region) rfl (Dev.wakeGrant_region h)
  case grantStack =>
    intro s x rest h
    exact always_does (f := fun d => d.wakeGrant .stack) rfl (Dev.wakeGrant_stack h)
  case wakeRegion =>
    intro s r hg hc
    refine ⟨_, always_does (f := fun d => d.regionAwakes r.val) rfl (Dev.regionAwakes_wakes hg hc), ?_, rfl,
      fun q hq => getLsbD_setBit _ _ _ hq⟩
    simp [hg]
  case wakeStack =>
    intro s st hg hc
    refine ⟨_, always_does (f := fun d => d.stackAwakes st.val) rfl (Dev.stackAwakes_wakes hg hc), ?_, rfl,
      fun q hq => getLsbD_setBit _ _ _ hq⟩
    simp [hg]
  case waits =>
    intro s r hc
    exact always_does (f := fun d => d.regionAwakes r.val) rfl (Dev.regionAwakes_waits hc)

/-! ### Temperature and throttling (R417 to R421) -/

theorem Dev.setThermStage_dieOnly (d : Dev) (t g : Nat) : d.DieOnly (d.setThermStage t g) :=
  Dev.DieOnly.trans (b := (d.modTdie t fun x => { x with thermFloor := g }).modTdie t TDieSt.follow) rfl
    (Dev.refloorDie_dieOnly _ t)

theorem Dev.setThdie_bump_dieOnly (d : Dev) (t : Nat) (x : ThDie) (off : Nat) : d.DieOnly ((d.setThdie t x).bump off) :=
  Dev.DieOnly.trans (b := d.setThdie t x) rfl (Dev.bump_dieOnly _ _)

theorem Dev.thermStep_dieOnly (d : Dev) (t : Nat) : d.DieOnly (d.thermStep t) := by
  rw [Dev.thermStep]
  split
  · split
    · exact d.setThdie_bump_dieOnly _ _ _
    · rfl
  · split
    · rfl
    · rfl
  · split
    · rfl
    · split
      · split
        · rfl
        · exact (d.setThdie_bump_dieOnly _ _ _).trans (Dev.setThermStage_dieOnly _ _ _)
      · rfl
  · split
    · exact d.setThdie_bump_dieOnly _ _ _
    · rfl

theorem Dev.stackHot_dieOnly (d : Dev) (s : Nat) : d.DieOnly (d.stackHot s) := by
  rw [Dev.stackHot]
  split
  · rfl
  · split
    · rfl
    · rfl

/-- `d` with all of `e` that a sample may change. -/
def Dev.sampleOf (d e : Dev) : Dev :=
  { d with
    therm := e.therm, stks := e.stks, clk := e.clk, ec := e.ec, counters := e.counters, chip := e.chip
    pins := { d.pins with temps := e.pins.temps } }

/-- The sensor's reading is taken. -/
def Dev.sampledAt (d : Dev) (n : Nat) (t : BitVec 16) : Dev := d.modSensor n (fun x => d.therm.sampled n x t)

/-- A sample with one reading: the sensor takes it, and the dies follow. -/
theorem Dev.thermalSample_one {d : Dev} {n : Nat} (hp : d.sensorPresent n = true) (t : BitVec 16) :
    (d.sampledAt n t).DieOnly (d.thermalSample [(n, t)]) := by
  have hone : [(n, t)].foldl (fun (a : Dev) r =>
      if a.sensorPresent r.1 then a.modSensor r.1 (fun x => a.therm.sampled r.1 x r.2) else a) d = d.sampledAt n t :=
    if_pos hp
  rw [Dev.thermalSample, hone]
  have hstacks (a : Dev) : a.DieOnly ((List.range 24).foldl (fun a s => if a.stackPresent s then a.stackHot s else a) a) :=
    foldl_dieOnly (fun b s => by
      split
      · exact b.stackHot_dieOnly s
      · rfl) _ a
  have hdies (a : Dev) : a.DieOnly ((List.range 6).foldl (fun a t => if a.tdiePresent t then a.thermStep t else a) a) :=
    foldl_dieOnly (fun b t => by
      split
      · exact b.thermStep_dieOnly t
      · rfl) _ a
  exact (((Dev.follow_dieOnly _ _ _ _).trans (hstacks _)).trans (hdies _)).trans (Dev.follow_dieOnly _ _ _ _)

theorem Dev.setTemps_one {d : Dev} {n : Nat} (hp : d.sensorPresent n = true) (t : BitVec 16) :
    d.setTemps [(n, t)] = { d with pins.temps := Tab.write (fun _ => 0) d.pins.temps n t } := if_pos hp

section Samples

variable {s : State} {n : Fin 196} {t : BitVec 16} (hp : s.dev.sensorPresent n.val = true)
include hp

theorem thermalSample_does {e : Dev} (h : Dev.when { s.dev with
      pins.temps := Tab.write (fun _ => 0) s.dev.pins.temps n.val t } s.dev.samples
      (fun d => d.thermalSample [(n.val, t)]) = e) : Does (.thermalSample [(n.val, t)]) s e :=
  checked_does (f := fun d => (d.setTemps [(n.val, t)]).when d.samples fun d => d.thermalSample [(n.val, t)]) rfl
    (by simp [wellFormed]) (by rw [Dev.setTemps_one hp, h])

end Samples

theorem Therm.sampled_hot {x : Therm} {n : Nat} {old : Sensor} {t : BitVec 16} :
    (x.sampled n old t).hot = true ↔ 16 * (x.throttleOf n : Int) ≤ t.toInt := by
  simp [Therm.sampled, atOrAbove]

theorem Therm.sampled_warn {x : Therm} {n : Nat} {old : Sensor} {t : BitVec 16} :
    (x.sampled n old t).warn = true ↔ 16 * (x.warnOf n : Int) ≤ t.toInt ∨
      (old.warn = true ∧ 16 * ((x.warnOf n : Int) - x.hyst) < t.toInt) := by
  simp [Therm.sampled, atOrAbove, atOrBelow]

section Steps

variable {d : Dev} {t : Nat}

theorem Dev.thermStep_idle (hs : (d.thdie t).st = .idle) (hh : d.dieHot t = true) : d.thermStep t =
    (d.setThdie t { d.thdie t with st := .grace, req := true, since := 0 }).bump 0x201010 := by
  simp only [Dev.thermStep, hs, hh, if_true, thermRequestsAt]

theorem Dev.thermStep_cooling (hs : (d.thdie t).st = .cooling) (hh : d.dieHot t = true) : d.thermStep t =
    (d.setThdie t { d.thdie t with st := .enforce, req := true, since := (d.thdie t).since + 1 }).bump 0x201010 := by
  simp only [Dev.thermStep, hs, hh, if_true, thermRequestsAt]

theorem Dev.graceExpire_raises (hs : (d.thdie t).st = .grace) (hc : d.dieClear t = false) (h5 : (d.thdie t).stage < 5) :
    d.graceExpire t = ((d.setThdie t { d.thdie t with
      st := .enforce, stage := (d.thdie t).stage + 1, since := 0 }).bump (thermUpsAt t)).setThermStage t
        ((d.thdie t).stage + 1) := by
  have hmin : min ((d.thdie t).stage + 1) 5 = (d.thdie t).stage + 1 := by omega
  rw [Dev.graceExpire, if_pos (by simp [hs, hc])]
  simp only [hmin, h5, if_true]

theorem Dev.graceExpire_other (hs : (d.thdie t).st ≠ .grace) : d.graceExpire t = d := if_neg (by simp [hs])

theorem Dev.coolingStepDown_lowers (hs : (d.thdie t).st = .cooling) (hc : d.dieClear t = true) (h1 : 1 < (d.thdie t).stage) :
    d.coolingStepDown t = (d.setThdie t { d.thdie t with
      st := .cooling, stage := (d.thdie t).stage - 1 }).setThermStage t ((d.thdie t).stage - 1) := by
  have hne : (d.thdie t).stage - 1 ≠ 0 := by omega
  rw [Dev.coolingStepDown, if_pos (by simp [hs, hc])]
  simp only [hne, if_false]

end Steps

/-- Settles O22: a sample by its reading, the dies' part of it by what they may write; the stages by the state of the die. -/
theorem throttling : Obligations.Throttling := by
  unfold Obligations.Throttling
  refine ⟨fun x n old t => ⟨rfl, rfl, Therm.sampled_hot, Therm.sampled_warn⟩, ?samples, ?stopped,
    fun d t => Dev.thermStep_idle, fun d t => Dev.thermStep_cooling, ?grace, ?cooling, ?noGrace⟩
  case samples =>
    intro s n t hs hp
    obtain ⟨d1, h1⟩ : ∃ d1 : Dev, d1 = { s.dev with pins.temps := Tab.write (fun _ => 0) s.dev.pins.temps n.val t } :=
      ⟨_, rfl⟩
    obtain ⟨e, he⟩ : ∃ e, d1.thermalSample [(n.val, t)] = e := ⟨_, rfl⟩
    have hp1 : d1.sensorPresent n.val = true := by rw [← hp, h1]; rfl
    have ho : (d1.sampledAt n.val t).DieOnly e := he ▸ Dev.thermalSample_one hp1 t
    have hsensors : e.therm.sensors = (d1.sampledAt n.val t).therm.sensors := ho.keeps (·.therm.sensors) fun _ _ => rfl
    have hpins : e.pins = d1.pins := ho.keeps Dev.pins fun _ _ => rfl
    have hdoes : Does (.thermalSample [(n.val, t)]) s e := thermalSample_does hp (by rw [hs, Dev.when_true, ← h1, he])
    refine ⟨e, hdoes, ?_, ?_, ?_⟩
    · rw [hsensors, h1]
      rfl
    · rw [Dev.temp, hpins, h1]
      exact Tab.read_write_same
    · calc e
        _ = (d1.sampledAt n.val t).dieOf e := ho
        _ = s.dev.sampleOf ((d1.sampledAt n.val t).dieOf e) := by rw [h1]; rfl
        _ = s.dev.sampleOf e := congrArg s.dev.sampleOf (Eq.symm ho)
  case stopped =>
    intro s n t hs hp
    exact ⟨{ s.dev with pins.temps := Tab.write (fun _ => 0) s.dev.pins.temps n.val t },
      thermalSample_does hp (by rw [hs, Dev.when_false]), Tab.read_write_same, rfl⟩
  case grace =>
    intro s t hs hp hg hc h5
    exact when_does (c := fun d => d.samples && d.tdiePresent t.val) (f := fun d => d.graceExpire t.val) rfl
      (by simp [hs, hp]) (Dev.graceExpire_raises hg hc h5)
  case cooling =>
    intro s t hs hp hg hc h1
    exact when_does (c := fun d => d.samples && d.tdiePresent t.val) (f := fun d => d.coolingStepDown t.val) rfl
      (by simp [hs, hp]) (Dev.coolingStepDown_lowers hg hc h1)
  case noGrace =>
    intro s t hg
    exact when_still (c := fun d => d.samples && d.tdiePresent t.val) (f := fun d => d.graceExpire t.val) rfl
      (Dev.graceExpire_other hg)

end Sys2Proof.Machine
end


section
/-! Counters and faults (O23). -/

namespace Sys2Proof.Machine

open Sys2Proof Sys2Proof.Claims

/-! ### Counters (R447, R448) -/

theorem Counter.add_sat {c : Counter} {k : Nat} :
    (c.add k).sat = true ↔ c.sat = true ∨ 2 ^ 48 - 1 ≤ c.count + k := by
  rw [show (c.add k).sat = (c.sat || decide (countMax ≤ c.count + k)) from rfl, Bool.or_eq_true, decide_eq_true_iff]
  exact Iff.rfl

/-- An update that does not set SAT. -/
theorem Dev.bumpBy_unsaturated {d : Dev} {off k : Nat} (h : ((d.ctr off).add k).sat = (d.ctr off).sat) :
    d.bumpBy off k = d.setCtr off ((d.ctr off).add k) :=
  if_neg (by simp [h])

/-- An update that sets SAT. -/
theorem Dev.bumpBy_saturates {d : Dev} {off k : Nat} (h : ((d.ctr off).add k).sat ≠ (d.ctr off).sat) :
    d.bumpBy off k = (d.setCtr off ((d.ctr off).add k)).saturated off := by
  refine if_pos ?_
  have hor : ((d.ctr off).add k).sat = ((d.ctr off).sat || decide (countMax ≤ (d.ctr off).count + k)) := rfl
  cases hs : (d.ctr off).sat with
  | false => rw [hs] at h; simpa using h
  | true => rw [hor, hs] at h; exact absurd rfl h

/-- The saturation log after a counter at `off` saturates. -/
def Dev.satLogged (d : Dev) (off : Nat) : Chip :=
  if d.chip.satValid = false then { d.chip with satValid := true, satOffset := off, satAt := d.now }
  else if d.chip.satAt = d.now then { d.chip with satOffset := min d.chip.satOffset off } else d.chip

theorem Dev.saturated_eq (d : Dev) (off : Nat) :
    d.saturated off = { d with chip := d.satLogged off, ec.inbox := d.ec.inbox ++ [⟨2, true⟩] } := by
  rw [Dev.saturated, Dev.satLogged]
  cases d.chip.satValid with
  | false => rfl
  | true =>
    by_cases h : d.chip.satAt = d.now
    · simp [h, Dev.raise]
    · simp [h, Dev.raise]

theorem Dev.afterRead_counters (d : Dev) (off : Nat) : (d.afterRead off).counters = d.counters := by
  rw [Dev.afterRead]
  split
  · split
    · rfl
    · rfl
  · split
    · rfl
    · rfl
  · rfl

/-! ### What a region fault changes (R23, R24, R444) -/

/-- `d` with the regions, domains, counters, events and saturation log of `e`: what a region fault writes. -/
def Dev.faultOf (d e : Dev) : Dev :=
  { d with
    regions := e.regions, doms := e.doms, counters := e.counters, ec := e.ec
    chip := { d.chip with satValid := e.chip.satValid, satOffset := e.chip.satOffset, satAt := e.chip.satAt } }

/-- The same with every chip register. -/
def Dev.faultPart (d e : Dev) : Dev :=
  { d with regions := e.regions, doms := e.doms, counters := e.counters, chip := e.chip, ec := e.ec }

/-- `e` differs from `d` at most there. -/
def Dev.FaultOnly (d e : Dev) : Prop := e = d.faultOf e

theorem Dev.FaultOnly.refl (d : Dev) : d.FaultOnly d := rfl

theorem Dev.FaultOnly.trans {a b c : Dev} (h : a.FaultOnly b) (k : b.FaultOnly c) : a.FaultOnly c :=
  Eq.trans k (congrArg (fun x => x.faultOf c) h)

/-- What a fault does not write stands. -/
theorem Dev.FaultOnly.keeps {d e : Dev} (h : d.FaultOnly e) {α : Type} (g : Dev → α) (hg : ∀ a b : Dev, g (a.faultOf b) = g a) :
    g e = g d :=
  (congrArg g h).trans (hg d e)

theorem Dev.bump_faultOnly (d : Dev) (off : Nat) : d.FaultOnly (d.bump off) := by
  rw [Dev.bump]
  by_cases h : ((d.ctr off).add 1).sat = (d.ctr off).sat
  · rw [Dev.bumpBy_unsaturated h]
    rfl
  · rw [Dev.bumpBy_saturates h, Dev.saturated]
    split
    · rfl
    · split
      · rfl
      · rfl

theorem Dev.recordFault_faultOnly (d : Dev) (r code origin unit : Nat) : d.FaultOnly (d.recordFault r code origin unit) := by
  rw [Dev.recordFault]
  split
  · exact d.bump_faultOnly _
  · rfl

theorem Dev.stopRegion_faultOnly (d : Dev) (r o : Nat) : d.FaultOnly (d.stopRegion r o) := by
  rw [Dev.stopRegion]
  split
  · rfl
  · exact d.recordFault_faultOnly _ _ _ _

/-- The regions of the domain that have recorded no fault record DOMAIN_STOPPED. -/
def Dev.stopOthers (d : Dev) (r : Nat) (l : List Nat) : Dev := l.foldl (fun a o => a.stopRegion r o) d

theorem Dev.stopOthers_faultOnly (d : Dev) (r : Nat) (l : List Nat) : d.FaultOnly (d.stopOthers r l) :=
  foldl_rel (R := Dev.FaultOnly) Dev.FaultOnly.refl Dev.FaultOnly.trans (fun a o => a.stopRegion_faultOnly r o) l d

theorem Dev.stopOthers_doms (d : Dev) (r : Nat) (l : List Nat) : (d.stopOthers r l).doms = d.doms :=
  foldl_keep Dev.doms _ l d fun a o => by simp

/-- ORIGIN of the regions that only stopped names the lowest region with a fault. -/
def Dev.lowerOrigins (d : Dev) (r : Nat) (l : List Nat) : Dev :=
  l.foldl (fun a o => a.modRegion o (fun x =>
    if x.faultCode = codeDomainStopped then { x with faultOrigin := min x.faultOrigin r } else x)) d

theorem Dev.lowerOrigins_only (d : Dev) (r : Nat) (l : List Nat) :
    d.lowerOrigins r l = { d with regions := (d.lowerOrigins r l).regions } :=
  foldl_rel (R := fun a b => b = { a with regions := b.regions }) (fun _ => rfl)
    (fun {_ _ c} h k => Eq.trans k (congrArg (fun x : Dev => { x with regions := c.regions }) h))
    (fun _ _ => rfl) l d

theorem Dev.alsoFaults_faultOnly (d : Dev) (n r code unit : Nat) : d.FaultOnly (d.alsoFaults n r code unit) := by
  rw [Dev.alsoFaults]
  split
  · exact d.bump_faultOnly _
  · have hself : d.FaultOnly (d.modRegion r (fun x => { x with faultCode := code, faultOrigin := r, faultUnit := unit })) :=
      rfl
    refine hself.trans ?_
    rw [Dev.FaultOnly, ← Dev.lowerOrigins, Dev.lowerOrigins_only]
    rfl

theorem Dev.regionFault_faultOnly (d : Dev) (r code unit : Nat) : d.FaultOnly (d.regionFault r code unit) := by
  rw [Dev.regionFault]
  split
  · exact d.recordFault_faultOnly _ _ _ _
  · split
    · exact d.bump_faultOnly _
    · split
      · split
        · exact d.alsoFaults_faultOnly _ _ _ _
        · exact d.bump_faultOnly _
      · exact ((d.recordFault_faultOnly _ _ _ _).trans (Dev.FaultOnly.trans (b := (d.recordFault _ _ _ _).modDom _ _) rfl
          (Dev.stopOthers_faultOnly _ _ _)))

/-! ### Records of a region -/

theorem Dev.recordFault_counted {d : Dev} {r : Nat} (h : (d.region r).faultValid = true) (code origin unit : Nat) :
    d.recordFault r code origin unit = d.bump (faultCountAt r) := if_pos h

theorem Dev.recordFault_first {d : Dev} {r : Nat} (h : (d.region r).faultValid = false) (code origin unit : Nat) :
    d.recordFault r code origin unit = (d.modRegion r (fun x => { x with
      faultValid := true, faultCode := code, faultDomain := (d.domainOf r).getD 0, faultOrigin := origin, faultUnit := unit
      faultStep := d.stepShown ((d.domainOf r).getD 0) })).raise (16 + r) := if_neg (by simp [h])

theorem Dev.region_congr {d e : Dev} (h : e.regions = d.regions) (r : Nat) : e.region r = d.region r := by
  rw [Dev.region, h, Dev.region]

theorem Dev.bump_region (d : Dev) (off r : Nat) : (d.bump off).region r = d.region r := Dev.region_congr (by simp) r

theorem Dev.raise_region (d : Dev) (src r : Nat) : (d.raise src).region r = d.region r := rfl

theorem Dev.modRegion_read (d : Dev) (r : Nat) (f : RegionSt → RegionSt) : (d.modRegion r f).region r = f (d.region r) :=
  Dev.setRegion_read _ _ _

theorem Dev.modRegion_other (d : Dev) {r o : Nat} (f : RegionSt → RegionSt) (h : o ≠ r) :
    (d.modRegion r f).region o = d.region o := Dev.setRegion_other _ _ _ _ h

theorem Dev.recordFault_other (d : Dev) {r o : Nat} (h : o ≠ r) (code origin unit : Nat) :
    (d.recordFault r code origin unit).region o = d.region o := by
  rw [Dev.recordFault]
  split
  · exact d.bump_region _ _
  · exact Dev.setRegion_other _ _ _ _ h

/-- A region that has recorded a fault keeps it. -/
theorem Dev.recordFault_kept_record {d : Dev} {r o : Nat} (h : (d.region o).faultValid = true) (code origin unit : Nat) :
    (d.recordFault r code origin unit).region o = d.region o := by
  by_cases hr : o = r
  · subst hr
    rw [Dev.recordFault_counted h, Dev.bump_region]
  · exact d.recordFault_other hr _ _ _

theorem Dev.recordFault_records {d : Dev} {r : Nat} (h : (d.region r).faultValid = false) (code origin unit : Nat) :
    ((d.recordFault r code origin unit).region r).faultValid = true ∧
    ((d.recordFault r code origin unit).region r).faultCode = code ∧
    ((d.recordFault r code origin unit).region r).faultOrigin = origin ∧
    ((d.recordFault r code origin unit).region r).faultUnit = unit := by
  rw [Dev.recordFault_first h, Dev.raise_region, Dev.modRegion_read]
  exact ⟨rfl, rfl, rfl, rfl⟩

theorem Dev.stopRegion_other (d : Dev) {r o k : Nat} (h : k ≠ o) : (d.stopRegion r o).region k = d.region k := by
  rw [Dev.stopRegion]
  split
  · rfl
  · exact d.recordFault_other h _ _ _

theorem Dev.stopRegion_recorded {d : Dev} {r o k : Nat} (h : (d.region k).faultValid = true) :
    (d.stopRegion r o).region k = d.region k := by
  rw [Dev.stopRegion]
  split
  · rfl
  · exact Dev.recordFault_kept_record h _ _ _

theorem Dev.stopRegion_self (d : Dev) (r : Nat) : d.stopRegion r r = d := if_pos (by simp)

theorem Dev.stopRegion_stops {d : Dev} {r o : Nat} (hr : o ≠ r) (h : (d.region o).faultValid = false) :
    d.stopRegion r o = d.recordFault o 0x4C r 6 := if_neg (by simp [hr, h])

theorem Dev.stopOthers_recorded {r k : Nat} (l : List Nat) {d : Dev} (h : (d.region k).faultValid = true) :
    (d.stopOthers r l).region k = d.region k := by
  induction l generalizing d with
  | nil => rfl
  | cons o l ih =>
    have hk : (d.stopRegion r o).region k = d.region k := Dev.stopRegion_recorded h
    exact (ih (by rw [hk]; exact h)).trans hk

theorem Dev.stopOthers_stops {r o : Nat} {l : List Nat} {d : Dev} (hm : o ∈ l) (hr : o ≠ r)
    (h : (d.region o).faultValid = false) : ((d.stopOthers r l).region o).faultValid = true ∧
      ((d.stopOthers r l).region o).faultCode = 0x4C ∧ ((d.stopOthers r l).region o).faultOrigin = r := by
  induction l generalizing d with
  | nil => cases hm
  | cons k l ih =>
    by_cases hk : o = k
    · subst hk
      obtain ⟨hv, hc, ho, -⟩ := Dev.recordFault_records h 0x4C r 6
      rw [← Dev.stopRegion_stops hr h] at hv hc ho
      have hkept : (d.stopOthers r (o :: l)).region o = (d.stopRegion r o).region o := Dev.stopOthers_recorded l hv
      rw [hkept]
      exact ⟨hv, hc, ho⟩
    · exact ih (d := d.stopRegion r k) ((List.mem_cons.mp hm).resolve_left hk) (by rw [d.stopRegion_other hk]; exact h)

/-- A region with a fault of its own keeps its record while the others' origins are lowered. -/
theorem Dev.lowerOrigins_own {r k : Nat} (l : List Nat) {d : Dev} (h : (d.region k).faultCode ≠ 0x4C) :
    (d.lowerOrigins r l).region k = d.region k := by
  induction l generalizing d with
  | nil => rfl
  | cons o l ih =>
    have hk : (d.modRegion o (fun x =>
        if x.faultCode = codeDomainStopped then { x with faultOrigin := min x.faultOrigin r } else x)).region k =
        d.region k := by
      by_cases hko : k = o
      · subst hko
        rw [Dev.modRegion_read]
        exact if_neg h
      · exact d.modRegion_other _ hko
    exact (ih (by rw [hk]; exact h)).trans hk

/-- A region that only stopped keeps the lowest origin, whether the list names it again or not. -/
theorem Dev.lowerOrigins_low {r k : Nat} (l : List Nat) {d : Dev} (h : (d.region k).faultOrigin ≤ r) :
    (d.lowerOrigins r l).region k = d.region k := by
  induction l generalizing d with
  | nil => rfl
  | cons o l ih =>
    have hk : (d.modRegion o (fun x =>
        if x.faultCode = codeDomainStopped then { x with faultOrigin := min x.faultOrigin r } else x)).region k =
        d.region k := by
      by_cases hko : k = o
      · subst hko
        rw [Dev.modRegion_read, Nat.min_eq_left h]
        exact ite_self _
      · exact d.modRegion_other _ hko
    exact (ih (by rw [hk]; exact h)).trans hk

theorem Dev.lowerOrigins_lowers {r o : Nat} {l : List Nat} {d : Dev} (hm : o ∈ l) (h : (d.region o).faultCode = 0x4C) :
    (d.lowerOrigins r l).region o = { d.region o with faultOrigin := min (d.region o).faultOrigin r } := by
  induction l generalizing d with
  | nil => cases hm
  | cons k l ih =>
    by_cases hk : o = k
    · subst hk
      have hfirst : (d.modRegion o (fun x =>
          if x.faultCode = codeDomainStopped then { x with faultOrigin := min x.faultOrigin r } else x)).region o =
          { d.region o with faultOrigin := min (d.region o).faultOrigin r } := by
        rw [Dev.modRegion_read]
        exact if_pos h
      refine (Dev.lowerOrigins_low l ?_).trans hfirst
      rw [hfirst]
      exact Nat.min_le_right _ _
    · have hother := d.modRegion_other (r := k) (fun x =>
        if x.faultCode = codeDomainStopped then { x with faultOrigin := min x.faultOrigin r } else x) hk
      refine (ih ((List.mem_cons.mp hm).resolve_left hk) (by rw [hother]; exact h)).trans ?_
      rw [hother]

/-! ### A region fault by the domain's state -/

section RegionFault

variable {d : Dev} {r code unit n : Nat} (hn : d.domainOf r = some n)
include hn

theorem Dev.regionFault_counted (h : ((d.dom n).stopped = true ∧ (d.dom n).stopAt ≠ d.now) ∨ d.chip.state = .fault) :
    d.regionFault r code unit = d.bump (faultCountAt r) := by
  simp only [Dev.regionFault, hn]
  by_cases hf : d.chip.state = .fault
  · exact if_pos hf
  · obtain ⟨hs, ht⟩ := h.resolve_right hf
    rw [if_neg hf, if_pos hs, if_neg ht]

theorem Dev.regionFault_sameCycle (hf : d.chip.state ≠ .fault) (hs : (d.dom n).stopped = true)
    (ht : (d.dom n).stopAt = d.now) : d.regionFault r code unit = d.alsoFaults n r code unit := by
  simp only [Dev.regionFault, hn]
  rw [if_neg hf, if_pos hs, if_pos ht]

theorem Dev.regionFault_stops (hf : d.chip.state ≠ .fault) (hs : (d.dom n).stopped = false) :
    d.regionFault r code unit = Dev.stopOthers ((d.recordFault r code r unit).modDom n (fun x => { x with
      stopped := true, stopAt := d.now })) r (d.regionsOf n) := by
  have hregions : ((d.recordFault r code r unit).modDom n (fun x => { x with
      stopped := true, stopAt := d.now })).regionsOf n = d.regionsOf n := by
    have himg : (d.recordFault r code r unit).img = d.img := (d.recordFault_faultOnly r code r unit).keeps Dev.img
      fun _ _ => rfl
    show Dev.regionsOf (d.recordFault r code r unit) n = _
    rw [Dev.regionsOf, Dev.domEnt, himg, Dev.regionsOf, Dev.domEnt]
  simp only [Dev.regionFault, hn]
  rw [if_neg hf, if_neg (by simp [hs]), hregions]
  rfl

end RegionFault

theorem Dev.alsoFaults_counted {d : Dev} {n r code unit : Nat} (h : (d.region r).faultCode ≠ 0x4C) :
    d.alsoFaults n r code unit = d.bump (faultCountAt r) := if_pos h

theorem Dev.alsoFaults_records {d d1 : Dev} {n r code unit : Nat} (h : (d.region r).faultCode = 0x4C)
    (h1 : d1 = d.modRegion r (fun x => { x with faultCode := code, faultOrigin := r, faultUnit := unit })) :
    d.alsoFaults n r code unit = d1.lowerOrigins r (d.regionsOf n) := by
  rw [h1]
  exact if_neg (not_not_intro h)

/-- Settles O23: a counter by whether it saturates, a fault by the records of the regions and the state of the domain. -/
theorem countersAndFaults : Obligations.CountersAndFaults := by
  unfold Obligations.CountersAndFaults
  refine ⟨?add, ?bump, ?word, fun d off => d.afterRead_counters off,
    fun d r code origin unit h => Dev.recordFault_counted h code origin unit,
    fun d r code origin unit h => Dev.recordFault_first h code origin unit,
    fun d r code unit n hn h => Dev.regionFault_counted hn h, ?sameCycle, ?alone, ?stops, ?only,
    fun d code hs => Dev.chipFault_ready hs code⟩
  case add =>
    intro c k hc
    refine ⟨rfl, Nat.min_le_right _ _, ?_, Counter.add_sat⟩
    exact Nat.le_min.mpr ⟨Nat.le_add_right _ _, hc⟩
  case word =>
    intro c hc
    rw [c.word_eq, Nat.mod_eq_of_lt (by omega)]
  case bump =>
    intro d off k
    dsimp only
    by_cases h : ((d.ctr off).add k).sat = (d.ctr off).sat
    · rw [Dev.bumpBy_unsaturated h]
      exact ⟨rfl, fun _ => ⟨rfl, rfl⟩, fun hne => absurd h hne⟩
    · rw [Dev.bumpBy_saturates h, Dev.saturated_eq]
      exact ⟨rfl, fun heq => absurd heq h, fun _ => ⟨rfl, rfl⟩⟩
  case sameCycle =>
    intro d r code unit n hn hf hs ht
    rw [Dev.regionFault_sameCycle hn hf hs ht]
    refine ⟨fun hc => Dev.alsoFaults_counted hc, fun hc hcode => ?_⟩
    obtain ⟨d1, h1⟩ : ∃ d1 : Dev, d1 = d.modRegion r (fun x => { x with
      faultCode := code, faultOrigin := r, faultUnit := unit }) := ⟨_, rfl⟩
    dsimp only
    rw [Dev.alsoFaults_records hc h1]
    have hr : d1.region r = { d.region r with faultCode := code, faultOrigin := r, faultUnit := unit } := by
      rw [h1, Dev.modRegion_read]
    refine ⟨?_, ?_, fun o ho hor hco => ?_⟩
    · calc d1.lowerOrigins r (d.regionsOf n)
        _ = { d1 with regions := (d1.lowerOrigins r (d.regionsOf n)).regions } := d1.lowerOrigins_only r _
        _ = _ := by rw [h1]; rfl
    · rw [Dev.lowerOrigins_own _ (by rw [hr]; exact hcode), hr]
    · have hother : d1.region o = d.region o := by rw [h1, Dev.modRegion_other _ _ hor]
      rw [Dev.lowerOrigins_lowers ho (by rw [hother]; exact hco), hother]
  case alone =>
    intro d r code unit n hn hs hf hr
    rw [Dev.regionFault_stops hn hf hs, hr]
    exact Dev.stopRegion_self _ r
  case stops =>
    intro d r code unit n hn hs hf
    dsimp only
    rw [Dev.regionFault_stops hn hf hs]
    obtain ⟨d1, h1⟩ : ∃ d1 : Dev, (d.recordFault r code r unit).modDom n (fun x => { x with
      stopped := true, stopAt := d.now }) = d1 := ⟨_, rfl⟩
    rw [h1]
    have hregion (o : Nat) : d1.region o = (d.recordFault r code r unit).region o := by rw [← h1]; rfl
    refine ⟨?_, fun hv => ?_, fun o ho hor hv => ?_⟩
    · have hdom : (d1.stopOthers r (d.regionsOf n)).dom n = d1.dom n := by
        rw [Dev.dom, Dev.stopOthers_doms, Dev.dom]
      rw [hdom, ← h1, Dev.modDom, Dev.setDom_read]
    · obtain ⟨hvalid, hcode, -, hunit⟩ := Dev.recordFault_records hv code r unit
      rw [Dev.stopOthers_recorded _ (by rw [hregion]; exact hvalid), hregion]
      exact ⟨hvalid, hcode, hunit⟩
    · exact Dev.stopOthers_stops ho hor (by rw [hregion, d.recordFault_other hor]; exact hv)
  case only =>
    intro d r code unit
    have h := d.regionFault_faultOnly r code unit
    refine ⟨?_, congrArg Dev.chip h⟩
    calc d.regionFault r code unit
      _ = d.faultOf (d.regionFault r code unit) := h
      _ = d.faultPart (d.faultOf (d.regionFault r code unit)) := rfl
      _ = d.faultPart (d.regionFault r code unit) := congrArg d.faultPart (Eq.symm h)

end Sys2Proof.Machine
end


section
/-! The host work rings (O58): EN and the doorbell, the fetch, the choice of the next entry, its work and its end. -/

namespace Sys2Proof.Machine

open Sys2Proof Sys2Proof.Claims

/-! ### States of a ring (R372, R376, R378) -/

theorem Ring.quiet_iff {x : Ring} : x.quiet = true ↔ x.fly = [] ∨ ∃ (f : RingRun) (r : List RingRun),
    x.fly = f :: r ∧ f.failed = true ∧ ∀ y ∈ r, y.made = true ∨ y.failed = true := by
  rw [Ring.quiet]
  cases x.fly with
  | nil => simp
  | cons f r => simp [and_assoc]

theorem Ring.settled_off {x : Ring} (hs : x.state = 3) (hq : x.quiet = true) :
    x.settled = { x with state := 0, prod := 0, cons := 0, start := 0, fly := [], fetched := [] } :=
  if_pos (by simp [hs, hq])

theorem Ring.settled_busy {x : Ring} (h : x.state ≠ 3 ∨ x.quiet = false) : x.settled = x :=
  if_neg (by obtain h | h := h <;> simp [h])

theorem ringEnable_does {s : State} {g : RingNo} {v : Word} {e : Dev} (hh : s.dev.host.held = [])
    (hr : s.dev.reaches .host = true) (h : s.dev.ringEnable g.val (v.getLsbD 0) = e) : Does (.ringEnable g v) s e :=
  does_of_eq h (hosted_does (c := fun d => d.reaches .host) (f := fun d => d.ringEnable g.val (v.getLsbD 0)) rfl hh hr)

section Enable

variable {d : Dev} {g : Nat}

theorem Dev.ringEnable_ignored (h : d.chip.state ≠ .ready ∨ (d.ring g).state ≠ 0) : d.ringEnable g true = d := by
  rw [Dev.ringEnable, if_pos rfl]
  exact if_pos (by simpa using h)

section Starts

variable (hs : d.chip.state = .ready) (h0 : (d.ring g).state = 0)
include hs h0

theorem Dev.ringEnable_starts (ho : d.ringOk (d.ring g) = true) : d.ringEnable g true = d.setRing g { d.ring g with
    en := true, state := 1, code := 0, errIndex := 0, prod := 0, cons := 0, start := 0, fetched := [] } := by
  rw [Dev.ringEnable, if_pos rfl]
  exact (if_neg (by simp [hs, h0])).trans (if_pos ho)

theorem Dev.ringEnable_badPlace (ho : d.ringOk (d.ring g) = false) :
    d.ringEnable g true = (d.setRing g { d.ring g with en := true }).ringError g 2 none := by
  rw [Dev.ringEnable, if_pos rfl]
  exact (if_neg (by simp [hs, h0])).trans (if_neg (by simp [ho]))

end Starts

theorem Dev.ringEnable_stop : d.ringEnable g false = d.setRing g (Ring.settled { d.ring g with
    en := false, state := if (d.ring g).state = 0 then 0 else 3, fetched := [] }) := by
  rw [Dev.ringEnable]
  exact if_neg Bool.false_ne_true

theorem Dev.ringEnable_off (h : (d.ring g).state = 0) :
    d.ringEnable g false = d.setRing g { d.ring g with en := false, state := 0, fetched := [] } := by
  rw [Dev.ringEnable_stop, if_pos h, Ring.settled_busy (.inl (show (0 : Nat) ≠ 3 by decide))]

section Stops

variable (h : (d.ring g).state ≠ 0)
include h

theorem Dev.ringEnable_quiet (hq : (d.ring g).quiet = true) : d.ringEnable g false = d.setRing g { d.ring g with
    en := false, state := 0, prod := 0, cons := 0, start := 0, fly := [], fetched := [] } := by
  rw [Dev.ringEnable_stop, if_neg h]
  exact congrArg (d.setRing g) (Ring.settled_off (x := { d.ring g with en := false, state := 3, fetched := [] }) rfl hq)

theorem Dev.ringEnable_busy (hq : (d.ring g).quiet = false) :
    d.ringEnable g false = d.setRing g { d.ring g with en := false, state := 3, fetched := [] } := by
  rw [Dev.ringEnable_stop, if_neg h]
  exact congrArg (d.setRing g) (Ring.settled_busy (x := { d.ring g with en := false, state := 3, fetched := [] }) (.inr hq))

end Stops

/-- The first error of a ring stands. -/
theorem Dev.ringError_again {x : Ring} (hx : x = d.ring g) (h : x.state = 2) (c : Nat) (i : Option Nat) :
    d.ringError g c i = (d.setRing g x).raise (128 + g) := by
  subst hx
  exact congrArg (fun y => (d.setRing g y).raise (128 + g)) (if_pos h)

theorem Dev.ringError_first {x : Ring} (hx : x = d.ring g) (h : x.state ≠ 2) (c : Nat) (i : Option Nat) :
    d.ringError g c i = (d.setRing g { x with
      state := if x.state = 3 then 3 else 2, code := c, errIndex := i.getD x.errIndex }).raise (128 + g) := by
  subst hx
  exact congrArg (fun y => (d.setRing g y).raise (128 + g)) (if_neg h)

end Enable

/-! ### The doorbell and the fetch (R376) -/

section Doorbell

variable {d : Dev} {g : Nat} {v : BitVec 16}

theorem ringDoorbell_does {s : State} {g : RingNo} {v : Word} {e : Dev} (hh : s.dev.host.held = [])
    (hr : s.dev.hostReady = true) (h : s.dev.ringDoorbell g.val (v.setWidth 16) = e) : Does (.ringDoorbell g v) s e :=
  does_of_eq h (hosted_does (c := Dev.hostReady) (f := fun d => d.ringDoorbell g.val (v.setWidth 16)) rfl hh hr)

theorem Dev.ringDoorbell_ignored (h : (d.ring g).state ≠ 1) : d.ringDoorbell g v = d := if_pos h

variable (h : (d.ring g).state = 1)
include h

theorem Dev.ringDoorbell_overrun (hn : 2 ^ (d.ring g).log2 < (v - (d.ring g).prod).toNat + ((d.ring g).prod - (d.ring g).cons).toNat) :
    d.ringDoorbell g v = d.ringError g 1 none :=
  (if_neg (not_not_intro h)).trans (if_pos hn)

theorem Dev.ringDoorbell_posts (hn : (v - (d.ring g).prod).toNat + ((d.ring g).prod - (d.ring g).cons).toNat ≤ 2 ^ (d.ring g).log2) :
    d.ringDoorbell g v = (d.setRing g { d.ring g with prod := v }).fetchRing g :=
  (if_neg (not_not_intro h)).trans (if_neg (Nat.not_lt.mpr hn))

end Doorbell

theorem Dev.fetchEntries_done {d : Dev} {g n : Nat}
    (h : (d.ring g).state ≠ 1 ∨ ((d.ring g).prod - (d.ring g).start).toNat ≤ (d.ring g).fetched.length) :
    d.fetchEntries g (n + 1) = d := by
  rw [Dev.fetchEntries]
  exact if_pos (by simpa using h)

theorem Dev.fetchEntries_reads {d d1 : Dev} {g n : Nat} {bs : List Byte} (h : (d.ring g).state = 1)
    (hn : (d.ring g).fetched.length < ((d.ring g).prod - (d.ring g).start).toNat)
    (hl : d.load mgmtWho (d.entryAddr (d.ring g) ((d.ring g).start + BitVec.ofNat 16 (d.ring g).fetched.length)) 64 =
      .ok (d1, bs)) : d.fetchEntries g (n + 1) =
    (((d1.unserve mgmtWho.party).fetched g (some (ofBytes bs))).wakeEntry ⟨ofBytes bs⟩).fetchEntries g n := by
  rw [Dev.fetchEntries]
  refine (if_neg ?_).trans ?_
  · simp only [h, Bool.or_eq_true, decide_eq_true_eq, ne_eq, not_true_eq_false, false_or, Nat.not_le, hn]
  rw [hl]
  rfl

/-! ### The entry that is at work or comes next (R377) -/

section Next

variable {d : Dev} {g : Nat}

theorem Dev.runEntry_still {o : Nat} (h : d.clk.coast = true ∨ d.chip.state ≠ .ready) : d.runEntry g o = d :=
  if_pos (by simpa using h)

section Runs

variable {d1 : Dev} {o : Nat} (hc : d.clk.coast = false) (hs : d.chip.state = .ready) (h1 : d1 = d.fetchRing g)
include hc hs h1

theorem Dev.runEntry_goesOn {f : RingRun} (h : (d1.ring g).fly.find? (fun x => !x.made && !x.failed &&
    decide (min (RingEntry.op ⟨x.entry⟩) 5 = o)) = some f) : d.runEntry g o = d1.doEntry g f := by
  subst h1
  rw [Dev.runEntry, if_neg (by simp [hc, hs])]
  simp only [h]

theorem Dev.runEntry_starts (h : (d1.ring g).fly.find? (fun x => !x.made && !x.failed &&
    decide (min (RingEntry.op ⟨x.entry⟩) 5 = o)) = none) : d.runEntry g o = d1.startEntry g o := by
  subst h1
  rw [Dev.runEntry, if_neg (by simp [hc, hs])]
  simp only [h]

end Runs

section NextEntry

variable {w : Nat} {r : List (Option Nat)} (hs : d.chip.state = .ready) (hc : d.clk.coast = false)
  (h1 : (d.ring g).state = 1) (hf : (d.ring g).fetched = some w :: r)
include hs hc h1 hf

theorem Dev.nextEntry_eq : d.nextEntry g =
    if (RingEntry.mk w).last && !(d.ring g).fly.isEmpty then none else some (some ⟨w⟩) := by
  rw [Dev.nextEntry]
  refine (if_pos (by simp [hs, hc, h1])).trans ?_
  rw [hf]

theorem Dev.nextEntry_heldBack (hl : (RingEntry.mk w).fence = true ∨ (RingEntry.mk w).op = 4) (hn : (d.ring g).fly ≠ []) :
    d.nextEntry g = none := by
  rw [Dev.nextEntry_eq hs hc h1 hf]
  exact if_pos (by simpa [RingEntry.last, hn] using hl)

theorem Dev.nextEntry_free (hl : (RingEntry.mk w).fence = false ∧ (RingEntry.mk w).op ≠ 4 ∨ (d.ring g).fly = []) :
    d.nextEntry g = some (some ⟨w⟩) := by
  rw [Dev.nextEntry_eq hs hc h1 hf]
  exact if_neg (by obtain ⟨h, h4⟩ | h := hl <;> simp_all [RingEntry.last])

end NextEntry

theorem Dev.startEntry_none (o : Nat) (h : d.nextEntry g = none) : d.startEntry g o = d := by
  simp only [Dev.startEntry, h]

theorem Dev.startEntry_lost (h : d.nextEntry g = some none) :
    d.startEntry g 5 = d.ringError g 6 (some (d.ring g).start.toNat) := by
  simp only [Dev.startEntry, h, if_true]

section Start

variable {o : Nat} {e : RingEntry} (h : d.nextEntry g = some (some e))
include h

theorem Dev.startEntry_otherOp (ho : min e.op 5 ≠ o) : d.startEntry g o = d := by
  simp only [Dev.startEntry, h]
  exact if_pos ho

theorem Dev.startEntry_fails (ho : min e.op 5 = o) (hc : d.entryCode e ≠ 0) :
    d.startEntry g o = d.ringError g (d.entryCode e) (some (d.ring g).start.toNat) := by
  simp only [Dev.startEntry, h]
  obtain ⟨n, hn⟩ := Nat.exists_eq_succ_of_ne_zero hc
  rw [hn]
  exact if_neg (not_not_intro ho)

/-- An entry that passes its checks starts by its operation. -/
theorem Dev.startEntry_passes (ho : min e.op 5 = o) (hc : d.entryCode e = 0) : d.startEntry g o =
    if e.op = 4 then (d.setPennants ((List.range e.pages).map (· + e.firstPage)) false).entryStarts g e
    else if !e.copies then d.entryStarts g e
    else if d.engineTurn e.region g then
      (d.entryStarts g e).doEntry g ⟨(d.ring g).start.toNat, e.event, e.region, true, e.w, false, false, none⟩
    else d := by
  simp only [Dev.startEntry, h, hc]
  exact if_neg (not_not_intro ho)

theorem Dev.startEntry_nop (ho : e.op = 0) (hc : d.entryCode e = 0) : d.startEntry g 0 = d.entryStarts g e := by
  rw [Dev.startEntry_passes h (by simp [ho]) hc, if_neg (by simp [ho]), if_pos (by simp [RingEntry.copies, ho])]

theorem Dev.startEntry_giveBack (ho : e.op = 4) (hc : d.entryCode e = 0) : d.startEntry g 4 =
    (d.setPennants ((List.range e.pages).map (· + e.firstPage)) false).entryStarts g e := by
  rw [Dev.startEntry_passes h (by simp [ho]) hc, if_pos ho]

theorem Dev.startEntry_copy (ho : e.op = o) (h3 : o = 1 ∨ o = 2 ∨ o = 3) (hc : d.entryCode e = 0) : d.startEntry g o =
    if d.engineTurn e.region g then
      (d.entryStarts g e).doEntry g ⟨(d.ring g).start.toNat, e.event, e.region, true, e.w, false, false, none⟩
    else d := by
  have hcopies : e.copies = true := by obtain h | h | h := h3 <;> simp [RingEntry.copies, ho, h]
  rw [Dev.startEntry_passes h (by omega) hc, if_neg (by omega), hcopies]
  rfl

end Start

end Next

theorem Dev.entryCode_reserved (d : Dev) {e : RingEntry} (h : 5 ≤ e.op) : d.entryCode e = 3 := by
  have hok : e.ok = false := by simp [RingEntry.ok, show ¬ e.op ≤ 4 by omega]
  rw [Dev.entryCode, hok]
  rfl

/-- The rings before ring `g` are those nearer the ring served last, going round. -/
theorem Dev.mem_ringsBefore {d : Dev} {r g h t : Nat} (ht : t = Tab.read (fun _ => 63) d.host.ringTurn r) (h64 : t < 64)
    (hh : h < 64) : h ∈ d.ringsBefore r g ↔ (h + 63 - t) % 64 < (g + 63 - t) % 64 := by
  simp only [Dev.ringsBefore, ← ht, List.mem_map, List.mem_range]
  constructor
  · rintro ⟨j, hj, rfl⟩
    omega
  · exact fun hlt => ⟨(h + 63 - t) % 64, hlt, by omega⟩

theorem Dev.engineTurn_iff {d : Dev} {r g : Nat} : d.engineTurn r g = true ↔
    d.engineFree r = true ∧ ∀ h ∈ d.ringsBefore r g, d.ringWork h r = false := by
  simp [Dev.engineTurn]

/-! ### The work of an entry, and its end (R377, R292) -/

section Work

variable {d : Dev} {g : Nat} {f : RingRun}

theorem Dev.doEntry_shared (h : d.shareFree f.region = false) : d.doEntry g f = d := if_pos (by simp [h])

theorem Dev.doEntry_wakes (h : d.shareFree f.region = true) (ha : d.clk.regionAwake.getLsbD f.region = false) :
    d.doEntry g f = d.wakeUnit f.region :=
  (if_neg (by simp [h])).trans (if_pos (by simp [ha]))

section Awake

variable (h : d.shareFree f.region = true) (ha : d.clk.regionAwake.getLsbD f.region = true)
include h ha

theorem Dev.doEntry_done {d1 : Dev} (hc : d.copyEntry g f.index ⟨f.entry⟩ = .ok d1) :
    d.doEntry g f = d1.modRun g f.index (fun y => { y with made := true }) := by
  refine (if_neg (by simp [h])).trans ((if_neg (by simp only [ha, Bool.not_true, Bool.false_eq_true, not_false_eq_true])).trans ?_)
  rw [hc]

theorem Dev.doEntry_busy {cks : List Nat} {p : Party} (hc : d.copyEntry g f.index ⟨f.entry⟩ = .error (.busy cks p)) :
    d.doEntry g f = d.awaitCells cks (.party p) := by
  refine (if_neg (by simp [h])).trans ((if_neg (by simp only [ha, Bool.not_true, Bool.false_eq_true, not_false_eq_true])).trans ?_)
  rw [hc]
  rfl

end Awake

section Complete

variable {rest : List RingRun} (hf : (d.ring g).fly = f :: rest)
include hf

theorem Dev.completeEntry_waits (h : f.made = false ∨ (f.busy = true ∧ d.mirrorFull = true)) : d.completeEntry g = d := by
  simp only [Dev.completeEntry, hf]
  exact if_pos (by obtain h | ⟨h, hm⟩ := h <;> simp_all)

theorem Dev.completeEntry_passes {d1 : Dev} (h1 : d1 = (d.modRing g (fun x => Ring.settled { x with
      fly := rest, cons := x.cons + 1 })).bump (ringEntriesAt g)) (hm : f.made = true)
    (hw : f.busy = false ∨ d.mirrorFull = false) :
    d.completeEntry g = if f.event then d1.raise (128 + g) else d1 := by
  subst h1
  simp only [Dev.completeEntry, hf]
  exact if_neg (by obtain h | h := hw <;> simp [hm, h])

end Complete

/-- With nothing started, an entry of a reserved operation ends the ring. -/
theorem Dev.completeEntry_none {d1 : Dev} (hf : (d.ring g).fly = []) (h1 : d1 = d.fetchRing g) (hf1 : (d1.ring g).fly = [])
    (hc : d.clk.coast = false) (hs : d.chip.state = .ready) : d.completeEntry g = d1.startEntry g 5 := by
  simp only [Dev.completeEntry, hf]
  exact Dev.runEntry_starts hc hs h1 (by rw [hf1]; rfl)

end Work

theorem ringEntryComplete_does {s : State} {g : RingNo} {e : Dev} (h : s.dev.completeEntry g.val = e) :
    Does (.ringEntryComplete g) s e :=
  always_does (f := fun d => d.completeEntry g.val) rfl h

/-- Each command of a ring's entries runs the ring's entries of its operation. -/
theorem ringOp_does {s : State} {g : RingNo} {i : Instr} {o : Nat} {e : Dev}
    (hi : (i, o) ∈ [(Instr.ringNop g, 0), (.ringMove g, 1), (.ringLayout g, 2), (.ringFill g, 3), (.ringGiveBack g, 4)])
    (h : s.dev.runEntry g.val o = e) : Does i s e := by
  simp only [List.mem_cons, List.not_mem_nil, or_false, Prod.mk.injEq] at hi
  obtain ⟨rfl, rfl⟩ | ⟨rfl, rfl⟩ | ⟨rfl, rfl⟩ | ⟨rfl, rfl⟩ | ⟨rfl, rfl⟩ := hi
  · exact always_does (f := fun d => d.runEntry g.val 0) rfl h
  · exact always_does (f := fun d => d.runEntry g.val 1) rfl h
  · exact always_does (f := fun d => d.runEntry g.val 2) rfl h
  · exact always_does (f := fun d => d.runEntry g.val 3) rfl h
  · exact always_does (f := fun d => d.runEntry g.val 4) rfl h

/-- Settles O58: a ring by its state and place, an entry by its operation, its checks and its engine, its end by its work. -/
theorem hostRings : Obligations.HostRings := by
  unfold Obligations.HostRings
  refine ⟨?enable, ?ignored, ?stop, fun x => Ring.quiet_iff, ?doorbell, ?noDoorbell, ?fetch, fun d e => rfl, ?error, ?ops,
    ?next, fun d g o h => Dev.startEntry_none o h, ?start, ?before, fun d r g => Dev.engineTurn_iff, ?work, ?complete, ?reserved⟩
  case enable =>
    intro s g v hh hr hv hs h0
    exact ⟨fun ho => ringEnable_does hh hr (hv ▸ Dev.ringEnable_starts hs h0 ho),
      fun ho => ringEnable_does hh hr (hv ▸ Dev.ringEnable_badPlace hs h0 ho)⟩
  case ignored =>
    intro s g v hh hr hv h
    exact ringEnable_does hh hr (hv ▸ Dev.ringEnable_ignored h)
  case stop =>
    intro s g v hh hr hv
    exact ⟨fun h => ringEnable_does hh hr (hv ▸ Dev.ringEnable_off h),
      fun h hq => ringEnable_does hh hr (hv ▸ Dev.ringEnable_quiet h hq),
      fun h hq => ringEnable_does hh hr (hv ▸ Dev.ringEnable_busy h hq)⟩
  case doorbell =>
    rintro s g v x hh hr rfl h1
    exact ⟨fun hn => ringDoorbell_does hh hr (Dev.ringDoorbell_overrun h1 hn),
      fun hn => ringDoorbell_does hh hr (Dev.ringDoorbell_posts h1 hn)⟩
  case noDoorbell =>
    intro s g v hh h
    exact hosted_still (c := Dev.hostReady) (f := fun d => d.ringDoorbell g.val (v.setWidth 16)) rfl hh
      (Dev.ringDoorbell_ignored h)
  case fetch =>
    rintro d g n x rfl
    exact ⟨fun h => Dev.fetchEntries_done h, fun d1 bs h hn hl => Dev.fetchEntries_reads h hn hl⟩
  case error =>
    intro d g c x i hx
    exact ⟨fun h => Dev.ringError_again hx h c i, fun h => Dev.ringError_first hx h c i⟩
  case ops =>
    intro s g i o d1 hi
    exact ⟨fun h => ringOp_does hi (Dev.runEntry_still h),
      fun hc hs h1 => ⟨fun f hf => ringOp_does hi (Dev.runEntry_goesOn hc hs h1 hf),
        fun hf => ringOp_does hi (Dev.runEntry_starts hc hs h1 hf)⟩⟩
  case next =>
    intro d g w r hs hc h1 hf
    exact ⟨Dev.nextEntry_heldBack hs hc h1 hf, Dev.nextEntry_free hs hc h1 hf⟩
  case start =>
    intro d g o e h
    refine ⟨Dev.startEntry_otherOp h, Dev.startEntry_fails h, ?_, ?_, fun ho h3 hc => ⟨fun ht => ?_, fun ht => ?_⟩⟩
    · rintro rfl ho hc
      exact Dev.startEntry_nop h ho hc
    · rintro rfl ho hc
      exact Dev.startEntry_giveBack h ho hc
    · rw [Dev.startEntry_copy h ho h3 hc, ht]
      rfl
    · rw [Dev.startEntry_copy h ho h3 hc, if_pos ht]
  case before =>
    intro d r g h t ht h64 _ hh
    exact Dev.mem_ringsBefore ht h64 hh
  case work =>
    intro d g f
    exact ⟨Dev.doEntry_shared, Dev.doEntry_wakes, fun h ha => ⟨fun d1 hc => Dev.doEntry_done h ha hc,
      fun cks p hc => Dev.doEntry_busy h ha hc⟩⟩
  case complete =>
    intro s g f rest d1 hf h1
    refine ⟨fun hm hw => ringEntryComplete_does (Dev.completeEntry_passes hf h1 hm hw),
      fun hm => ringEntryComplete_does (Dev.completeEntry_waits hf (.inl hm)), fun hb ht hn => ?_⟩
    have hfull : s.dev.mirrorFull = true := by simp [Dev.mirrorFull, ht, hn]
    exact ringEntryComplete_does (Dev.completeEntry_waits hf (.inr ⟨hb, hfull⟩))
  case reserved =>
    intro s g d1 hf h1 hf1 hc hs
    have hstart := Dev.completeEntry_none hf h1 hf1 hc hs
    refine ⟨fun h => ringEntryComplete_does (hstart.trans (Dev.startEntry_none 5 h)),
      fun h => ringEntryComplete_does (hstart.trans (Dev.startEntry_lost h)), fun e h h5 => ?_⟩
    have hcode := d1.entryCode_reserved h5
    refine ringEntryComplete_does (hstart.trans ?_)
    rw [Dev.startEntry_fails h (by omega) (by omega), hcode]

end Sys2Proof.Machine
end


section
/-! Firmware, flash, SPDM, measurements and the report (O60). -/

namespace Sys2Proof.Machine

open Sys2Proof Sys2Proof.Claims

/-- A request of the host to the security registers, in its turn. -/
theorem secAsked_does {s : State} {i : Instr} {f : Dev → Dev} {e : Dev}
    (he : exec i s = s.hosted i fun d => d.when d.secReach f) (hh : s.dev.host.held = []) (hr : s.dev.secReach = true)
    (hf : f s.dev = e) : Does i s e :=
  does_of_eq hf (hosted_does (c := Dev.secReach) (f := f) he hh hr)

/-! ### FW_PUSH (R463) -/

section Push

variable {d : Dev} {v : Nat}

theorem Dev.fwPush_again (hp : d.sec.pushGo = true) : d.fwPush v = d := by simp [Dev.fwPush, hp]

theorem Dev.fwPush_length (hg : bitAt v 31 = false) (hp : d.sec.pushGo = false) :
    d.fwPush v = { d with sec.pushLen := fieldAt v 0 24 } := by
  simp [Dev.fwPush, hg, hp]

theorem Dev.fwPush_early (hg : bitAt v 31 = true) (hp : d.sec.pushGo = false)
    (h : d.chip.state ≠ .boot ∨ d.chip.stage ≠ .waitPush) :
    d.fwPush v = { d with sec := { d.sec with pushLen := fieldAt v 0 24, pushGo := true } } := by
  simp only [Dev.fwPush, hg, hp, Bool.not_false, Bool.and_true, Bool.false_eq_true, reduceIte]
  exact if_neg (by obtain h | h := h <;> simp [h])

theorem Dev.fwPush_starts (hg : bitAt v 31 = true) (hp : d.sec.pushGo = false) (hs : d.chip.state = .boot)
    (ht : d.chip.stage = .waitPush) (he : d.chip.startErr = 0) : d.fwPush v = { d with
      chip.stage := .verify
      sec := { d.sec with
        pushLen := fieldAt v 0 24, pushGo := true, stagingLen := pushBytes (fieldAt v 0 24) } } := by
  simp only [Dev.fwPush, hg, hp, Bool.not_false, Bool.and_true, Bool.false_eq_true, reduceIte]
  exact if_pos (by simp [hs, ht, he])

end Push

/-! ### FIRMWARE_VERIFY (R461, R462) -/

section Verify

variable {d : Dev}

theorem Dev.stagedCheck_length (hb : d.hostBoot = true) (h : d.sec.stagingLen < 4112 ∨ 0x800000 < d.sec.stagingLen) :
    d.stagedCheck = 2 :=
  if_pos (by simp only [Bool.and_eq_true, Bool.or_eq_true, decide_eq_true_eq]; exact ⟨hb, h⟩)

theorem Dev.stagedCheck_image (h : d.hostBoot = false ∨ (4112 ≤ d.sec.stagingLen ∧ d.sec.stagingLen ≤ 0x800000)) :
    d.stagedCheck = d.fwCheck d.staged d.sec.stagingLen := by
  refine if_neg fun hc => ?_
  simp only [Bool.and_eq_true, Bool.or_eq_true, decide_eq_true_eq] at hc
  obtain ⟨hb, hl⟩ := hc
  obtain h | h := h
  · exact absurd (hb.symm.trans h) (by decide)
  · have hmax : fwMax = 0x800000 := rfl
    omega

theorem Dev.fwCheck_magic {img : List Byte} {len : Nat} (h : fieldOf img 0 4 ≠ 0x4D57464B) : d.fwCheck img len = 1 :=
  if_pos (by simp [h])

/-- The checks read the fuses and nothing else of the device. -/
theorem Dev.fwCheck_congr {e : Dev} (h : e.fuses = d.fuses) (img : List Byte) (len : Nat) :
    e.fwCheck img len = d.fwCheck img len := by
  unfold Dev.fwCheck Dev.eccSlot Dev.lmsSlot
  rw [h]

theorem Dev.fwVerify_fails {fail : Option Nat} (h : d.stagedCheck ≠ 0) : d.fwVerify fail = d.authFail d.stagedCheck := if_pos h

theorem Dev.fwVerify_good (h : d.stagedCheck = 0) :
    d.fwVerify none = ((d.fuseWork d.staged).foldl Dev.blow d).fwStart d.staged := if_neg (by simp [h])

theorem Dev.fwVerify_fuse {k : Nat} (h : d.stagedCheck = 0) (hk : k < (d.fuseWork d.staged).length) :
    d.fwVerify (some k) = (((d.fuseWork d.staged).take k).foldl Dev.blow d).authFail 9 :=
  (if_neg (by simp [h])).trans (if_pos hk)

theorem firmwareVerify_does {s : State} {fail : Option Nat} {e : Dev} (hs : s.dev.chip.state = .boot)
    (ht : s.dev.chip.stage = .verify) (h0 : s.dev.chip.startErr = 0) (hf : s.dev.fwVerify fail = e) :
    Does (.firmwareVerify fail) s e :=
  when_does (c := fun d => decide (d.chip.state = .boot) && decide (d.chip.stage = .verify) && decide (d.chip.startErr = 0))
    (f := fun d => d.fwVerify fail) rfl (by simp [hs, ht, h0]) hf

end Verify

/-! ### The measurement log (R466) -/

section Log

variable {x : Sec} {m : Meas}

theorem Sec.append_stored (h : x.log.length < 4096) :
    x.append m = { x with log := x.log ++ [m], running := sha384 (x.running ++ m.bytes) } := if_pos h

theorem Sec.append_overflow (h : 4096 ≤ x.log.length) :
    x.append m = { x with running := sha384 (x.running ++ m.bytes), overflow := true } := if_neg (Nat.not_lt.mpr h)

theorem Sec.append_reports (x : Sec) (m : Meas) : (x.append m).reports = x.reports := by
  rw [Sec.append]
  split
  · rfl
  · rfl

theorem Sec.bootEntries_reports (x : Sec) : x.bootEntries.reports = x.reports :=
  (Sec.append_reports _ _).trans (Sec.append_reports _ _)

theorem Sec.append_logLength (h : x.log.length < 4096) : (x.append m).log.length = x.log.length + 1 := by
  rw [Sec.append_stored h, List.length_append, List.length_singleton]

theorem Sec.bootEntries_logLength (h : x.log = []) : x.bootEntries.log.length = 2 := by
  have h0 : x.log.length = 0 := List.length_eq_zero_iff.mpr h
  have h1 (m : Meas) : (x.append m).log.length = 1 := by rw [Sec.append_logLength (by omega), h0]
  rw [Sec.bootEntries, Sec.append_logLength (by rw [h1]; decide), h1]

end Log

section Start

variable (d : Dev) (img : List Byte)

theorem Dev.fwStart_stage : (d.fwStart img).chip.stage = .train :=
  (Dev.startTraining_dieOnly d).keeps (fun a => a.chip.stage) fun _ _ => rfl

theorem Dev.fwStart_fuses : (d.fwStart img).fuses = d.fuses :=
  (Dev.startTraining_dieOnly d).keeps Dev.fuses fun _ _ => rfl

theorem Dev.fwStart_fwValid : (d.fwStart img).sec.fwValid = true := (Sec.bootEntries_firmware _).1

theorem Dev.fwStart_logLength : (d.fwStart img).sec.log.length = 2 := Sec.bootEntries_logLength rfl

theorem Dev.fwStart_reports : (d.fwStart img).sec.reports = 0 := Sec.bootEntries_reports _

end Start

/-! ### FLASH_UPDATE (R464) -/

theorem Dev.leaveCells_fuses (d : Dev) (p : Party) : (d.leaveCells p).fuses = d.fuses := by
  rw [Dev.leaveCells]
  exact foldl_keep Dev.fuses _ _ _ fun _ _ => rfl

theorem Dev.leaveStripes_fuses (d : Dev) (p : Party) : (d.leaveStripes p).fuses = d.fuses := by
  rw [Dev.leaveStripes]
  exact foldl_keep Dev.fuses _ _ _ fun _ _ => rfl

theorem Dev.unserve_fuses (d : Dev) (p : Party) : (d.unserve p).fuses = d.fuses :=
  ((d.leaveCells p).leaveStripes_fuses p).trans (d.leaveCells_fuses p)

section Flash

variable {d : Dev} {img : List Byte} {ok : Bool}

theorem Dev.flashWith_fails {n : Nat} (hc : d.fwCheck img img.length = n) (hn : n ≠ 0) :
    d.flashWith img ok = { d with sec := { d.sec with flashCode := 2, authErr := n } } := by
  subst hc
  exact if_pos hn

theorem Dev.flashWith_programs (hc : d.fwCheck img img.length = 0) : d.flashWith img ok = { d with
    sec.flashCode := if ok then 0 else 3
    out := d.out ++ [.flashParams, .flashErase, .flashProgram (img.take (4096 + fieldOf img 0x010 4))] } := by
  refine (if_neg (by simp [hc])).trans ?_
  simp [Dev.emit]

section End

variable {d1 : Dev} {r : Acc (Dev × List Byte)} (hr : r = .ok (d1, img))
include hr

theorem Dev.flashEnd_fails (hc : d1.fwCheck img img.length ≠ 0) : d.flashEnd r ok = { d1.unserve mgmtWho.party with
    sec := { (d1.unserve mgmtWho.party).sec with
      flashRun := none, flashCode := 2, authErr := d1.fwCheck img img.length } } := by
  subst hr
  exact congrArg (fun a : Dev => { a with sec.flashRun := none })
    (Dev.flashWith_fails (Dev.fwCheck_congr (Dev.unserve_fuses d1 _) img img.length) hc)

theorem Dev.flashEnd_programs (hc : d1.fwCheck img img.length = 0) : d.flashEnd r ok = { d1.unserve mgmtWho.party with
    sec := { (d1.unserve mgmtWho.party).sec with flashRun := none, flashCode := if ok then 0 else 3 }
    out := (d1.unserve mgmtWho.party).out ++
      [.flashParams, .flashErase, .flashProgram (img.take (4096 + fieldOf img 0x010 4))] } := by
  subst hr
  exact congrArg (fun a : Dev => { a with sec.flashRun := none })
    (Dev.flashWith_programs ((Dev.fwCheck_congr (Dev.unserve_fuses d1 _) img img.length).trans hc))

end End

section Update

variable {v : Nat}

theorem Dev.flashUpdate_pageOnly (h : d.sec.fwValid = false ∨ d.sec.flashRun ≠ none) :
    d.flashUpdate v ok = { d with sec.flashPage := fieldAt v 0 17 } :=
  if_pos (by obtain h | h := h <;> simp [h, Option.isSome_iff_ne_none])

variable (hg : bitAt v 31 = true) (hv : d.sec.fwValid = true) (hl : d.regsLive = true) (hn : d.sec.flashRun = none)
include hg hv hl hn

theorem Dev.flashUpdate_safeBoot (hs : d.chip.straps.safeBoot = true) : d.flashUpdate v ok =
    { d with sec := { d.sec with flashPage := fieldAt v 0 17, flashCode := 1 } } :=
  (if_neg (by simp [hg, hv, hl, hn])).trans (if_pos hs)

theorem Dev.flashUpdate_runs (hs : d.chip.straps.safeBoot = false) (hc : d.clk.coast = false)
    (hw : fieldAt v 0 17 < d.windowPages) {d1 : Dev} (hd : d1 = { d with sec := { d.sec with
      flashPage := fieldAt v 0 17, flashRun := some (fieldAt v 0 17, ok) } }) :
    d.flashUpdate v ok = d1.flashEnd (d1.flashRead (fieldAt v 0 17)) ok := by
  have hon : d1.flashOn = d1.flashEnd (d1.flashRead (fieldAt v 0 17)) ok := by
    have hrun : d1.sec.flashRun = some (fieldAt v 0 17, ok) := by rw [hd]
    have hcoast : d1.clk.coast = false := by rw [hd, hc]
    have hlive : d1.regsLive = true := by rw [hd]; exact hl
    rw [Dev.flashOn, hrun]
    exact if_neg (by simp [hcoast, hlive])
  rw [← hon, hd]
  exact ((if_neg (by simp [hg, hv, hl, hn])).trans (if_neg (by simp [hs]))).trans (if_neg (Nat.not_le.mpr hw))

end Update

theorem flashUpdate_does {s : State} {v : Word} {e : Dev} (hh : s.dev.host.held = []) (hr : s.dev.secReach = true)
    (hf : s.dev.flashUpdate v.toNat ok = e) : Does (.flashUpdate v ok) s e :=
  secAsked_does (f := fun d => d.flashUpdate v.toNat ok) rfl hh hr hf

end Flash

/-! ### SPDM (R468) -/

section Spdm

variable {d : Dev} {q : SpdmReq}

theorem Dev.spdm_silent {p : SpdmPort} (h : d.sec.fwValid = false) : d.spdm p q = { d with
    sec.doeErr := d.sec.doeErr || decide (p = SpdmPort.doe), out := d.out ++ [.spdm p none] } :=
  if_pos (by simp [h])

section Runs

variable {p : SpdmPort} (hv : d.sec.fwValid = true) (ht : d.chip.state ≠ .thermalOff)
include hv ht

theorem Dev.spdm_unreached (hr : d.spdmReaches p = false) : d.spdm p q = { d with out := d.out ++ [.spdm p none] } :=
  (if_neg (by simp [hv, ht])).trans (if_pos (by simp [hr]))

theorem Dev.spdm_answers (hr : d.spdmReaches p = true) : d.spdm p q = { d with
    free := d.free + 1, sec := d.sec.setConn p (d.spdmVersioned (d.sec.conn p) q).1
    out := d.out ++ [.spdm p (some (d.spdmVersioned (d.sec.conn p) q).2)] } :=
  (if_neg (by simp [hv, ht])).trans (if_neg (by simp [hr]))

end Runs

theorem Dev.spdmVersioned_supported {c : Spdm}
    (h : (q.body = .getVersion ∧ q.version = 0x10) ∨ (q.body ≠ .getVersion ∧ q.version = 0x12)) :
    d.spdmVersioned c q = d.spdmAnswer c q.body := by
  rw [Dev.spdmVersioned]
  refine if_pos ?_
  split
  next hb => simpa [hb] using h
  next hb => simpa [show q.body ≠ .getVersion from hb] using h

theorem Dev.spdmVersioned_other {c : Spdm}
    (h : (q.body = .getVersion ∧ q.version ≠ 0x10) ∨ (q.body ≠ .getVersion ∧ q.version ≠ 0x12)) :
    d.spdmVersioned c q = (c, [0x12, 0x7F, 0x41, 0]) := by
  rw [Dev.spdmVersioned]
  refine if_neg ?_
  split
  next hb => simpa [hb] using h
  next hb => simpa [show q.body ≠ .getVersion from hb] using h

theorem spdmRequest_does {s : State} {p : SpdmPort} {e : Dev} (hw : wellFormed (.spdmRequest p q) = true)
    (hf : s.dev.spdm p q = e) : Does (.spdmRequest p q) s e :=
  checked_does (f := fun d => d.spdm p q) rfl hw hf

end Spdm

/-! ### The report (R469, R470) -/

section Report

variable {d : Dev}

theorem Dev.reportStart_exhausted (h : 1024 ≤ d.sec.reports ∨ 1024 ≤ d.fuses.reportBits) :
    d.reportStart = { d with sec.repBody := [] } :=
  if_pos (by simpa using h)

section Left

variable (hr : d.sec.reports < 1024) (hb : d.fuses.reportBits < 1024)
include hr hb

theorem Dev.reportStart_first (ht : d.sec.topLeaf = none) : d.reportStart =
    { d with fuses.reportBits := d.fuses.reportBits + 1, sec.topLeaf := some d.fuses.reportBits } :=
  (if_neg (by simp [hr, hb])).trans (if_pos (by simp [ht]))

theorem Dev.reportStart_later (ht : d.sec.topLeaf ≠ none) : d.reportStart = d :=
  (if_neg (by simp [hr, hb])).trans (if_neg (by simpa using ht))

end Left

/-- The device once a GO is accepted: BUSY, with the report's body and no data. -/
def Dev.reportBusy (d : Dev) : Dev := { d with sec := { d.sec with repStatus := 1, repData := [], repBody := d.reportBody } }

theorem Dev.reportGo_busy (h : d.sec.repStatus = 1) : d.reportGo = d := if_pos (by simp [h])

section Go

variable (hv : d.sec.fwValid = true) (hs : d.sec.repStatus ≠ 1)
include hv hs

theorem Dev.reportGo_held (ht : d.sec.treeReady = false) : d.reportGo = { d.reportBusy with sec.heldGo := true } :=
  (if_neg (by simp [hv, hs])).trans (if_neg (by simp [ht]))

theorem Dev.reportGo_starts (ht : d.sec.treeReady = true) : d.reportGo = d.reportBusy.reportStart :=
  (if_neg (by simp [hv, hs])).trans (if_pos ht)

end Go

theorem Dev.reportDone_exhausted (h : d.sec.repBody = []) :
    d.reportDone = { d with sec.repStatus := 3, sec.repData := [] } :=
  if_pos (by simp [h])

theorem Dev.reportDone_signed (h : d.sec.repBody ≠ []) : d.reportDone = { d with sec := { d.sec with
    repStatus := 2, reports := d.sec.reports + 1
    repData := d.sec.repBody ++ hssSignature (d.sec.topLeaf.getD 0) d.sec.reports d.sec.repBody } } :=
  if_neg (by simpa using h)

theorem reportGo_does {s : State} {e : Dev} (hh : s.dev.host.held = []) (hr : s.dev.secReach = true)
    (hf : s.dev.reportGo = e) : Does .reportGo s e :=
  secAsked_does (f := Dev.reportGo) rfl hh hr hf

theorem reportDone_does {s : State} {e : Dev} (hs : s.dev.sec.repStatus = 1) (ht : s.dev.sec.treeReady = true)
    (hf : s.dev.reportDone = e) : Does .reportDone s e :=
  when_does (c := fun d => decide (d.sec.repStatus = 1) && d.sec.treeReady) (f := Dev.reportDone) rfl (by simp [hs, ht]) hf

/-- The tree is ready, and no GO is held. -/
def Dev.withTree (d : Dev) : Dev := { d with sec := { d.sec with treeReady := true, heldGo := false } }

theorem reportTreeReady_does {s : State} {e : Dev} (hv : s.dev.sec.fwValid = true) (ht : s.dev.sec.treeReady = false)
    (hf : (if s.dev.sec.heldGo then s.dev.withTree.reportStart else s.dev.withTree) = e) : Does .reportTreeReady s e :=
  when_does (c := fun d => d.sec.fwValid && !d.sec.treeReady)
    (f := fun d => if d.sec.heldGo then d.withTree.reportStart else d.withTree) rfl (by simp [hv, ht]) hf

end Report

/-! ### The signature of a report (R469) -/

theorem be32_length (n : Nat) : (be32 n).length = 4 := by simp [be32]

theorem lmsSignature_length (key q : Nat) (msg : List Byte) : (lmsSignature key q msg).length = 1452 := by
  simp [lmsSignature, be32_length]

theorem lmsPublic_length (key : Nat) : (lmsPublic key).length = 56 := by simp [lmsPublic, be32_length]

theorem hssSignature_length (top q : Nat) (msg : List Byte) : (hssSignature top q msg).length = 2964 := by
  simp [hssSignature, be32_length, lmsSignature_length, lmsPublic_length]

/-- Settles O60: each command is one branch of its function, and the statement names the branch by the state. -/
theorem securityCommands : Obligations.SecurityCommands := by
  unfold Obligations.SecurityCommands
  refine ⟨?pushStarts, ?push, ?staged, ?verifyFails, ?verifyGood, ?verifyFuse, ?verifyIdle, ?magic, ?start, ?stored, ?overflow,
    ?flashSafe, ?flash, ?flashBusy, ?flashNoFirmware, ?spdmSilent, ?spdmMctp, ?spdmDoe, ?spdmVersion, ?measRunning, ?goHeld, ?go,
    ?goBusy, ?treeGo, ?tree, ?doneSigned, ?signature, ?doneExhausted, ?doneIdle⟩
  case pushStarts =>
    intro s v hh hr hg hp hs ht he
    exact secAsked_does (f := fun d => d.fwPush v.toNat) rfl hh hr (Dev.fwPush_starts (by rwa [bitAt_toNat]) hp hs ht he)
  case push =>
    intro s v hh hr
    refine ⟨fun hg hp => ?_, fun hg hp h => ?_, fun hp => ?_⟩
    · exact secAsked_does (f := fun d => d.fwPush v.toNat) rfl hh hr (Dev.fwPush_length (by rwa [bitAt_toNat]) hp)
    · exact secAsked_does (f := fun d => d.fwPush v.toNat) rfl hh hr (Dev.fwPush_early (by rwa [bitAt_toNat]) hp h)
    · exact secAsked_does (f := fun d => d.fwPush v.toNat) rfl hh hr (Dev.fwPush_again hp)
  case staged => exact fun d => ⟨Dev.stagedCheck_length, Dev.stagedCheck_image⟩
  case verifyFails =>
    intro s fail e hs ht h0 he hne
    subst he
    exact firmwareVerify_does hs ht h0 (Dev.fwVerify_fails hne)
  case verifyGood => exact fun s hs ht h0 he => firmwareVerify_does hs ht h0 (Dev.fwVerify_good he)
  case verifyFuse => exact fun s k hs ht h0 he hk => firmwareVerify_does hs ht h0 (Dev.fwVerify_fuse he hk)
  case verifyIdle =>
    intro s fail ht
    exact when_idle (c := fun d => decide (d.chip.state = .boot) && decide (d.chip.stage = .verify) &&
      decide (d.chip.startErr = 0)) (f := fun d => d.fwVerify fail) rfl (by simp [ht])
  case magic => exact fun d img len => Dev.fwCheck_magic
  case start =>
    exact fun d img => ⟨d.fwStart_stage img, d.fwStart_fwValid img, d.fwStart_logLength img, d.fwStart_reports img,
      d.fwStart_fuses img⟩
  case stored => exact fun x m => Sec.append_stored
  case overflow => exact fun x m => Sec.append_overflow
  case flashSafe =>
    intro s v ok hh hr hg hv hl hn hs
    exact flashUpdate_does hh hr (Dev.flashUpdate_safeBoot (by rwa [bitAt_toNat]) hv hl hn hs)
  case flash =>
    intro s v ok d1 hh hr hg hv hl hn hs hc hw hd
    have hruns : s.dev.flashUpdate v.toNat ok = d1.flashEnd (d1.flashRead (fieldAt v.toNat 0 17)) ok :=
      Dev.flashUpdate_runs (by rwa [bitAt_toNat]) hv hl hn hs hc hw hd
    refine ⟨fun d2 d3 img hread h3 => ?_, fun cks p hread => ?_⟩
    · subst h3
      refine ⟨fun hbad => ?_, fun hgood => ?_⟩
      · exact flashUpdate_does hh hr (hruns.trans (Dev.flashEnd_fails hread hbad))
      · exact flashUpdate_does hh hr (hruns.trans (Dev.flashEnd_programs hread hgood))
    · exact flashUpdate_does hh hr (hruns.trans (congrArg (fun r => d1.flashEnd r ok) hread))
  case flashBusy => exact fun s v ok hh hr hn => flashUpdate_does hh hr (Dev.flashUpdate_pageOnly (.inr hn))
  case flashNoFirmware => exact fun s v ok hh hr hv => flashUpdate_does hh hr (Dev.flashUpdate_pageOnly (.inl hv))
  case spdmSilent => exact fun s p q hw hv => spdmRequest_does hw (Dev.spdm_silent hv)
  case spdmMctp =>
    intro s q a hw hv ht
    refine ⟨fun ha => ?_, fun ha => ?_⟩
    · exact spdmRequest_does hw (Dev.spdm_unreached hv ht (decide_eq_false ha))
    · exact spdmRequest_does hw (Dev.spdm_answers hv ht (decide_eq_true ha))
  case spdmDoe => exact fun s q hw hv ht hl => spdmRequest_does hw (Dev.spdm_answers hv ht hl)
  case spdmVersion => exact fun d c q => ⟨Dev.spdmVersioned_supported, Dev.spdmVersioned_other⟩
  case measRunning =>
    intro s hh hr
    exact secAsked_does (f := fun d => ({ d with sec.latch := d.sec.running }).emit
      (.readDone 0 measRunningAt (slice d.sec.running 0 4) false)) rfl hh hr rfl
  case goHeld => exact fun s hh hr hv hs ht => reportGo_does hh hr (Dev.reportGo_held hv hs ht)
  case go =>
    intro s hh hr hv hs ht
    have hgo : s.dev.reportGo = s.dev.reportBusy.reportStart := Dev.reportGo_starts hv hs ht
    refine ⟨fun hn hb hl => ?_, fun hn hb hl => ?_, fun h => ?_⟩
    · exact reportGo_does hh hr (hgo.trans (Dev.reportStart_later (d := s.dev.reportBusy) hn hb hl))
    · exact reportGo_does hh hr (hgo.trans (Dev.reportStart_first (d := s.dev.reportBusy) hn hb hl))
    · exact reportGo_does hh hr (hgo.trans (Dev.reportStart_exhausted (d := s.dev.reportBusy) h))
  case goBusy => exact fun s hh hs => hosted_still (c := Dev.secReach) (f := Dev.reportGo) rfl hh (Dev.reportGo_busy hs)
  case treeGo =>
    intro s hv ht hg hn hl hb
    exact reportTreeReady_does hv ht ((if_pos hg).trans (Dev.reportStart_first (d := s.dev.withTree) hn hb hl))
  case tree => exact fun s hv ht hg => reportTreeReady_does hv ht (if_neg (by simp [hg]))
  case doneSigned => exact fun s hs ht hb => reportDone_does hs ht (Dev.reportDone_signed hb)
  case signature => exact fun top q msg => ⟨hssSignature_length top q msg, rfl⟩
  case doneExhausted => exact fun s hs ht hb => reportDone_does hs ht (Dev.reportDone_exhausted hb)
  case doneIdle =>
    intro s hs
    exact when_idle (c := fun d => decide (d.sec.repStatus = 1) && d.sec.treeReady) (f := Dev.reportDone) rfl (by simp [hs])

end Sys2Proof.Machine

end
